-- ==== Sys2Proof/Word.lean ====
section
/-!
DEFINITION. Word.lean: the fixed widths of the device and their plainest arithmetic (spec 00 R1, 01 R8).
-/
namespace Sys2Proof

/-- One byte of any memory. -/
abbrev Byte := BitVec 8
/-- A 32-bit register. -/
abbrev Word := BitVec 32
/-- A 64-bit value, held in a register pair or a special register. -/
abbrev DWord := BitVec 64
/-- A 96-bit instruction word (spec 03 R43). -/
abbrev IWord := BitVec 96
/-- A 64-byte fetch line (spec 03 R37). -/
abbrev FLine := BitVec 512
/-- One accumulator entry (spec 08 R142). -/
abbrev AccEntry := BitVec 36

/-- A table keyed by natural numbers, in rising key order. A key that is not listed has the table's reset value. -/
abbrev Tab (α : Type) := List (Nat × α)

/-- Concatenation of two words into a pair, low word first (spec 02 R31). -/
def pairOf (lo hi : Word) : DWord := hi ++ lo
/-- The low word of a pair. -/
def loW (x : DWord) : Word := x.extractLsb' 0 32
/-- The high word of a pair. -/
def hiW (x : DWord) : Word := x.extractLsb' 32 32

end Sys2Proof
end

