-- ==== Sys2Proof/Config.lean ====
section
/-!
DEFINITION. Config.lean: the fixed figures of the LZD-2900 (spec 01 R7 to R12) and the values the spec leaves open.
-/
namespace Sys2Proof.Config

/-- Cores of the device (spec 01 R7). -/
def numCores : Nat := 128
/-- Clusters of the device (spec 01 R7). -/
def numClusters : Nat := 16
/-- Wave slots of a quadrant (spec 01 R7). -/
def numSlots : Nat := 32
/-- The handler slot, outside the 32 slots of a quadrant (spec 21 R403). -/
def handlerSlot : Nat := 32
/-- Entries of the context table (spec 19 R367). -/
def numContexts : Nat := 64
/-- Launch queues (spec 15 R303). -/
def numQueues : Nat := 4096
/-- Tasks a core's list holds (spec 15 R301). -/
def taskListMax : Nat := 4096
/-- Entries of the lineage table (spec 16 R320). -/
def lineageMax : Nat := 65536
/-- Sequence entries (spec 17 R347). -/
def numSequences : Nat := 16384
/-- Bytes of local device memory (spec 09 R169). -/
def localLimit : Nat := 0x18000000000
/-- Ways of an L2 set, and the lines of one set that may be evict-last; sets of a slice of 3 MiB (spec 01 R9, 09 R188). -/
def l2Ways : Nat := 16
def l2Last : Nat := 12
def l2Sets : Nat := 768
/-- Cycles after which a ready thread is aged (spec 02 R26). -/
def agedCycles : Nat := 4096
/-- Bytes of the physical address space (spec 09 R169). -/
def paSize : Nat := 0x10000000000000

/-- The free value at each count: nothing in Lean can evaluate it (log entry 8). -/
opaque freeValue : Nat → BitVec 64
/-- The private identity key, which the PUF gives (spec 23 R433, log entry 9). -/
opaque identityKey : BitVec 256
/-- The nonce that the signer draws for a digest (spec 01 R13, log entry 9). -/
opaque signNonce : BitVec 256 → BitVec 256
/-- Which of sixteen differing C64 entries translates, by context and page (spec 19 R372, log entry 8). -/
opaque c64Choice : Nat → Nat → BitVec 4

/-- Whether a memory channel's devices have mode-register revision 2 (spec 23 R434). -/
opaque channelRev : Nat → Bool
/-- The link features of this module (spec 13 R282). -/
opaque linkFeatures : Word
/-- How management firmware routes packets to a module: the port, then CNT and TURNS of their flits (spec 13 R281, 23 R435). -/
opaque portTo : Nat → Nat
opaque route : Nat → BitVec 76
/-- The payload of each flit of a packet, by the packet's type, address, size, operator, operands and data, and the same fields
read from the payloads that have arrived: field 0 is the number of flits (spec 13 R281 gives the payload no layout; log entry 38). -/
opaque flitPayload : List Nat → Nat → BitVec 512
opaque payloadField : List (BitVec 512) → Nat → Nat

/-- The physical address of a backing page, by team and page, which the device chooses (spec 09 R171; log entry 79). -/
opaque backingPage : Nat → Nat → Nat
/-- What another module's memory holds when a device engine reads it, by a count and the address (log entry 78). -/
opaque remoteByte : Nat → Nat → BitVec 8

end Sys2Proof.Config
end

