-- ==== Sys2Proof/Syntax.lean ====
section
/-!
DEFINITION. Syntax.lean: the instructions and events of the opcode table, one constructor per row, and the plain
data they carry. An instruction carries the fields of its 96-bit word (spec 03 R43) but OP, which its constructor
names; an event carries the inputs that outside agents, sensors and the scheduler give it.
-/
namespace Sys2Proof

/-- What one of the four operand codes of an instruction word names (spec 03 R44). -/
inductive Opnd where
  | reg (n : BitVec 6)      -- v0 to v63, codes 0x00 to 0x3F
  | latch (n : BitVec 3)    -- q0 to q7, codes 0x40 to 0x47
  | pred (n : BitVec 3)     -- p0 to p7, codes 0x48 to 0x4F
  | imm                     -- 0x50
  | zero                    -- 0x51
  | special (k : Fin 10)    -- 0x52 to 0x5B (spec 03 R45)
  | const                   -- 0x60
  | resv (c : BitVec 8)     -- any other code
deriving DecidableEq, Repr

/-- The fields of an instruction word below OP (spec 03 R43). -/
structure Fields where
  fn   : BitVec 8
  stop : Bool
  nw   : Bool
  lq   : BitVec 4
  pg   : BitVec 4
  d    : Opnd
  a    : Opnd
  b    : Opnd
  c    : Opnd
  mod  : BitVec 6
  imm  : Word
deriving DecidableEq, Repr

/-- The engines of a core that run programs (spec 12 R264 to R266). -/
inductive Engine where
  | copy
  | matrix
  | lcp
deriving DecidableEq, Repr

/-- What a memory array returned: data, corrected data or an uncorrectable error (spec 21 R412). -/
inductive ReadOutcome where
  | clean
  | corrected
  | uncorrectable
deriving DecidableEq, Repr

/-- The agents that reach memory-mapped registers (spec 21 R402). -/
inductive Agent where
  | host (fn : Nat)      -- through the BAR0 of one CXL.io function
  | ctx (x : Nat)        -- privileged threads of one context
  | mgmt                 -- the management core
  | halyard (cl : Nat)   -- the Halyard core of one cluster
  | guidon
deriving DecidableEq, Repr

/-- The kinds of far operation (spec 13 R272). -/
inductive FarKind where
  | atom
  | cas
  | red
  | ldl
  | stc
deriving DecidableEq, Repr

/-- One operation that a home slice performs (spec 13 R272). -/
structure FarOp where
  core : Nat
  kind : FarKind
  op   : BitVec 4
  pa   : Nat
  b    : DWord
  c    : DWord
deriving DecidableEq, Repr

/-- A credit to a barrier object, in a team's scratchpad or at a physical address (spec 12 R241). -/
structure Credit where
  team   : Option Nat
  addr   : Nat
  bytes  : Nat
  failed : Bool
  cause  : Byte
deriving DecidableEq, Repr

/-- An 80-byte fabric flit (spec 13 R281). -/
structure Flit where
  head    : BitVec 128
  payload : BitVec 512
deriving DecidableEq, Repr

/-- A fabric packet of one sequence number, as its destination reads it (spec 13 R281, R283). -/
structure Packet where
  src  : Nat
  flow : Nat
  seq  : Word
  typ  : BitVec 4
  pa   : Nat
  size : Nat
  op   : BitVec 4
  b    : DWord
  c    : DWord
  data : BitVec 2048
  secure : Bool := false   -- on a flow opened for secure contexts (spec 19 R375)
  ordered : Bool := false  -- on an ordered flow
deriving DecidableEq, Repr

/-- The home's answer to a lease renewal (spec 13 R285). -/
inductive RenewalAnswer where
  | unchanged
  | data (bytes : BitVec 2048) (version : Word) (lease : Bool)
deriving DecidableEq, Repr

/-- A signed record as a boot ROM or the management firmware reads it from flash, with the public key offered for it, x then y (spec 23
R432). -/
structure BootRecord where
  bytes : List Byte
  key   : BitVec 512
deriving DecidableEq, Repr

/-- A context that the configuration record names (spec 19 R375). -/
structure CtxSpec where
  root  : Nat
  world : Bool
  dbg   : Bool
  svc   : Bool
  meas  : BitVec 256
  fn    : Nat
deriving DecidableEq, Repr

/-- What the signed configuration record sets (spec 19 R375, 23 R430, R432). -/
structure ConfigRecord where
  minVersions    : List (Nat × Word)        -- per record kind
  moduleIndex    : Nat
  podMembers     : List Nat
  ports          : List Nat                 -- fabric ports it enables
  leaseNs        : Nat
  secureCores    : List Nat
  sliceWays      : List (Nat × Nat)
  secureGranules : List (Nat × Nat)         -- first granule and count
  securePorts    : List Nat
  secureFns      : List Nat
  parts          : List (Nat × Nat × Word)  -- core, entry, CORE_PART word
  contexts       : List CtxSpec
deriving DecidableEq, Repr

/-- The steps of the opcode table: 200 instructions, the 44 events that the device's own schedule raises, and the others. -/
inductive Instr where
  | iadd (f : Fields)
  | isub (f : Fields)
  | iaddc (f : Fields)
  | isubb (f : Fields)
  | imul (f : Fields)
  | imulh (f : Fields)
  | imad (f : Fields)
  | idot4 (f : Fields)
  | imin (f : Fields)
  | imax (f : Fields)
  | iabs (f : Fields)
  | ineg (f : Fields)
  | andB (f : Fields)
  | orB (f : Fields)
  | xorB (f : Fields)
  | andnB (f : Fields)
  | notB (f : Fields)
  | shl (f : Fields)
  | shr (f : Fields)
  | sar (f : Fields)
  | rotl (f : Fields)
  | funsh (f : Fields)
  | bfx (f : Fields)
  | bfi (f : Fields)
  | popc (f : Fields)
  | clz (f : Fields)
  | ctz (f : Fields)
  | brev (f : Fields)
  | permb (f : Fields)
  | sel (f : Fields)
  | isetp (f : Fields)
  | plop (f : Fields)
  | mov (f : Fields)
  | movi (f : Fields)
  | fadd (f : Fields)
  | fsub (f : Fields)
  | fmul (f : Fields)
  | ffma (f : Fields)
  | fmin (f : Fields)
  | fmax (f : Fields)
  | fsetp (f : Fields)
  | fclass (f : Fields)
  | frint (f : Fields)
  | fscale (f : Fields)
  | hadd2 (f : Fields)
  | hfma2 (f : Fields)
  | cvt (f : Fields)
  | sfn (f : Fields)
  | shfl (f : Fields)
  | vote (f : Fields)
  | redw (f : Fields)
  | prfx (f : Fields)
  | matchL (f : Fields)
  | hlane (f : Fields)
  | exmrd (f : Fields)
  | exmwr (f : Fields)
  | exmand (f : Fields)
  | exmor (f : Fields)
  | tidx (f : Fields)
  | shpset (f : Fields)
  | isect (f : Fields)
  | deskew (f : Fields)
  | pillar (f : Fields)
  | lmul (f : Fields)
  | lsum (f : Fields)
  | lcvt (f : Fields)
  | bpack (f : Fields)
  | bunpk (f : Fields)
  | clamp (f : Fields)
  | scle (f : Fields)
  | ld (f : Fields)
  | st (f : Fields)
  | lds (f : Fields)
  | sts (f : Fields)
  | ldw (f : Fields)
  | stw (f : Fields)
  | ldc (f : Fields)
  | pref (f : Fields)
  | cwb (f : Fields)
  | cinv (f : Fields)
  | cdemote (f : Fields)
  | atom (f : Fields)
  | cas (f : Fields)
  | red (f : Fields)
  | ldl (f : Fields)
  | stc (f : Fields)
  | fence (f : Fields)
  | acq (f : Fields)
  | rel (f : Fields)
  | bind (f : Fields)
  | unbind (f : Fields)
  | waitc (f : Fields)
  | bar (f : Fields)
  | leaseGet (f : Fields)
  | leaseDrop (f : Fields)
  | leaseDropall (f : Fields)
  | boinit (f : Fields)
  | boarr (f : Fields)
  | botok (f : Fields)
  | bowait (f : Fields)
  | bowaitp (f : Fields)
  | rinit (f : Fields)
  | rget (f : Fields)
  | rputRes (f : Fields)
  | rputPub (f : Fields)
  | rrel (f : Fields)
  | rstat (f : Fields)
  | evmap (f : Fields)
  | evsig (f : Fields)
  | evwait (f : Fields)
  | cp (f : Fields)
  | cpblk (f : Fields)
  | fork (f : Fields)
  | rdv (f : Fields)
  | mldb (f : Fields)
  | mma (f : Fields)
  | accz (f : Fields)
  | accsc (f : Fields)
  | accld (f : Fields)
  | accst (f : Fields)
  | msel (f : Fields)
  | mnext (f : Fields)
  | mwaite (f : Fields)
  | msig (f : Fields)
  | mend (f : Fields)
  | mendLoop (f : Fields)
  | loopL (f : Fields)
  | endl (f : Fields)
  | emit (f : Fields)
  | permw (f : Fields)
  | lset (f : Fields)
  | lend (f : Fields)
  | spawn (f : Fields)
  | spawnt (f : Fields)
  | launchg (f : Fields)
  | exit (f : Fields)
  | yield (f : Fields)
  | cancel (f : Fields)
  | dlset (f : Fields)
  | dlrd (f : Fields)
  | cqbind (f : Fields)
  | cqbindOff (f : Fields)
  | cqpush (f : Fields)
  | cqflush (f : Fields)
  | futwait (f : Fields)
  | futpoll (f : Fields)
  | poola (f : Fields)
  | poolf (f : Fields)
  | qcol (f : Fields)
  | qocc (f : Fields)
  | sample (f : Fields)
  | sampleAcc (f : Fields)
  | seqnew (f : Fields)
  | seqfork (f : Fields)
  | seqend (f : Fields)
  | seqcommit (f : Fields)
  | seqcommitConf (f : Fields)
  | seqdraft (f : Fields)
  | seqrej (f : Fields)
  | seqrd (f : Fields)
  | pnset (f : Fields)
  | pnclr (f : Fields)
  | bra (f : Fields)
  | brx (f : Fields)
  | call (f : Fields)
  | callx (f : Fields)
  | ret (f : Fields)
  | nop (f : Fields)
  | trap (f : Fields)
  | trapPriv (f : Fields)
  | eret (f : Fields)
  | eretExit (f : Fields)
  | eretFail (f : Fields)
  | eretE (f : Fields)
  | eretEDone (f : Fields)
  | eretEDone64 (f : Fields)
  | sreg (f : Fields)
  | swr (f : Fields)
  | bkpt (f : Fields)
  | mark (f : Fields)
  | smpl (f : Fields)
  | tlbinvPage (f : Fields)
  | tlbinvCtx (f : Fields)
  | tlbinvAll (f : Fields)
  | ctxsetNew (f : Fields)
  | ctxsetRoot (f : Fields)
  | ctxsetKill (f : Fields)
  | wsetCore (f : Fields)
  | wsetSlice (f : Fields)
  | wsetGran (f : Fields)
  | wsetPort (f : Fields)
  | wsetFn (f : Fields)
  | regionCoh (f : Fields)
  | regionSwm (f : Fields)
  | biassetDev (f : Fields)
  | biassetHost (f : Fields)
  | wsave (f : Fields)
  | wrest (f : Fields)
  | sppin (f : Fields)
  | spunpin (f : Fields)
  | launchAcceptResume (queue : Nat)
  | taskEmissionResume (grid : Nat)
  | dispatchDecision (core : Nat)
  | waveFormation (core : Nat) (quad : Nat)
  | formingWaveTimeout (wave : Nat)
  | issue (core : Nat) (quad : Nat)
  | yieldExpiry (thread : Nat)
  | teamRetire (team : Nat)
  | gridDrain (grid : Nat)
  | taskTransitArrival (task : Nat)
  | preemption (team : Nat)
  | teamRestore (core : Nat) (task : Nat)
  | l1SplitChange (core : Nat)
  | deadlineFire (grid : Nat)
  | binTimeout (core : Nat) (bin : Nat)
  | tileEmit (core : Nat) (bin : Nat)
  | scratchpadRefill (team : Nat) (page : Nat)
  | missEntryGrant (core : Nat)
  | missDataFill (core : Nat) (sector : Nat) (outcome : ReadOutcome)
  | tlbWalk (index : Nat)
  | invalidation (core : Nat) (line : Nat)
  | invalidationAck (core : Nat) (line : Nat)
  | mergeRequest (line : Nat)
  | merge (line : Nat)
  | writebackAck (core : Nat) (line : Nat)
  | monitorWake (monitor : Nat)
  | monitorPoll (thread : Nat)
  | copySector (core : Nat) (outcome : ReadOutcome)
  | copyComplete (core : Nat) (copy : Nat)
  | sinkMprogStart (core : Nat) (sink : Nat)
  | sinkCopySubmit (core : Nat) (sink : Nat)
  | engineProgramFetch (core : Nat) (engine : Engine)
  | queryComplete (cluster : Nat)
  | packetDeliver (packet : Packet)
  | retransmitTimeout (flow : Nat) (seq : Word)
  | burgeeHold (channel : Nat)
  | leaseEmbargoEnd (page : Nat)
  | waveSample (core : Nat) (context : Nat)
  | comparatorMatch (pair : Nat)
  | comparatorTimeout (pair : Nat)
  | trapServe (core : Nat)
  | matrixCommandComplete (core : Nat)
  | vacateHoldExpiry (cluster : Nat)
  | phbHoldTimeout (bank : Nat)
  | lqTailWrite (queue : Nat) (tail : Word)
  | neighbourAveraging
  | thermalMigrationScan (temps : List (Nat × Nat))
  | contextSwitch (core : Nat)
  | dirReadRequest (line : Nat) (core : Nat)
  | dirOwnershipRequest (line : Nat) (core : Nat)
  | dirBuntingRequest (line : Nat) (core : Nat) (tag : BitVec 4)
  | dirRecall (line : Nat)
  | l1Eviction (core : Nat) (line : Nat)
  | farOperation (op : FarOp)
  | barrierCredit (credit : Credit)
  | hostRead (pa : Nat) (size : Nat)
  | hostWrite (pa : Nat) (size : Nat) (data : BitVec 512)
  | birsp (line : Nat) (data : Option (BitVec 2048))
  | eventPulse (core : Nat) (source : Nat)
  | engineFault (core : Nat) (engine : Engine) (cause : Byte) (addr : DWord)
  | leaseExpiry (line : Nat)
  | fabricFlitRoute (flit : Flit)
  | e2eAck (flow : Nat) (seq : Word)
  | linkReplay (port : Nat)
  | negotiationFlit (port : Nat) (flit : Flit)
  | freezeFlit (port : Nat) (flit : Flit)
  | leaseRenewal (line : Nat) (answer : RenewalAnswer)
  | portRetrain (port : Nat) (ok : Bool)
  | channelDqRetrain (channel : Nat)
  | freezeRingStep
  | powerGovernorTick (power : Nat)
  | currentMonitorOver (power : Nat)
  | breakdownRecord (core : Nat) (counts : List (BitVec 16))
  | redundancyMismatch (pair : Nat) (kind : BitVec 4)
  | heartbeatMissed
  | clockMonitor
  | supplyMonitor
  | thermalTrip
  | freezePin
  | arrayUncorrected (unitKind : BitVec 4) (unit : BitVec 12) (addr : DWord)
  | moduleQuiescent
  | hbOutToggle
  | gdnCtlFrz (w : Word)
  | gdnCtlThaw (w : Word)
  | gdnCtlRel (w : Word)
  | gdnCtlAck (w : Word)
  | gdnHbWrite (context : Nat) (beat : Word)
  | gdnHbwinWrite (window : Word)
  | mxeCtlClrst (core : Nat)
  | mxeCtlAbort (core : Nat)
  | mxeCtlSkip (core : Nat)
  | mxeCtlResume (core : Nat)
  | cpeCtlFail (core : Nat) (fcause : Byte)
  | cpeCtlResume (core : Nat)
  | lcpCtlAbort (core : Nat)
  | lcpCtlSkip (core : Nat)
  | lcpCtlResume (core : Nat)
  | phbCtlMapgo (bank : Nat)
  | phbCtlRetrain (bank : Nat)
  | hlyVacWrite (cluster : Nat) (w : Word)
  | hlyAgeWrite (cluster : Nat) (w : Word)
  | hlyAvgWrite (cluster : Nat) (w : Word)
  | coreL1Write (core : Nat) (w : Word)
  | corePartWrite (core : Nat) (entry : Nat) (w : Word)
  | sltEntCommit (core : Nat) (entry : Nat) (w : Word)
  | sltEntRevoke (core : Nat) (entry : Nat) (w : Word)
  | lqCfgWrite (queue : Nat) (w : Word)
  | dbgCtlWrite (context : Nat) (w : Word)
  | pwrCapWrite (w : Word)
  | mbCmdAttest (mailbox : Nat)
  | mbCmdLogread (mailbox : Nat)
  | sltStatRead (core : Nat)
  | dbgDropRead (context : Nat)
  | trpCntRead (core : Nat)
  | serrCntRead (core : Nat)
  | phbStatRead (bank : Nat)
  | registerWrite (agent : Agent) (offset : Nat) (size : Nat) (data : DWord)
  | moduleReset
  | bringupGuidon (image : BootRecord) (selfTest : Bool)
  | bringupManagement (image : BootRecord)
  | bringupRecords (identityOk : Bool) (config : BootRecord) (halyard : BootRecord) (setup : ConfigRecord)
  | bringupMemory (failing : Option Nat)
  | bringupLinks (hostPeer : Nat) (peers : List (Nat × Nat))
  | bringupContexts
  | hostSnoop (line : Nat) (invalidate : Bool)
  | levelCauseClear (cause : Byte)
  | phbBusyClear (bank : Nat) (errs : List (BitVec 12))
  | flowOpen (flow : Nat) (dest : Nat) (ordered : Bool) (secure : Bool) (port : Nat)
  | flowClose (flow : Nat)
deriving DecidableEq, Repr

/-! The named bit fields of FN, LQ and MOD (spec 03 R43, R54, 11 R215). -/
namespace Fields
/-- Integer width code (spec 03 R54). -/
def wid (f : Fields) : BitVec 2 := f.mod.extractLsb' 2 2
/-- SAT of the integer classes. -/
def sat (f : Fields) : Bool := f.mod.getLsbD 5
/-- TRP of the integer classes. -/
def itrp (f : Fields) : Bool := f.mod.getLsbD 4
/-- UNS: unsigned type. -/
def uns (f : Fields) : Bool := f.mod.getLsbD 1
/-- Rounding mode code. -/
def rm (f : Fields) : BitVec 3 := f.mod.extractLsb' 3 3
/-- FTZ of the floating-point classes. -/
def ftz (f : Fields) : Bool := f.mod.getLsbD 2
/-- TRP of the floating-point classes. -/
def ftrp (f : Fields) : Bool := f.mod.getLsbD 1
/-- SAT of the narrow classes. -/
def nsat (f : Fields) : Bool := f.mod.getLsbD 2
/-- REC of the narrow classes. -/
def recB (f : Fields) : Bool := f.mod.getLsbD 1
/-- Cache hint. -/
def hint (f : Fields) : BitVec 2 := f.mod.extractLsb' 4 2
/-- Scope of a memory or engine instruction. -/
def scope (f : Fields) : BitVec 3 := f.mod.extractLsb' 1 3
/-- Matrix element format. -/
def fmt (f : Fields) : BitVec 4 := f.mod.extractLsb' 2 4
/-- REUSE of the matrix instructions. -/
def reuse (f : Fields) : Bool := f.mod.getLsbD 1
/-- ORD of a memory instruction (spec 11 R215). -/
def ord (f : Fields) : BitVec 2 := f.fn.extractLsb' 6 2
/-- Address space of a memory instruction. -/
def sp (f : Fields) : BitVec 2 := f.fn.extractLsb' 4 2
/-- Latch enable LQ[77]. -/
def latchEn (f : Fields) : Bool := f.lq.getLsbD 3
/-- Latch index LQ[76:74]. -/
def latchIx (f : Fields) : BitVec 3 := f.lq.extractLsb' 0 3
end Fields

end Sys2Proof
end

