-- ==== Sys2Proof/Machine/Shape.lean ====
section
/-!
DEFINITION. Shape.lean: what each instruction asks of the fields of its word (spec 03 R44 to R56 and the encoding
tables of the instruction chapters), shared by WellFormed.lean and Decode.lean.
-/
namespace Sys2Proof

/-- What an operand field must hold. -/
inductive Kind where
  | unused                                   -- 0x51 (spec 03 R47)
  | dReg (n align : Nat) (zeroOk : Bool)     -- n registers from a multiple of align, or 0x51
  | dPred                                    -- a predicate to write
  | sVal (wide : Bool)                       -- any value source; 64 bits when wide
  | sReg (n align : Nat) (zeroOk : Bool)     -- registers only, or 0x51
  | sPred (optional : Bool)                  -- a predicate to read
  | sMask                                    -- a membership mask (spec 07 R119)
  | sQuad                                    -- a register or constant quad (spec 07 R132)
  | sCtl                                     -- the immediate as a control word (spec 07 R135)
deriving DecidableEq, Repr

/-- What an instruction asks of its word. -/
structure Shape where
  modOk  : Bool := true
  immOk  : Bool := true
  d      : Kind := .unused
  a      : Kind := .unused
  b      : Kind := .unused
  c      : Kind := .unused
  value  : Bool := true                      -- produces a value result (spec 03 R50)
  multi  : Bool := false                     -- writes more than one destination register
  needS  : Bool := false                     -- spec 03 R51
  immField : Bool := false                   -- IMM is a field of the instruction (spec 03 R46)
  priv   : Bool := false
  engines : List Engine := []                -- engine programs it may stand in
  progOnly : Bool := false
  mxAddr : Bool := false                     -- IMM[31] is IWE (spec 08 R157)
  copyCmd : Bool := false                    -- CP or CPBLK (spec 12 R248)
  handlerOnly : Bool := false                -- only in the handler wave (spec 21 R406, 22 R417)
  opA : Bool := true                         -- A's must-be-0x51 part that is RESERVED_OPCODE (spec 08 R165)
  shapeSec : Bool := false                   -- only in a grid with a SHAPE section (spec 07 R129)
  sel    : Bool := true                      -- the special-register selector exists (spec 02 R32)

/-! Operand kinds and modifier rules that several instructions share. -/

def sv (f : Fields) : Kind := .sVal (f.wid == 3)
def dv (f : Fields) : Kind := if f.wid == 3 then .dReg 2 2 true else .dReg 1 1 true
/-- Spec 06 R99: SAT and TRP where the row allows them, and the row's own condition. -/
def intShape (f : Fields) (satTrp extra : Bool) (s : Shape) : Shape :=
  { s with modOk := !f.mod.getLsbD 0 && (satTrp || (!f.sat && !f.itrp)) && extra, needS := f.itrp }
/-- Spec 06 R106, R107. -/
def fltShape (f : Fields) (rmOk ftzTrp : Bool) (s : Shape) : Shape :=
  { s with modOk := !f.mod.getLsbD 0 && decide (f.rm.toNat ≤ 4) && (rmOk || f.rm == 0) && (ftzTrp || (!f.ftz && !f.ftrp)),
           needS := f.ftrp }
/-- Spec 07 R135. -/
def nrwShape (f : Fields) (rmOk satOk recOk : Bool) (s : Shape) : Shape :=
  { s with modOk := !f.mod.getLsbD 0 && decide (f.rm.toNat ≤ 4) && (rmOk || f.rm == 0) && (satOk || !f.nsat) && (recOk || !f.recB) }
/-- CVT type codes that are integers (spec 06 R114). -/
def cvtInt (t : BitVec 4) : Bool := decide (5 ≤ t.toNat ∧ t.toNat ≤ 12)
def cvtWide (t : BitVec 4) : Bool := t == 8 || t == 12 || t == 13
/-- Integer types of 8 and 16 bits, whose every value FP32 and A36 hold. -/
def cvtSmallInt (t : BitVec 4) : Bool := t == 5 || t == 6 || t == 9 || t == 10
/-- Conversions between different types that spec 05 R89 calls exact. -/
def cvtExact (dt st : BitVec 4) : Bool :=
  (dt == 0 && decide (1 ≤ st.toNat ∧ st.toNat ≤ 4)) || (dt == 13 && decide (st.toNat ≤ 4)) || ((dt == 0 || dt == 13) && cvtSmallInt st)
/-- Spec 06 R114. -/
def cvtShape (f : Fields) : Shape :=
  let st := f.fn.extractLsb' 0 4
  let dt := f.fn.extractLsb' 4 4
  let noRound := (cvtInt st && cvtInt dt) || st == dt || cvtExact dt st
  let ftzOk := decide (st.toNat ≤ 4) || decide (dt.toNat ≤ 4)
  { modOk := !f.mod.getLsbD 0 && decide (f.rm.toNat ≤ 4) && (!noRound || f.rm == 0) && (ftzOk || !f.ftz), needS := f.ftrp,
    d := if cvtWide dt then .dReg 2 2 true else .dReg 1 1 true, a := .sVal (cvtWide st) }
/-- The control words of LCVT, BPACK, BUNPK and SCLE (spec 07 R138 to R140). -/
def lcvtCtl (i : Word) : Bool :=
  i.extractLsb' 5 27 == 0 && (decide ((i.extractLsb' 0 4).toNat ≤ 7) || i.extractLsb' 0 4 == 9 || i.extractLsb' 0 4 == 10 || i.extractLsb' 0 4 == 11)
def packCount (i : Word) : Nat := (i.extractLsb' 4 2).toNat + 1
def packCtl (i : Word) (zeroOk : Bool) : Bool :=
  i.extractLsb' 6 26 == 0 && decide ((i.extractLsb' 0 4).toNat ≤ 7) && (zeroOk || i.extractLsb' 0 4 != 0) &&
    (!(i.extractLsb' 0 4 == 6 || i.extractLsb' 0 4 == 7) || decide (packCount i ≤ 2))
def scleCtl (i : Word) : Bool := i.extractLsb' 4 28 == 0 && decide (1 ≤ (i.extractLsb' 0 4).toNat ∧ (i.extractLsb' 0 4).toNat ≤ 7)
/-- The size code of a load or store and its registers (spec 11 R217). -/
def szOf (f : Fields) : Nat := (f.fn.extractLsb' 0 3).toNat
def szRegs (sz : Nat) : Nat := if sz = 3 then 2 else if sz = 4 then 4 else 1
def loadFn (f : Fields) (acqOk : Bool) : Bool :=
  f.sp == 0 && decide (szOf f ≤ 4) && (!f.fn.getLsbD 3 || decide (szOf f < 2)) &&
    (f.ord == 0 || (acqOk && f.ord == 1 && (szOf f == 2 || szOf f == 3)))
def storeFn (f : Fields) : Bool :=
  f.sp == 0 && decide (szOf f ≤ 4) && !f.fn.getLsbD 3 && (f.ord == 0 || (f.ord == 2 && (szOf f == 2 || szOf f == 3)))
/-- HINT and SCOPE of spec 11 R215. -/
def memMod (f : Fields) (hintOk : Bool) : Bool :=
  !f.mod.getLsbD 0 && decide (f.scope.toNat ≤ 5) && (f.ord != 0 || f.scope == 0) && (hintOk || f.hint == 0)
def scopeMod (f : Fields) : Bool := !f.mod.getLsbD 0 && decide (f.scope.toNat ≤ 5) && f.hint == 0
def copyMod (f : Fields) : Bool := !f.mod.getLsbD 0 && decide (f.scope.toNat ≤ 5)
/-- Spec 11 R237. -/
def barMod (f : Fields) : Bool :=
  scopeMod f && (if f.fn == 0 then f.scope == 0 else if f.fn == 1 then f.scope != 0 else decide (2 ≤ f.scope.toNat))
/-- Address operands by space (spec 11 R216). -/
def addrK (f : Fields) : Kind := if f.sp == 0 then .sReg 2 2 false else .sReg 1 1 true
def spaceK (scr : Bool) : Kind := if scr then .sReg 1 1 false else .sReg 2 2 false
def boK (f : Fields) : Kind := if f.fn.getLsbD 0 then .sReg 1 1 true else .sReg 2 2 false
/-- Registers of an RMW operand: 8-byte operators are codes 1 and 13 (spec 11 R225). -/
def rmwRegs (f : Fields) : Nat := if f.fn.extractLsb' 0 4 == 1 || f.fn.extractLsb' 0 4 == 13 then 2 else 1
def casRegs (f : Fields) : Nat := if f.fn.getLsbD 0 then 2 else 1
def waitRegs (f : Fields) : Nat := if f.fn.getLsbD 3 then 2 else 1
def forkK (f : Fields) (i : Nat) : Kind := if f.imm.getLsbD i then .sReg 2 2 false else .unused
/-- Spec 08 R160. -/
def mmaPair (fn : BitVec 8) (fmt : BitVec 4) : Bool :=
  (fn == 0 && decide (fmt.toNat ≤ 7)) || (fn == 1 && fmt == 2) || (fn == 2 && fmt == 7) || (fn == 3 && fmt == 8)
def mmaImm (i : Word) : Bool :=
  i.extractLsb' 14 8 != 0 &&
  (if i.extractLsb' 26 2 == 0 then !i.getLsbD 31 && i.extractLsb' 4 10 == 0
   else if i.extractLsb' 26 2 == 1 then !i.getLsbD 25
   else i.extractLsb' 26 2 == 2 && !i.getLsbD 31 && !i.getLsbD 25 && i.extractLsb' 0 14 == 0)
def accRegion (cmask : BitVec 8) (n1 row0 : BitVec 6) : Bool := cmask != 0 && decide (row0.toNat + n1.toNat + 1 ≤ 64)
def msigImm (i : Word) : Bool :=
  i.extractLsb' 20 8 == 0 && !i.getLsbD 2 && (i.getLsbD 5 || (!i.getLsbD 31 && i.extractLsb' 6 14 == 0))
/-- Argument registers of a spawn (spec 16 R326). -/
def argK (f : Fields) : Kind :=
  let n := (f.mod.extractLsb' 0 4).toNat
  if n = 0 then .unused else .sReg n 1 false
/-- Special registers: whether a selector exists and is writable, and its width (spec 02 R32). -/
def selOk (i : Word) (write : Bool) : Bool :=
  let s := i.toNat
  if write then s == 0x21 || decide (0x28 ≤ s ∧ s ≤ 0x2A) else decide (s ≤ 0x15) || decide (0x20 ≤ s ∧ s ≤ 0x2A)
def selWide (i : Word) : Bool := i == 0x10 || i == 0x11 || i == 0x14 || i == 0x21 || i == 0x22 || i == 0x23
def selD (i : Word) : Kind := if selWide i then .dReg 2 2 false else .dReg 1 1 false
def selA (i : Word) : Kind := if selWide i then .sReg 2 2 false else .sReg 1 1 false


/-- The major opcode of an instruction; an event has none. -/
def opOf : Instr → Option Byte
  | .iadd _ => some 0x00
  | .isub _ => some 0x00
  | .iaddc _ => some 0x00
  | .isubb _ => some 0x00
  | .imul _ => some 0x01
  | .imulh _ => some 0x01
  | .imad _ => some 0x01
  | .idot4 _ => some 0x01
  | .imin _ => some 0x02
  | .imax _ => some 0x02
  | .iabs _ => some 0x02
  | .ineg _ => some 0x02
  | .andB _ => some 0x03
  | .orB _ => some 0x03
  | .xorB _ => some 0x03
  | .andnB _ => some 0x03
  | .notB _ => some 0x03
  | .shl _ => some 0x04
  | .shr _ => some 0x04
  | .sar _ => some 0x04
  | .rotl _ => some 0x04
  | .funsh _ => some 0x04
  | .bfx _ => some 0x05
  | .bfi _ => some 0x05
  | .popc _ => some 0x05
  | .clz _ => some 0x05
  | .ctz _ => some 0x05
  | .brev _ => some 0x05
  | .permb _ => some 0x05
  | .sel _ => some 0x06
  | .isetp _ => some 0x07
  | .plop _ => some 0x08
  | .mov _ => some 0x09
  | .movi _ => some 0x09
  | .fadd _ => some 0x20
  | .fsub _ => some 0x21
  | .fmul _ => some 0x22
  | .ffma _ => some 0x23
  | .fmin _ => some 0x24
  | .fmax _ => some 0x25
  | .fsetp _ => some 0x26
  | .fclass _ => some 0x27
  | .frint _ => some 0x28
  | .fscale _ => some 0x29
  | .hadd2 _ => some 0x2a
  | .hfma2 _ => some 0x2b
  | .cvt _ => some 0x2c
  | .sfn _ => some 0x2d
  | .shfl _ => some 0x40
  | .vote _ => some 0x41
  | .redw _ => some 0x42
  | .prfx _ => some 0x43
  | .matchL _ => some 0x44
  | .hlane _ => some 0x45
  | .exmrd _ => some 0x46
  | .exmwr _ => some 0x46
  | .exmand _ => some 0x46
  | .exmor _ => some 0x46
  | .tidx _ => some 0x47
  | .shpset _ => some 0x48
  | .isect _ => some 0x49
  | .deskew _ => some 0x4a
  | .pillar _ => some 0x4b
  | .lmul _ => some 0x50
  | .lsum _ => some 0x51
  | .lcvt _ => some 0x52
  | .bpack _ => some 0x53
  | .bunpk _ => some 0x54
  | .clamp _ => some 0x55
  | .scle _ => some 0x56
  | .ld _ => some 0x60
  | .st _ => some 0x61
  | .lds _ => some 0x62
  | .sts _ => some 0x63
  | .ldw _ => some 0x64
  | .stw _ => some 0x65
  | .ldc _ => some 0x66
  | .pref _ => some 0x67
  | .cwb _ => some 0x68
  | .cinv _ => some 0x68
  | .cdemote _ => some 0x68
  | .atom _ => some 0x69
  | .cas _ => some 0x6a
  | .red _ => some 0x6b
  | .ldl _ => some 0x6c
  | .stc _ => some 0x6d
  | .fence _ => some 0x6e
  | .acq _ => some 0x6f
  | .rel _ => some 0x70
  | .bind _ => some 0x71
  | .unbind _ => some 0x72
  | .waitc _ => some 0x73
  | .bar _ => some 0x74
  | .leaseGet _ => some 0x75
  | .leaseDrop _ => some 0x75
  | .leaseDropall _ => some 0x75
  | .boinit _ => some 0x80
  | .boarr _ => some 0x81
  | .botok _ => some 0x82
  | .bowait _ => some 0x83
  | .bowaitp _ => some 0x84
  | .rinit _ => some 0x85
  | .rget _ => some 0x86
  | .rputRes _ => some 0x87
  | .rputPub _ => some 0x87
  | .rrel _ => some 0x88
  | .rstat _ => some 0x89
  | .evmap _ => some 0x8a
  | .evsig _ => some 0x8b
  | .evwait _ => some 0x8c
  | .cp _ => some 0x90
  | .cpblk _ => some 0x91
  | .fork _ => some 0x92
  | .rdv _ => some 0x93
  | .mldb _ => some 0xa0
  | .mma _ => some 0xa1
  | .accz _ => some 0xa2
  | .accsc _ => some 0xa3
  | .accld _ => some 0xa4
  | .accst _ => some 0xa5
  | .msel _ => some 0xa6
  | .mnext _ => some 0xa7
  | .mwaite _ => some 0xa8
  | .msig _ => some 0xa9
  | .mend _ => some 0xaa
  | .mendLoop _ => some 0xaa
  | .loopL _ => some 0xb0
  | .endl _ => some 0xb1
  | .emit _ => some 0xb2
  | .permw _ => some 0xb3
  | .lset _ => some 0xb4
  | .lend _ => some 0xb5
  | .spawn _ => some 0xb8
  | .spawnt _ => some 0xb8
  | .launchg _ => some 0xb8
  | .exit _ => some 0xb9
  | .yield _ => some 0xb9
  | .cancel _ => some 0xb9
  | .dlset _ => some 0xba
  | .dlrd _ => some 0xba
  | .cqbind _ => some 0xbb
  | .cqbindOff _ => some 0xbb
  | .cqpush _ => some 0xbb
  | .cqflush _ => some 0xbb
  | .futwait _ => some 0xbc
  | .futpoll _ => some 0xbc
  | .poola _ => some 0xbd
  | .poolf _ => some 0xbd
  | .qcol _ => some 0xbe
  | .qocc _ => some 0xbe
  | .sample _ => some 0xc0
  | .sampleAcc _ => some 0xc0
  | .seqnew _ => some 0xc1
  | .seqfork _ => some 0xc1
  | .seqend _ => some 0xc1
  | .seqcommit _ => some 0xc2
  | .seqcommitConf _ => some 0xc2
  | .seqdraft _ => some 0xc3
  | .seqrej _ => some 0xc3
  | .seqrd _ => some 0xc4
  | .pnset _ => some 0xc5
  | .pnclr _ => some 0xc5
  | .bra _ => some 0xc8
  | .brx _ => some 0xc9
  | .call _ => some 0xca
  | .callx _ => some 0xcb
  | .ret _ => some 0xcc
  | .nop _ => some 0xcd
  | .trap _ => some 0xe0
  | .trapPriv _ => some 0xe0
  | .eret _ => some 0xe1
  | .eretExit _ => some 0xe1
  | .eretFail _ => some 0xe1
  | .eretE _ => some 0xe1
  | .eretEDone _ => some 0xe1
  | .eretEDone64 _ => some 0xe1
  | .sreg _ => some 0xe2
  | .swr _ => some 0xe3
  | .bkpt _ => some 0xe4
  | .mark _ => some 0xe5
  | .smpl _ => some 0xe5
  | .tlbinvPage _ => some 0xe6
  | .tlbinvCtx _ => some 0xe6
  | .tlbinvAll _ => some 0xe6
  | .ctxsetNew _ => some 0xe7
  | .ctxsetRoot _ => some 0xe7
  | .ctxsetKill _ => some 0xe7
  | .wsetCore _ => some 0xe7
  | .wsetSlice _ => some 0xe7
  | .wsetGran _ => some 0xe7
  | .wsetPort _ => some 0xe7
  | .wsetFn _ => some 0xe7
  | .regionCoh _ => some 0xe8
  | .regionSwm _ => some 0xe8
  | .biassetDev _ => some 0xe9
  | .biassetHost _ => some 0xe9
  | .wsave _ => some 0xea
  | .wrest _ => some 0xeb
  | .sppin _ => some 0xec
  | .spunpin _ => some 0xec
  | .lqTailWrite _ _ => none
  | .launchAcceptResume _ => none
  | .taskEmissionResume _ => none
  | .dispatchDecision _ => none
  | .waveFormation _ _ => none
  | .formingWaveTimeout _ => none
  | .issue _ _ => none
  | .yieldExpiry _ => none
  | .teamRetire _ => none
  | .gridDrain _ => none
  | .neighbourAveraging => none
  | .taskTransitArrival _ => none
  | .thermalMigrationScan _ => none
  | .preemption _ => none
  | .teamRestore _ _ => none
  | .contextSwitch _ => none
  | .l1SplitChange _ => none
  | .deadlineFire _ => none
  | .binTimeout _ _ => none
  | .tileEmit _ _ => none
  | .scratchpadRefill _ _ => none
  | .missEntryGrant _ => none
  | .missDataFill _ _ _ => none
  | .tlbWalk _ => none
  | .dirReadRequest _ _ => none
  | .dirOwnershipRequest _ _ => none
  | .dirBuntingRequest _ _ _ => none
  | .invalidation _ _ => none
  | .invalidationAck _ _ => none
  | .mergeRequest _ => none
  | .merge _ => none
  | .dirRecall _ => none
  | .l1Eviction _ _ => none
  | .writebackAck _ _ => none
  | .farOperation _ => none
  | .barrierCredit _ => none
  | .monitorWake _ => none
  | .monitorPoll _ => none
  | .hostRead _ _ => none
  | .hostWrite _ _ _ => none
  | .birsp _ _ => none
  | .copySector _ _ => none
  | .copyComplete _ _ => none
  | .eventPulse _ _ => none
  | .sinkMprogStart _ _ => none
  | .sinkCopySubmit _ _ => none
  | .engineProgramFetch _ _ => none
  | .engineFault _ _ _ _ => none
  | .queryComplete _ => none
  | .burgeeHold _ => none
  | .fabricFlitRoute _ => none
  | .packetDeliver _ => none
  | .e2eAck _ _ => none
  | .retransmitTimeout _ _ => none
  | .linkReplay _ => none
  | .negotiationFlit _ _ => none
  | .freezeFlit _ _ => none
  | .leaseRenewal _ _ => none
  | .leaseExpiry _ => none
  | .leaseEmbargoEnd _ => none
  | .portRetrain _ _ => none
  | .phbHoldTimeout _ => none
  | .channelDqRetrain _ => none
  | .freezeRingStep => none
  | .powerGovernorTick _ => none
  | .currentMonitorOver _ => none
  | .waveSample _ _ => none
  | .breakdownRecord _ _ => none
  | .comparatorMatch _ => none
  | .comparatorTimeout _ => none
  | .redundancyMismatch _ _ => none
  | .trapServe _ => none
  | .heartbeatMissed => none
  | .clockMonitor => none
  | .supplyMonitor => none
  | .thermalTrip => none
  | .freezePin => none
  | .arrayUncorrected _ _ _ => none
  | .moduleQuiescent => none
  | .hbOutToggle => none
  | .gdnCtlFrz _ => none
  | .gdnCtlThaw _ => none
  | .gdnCtlRel _ => none
  | .gdnCtlAck _ => none
  | .gdnHbWrite _ _ => none
  | .gdnHbwinWrite _ => none
  | .mxeCtlClrst _ => none
  | .mxeCtlAbort _ => none
  | .mxeCtlSkip _ => none
  | .mxeCtlResume _ => none
  | .cpeCtlFail _ _ => none
  | .cpeCtlResume _ => none
  | .lcpCtlAbort _ => none
  | .lcpCtlSkip _ => none
  | .lcpCtlResume _ => none
  | .phbCtlMapgo _ => none
  | .phbCtlRetrain _ => none
  | .hlyVacWrite _ _ => none
  | .hlyAgeWrite _ _ => none
  | .hlyAvgWrite _ _ => none
  | .coreL1Write _ _ => none
  | .corePartWrite _ _ _ => none
  | .sltEntCommit _ _ _ => none
  | .sltEntRevoke _ _ _ => none
  | .lqCfgWrite _ _ => none
  | .dbgCtlWrite _ _ => none
  | .pwrCapWrite _ => none
  | .mbCmdAttest _ => none
  | .mbCmdLogread _ => none
  | .sltStatRead _ => none
  | .dbgDropRead _ => none
  | .trpCntRead _ => none
  | .serrCntRead _ => none
  | .phbStatRead _ => none
  | .registerWrite _ _ _ _ => none
  | .moduleReset => none
  | .bringupGuidon _ _ => none
  | .bringupManagement _ => none
  | .bringupRecords _ _ _ _ => none
  | .bringupMemory _ => none
  | .bringupLinks _ _ => none
  | .bringupContexts => none
  | .matrixCommandComplete _ => none
  | .hostSnoop _ _ => none
  | .levelCauseClear _ => none
  | .vacateHoldExpiry _ => none
  | .phbBusyClear _ _ => none
  | .flowOpen _ _ _ _ _ => none
  | .flowClose _ => none

/-- The fields of an instruction; an event has none. -/
def fieldsOf : Instr → Option Fields
  | .iadd f => some f
  | .isub f => some f
  | .iaddc f => some f
  | .isubb f => some f
  | .imul f => some f
  | .imulh f => some f
  | .imad f => some f
  | .idot4 f => some f
  | .imin f => some f
  | .imax f => some f
  | .iabs f => some f
  | .ineg f => some f
  | .andB f => some f
  | .orB f => some f
  | .xorB f => some f
  | .andnB f => some f
  | .notB f => some f
  | .shl f => some f
  | .shr f => some f
  | .sar f => some f
  | .rotl f => some f
  | .funsh f => some f
  | .bfx f => some f
  | .bfi f => some f
  | .popc f => some f
  | .clz f => some f
  | .ctz f => some f
  | .brev f => some f
  | .permb f => some f
  | .sel f => some f
  | .isetp f => some f
  | .plop f => some f
  | .mov f => some f
  | .movi f => some f
  | .fadd f => some f
  | .fsub f => some f
  | .fmul f => some f
  | .ffma f => some f
  | .fmin f => some f
  | .fmax f => some f
  | .fsetp f => some f
  | .fclass f => some f
  | .frint f => some f
  | .fscale f => some f
  | .hadd2 f => some f
  | .hfma2 f => some f
  | .cvt f => some f
  | .sfn f => some f
  | .shfl f => some f
  | .vote f => some f
  | .redw f => some f
  | .prfx f => some f
  | .matchL f => some f
  | .hlane f => some f
  | .exmrd f => some f
  | .exmwr f => some f
  | .exmand f => some f
  | .exmor f => some f
  | .tidx f => some f
  | .shpset f => some f
  | .isect f => some f
  | .deskew f => some f
  | .pillar f => some f
  | .lmul f => some f
  | .lsum f => some f
  | .lcvt f => some f
  | .bpack f => some f
  | .bunpk f => some f
  | .clamp f => some f
  | .scle f => some f
  | .ld f => some f
  | .st f => some f
  | .lds f => some f
  | .sts f => some f
  | .ldw f => some f
  | .stw f => some f
  | .ldc f => some f
  | .pref f => some f
  | .cwb f => some f
  | .cinv f => some f
  | .cdemote f => some f
  | .atom f => some f
  | .cas f => some f
  | .red f => some f
  | .ldl f => some f
  | .stc f => some f
  | .fence f => some f
  | .acq f => some f
  | .rel f => some f
  | .bind f => some f
  | .unbind f => some f
  | .waitc f => some f
  | .bar f => some f
  | .leaseGet f => some f
  | .leaseDrop f => some f
  | .leaseDropall f => some f
  | .boinit f => some f
  | .boarr f => some f
  | .botok f => some f
  | .bowait f => some f
  | .bowaitp f => some f
  | .rinit f => some f
  | .rget f => some f
  | .rputRes f => some f
  | .rputPub f => some f
  | .rrel f => some f
  | .rstat f => some f
  | .evmap f => some f
  | .evsig f => some f
  | .evwait f => some f
  | .cp f => some f
  | .cpblk f => some f
  | .fork f => some f
  | .rdv f => some f
  | .mldb f => some f
  | .mma f => some f
  | .accz f => some f
  | .accsc f => some f
  | .accld f => some f
  | .accst f => some f
  | .msel f => some f
  | .mnext f => some f
  | .mwaite f => some f
  | .msig f => some f
  | .mend f => some f
  | .mendLoop f => some f
  | .loopL f => some f
  | .endl f => some f
  | .emit f => some f
  | .permw f => some f
  | .lset f => some f
  | .lend f => some f
  | .spawn f => some f
  | .spawnt f => some f
  | .launchg f => some f
  | .exit f => some f
  | .yield f => some f
  | .cancel f => some f
  | .dlset f => some f
  | .dlrd f => some f
  | .cqbind f => some f
  | .cqbindOff f => some f
  | .cqpush f => some f
  | .cqflush f => some f
  | .futwait f => some f
  | .futpoll f => some f
  | .poola f => some f
  | .poolf f => some f
  | .qcol f => some f
  | .qocc f => some f
  | .sample f => some f
  | .sampleAcc f => some f
  | .seqnew f => some f
  | .seqfork f => some f
  | .seqend f => some f
  | .seqcommit f => some f
  | .seqcommitConf f => some f
  | .seqdraft f => some f
  | .seqrej f => some f
  | .seqrd f => some f
  | .pnset f => some f
  | .pnclr f => some f
  | .bra f => some f
  | .brx f => some f
  | .call f => some f
  | .callx f => some f
  | .ret f => some f
  | .nop f => some f
  | .trap f => some f
  | .trapPriv f => some f
  | .eret f => some f
  | .eretExit f => some f
  | .eretFail f => some f
  | .eretE f => some f
  | .eretEDone f => some f
  | .eretEDone64 f => some f
  | .sreg f => some f
  | .swr f => some f
  | .bkpt f => some f
  | .mark f => some f
  | .smpl f => some f
  | .tlbinvPage f => some f
  | .tlbinvCtx f => some f
  | .tlbinvAll f => some f
  | .ctxsetNew f => some f
  | .ctxsetRoot f => some f
  | .ctxsetKill f => some f
  | .wsetCore f => some f
  | .wsetSlice f => some f
  | .wsetGran f => some f
  | .wsetPort f => some f
  | .wsetFn f => some f
  | .regionCoh f => some f
  | .regionSwm f => some f
  | .biassetDev f => some f
  | .biassetHost f => some f
  | .wsave f => some f
  | .wrest f => some f
  | .sppin f => some f
  | .spunpin f => some f
  | .lqTailWrite _ _ => none
  | .launchAcceptResume _ => none
  | .taskEmissionResume _ => none
  | .dispatchDecision _ => none
  | .waveFormation _ _ => none
  | .formingWaveTimeout _ => none
  | .issue _ _ => none
  | .yieldExpiry _ => none
  | .teamRetire _ => none
  | .gridDrain _ => none
  | .neighbourAveraging => none
  | .taskTransitArrival _ => none
  | .thermalMigrationScan _ => none
  | .preemption _ => none
  | .teamRestore _ _ => none
  | .contextSwitch _ => none
  | .l1SplitChange _ => none
  | .deadlineFire _ => none
  | .binTimeout _ _ => none
  | .tileEmit _ _ => none
  | .scratchpadRefill _ _ => none
  | .missEntryGrant _ => none
  | .missDataFill _ _ _ => none
  | .tlbWalk _ => none
  | .dirReadRequest _ _ => none
  | .dirOwnershipRequest _ _ => none
  | .dirBuntingRequest _ _ _ => none
  | .invalidation _ _ => none
  | .invalidationAck _ _ => none
  | .mergeRequest _ => none
  | .merge _ => none
  | .dirRecall _ => none
  | .l1Eviction _ _ => none
  | .writebackAck _ _ => none
  | .farOperation _ => none
  | .barrierCredit _ => none
  | .monitorWake _ => none
  | .monitorPoll _ => none
  | .hostRead _ _ => none
  | .hostWrite _ _ _ => none
  | .birsp _ _ => none
  | .copySector _ _ => none
  | .copyComplete _ _ => none
  | .eventPulse _ _ => none
  | .sinkMprogStart _ _ => none
  | .sinkCopySubmit _ _ => none
  | .engineProgramFetch _ _ => none
  | .engineFault _ _ _ _ => none
  | .queryComplete _ => none
  | .burgeeHold _ => none
  | .fabricFlitRoute _ => none
  | .packetDeliver _ => none
  | .e2eAck _ _ => none
  | .retransmitTimeout _ _ => none
  | .linkReplay _ => none
  | .negotiationFlit _ _ => none
  | .freezeFlit _ _ => none
  | .leaseRenewal _ _ => none
  | .leaseExpiry _ => none
  | .leaseEmbargoEnd _ => none
  | .portRetrain _ _ => none
  | .phbHoldTimeout _ => none
  | .channelDqRetrain _ => none
  | .freezeRingStep => none
  | .powerGovernorTick _ => none
  | .currentMonitorOver _ => none
  | .waveSample _ _ => none
  | .breakdownRecord _ _ => none
  | .comparatorMatch _ => none
  | .comparatorTimeout _ => none
  | .redundancyMismatch _ _ => none
  | .trapServe _ => none
  | .heartbeatMissed => none
  | .clockMonitor => none
  | .supplyMonitor => none
  | .thermalTrip => none
  | .freezePin => none
  | .arrayUncorrected _ _ _ => none
  | .moduleQuiescent => none
  | .hbOutToggle => none
  | .gdnCtlFrz _ => none
  | .gdnCtlThaw _ => none
  | .gdnCtlRel _ => none
  | .gdnCtlAck _ => none
  | .gdnHbWrite _ _ => none
  | .gdnHbwinWrite _ => none
  | .mxeCtlClrst _ => none
  | .mxeCtlAbort _ => none
  | .mxeCtlSkip _ => none
  | .mxeCtlResume _ => none
  | .cpeCtlFail _ _ => none
  | .cpeCtlResume _ => none
  | .lcpCtlAbort _ => none
  | .lcpCtlSkip _ => none
  | .lcpCtlResume _ => none
  | .phbCtlMapgo _ => none
  | .phbCtlRetrain _ => none
  | .hlyVacWrite _ _ => none
  | .hlyAgeWrite _ _ => none
  | .hlyAvgWrite _ _ => none
  | .coreL1Write _ _ => none
  | .corePartWrite _ _ _ => none
  | .sltEntCommit _ _ _ => none
  | .sltEntRevoke _ _ _ => none
  | .lqCfgWrite _ _ => none
  | .dbgCtlWrite _ _ => none
  | .pwrCapWrite _ => none
  | .mbCmdAttest _ => none
  | .mbCmdLogread _ => none
  | .sltStatRead _ => none
  | .dbgDropRead _ => none
  | .trpCntRead _ => none
  | .serrCntRead _ => none
  | .phbStatRead _ => none
  | .registerWrite _ _ _ _ => none
  | .moduleReset => none
  | .bringupGuidon _ _ => none
  | .bringupManagement _ => none
  | .bringupRecords _ _ _ _ => none
  | .bringupMemory _ => none
  | .bringupLinks _ _ => none
  | .bringupContexts => none
  | .matrixCommandComplete _ => none
  | .hostSnoop _ _ => none
  | .levelCauseClear _ => none
  | .vacateHoldExpiry _ => none
  | .phbBusyClear _ _ => none
  | .flowOpen _ _ _ _ _ => none
  | .flowClose _ => none

/-- Whether FN, and the MOD or IMM bits that tell forms of one opcode apart, are the constructor's (spec 03 R56). -/
def formOk : Instr → Bool
  | .iadd f => f.fn == 0
  | .isub f => f.fn == 1
  | .iaddc f => f.fn == 2
  | .isubb f => f.fn == 3
  | .imul f => f.fn == 0
  | .imulh f => f.fn == 1
  | .imad f => f.fn == 2
  | .idot4 f => f.fn == 3
  | .imin f => f.fn == 0
  | .imax f => f.fn == 1
  | .iabs f => f.fn == 2
  | .ineg f => f.fn == 3
  | .andB f => f.fn == 0
  | .orB f => f.fn == 1
  | .xorB f => f.fn == 2
  | .andnB f => f.fn == 3
  | .notB f => f.fn == 4
  | .shl f => f.fn == 0
  | .shr f => f.fn == 1
  | .sar f => f.fn == 2
  | .rotl f => f.fn == 3
  | .funsh f => f.fn == 4
  | .bfx f => f.fn == 0
  | .bfi f => f.fn == 1
  | .popc f => f.fn == 2
  | .clz f => f.fn == 3
  | .ctz f => f.fn == 4
  | .brev f => f.fn == 5
  | .permb f => f.fn == 6
  | .sel f => f.fn == 0
  | .isetp f => decide (f.fn.toNat ≤ 5)
  | .plop _ => true
  | .mov f => f.fn == 0
  | .movi f => f.fn == 1
  | .fadd f => decide (f.fn.toNat ≤ 2)
  | .fsub f => decide (f.fn.toNat ≤ 2)
  | .fmul f => decide (f.fn.toNat ≤ 2)
  | .ffma f => decide (f.fn.toNat ≤ 2)
  | .fmin f => decide (f.fn.toNat ≤ 2)
  | .fmax f => decide (f.fn.toNat ≤ 2)
  | .fsetp f => decide ((f.fn.extractLsb' 0 4).toNat ≤ 2 ∧ (f.fn.extractLsb' 4 4).toNat ≤ 13)
  | .fclass f => decide (f.fn.toNat ≤ 2)
  | .frint f => decide (f.fn.toNat ≤ 2)
  | .fscale f => decide (f.fn.toNat ≤ 2)
  | .hadd2 f => decide (f.fn.toNat ≤ 1)
  | .hfma2 f => decide (f.fn.toNat ≤ 1)
  | .cvt f => decide ((f.fn.extractLsb' 0 4).toNat ≤ 13 ∧ (f.fn.extractLsb' 4 4).toNat ≤ 13)
  | .sfn f => decide (f.fn.toNat ≤ 7)
  | .shfl f => decide (f.fn.toNat ≤ 3)
  | .vote f => decide (f.fn.toNat ≤ 3)
  | .redw f => decide (f.fn.toNat ≤ 10)
  | .prfx f => decide (f.fn.toNat ≤ 10)
  | .matchL f => decide (f.fn.toNat ≤ 1)
  | .hlane f => f.fn == 0
  | .exmrd f => f.fn == 0
  | .exmwr f => f.fn == 1
  | .exmand f => f.fn == 2
  | .exmor f => f.fn == 3
  | .tidx f => f.fn == 0
  | .shpset f => f.fn == 0
  | .isect f => f.fn == 0
  | .deskew f => f.fn == 0
  | .pillar f => f.fn == 0
  | .lmul f => f.fn == 0
  | .lsum f => f.fn == 0
  | .lcvt f => f.fn == 0
  | .bpack f => f.fn == 0
  | .bunpk f => f.fn == 0
  | .clamp f => f.fn == 0
  | .scle f => f.fn == 0
  | .ld f => loadFn f true
  | .st f => storeFn f
  | .lds f => loadFn f true
  | .sts f => storeFn f
  | .ldw f => loadFn f true
  | .stw f => storeFn f
  | .ldc f => loadFn f false
  | .pref f => decide (f.fn.toNat ≤ 1)
  | .cwb f => f.fn == 0
  | .cinv f => f.fn == 1
  | .cdemote f => f.fn == 2
  | .atom f => f.sp != 3 && decide ((f.fn.extractLsb' 0 4).toNat ≤ 13)
  | .cas f => f.sp != 3 && f.fn.extractLsb' 1 3 == 0
  | .red f => f.sp != 3 && decide ((f.fn.extractLsb' 0 4).toNat ≤ 11) && !f.fn.getLsbD 6
  | .ldl f => f.fn.extractLsb' 1 5 == 0 && !f.fn.getLsbD 7
  | .stc f => f.fn.extractLsb' 1 5 == 0 && !f.fn.getLsbD 6
  | .fence f => f.fn == 0
  | .acq f => f.fn.extractLsb' 6 2 == 0 && !f.fn.getLsbD 5 && f.fn.extractLsb' 1 3 == 0
  | .rel f => f.fn.extractLsb' 6 2 == 0 && !f.fn.getLsbD 5 && f.fn.extractLsb' 1 3 == 0
  | .bind f => f.fn &&& 0xEE == 0
  | .unbind f => f.fn &&& 0xFE == 0
  | .waitc f => !f.fn.getLsbD 7 && f.sp == 0 && f.fn.extractLsb' 0 3 != 7
  | .bar f => decide (f.fn.toNat ≤ 2)
  | .leaseGet f => f.fn == 0
  | .leaseDrop f => f.fn == 1
  | .leaseDropall f => f.fn == 2
  | .boinit f => f.fn &&& 0xFE == 0
  | .boarr f => f.fn &&& 0xFE == 0
  | .botok f => f.fn &&& 0xFE == 0
  | .bowait f => f.fn &&& 0xFE == 0
  | .bowaitp f => f.fn &&& 0xFC == 0
  | .rinit f => f.fn == 0
  | .rget f => f.fn == 0
  | .rputRes f => f.fn == 0
  | .rputPub f => f.fn == 1
  | .rrel f => f.fn == 0
  | .rstat f => f.fn == 0
  | .evmap f => f.fn == 0
  | .evsig f => f.fn == 0
  | .evwait f => f.fn == 0
  | .cp f => decide (f.fn.toNat ≤ 6)
  | .cpblk f => f.fn == 0
  | .fork f => f.fn == 0
  | .rdv f => f.fn == 0
  | .mldb f => f.fn == 0
  | .mma f => decide (f.fn.toNat ≤ 3)
  | .accz f => f.fn == 0
  | .accsc f => f.fn == 0
  | .accld f => decide (f.fn.toNat ≤ 3)
  | .accst f => decide (f.fn.toNat ≤ 7)
  | .msel f => f.fn == 0
  | .mnext f => f.fn == 0
  | .mwaite f => f.fn == 0
  | .msig f => f.fn == 0
  | .mend f => f.fn == 0 && !f.imm.getLsbD 0
  | .mendLoop f => f.fn == 0 && f.imm.getLsbD 0
  | .loopL f => f.fn == 0
  | .endl f => f.fn == 0
  | .emit f => f.fn == 0
  | .permw f => f.fn == 0
  | .lset f => f.fn == 0
  | .lend f => f.fn == 0
  | .spawn f => f.fn == 0
  | .spawnt f => f.fn == 1
  | .launchg f => f.fn == 2
  | .exit f => f.fn == 0
  | .yield f => f.fn == 1
  | .cancel f => f.fn == 2
  | .dlset f => f.fn == 0
  | .dlrd f => f.fn == 1
  | .cqbind f => f.fn == 0 && !f.imm.getLsbD 31
  | .cqbindOff f => f.fn == 0 && f.imm.getLsbD 31
  | .cqpush f => f.fn == 1
  | .cqflush f => f.fn == 2
  | .futwait f => f.fn == 0
  | .futpoll f => f.fn == 1
  | .poola f => f.fn == 0
  | .poolf f => f.fn == 1
  | .qcol f => f.fn == 0
  | .qocc f => f.fn == 1
  | .sample f => f.fn == 0
  | .sampleAcc f => f.fn == 1
  | .seqnew f => f.fn == 0
  | .seqfork f => f.fn == 1
  | .seqend f => f.fn == 2
  | .seqcommit f => f.fn == 0 && !f.mod.getLsbD 0
  | .seqcommitConf f => f.fn == 0 && f.mod.getLsbD 0
  | .seqdraft f => f.fn == 0
  | .seqrej f => f.fn == 1
  | .seqrd f => f.fn == 0
  | .pnset f => f.fn == 0
  | .pnclr f => f.fn == 1
  | .bra f => f.fn == 0
  | .brx f => f.fn == 0
  | .call f => f.fn == 0
  | .callx f => f.fn == 0
  | .ret f => f.fn == 0
  | .nop f => f.fn == 0
  | .trap f => f.fn == 0 && !f.mod.getLsbD 0
  | .trapPriv f => f.fn == 0 && f.mod.getLsbD 0
  | .eret f => f.fn == 0 && f.mod == 0
  | .eretExit f => f.fn == 0 && f.mod == 1
  | .eretFail f => f.fn == 0 && f.mod == 2
  | .eretE f => f.fn == 1 && f.mod == 0
  | .eretEDone f => f.fn == 1 && f.mod == 1
  | .eretEDone64 f => f.fn == 1 && f.mod == 3
  | .sreg f => f.fn == 0
  | .swr f => f.fn == 0
  | .bkpt f => f.fn == 0
  | .mark f => f.fn == 0
  | .smpl f => f.fn == 1
  | .tlbinvPage f => f.fn == 0 && f.mod == 0
  | .tlbinvCtx f => f.fn == 0 && f.mod == 1
  | .tlbinvAll f => f.fn == 0 && f.mod == 2
  | .ctxsetNew f => f.fn == 0 && f.mod == 0
  | .ctxsetRoot f => f.fn == 0 && f.mod == 1
  | .ctxsetKill f => f.fn == 0 && f.mod == 2
  | .wsetCore f => f.fn == 1 && f.mod == 0
  | .wsetSlice f => f.fn == 1 && f.mod == 1
  | .wsetGran f => f.fn == 1 && f.mod == 2
  | .wsetPort f => f.fn == 1 && f.mod == 3
  | .wsetFn f => f.fn == 1 && f.mod == 4
  | .regionCoh f => f.fn == 0 && f.mod == 0
  | .regionSwm f => f.fn == 0 && f.mod == 1
  | .biassetDev f => f.fn == 0 && f.mod == 0
  | .biassetHost f => f.fn == 0 && f.mod == 1
  | .wsave f => f.fn == 0
  | .wrest f => f.fn == 0
  | .sppin f => f.fn == 0
  | .spunpin f => f.fn == 1
  | .lqTailWrite _ _ => false
  | .launchAcceptResume _ => false
  | .taskEmissionResume _ => false
  | .dispatchDecision _ => false
  | .waveFormation _ _ => false
  | .formingWaveTimeout _ => false
  | .issue _ _ => false
  | .yieldExpiry _ => false
  | .teamRetire _ => false
  | .gridDrain _ => false
  | .neighbourAveraging => false
  | .taskTransitArrival _ => false
  | .thermalMigrationScan _ => false
  | .preemption _ => false
  | .teamRestore _ _ => false
  | .contextSwitch _ => false
  | .l1SplitChange _ => false
  | .deadlineFire _ => false
  | .binTimeout _ _ => false
  | .tileEmit _ _ => false
  | .scratchpadRefill _ _ => false
  | .missEntryGrant _ => false
  | .missDataFill _ _ _ => false
  | .tlbWalk _ => false
  | .dirReadRequest _ _ => false
  | .dirOwnershipRequest _ _ => false
  | .dirBuntingRequest _ _ _ => false
  | .invalidation _ _ => false
  | .invalidationAck _ _ => false
  | .mergeRequest _ => false
  | .merge _ => false
  | .dirRecall _ => false
  | .l1Eviction _ _ => false
  | .writebackAck _ _ => false
  | .farOperation _ => false
  | .barrierCredit _ => false
  | .monitorWake _ => false
  | .monitorPoll _ => false
  | .hostRead _ _ => false
  | .hostWrite _ _ _ => false
  | .birsp _ _ => false
  | .copySector _ _ => false
  | .copyComplete _ _ => false
  | .eventPulse _ _ => false
  | .sinkMprogStart _ _ => false
  | .sinkCopySubmit _ _ => false
  | .engineProgramFetch _ _ => false
  | .engineFault _ _ _ _ => false
  | .queryComplete _ => false
  | .burgeeHold _ => false
  | .fabricFlitRoute _ => false
  | .packetDeliver _ => false
  | .e2eAck _ _ => false
  | .retransmitTimeout _ _ => false
  | .linkReplay _ => false
  | .negotiationFlit _ _ => false
  | .freezeFlit _ _ => false
  | .leaseRenewal _ _ => false
  | .leaseExpiry _ => false
  | .leaseEmbargoEnd _ => false
  | .portRetrain _ _ => false
  | .phbHoldTimeout _ => false
  | .channelDqRetrain _ => false
  | .freezeRingStep => false
  | .powerGovernorTick _ => false
  | .currentMonitorOver _ => false
  | .waveSample _ _ => false
  | .breakdownRecord _ _ => false
  | .comparatorMatch _ => false
  | .comparatorTimeout _ => false
  | .redundancyMismatch _ _ => false
  | .trapServe _ => false
  | .heartbeatMissed => false
  | .clockMonitor => false
  | .supplyMonitor => false
  | .thermalTrip => false
  | .freezePin => false
  | .arrayUncorrected _ _ _ => false
  | .moduleQuiescent => false
  | .hbOutToggle => false
  | .gdnCtlFrz _ => false
  | .gdnCtlThaw _ => false
  | .gdnCtlRel _ => false
  | .gdnCtlAck _ => false
  | .gdnHbWrite _ _ => false
  | .gdnHbwinWrite _ => false
  | .mxeCtlClrst _ => false
  | .mxeCtlAbort _ => false
  | .mxeCtlSkip _ => false
  | .mxeCtlResume _ => false
  | .cpeCtlFail _ _ => false
  | .cpeCtlResume _ => false
  | .lcpCtlAbort _ => false
  | .lcpCtlSkip _ => false
  | .lcpCtlResume _ => false
  | .phbCtlMapgo _ => false
  | .phbCtlRetrain _ => false
  | .hlyVacWrite _ _ => false
  | .hlyAgeWrite _ _ => false
  | .hlyAvgWrite _ _ => false
  | .coreL1Write _ _ => false
  | .corePartWrite _ _ _ => false
  | .sltEntCommit _ _ _ => false
  | .sltEntRevoke _ _ _ => false
  | .lqCfgWrite _ _ => false
  | .dbgCtlWrite _ _ => false
  | .pwrCapWrite _ => false
  | .mbCmdAttest _ => false
  | .mbCmdLogread _ => false
  | .sltStatRead _ => false
  | .dbgDropRead _ => false
  | .trpCntRead _ => false
  | .serrCntRead _ => false
  | .phbStatRead _ => false
  | .registerWrite _ _ _ _ => false
  | .moduleReset => false
  | .bringupGuidon _ _ => false
  | .bringupManagement _ => false
  | .bringupRecords _ _ _ _ => false
  | .bringupMemory _ => false
  | .bringupLinks _ _ => false
  | .bringupContexts => false
  | .matrixCommandComplete _ => false
  | .hostSnoop _ _ => false
  | .levelCauseClear _ => false
  | .vacateHoldExpiry _ => false
  | .phbBusyClear _ _ => false
  | .flowOpen _ _ _ _ _ => false
  | .flowClose _ => false

/-- What each instruction asks of its word. -/
def shapeOf : Instr → Shape
  | .iadd f => intShape f true (!f.sat || f.c == .zero) { d := dv f, a := sv f, b := sv f, c := .sPred true }
  | .isub f => intShape f true (!f.sat || f.c == .zero) { d := dv f, a := sv f, b := sv f, c := .sPred true }
  | .iaddc f => intShape f true (!f.sat) { d := dv f, a := sv f, b := sv f, c := .sPred false }
  | .isubb f => intShape f true (!f.sat) { d := dv f, a := sv f, b := sv f, c := .sPred false }
  | .imul f => intShape f true true { d := dv f, a := sv f, b := sv f }
  | .imulh f => intShape f false true { d := dv f, a := sv f, b := sv f }
  | .imad f => intShape f true true { d := dv f, a := sv f, b := sv f, c := sv f }
  | .idot4 f => intShape f true (f.wid == 2) { d := dv f, a := sv f, b := sv f, c := sv f }
  | .imin f => intShape f false true { d := dv f, a := sv f, b := sv f }
  | .imax f => intShape f false true { d := dv f, a := sv f, b := sv f }
  | .iabs f => intShape f true (!f.uns) { d := dv f, a := sv f }
  | .ineg f => intShape f true (!f.uns) { d := dv f, a := sv f }
  | .andB f => intShape f false true { d := dv f, a := sv f, b := sv f }
  | .orB f => intShape f false true { d := dv f, a := sv f, b := sv f }
  | .xorB f => intShape f false true { d := dv f, a := sv f, b := sv f }
  | .andnB f => intShape f false true { d := dv f, a := sv f, b := sv f }
  | .notB f => intShape f false true { d := dv f, a := sv f }
  | .shl f => intShape f true true { d := dv f, a := sv f, b := .sVal false }
  | .shr f => intShape f false true { d := dv f, a := sv f, b := .sVal false }
  | .sar f => intShape f false true { d := dv f, a := sv f, b := .sVal false }
  | .rotl f => intShape f false true { d := dv f, a := sv f, b := .sVal false }
  | .funsh f => intShape f false (decide (2 ≤ f.wid.toNat)) { d := dv f, a := sv f, b := sv f, c := .sVal false }
  | .bfx f => intShape f false true { d := dv f, a := sv f, b := .sVal false }
  | .bfi f => intShape f false true { d := dv f, a := sv f, b := sv f, c := .sVal false }
  | .popc f => intShape f false true { d := .dReg 1 1 true, a := sv f }
  | .clz f => intShape f false true { d := .dReg 1 1 true, a := sv f }
  | .ctz f => intShape f false true { d := .dReg 1 1 true, a := sv f }
  | .brev f => intShape f false true { d := dv f, a := sv f }
  | .permb f => intShape f false (f.wid == 2) { d := dv f, a := sv f, b := sv f, c := .sVal false }
  | .sel f => intShape f false (decide (2 ≤ f.wid.toNat)) { d := dv f, a := sv f, b := sv f, c := .sPred false }
  | .isetp f => intShape f false true { d := .dPred, a := sv f, b := sv f, c := .sPred true, value := false }
  | .plop f => { modOk := f.mod == 0, d := .dPred, a := .sPred true, b := .sPred true, c := .sPred true, value := false }
  | .mov f => intShape f false (decide (2 ≤ f.wid.toNat)) { d := dv f, a := sv f }
  | .movi f => { modOk := f.mod == 0, d := .dReg 2 2 false, a := .sVal false, b := .sVal false }
  | .fadd f => fltShape f true true { d := .dReg 1 1 true, a := .sVal false, b := .sVal false }
  | .fsub f => fltShape f true true { d := .dReg 1 1 true, a := .sVal false, b := .sVal false }
  | .fmul f => fltShape f true true { d := .dReg 1 1 true, a := .sVal false, b := .sVal false }
  | .ffma f => fltShape f true true { d := .dReg 1 1 true, a := .sVal false, b := .sVal false, c := .sVal false }
  | .fmin f => fltShape f false true { d := .dReg 1 1 true, a := .sVal false, b := .sVal false }
  | .fmax f => fltShape f false true { d := .dReg 1 1 true, a := .sVal false, b := .sVal false }
  | .fsetp f => fltShape f false true { d := .dPred, a := .sVal false, b := .sVal false, c := .sPred true, value := false }
  | .fclass f => fltShape f false false { d := .dReg 1 1 true, a := .sVal false }
  | .frint f => fltShape f true true { d := .dReg 1 1 true, a := .sVal false }
  | .fscale f => fltShape f true true { d := .dReg 1 1 true, a := .sVal false, b := .sVal false }
  | .hadd2 f => fltShape f true true { d := .dReg 1 1 true, a := .sVal false, b := .sVal false }
  | .hfma2 f => fltShape f true true { d := .dReg 1 1 true, a := .sVal false, b := .sVal false, c := .sVal false }
  | .cvt f => cvtShape f
  | .sfn f => fltShape f false true { d := .dReg 1 1 true, a := .sVal false }
  | .shfl f => { modOk := f.mod.getLsbD 5 || f.mod == 0, d := .dReg 1 1 true, a := .sVal false, b := if f.mod.getLsbD 5 then .unused else .sVal false, c := .sMask, needS := true, value := false }
  | .vote f => { modOk := f.mod == 0, d := if f.fn == 2 then .dReg 1 1 true else .dPred, a := if f.fn == 3 then .sVal false else .sPred false, c := .sMask, needS := true, value := false }
  | .redw f => { modOk := f.mod == 0, d := .dReg 1 1 true, a := .sVal false, c := .sMask, needS := true, value := false }
  | .prfx f => { modOk := f.mod.extractLsb' 1 5 == 0, d := .dReg 1 1 true, a := .sVal false, c := .sMask, needS := true, value := false }
  | .matchL f => { modOk := f.mod == 0, d := .dReg 1 1 true, a := .sVal (f.fn == 1), c := .sMask, needS := true, value := false }
  | .hlane f => { modOk := f.mod.extractLsb' 1 5 == 0, d := .dReg 1 1 true, a := .sVal false }
  | .exmrd f => { modOk := f.mod == 0, d := .dReg 1 1 true }
  | .exmwr f => { modOk := f.mod == 0, a := .sVal false, value := false }
  | .exmand f => { modOk := f.mod == 0, a := .sVal false, value := false }
  | .exmor f => { modOk := f.mod == 0, a := .sVal false, value := false }
  | .tidx _ => { d := .dReg 1 1 true, a := .sVal false }
  | .shpset _ => { a := .sVal false, value := false, shapeSec := true }
  | .isect f => { modOk := f.mod == 0, d := .dReg 1 1 true, a := .sVal false, b := .sVal false, c := .sVal false }
  | .deskew f => { modOk := f.mod == 0, d := .dReg 4 4 false, a := .sReg 4 4 false, b := .sQuad, multi := true }
  | .pillar f => { modOk := f.mod.extractLsb' 1 5 == 0, d := .dReg 1 1 true, a := .sVal true, b := .sQuad }
  | .lmul f => nrwShape f false false false { d := .dReg 1 1 true, a := .sVal false, b := .sVal false }
  | .lsum f => nrwShape f true false false { d := .dReg 1 1 true, a := .sVal false, b := .sVal false, c := .sVal false }
  | .lcvt f => nrwShape f true false true { d := .dReg 1 1 true, a := .sVal false, b := .sCtl, c := if f.recB then .sVal false else .unused, immOk := lcvtCtl f.imm }
  | .bpack f => nrwShape f true false true { d := .dReg 1 1 true, a := .sReg (packCount f.imm) 1 false, b := .sCtl, c := .sVal false, immOk := packCtl f.imm false }
  | .bunpk f => nrwShape f true false false { d := .dReg (packCount f.imm) 1 true, a := .sVal false, b := .sCtl, c := .sVal false, immOk := packCtl f.imm true, multi := decide (2 ≤ packCount f.imm) }
  | .clamp f => nrwShape f false true false { d := .dReg 1 1 true, a := .sVal false, b := .sVal false, c := .sVal false }
  | .scle f => nrwShape f false false true { d := .dReg 1 1 true, a := .sVal false, b := .sCtl, c := if f.recB then .sVal false else .unused, immOk := scleCtl f.imm }
  | .ld f => { modOk := memMod f true, immField := true, needS := true, value := false, d := .dReg (szRegs (szOf f)) (szRegs (szOf f)) true, a := .sReg 2 2 false }
  | .st f => { modOk := memMod f true, immField := true, needS := true, value := false, a := .sReg 2 2 false, b := .sReg (szRegs (szOf f)) (szRegs (szOf f)) false }
  | .lds f => { modOk := memMod f false, immField := true, needS := true, value := false, d := .dReg (szRegs (szOf f)) (szRegs (szOf f)) true, a := .sReg 1 1 true }
  | .sts f => { modOk := memMod f false, immField := true, needS := true, value := false, a := .sReg 1 1 true, b := .sReg (szRegs (szOf f)) (szRegs (szOf f)) false }
  | .ldw f => { modOk := memMod f false, immField := true, needS := true, value := false, d := .dReg (szRegs (szOf f)) (szRegs (szOf f)) true, a := .sReg 1 1 true }
  | .stw f => { modOk := memMod f false, immField := true, needS := true, value := false, a := .sReg 1 1 true, b := .sReg (szRegs (szOf f)) (szRegs (szOf f)) false }
  | .ldc f => { modOk := memMod f true, immField := true, needS := true, value := false, d := .dReg (szRegs (szOf f)) (szRegs (szOf f)) true, a := .sReg 2 2 false }
  | .pref f => { modOk := memMod f true, immField := true, needS := true, value := false, a := .sReg 2 2 false }
  | .cwb f => { modOk := f.mod == 0, immField := true, needS := true, value := false, a := .sReg 2 2 false }
  | .cinv f => { modOk := f.mod == 0, immField := true, needS := true, value := false, a := .sReg 2 2 false }
  | .cdemote f => { modOk := f.mod == 0, immField := true, needS := true, value := false, a := .sReg 2 2 false }
  | .atom f => { modOk := memMod f true, immField := true, needS := true, value := false, d := .dReg (rmwRegs f) (rmwRegs f) true, a := addrK f, b := .sReg (rmwRegs f) (rmwRegs f) false }
  | .cas f => { modOk := memMod f true, immField := true, needS := true, value := false, d := .dReg (casRegs f) (casRegs f) true, a := addrK f, b := .sReg (casRegs f) (casRegs f) false, c := .sReg (casRegs f) (casRegs f) false }
  | .red f => { modOk := memMod f true, immField := true, needS := true, value := false, a := addrK f, b := .sReg (rmwRegs f) (rmwRegs f) false }
  | .ldl f => { modOk := memMod f true, immField := true, needS := true, value := false, d := .dReg (casRegs f) (casRegs f) true, a := .sReg 2 2 false }
  | .stc f => { modOk := memMod f true, immField := true, needS := true, value := false, d := .dPred, a := .sReg 2 2 false, b := .sReg (casRegs f) (casRegs f) false }
  | .fence f => { modOk := scopeMod f, immField := true, needS := true, value := false, immOk := f.imm == 0 }
  | .acq f => { modOk := scopeMod f, immField := true, needS := true, value := false, d := .dReg (casRegs f) (casRegs f) true, a := addrK f }
  | .rel f => { modOk := scopeMod f, immField := true, needS := true, value := false, a := addrK f }
  | .bind f => { modOk := f.mod == 0, immField := true, needS := true, value := false, immOk := f.imm == 0, a := spaceK (f.fn.getLsbD 4), b := spaceK (f.fn.getLsbD 0), c := .sReg 1 1 false }
  | .unbind f => { modOk := f.mod == 0, immField := true, needS := true, value := false, immOk := f.imm == 0, b := spaceK (f.fn.getLsbD 0), c := .sReg 1 1 false }
  | .waitc f => { modOk := memMod f false, immField := true, needS := true, value := false, d := .dReg (waitRegs f) (waitRegs f) true, a := .sReg 2 2 false, b := .sReg (waitRegs f) (waitRegs f) false }
  | .bar f => { modOk := barMod f, immField := true, needS := true, value := false, immOk := f.a == .zero || f.imm == 0, a := .sReg 1 1 true }
  | .leaseGet f => { modOk := f.mod.extractLsb' 0 4 == 0, immField := true, needS := true, value := false, a := .sReg 2 2 false }
  | .leaseDrop f => { modOk := f.mod == 0, immField := true, needS := true, value := false, a := .sReg 2 2 false }
  | .leaseDropall f => { modOk := f.mod == 0, immField := true, needS := true, value := false, immOk := f.imm == 0 }
  | .boinit f => { modOk := f.mod == 0, immField := true, needS := true, value := false, a := boK f, b := .sReg 1 1 false }
  | .boarr f => { modOk := scopeMod f, immField := true, needS := true, value := false, a := boK f, b := .sReg 1 1 true }
  | .botok f => { modOk := f.mod == 0, immField := true, needS := true, value := false, d := .dReg 1 1 false, a := boK f }
  | .bowait f => { modOk := scopeMod f, immField := true, needS := true, value := false, d := .dPred, a := boK f, b := .sReg 1 1 false }
  | .bowaitp f => { modOk := scopeMod f, immField := true, needS := true, value := false, a := boK f }
  | .rinit f => { modOk := f.mod == 0, immField := true, needS := true, value := false, a := .sReg 1 1 true, b := .sReg 1 1 true, immOk := f.imm.extractLsb' 4 28 == 0 }
  | .rget f => { modOk := f.mod == 0, immField := true, needS := true, value := false, d := .dReg 1 1 false, immOk := f.imm.extractLsb' 4 28 == 0 }
  | .rputRes f => { modOk := f.mod == 0, immField := true, needS := true, value := false, d := .dReg 1 1 false, immOk := f.imm.extractLsb' 4 28 == 0 }
  | .rputPub f => { modOk := f.mod == 0, immField := true, needS := true, value := false, immOk := f.imm.extractLsb' 4 28 == 0 }
  | .rrel f => { modOk := f.mod == 0, immField := true, needS := true, value := false, immOk := f.imm.extractLsb' 4 28 == 0 }
  | .rstat f => { modOk := f.mod == 0, immField := true, needS := true, value := false, d := .dReg 1 1 false, immOk := f.imm.extractLsb' 4 28 == 0 }
  | .evmap f => { modOk := scopeMod f && (f.imm.extractLsb' 4 2 == 2 || f.mod == 0), immField := true, needS := true, value := false, a := if f.imm.extractLsb' 4 2 == 1 then .sReg 2 2 false else if f.imm.extractLsb' 4 2 == 2 then .sReg 1 1 true else .unused, immOk := f.imm.extractLsb' 9 7 == 0 && f.imm.extractLsb' 4 2 != 3 && (f.imm.extractLsb' 4 2 == 2 || f.imm.extractLsb' 6 3 == 0) }
  | .evsig f => { modOk := f.mod == 0, immField := true, needS := true, value := false, immOk := f.imm.extractLsb' 2 30 == 0 }
  | .evwait f => { modOk := f.mod == 0, immField := true, needS := true, value := false, d := .dReg 1 1 true, immOk := f.imm.extractLsb' 12 20 == 0, engines := [.copy] }
  | .cp f => { modOk := copyMod f, immField := true, needS := true, value := false, a := if f.imm.getLsbD 23 then .sReg 1 1 true else .sReg 2 2 true, immOk := f.imm.extractLsb' 20 2 == 0, engines := [.copy], copyCmd := true }
  | .cpblk f => { modOk := copyMod f, immField := true, needS := true, value := false, a := if f.imm.getLsbD 23 then .sReg 1 1 true else .sReg 2 2 true, immOk := f.imm.extractLsb' 20 2 == 0, engines := [.copy], copyCmd := true }
  | .fork f => { modOk := f.mod == 0, immField := true, needS := true, value := false, a := forkK f 0, b := forkK f 1, c := forkK f 2, immOk := f.imm.extractLsb' 3 29 == 0 && f.imm != 0 }
  | .rdv f => { modOk := f.mod == 0, immField := true, needS := true, value := false, immOk := f.imm.extractLsb' 3 29 == 0 && f.imm != 0 }
  | .mldb f => { modOk := !f.mod.getLsbD 0 && !f.reuse && decide (f.fmt.toNat ≤ 8), immField := true, needS := true, value := false, a := .sReg 1 1 true, immOk := f.imm.extractLsb' 14 9 == 0, engines := [.matrix], mxAddr := true }
  | .mma f => { modOk := !f.mod.getLsbD 0 && mmaPair f.fn f.fmt, immField := true, needS := true, value := false, a := if f.imm.extractLsb' 26 2 == 1 then .sReg 1 1 true else .unused, immOk := mmaImm f.imm, engines := [.matrix], mxAddr := true }
  | .accz f => { modOk := f.mod == 0, immField := true, needS := true, value := false, immOk := f.imm.extractLsb' 23 9 == 0 && decide ((f.imm.extractLsb' 20 3).toNat ≤ 2) && accRegion (f.imm.extractLsb' 12 8) (f.imm.extractLsb' 6 6) (f.imm.extractLsb' 0 6), engines := [.matrix] }
  | .accsc f => { modOk := f.mod == 0, immField := true, needS := true, value := false, immOk := f.imm.extractLsb' 30 2 == 0 && accRegion (f.imm.extractLsb' 12 8) (f.imm.extractLsb' 6 6) (f.imm.extractLsb' 0 6), engines := [.matrix] }
  | .accld f => { modOk := f.mod == 0, immField := true, needS := true, value := false, a := .sReg 1 1 true, immOk := accRegion (f.imm.extractLsb' 20 8) (f.imm.extractLsb' 14 6) (f.imm.extractLsb' 8 6), engines := [.matrix], mxAddr := true }
  | .accst f => { modOk := f.mod == 0, immField := true, needS := true, value := false, a := .sReg 1 1 true, immOk := accRegion (f.imm.extractLsb' 20 8) (f.imm.extractLsb' 14 6) (f.imm.extractLsb' 8 6), engines := [.matrix], mxAddr := true }
  | .msel f => { modOk := f.mod == 0, immField := true, needS := true, value := false, immOk := f.imm.extractLsb' 24 8 == 0 && f.imm.extractLsb' 16 8 != 0, engines := [.matrix] }
  | .mnext f => { modOk := f.mod == 0, immField := true, needS := true, value := false, immOk := f.imm == 0, progOnly := true, engines := [.matrix] }
  | .mwaite f => { modOk := f.mod == 0, immField := true, needS := true, value := false, immOk := f.imm.extractLsb' 4 28 == 0, progOnly := true, engines := [.matrix] }
  | .msig f => { modOk := f.mod == 0, immField := true, needS := true, value := false, opA := f.imm.getLsbD 5 || f.a == .zero, a := .sReg 1 1 true, immOk := msigImm f.imm, engines := [.matrix], mxAddr := true }
  | .mend f => { modOk := f.mod == 0, immField := true, needS := true, value := false, immOk := f.imm.extractLsb' 1 31 == 0, progOnly := true, engines := [.matrix] }
  | .mendLoop f => { modOk := f.mod == 0, immField := true, needS := true, value := false, immOk := f.imm.extractLsb' 1 31 == 0, progOnly := true, engines := [.matrix] }
  | .loopL f => { modOk := f.mod == 0, immField := true, needS := true, value := false, immOk := f.imm.extractLsb' 16 16 == 0, progOnly := true, engines := [.lcp] }
  | .endl f => { modOk := f.mod == 0, immField := true, needS := true, value := false, immOk := f.imm == 0, progOnly := true, engines := [.lcp] }
  | .emit f => { modOk := f.mod == 0, immField := true, needS := true, value := false, immOk := f.imm.extractLsb' 2 30 == 0, progOnly := true, engines := [.lcp] }
  | .permw f => { modOk := f.mod == 0, immField := true, needS := true, value := false, immOk := f.imm.extractLsb' 7 25 == 0 && decide (1 ≤ (f.imm.extractLsb' 1 6).toNat ∧ (f.imm.extractLsb' 1 6).toNat ≤ 32), progOnly := true, engines := [.lcp] }
  | .lset f => { modOk := f.mod.extractLsb' 4 2 == 0, immField := true, needS := true, value := false, progOnly := true, engines := [.lcp] }
  | .lend f => { modOk := f.mod == 0, immField := true, needS := true, value := false, immOk := f.imm == 0, progOnly := true, engines := [.lcp] }
  | .spawn f => { modOk := !f.mod.getLsbD 5 && decide ((f.mod.extractLsb' 0 4).toNat ≤ 8), immField := true, needS := true, value := false, d := .dPred, a := argK f, b := .sReg 1 1 false, c := .sReg 2 2 true, immOk := decide ((f.imm.extractLsb' 0 3).toNat ≤ 4) }
  | .spawnt f => { modOk := !f.mod.getLsbD 5 && decide ((f.mod.extractLsb' 0 4).toNat ≤ 8), immField := true, needS := true, value := false, d := .dPred, a := argK f, b := .sReg 1 1 false, c := .sReg 2 2 true, immOk := decide ((f.imm.extractLsb' 0 3).toNat ≤ 4) }
  | .launchg f => { modOk := f.mod == 0, immField := true, needS := true, value := false, d := .dPred, a := .sReg 2 2 false, immOk := f.imm == 0 }
  | .exit f => { modOk := f.mod == 0, immField := true, needS := true, value := false, immOk := f.imm == 0 }
  | .yield f => { modOk := f.mod == 0, immField := true, needS := true, value := false, immOk := f.imm.extractLsb' 16 16 == 0 }
  | .cancel f => { modOk := f.mod.extractLsb' 1 5 == 0, immField := true, needS := true, value := false, d := .dPred, a := if f.mod.getLsbD 0 then .unused else .sReg 2 2 false, immOk := f.imm == 0 }
  | .dlset f => { modOk := f.mod == 0, immField := true, needS := true, value := false, a := .sReg 2 2 false, immOk := f.imm == 0 }
  | .dlrd f => { modOk := f.mod == 0, immField := true, needS := true, value := false, d := .dReg 2 2 false, immOk := f.imm == 0 }
  | .cqbind f => { modOk := f.mod == 0, immField := true, needS := true, value := false, immOk := f.imm.extractLsb' 27 4 == 0 }
  | .cqbindOff f => { modOk := f.mod == 0, immField := true, needS := true, value := false, immOk := f.imm.extractLsb' 27 4 == 0 }
  | .cqpush f => { modOk := f.mod == 0, immField := true, needS := true, value := false, d := .dReg 1 1 true, a := .sReg 1 1 false, b := .sReg 1 1 true, immOk := f.imm.extractLsb' 3 29 == 0 }
  | .cqflush f => { modOk := f.mod == 0, immField := true, needS := true, value := false, immOk := f.imm.extractLsb' 8 24 == 0 }
  | .futwait f => { modOk := f.mod.extractLsb' 1 5 == 0, immField := true, needS := true, value := false, d := if f.mod.getLsbD 0 then .dReg 1 1 true else .dReg 2 2 true, a := .sReg 2 2 false, immOk := f.imm == 0 }
  | .futpoll f => { modOk := f.mod == 0, immField := true, needS := true, value := false, d := .dReg 1 1 true, a := .sReg 2 2 false, immOk := f.imm == 0 }
  | .poola f => { modOk := f.mod == 0, immField := true, needS := true, value := false, d := .dReg 2 2 false, a := .sReg 2 2 false, c := .sPred false, immOk := f.imm == 0 }
  | .poolf f => { modOk := f.mod == 0, immField := true, needS := true, value := false, a := .sReg 2 2 false, b := .sReg 2 2 false, immOk := f.imm == 0 }
  | .qcol f => { modOk := f.mod.extractLsb' 1 5 == 0, immField := true, needS := true, value := false, a := .sReg 4 4 false, b := if f.mod.getLsbD 0 then .sReg 4 4 false else .unused, c := .sReg 2 2 false, immOk := decide (f.imm.toNat ≤ 62) }
  | .qocc f => { modOk := f.mod == 0, immField := true, needS := true, value := false, a := .sReg 4 4 false, c := .sReg 2 2 false, immOk := decide (f.imm.toNat ≤ 62) }
  | .sample f => { modOk := f.mod == 0, immField := true, needS := true, value := false, d := .dReg 1 1 false, a := .sReg 1 1 false, b := .sReg 1 1 true, c := .sReg 4 4 false }
  | .sampleAcc f => { modOk := f.mod == 0, immField := true, needS := true, value := false, d := .dReg 1 1 false, a := .sReg 1 1 false, c := .sReg 4 4 false, immOk := f.imm.extractLsb' 14 18 == 0 && f.imm.extractLsb' 6 8 != 0 }
  | .seqnew f => { modOk := f.mod == 0, immField := true, needS := true, value := false, d := .dReg 1 1 false, a := .sReg 2 2 false, immOk := f.imm == 0 }
  | .seqfork f => { modOk := f.mod == 0, immField := true, needS := true, value := false, d := .dReg 1 1 false, a := .sReg 1 1 false, b := .sReg 1 1 false, c := .sReg 2 2 false, immOk := f.imm == 0 }
  | .seqend f => { modOk := f.mod == 0, immField := true, needS := true, value := false, a := .sReg 1 1 false, immOk := f.imm == 0 }
  | .seqcommit f => { modOk := f.mod.extractLsb' 1 5 == 0, immField := true, needS := true, value := false, d := .dReg 1 1 false, a := .sReg 1 1 false, b := .sReg 1 1 false, c := .sReg 1 1 true, immOk := f.imm == 0 }
  | .seqcommitConf f => { modOk := f.mod.extractLsb' 1 5 == 0, immField := true, needS := true, value := false, d := .dReg 1 1 false, a := .sReg 1 1 false, b := .sReg 1 1 false, c := .sReg 1 1 true, immOk := f.imm == 0 }
  | .seqdraft f => { modOk := f.mod == 0, immField := true, needS := true, value := false, d := .dReg 1 1 true, a := .sReg 1 1 false, b := .sReg 1 1 false, immOk := f.imm == 0 }
  | .seqrej f => { modOk := f.mod == 0, immField := true, needS := true, value := false, a := .sReg 1 1 false, b := .sReg 1 1 false, immOk := f.imm == 0 }
  | .seqrd f => { modOk := f.mod == 0, immField := true, needS := true, value := false, d := if f.imm == 10 then .dReg 2 2 false else .dReg 1 1 false, a := .sReg 1 1 false, b := .sReg 1 1 true, immOk := decide (f.imm.toNat ≤ 12) }
  | .pnset f => { modOk := f.mod == 0, immField := true, needS := true, value := false, a := .sReg 2 2 false, immOk := f.imm.extractLsb' 8 24 == 0 }
  | .pnclr f => { modOk := f.mod == 0, immField := true, needS := true, value := false, immOk := f.imm.extractLsb' 8 24 == 0 }
  | .bra f => { modOk := f.mod == 0, immField := true, needS := true, value := false, immOk := decide ((f.imm.extractLsb' 0 3).toNat ≤ 4) }
  | .brx f => { modOk := f.mod == 0, immField := true, needS := true, value := false, a := .sReg 2 2 false }
  | .call f => { modOk := f.mod == 0, immField := true, needS := true, value := false, d := .dReg 2 2 false, immOk := decide ((f.imm.extractLsb' 0 3).toNat ≤ 4) }
  | .callx f => { modOk := f.mod == 0, immField := true, needS := true, value := false, d := .dReg 2 2 false, a := .sReg 2 2 false }
  | .ret f => { modOk := f.mod == 0, immField := true, needS := true, value := false, a := .sReg 2 2 false, immOk := f.imm == 0 }
  | .nop f => { modOk := f.mod == 0, immField := true, value := false, immOk := f.imm == 0, engines := [.copy, .matrix, .lcp] }
  | .trap f => { modOk := f.mod.extractLsb' 1 5 == 0, immField := true, needS := true, value := false, a := .sReg 1 1 true, immOk := f.imm.extractLsb' 8 24 == 0 && decide (0xE0 ≤ f.imm.toNat) }
  | .trapPriv f => { modOk := f.mod.extractLsb' 1 5 == 0, immField := true, needS := true, value := false, a := .sReg 1 1 true, immOk := f.imm.extractLsb' 8 24 == 0 && decide (0xE0 ≤ f.imm.toNat) }
  | .eret f => { modOk := true, immField := true, needS := true, value := false, immOk := f.imm == 0, priv := true, handlerOnly := true }
  | .eretExit f => { modOk := true, immField := true, needS := true, value := false, immOk := f.imm == 0, priv := true, handlerOnly := true }
  | .eretFail f => { modOk := true, immField := true, needS := true, value := false, immOk := f.imm == 0, priv := true, handlerOnly := true }
  | .eretE f => { modOk := true, immField := true, needS := true, value := false, immOk := f.imm == 0 }
  | .eretEDone f => { modOk := true, immField := true, needS := true, value := false, immOk := f.imm == 0 }
  | .eretEDone64 f => { modOk := true, immField := true, needS := true, value := false, immOk := f.imm == 0 }
  | .sreg f => { modOk := f.mod == 0, immField := true, needS := true, value := false, d := selD f.imm, immOk := f.imm.extractLsb' 8 24 == 0, sel := selOk f.imm false }
  | .swr f => { modOk := f.mod == 0, immField := true, needS := true, value := false, a := selA f.imm, immOk := f.imm.extractLsb' 8 24 == 0, sel := selOk f.imm true }
  | .bkpt f => { modOk := f.mod == 0, immField := true, needS := true, value := false, immOk := f.imm.extractLsb' 16 16 == 0 }
  | .mark f => { modOk := f.mod == 0, immField := true, needS := true, value := false, a := .sReg 1 1 true, immOk := f.imm.extractLsb' 16 16 == 0 }
  | .smpl f => { modOk := f.mod == 0, immField := true, needS := true, value := false, immOk := f.imm == 0 }
  | .tlbinvPage f => { modOk := true, immField := true, needS := true, value := false, a := .sReg 2 2 false, b := .sReg 1 1 false, c := .sReg 1 1 true, immOk := f.imm == 0, priv := true }
  | .tlbinvCtx f => { modOk := true, immField := true, needS := true, value := false, c := .sReg 1 1 true, immOk := f.imm == 0, priv := true }
  | .tlbinvAll f => { modOk := true, immField := true, needS := true, value := false, immOk := f.imm == 0, priv := true }
  | .ctxsetNew f => { modOk := true, immField := true, needS := true, value := false, d := .dReg 1 1 false, a := .sReg 2 2 false, immOk := f.imm == 0, priv := true }
  | .ctxsetRoot f => { modOk := true, immField := true, needS := true, value := false, a := .sReg 2 2 false, b := .sReg 1 1 false, immOk := f.imm == 0, priv := true }
  | .ctxsetKill f => { modOk := true, immField := true, needS := true, value := false, b := .sReg 1 1 false, immOk := f.imm == 0, priv := true }
  | .wsetCore f => { modOk := true, immField := true, needS := true, value := false, d := .dReg 1 1 true, b := .sReg 1 1 false, c := .sReg 1 1 false, immOk := f.imm == 0, priv := true }
  | .wsetSlice f => { modOk := true, immField := true, needS := true, value := false, d := .dReg 1 1 true, b := .sReg 1 1 false, c := .sReg 1 1 false, immOk := f.imm == 0, priv := true }
  | .wsetGran f => { modOk := true, immField := true, needS := true, value := false, d := .dReg 1 1 true, a := .sReg 2 2 false, b := .sReg 1 1 false, c := .sReg 1 1 false, immOk := f.imm == 0, priv := true }
  | .wsetPort f => { modOk := true, immField := true, needS := true, value := false, d := .dReg 1 1 true, b := .sReg 1 1 false, c := .sReg 1 1 false, immOk := f.imm == 0, priv := true }
  | .wsetFn f => { modOk := true, immField := true, needS := true, value := false, d := .dReg 1 1 true, b := .sReg 1 1 false, c := .sReg 1 1 false, immOk := f.imm == 0, priv := true }
  | .regionCoh f => { modOk := true, immField := true, needS := true, value := false, d := .dReg 1 1 true, a := .sReg 2 2 false, b := .sReg 1 1 false, immOk := f.imm == 0, priv := true }
  | .regionSwm f => { modOk := true, immField := true, needS := true, value := false, d := .dReg 1 1 true, a := .sReg 2 2 false, b := .sReg 1 1 false, immOk := f.imm == 0, priv := true }
  | .biassetDev f => { modOk := true, immField := true, needS := true, value := false, d := .dReg 1 1 true, a := .sReg 2 2 false, b := .sReg 1 1 false, immOk := f.imm == 0, priv := true }
  | .biassetHost f => { modOk := true, immField := true, needS := true, value := false, d := .dReg 1 1 true, a := .sReg 2 2 false, b := .sReg 1 1 false, immOk := f.imm == 0, priv := true }
  | .wsave f => { modOk := f.mod == 0, immField := true, needS := true, value := false, a := .sReg 2 2 false, b := .sReg 1 1 false, handlerOnly := true, immOk := f.imm == 0, priv := true }
  | .wrest f => { modOk := f.mod == 0, immField := true, needS := true, value := false, a := .sReg 2 2 false, b := .sReg 1 1 false, handlerOnly := true, immOk := f.imm == 0, priv := true }
  | .sppin f => { modOk := f.mod == 0, immField := true, needS := true, value := false, d := .dReg 1 1 true, a := .sReg 1 1 true, b := .sReg 1 1 true, immOk := f.imm == 0, priv := true }
  | .spunpin f => { modOk := f.mod == 0, immField := true, needS := true, value := false, d := .dReg 1 1 true, a := .sReg 1 1 true, b := .sReg 1 1 true, immOk := f.imm == 0, priv := true }
  | .lqTailWrite _ _ => {}
  | .launchAcceptResume _ => {}
  | .taskEmissionResume _ => {}
  | .dispatchDecision _ => {}
  | .waveFormation _ _ => {}
  | .formingWaveTimeout _ => {}
  | .issue _ _ => {}
  | .yieldExpiry _ => {}
  | .teamRetire _ => {}
  | .gridDrain _ => {}
  | .neighbourAveraging => {}
  | .taskTransitArrival _ => {}
  | .thermalMigrationScan _ => {}
  | .preemption _ => {}
  | .teamRestore _ _ => {}
  | .contextSwitch _ => {}
  | .l1SplitChange _ => {}
  | .deadlineFire _ => {}
  | .binTimeout _ _ => {}
  | .tileEmit _ _ => {}
  | .scratchpadRefill _ _ => {}
  | .missEntryGrant _ => {}
  | .missDataFill _ _ _ => {}
  | .tlbWalk _ => {}
  | .dirReadRequest _ _ => {}
  | .dirOwnershipRequest _ _ => {}
  | .dirBuntingRequest _ _ _ => {}
  | .invalidation _ _ => {}
  | .invalidationAck _ _ => {}
  | .mergeRequest _ => {}
  | .merge _ => {}
  | .dirRecall _ => {}
  | .l1Eviction _ _ => {}
  | .writebackAck _ _ => {}
  | .farOperation _ => {}
  | .barrierCredit _ => {}
  | .monitorWake _ => {}
  | .monitorPoll _ => {}
  | .hostRead _ _ => {}
  | .hostWrite _ _ _ => {}
  | .birsp _ _ => {}
  | .copySector _ _ => {}
  | .copyComplete _ _ => {}
  | .eventPulse _ _ => {}
  | .sinkMprogStart _ _ => {}
  | .sinkCopySubmit _ _ => {}
  | .engineProgramFetch _ _ => {}
  | .engineFault _ _ _ _ => {}
  | .queryComplete _ => {}
  | .burgeeHold _ => {}
  | .fabricFlitRoute _ => {}
  | .packetDeliver _ => {}
  | .e2eAck _ _ => {}
  | .retransmitTimeout _ _ => {}
  | .linkReplay _ => {}
  | .negotiationFlit _ _ => {}
  | .freezeFlit _ _ => {}
  | .leaseRenewal _ _ => {}
  | .leaseExpiry _ => {}
  | .leaseEmbargoEnd _ => {}
  | .portRetrain _ _ => {}
  | .phbHoldTimeout _ => {}
  | .channelDqRetrain _ => {}
  | .freezeRingStep => {}
  | .powerGovernorTick _ => {}
  | .currentMonitorOver _ => {}
  | .waveSample _ _ => {}
  | .breakdownRecord _ _ => {}
  | .comparatorMatch _ => {}
  | .comparatorTimeout _ => {}
  | .redundancyMismatch _ _ => {}
  | .trapServe _ => {}
  | .heartbeatMissed => {}
  | .clockMonitor => {}
  | .supplyMonitor => {}
  | .thermalTrip => {}
  | .freezePin => {}
  | .arrayUncorrected _ _ _ => {}
  | .moduleQuiescent => {}
  | .hbOutToggle => {}
  | .gdnCtlFrz _ => {}
  | .gdnCtlThaw _ => {}
  | .gdnCtlRel _ => {}
  | .gdnCtlAck _ => {}
  | .gdnHbWrite _ _ => {}
  | .gdnHbwinWrite _ => {}
  | .mxeCtlClrst _ => {}
  | .mxeCtlAbort _ => {}
  | .mxeCtlSkip _ => {}
  | .mxeCtlResume _ => {}
  | .cpeCtlFail _ _ => {}
  | .cpeCtlResume _ => {}
  | .lcpCtlAbort _ => {}
  | .lcpCtlSkip _ => {}
  | .lcpCtlResume _ => {}
  | .phbCtlMapgo _ => {}
  | .phbCtlRetrain _ => {}
  | .hlyVacWrite _ _ => {}
  | .hlyAgeWrite _ _ => {}
  | .hlyAvgWrite _ _ => {}
  | .coreL1Write _ _ => {}
  | .corePartWrite _ _ _ => {}
  | .sltEntCommit _ _ _ => {}
  | .sltEntRevoke _ _ _ => {}
  | .lqCfgWrite _ _ => {}
  | .dbgCtlWrite _ _ => {}
  | .pwrCapWrite _ => {}
  | .mbCmdAttest _ => {}
  | .mbCmdLogread _ => {}
  | .sltStatRead _ => {}
  | .dbgDropRead _ => {}
  | .trpCntRead _ => {}
  | .serrCntRead _ => {}
  | .phbStatRead _ => {}
  | .registerWrite _ _ _ _ => {}
  | .moduleReset => {}
  | .bringupGuidon _ _ => {}
  | .bringupManagement _ => {}
  | .bringupRecords _ _ _ _ => {}
  | .bringupMemory _ => {}
  | .bringupLinks _ _ => {}
  | .bringupContexts => {}
  | .matrixCommandComplete _ => {}
  | .hostSnoop _ _ => {}
  | .levelCauseClear _ => {}
  | .vacateHoldExpiry _ => {}
  | .phbBusyClear _ _ => {}
  | .flowOpen _ _ _ _ _ => {}
  | .flowClose _ => {}

/-- The instruction that OP and the form selectors name, or the first offending field of spec 03 R59 (0 OP, 1 FN, 9 MOD). -/
def selectOp (op : Nat) (f : Fields) : Except Nat Instr :=
  match op with
  | 0x00 => if f.fn == 0 then .ok (.iadd f) else if f.fn == 1 then .ok (.isub f) else if f.fn == 2 then .ok (.iaddc f) else if f.fn == 3 then .ok (.isubb f) else .error 1
  | 0x01 => if f.fn == 0 then .ok (.imul f) else if f.fn == 1 then .ok (.imulh f) else if f.fn == 2 then .ok (.imad f) else if f.fn == 3 then .ok (.idot4 f) else .error 1
  | 0x02 => if f.fn == 0 then .ok (.imin f) else if f.fn == 1 then .ok (.imax f) else if f.fn == 2 then .ok (.iabs f) else if f.fn == 3 then .ok (.ineg f) else .error 1
  | 0x03 => if f.fn == 0 then .ok (.andB f) else if f.fn == 1 then .ok (.orB f) else if f.fn == 2 then .ok (.xorB f) else if f.fn == 3 then .ok (.andnB f) else if f.fn == 4 then .ok (.notB f) else .error 1
  | 0x04 => if f.fn == 0 then .ok (.shl f) else if f.fn == 1 then .ok (.shr f) else if f.fn == 2 then .ok (.sar f) else if f.fn == 3 then .ok (.rotl f) else if f.fn == 4 then .ok (.funsh f) else .error 1
  | 0x05 => if f.fn == 0 then .ok (.bfx f) else if f.fn == 1 then .ok (.bfi f) else if f.fn == 2 then .ok (.popc f) else if f.fn == 3 then .ok (.clz f) else if f.fn == 4 then .ok (.ctz f) else if f.fn == 5 then .ok (.brev f) else if f.fn == 6 then .ok (.permb f) else .error 1
  | 0x06 => if f.fn == 0 then .ok (.sel f) else .error 1
  | 0x07 => if decide (f.fn.toNat ≤ 5) then .ok (.isetp f) else .error 1
  | 0x08 => .ok (.plop f)
  | 0x09 => if f.fn == 0 then .ok (.mov f) else if f.fn == 1 then .ok (.movi f) else .error 1
  | 0x20 => if decide (f.fn.toNat ≤ 2) then .ok (.fadd f) else .error 1
  | 0x21 => if decide (f.fn.toNat ≤ 2) then .ok (.fsub f) else .error 1
  | 0x22 => if decide (f.fn.toNat ≤ 2) then .ok (.fmul f) else .error 1
  | 0x23 => if decide (f.fn.toNat ≤ 2) then .ok (.ffma f) else .error 1
  | 0x24 => if decide (f.fn.toNat ≤ 2) then .ok (.fmin f) else .error 1
  | 0x25 => if decide (f.fn.toNat ≤ 2) then .ok (.fmax f) else .error 1
  | 0x26 => if decide ((f.fn.extractLsb' 0 4).toNat ≤ 2 ∧ (f.fn.extractLsb' 4 4).toNat ≤ 13) then .ok (.fsetp f) else .error 1
  | 0x27 => if decide (f.fn.toNat ≤ 2) then .ok (.fclass f) else .error 1
  | 0x28 => if decide (f.fn.toNat ≤ 2) then .ok (.frint f) else .error 1
  | 0x29 => if decide (f.fn.toNat ≤ 2) then .ok (.fscale f) else .error 1
  | 0x2a => if decide (f.fn.toNat ≤ 1) then .ok (.hadd2 f) else .error 1
  | 0x2b => if decide (f.fn.toNat ≤ 1) then .ok (.hfma2 f) else .error 1
  | 0x2c => if decide ((f.fn.extractLsb' 0 4).toNat ≤ 13 ∧ (f.fn.extractLsb' 4 4).toNat ≤ 13) then .ok (.cvt f) else .error 1
  | 0x2d => if decide (f.fn.toNat ≤ 7) then .ok (.sfn f) else .error 1
  | 0x40 => if decide (f.fn.toNat ≤ 3) then .ok (.shfl f) else .error 1
  | 0x41 => if decide (f.fn.toNat ≤ 3) then .ok (.vote f) else .error 1
  | 0x42 => if decide (f.fn.toNat ≤ 10) then .ok (.redw f) else .error 1
  | 0x43 => if decide (f.fn.toNat ≤ 10) then .ok (.prfx f) else .error 1
  | 0x44 => if decide (f.fn.toNat ≤ 1) then .ok (.matchL f) else .error 1
  | 0x45 => if f.fn == 0 then .ok (.hlane f) else .error 1
  | 0x46 => if f.fn == 0 then .ok (.exmrd f) else if f.fn == 1 then .ok (.exmwr f) else if f.fn == 2 then .ok (.exmand f) else if f.fn == 3 then .ok (.exmor f) else .error 1
  | 0x47 => if f.fn == 0 then .ok (.tidx f) else .error 1
  | 0x48 => if f.fn == 0 then .ok (.shpset f) else .error 1
  | 0x49 => if f.fn == 0 then .ok (.isect f) else .error 1
  | 0x4a => if f.fn == 0 then .ok (.deskew f) else .error 1
  | 0x4b => if f.fn == 0 then .ok (.pillar f) else .error 1
  | 0x50 => if f.fn == 0 then .ok (.lmul f) else .error 1
  | 0x51 => if f.fn == 0 then .ok (.lsum f) else .error 1
  | 0x52 => if f.fn == 0 then .ok (.lcvt f) else .error 1
  | 0x53 => if f.fn == 0 then .ok (.bpack f) else .error 1
  | 0x54 => if f.fn == 0 then .ok (.bunpk f) else .error 1
  | 0x55 => if f.fn == 0 then .ok (.clamp f) else .error 1
  | 0x56 => if f.fn == 0 then .ok (.scle f) else .error 1
  | 0x60 => if loadFn f true then .ok (.ld f) else .error 1
  | 0x61 => if storeFn f then .ok (.st f) else .error 1
  | 0x62 => if loadFn f true then .ok (.lds f) else .error 1
  | 0x63 => if storeFn f then .ok (.sts f) else .error 1
  | 0x64 => if loadFn f true then .ok (.ldw f) else .error 1
  | 0x65 => if storeFn f then .ok (.stw f) else .error 1
  | 0x66 => if loadFn f false then .ok (.ldc f) else .error 1
  | 0x67 => if decide (f.fn.toNat ≤ 1) then .ok (.pref f) else .error 1
  | 0x68 => if f.fn == 0 then .ok (.cwb f) else if f.fn == 1 then .ok (.cinv f) else if f.fn == 2 then .ok (.cdemote f) else .error 1
  | 0x69 => if f.sp != 3 && decide ((f.fn.extractLsb' 0 4).toNat ≤ 13) then .ok (.atom f) else .error 1
  | 0x6a => if f.sp != 3 && f.fn.extractLsb' 1 3 == 0 then .ok (.cas f) else .error 1
  | 0x6b => if f.sp != 3 && decide ((f.fn.extractLsb' 0 4).toNat ≤ 11) && !f.fn.getLsbD 6 then .ok (.red f) else .error 1
  | 0x6c => if f.fn.extractLsb' 1 5 == 0 && !f.fn.getLsbD 7 then .ok (.ldl f) else .error 1
  | 0x6d => if f.fn.extractLsb' 1 5 == 0 && !f.fn.getLsbD 6 then .ok (.stc f) else .error 1
  | 0x6e => if f.fn == 0 then .ok (.fence f) else .error 1
  | 0x6f => if f.fn.extractLsb' 6 2 == 0 && !f.fn.getLsbD 5 && f.fn.extractLsb' 1 3 == 0 then .ok (.acq f) else .error 1
  | 0x70 => if f.fn.extractLsb' 6 2 == 0 && !f.fn.getLsbD 5 && f.fn.extractLsb' 1 3 == 0 then .ok (.rel f) else .error 1
  | 0x71 => if f.fn &&& 0xEE == 0 then .ok (.bind f) else .error 1
  | 0x72 => if f.fn &&& 0xFE == 0 then .ok (.unbind f) else .error 1
  | 0x73 => if !f.fn.getLsbD 7 && f.sp == 0 && f.fn.extractLsb' 0 3 != 7 then .ok (.waitc f) else .error 1
  | 0x74 => if decide (f.fn.toNat ≤ 2) then .ok (.bar f) else .error 1
  | 0x75 => if f.fn == 0 then .ok (.leaseGet f) else if f.fn == 1 then .ok (.leaseDrop f) else if f.fn == 2 then .ok (.leaseDropall f) else .error 1
  | 0x80 => if f.fn &&& 0xFE == 0 then .ok (.boinit f) else .error 1
  | 0x81 => if f.fn &&& 0xFE == 0 then .ok (.boarr f) else .error 1
  | 0x82 => if f.fn &&& 0xFE == 0 then .ok (.botok f) else .error 1
  | 0x83 => if f.fn &&& 0xFE == 0 then .ok (.bowait f) else .error 1
  | 0x84 => if f.fn &&& 0xFC == 0 then .ok (.bowaitp f) else .error 1
  | 0x85 => if f.fn == 0 then .ok (.rinit f) else .error 1
  | 0x86 => if f.fn == 0 then .ok (.rget f) else .error 1
  | 0x87 => if f.fn == 0 then .ok (.rputRes f) else if f.fn == 1 then .ok (.rputPub f) else .error 1
  | 0x88 => if f.fn == 0 then .ok (.rrel f) else .error 1
  | 0x89 => if f.fn == 0 then .ok (.rstat f) else .error 1
  | 0x8a => if f.fn == 0 then .ok (.evmap f) else .error 1
  | 0x8b => if f.fn == 0 then .ok (.evsig f) else .error 1
  | 0x8c => if f.fn == 0 then .ok (.evwait f) else .error 1
  | 0x90 => if decide (f.fn.toNat ≤ 6) then .ok (.cp f) else .error 1
  | 0x91 => if f.fn == 0 then .ok (.cpblk f) else .error 1
  | 0x92 => if f.fn == 0 then .ok (.fork f) else .error 1
  | 0x93 => if f.fn == 0 then .ok (.rdv f) else .error 1
  | 0xa0 => if f.fn == 0 then .ok (.mldb f) else .error 1
  | 0xa1 => if decide (f.fn.toNat ≤ 3) then .ok (.mma f) else .error 1
  | 0xa2 => if f.fn == 0 then .ok (.accz f) else .error 1
  | 0xa3 => if f.fn == 0 then .ok (.accsc f) else .error 1
  | 0xa4 => if decide (f.fn.toNat ≤ 3) then .ok (.accld f) else .error 1
  | 0xa5 => if decide (f.fn.toNat ≤ 7) then .ok (.accst f) else .error 1
  | 0xa6 => if f.fn == 0 then .ok (.msel f) else .error 1
  | 0xa7 => if f.fn == 0 then .ok (.mnext f) else .error 1
  | 0xa8 => if f.fn == 0 then .ok (.mwaite f) else .error 1
  | 0xa9 => if f.fn == 0 then .ok (.msig f) else .error 1
  | 0xaa => if f.fn == 0 && !f.imm.getLsbD 0 then .ok (.mend f) else if f.fn == 0 && f.imm.getLsbD 0 then .ok (.mendLoop f) else .error 1
  | 0xb0 => if f.fn == 0 then .ok (.loopL f) else .error 1
  | 0xb1 => if f.fn == 0 then .ok (.endl f) else .error 1
  | 0xb2 => if f.fn == 0 then .ok (.emit f) else .error 1
  | 0xb3 => if f.fn == 0 then .ok (.permw f) else .error 1
  | 0xb4 => if f.fn == 0 then .ok (.lset f) else .error 1
  | 0xb5 => if f.fn == 0 then .ok (.lend f) else .error 1
  | 0xb8 => if f.fn == 0 then .ok (.spawn f) else if f.fn == 1 then .ok (.spawnt f) else if f.fn == 2 then .ok (.launchg f) else .error 1
  | 0xb9 => if f.fn == 0 then .ok (.exit f) else if f.fn == 1 then .ok (.yield f) else if f.fn == 2 then .ok (.cancel f) else .error 1
  | 0xba => if f.fn == 0 then .ok (.dlset f) else if f.fn == 1 then .ok (.dlrd f) else .error 1
  | 0xbb => if f.fn == 0 && !f.imm.getLsbD 31 then .ok (.cqbind f) else if f.fn == 0 && f.imm.getLsbD 31 then .ok (.cqbindOff f) else if f.fn == 1 then .ok (.cqpush f) else if f.fn == 2 then .ok (.cqflush f) else .error 1
  | 0xbc => if f.fn == 0 then .ok (.futwait f) else if f.fn == 1 then .ok (.futpoll f) else .error 1
  | 0xbd => if f.fn == 0 then .ok (.poola f) else if f.fn == 1 then .ok (.poolf f) else .error 1
  | 0xbe => if f.fn == 0 then .ok (.qcol f) else if f.fn == 1 then .ok (.qocc f) else .error 1
  | 0xc0 => if f.fn == 0 then .ok (.sample f) else if f.fn == 1 then .ok (.sampleAcc f) else .error 1
  | 0xc1 => if f.fn == 0 then .ok (.seqnew f) else if f.fn == 1 then .ok (.seqfork f) else if f.fn == 2 then .ok (.seqend f) else .error 1
  | 0xc2 => if f.fn == 0 && !f.mod.getLsbD 0 then .ok (.seqcommit f) else if f.fn == 0 && f.mod.getLsbD 0 then .ok (.seqcommitConf f) else if f.fn == 0 then .error 9 else .error 1
  | 0xc3 => if f.fn == 0 then .ok (.seqdraft f) else if f.fn == 1 then .ok (.seqrej f) else .error 1
  | 0xc4 => if f.fn == 0 then .ok (.seqrd f) else .error 1
  | 0xc5 => if f.fn == 0 then .ok (.pnset f) else if f.fn == 1 then .ok (.pnclr f) else .error 1
  | 0xc8 => if f.fn == 0 then .ok (.bra f) else .error 1
  | 0xc9 => if f.fn == 0 then .ok (.brx f) else .error 1
  | 0xca => if f.fn == 0 then .ok (.call f) else .error 1
  | 0xcb => if f.fn == 0 then .ok (.callx f) else .error 1
  | 0xcc => if f.fn == 0 then .ok (.ret f) else .error 1
  | 0xcd => if f.fn == 0 then .ok (.nop f) else .error 1
  | 0xe0 => if f.fn == 0 && !f.mod.getLsbD 0 then .ok (.trap f) else if f.fn == 0 && f.mod.getLsbD 0 then .ok (.trapPriv f) else if f.fn == 0 then .error 9 else .error 1
  | 0xe1 => if f.fn == 0 && f.mod == 0 then .ok (.eret f) else if f.fn == 0 && f.mod == 1 then .ok (.eretExit f) else if f.fn == 0 && f.mod == 2 then .ok (.eretFail f) else if f.fn == 1 && f.mod == 0 then .ok (.eretE f) else if f.fn == 1 && f.mod == 1 then .ok (.eretEDone f) else if f.fn == 1 && f.mod == 3 then .ok (.eretEDone64 f) else if f.fn == 0 || f.fn == 1 then .error 9 else .error 1
  | 0xe2 => if f.fn == 0 then .ok (.sreg f) else .error 1
  | 0xe3 => if f.fn == 0 then .ok (.swr f) else .error 1
  | 0xe4 => if f.fn == 0 then .ok (.bkpt f) else .error 1
  | 0xe5 => if f.fn == 0 then .ok (.mark f) else if f.fn == 1 then .ok (.smpl f) else .error 1
  | 0xe6 => if f.fn == 0 && f.mod == 0 then .ok (.tlbinvPage f) else if f.fn == 0 && f.mod == 1 then .ok (.tlbinvCtx f) else if f.fn == 0 && f.mod == 2 then .ok (.tlbinvAll f) else if f.fn == 0 then .error 9 else .error 1
  | 0xe7 => if f.fn == 0 && f.mod == 0 then .ok (.ctxsetNew f) else if f.fn == 0 && f.mod == 1 then .ok (.ctxsetRoot f) else if f.fn == 0 && f.mod == 2 then .ok (.ctxsetKill f) else if f.fn == 1 && f.mod == 0 then .ok (.wsetCore f) else if f.fn == 1 && f.mod == 1 then .ok (.wsetSlice f) else if f.fn == 1 && f.mod == 2 then .ok (.wsetGran f) else if f.fn == 1 && f.mod == 3 then .ok (.wsetPort f) else if f.fn == 1 && f.mod == 4 then .ok (.wsetFn f) else if f.fn == 0 || f.fn == 1 then .error 9 else .error 1
  | 0xe8 => if f.fn == 0 && f.mod == 0 then .ok (.regionCoh f) else if f.fn == 0 && f.mod == 1 then .ok (.regionSwm f) else if f.fn == 0 then .error 9 else .error 1
  | 0xe9 => if f.fn == 0 && f.mod == 0 then .ok (.biassetDev f) else if f.fn == 0 && f.mod == 1 then .ok (.biassetHost f) else if f.fn == 0 then .error 9 else .error 1
  | 0xea => if f.fn == 0 then .ok (.wsave f) else .error 1
  | 0xeb => if f.fn == 0 then .ok (.wrest f) else .error 1
  | 0xec => if f.fn == 0 then .ok (.sppin f) else if f.fn == 1 then .ok (.spunpin f) else .error 1
  | _ => .error 0

end Sys2Proof
end

