-- ==== Sys2Proof/Machine/Check.lean ====
section
/-!
DEFINITION. Check.lean: the decode causes of one instruction in the order of spec 03 R60, with the first offending
field of spec 03 R59.
-/
namespace Sys2Proof

/-- Where an instruction word stands: what decoding depends on beside the word. -/
structure DecEnv where
  regs     : Nat := 64                       -- declared registers of the grid
  priv     : Bool := true                    -- privileged mode
  handler  : Bool := true                    -- in the handler wave
  engine   : Option Engine := none           -- in an engine program
  shapeSec : Bool := true                    -- the grid's code object has a SHAPE section
deriving DecidableEq, Repr

/-- A decode cause and the first offending field (spec 03 R58, R59). -/
structure DecErr where
  cause : Byte
  field : Nat
deriving DecidableEq, Repr

namespace Opnd

/-- The operand code of spec 03 R44. -/
def code : Opnd → BitVec 8
  | reg n => 0#2 ++ n
  | latch n => 0x08#5 ++ n
  | pred n => 0x09#5 ++ n
  | imm => 0x50
  | zero => 0x51
  | special k => BitVec.ofNat 8 (0x52 + k.val)
  | const => 0x60
  | resv c => c

/-- The operand that a code names. -/
def ofCode (c : BitVec 8) : Opnd :=
  if c.toNat < 0x40 then .reg (c.extractLsb' 0 6)
  else if c.toNat < 0x48 then .latch (c.extractLsb' 0 3)
  else if c.toNat < 0x50 then .pred (c.extractLsb' 0 3)
  else if c = 0x50 then .imm
  else if c = 0x51 then .zero
  else if h : 0x52 ≤ c.toNat ∧ c.toNat ≤ 0x5B then .special ⟨c.toNat - 0x52, by omega⟩
  else if c = 0x60 then .const
  else .resv c

/-- Whether the operand is not a reserved code. -/
def named : Opnd → Bool
  | resv _ => false
  | _ => true

def isImm : Opnd → Bool
  | imm => true
  | const => true
  | _ => false

end Opnd

/-- n registers from r, aligned and below the declared count (spec 02 R31, 11 R217). -/
def regsOk (regs n align : Nat) (r : BitVec 6) : Bool := decide (r.toNat % align = 0) && decide (r.toNat + n ≤ regs)

/-- Whether an operand may stand where its kind is asked (spec 03 R44, R45, R46). -/
def kindOk (regs : Nat) (stop immField : Bool) (im : Word) : Kind → Opnd → Bool
  | .unused, o => o == .zero
  | .dReg n al z, o => (match o with | .reg r => regsOk regs n al r | .zero => z | _ => false)
  | .dPred, o => (match o with | .pred _ => true | _ => false)
  | .sVal wide, o =>
    (match o with
     | .reg r => if wide then regsOk regs 2 2 r else regsOk regs 1 1 r
     | .latch _ => !stop
     | .imm => !immField
     | .const => !immField
     | .zero => true
     | .special _ => !wide
     | _ => false)
  | .sReg n al z, o => (match o with | .reg r => regsOk regs n al r | .zero => z | _ => false)
  | .sPred opt, o => (match o with | .pred _ => true | .zero => opt | _ => false)
  | .sMask, o =>
    (match o with
     | .reg r => regsOk regs 1 1 r
     | .imm => true
     | .const => true
     | .zero => true
     | .special k => k.val == 5
     | _ => false)
  | .sQuad, o =>
    (match o with | .reg r => regsOk regs 4 4 r | .const => !immField && decide ((im.extractLsb' 0 6).toNat ≤ 60) | _ => false)
  | .sCtl, o => o == .imm

/-- Operand fields of A, B and C that hold the immediate or a constant. -/
def immCount (f : Fields) : Nat := (f.a.isImm).toNat + (f.b.isImm).toNat + (f.c.isImm).toNat

/-- The must-be-zero rules of IMM (spec 03 R46), with the row's own rule. -/
def immRule (sh : Shape) (f : Fields) : Bool :=
  if sh.immField then sh.immOk
  else
    (if f.a == .const || f.b == .const || f.c == .const then f.imm.extractLsb' 6 26 == 0 else true) &&
    (if immCount f = 0 then f.imm == 0 else true) && (if f.b == .imm then sh.immOk else true)

/-- Major opcodes that are instructions in the place (spec 08 R153, R157, 12 R264, R265). -/
def opPlaced (e : Option Engine) (op : Nat) : Bool :=
  match e with
  | none => !(decide (0xB0 ≤ op ∧ op ≤ 0xB5) || op == 0xA7 || op == 0xA8 || op == 0xAA)
  | some .matrix => decide (0xA0 ≤ op ∧ op ≤ 0xAA) || op == 0xCD
  | some .copy => op == 0x8C || op == 0x90 || op == 0x91 || op == 0xCD
  | some .lcp => decide (0xB0 ≤ op ∧ op ≤ 0xB5) || op == 0xCD

/-- The first offending field of a word whose FN or MOD names no instruction: NW and LQ stand before MOD. -/
def formErr (k : Nat) (f : Fields) : Nat :=
  if k ≤ 4 then k else if f.nw then 3 else if f.lq != 0 then 4 else k

/-- RESERVED_OPCODE of an instruction whose constructor is known: the first offending field. -/
def opcodeErr (env : DecEnv) (sh : Shape) (f : Fields) : Option Nat :=
  if (match env.engine with
      | none => sh.progOnly
      | some e => !sh.engines.contains e) then some 0
  else if sh.handlerOnly && !env.handler then some 0
  else if sh.shapeSec && !env.shapeSec then some 0
  else if f.nw && (!sh.value || f.stop || sh.multi || !f.latchEn) then some 3
  else if f.lq != 0 && (!sh.value || f.stop || sh.multi) then some 4
  else if !sh.opA then some 6
  else if !sh.modOk then some 9
  else if !immRule sh f then some 10
  else if env.engine.isNone && sh.mxAddr && f.imm.getLsbD 31 then some 10
  else if env.engine.isNone && sh.copyCmd && (f.imm.getLsbD 31 || f.imm.getLsbD 27 || f.imm.getLsbD 22) then some 10
  else if env.engine.isSome && sh.copyCmd && !f.imm.getLsbD 23 then some 10
  else none

/-- RESERVED_OPERAND: the first offending operand field. -/
def operandErr (env : DecEnv) (sh : Shape) (f : Fields) : Option Nat :=
  let ok := kindOk env.regs f.stop sh.immField f.imm
  if !ok sh.d f.d || (env.engine.isSome && f.d != .zero) then some 5
  else if !ok sh.a f.a || (env.engine.isSome && f.a != .zero) then some 6
  else if !ok sh.b f.b || (f.a.isImm && f.b.isImm) then some 7
  else if !ok sh.c f.c || ((f.a.isImm || f.b.isImm) && f.c.isImm) then some 8
  else if !sh.sel then some 10
  else none

/-- The decode causes of an instruction whose constructor is known (spec 03 R60, items 4). -/
def checkFields (env : DecEnv) (i : Instr) (f : Fields) : Option DecErr :=
  let sh := shapeOf i
  match opcodeErr env sh f with
  | some k => some ⟨0x01, k⟩
  | none =>
    match operandErr env sh f with
    | some k => some ⟨0x02, k⟩
    | none => if sh.needS && !f.stop then some ⟨0x07, 2⟩ else none

/-- The most permissive place an instruction may stand in. -/
def openEnv (i : Instr) : DecEnv :=
  if (shapeOf i).progOnly then { engine := (shapeOf i).engines.head? } else {}

end Sys2Proof
end

