-- ==== Sys2Proof/WellFormed.lean ====
section
/-!
DEFINITION. WellFormed.lean: the instructions that some place of some program may hold, and the events whose indices
name units the device has (spec 01 R7).
-/
namespace Sys2Proof

/-- Index bounds of events (spec 01 R7, 15 R303, 17 R347, 23 R437). -/
def eventOk : Instr → Bool
  | .lqTailWrite q _ => decide (q < Config.numQueues)
  | .launchAcceptResume q => decide (q < Config.numQueues)
  | .dispatchDecision c => decide (c < 128)
  | .waveFormation c q => decide (c < 128 ∧ q < 4)
  | .issue c q => decide (c < 128 ∧ q < 4)
  | .contextSwitch c => decide (c < 128)
  | .l1SplitChange c => decide (c < 128)
  | .binTimeout c b => decide (c < 128 ∧ b < 8)
  | .tileEmit c b => decide (c < 128 ∧ b < 8)
  | .eventPulse c j => decide (c < 128 ∧ j < 16)
  | .sinkMprogStart c k => decide (c < 128 ∧ k < 16)
  | .sinkCopySubmit c k => decide (c < 128 ∧ k < 16)
  | .queryComplete cl => decide (cl < 16)
  | .burgeeHold ch => decide (ch < 80)
  | .gdnHbWrite x _ => decide (x < 64)
  | .coreL1Write c _ => decide (c < 128)
  | .corePartWrite c j _ => decide (c < 128 ∧ j < 4)
  | .sltEntCommit c k _ => decide (c < 128 ∧ k < 16)
  | .sltEntRevoke c k _ => decide (c < 128 ∧ k < 16)
  | .lqCfgWrite q _ => decide (q < Config.numQueues)
  | .dbgCtlWrite x _ => decide (x < 64)
  | .mbCmdAttest m => decide (m < 68)
  | .mbCmdLogread m => decide (m < 68)
  | .hlyVacWrite cl _ => decide (cl < 16)
  | .hlyAgeWrite cl _ => decide (cl < 16)
  | .hlyAvgWrite cl _ => decide (cl < 16)
  | .phbCtlMapgo b => decide (b < 256)
  | .phbCtlRetrain b => decide (b < 256)
  | .trapServe c => decide (c < 128)
  | i => (opOf i).isNone

/-- Well-formed: an instruction whose form selectors are its constructor's, whose operand codes are named and which
passes the decode checks in the place it may stand in; or an event with indices in range. -/
def wellFormed (i : Instr) : Bool :=
  match fieldsOf i with
  | some f =>
    formOk i && f.d.named && f.a.named && f.b.named && f.c.named && (checkFields (openEnv i) i f).isNone
  | none => eventOk i

end Sys2Proof
end

