-- ==== Sys2Proof/Decode.lean ====
section
/-!
DEFINITION. Decode.lean: fetch lines and instruction words to instructions (spec 03 R37 to R60), total on any bits,
rejecting by cause; and the encoder.
-/
namespace Sys2Proof

/-- The fields of an instruction word (spec 03 R43). -/
def unpackFields (w : IWord) : Fields where
  fn := w.extractLsb' 80 8
  stop := w.getLsbD 79
  nw := w.getLsbD 78
  lq := w.extractLsb' 74 4
  pg := w.extractLsb' 70 4
  d := .ofCode (w.extractLsb' 62 8)
  a := .ofCode (w.extractLsb' 54 8)
  b := .ofCode (w.extractLsb' 46 8)
  c := .ofCode (w.extractLsb' 38 8)
  mod := w.extractLsb' 32 6
  imm := w.extractLsb' 0 32

/-- OP of an instruction word. -/
def opField (w : IWord) : Byte := w.extractLsb' 88 8

/-- A privileged encoding, whatever its other fields hold (spec 03 R58). -/
def privEncoding (op fn : Byte) : Bool :=
  decide (0xE6 ≤ op.toNat ∧ op.toNat ≤ 0xEC) || (op == 0xE1 && fn == 0)

/-- One instruction word in its place: the instruction, or the first decode cause of spec 03 R60 item 4. -/
def decodeWord (env : DecEnv) (w : IWord) : Except DecErr Instr :=
  let op := opField w
  let f := unpackFields w
  if op = 0xFF then .error ⟨0x01, 0⟩
  else if privEncoding op f.fn && !env.priv then .error ⟨0x06, 0⟩
  else if !opPlaced env.engine op.toNat then .error ⟨0x01, 0⟩
  else
    match selectOp op.toNat f with
    | .error k => .error ⟨0x01, formErr k f⟩
    | .ok i =>
      match checkFields env i f with
      | some e => .error e
      | none => .ok i

/-- A word as twelve bytes, in the order they lie in the line, and back (spec 03 R37). -/
def wordBytes (w : IWord) : List Byte := (List.range 12).map fun k => w.extractLsb' (8 * k) 8
def bytesWord (bs : List Byte) : IWord :=
  ((bs.take 12).zipIdx.foldl (fun acc p => acc ||| ((p.1.setWidth 96).shiftLeft (8 * p.2))) 0)

/-- The instruction that a word stands for in the most permissive place: a wave in privileged mode, else an engine
program. -/
def decodeAny (w : IWord) : Option Instr :=
  match decodeWord {} w with
  | .ok i => some i
  | .error _ =>
    match decodeWord { engine := some .matrix } w with
    | .ok i => some i
    | .error _ =>
      match decodeWord { engine := some .lcp } w with
      | .ok i => some i
      | .error _ => (decodeWord { engine := some .copy } w).toOption

/-- The instruction at the head of a list of bytes, and the rest. -/
def decodeBytes (bs : List Byte) : Option (Instr × List Byte) :=
  if bs.length < 12 then none else (decodeAny (bytesWord bs)).map fun i => (i, bs.drop 12)

/-- The host's question: the instruction whose bits are w, in an opcode-table row of nbits bits. -/
def decodeTableWord (nbits w : Nat) : Option Instr :=
  (decodeBytes (wordBytes (BitVec.ofNat 96 (w % 2 ^ nbits)))).map (·.1)

/-! ## The line (spec 03 R38 to R41) -/

/-- Slot i of a line: bits 32 + 96i upward. -/
def lineSlot (l : FLine) (i : Nat) : IWord := l.extractLsb' (32 + 96 * i) 96
def lineWord (l : FLine) : Word := l.extractLsb' 0 32
def lineBtm (l : FLine) (i : Nat) : Bool := l.getLsbD i
def lineTpl (l : FLine) : Nat := (l.extractLsb' 5 4).toNat
/-- First slots of the pairs that a template names (spec 03 R38). -/
def tplPairs (t : Nat) : List Nat :=
  match t with
  | 1 => [0] | 2 => [1] | 3 => [2] | 4 => [3] | 5 => [0, 2] | 6 => [0, 3] | 7 => [1, 3] | _ => []
def parityOf {n : Nat} (x : BitVec n) : Bool := ((List.range n).foldl (fun p i => p != x.getLsbD i) false)
/-- The eight parity spans (spec 03 R39). -/
def spanParity (l : FLine) (k : Nat) : Bool := parityOf (l.extractLsb' (32 + 60 * k) 60)
def lineParityOk (l : FLine) : Bool := (List.range 8).all fun k => spanParity l k == l.getLsbD (24 + k)
/-- Not malformed (spec 03 R40). -/
def lineFormatOk (l : FLine) : Bool :=
  l.extractLsb' 9 15 == 0 && decide (lineTpl l ≤ 7) && (tplPairs (lineTpl l)).all fun i => !lineBtm l (i + 1)
/-- The slot of an instruction address (spec 03 R37), if it is one. -/
def slotOf (pc : DWord) : Option Nat :=
  match (pc.extractLsb' 0 6).toNat with
  | 0x04 => some 0 | 0x10 => some 1 | 0x1C => some 2 | 0x28 => some 3 | 0x34 => some 4 | _ => none
/-- The line address of an address. -/
def lineAddr (pc : DWord) : DWord := pc &&& ~~~0x3F#64
/-- The sequential successor (spec 06 R116). -/
def succPc (pc : DWord) : DWord := if (pc.extractLsb' 0 6).toNat < 0x34 then pc + 12 else lineAddr pc + 68

/-! ## The encoder -/

/-- The word of OP and the fields (spec 03 R43). -/
def packFields (op : Byte) (f : Fields) : IWord :=
  op ++ (f.fn ++ (BitVec.ofBool f.stop ++ (BitVec.ofBool f.nw ++ (f.lq ++ (f.pg ++ (f.d.code ++ (f.a.code ++
    (f.b.code ++ (f.c.code ++ (f.mod ++ f.imm))))))))))

/-- The word of an instruction; an event has none. -/
def encode (i : Instr) : Option IWord :=
  match opOf i, fieldsOf i with
  | some op, some f => some (packFields op f)
  | _, _ => none

/-- The line word bits that PAR takes, for five slots and the low 24 bits of the line word (spec 03 R39). -/
def makeLine (low : BitVec 24) (slots : List IWord) : FLine :=
  let body : FLine := (slots.take 5).zipIdx.foldl (fun acc p => acc ||| ((p.1.setWidth 512).shiftLeft (32 + 96 * p.2))) (low.setWidth 512)
  (List.range 8).foldl (fun acc k => if spanParity body k then acc ||| ((1#512).shiftLeft (24 + k)) else acc) body

end Sys2Proof
end

