-- ==== Sys2Proof/Machine/State.lean ====
section
/-!
DEFINITION. State.lean: every piece of state the spec gives the machine, as plain data, and the machine right after
reset. A table lists only keys that have left their reset value or that are in use; the default value of a record's
field is its reset value. INVENTORY.md lists each item with its rule; log entries 3 and 7 name the values the spec
does not give.
-/
namespace Sys2Proof.Machine

/-- Memory in its canonical form: addresses rising, no cell equal to the value an unlisted address reads as. -/
abbrev Mem := List Host.Cell

/-! ## Threads and waves (spec 02) -/

/-- Why a thread is parked (spec 02 R24). -/
inductive Park where
  | sync (form : Nat)      -- 0 wave-level exchange or wave barrier, 1 team barrier, 2 gang barrier
  | monitor (m : Nat)      -- condition monitor entry m (spec 11 R235)
  | poll (at_ : Nat)       -- degraded or polled waiter: next read at this device time (spec 11 R236)
  | engine                 -- an engine queue, ring, sink, program or owner (spec 08 R150, 12 R259)
  | miss (k : Nat)         -- k new miss-status entries (spec 09 R179)
  | refill (page : Nat)    -- a scratchpad page of the team (spec 09 R172)
  | tasks                  -- room in a task list (spec 16 R326)
  | comparator                                 -- the partner core of a redundant pair (spec 22 R422)
  | remote (line : Nat)                        -- an answer of the fabric or the host about a line (spec 13 R283, R288)
  | own (line : Nat)                           -- the home or a write-back entry, for a line (spec 13 R271, R275)
  | others                                     -- the other threads of its instruction (spec 11 R219)
deriving DecidableEq, Repr

/-- The special registers of a trap (spec 02 R32). -/
structure TrapRegs where
  cause : Byte := 0
  epc   : DWord := 0
  eaddr : DWord := 0
  einfo : DWord := 0
  efldA : Word := 0
  efldB : Word := 0
  efldC : Word := 0
  efldD : Word := 0
  evalA : Word := 0
  evalB : Word := 0
  evalC : Word := 0
  next  : DWord := 0                           -- successor of the trapped instruction (spec 21 R409)
deriving DecidableEq, Repr

/-- A reservation on a 256-byte line (spec 11 R230); a far one stands in the home slice's table, `far` giving its age. -/
structure Resv where
  line : Nat := 0
  far  : Option Nat := none
deriving DecidableEq, Repr

/-- What the fabric returned to a parked thread (spec 13 R283, R285). -/
structure Reply where
  data  : BitVec 2048 := 0                     -- bytes read, from the address asked
  value : DWord := 0                           -- old value of an RMW
  bad   : Bool := false                        -- the data was poisoned
  line  : Nat := 0                             -- the line asked
deriving DecidableEq, Repr

/-- What a thread that parks at a synchronising instruction presents (spec 02 R33, 07 R119). -/
structure Arrival where
  ins  : Instr
  mask : Word
  a    : DWord
  b    : Word
  on   : Bool                                  -- its guard holds: a contributor
deriving DecidableEq, Repr

/-- A live thread of a team, or of the handler wave of a core (spec 02 R16, 21 R403). -/
structure Thread where
  team     : Nat := 0
  hoist    : Nat := 0
  hidx     : Nat := 0
  spawned  : Bool := false
  handlerOf : Option Nat := none               -- core whose handler wave this thread belongs to
  pc       : DWord := 0
  v        : Vector Word 64 := Vector.replicate 64 0
  p        : BitVec 7 := 0
  q        : Vector DWord 8 := Vector.replicate 8 0
  lineage  : DWord := 0
  group    : Option Nat := none                -- spawn group (spec 16 R324)
  park     : Option Park := none
  word     : IWord := 0                        -- the instruction it parked at
  arrival  : Option Arrival := none
  lane     : Nat := 0                          -- physical lane and wave slot of its latest wave
  slot     : Nat := 0
  stopped  : Bool := false
  readyAt  : Nat := 0                          -- clock at which a YIELD ends
  cancel   : Option Byte := none               -- pending cancellation
  cancelled : Bool := false                    -- has taken its one cancellation
  resv     : Option Resv := none
  reply    : Option Reply := none
  awaits   : Option (Nat × Word) := none       -- flow and SEQ of the request whose answer it waits for (spec 13 R283)
  batch    : Option Nat := none                -- threads of one instruction that complete together (spec 11 R219)
  asks     : List (Nat × Bool) := []           -- sectors its parked instruction needs, and whether SWM (spec 09 R179)
  pages    : List (Nat × Nat) := []            -- scratchpad pages that its parked instruction needs, by team (spec 09 R173)
  askHint  : BitVec 2 := 0
  askAt    : Nat := 0                          -- clock at which it first asked
  handler  : Bool := false                     -- user-level handler state
  trap     : TrapRegs := {}
  savedQ   : Vector DWord 8 := Vector.replicate 8 0
  restoreQ : Bool := false                     -- ERET.E restored its latches for the run that follows
  syncCnt  : BitVec 16 := 0
  tmCnt    : BitVec 16 := 0
  gnCnt    : BitVec 16 := 0
  resume   : Option DWord := none              -- resume mark (spec 20 R386)
  matched  : Option DWord := none              -- PC at which the comparator has matched it (spec 22 R422)
  smpl     : Bool := false                     -- SMPL armed its next global memory instruction (spec 20 R388)
  lastIssue : Nat := 0
  entryCheck : Bool := false                   -- first fetch at an entry (spec 03 R41)
  entered : Option Word := none                -- position of its row, while its wave waits at CQPUSH (spec 16 R337)
deriving DecidableEq, Repr

/-- A formed or forming wave (spec 02 R26 to R30). -/
structure Wave where
  core   : Nat := 0
  quad   : Nat := 0
  slot   : Nat := 0
  team   : Nat := 0
  hoist  : Nat := 0
  lanes  : Vector (Option Nat) 32 := Vector.replicate 32 none              -- thread of each physical lane: the remap table
  exm    : Word := 0
  pc     : DWord := 0
  line   : Option (DWord × FLine) := none      -- the checked line it issues from
  lastIssue : Nat := 0
  latches : Byte := 0                          -- latches that the run has written
  forming : Option Nat := none                 -- clock at which a forming wave must issue (spec 15 R309)
  away   : Bool := false                       -- saved with its pre-empted team
deriving DecidableEq, Repr

/-! ## Engines (spec 08, 12, 16) -/

/-- A slab in one bank (spec 08 R142). `sig` is in order 64k + n. -/
structure Bank where
  sig   : List (BitVec 16) := []
  ecode : List Byte := []
  fmt   : BitVec 4 := 0
deriving DecidableEq, Repr

/-- A converted A tile (spec 08 R147). -/
structure Frag where
  rows  : List (List (BitVec 16)) := []
  codes : List Byte := []
  fmt   : BitVec 4 := 0
  mask  : Byte := 0
deriving DecidableEq, Repr

/-- A command in the matrix queue (spec 08 R150, R153); `base` is its register or iteration word. -/
structure MCmd where
  word : IWord := 0
  base : Word := 0
  epc  : DWord := 0
  quad : Nat := 0
  slot : Nat := 0
  prog : Bool := false
  row  : Nat := 0                              -- next row of an ACCLD or ACCST in progress (spec 08 R154)
deriving DecidableEq, Repr

/-- The matrix engine of a core (spec 08 R142). -/
structure Mxe where
  banks : Tab Bank := []                       -- key 4m + b
  sel   : BitVec 16 := 0                       -- bank of macro m in bits 2m+1:2m
  coll  : Option Frag := none
  acc   : Tab AccEntry := []                   -- key 512 row + column; 0 when not listed
  q     : List MCmd := []
  prog  : Option (DWord × DWord) := none       -- sequencer PC and start address
  iw    : Vector Word 8 := Vector.replicate 8 0
  held  : Option Bool := none                  -- SIG of the current iteration record, when one is held
  halt  : Option Byte := none
  sat   : Bool := false
  nan   : Bool := false
  ovf   : Bool := false
deriving DecidableEq, Repr

/-- An iteration record of the loop-control processor (spec 12 R264). -/
structure IterRec where
  words : Vector Word 8 := Vector.replicate 8 0
  sig   : Bool := false
deriving DecidableEq, Repr

/-- The loop-control processor (spec 12 R264). -/
structure Lcp where
  a     : Vector Word 8 := Vector.replicate 8 0
  loops : List (DWord × Nat) := []             -- innermost first: address after LOOP, remaining count
  recC  : List IterRec := []
  recM  : List IterRec := []
  outC  : Nat := 0                             -- permits taken
  outM  : Nat := 0
  prog  : Option (DWord × DWord) := none       -- program counter and start address
  halt  : Option Byte := none
  closed : Bool := false                       -- its program has finished a loop level, and no level is open
deriving DecidableEq, Repr

/-- A copy in the copy engine (spec 12 R244 to R250). -/
structure Copy where
  id    : Nat := 0
  team  : Nat := 0
  grid  : Nat := 0
  ctx   : Nat := 0
  form  : Nat := 0                                  -- 0 to 6 the CP form, 7 CPBLK
  src   : DWord := 0
  dst   : DWord := 0
  rowBytes : Nat := 0
  rows  : Nat := 0
  srcPitch : Nat := 0
  dstPitch : Nat := 0
  bar   : DWord := 0
  rcd   : DWord := 0
  tens  : BitVec 512 := 0                      -- the tensor record, for CPBLK
  flags : Word := 0
  scope : BitVec 3 := 0
  hint  : BitVec 2 := 0
  quad  : Nat := 0
  slot  : Nat := 0
  op    : Byte := 0
  fn    : Byte := 0
  prog  : Bool := false
  epc   : DWord := 0
  pass  : Option Nat := none                   -- pass of a copy program
  begun : Bool := false
  ringSlot : Option Nat := none
  done  : Nat := 0                             -- sectors landed
  part  : Nat := 0                             -- bytes landed of a CPBLK's next group
  credited : Nat := 0                          -- bytes credited as completed (spec 12 R241)
  lost  : Nat := 0                             -- bytes sent to remote memory whose packet was abandoned (spec 13 R283)
  fatal : Option Byte := none
  fatalAt : Nat := 0                           -- address and sector of the fatal fault (spec 12 R253)
  fatalSec : Nat := 0
  told  : Bool := false                        -- the handler has seen it
  receivers : List (Nat × Nat) := []           -- team key and generation, for multicast
  drops : Byte := 0
deriving DecidableEq, Repr

/-- The copy engine of a core (spec 12 R249, R254, R265). -/
structure Cpe where
  q     : List Copy := []
  halt  : Option Byte := none
  haltCopy : Option Nat := none                -- the suspended copy, or none for a copy-program fault
  haltSink : Option Nat := none                -- the sink whose descriptor was refused
  prog  : Option (DWord × DWord) := none       -- program counter and start address
  iw    : Vector Word 8 := Vector.replicate 8 0
  looped : Bool := false                       -- started with the loop-control processor
  held  : Option (Nat × Bool) := none          -- pass and SIG of the current record
  passes : List (Nat × Bool × Bool) := []      -- finished bodies whose copies are not all complete: SIG, and whether from a record
  nextPass : Nat := 0
deriving DecidableEq, Repr

/-- A scratchpad ring (spec 12 R257). -/
structure Ring where
  base  : Nat := 0
  size  : Nat := 0
  n     : Nat := 0
  f     : Nat := 0
  e     : Nat := 0
  resv  : List (Nat × Bool × Bool) := []             -- reserved slots in ring order: slot, by RPUT, ready
  taken : List Nat := []                             -- oldest first
  wr    : Nat := 0
  rd    : Nat := 0
deriving DecidableEq, Repr

/-- An event sink (spec 12 R261 to R263). -/
structure Sink where
  mask  : BitVec 16 := 0
  act   : Nat := 0
  addr  : DWord := 0
  form  : Nat := 0
  scope : BitVec 3 := 0
  cnt   : Nat := 0
  ovf   : Bool := false
  epc   : DWord := 0                           -- the EVMAP that registered it
  quad  : Nat := 0
  slot  : Nat := 0
deriving DecidableEq, Repr

/-- A tile buffer of a coalescing bin: rows with their tags (spec 16 R335). -/
structure Tile where
  rows   : List (List Word × Word) := []
  first  : Nat := 0                            -- clock at which the first row arrived
deriving DecidableEq, Repr

/-- A bound bin of the coalescing queue (spec 16 R335). -/
structure Bin where
  ring   : Nat := 0
  w      : Nat := 0
  t      : Nat := 0
  cur    : Tile := {}
  closed : List Tile := []                     -- tiles that wait for a slot, oldest first, at most 2
  serial : Nat := 0
deriving DecidableEq, Repr

/-- The engine group that one team owns (spec 08 R143, 12 R239, 16 R335). -/
structure Group where
  mxe   : Mxe := {}
  lcp   : Lcp := {}
  rings : Tab Ring := []
  sinks : Tab Sink := []
  bins  : Tab Bin := []
deriving DecidableEq, Repr

/-! ## L1 and translation (spec 09, 13, 19) -/

/-- Coherence states of an L1 line (spec 13 R270), and the untracked state of SWM lines (spec 09 R185). -/
inductive L1State where
  | s
  | e
  | m
  | o
  | b
  | swm
deriving DecidableEq, Repr

/-- A line of a core's L1 (spec 09 R176). `bytes` and `mask` hold SWM dirty bytes or a bunting partial (spec 13 R273). -/
structure L1Line where
  st    : L1State := .s
  hint  : Nat := 1                             -- 0 evict-first, 1 normal, 2 evict-last
  valid : BitVec 4 := 0
  dirty : BitVec 4 := 0
  bytes : BitVec 2048 := 0
  mask  : BitVec 256 := 0
  used  : Nat := 0
deriving DecidableEq, Repr

/-- A miss-status entry (spec 09 R179). -/
structure Miss where
  hint : BitVec 2 := 0
  swm  : Bool := false
  l2Only : Bool := false
deriving DecidableEq, Repr

/-- A cached translation (spec 19 R373). -/
structure TlbEntry where
  ctx  : Nat := 0
  gen  : Word := 0
  vpn  : Nat := 0                                   -- VA[56:12] of the page's first 4 KiB
  pages : Nat := 0                                  -- 4 KiB pages it covers
  pte  : DWord := 0
deriving DecidableEq, Repr

/-- A walk in the walk queue (spec 19 R373). -/
structure Walk where
  core : Nat := 0
  ctx  : Nat := 0
  va   : Nat := 0
deriving DecidableEq, Repr

/-! ## Traps (spec 21) -/

/-- A privileged trap in a core's trap queue (spec 21 R399, R400). -/
structure Trap where
  regs    : TrapRegs := {}
  source  : Nat := 0                                -- 0 wave, 1 copy, 2 matrix, 3 loop control
  team    : Nat := 0
  threads : List Nat := []
  quad    : Nat := 0
  slot    : Nat := 0
  lanes   : Word := 0
  hidx    : Nat := 0
  hoist   : Nat := 0
  atSp    : Bool := true
  pair    : Bool := false
  lineSlot : Nat := 0
  nested  : Bool := false
  after   : Bool := false
  ordinal : Word := 0
  lineage : DWord := 0
  time    : Nat := 0
  redund  : Bool := false                      -- raised by the comparator (spec 22 R423)
deriving DecidableEq, Repr

/-! ## The core block -/

/-- A bind record with its staged words (spec 15 R306). -/
structure Bind where
  ctl    : Word := 0
  queues : Word := 0
  slots  : Word := 0
  stQueues : Word := 0
  stSlots : Word := 0
deriving DecidableEq, Repr

/-- What a core's arrays return to its next instruction (spec 21 R412): every word right; one word corrected, with the cause that its loss would
have raised and its address; one register, predicate or entry of the array with that number lost, in the threads on the physical
lanes of a mask; or memory data of a near array lost, at an address. -/
inductive ArrayRead where
  | clean
  | corrected (cause : Byte) (addr : DWord)
  | lost (array ix : Byte) (lanes : Word)
  | data (addr : DWord)
deriving DecidableEq, Repr

/-- One core. -/
structure Core where
  l1Size : Nat := 1
  l1Auto : Bool := true
  l1Pend : Option Nat := none
  part   : Tab Word := []
  binds  : Tab Bind := []
  sltEnt : BitVec 4 := 0
  sltWhy : Byte := 0
  trpCnt : Word := 0
  serrCnt : Word := 0
  world  : Bool := false
  traps  : List Trap := []
  serving : Option Trap := none
  suspend : Option (Nat × Nat) := none         -- hoist and home wave that WSAVE or WREST suspends (spec 22 R417)
  handlerFault : Option Byte := none           -- cause of a trap that the handler wave itself raised (spec 21 R404)
  owner  : Option Nat := none
  group  : Group := {}
  cpe    : Cpe := {}
  shapes : Option (Nat × Tab (Vector Word 4)) := none   -- grid it serves and the entries
  icache : Tab FLine := []                     -- by physical line address
  recent : List Nat := []                      -- the 16-entry summary, newest first
  l1     : Tab L1Line := []
  miss   : Tab Miss := []                      -- by physical sector address
  arrived : List Nat := []                     -- sectors whose data waits for the instruction that asked (spec 09 R179)
  wbs    : Tab L1Line := []
  tlb    : List TlbEntry := []
  holdUntil : Option Nat := none               -- vacate reservation (spec 15 R317)
  shift  : Option (List Nat) := none           -- contexts that a context switch takes it from (spec 22 R416)
  lastMig : Option Nat := none
  memCount : Nat := 0                          -- global memory instructions, for sampling (spec 20 R384)
  sampPos : Nat := 0
  brk    : Option (Word × Nat × Nat × Nat × Bool) := none -- an open breakdown: ordinal, context, quadrant, slot, and whether it trapped
  arrays : ArrayRead := .clean                 -- what its arrays return to its next instruction (spec 21 R412)
deriving DecidableEq, Repr

/-- A query of the collision engine (spec 16 R343). -/
structure Query where
  thread : Nat := 0
  ctx    : Nat := 0
  occ    : Bool := false
  cap    : Bool := false
  a      : Vector Word 4 := Vector.replicate 4 0
  b      : Vector Word 4 := Vector.replicate 4 0
  tree   : DWord := 0
  fut    : DWord := 0
deriving DecidableEq, Repr

/-- An entry of the redundancy comparator (spec 22 R422). -/
structure CmpEntry where
  thread : List Nat := []                            -- the wave's executing threads
  word   : IWord := 0
  ops    : List DWord := []                          -- addresses then operands, in ascending t.hidx
  time   : Nat := 0
  serial : Nat := 0
deriving DecidableEq, Repr

/-- The comparator of one core pair. -/
structure Pair where
  prim   : List CmpEntry := []
  sec    : List CmpEntry := []
  serial : Nat := 0
  follow : List (Nat × Nat × DWord) := []      -- primary and secondary threads of matched effects, and their PC
  stop   : Bool := false                       -- stopped by a mismatch until the handler's return
deriving DecidableEq, Repr

/-- One cluster. -/
structure Cluster where
  age    : Nat := 65536
  avg    : BitVec 2 := 1
  vacHold : Byte := 0
  vacDone : Byte := 0
  vacCores : Byte := 0
  vacBusy : Bool := false
  queries : List Query := []
  tlb    : List TlbEntry := []
deriving DecidableEq, Repr

/-! ## Teams, grids, tasks -/

/-- What becomes of a scratchpad page that has a frame (spec 09 R171): it is resident, or in transition one way or the other. A
page without a frame is backed. -/
inductive PageSt where
  | resident
  | arriving
  | leaving
deriving DecidableEq, Repr
/-- A scratchpad page with a frame, and how the frame is held (spec 09 R171 to R173). -/
structure Page where
  st      : PageSt := .resident
  dirty   : BitVec 64 := 0                     -- sectors written since the refill
  pinned  : Bool := false
  ringPin : Bool := false
  used    : Nat := 0
deriving DecidableEq, Repr

/-- A hoist of a placed team (spec 02 R20). -/
structure Hoist where
  index : Nat := 0
  quad  : Nat := 0
  slots : List Nat := []
  launched : Nat := 0                               -- threads it was launched with
  exits : Tab Word := []                       -- ordinal of the EXIT last executed, by slot (spec 20 R391)
deriving DecidableEq, Repr

/-- The role of a team of a redundant pair (spec 22 R421). -/
inductive Role where
  | single
  | primary (partner : Nat)
  | secondary (partner : Nat)
deriving DecidableEq, Repr

/-- A team (spec 02 R16, R21). -/
structure Team where
  grid   : Nat := 0
  index  : Nat := 0                                 -- s.team
  gang   : Nat := 0                                 -- s.gang
  gslot  : Nat := 0
  child  : Bool := false                       -- created by SPAWNT
  core   : Option Nat := none                          -- none while pre-empted
  hoists : List Hoist := []
  gen    : Nat := 0
  scratch : Mem := []                          -- unlisted bytes are 0
  pages  : Tab Page := []                      -- pages in frames, and pinned ones to refill at restore
  bindRec : Nat := 0                           -- bind record it was placed under
  stamp  : Nat := 0
  placed : Nat := 0
  role   : Role := .single
  group  : Option Nat := none                  -- spawn group, for a child team
  lineage : DWord := 0
  allExit : Bool := true                       -- every thread so far retired by EXIT
  saved  : Option Group := none
  savedCpe : Cpe := {}                         -- its copy program
  savedShapes : Option (Tab (Vector Word 4)) := none
  savedTraps : List Trap := []
  preempt : Bool := false                      -- pre-emption in progress
  swap   : Bool := false                       -- swapped out, or being so, until a wait of its threads ends (spec 11 R236)
  left   : Option Nat := none                  -- core it was saved from
  avoid  : Option (Nat × Nat) := none          -- hot core it keeps off, and until when (spec 15 R316)
deriving DecidableEq, Repr

/-- A safe-point entry (spec 04 R68). -/
structure SafePt where
  off   : Nat := 0
  liveP : Byte := 0
  liveV : DWord := 0
deriving DecidableEq, Repr

/-- The start values of one spawned thread (spec 16 R326). -/
structure Child where
  args    : List Word := []
  lineage : DWord := 0
  group   : Option Nat := none
  stamp   : Nat := 0                           -- device time of the spawn
deriving DecidableEq, Repr

/-- A grid: its launch record as read at acceptance (spec 02 R18), and its progress. -/
structure Grid where
  ctx    : Nat := 0
  rcd    : DWord := 0                               -- launch record address
  entry  : DWord := 0
  codeBase : DWord := 0
  cancelEntry : DWord := 0
  teams  : Nat := 0
  hoistThreads : Nat := 0
  hoists : Nat := 0
  gangTeams : Nat := 0
  regs   : Nat := 0
  redundant : Bool := false
  stay   : Bool := false
  scratchPages : Nat := 0
  l1min  : Nat := 0
  deadline : Nat := 0                               -- the deadline register
  future : DWord := 0
  result : DWord := 0
  queue  : Nat := 0
  cls    : Nat := 0
  lineage : DWord := 0
  gridId : Word := 0
  consts : Vector Word 64 := Vector.replicate 64 0
  stamp  : Nat := 0
  state  : Nat := 0                                 -- 1 QUEUED, 2 RUNNING, 3 DONE to 6 ERROR
  fail   : Option Byte := none
  deadlineFired : Bool := false
  cancel : Option Byte := none                 -- cause that cancelled its root lineage
  nextCore : Nat := 0                          -- where the round of emission stands (spec 15 R302)
  emitted : Nat := 0                           -- launched tasks emitted so far
  serial : Nat := 0                            -- child teams so far
  pendChild : List (Nat × DWord × Child) := []  -- child teams not yet emitted: team index, entry, start values
  textBase : DWord := 0
  safePts : List SafePt := []
  shapeSec : Option (Tab (Vector Word 4)) := none
  ringSec : List (Nat × Nat × Word) := []      -- ring, base, geometry
  recording : Bool := false                    -- replay recording covers it (spec 20 R393)
  playing : Bool := false
deriving DecidableEq, Repr

/-- What a task places (spec 15 R301). -/
inductive TaskKind where
  | teams (first count : Nat)                  -- launched teams: one, or a whole gang
  | child (index : Nat) (entry : DWord) (c : Child)
  | threads (entry : DWord) (origin : Nat) (cs : List Child)
  | restore (teams : List Nat)                 -- pre-empted teams, a whole gang
deriving DecidableEq, Repr

/-- A queued task (spec 15 R301). -/
structure Task where
  kind   : TaskKind := .teams 0 0
  grid   : Nat := 0
  core   : Nat := 0
  stamp  : Nat := 0
  queue  : Nat := 0
  cls    : Nat := 0
  pinned : Bool := false
  lineage : DWord := 0
  transit : Option Nat := none                 -- clock at which it arrives (spec 15 R311)
  queued : Nat := 0                            -- clock at which it was queued
deriving DecidableEq, Repr

/-- Threads or teams of one spawn that share a future (spec 16 R324). -/
structure SpawnGroup where
  ctx   : Nat := 0
  fut   : DWord := 0
  left  : Nat := 0
  exits : Nat := 0
  cause : Option Byte := none
deriving DecidableEq, Repr

/-- A lineage (spec 16 R320). -/
structure Lineage where
  ctx    : Nat := 0
  parent : Option DWord := none
  grid   : Option Nat := none                  -- the grid whose root lineage it is
  cancel : Option Byte := none
deriving DecidableEq, Repr

/-! ## Contexts and their tables (spec 17, 19, 20, 21) -/

/-- States of a context-table entry (spec 19 R367). -/
inductive CtxState where
  | free
  | live
  | tearing
deriving DecidableEq, Repr

/-- A run of bound blocks (spec 11 R234). `team` is none for a global run, keyed by virtual address. -/
structure Binding where
  team  : Option Nat := none
  base  : Nat := 0
  n     : Nat := 0
  objTeam : Option Nat := none
  obj   : Nat := 0
deriving DecidableEq, Repr

/-- The debug block of a context (spec 20 R384). -/
structure Dbg where
  ctl  : Word := 0
  smp  : Word := 0
  bpa  : Vector DWord 8 := Vector.replicate 8 0
  bpo  : Vector Word 8 := Vector.replicate 8 0
  buf  : DWord := 0
  bufn : Word := 0
  head : Word := 0
  tail : Word := 0
  drop : Word := 0
  rlog : DWord := 0
  rlogn : Word := 0
  recording : Bool := false
  nr   : Bool := false
  diverged : Bool := false
  rord : Word := 0
  rcyc : DWord := 0
  rpos : Nat := 0                              -- records written or replayed so far
deriving DecidableEq, Repr

/-- A pennant image (spec 17 R354). -/
abbrev Pennant := BitVec 512

/-- A context-table entry with the registers and tables of its context. -/
structure Ctx where
  st    : CtxState := .free
  root  : Nat := 0
  world : Bool := false
  dbg   : Bool := false
  svc   : Bool := false
  gen   : Word := 0
  meas  : BitVec 256 := 0
  creator : Byte := 0
  fn    : Option Nat := none                   -- CXL.io function that owns its launch queues
  pvec  : DWord := 0
  uvec  : DWord := 0
  tfb   : DWord := 0
  blk   : Dbg := {}
  binds : List Binding := []
  pennants : Tab Pennant := []
  nextGrid : Word := 0
  killer : Option Nat := none                  -- thread whose CTXSET.kill tears it down (spec 19 R379)
deriving DecidableEq, Repr

/-- A launch queue (spec 15 R303). -/
structure Queue where
  base : DWord := 0
  cfg  : Word := 0
  head : Word := 0
  tail : Word := 0
  waits : Bool := false                        -- stopped for want of a lineage entry
deriving DecidableEq, Repr

/-- A sequence entry (spec 17 R347). -/
structure Seq where
  gen    : BitVec 16 := 0
  used   : Bool := false
  ctx    : Nat := 0
  live   : Bool := false
  stopped : Bool := false
  ending : Bool := false
  forked : Bool := false
  log    : DWord := 0
  cap    : Nat := 0
  p0     : Nat := 0
  parent : Nat := 0
  len    : Nat := 0
  drafts : List (BitVec 16) := []
  cost   : Nat := 0
  costmax : Nat := 0
  seed   : DWord := 0
  stream : Word := 0
  attach : BitVec 16 := 0
  notify : Word := 0
  lastfork : Word := 0
  stoppos : Word := 0
  stopent : Byte := 0
deriving DecidableEq, Repr

/-! ## Home slices (spec 11, 13) -/

/-- Directory states (spec 13 R270). -/
inductive DirState where
  | i
  | s
  | x
  | o
  | b
deriving DecidableEq, Repr

/-- A request of a core to a line (spec 13 R271). -/
inductive DirReq where
  | read
  | own
  | bunting (tag : BitVec 4)
deriving DecidableEq, Repr

/-- A directory entry (spec 13 R270), with the requests that wait for it and the transaction in progress. -/
structure Dir where
  st      : DirState := .i
  sharers : BitVec 128 := 0
  owner   : Nat := 0
  tag     : BitVec 4 := 15
  host    : Bool := false
  pending : Bool := false
  waits   : List (Nat × DirReq) := []
  grant   : Option (Nat × DirReq) := none      -- requester of the transaction in progress
  acks    : BitVec 128 := 0                    -- cores that have not yet acknowledged
  invs    : BitVec 128 := 0                    -- cores the invalidation has not yet reached
  answers : List (Nat × BitVec 2048 × BitVec 256) := []  -- partials answered to a merge request
deriving DecidableEq, Repr

/-- A line in the L2 (spec 09 R182, R187). -/
structure L2Line where
  hint  : Nat := 1                             -- 0 evict-first, 1 normal, 2 evict-last
  valid : BitVec 4 := 0
  dirty : BitVec 4 := 0
  used  : Nat := 0
deriving DecidableEq, Repr

/-- A condition monitor (spec 11 R235, R236). -/
structure Monitor where
  team : Nat := 0
  scr  : Option Nat := none                            -- scratchpad of a team, or none for a physical address
  addr : Nat := 0
  size : Nat := 0
  cond : BitVec 3 := 0
  val  : DWord := 0
deriving DecidableEq, Repr

/-! ## Crossbar and fabric (spec 13) -/

/-- What a crossbar message carries: requests and write-backs to a home, data, acknowledgements and invalidations to a core. -/
inductive MsgKind where
  | read
  | own
  | bunting
  | back
  | done
  | data
  | ack
  | inval
deriving DecidableEq, Repr
/-- A message waiting for a crossbar channel: the station that sends it, a core and a line (spec 13 R279). On a home channel
the core is numbered within the cluster. -/
structure Msg where
  station : Nat := 0
  core : Nat := 0
  line : Nat := 0
  kind : MsgKind := .read
deriving DecidableEq, Repr

/-- A crossbar channel (spec 13 R279): keys 0 to 63 are home channels, 64 to 79 return channels. -/
structure Chan where
  station : Nat := 0
  msgs : List Msg := []
  rr   : Tab Nat := []
  sent : List Msg := []                        -- messages of the last hold
deriving DecidableEq, Repr

/-- A packet kept until its acknowledgement (spec 13 R283). -/
structure Outst where
  pkt   : Packet
  sent  : Nat := 0
  tries : Nat := 0
  thread : Option Nat := none
  first : Nat := 0                             -- device time of its first sending
  late  : Bool := false                        -- an acquire came after it was sent (spec 13 R285)
  copy   : Option Nat := none                  -- copy that wrote it (spec 10 R206)
  grid   : Option Nat := none                  -- grid and spawn group that wait for it (spec 10 R209)
  group  : Option Nat := none
deriving DecidableEq, Repr

/-- A flow this module sends on (spec 13 R283). -/
structure Flow where
  dest  : Nat := 0
  ordered : Bool := false
  secure : Bool := false
  port  : Nat := 0
  seq   : Word := 0
  outst : List Outst := []
deriving DecidableEq, Repr

/-- What the destination keeps of a flow (spec 13 R284). -/
structure InFlow where
  ordered : Bool := false
  any   : Bool := false                        -- some packet has been delivered
  high  : Word := 0
  applied : List Word := []                    -- SEQs applied within the window
  results : List (Word × DWord) := []
  next  : Word := 0
  held  : List Packet := []
deriving DecidableEq, Repr

/-- What a link has received while the module was frozen (spec 22 R426). -/
inductive Inbound where
  | packet (p : Packet)
  | ack (flow : Nat) (seq : Word)
  | flit (f : Flit)
  | hostRead (pa size : Nat)
  | hostWrite (pa size : Nat) (data : BitVec 512)
  | birsp (line : Nat) (data : Option (BitVec 2048))
  | snoop (line : Nat) (invalidate : Bool)
deriving DecidableEq, Repr

/-- A fabric port: interface version, link state and replay buffer (spec 13 R283, 23 R434). -/
structure Port where
  loc    : Byte := 2
  peer   : Byte := 0
  agreed : Byte := 0
  st     : BitVec 4 := 0
  feats  : Word := 0
  peerMod : Byte := 0
  replay : List Flit := []                     -- flits kept for a replay, oldest first
  tx     : List Flit := []                     -- flits on the link, oldest first
  fails  : Nat := 0                            -- failed replays of the oldest flit
  dropped : Nat := 0
  rate   : BitVec 64 := 0                      -- bit per channel that a RETRAIN dropped
deriving DecidableEq, Repr

/-- A leased line of this module (spec 13 R285). -/
structure Lease where
  ctx    : Nat := 0
  expiry : Nat := 0
  version : Word := 0
  expired : Bool := false
  asked  : Option Nat := none                  -- device time of the renewal in progress
  late   : Bool := false                       -- an acquire came after the renewal was sent
  bytes  : BitVec 2048 := 0
deriving DecidableEq, Repr

/-- The version state of a page this module is home of (spec 13 R285). -/
structure PageVer where
  version : Word := 0
  granted : Bool := false
  embargo : Option Nat := none
deriving DecidableEq, Repr

/-! ## Rings of the photonic die, power, boot, safety (spec 22, 23) -/

/-- A ring bank (spec 23 R437 to R441). -/
structure PhBank where
  drift  : Tab Int := []                       -- by ring: twice its offset, in heater codes, from its designed place (inputs)
  htr    : Tab (BitVec 10) := []
  map    : Vector Word 3 := #v[0x0A418820, 0x16A4A0E6, 0x01F7B9AC]
  staged : Vector Word 3 := #v[0x0A418820, 0x16A4A0E6, 0x01F7B9AC]
  busy   : Option Nat := none                  -- device time at which the hold began
  moved  : List Nat := []                      -- rings whose channels are held
  mapErr : Bool := false
deriving DecidableEq, Repr

/-- The power governor (spec 23 R444). -/
structure Power where
  cap   : Nat := 2200
  fclk  : Nat := 2900
  pwr   : Nat := 0
  fabFirst : Bool := false
  mig   : Byte := 95
  inj   : Nat := 8                             -- fabric injection rate in eighths
  under : Nat := 0                             -- ticks below CAP - 40 W
  steps : List Bool := []                      -- steps taken, latest first; true an injection step
deriving DecidableEq, Repr

/-- The Guidon (spec 22 R424 to R429). -/
structure Guidon where
  frozen : Bool := false
  safe   : Bool := true
  quiet  : Bool := false
  rdn    : Bool := true
  hbctx  : BitVec 6 := 0
  src    : Byte := 0
  cause  : Byte := 0
  level  : List Byte := []                     -- level causes still standing
  event  : List Byte := []                     -- event causes not yet acknowledged
  own    : List (Byte × Nat) := []             -- its own record of reports, with device time
  hb     : Word := 0
  hbwin  : Word := 0
  hbFrom : Nat := 0
  hbOut  : Bool := false
deriving DecidableEq, Repr

/-- Bring-up (spec 23 R430 to R433, 19 R382). -/
structure Boot where
  step  : BitVec 4 := 1
  fail  : Byte := 0
  unit  : Byte := 0
  mins  : Tab Word := []
  measMgmt : BitVec 256 := 0
  measHalyard : BitVec 256 := 0
  measGuidon : BitVec 256 := 0
  measConfig : BitVec 256 := 0
  setup : Option ConfigRecord := none
  rom   : BitVec 256 := 0                      -- digest of the root key in the boot ROMs' mask ROM, which no reset changes
deriving DecidableEq, Repr

/-- A management mailbox (spec 23 R445). -/
structure Mailbox where
  cmd  : Word := 0
  stat : Word := 0
  args : Vector DWord 3 := Vector.replicate 3 0
deriving DecidableEq, Repr

/-- A device-log entry (spec 23 R445). -/
structure LogEntry where
  cause : Byte := 0
  ctx   : Byte := 0
  unit  : BitVec 16 := 0
  time  : Nat := 0
  addr  : DWord := 0
  info  : DWord := 0
deriving DecidableEq, Repr

/-- What a step executes on: a wave, or the program of an engine (model's own mark). -/
inductive Cur where
  | none
  | wave (w : Nat)
  | engine (core : Nat) (e : Engine)
deriving DecidableEq, Repr

/-- Worlds of the blocks outside the cores (spec 19 R375). -/
structure Worlds where
  ways     : Tab Nat := []                     -- secure ways of a slice
  granules : List Nat := []                    -- secure granules, rising
  ports    : List Nat := []                    -- secure ports
  fns      : List Nat := []                    -- secure host functions
deriving DecidableEq, Repr

/-- The home slices and what they keep (spec 11, 13). -/
structure Home where
  dir      : Tab Dir := []                     -- by line address
  predict  : Tab Nat := []                     -- key 4096 slice + index
  monitors : Tab Monitor := []
  nextMon  : Nat := 0
  farAge   : Nat := 0                          -- serial of far reservations
  bias     : List Nat := []                    -- pages in host bias, rising
  poison   : Tab (BitVec 256) := []            -- by poisoned line: bytes not overwritten since (spec 21 R412)
  flips    : Tab Bool := []                    -- lines of pages leaving host bias: answered, and with data (spec 13 R289)
  l2       : Tab L2Line := []                  -- lines that the slices cache, by line address
  l2Wait   : List (Nat × BitVec 2) := []       -- lines that wait for a way of their set, with their hint, oldest first
  hostReqs : List Nat := []                    -- lines asked of the host under CXL.cache (spec 13 R288)
  farHeld  : List FarOp := []                  -- far operations that wait for a back-invalidate snoop (spec 13 R272)
  binv     : List Nat := []                    -- lines with a back-invalidate snoop outstanding
  hostHeld : List (Nat × Nat × BitVec 2048) := []  -- device writes waiting for a BIRsp: address, bytes, data
deriving DecidableEq, Repr

/-- The fabric and the crossbar (spec 13). -/
structure Fabric where
  chans   : Tab Chan := []
  flows   : Tab Flow := []
  inFlows : Tab InFlow := []                   -- key 256 source module + flow
  ports   : Tab Port := []
  hostIfv : Port := { loc := 2 }
  chanIfv : Tab Port := []
  leases  : Tab Lease := []                    -- by line address
  pageVer : Tab PageVer := []
  leaseNs : Nat := 1000000
  module_ : Byte := 0
  members : List Nat := [0]
  deliver : List Flit := []                    -- flits delivered to this module
  replies : List Packet := []                  -- replies this module has sent
  inbox   : List Packet := []                  -- arrivals that replay holds back (spec 20 R394)
  rx      : List Inbound := []                 -- what the links received while frozen (spec 22 R426)
deriving DecidableEq, Repr

/-- The threads and their work. -/
structure Work where
  threads : Tab Thread := []
  waves   : Tab Wave := []
  teams   : Tab Team := []
  grids   : Tab Grid := []
  tasks   : Tab Task := []
  groups  : Tab SpawnGroup := []
  lineages : Tab Lineage := []                 -- by lineage id
  nextThread : Nat := 0
  nextWave : Nat := 0
  nextTeam : Nat := 0
  nextGrid : Nat := 0
  nextTask : Nat := 0
  nextGroup : Nat := 0
  nextLineage : Nat := 1
  nextCopy : Nat := 0
deriving DecidableEq, Repr

/-- The machine. -/
structure State where
  mem     : Mem
  work    : Work
  cores   : Tab Core
  clusters : Tab Cluster
  pairs   : Tab Pair
  ctxs    : Tab Ctx
  queues  : Tab Queue
  seqs    : Tab Seq
  walks   : List Walk
  home    : Home
  worlds  : Worlds
  fabric  : Fabric
  banks   : Tab PhBank
  power   : Power
  guidon  : Guidon
  boot    : Boot
  boxes   : Tab Mailbox
  log     : List LogEntry
  logged  : Nat
  clock   : Nat
  dtime   : Nat
  tickRem : Nat
  cur     : Cur
  agenda  : List Instr
  free    : Nat
  bus     : BitVec 512
deriving DecidableEq, Repr

/-- Why the machine stops with a fault. -/
inductive Fault where
  /-- Raised by a host access to an address that no region of spec 09 R169 populates; safe. -/
  | noSuchAddress
deriving DecidableEq, Repr

/-- Why a step is refused. -/
inductive Refusal where
  /-- Raised by the arms of Dispatch.lean that have no meaning yet; safe. -/
  | notModelled (mnemonic : String)
deriving DecidableEq, Repr

/-- The machine right after reset: every field at its reset value (INVENTORY.md, section State). -/
def State.reset : State where
  mem := []
  work := {}
  cores := []
  clusters := []
  pairs := []
  ctxs := []
  queues := []
  seqs := []
  walks := []
  home := {}
  worlds := {}
  fabric := {}
  banks := []
  power := {}
  guidon := {}
  boot := {}
  boxes := []
  log := []
  logged := 0
  clock := 0
  dtime := 0
  tickRem := 0
  cur := .none
  agenda := []
  free := 0
  bus := 0

end Sys2Proof.Machine
end

