-- ==== Sys2Proof/Machine/Table.lean ====
section
/-!
DEFINITION. Table.lean: tables in rising key order, memory in its canonical form, and the list helpers that the
meanings share.
-/
namespace Sys2Proof

/-- The entry of a key. -/
def Tab.find {α : Type} : Tab α → Nat → Option α
  | [], _ => none
  | (j, w) :: r, k => if j = k then some w else Tab.find r k
/-- The entry of a key, or the table's reset value. -/
def Tab.get {α : Type} (t : Tab α) (k : Nat) (d : α) : α := (Tab.find t k).getD d
/-- The table with the entry of a key replaced. -/
def Tab.put {α : Type} : Tab α → Nat → α → Tab α
  | [], k, v => [(k, v)]
  | (j, w) :: r, k, v => if k < j then (k, v) :: (j, w) :: r else if k = j then (k, v) :: r else (j, w) :: Tab.put r k v
/-- The table without the entry of a key. -/
def Tab.del {α : Type} (t : Tab α) (k : Nat) : Tab α := t.filter fun e => e.1 != k
/-- Whether a key is listed. -/
def Tab.has {α : Type} (t : Tab α) (k : Nat) : Bool := (Tab.find t k).isSome

/-- Insertion by a key, equal keys in list order. -/
def insertBy {α : Type} (key : α → Nat) (x : α) : List α → List α
  | [] => [x]
  | y :: r => if key x < key y then x :: y :: r else y :: insertBy key x r
/-- A list in rising key order, equal keys in list order. -/
def sortBy {α : Type} (key : α → Nat) (l : List α) : List α := l.foldl (fun acc x => insertBy key x acc) []
/-- The element of least key, the first of several. -/
def leastBy {α : Type} (key : α → Nat) : List α → Option α
  | [] => none
  | x :: r =>
    match leastBy key r with
    | none => some x
    | some y => if key y < key x then some y else some x
/-- The list without later repeats. -/
def dedup {α : Type} [DecidableEq α] : List α → List α
  | [] => []
  | x :: r => x :: (dedup r).filter fun y => y != x
/-- The first index at which a test holds. -/
def indexWhere {α : Type} (p : α → Bool) (l : List α) : Option Nat :=
  match l.zipIdx.find? (fun e => p e.1) with
  | some e => some e.2
  | none => none
/-- Division that rounds up; 0 for a divisor 0. -/
def ceilDiv (a b : Nat) : Nat := if b = 0 then 0 else (a + b - 1) / b

namespace Machine

/-- A byte of a memory whose unlisted bytes read as d. -/
def Mem.get (d : Byte) : Mem → Nat → Byte
  | [], _ => d
  | (j, b) :: r, a => if j = a then b else Mem.get d r a
/-- The memory with one byte written, in canonical form. -/
def Mem.set (d : Byte) : Mem → Nat → Byte → Mem
  | [], a, v => if v = d then [] else [(a, v)]
  | (j, b) :: r, a, v =>
    if a < j then (if v = d then (j, b) :: r else (a, v) :: (j, b) :: r)
    else if a = j then (if v = d then r else (a, v) :: r)
    else (j, b) :: Mem.set d r a v
/-- Canonical form: addresses above n strictly rising, no byte equal to d. -/
def Mem.wfFrom (d : Byte) : Option Nat → Mem → Bool
  | _, [] => true
  | lo, (j, b) :: r => (match lo with | none => true | some n => decide (n < j)) && b != d && Mem.wfFrom d (some j) r
/-- The memory is in canonical form. -/
def Mem.wf (d : Byte) (m : Mem) : Bool := Mem.wfFrom d none m

/-- n bytes from an address, lowest address first. -/
def Mem.bytes (d : Byte) (m : Mem) (a : Nat) : Nat → List Byte
  | 0 => []
  | n + 1 => Mem.get d m a :: Mem.bytes d m (a + 1) n
/-- The memory with a list of bytes written from an address. -/
def Mem.put (d : Byte) (m : Mem) (a : Nat) : List Byte → Mem
  | [] => m
  | b :: r => Mem.put d (Mem.set d m a b) (a + 1) r

/-- The number that bytes hold, little-endian (spec 00 R1). -/
def leNat : List Byte → Nat
  | [] => 0
  | b :: r => b.toNat + 256 * leNat r
/-- The n low bytes of a number, little-endian. -/
def natLe : Nat → Nat → List Byte
  | 0, _ => []
  | n + 1, x => BitVec.ofNat 8 x :: natLe n (x / 256)

end Machine
end Sys2Proof
end

