-- ==== Sys2Proof/Machine/Access.lean ====
section
/-!
DEFINITION. Access.lean: reading and replacing the parts of the state, the lanes of the issuing wave, and the device
log. Every meaning reaches the state through these.
-/
namespace Sys2Proof.Machine

/-! ## Parts of the state -/

def State.core (s : State) (c : Nat) : Core := Tab.get s.cores c {}
def State.setCore (s : State) (c : Nat) (x : Core) : State := { s with cores := Tab.put s.cores c x }
def State.modCore (s : State) (c : Nat) (g : Core → Core) : State := s.setCore c (g (s.core c))
def State.cluster (s : State) (c : Nat) : Cluster := Tab.get s.clusters c {}
def State.modCluster (s : State) (c : Nat) (g : Cluster → Cluster) : State :=
  { s with clusters := Tab.put s.clusters c (g (s.cluster c)) }
def State.pair (s : State) (p : Nat) : Pair := Tab.get s.pairs p {}
def State.setPair (s : State) (p : Nat) (x : Pair) : State := { s with pairs := Tab.put s.pairs p x }
def State.thread? (s : State) (t : Nat) : Option Thread := Tab.find s.work.threads t
def State.thread (s : State) (t : Nat) : Thread := Tab.get s.work.threads t {}
def State.setThread (s : State) (t : Nat) (x : Thread) : State :=
  { s with work := { s.work with threads := Tab.put s.work.threads t x } }
/-- A live thread changed; nothing for one that does not exist. -/
def State.modThread (s : State) (t : Nat) (g : Thread → Thread) : State :=
  match s.thread? t with
  | some x => s.setThread t (g x)
  | none => s
def State.modThreads (s : State) (ts : List Nat) (g : Thread → Thread) : State := ts.foldl (fun s t => s.modThread t g) s
def State.wave? (s : State) (w : Nat) : Option Wave := Tab.find s.work.waves w
def State.wave (s : State) (w : Nat) : Wave := Tab.get s.work.waves w {}
def State.setWave (s : State) (w : Nat) (x : Wave) : State := { s with work := { s.work with waves := Tab.put s.work.waves w x } }
def State.modWave (s : State) (w : Nat) (g : Wave → Wave) : State :=
  match s.wave? w with
  | some x => s.setWave w (g x)
  | none => s
def State.delWave (s : State) (w : Nat) : State := { s with work := { s.work with waves := Tab.del s.work.waves w } }
def State.team? (s : State) (t : Nat) : Option Team := Tab.find s.work.teams t
def State.team (s : State) (t : Nat) : Team := Tab.get s.work.teams t {}
def State.setTeam (s : State) (t : Nat) (x : Team) : State := { s with work := { s.work with teams := Tab.put s.work.teams t x } }
def State.modTeam (s : State) (t : Nat) (g : Team → Team) : State :=
  match s.team? t with
  | some x => s.setTeam t (g x)
  | none => s
def State.grid? (s : State) (g : Nat) : Option Grid := Tab.find s.work.grids g
def State.grid (s : State) (g : Nat) : Grid := Tab.get s.work.grids g {}
def State.setGrid (s : State) (g : Nat) (x : Grid) : State := { s with work := { s.work with grids := Tab.put s.work.grids g x } }
def State.modGrid (s : State) (k : Nat) (g : Grid → Grid) : State :=
  match s.grid? k with
  | some x => s.setGrid k (g x)
  | none => s
def State.ctx (s : State) (x : Nat) : Ctx := Tab.get s.ctxs x {}
def State.setCtx (s : State) (x : Nat) (c : Ctx) : State := { s with ctxs := Tab.put s.ctxs x c }
def State.modCtx (s : State) (x : Nat) (g : Ctx → Ctx) : State := s.setCtx x (g (s.ctx x))
def State.queue (s : State) (q : Nat) : Queue := Tab.get s.queues q {}
def State.modQueue (s : State) (q : Nat) (g : Queue → Queue) : State :=
  { s with queues := Tab.put s.queues q (g (s.queue q)) }
def State.modWork (s : State) (g : Work → Work) : State := { s with work := g s.work }
def State.modHome (s : State) (g : Home → Home) : State := { s with home := g s.home }
def State.modFabric (s : State) (g : Fabric → Fabric) : State := { s with fabric := g s.fabric }

/-- The next free value (log entry 8). -/
def State.fresh (s : State) : BitVec 64 × State := (Config.freeValue s.free, { s with free := s.free + 1 })

/-! ## Where a thread stands -/

/-- Home wave and home lane (spec 00 R3). -/
def Thread.hwave (t : Thread) : Nat := t.hidx / 32
def Thread.hlane (t : Thread) : Nat := t.hidx % 32
def State.gridOf (s : State) (t : Thread) : Grid := s.grid (s.team t.team).grid
def State.coreOf (s : State) (t : Thread) : Nat := t.handlerOf.getD ((s.team t.team).core.getD 0)
def State.ctxOf (s : State) (t : Thread) : Nat := (s.gridOf t).ctx
/-- The quadrant that the handler of a trap runs on: quadrant 0 for engine sources (spec 21 R403). -/
def Trap.runQuad (p : Trap) : Nat := if p.source = 0 then p.quad else 0
/-- The quadrant of a thread: of its hoist, or of the trap its handler wave serves (spec 21 R403). -/
def State.quadOf (s : State) (t : Thread) : Nat :=
  match t.handlerOf with
  | some c => (match (s.core c).serving with | some p => p.runQuad | none => 0)
  | none => (match (s.team t.team).hoists.find? fun h => h.index == t.hoist with | some h => h.quad | none => 0)
/-- Declared registers of a thread: 64 in the handler wave (spec 21 R403). -/
def State.regsOf (s : State) (t : Thread) : Nat := if t.handlerOf.isSome then 64 else (s.gridOf t).regs
/-- Privileged mode: the handler wave, and the teams of a service context (spec 19 R368). -/
def State.privOf (s : State) (t : Thread) : Bool := t.handlerOf.isSome || (s.ctx (s.ctxOf t)).svc

/-! ## Lanes of the issuing wave -/

/-- A thread in its physical lane. -/
structure Lane where
  lane : Nat
  id   : Nat
  th   : Thread
deriving DecidableEq, Repr

/-- The issuing wave. -/
def State.curWave (s : State) : Nat := match s.cur with | .wave w => w | _ => 0
/-- Threads present in a wave, in ascending lane. -/
def State.present (s : State) (w : Wave) : List Lane :=
  w.lanes.toList.zipIdx.filterMap fun e => e.1.map fun t => ⟨e.2, t, s.thread t⟩
/-- Active threads: those whose exm bit is set (spec 02 R29). -/
def State.active (s : State) (w : Wave) : List Lane := (s.present w).filter fun l => w.exm.getLsbD l.lane
/-- A predicate of a thread; p7 reads true (spec 02 R31). -/
def Thread.pred (t : Thread) (n : Nat) : Bool := if n < 7 then t.p.getLsbD n else true
/-- The guard holds (spec 03 R48). -/
def guardOk (f : Fields) (t : Thread) : Bool := t.pred (f.pg.extractLsb' 0 3).toNat != f.pg.getLsbD 3
/-- Threads that execute the instruction, in ascending lane. -/
def State.execLanes (s : State) (f : Fields) : List Lane := (s.active (s.wave s.curWave)).filter fun l => guardOk f l.th
/-- The same threads in ascending t.hidx. -/
def byHidx (ls : List Lane) : List Lane := sortBy (fun l => l.th.hidx) ls
/-- The instruction word at an address of the line a wave issues from. -/
def Wave.wordAt (w : Wave) (pc : DWord) : IWord :=
  match w.line, slotOf pc with
  | some l, some k => lineSlot l.2 k
  | _, _ => 0
/-- The slot of an instruction address is a member of a pair of its line. -/
def Wave.pairAt (w : Wave) (pc : DWord) : Bool :=
  match w.line, slotOf pc with
  | some l, some k => (tplPairs (lineTpl l.2)).any fun p => p == k || p + 1 == k
  | _, _ => false

/-- Every active thread of the issuing wave moves to the sequential successor (spec 03 R48, 06 R116). -/
def advance (s : State) : State :=
  let w := s.wave s.curWave
  s.modThreads ((s.active w).map Lane.id) fun t => { t with pc := succPc w.pc }

/-! ## Registers and predicates -/

def Thread.reg (t : Thread) (n : Nat) : Word := t.v.getD n 0
def Thread.setReg (t : Thread) (n : Nat) (x : Word) : Thread := { t with v := t.v.setIfInBounds n x }
/-- n registers in turn, and a 64-bit pair (spec 02 R31). -/
def Thread.regs (t : Thread) (n : Nat) : Nat → List Word
  | 0 => []
  | k + 1 => t.reg n :: t.regs (n + 1) k
def Thread.pair (t : Thread) (n : Nat) : DWord := pairOf (t.reg n) (t.reg (n + 1))
def Thread.setPair (t : Thread) (n : Nat) (x : DWord) : Thread := (t.setReg n (loW x)).setReg (n + 1) (hiW x)
/-- A write to p7 is ignored (spec 02 R31). -/
def Thread.setPred (t : Thread) (n : Nat) (b : Bool) : Thread :=
  if n < 7 then { t with p := if b then t.p ||| (1#7 <<< n) else t.p &&& ~~~(1#7 <<< n) } else t
def Thread.setRegs (t : Thread) (n : Nat) : List Word → Thread
  | [] => t
  | x :: r => (t.setReg n x).setRegs (n + 1) r

/-! ## Device log (spec 23 R445) -/

/-- Units named by a log entry: kind and number. -/
def unitOf (kind n : Nat) : BitVec 16 := BitVec.ofNat 16 (kind % 16 * 4096 + n % 4096)
/-- One more entry; the oldest of 65,536 is overwritten. -/
def State.logDev (s : State) (cause ctx : Byte) (unit : BitVec 16) (addr info : DWord) : State :=
  { s with log := (⟨cause, ctx, unit, s.dtime, addr, info⟩ :: s.log).take 65536, logged := s.logged + 1 }

end Sys2Proof.Machine
end

