-- ==== Sys2Proof/Machine/Operands.lean ====
section
/-!
DEFINITION. Operands.lean: every operand form of spec 03 R44 and R45, and the widths of spec 03 R46 and 06 R98.
-/
namespace Sys2Proof.Machine

/-- Width in bits of a WID code (spec 03 R54). -/
def widBits (wid : BitVec 2) : Nat := 8 * 2 ^ wid.toNat

/-- The low bits of a source read as a number of the type (spec 06 R98). -/
def typed (w : Nat) (uns : Bool) (x : DWord) : Int :=
  let n := x.toNat % 2 ^ w
  if uns || n < 2 ^ (w - 1) then (n : Int) else (n : Int) - (2 ^ w : Nat)
/-- The low bits of a source as an unsigned pattern. -/
def pattern (w : Nat) (x : DWord) : Nat := x.toNat % 2 ^ w
/-- The low n bits of an integer. -/
def wrapBits (n : Nat) (x : Int) : Nat := (x % ((2 ^ n : Nat) : Int)).toNat
/-- A w-bit pattern as the register or pair holds it: extended by its type below 32 bits (spec 05 R73). -/
def extendTo (w : Nat) (uns : Bool) (n : Nat) : DWord :=
  if w ≥ 64 then BitVec.ofNat 64 n
  else if w = 32 then (BitVec.ofNat 32 n).setWidth 64
  else (BitVec.ofInt 32 (typed w uns (BitVec.ofNat 64 n))).setWidth 64

/-- The special sources (spec 03 R45). -/
def specialSrc (s : State) (l : Lane) (k : Fin 10) : Word :=
  match k with
  | 0 => BitVec.ofNat 32 l.lane
  | 1 => BitVec.ofNat 32 l.th.hlane
  | 2 => BitVec.ofNat 32 l.th.hwave
  | 3 => BitVec.ofNat 32 l.th.hidx
  | 4 => (s.wave s.curWave).exm
  | 5 => 0xFFFFFFFF
  | 6 => BitVec.ofNat 32 s.clock
  | 7 => BitVec.ofNat 32 s.dtime
  | 8 => BitVec.ofNat 32 (s.coreOf l.th)
  | _ => BitVec.ofNat 32 (s.team l.th.team).index

/-- An immediate or constant word as an operand: a 64-bit operand takes it extended by its type (spec 03 R46, 06 R98). -/
def immExt (wide signed : Bool) (x : Word) : DWord := if wide && signed then x.signExtend 64 else x.setWidth 64

/-- The value that an operand code supplies (spec 03 R44). -/
def srcVal (s : State) (f : Fields) (wide signed : Bool) (l : Lane) : Opnd → DWord
  | .reg n => if wide then l.th.pair n.toNat else (l.th.reg n.toNat).setWidth 64
  | .latch n => if wide then l.th.q.getD n.toNat 0 else (loW (l.th.q.getD n.toNat 0)).setWidth 64
  | .pred n => (BitVec.ofBool (l.th.pred n.toNat)).setWidth 64
  | .imm => immExt wide signed f.imm
  | .const => immExt wide signed ((s.gridOf l.th).consts.getD (f.imm.extractLsb' 0 6).toNat 0)
  | .zero => 0
  | .special k => (specialSrc s l k).setWidth 64
  | .resv _ => 0

/-- A 32-bit operand. -/
def src32 (s : State) (f : Fields) (l : Lane) (o : Opnd) : Word := loW (srcVal s f false false l o)
/-- A predicate operand; 0x51 reads false (spec 06 R105). -/
def srcPred (l : Lane) : Opnd → Bool
  | .pred n => l.th.pred n.toNat
  | _ => false
/-- A register or pair of an instruction whose operands are registers only; 0x51 reads 0. -/
def reg32 (t : Thread) : Opnd → Word
  | .reg n => t.reg n.toNat
  | _ => 0
def reg64 (t : Thread) : Opnd → DWord
  | .reg n => t.pair n.toNat
  | _ => 0
/-- The register number of an operand, when it is a register. -/
def regNum? : Opnd → Option Nat
  | .reg n => some n.toNat
  | _ => none
/-- Writes of a destination field: a register, a pair, or registers in turn; 0x51 discards (spec 03 R44). -/
def putD32 (o : Opnd) (x : Word) (t : Thread) : Thread := match o with | .reg n => t.setReg n.toNat x | _ => t
def putD64 (o : Opnd) (x : DWord) (t : Thread) : Thread := match o with | .reg n => t.setPair n.toNat x | _ => t
def putDs (o : Opnd) (xs : List Word) (t : Thread) : Thread := match o with | .reg n => t.setRegs n.toNat xs | _ => t
def putPred (o : Opnd) (b : Bool) (t : Thread) : Thread := match o with | .pred n => t.setPred n.toNat b | _ => t

end Sys2Proof.Machine
end

