-- ==== Sys2Proof/Machine/Ops.lean ====
section
/-!
DEFINITION. Ops.lean: taking a privileged or a user-level trap, the shared form of an instruction that computes in
each lane, and parking (spec 02 R24, 21 R398 to R408, 03 R49, 06 R97).
-/
namespace Sys2Proof.Machine

/-! ## Taking a trap -/

/-- What a trap reports (spec 21 R400, 03 R59). -/
structure TrapVal where
  cause : Byte
  eaddr : DWord := 0
  einfo : DWord := 0
  field : Nat := 0                             -- first offending field of a decode cause
deriving DecidableEq, Repr

/-- The instruction that a trap stands at. -/
structure TrapAt where
  word   : IWord
  pc     : DWord
  pair   : Bool := false
  after  : Bool := false
  nested : Bool := false
deriving DecidableEq, Repr

/-- Where the issuing wave's instruction stands. -/
def State.here (s : State) : TrapAt :=
  let w := s.wave s.curWave
  ⟨w.wordAt w.pc, w.pc, w.pairAt w.pc, false, false⟩
/-- Where a parked thread stands. -/
def Thread.parkedAt (t : Thread) : TrapAt := ⟨t.word, t.pc, false, false, false⟩

/-- The resuming PC of a trap: the instruction, or its successor (spec 21 R398). -/
def TrapAt.epc (a : TrapAt) : DWord := if a.after then succPc a.pc else a.pc

/-- The next ordinal at a PC: the first safe-point entry at or after it (spec 20 R391). -/
def Grid.ordinal (g : Grid) (pc : DWord) : Word :=
  match indexWhere (fun e => decide ((pc - g.textBase).toNat ≤ e.off)) g.safePts with
  | some k => BitVec.ofNat 32 k
  | none => 0xFFFFFFFE

/-- One more trap in the saturating trap counter of a core (spec 21 R402). -/
def satInc (x : Word) (n : Nat) : Word := if x.toNat + n < 2 ^ 32 then x + BitVec.ofNat 32 n else 0xFFFFFFFF
def State.countTraps (s : State) (c n : Nat) : State := s.modCore c fun x => { x with trpCnt := satInc x.trpCnt n }

/-- The open breakdown of a sampled instruction that traps (spec 20 R392). -/
def trappedBreak (g : Grid) (t : Thread) (a : TrapAt) (x : Core) : Core :=
  match x.brk with
  | some (ord, ctx, quad, slot, _) => if ctx == g.ctx && slot == t.slot && ord == g.ordinal a.pc then { x with brk := some (ord, ctx, quad, slot, true) } else x
  | none => x
/-- efld_d of spec 03 R59. -/
def efldD (a : TrapAt) (v : TrapVal) : Word :=
  BitVec.ofNat 32 (v.field * 32 + a.pair.toNat * 16 + (slotOf a.pc).getD 0)

/-- The trap registers that a privileged handler sees: cause, address and information (spec 21 R403), and for a decode
cause the word and its fields (spec 03 R59; log entry 12). -/
def privRegs (a : TrapAt) (v : TrapVal) : TrapRegs :=
  let r : TrapRegs := { cause := v.cause, epc := a.epc, eaddr := v.eaddr, einfo := v.einfo }
  if (v.cause = 0x01 || v.cause = 0x02) && !a.after then
    { r with efldA := a.word.extractLsb' 64 32, efldB := a.word.extractLsb' 32 32, efldC := a.word.extractLsb' 0 32, efldD := efldD a v }
  else r
/-- One privileged trap of several threads at one place (spec 21 R398 to R400, R404, R405): the threads stop at s.epc
and the trap enters the core's queue; one raised by the handler wave marks its core for spec 21 R404. -/
def takePriv (s : State) (ids : List Nat) (a : TrapAt) (v : TrapVal) : State :=
  match leastBy (fun t => (s.thread t).hidx) ids with
  | none => s
  | some lead =>
    let th := s.thread lead
    let c := s.coreOf th
    let s1 := ((s.countTraps c 1).modCore c (trappedBreak (s.gridOf th) th a)).modThreads ids fun t =>
      { t with
        stopped := true, pc := a.epc, park := none, resv := none, awaits := none, reply := none, batch := none, pages := []
        resume := if v.cause = 0x10 || v.cause = 0x11 then some a.epc else t.resume }
    if th.handlerOf.isSome then s1.modCore c fun x => { x with handlerFault := some (x.handlerFault.getD v.cause) }
    else
      let g := s.gridOf th
      let tr : Trap :=
        { regs := privRegs a v, source := 0, team := th.team
          threads := ids, quad := s.quadOf th, slot := th.slot
          lanes := ids.foldl (fun m t => m ||| (1#32 <<< (s.thread t).lane)) 0
          hidx := th.hidx, hoist := th.hoist, atSp := a.word.getLsbD 79, pair := a.pair
          lineSlot := (slotOf a.pc).getD 0, nested := a.nested, after := a.after
          ordinal := g.ordinal a.pc, lineage := th.lineage, time := s.dtime }
      s1.modCore c fun x => { x with traps := x.traps ++ [tr] }

/-- The address of a handler's first instruction, from bits [56:0] of a vector register (spec 21 R401). -/
def vecEntry (v : DWord) : DWord := (v.extractLsb' 0 57).signExtend 64
/-- A user-level trap of one thread (spec 21 R407; log entry 12): trap registers, operand values, saved latches,
handler state and the vector. -/
def enterUser (s : State) (f : Fields) (l : Lane) (a : TrapAt) (v : TrapVal) : State :=
  let vec := (s.ctx (s.ctxOf l.th)).uvec
  s.modThread l.id fun t =>
    { t with
      trap := { cause := v.cause, epc := a.epc, eaddr := v.eaddr, einfo := v.einfo
                efldA := a.word.extractLsb' 64 32, efldB := a.word.extractLsb' 32 32, efldC := a.word.extractLsb' 0 32
                efldD := efldD a v
                next := succPc a.pc, evalA := src32 s f l f.a, evalB := src32 s f l f.b, evalC := src32 s f l f.c }
      resv := none, savedQ := t.q, q := Vector.replicate 8 0, handler := true, pc := vecEntry vec, park := none, pages := [] }

/-- Whether a user-level trap of a thread escalates (spec 21 R408). -/
def escalates (s : State) (t : Thread) : Bool := t.handler || t.handlerOf.isSome || !(s.ctx (s.ctxOf t)).uvec.getLsbD 63

/-- The values of a list of traps, each once, in list order. -/
def trapValues (ts : List (Lane × TrapVal)) : List TrapVal := dedup (ts.map (·.2))

/-- Privileged traps of several threads: one trap for each cause and value met, in ascending t.hidx. -/
def takePrivs (s : State) (a : TrapAt) (ts : List (Lane × TrapVal)) : State :=
  let ts := sortBy (fun e => e.1.th.hidx) ts
  (dedup (ts.map fun e => e.2.cause)).foldl (fun s c =>
    let here := ts.filter fun e => e.2.cause == c
    match here with
    | [] => s
    | e :: _ => takePriv s (here.map fun x => x.1.id) a e.2) s

/-- User-level traps of several threads, escalated where spec 21 R408 says. -/
def takeUsers (s : State) (f : Fields) (a : TrapAt) (ts : List (Lane × TrapVal)) : State :=
  let up := ts.filter fun e => escalates s e.1.th
  let here := ts.filter fun e => !escalates s e.1.th
  let s1 := here.foldl (fun s' e => enterUser s' f e.1 a e.2) s
  let s2 := match here with
    | [] => s1
    | e :: _ => s1.countTraps (s.coreOf e.1.th) here.length
  let s3 := takePrivs s2 { a with nested := false } (up.filter fun e => !e.1.th.handler)
  takePrivs s3 { a with nested := true } (up.filter fun e => e.1.th.handler)

/-! ## Instructions that compute in each lane -/

/-- What an instruction gives one executing thread. -/
inductive LaneOut where
  | none                                       -- no destination is written
  | value (wide : Bool) (x : DWord)            -- one value, to D and to the latch (spec 03 R49)
  | many (xs : List Word)                      -- registers in turn from D
  | pred (b : Bool)                            -- a predicate in D
  | trap (v : TrapVal)                         -- a user-level trap; nothing is written (spec 06 R98)
deriving DecidableEq, Repr

/-- A value written to the destination and the latch that the word names (spec 03 R49, R50). -/
def writeValue (f : Fields) (wide : Bool) (x : DWord) (t : Thread) : Thread :=
  let t1 := if f.nw then t else if wide then putD64 f.d x t else putD32 f.d (loW x) t
  if f.latchEn then { t1 with q := t1.q.setIfInBounds f.latchIx.toNat (if wide then x else (loW x).setWidth 64) } else t1

/-- The result of one lane written. -/
def writeOut (f : Fields) (o : LaneOut) (t : Thread) : Thread :=
  match o with
  | .none => t
  | .value wide x => writeValue f wide x t
  | .many xs => putDs f.d xs t
  | .pred b => putPred f.d b t
  | .trap _ => t

/-- An instruction that computes in each executing thread from that thread's own state (spec 06 R97): `out` gives the
result, `also` a further effect on the thread, such as a carry. Every active thread advances; threads that trap
write nothing. -/
def perLane (f : Fields) (out : State → Lane → LaneOut) (also : State → Lane → Thread → Thread) (s : State) : State :=
  let ls := s.execLanes f
  let res := ls.map fun l => (l, out s l)
  let s1 := advance s
  let s2 := res.foldl (fun s' e =>
    match e.2 with
    | .trap _ => s'
    | o => s'.modThread e.1.id fun t => also s e.1 (writeOut f o t)) s1
  takeUsers s2 f s.here (res.filterMap fun e => match e.2 with | .trap v => some (e.1, v) | _ => none)

/-- The common case without a further effect. -/
def laneMap (f : Fields) (out : State → Lane → LaneOut) (s : State) : State := perLane f out (fun _ _ t => t) s

/-- A value result of a lane. -/
def val32 (x : Word) : LaneOut := .value false (x.setWidth 64)
def val64 (x : DWord) : LaneOut := .value true x

/-! ## Parking -/

/-- The executing threads park at the issuing wave's instruction (spec 02 R24); the others advance. A thread that
reissues has made its breakpoint and step checks there (spec 20 R386). -/
def parkLanes (ls : List Lane) (p : Lane → Park) (s : State) : State :=
  let w := s.wave s.curWave
  ls.foldl (fun s l => s.modThread l.id fun t => { t with pc := w.pc, park := some (p l), word := w.wordAt w.pc, resume := some w.pc }) s

/-- A parked thread goes on at the successor. -/
def Thread.unparkNext (t : Thread) : Thread := { t with park := none, pages := [], pc := succPc t.pc, resume := none }
/-- A parked thread reissues its instruction. -/
def Thread.unparkHere (t : Thread) : Thread := { t with park := none, pages := [] }

end Sys2Proof.Machine
end

