-- ==== Sys2Proof/Machine/Flags.lean ====
section
/-!
DEFINITION. Flags.lean: overflow, carry, borrow and condition codes (spec 06 R98, R100, R105, R110).
-/
namespace Sys2Proof.Machine

/-- The range of a w-bit type. -/
def typeLo (w : Nat) (uns : Bool) : Int := if uns then 0 else -((2 ^ (w - 1) : Nat) : Int)
def typeHi (w : Nat) (uns : Bool) : Int := if uns then ((2 ^ w : Nat) : Int) - 1 else ((2 ^ (w - 1) : Nat) : Int) - 1
def clampInt (x lo hi : Int) : Int := if x < lo then lo else if x > hi then hi else x

/-- Deliver of spec 06 R98: the pattern, or none for INT_OVERFLOW. -/
def deliver (x : Int) (w : Nat) (uns sat trp : Bool) : Option Nat :=
  let lo := typeLo w uns
  let hi := typeHi w uns
  if trp && (decide (x < lo) || decide (x > hi)) then none
  else if sat then some (wrapBits w (clampInt x lo hi))
  else some (wrapBits w x)

/-- The delivered result as a lane's value. -/
def delivered (f : Fields) (w : Nat) (uns : Bool) (x : Int) : LaneOut :=
  match deliver x w uns f.sat f.itrp with
  | some n => .value (w == 64) (extendTo w uns n)
  | none => .trap { cause := 0x28 }

/-- Carry out of an addition and borrow of a subtraction, on the unsigned patterns (spec 06 R100). -/
def carryOut (w a b ci : Nat) : Bool := decide (2 ^ w ≤ a + b + ci)
def borrowOut (a b ci : Nat) : Bool := decide (a < b + ci)

/-- The conditions of ISETP (spec 06 R99). -/
def condInt (fn : Byte) (a b : Int) : Bool :=
  match fn.toNat with
  | 0 => decide (a = b)
  | 1 => decide (a ≠ b)
  | 2 => decide (a < b)
  | 3 => decide (a ≤ b)
  | 4 => decide (a > b)
  | _ => decide (a ≥ b)

end Sys2Proof.Machine
end

