-- ==== Sys2Proof/Machine/Int.lean ====
section
/-!
DEFINITION. Int.lean: OP 0x00 to 0x09, integer, bit, selection, comparison and move instructions (spec 06 R98 to R105).
-/
namespace Sys2Proof.Machine

/-- The width, the type and the operand readers of an integer instruction (spec 06 R98). -/
def iw (f : Fields) : Nat := widBits f.wid
def ityped (s : State) (f : Fields) (l : Lane) (o : Opnd) : Int := typed (iw f) f.uns (srcVal s f (iw f == 64) (!f.uns) l o)
def ipat (s : State) (f : Fields) (l : Lane) (o : Opnd) : Nat := pattern (iw f) (srcVal s f (iw f == 64) (!f.uns) l o)
/-- A pattern result. -/
def ibits (f : Fields) (n : Nat) : LaneOut := .value (iw f == 64) (extendTo (iw f) f.uns n)
/-- A count result, written to one register. -/
def icount (n : Nat) : LaneOut := val32 (BitVec.ofNat 32 n)

/-! ## Addition and subtraction (spec 06 R100) -/

/-- The carry or borrow that comes in. -/
def carryIn (withCarry : Bool) (f : Fields) (l : Lane) : Nat := if withCarry then (srcPred l f.c).toNat else 0
def addOut (withCarry : Bool) (f : Fields) (s : State) (l : Lane) : LaneOut :=
  delivered f (iw f) f.uns (ityped s f l f.a + ityped s f l f.b + (carryIn withCarry f l : Int))
def subOut (withCarry : Bool) (f : Fields) (s : State) (l : Lane) : LaneOut :=
  delivered f (iw f) f.uns (ityped s f l f.a - ityped s f l f.b - (carryIn withCarry f l : Int))
/-- The carry or borrow into the predicate that C names. -/
def addCarry (withCarry : Bool) (f : Fields) (s : State) (l : Lane) (t : Thread) : Thread :=
  putPred f.c (carryOut (iw f) (ipat s f l f.a) (ipat s f l f.b) (carryIn withCarry f l)) t
def subBorrow (withCarry : Bool) (f : Fields) (s : State) (l : Lane) (t : Thread) : Thread :=
  putPred f.c (borrowOut (ipat s f l f.a) (ipat s f l f.b) (carryIn withCarry f l)) t

def iadd (f : Fields) (s : State) : State := perLane f (addOut false f) (addCarry false f) s
def isub (f : Fields) (s : State) : State := perLane f (subOut false f) (subBorrow false f) s
def iaddc (f : Fields) (s : State) : State := perLane f (addOut true f) (addCarry true f) s
def isubb (f : Fields) (s : State) : State := perLane f (subOut true f) (subBorrow true f) s

/-! ## Multiplication (spec 06 R101) -/

def imul (f : Fields) (s : State) : State :=
  laneMap f (fun s l => delivered f (iw f) f.uns (ityped s f l f.a * ityped s f l f.b)) s
def imulh (f : Fields) (s : State) : State :=
  laneMap f (fun s l => ibits f (wrapBits (2 * iw f) (ityped s f l f.a * ityped s f l f.b) / 2 ^ iw f)) s
def imad (f : Fields) (s : State) : State :=
  laneMap f (fun s l => delivered f (iw f) f.uns (ityped s f l f.a * ityped s f l f.b + ityped s f l f.c)) s
/-- Byte k of a word as typed. -/
def typedByte (uns : Bool) (x : Word) (k : Nat) : Int := typed 8 uns ((x.extractLsb' (8 * k) 8).setWidth 64)
/-- The sum of the four byte products. -/
def dot4 (uns : Bool) (a b : Word) : Int :=
  [0, 1, 2, 3].foldl (fun acc k => acc + typedByte uns a k * typedByte uns b k) 0
def idot4 (f : Fields) (s : State) : State :=
  laneMap f (fun s l => delivered f 32 f.uns (ityped s f l f.c + dot4 f.uns (src32 s f l f.a) (src32 s f l f.b))) s

/-! ## Minimum, maximum, absolute value, negation (spec 06 R102) -/

def imin (f : Fields) (s : State) : State :=
  laneMap f (fun s l => ibits f (wrapBits (iw f) (min (ityped s f l f.a) (ityped s f l f.b)))) s
def imax (f : Fields) (s : State) : State :=
  laneMap f (fun s l => ibits f (wrapBits (iw f) (max (ityped s f l f.a) (ityped s f l f.b)))) s
def iabs (f : Fields) (s : State) : State :=
  laneMap f (fun s l => delivered f (iw f) false (ityped s f l f.a).natAbs) s
def ineg (f : Fields) (s : State) : State := laneMap f (fun s l => delivered f (iw f) false (-ityped s f l f.a)) s

/-! ## Logic and shifts (spec 06 R103) -/

def logicOp (f : Fields) (g : Nat → Nat → Nat) (s : State) : State :=
  laneMap f (fun s l => ibits f (g (ipat s f l f.a) (ipat s f l f.b))) s
def andB (f : Fields) (s : State) : State := logicOp f (· &&& ·) s
def orB (f : Fields) (s : State) : State := logicOp f (· ||| ·) s
def xorB (f : Fields) (s : State) : State := logicOp f (· ^^^ ·) s
def andnB (f : Fields) (s : State) : State := logicOp f (fun a b => a &&& (2 ^ iw f - 1 - b)) s
def notB (f : Fields) (s : State) : State := laneMap f (fun s l => ibits f (2 ^ iw f - 1 - ipat s f l f.a)) s

/-- The shift amount, unsigned (spec 06 R103). -/
def shiftN (s : State) (f : Fields) (l : Lane) (o : Opnd) : Nat := (src32 s f l o).toNat
/-- A power of two that is 0 beyond the width, so that no shift by a large amount is computed. -/
def shlPat (w a n : Nat) : Nat := if n ≥ w then 0 else a * 2 ^ n % 2 ^ w
/-- SHL with SAT or TRP delivers the exact product; beyond the width only its sign and its being zero matter. -/
def shlOut (f : Fields) (s : State) (l : Lane) : LaneOut :=
  let n := shiftN s f l f.b
  if f.sat || f.itrp then delivered f (iw f) f.uns (ityped s f l f.a * ((2 ^ min n 64 : Nat) : Int))
  else ibits f (shlPat (iw f) (ipat s f l f.a) n)
def shl (f : Fields) (s : State) : State := laneMap f (shlOut f) s
def shr (f : Fields) (s : State) : State :=
  laneMap f (fun s l => ibits f (ipat s f l f.a / 2 ^ min (shiftN s f l f.b) (iw f))) s
def sar (f : Fields) (s : State) : State :=
  laneMap f (fun s l =>
    let x := typed (iw f) false (srcVal s f (iw f == 64) (!f.uns) l f.a)
    ibits f (wrapBits (iw f) (x / ((2 ^ min (shiftN s f l f.b) (iw f) : Nat) : Int)))) s
def rotlPat (w a n : Nat) : Nat := let k := n % w; (a * 2 ^ k + a / 2 ^ (w - k)) % 2 ^ w
def rotl (f : Fields) (s : State) : State :=
  laneMap f (fun s l => ibits f (rotlPat (iw f) (ipat s f l f.a) (shiftN s f l f.b))) s
def funsh (f : Fields) (s : State) : State :=
  laneMap f (fun s l =>
    ibits f ((ipat s f l f.b * 2 ^ iw f + ipat s f l f.a) / 2 ^ min (shiftN s f l f.c) (iw f) % 2 ^ iw f)) s

/-! ## Bit fields and counts (spec 06 R104) -/

def bfxPat (w : Nat) (uns : Bool) (a : Nat) (ctl : Word) : Nat :=
  let p := (ctl.extractLsb' 0 8).toNat
  let n := (ctl.extractLsb' 8 8).toNat
  if n = 0 ∨ p ≥ w then 0
  else
    let e := min (p + n) w
    wrapBits w (typed (e - p) uns (BitVec.ofNat 64 (a / 2 ^ p % 2 ^ (e - p))))
def bfiPat (w a b : Nat) (ctl : Word) : Nat :=
  let p := (ctl.extractLsb' 0 8).toNat
  let n := (ctl.extractLsb' 8 8).toNat
  if n = 0 ∨ p ≥ w then a
  else
    let e := min (p + n) w
    a / 2 ^ e * 2 ^ e + b % 2 ^ (e - p) * 2 ^ p + a % 2 ^ p
def bfx (f : Fields) (s : State) : State :=
  laneMap f (fun s l => ibits f (bfxPat (iw f) f.uns (ipat s f l f.a) (src32 s f l f.b))) s
def bfi (f : Fields) (s : State) : State :=
  laneMap f (fun s l => ibits f (bfiPat (iw f) (ipat s f l f.a) (ipat s f l f.b) (src32 s f l f.c))) s
/-- The bits of a pattern, least first. -/
def bitsOf (w n : Nat) : List Bool := (List.range w).map fun i => n.testBit i
def popCount (w n : Nat) : Nat := ((bitsOf w n).filter id).length
/-- Zeros at the head of a list of bits. -/
def leadZeros : List Bool → Nat
  | [] => 0
  | b :: r => if b then 0 else leadZeros r + 1
def bitsNat : List Bool → Nat
  | [] => 0
  | b :: r => b.toNat + 2 * bitsNat r
def popc (f : Fields) (s : State) : State := laneMap f (fun s l => icount (popCount (iw f) (ipat s f l f.a))) s
def clz (f : Fields) (s : State) : State := laneMap f (fun s l => icount (leadZeros (bitsOf (iw f) (ipat s f l f.a)).reverse)) s
def ctz (f : Fields) (s : State) : State := laneMap f (fun s l => icount (leadZeros (bitsOf (iw f) (ipat s f l f.a)))) s
def brev (f : Fields) (s : State) : State :=
  laneMap f (fun s l => ibits f (bitsNat (bitsOf (iw f) (ipat s f l f.a)).reverse)) s
/-- One result byte of PERMB. -/
def permbByte (ba : DWord) (sel : BitVec 4) : Byte :=
  let x := ba.extractLsb' (8 * (sel.extractLsb' 0 3).toNat) 8
  if sel.getLsbD 3 then (if x.getLsbD 7 then 0xFF else 0) else x
def permbWord (a b c : Word) : Word :=
  permbByte (pairOf a b) (c.extractLsb' 12 4) ++ (permbByte (pairOf a b) (c.extractLsb' 8 4) ++
    (permbByte (pairOf a b) (c.extractLsb' 4 4) ++ permbByte (pairOf a b) (c.extractLsb' 0 4)))
def permb (f : Fields) (s : State) : State :=
  laneMap f (fun s l => val32 (permbWord (src32 s f l f.a) (src32 s f l f.b) (src32 s f l f.c))) s

/-! ## Selection, comparison, predicate logic, moves (spec 06 R105) -/

def sel (f : Fields) (s : State) : State :=
  laneMap f (fun s l => ibits f (if srcPred l f.c then ipat s f l f.a else ipat s f l f.b)) s
def isetp (f : Fields) (s : State) : State :=
  laneMap f (fun s l =>
    .pred (condInt f.fn (ityped s f l f.a) (ityped s f l f.b) && (f.c == .zero || srcPred l f.c))) s
def plop (f : Fields) (s : State) : State :=
  laneMap f (fun _ l =>
    .pred (f.fn.getLsbD (4 * (srcPred l f.a).toNat + 2 * (srcPred l f.b).toNat + (srcPred l f.c).toNat))) s
def mov (f : Fields) (s : State) : State := laneMap f (fun s l => ibits f (ipat s f l f.a)) s
def movi (f : Fields) (s : State) : State := laneMap f (fun s l => val64 (pairOf (src32 s f l f.a) (src32 s f l f.b))) s

/-! Each answers the next state that the definition of its name gives. -/
def execIadd (f : Fields) (s : State) : Host.Outcome State Fault Refusal := .next (iadd f s)
def execIsub (f : Fields) (s : State) : Host.Outcome State Fault Refusal := .next (isub f s)
def execIaddc (f : Fields) (s : State) : Host.Outcome State Fault Refusal := .next (iaddc f s)
def execIsubb (f : Fields) (s : State) : Host.Outcome State Fault Refusal := .next (isubb f s)
def execImul (f : Fields) (s : State) : Host.Outcome State Fault Refusal := .next (imul f s)
def execImulh (f : Fields) (s : State) : Host.Outcome State Fault Refusal := .next (imulh f s)
def execImad (f : Fields) (s : State) : Host.Outcome State Fault Refusal := .next (imad f s)
def execIdot4 (f : Fields) (s : State) : Host.Outcome State Fault Refusal := .next (idot4 f s)
def execImin (f : Fields) (s : State) : Host.Outcome State Fault Refusal := .next (imin f s)
def execImax (f : Fields) (s : State) : Host.Outcome State Fault Refusal := .next (imax f s)
def execIabs (f : Fields) (s : State) : Host.Outcome State Fault Refusal := .next (iabs f s)
def execIneg (f : Fields) (s : State) : Host.Outcome State Fault Refusal := .next (ineg f s)
def execAndB (f : Fields) (s : State) : Host.Outcome State Fault Refusal := .next (andB f s)
def execOrB (f : Fields) (s : State) : Host.Outcome State Fault Refusal := .next (orB f s)
def execXorB (f : Fields) (s : State) : Host.Outcome State Fault Refusal := .next (xorB f s)
def execAndnB (f : Fields) (s : State) : Host.Outcome State Fault Refusal := .next (andnB f s)
def execNotB (f : Fields) (s : State) : Host.Outcome State Fault Refusal := .next (notB f s)
def execShl (f : Fields) (s : State) : Host.Outcome State Fault Refusal := .next (shl f s)
def execShr (f : Fields) (s : State) : Host.Outcome State Fault Refusal := .next (shr f s)
def execSar (f : Fields) (s : State) : Host.Outcome State Fault Refusal := .next (sar f s)
def execRotl (f : Fields) (s : State) : Host.Outcome State Fault Refusal := .next (rotl f s)
def execFunsh (f : Fields) (s : State) : Host.Outcome State Fault Refusal := .next (funsh f s)
def execBfx (f : Fields) (s : State) : Host.Outcome State Fault Refusal := .next (bfx f s)
def execBfi (f : Fields) (s : State) : Host.Outcome State Fault Refusal := .next (bfi f s)
def execPopc (f : Fields) (s : State) : Host.Outcome State Fault Refusal := .next (popc f s)
def execClz (f : Fields) (s : State) : Host.Outcome State Fault Refusal := .next (clz f s)
def execCtz (f : Fields) (s : State) : Host.Outcome State Fault Refusal := .next (ctz f s)
def execBrev (f : Fields) (s : State) : Host.Outcome State Fault Refusal := .next (brev f s)
def execPermb (f : Fields) (s : State) : Host.Outcome State Fault Refusal := .next (permb f s)
def execSel (f : Fields) (s : State) : Host.Outcome State Fault Refusal := .next (sel f s)
def execIsetp (f : Fields) (s : State) : Host.Outcome State Fault Refusal := .next (isetp f s)
def execPlop (f : Fields) (s : State) : Host.Outcome State Fault Refusal := .next (plop f s)
def execMov (f : Fields) (s : State) : Host.Outcome State Fault Refusal := .next (mov f s)
def execMovi (f : Fields) (s : State) : Host.Outcome State Fault Refusal := .next (movi f s)
end Sys2Proof.Machine
end

