-- ==== Sys2Proof/Machine/Crypto.lean ====
section
/-!
DEFINITION. Crypto.lean: SHA-256 and ECDSA on the P-256 curve, which spec 01 R13 names for signatures and digests and whose
definitions are those of FIPS 180-4 and FIPS 186 (log entry 9).
-/
namespace Sys2Proof.Machine

/-! ## SHA-256 -/

def add32 (x y : Nat) : Nat := (x + y) % 2 ^ 32
def rotr32 (x n : Nat) : Nat := (x >>> n) ||| (x <<< (32 - n)) % 2 ^ 32
/-- The round constants, from the cube roots of the first 64 primes. -/
def shaK : List Nat :=
  [0x428A2F98, 0x71374491, 0xB5C0FBCF, 0xE9B5DBA5, 0x3956C25B, 0x59F111F1, 0x923F82A4, 0xAB1C5ED5] ++
  [0xD807AA98, 0x12835B01, 0x243185BE, 0x550C7DC3, 0x72BE5D74, 0x80DEB1FE, 0x9BDC06A7, 0xC19BF174] ++
  [0xE49B69C1, 0xEFBE4786, 0x0FC19DC6, 0x240CA1CC, 0x2DE92C6F, 0x4A7484AA, 0x5CB0A9DC, 0x76F988DA] ++
  [0x983E5152, 0xA831C66D, 0xB00327C8, 0xBF597FC7, 0xC6E00BF3, 0xD5A79147, 0x06CA6351, 0x14292967] ++
  [0x27B70A85, 0x2E1B2138, 0x4D2C6DFC, 0x53380D13, 0x650A7354, 0x766A0ABB, 0x81C2C92E, 0x92722C85] ++
  [0xA2BFE8A1, 0xA81A664B, 0xC24B8B70, 0xC76C51A3, 0xD192E819, 0xD6990624, 0xF40E3585, 0x106AA070] ++
  [0x19A4C116, 0x1E376C08, 0x2748774C, 0x34B0BCB5, 0x391C0CB3, 0x4ED8AA4A, 0x5B9CCA4F, 0x682E6FF3] ++
  [0x748F82EE, 0x78A5636F, 0x84C87814, 0x8CC70208, 0x90BEFFFA, 0xA4506CEB, 0xBEF9A3F7, 0xC67178F2]
/-- The initial value, from the square roots of the first eight primes. -/
def shaInit : List Nat :=
  [0x6A09E667, 0xBB67AE85, 0x3C6EF372, 0xA54FF53A, 0x510E527F, 0x9B05688C, 0x1F83D9AB, 0x5BE0CD19]
/-- Words of the message schedule, the newest first. -/
def shaExtend : Nat → List Nat → List Nat
  | 0, ws => ws
  | n + 1, ws =>
    let a := ws.getD 14 0
    let b := ws.getD 1 0
    let s0 := rotr32 a 7 ^^^ rotr32 a 18 ^^^ (a >>> 3)
    let s1 := rotr32 b 17 ^^^ rotr32 b 19 ^^^ (b >>> 10)
    shaExtend n (add32 (add32 s1 (ws.getD 6 0)) (add32 s0 (ws.getD 15 0)) :: ws)
def shaSchedule (block : List Byte) : List Nat :=
  (shaExtend 48 ((List.range 16).map fun i => leNat ((block.drop (4 * i)).take 4).reverse).reverse).reverse
/-- One round, on the working variables a to h. -/
def shaRound (v : List Nat) (kw : Nat × Nat) : List Nat :=
  match v with
  | [a, b, c, d, e, f, g, h] =>
    let t1 := add32 (add32 h (rotr32 e 6 ^^^ rotr32 e 11 ^^^ rotr32 e 25))
      (add32 ((e &&& f) ^^^ ((2 ^ 32 - 1 - e) &&& g)) (add32 kw.1 kw.2))
    let t2 := add32 (rotr32 a 2 ^^^ rotr32 a 13 ^^^ rotr32 a 22) ((a &&& b) ^^^ (a &&& c) ^^^ (b &&& c))
    [add32 t1 t2, a, b, c, add32 d t1, e, f, g]
  | _ => v
def shaBlock (h : List Nat) (block : List Byte) : List Nat :=
  (h.zip ((shaK.zip (shaSchedule block)).foldl shaRound h)).map fun e => add32 e.1 e.2
def shaBlocks : Nat → List Byte → List Nat → List Nat
  | 0, _, h => h
  | n + 1, bs, h => shaBlocks n (bs.drop 64) (shaBlock h (bs.take 64))
/-- The message with its padding. -/
def shaPad (bs : List Byte) : List Byte :=
  bs ++ [0x80] ++ List.replicate ((119 - bs.length % 64) % 64) 0 ++ (natLe 8 (8 * bs.length)).reverse
def sha256 (bs : List Byte) : BitVec 256 :=
  let m := shaPad bs
  BitVec.ofNat 256 ((shaBlocks (m.length / 64) m shaInit).foldl (fun n w => n * 2 ^ 32 + w) 0)

/-! ## P-256 -/

def p256 : Nat := 0xFFFFFFFF00000001000000000000000000000000FFFFFFFFFFFFFFFFFFFFFFFF
def p256Order : Nat := 0xFFFFFFFF00000000FFFFFFFFFFFFFFFFBCE6FAADA7179E84F3B9CAC2FC632551
def p256B : Nat := 0x5AC635D8AA3A93E7B3EBBD55769886BC651D06B0CC53B0F63BCE3C3E27D2604B
/-- x raised to e modulo m, for an exponent of n bits. -/
def powMod (m x e : Nat) : Nat → Nat
  | 0 => 1
  | n + 1 =>
    let r := powMod m x (e / 2) n
    if e % 2 = 1 then r * r % m * x % m else r * r % m
def invMod (m x : Nat) : Nat := powMod m x (m - 2) 256
/-- A point in Jacobian coordinates; z = 0 is the point at infinity. -/
structure Jac where
  x : Nat
  y : Nat
  z : Nat
deriving DecidableEq, Repr
def p256G : Jac :=
  ⟨0x6B17D1F2E12C4247F8BCE6E563A440F277037D812DEB33A0F4A13945D898C296, 0x4FE342E2FE1A7F9B8EE7EB4A7C0F9E162BCE33576B315ECECBB6406837BF51F5, 1⟩
/-- A difference in the field. -/
def subP (a b : Nat) : Nat := (a + p256 - b % p256) % p256
def Jac.double (p : Jac) : Jac :=
  let delta := p.z * p.z % p256
  let gamma := p.y * p.y % p256
  let beta := p.x * gamma % p256
  let alpha := 3 * (subP p.x delta * (p.x + delta)) % p256
  let x := subP (alpha * alpha) (8 * beta)
  ⟨x, subP (alpha * subP (4 * beta) x) (8 * gamma * gamma), 2 * p.y * p.z % p256⟩
def Jac.add (p q : Jac) : Jac :=
  if p.z = 0 then q
  else if q.z = 0 then p
  else
    let zp := p.z * p.z % p256
    let zq := q.z * q.z % p256
    let u1 := p.x * zq % p256
    let u2 := q.x * zp % p256
    let s1 := p.y * q.z % p256 * zq % p256
    let s2 := q.y * p.z % p256 * zp % p256
    if u1 = u2 then (if s1 = s2 then p.double else ⟨1, 1, 0⟩)
    else
      let h := subP u2 u1
      let r := subP s2 s1
      let hh := h * h % p256
      let hhh := h * hh % p256
      let v := u1 * hh % p256
      let x := subP (r * r) (hhh + 2 * v)
      ⟨x, subP (r * subP v x) (s1 * hhh), h * p.z % p256 * q.z % p256⟩
/-- A multiple of a point, for a factor of n bits. -/
def Jac.mul (p : Jac) (k : Nat) : Nat → Jac
  | 0 => ⟨1, 1, 0⟩
  | n + 1 =>
    let r := (Jac.mul p (k / 2) n).double
    if k % 2 = 1 then r.add p else r
/-- The first affine coordinate; none at infinity. -/
def Jac.affineX (p : Jac) : Option Nat :=
  if p.z = 0 then none else some (let i := invMod p256 p.z; p.x * (i * i % p256) % p256)
/-- The public key of 64 bytes, x then y, is a point of the curve. -/
def keyPoint (key : BitVec 512) : Option Jac :=
  let x := (key.extractLsb' 256 256).toNat
  let y := (key.extractLsb' 0 256).toNat
  if x < p256 ∧ y < p256 ∧ y * y % p256 = subP (x * x % p256 * x + p256B) (3 * x) then some ⟨x, y, 1⟩ else none
/-- A signature, r then s, of a digest verifies under a public key. -/
def ecdsaVerifies (key : BitVec 512) (digest : BitVec 256) (sig : BitVec 512) : Bool :=
  let r := (sig.extractLsb' 256 256).toNat
  let s := (sig.extractLsb' 0 256).toNat
  match keyPoint key with
  | none => false
  | some q =>
    decide (1 ≤ r ∧ r < p256Order ∧ 1 ≤ s ∧ s < p256Order) &&
      (let w := invMod p256Order s
       match ((p256G.mul (digest.toNat * w % p256Order) 256).add (q.mul (r * w % p256Order) 256)).affineX with
       | some x => x % p256Order == r
       | none => false)
/-- The signature of a digest under a private key, with the nonce that the signer drew. -/
def ecdsaSign (d nonce : Nat) (digest : BitVec 256) : BitVec 512 :=
  let r := ((p256G.mul nonce 256).affineX.getD 0) % p256Order
  BitVec.ofNat 256 r ++ BitVec.ofNat 256 (invMod p256Order nonce * (digest.toNat + r * d) % p256Order)

end Sys2Proof.Machine
end

