-- ==== Sys2Proof/Machine/Float.lean ====
section
/-!
DEFINITION. Float.lean: the binary formats, their exact values, and the one rounding of spec 05 R75 to R82, R87 and
00 R3.
-/
namespace Sys2Proof.Machine

/-- A binary format: exponent and fraction bits, bias, pattern of the largest finite magnitude, whether infinities
exist, canonical NaN, and whether FTZ applies (spec 05 R75, R76, R77, R81, R87). -/
structure Fmt where
  eb     : Nat
  fb     : Nat
  bias   : Nat
  top    : Nat
  hasInf : Bool := true
  nan    : Nat
  flush  : Bool := true
deriving DecidableEq, Repr

def fp32 : Fmt := { eb := 8, fb := 23, bias := 127, top := 0x7F7FFFFF, nan := 0x7FC00000 }
def fp16 : Fmt := { eb := 5, fb := 10, bias := 15, top := 0x7BFF, nan := 0x7E00 }
def bf16 : Fmt := { eb := 8, fb := 7, bias := 127, top := 0x7F7F, nan := 0x7FC0 }
def e4m3 : Fmt := { eb := 4, fb := 3, bias := 7, top := 0x7E, hasInf := false, nan := 0x7F }
def e5m2 : Fmt := { eb := 5, fb := 2, bias := 15, top := 0x7B, nan := 0x7E }
def a36 : Fmt := { eb := 8, fb := 27, bias := 127, top := 0x7F7FFFFFF, nan := 0x7FC000000, flush := false }

/-- Bits below the sign, and the exponent of the smallest subnormal. -/
def Fmt.magBits (t : Fmt) : Nat := t.eb + t.fb
def Fmt.emin (t : Fmt) : Int := 1 - (t.bias : Int) - (t.fb : Int)
/-- The pattern of a sign and a magnitude pattern. -/
def Fmt.pack (t : Fmt) (neg : Bool) (mag : Nat) : Nat := neg.toNat * 2 ^ t.magBits + mag
def Fmt.infBits (t : Fmt) (neg : Bool) : Nat := t.pack neg (t.top + 1)

/-- The value of a pattern: m · 2^e with a sign, an infinity, or a NaN (`sig`: signalling). -/
inductive FVal where
  | fin (neg : Bool) (m : Nat) (e : Int)
  | inf (neg : Bool)
  | nan (sig : Bool)
deriving DecidableEq, Repr

def FVal.isNan : FVal → Bool
  | nan _ => true
  | _ => false
def FVal.isSig : FVal → Bool
  | nan b => b
  | _ => false
def FVal.isZero : FVal → Bool
  | fin _ m _ => m == 0
  | _ => false
def FVal.neg : FVal → Bool
  | fin b _ _ => b
  | inf b => b
  | nan _ => false
def FVal.negate : FVal → FVal
  | fin b m e => fin (!b) m e
  | inf b => inf (!b)
  | v => v

/-- A pattern read as a value; with ftz a subnormal is a zero of its sign (spec 05 R77). -/
def Fmt.read (t : Fmt) (ftz : Bool) (bits : Nat) : FVal :=
  let mag := bits % 2 ^ t.magBits
  let neg := bits.testBit t.magBits
  if mag > t.top then
    if t.hasInf && mag == t.top + 1 then .inf neg else .nan (!mag.testBit (t.fb - 1))
  else if mag < 2 ^ t.fb then .fin neg (if ftz && t.flush then 0 else mag) t.emin
  else .fin neg (2 ^ t.fb + mag % 2 ^ t.fb) (t.emin + ((mag / 2 ^ t.fb : Nat) : Int) - 1)

/-- m / 2^d rounded to an integer in mode rm (spec 05 R78): 0 RNE, 1 RTZ, 2 RUP, 3 RDN, 4 RNA. -/
def roundShift (rm : Nat) (neg : Bool) (m d : Nat) : Nat :=
  if d = 0 then m
  else
    let k := min d (Nat.log2 m + 2)
    let q := m / 2 ^ k
    let r := m % 2 ^ k
    let half := 2 ^ (k - 1)
    let up := match rm with
      | 0 => decide (r > half) || (decide (r = half) && q % 2 == 1)
      | 1 => false
      | 2 => decide (r ≠ 0) && !neg
      | 3 => decide (r ≠ 0) && neg
      | _ => decide (r ≥ half)
    if up then q + 1 else q

/-- A result with the exceptions that can trap (spec 05 R79, R80). -/
structure FRes where
  bits : Nat
  inv  : Bool := false
  dz   : Bool := false
  ovf  : Bool := false
deriving DecidableEq, Repr

/-- Overflow in mode rm (spec 00 R3, 05 R82). -/
def overflowBits (t : Fmt) (rm : Nat) (neg : Bool) : Nat :=
  let toInf := match rm with
    | 0 => true
    | 1 => false
    | 2 => !neg
    | 3 => neg
    | _ => true
  if t.hasInf && toInf then t.infBits neg else t.pack neg t.top

/-- Round of spec 00 R3 for a nonzero m · 2^e. -/
def roundFin (t : Fmt) (rm : Nat) (ftz neg : Bool) (m : Nat) (e : Int) : FRes :=
  let top : Int := (Nat.log2 m : Int) + e
  if ftz && t.flush && decide (top < 1 - (t.bias : Int)) then { bits := t.pack neg 0 }
  else
    let u : Int := max (top - (t.fb : Int)) t.emin
    let q := if e ≥ u then m * 2 ^ (e - u).toNat else roundShift rm neg m (u - e).toNat
    let mag := (u - t.emin).toNat * 2 ^ t.fb + q
    if mag > t.top then { bits := overflowBits t rm neg, ovf := true } else { bits := t.pack neg mag }

/-- A value that has a sign even when it is zero, rounded. -/
def roundVal (t : Fmt) (rm : Nat) (ftz : Bool) : FVal → FRes
  | .fin neg m e => if m = 0 then { bits := t.pack neg 0 } else roundFin t rm ftz neg m e
  | .inf neg => if t.hasInf then { bits := t.infBits neg } else { bits := t.pack neg t.top, ovf := true }
  | .nan sig => { bits := t.nan, inv := sig }

def nanRes (t : Fmt) (inv : Bool) : FRes := { bits := t.nan, inv := inv }

/-! ## Exact sums and products -/

/-- A finite value in units of 2^k, for k no greater than its exponent. -/
def finInt (neg : Bool) (m : Nat) (e k : Int) : Int :=
  let n : Int := ((m * 2 ^ (e - k).toNat : Nat) : Int)
  if neg then -n else n

/-- a + b of values, with the exact zero of spec 00 R3. -/
def addVal (rm : Nat) (a b : FVal) : FVal :=
  match a, b with
  | .nan x, .nan y => .nan (x || y)
  | .nan x, _ => .nan x
  | _, .nan y => .nan y
  | .inf x, .inf y => if x == y then .inf x else .nan true
  | .inf x, _ => .inf x
  | _, .inf y => .inf y
  | .fin x m e, .fin y n g =>
    let k := min e g
    let sum := finInt x m e k + finInt y n g k
    if sum = 0 then .fin (if m == 0 && n == 0 && x == y then x else rm == 3) 0 k
    else .fin (decide (sum < 0)) sum.natAbs k

/-- a × b of values. -/
def mulVal (a b : FVal) : FVal :=
  match a, b with
  | .nan x, .nan y => .nan (x || y)
  | .nan x, _ => .nan x
  | _, .nan y => .nan y
  | .inf x, b => if b.isZero then .nan true else .inf (x != b.neg)
  | a, .inf y => if a.isZero then .nan true else .inf (a.neg != y)
  | .fin x m e, .fin y n g => .fin (x != y) (m * n) (e + g)

/-- The sum and the fused form, rounded once (spec 06 R108). A signalling or invalid NaN stands as `nan true`. -/
def fAdd (t : Fmt) (rm : Nat) (ftz : Bool) (a b : Nat) : FRes := roundVal t rm ftz (addVal rm (t.read ftz a) (t.read ftz b))
def fSub (t : Fmt) (rm : Nat) (ftz : Bool) (a b : Nat) : FRes :=
  roundVal t rm ftz (addVal rm (t.read ftz a) (t.read ftz b).negate)
def fMul (t : Fmt) (rm : Nat) (ftz : Bool) (a b : Nat) : FRes := roundVal t rm ftz (mulVal (t.read ftz a) (t.read ftz b))
def fFma (t : Fmt) (rm : Nat) (ftz : Bool) (a b c : Nat) : FRes :=
  roundVal t rm ftz (addVal rm (mulVal (t.read ftz a) (t.read ftz b)) (t.read ftz c))

/-- Comparison of values that are not NaN, with −0 = +0. -/
def cmpVal (a b : FVal) : Ordering :=
  match a, b with
  | .inf x, .inf y => if x == y then .eq else if x then .lt else .gt
  | .inf x, _ => if x then .lt else .gt
  | _, .inf y => if y then .gt else .lt
  | .fin x m e, .fin y n g => compare (finInt x m e (min e g)) (finInt y n g (min e g))
  | _, _ => .eq

/-- FMIN and FMAX (spec 06 R109); `big` asks for the larger. -/
def fMinMax (t : Fmt) (ftz big : Bool) (a b : Nat) : FRes :=
  let x := t.read ftz a
  let y := t.read ftz b
  if x.isSig || y.isSig then nanRes t true
  else if x.isNan && y.isNan then nanRes t false
  else if x.isNan then roundVal t 0 false y
  else if y.isNan then roundVal t 0 false x
  else
    let less := match cmpVal x y with
      | .lt => true
      | .gt => false
      | .eq => x.neg && !y.neg
    roundVal t 0 false (if less != big then x else y)

/-- The value rounded to an integer (spec 06 R112, 05 R89). -/
def roundInt (rm : Nat) (neg : Bool) (m : Nat) (e : Int) : Nat :=
  if e ≥ 0 then m * 2 ^ e.toNat else roundShift rm neg m (-e).toNat

/-- The integer a value delivers into a range (spec 05 R89), and whether it raises invalid. -/
def toInt (rm : Nat) (lo hi : Int) : FVal → Int × Bool
  | .nan _ => (0, true)
  | .inf neg => (if neg then lo else hi, true)
  | .fin neg m e =>
    let n : Int := (roundInt rm neg m e : Nat)
    let x := if neg then -n else n
    (clampInt x lo hi, decide (x < lo) || decide (x > hi))

/-- An integer as a value. -/
def ofInt (x : Int) : FVal := .fin (decide (x < 0)) x.natAbs 0

/-- The cause that TRP raises, the first of spec 05 R80. -/
def FRes.cause (r : FRes) : Option TrapVal :=
  if r.inv then some { cause := 0x20 } else if r.dz then some { cause := 0x21 } else if r.ovf then some { cause := 0x22 } else none

end Sys2Proof.Machine
end

