-- ==== Sys2Proof/Machine/Sync.lean ====
section
/-!
DEFINITION. Sync.lean: OP 0x40 to 0x44, the wave-level synchronising instructions: arrival, membership, mismatch and
the operation over the contributors (spec 02 R33, R34, 07 R119 to R124).
-/
namespace Sys2Proof.Machine

/-! ## Combining -/

/-- The operators of REDW and PRFX (spec 07 R123). -/
def combine (fn : Nat) (a b : Word) : Word :=
  match fn with
  | 0 => a + b
  | 1 => if a.toInt ≤ b.toInt then a else b
  | 2 => if a.toInt ≤ b.toInt then b else a
  | 3 => if a.toNat ≤ b.toNat then a else b
  | 4 => if a.toNat ≤ b.toNat then b else a
  | 5 => a &&& b
  | 6 => a ||| b
  | 7 => a ^^^ b
  | 8 => BitVec.ofNat 32 (fAdd fp32 0 false a.toNat b.toNat).bits
  | 9 => BitVec.ofNat 32 (fMinMax fp32 false false a.toNat b.toNat).bits
  | _ => BitVec.ofNat 32 (fMinMax fp32 false true a.toNat b.toNat).bits
def identity (fn : Nat) : Word :=
  match fn with
  | 1 => 0x7FFFFFFF
  | 2 => 0x80000000
  | 3 => 0xFFFFFFFF
  | 5 => 0xFFFFFFFF
  | 9 => 0x7F800000
  | 10 => 0xFF800000
  | _ => 0
/-- One level of the pairwise tree of Merge (spec 00 R3); an odd element passes up. -/
def pairUp {α : Type} (op : α → α → α) : List α → List α
  | a :: b :: r => op a b :: pairUp op r
  | l => l
/-- The pairwise tree over a list, by levels. -/
def mergeTree {α : Type} (op : α → α → α) : Nat → List α → List α
  | 0, l => l
  | n + 1, l => if l.length ≤ 1 then l else mergeTree op n (pairUp op l)
/-- The value of REDW: x[0] alone stands, but a NaN under .add.f32 is canonical. -/
def redValue (fn : Nat) (xs : List Word) : Word :=
  match mergeTree (combine fn) xs.length xs with
  | x :: _ => if fn == 8 && (fp32.read false x.toNat).isNan then 0x7FC00000 else x
  | [] => identity fn
/-- The inclusive prefixes. -/
def prefixes (fn : Nat) : List Word → Option Word → List Word
  | [], _ => []
  | x :: r, acc =>
    let y := match acc with | none => x | some a => combine fn a x
    y :: prefixes fn r (some y)

/-! ## The operations over the contributors, by home lane -/

/-- The source home lane of SHFL (spec 07 R121). -/
def shflLane (fn h x : Nat) : Option Nat :=
  match fn with
  | 0 => some (x % 32)
  | 1 => if x ≤ h then some (h - x) else none
  | 2 => if h + x ≤ 31 then some (h + x) else none
  | _ => some (h ^^^ (x % 32))
/-- A word with bit k set for each home lane k of a list. -/
def laneBits (hs : List Nat) : Word := hs.foldl (fun m h => m ||| (1#32 <<< h)) 0

/-- What one contributor receives, from the contributors' home lanes and arrivals in ascending home lane. -/
def syncOut (cs : List (Nat × Arrival)) (h : Nat) (x : Arrival) : LaneOut :=
  match x.ins with
  | .shfl f =>
    val32 (loW (match shflLane f.fn.toNat h x.b.toNat with
      | some k => (match cs.find? fun c => c.1 == k with | some c => c.2.a | none => x.a)
      | none => x.a))
  | .vote f =>
    (match f.fn.toNat with
     | 0 => .pred (cs.all fun c => c.2.a != 0)
     | 1 => .pred (cs.any fun c => c.2.a != 0)
     | 2 => val32 (laneBits ((cs.filter fun c => c.2.a != 0).map (·.1)))
     | _ => .pred (cs.all fun c => c.2.a == x.a))
  | .redw f => val32 (redValue f.fn.toNat (cs.map fun c => loW c.2.a))
  | .prfx f =>
    let j := (indexWhere (fun c => c.1 == h) cs).getD 0
    let r := prefixes f.fn.toNat (cs.map fun c => loW c.2.a) none
    if f.mod.getLsbD 0 then val32 (if j = 0 then identity f.fn.toNat else r.getD (j - 1) 0) else val32 (r.getD j 0)
  | .matchL _ => val32 (laneBits ((cs.filter fun c => c.2.a == x.a).map (·.1)))
  | _ => .none

/-! ## Arrival and completion -/

/-- Threads of one team, hoist and home wave that stand at one wave-level instruction with one count. -/
structure SyncKey where
  handlerOf : Option Nat
  team  : Nat
  hoist : Nat
  hw    : Nat
  pc    : DWord
  cnt   : BitVec 16
deriving DecidableEq, Repr

def Thread.syncKey (t : Thread) : SyncKey := ⟨t.handlerOf, t.team, t.hoist, t.hwave, t.pc, t.syncCnt⟩
def atWaveSync (t : Thread) : Bool := t.park == some (.sync 0)
/-- The arrived threads of a key. -/
def syncGroup (s : State) (k : SyncKey) : List (Nat × Thread) :=
  s.work.threads.filter fun e => atWaveSync e.2 && e.2.syncKey == k
/-- The live thread at a home lane of a home wave. -/
def threadAt (s : State) (k : SyncKey) (h : Nat) : Option (Nat × Thread) :=
  s.work.threads.find? fun e =>
    e.2.handlerOf == k.handlerOf && e.2.team == k.team && e.2.hoist == k.hoist && e.2.hidx == 32 * k.hw + h
/-- A thread is held in a wave that also holds one of a list of threads (spec 02 R34). -/
def heldBeside (s : State) (ids : List Nat) (t : Nat) : Bool :=
  s.work.waves.any fun e =>
    let ls := s.present e.2
    (ls.any fun l => l.id == t && !e.2.exm.getLsbD l.lane) && ls.any fun l => ids.contains l.id
def maskLanes (m : Word) : List Nat := (List.range 32).filter fun h => m.getLsbD h
def Thread.mask (t : Thread) : Word := match t.arrival with | some a => a.mask | none => 0

/-- Whether a group stands under spec 02 R34. -/
def waveMismatch (s : State) (k : SyncKey) (g : List (Nat × Thread)) (m : Word) : Bool :=
  m == 0 || g.any (fun e => e.2.mask != m || !e.2.mask.getLsbD e.2.hlane) ||
    (maskLanes m).any fun h =>
      match threadAt s k h with
      | none => true
      | some e => heldBeside s (g.map (·.1)) e.1

/-- Members that go on after the operation: contributors with their results. -/
def releaseWave (s : State) (g : List (Nat × Thread)) : State :=
  let g := sortBy (fun e => e.2.hlane) g
  let cs := g.filterMap fun e => match e.2.arrival with | some a => if a.on then some (e.2.hlane, a) else none | none => none
  g.foldl (fun s e =>
    s.modThread e.1 fun t =>
      let t1 := match t.arrival with
        | some a =>
          if a.on then (match fieldsOf a.ins with | some f => writeOut f (syncOut cs t.hlane a) t | none => t) else t
        | none => t
      { t1.unparkNext with arrival := none, syncCnt := t.syncCnt + 1 }) s

/-- A member that a mismatch stops: its guard holds and no cancellation is pending (spec 03 R48, 07 R119). -/
def stopsOnMismatch (e : Nat × Thread) : Bool := e.2.cancel.isNone && (match e.2.arrival with | some a => a.on | none => true)
/-- A member whose guard fails takes no trap: it goes on, its instruction counted (spec 03 R48, log entry 63). -/
def passesMismatch (e : Nat × Thread) : Bool := e.2.cancel.isNone && !stopsOnMismatch e
/-- One group: a mismatch traps every arrived participant whose guard holds (log entry 63); a complete one is released. -/
def resolveWaveGroup (s : State) (k : SyncKey) : State :=
  let g := syncGroup s k
  match g with
  | [] => s
  | e :: _ =>
    let m := e.2.mask
    if waveMismatch s k g m then
      takePriv (s.modThreads ((g.filter passesMismatch).map (·.1)) fun t =>
          { t.unparkNext with arrival := none, syncCnt := t.syncCnt + 1 })
        ((g.filter stopsOnMismatch).map (·.1)) e.2.parkedAt { cause := 0x80 }
    else if (maskLanes m).all fun h => g.any fun x => x.2.hlane == h then releaseWave s g
    else s
/-- Every group of a team. -/
def resolveWaves (team : Nat) (s : State) : State :=
  (dedup ((s.work.threads.filter fun e => atWaveSync e.2 && e.2.team == team).map fun e => e.2.syncKey)).foldl resolveWaveGroup s

/-- Every active thread arrives: `arr` gives what it presents; then complete groups are released. -/
def arrive (f : Fields) (form : Nat) (arr : Lane → Arrival) (s : State) : State :=
  let w := s.wave s.curWave
  let ls := s.active w
  ls.foldl (fun s l => s.modThread l.id fun t =>
    { t with park := some (.sync form), word := w.wordAt w.pc, pc := w.pc, resume := some w.pc, arrival := some { arr l with on := guardOk f l.th } }) s
def State.curTeam (s : State) : Nat := (s.wave s.curWave).team
/-- A wave-level instruction with operands a and b. -/
def waveSync (i : Instr) (f : Fields) (a : Lane → DWord) (b : Lane → Word) (s : State) : State :=
  resolveWaves s.curTeam (arrive f 0 (fun l => ⟨i, src32 s f l f.c, a l, b l, true⟩) s)

def shfl (f : Fields) (s : State) : State :=
  waveSync (.shfl f) f (fun l => (src32 s f l f.a).setWidth 64)
    (fun l => if f.mod.getLsbD 5 then (f.mod.extractLsb' 0 5).setWidth 32 else src32 s f l f.b) s
def vote (f : Fields) (s : State) : State :=
  waveSync (.vote f) f
    (fun l => if f.fn == 3 then (src32 s f l f.a).setWidth 64 else (BitVec.ofBool (srcPred l f.a)).setWidth 64) (fun _ => 0) s
def redw (f : Fields) (s : State) : State :=
  waveSync (.redw f) f (fun l => (src32 s f l f.a).setWidth 64) (fun _ => 0) s
def prfx (f : Fields) (s : State) : State :=
  waveSync (.prfx f) f (fun l => (src32 s f l f.a).setWidth 64) (fun _ => 0) s
def matchL (f : Fields) (s : State) : State :=
  waveSync (.matchL f) f (fun l => srcVal s f (f.fn == 1) false l f.a) (fun _ => 0) s

/-! Each answers the next state that the definition of its name gives. -/
def execShfl (f : Fields) (s : State) : Host.Outcome State Fault Refusal := .next (shfl f s)
def execVote (f : Fields) (s : State) : Host.Outcome State Fault Refusal := .next (vote f s)
def execRedw (f : Fields) (s : State) : Host.Outcome State Fault Refusal := .next (redw f s)
def execPrfx (f : Fields) (s : State) : Host.Outcome State Fault Refusal := .next (prfx f s)
def execMatchL (f : Fields) (s : State) : Host.Outcome State Fault Refusal := .next (matchL f s)
end Sys2Proof.Machine
end

