-- ==== Sys2Proof/Machine/Translate.lean ====
section
/-!
DEFINITION. Translate.lean: the physical address map, page-table walks, TLB hits and the address checks of memory
instructions (spec 09 R169, R185, 11 R216 to R218, 19 R369 to R376).
-/
namespace Sys2Proof.Machine

/-! ## Physical addresses (spec 09 R169) -/

def paRegion (pa : Nat) : Nat := pa / 2 ^ 48 % 16
def paModule (pa : Nat) : Nat := pa / 2 ^ 43 % 256
def lineOf (pa : Nat) : Nat := pa / 256 * 256
def sectorOf (pa : Nat) : Nat := pa / 64 * 64
/-- A remote address that names the module itself is a local one. -/
def localPa (s : State) (pa : Nat) : Nat :=
  if paRegion pa ≥ 8 && paModule pa == s.fabric.module_.toNat then pa % 2 ^ 43 else pa
def isLocal (pa : Nat) : Bool := paRegion pa == 0
def isHost (pa : Nat) : Bool := paRegion pa == 1
def isMmio (pa : Nat) : Bool := paRegion pa == 2
def isRemote (pa : Nat) : Bool := decide (paRegion pa ≥ 8)
/-- A page the walker accepts. -/
def populated (s : State) (pa : Nat) : Bool :=
  match paRegion pa with
  | 0 => decide (pa < Config.localLimit)
  | 1 => true
  | 2 => true
  | n => decide (8 ≤ n) && decide (pa % 2 ^ 43 < Config.localLimit) && s.fabric.members.contains (paModule pa)
/-- The home slice of a line (spec 09 R182). -/
def homeSlice (pa : Nat) : Nat :=
  let x := fun k => pa / 2 ^ k % 64
  x 8 ^^^ x 14 ^^^ x 20 ^^^ x 26 ^^^ x 32 ^^^ x 38 ^^^ x 44 ^^^ (pa / 2 ^ 50 % 4)
def secureGranule (s : State) (pa : Nat) : Bool := isLocal pa && s.worlds.granules.contains (pa / 2 ^ 21)

/-! ## Walks (spec 19 R369 to R372) -/

/-- Bytes of the home memory image; an unlisted byte reads 0 (log entry 4). -/
def homeBytes (s : State) (pa n : Nat) : List Byte := Mem.bytes 0 s.mem pa n
def homeNat (s : State) (pa n : Nat) : Nat := leNat (homeBytes s pa n)
def pteAt (s : State) (tbl idx : Nat) : DWord := BitVec.ofNat 64 (homeNat s (tbl + 8 * idx) 8)
def vaIndex (va level : Nat) : Nat := va / 2 ^ (12 + 9 * level) % 512
def pteAddr (e : DWord) : Nat := (e.extractLsb' 12 40).toNat * 4096
def pteMode (e : DWord) : Nat := (e.extractLsb' 6 2).toNat
/-- Bits of a page at a level. -/
def pageShift (level : Nat) : Nat := 12 + 9 * level
/-- A malformed entry (spec 19 R370). -/
def malformed (level : Nat) (e : DWord) : Bool :=
  e.extractLsb' 52 12 != 0 || e.extractLsb' 9 3 != 0 ||
    (if e.getLsbD 1 then level == 0 || e.extractLsb' 2 7 != 0
     else decide (level ≥ 3) || (e.getLsbD 8 && level != 0) || pteAddr e % 2 ^ pageShift level != 0)
/-- A place where a table may lie. -/
def tableOk (s : State) (world : Bool) (tbl : Nat) : Bool :=
  isLocal tbl && decide (tbl < Config.localLimit) && (world || !secureGranule s tbl)

/-- The leaf of a virtual address: the entry and the 4 KiB pages of its page. -/
def walkFrom (s : State) (x : Nat) (world : Bool) (va : Nat) : Nat → Nat → Option (DWord × Nat)
  | 0, tbl =>
    if !tableOk s world tbl then none
    else
      let i := vaIndex va 0
      let own := pteAt s tbl i
      let first := i / 16 * 16
      let block := (List.range 16).map fun k => pteAt s tbl (first + k)
      let whole := block.all fun e => e.getLsbD 0 && e.getLsbD 8
      let plain := fun (e : DWord) => e &&& ~~~0xF000#64
      let e := if whole && block.any (fun b => plain b != plain own) then block.getD (Config.c64Choice x (va / 65536)).toNat own else own
      if !e.getLsbD 0 || malformed 0 e then none else some (e, if e.getLsbD 8 && whole then 16 else 1)
  | n + 1, tbl =>
    if !tableOk s world tbl then none
    else
      let e := pteAt s tbl (vaIndex va (n + 1))
      if !e.getLsbD 0 || malformed (n + 1) e then none
      else if e.getLsbD 1 then walkFrom s x world va n (pteAddr e)
      else some (e, 2 ^ (9 * (n + 1)))
/-- The physical address of a virtual one through a leaf. -/
def leafPa (e : DWord) (pages va : Nat) : Nat :=
  if e.getLsbD 8 then pteAddr e / 65536 * 65536 + va % 65536
  else pteAddr e / (4096 * pages) * (4096 * pages) + va % (4096 * pages)

/-- A TLB entry that translates an address. -/
def tlbHit (t : List TlbEntry) (x : Nat) (gen : Word) (va : Nat) : Option TlbEntry :=
  t.find? fun e => e.ctx == x && e.gen == gen && decide (e.vpn ≤ va / 4096) && decide (va / 4096 < e.vpn + e.pages)
/-- The TLBs of a core, its own and its cluster's. -/
def tlbs (s : State) (c : Nat) : List TlbEntry := (s.core c).tlb ++ (s.cluster (c / 8)).tlb
/-- The leaf an access uses: a TLB entry, or a walk. -/
def leafOf (s : State) (c x va : Nat) : Option (DWord × Nat) :=
  match tlbHit (tlbs s c) x (s.ctx x).gen va with
  | some e => some (e.pte, e.pages)
  | none => walkFrom s x (s.ctx x).world va 4 (s.ctx x).root

/-! ## Checks (spec 11 R216, R218, 19 R371) -/

/-- The rights an access needs. -/
structure Need where
  r : Bool := false
  w : Bool := false
  x : Bool := false
  rmw : Bool := false                          -- an RMW, RED or LDL, which MMIO refuses
deriving DecidableEq, Repr
/-- The agent of an access. -/
structure Who where
  core : Nat
  ctx  : Nat
  priv : Bool
deriving DecidableEq, Repr
/-- A translated access. -/
structure Xlat where
  pa   : Nat
  mode : Nat
deriving DecidableEq, Repr

/-- The canonical address that bits [56:0] of a register or table name. -/
def canonVa (va : Nat) : Nat := (vecEntry (BitVec.ofNat 64 va)).toNat
/-- A canonical address (spec 11 R216). -/
def canonical (ea : DWord) : Bool := ea.extractLsb' 56 8 == 0 || ea.extractLsb' 56 8 == 0xFF
def vaOf (ea : DWord) : Nat := ea.toNat % 2 ^ 57

/-- Steps 2 to 5 of spec 11 R218 for a global address; alignment 1 for accesses that are not checked for it. -/
def checkGlobal (s : State) (w : Who) (n : Need) (align : Nat) (ea : DWord) : Except Byte Xlat :=
  if ea.toNat % align ≠ 0 then .error 0x43
  else if !canonical ea then .error 0x40
  else
    match leafOf s w.core w.ctx (vaOf ea) with
    | none => .error 0x40
    | some l =>
      let pa0 := leafPa l.1 l.2 (vaOf ea)
      if !populated s pa0 then .error 0x40
      else
        let pa := localPa s pa0
        if (n.r && !l.1.getLsbD 2) || (n.w && !l.1.getLsbD 3) || (n.x && !l.1.getLsbD 4) || (l.1.getLsbD 5 && !w.priv) ||
            pteMode l.1 == 3 || (isMmio pa && (pteMode l.1 != 2 || n.rmw || !w.priv)) then .error 0x41
        else if secureGranule s pa && !(s.ctx w.ctx).world then .error 0x42
        else .ok ⟨pa, pteMode l.1⟩

/-- The agent that a thread is. -/
def whoOf (s : State) (t : Thread) : Who := ⟨s.coreOf t, s.ctxOf t, s.privOf t⟩

/-- A thread's translation that misses the TLBs enters the walk queue (spec 19 R373). -/
def noteWalk (w : Who) (ea : DWord) (s : State) : State :=
  if (tlbHit (tlbs s w.core) w.ctx (s.ctx w.ctx).gen (vaOf ea)).isSome || s.walks.length ≥ 1024 ||
      (s.walks.any fun k => k.core == w.core && k.ctx == w.ctx && k.va / 4096 == vaOf ea / 4096) then s
  else { s with walks := s.walks ++ [⟨w.core, w.ctx, vaOf ea⟩] }

/-- The global address of a lane (spec 11 R216). -/
def globalEa (f : Fields) (t : Thread) : DWord := reg64 t f.a + f.imm.signExtend 64
/-- The scratchpad or window offset of a lane. -/
def offsetEa (f : Fields) (t : Thread) : Word := reg32 t f.a + f.imm

/-- Scratchpad offset check: alignment, then the team's size (spec 09 R172). -/
def checkScratch (s : State) (team align : Nat) (off : Nat) : Option Byte :=
  if off % align ≠ 0 then some 0x43
  else if off ≥ (s.grid (s.team team).grid).scratchPages * 4096 then some 0x40
  else none
/-- The team that a window address names, within the gang of a team (spec 09 R180). -/
def windowTeam (s : State) (team : Nat) (a : Word) : Option Nat :=
  let me := s.team team
  let slot := (a.extractLsb' 20 3).toNat
  if a.extractLsb' 23 9 != 0 || decide (slot ≥ (s.grid me.grid).gangTeams) then none
  else
    match s.work.teams.find? fun e =>
      e.2.grid == me.grid && e.2.gang == me.gang && e.2.gslot == slot && e.2.child == me.child &&
        (match e.2.role with | .secondary _ => (match me.role with | .secondary _ => true | _ => false)
                             | _ => (match me.role with | .secondary _ => false | _ => true)) with
    | some e => some e.1
    | none => none
/-- Window address check. -/
def checkWindow (s : State) (team align : Nat) (a : Word) : Except Byte (Nat × Nat) :=
  match windowTeam s team a with
  | none => .error 0x45
  | some t =>
    let off := (a.extractLsb' 0 20).toNat
    match checkScratch s t align off with
    | some c => .error c
    | none => .ok (t, off)

end Sys2Proof.Machine
end

