-- ==== Sys2Proof/Machine/Memory.lean ====
section
/-!
DEFINITION. Memory.lean: the home image, L1 lines and the directory, bunting partials, SWM bytes, reservations, poison,
scratchpads (spec 09 R171 to R188, 11 R225 to R230, 13 R270 to R278, 21 R412). COH and UNC accesses act on one home
image in one step, which is one execution the consistency model allows (log entry 5).
-/
namespace Sys2Proof.Machine

/-! ## Operators (spec 00 R3, 11 R225) -/

/-- Bytes of an operator's element. -/
def opBytes (op : Nat) : Nat := if op == 1 || op == 13 then 8 else 4
/-- op(x, b) on patterns of the operator's width. -/
def applyOp (op x b : Nat) : Nat :=
  let wx := BitVec.ofNat 32 x
  let wb := BitVec.ofNat 32 b
  match op with
  | 0 => (wx + wb).toNat
  | 1 => (x + b) % 2 ^ 64
  | 2 => (fAdd fp32 0 false x b).bits
  | 3 => (if wx.toInt ≤ wb.toInt then wx else wb).toNat
  | 4 => (if wx.toInt ≤ wb.toInt then wb else wx).toNat
  | 5 => min wx.toNat wb.toNat
  | 6 => max wx.toNat wb.toNat
  | 7 => (fMinMax fp32 false false x b).bits
  | 8 => (fMinMax fp32 false true x b).bits
  | 9 => (wx &&& wb).toNat
  | 10 => (wx ||| wb).toNat
  | 11 => (wx ^^^ wb).toNat
  | 12 => wb.toNat
  | _ => b % 2 ^ 64
/-- The identity that a partial starts at (spec 13 R273). -/
def opIdentity (op : Nat) : Nat :=
  match op with
  | 2 => 0x80000000
  | 3 => 0x7FFFFFFF
  | 4 => 0x80000000
  | 5 => 0xFFFFFFFF
  | 7 => 0x7F800000
  | 8 => 0xFF800000
  | 9 => 0xFFFFFFFF
  | _ => 0

/-! ## The place of a line in device memory (spec 09 R183) -/

/-- The memory channel of a local physical address, its row within the channel, and its byte of the line. -/
def channelOf (pa : Nat) : Nat := pa / 2 ^ 8 % 128 ^^^ pa / 2 ^ 15 % 128 ^^^ pa / 2 ^ 22 % 128 ^^^ pa / 2 ^ 29 % 128 ^^^ pa / 2 ^ 36 % 128
def rowOf (pa : Nat) : Nat := pa / 2 ^ 15 % 2 ^ 26
def byteOf (pa : Nat) : Nat := pa % 256
/-- The memory controller that drives a channel (spec 01 R7). -/
def controllerOf (channel : Nat) : Nat := channel / 4

/-! ## Messages of the crossbar (spec 13 R279) -/

def chanOf (s : State) (k : Nat) : Chan := Tab.get s.fabric.chans k {}
def setChan (k : Nat) (x : Chan) (s : State) : State := s.modFabric fun f => { f with chans := Tab.put f.chans k x }
/-- A message joins the queue of its station for a channel. -/
def sendMsg (k : Nat) (m : Msg) (s : State) : State := setChan k { chanOf s k with msgs := (chanOf s k).msgs ++ [m] } s
/-- A message of a core to the home of a line, and of a home to a core. -/
def tellHome (c line : Nat) (kind : MsgKind) (s : State) : State := sendMsg (homeSlice line) ⟨c / 8, c % 8, line, kind⟩ s
def tellCore (c line : Nat) (kind : MsgKind) (s : State) : State := sendMsg (64 + c / 8) ⟨homeSlice line, c, line, kind⟩ s
/-- A message about a line is still on its way from or to a core. -/
def underWay (s : State) (c line : Nat) (kinds : List MsgKind) : Bool :=
  ((chanOf s (homeSlice line)).msgs.any fun m => m.station == c / 8 && m.core == c % 8 && m.line == line && kinds.contains m.kind) ||
    (chanOf s (64 + c / 8)).msgs.any fun m => m.core == c && m.line == line && kinds.contains m.kind

/-! ## Lines of an L1 -/

def l1Line (s : State) (c line : Nat) : Option L1Line := Tab.find (s.core c).l1 line
def setL1 (c line : Nat) (l : L1Line) (s : State) : State := s.modCore c fun x => { x with l1 := Tab.put x.l1 line l }
def delL1 (c line : Nat) (s : State) : State := s.modCore c fun x => { x with l1 := Tab.del x.l1 line }
def l1St (s : State) (c line : Nat) : Option L1State := (l1Line s c line).map (·.st)
/-- Bit k of a line's sectors. -/
def sectorBit (pa : Nat) : BitVec 4 := 1#4 <<< (pa / 64 % 4)

/-! ## Reservations (spec 11 R230) -/

/-- Reservations on a line cleared, but those of the threads that `keep` names. -/
def clearResv (line : Nat) (keep : Nat → Thread → Bool) (s : State) : State :=
  let hit := s.work.threads.filter fun e =>
    (match e.2.resv with | some r => r.line == line | none => false) && !keep e.1 e.2
  s.modThreads (hit.map (·.1)) fun t => { t with resv := none }
/-- A write by an agent clears every other agent's reservation. -/
def writeResv (line : Nat) (writer : Option Nat) (s : State) : State := clearResv line (fun k _ => some k == writer) s
/-- A core loses a line: near reservations held there. -/
def coreResv (c line : Nat) (s : State) : State :=
  let away := (s.work.threads.filter fun e => s.coreOf e.2 != c || (match e.2.resv with | some r => r.far.isSome | none => true)).map (·.1)
  clearResv line (fun k _ => away.contains k) s

/-! ## Poison (spec 21 R412) -/

/-- Whether a read of a line meets poison. -/
def poisoned (s : State) (pa : Nat) : Bool := Tab.has s.home.poison (lineOf pa)
def setPoison (line : Nat) (s : State) : State := s.modHome fun h => { h with poison := Tab.put h.poison line (BitVec.allOnes 256) }
/-- Bytes lo to lo + n − 1 of a 256-bit byte mask. -/
def byteMask (lo n : Nat) : BitVec 256 := BitVec.ofNat 256 ((2 ^ n - 1) * 2 ^ lo)
/-- Poison leaves a line once every byte of it has been overwritten. -/
def overwrite (pa n : Nat) (s : State) : State :=
  match Tab.find s.home.poison (lineOf pa) with
  | none => s
  | some m =>
    let m' := m &&& ~~~byteMask (pa % 256) n
    s.modHome fun h => { h with poison := if m' = 0 then Tab.del h.poison (lineOf pa) else Tab.put h.poison (lineOf pa) m' }

/-! ## Versions of leased pages (spec 13 R285) -/

/-- The first write after a grant advances the version; on a wrap no lease is granted for 1 ms. -/
def touchVersion (pa : Nat) (s : State) : State :=
  let p := pa / 4096
  let v := Tab.get s.fabric.pageVer p {}
  if !v.granted then s
  else
    let n := v.version + 1
    let v' : PageVer := ⟨n, false, if n = 0 then some (s.dtime + 1000000) else v.embargo⟩
    s.modFabric fun x => { x with pageVer := Tab.put x.pageVer p v' }

/-! ## The home image -/

/-- Bytes written at the home, within one line. -/
def homeWrite (writer : Option Nat) (pa : Nat) (bs : List Byte) (s : State) : State :=
  touchVersion pa (overwrite pa bs.length (writeResv (lineOf pa) writer { s with mem := Mem.put 0 s.mem pa bs }))

/-! ## The directory (spec 13 R270 to R276) -/

def dirOf (s : State) (line : Nat) : Dir := Tab.get s.home.dir line {}
def setDir (line : Nat) (d : Dir) (s : State) : State := s.modHome fun h => { h with dir := Tab.put h.dir line d }
def modDir (line : Nat) (g : Dir → Dir) (s : State) : State := setDir line (g (dirOf s line)) s
def coreBit (c : Nat) : BitVec 128 := 1#128 <<< c
/-- Cores of a sharer map, ascending. -/
def coresOf (m : BitVec 128) : List Nat := (List.range 128).filter fun c => m.getLsbD c
/-- A core's copy goes to I, and its reservations on the line with it. -/
def loseCopy (c line : Nat) (s : State) : State := delL1 c line (coreResv c line s)
/-- The partial of a core: its touched elements as patterns. -/
def elemTouched (l : L1Line) (k : Nat) : Bool := l.mask.getLsbD k
def elemVal (bytes : BitVec 2048) (w k : Nat) : Nat := (bytes.extractLsb' (8 * w * k) (8 * w)).toNat
/-- Merge of spec 13 R273 over partials in ascending core order. -/
def mergePartials (op line : Nat) (parts : List (BitVec 2048 × BitVec 256)) (s : State) : State :=
  let w := opBytes op
  (List.range (256 / w)).foldl (fun s k =>
    match mergeTree (applyOp op) 128 ((parts.filter fun p => p.2.getLsbD k).map fun p => elemVal p.1 w k) with
    | [] => s
    | x :: _ => homeWrite none (line + w * k) (natLe w (applyOp op x (homeNat s (line + w * k) w))) s) s
/-- A merge that meets poison loses its contributions and is logged (spec 21 R412). -/
def mergeInto (op line : Nat) (parts : List (BitVec 2048 × BitVec 256)) (s : State) : State :=
  if parts.isEmpty then s
  else if poisoned s line then s.logDev 0x50 0xFF (unitOf 1 (homeSlice line)) (BitVec.ofNat 64 line) 0
  else mergePartials op line parts s
/-- The whole merge of a line in state B: the partials that holders still keep, and those already answered. -/
def mergeLine (line : Nat) (s : State) : State :=
  let d := dirOf s line
  if d.st != .b then s
  else
    let hs := (coresOf d.sharers).filterMap fun c => (l1Line s c line).bind fun l => if l.st == .b then some (c, l.bytes, l.mask) else none
    let parts := sortBy (fun (p : Nat × BitVec 2048 × BitVec 256) => p.1) (d.answers ++ hs)
    let s1 := mergeInto d.tag.toNat line (parts.map fun h => h.2) s
    setDir line { d with st := .i, sharers := 0, tag := 15, invs := 0, answers := [] } (hs.foldl (fun s h => loseCopy h.1 line s) s1)
/-- The L1 copies of a line that no directory tracks go: those under a lease. -/
def dropCopies (line : Nat) (s : State) : State :=
  { s with cores := s.cores.map fun e => (e.1, { e.2 with l1 := Tab.del e.2.l1 line }) }
/-- Every copy of a line invalidated, but a core's own. -/
def invalidateOthers (c line : Nat) (s : State) : State :=
  let d := dirOf s line
  let hs := (coresOf (d.sharers ||| (if d.st == .x || d.st == .o then coreBit d.owner else 0))).filter fun k => k != c
  hs.foldl (fun s k => loseCopy k line s) s
/-- Every copy recalled or merged; the line is left in I (spec 13 R272). -/
def recallLine (line : Nat) (s : State) : State :=
  let s1 := mergeLine line s
  modDir line (fun d => { d with st := .i, sharers := 0, tag := 15 }) (invalidateOthers 128 line s1)

/-! ## The contention predictor (spec 13 R277) -/

def predKey (line : Nat) : Nat := homeSlice line * 4096 + (line / 2 ^ 8 % 4096 ^^^ line / 2 ^ 20 % 4096)
/-- An ownership request or RMW reaches the home of a line. -/
def predict (c line : Nat) (s : State) : State :=
  let d := dirOf s line
  let other := match d.st with
    | .x => d.owner != c
    | .o => true
    | .b => d.sharers &&& ~~~coreBit c != 0
    | _ => false
  let n := Tab.get s.home.predict (predKey line) 0
  let n' := if other then min (n + 1) 3 else if d.st == .i || d.st == .s then n - 1 else n
  s.modHome fun h => { h with predict := if n' = 0 then Tab.del h.predict (predKey line) else Tab.put h.predict (predKey line) n' }
def predictFar (s : State) (line : Nat) : Bool := decide (Tab.get s.home.predict (predKey line) 0 ≥ 2)

/-! ## Hint classes and placement in an L1 (spec 09 R176, R187, R188) -/

/-- The class of a line after an access: 0 evict-first, 1 normal, 2 evict-last. -/
def hintNext (hint : BitVec 2) (old : Option Nat) : Nat :=
  match old, hint.toNat with
  | none, 0 => 1
  | none, 2 => 2
  | none, _ => 0
  | some 0, 0 => 1
  | some k, 1 => k
  | some _, 2 => 2
  | some k, _ => k
/-- Sets of an L1 by its size in 64 KiB units, and the set of a line. -/
def l1Sets (s : State) (c : Nat) : Nat := max 1 ((s.core c).l1Size * 32)
def sameSet (s : State) (c a b : Nat) : Bool := a / 256 % l1Sets s c == b / 256 % l1Sets s c
def setLines (s : State) (c line : Nat) : List (Nat × L1Line) := (s.core c).l1.filter fun e => sameSet s c e.1 line
/-- A seventh evict-last line of a set first demotes the least recently used one. -/
def demoteLast (c line : Nat) (s : State) : State :=
  let el := (setLines s c line).filter fun e => e.2.hint == 2 && e.1 != line
  if el.length < 6 then s
  else match leastBy (fun e => e.2.used) el with
    | some e => setL1 c e.1 { e.2 with hint := 1 } s
    | none => s
/-- The lines of an L2 set: 16 ways, by home slice and set (log entry 15). -/
def l2Set (line : Nat) : Nat := homeSlice line * Config.l2Sets + line / 2 ^ 14 % Config.l2Sets
def l2SetLines (h : Home) (line : Nat) : List (Nat × L2Line) := h.l2.filter fun e => l2Set e.1 == l2Set line
/-- The lines of a line's set that are of its world, and the ways of its slice that its world has (spec 19 R375). -/
def l2World (s : State) (line : Nat) : List (Nat × L2Line) :=
  (l2SetLines s.home line).filter fun e => secureGranule s e.1 == secureGranule s line
def l2WaysFor (s : State) (line : Nat) : Nat :=
  let secure := Tab.get s.worlds.ways (homeSlice line) 0
  if secureGranule s line then secure else Config.l2Ways - secure
/-- A thirteenth evict-last line of a set first demotes the least recently used one. -/
def l2Demote (line : Nat) (h : Home) : Home :=
  let el := (l2SetLines h line).filter fun e => e.2.hint == 2 && e.1 != line
  if el.length < Config.l2Last then h
  else match leastBy (fun e => e.2.used) el with
    | some e => { h with l2 := Tab.put h.l2 e.1 { e.2 with hint := 1 } }
    | none => h
/-- A line put into a set that has a way for it, or hit there: its class and its sectors. -/
def l2Put (line : Nat) (hint : BitVec 2) (valid dirty : BitVec 4) (clock : Nat) (h : Home) : Home :=
  let old := Tab.find h.l2 line
  let n := hintNext hint (old.map (·.hint))
  let h1 := if n = 2 && !(old.map (·.hint) == some 2) then l2Demote line h else h
  let l := old.getD {}
  { h1 with l2 := Tab.put h1.l2 line { hint := n, valid := l.valid ||| valid ||| dirty, dirty := l.dirty ||| dirty, used := clock } }
/-- An access that reaches the home slice of a line: a hit, an allocation in a free way, or a wait for the victim's recall (spec
09 R182, R187, R188, 13 R270). A line whose world has no way of the slice is not kept (spec 19 R375). -/
def l2Touch (line : Nat) (hint : BitVec 2) (valid dirty : BitVec 4) (s : State) : State :=
  s.modHome fun h =>
    if Tab.has h.l2 line || (l2World s line).length < l2WaysFor s line then l2Put line hint valid dirty s.clock h
    else if l2WaysFor s line = 0 || h.l2Wait.any fun e => e.1 == line then h
    else { h with l2Wait := h.l2Wait ++ [(line, hint)] }
/-- Sectors of a line written at its home. -/
def l2Dirty (line : Nat) (sectors : BitVec 4) (s : State) : State :=
  s.modHome fun h => match Tab.find h.l2 line with
    | some l => { h with l2 := Tab.put h.l2 line { l with valid := l.valid ||| sectors, dirty := l.dirty ||| sectors } }
    | none => h
/-- The victim of a full set that a line waits for (spec 09 R188). -/
def l2Victim (s : State) (line : Nat) : Option Nat :=
  let ls := l2World s line
  let pick := fun k => (leastBy (fun e => e.2.used) (ls.filter fun e => e.2.hint == k)).map (·.1)
  (pick 0).orElse fun _ => (pick 1).orElse fun _ => pick 2
/-- A line leaves the L2, its dirty sectors written to device memory, and a line that waits for its way takes it. -/
def l2Drop (line : Nat) (s : State) : State :=
  let s1 := s.modHome fun h => { h with l2 := Tab.del h.l2 line }
  match s1.home.l2Wait.find? fun e => l2Set e.1 == l2Set line && secureGranule s e.1 == secureGranule s line with
  | some e =>
    if (l2World s1 line).length < l2WaysFor s1 line then
      s1.modHome fun h => l2Put e.1 e.2 0 0 s.clock { h with l2Wait := h.l2Wait.filter fun x => x.1 != e.1 }
    else s1
  | none => s1
/-- An access sets the class at each level that it hits or allocates in: at the L1 when that holds the line, else at the L2. -/
def touchHint (c line : Nat) (hint : BitVec 2) (s : State) : State :=
  match l1Line s c line with
  | none => l2Touch line hint 0 0 s
  | some l =>
    let n := hintNext hint (some l.hint)
    setL1 c line { l with hint := n, used := s.clock } (if n = 2 && l.hint != 2 then demoteLast c line s else s)
/-- Dirty SWM bytes of a line written back, with their mask (spec 09 R185). -/
def swmBack (c line : Nat) (l : L1Line) (s : State) : State :=
  (List.range 256).foldl (fun s k => if l.mask.getLsbD k then homeWrite none (line + k) [l.bytes.extractLsb' (8 * k) 8] s else s)
    (l2Dirty line l.dirty (setL1 c line { l with mask := 0, dirty := 0 } s))
/-- A line leaves an L1 (spec 13 R273, R275): an M or O copy through a write-back entry, a partial merged at the home
first, SWM bytes written back, S and E copies silently. None while every write-back entry is taken. -/
def evictLine (c line : Nat) (s : State) : Option State :=
  match l1Line s c line with
  | none => some s
  | some l =>
    match l.st with
    | .m => if (s.core c).wbs.length ≥ 32 then none else some (keepBack l s)
    | .o => if (s.core c).wbs.length ≥ 32 then none else some (keepBack l s)
    | .b =>
      let d := dirOf s line
      let s1 := mergeInto d.tag.toNat line [(l.bytes, l.mask)] s
      let sh := d.sharers &&& ~~~coreBit c
      let last := sh = 0 && !d.pending
      some (loseCopy c line (setDir line { d with sharers := sh, st := if last then .i else .b, tag := if last then 15 else d.tag }
        (tellHome c line .back s1)))
    | .swm => some (loseCopy c line (swmBack c line l s))
    | .e => some (loseCopy c line (modDir line (fun d => if d.st == .x && d.owner == c then { d with st := .i } else d) s))
    | .s => some (loseCopy c line s)
where keepBack (l : L1Line) (s : State) : State :=
  (tellHome c line .back (loseCopy c line s)).modCore c fun x => { x with wbs := Tab.put x.wbs line l }
/-- The victim of spec 09 R188 in a full set. -/
def victimOf (s : State) (c line : Nat) : Option Nat :=
  let ls := setLines s c line
  if ls.length < 8 then none
  else
    let pick := fun k => (leastBy (fun e => e.2.used) (ls.filter fun e => e.2.hint == k)).map (·.1)
    (pick 0).orElse fun _ => (pick 1).orElse fun _ => pick 2
/-- Room for a line in an L1, in an untracked copy (SWM) or a tracked one: a copy of the other kind leaves first, since a page may
be mapped both ways (spec 09 R186). -/
def makeRoom (c line : Nat) (swm : Bool) (s : State) : Option State :=
  match l1Line s c line with
  | some l => if (l.st == .swm) == swm then some s else evictLine c line s
  | none =>
    match victimOf s c line with
    | none => some s
    | some v => evictLine c v s
/-- A line placed in a state, keeping what the core holds of it. -/
def placeLine (c line : Nat) (st : L1State) (hint : BitVec 2) (valid dirty : BitVec 4) (s : State) : Option State :=
  (makeRoom c line (st == .swm) s).map fun s1 =>
    let l := (l1Line s1 c line).getD { st := st, hint := hintNext hint none }
    let s2 := if (l1Line s1 c line).isSome then s1
      else l2Touch line hint valid 0 (if l.hint = 2 then demoteLast c line s1 else s1)
    touchHint c line hint (setL1 c line { l with st := st, valid := l.valid ||| valid, dirty := l.dirty ||| dirty, used := s.clock } s2)

/-! ## SWM lines (spec 09 R185) -/

/-- A core's SWM lines written back and invalidated, as a fence of gang scope or wider does. -/
def fenceSwm (c : Nat) (s : State) : State :=
  let ls := (s.core c).l1.filter fun e => e.2.st == .swm
  ls.foldl (fun s e => delL1 c e.1 (swmBack c e.1 e.2 s)) s
/-- One SWM line written back and invalidated. -/
def dropSwm (c line : Nat) (s : State) : State :=
  match l1Line s c line with
  | some l => if l.st == .swm then delL1 c line (swmBack c line l s) else s
  | none => s

/-! ## Reading and writing global bytes -/

/-- Bytes as a core reads them: its own SWM bytes over the home image. The caller has merged the line. -/
def readBytes (s : State) (c pa n : Nat) : List Byte :=
  match l1Line s c (lineOf pa) with
  | some l =>
    if l.st == .swm then
      (homeBytes s pa n).zipIdx.map fun e =>
        let k := pa % 256 + e.2
        if l.mask.getLsbD k then l.bytes.extractLsb' (8 * k) 8 else e.1
    else homeBytes s pa n
  | none => homeBytes s pa n
/-- Bytes stored into a core's copy of an SWM line. -/
def swmStore (pa : Nat) (bs : List Byte) (l : L1Line) : L1Line :=
  bs.zipIdx.foldl (fun l e =>
    let k := pa % 256 + e.2
    { l with
      bytes := (l.bytes &&& ~~~((0xFF#2048) <<< (8 * k))) ||| ((BitVec.setWidth 2048 e.1) <<< (8 * k))
      mask := l.mask ||| (1#256 <<< k) }) l

/-! ## Scratchpads (spec 09 R171 to R174) -/

def scratchBytes (s : State) (team off n : Nat) : List Byte := Mem.bytes 0 (s.team team).scratch off n
def scratchNat (s : State) (team off n : Nat) : Nat := leNat (scratchBytes s team off n)
/-- Pages of a range of scratchpad bytes. -/
def pagesOf (off n : Nat) : List Nat := (List.range ((off % 4096 + n + 4095) / 4096)).map fun k => off / 4096 + k
/-- The 64-byte sectors of a page in a range. -/
def pageSectors (page off n : Nat) : BitVec 64 :=
  (List.range 64).foldl (fun (m : BitVec 64) k =>
    let a := page * 4096 + 64 * k
    if off < a + 64 ∧ a < off + n then m ||| (1#64 <<< k) else m) 0
/-- Resident pages as a use of some bytes leaves them: in the order of use, with the sectors written (spec 09 R172). -/
def usePages (clock off n : Nat) (w : Bool) (ps : Tab Page) : Tab Page :=
  ps.map fun e =>
    if e.2.st == .resident && (pagesOf off n).contains e.1 then
      (e.1, { e.2 with used := clock, dirty := if w then e.2.dirty ||| pageSectors e.1 off n else e.2.dirty })
    else e
def touchPages (team off n : Nat) (s : State) : State :=
  s.modTeam team fun t => { t with pages := usePages s.clock off n false t.pages }
def scratchWrite (team off : Nat) (bs : List Byte) (s : State) : State :=
  s.modTeam team fun t => { t with scratch := Mem.put 0 t.scratch off bs, pages := usePages s.clock off bs.length true t.pages }
/-- Frames of a core, and the pages in frames of the teams on it, or on their way. -/
def frameCount (s : State) (c : Nat) : Nat := (512 - 64 * (s.core c).l1Size) / 4
def residents (s : State) (c : Nat) : List (Nat × Nat × Page) :=
  (s.work.teams.filter fun e => e.2.core == some c).flatMap fun e => e.2.pages.map fun p => (e.1, p.1, p.2)
/-- The state of a page (spec 09 R171); none when it is backed, as every page of a saved team is. -/
def pageSt (s : State) (team page : Nat) : Option PageSt :=
  if (s.team team).core.isNone then none else (Tab.find (s.team team).pages page).map Page.st
def resident (s : State) (team page : Nat) : Bool := pageSt s team page == some .resident
/-- A thread reaches a page in its frame, or in its backing page while its team is away (spec 09 R172, R181). -/
def pageReached (s : State) (team page : Nat) : Bool := (s.team team).core.isNone || resident s team page
/-- Some page of a range is in transition: an engine's access waits (spec 09 R171, R174). -/
def inTransit (s : State) (team off n : Nat) : Bool :=
  (pagesOf off n).any fun p => pageSt s team p == some .arriving || pageSt s team p == some .leaving
/-- A backed byte lies on a poisoned line of its backing page (log entry 79). -/
def backPoisoned (s : State) (team off : Nat) : Bool :=
  !resident s team (off / 4096) && poisoned s (Config.backingPage team (off / 4096) + off % 4096)

end Sys2Proof.Machine
end

