-- ==== Sys2Proof/Machine/Directory.lean ====
section
/-!
DEFINITION. Directory.lean: the directory's transactions, whole and in their stages, write-backs, and the settling of a line
before an agent acts at its home (spec 13 R271 to R277).
-/
namespace Sys2Proof.Machine

/-! ## Transactions of the directory, each whole (spec 13 R271) -/

/-- The state a read request leaves the other cores and the directory in, and the requester's own state. An owner whose data
stands in a write-back entry answers from it (spec 13 R275). -/
def grantRead (c line : Nat) (s0 : State) : L1State × State :=
  let s := mergeLine line s0
  let d := dirOf s line
  match d.st with
  | .i => (.e, setDir line { d with st := .x, owner := c, sharers := coreBit c } s)
  | .b => (.e, setDir line { d with st := .x, owner := c, sharers := coreBit c } s)
  | .s => (.s, setDir line { d with sharers := d.sharers ||| coreBit c } s)
  | .x =>
    if d.owner == c then ((l1St s c line).getD .e, s)
    else
      match l1Line s d.owner line with
      | some l =>
        if l.st == .m then
          (.s, setDir line { d with st := .o, sharers := coreBit d.owner ||| coreBit c } (setL1 d.owner line { l with st := .o } s))
        else (.s, setDir line { d with st := .s, sharers := coreBit d.owner ||| coreBit c } (setL1 d.owner line { l with st := .s } s))
      | none =>
        if Tab.has (s.core d.owner).wbs line then (.s, setDir line { d with st := .o, sharers := coreBit d.owner ||| coreBit c } s)
        else (.e, setDir line { d with st := .x, owner := c, sharers := coreBit c } s)
  | .o => (if d.owner == c then .o else .s, setDir line { d with sharers := d.sharers ||| coreBit c } s)
/-- An ownership request. -/
def grantOwn (c line : Nat) (s : State) : State :=
  let s1 := invalidateOthers c line (mergeLine line s)
  modDir line (fun d => { d with st := .x, owner := c, sharers := coreBit c, tag := 15 }) s1
/-- A bunting request with a tag. -/
def grantBunting (c line tag : Nat) (s : State) : State :=
  let d := dirOf s line
  if d.st == .b && d.tag.toNat == tag then setDir line { d with sharers := d.sharers ||| coreBit c } s
  else
    let s1 := recallLine line s
    modDir line (fun d => { d with st := .b, sharers := coreBit c, tag := BitVec.ofNat 4 tag }) s1

/-- Ownership of a COH line, with the line placed in M. -/
def takeOwn (c line : Nat) (hint : BitVec 2) (valid dirty : BitVec 4) (s : State) : State :=
  match makeRoom c line false s with
  | none => grantOwn c line s
  | some s1 =>
    let s2 := grantOwn c line s1
    (placeLine c line .m hint valid dirty s2).getD s2
/-- The core owns the line already, in E or M. -/
def owns (s : State) (c line : Nat) : Bool := l1St s c line == some .m || l1St s c line == some .e
/-- An ownership request that the home serves: it counts in the predictor, unless the core owns the line already. -/
def ownLine (c line : Nat) (hint : BitVec 2) (valid dirty : BitVec 4) (s : State) : State :=
  if owns s c line then takeOwn c line hint valid dirty s
  else takeOwn c line hint valid dirty (tellHome c line .own (predict c line s))

/-! ## Staged transactions of the directory (spec 13 R271, R273) -/

/-- The threads of one instruction, once the waits of all have ended: they reissue, or trap together when data that came for one
was poisoned (spec 11 R219; log entry 28). -/
def settleBatch (b : Nat) (s : State) : State :=
  let ms := s.work.threads.filter fun e => e.2.batch == some b && e.2.park.isSome
  if ms.any fun e => e.2.park != some .others then s
  else
    match leastBy (fun e => e.2.hidx) (ms.filter fun e => (e.2.reply.map (·.bad)).getD false) with
    | some e => takePriv s (ms.map (·.1)) e.2.parkedAt { cause := 0x50, eaddr := BitVec.ofNat 64 ((e.2.reply.map (·.line)).getD 0) }
    | none => s.modThreads (ms.map (·.1)) Thread.unparkHere
/-- The waits of some threads end: each reissues its instruction, with the threads that it completes with. -/
def wakeWhere (hit : Nat → Thread → Bool) (s : State) : State :=
  let ts := s.work.threads.filter fun e => hit e.1 e.2
  (dedup (ts.filterMap fun e => e.2.batch)).foldl (fun s b => settleBatch b s)
    (s.modThreads (ts.map (·.1)) fun t => if t.batch.isSome then { t with park := some .others } else t.unparkHere)
/-- Threads of any core that wait for a line, or of one core that wait for a write-back entry, reissue. -/
def wakeOwn (hit : Nat → Nat → Bool) (s : State) : State :=
  wakeWhere (fun _ t => match t.park with | some (.own line) => hit line (s.coreOf t) | _ => false) s
/-- The cores that a request waits for: holders of partials for a merge, else the copies that it invalidates. -/
def askedOf (d : Dir) (c : Nat) (r : DirReq) : BitVec 128 :=
  let others := (d.sharers ||| (if d.st == .x || d.st == .o then coreBit d.owner else 0)) &&& ~~~coreBit c
  match d.st, r with
  | .i, _ => 0
  | .b, .bunting t => if d.tag == t then 0 else d.sharers
  | .b, _ => d.sharers
  | _, .read => 0
  | _, _ => others
/-- The grant itself, once every answer has come: the directory's transition and the requester's copy. -/
def giveLine (c line : Nat) (r : DirReq) (s0 : State) : State :=
  let s := tellCore c line .data s0
  match r with
  | .read =>
    let g := grantRead c line s
    (placeLine c line g.1 0 0 0 g.2).getD g.2
  | .own => takeOwn c line 0 0 0 s
  | .bunting t =>
    let fresh := !(l1St s c line == some .b && (dirOf s line).tag == t)
    let s1 := grantBunting c line t.toNat s
    if fresh then (placeLine c line .b 0 0 0 (loseCopy c line s1)).getD s1 else s1
/-- A request served or started; one that finds the pending flag set waits in arrival order. One for ownership or for a partial
counts in the predictor as it finds the line. -/
def askDir (c line : Nat) (r : DirReq) (s : State) : State :=
  let d := dirOf s line
  if d.pending then setDir line { d with waits := d.waits ++ [(c, r)] } s
  else
    let s1 := if r == .read || (r == .own && owns s c line) then s else predict c line s
    let m := askedOf d c r
    if m = 0 then giveLine c line r s1
    else
      (coresOf m).foldl (fun s k => tellCore k line .inval s)
        (setDir line { d with pending := true, grant := some (c, r), invs := m, acks := if d.st == .b then 0 else m } s1)
/-- Waiting requests served until one must wait for answers. -/
def serveWaits (line : Nat) : Nat → State → State
  | 0, s => s
  | n + 1, s =>
    let d := dirOf s line
    match d.waits with
    | [] => s
    | (c, r) :: rest => if d.pending then s else serveWaits line n (askDir c line r (setDir line { d with waits := rest } s))
/-- The transaction on a line ends: the grant, then the requests that wait. A grant that needs a write-back entry which is
not free waits (spec 13 R275). -/
def endTransaction (line : Nat) (s : State) : State :=
  let d := dirOf s line
  if !d.pending || d.acks != 0 || d.invs != 0 || d.st == .b then s
  else
    let room := match d.grant with | some g => (makeRoom g.1 line false s).isSome | none => true
    if !room then s
    else
      let s1 := setDir line { d with pending := false, grant := none } s
      let s2 := match d.grant with | some g => giveLine g.1 line g.2 s1 | none => s1
      wakeOwn (fun k _ => k == line) (serveWaits line (d.waits.length + 1) s2)
/-- A request from a core that has no room for the line waits with the miss (spec 13 R275). -/
def requestDir (line core : Nat) (r : DirReq) (s : State) : State :=
  let k := lineOf line
  if core ≥ Config.numCores || (makeRoom core k false s).isNone then s else askDir core k r s
def dirReadRequest (line core : Nat) (s : State) : State := requestDir line core .read s
def dirOwnershipRequest (line core : Nat) (s : State) : State :=
  requestDir line core .own s
/-- A tag outside the operators of spec 13 R273 names no operator. -/
def dirBuntingRequest (line core : Nat) (tag : BitVec 4) (s : State) : State :=
  if tag.toNat > 11 then s else requestDir line core (.bunting tag) s
/-- An invalidation on its way reaches its core, which gives up its copy and acknowledges. -/
def invalidation (core line : Nat) (s : State) : State :=
  let k := lineOf line
  let d := dirOf s k
  if d.pending && d.st != .b && d.invs.getLsbD core then
    tellHome core k .done (loseCopy core k (setDir k { d with invs := d.invs &&& ~~~coreBit core } s))
  else s
def invalidationAck (core line : Nat) (s : State) : State :=
  let k := lineOf line
  let d := dirOf s k
  if d.pending && d.st != .b && d.acks.getLsbD core && !d.invs.getLsbD core then
    endTransaction k (setDir k { d with acks := d.acks &&& ~~~coreBit core } s)
  else s
/-- A merge request starts at a line in state B, or goes on: the lowest holder not yet asked answers and goes to I. -/
def mergeRequest (line : Nat) (s : State) : State :=
  let k := lineOf line
  let d0 := dirOf s k
  if d0.st != .b then s
  else
    let d := if d0.pending then d0 else { d0 with pending := true, invs := d0.sharers }
    match coresOf d.invs with
    | [] => setDir k d s
    | c :: _ =>
      let mine := match l1Line s c k with
        | some l => if l.st == .b then [(c, l.bytes, l.mask)] else []
        | none => []
      let d1 := { d with invs := d.invs &&& ~~~coreBit c, answers := d.answers ++ mine, sharers := d.sharers &&& ~~~coreBit c }
      setDir k d1 (if mine.isEmpty then s else loseCopy c k s)
/-- Every answer has come: the home merges, and the transaction ends. -/
def merge (line : Nat) (s : State) : State :=
  let k := lineOf line
  let d := dirOf s k
  if d.pending && d.invs == 0 && d.acks == 0 then endTransaction k (mergeLine k s) else s
def l1Eviction (core line : Nat) (s : State) : State := (evictLine core (lineOf line) s).getD s

/-! ## Write-back entries (spec 13 R275) -/

/-- Pending grants to a core that waited for a write-back entry. -/
def retryGrants (core : Nat) (s : State) : State :=
  (s.home.dir.filter fun e => match e.2.grant with | some g => g.1 == core | none => false).foldl (fun s e => endTransaction e.1 s) s
/-- The home takes the write-back of a line's owner, or discards a stale one; the entry is free. -/
def backHome (core line : Nat) (s : State) : State :=
  match Tab.find (s.core core).wbs line with
  | none => s
  | some l =>
    let d := dirOf s line
    let away := (l1Line s core line).isNone && d.owner == core
    let s1 := s.modCore core fun x => { x with wbs := Tab.del x.wbs line }
    if away && d.st == .x then l2Dirty line l.dirty (setDir line { d with st := .i, sharers := 0 } s1)
    else if away && d.st == .o then
      let sh := d.sharers &&& ~~~coreBit core
      l2Dirty line l.dirty (setDir line { d with st := if sh = 0 then .i else .s, sharers := sh } s1)
    else s1
/-- The acknowledgement of a write-back. -/
def writebackAck (core line : Nat) (s : State) : State :=
  let k := lineOf line
  if !Tab.has (s.core core).wbs k then s
  else retryGrants core (wakeOwn (fun _ c => c == core) (backHome core k s))

/-! ## A line settled (spec 13 R271) -/

/-- What is under way on a line comes to its end: invalidations and merges reach their cores and are answered, and the requests
that wait are served in arrival order. An agent that reaches a line with the pending flag set waits for this (log entry 82). -/
def settleWith (line : Nat) : Nat → State → State
  | 0, s => s
  | n + 1, s =>
    let d := dirOf s line
    if !d.pending then s
    else
      let s1 := if d.st == .b then mergeLine line s else (coresOf d.invs).foldl (fun s c => loseCopy c line s) s
      let s2 := modDir line (fun x => { x with invs := 0, acks := 0 }) s1
      let s3 := match d.grant with
        | none => s2
        | some g =>
          if (makeRoom g.1 line false s2).isSome then s2
          else match (s2.core g.1).wbs with
            | e :: _ => backHome g.1 e.1 s2
            | [] => s2
      settleWith line n (endTransaction line s3)
def settleLine (line : Nat) (s : State) : State :=
  if (dirOf s line).pending then settleWith line ((dirOf s line).waits.length + 2) s else s
/-- The lines of a list of translated accesses settled. -/
def settleAll (pas : List Nat) (s : State) : State := (dedup (pas.map lineOf)).foldl (fun s k => settleLine k s) s
/-- A recall is never refused: a transaction in progress ends first, then every copy goes home, and the L2 gives the line up (spec
13 R276). -/
def dirRecall (line : Nat) (s : State) : State :=
  let k := lineOf line
  l2Drop k (recallLine k (settleLine k s))

end Sys2Proof.Machine
end

