-- ==== Sys2Proof/Machine/Flow.lean ====
section
/-!
DEFINITION. Flow.lean: flits and packets sent, flows as their source, and the leased copies of this module (spec 13 R281, R283,
R285).
-/
namespace Sys2Proof.Machine

/-! ## Flits and flows -/

/-- A flit sent on a port: it goes out on the link, and the replay buffer keeps the last 512 (spec 13 R283). -/
def sendFlit (p : Nat) (f : Flit) (s : State) : State :=
  let x := Tab.get s.fabric.ports p {}
  let keep := fun (l : List Flit) => l.drop (l.length - 512)
  s.modFabric fun g => { g with ports := Tab.put g.ports p { x with replay := keep (x.replay ++ [f]), tx := keep (x.tx ++ [f]) } }
def modFlow (k : Nat) (g : Flow → Flow) (s : State) : State :=
  match Tab.find s.fabric.flows k with
  | some f => s.modFabric fun x => { x with flows := Tab.put x.flows k (g f) }
  | none => s
/-- The flow that carries a context's accesses to a module: the lowest one opened for its world. -/
def flowTo (s : State) (m x : Nat) : Option Nat :=
  (s.fabric.flows.find? fun e => e.2.dest == m && e.2.secure == (s.ctx x).world).map (·.1)
/-- What becomes of a request. -/
inductive Sent where
  | ok (s : State)
  | noFlow
  | full
/-- Flits of a packet: one, or as many as its data fills (spec 13 R281). -/
def flitCount (p : Packet) : Nat := if p.typ = 1 || p.typ = 2 then max 1 (min 4 (ceilDiv p.size 64)) else 1
/-- The head of a flit of a packet to a module. -/
def flitHead (p : Packet) (m : Nat) : BitVec 128 :=
  p.seq ++ (BitVec.ofNat 8 p.flow ++ (BitVec.ofNat 8 p.src ++ (p.typ ++ Config.route m)))
def packetFlits (p : Packet) (m : Nat) : List Flit :=
  (List.range (flitCount p)).map fun k =>
    ⟨flitHead p m, Config.flitPayload [p.typ.toNat, p.pa, p.size, p.op.toNat, p.b.toNat, p.c.toNat, p.data.toNat] k⟩
/-- A packet goes out, back to back, on a port that is up. -/
def sendPacket (port m : Nat) (p : Packet) (s : State) : State :=
  if (Tab.get s.fabric.ports port {}).st = 4 then (packetFlits p m).foldl (fun s f => sendFlit port f s) s else s
/-- A packet sent on a flow, with the thread that waits for its answer, and the grid and spawn group that wait for its write. -/
def sendOn (k : Nat) (p : Packet) (t : Option Nat) (s : State) : State :=
  let f := Tab.get s.fabric.flows k {}
  let q := { p with src := s.fabric.module_.toNat, flow := k, seq := f.seq, secure := f.secure, ordered := f.ordered }
  let th := t.bind s.thread?
  let o : Outst :=
    { pkt := q, sent := s.dtime, first := s.dtime, thread := t, grid := th.map fun x => (s.team x.team).grid
      group := th.bind fun x => x.group.orElse fun _ => (s.team x.team).group }
  sendPacket f.port f.dest q (modFlow k (fun f => { f with seq := f.seq + 1, outst := f.outst ++ [o] }) s)
/-- A request of a context to the home of a remote address. -/
def request (x : Nat) (p : Packet) (t : Option Nat) (s : State) : Sent :=
  match flowTo s (paModule p.pa) x with
  | none => .noFlow
  | some k => if (Tab.get s.fabric.flows k {}).outst.length ≥ 4096 then .full else .ok (sendOn k p t s)

/-! ## Leased copies (spec 13 R285) -/

/-- A live leased copy of a line for a context. -/
def leaseLive (s : State) (x line : Nat) : Option Lease :=
  match Tab.find s.fabric.leases line with
  | some l => if l.ctx == x && !l.expired && decide (s.dtime < l.expiry) then some l else none
  | none => none
def setLease (line : Nat) (l : Lease) (s : State) : State := s.modFabric fun x => { x with leases := Tab.put x.leases line l }
/-- A leased copy expires, and the L1s drop theirs; the module's copy stays for a renewal (spec 09 R184, 13 R285). -/
def expireLease (line : Nat) (s : State) : State :=
  match Tab.find s.fabric.leases line with
  | none => s
  | some l => dropCopies line (setLease line { l with expired := true } s)
/-- Bytes written into a leased copy. -/
def updateLease (pa : Nat) (bs : List Byte) (s : State) : State :=
  match Tab.find s.fabric.leases (lineOf pa) with
  | none => s
  | some l =>
    setLease (lineOf pa) { l with
      bytes := bs.zipIdx.foldl (fun (v : BitVec 2048) e =>
        let k := 8 * (pa % 256 + e.2)
        (v &&& ~~~((0xFF#2048) <<< k)) ||| ((BitVec.setWidth 2048 e.1) <<< k)) l.bytes } s
/-- What is asked about a leased line is older than a write of this module: it is expired when it comes. -/
def staleAsks (line : Nat) (s : State) : State :=
  s.modFabric fun g =>
    { g with
      leases := g.leases.map fun e => if e.1 == line && e.2.asked.isSome then (e.1, { e.2 with late := true }) else e
      flows := g.flows.map fun e => (e.1, { e.2 with outst := e.2.outst.map fun o =>
        if o.pkt.typ == 0 && o.pkt.op == 1 && line == lineOf o.pkt.pa then { o with late := true } else o }) }
def blankPacket (pa size : Nat) : Packet := { src := 0, flow := 0, seq := 0, typ := 0, pa := pa, size := size, op := 0, b := 0, c := 0, data := 0 }
/-- Bytes that an agent of a context writes to remote memory: a packet, which updates this module's leased copy. -/
def sendWrite (x pa : Nat) (bs : List Byte) (t : Option Nat) (s : State) : Sent :=
  match request x { blankPacket pa bs.length with typ := 2, data := BitVec.ofNat 2048 (leNat bs) } t s with
  | .ok s1 => .ok (updateLease pa bs (staleAsks (lineOf pa) s1))
  | r => r
/-- Bytes of remote memory that a device engine reads: a leased copy's, or what the other module holds (log entry 78). -/
def remoteBytes (x mode pa n : Nat) (s : State) : List Byte × State :=
  match if mode == 0 then leaseLive s x (lineOf pa) else none with
  | some l => (natLe n (l.bytes.toNat / 2 ^ (8 * (pa % 256))), s)
  | none => ((List.range n).map fun k => Config.remoteByte s.free (pa + k), { s with free := s.free + 1 })

end Sys2Proof.Machine
end

