-- ==== Sys2Proof/Machine/Global.lean ====
section
/-!
DEFINITION. Global.lean: accesses of agents at the home and through a context's addresses, ordering sides, waiting
conditions of cached accesses, stores, read-modify-writes, and the memory trap of spec 11 R218 and R219.
-/
namespace Sys2Proof.Machine

/-! ## Agents at the home (spec 13 R272) -/

def hostBias (s : State) (pa : Nat) : Bool := isLocal pa && s.home.bias.contains (pa / 4096)
/-- A device write to a line that the host may hold waits for its back-invalidate snoop (spec 13 R272, R288). -/
def hostHolds (s : State) (pa : Nat) : Bool := isLocal pa && !hostBias s pa && (dirOf s (lineOf pa)).host
/-- A device write that waits for a snoop, over the bytes of a range. -/
def overlayHeld (h : Nat × Nat × BitVec 2048) (pa : Nat) (bs : List Byte) : List Byte :=
  bs.zipIdx.map fun e =>
    let k := pa + e.2
    if h.1 ≤ k ∧ k < h.1 + h.2.1 then h.2.2.extractLsb' (8 * (k - h.1)) 8 else e.1
/-- Bytes read at the home: a line in state B is merged first, and writes that wait for a snoop count. Ranges lie within
one line. -/
def farRead (pa n : Nat) (s : State) : List Byte × State :=
  let s1 := mergeLine (lineOf pa) (settleLine (lineOf pa) s)
  (s1.home.hostHeld.foldl (fun bs h => overlayHeld h pa bs) (homeBytes s1 pa n), s1)
/-- Bytes written at the home by an agent: copies are recalled first (an SWM page has no tracked copies), and a line that
the host may hold is snooped first (log entry 33). -/
def farWrite (writer : Option Nat) (mode pa : Nat) (bs : List Byte) (s : State) : State :=
  if hostHolds s pa then
    s.modHome fun h =>
      { h with hostHeld := h.hostHeld ++ [(pa, bs.length, BitVec.ofNat 2048 (leNat bs))]
               binv := if h.binv.contains (lineOf pa) then h.binv else h.binv ++ [lineOf pa] }
  else
    let s1 := if mode == 0 && Tab.has s.home.dir (lineOf pa) then recallLine (lineOf pa) (settleLine (lineOf pa) s) else s
    homeWrite writer pa bs (l2Dirty (lineOf pa) (sectorBit pa) s1)
/-- A range of bytes cut at multiples of k. -/
def chunks (k : Nat) : Nat → Nat → Nat → List (Nat × Nat)
  | 0, _, _ => []
  | fuel + 1, a, n =>
    if n = 0 then []
    else
      let m := min n (k - a % k)
      (a, m) :: chunks k fuel (a + m) (n - m)
/-- Bytes of a range of virtual addresses, or the cause and address of the first failing page. The dirty SWM bytes of the agent's
core go home first, so that it observes the writes of its core (spec 10 R205, R207). -/
def vaRead (w : Who) (need : Need) (va n : Nat) (s : State) : Except (Byte × Nat) (List Byte) × State :=
  (chunks 256 (n / 256 + 2) va n).foldl (fun acc c =>
    match acc.1 with
    | .error e => (.error e, acc.2)
    | .ok bs =>
      match checkGlobal acc.2 w need 1 (BitVec.ofNat 64 c.1) with
      | .error e => (.error (e, c.1), acc.2)
      | .ok x =>
        if isRemote x.pa then
          let r := remoteBytes w.ctx x.mode x.pa c.2 acc.2
          (.ok (bs ++ r.1), r.2)
        else if poisoned acc.2 x.pa then (.error (0x50, c.1), acc.2)
        else
          let r := farRead x.pa c.2 (dropSwm w.core (lineOf x.pa) acc.2)
          (.ok (bs ++ r.1), r.2)) (.ok [], s)
/-- Bytes written to a translated address by an agent of a core and context; remote ones go as a packet. -/
def agentWrite (w : Who) (x : Xlat) (bs : List Byte) (s : State) : State :=
  if isRemote x.pa then (match sendWrite w.ctx x.pa bs none s with | .ok s1 => s1 | _ => s)
  else farWrite none x.mode x.pa bs (if x.mode == 1 then dropSwm w.core (lineOf x.pa) s else s)
/-- Bytes written from a virtual address. Every page is checked before any byte is written; remote memory that no flow with room
reaches answers as a timeout does (log entry 78). -/
def vaWrite (w : Who) (need : Need) (va : Nat) (bs : List Byte) (s : State) : Except (Byte × Nat) State :=
  let cs := chunks 256 (bs.length / 256 + 2) va bs.length
  match cs.findSome? fun c =>
      match checkGlobal s w need 1 (BitVec.ofNat 64 c.1) with
      | .error e => some (e, c.1)
      | .ok x =>
        if !isRemote x.pa then none
        else match request w.ctx (blankPacket x.pa 1) none s with
          | .ok _ => none
          | _ => some (0x59, c.1) with
  | some e => .error e
  | none =>
    .ok (cs.foldl (fun s c =>
      match checkGlobal s w need 1 (BitVec.ofNat 64 c.1) with
      | .ok x => agentWrite w x ((bs.drop (c.1 - va)).take c.2) s
      | .error _ => s) s)
/-- A write of the device in a context: dropped when a check fails. -/
def devWrite (c x : Nat) (va : Nat) (bs : List Byte) (s : State) : State :=
  match vaWrite ⟨c, x, true⟩ { w := true } va bs s with
  | .ok s1 => s1
  | .error _ => s
/-- A device-log entry about a context at the unit of a core. -/
def logCore (cause : Byte) (c x : Nat) (addr info : DWord) (s : State) : State :=
  s.logDev cause (BitVec.ofNat 8 x) (unitOf 0 c) addr info

/-! ## Ordering sides (spec 09 R185, 11 R231, 13 R285) -/

/-- Remote writes of a thread that no acknowledgement has answered. -/
def remoteOpen (s : State) (t : Nat) : Bool :=
  s.fabric.flows.any fun e => e.2.outst.any fun o => o.thread == some t && o.pkt.typ != 0
/-- A store or RMW of a thread to a line of remote memory that a later access could overtake: its flow is unordered (spec 10 R193,
13 R283). -/
def mayOvertake (s : State) (t line : Nat) : Bool :=
  s.fabric.flows.any fun e => !e.2.ordered && e.2.outst.any fun o => o.thread == some t && o.pkt.typ != 0 && lineOf o.pkt.pa == line
/-- A release side of pod or system scope waits for the thread's remote writes. -/
def releaseWaits (s : State) (t : Nat) (scope : BitVec 3) : Bool := decide (scope.toNat ≥ 4) && remoteOpen s t
/-- The data movement of a release side. -/
def releaseSide (c : Nat) (scope : BitVec 3) (s : State) : State :=
  if scope.toNat < 2 then s
  else ((s.core c).l1.filter fun e => e.2.st == .swm && e.2.mask != 0).foldl (fun s e => swmBack c e.1 e.2 s) s
/-- Every leased line of a context expires on this module; a lease asked for before is expired when it comes (spec 13 R285). -/
def expireLeases (x : Nat) (s : State) : State :=
  let gone := (s.fabric.leases.filter fun e => e.2.ctx == x).map (·.1)
  gone.foldl (fun s k => dropCopies k s) (s.modFabric fun g =>
    { g with
      leases := g.leases.map fun e => if e.2.ctx == x then (e.1, { e.2 with expired := true, late := e.2.asked.isSome }) else e
      flows := g.flows.map fun e => (e.1, { e.2 with outst := e.2.outst.map fun o =>
        if o.pkt.typ == 0 && o.pkt.op == 1 && o.pkt.b.toNat == x then { o with late := true } else o }) })
/-- A line without the clean sectors of an SWM copy: its dirty bytes stay; none when nothing is left (spec 09 R185). -/
def dirtyOnly (l : L1Line) : Option L1Line := if l.mask = 0 then none else some { l with valid := 0 }
/-- A core's clean SWM sectors go. -/
def acquireSwm (c : Nat) (s : State) : State :=
  if (s.core c).l1.any fun e => e.2.st == .swm then
    s.modCore c fun k =>
      { k with l1 := k.l1.filterMap fun e => if e.2.st == .swm then (dirtyOnly e.2).map fun l => (e.1, l) else some e }
  else s
/-- The data movement of an acquire side: clean SWM sectors go, and at pod or system scope the context's leases. -/
def acquireSide (c x : Nat) (scope : BitVec 3) (s : State) : State :=
  if scope.toNat < 2 then s
  else if scope.toNat < 4 then acquireSwm c s
  else expireLeases x (acquireSwm c s)
/-- A fence of spec 11 R231 for one core and context. -/
def fenceSides (c x : Nat) (scope : BitVec 3) (s : State) : State :=
  acquireSide c x scope (if scope.toNat < 2 then s else fenceSwm c s)

/-! ## Pages as accesses see them -/

/-- The mode of a page: a region that REGION switched back to SWM tracking keeps its leaf's mode. -/
def cached (mode : Nat) : Bool := mode == 0 || mode == 1
/-- Why a write to a cached page must wait, if it must. -/
def writeWait (s : State) (c mode pa : Nat) : Option Park :=
  if hostHolds s pa then some (.remote (lineOf pa))
  else if cached mode && (makeRoom c (lineOf pa) (mode == 1) s).isNone then some (.own (lineOf pa))
  else none
/-- The snoop that a waiting write sends. -/
def noteSnoop (p : Park) (s : State) : State :=
  match p with
  | .remote line =>
    if hostHolds s line && !s.home.binv.contains line then s.modHome fun h => { h with binv := h.binv ++ [line] } else s
  | _ => s

/-! ## Stores and read-modify-writes of one thread, whose waits are over -/

/-- A stream access does not allocate its line in an L1 that lacks it (spec 09 R187). -/
def streams (s : State) (c line : Nat) (hint : BitVec 2) : Bool := hint == 3 && (l1Line s c line).isNone
/-- A COH line at its home for a far access: every copy recalled (spec 13 R272), and the L2 accessed. -/
def farPlace (c line : Nat) (hint : BitVec 2) (sectors : BitVec 4) (s : State) : State :=
  l2Touch line hint 0 sectors (recallLine line (predict c line s))
/-- One store (spec 11 R221, 13 R271). -/
def storeOne (c t mode : Nat) (hint : BitVec 2) (pa : Nat) (bs : List Byte) (s : State) : State :=
  let line := lineOf pa
  match mode with
  | 0 =>
    homeWrite (some t) pa bs
      (if streams s c line hint then farPlace c line hint (sectorBit pa) s else ownLine c line hint (sectorBit pa) (sectorBit pa) s)
  | 1 =>
    if streams s c line hint then homeWrite (some t) pa bs (l2Touch line hint 0 (sectorBit pa) s)
    else
      let s1 := (placeLine c line .swm hint 0 (sectorBit pa) s).getD s
      (match l1Line s1 c line with
       | some l => writeResv line (some t) (setL1 c line (swmStore pa bs l) s1)
       | none => homeWrite (some t) pa bs s1)
  | _ => homeWrite (some t) pa bs s
/-- The place of an RMW prepared: near with ownership, or far with every copy recalled (spec 11 R227). -/
def rmwPlace (c mode : Nat) (far : Bool) (hint : BitVec 2) (pa : Nat) (s : State) : State :=
  let line := lineOf pa
  match mode with
  | 0 =>
    if far || streams s c line hint then farPlace c line hint (sectorBit pa) s
    else ownLine c line hint (sectorBit pa) (sectorBit pa) s
  | 1 => l2Touch line hint 0 (sectorBit pa) (dropSwm c line s)
  | _ => s
/-- One RMW: the new value from the old one, or none for no write. -/
def rmwOne (c t mode : Nat) (hint : BitVec 2) (pa n : Nat) (g : Nat → Option Nat) (s : State) : Nat × State :=
  let s1 := rmwPlace c mode (predictFar s (lineOf pa)) hint pa s
  let old := homeNat s1 pa n
  match g old with
  | some x => (old, homeWrite (some t) pa (natLe n x) s1)
  | none => (old, s1)
/-- The RED of a line enters its core's partial (spec 11 R227). -/
def bunts (s : State) (mode pa : Nat) : Bool := mode == 0 && isLocal pa && !hostBias s pa
/-- One RED into the core's partial, for which the L1 has room, or far (spec 11 R227, 13 R273, R274). The partial of a stream
access to a line that the L1 lacks goes home at once (spec 09 R187). -/
def redOne (c t mode op : Nat) (hint : BitVec 2) (pa b : Nat) (s : State) : State :=
  let line := lineOf pa
  let w := opBytes op
  if bunts s mode pa then
    let s0 := (makeRoom c line false s).getD s
    let fresh := !(l1St s0 c line == some .b && (dirOf s0 line).tag.toNat == op)
    let s1 := if fresh then loseCopy c line (grantBunting c line op (tellHome c line .bunting (predict c line s0))) else s0
    let s2 := (placeLine c line .b hint 0 0 s1).getD s1
    match l1Line s2 c line with
    | some l =>
      let k := pa % 256 / w
      let x := if l.mask.getLsbD k then elemVal l.bytes w k else opIdentity op
      let l1 := swmStore pa (natLe w (applyOp op x b)) { l with mask := 0 }
      let s3 := writeResv line (some t) (setL1 c line { l with bytes := l1.bytes, mask := l.mask ||| (1#256 <<< k) } s2)
      if streams s c line hint then (evictLine c line s3).getD s3 else s3
    | none => s2
  else
    let s1 := rmwPlace c mode true hint pa s
    if poisoned s1 pa then s1.logDev 0x50 0xFF (unitOf 1 (homeSlice line)) (BitVec.ofNat 64 pa) 0
    else homeWrite (some t) pa (natLe w (applyOp op (homeNat s1 pa w) b)) s1

/-! ## Traps of memory instructions (spec 11 R218, R219) -/

/-- The failing threads of a check, trapped together with the value of the lowest; the other executing threads reissue (log
entry 11), and threads whose guard fails advance. -/
def memTrapInfo (f : Fields) (bad : List (Lane × Byte × DWord)) (info : Option DWord) (s : State) : State :=
  match leastBy (fun e => e.1.th.hidx) bad with
  | none => s
  | some lead =>
    let w := s.wave s.curWave
    let ex := (s.execLanes f).map Lane.id
    let lanes := bad.foldl (fun (m : Word) e => m ||| (1#32 <<< e.1.lane)) 0
    let s1 := (advance s).modThreads ex fun t => { t with pc := w.pc }
    takePriv s1 (bad.map fun e => e.1.id) s.here { cause := lead.2.1, eaddr := lead.2.2, einfo := info.getD (lanes.setWidth 64) }
/-- The common case: s.einfo names the physical lanes that failed (spec 11 R218). -/
def memTrap (f : Fields) (bad : List (Lane × Byte × DWord)) (s : State) : State := memTrapInfo f bad none s
/-- One privileged trap of every executing thread. -/
def trapAll (f : Fields) (v : TrapVal) (s : State) : State :=
  let w := s.wave s.curWave
  let ex := (s.execLanes f).map Lane.id
  takePriv ((advance s).modThreads ex fun t => { t with pc := w.pc }) ex s.here v
/-- The whole instruction waits: every executing thread parks for one reason, the others advance. -/
def waitAll (f : Fields) (p : Park) (s : State) : State := parkLanes (s.execLanes f) (fun _ => p) (advance s)
/-- Every thread of an instruction waits for scratchpad pages, all of them (spec 09 R172, R173). -/
def waitPages (f : Fields) (ps : List (Nat × Nat)) (s : State) : State :=
  (waitAll f (.refill ((ps.head?.map (·.2)).getD 0)) s).modThreads ((s.execLanes f).map Lane.id) fun t => { t with pages := ps }

/-- Sorted results of a check over lanes: the failing ones, or the translations. -/
def splitChecks {α : Type} (rs : List (Lane × Except Byte α × DWord)) : List (Lane × Byte × DWord) × List (Lane × α) :=
  (rs.filterMap fun e => match e.2.1 with | .error c => some (e.1, c, e.2.2) | .ok _ => none,
   rs.filterMap fun e => match e.2.1 with | .error _ => none | .ok x => some (e.1, x))

end Sys2Proof.Machine
end

