-- ==== Sys2Proof/Machine/Fp.lean ====
section
/-!
DEFINITION. Fp.lean: OP 0x20 to 0x2C, floating-point instructions and conversions (spec 06 R106 to R114).
-/
namespace Sys2Proof.Machine

/-- The type of an instruction that FN names (spec 06 R106). -/
def fmtOf (n : Nat) : Fmt := match n with | 0 => fp32 | 1 => fp16 | _ => bf16
def ffmt (f : Fields) : Fmt := fmtOf f.fn.toNat
/-- A 32-bit source as a pattern of the type. -/
def fsrc (s : State) (f : Fields) (l : Lane) (o : Opnd) : Nat := (src32 s f l o).toNat
/-- The result, or the trap that TRP raises (spec 05 R80). -/
def fdeliver (f : Fields) (r : FRes) : LaneOut :=
  match (if f.ftrp then r.cause else none) with
  | some v => .trap v
  | none => val32 (BitVec.ofNat 32 r.bits)

def fadd (f : Fields) (s : State) : State :=
  laneMap f (fun s l => fdeliver f (fAdd (ffmt f) f.rm.toNat f.ftz (fsrc s f l f.a) (fsrc s f l f.b))) s
def fsub (f : Fields) (s : State) : State :=
  laneMap f (fun s l => fdeliver f (fSub (ffmt f) f.rm.toNat f.ftz (fsrc s f l f.a) (fsrc s f l f.b))) s
def fmul (f : Fields) (s : State) : State :=
  laneMap f (fun s l => fdeliver f (fMul (ffmt f) f.rm.toNat f.ftz (fsrc s f l f.a) (fsrc s f l f.b))) s
def ffma (f : Fields) (s : State) : State :=
  laneMap f (fun s l =>
    fdeliver f (fFma (ffmt f) f.rm.toNat f.ftz (fsrc s f l f.a) (fsrc s f l f.b) (fsrc s f l f.c))) s
def fmin (f : Fields) (s : State) : State :=
  laneMap f (fun s l => fdeliver f (fMinMax (ffmt f) f.ftz false (fsrc s f l f.a) (fsrc s f l f.b))) s
def fmax (f : Fields) (s : State) : State :=
  laneMap f (fun s l => fdeliver f (fMinMax (ffmt f) f.ftz true (fsrc s f l f.a) (fsrc s f l f.b))) s

/-- The condition of FSETP, and whether a quiet NaN raises invalid (spec 06 R110). -/
def fcond (c : Nat) (x y : FVal) : Bool :=
  let un := x.isNan || y.isNan
  let o := cmpVal x y
  match c with
  | 0 => !un && o == .eq
  | 1 => !un && o != .eq
  | 2 => !un && o == .lt
  | 3 => !un && o != .gt
  | 4 => !un && o == .gt
  | 5 => !un && o != .lt
  | 6 => !un
  | 7 => un
  | 8 => un || o == .eq
  | 9 => un || o != .eq
  | 10 => un || o == .lt
  | 11 => un || o != .gt
  | 12 => un || o == .gt
  | _ => un || o != .lt
def fcondInvalid (c : Nat) (x y : FVal) : Bool :=
  x.isSig || y.isSig || (decide (2 ≤ c ∧ c ≤ 5) && (x.isNan || y.isNan))
def fsetpOut (f : Fields) (s : State) (l : Lane) : LaneOut :=
  let t := fmtOf (f.fn.extractLsb' 0 4).toNat
  let c := (f.fn.extractLsb' 4 4).toNat
  let x := t.read f.ftz (fsrc s f l f.a)
  let y := t.read f.ftz (fsrc s f l f.b)
  if f.ftrp && fcondInvalid c x y then .trap { cause := 0x20 }
  else .pred (fcond c x y && (f.c == .zero || srcPred l f.c))
def fsetp (f : Fields) (s : State) : State := laneMap f (fsetpOut f) s

/-- The class bit (spec 06 R111). -/
def classBit (t : Fmt) (bits : Nat) : Nat :=
  match t.read false bits with
  | .nan true => 8
  | .nan false => 9
  | .inf neg => if neg then 0 else 7
  | .fin neg m _ =>
    if m = 0 then (if neg then 3 else 4)
    else if m < 2 ^ t.fb then (if neg then 2 else 5)
    else (if neg then 1 else 6)
def fclass (f : Fields) (s : State) : State :=
  laneMap f (fun s l => val32 (BitVec.ofNat 32 (2 ^ classBit (ffmt f) (fsrc s f l f.a)))) s

/-- FRINT and FSCALE (spec 06 R112). -/
def fRint (t : Fmt) (rm : Nat) (ftz : Bool) (a : Nat) : FRes :=
  match t.read ftz a with
  | .fin neg m e => roundVal t 0 false (.fin neg (roundInt rm neg m e) 0)
  | v => roundVal t 0 false v
def fScale (t : Fmt) (rm : Nat) (ftz : Bool) (a : Nat) (n : Int) : FRes :=
  match t.read ftz a with
  | .fin neg m e => roundVal t rm ftz (.fin neg m (e + n))
  | v => roundVal t rm ftz v
def frint (f : Fields) (s : State) : State :=
  laneMap f (fun s l => fdeliver f (fRint (ffmt f) f.rm.toNat f.ftz (fsrc s f l f.a))) s
def fscale (f : Fields) (s : State) : State :=
  laneMap f (fun s l =>
    fdeliver f (fScale (ffmt f) f.rm.toNat f.ftz (fsrc s f l f.a) (src32 s f l f.b).toInt)) s

/-- The two halves of HADD2 and HFMA2 (spec 06 R113): the traps of both halves together. -/
def halfFmt (f : Fields) : Fmt := if f.fn == 0 then fp16 else bf16
def halves (lo hi : FRes) : FRes :=
  { bits := hi.bits * 65536 + lo.bits, inv := lo.inv || hi.inv, dz := lo.dz || hi.dz, ovf := lo.ovf || hi.ovf }
def hadd2 (f : Fields) (s : State) : State :=
  laneMap f (fun s l =>
    let a := fsrc s f l f.a
    let b := fsrc s f l f.b
    let g := fAdd (halfFmt f) f.rm.toNat f.ftz
    fdeliver f (halves (g a b) (g (a / 65536) (b / 65536)))) s
def hfma2 (f : Fields) (s : State) : State :=
  laneMap f (fun s l =>
    let a := fsrc s f l f.a
    let b := fsrc s f l f.b
    let c := fsrc s f l f.c
    let g := fFma (halfFmt f) f.rm.toNat f.ftz
    fdeliver f (halves (g a b c) (g (a / 65536) (b / 65536) (c / 65536)))) s

/-! ## CVT (spec 06 R114) -/

/-- The types of CVT: a float, or an integer of a width that is signed or not. -/
inductive CvtType where
  | flt (t : Fmt)
  | int (w : Nat) (uns : Bool)
deriving DecidableEq, Repr

def cvtType (c : BitVec 4) : CvtType :=
  match c.toNat with
  | 0 => .flt fp32
  | 1 => .flt fp16
  | 2 => .flt bf16
  | 3 => .flt e4m3
  | 4 => .flt e5m2
  | 5 => .int 8 false
  | 6 => .int 16 false
  | 7 => .int 32 false
  | 8 => .int 64 false
  | 9 => .int 8 true
  | 10 => .int 16 true
  | 11 => .int 32 true
  | 12 => .int 64 true
  | _ => .flt a36

/-- A float delivered as a conversion result. -/
def cvtFlt (f : Fields) (wide : Bool) (r : FRes) : LaneOut :=
  match (if f.ftrp then r.cause else none) with
  | some v => .trap v
  | none => .value wide (BitVec.ofNat 64 r.bits)

/-- Every rounding into A36 is to nearest even, whatever mode the instruction names (spec 05 R87; log entry 83). -/
def cvtOut (f : Fields) (s : State) (l : Lane) : LaneOut :=
  let st := f.fn.extractLsb' 0 4
  let dt := f.fn.extractLsb' 4 4
  let rm := f.rm.toNat
  let signed := match cvtType st with | .int _ uns => !uns | .flt _ => false
  let x := srcVal s f (cvtWide st) signed l f.a
  let wide := cvtWide dt
  match cvtType st, cvtType dt with
  | .flt t, .flt d => cvtFlt f wide (roundVal d rm f.ftz (t.read f.ftz x.toNat))
  | .flt t, .int w uns =>
    let r := toInt rm (typeLo w uns) (typeHi w uns) (t.read f.ftz x.toNat)
    if f.ftrp && r.2 then .trap { cause := 0x20 } else .value wide (extendTo w uns (wrapBits w r.1))
  | .int w uns, .flt d => cvtFlt f wide (roundVal d (if dt = 13 then 0 else rm) f.ftz (ofInt (typed w uns x)))
  | .int w uns, .int v vuns =>
    match deliver (typed w uns x) v vuns false f.ftrp with
    | some n => .value wide (extendTo v vuns n)
    | none => .trap { cause := 0x28 }
def cvt (f : Fields) (s : State) : State := laneMap f (cvtOut f) s

/-! Each answers the next state that the definition of its name gives. -/
def execFadd (f : Fields) (s : State) : Host.Outcome State Fault Refusal := .next (fadd f s)
def execFsub (f : Fields) (s : State) : Host.Outcome State Fault Refusal := .next (fsub f s)
def execFmul (f : Fields) (s : State) : Host.Outcome State Fault Refusal := .next (fmul f s)
def execFfma (f : Fields) (s : State) : Host.Outcome State Fault Refusal := .next (ffma f s)
def execFmin (f : Fields) (s : State) : Host.Outcome State Fault Refusal := .next (fmin f s)
def execFmax (f : Fields) (s : State) : Host.Outcome State Fault Refusal := .next (fmax f s)
def execFsetp (f : Fields) (s : State) : Host.Outcome State Fault Refusal := .next (fsetp f s)
def execFclass (f : Fields) (s : State) : Host.Outcome State Fault Refusal := .next (fclass f s)
def execFrint (f : Fields) (s : State) : Host.Outcome State Fault Refusal := .next (frint f s)
def execFscale (f : Fields) (s : State) : Host.Outcome State Fault Refusal := .next (fscale f s)
def execHadd2 (f : Fields) (s : State) : Host.Outcome State Fault Refusal := .next (hadd2 f s)
def execHfma2 (f : Fields) (s : State) : Host.Outcome State Fault Refusal := .next (hfma2 f s)
def execCvt (f : Fields) (s : State) : Host.Outcome State Fault Refusal := .next (cvt f s)
end Sys2Proof.Machine
end

