-- ==== Sys2Proof/Machine/Sfn.lean ====
section
/-!
DEFINITION. Sfn.lean: OP 0x2D, the correctly rounded special functions (spec 06 R115). RCP, RSQ and SQRT are exact
quotients and roots with a sticky bit; the others are fixed-point series of 320 fraction bits (log entry 13).
-/
namespace Sys2Proof.Machine

/-- The largest r with r·r ≤ n, bit by bit from bit k − 1. -/
def isqrtGo (n : Nat) : Nat → Nat → Nat
  | 0, r => r
  | k + 1, r => isqrtGo n k (if (r + 2 ^ k) * (r + 2 ^ k) ≤ n then r + 2 ^ k else r)
def isqrt (n : Nat) : Nat := isqrtGo n (Nat.log2 n / 2 + 1) 0

/-- A quotient or root q with a sticky bit below it, in units of 2^e. -/
def stickyVal (neg : Bool) (q : Nat) (exact : Bool) (e : Int) : FVal := .fin neg (2 * q + (!exact).toNat) (e - 1)

def rcpVal (neg : Bool) (m : Nat) (e : Int) : FVal :=
  let k := 64 + Nat.log2 m
  stickyVal neg (2 ^ k / m) (2 ^ k % m == 0) (-e - (k : Int))
/-- m · 2^e with an even exponent. -/
def evenExp (m : Nat) (e : Int) : Nat × Int := if e % 2 = 0 then (m, e) else (2 * m, e - 1)
def sqrtVal (m : Nat) (e : Int) : FVal :=
  let p := evenExp m e
  let n := p.1 * 2 ^ 80
  stickyVal false (isqrt n) (isqrt n * isqrt n == n) (p.2 / 2 - 40)
def rsqVal (m : Nat) (e : Int) : FVal :=
  let p := evenExp m e
  let k := 60 + Nat.log2 p.1
  let q := isqrt (2 ^ (2 * k) / p.1)
  stickyVal false q (q * q * p.1 == 2 ^ (2 * k)) (-(p.2 / 2) - (k : Int))

/-! ## Fixed point with 320 fraction bits -/

def fixBits : Nat := 320
def fixOne : Nat := 2 ^ fixBits
def fixMul (a b : Nat) : Nat := a * b / fixOne
/-- Σ x^(2k+1)/(2k+1) with x = 1/n, alternating or not, n terms. -/
def invSeries (alt : Bool) (n : Nat) : Nat → Nat → Nat → Int
  | 0, _, _ => 0
  | fuel + 1, k, p =>
    let term : Int := ((p / (2 * k + 1) : Nat) : Int)
    (if alt && k % 2 == 1 then -term else term) + invSeries alt n fuel (k + 1) (p / (n * n))
/-- π and ln 2. -/
def fixPi : Nat := (16 * invSeries true 5 80 0 (fixOne / 5) - 4 * invSeries true 239 30 0 (fixOne / 239)).toNat
def fixLn2 : Nat := (2 * invSeries false 3 110 0 (fixOne / 3)).toNat
/-- Σ y^k/k! for y below 1. -/
def expSeries (y : Nat) : Nat → Nat → Nat → Nat
  | 0, _, _ => 0
  | fuel + 1, k, p => p + expSeries y fuel (k + 1) (fixMul p y / (k + 1))
def fixExp (y : Nat) : Nat := expSeries y 80 0 fixOne
/-- Σ (−1)^k y^(2k+1)/(2k+1)!. -/
def sinSeries (y2 : Nat) : Nat → Nat → Nat → Int
  | 0, _, _ => 0
  | fuel + 1, k, p => (p : Int) - sinSeries y2 fuel (k + 1) (fixMul p y2 / ((2 * k + 2) * (2 * k + 3)))
def fixSin (y : Nat) : Nat := (sinSeries (fixMul y y) 50 0 y).toNat
/-- Σ t^(2k+1)/(2k+1). -/
def atanhSeries (t2 : Nat) : Nat → Nat → Nat → Nat
  | 0, _, _ => 0
  | fuel + 1, k, p => p / (2 * k + 1) + atanhSeries t2 fuel (k + 1) (fixMul p t2)
/-- log2 of x, 1 ≤ x < 2. -/
def fixLog2 (x : Nat) : Nat :=
  let t := (x - fixOne) * fixOne / (x + fixOne)
  2 * atanhSeries (fixMul t t) 110 0 t * fixOne / fixLn2

/-- An inexact fixed-point value: strictly between q and q + 1 units. -/
def fixVal (neg : Bool) (q : Nat) (e : Int) : FVal := stickyVal neg q false (e - (fixBits : Int))

/-- m · 2^e in fixed point, by its integer part and its fraction. -/
def splitFix (m : Nat) (e : Int) : Nat × Nat :=
  if e ≥ 0 then (m * 2 ^ e.toNat, 0)
  else
    let k := (-e).toNat
    (m / 2 ^ k, if k ≤ fixBits then m % 2 ^ k * 2 ^ (fixBits - k) else m % 2 ^ k / 2 ^ (k - fixBits))

def exp2Val (neg : Bool) (m : Nat) (e : Int) : FVal :=
  let p := splitFix m e
  if p.2 = 0 then .fin false 1 (if neg then -(p.1 : Int) else (p.1 : Int))
  else
    let n : Int := if neg then -(p.1 : Int) - 1 else (p.1 : Int)
    let r := if neg then fixOne - p.2 else p.2
    fixVal false (fixExp (fixMul r fixLn2)) n

def log2Val (m : Nat) (e : Int) : FVal :=
  let k := Nat.log2 m
  let n : Int := (k : Int) + e
  if m = 2 ^ k then .fin (decide (n < 0)) n.natAbs 0
  else
    let x : Int := n * (fixOne : Int) + (fixLog2 (m * 2 ^ fixBits / 2 ^ k) : Int)
    if x < 0 then fixVal true (x.natAbs - 1) 0 else fixVal false x.toNat 0

/-- sin(πu) for u in units of 2^-320, 0 < u < 1, u ≠ 1/2. -/
def sinPiFix (u : Nat) : Nat :=
  let h := fixOne / 2
  let v := if u ≤ h then u else fixOne - u
  min (fixSin (fixMul v fixPi)) (fixOne - 1)

def sinpiVal (neg : Bool) (m : Nat) (e : Int) : FVal :=
  let p := splitFix m e
  let odd := p.1 % 2 == 1
  if p.2 = 0 then .fin neg 0 0
  else if p.2 = fixOne / 2 then .fin (neg != odd) 1 0
  else fixVal (neg != odd) (sinPiFix p.2) 0
def cospiVal (m : Nat) (e : Int) : FVal :=
  let p := splitFix m e
  let odd := p.1 % 2 == 1
  let h := fixOne / 2
  if p.2 = 0 then .fin odd 1 0
  else if p.2 = h then .fin false 0 0
  else if p.2 < h then fixVal odd (sinPiFix (h - p.2)) 0
  else fixVal (!odd) (sinPiFix (p.2 - h)) 0

/-- (E − 1)/(E + 1) with E = e^(2a). -/
def tanhVal (neg : Bool) (m : Nat) (e : Int) : FVal :=
  if (Nat.log2 m : Int) + e ≥ 6 then fixVal neg (fixOne - 1) 0
  else
    let p := splitFix (2 * m) e
    let y := (p.1 * fixOne + p.2) * fixOne / fixLn2
    let big := fixExp (fixMul (y % fixOne) fixLn2) * 2 ^ (y / fixOne)
    fixVal neg (min ((big - fixOne) * fixOne / (big + fixOne)) (fixOne - 1)) 0

/-- f(a) with its exceptions, before rounding (spec 06 R115). -/
def sfnVal (fn : Nat) (v : FVal) : FVal × Bool :=
  match v with
  | .nan sig => (.nan sig, false)
  | .inf neg =>
    (match fn with
     | 0 => .fin neg 0 0
     | 1 => if neg then .nan true else .fin false 0 0
     | 2 => if neg then .nan true else .inf false
     | 3 => if neg then .fin false 0 0 else .inf false
     | 4 => if neg then .nan true else .inf false
     | 5 => .nan true
     | 6 => .nan true
     | _ => .fin neg 1 0, false)
  | .fin neg m e =>
    if m = 0 then
      match fn with
      | 0 => (.inf neg, true)
      | 1 => (.inf neg, true)
      | 2 => (.fin neg 0 0, false)
      | 3 => (.fin false 1 0, false)
      | 4 => (.inf true, true)
      | 5 => (.fin neg 0 0, false)
      | 6 => (.fin false 1 0, false)
      | _ => (.fin neg 0 0, false)
    else
      (match fn with
       | 0 => rcpVal neg m e
       | 1 => if neg then .nan true else rsqVal m e
       | 2 => if neg then .nan true else sqrtVal m e
       | 3 => exp2Val neg m e
       | 4 => if neg then .nan true else log2Val m e
       | 5 => sinpiVal neg m e
       | 6 => cospiVal m e
       | _ => tanhVal neg m e, false)

/-- SFN of an f32 pattern. -/
def sfnRes (fn : Nat) (ftz : Bool) (a : Nat) : FRes :=
  let p := sfnVal fn (fp32.read ftz a)
  { roundVal fp32 0 ftz p.1 with dz := p.2 }

def sfn (f : Fields) (s : State) : State := laneMap f (fun s l => fdeliver f (sfnRes f.fn.toNat f.ftz (fsrc s f l f.a))) s

/-! Each answers the next state that the definition of its name gives. -/
def execSfn (f : Fields) (s : State) : Host.Outcome State Fault Refusal := .next (sfn f s)
end Sys2Proof.Machine
end

