-- ==== Sys2Proof/Machine/LaneOps.lean ====
section
/-!
DEFINITION. LaneOps.lean: OP 0x45 to 0x4B, wave-local, index, sparse and spatial instructions (spec 07 R125 to R134).
-/
namespace Sys2Proof.Machine

/-! ## The wave itself (spec 07 R125 to R127) -/

/-- The remap entry of a physical lane. -/
def remapEntry (s : State) (w : Wave) (lane : Nat) : Word :=
  match w.lanes.getD lane none with
  | some t => BitVec.ofNat 32 ((s.thread t).hwave * 32 + (s.thread t).hlane)
  | none => 0x80000000
/-- The physical lane of the thread of a home wave at a home lane. -/
def physLane (s : State) (w : Wave) (hw h : Nat) : Word :=
  match (s.present w).find? fun l => l.th.hwave == hw && l.th.hlane == h with
  | some l => BitVec.ofNat 32 l.lane
  | none => 0xFFFFFFFF
def hlaneOut (f : Fields) (s : State) (l : Lane) : LaneOut :=
  let w := s.wave s.curWave
  let a := (src32 s f l f.a).toNat % 32
  val32 (if f.mod.getLsbD 0 then physLane s w l.th.hwave a else remapEntry s w a)
def hlane (f : Fields) (s : State) : State := laneMap f (hlaneOut f) s
def exmrd (f : Fields) (s : State) : State := laneMap f (fun s _ => val32 (s.wave s.curWave).exm) s

/-- The occupied lanes of a wave. -/
def presentMask (s : State) (w : Wave) : Word := laneMaskOf (s.present w)
where laneMaskOf (ls : List Lane) : Word := ls.foldl (fun m l => m ||| (1#32 <<< l.lane)) 0

/-- The latches of a thread read as zero to its next run (spec 03 R49). -/
def loseLatches (t : Thread) : Thread := { t with q := Vector.replicate 8 0, restoreQ := false }
/-- A thread's run ends: its latches are lost, but for those that ERET.E restored to the run that follows. A thread that a
privileged trap has stopped loses these too (spec 02 R31, 03 R49, 21 R409). -/
def dropLatches (t : Thread) : Thread :=
  if t.restoreQ && !t.stopped then t else loseLatches t
/-- A dissolved wave: its threads stand alone (spec 02 R27). -/
def dissolve (w : Nat) (s : State) : State :=
  (s.modThreads ((s.present (s.wave w)).map Lane.id) dropLatches).delWave w

/-- exm written from the executing thread in the lowest lane; released threads stand where the executing ones do, and a
write that would hold every thread dissolves the wave (spec 02 R30, 07 R126, R127). -/
def writeExm (f : Fields) (g : Word → Word → Word) (s : State) : State :=
  let w := s.wave s.curWave
  match s.execLanes f with
  | [] => advance s
  | l :: _ =>
    let m := g w.exm (src32 s f l f.a) &&& presentMask s w
    let s1 := advance s
    let freed := (s.present w).filter fun x => m.getLsbD x.lane && !w.exm.getLsbD x.lane
    let s2 := s1.modThreads (freed.map Lane.id) fun t => { t with pc := succPc w.pc }
    if m = 0 then dissolve s.curWave s2 else s2.modWave s.curWave fun x => { x with exm := m }
def exmwr (f : Fields) (s : State) : State := writeExm f (fun _ v => v) s
def exmand (f : Fields) (s : State) : State := writeExm f (fun e v => e &&& v) s
def exmor (f : Fields) (s : State) : State := writeExm f (fun e v => e ||| v) s

/-! ## Tensor indices (spec 07 R128 to R130) -/

/-- The extents of a shape entry as a grid sees them: all 1 without a SHAPE section. -/
def shapeEntry (s : State) (l : Lane) (e : Nat) : Vector Word 4 :=
  if (s.gridOf l.th).shapeSec.isSome then
    (match (s.core (s.coreOf l.th)).shapes with
     | some t => Tab.get t.2 e (Vector.replicate 4 1)
     | none => Vector.replicate 4 1)
  else Vector.replicate 4 1
def extentOk (n : Word) : Bool := decide (1 ≤ n.toNat ∧ n.toNat < 2 ^ 31)
def tidxWord (ns : Vector Word 4) (k : Nat) (i : Word) : Word :=
  let xs := ns.toList.take (k + 1)
  if i.toNat ≥ 2 ^ 31 ∨ !xs.all extentOk then 0xFFFFFFFF
  else
    let p := (xs.take k).foldl (fun acc n => acc * n.toNat) 1
    BitVec.ofNat 32 (i.toNat / p % (xs.getD k 1).toNat)
def tidx (f : Fields) (s : State) : State :=
  laneMap f (fun s l =>
    val32 (tidxWord (shapeEntry s l (f.mod.extractLsb' 2 4).toNat) (f.mod.extractLsb' 0 2).toNat (src32 s f l f.a))) s
/-- The extent comes from the executing thread of lowest t.hidx (spec 07 R129). -/
def shpset (f : Fields) (s : State) : State :=
  let s1 := advance s
  match byHidx (s.execLanes f) with
  | [] => s1
  | l :: _ =>
    let e := (f.mod.extractLsb' 2 4).toNat
    s1.modCore (s.coreOf l.th) fun c =>
      { c with shapes := c.shapes.map fun t =>
          (t.1, Tab.put t.2 e ((Tab.get t.2 e (Vector.replicate 4 1)).setIfInBounds (f.mod.extractLsb' 0 2).toNat (src32 s f l f.a))) }

/-! ## Sparse intersection (spec 07 R131) -/

/-- Ones of a word below position p. -/
def popBelow (x : Word) (p : Nat) : Nat := ((List.range p).filter fun i => x.getLsbD i).length
/-- The position of the k-th one of a list of positions. -/
def isectWord (a b k : Word) : Word :=
  let m := a &&& b
  let ps := (List.range 32).filter fun i => m.getLsbD i
  match ps[k.toNat]? with
  | none => BitVec.ofNat 32 (2 ^ 31 + ps.length % 64 * 2 ^ 24)
  | some p => BitVec.ofNat 32 (ps.length * 2 ^ 24 + popBelow b p * 2 ^ 16 + popBelow a p * 2 ^ 8 + p)
def isect (f : Fields) (s : State) : State :=
  laneMap f (fun s l => val32 (isectWord (src32 s f l f.a) (src32 s f l f.b) (src32 s f l f.c))) s

/-! ## Spatial (spec 07 R132 to R134) -/

/-- A register or constant quad. -/
def quadVal (s : State) (f : Fields) (l : Lane) (o : Opnd) : List Word :=
  match o with
  | .reg n => l.th.regs n.toNat 4
  | .const => ((s.gridOf l.th).consts.toList.drop (f.imm.extractLsb' 0 6).toNat).take 4
  | _ => []
def w32 (r : FRes) : Word := BitVec.ofNat 32 r.bits
def mulNE (a b : Word) : Word := w32 (fMul fp32 0 false a.toNat b.toNat)
def subNE (a b : Word) : Word := w32 (fSub fp32 0 false a.toNat b.toNat)
def fmaNE (a b c : Word) : Word := w32 (fFma fp32 0 false a.toNat b.toNat c.toNat)
def negW (a : Word) : Word := a ^^^ 0x80000000
def deskewWords (p m : List Word) : List Word :=
  let x := p.getD 0 0
  let y := p.getD 1 0
  let z := p.getD 2 0
  let t := p.getD 3 0
  let h := mulNE (m.getD 3 0) t
  let sn := w32 (sfnRes 5 false h.toNat)
  let cs := w32 (sfnRes 6 false h.toNat)
  let x2 := fmaNE (negW sn) y (mulNE cs x)
  let y2 := fmaNE cs y (mulNE sn x)
  [fmaNE (m.getD 0 0) t x2, fmaNE (m.getD 1 0) t y2, fmaNE (m.getD 2 0) t z]
def deskew (f : Fields) (s : State) : State :=
  laneMap f (fun s l => .many (deskewWords (quadVal s f l f.a) (quadVal s f l f.b))) s

/-- floor of a non-negative finite value; none for NaN, a value below zero or an infinity (which lies out of range). -/
def floorPos (x : Word) : Option Nat :=
  match fp32.read false x.toNat with
  | .fin neg m e => if neg && m != 0 then none else some (roundInt 1 false m e)
  | _ => none
def pillarWord (xy : Bool) (x y : Word) (q : List Word) : Word :=
  let inv := q.getD 2 0
  let dims := q.getD 3 0
  let nx := (dims.extractLsb' 0 16).toNat
  let ny := (dims.extractLsb' 16 16).toNat
  match floorPos (mulNE (subNE x (q.getD 0 0)) inv), floorPos (mulNE (subNE y (q.getD 1 0)) inv) with
  | some ix, some iy =>
    if ix ≥ nx ∨ iy ≥ ny then 0xFFFFFFFF
    else if xy then BitVec.ofNat 32 (iy * 65536 + ix)
    else BitVec.ofNat 32 (iy * nx + ix)
  | _, _ => 0xFFFFFFFF
def pillar (f : Fields) (s : State) : State :=
  laneMap f (fun s l =>
    let a := srcVal s f true false l f.a
    val32 (pillarWord (f.mod.getLsbD 0) (loW a) (hiW a) (quadVal s f l f.b))) s

/-! Each answers the next state that the definition of its name gives. -/
def execHlane (f : Fields) (s : State) : Host.Outcome State Fault Refusal := .next (hlane f s)
def execExmrd (f : Fields) (s : State) : Host.Outcome State Fault Refusal := .next (exmrd f s)
def execExmwr (f : Fields) (s : State) : Host.Outcome State Fault Refusal := .next (exmwr f s)
def execExmand (f : Fields) (s : State) : Host.Outcome State Fault Refusal := .next (exmand f s)
def execExmor (f : Fields) (s : State) : Host.Outcome State Fault Refusal := .next (exmor f s)
def execTidx (f : Fields) (s : State) : Host.Outcome State Fault Refusal := .next (tidx f s)
def execShpset (f : Fields) (s : State) : Host.Outcome State Fault Refusal := .next (shpset f s)
def execIsect (f : Fields) (s : State) : Host.Outcome State Fault Refusal := .next (isect f s)
def execDeskew (f : Fields) (s : State) : Host.Outcome State Fault Refusal := .next (deskew f s)
def execPillar (f : Fields) (s : State) : Host.Outcome State Fault Refusal := .next (pillar f s)
end Sys2Proof.Machine
end

