-- ==== Sys2Proof/Machine/Work.lean ====
section
/-!
DEFINITION. Work.lean: lineages and cancellation, retirement, futures, acceptance of launch records, emission of tasks
and the drain of a grid (spec 02 R18 to R23, 15 R301 to R303, 16 R320 to R334, 21 R406).
-/
namespace Sys2Proof.Machine

/-! ## Writes of the device in a context -/

/-- The device as an agent in a context: no core's TLB serves it. -/
def devWho (x : Nat) : Who := ⟨Config.numCores, x, true⟩
/-- A device write that is logged and lost when a check fails (spec 16 R323). -/
def devPut (x va : Nat) (bs : List Byte) (s : State) : State :=
  match vaWrite (devWho x) { w := true } va bs s with
  | .ok s1 => s1
  | .error e => s.logDev e.1 (BitVec.ofNat 8 x) (unitOf 3 0) (BitVec.ofNat 64 e.2) 0
/-- Bytes the device reads in a context. -/
def devGet (x va n : Nat) (s : State) : Except (Byte × Nat) (List Byte) × State := vaRead (devWho x) { r := true } va n s
def leAt (bs : List Byte) (off n : Nat) : Nat := leNat ((bs.drop off).take n)

/-! ## Futures (spec 16 R323, R324) -/

/-- Status word of a future. -/
def futStatus (st : Nat) (cause : Byte) : Nat :=
  st + (if cause == 0x88 && st != 3 then 16 else 0) + (if st == 1 then 0 else cause.toNat * 256)
/-- The release at system scope that a status word is: every core's dirty SWM bytes are written back (spec 10 R209). -/
def releaseAll (s : State) : State := (s.cores.map (·.1)).foldl (fun s c => releaseSide c 5 s) s
/-- The device makes a future non-pending: the value first, the status word last. -/
def writeFuture (x : Nat) (fut : DWord) (status value : Nat) (s : State) : State :=
  devPut x fut.toNat (natLe 8 status) (devPut x (fut.toNat + 8) (natLe 8 value) (releaseAll s))
/-- The completion future of a launch record, when it names one (spec 02 R18). -/
def writeCompletion (x : Nat) (fut : DWord) (status value : Nat) (s : State) : State :=
  if fut = 0 then s else writeFuture x fut status value s
/-- Remote writes that a grid or a spawn group still waits for: its future carries them (spec 10 R209). -/
def remoteLeft (s : State) (of : Outst → Bool) : Bool := s.fabric.flows.any fun e => e.2.outst.any fun o => of o && o.pkt.typ != 0
/-- A spawn group without members left, and without remote writes, ends. -/
def endGroup (k : Nat) (s : State) : State :=
  match Tab.find s.work.groups k with
  | none => s
  | some g =>
    if g.left ≠ 0 || remoteLeft s (fun o => o.group == some k) then s
    else
      let s1 := s.modWork fun w => { w with groups := Tab.del w.groups k }
      (match g.cause with
       | none => writeFuture g.ctx g.fut (futStatus 1 0) g.exits s1
       | some c => writeFuture g.ctx g.fut (futStatus 2 c) g.exits s1)
/-- Every spawn group that waited for its remote writes alone. -/
def endGroups (s : State) : State := (s.work.groups.filter fun e => e.2.left == 0).foldl (fun s e => endGroup e.1 s) s

/-- A member of a spawn group retires or is dropped. -/
def leaveGroup (k : Nat) (n exits : Nat) (cause : Option Byte) (s : State) : State :=
  match Tab.find s.work.groups k with
  | none => s
  | some g =>
    let g1 := { g with left := g.left - n, exits := g.exits + exits, cause := g.cause.orElse fun _ => cause }
    endGroup k (s.modWork fun w => { w with groups := Tab.put w.groups k g1 })
def leaveGroup? (k : Option Nat) (n exits : Nat) (cause : Option Byte) (s : State) : State :=
  match k with
  | some g => leaveGroup g n exits cause s
  | none => s

/-! ## Bind records (spec 15 R306, R307) -/

def Bind.valid (b : Bind) : Bool := b.ctl.getLsbD 0
def Bind.ctx (b : Bind) : Nat := (b.ctl.extractLsb' 1 6).toNat
def Bind.part (b : Bind) : Nat := (b.ctl.extractLsb' 7 2).toNat
def Bind.lo (b : Bind) : Nat := (b.ctl.extractLsb' 9 4).toNat
def Bind.hi (b : Bind) : Nat := (b.ctl.extractLsb' 13 4).toNat
def Bind.quads (b : Bind) : BitVec 4 := b.ctl.extractLsb' 17 4
def Bind.firstQ (b : Bind) : Nat := (b.queues.extractLsb' 0 12).toNat
def Bind.numQ (b : Bind) : Nat := (b.queues.extractLsb' 12 12).toNat + 1
def Bind.firstS (b : Bind) : Nat := (b.slots.extractLsb' 0 5).toNat
def Bind.numS (b : Bind) : Nat := (b.slots.extractLsb' 5 6).toNat
def Bind.teams (b : Bind) : Nat := (b.slots.extractLsb' 11 6).toNat
/-- A record covers a grid's context, queue and class. -/
def Bind.covers (b : Bind) (g : Grid) : Bool :=
  b.valid && b.ctx == g.ctx && decide (b.firstQ ≤ g.queue) && decide (g.queue < b.firstQ + b.numQ) &&
    decide (b.lo ≤ g.cls) && decide (g.cls ≤ b.hi)
/-- The covering records of a core, by entry. -/
def recordsOf (s : State) (c : Nat) (g : Grid) : List (Nat × Bind) := (s.core c).binds.filter fun e => e.2.covers g
def eligible (s : State) (g : Grid) (c : Nat) : Bool :=
  if g.redundant then c % 2 == 0 && !(recordsOf s c g).isEmpty && !(recordsOf s (c + 1) g).isEmpty
  else !(recordsOf s c g).isEmpty

/-- A moved task on its way to a core (spec 15 R311). -/
def Task.moving (t : Task) (clock : Nat) : Bool := match t.transit with | some x => decide (clock < x) | none => false

/-! ## Pre-empted teams as tasks (spec 15 R301, R318, 11 R236) -/

def tasksOn (s : State) (c : Nat) : Nat := (s.work.tasks.filter fun e => e.2.core == c).length
def addTask (t : Task) (s : State) : State :=
  s.modWork fun w => { w with tasks := Tab.put w.tasks w.nextTask t, nextTask := w.nextTask + 1 }
/-- A vacate reserves the core (spec 15 R317). -/
def reserved (s : State) (c : Nat) : Bool :=
  (s.core c).holdUntil.isSome || ((s.cluster (c / 8)).vacBusy && (s.cluster (c / 8)).vacCores.getLsbD (c % 8))
/-- A team keeps off a hot core: a redundant pair off both cores of it (spec 15 R316). -/
def Team.shuns (t : Team) (now c : Nat) : Bool :=
  match t.avoid with
  | some (h, till) => decide (now < till) && (match t.role with | .single => h == c | _ => h / 2 == c / 2)
  | none => false
/-- The core on whose list a pre-empted gang re-enters: an eligible one outside reservations and heat, else its own. -/
def reentryCore (s : State) (tm : Team) (c : Nat) : Nat :=
  let ok := fun (k : Nat) =>
    eligible s (s.grid tm.grid) k && !reserved s k && !tm.shuns s.dtime k && decide (tasksOn s k < Config.taskListMax)
  (((List.range 128).map fun i => (c + i) % 128).find? ok).getD c
/-- The saved teams of a gang queued again with their stamp. -/
def requeue (team : Nat) (ms : List Nat) (s : State) : State :=
  let tm := s.team team
  let g := s.grid tm.grid
  let units := ms.filter fun t => match (s.team t).role with | .secondary _ => false | _ => true
  let s1 := ms.foldl (fun s t => s.modTeam t fun x => { x with swap := false }) s
  addTask { kind := .restore units, grid := tm.grid, core := reentryCore s tm (tm.left.getD 0), stamp := tm.stamp, queue := g.queue
            cls := g.cls, lineage := tm.lineage, pinned := true, queued := s.clock } s1
/-- A wait of a swapped-out team has ended: the team and its gang become runnable (spec 11 R236). -/
def wakeTeam (team : Nat) (s : State) : State :=
  let tm := s.team team
  if tm.swap && tm.core.isNone then
    requeue team ((s.work.teams.filter fun e =>
      e.2.grid == tm.grid && e.2.gang == tm.gang && e.2.child == tm.child && e.2.core.isNone && e.2.swap).map (·.1)) s
  else s

/-! ## Leaving a wait, a wave, a team -/

/-- A condition monitor without a waiter is released (spec 11 R236). -/
def releaseMonitor (m : Nat) (s : State) : State :=
  if s.work.threads.any fun e => e.2.park == some (.monitor m) then s
  else s.modHome fun h => { h with monitors := Tab.del h.monitors m }
/-- A thread waits for a condition that it may read again at any time (spec 11 R235, R236). -/
def rereads (t : Thread) : Bool :=
  match t.park with
  | some (.monitor _) => true
  | some (.poll _) => true
  | _ => false
/-- A parked thread leaves its wait: its arrival is withdrawn, its monitor released, and those that were to complete with it wait
for it no more. -/
def leaveWait (t : Nat) (s : State) : State :=
  let old := s.thread t
  let s1 := s.modThread t fun x =>
    { x with park := none, arrival := none, asks := [], awaits := none, reply := none, batch := none, pages := [] }
  let s2 := match old.batch with | some b => settleBatch b s1 | none => s1
  match old.park with
  | some (.monitor m) => releaseMonitor m s2
  | _ => s2
/-- A thread leaves the wave that holds it; a wave with only held threads dissolves (spec 02 R30). -/
def leaveWave (t : Nat) (s : State) : State :=
  (s.work.waves.filter fun e => e.2.lanes.toList.contains (some t)).foldl (fun s e =>
    let w := e.2
    let k := (indexWhere (fun x => x == some t) w.lanes.toList).getD 0
    let w1 := { w with lanes := w.lanes.setIfInBounds k none, exm := w.exm &&& ~~~(1#32 <<< k) }
    if !(w1.lanes.toList.any Option.isSome) then s.delWave e.1
    else if w1.exm = 0 then dissolve e.1 (s.setWave e.1 w1)
    else s.setWave e.1 w1) s

/-! ## What becomes of a wave (spec 02 R27, R30) -/

/-- The wave is pinned: it holds a thread. -/
def Wave.holdsAny (w : Wave) : Bool := w.lanes.toList.zipIdx.any fun e => e.1.isSome && !w.exm.getLsbD e.2
/-- Some lanes of a wave emptied; a wave without executing threads ends, and its held threads with it. -/
def thinWave (k : Nat) (out : List Lane) (s : State) : State :=
  let w := s.wave k
  let lanes := out.foldl (fun (v : Vector (Option Nat) 32) l => v.setIfInBounds l.lane none) w.lanes
  let exm := w.exm &&& ~~~(out.foldl (fun (m : Word) l => m ||| (1#32 <<< l.lane)) 0)
  let s1 := (s.modThreads (out.map Lane.id) dropLatches).setWave k { w with lanes := lanes, exm := exm }
  if exm = 0 then dissolve k s1 else s1
def blocked (t : Thread) : Bool := t.park.isSome || t.stopped
/-- A privileged trap has stopped an executing thread of a pinned wave: the run and its latches are lost (spec 02 R31). -/
def endRun (k : Nat) (s : State) : State :=
  let w := s.wave k
  if (s.active w).any fun l => l.th.stopped then
    (s.modThreads ((s.present w).map Lane.id) dropLatches).setWave k { w with latches := 0, line := none }
  else s
/-- A wave's members as its threads now stand: an unpinned one loses those that wait or stand elsewhere; a pinned one goes on at
the lowest PC of its executing threads, which those elsewhere leave (log entry 16). A PC other than the successor's is a new
entry to a line (spec 03 R40). -/
def tidyWave (k : Nat) (s : State) : State :=
  match s.wave? k with
  | none => s
  | some w =>
    if w.away then s
    else
      let ls := s.active w
      if w.holdsAny then
        match leastBy (fun (l : Lane) => l.th.pc.toNat) ls with
        | none => dissolve k s
        | some low =>
          let pc := low.th.pc
          let line := if pc == w.pc || pc == succPc w.pc then w.line else none
          endRun k (thinWave k (ls.filter fun l => l.th.pc != pc) (s.setWave k { w with pc := pc, line := line }))
      else
        let out := (s.present w).filter fun l => blocked l.th || l.th.pc != w.pc
        if out.isEmpty && !ls.isEmpty then s else thinWave k out s
/-- The waves that hold some threads, as these now stand. -/
def tidyWaves (ts : List Nat) (s : State) : State :=
  ((s.work.waves.filter fun e => ts.any fun t => e.2.lanes.toList.contains (some t)).map (·.1)).foldl (fun s k => tidyWave k s) s

/-! ## Lineages -/

/-- A lineage entry goes when no queued task, live thread or child lineage refers to it (spec 16 R320). -/
def lineageUsed (s : State) (l : DWord) : Bool :=
  (s.work.threads.any fun e => e.2.lineage == l) ||
    (s.work.tasks.any fun e => e.2.lineage == l) ||
    (s.work.grids.any fun e => (e.2.lineage == l && decide (e.2.emitted < e.2.teams)) || e.2.pendChild.any fun c => c.2.2.lineage == l)
def freeLineages (s : State) : State :=
  let keep := s.work.lineages.foldr (fun e (acc : List (Nat × Lineage)) =>
    if lineageUsed s (BitVec.ofNat 64 e.1) || acc.any (fun k => k.2.parent == some (BitVec.ofNat 64 e.1)) then e :: acc else acc) []
  s.modWork fun w => { w with lineages := keep }
/-- A new lineage, while the table has room. -/
def newLineage (x : Nat) (parent : Option DWord) (grid : Option Nat) (s : State) : Option (DWord × State) :=
  if s.work.lineages.length ≥ Config.lineageMax then none
  else
    let n := s.work.nextLineage
    some (BitVec.ofNat 64 n,
      s.modWork fun w => { w with lineages := Tab.put w.lineages n ⟨x, parent, grid, none⟩, nextLineage := n + 1 })

/-- A hoist with no live thread retires: its slots and registers are free. -/
def trimHoists (team : Nat) (s : State) : State :=
  s.modTeam team fun t =>
    { t with hoists := t.hoists.filter fun h =>
        s.work.threads.any fun e => e.2.handlerOf.isNone && e.2.team == team && e.2.hoist == h.index }
/-- Once the last thread of the owning team has retired, the matrix engine drops its queue and program, but for a command in
progress (spec 08 R154). -/
def quietEngine (team : Nat) (s : State) : State :=
  match (s.team team).core with
  | some c =>
    if (s.core c).owner == some team && !(s.work.threads.any fun e => e.2.handlerOf.isNone && e.2.team == team) then
      s.modCore c fun x => { x with group := { x.group with mxe := { x.group.mxe with q := (x.group.mxe.q.take 1).filter (fun m => m.row != 0), prog := none, held := none } } }
    else s
  | none => s
/-- A thread retires (spec 02 R22), by EXIT or otherwise. -/
def retireThread (t : Nat) (byExit : Bool) (s : State) : State :=
  match s.thread? t with
  | none => s
  | some th =>
    let s1 := leaveWave t (leaveWait t s)
    let ord := (s.gridOf th).ordinal th.pc
    let s2 := if th.handlerOf.isSome then s1 else s1.modTeam th.team fun m =>
      { m with
        allExit := m.allExit && (byExit || th.spawned)
        hoists := m.hoists.map fun h => if h.index == th.hoist then { h with exits := Tab.put h.exits th.slot ord } else h }
    let s3 := s2.modWork fun w => { w with threads := Tab.del w.threads t }
    let s4 := leaveGroup? th.group 1 byExit.toNat (if byExit then none else some 0x89) s3
    freeLineages (if th.handlerOf.isSome then s4 else quietEngine th.team (trimHoists th.team s4))

/-! ## Cancellation (spec 16 R321) -/

/-- A thread takes its pending cancellation: it retires, or goes on at the cancel entry, for which its wave divides as at any
other PC (spec 02 R30). -/
def takeCancel (t : Nat) (s : State) : State :=
  match s.thread? t with
  | none => s
  | some th =>
    match th.cancel with
    | none => s
    | some c =>
      let g := s.gridOf th
      let s1 := leaveGroup? (if th.spawned then th.group else (s.team th.team).group) 0 0 (some c) s
      if g.cancelEntry = 0 then retireThread t false s1
      else
        (leaveWait t s1).modThread t fun x =>
          { (x.setReg 0 (c.setWidth 32)).setReg 1 (g.ordinal x.pc) with
            pc := g.cancelEntry, cancel := none, cancelled := true, entryCheck := true, handler := false, trap := {}
            q := Vector.replicate 8 0, savedQ := Vector.replicate 8 0, restoreQ := false, readyAt := 0, resume := none }

/-- A queued task is dropped: its children count as dropped. -/
def dropTask (k : Nat) (cause : Byte) (s : State) : State :=
  match Tab.find s.work.tasks k with
  | none => s
  | some t =>
    let s1 := s.modWork fun w => { w with tasks := Tab.del w.tasks k }
    match t.kind with
    | .teams _ _ => s1
    | .child _ _ c => leaveGroup? c.group 1 0 (some cause) s1
    | .threads _ _ cs => cs.foldl (fun s c => leaveGroup? c.group 1 0 (some cause) s) s1
    | .restore _ => s1
def TaskKind.isRestore : TaskKind → Bool
  | .restore _ => true
  | _ => false

/-! ## The drain of a grid (spec 16 R333, R334) -/

/-- Every team and thread retired, every copy and remote write complete, no task queued. -/
def drained (s : State) (k : Nat) : Bool :=
  let g := s.grid k
  decide (g.emitted ≥ g.teams) && g.pendChild.isEmpty && !(s.work.teams.any fun e => e.2.grid == k) &&
    !(s.work.tasks.any fun e => e.2.grid == k) && !(s.cores.any fun e => e.2.cpe.q.any fun c => c.grid == k) &&
    !remoteLeft s (fun o => o.grid == some k)
/-- The state that the end of a grid is written with. -/
def Grid.endState (g : Grid) : Nat :=
  if g.fail.isSome then 6 else if g.deadlineFired then 5 else if g.cancel.isSome then 4 else 3
/-- The device's fields of a launch record: the cause, 0 in every state but ERROR, then the state (spec 02 R18). -/
def writeStatus (x : Nat) (rcd : DWord) (st : Nat) (cause : Byte) (s : State) : State :=
  devPut x rcd.toNat (natLe 4 st) (devPut x (rcd.toNat + 4) (natLe 4 (if st = 6 then cause.toNat else 0)) s)
def drainGrid (k : Nat) (s : State) : State :=
  match s.grid? k with
  | none => s
  | some g =>
    if !drained s k then s
    else
      let st := g.endState
      let cause := g.fail.getD 0
      let s := releaseAll s
      let r := if g.result = 0 then (0, s)
        else
          let q := devGet g.ctx g.result.toNat 8 s
          let v := match q.1 with | .ok bs => leNat bs | .error _ => 0
          (v, devPut g.ctx (g.result.toNat + 8)
            (natLe 8 v ++ natLe 4 st ++ natLe 4 cause.toNat ++ natLe 8 s.dtime) q.2)
      let s1 := writeStatus g.ctx g.rcd st cause r.2
      let fs := match st with
        | 3 => futStatus 1 0
        | 5 => futStatus 1 0x88
        | 4 => futStatus 2 (g.cancel.getD 0x89)
        | _ => futStatus 3 cause
      let s2 := writeCompletion g.ctx g.future fs r.1 s1
      freeLineages (s2.modWork fun w => { w with grids := Tab.del w.grids k })

/-! ## Cancelling a lineage -/

/-- A lineage and its descendants, in rising id. -/
def under (ls : Tab Lineage) (l : Nat) : List Nat :=
  ls.foldl (fun acc e =>
    if e.1 = l || (match e.2.parent with | some p => acc.contains p.toNat | none => false) then acc ++ [e.1] else acc) []
/-- Threads that take a cancellation at once: parked ones of resident teams (spec 16 R321 item 3). -/
def takesAtOnce (s : State) (t : Thread) : Bool :=
  t.cancel.isSome && t.park.isSome && !t.stopped && t.handlerOf.isNone && (s.team t.team).core.isSome
def cancelLineage (l : Nat) (cause : Byte) (s : State) : State :=
  let fresh := (under s.work.lineages l).filter fun k => (Tab.get s.work.lineages k {}).cancel.isNone
  if fresh.isEmpty || (Tab.get s.work.lineages l {}).cancel.isSome then s
  else
    let hit := fun (x : DWord) => fresh.contains x.toNat
    let s1 := s.modWork fun w =>
      { w with
        lineages := w.lineages.map fun e => if fresh.contains e.1 then (e.1, { e.2 with cancel := some cause }) else e
        threads := w.threads.map fun e =>
          if hit e.2.lineage && e.2.handlerOf.isNone && !e.2.cancelled && e.2.cancel.isNone then (e.1, { e.2 with cancel := some cause })
          else e }
    let gone := (s1.work.tasks.filter fun e => hit e.2.lineage && !e.2.kind.isRestore).map (·.1)
    let s2 := gone.foldl (fun s k => dropTask k cause s) s1
    let s3 := s2.work.grids.foldl (fun s e =>
      let dead := e.2.pendChild.filter fun c => hit c.2.2.lineage
      let root := hit e.2.lineage
      let s' := s.modGrid e.1 fun g =>
        { g with
          pendChild := g.pendChild.filter fun c => !hit c.2.2.lineage
          emitted := if root then g.teams else g.emitted
          cancel := if root then some cause else g.cancel }
      dead.foldl (fun s c => leaveGroup? c.2.2.group 1 0 (some cause) s) s') s2
    let now := (s3.work.threads.filter fun e => takesAtOnce s3 e.2).map (·.1)
    let away := dedup ((s3.work.threads.filter fun e => e.2.cancel.isSome && e.2.handlerOf.isNone).map fun e => e.2.team)
    let s4 := away.foldl (fun s t => wakeTeam t s) (tidyWaves now (now.foldl (fun s t => takeCancel t s) s3))
    let unstarted := (s4.work.grids.filter fun e =>
      e.2.state == 1 && hit e.2.lineage && (Tab.get s4.work.lineages e.2.lineage.toNat {}).parent.isSome).map (·.1)
    freeLineages (unstarted.foldl (fun s k => drainGrid k s) s4)

/-- The root lineage of a grid cancelled; the grid keeps the cause when its lineage entry has already gone. -/
def cancelGrid (k : Nat) (cause : Byte) (s : State) : State :=
  let g := s.grid k
  if g.cancel.isSome then s
  else cancelLineage g.lineage.toNat cause (s.modGrid k fun g => { g with cancel := some cause })
/-- A grid fails with a cause; the first one stands (spec 21 R406). -/
def failGrid (k : Nat) (cause : Byte) (s : State) : State :=
  cancelGrid k 0x89 (s.modGrid k fun g => { g with fail := some (g.fail.getD cause) })

/-! ## Tasks (spec 15 R301, R302) -/

/-- The core a round of emission comes to next. -/
def nextEligible (s : State) (g : Grid) : Option Nat :=
  match (List.range 128).find? fun c => decide (g.nextCore ≤ c) && eligible s g c with
  | some c => some c
  | none => (List.range 128).find? fun c => eligible s g c
/-- One task of a grid emitted, if its next core has room. -/
def emitOne (k : Nat) (s : State) : Option State :=
  let g := s.grid k
  match nextEligible s g with
  | none => none
  | some c =>
    if tasksOn s c ≥ Config.taskListMax then none
    else
      let base : Task :=
        { grid := k, core := c, stamp := g.stamp, queue := g.queue, cls := g.cls, lineage := g.lineage
          pinned := g.gangTeams > 1 || g.redundant || g.stay, queued := s.clock }
      if g.emitted < g.teams then
        some (addTask { base with kind := .teams g.emitted g.gangTeams }
          (s.modGrid k fun g => { g with emitted := g.emitted + g.gangTeams, nextCore := c + 1 }))
      else
        match g.pendChild with
        | [] => none
        | (idx, entry, ch) :: r =>
          some (addTask { base with kind := .child idx entry ch, lineage := ch.lineage, stamp := ch.stamp, pinned := g.redundant || g.stay }
            (s.modGrid k fun g => { g with pendChild := r, nextCore := c + 1 }))
def emitTasks (k : Nat) : Nat → State → State
  | 0, s => s
  | n + 1, s => match emitOne k s with
    | some s1 => emitTasks k n s1
    | none => s
/-- As many tasks of a grid as its cores' lists take. -/
def emitAll (k : Nat) (s : State) : State := emitTasks k (128 * Config.taskListMax) s

/-! ## Launch queues and records (spec 02 R18, R19, 15 R303) -/

def Queue.en (q : Queue) : Bool := q.cfg.getLsbD 31
def Queue.floor (q : Queue) : Nat := (q.cfg.extractLsb' 20 4).toNat
def Queue.ctx (q : Queue) : Nat := (q.cfg.extractLsb' 14 6).toNat
def Queue.log2n (q : Queue) : Nat := (q.cfg.extractLsb' 0 5).toNat

/-- The sections of a code object: kind, offset and size, in directory order. -/
def sections (bs : List Byte) : Nat → List (Nat × Nat × Nat)
  | 0 => []
  | n + 1 => (leAt bs 0 2, leAt bs 8 4, leAt bs 12 4) :: sections (bs.drop 16) n
def safePoints (bs : List Byte) : Nat → List SafePt
  | 0 => []
  | n + 1 => ⟨leAt bs 0 4, BitVec.ofNat 8 (leAt bs 4 1), BitVec.ofNat 64 (leAt bs 8 8)⟩ :: safePoints (bs.drop 16) n
/-- SHAPE records; of two that name one entry the earlier wins, and an index counts modulo 16 (spec 07 R128, log entry 72). -/
def shapeRecords (bs : List Byte) : Nat → Tab (Vector Word 4)
  | 0 => []
  | n + 1 =>
    let e := fun k => BitVec.ofNat 32 (leAt bs (4 + 4 * k) 4)
    (shapeRecords (bs.drop 32) n).put (leAt bs 0 1 % 16) #v[e 0, e 1, e 2, e 3]
def ringRecords (bs : List Byte) : Nat → List (Nat × Nat × Word)
  | 0 => []
  | n + 1 => (leAt bs 0 1, leAt bs 4 4, BitVec.ofNat 32 (leAt bs 8 2 + 65536 * leAt bs 10 1)) :: ringRecords (bs.drop 16) n

/-- What the device takes from a code object. -/
structure CodeObj where
  text  : Nat
  safe  : List SafePt
  shape : Option (Tab (Vector Word 4))
  rings : List (Nat × Nat × Word)
/-- Bytes that a later step of a reading needs; a fault ends it with its cause. -/
def codeRead {α : Type} (x va n : Nat) (s : State) (k : List Byte → State → Except Byte α × State) : Except Byte α × State :=
  let r := devGet x va n s
  match r.1 with
  | .error e => (.error e.1, r.2)
  | .ok bs => k bs r.2
/-- The code object at code_base, well formed under spec 02 R19, or the cause. Of several sections of one kind the first counts
(spec 04 R67, log entry 67). -/
def readCode (x : Nat) (base : Nat) (s : State) : Except Byte CodeObj × State :=
  codeRead x base 32 s fun h s =>
    if leAt h 0 4 ≠ 0x014F594E ∨ leAt h 4 2 ≠ 1 then (.error 0x82, s)
    else
      codeRead x (base + 32) (16 * leAt h 6 2) s fun d s =>
        let secs := sections d (leAt h 6 2)
        let sec := fun k => secs.find? fun e => e.1 == k
        if !(secs.all fun e => decide (1 ≤ e.1 ∧ e.1 ≤ 10)) then (.error 0x82, s)
        else
          match sec 1, sec 3 with
          | some t, some p =>
            if p.2.2 ≠ 16 * leAt h 16 4 then (.error 0x82, s)
            else
              codeRead x (base + p.2.1) p.2.2 s fun sp s =>
                let shp := (sec 4).getD (0, 0, 0)
                codeRead x (base + shp.2.1) shp.2.2 s fun sh s =>
                  let rg := (sec 5).getD (0, 0, 0)
                  codeRead x (base + rg.2.1) rg.2.2 s fun rb s =>
                    (.ok ⟨base + t.2.1, safePoints sp (p.2.2 / 16), (sec 4).map fun e => shapeRecords sh (e.2.2 / 32),
                          ringRecords rb (rg.2.2 / 16)⟩, s)
          | _, _ => (.error 0x82, s)

/-- Field ranges of a record and the limits of spec 02 R19. -/
def recordOk (r : List Byte) : Bool :=
  let teams := leAt r 0x20 4
  let ht := leAt r 0x24 2
  let gang := leAt r 0x27 1
  let regs := leAt r 0x28 1
  let flags := leAt r 0x29 1
  leAt r 0 4 == 0 && decide (1 ≤ teams ∧ teams < 2 ^ 24) && decide (1 ≤ ht ∧ ht ≤ 1024) &&
    decide (1 ≤ leAt r 0x26 1 ∧ leAt r 0x26 1 ≤ 4) && decide (1 ≤ gang ∧ gang ≤ 8) && decide (teams % gang = 0) &&
    [16, 24, 32, 40, 48, 56, 64].contains regs && decide (flags < 4) && decide (leAt r 0x2A 2 ≤ 256) &&
    decide (1 ≤ leAt r 0x2C 1 ∧ leAt r 0x2C 1 ≤ 4) && leAt r 0x2D 3 == 0 && decide (leAt r 0x50 4 < 2 ^ 20) &&
    leAt r 0x58 40 == 0 && decide (ceilDiv ht 32 * regs ≤ 512) && !(flags % 2 == 1 && decide (gang > 4))

/-- What comes of a launch record. -/
inductive Accept where
  | queued
  | rejected
  | noRoom                                     -- the lineage table is full; the record stays WRITTEN
  | fault (cause : Byte) (addr : Nat)          -- the record itself could not be read
deriving DecidableEq, Repr

/-- The launch record at an address read and accepted. `host` names the queue of the host path; LAUNCHG gives the
spawner's lineage. The SAFEPT entries are read here, once (spec 04 R68, log entry 68). -/
def acceptRecord (x : Nat) (host : Option Nat) (parent : Option DWord) (va : Nat) (s : State) : Accept × State :=
  let q := devGet x va 384 s
  match q.1 with
  | .error e => (.fault e.1 e.2, q.2)
  | .ok r =>
    let s := q.2
    let qn := leAt r 0x50 2
    let lq := s.queue qn
    let a := BitVec.ofNat 64 va
    let fut := BitVec.ofNat 64 (leAt r 0x38 8)
    let reject := fun (c : Byte) (s : State) => (Accept.rejected, writeCompletion x fut (futStatus 3 c) 0 (writeStatus x a 6 c s))
    if !(recordOk r && lq.en && lq.ctx == x && decide (qn < Config.numQueues) && (host.getD qn == qn) && va % 64 == 0) then reject 0x82 s
    else
      let k := readCode x (leAt r 0x10 8) s
      match k.1 with
      | .error c => reject c k.2
      | .ok code =>
        let s := k.2
        let key := s.work.nextGrid
        match newLineage x parent (some key) s with
        | none => (.noRoom, s)
        | some (lin, s) =>
          let gid := (s.ctx x).nextGrid
          let flags := leAt r 0x29 1
          let w := fun off n => BitVec.ofNat 64 (leAt r off n)
          let g : Grid :=
            { ctx := x, rcd := a, entry := w 8 8, codeBase := w 0x10 8, cancelEntry := w 0x18 8, teams := leAt r 0x20 4
              hoistThreads := leAt r 0x24 2, hoists := leAt r 0x26 1, gangTeams := leAt r 0x27 1, regs := leAt r 0x28 1
              redundant := flags % 2 == 1, stay := decide (flags ≥ 2), scratchPages := leAt r 0x2A 2, l1min := leAt r 0x2C 1
              deadline := leAt r 0x30 8, future := fut, result := w 0x40 8, queue := qn
              cls := max (leAt r 0x52 1 % 16) lq.floor, lineage := lin, gridId := gid
              consts := (List.range 64).foldl (fun (v : Vector Word 64) k => v.setIfInBounds k (BitVec.ofNat 32 (leAt r (0x80 + 4 * k) 4)))
                (Vector.replicate 64 0)
              stamp := s.dtime, state := 1, nextCore := gid.toNat % 128, textBase := BitVec.ofNat 64 code.text
              safePts := code.safe, shapeSec := code.shape, ringSec := code.rings
              recording := (s.ctx x).blk.ctl.getLsbD 3, playing := (s.ctx x).blk.ctl.getLsbD 4 }
          let s1 := (s.modWork fun w => { w with nextGrid := key + 1, grids := Tab.put w.grids key g }).modCtx x fun c =>
            { c with
              nextGrid := gid + 1
              blk := { c.blk with recording := c.blk.recording || g.recording } }
          let s2 := devPut x (va + 0x54) (natLe 4 gid.toNat) (devPut x (va + 0x48) (natLe 8 lin.toNat) s1)
          (.queued, emitAll key (writeStatus x a 1 0 s2))

/-- Entries of a launch queue read in order, up to the doorbell (spec 15 R303). -/
def readQueue (n : Nat) : Nat → State → State
  | 0, s => s
  | fuel + 1, s =>
    let q := s.queue n
    if q.head = q.tail || !q.en then s
    else
      let step := fun (s : State) => readQueue n fuel (s.modQueue n fun q => { q with head := q.head + 1, waits := false })
      let log := fun (c : Byte) (a : Nat) (s : State) => s.logDev c (BitVec.ofNat 8 q.ctx) (unitOf 4 n) (BitVec.ofNat 64 a) 0
      let at_ := q.base.toNat + 8 * (q.head.toNat % 2 ^ q.log2n)
      let r := devGet q.ctx at_ 8 s
      match r.1 with
      | .error e => step (log e.1 e.2 r.2)
      | .ok bs =>
        let e := leNat bs
        if e ≥ 2 ^ 57 then step (log 0 e r.2)
        else
          let acc := acceptRecord q.ctx (some n) none (canonVa e) r.2
          match acc.1 with
          | .noRoom => acc.2.modQueue n fun q => { q with waits := true }
          | .fault c a => step (writeStatus q.ctx (BitVec.ofNat 64 (canonVa e)) 6 c (log c a acc.2))
          | _ => step acc.2

end Sys2Proof.Machine
end

