-- ==== Sys2Proof/Machine/Debug.lean ====
section
/-!
DEFINITION. Debug.lean: the record ring, wave samples, memory breakdowns and the replay log (spec 20 R389 to R394).
-/
namespace Sys2Proof.Machine

/-! ## Records (spec 20 R389, R390) -/

def Dbg.step (d : Dbg) : Bool := d.ctl.getLsbD 0
def Dbg.smpOn (d : Dbg) : Bool := d.ctl.getLsbD 1
def Dbg.trc (d : Dbg) : Bool := d.ctl.getLsbD 2
def Dbg.rec_ (d : Dbg) : Bool := d.ctl.getLsbD 3
def Dbg.play (d : Dbg) : Bool := d.ctl.getLsbD 4
def Dbg.steam (d : Dbg) : Nat := (d.ctl.extractLsb' 8 24).toNat
/-- The word at offset 0x00 of a record. -/
def recordWord (kind state c quad slot : Nat) : Nat :=
  kind + 256 * state + 2 ^ 16 * (c % 128) + 2 ^ 23 * (quad % 4) + 2 ^ 25 * (slot % 32)
def Dbg.dropOne (d : Dbg) : Dbg := { d with drop := satInc d.drop 1 }
/-- A 32-byte record appended to a debuggable context's ring, or dropped and counted. -/
def putRecord (x : Nat) (bs : List Byte) (s : State) : State :=
  let d := (s.ctx x).blk
  let n := 2 ^ (d.bufn.toNat % 32)
  if !(s.ctx x).dbg then s
  else if (d.head - d.tail).toNat ≥ n then s.modCtx x fun c => { c with blk := c.blk.dropOne }
  else
    match vaWrite (devWho x) { w := true } (d.buf.toNat + 32 * (d.head.toNat % n)) bs s with
    | .ok s1 => s1.modCtx x fun c => { c with blk := { c.blk with head := c.blk.head + 1 } }
    | .error _ => s.modCtx x fun c => { c with blk := c.blk.dropOne }
/-- A record from its word, ordinal and payload. -/
def record (w : Nat) (ord : Word) (time : Nat) (payload : List Byte) : List Byte :=
  natLe 4 w ++ natLe 4 ord.toNat ++ natLe 8 time ++ payload

/-! ## Replay (spec 20 R393, R394) -/

/-- A replay record appended while a recorded grid runs. -/
def replayPut (x : Nat) (w : Nat) (ord : Word) (value key : Nat) (s : State) : State :=
  let d := (s.ctx x).blk
  let stop := fun (s : State) => s.modCtx x fun c => { c with blk := { c.blk with recording := false, nr := true } }
  if !d.recording then s
  else if d.rpos ≥ 2 ^ (d.rlogn.toNat % 32) then stop s
  else
    match vaWrite (devWho x) { w := true } (d.rlog.toNat + 32 * d.rpos) (record w ord s.clock (natLe 8 value ++ natLe 8 key)) s with
    | .ok s1 => s1.modCtx x fun c =>
        { c with blk := { c.blk with rpos := c.blk.rpos + 1, rord := ord, rcyc := BitVec.ofNat 64 s.clock } }
    | .error _ => stop s
/-- Replay is in force for a context. -/
def replaying (s : State) (x : Nat) : Bool := (s.ctx x).blk.play && !(s.ctx x).blk.diverged
/-- The record that replay stands at: kind, value and key; none at the end of the usable log. -/
def replayNext (s : State) (x : Nat) : Option (Nat × Nat × Nat) :=
  let d := (s.ctx x).blk
  if d.rpos ≥ 2 ^ (d.rlogn.toNat % 32) then none
  else
    match (devGet x (d.rlog.toNat + 32 * d.rpos) 32 s).1 with
    | .error _ => none
    | .ok bs =>
      let k := leAt bs 0 1
      if 1 ≤ k ∧ k ≤ 4 then some (k, leAt bs 16 8, leAt bs 24 8) else none
def replayStep (x : Nat) (s : State) : State := s.modCtx x fun c => { c with blk := { c.blk with rpos := c.blk.rpos + 1 } }
def diverge (x : Nat) (s : State) : State := s.modCtx x fun c => { c with blk := { c.blk with diverged := true } }
/-- Whether replay lets an event of a kind happen now; at the end of the log it lets everything happen. -/
def replayAllows (s : State) (x kind value key : Nat) : Bool :=
  if !replaying s x then true
  else match replayNext s x with
    | none => true
    | some r => r == (kind, value, key)
/-- An event that replay ordered has happened. -/
def replayTaken (x : Nat) (s : State) : State :=
  if !replaying s x then s else if (replayNext s x).isNone then diverge x s else replayStep x s

/-- The result of an atomic operation of one thread, recorded or compared; a mismatch traps the thread after its
instruction. -/
def replayAtomic (a : TrapAt) (t : Nat) (value pa : Nat) (s : State) : State :=
  let th := s.thread t
  let x := s.ctxOf th
  let g := s.gridOf th
  let w := recordWord 1 0 (s.coreOf th) (s.quadOf th) th.slot
  let s1 := if g.recording then replayPut x w (g.ordinal a.pc) value pa s else s
  if !(g.playing && replaying s1 x) then s1
  else
    match replayNext s1 x with
    | none => diverge x s1
    | some r =>
      if r == (1, value, pa) then replayStep x s1
      else takePriv (diverge x s1) [t] { a with after := true } { cause := 0x12 }
/-- A condition-monitor wake recorded, or taken from the log. -/
def replayWake (t : Nat) (value pa : Nat) (s : State) : State :=
  let th := s.thread t
  let g := s.gridOf th
  let s1 := if g.recording then replayPut (s.ctxOf th) (recordWord 2 0 (s.coreOf th) (s.quadOf th) th.slot) (g.ordinal th.pc) value pa s else s
  if g.playing then replayTaken (s.ctxOf th) s1 else s1
/-- The key of a dispatch record: the core, and the quadrant and slot of the placement. -/
def placeKey (c quad slot : Nat) : Nat := c + 2 ^ 32 * (32 * quad + slot)

/-! ## Wave samples (spec 20 R391) -/

/-- The hoist of a resident team that owns a slot of a quadrant. -/
def slotOwner (s : State) (c quad slot : Nat) : Option (Nat × Hoist) :=
  s.work.teams.findSome? fun e =>
    if e.2.core == some c then (e.2.hoists.find? fun h => h.quad == quad && h.slots.contains slot).map fun h => (e.1, h) else none
/-- The wave in a slot. -/
def waveAt (s : State) (c quad slot : Nat) : Option (Nat × Wave) :=
  s.work.waves.find? fun e => e.2.core == c && e.2.quad == quad && e.2.slot == slot && !e.2.away
/-- State code, ordinal and exm that a slot is sampled with. -/
def sampleOf (s : State) (c quad slot team : Nat) (h : Hoist) : Nat × Word × Word :=
  let tm := s.team team
  let g := s.grid tm.grid
  match waveAt s c quad slot with
  | some (_, w) =>
    if w.forming.isSome then (4, 0xFFFFFFFF, w.exm)
    else if tm.preempt || ((s.present w).any fun l => l.th.park.isSome) then (1, g.ordinal w.pc, w.exm)
    else
      let atLine := match w.line with | some l => l.1 == lineAddr w.pc | none => false
      (if atLine then 0 else 2, g.ordinal w.pc, w.exm)
  | none =>
    match s.work.threads.find? fun e => e.2.handlerOf.isNone && e.2.team == team && e.2.hoist == h.index && e.2.slot == slot with
    | some e => (if e.2.park.isSome || tm.preempt then 1 else 0, g.ordinal e.2.pc, 0)
    | none => (3, Tab.get h.exits slot 0xFFFFFFFE, 0)
def waveSample (core context : Nat) (s : State) : State :=
  let d := (s.ctx context).blk
  if !((s.ctx context).dbg && d.smpOn && d.smp.extractLsb' 0 24 != 0) then s
  else
    let pos := (s.core core).sampPos
    match (List.range 128).findSome? fun k =>
        let q := (pos + k) % 128
        (slotOwner s core (q / 32) (q % 32)).bind fun o =>
          if (s.grid (s.team o.1).grid).ctx == context then some (q, o) else none with
    | none => s
    | some (q, o) =>
      let v := sampleOf s core (q / 32) (q % 32) o.1 o.2
      putRecord context
        (record (recordWord 1 v.1 core (q / 32) (q % 32)) v.2.1 s.dtime
          (natLe 4 v.2.2.toNat ++ natLe 4 (s.team o.1).index ++ natLe 8 0))
        (s.modCore core fun c => { c with sampPos := (q + 1) % 128 })

/-- The breakdown of a core's sampled request written when the request completes, with total 0 when its instruction trapped (spec 20
R392). -/
def breakdownRecord (core : Nat) (counts : List (BitVec 16)) (s : State) : State :=
  match (s.core core).brk with
  | none => s
  | some (ord, x, quad, slot, bad) =>
    putRecord x (record (recordWord 2 0 core quad slot) ord s.dtime ((List.range 8).flatMap fun k => natLe 2 (if bad && k == 7 then 0 else (counts.getD k 0).toNat)))
      (s.modCore core fun c => { c with brk := none })

/-! Each answers the next state that the definition of its name gives. -/
def execWaveSample (core : Nat) (context : Nat) (s : State) : Host.Outcome State Fault Refusal := .next (waveSample core context s)
def execBreakdownRecord (core : Nat) (counts : List (BitVec 16)) (s : State) : Host.Outcome State Fault Refusal := .next (breakdownRecord core counts s)
end Sys2Proof.Machine
end

