-- ==== Sys2Proof/Machine/Group.lean ====
section
/-!
DEFINITION. Group.lean: the engine group of a core, its rings, its event matrix and credits of barrier objects (spec 08
R143, 12 R239 to R241, R257 to R263).
-/
namespace Sys2Proof.Machine

/-! ## Wave-once instructions (spec 08 R150) -/

/-- The executing thread in the lowest physical lane. -/
def firstLane (f : Fields) (s : State) : Option Lane := (s.execLanes f).head?
/-- An instruction that its wave executes once, with the values of its lowest executing lane; nothing without one. -/
def waveOnce (f : Fields) (act : Lane → State → State) (s : State) : State :=
  match firstLane f s with
  | none => advance s
  | some l => act l s
/-- A result of a wave-once instruction, in D of every executing thread (log entry 14). -/
def putAll (f : Fields) (o : LaneOut) (s : State) : State :=
  s.modThreads ((s.execLanes f).map Lane.id) fun t => writeOut f o t
/-- Advance, with a result in every executing thread. -/
def doneWith (f : Fields) (o : LaneOut) (s : State) : State := putAll f o (advance s)

/-- Threads of a core that wait for its engines reissue (spec 02 R24). -/
def wakeEngine (c : Nat) (s : State) : State :=
  s.modThreads ((s.work.threads.filter fun e => e.2.park == some .engine && s.coreOf e.2 == c).map (·.1)) Thread.unparkHere

/-! ## The group of a core -/

def State.group (s : State) (c : Nat) : Group := (s.core c).group
def State.modGroup (s : State) (c : Nat) (g : Group → Group) : State := s.modCore c fun x => { x with group := g x.group }
def State.mxe (s : State) (c : Nat) : Mxe := (s.group c).mxe
def State.modMxe (s : State) (c : Nat) (g : Mxe → Mxe) : State := s.modGroup c fun x => { x with mxe := g x.mxe }
def State.lcp (s : State) (c : Nat) : Lcp := (s.group c).lcp
def State.modLcp (s : State) (c : Nat) (g : Lcp → Lcp) : State := s.modGroup c fun x => { x with lcp := g x.lcp }
def State.cpe (s : State) (c : Nat) : Cpe := (s.core c).cpe
def State.modCpe (s : State) (c : Nat) (g : Cpe → Cpe) : State := s.modCore c fun x => { x with cpe := g x.cpe }
/-- The core that the current instruction runs on: of its wave, or of its engine. -/
def State.hereCore (s : State) : Nat :=
  match s.cur with
  | .wave w => (s.wave w).core
  | .engine c _ => c
  | .none => 0
/-- The team on whose behalf it runs. -/
def State.hereTeam (s : State) : Nat :=
  match s.cur with
  | .engine c _ => (s.core c).owner.getD 0
  | _ => s.curTeam
/-- Bytes of a team's scratchpad. -/
def scratchSize (s : State) (team : Nat) : Nat := (s.grid (s.team team).grid).scratchPages * 4096

/-! ## The group of a team (spec 12 R239, R256) -/

/-- The engine group that a team owns: on its core, or saved with it. -/
def State.teamGroup (s : State) (team : Nat) : Group :=
  match (s.team team).saved with
  | some g => g
  | none =>
    match (s.team team).core with
    | some c => if (s.core c).owner == some team then s.group c else {}
    | none => {}
def State.modTeamGroup (s : State) (team : Nat) (k : Group → Group) : State :=
  match (s.team team).saved with
  | some g => s.modTeam team fun t => { t with saved := some (k g) }
  | none =>
    match (s.team team).core with
    | some c => if (s.core c).owner == some team then wakeEngine c (s.modGroup c k) else s
    | none => s
/-- The copy program of a team, where its engine group is. -/
def State.teamCpe (s : State) (team : Nat) : Cpe :=
  if (s.team team).saved.isSome then (s.team team).savedCpe
  else match (s.team team).core with
    | some c => if (s.core c).owner == some team then s.cpe c else {}
    | none => {}
def State.modTeamCpe (s : State) (team : Nat) (k : Cpe → Cpe) : State :=
  if (s.team team).saved.isSome then s.modTeam team fun t => { t with savedCpe := k t.savedCpe }
  else match (s.team team).core with
    | some c => if (s.core c).owner == some team then wakeEngine c (s.modCpe c k) else s
    | none => s

/-! ## Rings (spec 12 R257 to R260) -/

def Ring.used (r : Ring) : Bool := !r.resv.isEmpty || !r.taken.isEmpty || decide (r.f > 0)
def Ring.slotAt (r : Ring) (k : Nat) : Nat := r.base + k * r.size
def Ring.pages (r : Ring) : List Nat :=
  let lo := r.base / 4096
  let hi := (r.base + r.size * r.n + 4095) / 4096
  (List.range (hi - lo)).map fun k => lo + k
/-- The next free slot reserved, by RPUT.res or by a copy or tile. -/
def Ring.reserve (r : Ring) (byPut : Bool) : Nat × Ring :=
  (r.wr, { r with resv := r.resv ++ [(r.wr, byPut, false)], wr := (r.wr + 1) % r.n, e := r.e - 1 })
/-- Slots in ring order that are ready are published. -/
def publishFrom : List (Nat × Bool × Bool) → Nat × List (Nat × Bool × Bool)
  | [] => (0, [])
  | x :: r => if x.2.2 then ((publishFrom r).1 + 1, (publishFrom r).2) else (0, x :: r)
def Ring.publish (r : Ring) : Ring := { r with f := r.f + (publishFrom r.resv).1, resv := (publishFrom r.resv).2 }
/-- One reserved slot becomes ready. -/
def Ring.ready (r : Ring) (slot : Nat) : Ring :=
  Ring.publish { r with resv := r.resv.map fun x => if x.1 == slot then (x.1, x.2.1, true) else x }
/-- The slot at the read position becomes taken, or is taken and freed at once. -/
def Ring.take (r : Ring) : Nat × Ring := (r.rd, { r with taken := r.taken ++ [r.rd], rd := (r.rd + 1) % r.n, f := r.f - 1 })
def Ring.release (r : Ring) : Ring := { r with rd := (r.rd + 1) % r.n, f := r.f - 1, e := r.e + 1 }

/-- Pages of a team that its core's rings hold. -/
def ringPages (s : State) (c : Nat) : List Nat := (s.group c).rings.flatMap fun e => e.2.pages
/-- Frames of a core that a pin holds. -/
def pinnedFrames (s : State) (c : Nat) : Nat :=
  ((residents s c).filter fun e => e.2.2.pinned || e.2.2.ringPin).length
/-- Whether more pages of a team can be pinned: 32 frames stay unpinned (spec 09 R173). -/
def pinFits (s : State) (c team : Nat) (pages : List Nat) : Bool :=
  let more := (dedup pages).filter fun p =>
    let x := Tab.get (s.team team).pages p {}
    !(x.pinned || x.ringPin)
  decide (pinnedFrames s c + more.length + 32 ≤ frameCount s c)
/-- Ring pins of a team's pages follow the ring table. -/
def repin (c team : Nat) (s : State) : State :=
  let ps := dedup (ringPages s c)
  s.modTeam team fun t => { t with pages := t.pages.map fun e => (e.1, { e.2 with ringPin := ps.contains e.1 }) }
/-- Something waits for a ring of a team: a copy, a tile, or a parked thread at one of its instructions. -/
def ringAwaited (s : State) (c team n : Nat) : Bool :=
  (s.cores.any fun k => k.2.cpe.q.any fun x =>
      x.team == team && x.form != 7 && x.flags.getLsbD 2 && (x.flags.extractLsb' 3 4).toNat == n) ||
    ((s.group c).bins.any fun b => b.2.ring == n && !b.2.closed.isEmpty) ||
    s.work.threads.any fun e =>
      e.2.park == some .engine && e.2.team == team && e.2.handlerOf.isNone && (opField e.2.word == 0x86 || opField e.2.word == 0x87) &&
        (e.2.word.extractLsb' 0 4).toNat == n
/-- RINIT of one ring; none where it raises ENGINE_CONFIG. -/
def rinitOne (c team n base : Nat) (geo : Word) (s : State) : Option State :=
  let units := (geo.extractLsb' 0 16).toNat
  let slots := (geo.extractLsb' 16 7).toNat
  let busy := match Tab.find (s.group c).rings n with
    | some r => r.used || ringAwaited s c team n
    | none => false
  if busy || geo.extractLsb' 23 9 != 0 then none
  else if geo = 0 then some (repin c team (s.modGroup c fun g => { g with rings := Tab.del g.rings n }))
  else if base % 64 ≠ 0 ∨ units < 1 ∨ units > 1024 ∨ slots < 1 ∨ slots > 64 ∨ base + units * 64 * slots > scratchSize s team then none
  else
    let r : Ring := { base := base, size := units * 64, n := slots, e := slots }
    let s0 := repin c team (s.modGroup c fun g => { g with rings := Tab.del g.rings n })
    if !pinFits s0 c team r.pages then none
    else some (repin c team (s0.modGroup c fun g => { g with rings := Tab.put g.rings n r }))

/-! ## Claim (spec 08 R143, 12 R239, R258) -/

/-- What a claim finds. -/
inductive Claim where
  | owned (s : State)
  | busy
  | bad                                        -- the RING section cannot be initialised
  | pages (ps : List (Nat × Nat))              -- pages that its rings pin are to be refilled first
/-- Rings of the RING section, in ascending record order; none when one of them is refused. -/
def initRings (c team : Nat) : List (Nat × Nat × Word) → State → Option State
  | [], s => some s
  | (n, base, geo) :: r, s =>
    if n ≥ 16 ∨ Tab.has (s.group c).rings n ∨ geo = 0 then none
    else match rinitOne c team n base geo s with
      | none => none
      | some s1 => initRings c team r s1
/-- Pages of a team, of those named, that are not in their frames. -/
def missingPages (s : State) (team : Nat) (ps : List Nat) : List (Nat × Nat) :=
  ((dedup ps).filter fun p => !pageReached s team p).map fun p => (team, p)
def claim (c team : Nat) (s : State) : Claim :=
  match (s.core c).owner with
  | some o => if o == team then .owned s else .busy
  | none =>
    match initRings c team (s.grid (s.team team).grid).ringSec (s.modCore c fun x => { x with owner := some team }) with
    | some s1 =>
      (match missingPages s team (ringPages s1 c) with
       | [] => .owned s1
       | ps => .pages ps)
    | none => .bad
/-- A wave-once instruction on the engine group: it parks while another team holds the group. `act` answers none where the
instruction raises ENGINE_CONFIG; the claim is then undone with it (spec 21 R398). -/
def withGroup (f : Fields) (act : Lane → Nat → State → Option State) (s : State) : State :=
  waveOnce f (fun l s =>
    let c := s.coreOf l.th
    match claim c s.hereTeam s with
    | .busy => waitAll f .engine s
    | .bad => trapAll f { cause := 0x4A } s
    | .pages ps => waitPages f ps s
    | .owned s1 =>
      match act l c s1 with
      | some s2 => s2
      | none => trapAll f { cause := 0x4A } s) s

/-! ## Events (spec 12 R261 to R263) -/

/-- A group after one pulse of a source. -/
def Group.pulsed (src : Nat) (g : Group) : Group :=
  { g with sinks := g.sinks.map fun e =>
      if e.2.mask.getLsbD src then (e.1, if e.2.cnt ≥ 255 then { e.2 with ovf := true } else { e.2 with cnt := e.2.cnt + 1 })
      else e }
/-- One pulse of a source on a core. -/
def pulse (c src : Nat) (s : State) : State := wakeEngine c (s.modGroup c (Group.pulsed src))
def eventPulse (core source : Nat) (s : State) : State := pulse core source s

/-! ## Barrier objects (spec 12 R240, R241) -/

/-- Where an object lies. -/
inductive Loc where
  | scr (team off : Nat)
  | glob (mode pa : Nat)
deriving DecidableEq, Repr
def Loc.read (l : Loc) (n : Nat) (s : State) : List Byte × State :=
  match l with
  | .scr t o => (scratchBytes s t o n, s)
  | .glob _ pa => farRead pa n s
def Loc.write (l : Loc) (bs : List Byte) (s : State) : State :=
  match l with
  | .scr t o => scratchWrite t o bs s
  | .glob m pa => farWrite none m pa bs s
def Loc.poisoned (l : Loc) (s : State) : Bool :=
  match l with
  | .scr t o => backPoisoned s t o
  | .glob _ pa => Machine.poisoned s pa

/-- A barrier object after a credit, and whether its phase was over-credited. -/
def creditBytes (o : List Byte) (bytes : Nat) (failed : Bool) (cause : Byte) : List Byte × Bool :=
  let phase := leAt o 0 4
  let cur := leAt o 4 4
  let expd := leAt o 0x10 8
  let arr := leAt o 0x18 8 + (if failed then 0 else bytes)
  let fl := leAt o 0x20 8 + (if failed then bytes else 0)
  let cur1 := if failed then (cur ||| 256) ||| (if cur % 256 = 0 then cause.toNat else 0) else cur
  if arr + fl ≥ expd then
    let passed := decide (arr + fl > expd)
    (natLe 4 (phase + 1) ++ natLe 4 0 ++ natLe 4 (if passed then cur1 ||| 512 else cur1) ++ natLe 4 0 ++ natLe 8 expd ++
      natLe 8 0 ++ natLe 8 0 ++ o.drop 0x28, passed)
  else
    (natLe 4 phase ++ natLe 4 cur1 ++ (o.drop 8).take 16 ++ natLe 8 arr ++ natLe 8 fl ++ o.drop 0x28, false)
/-- A credit applied to an object; a flip with OVER set is logged (spec 21 R396). -/
def creditAt (x : Nat) (l : Loc) (bytes : Nat) (failed : Bool) (cause : Byte) (s : State) : State :=
  if l.poisoned s then
    s.logDev 0x50 (BitVec.ofNat 8 x) (unitOf 1 0) (match l with | .glob _ pa => BitVec.ofNat 64 pa | .scr _ o => BitVec.ofNat 64 o) 0
  else
    let r := l.read 64 s
    let n := creditBytes r.1 bytes failed cause
    let s1 := l.write n.1 r.2
    if n.2 then
      s1.logDev 0x81 (BitVec.ofNat 8 x) (unitOf 1 0) (match l with | .glob _ pa => BitVec.ofNat 64 pa | .scr _ o => BitVec.ofNat 64 o) 0
    else s1
def barrierCredit (credit : Credit) (s : State) : State :=
  match credit.team with
  | some t =>
    if (s.team? t).isNone then s
    else creditAt (s.grid (s.team t).grid).ctx (.scr t credit.addr) credit.bytes credit.failed credit.cause s
  | none => creditAt 0xFF (.glob 0 credit.addr) credit.bytes credit.failed credit.cause s

/-! Each answers the next state that the definition of its name gives. -/
def execEventPulse (core : Nat) (source : Nat) (s : State) : Host.Outcome State Fault Refusal := .next (eventPulse core source s)
def execBarrierCredit (credit : Credit) (s : State) : Host.Outcome State Fault Refusal := .next (barrierCredit credit s)
end Sys2Proof.Machine
end

