-- ==== Sys2Proof/Machine/Objects.lean ====
section
/-!
DEFINITION. Objects.lean: waiting on condition monitors, the barrier-object, ring and event instructions (OP 0x80 to
0x8C), and faults of the engines (spec 11 R235, R236, 12 R242, R243, R259, R263, R267, 08 R155).
-/
namespace Sys2Proof.Machine

/-! ## Faults of engines (spec 08 R155, 12 R267) -/

def engineSource : Engine → Nat
  | .copy => 1
  | .matrix => 2
  | .lcp => 3
/-- s.einfo of an engine fault: the engine, whether a program's command, where it was issued, OP, FN and a high word. -/
def engineInfo (e : Engine) (prog : Bool) (quad slot : Nat) (op fn : Byte) (hi : Word) : DWord :=
  hi ++ (0#4 ++ (fn ++ (op ++ (BitVec.ofNat 5 slot ++ (BitVec.ofNat 2 quad ++ (BitVec.ofBool prog ++ BitVec.ofNat 4 (engineSource e)))))))
/-- A privileged trap of an engine: no thread stops. -/
def engineTrap (c team : Nat) (e : Engine) (cause : Byte) (eaddr einfo epc : DWord) (quad slot : Nat) (s : State) : State :=
  let g := s.grid (s.team team).grid
  let tr : Trap :=
    { regs := { cause := cause, epc := epc, eaddr := eaddr, einfo := einfo }, source := engineSource e, team := team
      quad := quad, slot := slot, ordinal := g.ordinal epc, lineage := g.lineage, time := s.dtime
      lineSlot := (slotOf epc).getD 0 }
  (s.countTraps c 1).modCore c fun x => { x with traps := x.traps ++ [tr] }
/-- Where the program of an engine stands. -/
def progPc (s : State) (c : Nat) : Engine → Option DWord
  | .copy => (s.cpe c).prog.map (·.1)
  | .matrix => (s.mxe c).prog.map (·.1)
  | .lcp => (s.lcp c).prog.map (·.1)
def setProgPc (c : Nat) (e : Engine) (pc : DWord) (s : State) : State :=
  match e with
  | .copy => s.modCpe c fun x => { x with prog := x.prog.map fun p => (pc, p.2) }
  | .matrix => s.modMxe c fun x => { x with prog := x.prog.map fun p => (pc, p.2) }
  | .lcp => s.modLcp c fun x => { x with prog := x.prog.map fun p => (pc, p.2) }
/-- The program of an engine stops at an instruction with a fault. No wave issued its command: quadrant and wave slot of s.einfo
read 0 (log entry 75). `hi` is the high word of s.einfo, IMM but for a refused copy (log entry 81). -/
def programFaultWith (c : Nat) (e : Engine) (cause : Byte) (addr : DWord) (w : IWord) (hi : Word) (s : State) : State :=
  let epc := (progPc s c e).getD 0
  let info := engineInfo e true 0 0 (opField w) (w.extractLsb' 80 8) hi
  let s1 := match e with
    | .copy => s.modCpe c fun x => { x with halt := some cause, haltCopy := none }
    | .matrix => s.modMxe c fun x => { x with halt := some cause }
    | .lcp => s.modLcp c fun x => { x with halt := some cause }
  engineTrap c ((s.core c).owner.getD 0) e cause addr info epc 0 0 s1
def programFault (c : Nat) (e : Engine) (cause : Byte) (addr : DWord) (w : IWord) (s : State) : State :=
  programFaultWith c e cause addr w (w.extractLsb' 0 32) s
/-- The instruction word that the program of the current engine executes. -/
def engineWord (i : Instr) : IWord := (encode i).getD 0
/-- The program of the current engine goes on at the successor. -/
def engineNext (s : State) : State :=
  match s.cur with
  | .engine c e => match progPc s c e with
    | some pc => setProgPc c e (succPc pc) s
    | none => s
  | _ => s
def State.inEngine (s : State) : Bool := match s.cur with | .engine _ _ => true | _ => false

/-! ## Condition monitors (spec 11 R235, R236) -/

/-- A condition on the value read, of 4 or 8 bytes. -/
def condHolds (cond : BitVec 3) (size m b : Nat) : Bool :=
  let n := 8 * size
  let sm := typed n false (BitVec.ofNat 64 m)
  let sb := typed n false (BitVec.ofNat 64 b)
  match cond.toNat with
  | 0 => m == b
  | 1 => m != b
  | 2 => decide (sm < sb)
  | 3 => decide (sb ≤ sm)
  | 4 => decide (m < b)
  | 5 => decide (b ≤ m)
  | 6 => m &&& b != 0
  | _ => false
/-- Targets that are always polled. -/
def polledTarget (mode pa : Nat) : Bool := mode == 2 || !isLocal pa
/-- A waiter parks on the monitor of its team, word, size and condition, or polls every 1 µs. -/
def parkMonitor (l : Lane) (m : Monitor) (polled : Bool) (s : State) : State :=
  let poll := fun (s : State) => parkLanes [l] (fun _ => .poll (s.dtime + 1000)) s
  if polled then poll s
  else
    match s.home.monitors.find? fun e => e.2 == m with
    | some e => parkLanes [l] (fun _ => .monitor e.1) s
    | none =>
      let slice := s.home.monitors.filter fun e => e.2.scr.isNone && homeSlice e.2.addr == homeSlice m.addr
      if m.scr.isNone && slice.length ≥ 1024 then poll s
      else
        let k := s.home.nextMon
        parkLanes [l] (fun _ => .monitor k) (s.modHome fun h => { h with monitors := Tab.put h.monitors k m, nextMon := k + 1 })
/-- What a monitor reads. -/
def monitorRead (m : Monitor) (s : State) : Nat × State :=
  match m.scr with
  | some t => (scratchNat s t m.addr m.size, s)
  | none =>
    let r := farRead m.addr m.size s
    (leNat r.1, r.2)
/-- A monitor whose condition holds wakes its waiters, which read again; one that does not hold stays. -/
def monitorWake (monitor : Nat) (s : State) : State :=
  match Tab.find s.home.monitors monitor with
  | none => s
  | some m =>
    let r := monitorRead m s
    if !condHolds m.cond m.size r.1 m.val.toNat then r.2
    else
      let ts := (r.2.work.threads.filter fun e => e.2.park == some (.monitor monitor)).map (·.1)
      let s1 := ts.foldl (fun s t => replayWake t r.1 m.addr s) r.2
      let s2 := (s1.modThreads ts Thread.unparkHere).modHome fun h => { h with monitors := Tab.del h.monitors monitor }
      wakeTeam m.team s2
/-- Replay lets a monitor wake its waiters now (spec 20 R394). -/
def wakeAllowed (s : State) (m : Monitor) : Bool :=
  let k := (s.team m.team).grid
  !(s.grid k).playing || replayAllows s (s.grid k).ctx 2 (monitorRead m s).1 m.addr
/-- A polling waiter whose time has come reads again. -/
def monitorPoll (thread : Nat) (s : State) : State :=
  match (s.thread thread).park with
  | some (.poll t) => if t ≤ s.dtime then wakeTeam (s.thread thread).team (s.modThread thread Thread.unparkHere) else s
  | _ => s

/-! ## Instructions on one object for each thread -/

/-- Why an access to a place must wait. -/
def locWait (s : State) (w : Bool) : Loc → Option Park
  | .scr t o => if pageReached s t (o / 4096) then none else some (.refill (o / 4096))
  | .glob _ pa =>
    if w && hostHolds s pa then some (.remote (lineOf pa))
    else none
/-- A use of a scratchpad page, for its order of use. -/
def touchLoc (l : Loc) (s : State) : State := match l with | .scr t o => touchPages t o 1 s | .glob _ _ => s
/-- The pages that some places need. -/
def locPages (s : State) (ps : List Loc) : List (Nat × Nat) :=
  dedup (ps.flatMap fun p => match p with | .scr t o => missingPages s t [o / 4096] | .glob _ _ => [])
/-- The threads of an instruction on some places wait: for every page together, or for what one place waits for. -/
def waitLocs (f : Fields) (k : Park) (ps : List Loc) (s : State) : State :=
  match k with
  | .refill _ => waitPages f (locPages s ps) s
  | _ => waitAll f k (noteSnoop k s)
/-- MEMORY_UNCORRECTABLE for the whole instruction, with the line of the lowest poisoned thread (spec 11 R219). -/
def poisonTrap (f : Fields) (pa : Nat) (s : State) : State := trapAll f { cause := 0x50, eaddr := BitVec.ofNat 64 (lineOf pa) } s
/-- An instruction on one place for each executing thread, in ascending t.hidx: every check first, then every wait, then
the action. -/
def withLocs (f : Fields) (check : State → Lane → Except Byte Loc) (ea : Lane → DWord) (w loads : Bool)
    (act : List (Lane × Loc) → State → State) (s : State) : State :=
  let ls := byHidx (s.execLanes f)
  let p := splitChecks (ls.map fun l => (l, check s l, ea l))
  if !p.1.isEmpty then memTrap f p.1 s
  else
    match p.2.findSome? fun e => locWait s w e.2 with
    | some k => waitLocs f k (p.2.map (·.2)) s
    | none =>
      match if loads then p.2.find? (fun e => e.2.poisoned s) else none with
      | some e => poisonTrap f (match e.2 with | .glob _ pa => pa | .scr _ o => o) s
      | none => act p.2 (p.2.foldl (fun s e => touchLoc e.2 s) s)

/-! ## Barrier objects: OP 0x80 to 0x84 (spec 12 R242, R243) -/

def scopeOf (f : Fields) : BitVec 3 := f.mod.extractLsb' 1 3
def boScratch (f : Fields) : Bool := f.fn.getLsbD 0
def boEa (f : Fields) (l : Lane) : DWord := if boScratch f then (offsetEa f l.th).setWidth 64 else globalEa f l.th
/-- The object of a lane: aligned to 64 bytes, in scratchpad or a COH page (spec 12 R240). -/
def boCheck (f : Fields) (n : Need) (s : State) (l : Lane) : Except Byte Loc :=
  if boScratch f then
    let off := (offsetEa f l.th).toNat
    match checkScratch s l.th.team 64 off with
    | some c => .error c
    | none => .ok (.scr l.th.team off)
  else
    match checkGlobal s (whoOf s l.th) n 64 (globalEa f l.th) with
    | .error c => .error c
    | .ok x => if x.mode == 0 then .ok (.glob x.mode x.pa) else .error 0x41
/-- The wave's context and core. -/
def State.hereCtx (s : State) : Nat := (s.grid (s.team s.hereTeam).grid).ctx
/-- A release side of a thread that has remote writes waits for their acknowledgements. -/
def releaseFirst (f : Fields) (scope : BitVec 3) (k : State → State) (s : State) : State :=
  if (s.execLanes f).any fun l => releaseWaits s l.id scope then waitAll f (.remote Config.paSize) s else k s

/-- 64 bytes of a fresh object. -/
def boFresh (expd : Nat) : List Byte := natLe 8 0 ++ natLe 8 0 ++ natLe 8 expd ++ List.replicate 40 0
def boinit (f : Fields) (s : State) : State :=
  withLocs f (boCheck f { w := true }) (boEa f) true false (fun ps s =>
    let bad := ps.filter fun e => src32 s f e.1 f.b == 0
    let good := ps.filter fun e => src32 s f e.1 f.b != 0
    let here := s.here
    let s1 := good.foldl (fun s e => e.2.write (boFresh (src32 s f e.1 f.b).toNat) s) (advance s)
    takeUsers s1 f here (bad.map fun e => (e.1, { cause := 0x02, field := 7 }))) s
def boarr (f : Fields) (s : State) : State :=
  releaseFirst f (scopeOf f) (fun s =>
    withLocs f (boCheck f { r := true, w := true, rmw := true }) (boEa f) true false (fun ps s =>
      let s0 := releaseSide s.hereCore (scopeOf f) s
      ps.foldl (fun s e => creditAt s.hereCtx e.2 (src32 s f e.1 f.b).toNat false 0 s) (advance s0)) s) s
def botok (f : Fields) (s : State) : State :=
  withLocs f (boCheck f { r := true }) (boEa f) false true (fun ps s =>
    ps.foldl (fun s e =>
      let r := e.2.read 4 s
      r.2.modThread e.1.id fun t => putD32 f.d (BitVec.ofNat 32 (leNat r.1)) t) (advance s)) s
/-- Waiting threads park until the phase leaves the value read. -/
def boMonitor (l : Lane) (p : Loc) (phase : Nat) (s : State) : State :=
  match p with
  | .scr t o => parkMonitor l ⟨l.th.team, some t, o, 4, 1, BitVec.ofNat 64 phase⟩ false s
  | .glob m pa => parkMonitor l ⟨l.th.team, none, pa, 4, 1, BitVec.ofNat 64 phase⟩ (polledTarget m pa) s
/-- Each thread completes where `out` answers from the phase, and otherwise parks. -/
def boWaitOn (f : Fields) (out : Lane → Nat → Option LaneOut) (s : State) : State :=
  withLocs f (boCheck f { r := true }) (boEa f) false true (fun ps s =>
    ps.foldl (fun s e =>
      let r := e.2.read 4 s
      match out e.1 (leNat r.1) with
      | some o => acquireSide s.hereCore s.hereCtx (scopeOf f) (r.2.modThread e.1.id fun t => writeOut f o t)
      | none => boMonitor e.1 e.2 (leNat r.1) r.2) (advance s)) s
def bowait (f : Fields) (s : State) : State :=
  boWaitOn f (fun l phase =>
    let d := (BitVec.ofNat 32 phase - src32 s f l f.b).toNat
    if 1 ≤ d ∧ d < 2 ^ 31 then some (.pred (decide (d ≥ 2))) else none) s
def bowaitp (f : Fields) (s : State) : State :=
  boWaitOn f (fun _ phase => if (phase + 2 ^ 32 - 1) % 2 = (f.fn.getLsbD 1).toNat then some .none else none) s

/-! ## Rings: OP 0x85 to 0x89 (spec 12 R259) -/

def ringOf (f : Fields) : Nat := (f.imm.extractLsb' 0 4).toNat
/-- An instruction on an active ring. -/
def withRing (f : Fields) (act : Nat → Ring → State → Option State) (s : State) : State :=
  withGroup f (fun _ c s => (Tab.find (s.group c).rings (ringOf f)).bind fun r => act c r s) s
def setRing (c n : Nat) (r : Ring) (s : State) : State := wakeEngine c (s.modGroup c fun g => { g with rings := Tab.put g.rings n r })
def rinit (f : Fields) (s : State) : State :=
  withGroup f (fun l c s =>
    (rinitOne c s.hereTeam (ringOf f) (src32 s f l f.a).toNat (src32 s f l f.b) s).map fun s1 =>
      match missingPages s s.hereTeam (ringPages s1 c) with
      | [] => advance s1
      | ps => waitPages f ps s) s
def rget (f : Fields) (s : State) : State :=
  withRing f (fun c r s =>
    some (if r.f = 0 then waitAll f .engine s
      else doneWith f (val32 (BitVec.ofNat 32 (r.slotAt r.take.1))) (setRing c (ringOf f) r.take.2 s))) s
def rputRes (f : Fields) (s : State) : State :=
  withRing f (fun c r s =>
    some (if r.e = 0 then waitAll f .engine s
      else doneWith f (val32 (BitVec.ofNat 32 (r.slotAt (r.reserve true).1))) (setRing c (ringOf f) (r.reserve true).2 s))) s
def rputPub (f : Fields) (s : State) : State :=
  withRing f (fun c r s =>
    (r.resv.find? fun x => x.2.1 && !x.2.2).map fun x => advance (setRing c (ringOf f) (r.ready x.1) s)) s
def rrel (f : Fields) (s : State) : State :=
  withRing f (fun c r s =>
    match r.taken with
    | [] => none
    | _ :: ts => some (advance (setRing c (ringOf f) { r with taken := ts, e := r.e + 1 } s))) s
/-- The status word of a ring. -/
def ringStat : Option Ring → Word
  | none => 0
  | some r => BitVec.ofNat 32 (2 ^ 31 + 2 ^ 24 * r.wr + 2 ^ 16 * r.rd + 2 ^ 8 * r.e + r.f)
def rstat (f : Fields) (s : State) : State :=
  withGroup f (fun _ c s => some (doneWith f (val32 (ringStat (Tab.find (s.group c).rings (ringOf f)))) s)) s

/-! ## Events: OP 0x8A to 0x8C (spec 12 R262, R263) -/

def sinkOf (s : State) (c k : Nat) : Sink := Tab.get (s.group c).sinks k {}
def setSink (c k : Nat) (x : Sink) (s : State) : State := s.modGroup c fun g => { g with sinks := Tab.put g.sinks k x }
def evmap (f : Fields) (s : State) : State :=
  withGroup f (fun l c s =>
    let act := (f.imm.extractLsb' 4 2).toNat
    let w := s.wave s.curWave
    let x : Sink :=
      { mask := f.imm.extractLsb' 16 16, act := act, form := (f.imm.extractLsb' 6 3).toNat, scope := scopeOf f
        addr := if act = 1 then reg64 l.th f.a else if act = 2 then (reg32 l.th f.a).setWidth 64 else 0
        epc := w.pc, quad := w.quad, slot := w.slot }
    some (advance (setSink c (f.imm.extractLsb' 0 4).toNat x s))) s
def evsig (f : Fields) (s : State) : State :=
  withGroup f (fun _ c s => some (advance (pulse c (8 + (f.imm.extractLsb' 0 2).toNat) s))) s
/-- Counts taken from a COUNT sink: none while it holds too few. -/
def takeCounts (c k n : Nat) (s : State) : Option State :=
  let x := sinkOf s c k
  if x.cnt < n then none else some (setSink c k { x with cnt := x.cnt - n } s)
def evCount (f : Fields) : Nat := max 1 (f.imm.extractLsb' 4 8).toNat
def evwait (f : Fields) (s : State) : State :=
  let k := (f.imm.extractLsb' 0 4).toNat
  if s.inEngine then
    let c := s.hereCore
    if (sinkOf s c k).act ≠ 0 then programFault c .copy 0x4A 0 (engineWord (.evwait f)) s
    else match takeCounts c k (evCount f) s with
      | none => s
      | some s1 => engineNext (setSink c k { sinkOf s1 c k with ovf := false } s1)
  else
    withGroup f (fun _ c s =>
      if (sinkOf s c k).act ≠ 0 then none
      else match takeCounts c k (evCount f) s with
        | none => some (waitAll f .engine s)
        | some s1 =>
          let x := sinkOf s1 c k
          some (doneWith f (val32 (BitVec.ofNat 32 (x.ovf.toNat * 256 + x.cnt))) (setSink c k { x with ovf := false } s1))) s

/-! Each answers the next state that the definition of its name gives. -/
def execMonitorWake (monitor : Nat) (s : State) : Host.Outcome State Fault Refusal := .next (monitorWake monitor s)
def execMonitorPoll (thread : Nat) (s : State) : Host.Outcome State Fault Refusal := .next (monitorPoll thread s)
/-! Each answers the next state that the definition of its name gives. -/
def execBoinit (f : Fields) (s : State) : Host.Outcome State Fault Refusal := .next (boinit f s)
def execBoarr (f : Fields) (s : State) : Host.Outcome State Fault Refusal := .next (boarr f s)
def execBotok (f : Fields) (s : State) : Host.Outcome State Fault Refusal := .next (botok f s)
def execBowait (f : Fields) (s : State) : Host.Outcome State Fault Refusal := .next (bowait f s)
def execBowaitp (f : Fields) (s : State) : Host.Outcome State Fault Refusal := .next (bowaitp f s)
def execRinit (f : Fields) (s : State) : Host.Outcome State Fault Refusal := .next (rinit f s)
def execRget (f : Fields) (s : State) : Host.Outcome State Fault Refusal := .next (rget f s)
def execRputRes (f : Fields) (s : State) : Host.Outcome State Fault Refusal := .next (rputRes f s)
def execRputPub (f : Fields) (s : State) : Host.Outcome State Fault Refusal := .next (rputPub f s)
def execRrel (f : Fields) (s : State) : Host.Outcome State Fault Refusal := .next (rrel f s)
def execRstat (f : Fields) (s : State) : Host.Outcome State Fault Refusal := .next (rstat f s)
def execEvmap (f : Fields) (s : State) : Host.Outcome State Fault Refusal := .next (evmap f s)
def execEvsig (f : Fields) (s : State) : Host.Outcome State Fault Refusal := .next (evsig f s)
def execEvwait (f : Fields) (s : State) : Host.Outcome State Fault Refusal := .next (evwait f s)
end Sys2Proof.Machine
end

