-- ==== Sys2Proof/Machine/Fetch.lean ====
section
/-!
DEFINITION. Fetch.lean: reading and checking a fetch line for a wave or an engine (spec 03 R40 to R42, 15 R308).
-/
namespace Sys2Proof.Machine

/-- 64 bytes as a line. -/
def lineOfBytes (bs : List Byte) : FLine := BitVec.ofNat 512 (leNat bs)
/-- The line at a physical address, from the core's instruction cache or from memory; none where memory is poisoned. -/
def cachedLine (c pa : Nat) (s : State) : Option FLine × State :=
  match Tab.find (s.core c).icache pa with
  | some l => (some l, s)
  | none =>
    if poisoned s pa then (none, s)
    else
      let r := farRead pa 64 s
      let l := lineOfBytes r.1
      (some l, r.2.modCore c fun x => { x with icache := Tab.put x.icache pa l })
def dropLine (c pa : Nat) (s : State) : State := s.modCore c fun x => { x with icache := Tab.del x.icache pa }
/-- One corrected soft error on a core (spec 21 R412). -/
def softError (c x : Nat) (cause : Byte) (addr : Nat) (s : State) : State :=
  logCore cause c x (BitVec.ofNat 64 addr) 1 (s.modCore c fun k => { k with serrCnt := satInc k.serrCnt 1 })
/-- The line at a virtual address, checked: parity with one refetch, then format (spec 03 R40). -/
def fetchLine (w : Who) (va : DWord) (s : State) : Except Byte FLine × State :=
  match checkGlobal s w { x := true } 1 va with
  | .error e => (.error e, s)
  | .ok x =>
    let fmt := fun (l : FLine) (s : State) => if lineFormatOk l then (Except.ok l, s) else (.error 0x08, s)
    let lost := fun (s : State) => (Except.error 0x04, logCore 0x04 w.core w.ctx va 0 s)
    let r := cachedLine w.core x.pa (noteWalk w va s)
    match r.1 with
    | none => lost r.2
    | some l =>
      if lineParityOk l then fmt l r.2
      else
        let r2 := cachedLine w.core x.pa (dropLine w.core x.pa r.2)
        match r2.1 with
        | none => lost r2.2
        | some l2 => if lineParityOk l2 then fmt l2 (softError w.core w.ctx 0x04 va.toNat r2.2) else lost r2.2
/-- The latches of a mask that an instruction reads. -/
def latchReads (f : Fields) (m : Byte) : Bool :=
  [f.a, f.b, f.c].any fun o => match o with | .latch n => m.getLsbD n.toNat | _ => false
/-- Whether the rest of a run, from an address on, reads a latch of a mask: an instruction that replaces a latch in every thread
takes it out of the mask, and the stop bit ends the run. A run of more than n instructions counts as reading. -/
def runReads (w : Who) (s : State) : Nat → DWord → Byte → Bool
  | 0, _, m => m != 0
  | n + 1, pc, m =>
    if m = 0 then false
    else
      match slotOf pc with
      | none => false
      | some k =>
        match (fetchLine w (lineAddr pc) s).1 with
        | .error _ => false
        | .ok l =>
          let f := unpackFields (lineSlot l k)
          if latchReads f m then true
          else if f.stop then false
          else runReads w s n (succPc pc) (if f.latchEn && f.pg == 7 then m &&& ~~~(1#8 <<< f.latchIx.toNat) else m)
/-- A wave is in a latch stretch: it holds a latch that its run still reads (spec 02 R27, 15 R313). -/
def inStretch (s : State) (w : Wave) : Bool :=
  let ls := s.active w
  let m : Byte := if ls.any fun l => l.th.restoreQ then 0xFF else w.latches
  match ls with
  | [] => false
  | l :: _ => m != 0 && runReads (whoOf s l.th) s 256 w.pc m
/-- An entry line joins the 16-entry summary of its core (spec 15 R308). -/
def noteEntry (w : Who) (va : DWord) (s : State) : State :=
  match checkGlobal s w { x := true } 1 va with
  | .error _ => s
  | .ok x => s.modCore w.core fun k => { k with recent := (x.pa :: k.recent.filter fun p => p != x.pa).take 16 }
/-- The agent that an engine fetches as. -/
def engineWho (s : State) (c : Nat) : Who :=
  let x := (s.grid (s.team ((s.core c).owner.getD 0)).grid).ctx
  ⟨c, x, (s.ctx x).svc⟩
/-- The word at an address of an engine program, with the branch-target bit of its slot. -/
def engineFetch (c : Nat) (pc : DWord) (s : State) : Except Byte (IWord × Bool) × State :=
  match slotOf pc with
  | none => (.error 0x05, s)
  | some k =>
    let r := fetchLine (engineWho s c) (lineAddr pc) s
    match r.1 with
    | .error e => (.error e, r.2)
    | .ok l => (.ok (lineSlot l k, lineBtm l k), r.2)

end Sys2Proof.Machine
end

