-- ==== Sys2Proof/Machine/Loop.lean ====
section
/-!
DEFINITION. Loop.lean: the loop-control processor, OP 0xB0 to 0xB5, and LCP_CTL (spec 12 R264, R267, R268).
-/
namespace Sys2Proof.Machine

/-- Runs in the loop-control processor only: no wave decodes these. -/
def inLcp (k : Nat → Lcp → State → State) (s : State) : State :=
  match s.cur with
  | .engine c .lcp => k c (s.lcp c) s
  | _ => s
def lcpConfig (c : Nat) (i : Instr) (s : State) : State := programFault c .lcp 0x4A 0 (engineWord i) s
/-- The address after the ENDL that closes an empty loop, or the cause that fetching meets. -/
def afterEndl (c : Nat) (s : State) : Nat → DWord → Nat → Except Byte DWord
  | 0, _, _ => .error 0x4A
  | n + 1, pc, depth =>
    match (engineFetch c pc s).1 with
    | .error e => .error e
    | .ok (w, _) =>
      if opField w = 0xB0 then afterEndl c s n (succPc pc) (depth + 1)
      else if opField w = 0xB1 then (match depth with | 0 => .ok (succPc pc) | d + 1 => afterEndl c s n (succPc pc) d)
      else afterEndl c s n (succPc pc) depth
def loopL (f : Fields) (s : State) : State :=
  inLcp (fun c x s =>
    let pc := (progPc s c .lcp).getD 0
    let n := (f.imm.extractLsb' 0 16).toNat
    if n = 0 then
      (match afterEndl c s 65536 (succPc pc) 0 with
       | .ok a => setProgPc c .lcp a s
       | .error e => programFault c .lcp e 0 (engineWord (.loopL f)) s)
    else if x.loops.length ≥ 5 then lcpConfig c (.loopL f) s
    else engineNext (s.modLcp c fun x => { x with loops := (succPc pc, n) :: x.loops, closed := false })) s
def endl (f : Fields) (s : State) : State :=
  inLcp (fun c x s =>
    match x.loops with
    | [] => lcpConfig c (.endl f) s
    | (a, n) :: r =>
      if n > 1 then setProgPc c .lcp a (s.modLcp c fun x => { x with loops := (a, n - 1) :: r })
      else wakeEngine c (engineNext (s.modLcp c fun x => { x with loops := r, closed := r.isEmpty }))) s
def emit (f : Fields) (s : State) : State :=
  inLcp (fun c x s =>
    let r : IterRec := ⟨x.a, f.imm.getLsbD 1⟩
    if f.imm.getLsbD 0 then
      if x.outM ≥ 32 then s else engineNext (s.modLcp c fun x => { x with outM := x.outM + 1, recM := x.recM ++ [r] })
    else if x.outC ≥ 32 then s else engineNext (s.modLcp c fun x => { x with outC := x.outC + 1, recC := x.recC ++ [r] })) s
def permw (f : Fields) (s : State) : State :=
  inLcp (fun _ x s =>
    let out := if f.imm.getLsbD 0 then x.outM else x.outC
    if 32 - out ≥ (f.imm.extractLsb' 1 6).toNat then engineNext s else s) s
def lset (f : Fields) (s : State) : State :=
  inLcp (fun c _ s =>
    let k := (f.mod.extractLsb' 0 3).toNat
    engineNext (s.modLcp c fun x =>
      { x with a := x.a.setIfInBounds k (if f.mod.getLsbD 3 then x.a.getD k 0 + f.imm else f.imm) })) s
/-- The program ends; open levels close. -/
def lcpEnd (c : Nat) (s : State) : State := wakeEngine c (s.modLcp c fun x => { x with prog := none, loops := [], closed := false })
def lend (_ : Fields) (s : State) : State := inLcp (fun c _ s => lcpEnd c s) s

def lcpStat (s : State) (c : Nat) : Word :=
  let x := s.lcp c
  BitVec.ofNat 32 (x.halt.isSome.toNat * 2 ^ 31 + x.prog.isSome.toNat * 2 ^ 30 + (x.halt.getD 0).toNat * 2 ^ 16 + x.loops.length * 2 ^ 8)
/-- Bits that act only while HALT is set. -/
def lcpHalted (core : Nat) (k : State → State) (s : State) : State :=
  if (s.lcp core).halt.isSome then wakeEngine core (k (s.modLcp core fun x => { x with halt := none })) else s
def lcpCtlAbort (core : Nat) (s : State) : State := lcpHalted core (lcpEnd core) s
def lcpCtlSkip (core : Nat) (s : State) : State :=
  lcpHalted core (fun s => match (s.lcp core).prog with
    | some p => setProgPc core .lcp (succPc p.1) s
    | none => s) s
def lcpCtlResume (core : Nat) (s : State) : State := lcpHalted core (fun s => s) s

/-! Each answers the next state that the definition of its name gives. -/
def execLcpCtlAbort (core : Nat) (s : State) : Host.Outcome State Fault Refusal := .next (lcpCtlAbort core s)
def execLcpCtlSkip (core : Nat) (s : State) : Host.Outcome State Fault Refusal := .next (lcpCtlSkip core s)
def execLcpCtlResume (core : Nat) (s : State) : Host.Outcome State Fault Refusal := .next (lcpCtlResume core s)
/-! Each answers the next state that the definition of its name gives. -/
def execLoopL (f : Fields) (s : State) : Host.Outcome State Fault Refusal := .next (loopL f s)
def execEndl (f : Fields) (s : State) : Host.Outcome State Fault Refusal := .next (endl f s)
def execEmit (f : Fields) (s : State) : Host.Outcome State Fault Refusal := .next (emit f s)
def execPermw (f : Fields) (s : State) : Host.Outcome State Fault Refusal := .next (permw f s)
def execLset (f : Fields) (s : State) : Host.Outcome State Fault Refusal := .next (lset f s)
def execLend (f : Fields) (s : State) : Host.Outcome State Fault Refusal := .next (lend f s)
end Sys2Proof.Machine
end

