-- ==== Sys2Proof/Machine/Narrow.lean ====
section
/-!
DEFINITION. Narrow.lean: the L6 format, element formats, effective bounds and self-describing blocks (spec 05 R83 to
R95), and OP 0x50 to 0x56 (spec 07 R135 to R141).
-/
namespace Sys2Proof.Machine

/-! ## L6 (spec 05 R83 to R86) -/

/-- T of spec 05 R83. -/
def l6T (k : Nat) : Nat := match k % 4 with | 0 => 256 | 1 => 304 | 2 => 362 | _ => 431
/-- The device value of a magnitude code, in units of 2^-12. -/
def l6Units (m : Nat) : Nat := if m = 0 then 0 else l6T m * 2 ^ (m / 4)
/-- A code as a value. -/
def l6Val (code : Nat) : FVal :=
  let m := code % 32
  .fin (m != 0 && code.testBit 5) (l6Units m) (-12)
/-- Comparison of magnitudes m · 2^e. -/
def cmpMag (m : Nat) (e : Int) (n : Nat) (g : Int) : Ordering :=
  compare (m * 2 ^ (e - min e g).toNat) (n * 2 ^ (g - min e g).toNat)
def leMag (m : Nat) (e : Int) (n : Nat) (g : Int) : Bool := cmpMag m e n g != .gt
/-- The largest code, at most c, whose device value is not above m · 2^e. -/
def l6Floor (m : Nat) (e : Int) : Nat → Nat
  | 0 => 0
  | c + 1 => if leMag (l6Units (c + 1)) (-12) m e then c + 1 else l6Floor m e c
/-- The conversion of spec 05 R84, with a greatest code in place of 31. -/
def toL6 (rm top : Nat) : FVal → Nat
  | .nan _ => 0
  | .inf neg => neg.toNat * 32 + top
  | .fin neg m e =>
    let c :=
      if !leMag m e (l6Units top) (-12) then top
      else
        let c := l6Floor m e top
        if cmpMag m e (l6Units c) (-12) == .eq then c
        else
          let mid := cmpMag (2 * m) e (l6Units c + l6Units (c + 1)) (-12)
          match rm with
          | 0 => if mid == .lt || (mid == .eq && c % 2 == 0) then c else c + 1
          | 1 => c
          | 2 => if neg then c else c + 1
          | 3 => if neg then c + 1 else c
          | _ => if mid == .lt then c else c + 1
    if c = 0 then 0 else neg.toNat * 32 + c
/-- One product of codes in units of 2^-16 (spec 00 R3, L6Lin); nothing for a zero factor. -/
def l6Prod (a b : Nat) : Option Int :=
  let ma := a % 32
  let mb := b % 32
  if ma = 0 ∨ mb = 0 then none
  else
    let n : Int := ((l6T (ma + mb) * 2 ^ ((ma + mb) / 4) : Nat) : Int)
    some (if a.testBit 5 != b.testBit 5 then -n else n)
/-- Code j of a packed word. -/
def l6Code (x : Word) (j : Nat) : Nat := (x.extractLsb' (8 * j) 6).toNat

/-! ## Element formats (spec 05 R90, R91) -/

inductive Elem where
  | int (w : Nat) (uns : Bool)
  | flt (t : Fmt)
  | l6
deriving DecidableEq, Repr

/-- The element format of a block or dense format code. -/
def elemOf (code : Nat) : Elem :=
  match code with
  | 1 => .int 8 false
  | 2 => .flt e4m3
  | 3 => .flt e5m2
  | 4 => .int 4 false
  | 5 => .l6
  | 6 => .flt bf16
  | 7 => .flt fp16
  | 8 => .flt fp32
  | 9 => .int 16 false
  | _ => .int 32 false
def Elem.bits : Elem → Nat
  | int w _ => w
  | flt t => t.magBits + 1
  | l6 => 6
/-- N(fmt) of a block format. -/
def blockCount (code : Nat) : Nat :=
  match code with | 1 => 62 | 2 => 62 | 3 => 62 | 4 => 124 | 5 => 82 | 6 => 31 | _ => 31
/-- MaxFinite as m · 2^e. -/
def Elem.maxFinite : Elem → Nat × Int
  | int w uns => ((typeHi w uns).toNat, 0)
  | flt t => (match t.read false t.top with | .fin _ m e => (m, e) | _ => (0, 0))
  | l6 => (l6Units 31, -12)
/-- DecodedValue of an element. -/
def Elem.read : Elem → Nat → FVal
  | int w uns, n => ofInt (typed w uns (BitVec.ofNat 64 n))
  | flt t, n => t.read false n
  | l6, n => l6Val n
/-- ClampB (spec 00 R3). -/
def clampB (b : Nat × Int) : FVal → FVal
  | .fin neg m e => if leMag m e b.1 b.2 then .fin neg m e else .fin neg b.1 b.2
  | v => v
/-- A value rounded into an element, without a bound. -/
def Elem.write (rm : Nat) : Elem → FVal → Nat
  | int w uns, v => wrapBits w (toInt rm (typeLo w uns) (typeHi w uns) v).1
  | flt t, v => (roundVal t rm false v).bits
  | l6, v => toL6 rm 31 v
/-- The effective bound of a value that bounds a format (spec 05 R90). -/
def effBoundVal (el : Elem) (v : FVal) : Nat × Int :=
  match v with
  | .fin false _ _ =>
    (match el.read (el.write 1 v) with
     | .fin false m e => if m = 0 || leMag el.maxFinite.1 el.maxFinite.2 m e then el.maxFinite else (m, e)
     | _ => el.maxFinite)
  | _ => el.maxFinite
/-- The same of an FP32 bound. -/
def effBound (el : Elem) (bound : Word) : Nat × Int := effBoundVal el (fp32.read false bound.toNat)
/-- The element step of PackBlock (spec 05 R94), for y already scaled. For L6, "b in place of V(31)" replaces code 31 too: an
infinite element takes the code of b (log entry 71). -/
def packElem (el : Elem) (rm : Nat) (b : Nat × Int) (y : FVal) : Nat :=
  match el with
  | .int w _ =>
    let hi : Int := (b.1 * 2 ^ b.2.toNat : Nat)
    wrapBits w (toInt rm (-hi) hi (clampB b y)).1
  | .flt t => (roundVal t rm false (clampB b y)).bits
  | .l6 => toL6 rm (l6Floor b.1 b.2 31) y
/-- A value times 2^k. -/
def scaleVal (k : Int) : FVal → FVal
  | .fin neg m e => .fin neg m (e + k)
  | v => v
/-- Whether PackBlock leaves the scale at 127. -/
def fixedScale (code : Nat) : Bool := code == 6 || code == 7
/-- The scale code that PackBlock chooses for a largest magnitude a (spec 05 R94). -/
def packScale (code : Nat) (b a : Nat × Int) : Nat :=
  if fixedScale code || a.1 == 0 then 127
  else ((List.range 255).find? fun (s : Nat) => leMag a.1 (a.2 + 127 - (s : Int)) b.1 b.2).getD 254
/-- The largest finite magnitude of a list; 0 when there is none. -/
def maxMag : List FVal → Nat × Int
  | [] => (0, 0)
  | v :: r =>
    match v with
    | .fin _ m e => if leMag m e (maxMag r).1 (maxMag r).2 then maxMag r else (m, e)
    | _ => maxMag r
/-- Bit position of element i within a block (spec 05 R91). -/
def elemPos (code i : Nat) : Nat := 16 + (elemOf code).bits * i
/-- A pattern that is a zero of either sign. -/
def zeroElem (code e : Nat) : Bool := ((elemOf code).read e).isZero
/-- PackBlock (spec 05 R94). -/
def packBlock (xs : List FVal) (code rm : Nat) (b : Nat × Int) : Nat :=
  let s := packScale code b (maxMag xs)
  let es := xs.map fun x => packElem (elemOf code) rm b (scaleVal (127 - (s : Int)) x)
  if es.all (zeroElem code) then 0
  else es.zipIdx.foldl (fun acc p => acc + p.1 * 2 ^ elemPos code p.2) (code + 256 * s)
/-- The check of a block against a descriptor's format (spec 05 R93). -/
def blockOk (blk code : Nat) : Bool := blk % 256 == 0 || (blk % 256 == code && blk / 256 % 256 != 255)
/-- UnpackBlock of n elements (spec 05 R95). -/
def unpackBlock (blk code n : Nat) : List FVal :=
  if blk % 256 = 0 then List.replicate n (.fin false 0 0)
  else (List.range n).map fun i =>
    scaleVal ((blk / 256 % 256 : Nat) - 127 : Int) ((elemOf code).read (blk / 2 ^ elemPos code i % 2 ^ (elemOf code).bits))

/-! ## Instructions -/

/-- Four bytes as a word, byte 0 first. -/
def wordOfBytes (g : Nat → Nat) : Word := BitVec.ofNat 32 (g 0 + 256 * g 1 + 65536 * g 2 + 16777216 * g 3)
def lmulCode (a b : Nat) : Nat :=
  let ma := a % 32
  let mb := b % 32
  if ma = 0 ∨ mb = 0 ∨ ma + mb ≤ 16 then 0
  else (a.testBit 5 != b.testBit 5).toNat * 32 + min (ma + mb - 16) 31
def lmul (f : Fields) (s : State) : State :=
  laneMap f (fun s l =>
    let a := src32 s f l f.a
    let b := src32 s f l f.b
    val32 (wordOfBytes fun j => lmulCode (l6Code a j) (l6Code b j))) s

/-- C + Σ P_j, rounded once (spec 07 R137). -/
def lsumRes (rm : Nat) (a b : Word) (c : FVal) : FRes :=
  let ps := [0, 1, 2, 3].filterMap fun j => l6Prod (l6Code a j) (l6Code b j)
  let sum : Int := ps.foldl (· + ·) 0
  if ps.isEmpty then roundVal fp32 rm false c
  else if sum = 0 && c.isZero then roundVal fp32 rm false (.fin (rm == 3) 0 0)
  else roundVal fp32 rm false (addVal rm (.fin (decide (sum < 0)) sum.natAbs (-16)) c)
def lsum (f : Fields) (s : State) : State :=
  laneMap f (fun s l =>
    val32 (BitVec.ofNat 32 (lsumRes f.rm.toNat (src32 s f l f.a) (src32 s f l f.b)
      (fp32.read false (src32 s f l f.c).toNat)).bits)) s

/-- The type of LCVT's control as an element format, with the extension of an integer result (spec 07 R138). -/
def lcvtElem (c : Nat) : Elem :=
  match c with
  | 0 => .flt fp32 | 1 => .flt fp16 | 2 => .flt bf16 | 3 => .flt e4m3 | 4 => .flt e5m2
  | 5 => .int 8 false | 6 => .int 16 false | 7 => .int 32 false
  | 9 => .int 8 true | 10 => .int 16 true | _ => .int 32 true
def elemWord (el : Elem) (n : Nat) : Word :=
  match el with
  | .int w uns => loW (extendTo w uns n)
  | _ => BitVec.ofNat 32 n
def lcvtOut (f : Fields) (s : State) (l : Lane) : LaneOut :=
  let el := lcvtElem (f.imm.extractLsb' 0 4).toNat
  let a := (src32 s f l f.a).toNat
  let rm := f.rm.toNat
  let bound := fun e => if f.recB then effBound e (src32 s f l f.c) else e.maxFinite
  if f.imm.getLsbD 4 then
    let v := l6Val a
    val32 (elemWord el (el.write rm (if f.recB then clampB (bound el) v else v)))
  else
    let v := el.read (a % 2 ^ el.bits)
    val32 (BitVec.ofNat 32 (toL6 rm 31 (if f.recB then clampB (bound .l6) v else v)))
def lcvt (f : Fields) (s : State) : State := laneMap f (lcvtOut f) s

/-- The bound that a scale word carries (spec 07 R140). -/
def boundOfCode (el : Elem) (c : Nat) : Nat × Int :=
  effBoundVal el (match el with | .int _ _ => ofInt c | _ => el.read (c % 2 ^ el.bits))
def bpackOut (f : Fields) (s : State) (l : Lane) : LaneOut :=
  let code := (f.imm.extractLsb' 0 4).toNat
  let el := elemOf code
  let n := (f.imm.extractLsb' 4 2).toNat + 1
  let sw := src32 s f l f.c
  let sc := (sw.extractLsb' 0 8).toNat
  let b := if f.recB then boundOfCode el (sw.extractLsb' 16 16).toNat else el.maxFinite
  let first := (regNum? f.a).getD 0
  if sc = 255 then val32 0
  else val32 (BitVec.ofNat 32 ((List.range n).foldl (fun acc j =>
    acc + packElem el f.rm.toNat b (scaleVal (127 - (sc : Int)) (fp32.read false (l.th.reg (first + j)).toNat))
      * 2 ^ (el.bits * j)) 0))
def bpack (f : Fields) (s : State) : State := laneMap f (bpackOut f) s

/-- The words BUNPK writes. -/
def bunpkWords (code n rm sc a : Nat) : List Word :=
  let el := elemOf code
  (List.range n).map fun j =>
    if code = 0 then 0
    else if sc = 255 then 0x7FC00000
    else BitVec.ofNat 32 (roundVal fp32 rm false
      (scaleVal ((sc : Int) - 127) (el.read (a / 2 ^ (el.bits * j) % 2 ^ el.bits)))).bits
def bunpkOut (f : Fields) (s : State) (l : Lane) : LaneOut :=
  let ws := bunpkWords (f.imm.extractLsb' 0 4).toNat ((f.imm.extractLsb' 4 2).toNat + 1) f.rm.toNat
    ((src32 s f l f.c).extractLsb' 0 8).toNat (src32 s f l f.a).toNat
  match ws with
  | [x] => val32 x
  | ws => .many ws
def bunpk (f : Fields) (s : State) : State := laneMap f (bunpkOut f) s

def clampOut (f : Fields) (s : State) (l : Lane) : LaneOut :=
  let a := src32 s f l f.a
  let b := src32 s f l f.b
  let c := src32 s f l f.c
  if f.nsat then val32 (BitVec.ofInt 32 (clampInt a.toInt b.toInt c.toInt))
  else val32 (BitVec.ofNat 32 (fMinMax fp32 false false (fMinMax fp32 false true a.toNat b.toNat).bits c.toNat).bits)
def clamp (f : Fields) (s : State) : State := laneMap f (clampOut f) s

def scleOut (f : Fields) (s : State) (l : Lane) : LaneOut :=
  let code := (f.imm.extractLsb' 0 4).toNat
  let el := elemOf code
  let a := maxMag [fp32.read false (src32 s f l f.a).toNat]
  let b := if f.recB then effBound el (src32 s f l f.c) else el.maxFinite
  val32 (BitVec.ofNat 32 (el.write 1 (.fin false b.1 b.2) * 65536 + packScale code b a))
def scle (f : Fields) (s : State) : State := laneMap f (scleOut f) s

/-! Each answers the next state that the definition of its name gives. -/
def execLmul (f : Fields) (s : State) : Host.Outcome State Fault Refusal := .next (lmul f s)
def execLsum (f : Fields) (s : State) : Host.Outcome State Fault Refusal := .next (lsum f s)
def execLcvt (f : Fields) (s : State) : Host.Outcome State Fault Refusal := .next (lcvt f s)
def execBpack (f : Fields) (s : State) : Host.Outcome State Fault Refusal := .next (bpack f s)
def execBunpk (f : Fields) (s : State) : Host.Outcome State Fault Refusal := .next (bunpk f s)
def execClamp (f : Fields) (s : State) : Host.Outcome State Fault Refusal := .next (clamp f s)
def execScle (f : Fields) (s : State) : Host.Outcome State Fault Refusal := .next (scle f s)
end Sys2Proof.Machine
end

