-- ==== Sys2Proof/Machine/Matrix.lean ====
section
/-!
DEFINITION. Matrix.lean: the compute-in-memory matrix engine: commands and their effects (spec 08 R142 to R165), OP 0xA0
to 0xAA.
-/
namespace Sys2Proof.Machine

/-! ## Elements, slabs and tiles (spec 08 R145 to R147, 05 R96) -/

/-- Align24 of 24 finite values (spec 00 R3). -/
def floorLog (v : FVal) : Int :=
  match v with
  | .fin _ m e => if m = 0 then -127 else (Nat.log2 m : Int) + e
  | _ => -127
def align24 (vs : List FVal) : Byte × List (BitVec 16) :=
  let e := vs.foldl (fun a v => max a (floorLog v)) (-127)
  (BitVec.ofInt 8 (e + 127), vs.map fun v =>
    match v with
    | .fin neg m x =>
      let k := x + 14 - e
      BitVec.ofNat 16 (neg.toNat * 2 ^ 15 + (if k ≥ 0 then m * 2 ^ k.toNat else m / 2 ^ (-k).toNat) % 2 ^ 15)
    | _ => 0)
/-- Bits of an element of a format code. -/
def mxBits (fmt : Nat) : Nat :=
  match fmt with | 0 => 16 | 1 => 16 | 2 => 16 | 6 => 4 | 8 => 1 | _ => 8
def mxFloat? (fmt : Nat) : Option Fmt :=
  match fmt with | 0 => some bf16 | 1 => some fp16 | 4 => some e4m3 | 5 => some e5m2 | _ => none
/-- Element at a position of bytes that a little-endian number holds. -/
def mxElem (fmt x i : Nat) : Nat := x / 2 ^ (mxBits fmt * i) % 2 ^ mxBits fmt
/-- A group of 24 elements converted: its code and its significands or plain elements. -/
def mxConvert (fmt : Nat) (es : List Nat) : Byte × List (BitVec 16) :=
  match mxFloat? fmt with
  | some t =>
    let vs := es.map fun e => t.read false e
    if vs.any fun v => match v with | .fin _ _ _ => false | _ => true then (0xFF, vs.map fun _ => 0) else align24 vs
  | none =>
    (0, es.map fun e =>
      match fmt with
      | 7 => BitVec.ofNat 16 (e % 64)
      | 8 => BitVec.ofNat 16 e
      | _ => BitVec.ofInt 16 (typed (mxBits fmt) false (BitVec.ofNat 64 e)))
def slabBytes (fmt : Nat) : Nat := 24 * 64 * mxBits fmt / 8
/-- A slab read into a bank. -/
def slabOf (fmt : Nat) (bs : List Byte) : Bank :=
  let x := leNat bs
  let cols := (List.range 64).map fun n => mxConvert fmt ((List.range 24).map fun k => mxElem fmt x (64 * k + n))
  { sig := (List.range 24).flatMap fun k => cols.map fun c => c.2.getD k 0
    ecode := cols.map (·.1), fmt := BitVec.ofNat 4 fmt }
/-- An A tile of 512 bytes converted, with its row-valid mask. -/
def fragOf (fmt : Nat) (bs : List Byte) (mask : Byte) : Frag :=
  let rows := (List.range 8).map fun r =>
    let x := leNat ((bs.drop (64 * r)).take 64)
    mxConvert fmt ((List.range 24).map fun k => mxElem fmt x k)
  { rows := rows.map (·.2), codes := rows.map (·.1), fmt := BitVec.ofNat 4 fmt, mask := mask }

/-! ## The accumulate (spec 08 R148) -/

def nan36 : Nat := 0x7FC000000
/-- The value of a 16-bit sign-magnitude significand. -/
def smVal (x : BitVec 16) : Int := if x.getLsbD 15 then -((x.toNat % 2 ^ 15 : Nat) : Int) else (x.toNat : Int)
def int36 (e : Nat) : Int := (BitVec.ofNat 36 e).toInt
def a36Val (e : Nat) : FVal := a36.read false e
def isInfVal : FVal → Bool
  | .inf _ => true
  | _ => false
def isFinVal : FVal → Bool
  | .fin _ _ _ => true
  | _ => false
def sumInt (xs : List Int) : Int := xs.foldl (· + ·) 0
/-- An entry after an accumulate, with the sticky bits it sets. -/
structure AccOut where
  e   : Nat
  sat : Bool := false
  nan : Bool := false
  ovf : Bool := false
/-- One rounding of A36(e) + s. -/
def accAdd (e : Nat) (s : FVal) : AccOut :=
  let x := (roundVal a36 0 false (addVal 0 (a36Val e) s)).bits
  { e := x, ovf := isInfVal (a36Val x) && isFinVal (a36Val e) }
/-- One entry: semiring, format, the row's code and elements, the column's code and elements. A float or L6 sum of zero leaves the
entry as it is: the pseudocode of spec 08 R148 rounds A36(e) + S where L6 products cancel, its bullet leaves e unchanged, and the
model follows the bullet (log entry 70). -/
def accumulate (sr fmt : Nat) (ea : Byte) (ta : List (BitVec 16)) (eb : Byte) (tb : List (BitVec 16)) (e : Nat) : AccOut :=
  let ps := ta.zip tb
  match sr with
  | 0 =>
    if (mxFloat? fmt).isSome then
      if ea == 0xFF || eb == 0xFF then { e := nan36, nan := true }
      else
        let s := sumInt (ps.map fun p => smVal p.1 * smVal p.2)
        if s = 0 then { e := e } else accAdd e (scaleVal ((ea.toNat : Int) + eb.toNat - 282) (ofInt s))
    else if fmt = 7 then
      let s := sumInt (ps.filterMap fun p => l6Prod p.1.toNat p.2.toNat)
      if s = 0 then { e := e } else accAdd e (scaleVal (-16) (ofInt s))
    else
      let t := int36 e + sumInt (ps.map fun p => p.1.toInt * p.2.toInt)
      let hi : Int := 2 ^ 35 - 1
      { e := wrapBits 36 (clampInt t (-hi) hi), sat := decide (t > hi) || decide (t < -hi) }
  | 1 =>
    let best := ps.foldl (fun (b : Int) p =>
      min b (if p.1.toInt = 32767 ∨ p.2.toInt = 32767 then 32767 else clampInt (p.1.toInt + p.2.toInt) (-32768) 32767)) 32767
    { e := wrapBits 36 (min (int36 e) best) }
  | 2 =>
    let big := fun (a b : Nat) => (fMinMax a36 false true a b).bits
    let best := ps.foldl (fun b p => big b (roundVal a36 0 false (l6Val (lmulCode p.1.toNat p.2.toNat))).bits) (a36.infBits true)
    { e := if (a36Val e).isNan then e else big e best }
  | _ =>
    { e := if int36 e ≠ 0 ∨ (ps.any fun p => p.1 &&& p.2 != 0) then 1 else 0 }

/-! ## Reading and writing the store -/

def accKey (row col : Nat) : Nat := 512 * row + col
def Mxe.entry (x : Mxe) (row col : Nat) : Nat := (Tab.get x.acc (accKey row col) 0).toNat
def Mxe.setEntry (x : Mxe) (row col e : Nat) : Mxe :=
  { x with acc := if e % 2 ^ 36 = 0 then Tab.del x.acc (accKey row col) else Tab.put x.acc (accKey row col) (BitVec.ofNat 36 e) }
def Mxe.flag (x : Mxe) (o : AccOut) : Mxe := { x with sat := x.sat || o.sat, nan := x.nan || o.nan, ovf := x.ovf || o.ovf }
/-- Column blocks of a mask, ascending. -/
def blocksOf (cmask : Nat) : List Nat := (List.range 8).filter fun m => cmask.testBit m
def Mxe.bankSel (x : Mxe) (m : Nat) : Nat := (x.sel.extractLsb' (2 * m) 2).toNat
def Mxe.active (x : Mxe) (m : Nat) : Option Bank := Tab.find x.banks (4 * m + x.bankSel m)
/-- Every entry of a region: row offset, rank of the block, block and column. -/
def regionCells (n cmask : Nat) : List (Nat × Nat × Nat × Nat) :=
  (List.range n).flatMap fun r => (blocksOf cmask).zipIdx.flatMap fun q => (List.range 64).map fun j => (r, q.2, q.1, j)
def Mxe.mma (x : Mxe) (sr fmt row0 cmask : Nat) (fr : Frag) : Mxe :=
  (List.range 8).foldl (fun x r =>
    if !fr.mask.getLsbD r then x
    else
      (blocksOf cmask).foldl (fun x m =>
        match x.active m with
        | none => x
        | some b =>
          (List.range 64).foldl (fun x n =>
            let col := (List.range 24).map fun k => b.sig.getD (64 * k + n) 0
            let o := accumulate sr fmt (fr.codes.getD r 0) (fr.rows.getD r []) (b.ecode.getD n 0) col (x.entry (row0 + r) (64 * m + n))
            (x.setEntry (row0 + r) (64 * m + n) o.e).flag o) x) x) x

/-- ACCST of one entry, in an integer pattern of its size (spec 08 R162). -/
def accOut (fn e : Nat) : Nat :=
  let v := a36Val e
  match fn with
  | 0 => (roundVal fp32 0 false v).bits
  | 1 => (roundVal bf16 0 false v).bits
  | 2 => (roundVal fp16 0 false v).bits
  | 3 => (roundVal e4m3 0 false v).bits
  | 4 => wrapBits 32 (clampInt (int36 e) (typeLo 32 false) (typeHi 32 false))
  | 5 => wrapBits 16 (clampInt (int36 e) (typeLo 16 false) (typeHi 16 false))
  | 6 => wrapBits 8 (clampInt (int36 e) (typeLo 8 false) (typeHi 8 false))
  | _ => e
def accOutSize (fn : Nat) : Nat := match fn with | 0 => 4 | 1 => 2 | 2 => 2 | 3 => 1 | 4 => 4 | 5 => 2 | 6 => 1 | _ => 8
/-- ACCLD of one entry. -/
def accIn (fn x : Nat) : Nat :=
  match fn with
  | 0 => (roundVal a36 0 false (fp32.read false x)).bits
  | 1 => (roundVal a36 0 false (bf16.read false x)).bits
  | 2 => wrapBits 36 (typed 32 false (BitVec.ofNat 64 x))
  | _ => x % 2 ^ 36
def accInSize (fn : Nat) : Nat := match fn with | 0 => 4 | 1 => 2 | 2 => 4 | _ => 8
/-- The bytes that ACCST or a copy moves out of a region. -/
def accBytes (x : Mxe) (fn row0 n cmask : Nat) : List Byte :=
  (regionCells n cmask).flatMap fun c => natLe (accOutSize fn) (accOut fn (x.entry (row0 + c.1) (64 * c.2.2.1 + c.2.2.2)))
def scaleEntry (k : Int) (e : Nat) : AccOut :=
  let v := a36Val e
  match v with
  | .fin _ m _ =>
    if m = 0 then { e := e }
    else
      let x := (roundVal a36 0 false (scaleVal k v)).bits
      { e := x, ovf := isInfVal (a36Val x) }
  | .inf _ => { e := e }
  | .nan _ => { e := nan36 }

/-! ## Status and halts (spec 08 R155, R156) -/

def mxeStat (s : State) (c : Nat) : Word :=
  let x := s.mxe c
  BitVec.ofNat 32
    (x.halt.isSome.toNat * 2 ^ 31 + x.prog.isSome.toNat * 2 ^ 30 + (s.core c).owner.isSome.toNat * 2 ^ 29 +
      (x.halt.getD 0).toNat * 2 ^ 16 + x.q.length * 2 ^ 10 + x.ovf.toNat * 4 + x.nan.toNat * 2 + x.sat.toNat)
/-- The head command halts the engine. -/
def mxHalt (c : Nat) (cause : Byte) (addr : Nat) (m : MCmd) (s : State) : State :=
  engineTrap c ((s.core c).owner.getD 0) .matrix cause (BitVec.ofNat 64 addr)
    (engineInfo .matrix m.prog m.quad m.slot (opField m.word) (m.word.extractLsb' 80 8) (m.word.extractLsb' 0 32)) m.epc m.quad m.slot
    (s.modMxe c fun x => { x with halt := some cause })
/-- The head command has completed. -/
def mxDone (c : Nat) (s : State) : State := wakeEngine c (s.modMxe c fun x => { x with q := x.q.drop 1 })

/-! ## Commands (spec 08 R151, R158 to R165) -/

def imNat (f : Fields) (lo n : Nat) : Nat := (f.imm.extractLsb' lo n).toNat
/-- Checks of an address: alignment, then the scratchpad's end. -/
def mxAddr (s : State) (c addr n : Nat) : Option Byte :=
  if addr % 64 ≠ 0 then some 0x43
  else if addr + n > scratchSize s ((s.core c).owner.getD 0) then some 0x48
  else none
def cmdAddr (m : MCmd) (off : Nat) : Nat := (m.base + BitVec.ofNat 32 (64 * off)).toNat
/-- The first byte and the number of bytes of a row of an ACCLD or ACCST. -/
def accRow (m : MCmd) (f : Fields) (sz : Nat) : Nat × Nat :=
  let k := (blocksOf (imNat f 20 8)).length * 64 * sz
  (cmdAddr m (imNat f 0 8) + m.row * k, k)
/-- The scratchpad bytes that a command moves next. -/
def cmdSpan (s : State) (c : Nat) (m : MCmd) : Option (Nat × Nat) :=
  let f := unpackFields m.word
  match (opField m.word).toNat with
  | 0xA0 => some (cmdAddr m (imNat f 0 14), slabBytes (f.mod.extractLsb' 2 4).toNat)
  | 0xA1 =>
    (match imNat f 26 2 with
     | 0 => (Tab.find (s.group c).rings (imNat f 0 4)).bind fun r => if r.f = 0 then none else some (r.slotAt r.rd, min r.size 576)
     | 1 => some (cmdAddr m (imNat f 0 14), 512)
     | _ => none)
  | 0xA4 => some (accRow m f (accInSize f.fn.toNat))
  | 0xA5 => some (accRow m f (accOutSize f.fn.toNat))
  | 0xA9 => if f.imm.getLsbD 5 then some (cmdAddr m (imNat f 6 14), 4) else none
  | _ => none
/-- The pages of the owner's scratchpad that the head command uses (spec 09 R173). -/
def mxPages (s : State) (c : Nat) : List Nat :=
  match (s.core c).owner, (s.mxe c).q with
  | some t, m :: _ =>
    (match cmdSpan s c m with
     | some (a, n) => if a + n ≤ scratchSize s t then pagesOf a n else []
     | none => [])
  | _, _ => []
/-- Those of them that are to be refilled first (spec 08 R155). -/
def mxMissing (s : State) (c : Nat) : List (Nat × Nat) :=
  match (s.core c).owner with
  | some t => missingPages s t (mxPages s c)
  | none => []
/-- Runs an effect when an address passes its checks. -/
def withMxAddr (c : Nat) (m : MCmd) (addr n : Nat) (k : State → State) (s : State) : State :=
  match mxAddr s c addr n with
  | some e => mxHalt c e addr m s
  | none => k s
def runMldb (c : Nat) (m : MCmd) (f : Fields) (s : State) : State :=
  let fmt := (f.mod.extractLsb' 2 4).toNat
  let addr := cmdAddr m (imNat f 0 14)
  withMxAddr c m addr (slabBytes fmt) (fun s =>
    let b := slabOf fmt (scratchBytes s ((s.core c).owner.getD 0) addr (slabBytes fmt))
    mxDone c (s.modMxe c fun x => { x with banks := Tab.put x.banks (4 * imNat f 25 3 + imNat f 23 2) b })) s
/-- The fragment of an MMA: blocked, halted with a cause and address, or obtained. -/
inductive FragRes where
  | wait
  | halt (cause : Byte) (addr : Nat)
  | got (fr : Frag)
def mmaFrag (s : State) (c : Nat) (m : MCmd) (f : Fields) (fmt : Nat) : FragRes :=
  let team := (s.core c).owner.getD 0
  match imNat f 26 2 with
  | 0 =>
    (match Tab.find (s.group c).rings (imNat f 0 4) with
     | none => .halt 0x48 0
     | some r =>
       if r.size < 512 then .halt 0x48 r.base
       else if r.f = 0 then .wait
       else
         let a := r.slotAt r.rd
         .got (fragOf fmt (scratchBytes s team a 512) (if r.size ≥ 576 then (scratchBytes s team (a + 512) 1).headD 0xFF else 0xFF)))
  | 1 =>
    let a := cmdAddr m (imNat f 0 14)
    (match mxAddr s c a 512 with
     | some e => .halt e a
     | none => .got (fragOf fmt (scratchBytes s team a 512) 0xFF))
  | _ =>
    (match (s.mxe c).coll with
     | none => .halt 0x49 0
     | some fr => if fr.fmt.toNat == fmt then .got fr else .halt 0x49 0)
def runMma (c : Nat) (m : MCmd) (f : Fields) (s : State) : State :=
  let fmt := (f.mod.extractLsb' 2 4).toNat
  let cmask := imNat f 14 8
  let ok := (blocksOf cmask).all fun k => match (s.mxe c).active k with | some b => b.fmt.toNat == fmt | none => false
  if !ok then mxHalt c 0x49 0 m s
  else
    match mmaFrag s c m f fmt with
    | .wait => s
    | .halt e a => mxHalt c e a m s
    | .got fr =>
      let s1 := s.modMxe c fun x =>
        { (x.mma f.fn.toNat fmt (8 * imNat f 22 3) cmask fr) with coll := if f.mod.getLsbD 1 then some fr else none }
      let s2 :=
        if f.imm.getLsbD 25 then s1.modGroup c fun g => { g with rings := g.rings.map fun e => if e.1 == imNat f 0 4 then (e.1, e.2.release) else e }
        else s1
      mxDone c s2
def runAccz (c : Nat) (f : Fields) (s : State) : State :=
  let e := match imNat f 20 3 with | 0 => 0 | 1 => 32767 | _ => 0xFF8000000
  mxDone c (s.modMxe c fun x =>
    (regionCells (imNat f 6 6 + 1) (imNat f 12 8)).foldl (fun x p => x.setEntry (imNat f 0 6 + p.1) (64 * p.2.2.1 + p.2.2.2) e) x)
def runAccsc (c : Nat) (f : Fields) (s : State) : State :=
  let k := (f.imm.extractLsb' 20 10).toInt
  mxDone c (s.modMxe c fun x =>
    (regionCells (imNat f 6 6 + 1) (imNat f 12 8)).foldl (fun x p =>
      let r := imNat f 0 6 + p.1
      let q := 64 * p.2.2.1 + p.2.2.2
      let o := scaleEntry k (x.entry r q)
      (x.setEntry r q o.e).flag o) x)
/-- A row of an ACCLD or ACCST is done: the command goes on at the next row, or completes (spec 08 R154). -/
def accRowDone (c : Nat) (m : MCmd) (f : Fields) (s : State) : State :=
  if m.row ≥ imNat f 14 6 then mxDone c s
  else s.modMxe c fun x => { x with q := { m with row := m.row + 1 } :: x.q.drop 1 }
/-- ACCLD moves a row at a time; the whole range is checked before the first (spec 08 R162). -/
def runAccld (c : Nat) (m : MCmd) (f : Fields) (s : State) : State :=
  let sz := accInSize f.fn.toNat
  let at_ := accRow m f sz
  withMxAddr c m (cmdAddr m (imNat f 0 8)) ((imNat f 14 6 + 1) * at_.2) (fun s =>
    let bs := scratchBytes s ((s.core c).owner.getD 0) at_.1 at_.2
    accRowDone c m f (s.modMxe c fun x =>
      (regionCells 1 (imNat f 20 8)).foldl (fun x p =>
        x.setEntry (imNat f 8 6 + m.row) (64 * p.2.2.1 + p.2.2.2) (accIn f.fn.toNat (leAt bs ((p.2.1 * 64 + p.2.2.2) * sz) sz))) x)) s
def runAccst (c : Nat) (m : MCmd) (f : Fields) (s : State) : State :=
  let at_ := accRow m f (accOutSize f.fn.toNat)
  withMxAddr c m (cmdAddr m (imNat f 0 8)) ((imNat f 14 6 + 1) * at_.2) (fun s =>
    accRowDone c m f (scratchWrite ((s.core c).owner.getD 0) at_.1
      (accBytes (s.mxe c) f.fn.toNat (imNat f 8 6 + m.row) 1 (imNat f 20 8)) s)) s
def runMsel (c : Nat) (f : Fields) (s : State) : State :=
  mxDone c (s.modMxe c fun x =>
    { x with sel := (List.range 8).foldl (fun (v : BitVec 16) m =>
        if f.imm.getLsbD (16 + m) then (v &&& ~~~(3#16 <<< (2 * m))) ||| ((f.imm.extractLsb' (2 * m) 2).setWidth 16 <<< (2 * m)) else v) x.sel })
/-- MSIG: with TRS, a set SAT traps before the address of STW is checked, an order that spec 08 R155 leaves open (log entry 76). -/
def runMsig (c : Nat) (m : MCmd) (f : Fields) (s : State) : State :=
  if f.imm.getLsbD 3 && (s.mxe c).sat then mxHalt c 0x30 0 m s
  else
    let addr := cmdAddr m (imNat f 6 14)
    let fin := fun (s : State) =>
      let s1 := if f.imm.getLsbD 4 then s.modMxe c fun x => { x with sat := false, nan := false, ovf := false } else s
      pulse c (4 + imNat f 0 2) (mxDone c s1)
    if f.imm.getLsbD 5 then
      withMxAddr c m addr 4 (fun s => fin (scratchWrite ((s.core c).owner.getD 0) addr (natLe 4 (mxeStat s c).toNat) s)) s
    else fin s

/-- The head command of the matrix queue takes effect, or one row of it; a blocked one waits, as one does whose pages are being
refilled. -/
def matrixCommandComplete (core : Nat) (s0 : State) : State :=
  let x := s0.mxe core
  let s := match x.q.head?.bind (cmdSpan s0 core), (s0.core core).owner with
    | some (a, n), some t => touchPages t a n s0
    | _, _ => s0
  if s0.guidon.frozen || x.halt.isSome || !(mxMissing s0 core).isEmpty then s0
  else
    match x.q with
    | [] => s
    | m :: _ =>
      let f := unpackFields m.word
      match (opField m.word).toNat with
      | 0xA0 => runMldb core m f s
      | 0xA1 => runMma core m f s
      | 0xA2 => runAccz core f s
      | 0xA3 => runAccsc core f s
      | 0xA4 => runAccld core m f s
      | 0xA5 => runAccst core m f s
      | 0xA6 => runMsel core f s
      | _ => runMsig core m f s

/-! ## Matrix instructions (spec 08 R150, R153) -/

/-- An instruction that the engine takes as a command: from a wave, or appended by the sequencer. -/
def matrixCmd (i : Instr) (f : Fields) (s : State) : State :=
  if s.inEngine then
    let c := s.hereCore
    let x := s.mxe c
    if x.q.length ≥ 32 then s
    else
      let m : MCmd :=
        { word := engineWord i, base := if f.imm.getLsbD 31 then x.iw.getD (f.imm.extractLsb' 28 3).toNat 0 else 0
          epc := (progPc s c .matrix).getD 0, prog := true }
      engineNext (s.modMxe c fun x => { x with q := x.q ++ [m] })
  else
    withGroup f (fun l c s =>
      let x := s.mxe c
      let w := s.wave s.curWave
      some (if x.q.length ≥ 32 || x.prog.isSome then waitAll f .engine s
        else
          let m : MCmd := { word := w.wordAt w.pc, base := reg32 l.th f.a, epc := w.pc, quad := w.quad, slot := w.slot }
          advance (s.modMxe c fun x => { x with q := x.q ++ [m] }))) s
def mldb (f : Fields) (s : State) : State := matrixCmd (.mldb f) f s
def mma (f : Fields) (s : State) : State := matrixCmd (.mma f) f s
def accz (f : Fields) (s : State) : State := matrixCmd (.accz f) f s
def accsc (f : Fields) (s : State) : State := matrixCmd (.accsc f) f s
def accld (f : Fields) (s : State) : State := matrixCmd (.accld f) f s
def accst (f : Fields) (s : State) : State := matrixCmd (.accst f) f s
def msel (f : Fields) (s : State) : State := matrixCmd (.msel f) f s
def msig (f : Fields) (s : State) : State := matrixCmd (.msig f) f s

/-- The permit of the matrix engine's record returns, and a SIG record pulses source 12 (spec 12 R264). -/
def returnM (c : Nat) (s : State) : State :=
  match (s.mxe c).held with
  | none => s
  | some sig =>
    let s1 := (s.modMxe c fun x => { x with held := none }).modLcp c fun x => { x with outM := x.outM - 1 }
    wakeEngine c (if sig then pulse c 12 s1 else s1)
/-- The matrix program ends. -/
def mxEnd (c : Nat) (s : State) : State :=
  wakeEngine c ((returnM c s).modMxe c fun x => { x with prog := none, iw := Vector.replicate 8 0 })
/-- Runs in the sequencer only: no wave decodes these. -/
def inSequencer (k : Nat → State → State) (s : State) : State :=
  match s.cur with
  | .engine c .matrix => k c s
  | _ => s
/-- MNEXT acts in the sequencer at once, as MWAITE and MEND do: the spec does not say that they wait for the commands queued before
them (spec 08 R164; log entry 74). -/
def mnext (_ : Fields) (s : State) : State :=
  inSequencer (fun c s =>
    match (s.lcp c).recM with
    | r :: rest =>
      let s1 := (returnM c s).modLcp c fun x => { x with recM := rest }
      engineNext (s1.modMxe c fun x => { x with iw := r.words, held := some r.sig })
    | [] => if (s.lcp c).prog.isSome then returnM c s else mxEnd c s) s
def mwaite (f : Fields) (s : State) : State :=
  inSequencer (fun c s =>
    let k := imNat f 0 4
    if (sinkOf s c k).act ≠ 0 then
      if (s.mxe c).q.isEmpty then programFault c .matrix 0x4A 0 (engineWord (.mwaite f)) s else s
    else match takeCounts c k 1 s with
      | none => s
      | some s1 => engineNext s1) s
def mend (_ : Fields) (s : State) : State := inSequencer mxEnd s
def mendLoop (_ : Fields) (s : State) : State :=
  inSequencer (fun c s => match (s.mxe c).prog with
    | some p => setProgPc c .matrix p.2 s
    | none => s) s

/-! ## MXE_CTL (spec 08 R156) -/

def mxeCtlClrst (core : Nat) (s : State) : State := s.modMxe core fun x => { x with sat := false, nan := false, ovf := false }
/-- Bits that act only while HALT is set. -/
def mxHalted (core : Nat) (k : State → State) (s : State) : State := if (s.mxe core).halt.isSome then wakeEngine core (k s) else s
/-- ABORT returns the permit of the current record, and pulses source 12 for a SIG record: spec 08 R156 does not speak of it (log
entry 73). -/
def mxeCtlAbort (core : Nat) (s : State) : State :=
  mxHalted core (fun s => mxEnd core (s.modMxe core fun x => { x with q := [], halt := none })) s
def mxeCtlSkip (core : Nat) (s : State) : State :=
  mxHalted core (fun s =>
    let s1 := s.modMxe core fun x => { x with halt := none }
    if (s.mxe core).q.isEmpty then
      match (s.mxe core).prog with
      | some p => setProgPc core .matrix (succPc p.1) s1
      | none => s1
    else s1.modMxe core fun x => { x with q := x.q.drop 1 }) s
def mxeCtlResume (core : Nat) (s : State) : State := mxHalted core (fun s => s.modMxe core fun x => { x with halt := none }) s

/-! Each answers the next state that the definition of its name gives. -/
def execMatrixCommandComplete (core : Nat) (s : State) : Host.Outcome State Fault Refusal := .next (matrixCommandComplete core s)
def execMxeCtlClrst (core : Nat) (s : State) : Host.Outcome State Fault Refusal := .next (mxeCtlClrst core s)
def execMxeCtlAbort (core : Nat) (s : State) : Host.Outcome State Fault Refusal := .next (mxeCtlAbort core s)
def execMxeCtlSkip (core : Nat) (s : State) : Host.Outcome State Fault Refusal := .next (mxeCtlSkip core s)
def execMxeCtlResume (core : Nat) (s : State) : Host.Outcome State Fault Refusal := .next (mxeCtlResume core s)
/-! Each answers the next state that the definition of its name gives. -/
def execMldb (f : Fields) (s : State) : Host.Outcome State Fault Refusal := .next (mldb f s)
def execMma (f : Fields) (s : State) : Host.Outcome State Fault Refusal := .next (mma f s)
def execAccz (f : Fields) (s : State) : Host.Outcome State Fault Refusal := .next (accz f s)
def execAccsc (f : Fields) (s : State) : Host.Outcome State Fault Refusal := .next (accsc f s)
def execAccld (f : Fields) (s : State) : Host.Outcome State Fault Refusal := .next (accld f s)
def execAccst (f : Fields) (s : State) : Host.Outcome State Fault Refusal := .next (accst f s)
def execMsel (f : Fields) (s : State) : Host.Outcome State Fault Refusal := .next (msel f s)
def execMnext (f : Fields) (s : State) : Host.Outcome State Fault Refusal := .next (mnext f s)
def execMwaite (f : Fields) (s : State) : Host.Outcome State Fault Refusal := .next (mwaite f s)
def execMsig (f : Fields) (s : State) : Host.Outcome State Fault Refusal := .next (msig f s)
def execMend (f : Fields) (s : State) : Host.Outcome State Fault Refusal := .next (mend f s)
def execMendLoop (f : Fields) (s : State) : Host.Outcome State Fault Refusal := .next (mendLoop f s)
end Sys2Proof.Machine
end

