-- ==== Sys2Proof/Machine/Copy.lean ====
section
/-!
DEFINITION. Copy.lean: copy descriptors, the copy engine and copy programs, event sinks that start engines, FORK and RDV
(spec 12 R244 to R256, R262, R265 to R267), OP 0x90 to 0x93.
-/
namespace Sys2Proof.Machine

/-! ## Geometry of a copy -/

/-- The tensor record of a CPBLK (spec 12 R247). -/
def tensNat (t : BitVec 512) (off n : Nat) : Nat := (t.extractLsb' (8 * off) (8 * n)).toNat
def tensCount (t : BitVec 512) : Nat := tensNat t 0 4
def tensDense (t : BitVec 512) : Nat := tensNat t 4 1 % 16
def tensRm (t : BitVec 512) : Nat := tensNat t 4 1 / 16
def tensFmt (t : BitVec 512) : Nat := tensNat t 0x10 1
/-- The dense element of a tensor record. -/
def denseElem (code : Nat) : Elem :=
  match code with | 0 => .flt fp32 | 1 => .flt fp16 | 2 => .flt bf16 | _ => .int 32 false
def denseSize (code : Nat) : Nat := (denseElem code).bits / 8
def tensBound (t : BitVec 512) : Nat × Int :=
  let el := elemOf (tensFmt t)
  if tensNat t 0x11 1 / 2 % 2 = 1 then effBound el (BitVec.ofNat 32 (tensNat t 0x14 4)) else el.maxFinite
/-- A valid tensor record. Its format descriptor may not be ZERO, for which spec 05 R91 gives no N(fmt) and which R93 does not list
(log entry 69). -/
def tensOk (t : BitVec 512) : Bool :=
  let n := tensCount t
  let fmt := tensFmt t
  decide (n ≥ 1) && [0, 1, 2, 7].contains (tensDense t) && decide (tensRm t ≤ 4) && tensNat t 5 3 == 0 && tensNat t 8 8 == 0 &&
    decide (1 ≤ fmt ∧ fmt ≤ 7) && tensNat t 0x11 1 % 2 == 1 && decide (tensNat t 0x11 3 < 4) && tensNat t 0x1C 4 == 0 &&
    tensNat t 0x20 32 == 0 && tensNat t 0x18 4 == n % blockCount fmt
/-- Source and destination spaces of a form: 0 global, 1 scratchpad, 2 accumulator store. -/
def srcSpace (form : Nat) (flags : Word) : Nat :=
  match form with
  | 0 => 0 | 1 => 1 | 2 => 1 | 3 => 0 | 4 => 2 | 5 => 2 | 6 => 0
  | _ => (flags.getLsbD 12).toNat
def dstSpace (form : Nat) (flags : Word) : Nat :=
  match form with
  | 0 => 1 | 1 => 0 | 2 => 1 | 3 => 0 | 4 => 1 | 5 => 0 | 6 => 1
  | _ => (flags.getLsbD 13).toNat
def accRow0 (src : DWord) : Nat := (src.extractLsb' 0 6).toNat
def accN (src : DWord) : Nat := (src.extractLsb' 6 6).toNat + 1
def accMask (src : DWord) : Nat := (src.extractLsb' 12 8).toNat
def accFn (src : DWord) : Nat := (src.extractLsb' 20 3).toNat
def Copy.be (c : Copy) : Bool := c.flags.getLsbD 0
def Copy.bsp (c : Copy) : Bool := c.flags.getLsbD 1
def Copy.rd (c : Copy) : Bool := c.flags.getLsbD 2
def Copy.rn (c : Copy) : Nat := (c.flags.extractLsb' 3 4).toNat
def Copy.cl (c : Copy) : Nat := (c.flags.extractLsb' 8 2).toNat
def Copy.cle (c : Copy) : Bool := c.flags.getLsbD 10
def Copy.dir (c : Copy) : Bool := c.flags.getLsbD 11
def Copy.srcSp (c : Copy) : Nat := srcSpace c.form c.flags
def Copy.dstSp (c : Copy) : Nat := dstSpace c.form c.flags
def Copy.isAcc (c : Copy) : Bool := c.srcSp == 2
/-- Units that the engine moves one at a time: sectors, or blocks of a CPBLK. -/
def Copy.units (c : Copy) : Nat :=
  if c.form = 7 then ceilDiv (tensCount c.tens) (blockCount (tensFmt c.tens))
  else if c.isAcc then ceilDiv (accN c.src * (blocksOf (accMask c.src)).length * 64 * accOutSize (accFn c.src)) 64
  else c.rows * c.rowBytes / 64
/-- Elements of block k. -/
def Copy.blockN (c : Copy) (k : Nat) : Nat := min (blockCount (tensFmt c.tens)) (tensCount c.tens - k * blockCount (tensFmt c.tens))
/-- Dense bytes of a CPBLK. -/
def Copy.denseLen (c : Copy) : Nat := tensCount c.tens * denseSize (tensDense c.tens)
/-- Bytes that a copy lands in all, and those that it has moved (spec 12 R241). -/
def Copy.total (c : Copy) : Nat := if c.form = 7 && c.dir then c.denseLen else 64 * c.units
def Copy.moved (c : Copy) : Nat :=
  if c.done ≥ c.units then c.total
  else if c.form = 7 && c.dir then c.done * (blockCount (tensFmt c.tens) * denseSize (tensDense c.tens)) + c.part
  else 64 * c.done
/-- Bytes from the start to the end of the source, and of the destination. -/
def Copy.srcLen (c : Copy) : Nat :=
  if c.form = 7 then (if c.dir then c.units * 64 else c.denseLen) else (c.rows - 1) * c.srcPitch + c.rowBytes
def Copy.dstLen (c : Copy) : Nat :=
  if c.form = 7 then (if c.dir then c.denseLen else c.units * 64)
  else if c.isAcc then c.units * 64 else (c.rows - 1) * c.dstPitch + c.rowBytes
/-- A copy whose destination is a ring slot: a CPBLK ignores RD (spec 12 R252). -/
def Copy.toRing (c : Copy) : Bool := c.rd && c.form != 7
/-- The teams that a team's copies land in: both of a redundant pair (spec 22 R421). -/
def mirrors (s : State) (team : Nat) : List Nat :=
  match (s.team team).role with
  | .primary p => [team, p]
  | _ => [team]
/-- The teams that receive a multicast, redundant partners included (spec 12 R255). -/
def Copy.landsIn (c : Copy) (s : State) : List Nat := c.receivers.flatMap fun r => mirrors s r.1
/-- Whether a copy targets a team (spec 12 R256). -/
def Copy.targets (c : Copy) (s : State) (team : Nat) : Bool :=
  ((mirrors s c.team).contains team &&
      (c.srcSp != 0 || (c.dstSp == 1 && c.form != 6) || (c.be && c.bsp) || c.toRing || c.cle)) ||
    (c.landsIn s).contains team

/-! ## Acceptance (spec 12 R244 to R248) -/

/-- The cause of a refused copy, with s.einfo and s.eaddr. -/
structure CopyErr where
  cause : Byte
  info  : Nat := 0
  addr  : Nat := 0
/-- Flag bits that a copy uses, or ignores: RN only with RD, CL only with CLE, and neither RD nor RN for a multicast (spec 12 R244,
log entry 81). -/
def Copy.usedFlags (x : Copy) : Word :=
  (if x.form = 7 then 0x3C7F else if x.form = 6 then 0xFF0403 else if x.rd then 0x47F else 0x407) ||| (if x.cle then 0x300 else 0)
/-- The lowest-numbered reason of spec 12 R246, `tens` being the address of the tensor record. -/
def copyReason (s : State) (x : Copy) (mbz : Nat) (tens : DWord) : Option Nat :=
  let size := scratchSize s x.team
  let blk := x.form == 7
  let acc := x.isAcc
  let al := fun (n : Nat) => n % 64 != 0
  let bar := x.bar.toNat
  let rd := x.toRing
  let gang := (s.grid x.grid).gangTeams
  let mask := (x.flags.extractLsb' 16 8).toNat
  if (blk && al tens.toNat) || (!rd && al x.dst.toNat) || (!acc && al x.src.toNat) || (!acc && !blk && (al x.srcPitch || al x.dstPitch || al x.rowBytes)) ||
      (x.be && al bar) then some 1
  else if (acc && (accMask x.src == 0 || decide (accRow0 x.src + accN x.src > 64))) ||
      (!acc && !blk && !(decide (64 ≤ x.rowBytes ∧ x.rowBytes ≤ 2 ^ 24 ∧ 1 ≤ x.rows ∧ x.rows ≤ 65536))) then some 2
  else if mbz != 0 || (!blk && tens != 0) || (x.flags &&& ~~~x.usedFlags) != 0 || x.flags.getLsbD 7 || (acc && x.src.extractLsb' 23 41 != 0) ||
      (!x.be && (x.bar != 0 || x.bsp)) || (blk && x.rowBytes != 0) || (x.form == 6 && x.be && !x.bsp) then some 3
  else if rd && (x.dstSp == 0 || (match Tab.find (s.teamGroup x.team).rings x.rn with | some r => decide (x.units * 64 > r.size) | none => true)) then some 4
  else if x.form == 6 && (mask == 0 || decide (mask ≥ 2 ^ gang)) then some 5
  else if (x.srcSp == 1 && decide (x.src.toNat + x.srcLen > size)) || (x.dstSp == 1 && !rd && decide (x.dst.toNat + x.dstLen > size)) ||
      (x.be && x.bsp && decide (bar + 64 > size)) then some 6
  else if x.rcd.toNat % 16 != 0 then some 7
  else none
/-- Who a copy accesses memory as: its context, which it keeps after its team retires (spec 12 R256). -/
def copyWho (s : State) (c : Nat) (x : Copy) : Who := ⟨c, x.ctx, (s.ctx x.ctx).svc⟩
/-- Receivers of a multicast, and the slots whose team has retired (spec 12 R255). -/
def mcastTeams (s : State) (team : Nat) (mask : Nat) : List (Nat × Option Nat) :=
  ((List.range 8).filter fun k => mask.testBit k).map fun k => (k, windowTeam s team (BitVec.ofNat 32 (k * 2 ^ 20)))
/-- The tensor record at an address. -/
def readTens (w : Who) (va : DWord) (s : State) : Except CopyErr (BitVec 512) × State :=
  match checkGlobal s w { r := true } 64 va with
  | .error e => (.error ⟨e, 0, va.toNat⟩, s)
  | .ok p =>
    if isRemote p.pa then
      let r := remoteBytes w.ctx p.mode p.pa 64 s
      let t : BitVec 512 := BitVec.ofNat 512 (leNat r.1)
      (if tensOk t then .ok t else .error ⟨0x47, 0, va.toNat⟩, r.2)
    else if poisoned s p.pa then (.error ⟨0x50, 0, lineOf p.pa⟩, s)
    else
      let r := farRead p.pa 64 s
      let t : BitVec 512 := BitVec.ofNat 512 (leNat r.1)
      (if tensOk t then .ok t else .error ⟨0x47, 0, va.toNat⟩, r.2)
/-- The fault of a copy's global barrier object, with its address. -/
def barFault (s : State) (w : Who) (y : Copy) : Option (Byte × Nat) :=
  if y.be && !y.bsp then
    match checkGlobal s w { r := true, w := true, rmw := true } 64 y.bar with
    | .error e => some (e, y.bar.toNat)
    | .ok p => if p.mode == 0 then none else some (0x41, y.bar.toNat)
  else none
/-- A copy checked and placed in the queue, or why not. What the descriptor alone breaks is found before its tensor record is read
(spec 12 R246). -/
def acceptCopy (c : Nat) (x : Copy) (mbz : Nat) (descAddr : Nat) (s : State) : Except CopyErr Unit × State :=
  let w := copyWho s c x
  let va : DWord := BitVec.ofNat 64 x.tens.toNat
  let first := copyReason s { x with tens := 0 } mbz va
  let refused := fun (k : Nat) => (⟨0x60, k, descAddr⟩ : CopyErr)
  let tr : Except CopyErr (BitVec 512) × State :=
    match first with
    | some k => if x.form ≠ 7 || k ≤ 6 then (.error (refused k), s) else
        (match readTens w va s with
         | (.error _, s1) => (.error (refused k), s1)
         | r => r)
    | none => if x.form = 7 then readTens w va s else (.ok 0, s)
  match tr.1 with
  | .error e => (.error e, tr.2)
  | .ok t =>
    let s := tr.2
    let y := { x with tens := t }
    match copyReason s y mbz va with
    | some k => (.error (refused k), s)
    | none =>
      match barFault s w y with
      | some e => (.error ⟨e.1, 0, e.2⟩, s)
      | none =>
        let m := if y.form = 6 then mcastTeams s y.team (y.flags.extractLsb' 16 8).toNat else []
        let gone := m.filterMap fun e => if e.2.isNone then some e.1 else none
        let z := { y with
          id := s.work.nextCopy
          receivers := m.filterMap fun e => e.2.map fun t => (t, (s.team t).gen)
          drops := gone.foldl (fun (d : Byte) k => d ||| (1#8 <<< k)) 0 }
        let s1 := gone.foldl (fun s k => logCore 0x61 c y.ctx y.dst (BitVec.ofNat 64 k) s) s
        (.ok (), (s1.modWork fun q => { q with nextCopy := q.nextCopy + 1 }).modCpe c fun q => { q with q := q.q ++ [z] })
/-- A copy from the bytes of its descriptor. -/
def descCopy (bs : List Byte) (form : Nat) (s : State) (team : Nat) : Copy :=
  let g := (s.team team).grid
  let w := fun off n => BitVec.ofNat 64 (leAt bs off n)
  { team := team, grid := g, ctx := (s.grid g).ctx, form := form, src := w 0 8, dst := w 8 8, rowBytes := leAt bs 0x10 4
    rows := leAt bs 0x14 4, srcPitch := leAt bs 0x18 4, dstPitch := leAt bs 0x1C 4, bar := w 0x20 8, rcd := w 0x28 8
    tens := BitVec.ofNat 512 (leAt bs 0x30 8), flags := BitVec.ofNat 32 (leAt bs 0x38 4) }
/-- An iteration word added to an address of a space. -/
def addIw (space : Nat) (x : DWord) (w : Word) : DWord :=
  match space with
  | 0 => x + w.setWidth 64
  | 1 => (loW x + w).setWidth 64
  | _ => x

/-! ## CP and CPBLK: OP 0x90, 0x91 (spec 12 R248, R249) -/

/-- The address of a wave's descriptor. -/
def descEa (f : Fields) (t : Thread) : DWord :=
  let off := (f.imm.extractLsb' 0 20).toNat * 64
  if f.imm.getLsbD 23 then (reg32 t f.a + BitVec.ofNat 32 off).setWidth 64 else reg64 t f.a + BitVec.ofNat 64 off
def descLoc (f : Fields) (s : State) (l : Lane) : Except Byte Loc :=
  let ea := descEa f l.th
  if f.imm.getLsbD 23 then
    match checkScratch s l.th.team 64 ea.toNat with
    | some e => .error e
    | none => .ok (.scr l.th.team ea.toNat)
  else
    match checkGlobal s (whoOf s l.th) { r := true } 64 ea with
    | .error e => .error e
    | .ok x => .ok (.glob x.mode x.pa)
/-- A trap of a whole wave-once instruction, with the lane that met it. -/
def onceTrap (f : Fields) (l : Lane) (cause : Byte) (ea : DWord) (s : State) : State :=
  trapAll f { cause := cause, eaddr := ea, einfo := (1#64 <<< l.lane) } s
/-- A secondary team of a redundant pair: its copies are performed by the primary (spec 22 R421). -/
def isSecondary (s : State) (team : Nat) : Bool := match (s.team team).role with | .secondary _ => true | _ => false
/-- A copy of a wave, its descriptor read. -/
def waveCopy (f : Fields) (form : Nat) (l : Lane) (bs : List Byte) (s : State) : State :=
  let c := s.coreOf l.th
  let w := s.wave s.curWave
  let x : Copy :=
    { descCopy bs form s l.th.team with
      scope := scopeOf f, hint := f.mod.extractLsb' 4 2, quad := w.quad, slot := w.slot, epc := w.pc
      op := if form = 7 then 0x91 else 0x90, fn := f.fn }
  let claims := x.toRing || x.cle
  let go := fun (s1 : State) =>
    if (s.cpe c).q.length ≥ 64 then waitAll f .engine s
    else if isSecondary s l.th.team then advance s1
    else
      let r := acceptCopy c x (leAt bs 0x3C 4) (descEa f l.th).toNat s1
      match r.1 with
      | .ok _ => advance r.2
      | .error e => trapAll f { cause := e.cause, eaddr := BitVec.ofNat 64 e.addr, einfo := BitVec.ofNat 64 e.info } s
  if !claims then go s
  else
    match claim c l.th.team s with
    | .busy => waitAll f .engine s
    | .bad => trapAll f { cause := 0x4A } s
    | .pages ps => waitPages f ps s
    | .owned s1 => go s1
/-- The passes whose bodies have ended, once the present one has: SIG of its record, and whether it came from one. -/
def Cpe.closedPasses (x : Cpe) : List (Nat × Bool × Bool) :=
  match x.held with | some p => x.passes ++ [(p.1, p.2, x.looped)] | none => x.passes
/-- A team's passes whose bodies and copies are finished: the permit of a record returns and SIG pulses source 12. -/
def finishPasses (team : Nat) (s : State) : State :=
  let ended := (s.teamCpe team).passes.filter fun p =>
    !(s.cores.any fun e => e.2.cpe.q.any fun x => x.team == team && x.pass == some p.1)
  let s1 := if ended.isEmpty then s
    else s.modTeamCpe team fun q => { q with passes := q.passes.filter fun p => !(ended.any fun e => e.1 == p.1) }
  ended.foldl (fun s p =>
    s.modTeamGroup team fun g =>
      let g1 := if p.2.2 then { g with lcp := { g.lcp with outC := g.lcp.outC - 1 } } else g
      if p.2.1 then g1.pulsed 12 else g1) s1
/-- A copy of a copy program. -/
def progCopy (f : Fields) (form : Nat) (s : State) : State :=
  let c := s.hereCore
  let team := s.hereTeam
  let off := (f.imm.extractLsb' 0 20).toNat * 64
  let cpe := s.cpe c
  let i := if form = 7 then Instr.cpblk f else .cp f
  let finish := fun (s : State) =>
    if !f.imm.getLsbD 22 then engineNext s
    else
      finishPasses team (wakeEngine c (s.modCpe c fun x =>
        { x with
          passes := x.closedPasses
          held := none
          prog := if x.looped then x.prog.map fun p => (p.2, p.2) else none }))
  match checkScratch s team 64 off with
  | some e => programFault c .copy e (BitVec.ofNat 64 off) (engineWord i) s
  | none =>
    if cpe.q.length ≥ 64 || inTransit s team off 64 then s
    else if backPoisoned s team off then programFault c .copy 0x50 (BitVec.ofNat 64 off) (engineWord i) s
    else
      let bs := scratchBytes s team off 64
      let x0 := descCopy bs form s team
      let iw := fun (k : Nat) => cpe.iw.getD k 0
      let x : Copy :=
        { x0 with
          src := if f.imm.getLsbD 31 then addIw (srcSpace form x0.flags) x0.src (iw (f.imm.extractLsb' 28 3).toNat) else x0.src
          dst := if f.imm.getLsbD 27 then addIw (dstSpace form x0.flags) x0.dst (iw (f.imm.extractLsb' 24 3).toNat) else x0.dst
          scope := scopeOf f, hint := f.mod.extractLsb' 4 2, epc := (progPc s c .copy).getD 0
          op := if form = 7 then 0x91 else 0x90, fn := f.fn, prog := true, pass := cpe.held.map (·.1) }
      if isSecondary s team then finish s
      else
        let r := acceptCopy c x (leAt bs 0x3C 4) off s
        match r.1 with
        | .ok _ => finish r.2
        | .error e =>
          let w := engineWord i
          programFaultWith c .copy e.cause (BitVec.ofNat 64 e.addr) w
            (if e.cause = 0x60 then BitVec.ofNat 32 e.info else w.extractLsb' 0 32) s
def copyInstr (f : Fields) (form : Nat) (s : State) : State :=
  if s.inEngine then progCopy f form s
  else
    waveOnce f (fun l s =>
      match descLoc f s l with
      | .error e => onceTrap f l e (descEa f l.th) s
      | .ok p =>
        match locWait s false p with
        | some k => waitLocs f k [p] s
        | none =>
          if p.poisoned s then poisonTrap f (match p with | .glob _ pa => pa | .scr _ o => o) s
          else
            let r := p.read 64 (touchLoc p s)
            waveCopy f form l r.1 r.2) s
def cp (f : Fields) (s : State) : State := copyInstr f f.fn.toNat s
def cpblk (f : Fields) (s : State) : State := copyInstr f 7 s

/-! ## Moving sectors (spec 12 R250 to R253) -/

/-- Bytes from an endpoint: a fault, or the bytes. -/
def endRead (w : Who) (space team addr n : Nat) (s : State) : Except (Byte × Nat) (List Byte) × State :=
  if space = 1 then
    (if backPoisoned s team addr then .error (0x50, addr) else .ok (scratchBytes s team addr n), touchPages team addr n s)
  else vaRead w { r := true } addr n s
/-- The scratchpads that a copy's destination lies in. -/
def Copy.pads (c : Copy) (s : State) : List Nat :=
  if c.form = 6 then c.landsIn s else if c.dstSp = 1 then mirrors s c.team else []
/-- The packets that a write of a copy has just sent carry its name. -/
def tagCopy (id : Nat) (s0 s : State) : State :=
  s.modFabric fun g => { g with flows := g.flows.map fun e =>
    let n := (Tab.get s0.fabric.flows e.1 {}).outst.length
    (e.1, { e.2 with outst := e.2.outst.take n ++ (e.2.outst.drop n).map fun o => { o with copy := some id } }) }
/-- Bytes at a destination: in scratchpads, or from a virtual address. -/
def endWrite (w : Who) (c : Copy) (addr : Nat) (bs : List Byte) (s : State) : Except (Byte × Nat) State :=
  if c.dstSp = 1 then .ok ((c.pads s).foldl (fun s t => scratchWrite t addr bs s) s)
  else match vaWrite w { w := true } addr bs s with
    | .ok s1 => .ok (tagCopy c.id s s1)
    | .error e => .error e
/-- Bytes landed sector by sector: how many landed, and what stopped the rest. -/
def landSectors (w : Who) (c : Copy) (addr : Nat) (bs : List Byte) (s : State) : Nat × Option (Byte × Nat) × State :=
  (chunks 64 (bs.length / 64 + 2) addr bs.length).foldl (fun acc k =>
    match acc.2.1 with
    | some _ => acc
    | none =>
      match endWrite w c k.1 ((bs.drop (k.1 - addr)).take k.2) acc.2.2 with
      | .ok s1 => (acc.1 + k.2, none, s1)
      | .error e => (acc.1, some e, acc.2.2)) (0, none, s)
/-- The dense elements of a group, and the group as bytes. -/
def denseVals (code : Nat) (bs : List Byte) (n : Nat) : List FVal :=
  let sz := denseSize code
  (List.range n).map fun i => (denseElem code).read (leAt bs (i * sz) sz)
def denseBytes (code rm : Nat) (vs : List FVal) : List Byte := vs.flatMap fun v => natLe (denseSize code) ((denseElem code).write rm v)
/-- Unit k of a copy: where it reads, what it makes of the bytes, where it writes. -/
def Copy.unit (c : Copy) (base k : Nat) : (Nat × Nat) × (List Byte → Option (List Byte)) × Nat :=
  if c.form = 7 then
    let code := tensDense c.tens
    let sz := denseSize code
    let per := blockCount (tensFmt c.tens) * sz
    if c.dir then
      ((c.src.toNat + 64 * k, 64), (fun bs =>
        if blockOk (leNat bs) (tensFmt c.tens) then
          some (denseBytes code (tensRm c.tens) (unpackBlock (leNat bs) (tensFmt c.tens) (c.blockN k)))
        else none), c.dst.toNat + per * k)
    else
      ((c.src.toNat + per * k, c.blockN k * sz), (fun bs =>
        some (natLe 64 (packBlock (denseVals code bs (c.blockN k)) (tensFmt c.tens) (tensRm c.tens) (tensBound c.tens)))),
        c.dst.toNat + 64 * k)
  else
    let per := c.rowBytes / 64
    let r := k / max 1 per
    let j := k % max 1 per
    if c.isAcc then ((0, 0), some, base + 64 * k)
    else ((c.src.toNat + r * c.srcPitch + 64 * j, 64), some, base + r * c.dstPitch + 64 * j)
/-- Bytes that the next unit lands. -/
def Copy.unitLen (c : Copy) : Nat := if c.form = 7 && c.dir then c.blockN c.done * denseSize (tensDense c.tens) else 64
/-- A copy in the queue replaced. -/
def setCopy (c : Nat) (x : Copy) (s : State) : State :=
  s.modCpe c fun q => { q with q := q.q.map fun y => if y.id == x.id then x else y }
/-- Places of the barrier objects that a copy credits. -/
def barLocs (s : State) (w : Who) (x : Copy) : List (Except Byte Loc) :=
  if x.form = 6 then (x.landsIn s).map fun t => .ok (.scr t x.bar.toNat)
  else if x.bsp then (mirrors s x.team).map fun t => .ok (.scr t x.bar.toNat)
  else [match checkGlobal s w { r := true, w := true, rmw := true } 64 x.bar with
    | .ok p => .ok (.glob p.mode p.pa)
    | .error e => .error e]
/-- A credit of a copy; one whose object is out of reach is logged. -/
def creditCopy (c : Nat) (x : Copy) (bytes : Nat) (failed : Bool) (s : State) : State :=
  if !x.be || bytes = 0 then s
  else
    (barLocs s (copyWho s c x) x).foldl (fun s l =>
      match l with
      | .ok p => creditAt x.ctx p bytes failed (x.fatal.getD 0) s
      | .error e => logCore e c x.ctx x.bar 0 s) s
/-- Bytes of a copy on their way to remote memory. -/
def unacked (s : State) (id : Nat) : Nat :=
  (s.fabric.flows.flatMap fun e => e.2.outst).foldl (fun n o => if o.copy == some id then n + o.pkt.size else n) 0
/-- The bytes of a copy that have landed, in whole sectors unless they are all (spec 12 R241). -/
def landed (s : State) (x : Copy) : Nat :=
  let n := x.moved - x.lost - unacked s x.id
  if n = x.total then n else n / 64 * 64
/-- The landed bytes credited, in so far as they are not yet. -/
def creditLanded (c : Nat) (x : Copy) (s : State) : State :=
  let n := landed s x
  if n ≤ x.credited then s else creditCopy c x (n - x.credited) false (setCopy c { x with credited := n } s)
/-- A later copy whose destination lies over the source of an earlier one that waits is held back (spec 12 R250). -/
def Copy.heldBy (x y : Copy) : Bool :=
  !x.toRing && !y.isAcc &&
    (if y.srcSp = 0 then x.dstSp == 0 && x.ctx == y.ctx
     else x.dstSp == 1 && (x.team == y.team || x.receivers.any fun r => r.1 == y.team)) &&
    decide (x.dst.toNat < y.src.toNat + y.srcLen) && decide (y.src.toNat < x.dst.toNat + x.dstLen)
/-- The first copy of the queue that can move: a ring copy without a slot is set aside, with the later ones to its ring and those
it holds back. -/
def nextCopy (s : State) : List Copy → List Copy → Option Copy
  | [], _ => none
  | x :: r, aside =>
    if x.fatal.isSome || x.done ≥ x.units then nextCopy s r aside
    else if aside.any fun y => x.heldBy y || (x.toRing && y.toRing && x.team == y.team && x.rn == y.rn) then nextCopy s r (x :: aside)
    else if x.toRing && !x.begun then
      (match Tab.find (s.teamGroup x.team).rings x.rn with
       | none => nextCopy s r aside
       | some g => if g.e = 0 then nextCopy s r (x :: aside) else some x)
    else some x
/-- The rings of a team, and of its redundant partner, changed alike. -/
def modRings (team n : Nat) (k : Ring → Ring) (s : State) : State :=
  (mirrors s team).foldl (fun s t =>
    s.modTeamGroup t fun g => { g with rings := g.rings.map fun e => if e.1 == n then (e.1, k e.2) else e }) s
/-- A copy begins: one with RD takes the next slot of its ring. -/
def beginCopy (c : Nat) (x : Copy) (s : State) : Copy × State :=
  if x.begun then (x, s)
  else if x.toRing then
    match Tab.find (s.teamGroup x.team).rings x.rn with
    | some r =>
      let y := { x with begun := true, ringSlot := some (r.reserve false).1, dst := BitVec.ofNat 64 (r.slotAt (r.reserve false).1) }
      (y, setCopy c y (modRings x.team x.rn (fun r => (r.reserve false).2) s))
    | none => (x, s)
  else
    let y := { x with begun := true }
    (y, setCopy c y s)
/-- s.einfo of a copy fault (spec 12 R253). -/
def copyInfo (x : Copy) (k : Nat) : DWord := engineInfo .copy x.prog x.quad x.slot x.op x.fn (BitVec.ofNat 32 k)
/-- A fault of a copy enters the handler of its core. -/
def copyTrap (c : Nat) (x : Copy) (e : Byte) (addr sector : Nat) : State → State :=
  engineTrap c x.team .copy e (BitVec.ofNat 64 addr) (copyInfo x sector) x.epc x.quad x.slot
/-- The index within a copy of the sector at a failing address (spec 12 R253). -/
def Copy.sectorAt (x : Copy) (source : Bool) (addr : Nat) : Nat :=
  if x.form = 7 then (addr - (if source then x.src.toNat else x.dst.toNat)) / 64 else x.done
/-- A fault of a sector: suspension, or a fatal end, of which the handler hears at completion when nothing else tells. -/
def copyFault (c : Nat) (x : Copy) (e : Byte) (addr sector : Nat) (s : State) : State :=
  if e == 0x40 || e == 0x41 then
    copyTrap c x e addr sector (creditLanded c x (setCopy c x (s.modCpe c fun q => { q with halt := some e, haltCopy := some x.id })))
  else setCopy c { x with fatal := some e, fatalAt := addr, fatalSec := sector } s
/-- The line of a global source that cannot be corrected is poisoned (spec 21 R412). -/
def poisonSource (w : Who) (space addr : Nat) (s : State) : State :=
  if space = 1 then s
  else
    match checkGlobal s w { r := true } 1 (BitVec.ofNat 64 addr) with
    | .error _ => s
    | .ok x => setPoison (lineOf x.pa) (s.logDev 0x50 0xFF (unitOf 1 (homeSlice (lineOf x.pa))) (BitVec.ofNat 64 x.pa) 0)
/-- The L2 keeps the hint class of a copy's global accesses (spec 09 R187, 12 R248). -/
def hintLine (w : Who) (hint : BitVec 2) (addr : Nat) (dirty : Bool) (s : State) : State :=
  match checkGlobal s w {} 1 (BitVec.ofNat 64 addr) with
  | .ok p =>
    if isRemote p.pa || p.mode == 2 then s
    else l2Touch (lineOf p.pa) hint (sectorBit p.pa) (if dirty then sectorBit p.pa else 0) s
  | .error _ => s
/-- The bytes of each scratchpad that the next sector touches. -/
def Copy.padSpans (x : Copy) (s : State) : List (Nat × Nat × Nat) :=
  let u := x.unit x.dst.toNat x.done
  (if x.srcSp = 1 then [(x.team, u.1.1, u.1.2)] else []) ++ ((x.pads s).map fun t => (t, u.2.2, x.unitLen)) ++
    if x.be && x.bsp then ((if x.form = 6 then x.landsIn s else mirrors s x.team).map fun t => (t, x.bar.toNat, 64)) else []
/-- A line of the destination that the host may hold: its snoop comes first (spec 13 R272). -/
def Copy.snoops (x : Copy) (w : Who) (s : State) : Option Nat :=
  if x.dstSp = 1 then none
  else (chunks 64 (x.unitLen / 64 + 2) (x.unit x.dst.toNat x.done).2.2 x.unitLen).findSome? fun k =>
    match checkGlobal s w { w := true } 1 (BitVec.ofNat 64 k.1) with
    | .ok p => if hostHolds s p.pa then some (lineOf p.pa) else none
    | .error _ => none
/-- The copy engine moves and lands one sector, or one group of a CPBLK. It waits for pages in transition and for snoops. -/
def moveSector (core : Nat) (outcome : ReadOutcome) (s : State) : State :=
  if s.guidon.frozen || (s.cpe core).halt.isSome then s
  else
    match nextCopy s (s.cpe core).q [] with
    | none => s
    | some x0 =>
      let b := beginCopy core x0 s
      let x := b.1
      let w := copyWho b.2 core x
      let u := x.unit x.dst.toNat x.done
      if (x.padSpans b.2).any fun p => inTransit b.2 p.1 p.2.1 p.2.2 then b.2
      else
        match x.snoops w b.2 with
        | some line => noteSnoop (.remote line) b.2
        | none =>
          let rd : Except (Byte × Nat) (List Byte) × State :=
            if x.isAcc then
              (.ok ((accBytes (b.2.teamGroup x.team).mxe (accFn x.src) (accRow0 x.src) (accN x.src) (accMask x.src)).drop (64 * x.done) |>.take 64), b.2)
            else endRead w x.srcSp x.team u.1.1 u.1.2 b.2
          match rd.1 with
          | .error e => copyFault core x e.1 e.2 (x.sectorAt true e.2) rd.2
          | .ok bs =>
            let s1 := match outcome with
              | .corrected => softError core x.ctx 0x50 u.1.1 rd.2
              | _ => rd.2
            if outcome = .uncorrectable then
              copyFault core x 0x50 u.1.1 (x.sectorAt true u.1.1) (if x.isAcc then rd.2 else poisonSource w x.srcSp u.1.1 rd.2)
            else
              match u.2.1 bs with
              | none => copyFault core x 0x47 u.1.1 (x.sectorAt true u.1.1) s1
              | some out =>
                let r := landSectors w x (u.2.2 + x.part) (out.drop x.part) s1
                match r.2.1 with
                | some e => copyFault core { x with part := x.part + r.1 } e.1 e.2 (x.sectorAt false e.2) r.2.2
                | none =>
                  let y := { x with done := x.done + 1, part := 0 }
                  let s2 := if x.srcSp = 0 then hintLine w x.hint u.1.1 false r.2.2 else r.2.2
                  let s3 := setCopy core y (if x.dstSp = 0 then hintLine w x.hint u.2.2 true s2 else s2)
                  if y.done < y.units then creditLanded core y s3 else s3

/-! ## Completion (spec 12 R250, R251, R264) -/

/-- Whether the last sector of a copy has landed, or it has failed; what it sent to remote memory is answered first. -/
def Copy.isOver (s : State) (x : Copy) : Bool := (x.fatal.isSome || decide (x.done ≥ x.units)) && decide (unacked s x.id = 0)
/-- The bytes of the completion record. -/
def Copy.record (x : Copy) : List Byte :=
  natLe 4 (if x.fatal.isSome then 2 else 1) ++ natLe 4 (x.fatal.getD 0).toNat ++ natLe 4 x.drops.toNat ++ natLe 4 0
/-- A copy completes: the final credit, the ring's count, the pulse on its line, the record as a release at its scope, and the
handler where nothing else tells of a fatal fault. -/
def copyComplete (core copy : Nat) (s : State) : State :=
  match (s.cpe core).q.find? fun x => x.id == copy with
  | none => s
  | some x =>
    if s.guidon.frozen || !x.isOver s then s
    else
      let s0 := creditLanded core x s
      let s1 := if x.fatal.isSome then creditCopy core x (x.total - landed s x) true s0 else s0
      let s2 := match x.ringSlot with
        | some slot => modRings x.team x.rn (fun r => r.ready slot) s1
        | none => s1
      let s3 := if x.cle then (mirrors s x.team).foldl (fun s t => s.modTeamGroup t (Group.pulsed x.cl)) s2 else s2
      let s4 :=
        if x.rcd = 0 then s3
        else match vaWrite (copyWho s3 core x) { w := true } x.rcd.toNat x.record (releaseSide core x.scope s3) with
          | .ok s' => s'
          | .error e => logCore e.1 core x.ctx x.rcd 0 s3
      let s5 := s4.modCpe core fun q => { q with q := q.q.filter fun y => y.id != copy }
      let s6 := if x.fatal.isSome && !x.be && x.rcd = 0 && !x.told then copyTrap core x (x.fatal.getD 0) x.fatalAt x.fatalSec s5 else s5
      finishPasses x.team (wakeEngine core s6)
/-- Packets of copies that are answered, or abandoned with a cause (spec 10 R206, 13 R283): landed bytes are credited, and lost ones
end their copy. -/
def copyAnswered (os : List Outst) (cause : Option Byte) (s : State) : State :=
  os.foldl (fun s o =>
    match s.cores.findSome? fun e => (e.2.cpe.q.find? fun x => o.copy == some x.id).map fun x => (e.1, x) with
    | none => s
    | some (c, x) =>
      match cause with
      | none => if x.done < x.units then creditLanded c x s else s
      | some e => setCopy c { x with lost := x.lost + o.pkt.size, fatal := some (x.fatal.getD e)
                                     fatalAt := if x.fatal.isSome then x.fatalAt else o.pkt.pa } s) s

/-! ## CPE_STAT and CPE_CTL (spec 12 R254, R267) -/

def cpeStat (s : State) (c : Nat) : Word :=
  let q := s.cpe c
  BitVec.ofNat 32 (q.halt.isSome.toNat * 2 ^ 31 + q.prog.isSome.toNat * 2 ^ 30 + (q.halt.getD 0).toNat * 2 ^ 16 + q.q.length * 2 ^ 8)
def cpeHalted (c : Nat) (k : Cpe → State → State) (s : State) : State :=
  let q := s.cpe c
  if q.halt.isSome then wakeEngine c (k q (s.modCpe c fun x => { x with halt := none, haltCopy := none, haltSink := none })) else s
def cpeCtlResume (core : Nat) (s : State) : State := cpeHalted core (fun _ s => s) s
def cpeCtlFail (core : Nat) (fcause : Byte) (s : State) : State :=
  cpeHalted core (fun q s =>
    match q.haltCopy with
    | some id =>
      (match q.q.find? fun x => x.id == id with
       | some x => setCopy core { x with fatal := some fcause, told := true } s
       | none => s)
    | none =>
      match q.haltSink with
      | some k => setSink core k { sinkOf s core k with cnt := (sinkOf s core k).cnt - 1 } s
      | none =>
        finishPasses ((s.core core).owner.getD 0) (s.modCpe core fun x =>
          { x with prog := none, held := none, passes := x.closedPasses })) s

/-! ## Sinks that start engines (spec 12 R262) -/

def sinkMprogStart (core sink : Nat) (s : State) : State :=
  let x := sinkOf s core sink
  if s.guidon.frozen || x.act ≠ 1 || x.cnt = 0 || (s.mxe core).prog.isSome || (s.core core).owner.isNone then s
  else
    (setSink core sink { x with cnt := x.cnt - 1 } s).modMxe core fun m =>
      { m with prog := some (x.addr, x.addr), iw := Vector.replicate 8 0 }
def sinkCopySubmit (core sink : Nat) (s : State) : State :=
  let x := sinkOf s core sink
  let q := s.cpe core
  match (s.core core).owner with
  | none => s
  | some team =>
    if s.guidon.frozen || x.act ≠ 2 || x.cnt = 0 || q.q.length ≥ 64 || q.halt.isSome || inTransit s team x.addr.toNat 64 then s
    else
      let taken := setSink core sink { x with cnt := x.cnt - 1 } s
      let op : Byte := if x.form = 7 then 0x91 else 0x90
      let fn := if x.form = 7 then 0 else x.form
      let refuse := fun (cause : Byte) (addr : Nat) (hi : Nat) =>
        engineTrap core team .copy cause (BitVec.ofNat 64 addr) (engineInfo .copy false x.quad x.slot op (BitVec.ofNat 8 fn) (BitVec.ofNat 32 hi))
          x.epc x.quad x.slot (s.modCpe core fun q => { q with halt := some cause, haltCopy := none, haltSink := some sink })
      match checkScratch s team 64 x.addr.toNat with
      | some e => refuse e x.addr.toNat 0
      | none =>
        if backPoisoned s team x.addr.toNat then refuse 0x50 x.addr.toNat 0
        else if isSecondary s team then taken
        else
          let bs := scratchBytes s team x.addr.toNat 64
          let c : Copy :=
            { descCopy bs x.form s team with
              scope := x.scope, quad := x.quad, slot := x.slot, epc := x.epc, op := op, fn := BitVec.ofNat 8 fn }
          let r := acceptCopy core c (leAt bs 0x3C 4) x.addr.toNat taken
          match r.1 with
          | .ok _ => r.2
          | .error e => refuse e.cause e.addr e.info

/-! ## FORK and RDV: OP 0x92, 0x93 (spec 12 R266) -/

def fork (f : Fields) (s : State) : State :=
  withGroup f (fun l c s =>
    let m := fun k => f.imm.getLsbD k
    let busy := (m 0 && (s.lcp c).prog.isSome) || (m 1 && (s.cpe c).prog.isSome) || (m 2 && (s.mxe c).prog.isSome)
    some (if busy then waitAll f .engine s
      else
        let at_ := fun (o : Opnd) => (reg64 l.th o, reg64 l.th o)
        let s1 := if m 0 then s.modLcp c fun x => { x with prog := some (at_ f.a), loops := [], closed := false } else s
        let s2 := if m 1 then s1.modCpe c fun x =>
            { x with
              prog := some (at_ f.b), iw := Vector.replicate 8 0, looped := m 0, nextPass := x.nextPass + 1
              held := if m 0 then none else some (x.nextPass, false) } else s1
        let s3 := if m 2 then s2.modMxe c fun x => { x with prog := some (at_ f.c), iw := Vector.replicate 8 0 } else s2
        advance s3)) s
/-- Whether an engine of the team's group is joined. -/
def joined (s : State) (c team : Nat) (f : Fields) : Bool :=
  if (s.core c).owner != some team then true
  else
    (!f.imm.getLsbD 0 || (s.lcp c).prog.isNone || ((s.lcp c).closed && (s.lcp c).loops.isEmpty && (s.lcp c).halt.isNone)) &&
      (!f.imm.getLsbD 1 || ((s.cpe c).prog.isNone && (s.cpe c).passes.isEmpty &&
        !(s.cores.any fun k => k.2.cpe.q.any fun x => x.prog && x.team == team))) &&
      (!f.imm.getLsbD 2 || ((s.mxe c).prog.isNone && (s.mxe c).q.isEmpty))
def rdv (f : Fields) (s : State) : State :=
  waveOnce f (fun l s => if joined s (s.coreOf l.th) l.th.team f then advance s else waitAll f .engine s) s

/-! ## Engine programs (spec 08 R153, 12 R264, R265, R267) -/

/-- A record taken for the next pass of a looped copy program; the program ends when none can come. -/
def nextPass (c : Nat) (s : State) : State :=
  match (s.lcp c).recC with
  | r :: rest =>
    (s.modLcp c fun x => { x with recC := rest }).modCpe c fun x =>
      { x with iw := r.words, held := some (x.nextPass, r.sig), nextPass := x.nextPass + 1 }
  | [] => if (s.lcp c).prog.isSome then s else wakeEngine c (s.modCpe c fun x => { x with prog := none })
/-- The instructions of engine programs. -/
def runProgram (i : Instr) (s : State) : State :=
  match i with
  | .cp f => cp f s
  | .cpblk f => cpblk f s
  | .evwait f => evwait f s
  | .mldb f => mldb f s
  | .mma f => mma f s
  | .accz f => accz f s
  | .accsc f => accsc f s
  | .accld f => accld f s
  | .accst f => accst f s
  | .msel f => msel f s
  | .mnext f => mnext f s
  | .mwaite f => mwaite f s
  | .msig f => msig f s
  | .mend f => mend f s
  | .mendLoop f => mendLoop f s
  | .loopL f => loopL f s
  | .endl f => endl f s
  | .emit f => emit f s
  | .permw f => permw f s
  | .lset f => lset f s
  | .lend f => lend f s
  | _ => engineNext s
def engineHalted (s : State) (c : Nat) : Engine → Bool
  | .copy => (s.cpe c).halt.isSome
  | .matrix => (s.mxe c).halt.isSome
  | .lcp => (s.lcp c).halt.isSome
/-- Start addresses stand on a branch target. -/
def atStart (s : State) (c : Nat) (e : Engine) (pc : DWord) : Bool :=
  match e with
  | .copy => (s.cpe c).prog.any fun p => p.2 == pc
  | .matrix => (s.mxe c).prog.any fun p => p.2 == pc
  | .lcp => (s.lcp c).prog.any fun p => p.2 == pc
/-- What an engine program may decode. -/
def engineEnv (s : State) (c : Nat) (e : Engine) : DecEnv :=
  { regs := (s.grid (s.team ((s.core c).owner.getD 0)).grid).regs, priv := false, handler := false, engine := some e, shapeSec := false }
/-- An engine fetches, checks and runs one instruction of its program. A fault of the sequencer waits until the commands
before it are complete. -/
def engineProgramFetch (core : Nat) (engine : Engine) (s : State) : State :=
  if s.guidon.frozen || engineHalted s core engine then s
  else
    match progPc s core engine with
    | none => s
    | some pc =>
      if engine = .copy && (s.cpe core).looped && (s.cpe core).held.isNone then nextPass core s
      else
        let fault := fun (cause : Byte) (addr : DWord) (w : IWord) (s : State) =>
          if engine = .matrix && !(s.mxe core).q.isEmpty then s else programFault core engine cause addr w s
        let r := engineFetch core pc s
        match r.1 with
        | .error e => fault e (lineAddr pc) 0 r.2
        | .ok (w, btm) =>
          if atStart s core engine pc && !btm then fault 0x05 pc w r.2
          else
            match decodeWord (engineEnv s core engine) w with
            | .error e => fault e.cause pc w r.2
            | .ok i => { runProgram i { r.2 with cur := .engine core engine } with cur := .none }

/-- A fault of an engine's own store or tables, at its present command or program instruction. -/
def engineFault (core : Nat) (engine : Engine) (cause : Byte) (addr : DWord) (s : State) : State :=
  if engineHalted s core engine then s
  else
    match engine with
    | .matrix =>
      (match (s.mxe core).q with
       | m :: _ => mxHalt core cause addr.toNat m s
       | [] => if (s.mxe core).prog.isSome then programFault core .matrix cause addr 0 s else s)
    | .copy =>
      (match nextCopy s (s.cpe core).q [] with
       | some x => copyFault core x cause addr.toNat x.done s
       | none => if (s.cpe core).prog.isSome then programFault core .copy cause addr 0 s else s)
    | .lcp => if (s.lcp core).prog.isSome then programFault core .lcp cause addr 0 s else s

/-! Each answers the next state that the definition of its name gives. -/
def execCopyComplete (core : Nat) (copy : Nat) (s : State) : Host.Outcome State Fault Refusal := .next (copyComplete core copy s)
def execSinkMprogStart (core : Nat) (sink : Nat) (s : State) : Host.Outcome State Fault Refusal := .next (sinkMprogStart core sink s)
def execSinkCopySubmit (core : Nat) (sink : Nat) (s : State) : Host.Outcome State Fault Refusal := .next (sinkCopySubmit core sink s)
def execEngineProgramFetch (core : Nat) (engine : Engine) (s : State) : Host.Outcome State Fault Refusal := .next (engineProgramFetch core engine s)
def execEngineFault (core : Nat) (engine : Engine) (cause : Byte) (addr : DWord) (s : State) : Host.Outcome State Fault Refusal := .next (engineFault core engine cause addr s)
def execCpeCtlFail (core : Nat) (fcause : Byte) (s : State) : Host.Outcome State Fault Refusal := .next (cpeCtlFail core fcause s)
def execCpeCtlResume (core : Nat) (s : State) : Host.Outcome State Fault Refusal := .next (cpeCtlResume core s)
/-! Each answers the next state that the definition of its name gives. -/
def execCp (f : Fields) (s : State) : Host.Outcome State Fault Refusal := .next (cp f s)
def execCpblk (f : Fields) (s : State) : Host.Outcome State Fault Refusal := .next (cpblk f s)
def execFork (f : Fields) (s : State) : Host.Outcome State Fault Refusal := .next (fork f s)
def execRdv (f : Fields) (s : State) : Host.Outcome State Fault Refusal := .next (rdv f s)
end Sys2Proof.Machine
end

