-- ==== Sys2Proof/Machine/Spawn.lean ====
section
/-!
DEFINITION. Spawn.lean: OP 0xB8 to 0xBE: spawning, ending, deadlines, the coalescing queue, futures, pools and collision
queries, with the events of launch queues, deadlines, bins and queries (spec 15 R303, 16 R319 to R345).
-/
namespace Sys2Proof.Machine

/-! ## Shared forms -/

/-- The target of BRA and CALL, and the entry of a spawn (spec 06 R116). -/
def branchTarget (pc : DWord) (imm : Word) : DWord :=
  lineAddr pc + ((imm.extractLsb' 3 29).signExtend 64 * 64 + 4 + 12 * (imm.extractLsb' 0 3).setWidth 64)
/-- One thread traps; the other executing threads reissue (log entry 11). -/
def trapOne (f : Fields) (l : Lane) (v : TrapVal) (s : State) : State :=
  let w := s.wave s.curWave
  takePriv ((advance s).modThreads ((s.execLanes f).map Lane.id) fun t => { t with pc := w.pc }) [l.id] s.here v
/-- The addresses of all executing threads that name one, checked under spec 11 R218; then the action. -/
def checkedAddrs (f : Fields) (n : Need) (align : Nat) (ea : Lane → Option DWord) (act : State → State) (s : State) : State :=
  let bad := (byHidx (s.execLanes f)).filterMap fun l =>
    (ea l).bind fun a =>
      match checkGlobal s (whoOf s l.th) n align a with
      | .error c => some (l, c, a)
      | .ok _ => none
  if bad.isEmpty then act s else memTrap f bad s
/-- A lineage that has been cancelled (spec 16 R321). -/
def lineageCancelled (s : State) (l : DWord) : Bool := (Tab.get s.work.lineages l.toNat {}).cancel.isSome

/-! ## SPAWN and SPAWNT (spec 16 R326 to R328) -/

def spawnArgs (f : Fields) : Nat := (f.mod.extractLsb' 0 4).toNat
def spawnNew (f : Fields) : Bool := f.mod.getLsbD 4
def futurePair (f : Fields) (l : Lane) : Option DWord := (regNum? f.c).map fun n => l.th.pair n
/-- Argument registers of a spawner, in order. -/
def spawnRegs (f : Fields) (l : Lane) : List Word := ((regNum? f.a).map fun n => l.th.regs n (spawnArgs f)).getD []
/-- A list cut into runs of at most 32. -/
def runs32 {α : Type} : Nat → List α → List (List α)
  | 0, _ => []
  | n + 1, l => if l.isEmpty then [] else l.take 32 :: runs32 n (l.drop 32)
/-- The lineage of a spawn: the spawner's, or a new one below it. -/
def spawnLineage (f : Fields) (l : Lane) (s : State) : Option (DWord × State) :=
  if lineageCancelled s l.th.lineage then none
  else if spawnNew f then newLineage (s.ctxOf l.th) (some l.th.lineage) none s
  else some (l.th.lineage, s)
/-- The spawn group of n children that share a future; an empty spawn is ready at once. -/
def spawnGroup (f : Fields) (l : Lane) (n : Nat) (s : State) : Option Nat × State :=
  match futurePair f l with
  | none => (none, s)
  | some fut =>
    if n = 0 then (none, writeFuture (s.ctxOf l.th) fut (futStatus 1 0) 0 s)
    else
      let k := s.work.nextGroup
      (some k, s.modWork fun w => { w with groups := Tab.put w.groups k ⟨s.ctxOf l.th, fut, n, 0, none⟩, nextGroup := k + 1 })
/-- The spawn of one thread: its predicate and what is created. -/
def spawnOne (f : Fields) (make : List Child → State → State) (s : State) (l : Lane) : State :=
  let n := (reg32 l.th f.b).toNat
  match spawnLineage f l s with
  | none => s.modThread l.id fun t => putPred f.d false t
  | some (lin, s1) =>
    let g := spawnGroup f l n s1
    let cs := (List.range n).map fun k => (⟨spawnRegs f l ++ [BitVec.ofNat 32 k], lin, g.1, s.dtime⟩ : Child)
    let s2 := (make cs g.2).modThread l.id fun t => putPred f.d true t
    if n = 0 then freeLineages s2 else s2
/-- The checks that SPAWN and SPAWNT share, and the wait for room. -/
def spawnChecked (f : Fields) (limit : Nat) (gangs : Bool) (room : State → Nat → Bool) (act : State → State) (s : State) : State :=
  checkedAddrs f { w := true } 16 (futurePair f) (fun s =>
    let ls := byHidx (s.execLanes f)
    let bad := fun (l : Lane) =>
      if (reg32 l.th f.b).toNat > limit then some 1
      else if gangs && (s.gridOf l.th).gangTeams > 1 then some 2
      else none
    match ls.find? fun l => (bad l).isSome with
    | some l => trapOne f l { cause := 0x83, einfo := BitVec.ofNat 64 ((bad l).getD 0) } s
    | none =>
      let live := ls.filter fun l => !lineageCancelled s l.th.lineage
      if room s (live.foldl (fun n l => n + (if gangs then (reg32 l.th f.b).toNat else ceilDiv (reg32 l.th f.b).toNat 32)) 0) then act s
      else waitAll f .tasks s) s
/-- Thread tasks at the spawner's core, each of at most 32 children of one spawn. -/
def addThreads (l : Lane) (entry : DWord) (cs : List Child) (s : State) : State :=
  let g := s.gridOf l.th
  (runs32 2 cs).foldl (fun s r =>
    addTask { kind := .threads entry l.th.team r, grid := (s.team l.th.team).grid, core := s.coreOf l.th, stamp := s.dtime
              queue := g.queue, cls := g.cls, lineage := (r.head?.map (·.lineage)).getD 0, pinned := g.redundant || g.stay
              queued := s.clock } s) s
def spawn (f : Fields) (s : State) : State :=
  let c := s.hereCore
  spawnChecked f 64 false (fun s n => decide (tasksOn s c + n ≤ Config.taskListMax)) (fun s =>
    let entry := branchTarget (s.wave s.curWave).pc f.imm
    (byHidx (s.execLanes f)).foldl (fun s l => spawnOne f (addThreads l entry) s l) (advance s)) s
/-- Free places in the task lists of a grid's eligible cores. -/
def listRoom (s : State) (g : Grid) (n : Nat) : Bool :=
  let cs := (List.range 128).filter fun c => eligible s g c
  decide (min n (cs.length * Config.taskListMax) ≤ cs.foldl (fun k c => k + (Config.taskListMax - tasksOn s c)) 0)
/-- Child teams appended to the grid's emission. -/
def addTeams (l : Lane) (entry : DWord) (cs : List Child) (s : State) : State :=
  let k := (s.team l.th.team).grid
  emitAll k (s.modGrid k fun g =>
    { g with
      serial := g.serial + cs.length
      pendChild := g.pendChild ++ cs.zipIdx.map fun e => (g.teams + g.serial + e.2, entry, e.1) })
def spawnt (f : Fields) (s : State) : State :=
  let g := s.grid (s.team s.curTeam).grid
  spawnChecked f 256 true (fun s n => listRoom s g n) (fun s =>
    let entry := branchTarget (s.wave s.curWave).pc f.imm
    (byHidx (s.execLanes f)).foldl (fun s l => spawnOne f (addTeams l entry) s l) (advance s)) s

/-! ## LAUNCHG (spec 16 R329) -/

/-- Whether a range of virtual addresses meets poison. -/
def rangePoisoned (s : State) (w : Who) (n : Need) (va len : Nat) : Option Nat :=
  (chunks 256 (len / 256 + 2) va len).findSome? fun c =>
    match checkGlobal s w n 1 (BitVec.ofNat 64 c.1) with
    | .ok x => if poisoned s x.pa then some x.pa else none
    | .error _ => none
/-- A launch by a thread whose lineage is cancelled: the record is not read; its state becomes CANCELLED (spec 02 R23, log entry
64). -/
def launchCancelled (l : Lane) (a : DWord) (s : State) : State := writeStatus (s.ctxOf l.th) a 4 0 s
def launchg (f : Fields) (s : State) : State :=
  let ea := fun (l : Lane) => some (reg64 l.th f.a)
  checkedAddrs f { r := true, w := true } 64 ea (checkedAddrs f { r := true, w := true } 64 (fun l => some (reg64 l.th f.a + 320)) (fun s =>
    let ls := byHidx (s.execLanes f)
    let live := fun (l : Lane) => !lineageCancelled s l.th.lineage
    match ls.findSome? fun l => if live l then rangePoisoned s (whoOf s l.th) { r := true } (reg64 l.th f.a).toNat 384 else none with
    | some pa => poisonTrap f pa s
    | none =>
      ls.foldl (fun s l =>
        let done := fun (b : Bool) (s : State) => s.modThread l.id fun t => putPred f.d b t
        if lineageCancelled s l.th.lineage then done false (launchCancelled l (reg64 l.th f.a) s)
        else
          let r := acceptRecord (s.ctxOf l.th) none (some l.th.lineage) (reg64 l.th f.a).toNat s
          done (r.1 == .queued) r.2) (advance s))) s

/-! ## EXIT, YIELD, CANCEL (spec 16 R330) -/

def exit (f : Fields) (s : State) : State :=
  let w := s.wave s.curWave
  let ids := (byHidx (s.execLanes f)).map Lane.id
  ids.foldl (fun s t => retireThread t true s) ((advance s).modThreads ids fun t => { t with pc := w.pc })
def yield (f : Fields) (s : State) : State :=
  let c := (f.imm.extractLsb' 0 16).toNat
  (advance s).modThreads ((s.execLanes f).map Lane.id) fun t => { t with readyAt := if c = 0 then 0 else s.clock + c }
def cancel (f : Fields) (s : State) : State :=
  (byHidx (s.execLanes f)).foldl (fun s l =>
    let id := if f.mod.getLsbD 0 then l.th.lineage else reg64 l.th f.a
    let held := match Tab.find s.work.lineages id.toNat with
      | some e => e.ctx == s.ctxOf l.th
      | none => false
    let s1 := s.modThread l.id fun t => putPred f.d (held || f.mod.getLsbD 0) t
    if held then cancelLineage id.toNat 0x89 s1 else s1) (advance s)

/-! ## Deadlines (spec 16 R331, R332) -/

def dlset (f : Fields) (s : State) : State :=
  waveOnce f (fun l s => (advance s).modGrid (s.team l.th.team).grid fun g => { g with deadline := (reg64 l.th f.a).toNat }) s
def dlrd (f : Fields) (s : State) : State :=
  waveOnce f (fun l s => doneWith f (val64 (BitVec.ofNat 64 (s.gridOf l.th).deadline)) s) s

/-! ## The coalescing queue (spec 16 R335 to R339) -/

def setBin (c k : Nat) (b : Bin) (s : State) : State := s.modGroup c fun g => { g with bins := Tab.put g.bins k b }
/-- The bytes of a tile's slot: rows, the row-valid word, tags. -/
def tileBytes (t : Tile) : List Byte :=
  let row := fun (k : Nat) => t.rows[k]?
  let words := fun (ws : List Word) => (List.range 16).flatMap fun j => natLe 4 (ws.getD j 0).toNat
  let tag := fun (k : Nat) => (match row k with | some r => r.2 | none => (0 : Word))
  ((List.range 8).flatMap fun k => words (match row k with | some r => r.1 | none => [])) ++ natLe 4 (2 ^ t.rows.length - 1) ++
    (List.range 8).flatMap fun k => natLe 4 (tag k).toNat
/-- The oldest closed tile of a bin written into the next free slot of its ring; it waits while there is none. -/
def tileEmit (core bin : Nat) (s : State) : State :=
  match Tab.find (s.group core).bins bin, (s.core core).owner with
  | some b, some team =>
    (match b.closed, Tab.find (s.group core).rings b.ring with
     | t :: ts, some r =>
       if r.e = 0 || inTransit s team (r.slotAt r.wr) 576 then s
       else
         let p := r.reserve false
         let s1 := (mirrors s team).foldl (fun s m => scratchWrite m (r.slotAt p.1) (tileBytes t) s) s
         wakeEngine core (pulse core 13 (setBin core bin { b with closed := ts } (setRing core b.ring (p.2.ready p.1) s1)))
     | _, _ => s)
  | _, _ => s
/-- The current tile of a bin closed, when it holds a row, and emitted where its ring has room. -/
def closeTile (c k : Nat) (s : State) : State :=
  match Tab.find (s.group c).bins k with
  | none => s
  | some b =>
    if b.cur.rows.isEmpty then s
    else tileEmit c k (setBin c k { b with closed := b.closed ++ [b.cur], cur := {}, serial := b.serial + 1 } s)
/-- Every bin of a core emitted. -/
def emitBins (c : Nat) (s : State) : State := (List.range 8).foldl (fun s k => closeTile c k s) s
/-- Everything that a bin holds written where its ring has free slots, in order. -/
def emptyBin (c k : Nat) (s : State) : State := tileEmit c k (tileEmit c k (closeTile c k (tileEmit c k (tileEmit c k s))))
/-- The bins of a pre-empted team emitted in the engine group that was saved with it: as on a core of their own. -/
def emitSaved (team : Nat) (s : State) : State :=
  match (s.team team).saved with
  | none => s
  | some g =>
    let k := Config.numCores
    let s1 := emitBins k (s.setCore k { owner := some team, group := g })
    { s1.modTeam team fun t => { t with saved := some (s1.group k) } with cores := Tab.del s1.cores k }

/-- The tiles of a bin are out before the bin is bound again or unbound. -/
def rebind (f : Fields) (k : Nat) (act : Nat → State → Option State) (s : State) : State :=
  withGroup f (fun _ c s =>
    let s1 := closeTile c k s
    match Tab.find (s1.group c).bins k with
    | some b => if b.closed.isEmpty then act c s1 else some (waitAll f .engine s1)
    | none => act c s1) s
def binOf (f : Fields) : Nat := (f.imm.extractLsb' 0 3).toNat
def cqbind (f : Fields) (s : State) : State :=
  let k := binOf f
  let ring := (f.imm.extractLsb' 3 4).toNat
  let ok := fun (s : State) (c : Nat) => match Tab.find (s.group c).rings ring with
    | some r => decide (r.size ≥ 576)
    | none => false
  withGroup f (fun _ c s =>
    if !ok s c then none
    else
      some (rebind f k (fun c s =>
        some (advance (setBin c k { ring := ring, w := (f.imm.extractLsb' 7 4).toNat + 1, t := (f.imm.extractLsb' 11 16).toNat } s))) s)) s
def cqbindOff (f : Fields) (s : State) : State :=
  rebind f (binOf f) (fun c s => some (advance (s.modGroup c fun g => { g with bins := Tab.del g.bins (binOf f) }))) s
/-- The row of one thread enters the current tile, if it has not yet and a buffer is free. -/
def pushRow (f : Fields) (c k : Nat) (s : State) (l : Lane) : State :=
  match Tab.find (s.group c).bins k with
  | none => s
  | some b =>
    if b.closed.length ≥ 2 || (s.thread l.id).entered.isSome then s
    else
      let row := (l.th.regs ((regNum? f.a).getD 0) b.w, reg32 l.th f.b)
      let cur : Tile := { rows := b.cur.rows ++ [row], first := if b.cur.rows.isEmpty then s.clock else b.cur.first }
      let word := BitVec.ofNat 32 (b.serial * 8 + b.cur.rows.length)
      let s1 := (setBin c k { b with cur := cur } s).modThread l.id fun t => { t with entered := some word }
      if cur.rows.length ≥ 8 then closeTile c k s1 else s1
/-- A thread receives the position of its row. -/
def rowDone (f : Fields) (t : Thread) : Thread := { putD32 f.d (t.entered.getD 0) t with entered := none }
/-- The rows of all executing threads enter in turn; the wave waits until every one has (spec 16 R337). -/
def pushRows (f : Fields) (c : Nat) (s : State) : State :=
  let ls := byHidx (s.execLanes f)
  let s1 := ls.foldl (fun s' l => pushRow f c (binOf f) s' l) s
  if ls.all fun l => (s1.thread l.id).entered.isSome then (advance s1).modThreads (ls.map Lane.id) (rowDone f)
  else waitAll f .engine s1
/-- The rows of a bin that the issuing team has bound. -/
def boundBin (f : Fields) (s : State) : Option Bin :=
  if (s.core s.hereCore).owner == some s.hereTeam then Tab.find (s.group s.hereCore).bins (binOf f) else none
def cqpush (f : Fields) (s : State) : State :=
  match s.execLanes f, boundBin f s with
  | l :: _, some b =>
    if (regNum? f.a).getD 0 + b.w > s.regsOf l.th then
      takeUsers s f s.here ((s.execLanes f).map fun l => (l, { cause := 0x02, field := 6 }))
    else pushRows f s.hereCore s
  | _, _ => withGroup f (fun _ _ _ => none) s
def cqflush (f : Fields) (s : State) : State :=
  withGroup f (fun _ c s =>
    some (advance ((List.range 8).foldl (fun s k => if f.imm.getLsbD k then closeTile c k s else s) s))) s

/-! ## Futures (spec 16 R323, R325) -/

def futEa (f : Fields) (l : Lane) : DWord := reg64 l.th f.a
def futCheck (f : Fields) (s : State) (l : Lane) : Except Byte Loc :=
  match checkGlobal s (whoOf s l.th) { r := true } 16 (futEa f l) with
  | .error c => .error c
  | .ok x => .ok (.glob x.mode x.pa)
/-- Each thread takes the 16 bytes of its future; a waiting one parks while the state is PENDING. -/
def futRead (f : Fields) (wait : Bool) (out : List Byte → LaneOut) (s : State) : State :=
  withLocs f (futCheck f) (futEa f) false true (fun ps s =>
    ps.foldl (fun s e =>
      let r := e.2.read 16 s
      let pending := leAt r.1 0 4 % 4 == 0
      if pending && wait then
        (match e.2 with
         | .glob m pa => parkMonitor e.1 ⟨e.1.th.team, none, pa, 4, 6, 3⟩ (polledTarget m pa) r.2
         | .scr _ _ => r.2)
      else
        let s1 := r.2.modThread e.1.id fun t => writeOut f (out r.1) t
        if pending then s1 else acquireSide s.hereCore s.hereCtx 5 s1) (advance s)) s
def futwait (f : Fields) (s : State) : State :=
  futRead f true (fun b => if f.mod.getLsbD 0 then val32 (BitVec.ofNat 32 (leAt b 0 4)) else val64 (BitVec.ofNat 64 (leAt b 8 8))) s
def futpoll (f : Fields) (s : State) : State := futRead f false (fun b => val32 (BitVec.ofNat 32 (leAt b 0 4))) s

/-! ## Pools (spec 16 R340, R341) -/

/-- A pool descriptor. -/
structure Pool where
  head  : Nat
  bump  : Nat
  base  : Nat
  limit : Nat
  lg    : Nat
  failed : Nat
def readPool (d : List Byte) : Pool := ⟨leAt d 0 8, leAt d 8 8, leAt d 16 8, leAt d 24 8, leAt d 32 4, leAt d 36 4⟩
def Pool.bytes (p : Pool) : List Byte :=
  natLe 8 p.head ++ natLe 8 p.bump ++ natLe 8 p.base ++ natLe 8 p.limit ++ natLe 4 p.lg ++ natLe 4 p.failed
/-- A node of the region that has been handed out. -/
def Pool.node (p : Pool) (n : Nat) : Bool := n % 2 ^ p.lg == 0 && decide (p.base ≤ n) && decide (n < p.bump)
/-- A valid descriptor; the free list's head is judged where it is used. -/
def Pool.valid (p : Pool) (d : List Byte) (alloc : Bool) : Bool :=
  decide (6 ≤ p.lg ∧ p.lg ≤ 12) && leAt d 40 24 == 0 && [p.base, p.bump, p.limit].all (fun a => a % 2 ^ p.lg == 0) &&
    decide (p.base ≤ p.bump) && decide (p.bump ≤ p.limit) && (!alloc || p.head == 0 || p.node p.head)
/-- Why an operation on a pool stops the instruction. -/
structure PoolErr where
  cause : Byte
  eaddr : Nat := 0
  why   : Nat := 0
  poison : Bool := false
/-- One allocation: the node, 0 when the pool is empty. -/
def poolPop (w : Who) (va mode pa : Nat) (s : State) : Except PoolErr (Nat × State) :=
  let d := farRead pa 64 s
  let p := readPool d.1
  if mode != 0 || !isLocal pa || !p.valid d.1 true then .error { cause := 0x84, eaddr := va, why := 1 }
  else if p.head != 0 then
    match vaRead w { r := true } p.head 8 d.2 with
    | (.error e, _) => .error { cause := e.1, eaddr := e.2, poison := e.1 == 0x50 }
    | (.ok bs, s1) => .ok (p.head, farWrite none mode pa (Pool.bytes { p with head := leNat bs }) s1)
  else if p.bump + 2 ^ p.lg ≤ p.limit then
    .ok (p.bump, farWrite none mode pa (Pool.bytes { p with bump := p.bump + 2 ^ p.lg }) d.2)
  else .ok (0, farWrite none mode pa (Pool.bytes { p with failed := min (p.failed + 1) (2 ^ 32 - 1) }) d.2)
/-- One return of a node. -/
def poolPush (w : Who) (va mode pa node : Nat) (s : State) : Except PoolErr State :=
  let d := farRead pa 64 s
  let p := readPool d.1
  if mode != 0 || !isLocal pa || !p.valid d.1 false then .error { cause := 0x84, eaddr := va, why := 1 }
  else if !p.node node then .error { cause := 0x84, eaddr := node, why := 2 }
  else
    match vaWrite w { w := true } node (natLe 8 p.head) d.2 with
    | .error e => .error { cause := e.1, eaddr := e.2 }
    | .ok s1 => .ok (farWrite none mode pa (Pool.bytes { p with head := node }) s1)
/-- Threads operate in turn on a trial of the state, which stands only when none fails. -/
def poolRun (f : Fields) (op : Nat → Nat → Lane → State → Except PoolErr State) (ps : List (Lane × Loc)) (s : State) : State :=
  let r := ps.foldl (fun acc e =>
    match acc with
    | .error x => .error x
    | .ok s' =>
      match e.2 with
      | .glob m pa => (match op m pa e.1 s' with | .ok s2 => .ok s2 | .error x => .error (e.1, x))
      | .scr _ _ => .ok s') (Except.ok (advance s) : Except (Lane × PoolErr) State)
  match r with
  | .ok s1 => s1
  | .error (l, x) =>
    if x.poison then poisonTrap f x.eaddr s
    else trapOne f l { cause := x.cause, eaddr := BitVec.ofNat 64 x.eaddr, einfo := BitVec.ofNat 64 x.why } s
def poolCheck (f : Fields) (s : State) (l : Lane) : Except Byte Loc :=
  match checkGlobal s (whoOf s l.th) { r := true, w := true, rmw := true } 64 (futEa f l) with
  | .error c => .error c
  | .ok x => .ok (.glob x.mode x.pa)
def poola (f : Fields) (s : State) : State :=
  withLocs f (poolCheck f) (futEa f) true true (poolRun f fun m pa l s =>
    match poolPop (whoOf s l.th) (futEa f l).toNat m pa s with
    | .error e => .error e
    | .ok (n, s1) =>
      .ok (replayAtomic s.here l.id n pa
        (acquireSide s.hereCore s.hereCtx 3 (s1.modThread l.id fun t => putPred f.c (n != 0) (putD64 f.d (BitVec.ofNat 64 n) t))))) s
def poolf (f : Fields) (s : State) : State :=
  withLocs f (poolCheck f) (futEa f) true true (poolRun f fun m pa l s =>
    poolPush (whoOf s l.th) (futEa f l).toNat m pa (reg64 l.th f.b).toNat (releaseSide s.hereCore 3 s)) s

/-! ## Queries (spec 16 R342 to R345) -/

/-- Accepted queries of the executing threads; the wave waits while the cluster's queue has no room. -/
def submit (f : Fields) (make : State → Lane → Query) (s : State) : State :=
  checkedAddrs f { w := true } 16 (futurePair f) (fun s =>
    let cl := s.hereCore / 8
    let ls := byHidx (s.execLanes f)
    if (s.cluster cl).queries.length + ls.length > 256 then waitAll f .engine s
    else
      ls.foldl (fun s l =>
        let q := make s l
        (devPut q.ctx q.fut.toNat (natLe 4 0) s).modCluster cl fun x => { x with queries := x.queries ++ [q] }) (advance s)) s
def quad4 (l : Lane) (o : Opnd) : Vector Word 4 :=
  let r := l.th.regs ((regNum? o).getD 0) 4
  #v[r.getD 0 0, r.getD 1 0, r.getD 2 0, r.getD 3 0]
def queryOf (f : Fields) (occ : Bool) (s : State) (l : Lane) : Query :=
  let g := s.gridOf l.th
  let j := (f.imm.extractLsb' 0 6).toNat
  { thread := l.id, ctx := s.ctxOf l.th, occ := occ, cap := f.mod.getLsbD 0 && !occ, a := quad4 l f.a, b := quad4 l f.b
    tree := pairOf (g.consts.getD j 0) (g.consts.getD (j + 1) 0), fut := (futurePair f l).getD 0 }
def qcol (f : Fields) (s : State) : State := submit f (queryOf f false) s
def qocc (f : Fields) (s : State) : State := submit f (queryOf f true) s

/-! ### Arithmetic of a query: FP32, RNE, subnormals kept -/

def qAdd (a b : Nat) : Nat := (fAdd fp32 0 false a b).bits
def qSub (a b : Nat) : Nat := (fSub fp32 0 false a b).bits
def qMul (a b : Nat) : Nat := (fMul fp32 0 false a b).bits
def qNan (a : Nat) : Bool := (fp32.read false a).isNan
/-- A comparison, false for a NaN. -/
def qLe (a b : Nat) : Bool := !qNan a && !qNan b && cmpVal (fp32.read false a) (fp32.read false b) != .gt
def qLt (a b : Nat) : Bool := qLe a b && !qLe b a
/-- The greater and the lesser of two values; a NaN stays. -/
def qMax (a b : Nat) : Nat := if qNan a then a else if qNan b then b else if qLe a b then b else a
def qMin (a b : Nat) : Nat := if qNan a then a else if qNan b then b else if qLe a b then a else b
def qHalf (e : Nat) : Nat := qMul e 0x3F000000
/-- The quotient correctly rounded. -/
def qDiv (a b : Nat) : Nat :=
  let x := fp32.read false a
  let y := fp32.read false b
  match x, y with
  | .fin xs xm xe, .fin ys ym ye =>
    if ym = 0 then (if xm = 0 then fp32.nan else fp32.infBits (xs != ys))
    else
      let n := xm * 2 ^ 64
      (roundFin fp32 0 false (xs != ys) (n / ym * 2 + (if n % ym = 0 then 0 else 1)) (xe - ye - 65)).bits
  | .fin xs _ _, _ => if y.isNan then fp32.nan else fp32.pack (xs != y.neg) 0
  | _, .fin _ _ _ => if x.isNan then fp32.nan else fp32.infBits (x.neg != y.neg)
  | _, _ => fp32.nan

/-- A point of three coordinates. -/
structure P3 where
  x : Nat
  y : Nat
  z : Nat
def P3.map (p : P3) (g : Nat → Nat) : P3 := ⟨g p.x, g p.y, g p.z⟩
def P3.zip (g : Nat → Nat → Nat) (p q : P3) : P3 := ⟨g p.x q.x, g p.y q.y, g p.z q.z⟩
/-- Sum of products in the order x, y, z. -/
def P3.dot (p q : P3) : Nat := qAdd (qAdd (qMul p.x q.x) (qMul p.y q.y)) (qMul p.z q.z)
def ptOf (v : Vector Word 4) : P3 := ⟨(v.getD 0 0).toNat, (v.getD 1 0).toNat, (v.getD 2 0).toNat⟩
/-- The centre of the sphere that tests a cube: the point itself, or that of a capsule (spec 16 R344). -/
def Query.centre (q : Query) (m : P3) (e : Nat) : P3 :=
  let p := ptOf q.a
  if !q.cap then p
  else
    let u := P3.zip qSub (ptOf q.b) p
    let w := P3.zip qSub (m.map fun a => qAdd a (qHalf e)) p
    let den := u.dot u
    let t := if qLe den 0 && qLe 0 den then 0 else qMin (qMax (qDiv (w.dot u) den) 0) 0x3F800000
    P3.zip (fun a b => qAdd a (qMul t b)) p u
/-- Whether the shape touches a cube. -/
def Query.touches (q : Query) (m : P3) (e : Nat) : Bool :=
  let c := q.centre m e
  let ax := fun (lo k : Nat) => qMax (qMax (qSub lo k) 0) (qSub k (qAdd lo e))
  let d := P3.zip ax m c
  let r := (q.a.getD 3 0).toNat
  qLe (d.dot d) (qMul r r)
/-- The corner of child i of a cube with edge e. -/
def childCorner (m : P3) (e i : Nat) : P3 :=
  let h := qHalf e
  let up := fun (k a : Nat) => if i / 2 ^ k % 2 = 1 then qAdd a h else a
  ⟨up 0 m.x, up 1 m.y, up 2 m.z⟩
/-- 64 bytes that a query reads. -/
def queryGet (q : Query) (va : Nat) (s : State) : Except (Byte × Nat) (List Byte) × State :=
  vaRead ⟨Config.numCores, q.ctx, (s.ctx q.ctx).svc⟩ { r := true } va 64 s
/-- Occupied and unknown leaves that the shape touches, depth first (spec 16 R344). -/
def visit (q : Query) : Nat → Nat → P3 → Nat → Except Byte (Nat × Nat) × State → Except Byte (Nat × Nat) × State
  | fuel, node, m, e, acc =>
    match acc.1 with
    | .error c => (.error c, acc.2)
    | .ok (occ, unk) =>
      if !q.touches m e then acc
      else
        let r := queryGet q node acc.2
        match r.1 with
        | .error c => (.error c.1, r.2)
        | .ok bs =>
          match leAt bs 0 4 % 4, fuel with
          | 0, _ => (.ok (occ, unk), r.2)
          | 1, _ => (.ok (occ + 1, unk), r.2)
          | 3, n + 1 =>
            (List.range 8).foldl (fun acc i => visit q n (leAt bs 8 8 + 64 * i) (childCorner m e i) (qHalf e) acc) (.ok (occ, unk), r.2)
          | _, _ => (.ok (occ, unk + 1), r.2)
/-- The leaf that holds a point (spec 16 R345). -/
def locate (q : Query) (p : P3) : Nat → Nat → P3 → Nat → State → Except Byte Nat × State
  | fuel, node, m, e, s =>
    let r := queryGet q node s
    match r.1 with
    | .error c => (.error c.1, r.2)
    | .ok bs =>
      match leAt bs 0 4 % 4, fuel with
      | 3, n + 1 =>
        let h := qHalf e
        let up := fun (lo k : Nat) => if qLe (qAdd lo h) k then 1 else 0
        let i := up m.x p.x + 2 * up m.y p.y + 4 * up m.z p.z
        locate q p n (leAt bs 8 8 + 64 * i) (childCorner m e i) h r.2
      | 3, 0 => (.ok (node / 4 * 4 + 2), r.2)
      | k, _ => (.ok (node / 4 * 4 + k), r.2)
/-- The value of a query's future, or the cause of a failed read. -/
def queryValue (q : Query) (s : State) : Except Byte Nat × State :=
  let h := queryGet q q.tree.toNat s
  match h.1 with
  | .error c => (.error c.1, h.2)
  | .ok bs =>
    let m : P3 := ⟨leAt bs 0 4, leAt bs 4 4, leAt bs 8 4⟩
    let e := leAt bs 12 4
    let root := leAt bs 16 8
    let depth := leAt bs 24 4 % 32
    if q.occ then
      let p := ptOf q.a
      let out := fun (lo k : Nat) => qLt k lo || qLe (qAdd lo e) k
      if out m.x p.x || out m.y p.y || out m.z p.z then (.ok 3, h.2) else locate q p depth root m e h.2
    else
      let r := visit q depth root m e (.ok (0, 0), h.2)
      match r.1 with
      | .error c => (.error c, r.2)
      | .ok (occ, unk) =>
        (.ok (256 * min occ (2 ^ 24 - 1) + (if occ > 0 then 1 else if unk > 0 then 2 else 0)), r.2)
/-- The oldest query of a cluster completes. -/
def queryComplete (cluster : Nat) (s : State) : State :=
  match (s.cluster cluster).queries with
  | [] => s
  | q :: qs =>
    let r := queryValue q (s.modCluster cluster fun x => { x with queries := qs })
    let s1 := match r.1 with
      | .ok v => writeFuture q.ctx q.fut (futStatus 1 0) v r.2
      | .error c => writeFuture q.ctx q.fut (futStatus 3 c) 0 r.2
    (List.range 8).foldl (fun s i => wakeEngine (8 * cluster + i) s) s1

/-! ## Events -/

/-- Threads that wait for room in task lists reissue. -/
def wakeTasks (s : State) : State :=
  s.modThreads ((s.work.threads.filter fun e => e.2.park == some .tasks).map (·.1)) Thread.unparkHere
def yieldExpiry (thread : Nat) (s : State) : State :=
  if (s.thread thread).readyAt ≤ s.clock then s.modThread thread fun t => { t with readyAt := 0 } else s
/-- The deadline of a grid fires (spec 16 R332). -/
def deadlineFire (grid : Nat) (s : State) : State :=
  let g := s.grid grid
  if g.deadline = 0 || s.dtime < g.deadline || g.cancel.isSome then s
  else
    let s1 := cancelGrid grid 0x88 (s.modGrid grid fun g => { g with deadlineFired := true, deadline := 0 })
    let s2 := s1.cores.foldl (fun s e =>
      match e.2.owner with
      | some t => if (s.team t).grid == grid then emitBins e.1 s else s
      | none => s) s1
    (s2.work.teams.filter fun e => e.2.grid == grid && e.2.saved.isSome).foldl (fun s e => emitSaved e.1 s) s2
def gridDrain (grid : Nat) (s : State) : State := drainGrid grid s
def taskEmissionResume (grid : Nat) (s : State) : State := wakeTasks (emitAll grid s)
/-- The doorbell of a launch queue (spec 15 R303). -/
def lqTailWrite (queue : Nat) (tail : Word) (s : State) : State :=
  let q := s.queue queue
  if !q.en || (tail - q.head).toNat > 2 ^ q.log2n then s.logDev 0 0xFF (unitOf 4 queue) tail.toNat 0
  else readQueue queue (tail - q.head).toNat (s.modQueue queue fun q => { q with tail := tail })
def launchAcceptResume (queue : Nat) (s : State) : State :=
  let q := s.queue queue
  if q.waits then readQueue queue (q.tail - q.head).toNat s else s
/-- The timeout of a bin elapses (spec 16 R339). -/
def binTimeout (core bin : Nat) (s : State) : State :=
  match Tab.find (s.group core).bins bin with
  | some b => if b.t ≠ 0 && !b.cur.rows.isEmpty && s.clock ≥ b.cur.first + 256 * b.t then closeTile core bin s else s
  | none => s

/-! Each answers the next state that the definition of its name gives. -/
def execLqTailWrite (queue : Nat) (tail : Word) (s : State) : Host.Outcome State Fault Refusal := .next (lqTailWrite queue tail s)
def execLaunchAcceptResume (queue : Nat) (s : State) : Host.Outcome State Fault Refusal := .next (launchAcceptResume queue s)
def execTaskEmissionResume (grid : Nat) (s : State) : Host.Outcome State Fault Refusal := .next (taskEmissionResume grid s)
def execYieldExpiry (thread : Nat) (s : State) : Host.Outcome State Fault Refusal := .next (yieldExpiry thread s)
def execGridDrain (grid : Nat) (s : State) : Host.Outcome State Fault Refusal := .next (gridDrain grid s)
def execDeadlineFire (grid : Nat) (s : State) : Host.Outcome State Fault Refusal := .next (deadlineFire grid s)
def execBinTimeout (core : Nat) (bin : Nat) (s : State) : Host.Outcome State Fault Refusal := .next (binTimeout core bin s)
def execTileEmit (core : Nat) (bin : Nat) (s : State) : Host.Outcome State Fault Refusal := .next (tileEmit core bin s)
def execQueryComplete (cluster : Nat) (s : State) : Host.Outcome State Fault Refusal := .next (queryComplete cluster s)
/-! Each answers the next state that the definition of its name gives. -/
def execSpawn (f : Fields) (s : State) : Host.Outcome State Fault Refusal := .next (spawn f s)
def execSpawnt (f : Fields) (s : State) : Host.Outcome State Fault Refusal := .next (spawnt f s)
def execLaunchg (f : Fields) (s : State) : Host.Outcome State Fault Refusal := .next (launchg f s)
def execExit (f : Fields) (s : State) : Host.Outcome State Fault Refusal := .next (exit f s)
def execYield (f : Fields) (s : State) : Host.Outcome State Fault Refusal := .next (yield f s)
def execCancel (f : Fields) (s : State) : Host.Outcome State Fault Refusal := .next (cancel f s)
def execDlset (f : Fields) (s : State) : Host.Outcome State Fault Refusal := .next (dlset f s)
def execDlrd (f : Fields) (s : State) : Host.Outcome State Fault Refusal := .next (dlrd f s)
def execCqbind (f : Fields) (s : State) : Host.Outcome State Fault Refusal := .next (cqbind f s)
def execCqbindOff (f : Fields) (s : State) : Host.Outcome State Fault Refusal := .next (cqbindOff f s)
def execCqpush (f : Fields) (s : State) : Host.Outcome State Fault Refusal := .next (cqpush f s)
def execCqflush (f : Fields) (s : State) : Host.Outcome State Fault Refusal := .next (cqflush f s)
def execFutwait (f : Fields) (s : State) : Host.Outcome State Fault Refusal := .next (futwait f s)
def execFutpoll (f : Fields) (s : State) : Host.Outcome State Fault Refusal := .next (futpoll f s)
def execPoola (f : Fields) (s : State) : Host.Outcome State Fault Refusal := .next (poola f s)
def execPoolf (f : Fields) (s : State) : Host.Outcome State Fault Refusal := .next (poolf f s)
def execQcol (f : Fields) (s : State) : Host.Outcome State Fault Refusal := .next (qcol f s)
def execQocc (f : Fields) (s : State) : Host.Outcome State Fault Refusal := .next (qocc f s)
end Sys2Proof.Machine
end

