-- ==== Sys2Proof/Machine/Place.lean ====
section
/-!
DEFINITION. Place.lean: placing tasks on cores: room, teams, gangs, thread tasks, restored teams, and the dispatch
decision (spec 02 R20, R21, 07 R128, 09 R170, 15 R307 to R309, 16 R327, 22 R414, R421).
-/
namespace Sys2Proof.Machine

/-! ## Room on a core -/

def teamsOn (s : State) (c : Nat) : List (Nat × Team) := s.work.teams.filter fun e => e.2.core == some c
/-- Hoists on a quadrant, with the registers of their grid. -/
def hoistsOn (s : State) (c q : Nat) : List (Hoist × Nat) :=
  (teamsOn s c).flatMap fun e => (e.2.hoists.filter fun h => h.quad == q).map fun h => (h, (s.grid e.2.grid).regs)
def slotsTaken (s : State) (c q : Nat) : List Nat := (hoistsOn s c q).flatMap fun e => e.1.slots
def regsTaken (s : State) (c q : Nat) : Nat := (hoistsOn s c q).foldl (fun n e => n + e.1.slots.length * e.2) 0
/-- Free wave slots of a bind record on a quadrant. -/
def freeSlots (s : State) (c q : Nat) (b : Bind) : List Nat :=
  let taken := slotsTaken s c q
  (List.range 32).filter fun k => decide (b.firstS ≤ k) && decide (k < b.firstS + b.numS) && !taken.contains k
/-- n slots of a quadrant for home waves of a grid (spec 02 R20). -/
def roomIn (s : State) (c q : Nat) (b : Bind) (n regs : Nat) : Option (List Nat) :=
  let fs := freeSlots s c q b
  if fs.length ≥ n && regsTaken s c q + n * regs ≤ 512 then some (fs.take n) else none
/-- Distinct quadrants with room, one for each need. -/
def pickQuads (s : State) (c : Nat) (b : Bind) (regs : Nat) : List Nat → List Nat → Option (List (Nat × List Nat))
  | [], _ => some []
  | n :: ns, qs =>
    match qs.findSome? fun q => (roomIn s c q b n regs).map fun ks => (q, ks) with
    | none => none
    | some p => (pickQuads s c b regs ns (qs.filter fun q => q != p.1)).map fun r => p :: r
def bindQuads (b : Bind) : List Nat := (List.range 4).filter fun q => b.quads.getLsbD q
/-- The core takes teams of a grid now: no reservation or pending split, its shape table free for the grid, enough L1. -/
def coreOpen (s : State) (c k : Nat) : Bool :=
  let g := s.grid k
  let here := teamsOn s c
  let others := here.filter fun e => e.2.grid != k
  let x := s.core c
  x.l1Pend.isNone && !reserved s c && others.all (fun e => (s.grid e.2.grid).shapeSec.isNone) &&
    (g.shapeSec.isNone || others.isEmpty) && ((here.isEmpty && x.l1Auto) || decide (x.l1Size ≥ g.l1min))
/-- A bind record that lets a team with these hoists in, and the slots it gives. -/
def findRecord (s : State) (c k : Nat) (needs : List Nat) : Option (Nat × List (Nat × List Nat)) :=
  if !coreOpen s c k then none
  else
    let g := s.grid k
    (recordsOf s c g).findSome? fun e =>
      if ((teamsOn s c).filter fun t => t.2.bindRec == e.1).length ≥ e.2.teams then none
      else (pickQuads s c e.2 g.regs needs (bindQuads e.2)).map fun a => (e.1, a)

/-! ## The near-SRAM split (spec 09 R170) -/

/-- The split set: lines whose place changes are written back and invalidated, each in turn once a write-back entry is free. -/
def setSplit (c n : Nat) (s : State) : State :=
  let old := l1Sets s c
  let s1 := s.modCore c fun x => { x with l1Size := n, l1Pend := none }
  let gone := (s1.core c).l1.filter fun e => e.1 / 256 % old != e.1 / 256 % l1Sets s1 c
  gone.foldl (fun s e =>
    match evictLine c e.1 s with
    | some s1 => s1
    | none =>
      match (s.core c).wbs with
      | w :: _ => (evictLine c e.1 (backHome c w.1 s)).getD s
      | [] => s) s1
/-- The core prepared for a team of a grid: split, and the shape table, saved or that of the SHAPE section (spec 07 R128, log
entry 65). -/
def openCore (c k : Nat) (saved : Option (Tab (Vector Word 4))) (s : State) : State :=
  let g := s.grid k
  let s1 := if (teamsOn s c).isEmpty && (s.core c).l1Auto && (s.core c).l1Size != g.l1min then setSplit c g.l1min s else s
  let first := !((teamsOn s c).any fun e => e.2.grid == k)
  match g.shapeSec with
  | some t => if first then s1.modCore c fun x => { x with shapes := some (k, saved.getD t) } else s1
  | none => s1

/-! ## Starting teams (spec 02 R21) -/

/-- One thread more. -/
def addThread (t : Thread) (s : State) : State :=
  s.modWork fun w => { w with threads := Tab.put w.threads w.nextThread t, nextThread := w.nextThread + 1 }
/-- A thread at its entry with its arguments. -/
def freshThread (s : State) (entry : DWord) (lineage : DWord) (args : List Word) : Thread :=
  Thread.setRegs { pc := entry, lineage := lineage, entryCheck := true, lastIssue := s.clock } 0 args
/-- The first team of a grid makes it RUNNING (spec 02 R23). -/
def markRunning (k : Nat) (s : State) : State :=
  if (s.grid k).state == 1 then
    writeStatus (s.grid k).ctx (s.grid k).rcd 2 0 (s.modGrid k fun g => { g with state := 2 })
  else s
/-- A team of a grid starts on a core under a bind record; its key is answered. -/
def startTeam (c k rec_ idx : Nat) (assign : List (Nat × List Nat)) (ch : Option (DWord × Child)) (role : Role) (s : State) : Nat × State :=
  let g := s.grid k
  let key := s.work.nextTeam
  let hs := assign.zipIdx.map fun e => ({ index := e.2, quad := e.1.1, slots := e.1.2, launched := g.hoistThreads } : Hoist)
  let secondary := match role with | .secondary _ => true | _ => false
  let lin := match ch with | some x => x.2.lineage | none => g.lineage
  let tm : Team :=
    { grid := k, index := idx, gang := idx / g.gangTeams, gslot := if ch.isSome then 0 else idx % g.gangTeams, child := ch.isSome
      core := some c, hoists := hs, gen := 1, bindRec := rec_, stamp := (ch.map fun x => x.2.stamp).getD g.stamp, placed := s.dtime, role := role
      group := if secondary then none else ch.bind fun x => x.2.group, lineage := lin }
  let entry := match ch with | some x => x.1 | none => g.entry
  let args := match ch with | some x => x.2.args | none => []
  let s1 := (openCore c k none s).modWork fun w => { w with teams := Tab.put w.teams key tm, nextTeam := key + 1 }
  let t0 := { freshThread s1 entry lin args with team := key }
  (key, markRunning k (hs.foldl (fun s h =>
    (List.range g.hoistThreads).foldl (fun s i =>
      addThread { t0 with hoist := h.index, hidx := i, slot := h.slots.getD (i / 32) 0 } s) s) s1))
/-- Home waves of each hoist of a launched team. -/
def hoistNeeds (g : Grid) : List Nat := List.replicate g.hoists (ceilDiv g.hoistThreads 32)
/-- One launched or child team placed on a core, or on both cores of a pair (spec 22 R421). -/
def placeOne (c k idx : Nat) (ch : Option (DWord × Child)) (s : State) : Option (Nat × State) :=
  let g := s.grid k
  let go := fun (c : Nat) (role : Role) (s : State) => (findRecord s c k (hoistNeeds g)).map fun a => startTeam c k a.1 idx a.2 ch role s
  if !g.redundant then go c .single s
  else if c % 2 ≠ 0 then none
  else
    match go c .single s with
    | none => none
    | some p =>
      match go (c + 1) (.secondary p.1) p.2 with
      | none => none
      | some q => some (p.1, q.2.modTeam p.1 fun t => { t with role := .primary q.1 })
/-- The eligible cores of a cluster in the order a gang tries them: those with fewer of its teams first. -/
def gangCores (s : State) (c : Nat) (g : Grid) (used : List Nat) : List Nat :=
  sortBy (fun k => (used.filter fun u => u == k).length)
    (((List.range 8).map fun i => c / 8 * 8 + (c + i) % 8).filter fun k => eligible s g k)
/-- The teams of a gang placed one after another, each by `put`; none when one of them has no room. -/
def gangPlace (c : Nat) (g : Grid) (put : Nat → Nat → State → Option (Nat × State)) :
    List Nat → List Nat → Option Nat → State → Option (Nat × State)
  | [], _, first, s => first.map fun k => (k, s)
  | i :: is, used, first, s =>
    match (gangCores s c g used).findSome? fun k => (put k i s).map fun p => (k, p) with
    | none => none
    | some (k, p) => gangPlace c g put is (k :: used) (first.orElse fun _ => some p.1) p.2

/-! ## Thread tasks (spec 15 R309, 16 R327) -/

/-- The team of a grid on a core that a thread task joins: its origin, or another one. -/
def hostTeam (s : State) (c k origin : Nat) : Option Nat :=
  let ok := fun (t : Team) => t.grid == k && t.core == some c && !t.preempt && (match t.role with | .secondary _ => false | _ => true)
  if ok (s.team origin) && (s.team? origin).isSome then some origin
  else (s.work.teams.find? fun e => ok e.2).map (·.1)
/-- Home waves of a hoist that hold a live thread. -/
def liveWaves (s : State) (team hoist : Nat) : List Nat :=
  dedup ((s.work.threads.filter fun e => e.2.handlerOf.isNone && e.2.team == team && e.2.hoist == hoist).map fun e => e.2.hwave)
/-- A quadrant's issue stage is held by a latch stretch (spec 15 R313). -/
def latchHeld (s : State) (c q : Nat) : Bool := s.work.waves.any fun e => e.2.core == c && e.2.quad == q && inStretch s e.2 && !e.2.away
/-- Empty lanes of a wave, ascending. -/
def emptyLanes (w : Wave) : List Nat := (List.range 32).filter fun k => (w.lanes.getD k none).isNone
/-- Spawned threads in the lanes of a forming wave. -/
def fillWave (wk : Nat) (hw : Nat) (entry : DWord) (copy : Bool) (cs : List Child) (s : State) : State :=
  let w := s.wave wk
  ((emptyLanes w).zip cs).foldl (fun s e =>
    let t := s.work.nextThread
    let x := s.wave wk
    let th := { freshThread s entry e.2.lineage e.2.args with
                team := w.team, hoist := w.hoist, hidx := 32 * hw + e.1, spawned := true
                group := if copy then none else e.2.group, lane := e.1, slot := w.slot }
    let lanes := x.lanes.setIfInBounds e.1 (some t)
    (addThread th s).setWave wk
      { x with lanes := lanes, exm := x.exm ||| (1#32 <<< e.1), forming := if lanes.toList.all Option.isSome then none else x.forming }) s
/-- A forming wave of an entry with room for n more threads. -/
def formingFor (s : State) (c team : Nat) (entry : DWord) (n : Nat) : Option (Nat × Wave) :=
  s.work.waves.find? fun e =>
    e.2.forming.isSome && e.2.core == c && e.2.team == team && e.2.pc == entry && !e.2.away && decide (n ≤ (emptyLanes e.2).length)
/-- The hoist, home wave and slot that a new forming wave of a team takes on a quadrant. -/
def openHome (s : State) (c team q : Nat) (b : Bind) (regs : Nat) : Option (Hoist × Nat) :=
  let tm := s.team team
  let waveIn := fun (k : Nat) => (waveAt s c q k).isSome
  match tm.hoists.find? fun h => h.quad == q with
  | some h =>
    let base := ceilDiv h.launched 32
    let live := liveWaves s team h.index
    match (List.range (min 32 (512 / regs))).find? fun w => decide (base ≤ w) && !live.contains w with
    | none => none
    | some hw =>
      let need := base + (live.filter fun w => decide (base ≤ w)).length + 1
      if h.slots.length ≥ need then (h.slots.find? fun k => !waveIn k).map fun _ => (h, hw)
      else (roomIn s c q b 1 regs).map fun ks => ({ h with slots := h.slots ++ ks }, hw)
  | none =>
    match (List.range 4).find? fun i => !(tm.hoists.any fun h => h.index == i) with
    | none => none
    | some i => (roomIn s c q b 1 regs).map fun ks => (⟨i, q, ks, 0, []⟩, 0)
/-- A thread task placed in one team. -/
def joinTeam (c k team : Nat) (entry : DWord) (copy : Bool) (cs : List Child) (s : State) : Option State :=
  match formingFor s c team entry cs.length with
  | some (wk, w) =>
    let covered := (recordsOf s c (s.grid k)).any fun e =>
      e.2.quads.getLsbD w.quad && decide (e.2.firstS ≤ w.slot) && decide (w.slot < e.2.firstS + e.2.numS)
    if !covered then none else
    let hw := match (s.present w).head? with | some l => l.th.hwave | none => 0
    some (fillWave wk hw entry copy cs s)
  | none =>
    let g := s.grid k
    let qs := sortBy (fun q => (latchHeld s c q).toNat) (List.range 4)
    let spot := qs.findSome? fun q => (recordsOf s c g).findSome? fun e =>
      if e.2.quads.getLsbD q then (openHome s c team q e.2 g.regs).map fun h => (q, h) else none
    if (s.core c).l1Pend.isSome || reserved s c then none
    else
      spot.map fun (q, h, hw) =>
        let slot := (h.slots.find? fun x => (waveAt s c q x).isNone).getD 0
        let wk := s.work.nextWave
        let s1 := s.modTeam team fun t => { t with hoists := insertBy Hoist.index h (t.hoists.filter fun y => y.index != h.index) }
        let w : Wave := { core := c, quad := q, slot := slot, team := team, hoist := h.index, pc := entry, lastIssue := s.clock, forming := some (s.clock + 32) }
        let s2 := s1.modWork fun x => { x with waves := Tab.put x.waves wk w, nextWave := wk + 1 }
        fillWave wk hw entry copy cs s2
def placeThreads (c k origin : Nat) (entry : DWord) (cs : List Child) (s : State) : Option (Nat × State) :=
  (hostTeam s c k origin).bind fun t =>
    (joinTeam c k t entry false cs s).bind fun s1 =>
      match (s.team t).role with
      | .primary p => (match (s.team p).core with | some d => (joinTeam d k p entry true cs s1).map fun s2 => (t, s2) | none => none)
      | _ => some (t, s1)

/-! ## Restoring teams (spec 22 R414) -/

/-- One saved team rebuilt on a core, with a new core's view of SWM memory (spec 10 R213). Its pinned pages are refilled before it
issues (spec 09 R175). -/
def restoreOne (c t : Nat) (s : State) : Option State :=
  let tm := s.team t
  let pinned := (tm.pages.filter fun p => p.2.pinned || p.2.ringPin).map (·.1)
  if (tm.saved.isSome && ((s.core c).owner.isSome || (tm.savedCpe.halt.isSome && (s.cpe c).halt.isSome))) || tm.shuns s.dtime c then none
  else if pinnedFrames s c + pinned.length + 32 > frameCount s c && !pinned.isEmpty then none
  else
    (findRecord s c tm.grid (tm.hoists.map fun h => h.slots.length)).map fun a =>
      let moved := tm.hoists.zip a.2
      let slotOf := fun (h : Nat) (old : Nat) =>
        match moved.find? fun e => e.1.index == h with
        | some e => (e.2.1, e.2.2.getD ((indexWhere (fun x => x == old) e.1.slots).getD 0) 0)
        | none => (0, old)
      let s1 := (openCore c tm.grid tm.savedShapes s).setTeam t
        { tm with core := some c, hoists := moved.map fun e => { e.1 with quad := e.2.1, slots := e.2.2 }, bindRec := a.1
                  placed := s.dtime, preempt := false, swap := false, left := none, saved := none, savedCpe := {}, savedShapes := none, savedTraps := [] }
      let s2 := s1.modWork fun w =>
        { w with waves := w.waves.map fun e =>
            if e.2.team == t && e.2.away then
              (e.1, { e.2 with core := c, quad := (slotOf e.2.hoist e.2.slot).1, slot := (slotOf e.2.hoist e.2.slot).2, away := false, line := none })
            else e }
      let q := tm.savedCpe
      (acquireSide c (s.grid tm.grid).ctx 3 s2).modCore c fun x =>
        { x with
          traps := x.traps ++ tm.savedTraps
          owner := if tm.saved.isSome then some t else x.owner
          group := tm.saved.getD x.group
          cpe := { (if tm.saved.isSome then
              { x.cpe with prog := q.prog, iw := q.iw, looped := q.looped, held := q.held, passes := q.passes, nextPass := q.nextPass
                           halt := q.halt.orElse fun _ => x.cpe.halt
                           haltCopy := if q.halt.isSome then q.haltCopy else x.cpe.haltCopy
                           haltSink := if q.halt.isSome then q.haltSink else x.cpe.haltSink }
            else x.cpe) with q := x.cpe.q } }
/-- A saved team, with its partner of a redundant pair. -/
def restoreUnit (c t : Nat) (s : State) : Option (Nat × State) :=
  match (s.team t).role with
  | .primary p => if c % 2 ≠ 0 then none else ((restoreOne c t s).bind fun s1 => restoreOne (c + 1) p s1).map fun s2 => (t, s2)
  | _ => (restoreOne c t s).map fun s1 => (t, s1)

/-! ## The dispatch decision (spec 15 R308) -/

/-- A task placed from a core's list: the first team it places or joins, and the state. -/
def placeKind (t : Task) (c : Nat) (s : State) : Option (Nat × State) :=
  let g := s.grid t.grid
  match t.kind with
  | .teams first n =>
    if n ≤ 1 then placeOne c t.grid first none s
    else gangPlace c g (fun k i s => placeOne k t.grid i none s) ((List.range n).map fun i => first + i) [] none s
  | .child idx entry ch => placeOne c t.grid idx (some (entry, ch)) s
  | .threads entry origin cs => placeThreads c t.grid origin entry cs s
  | .restore ts =>
    match ts with
    | [x] => restoreUnit c x s
    | _ => gangPlace c g (fun k i s => restoreUnit k i s) ts [] none s
/-- Where the placement of a task landed: quadrant and slot of its first hoist, or of its wave. -/
def placedAt (t : Task) (team : Nat) (s0 s : State) : Nat × Nat :=
  match t.kind with
  | .threads entry _ _ =>
    (match s.work.waves.find? fun e => e.2.team == team && e.2.pc == entry && !(Tab.find s0.work.waves e.1 == some e.2) with
     | some e => (e.2.quad, e.2.slot)
     | none => (0, 0))
  | _ =>
    match (s.team team).hoists with
    | h :: _ => (h.quad, h.slots.getD 0 0)
    | [] => (0, 0)
/-- A task placed, with the dispatch record of replay (spec 20 R393, R394): the task leaves its list. -/
def placeTask (key c : Nat) (s : State) : Option State :=
  match Tab.find s.work.tasks key with
  | none => none
  | some t =>
    if t.moving s.clock then none
    else
      let g := s.grid t.grid
      (placeKind t c (s.modWork fun w => { w with tasks := Tab.del w.tasks key })).bind fun p =>
        let at_ := placedAt t p.1 s p.2
        let val := placeKey c at_.1 at_.2
        if g.playing && !replayAllows s g.ctx 3 t.stamp val then none
        else
          let s1 := if g.playing then replayTaken g.ctx p.2 else p.2
          let ord := g.ordinal (match t.kind with | .child _ e _ => e | .threads e _ _ => e | _ => g.entry)
          let s2 := if g.recording then replayPut g.ctx (recordWord 3 0 c at_.1 at_.2) ord t.stamp val s1 else s1
          some (wakeTasks s2)
/-- The entry address of a task's threads. -/
def Task.entry (t : Task) (g : Grid) : Option DWord :=
  match t.kind with
  | .teams _ _ => some g.entry
  | .child _ e _ => some e
  | .threads e _ _ => some e
  | .restore _ => none
/-- The entry line is in the core's 16-entry summary. -/
def entryRecent (s : State) (c : Nat) (t : Task) : Bool :=
  match t.entry (s.grid t.grid) with
  | some e =>
    let x := (s.grid t.grid).ctx
    (match checkGlobal s ⟨c, x, (s.ctx x).svc⟩ { x := true } 1 (lineAddr e) with
     | .ok p => (s.core c).recent.contains p.pa
     | .error _ => false)
  | none => false
/-- A thread task whose entry matches a forming wave of the core with room. -/
def matchesForming (s : State) (c : Nat) (t : Task) : Bool :=
  match t.kind with
  | .threads e o cs => (match hostTeam s c t.grid o with | some h => (formingFor s c h e cs.length).isSome | none => false)
  | _ => false
/-- The least task by a list of keys, in order. -/
def firstBy (ks : List (Task → Nat)) (l : List (Nat × Task)) : Option Nat :=
  ((ks.foldr (fun k acc => sortBy (fun (e : Nat × Task) => k e.2) acc) l).head?).map (·.1)
/-- Where a thread task on a core without a team of its grid returns to: its origin team's core. -/
def strayTo (c : Nat) (s : State) (t : Task) : Option Nat :=
  match t.kind with
  | .threads _ o _ =>
    if t.core == c && !t.moving s.clock && !(s.work.teams.any fun m => m.2.grid == t.grid && m.2.core == some c) then (s.team o).core else none
  | _ => none
/-- The thread tasks of a core without a team of their grid return. -/
def returnStrays (c : Nat) (s : State) : State :=
  s.modWork fun w =>
    { w with tasks := w.tasks.map fun e => match strayTo c s e.2 with | some d => (e.1, { e.2 with core := d }) | none => e }
/-- The task that a core's decision picks, of those that `allow` names. -/
def pickTask (c : Nat) (allow : Task → Bool) (s : State) : Option Nat :=
  let fit := (s.work.tasks.filter fun e => e.2.core == c && allow e.2).filter fun e => (placeTask e.1 c s).isSome
  let aged := fit.filter fun e => decide (s.clock - e.2.queued ≥ (s.cluster (c / 8)).age)
  let order := [Task.cls, Task.stamp, Task.queue]
  if !aged.isEmpty then firstBy [Task.stamp, Task.queue] aged
  else
    (firstBy order (fit.filter fun e => matchesForming s c e.2)).orElse fun _ =>
      (firstBy order (fit.filter fun e => entryRecent s c e.2)).orElse fun _ => firstBy order fit
def dispatchFor (c : Nat) (allow : Task → Bool) (s : State) : State :=
  if s.guidon.frozen then s
  else
    let s1 := returnStrays c s
    match pickTask c allow s1 with
    | some k => (placeTask k c s1).getD s1
    | none => s1
/-- After a context switch a core takes tasks of other contexts, while its list holds any (spec 22 R416). -/
def allowed (c : Nat) (s : State) (t : Task) : Bool :=
  match (s.core c).shift with
  | none => true
  | some old =>
    let other := fun (t : Task) => !old.contains (s.grid t.grid).ctx
    other t || !(s.work.tasks.any fun e => e.2.core == c && other e.2)
def dispatchDecision (core : Nat) (s : State) : State :=
  let s1 := dispatchFor core (allowed core s) s
  if s1.work.tasks.length < s.work.tasks.length && (s.core core).shift.isSome then s1.modCore core fun c => { c with shift := none } else s1
/-- An aged task of a core that arrived before a task, and fits there (spec 15 R300). -/
def agedBefore (c : Nat) (t : Task) (s : State) : Bool :=
  s.work.tasks.any fun e =>
    e.2.core == c && decide (e.2.stamp < t.stamp) && decide (s.clock - e.2.queued ≥ (s.cluster (c / 8)).age) && (placeTask e.1 c s).isSome
/-- The machine with a restore task on the list of another core. -/
def carried (core task : Nat) (s : State) : State :=
  s.modWork fun w => { w with tasks := w.tasks.map fun e => if e.1 = task then (e.1, { e.2 with core := core }) else e }
/-- A core other than the one that lists it takes a saved team: no aged earlier task of either list is passed, and among the
core's own tasks it comes first (spec 15 R300, R308, R318). -/
def mayRestore (core task : Nat) (s : State) : Bool :=
  match Tab.find s.work.tasks task with
  | some t =>
    t.kind.isRestore && !t.moving s.clock && t.core != core && eligible s (s.grid t.grid) core && !agedBefore t.core t s &&
      pickTask core (allowed core s) (carried core task s) == some task
  | none => false
/-- A saved team rebuilt on any eligible core (spec 15 R318). -/
def teamRestore (core task : Nat) (s : State) : State :=
  if s.guidon.frozen || !mayRestore core task s then s else (placeTask task core (carried core task s)).getD s

/-! Each answers the next state that the definition of its name gives. -/
def execDispatchDecision (core : Nat) (s : State) : Host.Outcome State Fault Refusal := .next (dispatchDecision core s)
def execTeamRestore (core : Nat) (task : Nat) (s : State) : Host.Outcome State Fault Refusal := .next (teamRestore core task s)
end Sys2Proof.Machine
end

