-- ==== Sys2Proof/Machine/Sched.lean ====
section
/-!
DEFINITION. Sched.lean: pre-emption, vacating, migration, averaging, context switch, retirement of teams and the wave
former (spec 02 R22 to R27, 09 R170, R172, 15 R309 to R318, 22 R413 to R416).
-/
namespace Sys2Proof.Machine

/-! ## Standing at a safe point -/

/-- Whether the instruction at a thread's PC is a safe point; a line that cannot be read stops the thread there too. -/
def standsSafe (s : State) (t : Thread) (pc : DWord) : Bool :=
  match slotOf pc with
  | none => true
  | some k =>
    match (fetchLine (whoOf s t) (lineAddr pc) s).1 with
    | .ok l => (lineSlot l k).getLsbD 79
    | .error _ => true
/-- The wave that holds a thread. -/
def waveOf (s : State) (t : Nat) : Option (Nat × Wave) := s.work.waves.find? fun e => e.2.lanes.toList.contains (some t)
/-- A thread has stopped for pre-emption (spec 22 R413): parked, stopped by a trap, held, or before a safe point. -/
def hasStopped (s : State) (t : Nat) (th : Thread) : Bool :=
  th.park.isSome || th.stopped ||
    match waveOf s t with
    | none => standsSafe s th th.pc
    | some (_, w) => w.holdsAny && (standsSafe s th w.pc || (s.present w).any fun l => l.id == t && !w.exm.getLsbD l.lane)

/-! ## Pre-emption (spec 22 R413 to R415) -/

/-- The resident teams that are pre-empted with a team: its gang, redundant partners included. -/
def gangMates (s : State) (team : Nat) : List Nat :=
  let tm := s.team team
  (s.work.teams.filter fun e => e.2.grid == tm.grid && e.2.gang == tm.gang && e.2.child == tm.child && e.2.core.isSome).map (·.1)
def teamThreads (s : State) (team : Nat) : List (Nat × Thread) :=
  s.work.threads.filter fun e => e.2.handlerOf.isNone && e.2.team == team
/-- Every thread of a team has stopped, no trap of it is in service, and its accesses and comparisons are complete. -/
def teamQuiet (s : State) (team : Nat) : Bool :=
  let tm := s.team team
  let c := tm.core.getD 0
  (teamThreads s team).all (fun e => hasStopped s e.1 e.2 && !remoteOpen s e.1) &&
    (match (s.core c).serving with | some p => p.team != team | none => true) &&
    (match tm.role with | .single => true | _ => (s.pair (c / 2)).prim.isEmpty && (s.pair (c / 2)).sec.isEmpty && (s.pair (c / 2)).follow.isEmpty)
/-- What is kept of a thread: registers and predicates live at its safe point. -/
def savedThread (g : Grid) (t : Thread) : Thread :=
  let at_ := (g.ordinal t.pc).toNat
  let sp := g.safePts.getD at_ {}
  { t with
    v := (List.range 64).foldl (fun v k => if sp.liveV.getLsbD k then v else v.setIfInBounds k 0) t.v
    p := t.p &&& sp.liveP.setWidth 7
    q := Vector.replicate 8 0, restoreQ := false, resv := none, arrival := none, asks := [], readyAt := 0 }
/-- One team saved: threads, pinned waves, engine group, queued traps; its core's resources are free, and the SWM bytes that its
core holds go home (spec 10 R213). Its copies go on in the copy engine's queue, and a suspended one keeps the engine halted, with
its trap, on this core (spec 09 R175, 12 R254, R256). -/
def saveTeam (team : Nat) (s : State) : State :=
  let tm := s.team team
  let g := s.grid tm.grid
  match tm.core with
  | none => s
  | some c =>
    let x := s.core c
    let owns := x.owner == some team
    let suspended := x.cpe.haltCopy.isSome
    let stays := fun (p : Trap) => p.team != team || (suspended && p.source == 1)
    let lastOfGrid := !((teamsOn s c).any fun e => e.2.grid == tm.grid && e.1 != team)
    let gone := (s.work.waves.filter fun e => e.2.team == team && !e.2.away && !e.2.holdsAny &&
      (s.present e.2).all fun l => l.th.handlerOf.isNone).map (·.1)
    let s1 := gone.foldl (fun s w => dissolve w s) (releaseSide c 5 s)
    let s2 := s1.modWork fun w =>
      { w with
        threads := w.threads.map fun e => if e.2.handlerOf.isNone && e.2.team == team then (e.1, savedThread g e.2) else e
        waves := w.waves.map fun e => if e.2.team == team && e.2.holdsAny then (e.1, { e.2 with away := true, line := none, latches := 0 }) else e }
    let s3 := s2.modTeam team fun t =>
      { t with
        core := none, preempt := false, left := some c
        pages := (t.pages.filter fun p => p.2.pinned || p.2.ringPin).map fun p => (p.1, { p.2 with st := .arriving, dirty := 0 })
        saved := if owns then some x.group else none
        savedCpe := if !owns then {} else
          { x.cpe with q := [], halt := if suspended then none else x.cpe.halt, haltCopy := none, haltSink := if suspended then none else x.cpe.haltSink }
        savedTraps := x.traps.filter fun p => !stays p }
    let shape := x.shapes.bind fun p => if lastOfGrid && p.1 == tm.grid then some p.2 else none
    let s3 := s3.modWork fun w =>
      { w with teams := w.teams.map fun e =>
          if shape.isSome && e.2.grid == tm.grid && e.2.core.isNone && e.2.left == some c then (e.1, { e.2 with savedShapes := shape }) else e }
    let s4 := s3.modCore c fun k =>
      { k with
        traps := k.traps.filter stays
        shapes := if lastOfGrid then (k.shapes.bind fun p => if p.1 == tm.grid then none else some p) else k.shapes
        owner := if owns then none else k.owner
        group := if owns then {} else k.group
        cpe := if owns then
            { k.cpe with prog := none, held := none, passes := [], looped := false
                         halt := if suspended then k.cpe.halt else none, haltSink := if suspended then k.cpe.haltSink else none }
          else k.cpe }
    wakeEngine c s4
/-- Cores of a vacate that are empty; the vacate ends when all are, and the reservation begins (spec 15 R317). -/
def vacateUpdate (cl : Nat) (s : State) : State :=
  let x := s.cluster cl
  if !x.vacBusy then s
  else
    let named := (List.range 8).filter fun i => x.vacCores.getLsbD i
    let empty := named.filter fun i => (teamsOn s (8 * cl + i)).isEmpty
    let done : Byte := empty.foldl (fun m i => m ||| (1#8 <<< i)) 0
    let ended := empty.length == named.length
    let s1 := s.modCluster cl fun c => { c with vacDone := done, vacBusy := !ended }
    if ended then
      named.foldl (fun s i => s.modCore (8 * cl + i) fun c =>
        { c with holdUntil := if x.vacHold = 0 then none else some (s.dtime + x.vacHold.toNat * 16000) }) s1
    else s1
/-- Every thread of a team waits for a condition, and none has a cancellation to take. -/
def waitsAll (s : State) (team : Nat) : Bool :=
  let ts := teamThreads s team
  !ts.isEmpty && ts.all fun e => rereads e.2 && e.2.cancel.isNone && !e.2.stopped
/-- A gang whose teams are all quiet is saved. It is queued again, or, swapped out, stays away until a wait of its threads ends;
a parked thread of a gang that is queued leaves its wait, to reissue (spec 11 R236, 22 R413, R414). -/
def finishPreempt (team : Nat) (s : State) : State :=
  let ms := gangMates s team
  if ms.isEmpty || !(ms.all fun t => (s.team t).preempt && teamQuiet s t) then s
  else
    let asleep := ms.all fun t => (s.team t).swap && waitsAll s t
    let cs := dedup (ms.filterMap fun t => (s.team t).core)
    let s0 := if asleep then s
      else (ms.flatMap fun t => ((teamThreads s t).filter fun e => e.2.park.isSome).map (·.1)).foldl (fun s t => leaveWait t s) s
    let s1 := ms.foldl (fun s t => saveTeam t s) s0
    let s2 := if asleep then s1 else requeue team ms s1
    (dedup (cs.map fun c => c / 8)).foldl (fun s cl => vacateUpdate cl s) s2
/-- A team's gang is asked to stop, and is saved once it has. -/
def stopGang (team : Nat) (s : State) : State :=
  finishPreempt team ((gangMates s team).foldl (fun s t => s.modTeam t fun x => { x with preempt := true }) s)
/-- The teams of a gang all wait for conditions, and a task that one of their cores covers finds no room there: the gang is
swapped out (spec 02 R24, R36; log entry 66). -/
def swapWanted (s : State) (team : Nat) : Bool :=
  let ms := gangMates s team
  !ms.isEmpty && ms.all (fun t => !(s.team t).preempt && waitsAll s t) &&
    ms.any fun t => match (s.team t).core with
      | none => false
      | some c =>
        (s.work.tasks.any fun e => e.2.core == c && !e.2.moving s.clock && eligible s (s.grid e.2.grid) c) && (pickTask c (fun _ => true) s).isNone
/-- The pre-emption of a team goes on, or a swap-out of its gang begins. -/
def preemption (team : Nat) (s : State) : State :=
  if s.guidon.frozen then s
  else if swapWanted s team then
    stopGang team ((gangMates s team).foldl (fun s t => s.modTeam t fun x => { x with swap := true }) s)
  else stopGang team s
/-- Every team of some cores is asked to stop. -/
def preemptCores (cs : List Nat) (s : State) : State :=
  if s.guidon.frozen then s
  else (cs.flatMap fun c => (teamsOn s c).map (·.1)).foldl (fun s t => if (s.team t).core.isSome then stopGang t s else s) s
/-- The core switches to another context: its teams are pre-empted, and later cycles place tasks of other contexts (spec 15 R312,
22 R416). -/
def contextSwitch (core : Nat) (s : State) : State :=
  let old := dedup ((teamsOn s core).map fun e => (s.grid e.2.grid).ctx)
  (preemptCores [core] s).modCore core fun c => { c with shift := if s.guidon.frozen || old.isEmpty then c.shift else some old }
/-- HLY_VAC written (spec 15 R317). -/
def hlyVacWrite (cluster : Nat) (w : Word) (s : State) : State :=
  let x := s.cluster cluster
  let hold := w.extractLsb' 16 8
  if x.vacBusy then s.modCluster cluster fun c => { c with vacHold := hold }
  else
    let cores := w.extractLsb' 0 8
    let s1 := s.modCluster cluster fun c => { c with vacHold := hold, vacCores := cores, vacDone := 0, vacBusy := true }
    vacateUpdate cluster (preemptCores (((List.range 8).filter fun i => cores.getLsbD i).map fun i => 8 * cluster + i) s1)
def vacateHoldExpiry (cluster : Nat) (s : State) : State :=
  (List.range 8).foldl (fun s i =>
    match (s.core (8 * cluster + i)).holdUntil with
    | some t => if t ≤ s.dtime then s.modCore (8 * cluster + i) fun c => { c with holdUntil := none } else s
    | none => s) s

/-! ## Migration and averaging (spec 15 R310, R311, R316) -/

/-- Cores at MIG_TEMP give up the team of longest residency, once it has resided 2 ms. -/
def thermalMigrationScan (temps : List (Nat × Nat)) (s : State) : State :=
  if s.guidon.frozen then s
  else
    temps.foldl (fun s e =>
      let c := e.1
      let fresh := match (s.core c).lastMig with | some t => decide (s.dtime < t + 100000) | none => false
      if e.2 < s.power.mig.toNat || fresh then s
      else
        match leastBy (fun t => t.2.placed) ((teamsOn s c).filter fun t => !t.2.preempt && decide (t.2.placed + 2000000 ≤ s.dtime)) with
        | none => s
        | some t =>
          stopGang t.1 ((gangMates s t.1).foldl (fun s k => s.modTeam k fun x => { x with avoid := some (c, s.dtime + 2000000) })
            (s.modCore c fun x => { x with lastMig := some s.dtime }))) s
/-- Tasks that averaging counts and may move. -/
def movable (clock : Nat) (t : Task) : Bool := !t.pinned && !t.moving clock && !t.kind.isRestore
/-- The links of a core in the order its moves are served. -/
def links (c : Nat) : List Nat :=
  let cl := c / 8
  let i := c % 8
  let a := 8 * cl + (i + 7) % 8
  let b := 8 * cl + (i + 1) % 8
  let x := cl % 4
  let y := cl / 4
  [min a b, max a b] ++
    (if i = 0 then [(y * 4 + (x + 3) % 4) * 8, (y * 4 + (x + 1) % 4) * 8, ((y + 3) % 4 * 4 + x) * 8, ((y + 1) % 4 * 4 + x) * 8] else [])
/-- Core j may hold a task. -/
def coversTask (s : State) (j : Nat) (t : Task) : Bool :=
  eligible s (s.grid t.grid) j &&
    (match t.kind with
     | .threads _ _ _ => s.work.teams.any fun e => e.2.grid == t.grid && e.2.core == some j
     | _ => true)
/-- n tasks of core i with the highest stamps that j covers, moved: they arrive before the next exchange counts. -/
def moveTasks (i j n : Nat) (s : State) : State :=
  let room := Config.taskListMax - tasksOn s j
  let pool := (sortBy (fun e => e.2.stamp) (s.work.tasks.filter fun e => e.2.core == i && movable s.clock e.2 && coversTask s j e.2)).reverse
  (pool.take (min n room)).foldl (fun s e =>
    s.modWork fun w => { w with tasks := Tab.put w.tasks e.1 { e.2 with core := j, transit := some (s.clock / 256 * 256 + 256) } }) s
/-- One exchange from a snapshot of the counts. -/
def neighbourAveraging (s : State) : State :=
  if s.guidon.frozen then s
  else
    let q := fun (c : Nat) => (s.work.tasks.filter fun e => e.2.core == c && movable s.clock e.2).length
    let busy := (List.range 128).filter fun c => q c > 0
    busy.foldl (fun s' i =>
      let code := (s.cluster (i / 8)).avg.toNat
      if code = 3 then s'
      else (links i).foldl (fun s' j => moveTasks i j ((q i - q j) / 2 ^ (code + 1)) s') s') s
def taskTransitArrival (task : Nat) (s : State) : State :=
  match Tab.find s.work.tasks task with
  | some t => s.modWork fun w => { w with tasks := Tab.put w.tasks task { t with transit := none } }
  | none => s
def l1SplitChange (core : Nat) (s : State) : State :=
  match (s.core core).l1Pend with
  | some n => if (teamsOn s core).isEmpty then setSplit core n s else s
  | none => s

/-! ## Retirement of a team (spec 02 R22, 08 R143, 12 R239, R256) -/

/-- The engine group of a core released: bins go out where their rings have room, the rest is lost and logged. -/
def releaseGroup (c : Nat) (s : State) : State :=
  let x := match (s.core c).owner with | some t => (s.grid (s.team t).grid).ctx | none => 0
  let s1 := (List.range 8).foldl (fun s k => emptyBin c k s) s
  let s2 := (s1.group c).bins.foldl (fun s b =>
    b.2.closed.foldl (fun s _ => logCore 0x4A c x 0 (BitVec.ofNat 64 (b.1 + 256 * b.2.ring)) s) s) s1
  let s3 := s2.modCore c fun k =>
    { k with
      owner := none, group := {}
      cpe :=
        let q : Cpe := { k.cpe with prog := none, held := none, passes := [], looped := false, iw := Vector.replicate 8 0 }
        if k.cpe.haltCopy.isSome then q else { q with halt := none, haltSink := none } }
  wakeEngine c s3
/-- Whether a team may retire. -/
def canRetire (s : State) (team : Nat) : Bool :=
  let tm := s.team team
  (s.team? team).isSome && tm.core.isSome && !tm.preempt && (teamThreads s team).isEmpty &&
    !(s.work.tasks.any fun e => match e.2.kind with | .threads _ o _ => o == team | _ => false) &&
    !(s.cores.any fun e => e.2.cpe.q.any fun k => k.targets s team) &&
    s.cores.all (fun e => e.2.traps.all (fun p => p.team != team) && (match e.2.serving with | some p => p.team != team | none => true)) &&
    (match tm.core with
     | some c => (s.core c).owner != some team || (s.mxe c).q.isEmpty
     | none => true)
def teamRetire (team : Nat) (s : State) : State :=
  if s.guidon.frozen || !canRetire s team then s
  else
    let tm := s.team team
    let c := tm.core.getD 0
    let s1 := if (s.core c).owner == some team then releaseGroup c s else s
    let s2 := s1.modWork fun w => { w with teams := Tab.del w.teams team }
    let s3 := s2.modCtx (s.grid tm.grid).ctx fun x => { x with binds := x.binds.filter fun b => b.team != some team && b.objTeam != some team }
    let s4 := s3.modHome fun h => { h with monitors := h.monitors.filter fun e => e.2.scr != some team }
    let s5 := if tm.allExit then leaveGroup? tm.group 1 1 none s4 else leaveGroup? tm.group 1 0 (some 0x89) s4
    let s6 := s5.modCore c fun x =>
      { x with shapes := x.shapes.bind fun p => if (teamsOn s5 c).any (fun e => e.2.grid == p.1) then some p else none }
    freeLineages (vacateUpdate (c / 8) s6)

/-! ## The wave former (spec 02 R26) -/

/-- The handler wave of its core suspends the home wave of a thread (spec 22 R417). -/
def suspended (s : State) (t : Thread) : Bool :=
  let x := s.core (s.coreOf t)
  t.handlerOf.isNone && x.suspend == some (t.hoist, t.hwave) && (match x.serving with | some p => p.team == t.team | none => false)
/-- A thread that the former may take; one of a team being pre-empted, or of a suspended home wave, only until its next safe
point. -/
def isReady (s : State) (t : Nat) (th : Thread) : Bool :=
  th.park.isNone && !th.stopped && th.readyAt == 0 && (waveOf s t).isNone &&
    (th.handlerOf.isSome || !(((s.team th.team).preempt || suspended s th) && standsSafe s th th.pc))
/-- Physical lanes of the members of a wave, in turn. -/
def packLanes : List (Nat × Nat) → Vector (Option Nat) 32 → Vector (Option Nat) 32
  | [], v => v
  | (t, h) :: r, v =>
    let k := if (v.getD h none).isNone then h else ((List.range 32).find? fun j => (v.getD j none).isNone).getD 0
    packLanes r (v.setIfInBounds k (some t))
/-- A wave formed from a list of ready threads in a slot. -/
def formWave (c q slot : Nat) (team hoist : Nat) (pc : DWord) (ts : List (Nat × Thread)) (s : State) : State :=
  let lanes := packLanes (ts.map fun e => (e.1, e.2.hlane)) (Vector.replicate 32 none)
  let exm : Word := lanes.toList.zipIdx.foldl (fun m e => if e.1.isSome then m ||| (1#32 <<< e.2) else m) 0
  let key := s.work.nextWave
  let w : Wave := { core := c, quad := q, slot := slot, team := team, hoist := hoist, lanes := lanes, exm := exm, pc := pc, lastIssue := s.clock }
  let s1 := s.modWork fun x => { x with waves := Tab.put x.waves key w, nextWave := key + 1 }
  lanes.toList.zipIdx.foldl (fun s e =>
    match e.1 with
    | some t => s.modThread t fun x => { x with lane := e.2, slot := slot }
    | none => s) s1
/-- The members of the next wave among ready threads: their PC by age or by address, in ascending t.hidx. -/
def chooseMembers (s : State) (ready : List (Nat × Thread)) : Option (DWord × List (Nat × Thread)) :=
  let rs := sortBy (fun (e : Nat × Thread) => e.2.hidx) ready
  let aged := rs.filter fun e => decide (s.clock - e.2.lastIssue ≥ Config.agedCycles)
  let lead := if aged.isEmpty then leastBy (fun (e : Nat × Thread) => e.2.pc.toNat) rs else leastBy (fun (e : Nat × Thread) => e.2.lastIssue) aged
  lead.map fun l => (l.2.pc, (rs.filter fun e => e.2.pc == l.2.pc).take 32)
/-- A hoist's first slot without a wave. -/
def freeSlot (s : State) (c : Nat) (h : Hoist) : Option Nat := h.slots.find? fun k => (waveAt s c h.quad k).isNone
/-- The first hoist of a quadrant that can form a wave: its slot, PC and members. -/
def formable (s : State) (c q : Nat) : Option (Nat × Hoist × Nat × DWord × List (Nat × Thread)) :=
  (teamsOn s c).findSome? fun e =>
    (e.2.hoists.filter fun h => h.quad == q).findSome? fun h =>
      (freeSlot s c h).bind fun k =>
        (chooseMembers s ((teamThreads s e.1).filter fun t => t.2.hoist == h.index && isReady s t.1 t.2)).map fun m => (e.1, h, k, m)
/-- The handler wave re-forms in the handler slot of the quadrant that its trap came from (spec 21 R403). -/
def formHandler (s : State) (c q : Nat) : Option (Nat × DWord × List (Nat × Thread)) :=
  match (s.core c).serving with
  | none => none
  | some p =>
    if p.runQuad ≠ q || (waveAt s c q Config.handlerSlot).isSome then none
    else
      (chooseMembers s (s.work.threads.filter fun e => e.2.handlerOf == some c && isReady s e.1 e.2)).map fun m => (p.team, m)
def waveFormation (core quad : Nat) (s : State) : State :=
  if s.guidon.frozen then s
  else
    match formHandler s core quad with
    | some (team, pc, ts) => formWave core quad Config.handlerSlot team 0 pc ts s
    | none =>
      match formable s core quad with
      | some (team, h, slot, pc, ts) => formWave core quad slot team h.index pc ts s
      | none => s
def formingWaveTimeout (wave : Nat) (s : State) : State :=
  match (s.wave wave).forming with
  | some t => if t ≤ s.clock then s.modWave wave fun w => { w with forming := none } else s
  | none => s

/-! ## Refill (spec 09 R171 to R173) -/

/-- A page is engaged: a copy's next sector or the matrix engine's present command uses it (spec 09 R173). Thread instructions
engage their pages within one step. -/
def engaged (s : State) (c team page : Nat) : Bool :=
  ((s.core c).owner == some team && (s.mxe c).halt.isNone && (mxMissing s c).isEmpty && (mxPages s c).contains page) ||
    s.cores.any fun e => e.2.cpe.q.any fun x =>
      x.begun && x.fatal.isNone && decide (x.done < x.units) &&
        (x.padSpans s).any fun p => p.1 == team && (pagesOf p.2.1 p.2.2).contains page
/-- The pages that threads wait for. -/
def wantedPages (s : State) : List (Nat × Nat) :=
  dedup (s.work.threads.flatMap fun e => match e.2.park with | some (.refill _) => e.2.pages | _ => [])
/-- The victim frame of a core: the least recently used that is neither pinned nor engaged; one that a waiting instruction wants
only when there is no other. -/
def victimPage (s : State) (c : Nat) : Option (Nat × Nat) :=
  let ok := (residents s c).filter fun e => e.2.2.st == .resident && !e.2.2.pinned && !e.2.2.ringPin && !engaged s c e.1 e.2.1
  let wanted := wantedPages s
  let least := fun (l : List (Nat × Nat × Page)) => (leastBy (fun e => e.2.2.used) l).map fun e => (e.1, e.2.1)
  (least (ok.filter fun e => !wanted.contains (e.1, e.2.1))).orElse fun _ => least ok
def setPage (team page : Nat) (p : Page) (s : State) : State := s.modTeam team fun t => { t with pages := Tab.put t.pages page p }
def dropPage (team page : Nat) (s : State) : State := s.modTeam team fun t => { t with pages := Tab.del t.pages page }
/-- The first poisoned line of a backing page, as a scratchpad offset (log entry 79). -/
def refillPoison (s : State) (team page : Nat) : Option Nat :=
  ((List.range 16).find? fun k => poisoned s (Config.backingPage team page + 256 * k)).map fun k => page * 4096 + 256 * k
/-- A refill that cannot read its backing page: the waiting instructions take MEMORY_UNCORRECTABLE, a waiting matrix command
halts its engine (spec 08 R155), and the page stays backed. -/
def refillFails (c team page off : Nat) (s : State) : State :=
  let s1 := s.logDev 0x50 0xFF (unitOf 0 c) (BitVec.ofNat 64 off) 0
  let s2 := match (s1.core c).owner, (s1.mxe c).q with
    | some t, m :: _ => if t == team && (mxMissing s1 c).contains (team, page) then mxHalt c 0x40 off m s1 else s1
    | _, _ => s1
  let hit := s2.work.threads.filter fun e =>
    (match e.2.park with | some (.refill _) => true | _ => false) && e.2.pages.contains (team, page)
  let key := fun (t : Thread) => (t.team, t.hoist, t.slot, t.pc)
  (dedup (hit.map fun e => key e.2)).foldl (fun s k =>
    match hit.find? fun e => key e.2 == k with
    | some e => takePriv s ((hit.filter fun x => key x.2 == k).map (·.1)) e.2.parkedAt { cause := 0x50, eaddr := BitVec.ofNat 64 off }
    | none => s) (dropPage team page s2)
/-- The threads whose pages are all in their frames reissue. -/
def wakePages (s : State) : State :=
  s.modThreads ((s.work.threads.filter fun e =>
    (match e.2.park with | some (.refill _) => true | _ => false) && e.2.pages.all fun p => pageReached s p.1 p.2).map (·.1)) Thread.unparkHere
/-- The refill engine takes one page a step on: a backed page starts on its way in, a victim's dirty sectors reach its backing page
and its frame is free, a page on its way in takes a free frame, or asks for a victim's. -/
def scratchpadRefill (team page : Nat) (s : State) : State :=
  match (s.team team).core with
  | none => s
  | some c =>
    match Tab.find (s.team team).pages page with
    | none => setPage team page { st := .arriving, used := s.clock } s
    | some p =>
      match p.st with
      | .resident => wakePages s
      | .leaving => dropPage team page s
      | .arriving =>
        let rs := residents s c
        let count := fun (k : PageSt) => (rs.filter fun e => e.2.2.st == k).length
        if count .resident + count .leaving < frameCount s c then
          (match refillPoison s team page with
           | some off => refillFails c team page off s
           | none => wakePages (setPage team page { p with st := .resident, dirty := 0, used := s.clock } s))
        else if count .leaving ≥ count .arriving then s
        else match victimPage s c with
          | some v => setPage v.1 v.2 { (Tab.get (s.team v.1).pages v.2 {}) with st := .leaving } s
          | none => s
/-- The pages whose refill goes on: those in transition, and the backed ones that an instruction or a matrix command wants. -/
def refillsDue (s : State) : List (Nat × Nat) :=
  let moving := s.work.teams.flatMap fun e =>
    if e.2.core.isNone then [] else (e.2.pages.filter fun p => p.2.st != .resident).map fun p => (e.1, p.1)
  let wanted := (wantedPages s ++ s.cores.flatMap fun e => if e.2.group.mxe.halt.isNone then mxMissing s e.1 else []).filter fun p =>
    (s.team p.1).core.isSome && (pageSt s p.1 p.2).isNone
  dedup (moving ++ wanted)
/-- A restored team issues once its pinned pages are back (spec 09 R175). -/
def restoring (s : State) (team : Nat) : Bool := (s.team team).pages.any fun e => e.2.st == .arriving && (e.2.pinned || e.2.ringPin)

/-! Each answers the next state that the definition of its name gives. -/
def execPreemption (team : Nat) (s : State) : Host.Outcome State Fault Refusal := .next (preemption team s)
def execContextSwitch (core : Nat) (s : State) : Host.Outcome State Fault Refusal := .next (contextSwitch core s)
def execHlyVacWrite (cluster : Nat) (w : Word) (s : State) : Host.Outcome State Fault Refusal := .next (hlyVacWrite cluster w s)
def execVacateHoldExpiry (cluster : Nat) (s : State) : Host.Outcome State Fault Refusal := .next (vacateHoldExpiry cluster s)
def execThermalMigrationScan (temps : List (Nat × Nat)) (s : State) : Host.Outcome State Fault Refusal := .next (thermalMigrationScan temps s)
def execNeighbourAveraging (s : State) : Host.Outcome State Fault Refusal := .next (neighbourAveraging s)
def execTaskTransitArrival (task : Nat) (s : State) : Host.Outcome State Fault Refusal := .next (taskTransitArrival task s)
def execL1SplitChange (core : Nat) (s : State) : Host.Outcome State Fault Refusal := .next (l1SplitChange core s)
def execTeamRetire (team : Nat) (s : State) : Host.Outcome State Fault Refusal := .next (teamRetire team s)
def execWaveFormation (core : Nat) (quad : Nat) (s : State) : Host.Outcome State Fault Refusal := .next (waveFormation core quad s)
def execFormingWaveTimeout (wave : Nat) (s : State) : Host.Outcome State Fault Refusal := .next (formingWaveTimeout wave s)
def execScratchpadRefill (team : Nat) (page : Nat) (s : State) : Host.Outcome State Fault Refusal := .next (scratchpadRefill team page s)
end Sys2Proof.Machine
end

