-- ==== Sys2Proof/Machine/System.lean ====
section
/-!
DEFINITION. System.lean: serving a trap, the returns from handlers, special registers, software traps, and OP 0xE4 and
0xE5 (spec 02 R32, 20 R388, R390, 21 R400, R403 to R411).
-/
namespace Sys2Proof.Machine

/-! ## The privileged handler (spec 21 R400, R403 to R406) -/

/-- The 64 bytes of a trap frame (spec 21 R400). -/
def frameBytes (s : State) (c : Nat) (p : Trap) : List Byte :=
  let tm := s.team p.team
  let w0 := p.regs.cause.toNat + 2 ^ 8 * p.source + 2 ^ 12 * p.atSp.toNat + 2 ^ 13 * p.pair.toNat +
    2 ^ 14 * p.lineSlot + 2 ^ 17 * p.nested.toNat + 2 ^ 18 * p.after.toNat
  let w1 := c + 2 ^ 7 * p.quad + 2 ^ 9 * (p.slot % 32) + 2 ^ 14 * (p.hidx % 1024) + 2 ^ 24 * (p.hoist % 4)
  natLe 4 w0 ++ natLe 4 w1 ++ natLe 4 p.lanes.toNat ++ natLe 4 p.ordinal.toNat ++ natLe 8 p.regs.epc.toNat ++
    natLe 8 p.regs.eaddr.toNat ++ natLe 8 p.regs.einfo.toNat ++ natLe 4 tm.index ++ natLe 4 (s.grid tm.grid).gridId.toNat ++
    natLe 8 p.time ++ natLe 8 p.lineage.toNat
/-- The handler wave of a core ends. -/
def endHandler (c : Nat) (s : State) : State :=
  let ids := (s.work.threads.filter fun e => e.2.handlerOf == some c).map (·.1)
  let s1 := ids.foldl (fun s t => leaveWait t s) s
  let s2 := s1.modWork fun w =>
    { w with
      threads := w.threads.filter fun e => e.2.handlerOf != some c
      waves := w.waves.filter fun e => !(e.2.core == c && e.2.slot == Config.handlerSlot) }
  freeLineages (s2.modCore c fun k => { k with serving := none, handlerFault := none, suspend := none })
/-- The threads of a trap retire. -/
def retireTrapped (p : Trap) (s : State) : State := p.threads.foldl (fun s t => retireThread t false s) s
/-- The grid of a trap fails with a cause, and the threads of the trap retire (spec 21 R406). -/
def failTrap (p : Trap) (cause : Byte) (s : State) : State := failGrid (s.team p.team).grid cause (retireTrapped p s)
/-- The served trap of a core ends in failure (spec 21 R404, R406). -/
def failServed (c : Nat) (cause : Byte) (s : State) : State :=
  match (s.core c).serving with
  | some p => failTrap p cause (endHandler c s)
  | none => s
/-- The head trap of a core's queue served: the frame, then the handler wave, or the grid's failure. -/
def trapServe (core : Nat) (s : State) : State :=
  match (s.core core).traps, (s.core core).serving with
  | p :: ps, none =>
    if s.guidon.frozen then s
    else
      let x := (s.grid (s.team p.team).grid).ctx
      let k := s.ctx x
      let frame := canonVa ((k.tfb.extractLsb' 6 51).toNat * 64) + 64 * core
      let s0 := s.modCore core fun c => { c with traps := ps }
      let wr := vaWrite ⟨core, x, true⟩ { w := true } frame (frameBytes s core p) s0
      let s1 := match wr with
        | .ok s' => s'
        | .error e => logCore e.1 core x (BitVec.ofNat 64 e.2) 0 s0
      let fine := match wr with | .ok _ => true | .error _ => false
      if !(k.pvec.getLsbD 63 && fine) then failTrap p p.regs.cause s1
      else
        let fa := BitVec.ofNat 64 frame
        let th : Thread :=
          { Thread.setRegs {} 0 [loW fa, hiW fa, p.regs.cause.setWidth 32] with
            team := p.team, handlerOf := some core, pc := vecEntry k.pvec, entryCheck := true, lastIssue := s.clock
            slot := Config.handlerSlot }
        (List.range 32).foldl (fun s h => addThread { th with hidx := h, lane := h } s)
          (s1.modCore core fun c => { c with serving := some p })
  | _, _ => s

/-- What the handler wave's first ERET does with the served trap. -/
def eretWith (f : Fields) (act : Nat → Trap → State → State) (s : State) : State :=
  match firstLane f s with
  | none => advance s
  | some l =>
    match l.th.handlerOf with
    | none => takeUsers s f s.here ((s.execLanes f).map fun l => (l, { cause := 0x01 }))
    | some c => (match (s.core c).serving with | some p => act c p s | none => s)
def eretFailing (c : Nat) (p : Trap) (s : State) : State := failServed c p.regs.cause s
def eret (f : Fields) (s : State) : State :=
  eretWith f (fun c p s =>
    if p.redund then eretFailing c p s
    else if (slotOf p.regs.epc).isNone then
      takePriv s ((s.execLanes f).map Lane.id) s.here { cause := 0x05, eaddr := p.regs.epc }
    else
      (endHandler c s).modThreads p.threads fun t =>
        { t with stopped := false, entryCheck := false, pc := p.regs.epc, resume := if t.resume.isSome then some p.regs.epc else none }) s
def eretExit (f : Fields) (s : State) : State := eretWith f (fun c p s => retireTrapped p (endHandler c s)) s
def eretFail (f : Fields) (s : State) : State := eretWith f eretFailing s

/-! ## The user-level handler (spec 21 R407, R409) -/

/-- A thread leaves handler state for an address, with its saved latches. -/
def leaveHandler (pc : DWord) (t : Thread) : Thread :=
  { t with pc := pc, q := t.savedQ, savedQ := Vector.replicate 8 0, restoreQ := true, handler := false, trap := {}, resv := none }
/-- ERET.E: threads outside handler state, and forms that `bad` refuses, take RESERVED_OPCODE. -/
def eretEWith (f : Fields) (bad : Thread → Bool) (act : Thread → Thread) (s : State) : State :=
  let ls := s.execLanes f
  let no := ls.filter fun l => !l.th.handler || bad l.th
  let yes := ls.filter fun l => l.th.handler && !bad l.th
  let s1 := (advance s).modThreads (yes.map Lane.id) act
  takeUsers s1 f s.here (no.map fun l => (l, { cause := 0x01 }))
def eretE (f : Fields) (s : State) : State :=
  let lost := fun (t : Thread) => (slotOf t.trap.epc).isNone
  let s1 := eretEWith f (fun _ => false) (fun t => if lost t then t else leaveHandler t.trap.epc t) s
  takePrivs s1 s.here (((s.execLanes f).filter fun l => l.th.handler && lost l.th).map fun l => (l, { cause := 0x05, eaddr := l.th.trap.epc }))
/-- D of the trapped instruction. -/
def trappedD (t : Thread) : Nat := ((t.trap.efldA ++ (t.trap.efldB ++ t.trap.efldC)).extractLsb' 62 8).toNat
def eretEDone (f : Fields) (s : State) : State :=
  eretEWith f (fun t => t.trap.efldD.getLsbD 4) (fun t =>
    let t1 := if trappedD t < s.regsOf t then t.setReg (trappedD t) t.trap.evalA else t
    leaveHandler t.trap.next t1) s
def eretEDone64 (f : Fields) (s : State) : State :=
  eretEWith f (fun t => t.trap.efldD.getLsbD 4) (fun t =>
    let d := trappedD t
    let t1 := if d % 2 = 0 && d + 1 < s.regsOf t then (t.setReg d t.trap.evalA).setReg (d + 1) t.trap.evalB else t
    leaveHandler t.trap.next t1) s

/-! ## Special registers (spec 02 R32, 21 R411) -/

/-- The trap registers that a thread sees. -/
def State.trapRegs (s : State) (t : Thread) : TrapRegs :=
  match t.handlerOf with
  | some c => (match (s.core c).serving with | some p => p.regs | none => {})
  | none => t.trap
/-- Selectors of 64-bit registers. -/
def selWide (sel : Nat) : Bool := [0x10, 0x11, 0x14, 0x21, 0x22, 0x23].contains sel
/-- The value of a special register in a thread. The handler wave has no hoist, wave slot or lineage of its own: those
four registers read a free value there (log entry 8). -/
def specialReg (s : State) (l : Lane) (sel : Nat) : DWord :=
  let t := l.th
  let tm := s.team t.team
  let g := s.grid tm.grid
  let n := fun (k : Nat) => BitVec.ofNat 64 k
  let own := fun (x : DWord) => if t.handlerOf.isSome then Config.freeValue s.free else x
  let r := s.trapRegs t
  match sel with
  | 0x00 => own (if t.spawned then 0xFFFFFFFF else n (t.hoist * g.hoistThreads + t.hidx))
  | 0x01 => n t.hidx
  | 0x02 => n t.hlane
  | 0x03 => n t.hwave
  | 0x04 => n l.lane
  | 0x05 => own (n (s.wave s.curWave).slot)
  | 0x06 => own (n t.hoist)
  | 0x07 => n g.hoistThreads
  | 0x08 => n tm.index
  | 0x09 => n tm.gang
  | 0x0A => n tm.gslot
  | 0x0B => g.gridId.setWidth 64
  | 0x0C => n (s.coreOf t)
  | 0x0D => n (s.coreOf t / 8)
  | 0x0E => n (s.quadOf t)
  | 0x0F => s.fabric.module_.setWidth 64
  | 0x10 => n s.clock
  | 0x11 => n s.dtime
  | 0x12 => n g.ctx
  | 0x13 => n (s.ctx g.ctx).world.toNat
  | 0x14 => own t.lineage
  | 0x15 => n g.regs
  | 0x20 => r.cause.setWidth 64
  | 0x21 => r.epc
  | 0x22 => r.eaddr
  | 0x23 => r.einfo
  | 0x24 => r.efldA.setWidth 64
  | 0x25 => r.efldB.setWidth 64
  | 0x26 => r.efldC.setWidth 64
  | 0x27 => r.efldD.setWidth 64
  | 0x28 => r.evalA.setWidth 64
  | 0x29 => r.evalB.setWidth 64
  | 0x2A => r.evalC.setWidth 64
  | _ => 0
def selOf (f : Fields) : Nat := (f.imm.extractLsb' 0 8).toNat
def sreg (f : Fields) (s : State) : State :=
  let k := selOf f
  { laneMap f (fun s l => .value (selWide k) (specialReg s l k)) s with free := s.free + 1 }
/-- A writable trap register replaced. -/
def TrapRegs.write (r : TrapRegs) (sel : Nat) (x : DWord) : TrapRegs :=
  match sel with
  | 0x21 => { r with epc := x }
  | 0x28 => { r with evalA := loW x }
  | 0x29 => { r with evalB := loW x }
  | 0x2A => { r with evalC := loW x }
  | _ => r
def swr (f : Fields) (s : State) : State :=
  let k := selOf f
  let val := fun (t : Thread) => if selWide k then reg64 t f.a else (reg32 t f.a).setWidth 64
  match firstLane f s with
  | none => advance s
  | some l =>
    match l.th.handlerOf with
    | some c =>
      (advance s).modCore c fun x => { x with serving := x.serving.map fun p => { p with regs := p.regs.write k (val l.th) } }
    | none =>
      (advance s).modThreads ((s.execLanes f).map Lane.id) fun t => if t.handler then { t with trap := t.trap.write k (val t) } else t

/-! ## TRAP, BKPT, MARK, SMPL (spec 20 R388, R390, 21 R410) -/

def trapCause (f : Fields) : Byte := f.imm.extractLsb' 0 8
def trap (f : Fields) (s : State) : State :=
  takeUsers (advance s) f { s.here with after := true }
    ((s.execLanes f).map fun l => (l, { cause := trapCause f, einfo := (reg32 l.th f.a).setWidth 64 }))
def trapPriv (f : Fields) (s : State) : State :=
  match byHidx (s.execLanes f) with
  | [] => advance s
  | l :: ls =>
    takePriv (advance s) ((l :: ls).map Lane.id) { s.here with after := true }
      { cause := trapCause f, einfo := (reg32 l.th f.a).setWidth 64 }
def State.hereDbg (s : State) : Bool := (s.ctx s.hereCtx).dbg
/-- The ordinal of the issuing wave's instruction. -/
def State.hereOrdinal (s : State) : Word := (s.grid (s.team s.curTeam).grid).ordinal (s.wave s.curWave).pc
def bkpt (f : Fields) (s : State) : State :=
  let ids := (s.execLanes f).map Lane.id
  if !s.hereDbg || ids.isEmpty then advance s
  else
    takePriv (advance s) ids { s.here with after := true }
      { cause := 0x10, einfo := (f.imm.extractLsb' 0 16).setWidth 64 <<< 48 ||| s.hereOrdinal.setWidth 64 }
def mark (f : Fields) (s : State) : State :=
  waveOnce f (fun l s =>
    let x := s.hereCtx
    if !(s.hereDbg && (s.ctx x).blk.trc) then advance s
    else
      let w := s.wave s.curWave
      putRecord x
        (record (recordWord 3 0 w.core w.quad w.slot) s.hereOrdinal s.dtime
          (natLe 2 (f.imm.extractLsb' 0 16).toNat ++ natLe 2 0 ++ natLe 4 (reg32 l.th f.a).toNat ++
            natLe 4 (s.team s.curTeam).index ++ natLe 4 0)) (advance s)) s
def smpl (f : Fields) (s : State) : State :=
  waveOnce f (fun _ s =>
    if !s.hereDbg then advance s
    else (advance s).modThreads ((s.active (s.wave s.curWave)).map Lane.id) fun t => { t with smpl := true }) s

/-! Each answers the next state that the definition of its name gives. -/
def execTrapServe (core : Nat) (s : State) : Host.Outcome State Fault Refusal := .next (trapServe core s)
/-! Each answers the next state that the definition of its name gives. -/
def execEret (f : Fields) (s : State) : Host.Outcome State Fault Refusal := .next (eret f s)
def execEretExit (f : Fields) (s : State) : Host.Outcome State Fault Refusal := .next (eretExit f s)
def execEretFail (f : Fields) (s : State) : Host.Outcome State Fault Refusal := .next (eretFail f s)
def execEretE (f : Fields) (s : State) : Host.Outcome State Fault Refusal := .next (eretE f s)
def execEretEDone (f : Fields) (s : State) : Host.Outcome State Fault Refusal := .next (eretEDone f s)
def execEretEDone64 (f : Fields) (s : State) : Host.Outcome State Fault Refusal := .next (eretEDone64 f s)
def execSreg (f : Fields) (s : State) : Host.Outcome State Fault Refusal := .next (sreg f s)
def execSwr (f : Fields) (s : State) : Host.Outcome State Fault Refusal := .next (swr f s)
def execTrap (f : Fields) (s : State) : Host.Outcome State Fault Refusal := .next (trap f s)
def execTrapPriv (f : Fields) (s : State) : Host.Outcome State Fault Refusal := .next (trapPriv f s)
def execBkpt (f : Fields) (s : State) : Host.Outcome State Fault Refusal := .next (bkpt f s)
def execMark (f : Fields) (s : State) : Host.Outcome State Fault Refusal := .next (mark f s)
def execSmpl (f : Fields) (s : State) : Host.Outcome State Fault Refusal := .next (smpl f s)
end Sys2Proof.Machine
end

