-- ==== Sys2Proof/Machine/Control.lean ====
section
/-!
DEFINITION. Control.lean: OP 0xC8 to 0xCD, control transfers and NOP (spec 03 R41, 06 R116, R117).
-/
namespace Sys2Proof.Machine

/-- Why a thread may not transfer to an address (spec 03 R41, 06 R117); the line's own check is made at entry. -/
def targetErr (s : State) (t : Thread) (pc : DWord) : Option Byte :=
  match slotOf pc with
  | none => some 0x05
  | some k =>
    match (fetchLine (whoOf s t) (lineAddr pc) s).1 with
    | .ok l => if lineBtm l k then none else some 0x05
    | .error e => if e == 0x04 || e == 0x08 then none else some e
/-- Each executing thread transfers to its target, with a link where the instruction has one. -/
def transfer (f : Fields) (target : State → Lane → DWord) (link : Bool) (s : State) : State :=
  let ls := s.execLanes f
  let res := ls.map fun l => (l, target s l, targetErr s l.th (target s l))
  let bad := res.filterMap fun e => e.2.2.map fun c => (e.1, ({ cause := c, eaddr := e.2.1 } : TrapVal))
  let w := s.wave s.curWave
  let s1 := (res.filter fun e => e.2.2.isNone).foldl (fun s e =>
    s.modThread e.1.id fun t => { (if link then putD64 f.d (succPc w.pc) t else t) with pc := e.2.1 }) (advance s)
  takePrivs s1 s.here bad
def nearTarget (f : Fields) (s : State) (_ : Lane) : DWord := branchTarget (s.wave s.curWave).pc f.imm
def farTarget (f : Fields) (_ : State) (l : Lane) : DWord := reg64 l.th f.a + f.imm.signExtend 64
def bra (f : Fields) (s : State) : State := transfer f (nearTarget f) false s
def brx (f : Fields) (s : State) : State := transfer f (farTarget f) false s
def call (f : Fields) (s : State) : State := transfer f (nearTarget f) true s
def callx (f : Fields) (s : State) : State := transfer f (farTarget f) true s
def ret (f : Fields) (s : State) : State := transfer f (fun _ l => reg64 l.th f.a) false s
def nop (_ : Fields) (s : State) : State := advance s

/-! Each answers the next state that the definition of its name gives. -/
def execBra (f : Fields) (s : State) : Host.Outcome State Fault Refusal := .next (bra f s)
def execBrx (f : Fields) (s : State) : Host.Outcome State Fault Refusal := .next (brx f s)
def execCall (f : Fields) (s : State) : Host.Outcome State Fault Refusal := .next (call f s)
def execCallx (f : Fields) (s : State) : Host.Outcome State Fault Refusal := .next (callx f s)
def execRet (f : Fields) (s : State) : Host.Outcome State Fault Refusal := .next (ret f s)
def execNop (f : Fields) (s : State) : Host.Outcome State Fault Refusal := .next (nop f s)
end Sys2Proof.Machine
end

