-- ==== Sys2Proof/Machine/Bar.lean ====
section
/-!
DEFINITION. Bar.lean: BAR in its three forms (spec 02 R33 to R35, 11 R237).
-/
namespace Sys2Proof.Machine

/-- The mask or membership word. -/
def barWord (f : Fields) (l : Lane) : Word := if f.a == .zero then f.imm else reg32 l.th f.a
def barForm (f : Fields) : Nat := f.fn.toNat % 4
/-- BAR instructions of its form that a thread has executed. -/
def Thread.barCnt (t : Thread) (form : Nat) : BitVec 16 := if form = 1 then t.tmCnt else t.gnCnt
/-- Teams of one side of a redundant pair. -/
def sideOf (t : Team) : Bool := match t.role with | .secondary _ => true | _ => false
/-- Teams that take part with a team in a barrier of a form. -/
def barTeams (s : State) (form team : Nat) : List (Nat × Team) :=
  if form = 1 then (match s.team? team with | some t => [(team, t)] | none => [])
  else
    let m := s.team team
    s.work.teams.filter fun e => e.2.grid == m.grid && e.2.gang == m.gang && e.2.child == m.child && sideOf e.2 == sideOf m
/-- The bit of the word that names a thread: its hoist, or its team's slot in the gang. -/
def barBit (s : State) (form : Nat) (t : Thread) : Nat := if form = 1 then t.hoist else (s.team t.team).gslot
/-- Threads that have arrived at one barrier of a form. -/
def barGroup (s : State) (form team : Nat) (pc : DWord) (cnt : BitVec 16) : List (Nat × Thread) :=
  let ts := (barTeams s form team).map (·.1)
  s.work.threads.filter fun e =>
    e.2.handlerOf.isNone && e.2.park == some (.sync form) && e.2.pc == pc && e.2.barCnt form == cnt && ts.contains e.2.team
/-- Live threads that a membership word names. -/
def barMembers (s : State) (form team : Nat) (w : Word) : List (Nat × Thread) :=
  let ts := (barTeams s form team).map (·.1)
  s.work.threads.filter fun e => e.2.handlerOf.isNone && ts.contains e.2.team && w.getLsbD (barBit s form e.2)
def barMismatch (s : State) (form team : Nat) (g : List (Nat × Thread)) (w : Word) : Bool :=
  w.toNat ≥ (if form = 1 then 16 else 256) || g.any (fun e => e.2.mask != w || !e.2.mask.getLsbD (barBit s form e.2)) ||
    (barMembers s form team w).any fun m => heldBeside s (g.map (·.1)) m.1
/-- The fence of a barrier for a thread whose guard holds. -/
def barFence (s : State) (t : Thread) : State :=
  match t.arrival with
  | some a =>
    (match a.on, a.ins with
     | true, .bar f => fenceSides (s.coreOf t) (s.ctxOf t) (scopeOf f) s
     | _, _ => s)
  | none => s
/-- A thread goes on past a barrier of a form. -/
def passBar (form : Nat) (t : Thread) : Thread :=
  { t.unparkNext with
    arrival := none, tmCnt := if form = 1 then t.tmCnt + 1 else t.tmCnt, gnCnt := if form = 1 then t.gnCnt else t.gnCnt + 1 }
def releaseBar (form : Nat) (g : List (Nat × Thread)) (s : State) : State :=
  g.foldl (fun s e => (barFence s e.2).modThread e.1 (passBar form)) s
/-- One arrived group: a mismatch traps its participants, one trap for each hoist; a complete one goes on. -/
def resolveBarGroup (form team : Nat) (pc : DWord) (cnt : BitVec 16) (s : State) : State :=
  let g := barGroup s form team pc cnt
  match g with
  | [] => s
  | e :: _ =>
    let w := e.2.mask
    if barMismatch s form team g w then
      let hit := g.filter stopsOnMismatch
      (dedup (hit.map fun x => (x.2.team, x.2.hoist))).foldl (fun s h =>
        takePriv s ((hit.filter fun x => x.2.team == h.1 && x.2.hoist == h.2).map (·.1)) e.2.parkedAt { cause := 0x80 })
        (s.modThreads ((g.filter passesMismatch).map (·.1)) (passBar form))
    else if (barMembers s form team w).all fun m => g.any fun x => x.1 == m.1 then releaseBar form g s
    else s
/-- Every team and gang barrier at which threads of a team wait. -/
def resolveBars (team : Nat) (s : State) : State :=
  [1, 2].foldl (fun s form =>
    let ts := (barTeams s form team).map (·.1)
    (dedup ((s.work.threads.filter fun e => e.2.park == some (.sync form) && ts.contains e.2.team).map fun e => (e.2.pc, e.2.barCnt form))).foldl
      (fun s k => resolveBarGroup form team k.1 k.2 s) s) s
/-- The handler wave takes part in no team or gang barrier (spec 21 R404): its word names no hoist or team of its own. -/
def bar (f : Fields) (s : State) : State :=
  let arr := fun (l : Lane) => (⟨.bar f, barWord f l, 0, 0, true⟩ : Arrival)
  if barForm f = 0 then resolveWaves s.curTeam (arrive f 0 arr s)
  else
    match (s.active (s.wave s.curWave)).head? with
    | none => s
    | some l =>
      if l.th.handlerOf.isSome then trapAll f { cause := 0x80 } s
      else
        releaseFirst f (scopeOf f) (fun s =>
          let s1 := if (s.execLanes f).isEmpty then s else fenceSides s.hereCore s.hereCtx (scopeOf f) s
          resolveBars s.curTeam (arrive f (barForm f) arr s1)) s

/-! Each answers the next state that the definition of its name gives. -/
def execBar (f : Fields) (s : State) : Host.Outcome State Fault Refusal := .next (bar f s)
end Sys2Proof.Machine
end

