-- ==== Sys2Proof/Machine/Seq.lean ====
section
/-!
DEFINITION. Seq.lean: the sequence unit, sampling and pennants, OP 0xC0 to 0xC5 (spec 17 R347 to R359).
-/
namespace Sys2Proof.Machine

/-! ## Entries and handles (spec 17 R347, R348) -/

def State.seq (s : State) (i : Nat) : Seq := Tab.get s.seqs i {}
def State.setSeq (i : Nat) (q : Seq) (s : State) : State := { s with seqs := Tab.put s.seqs i q }
def seqHandle (i : Nat) (q : Seq) : Word := BitVec.ofNat 32 (i + 2 ^ 14 * q.gen.toNat)
/-- The entry of a valid handle of a context. -/
def seqOf (s : State) (x : Nat) (h : Word) : Option (Nat × Seq) :=
  let i := (h.extractLsb' 0 14).toNat
  match Tab.find s.seqs i with
  | some q => if h.extractLsb' 30 2 == 0 && q.used && !q.ending && q.ctx == x && q.gen == h.extractLsb' 14 16 then some (i, q) else none
  | none => none
/-- The first free entry of the n entries from i on. -/
def firstFree (s : State) : Nat → Nat → Option Nat
  | 0, _ => none
  | n + 1, i => if (s.seq i).used then firstFree s n (i + 1) else some i
/-- The first free entry, with its generation advanced. -/
def freeSeq (s : State) : Option (Nat × BitVec 16) :=
  (firstFree s Config.numSequences 0).map fun i =>
    let g := (s.seq i).gen + 1
    (i, if g = 0 then 1 else g)
def Seq.stateBits (q : Seq) : Nat := q.live.toNat + 2 * q.stopped.toNat + 4 * q.ending.toNat + 8 * q.forked.toNat
/-- An entry freed; one whose prefix a fork shares stays ENDING, and ENDING ancestors without forks go with it. -/
def endSeq : Nat → Nat → State → State
  | 0, _, s => s
  | n + 1, i, s =>
    let q := s.seq i
    let shared := s.seqs.any fun e => e.2.used && e.2.parent == i && decide (e.2.p0 > 0) && e.1 != i
    if shared then State.setSeq i { q with drafts := [], ending := true, live := false } s
    else
      let s1 := State.setSeq i { gen := q.gen } s
      if q.p0 > 0 && (s1.seq q.parent).used && (s1.seq q.parent).ending then endSeq n q.parent s1 else s1
/-- Every sequence of a context freed (spec 17 R348). -/
def freeSeqs (x : Nat) (s : State) : State :=
  { s with seqs := s.seqs.map fun e => if e.2.used && e.2.ctx == x then (e.1, { gen := e.2.gen }) else e }

/-! ## Traps of the group (spec 17 R358) -/

/-- A sequence trap of one thread. -/
structure SeqTrap where
  cause : Byte
  a : Word
  b : Word := 0
  handle : Word := 0
  pos : Nat := 0
def SeqTrap.val (x : SeqTrap) : TrapVal := { cause := x.cause, einfo := pairOf x.handle (BitVec.ofNat 32 x.pos) }
/-- Sequence traps of several threads, before or after their instruction, with s.eval_a and s.eval_b. -/
def takeSeq (f : Fields) (after : Bool) (ts : List (Lane × SeqTrap)) (s : State) : State :=
  let user := ts.filter fun e => !escalates s e.1.th
  let s1 := takeUsers s f { s.here with after := after } (ts.map fun e => (e.1, e.2.val))
  user.foldl (fun s e => s.modThread e.1.id fun t => { t with trap := { t.trap with evalA := e.2.a, evalB := e.2.b } }) s1
def seqFault (reason : Nat) (h : Word) : SeqTrap := { cause := 0xA2, a := BitVec.ofNat 32 reason, handle := h }

/-- What an operation on a sequence does for one thread. -/
inductive SeqOut where
  | ok (d : LaneOut)
  | user (after : Bool) (d : LaneOut) (x : SeqTrap)
  | mem (cause : Byte) (addr : Nat)
deriving Inhabited
/-- Each executing thread acts in turn in ascending t.hidx; those that fault take their traps alone. -/
def eachSeq (f : Fields) (op : Lane → State → SeqOut × State) (s : State) : State :=
  let here := s.here
  let r := (byHidx (s.execLanes f)).foldl (fun (acc : State × List (Lane × SeqOut)) l =>
    let o := op l acc.1
    (match o.1 with
     | .ok d => o.2.modThread l.id fun t => writeOut f d t
     | .user _ d _ => o.2.modThread l.id fun t => writeOut f d t
     | .mem _ _ => o.2, (l, o.1) :: acc.2)) (advance s, [])
  let outs := r.2.reverse
  let users := fun (after : Bool) => outs.filterMap fun e => match e.2 with | .user a _ x => if a == after then some (e.1, x) else none | _ => none
  let mems := outs.filterMap fun e => match e.2 with | .mem c a => some (e.1, ({ cause := c, eaddr := BitVec.ofNat 64 a } : TrapVal)) | _ => none
  takePrivs (takeSeq f true (users true) (takeSeq f false (users false) r.1)) here mems

/-! ## Tokens (spec 17 R347) -/

def Seq.tokAddr (q : Seq) (p : Nat) : Nat := q.log.toNat + 2 * (p - q.p0)
/-- The confirmed token at a position, from the log of the entry or of an ancestor. -/
def tokenAt (w : Who) (s : State) : Nat → Nat → Nat → Except (Byte × Nat) Nat
  | 0, _, _ => .ok 0
  | n + 1, i, p =>
    let q := s.seq i
    if p < q.p0 then tokenAt w s n q.parent p
    else match (vaRead w { r := true } (q.tokAddr p) 2 s).1 with
      | .ok bs => .ok (leNat bs)
      | .error e => .error e
/-- Tokens at positions lo to hi − 1, ascending. -/
def tokensAt (w : Who) (s : State) (i : Nat) (ps : List Nat) : Except (Byte × Nat) (List Nat) :=
  ps.foldl (fun acc p =>
    match acc with
    | .error e => .error e
    | .ok ts => (match tokenAt w s (Config.numSequences + 1) i p with | .ok t => .ok (ts ++ [t]) | .error e => .error e)) (.ok [])

/-! ## Pennants (spec 17 R354, R355) -/

def pnNat (p : Pennant) (byte n : Nat) : Nat := (p.extractLsb' (8 * byte) (8 * n)).toNat
def pnCtl (p : Pennant) (lo n : Nat) : Nat := (p.extractLsb' lo n).toNat
def pnAct (p : Pennant) : Nat := pnCtl p 1 2
def pnLen (p : Pennant) : Nat := pnCtl p 8 4
def pnMem (p : Pennant) : Bool := p.getLsbD 15
def pnForced (p : Pennant) : List Nat := (List.range (pnCtl p 12 3)).map fun k => pnNat p (0x18 + 2 * k) 2
def pnSlot (p : Pennant) (k : Nat) : Nat × Nat := (pnNat p (0x20 + 4 * k) 2, pnNat p (0x22 + 4 * k) 2)
/-- An image without the faults of spec 17 R354. -/
def pnOk (p : Pennant) : Bool :=
  let act := pnAct p
  let nf := pnCtl p 12 3
  let addr := pnNat p 0x10 8
  pnCtl p 16 2 != 3 && pnCtl p 18 14 == 0 && decide (pnLen p ≤ 8) && (if act == 1 then decide (1 ≤ nf ∧ nf ≤ 4) else nf == 0) &&
    (!p.getLsbD 3 || act == 3) && (!pnMem p || act == 3) && pnNat p 0x0C 4 == 0 &&
    (if act == 3 && pnMem p then addr % 4 == 0 else if act == 2 then addr % 64 == 0 else addr == 0) &&
    ((List.range 4).all fun k => k < nf || pnNat p (0x18 + 2 * k) 2 == 0) &&
    ((List.range 8).all fun k =>
      let x := pnSlot p k
      if k < pnLen p then x.1 &&& x.2 == x.1 else x == (0, 0))
/-- Entries of a context that can act on a sequence. -/
def pnLive (s : State) (q : Seq) (drafts : Bool) : List (Nat × Pennant) :=
  (s.ctx q.ctx).pennants.filter fun e => e.2.getLsbD 0 && q.attach.getLsbD (pnCtl e.2 4 4) && (!drafts || e.2.getLsbD 3)
/-- Whether an entry matches after a token: the tokens up to it, newest last, and the counters. -/
def pnMatch (p : Pennant) (pos len cost : Nat) (newest : List Nat) : Bool :=
  let n := pnLen p
  let ts := newest.drop (newest.length - n)
  decide (n ≤ pos + 1) && decide (n ≤ newest.length) &&
    ((List.range n).all fun i => ts.getD i 0 &&& (pnSlot p i).2 == (pnSlot p i).1) &&
    (match pnCtl p 16 2 with
     | 1 => decide (len ≥ pnNat p 4 4)
     | 2 => decide (cost ≥ pnNat p 4 4)
     | _ => true)
/-- The winner at a position. -/
def winner (es : List (Nat × Pennant)) (pos len cost : Nat) (newest : List Nat) : Option (Nat × Pennant) :=
  leastBy (fun e => pnAct e.2 * 256 + e.1) (es.filter fun e => pnMatch e.2 pos len cost newest)
/-- A NOTIFY carried out: the register, and the cell where MEM is set. -/
def notify (w : Who) (i : Nat) (p : Pennant) (s : State) : State :=
  let s1 := State.setSeq i { s.seq i with notify := BitVec.ofNat 32 (pnNat p 8 4) } s
  if !pnMem p then s1
  else
    let s2 := releaseSide w.core 5 s1
    let va := BitVec.ofNat 64 (pnNat p 0x10 8)
    match checkGlobal s2 w { w := true } 4 va with
    | .error c => logCore c w.core w.ctx va 0 s2
    | .ok x => agentWrite w x (natLe 4 (pnNat p 8 4)) s2

/-! ## The sampling generator (spec 17 R351) -/

def mix64 (x0 : DWord) : DWord :=
  let x := x0 + 0xD6E8FEB86659FD93
  let x := (x ^^^ (x >>> 31)) * 0xA3B195C427E10D35
  let x := (x ^^^ (x >>> 29)) * 0xD6E8FEB86659FD93
  x ^^^ (x >>> 32)
def genBits (seed : DWord) (stream : Word) (pos tok : Nat) : Nat :=
  let h := mix64 (seed ^^^ stream.setWidth 64)
  ((mix64 (h ^^^ (BitVec.ofNat 64 pos <<< 16) ^^^ BitVec.ofNat 64 tok)).extractLsb' 41 23).toNat

/-! ## Committing (spec 17 R356) -/

/-- An effect of a commit, in order. -/
inductive SeqEffect where
  | notify (p : Pennant)
  | fork (p : Pennant) (prefix_ : Nat)
/-- A commit as it is decided, before anything is applied. -/
structure Commit where
  len   : Nat
  cost  : Nat
  added : List Nat := []
  n     : Nat := 0
  next  : Nat := 0
  drafts : List (BitVec 16) := []
  flags : Nat := 0
  effects : List SeqEffect := []
  stop  : Option (Nat × Nat × Nat) := none     -- position, entry, token
  overAt : Option (Nat × Nat) := none           -- token and position at which a limit is first exceeded
  done  : Bool := false
/-- A token appended with its cost. -/
def Commit.add (c : Commit) (q : Seq) (tok cost : Nat) : Commit :=
  let len := c.len + 1
  let sum := min (c.cost + cost) (2 ^ 32 - 1)
  let bad := decide (len - q.p0 > q.cap) || decide (sum > q.costmax)
  { c with len := len, cost := sum, added := c.added ++ [tok], overAt := c.overAt.orElse fun _ => if bad then some (tok, c.len) else none }
/-- One token of the commit: appended, evaluated, and its winner's action. -/
def commitTok (es : List (Nat × Pennant)) (old : List Nat) (q : Seq) (cost : Nat) (c : Commit) (tok : Nat) : Commit :=
  if c.done then c
  else
    let pos := c.len
    let c1 := c.add q tok cost
    let c2 := { c1 with n := c1.n + 1, drafts := c1.drafts.drop 1 }
    match winner es pos c2.len c2.cost (old ++ c2.added) with
    | none => c2
    | some (e, p) =>
      if pnAct p = 3 then { c2 with effects := c2.effects ++ [.notify p], flags := c2.flags ||| 4 }
      else
        let c3 := { c2 with drafts := [], next := tok, done := true }
        match pnAct p with
        | 0 => { c3 with flags := c3.flags ||| 8, stop := some (pos, e, tok) }
        | 2 => { c3 with effects := c3.effects ++ [.fork p (pos + 1)] }
        | _ =>
          let fs := pnForced p
          let c4 := fs.foldl (fun c t => c.add q t 0) c3
          { c4 with next := fs.getLastD tok, flags := c4.flags ||| 1 }
/-- A fork made by a pennant: its handle, or none with the state the attempt leaves. -/
def pennantFork (w : Who) (i : Nat) (p : Pennant) (pre : Nat) (s : State) : Bool × State :=
  let q := s.seq i
  let va := pnNat p 0x10 8
  let fail := fun (c : Byte) (a : Nat) => (false, logCore c w.core w.ctx (BitVec.ofNat 64 a) 0 s)
  match freeSeq s with
  | none => (false, s)
  | some (k, gen) =>
    match checkGlobal s w { r := true, w := true, rmw := true } 64 (BitVec.ofNat 64 va) with
    | .error c => fail c va
    | .ok x =>
      if poisoned s x.pa then fail 0x50 va
      else
        let lg := (readPool (farRead x.pa 64 s).1).lg
        match poolPop w va x.mode x.pa s with
        | .error e => fail e.cause e.eaddr
        | .ok (node, s1) =>
          if node = 0 then (false, s1)
          else
            let child : Seq :=
              { gen := gen, used := true, ctx := q.ctx, live := true, forked := true, log := BitVec.ofNat 64 node, cap := 2 ^ lg / 2
                p0 := pre, parent := i, len := pre, costmax := q.costmax, seed := q.seed
                stream := loW (mix64 ((q.stream.setWidth 64 <<< 32) ||| BitVec.ofNat 64 pre)), attach := q.attach }
            let s2 := State.setSeq k child s1
            (true, State.setSeq i { s2.seq i with lastfork := seqHandle k child } s2)
/-- The effects of a commit carried out, with the flags that forks set. -/
def applyEffects (w : Who) (i : Nat) (es : List SeqEffect) (s : State) : Nat × State :=
  es.foldl (fun acc e =>
    match e with
    | .notify p => (acc.1, notify w i p acc.2)
    | .fork p pre =>
      let r := pennantFork w i p pre acc.2
      (acc.1 ||| (if r.1 then 2 else 16), r.2)) (0, s)
/-- The confirmed tokens that a pattern can reach past a number of drafts, at most seven. -/
def olderTokens (w : Who) (s : State) (i : Nat) (es : List (Nat × Pennant)) (len drafts : Nat) : Except (Byte × Nat) (List Nat) :=
  let need := es.foldl (fun m e => max m (pnLen e.2 - 1)) 0 - drafts
  let n := min need len
  tokensAt w s i ((List.range n).map fun k => len - n + k)
/-- SEQCOMMIT of one thread: tokens, or the number of drafts to confirm. -/
def commitOne (f : Fields) (conf : Bool) (l : Lane) (s : State) : SeqOut × State :=
  let w := whoOf s l.th
  let h := reg32 l.th f.a
  let b := (reg32 l.th f.b).toNat
  let cost := (reg32 l.th f.c).toNat
  match seqOf s w.ctx h with
  | none => (.user false .none (seqFault 1 h), s)
  | some (i, q) =>
    if q.stopped then (.user false .none (seqFault 2 h), s)
    else if (if conf then decide (b > q.drafts.length) else decide (b > 0xFFFF)) then (.user false .none (seqFault 5 h), s)
    else
      let toks := if conf then (q.drafts.take b).map (·.toNat) else [b]
      let es := pnLive s q false
      if toks.isEmpty then
        (if q.len = 0 then (.ok (val32 0), s)
         else match tokenAt w s (Config.numSequences + 1) i (q.len - 1) with
          | .ok t => (.ok (val32 (BitVec.ofNat 32 t)), s)
          | .error e => (.mem e.1 e.2, s))
      else
        match olderTokens w s i es q.len 0 with
        | .error e => (.mem e.1 e.2, s)
        | .ok old =>
          let c0 : Commit := { len := q.len, cost := q.cost, next := toks.getLastD 0, drafts := if conf then q.drafts else [] }
          let c := toks.foldl (commitTok es old q cost) c0
          match c.overAt with
          | some (tok, pos) => (.user false .none { cause := 0xA1, a := 0xFFFFFFFF, b := BitVec.ofNat 32 tok, handle := h, pos := pos }, s)
          | none =>
            match vaWrite w { w := true } (q.tokAddr q.len) (c.added.flatMap fun t => natLe 2 t) s with
            | .error e => (.mem e.1 e.2, s)
            | .ok s1 =>
              let q1 := { q with len := c.len, cost := c.cost, drafts := c.drafts }
              let q2 := match c.stop with
                | some (pos, e, _) => { q1 with stopped := true, stoppos := BitVec.ofNat 32 pos, stopent := BitVec.ofNat 8 e }
                | none => q1
              let r := applyEffects w i c.effects (State.setSeq i q2 s1)
              let d := val32 (BitVec.ofNat 32 (c.next + 2 ^ 16 * c.n + 2 ^ 21 * (c.flags ||| r.1)))
              match c.stop with
              | some (pos, e, tok) =>
                (.user true d { cause := 0xA0, a := BitVec.ofNat 32 e, b := BitVec.ofNat 32 tok, handle := h, pos := pos }, r.2)
              | none => (.ok d, r.2)
def seqcommit (f : Fields) (s : State) : State := eachSeq f (commitOne f false) s
def seqcommitConf (f : Fields) (s : State) : State := eachSeq f (commitOne f true) s

/-! ## Drafting (spec 17 R357) -/

def draftOne (f : Fields) (l : Lane) (s : State) : SeqOut × State :=
  let w := whoOf s l.th
  let h := reg32 l.th f.a
  let b := (reg32 l.th f.b).toNat
  match seqOf s w.ctx h with
  | none => (.user false .none (seqFault 1 h), s)
  | some (i, q) =>
    if q.stopped then (.user false .none (seqFault 2 h), s)
    else if b > 0xFFFF then (.user false .none (seqFault 5 h), s)
    else
      let nd := q.drafts.length
      if nd ≥ 16 then
        (.user false .none { cause := 0xA3, a := 0xFFFFFFFF, b := BitVec.ofNat 32 b, handle := h, pos := q.len + nd }, s)
      else
        let es := pnLive s q true
        match olderTokens w s i es q.len nd with
        | .error e => (.mem e.1 e.2, s)
        | .ok old =>
          let ds := q.drafts ++ [BitVec.ofNat 16 b]
          let s1 := State.setSeq i { q with drafts := ds } s
          let s2 := match winner es (q.len + nd) (q.len + nd + 1) q.cost (old ++ ds.map (·.toNat)) with
            | some (_, p) => notify w i p s1
            | none => s1
          (.ok (val32 (BitVec.ofNat 32 (nd + 1))), s2)
def seqdraft (f : Fields) (s : State) : State := eachSeq f (draftOne f) s
/-- An operation on the sequence that A names. -/
def onSeq (f : Fields) (op : Lane → Nat → Seq → State → SeqOut × State) (s : State) : State :=
  eachSeq f (fun l s =>
    let h := reg32 l.th f.a
    match seqOf s (s.ctxOf l.th) h with
    | none => (.user false .none (seqFault 1 h), s)
    | some (i, q) => op l i q s) s
def seqrej (f : Fields) (s : State) : State :=
  onSeq f (fun l i q s => (.ok .none, State.setSeq i { q with drafts := q.drafts.take (reg32 l.th f.b).toNat } s)) s
def seqend (f : Fields) (s : State) : State := onSeq f (fun _ i _ s => (.ok .none, endSeq (Config.numSequences + 1) i s)) s
/-- The fields of SEQRD. -/
def seqField (w : Who) (i : Nat) (q : Seq) (field b : Nat) (s : State) : SeqOut :=
  let n := fun (k : Nat) => SeqOut.ok (val32 (BitVec.ofNat 32 k))
  match field with
  | 0 => n q.len
  | 1 => n q.drafts.length
  | 2 => n q.cost
  | 3 => n q.stateBits
  | 4 => .ok (val32 q.notify)
  | 5 => .ok (val32 q.lastfork)
  | 6 => .ok (val32 q.stoppos)
  | 7 => n q.stopent.toNat
  | 8 =>
    if b ≥ q.len then .ok (val32 0xFFFFFFFF)
    else (match tokenAt w s (Config.numSequences + 1) i b with | .ok t => n t | .error e => .mem e.1 e.2)
  | 9 => (match q.drafts[b]? with | some d => n d.toNat | none => .ok (val32 0xFFFFFFFF))
  | 10 => .ok (val64 q.log)
  | 11 => n q.p0
  | _ => .ok (val32 q.stream)
def seqrd (f : Fields) (s : State) : State :=
  onSeq f (fun l i q s => (seqField (whoOf s l.th) i q (f.imm.extractLsb' 0 4).toNat (reg32 l.th f.b).toNat s, s)) s

/-! ## SEQNEW and SEQFORK (spec 17 R349) -/

/-- A descriptor as an entry, unless a field is out of range. -/
def seqDesc (x : Nat) (bs : List Byte) : Option Seq :=
  let log := leAt bs 0 8
  let cap := leAt bs 8 4
  if log % 64 ≠ 0 ∨ cap < 1 ∨ cap > 2 ^ 24 ∨ leAt bs 0x1E 2 ≠ 0 then none
  else some { used := true, ctx := x, live := true, log := BitVec.ofNat 64 log, cap := cap, costmax := leAt bs 0x0C 4
              seed := BitVec.ofNat 64 (leAt bs 0x10 8), stream := BitVec.ofNat 32 (leAt bs 0x18 4), attach := BitVec.ofNat 16 (leAt bs 0x1C 2) }
/-- The pages of a log: a failed check, or whether all of them are COH in local device memory. -/
def logPages (s : State) (w : Who) (q : Seq) : Except (Byte × Nat) Bool :=
  (chunks 4096 8194 q.log.toNat (2 * q.cap)).foldl (fun acc c =>
    match acc with
    | .error e => .error e
    | .ok b =>
      match checkGlobal s w { r := true, w := true } 1 (BitVec.ofNat 64 c.1) with
      | .error e => .error (e, c.1)
      | .ok x => .ok (b && x.mode == 0 && isLocal x.pa)) (.ok true)
/-- What each thread's descriptor gives: its entry, or a sequence fault. -/
def descOf (s : State) (ea : DWord) (l : Lane) : Except (Byte × Nat) (Option Seq) :=
  let w := whoOf s l.th
  match (vaRead w { r := true } ea.toNat 32 s).1 with
  | .error e => .error e
  | .ok bs =>
    match seqDesc w.ctx bs with
    | none => .ok none
    | some q =>
      match logPages s w q with
      | .error e => .error e
      | .ok b => .ok (if b then some q else none)
/-- Threads whose own checks `pre` pass have their descriptors and logs checked together; then each thread acts. The handle that a
thread's traps name, 0 for SEQNEW, is `desHandle`. -/
def withDescs (f : Fields) (o : Opnd) (desHandle : Lane → Word) (pre : State → Lane → Option SeqTrap)
    (act : Lane → Seq → State → SeqOut × State) (s : State) : State :=
  let ls := (byHidx (s.execLanes f)).filter fun l => (pre s l).isNone
  let ea := fun (l : Lane) => reg64 l.th o
  let bad := ls.filterMap fun l =>
    match checkGlobal s (whoOf s l.th) { r := true } 8 (ea l) with
    | .error c => some (l, c, ea l)
    | .ok _ => none
  if !bad.isEmpty then memTrap f bad s
  else
    match ls.findSome? fun l => rangePoisoned s (whoOf s l.th) { r := true } (ea l).toNat 32 with
    | some pa => poisonTrap f pa s
    | none =>
      let bad2 := ls.filterMap fun l => match descOf s (ea l) l with | .error e => some (l, e.1, BitVec.ofNat 64 e.2) | .ok _ => none
      if !bad2.isEmpty then memTrap f bad2 s
      else
        eachSeq f (fun l s' =>
          match pre s' l with
          | some x => (.user false .none x, s')
          | none =>
            match descOf s' (ea l) l with
            | .ok (some q) => act l q s'
            | _ => (.user false .none (seqFault 3 (desHandle l)), s')) s
def seqnew (f : Fields) (s : State) : State :=
  withDescs f f.a (fun _ => 0) (fun _ _ => none) (fun _ q s =>
    match freeSeq s with
    | none => (.ok (val32 0), s)
    | some (i, g) => (.ok (val32 (seqHandle i { q with gen := g })), State.setSeq i { q with gen := g } s)) s
def seqfork (f : Fields) (s : State) : State :=
  withDescs f f.c (fun l => reg32 l.th f.a) (fun s l =>
    let h := reg32 l.th f.a
    match seqOf s (s.ctxOf l.th) h with
    | none => some (seqFault 1 h)
    | some (_, q) => if (reg32 l.th f.b).toNat > q.len then some (seqFault 5 h) else none) (fun l q s =>
      match seqOf s (s.ctxOf l.th) (reg32 l.th f.a), freeSeq s with
      | some (i, _), some (k, g) =>
        let pre := (reg32 l.th f.b).toNat
        let child := { q with gen := g, forked := true, p0 := pre, parent := i, len := pre }
        let s1 := State.setSeq k child s
        let hd := seqHandle k child
        (.ok (val32 hd), State.setSeq i { s1.seq i with lastfork := hd } s1)
      | _, _ => (.ok (val32 0), s)) s

/-! ## PNSET and PNCLR -/

def pnIndex (f : Fields) : Nat := (f.imm.extractLsb' 0 8).toNat
def pnset (f : Fields) (s : State) : State :=
  waveOnce f (fun l s =>
    let w := whoOf s l.th
    let ea := reg64 l.th f.a
    match checkGlobal s w { r := true } 64 ea with
    | .error c => onceTrap f l c ea s
    | .ok x =>
      let r := vaRead w { r := true } ea.toNat 64 s
      match r.1 with
      | .error _ => poisonTrap f x.pa s
      | .ok bs =>
        let p : Pennant := BitVec.ofNat 512 (leNat bs)
        if pnOk p then (advance r.2).modCtx w.ctx fun c => { c with pennants := Tab.put c.pennants (pnIndex f) p }
        else takeSeq f false ((s.execLanes f).map fun l => (l, seqFault 3 0)) s) s
def pnclr (f : Fields) (s : State) : State :=
  waveOnce f (fun l s => (advance s).modCtx (s.ctxOf l.th) fun c => { c with pennants := Tab.del c.pennants (pnIndex f) }) s

/-! ## SAMPLE (spec 17 R352, R353) -/

def topFinite : Nat := 0x7F7FFFFF
/-- An infinity replaced by the largest finite value of its sign. -/
def clampInf (x : Nat) : Nat := if x = 0x7F800000 then topFinite else if x = 0xFF800000 then topFinite + 2 ^ 31 else x
/-- A key that rises with a value that is not NaN; both zeros have one key. -/
def ordKey (x : Nat) : Nat := if x < 2 ^ 31 then 2 ^ 31 + x else 2 ^ 32 - x
/-- Members in descending value, equal values in ascending index. -/
def descend (l : List (Nat × Nat)) : List (Nat × Nat) := sortBy (fun e => 2 ^ 32 - ordKey e.2) l
/-- The shortest prefix whose running sum reaches t. -/
def topP (t : Nat) : List (Nat × Nat × Nat) → Nat → List (Nat × Nat)
  | [], _ => []
  | (i, z, e) :: r, sum =>
    let x := qAdd sum e
    if qLe t x then [(i, z)] else (i, z) :: topP t r x
/-- The first of several equal largest values, by lowest index. -/
def largest (l : List (Nat × Nat)) : Option Nat :=
  (leastBy (fun (e : Nat × Nat) => 2 ^ 32 - ordKey e.2) (sortBy (fun e => e.1) l)).map (·.1)
/-- The parameters of a draw. -/
structure SampleArg where
  t : Nat
  p : Nat
  k : Nat
  seed : DWord
  stream : Word
  pos : Nat
/-- The token drawn from logits, 0x80000000 where none is valid; none where a scaled logit is NaN, for which the spec
states no order. -/
def drawToken (a : SampleArg) (xs : List Nat) : Option Nat :=
  let ok := (xs.zipIdx.filter fun e => !qNan e.1 && e.1 != 0xFF800000).map fun e => (e.2, if e.1 = 0x7F800000 then topFinite else e.1)
  if ok.isEmpty then some 0x80000000
  else if !(qLt 0 a.t && a.t != 0x7F800000) then largest ok
  else
    let r := (sfnRes 0 false a.t).bits
    let ys := ok.map fun e => (e.1, clampInf (qMul e.2 r))
    if ys.any fun e => qNan e.2 then none
    else
      let q0 := descend ys
      let q1 := if a.k ≥ 1 then q0.take a.k else q0
      let m := match q1 with | e :: _ => e.2 | [] => 0
      let zs := q1.map fun e => (e.1, qMul (qSub e.2 m) 0x3FB8AA3B)
      let q2 :=
        if qLt a.p 0x3F800000 then
          let es := zs.map fun e => (e.1, e.2, (sfnRes 3 false e.2).bits)
          let sum := match es with | e :: r => r.foldl (fun acc x => qAdd acc x.2.2) e.2.2 | [] => 0
          (match es with
           | e :: r => if qLe (qMul a.p sum) e.2.2 then [(e.1, e.2.1)] else (e.1, e.2.1) :: topP (qMul a.p sum) r e.2.2
           | [] => [])
        else zs
      let scored := q2.map fun e =>
        let w := (roundFin fp32 0 false false (2 * genBits a.seed a.stream a.pos e.1 + 1) (-24)).bits
        let lg := (sfnRes 4 false w).bits
        (e.1, qSub e.2 (sfnRes 4 false (lg ^^^ 0x80000000)).bits)
      largest scored
/-- The parameters of a thread, or a sequence fault. -/
def sampleArg (f : Fields) (acc : Bool) (s : State) (l : Lane) : Except SeqTrap (SampleArg × Nat) :=
  let h := reg32 l.th f.a
  match seqOf s (s.ctxOf l.th) h with
  | none => .error (seqFault 1 h)
  | some (_, q) =>
    let r := l.th.regs ((regNum? f.c).getD 0) 4
    let t := (r.getD 0 0).toNat
    let p := (r.getD 1 0).toNat
    let k := (r.getD 2 0).toNat
    let v := (r.getD 3 0).toNat
    if k > 64 || (!acc && (v < 1 || v > 65536)) || !qLt 0 p then .error (seqFault 4 h)
    else .ok (⟨t, p, k, q.seed, q.stream, q.len + q.drafts.length⟩, v)
/-- One thread's draw. -/
def sampleOne (f : Fields) (acc : Bool) (logits : Lane → Nat → State → List Nat) (l : Lane) (s : State) : SeqOut × State :=
  match sampleArg f acc s l with
  | .error x => (.user false .none x, s)
  | .ok (a, v) =>
    match drawToken a (logits l v s) with
    | some t => (.ok (val32 (BitVec.ofNat 32 t)), s)
    | none => (.ok (val32 ((loW s.fresh.1) &&& 0xFFFF)), s.fresh.2)
def sampleOff (f : Fields) (l : Lane) : Nat := (reg32 l.th f.b + f.imm).toNat
/-- Logits in the scratchpad are read from their pages: refilled first when they are at most 32, else where they stand (log entry
79). -/
def sample (f : Fields) (s : State) : State :=
  let bad := (byHidx (s.execLanes f)).filterMap fun l =>
    match sampleArg f false s l with
    | .error _ => none
    | .ok (_, v) =>
      let off := sampleOff f l
      ((checkScratch s l.th.team 4 off).orElse fun _ => checkScratch s l.th.team 1 (off + 4 * v - 1)).map fun c => (l, c, BitVec.ofNat 64 off)
  let rows := (byHidx (s.execLanes f)).filterMap fun l =>
    match sampleArg f false s l with
    | .error _ => none
    | .ok (_, v) => some (l.th.team, sampleOff f l, 4 * v)
  let few := decide ((rows.flatMap fun r => pagesOf r.2.1 r.2.2).length ≤ 32)
  let missing := dedup (rows.flatMap fun r =>
    missingPages s r.1 ((pagesOf r.2.1 r.2.2).filter fun p => few || inTransit s r.1 (4096 * p) 1))
  if !bad.isEmpty then memTrap f bad s
  else if !missing.isEmpty then waitPages f missing s
  else match rows.findSome? fun r => ((List.range ((r.2.2 + 508) / 256)).map fun k => r.2.1 + 256 * k).find? fun o => backPoisoned s r.1 o with
  | some o => poisonTrap f o s
  | none =>
    eachSeq f (sampleOne f false fun l v s =>
      let bs := scratchBytes s l.th.team (sampleOff f l) (4 * v)
      (List.range v).map fun i => leAt bs (4 * i) 4) (rows.foldl (fun s r => touchPages r.1 r.2.1 r.2.2 s) s)
def sampleAcc (f : Fields) (s : State) : State :=
  withGroup f (fun _ c s =>
    some (eachSeq f (sampleOne f true fun _ _ s =>
      let row := (f.imm.extractLsb' 0 6).toNat
      (blocksOf (f.imm.extractLsb' 6 8).toNat).flatMap fun m => (List.range 64).map fun n => accOut 0 ((s.mxe c).entry row (64 * m + n))) s)) s

/-! Each answers the next state that the definition of its name gives. -/
def execSample (f : Fields) (s : State) : Host.Outcome State Fault Refusal := .next (sample f s)
def execSampleAcc (f : Fields) (s : State) : Host.Outcome State Fault Refusal := .next (sampleAcc f s)
def execSeqnew (f : Fields) (s : State) : Host.Outcome State Fault Refusal := .next (seqnew f s)
def execSeqfork (f : Fields) (s : State) : Host.Outcome State Fault Refusal := .next (seqfork f s)
def execSeqend (f : Fields) (s : State) : Host.Outcome State Fault Refusal := .next (seqend f s)
def execSeqcommit (f : Fields) (s : State) : Host.Outcome State Fault Refusal := .next (seqcommit f s)
def execSeqcommitConf (f : Fields) (s : State) : Host.Outcome State Fault Refusal := .next (seqcommitConf f s)
def execSeqdraft (f : Fields) (s : State) : Host.Outcome State Fault Refusal := .next (seqdraft f s)
def execSeqrej (f : Fields) (s : State) : Host.Outcome State Fault Refusal := .next (seqrej f s)
def execSeqrd (f : Fields) (s : State) : Host.Outcome State Fault Refusal := .next (seqrd f s)
def execPnset (f : Fields) (s : State) : Host.Outcome State Fault Refusal := .next (pnset f s)
def execPnclr (f : Fields) (s : State) : Host.Outcome State Fault Refusal := .next (pnclr f s)
end Sys2Proof.Machine
end

