-- ==== Sys2Proof/Machine/Isolation.lean ====
section
/-!
DEFINITION. Isolation.lean: OP 0xE6 to 0xEC: TLB invalidation, contexts, worlds, region and bias switches, wave images and
scratchpad pins (spec 13 R278, R288, R289, 19 R374 to R380, 22 R415 to R420).
-/
namespace Sys2Proof.Machine

/-! ## Shared forms -/

/-- The issuer's world. -/
def State.hereWorld (s : State) : Bool := (s.ctx s.hereCtx).world
/-- CONTEXT_FAULT with a reason (spec 19 R377). -/
def ctxFault (f : Fields) (reason : Nat) (s : State) : State := trapAll f { cause := 0x44, einfo := BitVec.ofNat 64 reason } s
def worldFault (f : Fields) (s : State) : State := trapAll f { cause := 0x42 } s
/-- RESERVED_OPERAND of every executing thread, for operand B. -/
def operandFault (f : Fields) (s : State) : State :=
  takeUsers s f s.here ((s.execLanes f).map fun l => (l, { cause := 0x02, field := 7 }))
/-- A context number that names a secure context of the table. -/
def ctxSecure (s : State) (x : Nat) : Bool := decide (x < Config.numContexts) && (s.ctx x).st != .free && (s.ctx x).world
def ctxLive (s : State) (x : Nat) : Bool := decide (x < Config.numContexts) && (s.ctx x).st == .live
/-- Remote accesses of a context's threads and copies that are still in flight. -/
def ctxRemote (s : State) (hit : Nat → Bool) : Bool :=
  s.fabric.flows.any fun e => e.2.outst.any fun o =>
    (match o.thread with
     | some t => (s.thread? t).isSome && hit (s.ctxOf (s.thread t))
     | none => false) ||
      o.copy.any fun id => s.cores.any fun c => c.2.cpe.q.any fun k => k.id == id && hit k.ctx
/-- An operation between two fences of system scope. -/
def fencedSys (f : Fields) (act : State → State) (s : State) : State :=
  releaseFirst f 5 (fun s => fenceSides s.hereCore s.hereCtx 5 (act (fenceSides s.hereCore s.hereCtx 5 s))) s

/-! ## TLBINV (spec 19 R378) -/

/-- Entries of every TLB of the module that a test names go. -/
def dropTlb (hit : TlbEntry → Bool) (s : State) : State :=
  { s with
    cores := s.cores.map fun e => (e.1, { e.2 with tlb := e.2.tlb.filter fun t => !hit t })
    clusters := s.clusters.map fun e => (e.1, { e.2 with tlb := e.2.tlb.filter fun t => !hit t }) }
/-- The invalidation, once the issuers' earlier accesses, as a FENCE.grid has it, and the accesses of the contexts that it names have
completed. Writes that a snoop holds back have no context: it waits for all of them. -/
def tlbinvWith (f : Fields) (named : Nat → Bool) (hit : TlbEntry → Bool) (s : State) : State :=
  if ctxRemote s named || (s.execLanes f).any fun l => remoteOpen s l.id then waitAll f (.remote Config.paSize) s
  else if !s.home.hostHeld.isEmpty then waitAll f (.poll (s.dtime + 1)) s
  else advance (dropTlb hit (fenceSides s.hereCore s.hereCtx 3 s))
/-- The context that C names, or the issuer's. -/
def tlbinvCtxNum (f : Fields) (l : Lane) (s : State) : Nat := if f.c == .zero then s.hereCtx else (reg32 l.th f.c).toNat
/-- World and context checks of the forms that name a context. -/
def withTlbCtx (f : Fields) (act : Nat → Lane → State → State) (s : State) : State :=
  waveOnce f (fun l s =>
    let x := tlbinvCtxNum f l s
    if ctxSecure s x && !s.hereWorld then worldFault f s
    else if x ≥ Config.numContexts || (s.ctx x).st == .free then ctxFault f 1 s
    else act x l s) s
def tlbinvPage (f : Fields) (s : State) : State :=
  withTlbCtx f (fun x l s =>
    let va := reg64 l.th f.a
    let n := (reg32 l.th f.b).toNat
    let vpn := vaOf va / 4096
    if n = 0 ∨ n > 2 ^ 20 ∨ va.toNat % 4096 ≠ 0 then ctxFault f 2 s
    else tlbinvWith f (fun k => k == x) (fun e => e.ctx == x && decide (e.vpn < vpn + n) && decide (vpn < e.vpn + e.pages)) s) s
def tlbinvCtx (f : Fields) (s : State) : State :=
  withTlbCtx f (fun x _ s => tlbinvWith f (fun k => k == x) (fun e => e.ctx == x) s) s
def tlbinvAll (f : Fields) (s : State) : State :=
  waveOnce f (fun _ s =>
    let mine := fun (x : Nat) => s.hereWorld || !(s.ctx x).world
    tlbinvWith f mine (fun e => mine e.ctx) s) s

/-! ## CTXSET (spec 19 R379) -/

def rootOk (root : Nat) : Bool := root % 4096 == 0 && isLocal root && decide (root < Config.localLimit)
def ctxsetNew (f : Fields) (s : State) : State :=
  waveOnce f (fun l s =>
    let va := (reg64 l.th f.a).toNat
    let me := s.hereCtx
    let r :=
      if canonical (reg64 l.th f.a) then vaRead (whoOf s l.th) { r := true } va 64 s
      else (.error (0x40, (reg64 l.th f.a).toNat), s)
    match r.1 with
    | .error e => onceTrap f l e.1 (BitVec.ofNat 64 e.2) r.2
    | .ok bs =>
      let s := r.2
      let flags := leAt bs 8 4
      let secure := flags / 2 % 2 == 1
      if secure && !s.hereWorld then worldFault f s
      else if flags ≥ 4 ∨ leAt bs 0x0C 4 ≠ 0 ∨ leAt bs 0x30 16 ≠ 0 ∨ !rootOk (leAt bs 0 8) then ctxFault f 3 s
      else
        match (List.range Config.numContexts).find? fun x => (s.ctx x).st == .free with
        | none => doneWith f (val32 0xFFFFFFFF) s
        | some x =>
          let c : Ctx :=
            { st := .live, root := leAt bs 0 8, world := secure, dbg := flags % 2 == 1, gen := (s.ctx x).gen + 1
              meas := BitVec.ofNat 256 (leAt bs 0x10 32), creator := BitVec.ofNat 8 me, fn := (s.ctx me).fn }
          doneWith f (val32 (BitVec.ofNat 32 x)) (s.setCtx x c)) s
/-- The world and LIVE checks of the forms that name a context in B. -/
def withLive (f : Fields) (act : Nat → Lane → State → State) (s : State) : State :=
  waveOnce f (fun l s =>
    let x := (reg32 l.th f.b).toNat
    if ctxSecure s x && !s.hereWorld then worldFault f s
    else if !ctxLive s x then
      (if x < Config.numContexts && (s.ctx x).killer == some l.id then act x l s else ctxFault f 1 s)
    else act x l s) s
def ctxsetRoot (f : Fields) (s : State) : State :=
  withLive f (fun x l s =>
    let root := (reg64 l.th f.a).toNat
    if !rootOk root then ctxFault f 3 s
    else tlbinvWith f (fun k => k == x) (fun e => e.ctx == x) (if ctxRemote s (fun k => k == x) then s else s.modCtx x fun c => { c with root := root })) s

/-- The pending entries of a launch queue that closes: their records become CANCELLED (spec 15 R312). -/
def cancelEntries (q : Nat) : Nat → State → State
  | 0, s => s
  | n + 1, s =>
    let u := s.queue q
    if u.head = u.tail then s
    else
      let r := devGet u.ctx (u.base.toNat + 8 * (u.head.toNat % 2 ^ u.log2n)) 8 s
      let s1 := r.2.modQueue q fun v => { v with head := v.head + 1 }
      let s2 := match r.1 with
        | .ok bs =>
          let a := canonVa (leNat bs)
          let fut := (match (devGet u.ctx (a + 0x38) 8 s1).1 with | .ok b => leNat b | .error _ => 0)
          if leNat bs ≥ 2 ^ 57 then s1
          else writeCompletion u.ctx (BitVec.ofNat 64 fut) (futStatus 2 0x89) 0 (writeStatus u.ctx (BitVec.ofNat 64 a) 4 0 s1)
        | .error _ => s1
      cancelEntries q n s2
/-- Items of a context still on the device. -/
def ctxTeams (s : State) (x : Nat) : List Nat := (s.work.teams.filter fun e => (s.grid e.2.grid).ctx == x).map (·.1)
def ctxGone (s : State) (x : Nat) : Bool :=
  (ctxTeams s x).isEmpty && !(s.work.grids.any fun e => e.2.ctx == x) && !(s.cores.any fun e => e.2.cpe.q.any fun k => k.ctx == x)
/-- Programs, commands and a suspension of an engine group whose team is torn down end (log entry 31). -/
def stopEngines (c : Nat) (s : State) : State :=
  let x := (s.grid (s.team ((s.core c).owner.getD 0)).grid).ctx
  let mine := match (s.cpe c).haltCopy with
    | some id => (s.cpe c).q.any fun k => k.id == id && k.ctx == x
    | none => (s.cpe c).halt.isSome
  let s1 := if mine then cpeCtlFail c 0x89 s else s
  s1.modCore c fun k =>
    { k with
      group := { k.group with mxe := { k.group.mxe with q := [], prog := none, held := none, halt := none }
                              lcp := { k.group.lcp with prog := none, loops := [], halt := none, closed := false } }
      cpe := { k.cpe with prog := none, held := none } }
/-- Steps 1 to 4 of a tear-down: tasks and records are cancelled, threads retire, and the context's tables are freed. -/
def tearDown (x : Nat) (s : State) : State :=
  let ofGrid := fun (k : Nat) => (s.grid k).ctx == x
  let s0 := s.modCtx x fun c => { c with st := .tearing }
  let s1 := (s0.queues.map (·.1)).foldl (fun s q =>
    if (s.queue q).en && (s.queue q).ctx == x then
      (cancelEntries q (2 ^ (s.queue q).log2n) s).modQueue q fun u => { u with cfg := u.cfg &&& 0x7FFFFFFF, waits := false }
    else s) s0
  let s2 := (s1.work.tasks.filter fun e => ofGrid e.2.grid).foldl (fun s e => dropTask e.1 0x89 s) s1
  let s3 := (s2.work.grids.filter fun e => e.2.ctx == x).foldl (fun s e =>
    e.2.pendChild.foldl (fun s c => leaveGroup? c.2.2.group 1 0 (some 0x89) s)
      (s.modGrid e.1 fun g =>
        { g with pendChild := [], emitted := g.teams, cancel := some (g.cancel.getD 0x89), fail := none, deadlineFired := false })) s2
  let teams := ctxTeams s3 x
  let served := s3.cores.filter fun e => match e.2.serving with | some p => teams.contains p.team | none => false
  let s4 : State := served.foldl (fun s e => endHandler e.1 s) s3
  let s5 : State := { s4 with cores := s4.cores.map fun e => (e.1, { e.2 with traps := e.2.traps.filter fun p => !teams.contains p.team }) }
  let ids := (s5.work.threads.filter fun e => teams.contains e.2.team).map (·.1)
  let s6 := ids.foldl (fun s t => retireThread t false s) s5
  let owned := s6.cores.filter fun e => match e.2.owner with | some t => teams.contains t | none => false
  let s7 : State := owned.foldl (fun s e => stopEngines e.1 s) s6
  let s8 := s7.modWork fun w =>
    { w with teams := (w.teams.filter fun e => !(teams.contains e.1 && e.2.core.isNone)).map fun e =>
        if teams.contains e.1 then (e.1, { e.2 with preempt := false, swap := false }) else e }
  let s9 := freeSeqs x (s8.modCtx x fun c => { c with binds := [], pennants := [] })
  let s10 := s9.modHome fun h => { h with monitors := h.monitors.filter fun e => !teams.contains e.2.team }
  let s11 := (expireLeases x s10).modFabric fun g => { g with leases := g.leases.filter fun e => e.2.ctx != x }
  let live := fun (c : CmpEntry) => c.thread.any fun t => !ids.contains t
  let s12 := s11.modWork fun w => { w with lineages := w.lineages.filter fun e => e.2.ctx != x }
  let s13 : State := { s12 with pairs := s12.pairs.map fun (e : Nat × Pair) => (e.1, { e.2 with prim := e.2.prim.filter live, sec := e.2.sec.filter live }) }
  { s13 with clusters := s13.clusters.map fun (e : Nat × Cluster) => (e.1, { e.2 with queries := e.2.queries.filter fun q => q.ctx != x }) }
/-- The entry freed: its gen stays, so that the next creation advances it. -/
def freeCtx (x : Nat) (s : State) : State :=
  (dropTlb (fun e => e.ctx == x) { s with walks := s.walks.filter fun k => k.ctx != x }).setCtx x { gen := (s.ctx x).gen }
def ctxsetKill (f : Fields) (s : State) : State :=
  withLive f (fun x l s =>
    if x == s.hereCtx then ctxFault f 1 s
    else
      let s1 := if ctxLive s x then (tearDown x s).modCtx x fun c => { c with killer := some l.id } else s
      if ctxGone s1 x then advance (freeCtx x s1) else waitAll f (.poll (s.dtime + 1)) s1) s

/-! ## WSET (spec 19 R375, R380) -/

/-- A list of block numbers with one added or removed, rising. -/
def setMember (on : Bool) (k : Nat) (l : List Nat) : List Nat :=
  let r := l.filter fun x => x != k
  if on then insertBy id k r else r
/-- Issuer and range checks, then the action with the number in B and the value in C. -/
def withBlock (f : Fields) (limit : Nat) (ok : Nat → Bool) (act : Lane → Nat → Nat → State → State) (s : State) : State :=
  waveOnce f (fun l s =>
    let i := (reg32 l.th f.b).toNat
    let w := (reg32 l.th f.c).toNat
    if !s.hereWorld then worldFault f s
    else if i ≥ limit || !ok w then ctxFault f 3 s
    else act l i w s) s
/-- Status 1 with nothing changed, or status 0 with the change. -/
def wsetDone (f : Fields) (busy : Bool) (change : State → State) (s : State) : State :=
  if busy then doneWith f (val32 1) s else doneWith f (val32 0) (change s)
def wsetCore (f : Fields) (s : State) : State :=
  withBlock f Config.numCores (fun w => decide (w ≤ 1)) (fun _ c w s =>
    wsetDone f (!(teamsOn s c).isEmpty || (s.core c).part.any fun e => e.2.getLsbD 31)
      (fun s => s.modCore c fun k => { k with world := w == 1 }) s) s
/-- The lines that a test names among those that an L1, a write-back entry, the L2 or the directory holds, ascending. -/
def linesWhere (s : State) (hit : Nat → Bool) : List Nat :=
  sortBy id (dedup ((s.cores.flatMap fun e => (e.2.l1.map (·.1)) ++ e.2.wbs.map (·.1)) ++ s.home.l2.map (·.1) ++ s.home.dir.map (·.1) |>.filter hit))
/-- A line goes home from every L1 and write-back entry: SWM bytes first, core by core, then the tracked copies; the line is in I
(spec 13 R278, R289). -/
def homeLine (line : Nat) (s : State) : State :=
  let s1 := s.cores.foldl (fun s e => dropSwm e.1 line s) s
  let s2 := if Tab.has s1.home.dir line then recallLine line (settleLine line s1) else s1
  s2.cores.foldl (fun s e => backHome e.1 line s) s2
/-- Every line that a test names goes home, and leaves the L2. -/
def flushLines (hit : Nat → Bool) (s : State) : State :=
  (linesWhere s hit).foldl (fun s line => l2Drop line (homeLine line s)) s
/-- The lines of the world that loses ways go home: which way a line lies in is not held, and the ways that change held lines of that
world only. -/
def wsetSlice (f : Fields) (s : State) : State :=
  withBlock f 64 (fun w => [0, 4, 8, 12, 16].contains w) (fun _ k w s =>
    wsetDone f false (fun s =>
      if Tab.get s.worlds.ways k 0 = w then s
      else
        let loses := decide (w < Tab.get s.worlds.ways k 0)
        { flushLines (fun line => isLocal line && homeSlice line == k && secureGranule s line == loses) s with
          worlds := { s.worlds with ways := Tab.put s.worlds.ways k w } }) s) s
/-- A run of memory bytes written with one value, in canonical form. -/
def Mem.fill (d : Byte) (m : Mem) (a n : Nat) (v : Byte) : Mem :=
  m.filter (fun e => decide (e.1 < a)) ++ (if v = d then [] else (List.range n).map fun k => (a + k, v)) ++
    m.filter (fun e => decide (a + n ≤ e.1))
/-- A granule filled with zeros. -/
def zeroGranule (g : Nat) (s : State) : State :=
  let a := g * 2 ^ 21
  let inside := fun (x : Nat) => decide (a ≤ x ∧ x < a + 2 ^ 21)
  let lines := s.work.threads.filterMap fun e => e.2.resv.map (·.line)
  let s1 := lines.foldl (fun s line => if inside line then writeResv line none s else s) { s with mem := Mem.fill 0 s.mem a (2 ^ 21) 0 }
  let s2 := s1.modHome fun h => { h with poison := h.poison.filter fun e => !inside e.1 }
  (s.fabric.pageVer.filter fun e => inside (e.1 * 4096)).foldl (fun s e => touchVersion (e.1 * 4096) s) s2
def wsetGran (f : Fields) (s : State) : State :=
  waveOnce f (fun l s =>
    let base := (reg64 l.th f.a).toNat
    let n := (reg32 l.th f.b).toNat
    let w := (reg32 l.th f.c).toNat
    let first := base / 2 ^ 21
    let mine := fun (pa : Nat) => isLocal pa && decide (first ≤ pa / 2 ^ 21 ∧ pa / 2 ^ 21 < first + n)
    if !s.hereWorld then worldFault f s
    else if w > 1 ∨ base % 2 ^ 21 ≠ 0 ∨ n = 0 ∨ n > 786432 ∨ first + n > 786432 then ctxFault f 3 s
    else
      releaseFirst f 5 (fun s =>
        let asked := (s.home.dir.filter fun e => mine e.1 && hostHolds s e.1).map (·.1)
        match asked with
        | line :: _ => waitAll f (.remote line) (asked.foldl (fun s k => noteSnoop (.remote k) s) s)
        | [] =>
          let s1 := flushLines mine (fenceSides s.hereCore s.hereCtx 5 s)
          let s2 : State := { s1 with cores := s1.cores.map fun e => (e.1, { e.2 with icache := e.2.icache.filter fun k => !mine k.1 }) }
          let ks := (List.range n).map fun k => first + k
          let out := if w = 0 then ks.filter fun g => s2.worlds.granules.contains g else []
          let s3 := out.foldl (fun s g => zeroGranule g s) s2
          doneWith f (val32 0)
            { s3 with worlds := { s3.worlds with granules := ks.foldl (fun l g => setMember (w == 1) g l) s3.worlds.granules } }) s) s
def wsetPort (f : Fields) (s : State) : State :=
  withBlock f 64 (fun w => decide (w ≤ 1)) (fun _ p w s =>
    wsetDone f (s.fabric.flows.any fun e => e.2.port == p)
      (fun s => { s with worlds := { s.worlds with ports := setMember (w == 1) p s.worlds.ports } }) s) s
def wsetFn (f : Fields) (s : State) : State :=
  withBlock f 4 (fun w => decide (w ≤ 1)) (fun _ k w s =>
    wsetDone f (s.queues.any fun e => e.2.en && (s.ctx e.2.ctx).fn == some k)
      (fun s => { s with worlds := { s.worlds with fns := setMember (w == 1) k s.worlds.fns } }) s) s

/-! ## REGION and BIASSET (spec 13 R278, R288, R289) -/

/-- The first page of a range that fails, with its cause, or the physical pages. -/
def rangePages (s : State) (w : Who) (mode : Option Nat) (va : Nat) : Nat → Nat → Except (Byte × Nat) (List Nat)
  | 0, _ => .ok []
  | n + 1, k =>
    let a := va + 4096 * k
    match checkGlobal s w {} 1 (BitVec.ofNat 64 a) with
    | .error e => .error (e, a)
    | .ok x =>
      if !isLocal x.pa || x.mode != mode.getD 0 then .error (0x41, a)
      else (rangePages s w mode va n (k + 1)).map fun r => x.pa / 4096 * 4096 :: r
/-- The checks that REGION and BIASSET share; the action has the physical pages. -/
def withPages (f : Fields) (mode : Option Nat) (act : List Nat → State → State) (s : State) : State :=
  waveOnce f (fun l s =>
    let base := reg64 l.th f.a
    let n := (reg32 l.th f.b).toNat
    if base.toNat % 4096 ≠ 0 then onceTrap f l 0x43 base s
    else if n = 0 ∨ n > 65536 then operandFault f s
    else
      match rangePages s (whoOf s l.th) mode base.toNat n 0 with
      | .error e => onceTrap f l e.1 (BitVec.ofNat 64 e.2) s
      | .ok pages => act pages s) s
/-- Dirty SWM masks of a line, over the cores that hold it. -/
def swmMasks (s : State) (line : Nat) : List (BitVec 256) :=
  s.cores.filterMap fun e => (Tab.find e.2.l1 line).bind fun l => if l.st == .swm && l.mask != 0 then some l.mask else none
/-- Some byte is in two or more of the masks. -/
def overlap : List (BitVec 256) → Bool
  | [] => false
  | m :: r => r.any (fun k => m &&& k != 0) || overlap r
def heldLines (s : State) (pages : List Nat) : List Nat := linesWhere s fun k => pages.contains (k / 4096 * 4096)
def regionCoh (f : Fields) (s : State) : State :=
  withPages f (some 0) (fun pages => fencedSys f (fun s =>
    let ls := heldLines s pages
    let n := (ls.filter fun line => overlap (swmMasks s line)).length
    let s1 := ls.foldl (fun s line => homeLine line s) s
    doneWith f (val32 (BitVec.ofNat 32 ((if n > 0 then 1 else 0) + 256 * min n 65535))) s1)) s
def regionSwm (f : Fields) (s : State) : State :=
  withPages f (some 1) (fun pages => fencedSys f (fun s =>
    let ls := heldLines s pages
    doneWith f (val32 0) (ls.foldl (fun s line => homeLine line s) s))) s
/-- A line that a flip to host bias writes back: modified in an L1 or in a write-back entry, merged, or dirty in the L2 (log entry
32). -/
def flipDirty (s : State) (line : Nat) : Bool :=
  (match Tab.find s.home.l2 line with | some l => l.dirty != 0 | none => false) ||
    s.cores.any fun e => Tab.has e.2.wbs line || match Tab.find e.2.l1 line with
      | some l => l.st == .m || l.st == .o || (l.st == .b && l.mask != 0)
      | none => false
def pageLines (page : Nat) : List Nat := (List.range 16).map fun k => page + 256 * k
/-- A page enters host bias. -/
def toHost (page : Nat) (s : State) : State :=
  let s1 := (pageLines page).foldl (fun s line => l2Drop line (homeLine line s)) s
  s1.modHome fun h =>
    { h with dir := h.dir.filter fun e => !(pageLines page).contains e.1, bias := setMember true (page / 4096) h.bias }
def biassetHost (f : Fields) (s : State) : State :=
  withPages f none (fun pages => fencedSys f (fun s =>
    let ps := (dedup pages).filter fun p => !hostBias s p
    let n := (ps.flatMap pageLines).filter (flipDirty s)
    doneWith f (val32 (BitVec.ofNat 32 n.length)) (ps.foldl (fun s p => toHost p s) s))) s
/-- Snoops of lines not yet answered; each line is asked once. -/
def askLines (ls : List Nat) (s : State) : State :=
  s.modHome fun h => { h with binv := h.binv ++ ls.filter fun x => !h.binv.contains x }
def biassetDev (f : Fields) (s : State) : State :=
  withPages f none (fun pages => releaseFirst f 5 (fun s =>
    let ps := (dedup pages).filter fun p => hostBias s p
    let ls := ps.flatMap pageLines
    match ls.filter fun x => !Tab.has s.home.flips x with
    | x :: r => waitAll f (.remote x) (askLines (x :: r) (fenceSides s.hereCore s.hereCtx 5 s))
    | [] =>
      let n := (ls.filter fun x => Tab.get s.home.flips x false).length
      let s0 := ls.foldl (fun s line => l2Drop line (homeLine line s)) s
      let s1 := s0.modHome fun h =>
        { h with flips := h.flips.filter (fun e => !ls.contains e.1), bias := h.bias.filter fun p => !ps.contains (4096 * p) }
      doneWith f (val32 (BitVec.ofNat 32 n)) (fenceSides s.hereCore s.hereCtx 5 s1))) s

/-! ## WSAVE and WREST (spec 22 R415 to R419) -/

/-- A home wave of the trapping team, live and standing still: the threads by home lane. The instruction waits until every
thread has stopped (spec 22 R417). -/
def withHomeWave (f : Fields) (act : Lane → Word → List (Nat × Thread) → State → State) (s : State) : State :=
  waveOnce f (fun l s =>
    let sel := reg32 l.th f.b
    let hoist := (sel.extractLsb' 0 2).toNat
    let hw := (sel.extractLsb' 2 5).toNat
    let c := s.coreOf l.th
    let ts := (teamThreads s l.th.team).filter fun e => e.2.hoist == hoist && e.2.hwave == hw
    if sel.extractLsb' 7 25 != 0 || ts.isEmpty then operandFault f s
    else if (reg64 l.th f.a).toNat % 64 ≠ 0 then onceTrap f l 0x43 (reg64 l.th f.a) s
    else if !canonical (reg64 l.th f.a) then onceTrap f l 0x40 (reg64 l.th f.a) s
    else if ts.all fun e => hasStopped s e.1 e.2 then act l sel ts (s.modCore c fun k => { k with suspend := none })
    else waitAll f (.poll (s.dtime + 1)) (s.modCore c fun k => { k with suspend := some (hoist, hw) })) s
def imageSize : Nat := 10304
def heldIn (s : State) (t : Nat) : Bool :=
  match waveOf s t with
  | some (_, w) => (s.present w).any fun l => l.id == t && !w.exm.getLsbD l.lane
  | none => false
/-- A thread image (spec 22 R415). -/
def threadImage (s : State) (t : Nat) (th : Thread) : List Byte :=
  let g := s.gridOf th
  let flags := th.p.toNat + 2 ^ 7 * (heldIn s t).toNat + 2 ^ 8 * th.stopped.toNat + 2 ^ 9 * th.park.isSome.toNat +
    2 ^ 10 * th.handler.toNat + 2 ^ 11 * th.cancel.isSome.toNat
  natLe 8 th.pc.toNat ++ natLe 4 flags ++ natLe 4 (g.ordinal th.pc).toNat ++ List.replicate 48 (0 : Byte) ++
    (List.range 64).flatMap fun k => natLe 4 (if k < g.regs then th.reg k else 0).toNat
/-- The image of a home wave (spec 22 R417, R418). -/
def waveImage (s : State) (sel : Word) (ts : List (Nat × Thread)) : List Byte :=
  let mask := (laneBits (ts.map fun e => e.2.hlane)).toNat
  let pinned := ts.findSome? fun e => (waveOf s e.1).bind fun w => if w.2.holdsAny then some w.2.slot else none
  natLe 4 sel.toNat ++ natLe 4 mask ++ natLe 4 mask ++ natLe 4 (pinned.getD 0xFFFFFFFF) ++ natLe 8 s.dtime ++ List.replicate 40 (0 : Byte) ++
    (List.range 32).flatMap fun h =>
      match ts.find? fun e => e.2.hlane == h with
      | some e => threadImage s e.1 e.2
      | none => List.replicate 320 (0 : Byte)
def wsave (f : Fields) (s : State) : State :=
  withHomeWave f (fun l sel ts s =>
    match vaWrite (whoOf s l.th) { w := true } (reg64 l.th f.a).toNat (waveImage s sel ts) s with
    | .error e => onceTrap f l e.1 (BitVec.ofNat 64 e.2) s
    | .ok s1 => advance s1) s
/-- A thread image applied to a thread: registers and predicates, then the PC of one that is neither stopped nor held. -/
def applyImage (bs : List Byte) (t : Nat) (s : State) : State :=
  let th := s.thread t
  let n := (s.gridOf th).regs
  let pc := BitVec.ofNat 64 (leAt bs 0 8)
  let s1 := s.modThread t fun x =>
    (x.setRegs 0 ((List.range n).map fun k => BitVec.ofNat 32 (leAt bs (64 + 4 * k) 4))) |> fun y => { y with p := BitVec.ofNat 7 (leAt bs 8 1) }
  if th.stopped || heldIn s t then s1
  else
    let s2 := if th.park.isSome then leaveWait t s1 else s1
    (if pc = th.pc then s2 else leaveWave t s2).modThread t fun x => { x with pc := pc, resume := none }
def wrest (f : Fields) (s : State) : State :=
  withHomeWave f (fun l _ ts s =>
    let r := vaRead (whoOf s l.th) { r := true } (reg64 l.th f.a).toNat imageSize s
    match r.1 with
    | .error e => onceTrap f l e.1 (BitVec.ofNat 64 e.2) r.2
    | .ok bs =>
      let s := r.2
      let m := BitVec.ofNat 32 (leAt bs 4 4) &&& BitVec.ofNat 32 (leAt bs 8 4)
      let hit := (ts.filter fun e => m.getLsbD e.2.hlane).map fun e => (e, (bs.drop (64 + 320 * e.2.hlane)).take 320)
      if hit.any fun e => !(e.1.2.stopped || heldIn s e.1.1) && (slotOf (BitVec.ofNat 64 (leAt e.2 0 8))).isNone then operandFault f s
      else advance (hit.foldl (fun s e => applyImage e.2 e.1.1 s) s)) s

/-! ## SPPIN and SPUNPIN (spec 22 R420) -/

/-- The checks that both share; the action has the pages and the team. -/
def withPins (f : Fields) (act : Nat → Nat → List Nat → State → State) (s : State) : State :=
  waveOnce f (fun l s =>
    let off := (reg32 l.th f.a).toNat
    let n := (reg32 l.th f.b).toNat
    let team := l.th.team
    if off % 4096 ≠ 0 then onceTrap f l 0x43 (BitVec.ofNat 64 off) s
    else if n > 256 then doneWith f (val32 2) s
    else if n > 0 && off + 4096 * n > scratchSize s team then onceTrap f l 0x40 (BitVec.ofNat 64 off) s
    else act (s.coreOf l.th) team ((List.range n).map fun k => off / 4096 + k) s) s
def setPins (team : Nat) (pages : List Nat) (on : Bool) (s : State) : State :=
  s.modTeam team fun t => { t with pages := t.pages.map fun e => if pages.contains e.1 then (e.1, { e.2 with pinned := on }) else e }
def sppin (f : Fields) (s : State) : State :=
  withPins f (fun c team pages s =>
    if !pages.isEmpty && !pinFits s c team pages then doneWith f (val32 1) s
    else
      match missingPages s team pages with
      | [] => doneWith f (val32 0) (setPins team pages true s)
      | ps => waitPages f ps s) s
def spunpin (f : Fields) (s : State) : State :=
  withPins f (fun _ team pages s => doneWith f (val32 0) (setPins team pages false s)) s

/-! Each answers the next state that the definition of its name gives. -/
def execTlbinvPage (f : Fields) (s : State) : Host.Outcome State Fault Refusal := .next (tlbinvPage f s)
def execTlbinvCtx (f : Fields) (s : State) : Host.Outcome State Fault Refusal := .next (tlbinvCtx f s)
def execTlbinvAll (f : Fields) (s : State) : Host.Outcome State Fault Refusal := .next (tlbinvAll f s)
def execCtxsetNew (f : Fields) (s : State) : Host.Outcome State Fault Refusal := .next (ctxsetNew f s)
def execCtxsetRoot (f : Fields) (s : State) : Host.Outcome State Fault Refusal := .next (ctxsetRoot f s)
def execCtxsetKill (f : Fields) (s : State) : Host.Outcome State Fault Refusal := .next (ctxsetKill f s)
def execWsetCore (f : Fields) (s : State) : Host.Outcome State Fault Refusal := .next (wsetCore f s)
def execWsetSlice (f : Fields) (s : State) : Host.Outcome State Fault Refusal := .next (wsetSlice f s)
def execWsetGran (f : Fields) (s : State) : Host.Outcome State Fault Refusal := .next (wsetGran f s)
def execWsetPort (f : Fields) (s : State) : Host.Outcome State Fault Refusal := .next (wsetPort f s)
def execWsetFn (f : Fields) (s : State) : Host.Outcome State Fault Refusal := .next (wsetFn f s)
def execRegionCoh (f : Fields) (s : State) : Host.Outcome State Fault Refusal := .next (regionCoh f s)
def execRegionSwm (f : Fields) (s : State) : Host.Outcome State Fault Refusal := .next (regionSwm f s)
def execBiassetDev (f : Fields) (s : State) : Host.Outcome State Fault Refusal := .next (biassetDev f s)
def execBiassetHost (f : Fields) (s : State) : Host.Outcome State Fault Refusal := .next (biassetHost f s)
def execWsave (f : Fields) (s : State) : Host.Outcome State Fault Refusal := .next (wsave f s)
def execWrest (f : Fields) (s : State) : Host.Outcome State Fault Refusal := .next (wrest f s)
def execSppin (f : Fields) (s : State) : Host.Outcome State Fault Refusal := .next (sppin f s)
def execSpunpin (f : Fields) (s : State) : Host.Outcome State Fault Refusal := .next (spunpin f s)
end Sys2Proof.Machine
end

