-- ==== Sys2Proof/Machine/Freeze.lean ====
section
/-!
DEFINITION. Freeze.lean: the freeze of the module and its inputs (spec 22 R424 to R428).
-/
namespace Sys2Proof.Machine

def State.modGuidon (s : State) (g : Guidon → Guidon) : State := { s with guidon := g s.guidon }

/-! ## Freezing (spec 22 R424, R426, R428) -/

/-- A freeze flit (spec 13 R282). -/
def makeFreezeFlit (m src : Nat) (cause : Byte) : Flit :=
  ⟨BitVec.ofNat 128 (m % 256 * 2 ^ 80 + 9 * 2 ^ 76), BitVec.ofNat 512 (2 + 256 * (src % 256) + 65536 * cause.toNat)⟩
def portsUp (s : State) : List Nat := (s.fabric.ports.filter fun e => e.2.st == 4).map (·.1)
def levelCause (c : Byte) : Bool := [0xC3, 0xC4, 0xC5, 0xC6].contains c.toNat
/-- A cause recorded by the Guidon: as a standing input, or latched until an acknowledgement. -/
def recordCause (c : Byte) (s : State) : State :=
  s.modGuidon fun g =>
    { g with
      own := (c, s.dtime) :: g.own
      level := if levelCause c && !g.level.contains c then g.level ++ [c] else g.level
      event := if !levelCause c && !g.event.contains c then g.event ++ [c] else g.event }
/-- The module freezes: safe-state outputs driven, the first cause and source kept, flits to every peer, and the threads'
reservations gone (spec 11 R230). -/
def freeze (cause : Byte) (src : Nat) (flitCause : Byte) (s : State) : State :=
  let s1 := recordCause cause s
  if s.guidon.frozen then s1
  else
    let s2 := s1.modGuidon fun g => { g with frozen := true, safe := true, quiet := false, cause := cause, src := BitVec.ofNat 8 src }
    let flit := makeFreezeFlit s.fabric.module_.toNat src flitCause
    let s3 := (portsUp s).foldl (fun s p => sendFlit p flit s) s2
    s3.modThreads (s3.work.threads.map (·.1)) fun t => { t with resv := none }
/-- A freeze that starts at this module. -/
def freezeHere (cause : Byte) (s : State) : State := freeze cause s.fabric.module_.toNat cause s
def clockMonitor (s : State) : State := freezeHere 0xC3 s
def supplyMonitor (s : State) : State := freezeHere 0xC4 s
def thermalTrip (s : State) : State := freezeHere 0xC5 s
def freezePin (s : State) : State := freezeHere 0xC6 s
def arrayUncorrected (unitKind : BitVec 4) (unit : BitVec 12) (addr : DWord) (s : State) : State :=
  freezeHere 0xC7 (s.logDev 0xC7 0xFF (unitOf unitKind.toNat unit.toNat) addr 0)
/-- The heartbeat window has passed without a correct write (spec 22 R427). -/
def heartbeatMissed (s : State) : State :=
  let g := s.guidon
  if g.hbwin = 0 || g.frozen || s.dtime < g.hbFrom + 1000 * g.hbwin.toNat then s else freezeHere 0xC2 s
def moduleQuiescent (s : State) : State := if s.guidon.frozen then s.modGuidon fun g => { g with quiet := true } else s
def hbOutToggle (s : State) : State := s.modGuidon fun g => { g with hbOut := !g.hbOut }
def levelCauseClear (cause : Byte) (s : State) : State := s.modGuidon fun g => { g with level := g.level.filter fun c => c != cause }
/-- A redundancy report (spec 22 R423, R424). -/
def reportRedundancy (c x : Nat) (addr info : DWord) (s : State) : State :=
  if s.guidon.rdn then freezeHere 0xC0 s
  else logCore 0xC0 c x addr info (s.modGuidon fun g => { g with own := (0xC0, s.dtime) :: g.own })

/-! Each answers the next state that the definition of its name gives. -/
def execClockMonitor (s : State) : Host.Outcome State Fault Refusal := .next (clockMonitor s)
def execSupplyMonitor (s : State) : Host.Outcome State Fault Refusal := .next (supplyMonitor s)
def execThermalTrip (s : State) : Host.Outcome State Fault Refusal := .next (thermalTrip s)
def execFreezePin (s : State) : Host.Outcome State Fault Refusal := .next (freezePin s)
def execArrayUncorrected (unitKind : BitVec 4) (unit : BitVec 12) (addr : DWord) (s : State) : Host.Outcome State Fault Refusal := .next (arrayUncorrected unitKind unit addr s)
def execHeartbeatMissed (s : State) : Host.Outcome State Fault Refusal := .next (heartbeatMissed s)
def execModuleQuiescent (s : State) : Host.Outcome State Fault Refusal := .next (moduleQuiescent s)
def execHbOutToggle (s : State) : Host.Outcome State Fault Refusal := .next (hbOutToggle s)
def execLevelCauseClear (cause : Byte) (s : State) : Host.Outcome State Fault Refusal := .next (levelCauseClear cause s)
end Sys2Proof.Machine
end

