-- ==== Sys2Proof/Machine/Fabric.lean ====
section
/-!
DEFINITION. Fabric.lean: flows, packets and their exactly-once application, link replay, control flits, leases and OP 0x75
(spec 13 R281 to R286, 22 R426, R428, 23 R434, R435).
-/
namespace Sys2Proof.Machine

/-! ## What the links receive while frozen (spec 22 R426) -/

/-- An inbound transfer waits in its receive buffer while the module is frozen. -/
def inbound (i : Inbound) (k : State → State) (s : State) : State :=
  if s.guidon.frozen then s.modFabric fun x => { x with rx := x.rx ++ [i] } else k s

/-! ## Flows as their source (spec 13 R283) -/

/-- Threads that wait for an answer about a line reissue. -/
def wakeRemote (line : Nat) (s : State) : State :=
  wakeWhere (fun _ t => t.park == some (.remote line) && t.awaits.isNone) s
/-- A request whose answer a thread waits for. -/
def requestWait (x : Nat) (p : Packet) (t : Nat) (s : State) : Sent :=
  match flowTo s (paModule p.pa) x with
  | none => .noFlow
  | some k =>
    match request x p (some t) s with
    | .ok s1 => .ok (s1.modThread t fun y => { y with awaits := some (k, (Tab.get s.fabric.flows k {}).seq) })
    | r => r
/-- A thread waits on a packet: for its answer, for the acknowledgement of its own write, or for the lease of its line. -/
def waitsOn (o : Outst) (id : Nat) (t : Thread) : Bool :=
  (o.thread == some id && (t.awaits == some (o.pkt.flow, o.pkt.seq) || t.park == some (.remote Config.paSize))) ||
    ((o.pkt.typ == 6 || (o.pkt.typ == 0 && o.pkt.op == 1)) && t.awaits.isNone && t.park == some (.remote (lineOf o.pkt.pa)))
/-- Accesses that wait on packets raise a cause at their instructions, and renewals among the packets are no longer in progress. -/
def failWaiting (os : List Outst) (cause : Byte) (s0 : State) : State :=
  let s := copyAnswered os (some cause) s0
  os.foldl (fun s o =>
    let s0 := if o.pkt.typ = 6 then
        s.modFabric fun x => { x with leases := x.leases.map fun e => if e.1 = lineOf o.pkt.pa then (e.1, { e.2 with asked := none, late := false }) else e }
      else s
    (s0.work.threads.filter fun e => waitsOn o e.1 e.2).foldl (fun s e =>
      let s1 := takePriv s [e.1] e.2.parkedAt { cause := cause }
      match e.2.batch with | some b => settleBatch b s1 | none => s1) s0) s
/-- A flow starts again at SEQ 0; each access that waits on it raises FLOW_STALE (spec 13 R284). -/
def resetFlow (k : Nat) (s : State) : State :=
  endGroups (failWaiting (Tab.get s.fabric.flows k {}).outst 0x58 (modFlow k (fun f => { f with seq := 0, outst := [] }) s))
def flowOpen (flow dest : Nat) (ordered secure : Bool) (port : Nat) (s : State) : State :=
  if flow ≥ 256 || Tab.has s.fabric.flows flow then s
  else if s.worlds.ports.contains port && !secure then s.logDev 0x42 0xFF (unitOf 2 port) 0 0
  else s.modFabric fun x => { x with flows := Tab.put x.flows flow { dest := dest, ordered := ordered, secure := secure, port := port } }
def flowClose (flow : Nat) (s : State) : State :=
  let os := (Tab.get s.fabric.flows flow {}).outst
  endGroups (failWaiting os 0x58 (s.modFabric fun x => { x with flows := Tab.del x.flows flow }))
/-- An end-to-end acknowledgement: a request that still waits for its answer is kept until the answer. -/
def ackOne (flow : Nat) (seq : Word) (s : State) : State :=
  copyAnswered ((Tab.get s.fabric.flows flow {}).outst.filter fun o => o.pkt.seq == seq) none
    (endGroups (wakeRemote Config.paSize (modFlow flow (fun f =>
      { f with outst := f.outst.filter fun o => o.pkt.seq != seq || (o.thread.isSome && (o.pkt.typ == 0 || o.pkt.typ == 4)) }) s)))
def e2eAck (flow : Nat) (seq : Word) (s : State) : State := inbound (.ack flow seq) (ackOne flow seq) s
def retransmitTimeout (flow : Nat) (seq : Word) (s : State) : State :=
  match (Tab.get s.fabric.flows flow {}).outst.find? fun o => o.pkt.seq == seq with
  | none => s
  | some o =>
    if s.dtime < o.sent + 20000 then s
    else if o.tries < 8 then
      let f := Tab.get s.fabric.flows flow {}
      sendPacket f.port f.dest o.pkt
        (modFlow flow (fun f => { f with outst := f.outst.map fun y => if y.pkt.seq == seq then { y with sent := s.dtime, tries := y.tries + 1 } else y }) s)
    else endGroups (failWaiting [o] 0x59 (modFlow flow (fun f => { f with outst := f.outst.filter fun y => y.pkt.seq != seq }) s))

/-! ## Leases as the holder (spec 13 R285, R286) -/

/-- A renewal answered: the lease counts from its sending, and an acquire since then leaves the copy expired. -/
def leaseRenewal (line : Nat) (answer : RenewalAnswer) (s : State) : State :=
  match Tab.find s.fabric.leases line with
  | none => s
  | some l =>
    match l.asked with
    | none => s
    | some t =>
      let l1 := { l with expiry := t + s.fabric.leaseNs, expired := l.late, asked := none, late := false }
      let s1 := match answer with
        | .unchanged => setLease line l1 s
        | .data bytes version lease =>
          if lease then setLease line { l1 with bytes := bytes, version := version } s
          else s.modFabric fun x => { x with leases := Tab.del x.leases line }
      wakeRemote line s1
def leaseExpiry (line : Nat) (s : State) : State :=
  match Tab.find s.fabric.leases line with
  | some l => if l.expiry ≤ s.dtime then expireLease line s else s
  | none => s
/-- A request for a lease and its line, or a renewal of an expired copy. -/
def askLease (x : Nat) (line : Nat) (t : Option Nat) (s : State) : Sent :=
  let base : Packet := { src := 0, flow := 0, seq := 0, typ := 0, pa := line, size := 256, op := 1, b := BitVec.ofNat 64 x, c := 0, data := 0 }
  let ask := match t with | some k => requestWait x base k s | none => request x base none s
  match Tab.find s.fabric.leases line with
  | some l =>
    if l.ctx == x then
      (if l.asked.isSome then .ok s
       else match request x { base with typ := 6, b := l.version.setWidth 64 } none s with
         | .ok s1 => .ok (setLease line { l with asked := some s.dtime } s1)
         | r => r)
    else ask
  | none => ask
/-- The remote lines that the executing threads name, after the translation checks; then the action. -/
def withRemoteLines (f : Fields) (act : List (Lane × Nat) → State → State) (s : State) : State :=
  let ls := byHidx (s.execLanes f)
  let p := splitChecks (ls.map fun l => (l, checkGlobal s (whoOf s l.th) {} 1 (globalEa f l.th), globalEa f l.th))
  if !p.1.isEmpty then memTrap f p.1 s
  else advance (act ((p.2.filter fun e => isRemote e.2.pa && e.2.mode == 0).map fun e => (e.1, lineOf e.2.pa)) s)
def leaseGet (f : Fields) (s : State) : State :=
  withRemoteLines f (fun ls s => ls.foldl (fun s e =>
    let x := s.ctxOf e.1.th
    let s := touchHint (s.coreOf e.1.th) e.2 f.hint s
    if (leaseLive s x e.2).isSome then s
    else match askLease x e.2 none s with
      | .ok s1 => s1
      | _ => s) s) s
def leaseDrop (f : Fields) (s : State) : State :=
  withRemoteLines f (fun ls s => ls.foldl (fun s e =>
    expireLease e.2 s) s) s
def leaseDropall (f : Fields) (s : State) : State :=
  let x := s.hereCtx
  if (s.execLanes f).isEmpty then advance s
  else expireLeases x (advance s)

/-! ## Packets at their destination (spec 13 R284, R285) -/

/-- The value that a packet's RMW gives. Operator 14 is CAS, with its comparison value in b and its new value in c. -/
def packetOp (p : Packet) (old : Nat) : Option Nat :=
  if p.op = 14 then (if old = p.b.toNat % 2 ^ (8 * p.size) then some (p.c.toNat % 2 ^ (8 * p.size)) else none)
  else some (applyOp p.op.toNat old (p.b.toNat % 2 ^ (8 * p.size)))
/-- A reply to a request: it carries the request's flow and SEQ. -/
def reply (p : Packet) (typ : BitVec 4) (b c : DWord) (data : BitVec 2048) (s : State) : State :=
  let q : Packet := { p with src := s.fabric.module_.toNat, typ := typ, b := b, c := c, data := data }
  sendPacket (Config.portTo p.src) p.src q (s.modFabric fun x => { x with replies := x.replies ++ [q] })
/-- Whether the home refuses a request: no such memory, or a secure granule on a flow of the other world. -/
def refuses (s : State) (p : Packet) : Bool :=
  decide (p.pa % 2 ^ 43 ≥ Config.localLimit) || (secureGranule s (p.pa % 2 ^ 43) && !p.secure)
/-- A lease on a page, unless its version has just wrapped (spec 13 R285). -/
def grantLease (pa : Nat) (s : State) : Bool × State :=
  let v := Tab.get s.fabric.pageVer (pa / 4096) {}
  match v.embargo with
  | some t => if s.dtime < t then (false, s) else (true, give v)
  | none => (true, give v)
where give (v : PageVer) : State := s.modFabric fun x => { x with pageVer := Tab.put x.pageVer (pa / 4096) { v with granted := true, embargo := none } }
def leaseEmbargoEnd (page : Nat) (s : State) : State :=
  let v := Tab.get s.fabric.pageVer page {}
  match v.embargo with
  | some t => if t ≤ s.dtime then s.modFabric fun x => { x with pageVer := Tab.put x.pageVer page { v with embargo := none } } else s
  | none => s
/-- A read answered; bit 0 of c says a lease, bit 1 poison. -/
def answerRead (p : Packet) (s : State) : State :=
  let pa := p.pa % 2 ^ 43
  if refuses s p || poisoned s pa then reply p 1 0 2 0 s
  else
    let g := if p.op = 1 then grantLease pa s else (false, s)
    let r := farRead pa p.size g.2
    let ver := (Tab.get r.2.fabric.pageVer (pa / 4096) {}).version
    reply p 1 (ver.setWidth 64) (if g.1 then 1 else 0) (BitVec.ofNat 2048 (leNat r.1)) r.2
/-- A request applied for the first time: the RMW's old value is answered too. -/
def applyRequest (p : Packet) (s : State) : Option DWord × State :=
  let pa := p.pa % 2 ^ 43
  match p.typ.toNat with
  | 0 => (none, answerRead p s)
  | 6 =>
    if (Tab.get s.fabric.pageVer (pa / 4096) {}).version.setWidth 64 = p.b && !refuses s p then
      let g := grantLease pa s
      (none, if g.1 && (Tab.get s.fabric.ports (Config.portTo p.src) {}).agreed != 1 then reply p 7 0 0 0 g.2 else answerRead { p with op := 1 } s)
    else (none, answerRead { p with op := 1 } s)
  | 2 =>
    if refuses s p then (none, reply p 3 0 0 0 (s.logDev 0x42 0xFF (unitOf 1 (homeSlice pa)) (BitVec.ofNat 64 pa) 0))
    else (none, reply p 3 0 0 0 (farWrite none 0 pa (natLe p.size p.data.toNat) s))
  | _ =>
    if refuses s p || poisoned s pa then (some 0, reply p 5 0 2 0 s)
    else
      let r := farRead pa p.size s
      let old := leNat r.1
      let s1 := match packetOp p old with
        | some x => farWrite none 0 pa (natLe p.size x) r.2
        | none => r.2
      (some (BitVec.ofNat 64 old), reply p 5 (BitVec.ofNat 64 old) 0 0 s1)
def inKey (p : Packet) : Nat := 256 * p.src + p.flow
/-- The distance of a SEQ below the highest one delivered, modulo 2^32. -/
def seqBelow (f : InFlow) (q : Word) : Nat := (f.high - q).toNat
/-- A packet applied, recorded and acknowledged. -/
def applyOnce (p : Packet) (s : State) : State :=
  let r := applyRequest p s
  let f := Tab.get r.2.fabric.inFlows (inKey p) {}
  let above := !f.any || decide (seqBelow f p.seq ≥ 2 ^ 31)
  let high := if above then p.seq else f.high
  let near := fun (q : Word) => decide ((high - q).toNat < 4096)
  let f1 : InFlow :=
    { f with
      any := true, high := high, applied := (p.seq :: f.applied).filter near, next := p.seq + 1
      results := ((match r.1 with | some v => [(p.seq, v)] | none => []) ++ f.results).filter fun e => near e.1 }
  reply p 8 0 0 0 (r.2.modFabric fun x => { x with inFlows := Tab.put x.inFlows (inKey p) f1 })
/-- A write or RMW of a line that the host may hold waits for its back-invalidate snoop (spec 13 R272). -/
def snoopFirst (s : State) (p : Packet) : Bool :=
  (p.typ == 2 || p.typ == 4) && !refuses s p && hostHolds s (p.pa % 2 ^ 43)
/-- A packet left in the inbox, its snoop sent. -/
def awaitSnoop (p : Packet) (s : State) : State :=
  noteSnoop (.remote (lineOf (p.pa % 2 ^ 43))) (s.modFabric fun x => { x with inbox := x.inbox ++ [p] })
/-- Held packets of an ordered flow whose turn has come. -/
def applyHeld (key : Nat) : Nat → State → State
  | 0, s => s
  | n + 1, s =>
    let f := Tab.get s.fabric.inFlows key {}
    match f.held.find? fun p => p.seq == f.next with
    | none => s
    | some p =>
      let s1 := s.modFabric fun x => { x with inFlows := Tab.put x.inFlows key { f with held := f.held.filter fun q => q.seq != p.seq } }
      if snoopFirst s p then awaitSnoop p s1 else applyHeld key n (applyOnce p s1)
/-- A request by its SEQ: applied, answered again, held for its turn, or stale. -/
def deliverRequest (p : Packet) (s : State) : State :=
  let f := Tab.get s.fabric.inFlows (inKey p) {}
  let d := seqBelow f p.seq
  if f.any && decide (4096 ≤ d) && decide (d < 2 ^ 31) then
    reply p 8 0 4 0 ((s.modFabric fun x => { x with inFlows := Tab.del x.inFlows (inKey p) }).logDev 0x58 0xFF (unitOf 2 p.src) (BitVec.ofNat 64 p.pa) 0)
  else if f.applied.contains p.seq then
    let s1 := match p.typ.toNat with
      | 0 => answerRead p s
      | 6 => answerRead { p with op := 1 } s
      | 2 => reply p 3 0 0 0 s
      | _ => reply p 5 ((f.results.find? fun e => e.1 == p.seq).map (·.2) |>.getD 0) 0 0 s
    reply p 8 0 0 0 s1
  else if p.ordered && f.any && p.seq != f.next then
    s.modFabric fun x => { x with inFlows := Tab.put x.inFlows (inKey p) { f with held := f.held ++ [p] } }
  else if p.ordered && !f.any && p.seq != 0 then
    s.modFabric fun x => { x with inFlows := Tab.put x.inFlows (inKey p) { f with held := f.held ++ [p] } }
  else applyHeld (inKey p) 4096 (applyOnce p s)

/-! ## Replies at the source -/

/-- What a reply gives the thread that waits. -/
def answerThread (t : Nat) (r : Reply) (p : Packet) (s : State) : State :=
  let th := s.thread t
  if !(s.thread? t).isSome || th.awaits != some (p.flow, p.seq) then s
  else
    let g := s.gridOf th
    let x := s.ctxOf th
    let value := p.seq.toNat + p.flow * 2 ^ 32
    let s1 := if g.recording then
        replayPut x (recordWord 4 0 (s.coreOf th) (s.quadOf th) th.slot) (g.ordinal th.pc) value p.src s else s
    let s2 := if g.playing then replayTaken x s1 else s1
    wakeWhere (fun k _ => k == t) (s2.modThread t fun y => { y with reply := some r, awaits := none })
/-- Replay lets an arrival happen now (spec 20 R394). -/
def arrivalAllowed (s : State) (p : Packet) : Bool :=
  match (Tab.get s.fabric.flows p.flow {}).outst.find? fun o => o.pkt.seq == p.seq with
  | none => true
  | some o =>
    match o.thread with
    | none => true
    | some t =>
      let th := s.thread t
      th.awaits != some (p.flow, p.seq) || !(s.gridOf th).playing || replayAllows s (s.ctxOf th) 4 (p.seq.toNat + p.flow * 2 ^ 32) p.src
/-- A reply to a request of this module, by the request's flow and SEQ. Bit 2 of c says FLOW_STALE, which resets the flow whether
or not the source still keeps the packet (spec 13 R284). -/
def deliverReply (p : Packet) (s : State) : State :=
  if p.c.getLsbD 2 then (if Tab.has s.fabric.flows p.flow then resetFlow p.flow s else s)
  else
  match (Tab.get s.fabric.flows p.flow {}).outst.find? fun o => o.pkt.seq == p.seq with
  | none => s
  | some o =>
    if !arrivalAllowed s p then s.modFabric fun x => { x with inbox := x.inbox ++ [p] }
    else
      let settled := modFlow p.flow (fun f => { f with outst := f.outst.map fun y => if y.pkt.seq == p.seq then { y with thread := none } else y })
      let tell := fun (r : Reply) (s : State) => match o.thread with | some t => answerThread t r p s | none => s
      match p.typ.toNat with
      | 1 =>
        if o.pkt.typ = 6 then leaseRenewal o.pkt.pa (.data p.data (loW p.b) (p.c.getLsbD 0)) (settled s)
        else
          let s1 := if p.c.getLsbD 0 then
              setLease o.pkt.pa { ctx := o.pkt.b.toNat, expired := o.late
                                  expiry := o.first + s.fabric.leaseNs, version := loW p.b, bytes := p.data } s else s
          wakeRemote (lineOf o.pkt.pa) (tell { data := p.data, bad := p.c.getLsbD 1, line := lineOf o.pkt.pa } (settled s1))
      | 5 => wakeRemote Config.paSize (tell { value := p.b, bad := p.c.getLsbD 1, line := lineOf o.pkt.pa } (settled s))
      | 7 => leaseRenewal o.pkt.pa .unchanged (settled s)
      | 3 => wakeRemote Config.paSize (settled s)
      | _ => ackOne p.flow p.seq s
/-- The packets whose flits have all been delivered to this module: the flits of one SRC, FLOW, SEQ and TYPE, as many as the first
payload says, 1 to 4 (spec 13 R281). -/
def sameFlits (s : State) (h : BitVec 128) : List Flit := s.fabric.deliver.filter fun f => f.head.extractLsb' 76 52 == h.extractLsb' 76 52
def assembled (s : State) : List Packet :=
  (dedup (s.fabric.deliver.map fun f => f.head.extractLsb' 76 52 ++ 0#76)).filterMap fun h =>
    let ps := (sameFlits s h).map (·.payload)
    let n := max 1 (min 4 (Config.payloadField (ps.take 1) 0))
    let x := Config.payloadField (ps.take n)
    if ps.length < n then none
    else
      some { src := (h.extractLsb' 80 8).toNat, flow := (h.extractLsb' 88 8).toNat, seq := h.extractLsb' 96 32, typ := h.extractLsb' 76 4
             pa := x 1, size := x 2, op := BitVec.ofNat 4 (x 3), b := BitVec.ofNat 64 (x 4), c := BitVec.ofNat 64 (x 5)
             data := BitVec.ofNat 2048 (x 6), secure := x 7 == 1, ordered := x 8 == 1 }
/-- The flits of a packet leave the switch with it. -/
def takeFlits (p : Packet) (s : State) : State :=
  let h : BitVec 128 := p.seq ++ (BitVec.ofNat 8 p.flow ++ (BitVec.ofNat 8 p.src ++ (p.typ ++ 0#76)))
  s.modFabric fun x => { x with deliver := x.deliver.filter fun f => f.head.extractLsb' 76 52 != h.extractLsb' 76 52 }
def takePacket (packet : Packet) (s : State) : State :=
  let s0 := takeFlits packet (s.modFabric fun x => { x with inbox := x.inbox.filter fun p => p != packet })
  if snoopFirst s packet then awaitSnoop packet s0
  else if [0, 2, 4, 6].contains packet.typ.toNat then deliverRequest packet s0
  else if [1, 3, 5, 7, 8].contains packet.typ.toNat then deliverReply packet s0
  else s0.logDev 0 0xFF (unitOf 2 packet.src) 0 0
def packetDeliver (packet : Packet) (s : State) : State := inbound (.packet packet) (takePacket packet) s

/-! ## Links (spec 13 R281 to R283, 23 R434, R435) -/

def port (s : State) (p : Nat) : Port := Tab.get s.fabric.ports p {}
def setPort (p : Nat) (x : Port) (s : State) : State := s.modFabric fun g => { g with ports := Tab.put g.ports p x }
def takeFlit (flit : Flit) (s : State) : State := s.modFabric fun x => { x with deliver := x.deliver ++ [flit] }
def payloadByte (f : Flit) (k : Nat) : Byte := f.payload.extractLsb' (8 * k) 8
/-- A control flit, told by its subtype alone; a malformed one is dropped and logged. -/
def controlFlit (p : Nat) (flit : Flit) (s : State) : State :=
  let bad := s.logDev 0 0xFF (unitOf 2 p) 0 0
  let zeros := fun (lo n : Nat) => (List.range n).all fun k => payloadByte flit (lo + k) == 0
  let headOk := flit.head.extractLsb' 72 4 == 0 && flit.head.extractLsb' 88 40 == 0
  let x := port s p
  match (payloadByte flit 0).toNat with
  | 1 =>
    if !headOk || !zeros 7 57 then bad
    else if x.st ≠ 3 then s
    else
      let v := payloadByte flit 1
      let agreed := if v.toNat < x.loc.toNat then v else x.loc
      let y := { x with
        peer := v, peerMod := payloadByte flit 6
        feats := (flit.payload.extractLsb' 16 32) &&& Config.linkFeatures }
      if v = 0 then (setPort p { y with agreed := 0, st := 5 } s).logDev 0 0xFF (unitOf 2 p) 0 0
      else setPort p { y with agreed := agreed, st := 4 } s
  | 2 =>
    if !headOk || !zeros 3 61 then bad
    else if x.st = 0 || x.st = 5 then s
    else freeze 0xC1 (payloadByte flit 1).toNat (payloadByte flit 2) s
  | _ => bad
/-- A control flit that the switch finds, consumed at the end of the link that its sender stands on. -/
def linkFlit (flit : Flit) (s : State) : State :=
  match s.fabric.ports.find? fun e => e.2.peerMod == flit.head.extractLsb' 80 8 && e.2.st != 0 with
  | some e => controlFlit e.1 flit s
  | none => s.logDev 0 0xFF (unitOf 2 0) 0 0
/-- A flit at the switch: sent on, delivered, or dropped. A control flit is never routed: one with turns left is malformed (spec 13
R282). -/
def fabricFlitRoute (flit : Flit) (s : State) : State :=
  let cnt := (flit.head.extractLsb' 72 4).toNat
  let typ := (flit.head.extractLsb' 76 4).toNat
  let turns := flit.head.extractLsb' 0 72
  if typ = 9 && cnt ≠ 0 then s.logDev 0 0xFF (unitOf 2 0) 0 0
  else if typ = 9 then linkFlit flit s
  else if cnt = 0 then
    if typ ≥ 10 then s.logDev 0 0xFF (unitOf 2 0) 0 0
    else inbound (.flit flit) (takeFlit flit) s
  else
    let p := (turns.extractLsb' 0 6).toNat
    let x := port s p
    if x.st ≠ 4 then setPort p { x with dropped := x.dropped + 1 } s
    else
      let head : BitVec 128 := flit.head.extractLsb' 76 52 ++ (BitVec.ofNat 4 (cnt - 1) ++ (turns >>> 6))
      sendFlit p ⟨head, flit.payload⟩ s
/-- A port leaves the up state and trains again; its flows keep their state. -/
def startRetrain (p : Nat) (s : State) : State := setPort p { port s p with st := 1, fails := 0 } s
/-- The flit of a failed link check is sent again, with every flit after it; sixteen failures of one flit retrain the port. -/
def linkReplay (p : Nat) (s : State) : State :=
  let x := port s p
  if x.replay.isEmpty || x.st ≠ 4 then s
  else if x.fails + 1 ≥ 16 then startRetrain p s
  else setPort p { x with fails := x.fails + 1, tx := x.replay } s
/-- The negotiation flit of this module on a port (spec 13 R282). -/
def makeNegotiation (s : State) (x : Port) : Flit :=
  ⟨BitVec.ofNat 128 (s.fabric.module_.toNat * 2 ^ 80 + 9 * 2 ^ 76),
   BitVec.ofNat 512 (1 + 2 ^ 8 * x.loc.toNat + 2 ^ 16 * Config.linkFeatures.toNat + 2 ^ 48 * s.fabric.module_.toNat)⟩
/-- Lock and equalisation done, the port sends its negotiation flit; or it fails. -/
def portRetrain (p : Nat) (ok : Bool) (s : State) : State :=
  if ok then sendFlit p (makeNegotiation s (port s p)) (setPort p { port s p with st := 3, fails := 0 } s)
  else (setPort p { port s p with st := 5, fails := 0 } s).logDev 0 0xFF (unitOf 2 p) 0 0
def negotiationFlit (port : Nat) (flit : Flit) (s : State) : State := controlFlit port flit s
def freezeFlit (port : Nat) (flit : Flit) (s : State) : State := controlFlit port flit s

/-! Each answers the next state that the definition of its name gives. -/
def execLeaseGet (f : Fields) (s : State) : Host.Outcome State Fault Refusal := .next (leaseGet f s)
def execLeaseDrop (f : Fields) (s : State) : Host.Outcome State Fault Refusal := .next (leaseDrop f s)
def execLeaseDropall (f : Fields) (s : State) : Host.Outcome State Fault Refusal := .next (leaseDropall f s)
/-! Each answers the next state that the definition of its name gives. -/
def execFlowOpen (flow : Nat) (dest : Nat) (ordered : Bool) (secure : Bool) (port : Nat) (s : State) : Host.Outcome State Fault Refusal := .next (flowOpen flow dest ordered secure port s)
def execFlowClose (flow : Nat) (s : State) : Host.Outcome State Fault Refusal := .next (flowClose flow s)
def execE2eAck (flow : Nat) (seq : Word) (s : State) : Host.Outcome State Fault Refusal := .next (e2eAck flow seq s)
def execRetransmitTimeout (flow : Nat) (seq : Word) (s : State) : Host.Outcome State Fault Refusal := .next (retransmitTimeout flow seq s)
def execLeaseRenewal (line : Nat) (answer : RenewalAnswer) (s : State) : Host.Outcome State Fault Refusal := .next (leaseRenewal line answer s)
def execLeaseExpiry (line : Nat) (s : State) : Host.Outcome State Fault Refusal := .next (leaseExpiry line s)
def execLeaseEmbargoEnd (page : Nat) (s : State) : Host.Outcome State Fault Refusal := .next (leaseEmbargoEnd page s)
def execPacketDeliver (packet : Packet) (s : State) : Host.Outcome State Fault Refusal := .next (packetDeliver packet s)
def execFabricFlitRoute (flit : Flit) (s : State) : Host.Outcome State Fault Refusal := .next (fabricFlitRoute flit s)
def execLinkReplay (port : Nat) (s : State) : Host.Outcome State Fault Refusal := .next (linkReplay port s)
def execPortRetrain (port : Nat) (ok : Bool) (s : State) : Host.Outcome State Fault Refusal := .next (portRetrain port ok s)
def execNegotiationFlit (port : Nat) (flit : Flit) (s : State) : Host.Outcome State Fault Refusal := .next (negotiationFlit port flit s)
def execFreezeFlit (port : Nat) (flit : Flit) (s : State) : Host.Outcome State Fault Refusal := .next (freezeFlit port flit s)
end Sys2Proof.Machine
end

