-- ==== Sys2Proof/Machine/Coherence.lean ====
section
/-!
DEFINITION. Coherence.lean: the directory's transactions in their stages, evictions and write-backs, miss-status entries,
page-table walks, the crossbar, far operations and the host's accesses (spec 09 R179, R184, 13 R270 to R280, R287 to R289,
19 R373).
-/
namespace Sys2Proof.Machine

/-! ## The crossbar (spec 13 R279) -/

/-- What a slice answers to a message on the return channel of its sender's cluster. -/
def MsgKind.answer : MsgKind → Option MsgKind
  | .read => some .data
  | .own => some .data
  | .bunting => some .data
  | .back => some .ack
  | _ => none
/-- The message a station sends in a hold: its cores in turn, each in order; a slice in order alone. -/
def nextMsg (home : Bool) (x : Chan) : Option Msg :=
  let mine := x.msgs.filter fun m => m.station == x.station
  if home then
    let last := Tab.get x.rr x.station 7
    leastBy (fun m => (m.core + 7 - last % 8) % 8) mine
  else mine.head?
/-- The list without the first occurrence of an element. -/
def dropFirst {α : Type} [DecidableEq α] (x : α) : List α → List α
  | [] => []
  | y :: r => if y = x then r else y :: dropFirst x r
/-- The station that has the burgee sends at most one message of four flits and passes it on. A message that arrives at a
slice is answered on the return channel of its cluster where its kind asks for it. -/
def burgeeHold (channel : Nat) (s : State) : State :=
  let x := chanOf s channel
  let home := decide (channel < 64)
  let pass := { x with station := (x.station + 1) % (if home then 16 else 64) }
  if channel ≥ 80 then s
  else
    match nextMsg home x with
    | none => setChan channel { pass with sent := [] } s
    | some m =>
      let s1 := setChan channel
        { pass with msgs := dropFirst m x.msgs, sent := [m], rr := if home then Tab.put x.rr m.station m.core else x.rr } s
      match if home then m.kind.answer else none with
      | some k => sendMsg (64 + m.station) ⟨channel, 8 * m.station + m.core, m.line, k⟩ s1
      | none => s1

/-! ## Miss-status entries (spec 09 R179) -/

/-- New entries that a list of sectors takes: those neither in flight nor arrived. -/
def newMisses (s : State) (c : Nat) (asks : List (Nat × Bool)) : List (Nat × Bool) :=
  asks.filter fun a => !Tab.has (s.core c).miss a.1 && !(s.core c).arrived.contains a.1
/-- A line that the host owns is asked of it under CXL.cache (spec 13 R288). -/
def askHost (line : Nat) (s : State) : State :=
  if (isHost line || hostBias s line) && !s.home.hostReqs.contains line then s.modHome fun h => { h with hostReqs := h.hostReqs ++ [line] } else s
/-- Entries taken for a list of sectors, with a request to each line's home. -/
def takeMisses (c : Nat) (hint : BitVec 2) (l2Only : Bool) (asks : List (Nat × Bool)) (s : State) : State :=
  let s1 := asks.foldl (fun s a => s.modCore c fun x => { x with miss := Tab.put x.miss a.1 { hint := hint, swm := a.2, l2Only := l2Only } }) s
  (dedup (asks.map fun a => lineOf a.1)).foldl (fun s k => askHost k (tellHome c k .read s)) s1
/-- Threads of a core that wait for miss-status entries. -/
def missWaiters (s : State) (c : Nat) : List (Nat × Thread) :=
  s.work.threads.filter fun e =>
    s.coreOf e.2 == c && (match e.2.park with | some (.miss k) => decide (k > 0) | _ => false)
/-- The instruction that asked first takes every entry it needs, when they are free. -/
def missEntryGrant (core : Nat) (s : State) : State :=
  match leastBy (fun e => e.2.askAt) (missWaiters s core) with
  | none => s
  | some e =>
    let new := newMisses s core e.2.asks
    if (s.core core).miss.length + new.length > 256 then s
    else
      let same := ((missWaiters s core).filter fun x => x.2.askAt == e.2.askAt && x.2.asks == e.2.asks && x.2.pc == e.2.pc).map (·.1)
      (takeMisses core e.2.askHint false new s).modThreads same fun t => { t with park := some (.miss 0) }
/-- Waiting instructions whose sectors have all arrived reissue. -/
def wakeMisses (c : Nat) (s : State) : State :=
  s.modThreads ((s.work.threads.filter fun e =>
    e.2.park == some (.miss 0) && s.coreOf e.2 == c && e.2.asks.all fun a => !Tab.has (s.core c).miss a.1).map (·.1)) Thread.unparkHere
/-- The data of a sector arrives, once its request has reached the home and the answer its core: the line is granted and placed, an
error is corrected or poisons the line, and the entry is free (spec 13 R279, 21 R412). -/
def missDataFill (core sector : Nat) (outcome : ReadOutcome) (s : State) : State :=
  let line := lineOf sector
  match Tab.find (s.core core).miss sector with
  | none => s
  | some m =>
    let place := !m.l2Only && m.hint != 3
    if underWay s core line [.read, .data] || (place && (makeRoom core line m.swm s).isNone) then s
    else
      let sa := (if m.swm then s else settleLine line s).modHome fun h => { h with hostReqs := h.hostReqs.filter fun k => k != line }
      let s0 := match outcome with
        | .clean => sa
        | .corrected => softError core 0xFF 0x50 sector sa
        | .uncorrectable => setPoison line (sa.logDev 0x50 0xFF (unitOf 1 (homeSlice line)) (BitVec.ofNat 64 sector) 0)
      let s1 := s0.modCore core fun x => { x with miss := Tab.del x.miss sector }
      let s2 :=
        if m.swm then (if place then (placeLine core line .swm m.hint (sectorBit sector) 0 s1).getD s1 else l2Touch line m.hint (sectorBit sector) 0 s1)
        else if place then
          let g := grantRead core line s1
          (placeLine core line g.1 m.hint (sectorBit sector) 0 g.2).getD g.2
        else l2Touch line m.hint (sectorBit sector) 0 (mergeLine line s1)
      let waited := s2.work.threads.any fun e => e.2.park == some (.miss 0) && s2.coreOf e.2 == core && e.2.asks.any fun a => a.1 == sector
      let s3 := if waited then s2.modCore core fun x => { x with arrived := x.arrived ++ [sector] } else s2
      wakeMisses core s3

/-! ## Walks (spec 19 R373) -/

/-- A translation kept in a TLB of n entries, the oldest of which gives way. -/
def tlbPut (n : Nat) (e : TlbEntry) (t : List TlbEntry) : List TlbEntry := (e :: t.filter fun x => x != e).take n
/-- A walk starts and completes: its translation enters the TLBs of its core and cluster; every other request for the
same page leaves the queue with it. -/
def tlbWalk (index : Nat) (s : State) : State :=
  match s.walks[index]? with
  | none => s
  | some k =>
    let x := s.ctx k.ctx
    let s1 : State := { s with walks := s.walks.filter fun w => !(w.core == k.core && w.ctx == k.ctx && w.va / 4096 == k.va / 4096) }
    match walkFrom s k.ctx x.world k.va 4 x.root with
    | none => s1
    | some (e, pages) =>
      let t : TlbEntry := { ctx := k.ctx, gen := x.gen, vpn := k.va / 4096 / pages * pages, pages := pages, pte := e }
      (s1.modCore k.core fun c => { c with tlb := tlbPut 64 t c.tlb }).modCluster (k.core / 8) fun c => { c with tlb := tlbPut 4096 t c.tlb }

/-! ## Far operations (spec 13 R272) -/

/-- Threads of a core that hold a reservation on a line. -/
def holders (s : State) (c line : Nat) : List Nat :=
  (s.work.threads.filter fun e => s.coreOf e.2 == c && (match e.2.resv with | some r => r.line == line | none => false)).map (·.1)
def lowBits (n : Nat) (x : DWord) : Nat := x.toNat % 2 ^ (8 * n)
/-- The back-invalidate snoop of a line that the host may hold. -/
def sendSnoop (line : Nat) (s : State) : State :=
  if s.home.binv.contains line then s else s.modHome fun h => { h with binv := h.binv ++ [line] }
/-- A far operation at its home: what is under way on the line ends, every copy is recalled, and the operation runs in the L2; its
old value, or for STC whether it stored, stands on the bus. One that writes a line which the host may hold waits for the
back-invalidate snoop. -/
def farOperation (op : FarOp) (s : State) : State :=
  let n := opBytes op.op.toNat
  let pa := op.pa / n * n
  let line := lineOf pa
  if op.kind != .ldl && hostHolds s pa then (sendSnoop line s).modHome fun h => { h with farHeld := h.farHeld ++ [op] }
  else
  let sa := settleLine line s
  let s0 := if op.kind == .ldl then sa else predict op.core line sa
  let s1 := if Tab.has s0.home.dir line then recallLine line s0 else s0
  let old := homeNat s1 pa n
  let put := fun (x : Nat) (s : State) => homeWrite none pa (natLe n x) s
  let say := fun (x : Nat) (s : State) => { s with bus := BitVec.ofNat 512 x }
  if poisoned s1 pa then say 0 (s1.logDev 0x50 0xFF (unitOf 1 (homeSlice line)) (BitVec.ofNat 64 pa) 0)
  else
    match op.kind with
    | .atom => say old (put (applyOp op.op.toNat old (lowBits n op.b)) s1)
    | .red => say old (put (applyOp op.op.toNat old (lowBits n op.b)) s1)
    | .cas => say old (if old = lowBits n op.b then put (lowBits n op.c) s1 else s1)
    | .ldl => say old s1
    | .stc =>
      let own := holders s op.core line
      let s2 := s1.modThreads own fun t => { t with resv := none }
      if own.isEmpty then say 0 s2 else say 1 (put (lowBits n op.b) s2)

/-! ## The host's accesses (spec 13 R272, R287 to R289) -/

/-- What the host link reaches: local device memory, and the host's own memory. -/
def hostReaches (s : State) (pa : Nat) : Bool := populated s pa && (isLocal pa || isHost pa)
/-- Bytes of a host access, which lies within one 64-byte sector. -/
def hostSpan (pa size : Nat) : Nat := min size (64 - pa % 64)
/-- A host access leaves the host bit set at a line of a device-bias page, and at one of a page on its way there (spec 13 R288,
R289). -/
def setHost (line : Nat) (s : State) : State :=
  if isLocal line && (!hostBias s line || Tab.has s.home.flips line) then modDir line (fun d => { d with host := true }) s else s
/-- A host read of a device-bias line: merged, an owner keeps a shared copy, and the host bit is set. -/
def hostDown (line : Nat) (s : State) : State :=
  let s1 := mergeLine line s
  let d := dirOf s1 line
  if d.st == .x || d.st == .o then
    let s2 := match l1Line s1 d.owner line with
      | some l => setL1 d.owner line { l with st := .s, dirty := 0 } s1
      | none => s1
    setDir line { d with st := .s, sharers := d.sharers ||| coreBit d.owner } s2
  else s1
def takeHostRead (pa size : Nat) (s : State) : State :=
  let n := hostSpan pa size
  let line := lineOf pa
  if secureGranule s pa then { s with bus := 0 }.logDev 0x42 0xFF (unitOf 5 0) (BitVec.ofNat 64 pa) 0
  else
    let s1 := if Tab.has s.home.dir line then hostDown line (settleLine line s) else s
    if poisoned s1 pa then { s1 with bus := 0 }.logDev 0x50 0xFF (unitOf 1 (homeSlice line)) (BitVec.ofNat 64 pa) 0
    else
      let r := farRead pa n s1
      { setHost line r.2 with bus := BitVec.ofNat 512 (leNat r.1) }
def takeHostWrite (pa size : Nat) (data : BitVec 512) (s : State) : State :=
  let n := hostSpan pa size
  let line := lineOf pa
  if secureGranule s pa then s.logDev 0x42 0xFF (unitOf 5 0) (BitVec.ofNat 64 pa) 0
  else
    let s1 := if Tab.has s.home.dir line then recallLine line (settleLine line s) else s
    setHost line (homeWrite none pa (natLe n data.toNat) s1)
def hostRead (pa size : Nat) (s : State) : State := inbound (.hostRead pa size) (takeHostRead pa size) s
def hostWrite (pa size : Nat) (data : BitVec 512) (s : State) : State := inbound (.hostWrite pa size data) (takeHostWrite pa size data) s
/-- The answer to a back-invalidate snoop: modified data is written, then the device writes that waited. -/
def takeBirsp (line : Nat) (data : Option (BitVec 2048)) (s : State) : State :=
  let k := lineOf line
  if !s.home.binv.contains k then s
  else
    let wr := fun (pa n : Nat) (v : BitVec 2048) (s : State) =>
      (chunks 64 (n / 64 + 2) pa n).foldl (fun s c => homeWrite none c.1 (natLe c.2 (v.toNat / 2 ^ (8 * (c.1 - pa)))) s) s
    let s0 := s.modHome fun h => { h with binv := h.binv.filter fun x => x != k }
    let s1 := match data with | some d => wr k 256 d s0 | none => s0
    let s2 := if Tab.has s1.home.dir k then modDir k (fun d => { d with host := false }) s1 else s1
    let held := s2.home.hostHeld.filter fun h => lineOf h.1 == k
    let s3 := s2.modHome fun h => { h with
      hostHeld := h.hostHeld.filter fun e => lineOf e.1 != k
      flips := if hostBias s2 k then Tab.put h.flips k data.isSome else h.flips }
    let s4 := if held.isEmpty then s3 else recallLine k s3
    let far := s4.home.farHeld.filter fun o => lineOf o.pa == k
    let s5 := (held.foldl (fun s h => wr h.1 h.2.1 h.2.2 s) s4).modHome fun h => { h with farHeld := h.farHeld.filter fun o => lineOf o.pa != k }
    wakeRemote k (far.foldl (fun s o => farOperation o s) s5)
def birsp (line : Nat) (data : Option (BitVec 2048)) (s : State) : State := inbound (.birsp line data) (takeBirsp line data) s
/-- A snoop of the host about a host line, or a line of a host-bias page, that the die holds (spec 09 R184). -/
def takeSnoop (line : Nat) (invalidate : Bool) (s : State) : State :=
  let k := lineOf line
  if !(isHost k || hostBias s k) || !Tab.has s.home.dir k then s
  else if invalidate then recallLine k (settleLine k s) else hostDown k (settleLine k s)
def hostSnoop (line : Nat) (invalidate : Bool) (s : State) : State := inbound (.snoop line invalidate) (takeSnoop line invalidate) s

/-- What a link received while the module was frozen, applied (spec 22 R426). -/
def takeInbound (r : Inbound) (s : State) : State :=
  match r with
  | .packet p => takePacket p s
  | .ack flow seq => ackOne flow seq s
  | .flit f => takeFlit f s
  | .hostRead pa n => takeHostRead pa n s
  | .hostWrite pa n d => takeHostWrite pa n d s
  | .birsp line d => takeBirsp line d s
  | .snoop line inv => takeSnoop line inv s

/-! Each answers the next state that the definition of its name gives. -/
def execDirReadRequest (line : Nat) (core : Nat) (s : State) : Host.Outcome State Fault Refusal := .next (dirReadRequest line core s)
def execDirOwnershipRequest (line : Nat) (core : Nat) (s : State) : Host.Outcome State Fault Refusal := .next (dirOwnershipRequest line core s)
def execDirBuntingRequest (line : Nat) (core : Nat) (tag : BitVec 4) (s : State) : Host.Outcome State Fault Refusal := .next (dirBuntingRequest line core tag s)
def execInvalidation (core : Nat) (line : Nat) (s : State) : Host.Outcome State Fault Refusal := .next (invalidation core line s)
def execInvalidationAck (core : Nat) (line : Nat) (s : State) : Host.Outcome State Fault Refusal := .next (invalidationAck core line s)
def execMergeRequest (line : Nat) (s : State) : Host.Outcome State Fault Refusal := .next (mergeRequest line s)
def execMerge (line : Nat) (s : State) : Host.Outcome State Fault Refusal := .next (merge line s)
def execDirRecall (line : Nat) (s : State) : Host.Outcome State Fault Refusal := .next (dirRecall line s)
def execL1Eviction (core : Nat) (line : Nat) (s : State) : Host.Outcome State Fault Refusal := .next (l1Eviction core line s)
def execWritebackAck (core : Nat) (line : Nat) (s : State) : Host.Outcome State Fault Refusal := .next (writebackAck core line s)
def execBurgeeHold (channel : Nat) (s : State) : Host.Outcome State Fault Refusal := .next (burgeeHold channel s)
def execMissEntryGrant (core : Nat) (s : State) : Host.Outcome State Fault Refusal := .next (missEntryGrant core s)
def execMissDataFill (core : Nat) (sector : Nat) (outcome : ReadOutcome) (s : State) : Host.Outcome State Fault Refusal := .next (missDataFill core sector outcome s)
def execTlbWalk (index : Nat) (s : State) : Host.Outcome State Fault Refusal := .next (tlbWalk index s)
def execFarOperation (op : FarOp) (s : State) : Host.Outcome State Fault Refusal := .next (farOperation op s)
def execBirsp (line : Nat) (data : Option (BitVec 2048)) (s : State) : Host.Outcome State Fault Refusal := .next (birsp line data s)
def execHostSnoop (line : Nat) (invalidate : Bool) (s : State) : Host.Outcome State Fault Refusal := .next (hostSnoop line invalidate s)
/-- An address that no region of the host link's view populates stops the machine. -/
def execHostRead (pa : Nat) (size : Nat) (s : State) : Host.Outcome State Fault Refusal :=
  if hostReaches s pa then .next (hostRead pa size s) else .fault .noSuchAddress
def execHostWrite (pa : Nat) (size : Nat) (data : BitVec 512) (s : State) : Host.Outcome State Fault Refusal :=
  if hostReaches s pa then .next (hostWrite pa size data s) else .fault .noSuchAddress

end Sys2Proof.Machine
end

