-- ==== Sys2Proof/Machine/Guidon.lean ====
section
/-!
DEFINITION. Guidon.lean: GDN_STAT, GDN_CTL, the thaw, the release of the safe-state outputs and the heartbeat (spec 22 R425,
R427, R429, R451).
-/
namespace Sys2Proof.Machine

/-! ## GDN_STAT and GDN_CTL (spec 22 R425, R429, R451) -/

def gdnStat (s : State) : Word :=
  let g := s.guidon
  BitVec.ofNat 32 (g.frozen.toNat * 2 ^ 31 + g.safe.toNat * 2 ^ 30 + g.quiet.toNat * 2 ^ 29 + g.rdn.toNat * 2 ^ 28 +
    g.hbctx.toNat * 2 ^ 22 + g.src.toNat * 2 ^ 8 + g.cause.toNat)
def logGuidon (s : State) : State := s.logDev 0 0xFF 0 0 0
/-- A thaw: every recorded cause must have cleared. What the links received meanwhile is applied (spec 22 R426). -/
def thaw (s : State) : State :=
  let g := s.guidon
  if !g.frozen || !g.level.isEmpty || !g.event.isEmpty then logGuidon s
  else
    let s1 := (s.modFabric fun x => { x with rx := [] }).modGuidon fun g => { g with frozen := false, quiet := false, hbFrom := s.dtime }
    s.fabric.rx.foldl (fun s r => takeInbound r s) s1
def release (s : State) : State := if s.guidon.frozen then logGuidon s else s.modGuidon fun g => { g with safe := false }
/-- One write of GDN_CTL: ACK first, then FRZ alone, or THAW and REL in that order. -/
def gdnCtlWrite (w : Word) (s : State) : State :=
  let s1 := s.modGuidon fun g => { g with rdn := w.getLsbD 28, hbctx := w.extractLsb' 22 6, event := if w.getLsbD 0 then [] else g.event }
  if w.getLsbD 31 then freezeHere 0xC1 s1
  else
    let s2 := if w.getLsbD 30 then thaw s1 else s1
    if w.getLsbD 29 then release s2 else s2
def gdnCtlFrz (w : Word) (s : State) : State := gdnCtlWrite (w ||| 0x80000000) s
def gdnCtlThaw (w : Word) (s : State) : State := gdnCtlWrite (w ||| 0x40000000) s
def gdnCtlRel (w : Word) (s : State) : State := gdnCtlWrite (w ||| 0x20000000) s
def gdnCtlAck (w : Word) (s : State) : State := gdnCtlWrite (w ||| 1) s

/-! ## The heartbeat (spec 22 R427) -/

def gdnHbWrite (context : Nat) (beat : Word) (s : State) : State :=
  let g := s.guidon
  if context ≠ g.hbctx.toNat then s
  else if beat = g.hb + 1 then s.modGuidon fun g => { g with hb := beat, hbFrom := s.dtime }
  else
    let s1 := s.modGuidon fun g => { g with hb := beat }
    if g.hbwin = 0 then s1 else freezeHere 0xC2 s1
def gdnHbwinWrite (window : Word) (s : State) : State :=
  if window.toNat > 1000000 then logGuidon s else s.modGuidon fun g => { g with hbwin := window, hbFrom := s.dtime }

/-! Each answers the next state that the definition of its name gives. -/
def execGdnCtlFrz (w : Word) (s : State) : Host.Outcome State Fault Refusal := .next (gdnCtlFrz w s)
def execGdnCtlThaw (w : Word) (s : State) : Host.Outcome State Fault Refusal := .next (gdnCtlThaw w s)
def execGdnCtlRel (w : Word) (s : State) : Host.Outcome State Fault Refusal := .next (gdnCtlRel w s)
def execGdnCtlAck (w : Word) (s : State) : Host.Outcome State Fault Refusal := .next (gdnCtlAck w s)
def execGdnHbWrite (context : Nat) (beat : Word) (s : State) : Host.Outcome State Fault Refusal := .next (gdnHbWrite context beat s)
def execGdnHbwinWrite (window : Word) (s : State) : Host.Outcome State Fault Refusal := .next (gdnHbwinWrite window s)
end Sys2Proof.Machine
end

