-- ==== Sys2Proof/Machine/Order.lean ====
section
/-!
DEFINITION. Order.lean: OP 0x68, 0x6E, 0x71 and 0x72: cache operations, FENCE, and the binding of regions to objects (spec 11
R224, R231, R233, R234).
-/
namespace Sys2Proof.Machine

/-! ## Cache operations -/

/-- The line that a thread names. -/
def cacheEa (f : Fields) (l : Lane) : DWord := globalEa f l.th &&& ~~~0xFF#64
/-- Checks of each thread's line, whose page needs no right (log entry 77), then the action on each line once, settled. -/
def cacheOp (f : Fields) (act : Nat → Xlat → State → State) (s : State) : State :=
  let ls := byHidx (s.execLanes f)
  let p := splitChecks (ls.map fun l => (l, checkGlobal s (whoOf s l.th) {} 1 (cacheEa f l), cacheEa f l))
  if !p.1.isEmpty then memTrap f p.1 s
  else
    (dedup (p.2.map fun e => e.2)).foldl (fun s x => act s.hereCore x s)
      (advance (settleAll ((p.2.filter fun e => e.2.mode == 0).map fun e => e.2.pa) s))
/-- The issuing core's copy written back and left clean. -/
def cleanCopy (c line : Nat) (s : State) : State :=
  match l1Line s c line with
  | none => s
  | some l =>
    match l.st with
    | .m => setL1 c line { l with st := .e, dirty := 0 } s
    | .o =>
      let d := dirOf s line
      setDir line { d with st := .s, sharers := d.sharers ||| coreBit c } (setL1 c line { l with st := .s, dirty := 0 } s)
    | .b => mergeLine line s
    | .swm => swmBack c line l s
    | _ => s
/-- The copy given up after a write-back. -/
def dropCopy (c line : Nat) (s : State) : State :=
  match l1Line s c line with
  | none => s
  | some l =>
    let d := dirOf s line
    let s1 := loseCopy c line s
    match l.st with
    | .e => setDir line { d with st := .i, sharers := 0 } s1
    | .s =>
      let sh := d.sharers &&& ~~~coreBit c
      if d.st == .s then setDir line { d with st := if sh = 0 then .i else .s, sharers := sh } s1 else setDir line { d with sharers := sh } s1
    | _ => s1
def cwb (f : Fields) (s : State) : State := cacheOp f (fun c x s => cleanCopy c (lineOf x.pa) s) s
def cinv (f : Fields) (s : State) : State :=
  cacheOp f (fun c x s =>
    let line := lineOf x.pa
    (dropCopy c line (cleanCopy c line s)).modCore c fun k => { k with icache := k.icache.filter fun e => lineOf e.1 != line }) s
def cdemote (f : Fields) (s : State) : State :=
  cacheOp f (fun c x s =>
    let line := lineOf x.pa
    let s1 := s.modCore c fun k => { k with l1 := k.l1.map fun e => if e.1 == line then (e.1, { e.2 with hint := 1 }) else e }
    s1.modHome fun h => { h with l2 := h.l2.map fun e => if e.1 == line then (e.1, { e.2 with hint := 1 }) else e }) s

/-! ## FENCE -/

/-- A fence completes once every earlier access of its threads has, at any scope (spec 11 R231). -/
def fence (f : Fields) (s : State) : State :=
  if (s.execLanes f).isEmpty then advance s
  else if (s.execLanes f).any fun l => remoteOpen s l.id then waitAll f (.remote Config.paSize) s
  else advance (fenceSides s.hereCore s.hereCtx f.scope s)

/-! ## BIND and UNBIND -/

/-- Blocks of a range taken out of a run. -/
def Binding.without (b : Binding) (team : Option Nat) (base n : Nat) : List Binding :=
  let top := base + 256 * n
  let end_ := b.base + 256 * b.n
  if b.team != team || end_ ≤ base || top ≤ b.base then [b]
  else
    (if b.base < base then [{ b with n := (base - b.base) / 256 }] else []) ++
      (if top < end_ then [{ b with base := top, n := (end_ - top) / 256 }] else [])
def removeRun (team : Option Nat) (base n : Nat) (bs : List Binding) : List Binding := bs.flatMap fun b => b.without team base n
/-- A run added, joined to runs of the same object that it touches. -/
def addRun (r : Binding) (bs : List Binding) : List Binding :=
  let like := fun (b : Binding) => b.team == r.team && b.objTeam == r.objTeam && b.obj == r.obj
  let lo := bs.find? fun b => like b && b.base + 256 * b.n == r.base
  let hi := bs.find? fun b => like b && r.base + 256 * r.n == b.base
  let base := match lo with | some b => b.base | none => r.base
  let n := r.n + (match lo with | some b => b.n | none => 0) + (match hi with | some b => b.n | none => 0)
  bs.filter (fun b => some b != lo && some b != hi) ++ [{ r with base := base, n := n }]

/-- Why one thread's BIND or UNBIND fails: cause, address and the reason of BIND_FAULT. -/
structure BindErr where
  cause  : Byte
  addr   : DWord
  reason : Nat := 0
def bindFault (reason : Nat) (addr : DWord) : BindErr := ⟨0x46, addr, reason⟩
def bindSpace (f : Fields) (k : Nat) : Bool := f.fn.getLsbD k
def bindObj (f : Fields) (l : Lane) : DWord := if bindSpace f 4 then (reg32 l.th f.a).setWidth 64 else reg64 l.th f.a
def bindBase (f : Fields) (l : Lane) : DWord := if bindSpace f 0 then (reg32 l.th f.b).setWidth 64 else reg64 l.th f.b
/-- The object's checks: translation, then its place. -/
def objErr (f : Fields) (s : State) (l : Lane) : Option BindErr :=
  let a := bindObj f l
  if bindSpace f 4 then
    match checkScratch s l.th.team 1 a.toNat with
    | some e => some ⟨e, a, 0⟩
    | none => if a.toNat % 4 ≠ 0 then some (bindFault 1 a) else none
  else
    match checkGlobal s (whoOf s l.th) {} 1 a with
    | .error e => some ⟨e, a, 0⟩
    | .ok x => if a.toNat % 4 ≠ 0 ∨ x.mode ≠ 0 then some (bindFault 1 a) else none
/-- The pages of a region in ascending address: a failed check, then a UNC page. -/
def regionErr (f : Fields) (s : State) (l : Lane) (base : DWord) (n : Nat) : Option BindErr :=
  let first := base.toNat / 4096
  let ks := (List.range ((base.toNat + 256 * n + 4095) / 4096 - first)).map fun k => BitVec.ofNat 64 (max base.toNat (4096 * (first + k)))
  if n = 0 then none
  else if bindSpace f 0 then
    ks.findSome? fun a => (checkScratch s l.th.team 1 a.toNat).map fun e => ⟨e, a, 0⟩
  else
    let check := fun (a : DWord) => checkGlobal s (whoOf s l.th) {} 1 a
    (ks.findSome? fun a => match check a with | .error e => some ⟨e, a, 0⟩ | .ok _ => none).orElse fun _ =>
      ks.findSome? fun a => match check a with | .ok x => if x.mode == 2 then some (bindFault 2 a) else none | .error _ => none
/-- One thread's change of a binding table, or why it fails. -/
def bindOne (f : Fields) (isBind : Bool) (s : State) (l : Lane) (bs : List Binding) : Except BindErr (List Binding) :=
  let base := bindBase f l
  let n := (reg32 l.th f.c).toNat
  match if isBind then objErr f s l else none with
  | some e => .error e
  | none =>
    if base.toNat % 256 ≠ 0 then .error (bindFault 3 base)
    else if n > 2 ^ 24 then .error (bindFault 4 base)
    else
      match regionErr f s l base n with
      | some e => .error e
      | none =>
        let team := if bindSpace f 0 then some l.th.team else none
        let at_ := if bindSpace f 0 then base.toNat else vaOf base
        let obj := bindObj f l
        let r : Binding :=
          { team := team, base := at_, n := n, objTeam := if bindSpace f 4 then some l.th.team else none
            obj := if bindSpace f 4 then obj.toNat else vaOf obj }
        let bs1 := if n = 0 then bs else removeRun team at_ n bs
        let bs2 := if isBind && n != 0 then addRun r bs1 else bs1
        if bs2.length > 4096 then .error (bindFault 5 base) else .ok bs2
/-- Each executing thread changes the table in turn; a failure leaves it as it was. -/
def bindAll (f : Fields) (isBind : Bool) (s : State) : State :=
  let bs0 := (s.ctx s.hereCtx).binds
  let r := (byHidx (s.execLanes f)).foldl (fun (acc : List Binding × List (Lane × BindErr)) l =>
    match bindOne f isBind s l acc.1 with
    | .ok b => (b, acc.2)
    | .error e => (acc.1, acc.2 ++ [(l, e)])) (bs0, [])
  match r.2 with
  | [] => if (s.execLanes f).isEmpty then advance s else (advance s).modCtx s.hereCtx fun c => { c with binds := r.1 }
  | (_, e) :: _ =>
    memTrapInfo f (r.2.map fun x => (x.1, x.2.cause, x.2.addr)) (if e.cause == 0x46 then some (BitVec.ofNat 64 e.reason) else none) s
def bind (f : Fields) (s : State) : State := bindAll f true s
def unbind (f : Fields) (s : State) : State := bindAll f false s

/-! Each answers the next state that the definition of its name gives. -/
def execCwb (f : Fields) (s : State) : Host.Outcome State Fault Refusal := .next (cwb f s)
def execCinv (f : Fields) (s : State) : Host.Outcome State Fault Refusal := .next (cinv f s)
def execCdemote (f : Fields) (s : State) : Host.Outcome State Fault Refusal := .next (cdemote f s)
def execFence (f : Fields) (s : State) : Host.Outcome State Fault Refusal := .next (fence f s)
def execBind (f : Fields) (s : State) : Host.Outcome State Fault Refusal := .next (bind f s)
def execUnbind (f : Fields) (s : State) : Host.Outcome State Fault Refusal := .next (unbind f s)
end Sys2Proof.Machine
end

