-- ==== Sys2Proof/Machine/Power.lean ====
section
/-!
DEFINITION. Power.lean: photonic ring banks, the power governor, the management mailbox and bring-up (spec 19 R375, R382, 23
R430 to R445).
-/
namespace Sys2Proof.Machine

/-! ## Photonic ring banks (spec 23 R437 to R442) -/

def bankOf (s : State) (b : Nat) : PhBank := Tab.get s.banks b {}
def setBank (b : Nat) (x : PhBank) (s : State) : State := { s with banks := Tab.put s.banks b x }
def mapField (m : Vector Word 3) (k : Nat) : Nat := ((m.getD (k / 6) 0).extractLsb' (5 * (k % 6)) 5).toNat
/-- The channel of a ring; 31 when unassigned. -/
def PhBank.chan (x : PhBank) (k : Nat) : Nat := mapField x.map k
def PhBank.code (x : PhBank) (k : Nat) : Nat := (Tab.get x.htr k 0).toNat
/-- Twice the designed resonance of a ring in heater codes: ring k at channel k, the spare 2.40 nm short of channel 0. -/
def designed (k : Nat) : Int := if k = 16 then -1920 else 640 * (k : Int)
/-- ERR of a ring (spec 23 R438): twice the resonance less the assigned wavelength, saturated; 0 when unassigned. -/
def PhBank.err (x : PhBank) (k : Nat) : Int :=
  if x.chan k = 31 then 0
  else
    let e := designed k + Tab.get x.drift k 0 + 2 * (x.code k : Int) - 640 * (x.chan k : Int)
    if e < -2048 then -2048 else if e > 2047 then 2047 else e
/-- A reading of ERR fixes where the ring's resonance lies. -/
def PhBank.sense (x : PhBank) (k : Nat) (e : Int) : PhBank :=
  if x.chan k = 31 then x
  else { x with drift := Tab.put x.drift k (e - designed k - 2 * (x.code k : Int) + 640 * (x.chan k : Int)) }
def rings : List Nat := List.range 17
def PhBank.sat (x : PhBank) (k : Nat) : Bool :=
  x.chan k != 31 && ((x.code k == 0 && decide (x.err k > 8)) || (x.code k == 1023 && decide (x.err k < -8)))
/-- The hold ends once every moved ring reads |ERR| ≤ 8. -/
def PhBank.settle (x : PhBank) : PhBank :=
  if x.busy.isSome && x.moved.all fun k => decide (-8 ≤ x.err k ∧ x.err k ≤ 8) then { x with busy := none, moved := [] } else x
/-- A map that MAPGO accepts: no reserved value, no channel twice. -/
def mapOk (m : Vector Word 3) : Bool :=
  let cs := rings.map (mapField m)
  cs.all (fun c => decide (c < 16) || c == 31) && (List.range 16).all fun c => decide ((cs.filter fun k => k == c).length ≤ 1)
def phbCtlMapgo (bank : Nat) (s : State) : State :=
  let x := bankOf s bank
  if x.busy.isSome || !mapOk x.staged then setBank bank { x with mapErr := true } s
  else
    let moved := rings.filter fun k => mapField x.staged k != x.chan k
    setBank bank (PhBank.settle { x with map := x.staged, busy := some s.dtime, moved := moved }) s
/-- A word of a map with a field replaced. -/
def putField (m : Vector Word 3) (k c : Nat) : Vector Word 3 :=
  m.setIfInBounds (k / 6)
    ((m.getD (k / 6) 0 &&& ~~~(31#32 <<< (5 * (k % 6)))) ||| (BitVec.ofNat 32 c <<< (5 * (k % 6))))
/-- The saturated rings of a bank unassigned; its hold ends with the retraining (log entry 34). -/
def dropRings (b : Nat) (s : State) : State :=
  let x := bankOf s b
  let bad := rings.filter x.sat
  let p := port s (b / 4)
  let lost := bad.foldl (fun (m : BitVec 64) k => m ||| (1#64 <<< (16 * (b % 4) + x.chan k))) p.rate
  let y := bad.foldl (fun (y : PhBank) k => { y with map := putField y.map k 31, staged := putField y.staged k 31 }) x
  let s1 := if bad.isEmpty then s else setPort (b / 4) { p with rate := lost } s
  if bad.isEmpty && x.busy.isNone then s1 else setBank b { y with busy := none, moved := [] } s1
/-- The port of a bank retrains, whichever of its four banks is named. -/
def phbCtlRetrain (bank : Nat) (s : State) : State :=
  let p := bank / 4
  startRetrain p ((List.range 4).foldl (fun s i => dropRings (4 * p + i) s) s)
def phbHoldTimeout (bank : Nat) (s : State) : State :=
  match (bankOf s bank).busy with
  | some t => if t + 1000000 ≤ s.dtime then phbCtlRetrain bank s else s
  | none => s
/-- New readings of a bank's rings, in ring order; then the hold ends if it can. -/
def phbBusyClear (bank : Nat) (errs : List (BitVec 12)) (s : State) : State :=
  let x := (errs.take 17).zipIdx.foldl (fun (x : PhBank) e => x.sense e.2 e.1.toInt) (bankOf s bank)
  setBank bank x.settle s
def setHeater (bank k : Nat) (code : BitVec 10) (s : State) : State :=
  let x := bankOf s bank
  setBank bank (PhBank.settle { x with htr := Tab.put x.htr k code }) s
def phbStat (s : State) (b : Nat) : Word :=
  let x := bankOf s b
  let down := match Tab.find s.fabric.ports (b / 4) with | some p => p.st != 4 | none => false
  BitVec.ofNat 32 (x.busy.isSome.toNat * 2 ^ 31 + (x.chan 16 != 31).toNat * 2 ^ 30 + x.mapErr.toNat * 2 ^ 29 + down.toNat * 2 ^ 28 +
    (rings.filter x.sat).foldl (fun n k => n + 2 ^ k) 0)
/-- A register value as a read returns it. -/
def onBus (x : Nat) (s : State) : State := { s with bus := BitVec.ofNat 512 x }
def phbStatRead (bank : Nat) (s : State) : State :=
  let x := bankOf s bank
  onBus (phbStat s bank).toNat (if x.mapErr then setBank bank { x with mapErr := false } s else s)
/-- While the module is frozen, each assigned heater steps by one code toward ERR = 0. -/
def ringStep (x : PhBank) (k : Nat) : PhBank :=
  let c := x.code k
  if x.err k ≥ 2 && c > 0 then { x with htr := Tab.put x.htr k (BitVec.ofNat 10 (c - 1)) }
  else if x.err k ≤ -2 && c < 1023 then { x with htr := Tab.put x.htr k (BitVec.ofNat 10 (c + 1)) }
  else x
def freezeRingStep (s : State) : State :=
  if s.guidon.frozen then { s with banks := s.banks.map fun e => (e.1, (rings.foldl ringStep e.2).settle) } else s

/-! ## Power (spec 23 R444) -/

def State.modPower (s : State) (g : Power → Power) : State := { s with power := g s.power }
def clockFloor : Nat := 1450
/-- One step down, kept so that it can be undone. -/
def Power.down (p : Power) : Power :=
  if p.fabFirst && p.inj > 1 then { p with inj := p.inj / 2, steps := true :: p.steps }
  else if p.fclk > clockFloor then { p with fclk := p.fclk - 50, steps := false :: p.steps }
  else p
def Power.undo (p : Power) : Power :=
  match p.steps with
  | [] => p
  | true :: r => { p with inj := p.inj * 2, steps := r }
  | false :: r => { p with fclk := p.fclk + 50, steps := r }
def powerGovernorTick (power : Nat) (s : State) : State :=
  s.modPower fun p =>
    if power > p.cap then { p.down with pwr := power, under := 0 }
    else if power + 40 < p.cap then
      (if p.under + 1 ≥ 4 then { p.undo with pwr := power, under := 0 } else { p with pwr := power, under := p.under + 1 })
    else { p with pwr := power, under := 0 }
/-- The current monitors force the floor clock above 2,200 W. -/
def currentMonitorOver (power : Nat) (s : State) : State :=
  if power ≤ 2200 then s
  else s.modPower fun p =>
    { p with pwr := power, under := 0, fclk := clockFloor, steps := List.replicate ((p.fclk - clockFloor) / 50) false ++ p.steps }
def pwrStat (s : State) : Word :=
  let p := s.power
  BitVec.ofNat 32 ((p.fclk < 2900 || p.inj < 8).toNat * 2 ^ 31 + p.fclk % 4096 * 2 ^ 16 + p.pwr % 4096)
def pwrCapWrite (w : Word) (s : State) : State :=
  let cap := (w.extractLsb' 0 12).toNat
  if cap < 1200 ∨ cap > 2200 then s.logDev 0 0xFF 0 0 0 else s.modPower fun p => { p with cap := cap }
/-- A memory channel's timing is trained again: accesses wait, and no state changes. -/
def channelDqRetrain (_ : Nat) (s : State) : State := s

/-! ## The management mailbox (spec 19 R382, 23 R445) -/

def boxOf (s : State) (m : Nat) : Mailbox := Tab.get s.boxes m {}
def setBox (m : Nat) (x : Mailbox) (s : State) : State := { s with boxes := Tab.put s.boxes m x }
/-- Bytes that a mailbox reads: in its service context, or at a physical address that the host reaches (log entry 35). -/
def boxGet (m va n : Nat) (s : State) : Option (List Byte) × State :=
  if m < 4 then
    if hostReaches s va && hostReaches s (va + n - 1) && !secureGranule s va && !secureGranule s (va + n - 1) then
      (chunks 256 (n / 256 + 2) va n).foldl (fun acc c =>
        let r := farRead c.1 c.2 acc.2
        (acc.1.map fun bs => bs ++ r.1, r.2)) (some [], s)
    else (none, s)
  else
    let r := devGet (m - 4) va n s
    (match r.1 with | .ok bs => some bs | .error _ => none, r.2)
def boxPut (m va : Nat) (bs : List Byte) (s : State) : Option State :=
  if m < 4 then
    let n := bs.length
    if n = 0 then some s
    else if hostReaches s va && hostReaches s (va + n - 1) && !secureGranule s va && !secureGranule s (va + n - 1) then
      some ((chunks 256 (n / 256 + 2) va n).foldl (fun s c => farWrite none 0 c.1 ((bs.drop (c.1 - va)).take c.2) s) s)
    else none
  else
    match vaWrite (devWho (m - 4)) { w := true } va bs s with
    | .ok s1 => some s1
    | .error _ => none
/-- A command ends: 0 for success, 2 for an error. -/
def boxDone (m : Nat) (r : Option State) (s : State) : State :=
  match r with
  | some s1 => setBox m { boxOf s1 m with stat := 0 } s1
  | none => setBox m { boxOf s m with stat := 2 } s
def boxArg (s : State) (m k : Nat) : Nat := ((boxOf s m).args.getD k 0).toNat
/-- The bytes that an attestation report signs. -/
def reportBytes (s : State) (x : Nat) (nonce : List Byte) : List Byte :=
  let c := s.ctx x
  let live := c.st == .live
  let d := fun (v : BitVec 256) => natLe 32 v.toNat
  natLe 4 0x52415A4C ++ natLe 2 1 ++ natLe 1 x ++ natLe 1 (c.dbg.toNat + 2 * c.world.toNat + 4 * c.svc.toNat + 8 * live.toNat) ++
    natLe 4 c.gen.toNat ++ natLe 4 0 ++ nonce ++ d (if live then c.meas else 0) ++ d s.boot.measMgmt ++ d s.boot.measHalyard ++
    d s.boot.measGuidon ++ d s.boot.measConfig ++ natLe 8 s.dtime ++ natLe 8 c.creator.toNat
/-- The signature of a report under the identity key, r then s, each big-endian (spec 19 R382). -/
def reportSignature (b : List Byte) : List Byte :=
  (natLe 64 (ecdsaSign Config.identityKey.toNat (Config.signNonce (sha256 b)).toNat (sha256 b)).toNat).reverse
def mbCmdAttest (mailbox : Nat) (s : State) : State :=
  let x := boxArg s mailbox 0
  if x ≥ Config.numContexts then boxDone mailbox none s
  else
    let r := boxGet mailbox (boxArg s mailbox 1) 32 s
    match r.1 with
    | none => boxDone mailbox none r.2
    | some nonce =>
      let b := reportBytes r.2 x nonce
      boxDone mailbox (boxPut mailbox (boxArg s mailbox 2) (b ++ reportSignature b) r.2) r.2
/-- Whether a mailbox lists an entry of the device log. -/
def logVisible (s : State) (m : Nat) (e : LogEntry) : Bool :=
  e.ctx == 0xFF || (if m < 4 then decide (e.ctx.toNat < 64) && (s.ctx e.ctx.toNat).fn == some m else e.ctx.toNat == m - 4)
def logBytes (i : Nat) (e : LogEntry) : List Byte :=
  natLe 4 i ++ natLe 1 e.cause.toNat ++ natLe 1 e.ctx.toNat ++ natLe 2 e.unit.toNat ++ natLe 8 e.time ++ natLe 8 e.addr.toNat ++ natLe 8 e.info.toNat
/-- The entries that a mailbox lists from an index on, oldest first. -/
def logFrom (s : State) (m first n : Nat) : List (Nat × LogEntry) :=
  let all := s.log.zipIdx.map fun e => (s.logged - 1 - e.2, e.1)
  ((all.filter fun e => decide (first ≤ e.1) && logVisible s m e.2).reverse).take n
def mbCmdLogread (mailbox : Nat) (s : State) : State :=
  let n := boxArg s mailbox 1
  if n < 1 ∨ n > 256 then boxDone mailbox none s
  else
    boxDone mailbox
      (boxPut mailbox (boxArg s mailbox 2) ((logFrom s mailbox (boxArg s mailbox 0) n).flatMap fun e => logBytes e.1 e.2) s) s
/-- MB_CMD written. -/
def mbCommand (m : Nat) (w : Word) (s : State) : State :=
  let s1 := setBox m { boxOf s m with cmd := w, stat := 1 } s
  match w.toNat with
  | 1 => mbCmdAttest m s1
  | 2 => mbCmdLogread m s1
  | _ => boxDone m none s1

/-! ## Bring-up (spec 19 R375, 23 R430 to R436) -/

/-- What mask ROM holds stays, and so do the model's own schedule and count of free values. -/
def moduleReset (s : State) : State :=
  { State.reset with agenda := s.agenda, free := s.free, boot := { State.reset.boot with rom := s.boot.rom } }
def State.modBoot (s : State) (g : Boot → Boot) : State := { s with boot := g s.boot }
def bootStat (s : State) : Word :=
  BitVec.ofNat 32 (s.boot.step.toNat * 2 ^ 28 + s.boot.fail.toNat * 2 ^ 16 + s.boot.unit.toNat * 2 ^ 8)
/-- Bring-up stands at a step and has not failed. -/
def atStep (n : Nat) (k : State → State) (s : State) : State := if s.boot.step.toNat = n && s.boot.fail == 0 then k s else s
def bootFail (code unit : Nat) (s : State) : State :=
  s.modBoot fun b => { b with fail := BitVec.ofNat 8 code, unit := BitVec.ofNat 8 unit }
/-- The length of a record's body, and the part that its signature covers. -/
def recLen (r : BootRecord) : Nat := leAt r.bytes 8 4
def recSigned (r : BootRecord) : List Byte := r.bytes.take (0x30 + recLen r)
/-- A digest as its 32 bytes read little-endian, as registers and reports hold it. -/
def storedDigest (d : BitVec 256) : BitVec 256 := BitVec.ofNat 256 (leNat (natLe 32 d.toNat).reverse)
/-- The measurement of an image: the digest of its signed part (log entry 9). -/
def recDigest (r : BootRecord) : BitVec 256 := storedDigest (sha256 (recSigned r))
def recVersion (r : BootRecord) : Word := BitVec.ofNat 32 (leAt r.bytes 0x0C 4)
/-- A record of a kind in the format of spec 23 R432. -/
def recFormed (r : BootRecord) (kind : Nat) : Bool :=
  leAt r.bytes 0 4 == 0x52435A4C && leAt r.bytes 4 2 == 1 && leAt r.bytes 6 2 == kind && recLen r % 64 == 0 &&
    r.bytes.length == 0x70 + recLen r
/-- The key digest of the record is that of the boot ROMs and of the key. -/
def recKeyOk (r : BootRecord) (rom : BitVec 256) : Bool :=
  leAt r.bytes 0x10 32 == rom.toNat && storedDigest (sha256 (natLe 64 r.key.toNat).reverse) == rom
def recSigOk (r : BootRecord) : Bool :=
  ecdsaVerifies r.key (sha256 (recSigned r)) (BitVec.ofNat 512 (leNat (r.bytes.drop (0x30 + recLen r)).reverse))
/-- A record whose format, key and signature are good. -/
def recGenuine (r : BootRecord) (rom : BitVec 256) (kind : Nat) : Bool := recFormed r kind && recKeyOk r rom && recSigOk r
/-- Why a record is not accepted (spec 23 R432): format, key or signature 1, security version 2. -/
def recordFail (mins : Tab Word) (rom : BitVec 256) (kind : Nat) (r : BootRecord) : Option Nat :=
  if !recGenuine r rom kind then some 1 else if (recVersion r).toNat < (Tab.get mins kind 0).toNat then some 2 else none
/-- The supplies have ramped, and the Guidon's boot ROM runs. -/
def bringupGuidon (image : BootRecord) (selfTest : Bool) (s : State) : State :=
  let s0 := atStep 1 (fun s => s.modBoot fun b => { b with step := 2 }) s
  atStep 2 (fun s =>
    match recordFail s.boot.mins s.boot.rom 3 image with
    | some e => bootFail e 0 s
    | none =>
      if !selfTest then bootFail 5 0 s
      else s.modBoot fun b => { b with step := 3, measGuidon := recDigest image }) s0
def bringupManagement (image : BootRecord) (s : State) : State :=
  atStep 3 (fun s =>
    match recordFail s.boot.mins s.boot.rom 1 image with
    | some e => bootFail e 0 s
    | none => s.modBoot fun b => { b with step := 4, measMgmt := recDigest image }) s
/-- The identity, then the configuration record, whose minimum versions hold from its acceptance, then the Halyard record. -/
def bringupRecords (identityOk : Bool) (config halyard : BootRecord) (setup : ConfigRecord) (s : State) : State :=
  atStep 4 (fun s =>
    let mins : Tab Word := setup.minVersions.foldl (fun t e => Tab.put t e.1 e.2) ([] : Tab Word)
    if !identityOk then bootFail 3 0 s
    else
      match ((recordFail mins s.boot.rom 4 config).orElse fun _ => recordFail mins s.boot.rom 2 halyard : Option Nat) with
      | some e => bootFail e 0 s
      | none =>
        (s.modBoot fun b =>
          { b with step := 5, mins := mins, measConfig := recDigest config, measHalyard := recDigest halyard, setup := some setup }).modFabric fun f =>
            { f with module_ := BitVec.ofNat 8 setup.moduleIndex, members := setup.podMembers, leaseNs := max 1000 (min 1000000 setup.leaseNs) }) s
/-- A link instance that has agreed on a version with its partner, or shares none. -/
def agree (x : Port) (peer : Nat) : Port :=
  let v : Byte := BitVec.ofNat 8 peer
  if v = 0 then { x with peer := v, agreed := 0, st := 5 }
  else { x with peer := v, agreed := if v.toNat < x.loc.toNat then v else x.loc, st := 4 }
def bringupMemory (failing : Option Nat) (s : State) : State :=
  atStep 5 (fun s =>
    match failing with
    | some ch => bootFail 4 ch s
    | none =>
      let up := (List.range 128).map fun ch => (ch, agree {} (if Config.channelRev ch then 2 else 1))
      ((s.modBoot fun b => { b with step := 6 }).modHome fun h => { h with bias := [] }).modFabric fun f => { f with chanIfv := up }) s
/-- The host link, then each port that the configuration record enables; a port without a partner stays down and is logged. -/
def bringupLinks (hostPeer : Nat) (peers : List (Nat × Nat)) (s : State) : State :=
  atStep 6 (fun s =>
    let h := agree s.fabric.hostIfv hostPeer
    let s1 := (s.modBoot fun b => { b with step := 7 }).modFabric fun f => { f with hostIfv := h }
    let s2 := if h.st == 5 then s1.logDev 0 0xFF (unitOf 5 0) 0 0 else s1
    (match s.boot.setup with | some c => c.ports | none => ([] : List Nat)).foldl (fun (s : State) (p : Nat) =>
      let x := match peers.find? (fun (e : Nat × Nat) => e.1 == p) with
        | some e => agree (port s p) e.2
        | none => { port s p with st := 0 }
      let s' := setPort p x s
      if x.st == 4 then s' else s'.logDev 0 0xFF (unitOf 2 p) 0 0) s2) s
/-- A context that the management core creates, in the lowest free entry. -/
def createCtx (c : CtxSpec) (s : State) : State :=
  match (List.range Config.numContexts).find? fun x => (s.ctx x).st == .free with
  | none => s
  | some x =>
    s.setCtx x { st := .live, root := c.root, world := c.world, dbg := c.dbg, svc := c.svc, gen := (s.ctx x).gen + 1, meas := c.meas
                 creator := 0xFF, fn := some c.fn }
def bringupContexts (s : State) : State :=
  atStep 7 (fun s =>
    match s.boot.setup with
    | none => s
    | some c =>
      let s0 : State :=
        { s with
          ctxs := [], queues := []
          worlds := { ways := c.sliceWays.foldl (fun (t : Tab Nat) (e : Nat × Nat) => Tab.put t e.1 e.2) []
                      granules := sortBy id (dedup (c.secureGranules.flatMap fun (e : Nat × Nat) => (List.range e.2).map fun k => e.1 + k))
                      ports := sortBy id (dedup c.securePorts), fns := sortBy id (dedup c.secureFns) } }
      let s1 := c.secureCores.foldl (fun s k => s.modCore k fun x => { x with world := true }) s0
      let s2 := c.parts.foldl (fun s e => s.modCore e.1 fun x => { x with part := Tab.put x.part e.2.1 e.2.2 }) s1
      (c.contexts.foldl (fun s k => createCtx k s) s2).modBoot fun b => { b with step := 8 }) s

/-! Each answers the next state that the definition of its name gives. -/
def execModuleReset (s : State) : Host.Outcome State Fault Refusal := .next (moduleReset s)
def execBringupGuidon (image : BootRecord) (selfTest : Bool) (s : State) : Host.Outcome State Fault Refusal := .next (bringupGuidon image selfTest s)
def execBringupManagement (image : BootRecord) (s : State) : Host.Outcome State Fault Refusal := .next (bringupManagement image s)
def execBringupRecords (identityOk : Bool) (config : BootRecord) (halyard : BootRecord) (setup : ConfigRecord) (s : State) : Host.Outcome State Fault Refusal := .next (bringupRecords identityOk config halyard setup s)
def execBringupMemory (failing : Option Nat) (s : State) : Host.Outcome State Fault Refusal := .next (bringupMemory failing s)
def execBringupLinks (hostPeer : Nat) (peers : List (Nat × Nat)) (s : State) : Host.Outcome State Fault Refusal := .next (bringupLinks hostPeer peers s)
def execBringupContexts (s : State) : Host.Outcome State Fault Refusal := .next (bringupContexts s)
def execPowerGovernorTick (power : Nat) (s : State) : Host.Outcome State Fault Refusal := .next (powerGovernorTick power s)
def execCurrentMonitorOver (power : Nat) (s : State) : Host.Outcome State Fault Refusal := .next (currentMonitorOver power s)
def execPhbCtlMapgo (bank : Nat) (s : State) : Host.Outcome State Fault Refusal := .next (phbCtlMapgo bank s)
def execPhbCtlRetrain (bank : Nat) (s : State) : Host.Outcome State Fault Refusal := .next (phbCtlRetrain bank s)
def execPhbHoldTimeout (bank : Nat) (s : State) : Host.Outcome State Fault Refusal := .next (phbHoldTimeout bank s)
def execPhbBusyClear (bank : Nat) (errs : List (BitVec 12)) (s : State) : Host.Outcome State Fault Refusal := .next (phbBusyClear bank errs s)
def execPhbStatRead (bank : Nat) (s : State) : Host.Outcome State Fault Refusal := .next (phbStatRead bank s)
def execChannelDqRetrain (channel : Nat) (s : State) : Host.Outcome State Fault Refusal := .next (channelDqRetrain channel s)
def execFreezeRingStep (s : State) : Host.Outcome State Fault Refusal := .next (freezeRingStep s)
def execPwrCapWrite (w : Word) (s : State) : Host.Outcome State Fault Refusal := .next (pwrCapWrite w s)
def execMbCmdAttest (mailbox : Nat) (s : State) : Host.Outcome State Fault Refusal := .next (mbCmdAttest mailbox s)
def execMbCmdLogread (mailbox : Nat) (s : State) : Host.Outcome State Fault Refusal := .next (mbCmdLogread mailbox s)
end Sys2Proof.Machine
end

