-- ==== Sys2Proof/Machine/Registers.lean ====
section
/-!
DEFINITION. Registers.lean: the memory-mapped registers: where each stands, who reaches it, reads and writes (spec 08 R156, 09
R170, 12 R254, R268, 15 R303 to R310, R317, 20 R384, R385, 21 R401, R402, R450, 22 R451, 23 R431 to R446).
-/
namespace Sys2Proof.Machine

/-! ## Partition entries and bind records (spec 15 R305, R306) -/

def partQuads (w : Word) : BitVec 4 := w.extractLsb' 20 4
def partFirst (w : Word) : Nat := (w.extractLsb' 15 5).toNat
def partCount (w : Word) : Nat := (w.extractLsb' 9 6).toNat
def partCtx (w : Word) : Nat := (w.extractLsb' 24 6).toNat
/-- Two valid entries share a slot of a quadrant. -/
def partOverlap (a b : Word) : Bool :=
  partQuads a &&& partQuads b != 0 && decide (partFirst a < partFirst b + partCount b) && decide (partFirst b < partFirst a + partCount a)
def corePartWrite (core entry : Nat) (w : Word) (s : State) : State :=
  let x := s.core core
  let v := w &&& 0xFFFFFE00
  let clash := x.part.any fun e => e.1 != entry && e.2.getLsbD 31 && partOverlap e.2 v
  if v.getLsbD 31 && (v.getLsbD 30 != x.world || clash) then s.logDev 0 0xFF (unitOf 0 core) 0 (v.setWidth 64)
  else s.modCore core fun k => { k with part := Tab.put k.part entry v }
/-- Why a commit is refused; 0 for none. -/
def commitWhy (s : State) (c : Nat) (b : Bind) : Nat :=
  let p := Tab.get (s.core c).part b.part 0
  if !p.getLsbD 31 || partCtx p != b.ctx then 1
  else if b.quads &&& ~~~partQuads p != 0 then 2
  else if b.firstS < partFirst p ∨ b.firstS + b.numS > partFirst p + partCount p then 3
  else if (List.range b.numQ).any fun k =>
      decide (b.firstQ + k < Config.numQueues) && !((s.queue (b.firstQ + k)).en && (s.queue (b.firstQ + k)).ctx == b.ctx) then 4
  else if b.lo > b.hi then 5
  else if b.ctl.extractLsb' 21 11 != 0 || b.queues.extractLsb' 24 8 != 0 || b.slots.extractLsb' 17 15 != 0 ||
      !(decide (1 ≤ b.numS ∧ b.numS ≤ 32) && decide (1 ≤ b.teams ∧ b.teams ≤ 32) && decide (b.firstQ + b.numQ ≤ Config.numQueues) &&
        decide (b.firstS + b.numS ≤ 32)) then 6
  else 0
/-- Word 0 of a bind record written: the staged words take force with it. -/
def commitBind (core entry : Nat) (w : Word) (s : State) : State :=
  let o := Tab.get (s.core core).binds entry {}
  let b : Bind := { o with ctl := w, queues := o.stQueues, slots := o.stSlots }
  let why := if w.getLsbD 0 then commitWhy s core b else 0
  if why = 0 then s.modCore core fun k => { k with binds := Tab.put k.binds entry b }
  else s.modCore core fun k =>
    { k with binds := Tab.put k.binds entry { o with ctl := 0, queues := 0, slots := 0 }
             sltEnt := BitVec.ofNat 4 entry, sltWhy := BitVec.ofNat 8 why }
def sltEntCommit (core entry : Nat) (w : Word) (s : State) : State := commitBind core entry (w ||| 1) s
def sltEntRevoke (core entry : Nat) (w : Word) (s : State) : State := commitBind core entry (w &&& 0xFFFFFFFE) s
/-- A staged word of a bind record. -/
def stageBind (core entry : Nat) (second : Bool) (w : Word) (s : State) : State :=
  s.modCore core fun k =>
    let b := Tab.get k.binds entry {}
    { k with binds := Tab.put k.binds entry (if second then { b with stSlots := w } else { b with stQueues := w }) }
def sltStatRead (core : Nat) (s : State) : State :=
  let x := s.core core
  onBus (x.sltEnt.toNat * 256 + x.sltWhy.toNat) (s.modCore core fun k => { k with sltEnt := 0, sltWhy := 0 })
def trpCntRead (core : Nat) (s : State) : State := onBus (s.core core).trpCnt.toNat (s.modCore core fun k => { k with trpCnt := 0 })
def serrCntRead (core : Nat) (s : State) : State := onBus (s.core core).serrCnt.toNat (s.modCore core fun k => { k with serrCnt := 0 })

/-! ## The near-SRAM split and the cluster's registers -/

def coreL1 (s : State) (c : Nat) : Word :=
  let x := s.core c
  BitVec.ofNat 32 (x.l1Pend.isSome.toNat * 2 ^ 31 + x.l1Auto.toNat * 256 + x.l1Size)
def coreL1Write (core : Nat) (w : Word) (s : State) : State :=
  let n := (w.extractLsb' 0 3).toNat
  let auto := w.getLsbD 8
  let s1 := s.modCore core fun k => { k with l1Auto := auto }
  if n < 1 ∨ n > 4 then s1.logDev 0 0xFF (unitOf 0 core) 0 (w.setWidth 64)
  else if (teamsOn s core).isEmpty then setSplit core n s1
  else if auto then s1
  else s1.modCore core fun k => { k with l1Pend := some n }
def hlyAgeWrite (cluster : Nat) (w : Word) (s : State) : State :=
  if w.toNat < 1024 ∨ w.toNat > 2 ^ 20 then s.logDev 0 0xFF (unitOf 0 (8 * cluster)) 0 (w.setWidth 64)
  else s.modCluster cluster fun c => { c with age := w.toNat }
def hlyAvgWrite (cluster : Nat) (w : Word) (s : State) : State := s.modCluster cluster fun c => { c with avg := w.extractLsb' 0 2 }
def hlyVac (s : State) (cl : Nat) : Word :=
  let x := s.cluster cl
  BitVec.ofNat 32 (x.vacBusy.toNat * 2 ^ 31 + x.vacHold.toNat * 65536 + x.vacDone.toNat * 256 + x.vacCores.toNat)

/-! ## Launch queues and the debug block -/

def lqCfgWrite (queue : Nat) (w : Word) (s : State) : State :=
  let n := (w.extractLsb' 0 5).toNat
  if w.getLsbD 31 && !(decide (4 ≤ n ∧ n ≤ 16)) then s.logDev 0 0xFF (unitOf 4 queue) 0 (w.setWidth 64)
  else s.modQueue queue fun q => { q with cfg := w &&& 0x80FFC01F }
/-- A grid of the context is running. -/
def ctxRunning (s : State) (x : Nat) : Bool := s.work.grids.any fun e => e.2.ctx == x && e.2.state == 2
def dbgCtlWrite (context : Nat) (w : Word) (s : State) : State :=
  let d := (s.ctx context).blk
  let v := w &&& 0xFFFFFF1F
  let log := fun (s : State) => s.logDev 0 (BitVec.ofNat 8 context) 0 0 (w.setWidth 64)
  let turns := v.getLsbD 3 != d.ctl.getLsbD 3 || v.getLsbD 4 != d.ctl.getLsbD 4
  if !(s.ctx context).dbg then s
  else if v.getLsbD 3 && v.getLsbD 4 then log s
  else if turns && ctxRunning s context then
    (log s).modCtx context fun c => { c with blk := { c.blk with ctl := (v &&& ~~~0x18#32) ||| (d.ctl &&& 0x18) } }
  else
    s.modCtx context fun c =>
      { c with blk := { c.blk with
          ctl := v, rpos := if turns then 0 else c.blk.rpos
          nr := c.blk.nr && !turns, diverged := c.blk.diverged && !turns, recording := c.blk.recording && !turns } }
def dbgDropRead (context : Nat) (s : State) : State :=
  if !(s.ctx context).dbg then onBus 0 s
  else onBus (s.ctx context).blk.drop.toNat (s.modCtx context fun c => { c with blk := { c.blk with drop := 0 } })
def dbgRstat (d : Dbg) : Word := BitVec.ofNat 32 (d.recording.toNat * 2 ^ 31 + d.nr.toNat * 2 ^ 30 + d.diverged.toNat * 2 ^ 29)

/-! ## Where the registers stand (spec 21 R402, 23 R431, R434, R437, R444 to R446) -/

/-- The memory-mapped registers. -/
inductive Reg where
  | mxeStat (c : Nat) | mxeCtl (c : Nat) | cpeStat (c : Nat) | cpeCtl (c : Nat) | lcpStat (c : Nat) | lcpCtl (c : Nat)
  | trpCnt (c : Nat) | serrCnt (c : Nat) | coreL1 (c : Nat) | corePart (c j : Nat) | sltEnt (c k w : Nat) | sltStat (c : Nat)
  | hlyAge (cl : Nat) | hlyAvg (cl : Nat) | hlyVac (cl : Nat)
  | pvec (x : Nat) | uvec (x : Nat) | tfb (x : Nat)
  | dbgCtl (x : Nat) | dbgSmp (x : Nat) | dbgBpa (x k : Nat) | dbgBpo (x k : Nat) | dbgBuf (x : Nat) | dbgBufn (x : Nat)
  | dbgHead (x : Nat) | dbgTail (x : Nat) | dbgDrop (x : Nat) | dbgRlog (x : Nat) | dbgRlogn (x : Nat) | dbgRstat (x : Nat)
  | dbgRord (x : Nat) | dbgRcyc (x : Nat)
  | lqBase (n : Nat) | lqCfg (n : Nat) | lqHead (n : Nat) | lqTail (n : Nat)
  | phbMon (b k : Nat) | phbHtr (b k : Nat) | phbMap (b w : Nat) | phbStat (b : Nat) | phbCtl (b : Nat)
  | ifvChan (ch : Nat) | ifvPort (p : Nat) | ifvHost | bootStat
  | pwrCap | pwrStat | pwrPol | pwrMig
  | mbCmd (m : Nat) | mbStat (m : Nat) | mbArg (m k : Nat)
  | gdnStat | gdnCtl | gdnHb | gdnHbwin
deriving DecidableEq, Repr

/-- A register with its offset and its width in bytes. -/
structure RegAt where
  reg  : Reg
  at_  : Nat
  size : Nat := 4
/-- Element k of an array of registers that starts at an offset. -/
def arrayAt (off base n size : Nat) (mk : Nat → Reg) : Option RegAt :=
  if base ≤ off ∧ off < base + n * size then some ⟨mk ((off - base) / size), (off - base) / size * size + base, size⟩ else none
def coreReg (c off : Nat) : Option RegAt :=
  match off / 4 * 4 with
  | 0x000 => some ⟨.mxeStat c, 0x000, 4⟩
  | 0x004 => some ⟨.mxeCtl c, 0x004, 4⟩
  | 0x010 => some ⟨.cpeStat c, 0x010, 4⟩
  | 0x014 => some ⟨.cpeCtl c, 0x014, 4⟩
  | 0x018 => some ⟨.lcpStat c, 0x018, 4⟩
  | 0x01C => some ⟨.lcpCtl c, 0x01C, 4⟩
  | 0x020 => some ⟨.trpCnt c, 0x020, 4⟩
  | 0x024 => some ⟨.serrCnt c, 0x024, 4⟩
  | 0x030 => some ⟨.coreL1 c, 0x030, 4⟩
  | 0x300 => some ⟨.sltStat c, 0x300, 4⟩
  | _ =>
    (arrayAt off 0x100 4 4 fun j => .corePart c j).orElse fun _ => arrayAt off 0x200 64 4 fun k => .sltEnt c (k / 4) (k % 4)
def clusterReg (cl off : Nat) : Option RegAt :=
  match off / 4 * 4 with
  | 0 => some ⟨.hlyAge cl, 0, 4⟩
  | 4 => some ⟨.hlyAvg cl, 4, 4⟩
  | 8 => some ⟨.hlyVac cl, 8, 4⟩
  | _ => none
def ctxReg (x off : Nat) : Option RegAt :=
  match (arrayAt off 0 3 8 fun k => if k = 0 then .pvec x else if k = 1 then .uvec x else .tfb x).orElse fun _ =>
      (arrayAt off 0x140 8 8 fun k => .dbgBpa x k).orElse fun _ => (arrayAt off 0x180 8 4 fun k => .dbgBpo x k).orElse fun _ =>
        (arrayAt off 0x1A0 1 8 fun _ => .dbgBuf x).orElse fun _ => (arrayAt off 0x1B8 1 8 fun _ => .dbgRlog x).orElse fun _ =>
          arrayAt off 0x1D0 1 8 fun _ => .dbgRcyc x with
  | some r => some r
  | none =>
    match off / 4 * 4 with
    | 0x100 => some ⟨.dbgCtl x, 0x100, 4⟩
    | 0x104 => some ⟨.dbgSmp x, 0x104, 4⟩
    | 0x1A8 => some ⟨.dbgBufn x, 0x1A8, 4⟩
    | 0x1AC => some ⟨.dbgHead x, 0x1AC, 4⟩
    | 0x1B0 => some ⟨.dbgTail x, 0x1B0, 4⟩
    | 0x1B4 => some ⟨.dbgDrop x, 0x1B4, 4⟩
    | 0x1C0 => some ⟨.dbgRlogn x, 0x1C0, 4⟩
    | 0x1C4 => some ⟨.dbgRstat x, 0x1C4, 4⟩
    | 0x1C8 => some ⟨.dbgRord x, 0x1C8, 4⟩
    | _ => none
def queueReg (n off : Nat) : Option RegAt :=
  match off / 4 * 4 with
  | 0x00 => some ⟨.lqBase n, 0x00, 8⟩
  | 0x04 => some ⟨.lqBase n, 0x00, 8⟩
  | 0x08 => some ⟨.lqCfg n, 0x08, 4⟩
  | 0x0C => some ⟨.lqHead n, 0x0C, 4⟩
  | 0x10 => some ⟨.lqTail n, 0x10, 4⟩
  | _ => none
def bankReg (b off : Nat) : Option RegAt :=
  (arrayAt off 0x00 17 4 fun k => .phbMon b k).orElse fun _ => (arrayAt off 0x48 17 4 fun k => .phbHtr b k).orElse fun _ =>
    (arrayAt off 0x90 3 4 fun w => .phbMap b w).orElse fun _ =>
      arrayAt off 0xA0 2 4 fun k => if k = 0 then .phbStat b else .phbCtl b
def boxReg (m off : Nat) : Option RegAt :=
  match off / 4 * 4 with
  | 0 => some ⟨.mbCmd m, 0, 4⟩
  | 4 => some ⟨.mbStat m, 4, 4⟩
  | _ => arrayAt off 8 3 8 fun k => .mbArg m k
def shift (base : Nat) (r : Option RegAt) : Option RegAt := r.map fun x => { x with at_ := base + x.at_ }
/-- A block of n equal parts from an offset. -/
def inBlock (off base part n : Nat) (k : Nat → Nat → Option RegAt) : Option RegAt :=
  if base ≤ off ∧ off < base + part * n then shift (base + (off - base) / part * part) (k ((off - base) / part) ((off - base) % part)) else none
/-- The register at an MMIO offset. -/
def regAt (off : Nat) : Option RegAt :=
  if off < 0x800000 then inBlock off 0 0x10000 128 coreReg
  else if off < 0x1000000 then inBlock off 0x800000 0x1000 16 clusterReg
  else if off < 0x2000000 then inBlock off 0x1000000 0x1000 64 ctxReg
  else if off < 0x3000000 then inBlock off 0x2000000 0x20 4096 queueReg
  else if off < 0x3100000 then inBlock off 0x3000000 0x100 256 bankReg
  else if off < 0x3200000 then inBlock off 0x3100000 0x100 128 fun ch o => arrayAt o 0 1 4 fun _ => .ifvChan ch
  else if off < 0x3300000 then
    inBlock off 0x3200000 0x10 1 fun _ o => arrayAt o 0 4 4 fun k => if k = 0 then .pwrCap else if k = 1 then .pwrStat else if k = 2 then .pwrPol else .pwrMig
  else if off < 0x3400000 then inBlock off 0x3300000 0x100 68 boxReg
  else if off < 0x3500000 then
    inBlock off 0x3400000 0x10 1 fun _ o => arrayAt o 0 4 4 fun k => if k = 0 then .gdnStat else if k = 1 then .gdnCtl else if k = 2 then .gdnHb else .gdnHbwin
  else if off < 0x3600000 then inBlock off 0x3500000 0x40 64 fun p o => arrayAt o 0 1 4 fun _ => .ifvPort p
  else if off < 0x3700000 then inBlock off 0x3600000 4 1 fun _ o => arrayAt o 0 1 4 fun _ => .ifvHost
  else inBlock off 0x3700000 4 1 fun _ o => arrayAt o 0 1 4 fun _ => .bootStat

/-! ## Who reaches a register (spec 21 R401, R402, log entry 36) -/

/-- The function that owns a context's launch queues. -/
def ownsCtx (s : State) (k x : Nat) : Bool := (s.ctx x).fn == some k
/-- A host function reaches a queue of its contexts; a secure function those of secure contexts only (spec 19 R375). -/
def ownsQueue (s : State) (k n : Nat) : Bool :=
  let x := (s.queue n).ctx
  ownsCtx s k x && (!s.worlds.fns.contains k || (s.ctx x).world)
def reachCore (s : State) (a : Agent) (c : Nat) : Bool :=
  match a with
  | .ctx x => (teamsOn s c).any fun e => (s.grid e.2.grid).ctx == x
  | .mgmt => true
  | .halyard cl => c / 8 == cl
  | _ => false
def reachCtx (s : State) (a : Agent) (x : Nat) : Bool :=
  match a with
  | .ctx y => x == y
  | .host k => ownsCtx s k x
  | _ => false
/-- An agent other than the host, whose accesses take another path. -/
def device : Agent → Bool
  | .host _ => false
  | _ => true
def reachDbg (s : State) (a : Agent) (x : Nat) : Bool := reachCtx s a x && (s.ctx x).dbg
def reachRead (s : State) (a : Agent) (r : Reg) : Bool :=
  match r with
  | .mxeStat c => reachCore s a c
  | .mxeCtl _ => false
  | .cpeStat c => reachCore s a c
  | .cpeCtl _ => false
  | .lcpStat c => reachCore s a c
  | .lcpCtl _ => false
  | .trpCnt c => reachCore s a c
  | .serrCnt c => reachCore s a c
  | .coreL1 c => reachCore s a c
  | .corePart c _ => reachCore s a c || (match a with | .halyard _ => true | _ => false)
  | .sltEnt c _ _ => reachCore s a c
  | .sltStat c => reachCore s a c
  | .pvec x => reachCtx s a x
  | .uvec x => reachCtx s a x
  | .tfb x => reachCtx s a x
  | .dbgCtl x => reachDbg s a x
  | .dbgSmp x => reachDbg s a x
  | .dbgBpa x _ => reachDbg s a x
  | .dbgBpo x _ => reachDbg s a x
  | .dbgBuf x => reachDbg s a x
  | .dbgBufn x => reachDbg s a x
  | .dbgHead x => reachDbg s a x
  | .dbgTail x => reachDbg s a x
  | .dbgDrop x => reachDbg s a x
  | .dbgRlog x => reachDbg s a x
  | .dbgRlogn x => reachDbg s a x
  | .dbgRstat x => reachDbg s a x
  | .dbgRord x => reachDbg s a x
  | .dbgRcyc x => reachDbg s a x
  | .lqBase n => reachQueue n
  | .lqCfg n => reachQueue n
  | .lqHead n => reachQueue n
  | .lqTail _ => false
  | .phbMon _ _ => reachBank
  | .phbHtr _ _ => reachBank
  | .phbMap _ _ => reachBank
  | .phbStat _ => reachBank
  | .phbCtl _ => false
  | .mbCmd m => reachBox m
  | .mbStat m => reachBox m
  | .mbArg m _ => reachBox m
  | .gdnCtl => a == .guidon
  | _ => device a
where
  reachQueue (n : Nat) : Bool :=
    match a with
    | .mgmt => true
    | .host k => ownsQueue s k n
    | _ => false
  reachBank : Bool :=
    match a with
    | .mgmt => true
    | .ctx x => (s.ctx x).svc
    | _ => false
  reachBox (m : Nat) : Bool :=
    match a with
    | .host k => m == k
    | .ctx x => m == 4 + x && (s.ctx x).svc
    | _ => false
def reachWrite (s : State) (a : Agent) (r : Reg) : Bool :=
  match r with
  | .mxeCtl c => reachCore s a c
  | .cpeCtl c => reachCore s a c
  | .lcpCtl c => reachCore s a c
  | .coreL1 c => a == .mgmt || a == .halyard (c / 8)
  | .corePart _ _ => a == .mgmt
  | .sltEnt c _ _ => a == .halyard (c / 8)
  | .hlyAge cl => a == .mgmt || a == .halyard cl
  | .hlyAvg cl => a == .mgmt || a == .halyard cl
  | .hlyVac cl => a == .mgmt || a == .halyard cl
  | .pvec x => reachCtx s a x
  | .uvec x => reachCtx s a x
  | .tfb x => reachCtx s a x
  | .dbgCtl x => reachDbg s a x
  | .dbgSmp x => reachDbg s a x
  | .dbgBpa x _ => reachDbg s a x
  | .dbgBpo x _ => reachDbg s a x
  | .dbgBuf x => reachDbg s a x
  | .dbgBufn x => reachDbg s a x
  | .dbgTail x => reachDbg s a x
  | .dbgRlog x => reachDbg s a x
  | .dbgRlogn x => reachDbg s a x
  | .lqBase _ => a == .mgmt
  | .lqCfg _ => a == .mgmt
  | .lqTail n => (match a with | .host k => ownsQueue s k n | _ => false)
  | .phbHtr b _ => reachRead s a (.phbStat b)
  | .phbMap b _ => reachRead s a (.phbStat b)
  | .phbCtl b => reachRead s a (.phbStat b)
  | .pwrCap => power
  | .pwrPol => power
  | .pwrMig => power
  | .mbCmd m => reachRead s a (.mbCmd m)
  | .mbArg m _ => reachRead s a (.mbCmd m)
  | .gdnCtl => a == .guidon
  | .gdnHb => (match a with | .ctx _ => true | _ => false)
  | .gdnHbwin => a == .guidon
  | _ => false
where
  power : Bool := match a with | .mgmt => true | .halyard _ => true | _ => false

/-! ## Reads and writes -/

def ifv (p : Port) : Nat := p.loc.toNat * 2 ^ 24 + p.peer.toNat * 2 ^ 16 + p.agreed.toNat * 2 ^ 8 + p.st.toNat
/-- The value of a register; a read of some clears them. -/
def regValue (r : Reg) (s : State) : Nat :=
  let d := fun (x : Nat) => (s.ctx x).blk
  match r with
  | .mxeStat c => (mxeStat s c).toNat
  | .cpeStat c => (cpeStat s c).toNat
  | .lcpStat c => (lcpStat s c).toNat
  | .trpCnt c => (s.core c).trpCnt.toNat
  | .serrCnt c => (s.core c).serrCnt.toNat
  | .coreL1 c => (coreL1 s c).toNat
  | .corePart c j => (Tab.get (s.core c).part j 0).toNat
  | .sltEnt c k w =>
    let b := Tab.get (s.core c).binds k {}
    (if w = 0 then b.ctl else if w = 1 then b.queues else if w = 2 then b.slots else 0).toNat
  | .sltStat c => (s.core c).sltEnt.toNat * 256 + (s.core c).sltWhy.toNat
  | .hlyAge cl => (s.cluster cl).age
  | .hlyAvg cl => (s.cluster cl).avg.toNat
  | .hlyVac cl => (hlyVac s cl).toNat
  | .pvec x => (s.ctx x).pvec.toNat
  | .uvec x => (s.ctx x).uvec.toNat
  | .tfb x => (s.ctx x).tfb.toNat
  | .dbgCtl x => (d x).ctl.toNat
  | .dbgSmp x => (d x).smp.toNat
  | .dbgBpa x k => ((d x).bpa.getD k 0).toNat
  | .dbgBpo x k => ((d x).bpo.getD k 0).toNat
  | .dbgBuf x => (d x).buf.toNat
  | .dbgBufn x => (d x).bufn.toNat
  | .dbgHead x => (d x).head.toNat
  | .dbgTail x => (d x).tail.toNat
  | .dbgDrop x => (d x).drop.toNat
  | .dbgRlog x => (d x).rlog.toNat
  | .dbgRlogn x => (d x).rlogn.toNat
  | .dbgRstat x => (dbgRstat (d x)).toNat
  | .dbgRord x => if (d x).nr then (d x).rord.toNat else 0
  | .dbgRcyc x => if (d x).nr then (d x).rcyc.toNat else 0
  | .lqBase n => (s.queue n).base.toNat
  | .lqCfg n => (s.queue n).cfg.toNat
  | .lqHead n => (s.queue n).head.toNat
  | .phbMon b k => (BitVec.ofInt 12 ((bankOf s b).err k)).toNat
  | .phbHtr b k => (bankOf s b).code k
  | .phbMap b w => ((bankOf s b).map.getD w 0).toNat
  | .phbStat b => (phbStat s b).toNat
  | .ifvChan ch => ifv (Tab.get s.fabric.chanIfv ch {})
  | .ifvPort p => ifv (port s p)
  | .ifvHost => ifv s.fabric.hostIfv
  | .bootStat => (bootStat s).toNat
  | .pwrCap => s.power.cap
  | .pwrStat => (pwrStat s).toNat
  | .pwrPol => s.power.fabFirst.toNat
  | .pwrMig => s.power.mig.toNat
  | .mbCmd m => (boxOf s m).cmd.toNat
  | .mbStat m => (boxOf s m).stat.toNat
  | .mbArg m k => ((boxOf s m).args.getD k 0).toNat
  | .gdnStat => (gdnStat s).toNat
  | .gdnCtl => (gdnStat s).toNat % 2 ^ 29 / 2 ^ 22 * 2 ^ 22
  | .gdnHb => s.guidon.hb.toNat
  | .gdnHbwin => s.guidon.hbwin.toNat
  | _ => 0
/-- What a read of a register clears. -/
def regCleared (r : Reg) (s : State) : State :=
  match r with
  | .trpCnt c => { trpCntRead c s with bus := s.bus }
  | .serrCnt c => { serrCntRead c s with bus := s.bus }
  | .sltStat c => { sltStatRead c s with bus := s.bus }
  | .dbgDrop x => { dbgDropRead x s with bus := s.bus }
  | .phbStat b => { phbStatRead b s with bus := s.bus }
  | _ => s
def mxeCtl (c : Nat) (w : Word) (s : State) : State :=
  let s1 := if w.getLsbD 3 then mxeCtlClrst c s else s
  if w.getLsbD 2 then mxeCtlAbort c s1 else if w.getLsbD 1 then mxeCtlSkip c s1 else if w.getLsbD 0 then mxeCtlResume c s1 else s1
def cpeCtl (c : Nat) (w : Word) (s : State) : State :=
  if w.getLsbD 1 then cpeCtlFail c (w.extractLsb' 8 8) s else if w.getLsbD 0 then cpeCtlResume c s else s
def lcpCtl (c : Nat) (w : Word) (s : State) : State :=
  if w.getLsbD 2 then lcpCtlAbort c s else if w.getLsbD 1 then lcpCtlSkip c s else if w.getLsbD 0 then lcpCtlResume c s else s
def phbCtl (b : Nat) (w : Word) (s : State) : State :=
  let s1 := if w.getLsbD 31 then phbCtlMapgo b s else s
  if w.getLsbD 30 then phbCtlRetrain b s1 else s1
/-- A whole register written. -/
def regSet (a : Agent) (r : Reg) (v : DWord) (s : State) : State :=
  let w := loW v
  let dbg := fun (x : Nat) (g : Dbg → Dbg) => s.modCtx x fun c => { c with blk := g c.blk }
  match r with
  | .mxeCtl c => mxeCtl c w s
  | .cpeCtl c => cpeCtl c w s
  | .lcpCtl c => lcpCtl c w s
  | .coreL1 c => coreL1Write c w s
  | .corePart c j => corePartWrite c j w s
  | .sltEnt c k 0 => commitBind c k w s
  | .sltEnt c k 1 => stageBind c k false w s
  | .sltEnt c k 2 => stageBind c k true w s
  | .hlyAge cl => hlyAgeWrite cl w s
  | .hlyAvg cl => hlyAvgWrite cl w s
  | .hlyVac cl => hlyVacWrite cl w s
  | .pvec x => s.modCtx x fun c => { c with pvec := v &&& 0x81FFFFFFFFFFFFFF }
  | .uvec x => s.modCtx x fun c => { c with uvec := v &&& 0x81FFFFFFFFFFFFFF }
  | .tfb x => s.modCtx x fun c => { c with tfb := v &&& 0x01FFFFFFFFFFFFC0 }
  | .dbgCtl x => dbgCtlWrite x w s
  | .dbgSmp x => dbg x fun d => { d with smp := w }
  | .dbgBpa x k => dbg x fun d => { d with bpa := d.bpa.setIfInBounds k (v &&& 0x81FFFFFFFFFFFFFF) }
  | .dbgBpo x k => dbg x fun d => { d with bpo := d.bpo.setIfInBounds k w }
  | .dbgBuf x => dbg x fun d => { d with buf := v &&& 0x01FFFFFFFFFFFFC0 }
  | .dbgBufn x => dbg x fun d => { d with bufn := w &&& 31 }
  | .dbgTail x => dbg x fun d => { d with tail := w }
  | .dbgRlog x => dbg x fun d => { d with rlog := v &&& 0x01FFFFFFFFFFFFC0 }
  | .dbgRlogn x => dbg x fun d => { d with rlogn := w &&& 31 }
  | .lqBase n => s.modQueue n fun q => { q with base := v &&& 0x01FFFFFFFFFFFFC0 }
  | .lqCfg n => lqCfgWrite n w s
  | .lqTail n => lqTailWrite n w s
  | .phbHtr b k => setHeater b k (w.extractLsb' 0 10) s
  | .phbMap b k => setBank b { bankOf s b with staged := (bankOf s b).staged.setIfInBounds k (w &&& 0x3FFFFFFF) } s
  | .phbCtl b => phbCtl b w s
  | .pwrCap => pwrCapWrite w s
  | .pwrPol => s.modPower fun p => { p with fabFirst := w.getLsbD 0 }
  | .pwrMig => s.modPower fun p => { p with mig := w.extractLsb' 0 8 }
  | .mbCmd m => mbCommand m w s
  | .mbArg m k => setBox m { boxOf s m with args := (boxOf s m).args.setIfInBounds k v } s
  | .gdnCtl => gdnCtlWrite w s
  | .gdnHb => (match a with | .ctx x => gdnHbWrite x w s | _ => s)
  | .gdnHbwin => gdnHbwinWrite w s
  | _ => s

/-! ## Accesses (spec 21 R450) -/

/-- What an access of a size at an offset names: a register, and which half of a wide one, if it is an access the register
takes; none where no register lies there. -/
inductive Named where
  | whole (r : Reg)
  | half (r : Reg) (high : Bool)
  | bad
  | nothing
def named (off size : Nat) : Named :=
  match regAt off with
  | some r =>
    if off == r.at_ && size == r.size then .whole r.reg
    else if r.size == 8 && size == 4 && (off == r.at_ || off == r.at_ + 4) then .half r.reg (off != r.at_)
    else .bad
  | none => .nothing
/-- The MMIO offset of an agent's access; the host's go through its function's BAR0 to three blocks alone. -/
def agentOffset (a : Agent) (off : Nat) : Option Nat :=
  match a with
  | .host _ =>
    let o := off + 0x1000000
    if o < 0x3000000 ∨ (0x3300000 ≤ o ∧ o < 0x3400000) then some o else none
  | _ => some off
/-- A read: the value, and the state it leaves. -/
def regRead (a : Agent) (off size : Nat) (s : State) : Nat × State :=
  match agentOffset a off with
  | none => (0, s)
  | some o =>
    match named o size with
    | .whole r => if reachRead s a r then (regValue r s, regCleared r s) else (0, s)
    | .half r high => if reachRead s a r then (if high then regValue r s / 2 ^ 32 else regValue r s % 2 ^ 32, s) else (0, s)
    | .bad => (0, s.logDev 0 0xFF 0 (BitVec.ofNat 64 o) 0)
    | .nothing => (0, s)
def regWrite (a : Agent) (off size : Nat) (v : DWord) (s : State) : State :=
  match agentOffset a off with
  | none => s
  | some o =>
    match named o size with
    | .whole r => if reachWrite s a r then regSet a r v s else s
    | .half r high =>
      if reachWrite s a r then
        let old : DWord := BitVec.ofNat 64 (regValue r s)
        regSet a r (if high then loW v ++ loW old else hiW old ++ loW v) s
      else s
    | .bad => s.logDev 0 0xFF 0 (BitVec.ofNat 64 o) 0
    | .nothing => s
def registerWrite (agent : Agent) (offset size : Nat) (data : DWord) (s : State) : State := regWrite agent offset size data s

/-! Each answers the next state that the definition of its name gives. -/
def execCorePartWrite (core : Nat) (entry : Nat) (w : Word) (s : State) : Host.Outcome State Fault Refusal := .next (corePartWrite core entry w s)
def execSltEntCommit (core : Nat) (entry : Nat) (w : Word) (s : State) : Host.Outcome State Fault Refusal := .next (sltEntCommit core entry w s)
def execSltEntRevoke (core : Nat) (entry : Nat) (w : Word) (s : State) : Host.Outcome State Fault Refusal := .next (sltEntRevoke core entry w s)
def execSltStatRead (core : Nat) (s : State) : Host.Outcome State Fault Refusal := .next (sltStatRead core s)
def execTrpCntRead (core : Nat) (s : State) : Host.Outcome State Fault Refusal := .next (trpCntRead core s)
def execSerrCntRead (core : Nat) (s : State) : Host.Outcome State Fault Refusal := .next (serrCntRead core s)
def execCoreL1Write (core : Nat) (w : Word) (s : State) : Host.Outcome State Fault Refusal := .next (coreL1Write core w s)
def execHlyAgeWrite (cluster : Nat) (w : Word) (s : State) : Host.Outcome State Fault Refusal := .next (hlyAgeWrite cluster w s)
def execHlyAvgWrite (cluster : Nat) (w : Word) (s : State) : Host.Outcome State Fault Refusal := .next (hlyAvgWrite cluster w s)
def execLqCfgWrite (queue : Nat) (w : Word) (s : State) : Host.Outcome State Fault Refusal := .next (lqCfgWrite queue w s)
def execDbgCtlWrite (context : Nat) (w : Word) (s : State) : Host.Outcome State Fault Refusal := .next (dbgCtlWrite context w s)
def execDbgDropRead (context : Nat) (s : State) : Host.Outcome State Fault Refusal := .next (dbgDropRead context s)
def execRegisterWrite (agent : Agent) (offset : Nat) (size : Nat) (data : DWord) (s : State) : Host.Outcome State Fault Refusal := .next (registerWrite agent offset size data s)
end Sys2Proof.Machine
end

