-- ==== Sys2Proof/Machine/Loads.lean ====
section
/-!
DEFINITION. Loads.lean: OP 0x60 to 0x67, 0x69 to 0x6D, 0x6F, 0x70 and 0x73: loads, stores, prefetch, atomics, reservations,
ACQ, REL and WAITC (spec 09 R177 to R181, 11 R215 to R232, R235, R236, 13 R283, R285).
-/
namespace Sys2Proof.Machine

/-! ## Data of a register operand (spec 11 R217) -/

/-- What a load of n bytes gives its destination. -/
def loadOut (n : Nat) (sx : Bool) (bs : List Byte) : LaneOut :=
  let x := leNat bs
  match n with
  | 8 => val64 (BitVec.ofNat 64 x)
  | 16 => .many ((List.range 4).map fun k => BitVec.ofNat 32 (x / 2 ^ (32 * k)))
  | 4 => val32 (BitVec.ofNat 32 x)
  | _ => val32 (BitVec.ofInt 32 (typed (8 * n) (!sx) (BitVec.ofNat 64 x)))
/-- The bytes that a store takes from its registers. -/
def storeBytes (t : Thread) (o : Opnd) (n : Nat) : List Byte :=
  match o with
  | .reg r => natLe n (leNat ((t.regs r.toNat 4).flatMap fun w => natLe 4 w.toNat))
  | _ => List.replicate n (0 : Byte)
/-- Bytes of a load or store. -/
def szBytes (f : Fields) : Nat := 2 ^ szOf f
def loadOf (f : Fields) (bs : List Byte) : LaneOut := loadOut (szBytes f) (f.fn.getLsbD 3) bs
/-- A 4-byte or 8-byte operand as a number. -/
def regNat (t : Thread) (o : Opnd) (n : Nat) : Nat := if n = 8 then (reg64 t o).toNat else (reg32 t o).toNat
def isAcq (f : Fields) : Bool := f.fn.getLsbD 6
def isRel (f : Fields) : Bool := f.fn.getLsbD 7

/-! ## The coalescer (spec 09 R177) -/

/-- A line request: the sectors and bytes of a line that an instruction accesses. -/
structure LineReq where
  line    : Nat
  swm     : Bool
  sectors : BitVec 4
  bytes   : BitVec 256
deriving DecidableEq, Repr
/-- The order in which accesses are issued: those of cached pages by line, then those of UNC pages alone, each in ascending
t.hidx. -/
def requestOrder (ps : List (Lane × Xlat)) : List (Lane × Xlat) :=
  sortBy (fun e => lineOf e.2.pa) (ps.filter fun e => cached e.2.mode) ++ ps.filter fun e => !cached e.2.mode
/-- The line requests of accesses of n bytes, in ascending line address. -/
def lineRequests (n : Nat) (ps : List (Lane × Xlat)) : List LineReq :=
  (dedup ((requestOrder ps).map fun e => (lineOf e.2.pa, e.2.mode == 1))).map fun k =>
    let mine := ps.filter fun e => (lineOf e.2.pa, e.2.mode == 1) == k
    { line := k.1, swm := k.2
      sectors := mine.foldl (fun m e => m ||| sectorBit e.2.pa) 0
      bytes := mine.foldl (fun m e => m ||| byteMask (e.2.pa % 256) n) 0 }
/-- The sectors of line requests, for the miss-status entries. -/
def LineReq.asks (r : LineReq) : List (Nat × Bool) :=
  ((List.range 4).filter fun k => r.sectors.getLsbD k).map fun k => (r.line + 64 * k, r.swm)

/-! ## Checks and waits of a whole instruction -/

/-- A word in an SWM or UNC page is no object: ordering that names it is a FENCE (spec 10 R194). -/
def fenced (ps : List (Lane × Xlat)) : Bool := ps.any fun e => e.2.mode != 0
/-- The ordering sides of an instruction wait for remote accesses of its threads. -/
def orderWait (f : Fields) (acq rel : Bool) (ps : List (Lane × Xlat)) (s : State) : Bool :=
  (s.execLanes f).any fun l => (rel && releaseWaits s l.id f.scope) || ((acq || rel) && fenced ps && remoteOpen s l.id)
/-- The release side before the accesses. -/
def releaseBefore (f : Fields) (rel : Bool) (ps : List (Lane × Xlat)) (s : State) : State :=
  if !rel then s
  else if fenced ps then fenceSides s.hereCore s.hereCtx f.scope s else releaseSide s.hereCore f.scope s
/-- Whether an access goes through the issuing core's L1. -/
def viaL1 (x : Xlat) : Bool := cached x.mode && !isRemote x.pa && !isMmio x.pa
/-- An instruction on a global address of each executing thread: every check, then the waits of its ordering, then the accesses
on lines that are settled. -/
def withGlobal (f : Fields) (need : Need) (n : Nat) (acq rel : Bool) (act : List (Lane × Xlat) → State → State) (s : State) : State :=
  let ls := byHidx (s.execLanes f)
  let p := splitChecks (ls.map fun l => (l, checkGlobal s (whoOf s l.th) need n (globalEa f l.th), globalEa f l.th))
  let s1 := ls.foldl (fun s l => noteWalk (whoOf s l.th) (globalEa f l.th) s) s
  if ls.isEmpty then advance s
  else if !p.1.isEmpty then memTrap f p.1 s1
  else if orderWait f acq rel p.2 s1 then waitAll f (.remote Config.paSize) s1
  else act (requestOrder p.2) (settleAll ((p.2.filter fun e => viaL1 e.2).map fun e => e.2.pa) s1)
/-- A load's sector is valid in the L1, has just arrived, or all its bytes are the core's own SWM bytes. -/
def sectorHit (s : State) (c : Nat) (x : Xlat) (n : Nat) : Bool :=
  (s.core c).arrived.contains (sectorOf x.pa) ||
    match l1Line s c (lineOf x.pa) with
    | none => false
    | some l =>
      match l.st with
      | .swm => x.mode == 1 && (l.valid.getLsbD (x.pa / 64 % 4) || l.mask &&& byteMask (x.pa % 256) n == byteMask (x.pa % 256) n)
      | .b => false
      | _ => x.mode == 0 && l.valid.getLsbD (x.pa / 64 % 4)
/-- The instruction takes the miss-status entries it needs, all at once, or waits for them (spec 09 R179). -/
def missWait (f : Fields) (needs : List (Nat × Bool)) (s : State) : State :=
  let c := s.hereCore
  let new := newMisses s c needs
  let go := new.isEmpty || ((missWaiters s c).isEmpty && decide ((s.core c).miss.length + new.length ≤ 256))
  let ex := (s.execLanes f).map Lane.id
  let s1 := waitAll f (.miss (if go then 0 else new.length)) (if go then takeMisses c f.hint false new s else s)
  s1.modThreads ex fun t => { t with asks := needs, askHint := f.hint, askAt := s.clock }
/-- The wait for the sectors that line requests lack; none when they lack none. -/
def sectorWait (f : Fields) (n : Nat) (ps : List (Lane × Xlat)) (s : State) : Option State :=
  let needs := (lineRequests n (ps.filter fun e => viaL1 e.2 && !sectorHit s s.hereCore e.2 n)).flatMap LineReq.asks
  if needs.isEmpty then none else some (missWait f needs s)
/-- The wait of a load for missing sectors; none when it can read. -/
def readWait (f : Fields) (n : Nat) (ps : List (Lane × Xlat)) (s : State) : Option State := sectorWait f n ps s
/-- Accesses that write a tracked copy in the L1 need its sectors there; a byte-masked SWM copy, a partial, a far access and a
stream access to a line that the L1 lacks take no data, and no miss-status entry (spec 09 R176, R179, R185). -/
def needsData (f : Fields) (near : State → Lane → Xlat → Bool) (s : State) (e : Lane × Xlat) : Bool :=
  e.2.mode == 0 && near s e.1 e.2 && !streams s s.hereCore (lineOf e.2.pa) f.hint
/-- The wait of a write or RMW; none when it can proceed. -/
def storeWait (f : Fields) (n : Nat) (near : State → Lane → Xlat → Bool) (ps : List (Lane × Xlat)) (s : State) : Option State :=
  match ps.findSome? fun e => if isMmio e.2.pa || isRemote e.2.pa then none else writeWait s s.hereCore e.2.mode e.2.pa with
  | some p => some (waitAll f p (noteSnoop p s))
  | none => sectorWait f n (ps.filter (needsData f near s)) s

/-! ## One access -/

/-- What a lane's access comes to. -/
inductive Got where
  | done (bs : List Byte) (bad : Bool)
  | waits (p : Park)
  | fails (cause : Byte)
/-- A request that a thread waits on, or that went on its way; no open flow answers as a timeout does (log entry 27). -/
def askedFor (wait : Bool) (line : Nat) (r : Sent) (s : State) : Got × State :=
  match r with
  | .ok s1 => (if wait then .waits (.remote line) else .done [] false, s1)
  | .noFlow => (.fails 0x59, s)
  | .full => (.waits (.remote Config.paSize), s)
/-- The answer that a thread holds, taken. -/
def takeReply (t : Nat) (s : State) : State := s.modThread t fun y => { y with reply := none, batch := none }
/-- An access whose answer the thread holds already, or the access itself. An answer to a request for a line holds its bytes. -/
def orReply (t n : Nat) (x : Xlat) (k : State → Got × State) (s : State) : Got × State :=
  match (s.thread t).reply with
  | some r =>
    let v := if isRemote x.pa && x.mode == 0 then r.data.toNat / 2 ^ (8 * (x.pa % 256)) else r.data.toNat
    (.done (natLe n v) r.bad, takeReply t s)
  | none => k s
/-- The same for an RMW, whose answer is its old value; the new value enters a leased copy (spec 13 R285). -/
def orOldValue (t n : Nat) (x : Xlat) (g : Nat → Option Nat) (k : State → Got × State) (s : State) : Got × State :=
  match (s.thread t).reply with
  | some r =>
    let s1 := takeReply t s
    (.done (natLe n r.value.toNat) r.bad,
      match g r.value.toNat with | some v => if isRemote x.pa then updateLease x.pa (natLe n v) s1 else s1 | none => s1)
  | none => k s
/-- A read of remote memory: a leased copy, which the L1 takes too (spec 09 R184), or a request. -/
def remoteRead (hint : BitVec 2) (t n : Nat) (x : Xlat) (s : State) : Got × State :=
  let line := lineOf x.pa
  let th := s.thread t
  let ctx := s.ctxOf th
  let c := s.coreOf th
  if mayOvertake s t line then (.waits (.remote Config.paSize), s)
  else if x.mode == 0 then
    match leaseLive s ctx line with
    | some l =>
      (.done (natLe n (l.bytes.toNat / 2 ^ (8 * (x.pa % 256)))) false,
        if streams s c line hint then l2Touch line hint 0 0 s else (placeLine c line .s hint (sectorBit x.pa) 0 s).getD s)
    | none => askedFor true line (askLease ctx line (some t) s) s
  else askedFor true line (requestWait ctx (blankPacket x.pa n) t s) s
def remoteStore (t : Nat) (x : Xlat) (bs : List Byte) (s : State) : Got × State :=
  if mayOvertake s t (lineOf x.pa) then (.waits (.remote Config.paSize), s)
  else askedFor false 0 (sendWrite (s.ctxOf (s.thread t)) x.pa bs (some t) s) s
/-- An RMW sent to remote memory: what was asked about its line before is stale, and where no old value comes back, the leased
copy with it. -/
def remoteRmw (t n : Nat) (x : Xlat) (op : Nat) (b c : Nat) (wait : Bool) (s : State) : Got × State :=
  let line := lineOf x.pa
  if mayOvertake s t line then (.waits (.remote Config.paSize), s)
  else
    let p := { blankPacket x.pa n with typ := 4, op := BitVec.ofNat 4 op, b := BitVec.ofNat 64 b, c := BitVec.ofNat 64 c }
    let ctx := s.ctxOf (s.thread t)
    match if wait then requestWait ctx p t s else request ctx p (some t) s with
    | .ok s1 => askedFor wait line (.ok (if wait then staleAsks line s1 else expireLease line (staleAsks line s1))) s
    | r => askedFor wait line r s
/-- Bytes as a core reads them: its own SWM bytes over the home's. -/
def coreRead (c n : Nat) (x : Xlat) (s : State) : List Byte × State :=
  let r := farRead x.pa n s
  match l1Line r.2 c (lineOf x.pa) with
  | some l =>
    if l.st == .swm then
      (r.1.zipIdx.map fun e =>
        let k := x.pa % 256 + e.2
        if l.mask.getLsbD k then l.bytes.extractLsb' (8 * k) 8 else e.1, r.2)
    else r
  | none => r
/-- One read of a thread. -/
def readOne (hint : BitVec 2) (l : Lane) (n : Nat) (x : Xlat) (s : State) : Got × State :=
  orReply l.id n x (fun s =>
    if isRemote x.pa then remoteRead hint l.id n x s
    else if isMmio x.pa then
      let r := regRead (.ctx (s.ctxOf l.th)) (x.pa % 2 ^ 48) n s
      (.done (natLe n r.1) false, r.2)
    else
      let c := s.coreOf l.th
      let r := coreRead c n x s
      (.done r.1 (poisoned s x.pa), if cached x.mode && (l1Line r.2 c (lineOf x.pa)).isSome then touchHint c (lineOf x.pa) hint r.2 else r.2)) s
/-- A write or RMW of a lane to local memory, once the L1 has room and the host has answered; an earlier lane may have taken the
last write-back entry. -/
def afterWait (c : Nat) (x : Xlat) (k : State → Got × State) (s : State) : Got × State :=
  match writeWait s c x.mode x.pa with
  | some p => (.waits p, noteSnoop p s)
  | none => k s
/-- One store of a thread. -/
def writeOne (hint : BitVec 2) (l : Lane) (x : Xlat) (bs : List Byte) (s : State) : Got × State :=
  if isRemote x.pa then remoteStore l.id x bs s
  else if isMmio x.pa then (.done [] false, regWrite (.ctx (s.ctxOf l.th)) (x.pa % 2 ^ 48) bs.length (BitVec.ofNat 64 (leNat bs)) s)
  else afterWait (s.coreOf l.th) x (fun s => (.done [] false, storeOne (s.coreOf l.th) l.id x.mode hint x.pa bs s)) s
/-- One RMW of a thread, whose packet carries op, b and c; a poisoned word is not written. -/
def rmwLane (hint : BitVec 2) (l : Lane) (x : Xlat) (n op b c : Nat) (g : Nat → Option Nat) (wait : Bool) (s : State) : Got × State :=
  orOldValue l.id n x g (fun s =>
    if isRemote x.pa then remoteRmw l.id n x op b c wait s
    else if poisoned s x.pa then (.done (List.replicate n (0 : Byte)) true, s)
    else afterWait (s.coreOf l.th) x (fun s =>
      let r := rmwOne (s.coreOf l.th) l.id x.mode hint x.pa n g s
      (.done (natLe n r.1) false, r.2)) s) s

/-! ## The accesses of one instruction -/

/-- What the accesses of an instruction come to, in the order in which they are issued. -/
structure Round where
  got   : List (Lane × Xlat × List Byte × Bool) := []
  waits : List (Lane × Park) := []
  fails : List (Lane × Byte × Xlat) := []
  st    : State
/-- Every lane's access in turn. -/
def accesses (one : Lane → Xlat → State → Got × State) (ps : List (Lane × Xlat)) (s : State) : Round :=
  ps.foldl (fun (r : Round) e =>
    let a := one e.1 e.2 r.st
    match a.1 with
    | .done bs bad => { r with got := r.got ++ [(e.1, e.2, bs, bad)], st := a.2 }
    | .waits p => { r with waits := r.waits ++ [(e.1, p)], st := a.2 }
    | .fails c => { r with fails := r.fails ++ [(e.1, c, e.2)], st := a.2 }) { st := s }
/-- The answer of a thread that completes with others of its instruction. -/
def heldReply (x : Xlat) (bs : List Byte) : Reply :=
  let v := leNat bs
  { data := BitVec.ofNat 2048 (if isRemote x.pa && x.mode == 0 then v * 2 ^ (8 * (x.pa % 256)) else v), value := BitVec.ofNat 64 v
    line := lineOf x.pa }
/-- Some threads of an instruction that returns values wait: the others keep their answers, and all complete together, so that
poison in the data of one leaves every destination unwritten (spec 11 R219). -/
def holdAll (r : Round) (s : State) : State :=
  let b := s.clock
  let s1 := r.got.foldl (fun s e =>
    (parkLanes [e.1] (fun _ => .others) s).modThread e.1.id fun t => { t with reply := some (heldReply e.2.1 e.2.2.1), batch := some b }) s
  r.waits.foldl (fun s e => (parkLanes [e.1] (fun _ => e.2) s).modThread e.1.id fun t => { t with batch := some b }) s1
/-- The instruction ends: poison traps it whole; threads whose access is done complete, with the others where the instruction
returns values, and each other one waits or traps alone (log entry 28). -/
def complete (f : Fields) (whole : Bool) (done : Lane → Xlat → List Byte → State → State) (r : Round) : State :=
  let s := r.st
  match leastBy (fun e => e.1.th.hidx) (r.got.filter fun e => e.2.2.2) with
  | some e => poisonTrap f e.2.1.pa s
  | none =>
    let w := s.wave s.curWave
    let here := s.here
    let sectors := r.got.map fun e => sectorOf e.2.1.pa
    let s0 := (advance s).modCore s.hereCore fun c => { c with arrived := c.arrived.filter fun a => !sectors.contains a }
    if whole && !r.waits.isEmpty && r.fails.isEmpty then holdAll r s0
    else
      let s1 := r.got.foldl (fun s e => done e.1 e.2.1 e.2.2.1 s) s0
      let s2 := r.waits.foldl (fun s e => parkLanes [e.1] (fun _ => e.2) s) s1
      match leastBy (fun x => x.1.th.hidx) r.fails with
      | none => s2
      | some e =>
        let ids := r.fails.map fun x => x.1.id
        takePriv (s2.modThreads ids fun t => { t with pc := w.pc }) ids here { cause := e.2.1, eaddr := globalEa f e.1.th }
/-- The acquire side of an instruction that has one, for a thread that completes on a word of a page: a fence where the word is no
object. -/
def acquired (f : Fields) (on : Bool) (mode : Nat) (s : State) : State :=
  if !on then s
  else if mode = 0 then acquireSide s.hereCore s.hereCtx f.scope s else fenceSides s.hereCore s.hereCtx f.scope s
/-- A result written to the destination of a thread. -/
def putOut (f : Fields) (l : Lane) (o : LaneOut) (s : State) : State := s.modThread l.id fun t => writeOut f o t
/-- A global read of each executing thread. -/
def globalLoad (f : Fields) (need : Need) (n : Nat) (acq : Bool) (done : Lane → Xlat → List Byte → State → State) (s : State) : State :=
  withGlobal f need n acq false (fun ps s =>
    match readWait f n ps s with
    | some s1 => s1
    | none => complete f true done (accesses (fun l x s => readOne f.hint l n x s) ps s)) s
/-- An RMW near the core: the contention predictor chooses (spec 11 R227). -/
def runsNear (s : State) (_ : Lane) (x : Xlat) : Bool := !predictFar s (lineOf x.pa)
/-- Some thread's RMW writes: the release side of one that does not write does not occur (spec 11 R226; a remote one releases
before it is sent). -/
def willWrite (n : Nat) (g : Lane → Nat → Option Nat) (ps : List (Lane × Xlat)) (s : State) : Bool :=
  ps.any fun e => isRemote e.2.pa || (g e.1 (leNat (farRead e.2.pa n s).1)).isSome
/-- A global RMW of each executing thread. -/
def globalRmw (f : Fields) (n op : Nat) (b c : Lane → Nat) (g : Lane → Nat → Option Nat) (wait acq rel : Bool)
    (done : Lane → Xlat → List Byte → State → State) (s : State) : State :=
  withGlobal f { r := true, w := true, rmw := true } n acq rel (fun ps s =>
    match storeWait f n runsNear ps s with
    | some s1 => s1
    | none =>
      complete f wait done (accesses (fun l x s => rmwLane f.hint l x n op (b l) (c l) (g l) wait s) ps
        (releaseBefore f (rel && willWrite n g ps s) ps s))) s

/-! ## Scratchpad and window places -/

/-- The place of a lane in the team's scratchpad (spec 11 R216). -/
def scrCheck (f : Fields) (n : Nat) (s : State) (l : Lane) : Except Byte Loc :=
  let off := (offsetEa f l.th).toNat
  match checkScratch s l.th.team n off with
  | some c => .error c
  | none => .ok (.scr l.th.team off)
/-- The place of a lane's window address: the scratchpad of a team of the gang (spec 09 R180). -/
def winCheck (f : Fields) (n : Nat) (s : State) (l : Lane) : Except Byte Loc :=
  match checkWindow s l.th.team n (offsetEa f l.th) with
  | .error c => .error c
  | .ok p => .ok (.scr p.1 p.2)
def offEa (f : Fields) (l : Lane) : DWord := (offsetEa f l.th).setWidth 64
/-- An instruction on scratchpad places: the issuing team's, whose backed pages it waits for, or through the window, where
the target core refills its own (spec 09 R172, R181). -/
def withPads (f : Fields) (window : Bool) (n : Nat) (w loads : Bool) (act : List (Lane × Loc) → State → State) (s : State) : State :=
  if (s.execLanes f).isEmpty then advance s
  else if window then
    let ls := byHidx (s.execLanes f)
    let p := splitChecks (ls.map fun l => (l, winCheck f n s l, offEa f l))
    if !p.1.isEmpty then memTrap f p.1 s
    else
      match p.2.findSome? fun e => locWait s w e.2 with
      | some k => waitLocs f k (p.2.map (·.2)) s
      | none =>
        match if loads then p.2.find? (fun e => e.2.poisoned s) else none with
        | some e => poisonTrap f (match e.2 with | .glob _ pa => pa | .scr _ o => o) s
        | none => act p.2 (p.2.foldl (fun s e => touchLoc e.2 s) s)
  else withLocs f (scrCheck f n) (offEa f) w loads act s
/-- The key of a scratchpad place in a replay record (log entry 29). -/
def Loc.key : Loc → Nat
  | .scr _ o => o
  | .glob _ pa => pa

/-! ## Loads and stores: OP 0x60 to 0x66 -/

def ld (f : Fields) (s : State) : State :=
  globalLoad f { r := true } (szBytes f) (isAcq f) (fun l x bs s => acquired f (isAcq f) x.mode (putOut f l (loadOf f bs) s)) s
def st (f : Fields) (s : State) : State :=
  let n := szBytes f
  withGlobal f { w := true } n false (isRel f) (fun ps s =>
    match storeWait f n (fun _ _ _ => true) ps s with
    | some s1 => s1
    | none =>
      complete f false (fun _ _ _ s => s)
        (accesses (fun l x s => writeOne f.hint l x (storeBytes l.th f.b n) s) ps (releaseBefore f (isRel f) ps s))) s
/-- A load from scratchpad places. -/
def padLoad (f : Fields) (window : Bool) (s : State) : State :=
  withPads f window (szBytes f) false true (fun ps s =>
    ps.foldl (fun s e =>
      let r := e.2.read (szBytes f) s
      acquired f (isAcq f) 0 (putOut f e.1 (loadOf f r.1) r.2)) (advance s)) s
/-- A store to scratchpad places, in ascending t.hidx. -/
def padStore (f : Fields) (window : Bool) (s : State) : State :=
  let go := withPads f window (szBytes f) true false (fun ps s =>
    let s1 := if isRel f then releaseSide s.hereCore f.scope s else s
    ps.foldl (fun s e => e.2.write (storeBytes e.1.th f.b (szBytes f)) s) (advance s1))
  if isRel f then releaseFirst f f.scope go s else go s
def lds (f : Fields) (s : State) : State := padLoad f false s
def sts (f : Fields) (s : State) : State := padStore f false s
def ldw (f : Fields) (s : State) : State := padLoad f true s
def stw (f : Fields) (s : State) : State := padStore f true s
/-- The uniform load: the address of the executing thread in the lowest physical lane, one access (spec 11 R222). -/
def ldc (f : Fields) (s : State) : State :=
  let n := szBytes f
  let ex := s.execLanes f
  match ex with
  | [] => advance s
  | l :: _ =>
    let ea := globalEa f l.th
    let s0 := noteWalk (whoOf s l.th) ea s
    match checkGlobal s (whoOf s l.th) { r := true } n ea with
    | .error c => onceTrap f l c ea s0
    | .ok x =>
      let s1 := if viaL1 x then settleAll [x.pa] s0 else s0
      match readWait f n [(l, x)] s1 with
      | some s1 => s1
      | none =>
        let a := readOne f.hint l n x s1
        match a.1 with
        | .waits p => waitAll f p a.2
        | .fails c => onceTrap f l c ea a.2
        | .done bs bad =>
          if bad then poisonTrap f x.pa a.2
          else ex.foldl (fun s e => putOut f e (loadOf f bs) s)
            ((advance a.2).modCore (s.coreOf l.th) fun c => { c with arrived := c.arrived.filter fun k => k != sectorOf x.pa })

/-! ## PREF: OP 0x67 -/

/-- One line asked for: the sectors it lacks, while entries are free (spec 11 R223). -/
def prefLine (f : Fields) (l : Lane) (x : Xlat) (s : State) : State :=
  let line := lineOf x.pa
  let c := s.coreOf l.th
  if isRemote x.pa then
    if x.mode != 0 then s
    else if (leaseLive s (s.ctxOf l.th) line).isSome then s
    else match askLease (s.ctxOf l.th) line none s with
      | .ok s1 => s1
      | _ => s
  else if !viaL1 x then s
  else
    let asks := (List.range 4).map fun k => (line + 64 * k, x.mode == 1)
    let l2Only := f.fn.getLsbD 0 || f.hint == 3
    let s1 := if !l2Only then (if (l1Line s c line).isSome then touchHint c line f.hint s else s)
      else if Tab.has s.home.l2 line then l2Touch line f.hint 0 0 s else s
    let new := newMisses s1 c (asks.filter fun a => !sectorHit s1 c { x with pa := a.1 } 1)
    takeMisses c f.hint l2Only (new.take (256 - (s1.core c).miss.length)) s1
def pref (f : Fields) (s : State) : State :=
  (byHidx (s.execLanes f)).foldl (fun s l =>
    match checkGlobal s (whoOf s l.th) { r := true } 1 (globalEa f l.th) with
    | .ok x => prefLine f l x s
    | .error _ => s) (advance s)

/-! ## ATOM, CAS, RED: OP 0x69 to 0x6B -/

def rmwOp (f : Fields) : Nat := (f.fn.extractLsb' 0 4).toNat
/-- The result of an RMW written and offered to replay. -/
def rmwDone (f : Fields) (here : TrapAt) (n : Nat) (l : Lane) (mode key : Nat) (bs : List Byte) (s : State) : State :=
  replayAtomic here l.id (leNat bs) key (acquired f (isAcq f) mode (putOut f l (loadOut n false bs) s))
/-- An RMW on scratchpad places, in ascending t.hidx (spec 11 R228). -/
def padRmw (f : Fields) (n : Nat) (g : Lane → Nat → Option Nat) (rel loads : Bool) (done : Lane → Loc → List Byte → State → State)
    (s : State) : State :=
  let go := withPads f (f.sp == 2) n true loads (fun ps s =>
    let writes := ps.any fun e => (g e.1 (leNat (e.2.read n s).1)).isSome
    let s1 := if rel && writes then releaseSide s.hereCore f.scope s else s
    ps.foldl (fun s e =>
      let r := e.2.read n s
      done e.1 e.2 r.1 (match g e.1 (leNat r.1) with | some x => e.2.write (natLe n x) r.2 | none => r.2)) (advance s1))
  if rel then releaseFirst f f.scope go s else go s
def atom (f : Fields) (s : State) : State :=
  let n := opBytes (rmwOp f)
  let here := s.here
  let b := fun (l : Lane) => regNat l.th f.b n
  let g := fun (l : Lane) (old : Nat) => some (applyOp (rmwOp f) old (b l))
  if f.sp == 0 then globalRmw f n (rmwOp f) b (fun _ => 0) g true (isAcq f) (isRel f) (fun l x bs s => rmwDone f here n l x.mode x.pa bs s) s
  else padRmw f n g (isRel f) true (fun l p bs s => rmwDone f here n l 0 p.key bs s) s
def cas (f : Fields) (s : State) : State :=
  let n := if f.fn.getLsbD 0 then 8 else 4
  let here := s.here
  let b := fun (l : Lane) => regNat l.th f.b n
  let c := fun (l : Lane) => regNat l.th f.c n
  let g := fun (l : Lane) (old : Nat) => if old = b l then some (c l) else none
  if f.sp == 0 then globalRmw f n 14 b c g true (isAcq f) (isRel f) (fun l x bs s => rmwDone f here n l x.mode x.pa bs s) s
  else padRmw f n g (isRel f) true (fun l p bs s => rmwDone f here n l 0 p.key bs s) s
/-- One contribution of a thread. -/
def redLane (f : Fields) (l : Lane) (x : Xlat) (s : State) : Got × State :=
  let b := regNat l.th f.b (opBytes (rmwOp f))
  if isRemote x.pa then remoteRmw l.id (opBytes (rmwOp f)) x (rmwOp f) b 0 false s
  else afterWait (s.coreOf l.th) x (fun s => (.done [] false, redOne (s.coreOf l.th) l.id x.mode (rmwOp f) f.hint x.pa b s)) s
def red (f : Fields) (s : State) : State :=
  let n := opBytes (rmwOp f)
  let g := fun (l : Lane) (old : Nat) => some (applyOp (rmwOp f) old (regNat l.th f.b n))
  if f.sp == 0 then
    withGlobal f { r := true, w := true, rmw := true } n false (isRel f) (fun ps s =>
      match storeWait f n (fun _ _ _ => false) ps s with
      | some s1 => s1
      | none => complete f false (fun _ _ _ s => s) (accesses (redLane f) ps (releaseBefore f (isRel f) ps s))) s
  else padRmw f n g (isRel f) false (fun _ _ _ s => s) s

/-! ## LDL and STC: OP 0x6C and 0x6D -/

def pairBytes (f : Fields) : Nat := if f.fn.getLsbD 0 then 8 else 4
/-- A far reservation: the oldest of a slice's 256 gives way (spec 11 R230). -/
def farResv (t line : Nat) (s : State) : State :=
  let slice := s.work.threads.filter fun e => match e.2.resv with
    | some r => r.far.isSome && homeSlice r.line == homeSlice line && e.1 != t
    | none => false
  let s1 :=
    if slice.length < 256 then s
    else match leastBy (fun e => (e.2.resv.bind (·.far)).getD 0) slice with
      | some e => s.modThread e.1 fun y => { y with resv := none }
      | none => s
  (s1.modThread t fun y => { y with resv := some ⟨line, some s.home.farAge⟩ }).modHome fun h => { h with farAge := h.farAge + 1 }
/-- The reservation of an LDL, which replaces the old one. A remote line has none that holds: its copy leaves the L1 at once (log
entry 39). -/
def setResv (t : Nat) (x : Xlat) (s : State) : State :=
  if isRemote x.pa then s.modThread t fun y => { y with resv := none }
  else if x.mode == 0 then s.modThread t fun y => { y with resv := some ⟨lineOf x.pa, none⟩ }
  else farResv t (lineOf x.pa) s
def ldl (f : Fields) (s : State) : State :=
  let n := pairBytes f
  let here := s.here
  withGlobal f { r := true, w := true, rmw := true } n (isAcq f) false (fun ps s =>
    let near := ps.filter fun e => e.2.mode == 0
    match readWait f n near s with
    | some s1 => s1
    | none =>
      let s1 := ps.foldl (fun s e => if e.2.mode == 1 && !isRemote e.2.pa then dropSwm (s.coreOf e.1.th) (lineOf e.2.pa) s else s) s
      complete f true (fun l x bs s =>
        replayAtomic here l.id (leNat bs) x.pa (acquired f (isAcq f) x.mode (setResv l.id x (putOut f l (loadOut n false bs) s))))
        (accesses (fun l x s => readOne f.hint l n x s) ps s1)) s
/-- The conditional store of a thread: whether it stores (spec 11 R230). -/
def resvHeld (s : State) (l : Lane) (x : Xlat) : Bool :=
  match (s.thread l.id).resv with | some r => r.line == lineOf x.pa && !isRemote x.pa | none => false
def stcLane (f : Fields) (l : Lane) (x : Xlat) (s : State) : Got × State :=
  let n := pairBytes f
  let c := s.coreOf l.th
  let ends := fun (b : Byte) (s : State) => (Got.done [b] false, s.modThread l.id fun y => { y with resv := none })
  if !resvHeld s l x then ends 0 s
  else afterWait c x (fun s =>
    ends 1 (if x.mode == 0 then storeOne c l.id 0 f.hint x.pa (storeBytes l.th f.b n) s
      else homeWrite (some l.id) x.pa (storeBytes l.th f.b n) (dropSwm c (lineOf x.pa) s))) s
def stc (f : Fields) (s : State) : State :=
  let here := s.here
  withGlobal f { r := true, w := true, rmw := true } (pairBytes f) false (isRel f) (fun ps s =>
    match storeWait f (pairBytes f) resvHeld ps s with
    | some s1 => s1
    | none =>
      complete f false (fun l x bs s => replayAtomic here l.id (leNat bs) x.pa (putOut f l (.pred (decide (leNat bs = 1))) s))
        (accesses (stcLane f) ps (releaseBefore f (isRel f) ps s))) s

/-! ## ACQ and REL: OP 0x6F and 0x70 -/

def acq (f : Fields) (s : State) : State :=
  let n := pairBytes f
  let done := fun (l : Lane) (mode : Nat) (bs : List Byte) (s : State) => acquired f true mode (putOut f l (loadOut n false bs) s)
  if f.sp == 0 then globalLoad f { r := true } n true (fun l x bs s => done l x.mode bs s) s
  else withPads f false n false true (fun ps s =>
    ps.foldl (fun s e => done e.1 0 (e.2.read n s).1 (e.2.read n s).2) (advance s)) s
/-- REL stores the value it reads; to remote memory it goes as an operator that changes nothing. -/
def rel (f : Fields) (s : State) : State :=
  let n := pairBytes f
  if f.sp == 0 then
    globalRmw f n (if n = 8 then 1 else 10) (fun _ => 0) (fun _ => 0) (fun _ old => some old) false false true (fun _ _ _ s => s) s
  else padRmw f n (fun _ old => some old) true true (fun _ _ _ s => s) s

/-! ## WAITC: OP 0x73 -/

def waitc (f : Fields) (s : State) : State :=
  let n := if f.fn.getLsbD 3 then 8 else 4
  let cond := f.fn.extractLsb' 0 3
  globalLoad f { r := true } n (isAcq f) (fun l x bs s =>
    let b := regNat l.th f.b n
    if condHolds cond n (leNat bs) b then acquired f (isAcq f) x.mode (putOut f l (loadOut n false bs) s)
    else parkMonitor l ⟨l.th.team, none, x.pa, n, cond, BitVec.ofNat 64 b⟩ (polledTarget x.mode x.pa) s) s

/-! Each answers the next state that the definition of its name gives. -/
def execLd (f : Fields) (s : State) : Host.Outcome State Fault Refusal := .next (ld f s)
def execSt (f : Fields) (s : State) : Host.Outcome State Fault Refusal := .next (st f s)
def execLds (f : Fields) (s : State) : Host.Outcome State Fault Refusal := .next (lds f s)
def execSts (f : Fields) (s : State) : Host.Outcome State Fault Refusal := .next (sts f s)
def execLdw (f : Fields) (s : State) : Host.Outcome State Fault Refusal := .next (ldw f s)
def execStw (f : Fields) (s : State) : Host.Outcome State Fault Refusal := .next (stw f s)
def execLdc (f : Fields) (s : State) : Host.Outcome State Fault Refusal := .next (ldc f s)
def execPref (f : Fields) (s : State) : Host.Outcome State Fault Refusal := .next (pref f s)
def execAtom (f : Fields) (s : State) : Host.Outcome State Fault Refusal := .next (atom f s)
def execCas (f : Fields) (s : State) : Host.Outcome State Fault Refusal := .next (cas f s)
def execRed (f : Fields) (s : State) : Host.Outcome State Fault Refusal := .next (red f s)
def execLdl (f : Fields) (s : State) : Host.Outcome State Fault Refusal := .next (ldl f s)
def execStc (f : Fields) (s : State) : Host.Outcome State Fault Refusal := .next (stc f s)
def execAcq (f : Fields) (s : State) : Host.Outcome State Fault Refusal := .next (acq f s)
def execRel (f : Fields) (s : State) : Host.Outcome State Fault Refusal := .next (rel f s)
def execWaitc (f : Fields) (s : State) : Host.Outcome State Fault Refusal := .next (waitc f s)
end Sys2Proof.Machine
end

