-- ==== Sys2Proof/Machine/Pairing.lean ====
section
/-!
DEFINITION. Pairing.lean: the rules of paired issue (spec 03 R52, R53).
-/
namespace Sys2Proof.Machine

/-- The pipes that an instruction of OP 0x00 to 0x5F fits (spec 03 R53). -/
inductive Fit where
  | a
  | b
  | either
  | none
deriving DecidableEq, Repr
def fitOf (i : Instr) : Fit :=
  match i with
  | .imul _ => .a
  | .imulh _ => .a
  | .imad _ => .a
  | .idot4 _ => .a
  | .tidx _ => .a
  | .lsum _ => .a
  | .cvt _ => .b
  | .sfn _ => .b
  | .fclass _ => .b
  | .frint _ => .b
  | .fscale _ => .b
  | .lcvt _ => .b
  | .bpack _ => .b
  | .bunpk _ => .b
  | .deskew _ => .b
  | .pillar _ => .b
  | .scle _ => .b
  | .shfl _ => .none
  | .vote _ => .none
  | .redw _ => .none
  | .prfx _ => .none
  | .matchL _ => .none
  | .hlane _ => .none
  | .exmrd _ => .none
  | .exmwr _ => .none
  | .exmand _ => .none
  | .exmor _ => .none
  | .shpset _ => .none
  | _ => .either
/-- Registers from a number on. -/
def regRun (r : BitVec 6) (n : Nat) : List Nat := (List.range n).map fun k => r.toNat + k
/-- Registers that a source operand names. -/
def kindRegs : Kind → Opnd → List Nat
  | .sVal wide, .reg r => regRun r (if wide then 2 else 1)
  | .sReg n _ _, .reg r => regRun r n
  | .sMask, .reg r => regRun r 1
  | .sQuad, .reg r => regRun r 4
  | _, _ => []
/-- Registers that a destination names. -/
def kindDest : Kind → Opnd → List Nat
  | .dReg n _ _, .reg r => regRun r n
  | _, _ => []
def latchIn : Opnd → List Nat
  | .latch n => [n.toNat]
  | _ => []
/-- A predicate, but p7, which no write changes (log entry 30). -/
def predIn : Opnd → List Nat
  | .pred n => if n.toNat < 7 then [n.toNat] else []
  | _ => []
/-- C of an addition or subtraction is the predicate that takes its carry (spec 06 R100). -/
def carryInstr : Instr → Bool
  | .iadd _ => true
  | .isub _ => true
  | .iaddc _ => true
  | .isubb _ => true
  | _ => false
/-- What an instruction reads and writes. -/
structure Uses where
  srcs   : List Nat
  dests  : List Nat
  predR  : List Nat
  predW  : List Nat
  latchR : List Nat
  latchW : List Nat
def usesOf (i : Instr) (f : Fields) : Uses :=
  let sh := shapeOf i
  let guard := if f.pg.extractLsb' 0 3 == 7 then [] else [(f.pg.extractLsb' 0 3).toNat]
  let carryOnly := match i with | .iadd _ => true | .isub _ => true | _ => false
  { srcs := dedup (kindRegs sh.a f.a ++ kindRegs sh.b f.b ++ kindRegs sh.c f.c)
    dests := if f.nw then [] else kindDest sh.d f.d
    predR := guard ++ predIn f.a ++ predIn f.b ++ (if carryOnly then [] else predIn f.c)
    predW := (match sh.d with | .dPred => predIn f.d | _ => []) ++ (if carryInstr i then predIn f.c else [])
    latchR := latchIn f.a ++ latchIn f.b ++ latchIn f.c
    latchW := if f.latchEn then [f.latchIx.toNat] else [] }
def meets (a b : List Nat) : Bool := a.any fun x => b.contains x
/-- No two of a list lie in one bank. -/
def oneEach (rs : List Nat) : Bool :=
  match rs with
  | [] => true
  | r :: t => !(t.any fun x => x % 4 == r % 4) && oneEach t
/-- Two instructions that one wave may issue as a pair. -/
def pairOk (i : Instr) (f : Fields) (j : Instr) (g : Fields) : Bool :=
  let a := usesOf i f
  let b := usesOf j g
  let low := fun (k : Instr) => match opOf k with | some op => decide (op.toNat ≤ 0x5F) | none => false
  let fits := match fitOf i, fitOf j with
    | .none, _ => false
    | _, .none => false
    | .a, .a => false
    | .b, .b => false
    | _, _ => true
  let srcs := dedup (a.srcs ++ b.srcs)
  low i && low j && !f.stop && !g.stop && !(shapeOf i).needS && !(shapeOf j).needS && fits &&
    !meets a.dests b.srcs && !meets a.predW b.predR && !meets a.latchW b.latchR &&
    !meets a.dests b.dests && !meets a.predW b.predW && !meets a.latchW b.latchW &&
    decide (srcs.length ≤ 4) && oneEach srcs && !(a.dests.any fun x => b.dests.any fun y => x % 4 == y % 4)

end Sys2Proof.Machine
end

