-- ==== Sys2Proof/Machine/Redund.lean ====
section
/-!
DEFINITION. Redund.lean: the redundancy comparator of a core pair (spec 22 R421 to R423).
-/
namespace Sys2Proof.Machine

/-! ## Compared effects (spec 22 R421) -/

/-- The instructions whose effect leaves the pair. -/
def compared (i : Instr) : Bool :=
  match i with
  | .ld _ => true
  | .st _ => true
  | .ldc _ => true
  | .atom f => f.sp == 0
  | .cas f => f.sp == 0
  | .red f => f.sp == 0
  | .ldl _ => true
  | .stc _ => true
  | .acq f => f.sp == 0
  | .rel f => f.sp == 0
  | .waitc _ => true
  | .boinit f => !boScratch f
  | .boarr _ => true
  | .botok f => !boScratch f
  | .bowait f => !boScratch f
  | .bowaitp f => !boScratch f
  | .evsig _ => true
  | .cp _ => true
  | .cpblk _ => true
  | .spawn _ => true
  | .spawnt _ => true
  | .launchg _ => true
  | .cancel _ => true
  | .dlset _ => true
  | .cqpush _ => true
  | .futwait _ => true
  | .futpoll _ => true
  | .poola _ => true
  | .poolf _ => true
  | .qcol _ => true
  | .qocc _ => true
  | .seqnew _ => true
  | .seqfork _ => true
  | .seqend _ => true
  | .seqcommit _ => true
  | .seqcommitConf _ => true
  | .seqdraft _ => true
  | .seqrej _ => true
  | .seqrd _ => true
  | .sample _ => true
  | .sampleAcc _ => true
  | .pnset _ => true
  | .pnclr _ => true
  | _ => false
/-- Compared instructions whose effect stays in each core: both cores perform it (log entry 37). -/
def bothPerform (w : IWord) : Bool := opField w == 0x8B || opField w == 0xBB || (opField w == 0x81 && w.getLsbD 80)

/-! ## Entries (spec 22 R422) -/

/-- The address that a thread's operands name. -/
def entryAddr (w : IWord) (f : Fields) (t : Thread) : DWord :=
  if (opField w).toNat ≤ 0x8F then reg64 t f.a + f.imm.signExtend 64 else reg64 t f.a
/-- The registers of a thread that its instruction reads. -/
def entryData (i : Instr) (f : Fields) (t : Thread) : List DWord :=
  (usesOf i f).srcs.map fun r => (t.reg r).setWidth 64
/-- A core's entry for its wave: addresses, then operands, in ascending t.hidx. -/
def cmpEntry (i : Instr) (f : Fields) (serial : Nat) (s : State) : CmpEntry :=
  let ls := byHidx (s.execLanes f)
  let w := s.wave s.curWave
  let word := w.wordAt w.pc
  let desc := fun (l : Lane) =>
    match i with
    | .cp _ => (match descLoc f s l with | .ok p => (p.read 64 s).1.map fun b => b.setWidth 64 | .error _ => [])
    | .cpblk _ => (match descLoc f s l with | .ok p => (p.read 64 s).1.map fun b => b.setWidth 64 | .error _ => [])
    | _ => []
  { thread := ls.map Lane.id, word := word, time := s.dtime, serial := serial
    ops := (ls.map fun l => entryAddr word f l.th) ++ (ls.flatMap fun l => entryData i f l.th ++ desc l) }
def isPrimary (s : State) (team : Nat) : Bool := match (s.team team).role with | .primary _ => true | _ => false
/-- A wave of a redundant pair at a compared instruction: its threads park until the comparator has matched them; none where
the instruction may run. Threads already matched run apart from the others. -/
def cmpGate (i : Instr) (f : Fields) (s : State) : Option State :=
  let team := s.curTeam
  let ls := s.execLanes f
  let pc := (s.wave s.curWave).pc
  if (match (s.team team).role with | .single => true | _ => false) || !compared i || ls.isEmpty || ls.any fun l => l.th.handlerOf.isSome then none
  else
    let no := ls.filter fun l => l.th.matched != some pc
    if no.isEmpty then none
    else if no.length < ls.length then some (no.foldl (fun s l => leaveWave l.id s) s)
    else
      let p := s.hereCore / 2
      let x := s.pair p
      let prim := isPrimary s team
      let mine := if prim then x.prim else x.sec
      if mine.length ≥ 64 then some (waitAll f .comparator s)
      else
        let e := cmpEntry i f x.serial s
        let x1 := if prim then { x with prim := x.prim ++ [e], serial := x.serial + 1 } else { x with sec := x.sec ++ [e] }
        some ((waitAll f .comparator s).setPair p x1)
/-- Threads of an entry still wait for the comparator. -/
def entryLive (s : State) (e : CmpEntry) : Bool := e.thread.all fun t => (s.thread t).park == some .comparator
/-- Threads of a pair's cores that wait for room in the comparator reissue. -/
def wakeFull (p : Nat) (s : State) : State :=
  let x := s.pair p
  let known := (x.prim ++ x.sec).flatMap (·.thread) ++ x.follow.map fun e => e.2.1
  s.modThreads ((s.work.threads.filter fun e =>
    e.2.park == some .comparator && s.coreOf e.2 / 2 == p && !known.contains e.1).map (·.1)) Thread.unparkHere

/-! ## Mismatch (spec 22 R423) -/

/-- The pair stops: every thread of both teams, with one privileged trap on the primary's core and a report to the Guidon. -/
def pairTrap (p prim kind : Nat) (addr : DWord) (serial lead : Nat) (s : State) : State :=
  let c := 2 * p
  let part := match (s.team prim).role with | .primary q => teamThreads s q | _ => []
  let ids := ((teamThreads s prim ++ part).filter fun e => !e.2.stopped).map (·.1)
  let th := s.thread lead
  let info := BitVec.ofNat 64 (kind % 16 + 2 ^ 32 * (serial % 2 ^ 32))
  let g := s.grid (s.team prim).grid
  let s1 := (ids.foldl (fun s t => leaveWait t s) s).modThreads ids fun t => { t with stopped := true, resv := none }
  let tr : Trap :=
    { regs := { cause := 0xC0, epc := th.pc, eaddr := addr, einfo := info }, team := prim, threads := ids, quad := s.quadOf th, slot := th.slot
      lanes := 1#32 <<< th.lane, hidx := th.hidx, hoist := th.hoist, lineSlot := (slotOf th.pc).getD 0, ordinal := g.ordinal th.pc
      lineage := th.lineage, time := s.dtime, redund := true }
  let s2 := (s1.countTraps c 1).modCore c fun x => { x with traps := x.traps ++ [tr] }
  reportRedundancy c (s.ctxOf th) addr info
    (s2.setPair p { s2.pair p with prim := [], sec := [], follow := [], stop := true })
/-- The primary team of a pair, from the entries it holds or the teams on its core. -/
def pairTeam (p : Nat) (s : State) : Option Nat :=
  let ofEntry := fun (e : CmpEntry) => e.thread.head?.map fun t => (s.thread t).team
  let x := s.pair p
  (x.prim.head?.bind ofEntry).orElse fun _ =>
    (match x.sec.head?.bind ofEntry with
     | some t => (match (s.team t).role with | .secondary q => some q | _ => none)
     | none => ((teamsOn s (2 * p)).find? fun e => isPrimary s e.1).map (·.1))
def redundancyMismatch (pair : Nat) (kind : BitVec 4) (s : State) : State :=
  match pairTeam pair s with
  | none => s
  | some team =>
    let x := s.pair pair
    let e := (x.prim.head?).orElse fun _ => x.sec.head?
    let addr := match e with | some e => e.ops.headD 0 | none => 0
    let lead := ((x.prim.head?.bind fun e => e.thread.head?).orElse fun _ => (teamThreads s team).head?.map (·.1)).getD 0
    pairTrap pair team kind.toNat addr (match e with | some e => e.serial | none => x.serial) lead s

/-! ## Matching -/

/-- The kind of a mismatch of two entries, or 0. -/
def mismatchKind (s : State) (a b : CmpEntry) : Nat :=
  let n := a.thread.length
  let hs := fun (e : CmpEntry) => e.thread.map fun t => (s.thread t).hidx
  if a.word ≠ b.word ∨ hs a ≠ hs b then 3
  else if a.ops.take n ≠ b.ops.take n then 1
  else if a.ops ≠ b.ops then 2
  else 0
/-- The oldest entries of a pair's two cores compared: matching ones let the primary perform its effect. -/
def comparatorMatch (pair : Nat) (s : State) : State :=
  let x := s.pair pair
  match x.prim, x.sec with
  | a :: as, b :: bs =>
    let k := mismatchKind s a b
    if k ≠ 0 then redundancyMismatch pair (BitVec.ofNat 4 k) s
    else
      let pc := (s.thread (a.thread.headD 0)).pc
      let both := bothPerform a.word
      let go := fun (t : Thread) => { t.unparkHere with matched := some pc }
      let s1 := (s.modThreads a.thread go).modThreads (if both then b.thread else []) go
      let more := if both then [] else (a.thread.zip b.thread).map fun e => (e.1, e.2, pc)
      wakeFull pair (s1.setPair pair { x with prim := as, sec := bs, follow := x.follow ++ more })
  | _, _ => s
/-- An entry that no partner has matched within 100 µs. -/
def comparatorTimeout (pair : Nat) (s : State) : State :=
  let x := s.pair pair
  let late := fun (l : List CmpEntry) => l.any fun e => decide (e.time + 100000 ≤ s.dtime)
  if (x.prim.isEmpty || x.sec.isEmpty) && late (x.prim ++ x.sec) then redundancyMismatch pair 4 s else s

/-! ## What the secondary takes over -/

/-- A primary thread has completed its matched effect. -/
def followDone (s : State) (e : Nat × Nat × DWord) : Bool :=
  match s.thread? e.1 with
  | none => true
  | some t => !t.stopped && t.pc != e.2.2
/-- The registers, predicates and place of the primary's thread. -/
def followOne (e : Nat × Nat × DWord) (s : State) : State :=
  match s.thread? e.1 with
  | none => retireThread e.2.1 false s
  | some a =>
    (leaveWait e.2.1 s).modThread e.2.1 fun t =>
      { t with
        pc := a.pc, v := a.v, p := a.p, q := a.q, handler := a.handler, trap := a.trap, savedQ := a.savedQ, restoreQ := a.restoreQ
        cancelled := a.cancelled, resume := none }
/-- Entries without waiting threads go; completed effects reach the secondary; a pair stopped by a mismatch goes on once its
trap is gone. -/
def settlePair (p : Nat) (s : State) : State :=
  let x := s.pair p
  let done := x.follow.filter (followDone s)
  let s1 := done.foldl (fun s e => followOne e s) s
  let c := s1.core (2 * p)
  let held := c.traps.any (·.redund) || (match c.serving with | some t => t.redund | none => false)
  s1.setPair p
    { x with
      prim := x.prim.filter (entryLive s1), sec := x.sec.filter (entryLive s1)
      follow := x.follow.filter fun e => !followDone s e && (s1.thread? e.2.1).isSome, stop := x.stop && held }

/-! ## Copies of the pair -/

/-- A sector of a scratchpad source that differs between the two cores. -/
def sectorDiffers (core : Nat) (s : State) : Option (Nat × Nat × Nat) :=
  (nextCopy s (s.cpe core).q []).bind fun x0 =>
    let b := beginCopy core x0 s
    let x := b.1
    let u := (x.unit x.dst.toNat x.done).1
    match (s.team x.team).role with
    | .primary q =>
      if x.isAcc || x.srcSp ≠ 1 || scratchBytes s x.team u.1 u.2 == scratchBytes s q u.1 u.2 then none else some (x.team, u.1, x.id)
    | _ => none
/-- The copy engine moves and lands one sector; a pair's source sectors are compared first. -/
def copySector (core : Nat) (outcome : ReadOutcome) (s : State) : State :=
  if s.guidon.frozen || (s.pair (core / 2)).stop then s
  else
    match sectorDiffers core s with
    | some (team, addr, id) =>
      let lead := ((teamThreads s team).head?.map (·.1)).getD 0
      pairTrap (core / 2) team 2 (BitVec.ofNat 64 addr) id lead s
    | none => moveSector core outcome s

/-! Each answers the next state that the definition of its name gives. -/
def execComparatorMatch (pair : Nat) (s : State) : Host.Outcome State Fault Refusal := .next (comparatorMatch pair s)
def execComparatorTimeout (pair : Nat) (s : State) : Host.Outcome State Fault Refusal := .next (comparatorTimeout pair s)
def execRedundancyMismatch (pair : Nat) (kind : BitVec 4) (s : State) : Host.Outcome State Fault Refusal := .next (redundancyMismatch pair kind s)
def execCopySector (core : Nat) (outcome : ReadOutcome) (s : State) : Host.Outcome State Fault Refusal := .next (copySector core outcome s)
end Sys2Proof.Machine
end

