-- ==== Sys2Proof/Machine/Soft.lean ====
section
/-!
DEFINITION. Soft.lean: what an issue does where a core's arrays return a word that they had to correct or could not
correct (spec 11 R219, 21 R412; log entry 84).
-/
namespace Sys2Proof.Machine

/-- SAMPLE from the accumulator store, instructions that read the sequence table, and those that read the shape, ring and event tables (spec 07 R127, 12 R257, R262,
18 R357). -/
def readsTable (i : Instr) (array : Byte) : Bool :=
  match opOf i with
  | some op =>
    (array == 3 && (match i with | .sampleAcc _ => true | _ => false)) || (array == 5 && decide (0xC0 ≤ op.toNat ∧ op.toNat ≤ 0xC5)) ||
      (array == 6 && (op == 0x47 || decide (0x85 ≤ op.toNat ∧ op.toNat ≤ 0x8C)))
  | none => false
/-- The threads that consume an element of an array of spec 21 R412: of those executing, but a guard is read by every active one. -/
def consumers (s : State) (i : Instr) (f : Fields) (array ix : Byte) : List Lane :=
  if array == 1 then (if (usesOf i f).srcs.contains ix.toNat then s.execLanes f else [])
  else if array == 2 then
    if (f.pg.extractLsb' 0 3).toNat == ix.toNat && ix.toNat < 7 then s.active (s.wave s.curWave)
    else if (usesOf i f).predR.contains ix.toNat then s.execLanes f else []
  else if readsTable i array then s.execLanes f else []
/-- Instructions whose memory data raises MEMORY_UNCORRECTABLE: loads and RMWs of waves (spec 11 R219, R238). -/
def loadsData (i : Instr) : Bool :=
  match opOf i with
  | some op => [0x60, 0x62, 0x64, 0x66, 0x69, 0x6A, 0x6C, 0x6F, 0x70, 0x73, 0x82, 0x83, 0x84].contains op.toNat
  | none => false
/-- A line of the core's own cache that is lost has no clean copy elsewhere if it is modified, and is then poisoned. -/
def loseLine (who : Who) (va : DWord) (s : State) : State :=
  match checkGlobal s who { r := true } 1 va with
  | .error _ => s
  | .ok x =>
    match l1Line s who.core (lineOf x.pa) with
    | some l => if l.dirty != 0 || l.mask != 0 then setPoison (lineOf x.pa) s else s
    | none => s
/-- What the arrays return to the core's next instruction, and the machine once they have. -/
def State.arraysHere (s : State) : ArrayRead := (s.core s.hereCore).arrays
def arraysRead (s : State) : State :=
  match s.arraysHere with
  | .clean => s
  | _ => s.modCore s.hereCore fun c => { c with arrays := .clean }
/-- The trap that an array error makes of an instruction, at its place; none where the instruction consumes none. A thread
that does not consume it issues again. -/
def softTrap (a : TrapAt) (i : Instr) (s : State) : Option State :=
  let f := (fieldsOf i).getD (unpackFields a.word)
  match s.arraysHere with
  | .clean => none
  | .corrected _ _ => none
  | .lost array ix lanes =>
    match byHidx ((consumers s i f array ix).filter fun l => lanes.getLsbD l.lane) with
    | [] => none
    | l :: ls => some (takePriv (arraysRead s) ((l :: ls).map Lane.id) a { cause := 0xC9, einfo := ix.setWidth 64 <<< 8 ||| array.setWidth 64 })
  | .data addr =>
    match byHidx (s.execLanes f) with
    | [] => none
    | l :: ls =>
      if loadsData i then
        some (takePriv (if f.sp == 0 then loseLine (whoOf s l.th) addr (arraysRead s) else arraysRead s) ((l :: ls).map Lane.id) a { cause := 0x50, eaddr := addr })
      else none
/-- A corrected word is written back, counted and logged with the cause of its loss. -/
def softFixed (s : State) : State :=
  match s.arraysHere with
  | .corrected cause addr => softError s.hereCore s.hereCtx cause addr.toNat (arraysRead s)
  | _ => arraysRead s

end Sys2Proof.Machine
end

