-- ==== Sys2Proof/Machine/Run.lean ====
section
/-!
DEFINITION. Run.lean: ISSUE: the choice of a wave, the line check, cancellation, decoding, breakpoints, the instruction itself
and what becomes of the wave (spec 02 R26 to R30, 03 R40, R41, R48 to R52, R60, 15 R313, 20 R386, R387, 21 R399).
-/
namespace Sys2Proof.Machine

/-- The meaning of an instruction that a wave issues. -/
def runInstr (i : Instr) (s : State) : State :=
  match i with
  | .iadd f => iadd f s
  | .isub f => isub f s
  | .iaddc f => iaddc f s
  | .isubb f => isubb f s
  | .imul f => imul f s
  | .imulh f => imulh f s
  | .imad f => imad f s
  | .idot4 f => idot4 f s
  | .imin f => imin f s
  | .imax f => imax f s
  | .iabs f => iabs f s
  | .ineg f => ineg f s
  | .andB f => andB f s
  | .orB f => orB f s
  | .xorB f => xorB f s
  | .andnB f => andnB f s
  | .notB f => notB f s
  | .shl f => shl f s
  | .shr f => shr f s
  | .sar f => sar f s
  | .rotl f => rotl f s
  | .funsh f => funsh f s
  | .bfx f => bfx f s
  | .bfi f => bfi f s
  | .popc f => popc f s
  | .clz f => clz f s
  | .ctz f => ctz f s
  | .brev f => brev f s
  | .permb f => permb f s
  | .sel f => sel f s
  | .isetp f => isetp f s
  | .plop f => plop f s
  | .mov f => mov f s
  | .movi f => movi f s
  | .fadd f => fadd f s
  | .fsub f => fsub f s
  | .fmul f => fmul f s
  | .ffma f => ffma f s
  | .fmin f => fmin f s
  | .fmax f => fmax f s
  | .fsetp f => fsetp f s
  | .fclass f => fclass f s
  | .frint f => frint f s
  | .fscale f => fscale f s
  | .hadd2 f => hadd2 f s
  | .hfma2 f => hfma2 f s
  | .cvt f => cvt f s
  | .sfn f => sfn f s
  | .shfl f => shfl f s
  | .vote f => vote f s
  | .redw f => redw f s
  | .prfx f => prfx f s
  | .matchL f => matchL f s
  | .hlane f => hlane f s
  | .exmrd f => exmrd f s
  | .exmwr f => exmwr f s
  | .exmand f => exmand f s
  | .exmor f => exmor f s
  | .tidx f => tidx f s
  | .shpset f => shpset f s
  | .isect f => isect f s
  | .deskew f => deskew f s
  | .pillar f => pillar f s
  | .lmul f => lmul f s
  | .lsum f => lsum f s
  | .lcvt f => lcvt f s
  | .bpack f => bpack f s
  | .bunpk f => bunpk f s
  | .clamp f => clamp f s
  | .scle f => scle f s
  | .ld f => ld f s
  | .st f => st f s
  | .lds f => lds f s
  | .sts f => sts f s
  | .ldw f => ldw f s
  | .stw f => stw f s
  | .ldc f => ldc f s
  | .pref f => pref f s
  | .cwb f => cwb f s
  | .cinv f => cinv f s
  | .cdemote f => cdemote f s
  | .atom f => atom f s
  | .cas f => cas f s
  | .red f => red f s
  | .ldl f => ldl f s
  | .stc f => stc f s
  | .fence f => fence f s
  | .acq f => acq f s
  | .rel f => rel f s
  | .bind f => bind f s
  | .unbind f => unbind f s
  | .waitc f => waitc f s
  | .bar f => bar f s
  | .leaseGet f => leaseGet f s
  | .leaseDrop f => leaseDrop f s
  | .leaseDropall f => leaseDropall f s
  | .boinit f => boinit f s
  | .boarr f => boarr f s
  | .botok f => botok f s
  | .bowait f => bowait f s
  | .bowaitp f => bowaitp f s
  | .rinit f => rinit f s
  | .rget f => rget f s
  | .rputRes f => rputRes f s
  | .rputPub f => rputPub f s
  | .rrel f => rrel f s
  | .rstat f => rstat f s
  | .evmap f => evmap f s
  | .evsig f => evsig f s
  | .evwait f => evwait f s
  | .cp f => cp f s
  | .cpblk f => cpblk f s
  | .fork f => fork f s
  | .rdv f => rdv f s
  | .mldb f => mldb f s
  | .mma f => mma f s
  | .accz f => accz f s
  | .accsc f => accsc f s
  | .accld f => accld f s
  | .accst f => accst f s
  | .msel f => msel f s
  | .mnext f => mnext f s
  | .mwaite f => mwaite f s
  | .msig f => msig f s
  | .mend f => mend f s
  | .mendLoop f => mendLoop f s
  | .loopL f => loopL f s
  | .endl f => endl f s
  | .emit f => emit f s
  | .permw f => permw f s
  | .lset f => lset f s
  | .lend f => lend f s
  | .spawn f => spawn f s
  | .spawnt f => spawnt f s
  | .launchg f => launchg f s
  | .exit f => exit f s
  | .yield f => yield f s
  | .cancel f => cancel f s
  | .dlset f => dlset f s
  | .dlrd f => dlrd f s
  | .cqbind f => cqbind f s
  | .cqbindOff f => cqbindOff f s
  | .cqpush f => cqpush f s
  | .cqflush f => cqflush f s
  | .futwait f => futwait f s
  | .futpoll f => futpoll f s
  | .poola f => poola f s
  | .poolf f => poolf f s
  | .qcol f => qcol f s
  | .qocc f => qocc f s
  | .sample f => sample f s
  | .sampleAcc f => sampleAcc f s
  | .seqnew f => seqnew f s
  | .seqfork f => seqfork f s
  | .seqend f => seqend f s
  | .seqcommit f => seqcommit f s
  | .seqcommitConf f => seqcommitConf f s
  | .seqdraft f => seqdraft f s
  | .seqrej f => seqrej f s
  | .seqrd f => seqrd f s
  | .pnset f => pnset f s
  | .pnclr f => pnclr f s
  | .bra f => bra f s
  | .brx f => brx f s
  | .call f => call f s
  | .callx f => callx f s
  | .ret f => ret f s
  | .nop f => nop f s
  | .trap f => trap f s
  | .trapPriv f => trapPriv f s
  | .eret f => eret f s
  | .eretExit f => eretExit f s
  | .eretFail f => eretFail f s
  | .eretE f => eretE f s
  | .eretEDone f => eretEDone f s
  | .eretEDone64 f => eretEDone64 f s
  | .sreg f => sreg f s
  | .swr f => swr f s
  | .bkpt f => bkpt f s
  | .mark f => mark f s
  | .smpl f => smpl f s
  | .tlbinvPage f => tlbinvPage f s
  | .tlbinvCtx f => tlbinvCtx f s
  | .tlbinvAll f => tlbinvAll f s
  | .ctxsetNew f => ctxsetNew f s
  | .ctxsetRoot f => ctxsetRoot f s
  | .ctxsetKill f => ctxsetKill f s
  | .wsetCore f => wsetCore f s
  | .wsetSlice f => wsetSlice f s
  | .wsetGran f => wsetGran f s
  | .wsetPort f => wsetPort f s
  | .wsetFn f => wsetFn f s
  | .regionCoh f => regionCoh f s
  | .regionSwm f => regionSwm f s
  | .biassetDev f => biassetDev f s
  | .biassetHost f => biassetHost f s
  | .wsave f => wsave f s
  | .wrest f => wrest f s
  | .sppin f => sppin f s
  | .spunpin f => spunpin f s
  | _ => s

/-! ## What follows without an instruction -/

/-- A trap that the handler wave raised itself, and a handler wave that has ended without ERET (spec 21 R404, R406). -/
def settleHandler (c : Nat) (s : State) : State :=
  let x := s.core c
  match x.handlerFault, x.serving with
  | some e, _ => failServed c e s
  | none, some p => if s.work.threads.any fun e => e.2.handlerOf == some c then s else failServed c p.regs.cause s
  | none, none => s
/-- Consequences of an instruction for other waves, for parked participants and for redundant pairs. -/
def settle (s : State) : State :=
  let s1 := (s.cores.map (·.1)).foldl (fun s c => settleHandler c s) s
  let s2 := (s1.work.waves.map (·.1)).foldl (fun s k => tidyWave k s) s1
  let teams := dedup ((s2.work.threads.filter fun e => match e.2.park with | some (.sync _) => true | _ => false).map fun e => e.2.team)
  let s3 := teams.foldl (fun s t => resolveBars t (resolveWaves t s)) s2
  (s3.pairs.map (·.1)).foldl (fun s p => settlePair p s) s3

/-! ## The choice of a wave (spec 15 R313, 21 R404) -/

/-- A pinned wave that stands before a safe point and must not pass it. -/
def refused (s : State) (w : Wave) : Bool :=
  match (s.active w).head? with
  | some l =>
    l.th.handlerOf.isNone && ((s.team l.th.team).preempt || (s.present w).any (fun l => suspended s l.th)) && standsSafe s l.th w.pc
  | none => false
/-- A wave may issue: some executing thread of it can go on, and the others can with it. -/
def issuable (s : State) (w : Wave) : Bool :=
  let ls := s.active w
  !w.away && (w.slot == Config.handlerSlot || !restoring s w.team) && ls.any (fun l => !blocked l.th) && (match w.forming with | none => true | some t => decide (t ≤ s.clock)) &&
    ls.all (fun l => !l.th.stopped && (l.th.park.isNone || rereads l.th) && l.th.readyAt == 0) && !(w.holdsAny && refused s w)
/-- The threads of a pinned wave that wait for a condition reissue with the one that can go on (spec 02 R30, log entry 16). -/
def rejoin (k : Nat) (s : State) : State :=
  ((s.active (s.wave k)).filter fun l => rereads l.th).foldl (fun s l => leaveWait l.id s) s
/-- The wave that a quadrant issues next: one in a latch stretch, the handler wave, or the one that has waited longest. -/
def pickWave (s : State) (c q : Nat) : Option Nat :=
  let ws := s.work.waves.filter fun e => e.2.core == c && e.2.quad == q && !e.2.away
  match ws.find? fun e => inStretch s e.2 with
  | some e => if issuable s e.2 then some e.1 else none
  | none =>
    let ok := ws.filter fun e => issuable s e.2
    ((ok.find? fun e => e.2.slot == Config.handlerSlot).orElse fun _ => leastBy (fun e => e.2.lastIssue * 64 + e.2.slot) ok).map (·.1)

/-! ## One issue -/

/-- One privileged trap of some threads of the issuing wave. -/
def waveTrap (ls : List Lane) (a : TrapAt) (v : TrapVal) (s : State) : State := takePriv s (ls.map Lane.id) a v
def activeLanes (s : State) : List Lane := s.active (s.wave s.curWave)
/-- The checked line at the wave's PC (spec 03 R40). -/
def enterLine (who : Who) (s : State) : Except Byte FLine × State :=
  let w := s.wave s.curWave
  let la := lineAddr w.pc
  match w.line with
  | some (a, l) => if a = la then (.ok l, s) else fresh la s
  | none => fresh la s
where fresh (la : DWord) (s : State) : Except Byte FLine × State :=
  let r := fetchLine who la s
  match r.1 with
  | .ok l => (.ok l, r.2.modWave s.curWave fun w => { w with line := some (la, l) })
  | .error e => (.error e, r.2.modWave s.curWave fun w => { w with line := none })
/-- What a wave decodes (spec 03 R60). -/
def waveEnv (s : State) (t : Thread) : DecEnv :=
  { regs := s.regsOf t, priv := s.privOf t, handler := t.handlerOf.isSome, shapeSec := (s.gridOf t).shapeSec.isSome }
/-- The fields of a word whose operands s.eval_a to s.eval_c take: a field that its instruction does not use supplies 0 (spec 21
R407). -/
def suppliedFields (w : IWord) : Fields :=
  let f := unpackFields w
  let used := fun (k : Kind) (o : Opnd) => if k == .unused then .zero else o
  match selectOp (opField w).toNat f with
  | .ok i => { f with a := used (shapeOf i).a f.a, b := used (shapeOf i).b f.b, c := used (shapeOf i).c f.c }
  | .error _ => f
/-- A decode cause, for every active thread whatever its guard. -/
def decodeTrap (a : TrapAt) (e : DecErr) (s : State) : State :=
  let ls := activeLanes s
  if (e.cause = 0x01 || e.cause = 0x02) && opField a.word ≠ 0xFF then
    takeUsers s (suppliedFields a.word) a (ls.map fun l => (l, { cause := e.cause, field := e.field }))
  else waveTrap (byHidx ls) a { cause := e.cause, field := e.field } s
/-- Threads of a debuggable context that a breakpoint or step stops at a safe point, and the cause (spec 20 R386). -/
def stopsHere (s : State) : Option (Byte × List Lane) :=
  let w := s.wave s.curWave
  let ls := (activeLanes s).filter fun l => l.th.handlerOf.isNone && l.th.resume != some w.pc
  let x := s.ctx s.hereCtx
  let g := s.grid (s.team s.curTeam).grid
  let n := (g.ordinal w.pc).toNat
  let exact := decide (n < g.safePts.length) && decide ((g.safePts.getD n {}).off = (w.pc - g.textBase).toNat)
  let hit := exact && (List.range 8).any fun k =>
    let b := x.blk.bpa.getD k 0
    b.getLsbD 63 && (b.extractLsb' 0 57).toNat == g.codeBase.toNat % 2 ^ 57 && (x.blk.bpo.getD k 0).toNat == n
  if !x.dbg || ls.isEmpty then none
  else if hit then some (0x10, ls)
  else if x.blk.step && x.blk.steam == (s.team s.curTeam).index then some (0x11, ls)
  else none
/-- Global memory instructions, for sampling (spec 20 R392). -/
def globalMem (i : Instr) : Bool :=
  match i with
  | .ld _ => true
  | .st _ => true
  | .ldc _ => true
  | .pref _ => true
  | .atom f => f.sp == 0
  | .cas f => f.sp == 0
  | .red f => f.sp == 0
  | .ldl _ => true
  | .stc _ => true
  | .acq f => f.sp == 0
  | .rel f => f.sp == 0
  | .waitc _ => true
  | _ => false
/-- A sampled instruction opens the breakdown of its core. -/
def sampleMem (i : Instr) (s : State) : State :=
  let w := s.wave s.curWave
  let ls := activeLanes s
  let x := s.ctx s.hereCtx
  if !globalMem i then s
  else
    let n := (s.core w.core).memCount + 1
    let k := (x.blk.smp.extractLsb' 24 8).toNat
    let due := x.blk.smpOn && k != 0 && n % 2 ^ k == 0
    let armed := ls.any fun l => l.th.smpl
    let s1 := (s.modCore w.core fun c => { c with memCount := n }).modThreads (ls.map Lane.id) fun t => { t with smpl := false }
    if x.dbg && (due || armed) then
      s1.modCore w.core fun c => { c with brk := some (s.hereOrdinal, s.hereCtx, w.quad, w.slot, false) }
    else s1
/-- The instruction restores latches for the run that follows it (spec 21 R409). -/
def restores (i : Instr) : Bool :=
  match i with
  | .eretE _ => true
  | .eretEDone _ => true
  | .eretEDone64 _ => true
  | _ => false
/-- The instruction enters a line when it transfers, by a branch or by a return. -/
def leaps (i : Instr) : Bool :=
  match i with
  | .bra _ => true
  | .brx _ => true
  | .call _ => true
  | .callx _ => true
  | .ret _ => true
  | .eret _ => true
  | .eretExit _ => true
  | .eretFail _ => true
  | .eretE _ => true
  | .eretEDone _ => true
  | .eretEDone64 _ => true
  | _ => false
/-- The latch that an instruction writes. -/
def latchBit (f : Fields) : Byte := if f.latchEn then 1#8 <<< f.latchIx.toNat else 0
/-- A pinned wave that stands where an instruction of it transferred to has entered that line anew (spec 03 R40). -/
def reenter (k : Nat) (gone : List Nat) (s : State) : State :=
  if (s.active (s.wave k)).any fun l => gone.contains l.id then s.modWave k fun w => { w with line := none } else s
/-- The end of an instruction for its wave: a stop bit ends the latch run, and the wave unless it is pinned. -/
def afterIssue (k : Nat) (pc : DWord) (stop : Bool) (latches : Byte) (pinned : Bool) (ids gone : List Nat) (s : State) : State :=
  let s1 := s.modThreads ids fun t => if t.matched.isSome && t.matched != some t.pc then { t with matched := none } else t
  if stop then
    let held := ((s1.present (s1.wave k)).map Lane.id).filter fun t => !ids.contains t
    let s2 := (s1.modThreads ids dropLatches).modThreads held loseLatches
    match s2.wave? k with
    | none => s2
    | some w =>
      if pinned || w.holdsAny then reenter k gone (tidyWave k (s2.setWave k { w with latches := 0 })) else dissolve k s2
  else
    tidyWave k (s1.modWave k fun w => { w with pc := succPc pc, latches := w.latches ||| latches })
/-- A decoded instruction, or a pair of them, issued by the current wave. -/
def issueInstr (k : Nat) (i : Instr) (second : Option Instr) (s : State) : State :=
  let w := s.wave k
  let ls := activeLanes s
  let ids := ls.map Lane.id
  let f := (fieldsOf i).getD (unpackFields 0)
  let again := ls.any fun l => l.th.resume == some w.pc
  let s0 := if f.stop then s.modThreads ids fun t =>
      { t with resume := if t.resume == some w.pc then none else t.resume, restoreQ := t.restoreQ && restores i } else s
  match cmpGate i f s0 with
  | some s1 => s1
  | none =>
    let s1 := runInstr i (if again then s0 else sampleMem i s0)
    let gone := if leaps i then (s.execLanes f).map Lane.id else []
    match second with
    | none => afterIssue k w.pc f.stop (latchBit f) w.holdsAny ids gone s1
    | some j =>
      let next := succPc w.pc
      let g := (fieldsOf j).getD f
      afterIssue k next false (latchBit f ||| latchBit g) w.holdsAny ids [] (runInstr j (s1.modWave k fun x => { x with pc := next }))
/-- Decoding at a slot of the wave's line, then the instruction (spec 03 R52, R60, 21 R399). -/
def decodeIssue (k : Nat) (l0 : Lane) (l : FLine) (slot : Nat) (s : State) : State :=
  let w := s.wave k
  let env := waveEnv s l0.th
  let first := (tplPairs (lineTpl l)).contains slot
  let a : TrapAt := s.here
  match decodeWord env (lineSlot l slot) with
  | .error e => decodeTrap a e s
  | .ok i =>
    if first then
      let b : TrapAt := ⟨lineSlot l (slot + 1), succPc w.pc, true, false, false⟩
      match decodeWord env b.word with
      | .error e => decodeTrap b e s
      | .ok j =>
        if pairOk i (unpackFields a.word) j (unpackFields b.word) then
          match (softTrap a i s).orElse fun _ => softTrap b j s with
          | some t => t
          | none => issueInstr k i (some j) (softFixed s)
        else decodeTrap a ⟨0x03, 0⟩ s
    else
      match (if a.word.getLsbD 79 then stopsHere s else none) with
      | some (c, ls) =>
        let m := ls.foldl (fun (m : Word) x => m ||| (1#32 <<< x.lane)) 0
        waveTrap (byHidx ls) a { cause := c, einfo := m ++ s.hereOrdinal } s
      | none =>
        match softTrap a i s with
        | some t => t
        | none => issueInstr k i none (softFixed s)
/-- The wave's next instruction: the line, then what a safe point owes, then the entry check, then decoding. -/
def issueAt (k : Nat) (l0 : Lane) (slot : Nat) (s0 : State) : State :=
  let who := whoOf s0 l0.th
  let r := enterLine who s0
  let s := r.2
  let w := s.wave k
  let ls := activeLanes s
  match r.1 with
  | .error e => waveTrap (byHidx ls) s.here { cause := e, eaddr := if e = 0x04 || e = 0x08 then lineAddr w.pc else w.pc } s
  | .ok l =>
    let safe := (lineSlot l slot).getLsbD 79
    let gone := ls.filter fun x => x.th.cancel.isSome && x.th.handlerOf.isNone
    if safe && refused s w then (if w.holdsAny then s else dissolve k s)
    else if safe && !gone.isEmpty then (byHidx gone).foldl (fun s x => takeCancel x.id s) s
    else
      let entered := ls.filter fun x => x.th.entryCheck
      if entered.isEmpty then decodeIssue k l0 l slot s
      else
        let s1 := s.modThreads (entered.map Lane.id) fun t => { t with entryCheck := false }
        if !lineBtm l slot then waveTrap (byHidx entered) s.here { cause := 0x05, eaddr := w.pc } s1
        else decodeIssue k l0 l slot (noteEntry who (lineAddr w.pc) s1)
/-- A wave issues at its PC. Threads of a wave at an address that is no slot address raise BRANCH_TARGET without their line being
read, whatever its parity or format (log entry 62). -/
def issueWave (k : Nat) (s : State) : State :=
  let s0 := { s with cur := .wave k }.modWave k fun w => { w with lastIssue := s.clock, forming := none }
  let ls := activeLanes s0
  match ls.head? with
  | none => s0.delWave k
  | some l0 =>
    let s1 := s0.modThreads (ls.map Lane.id) fun t => { t with lastIssue := s.clock }
    let pc := (s1.wave k).pc
    match slotOf pc with
    | none => waveTrap (byHidx ls) { s1.here with word := 0 } { cause := 0x05, eaddr := pc } s1
    | some slot => issueAt k l0 slot s1
/-- One issue of a quadrant. -/
def issue (core quad : Nat) (s : State) : State :=
  if s.guidon.frozen then s
  else
    match pickWave s core quad with
    | none => { settle s with cur := .none }
    | some k => { settle (issueWave k (rejoin k s)) with cur := .none }

/-! Each answers the next state that the definition of its name gives. -/
def execIssue (core : Nat) (quad : Nat) (s : State) : Host.Outcome State Fault Refusal := .next (issue core quad s)
end Sys2Proof.Machine
end

