-- ==== Sys2Proof/Machine/Agenda.lean ====
section
/-!
DEFINITION. Agenda.lean: device time, and which of the transitions that are due comes next. The spec leaves the order of
independent agents open; the model takes the transitions that are due in turn (log entry 2).
-/
namespace Sys2Proof.Machine

/-! ## Time (spec 00 R6, 01 R12) -/

/-- The wave samples due at a cycle: one of each context that samples, on each core that holds a team of it (spec 20 R391). -/
def samplesDue (s : State) (clock : Nat) : List Instr :=
  let live := s.ctxs.filter fun e =>
    let n := 256 * (e.2.blk.smp.extractLsb' 0 24).toNat
    e.2.dbg && e.2.blk.smpOn && n != 0 && clock % n == 0
  live.flatMap fun e =>
    ((s.cores.map (·.1)).filter fun c => (teamsOn s c).any fun t => (s.grid t.2.grid).ctx == e.1).map fun c => .waveSample c e.1
/-- One arithmetic cycle: device time follows the arithmetic clock, and what recurs joins the agenda (spec 15 R310, 20 R391,
22 R427, 23 R442). -/
def tick (s : State) : State :=
  let clock := s.clock + 1
  let t := s.tickRem + 1000
  let dt := s.dtime + t / s.power.fclk
  let beat := if decide (2 ≤ s.boot.step.toNat) && dt / 1000000 != s.dtime / 1000000 then [Instr.hbOutToggle] else []
  let follow := if s.guidon.frozen && !s.banks.isEmpty && dt / 10000 != s.dtime / 10000 then [Instr.freezeRingStep] else []
  let share := if clock % 256 = 0 && !s.work.tasks.isEmpty then [Instr.neighbourAveraging] else []
  { s with
    clock := clock, dtime := dt, tickRem := t % s.power.fclk
    agenda := s.agenda ++ (if s.guidon.frozen then [] else share ++ samplesDue s clock) ++ beat ++ follow }

/-! ## What is due -/

def coreKeys (s : State) : List Nat := s.cores.map (·.1)
/-- Lines on their way to or from an L1. -/
def dueLines (s : State) : List Instr :=
  (coreKeys s).flatMap fun c =>
    ((s.core c).miss.filter fun e => !underWay s c (lineOf e.1) [.read, .data]).map (fun e => .missDataFill c e.1 .clean) ++
      ((s.core c).wbs.filter fun e => !underWay s c e.1 [.back, .ack]).map fun e => .writebackAck c e.1
/-- Transitions of cores, waves and threads. -/
def dueCores (s : State) : List Instr :=
  (coreKeys s).flatMap fun c =>
    let x := s.core c
    (if !x.traps.isEmpty && x.serving.isNone then [.trapServe c] else []) ++
      ((List.range 4).flatMap fun q =>
        (if (formHandler s c q).isSome || (formable s c q).isSome then [.waveFormation c q] else []) ++
          (if (pickWave s c q).isSome then [.issue c q] else [])) ++
      (if x.l1Pend.isSome && (teamsOn s c).isEmpty then [.l1SplitChange c] else []) ++
      if (missWaiters s c).isEmpty then [] else [.missEntryGrant c]
def dueThreads (s : State) : List Instr :=
  s.work.threads.flatMap fun e =>
    (if e.2.readyAt ≠ 0 ∧ e.2.readyAt ≤ s.clock then [.yieldExpiry e.1] else []) ++
      match e.2.park with
      | some (.poll t) => if t ≤ s.dtime then [.monitorPoll e.1] else []
      | some (.tasks) => [.taskEmissionResume (s.team e.2.team).grid]
      | _ => []
/-- Transitions of teams, grids and tasks. -/
def dueWork (s : State) : List Instr :=
  s.work.teams.flatMap (fun e =>
      (if canRetire s e.1 then [.teamRetire e.1] else []) ++ (if (e.2.preempt && e.2.core.isSome) || swapWanted s e.1 then [.preemption e.1] else [])) ++
    s.work.grids.flatMap (fun e =>
      (if drained s e.1 then [.gridDrain e.1] else []) ++
        (if e.2.deadline ≠ 0 ∧ e.2.deadline ≤ s.dtime ∧ e.2.cancel.isNone then [.deadlineFire e.1] else []) ++
        (if e.2.emitted < e.2.teams || !e.2.pendChild.isEmpty then [.taskEmissionResume e.1] else [])) ++
    (refillsDue s).map (fun p => .scratchpadRefill p.1 p.2) ++
    s.work.tasks.flatMap (fun e =>
      (match e.2.transit with
       | some t => if t ≤ s.clock then [.taskTransitArrival e.1] else []
       | none => [])) ++
    (dedup (s.work.tasks.map fun e => e.2.core)).flatMap (fun c =>
      if (s.work.tasks.any fun e => (strayTo c s e.2).isSome) || (pickTask c (allowed c s) (returnStrays c s)).isSome then
        [.dispatchDecision c] else []) ++
    s.work.waves.flatMap (fun e =>
      match e.2.forming with | some t => if t ≤ s.clock then [.formingWaveTimeout e.1] else [] | none => []) ++
    s.queues.flatMap fun e => if e.2.waits then [.launchAcceptResume e.1] else []
/-- A restore task that its own core does not take, on another eligible core. -/
def dueRestores (s : State) : List Instr :=
  s.work.tasks.flatMap fun e =>
    if e.2.kind.isRestore then ((List.range 128).filter fun c => mayRestore c e.1 s).map fun c => .teamRestore c e.1 else []
/-- Transitions of the engines of a core. -/
def dueEngines (s : State) : List Instr :=
  (coreKeys s).flatMap fun c =>
    let x := s.core c
    let g := x.group
    if (s.pair (c / 2)).stop then []
    else
      (if x.cpe.halt.isNone && (nextCopy s x.cpe.q []).isSome then [.copySector c .clean] else []) ++
        ((x.cpe.q.filter (Copy.isOver s)).map fun k => .copyComplete c k.id) ++
        (if g.mxe.halt.isNone && !g.mxe.q.isEmpty then [.matrixCommandComplete c] else []) ++
        ([Engine.copy, .matrix, .lcp].flatMap fun e =>
          if (progPc s c e).isSome && !engineHalted s c e then [.engineProgramFetch c e] else []) ++
        (g.sinks.flatMap fun k =>
          if k.2.cnt = 0 then []
          else if k.2.act = 1 then [.sinkMprogStart c k.1]
          else if k.2.act = 2 then [.sinkCopySubmit c k.1] else []) ++
        g.bins.flatMap fun b =>
          (if b.2.t ≠ 0 && !b.2.cur.rows.isEmpty && decide (b.2.cur.first + 256 * b.2.t ≤ s.clock) then [.binTimeout c b.1] else []) ++
            (match Tab.find g.rings b.2.ring with
             | some r => if !b.2.closed.isEmpty && r.e ≠ 0 then [.tileEmit c b.1] else []
             | none => [])
/-- Walks, transactions of the directory, and messages on the channels. -/
def dueFlight (s : State) : List Instr :=
  (if s.walks.isEmpty then [] else [.tlbWalk 0]) ++
    s.home.dir.flatMap (fun e =>
      let d := e.2
      if !d.pending then []
      else if d.invs = 0 && d.acks = 0 then [.merge e.1]
      else if d.st == .b then [.mergeRequest e.1]
      else (((coresOf d.invs).filter fun c => !underWay s c e.1 [.inval]).map fun c => .invalidation c e.1) ++
        ((coresOf d.acks).filter fun c => !d.invs.getLsbD c && !underWay s c e.1 [.done]).map fun c => .invalidationAck c e.1) ++
    s.fabric.chans.flatMap (fun e => if e.2.msgs.isEmpty then [] else [.burgeeHold e.1])
/-- Transitions of the memory system. -/
def dueMemory (s : State) : List Instr :=
  dueLines s ++ dueFlight s ++
    s.home.monitors.flatMap (fun e => if condHolds e.2.cond e.2.size (monitorRead e.2 s).1 e.2.val.toNat && wakeAllowed s e.2 then [.monitorWake e.1] else []) ++
    (s.clusters.filter fun e => !e.2.queries.isEmpty).map fun e => .queryComplete e.1
/-- Transitions of the fabric, and those that time alone brings. -/
def dueTimed (s : State) : List Instr :=
  (((dedup (s.fabric.inbox ++ assembled s)).filter fun p =>
      arrivalAllowed s p && !(snoopFirst s p && s.home.binv.contains (lineOf (p.pa % 2 ^ 43)))).map fun p => .packetDeliver p) ++
    s.fabric.flows.flatMap (fun e => (e.2.outst.filter fun o => decide (o.sent + 20000 ≤ s.dtime)).map fun o => .retransmitTimeout e.1 o.pkt.seq) ++
    s.fabric.pageVer.flatMap (fun e => match e.2.embargo with | some t => if t ≤ s.dtime then [.leaseEmbargoEnd e.1] else [] | none => []) ++
    s.pairs.flatMap (fun e =>
      (if !e.2.prim.isEmpty && !e.2.sec.isEmpty then [.comparatorMatch e.1] else []) ++
        (if (e.2.prim.isEmpty || e.2.sec.isEmpty) && (e.2.prim ++ e.2.sec).any (fun k => decide (k.time + 100000 ≤ s.dtime)) then
          [.comparatorTimeout e.1] else [])) ++
    (dedup ((s.cores.filter fun e => match e.2.holdUntil with | some t => decide (t ≤ s.dtime) | none => false).map fun e => e.1 / 8)).map
      (fun cl => .vacateHoldExpiry cl) ++
    s.banks.flatMap (fun e => match e.2.busy with | some t => if t + 1000000 ≤ s.dtime then [.phbHoldTimeout e.1] else [] | none => []) ++
    (if s.guidon.hbwin ≠ 0 && !s.guidon.frozen && decide (s.guidon.hbFrom + 1000 * s.guidon.hbwin.toNat ≤ s.dtime) then [.heartbeatMissed] else [])
/-- Every transition that is due. In a frozen module the accesses in flight complete, and it becomes quiescent; its links keep what
they receive (spec 22 R426). -/
def due (s : State) : List Instr :=
  if s.guidon.frozen then
    if s.guidon.quiet then [] else match dueLines s ++ dueFlight s with | [] => [.moduleQuiescent] | ds => ds
  else dueCores s ++ dueThreads s ++ dueWork s ++ dueRestores s ++ dueEngines s ++ dueMemory s ++ dueTimed s
/-- The next transition: the head of the agenda, else those that are due in turn; with none, an issue of quadrant 0 of core
0, which finds nothing to issue. -/
def nextStep (s : State) : Instr :=
  match s.agenda with
  | i :: _ => i
  | [] =>
    let ds := due s ++ [.issue 0 0]
    ds.getD (s.clock % ds.length) (.issue 0 0)
/-- Lines that wait for a way of a full L2 set: their victims are recalled (spec 09 R188, 13 R276). -/
def recallVictims (s : State) : State :=
  if s.guidon.frozen then s
  else s.home.l2Wait.foldl (fun s e => match l2Victim s e.1 with | some v => dirRecall v s | none => s) s
/-- At each 1 µs interval a monitored line is merged while any core holds a partial of it (spec 11 R236). -/
def mergeMonitored (before : Nat) (s : State) : State :=
  if s.guidon.frozen || s.dtime / 1000 == before / 1000 then s
  else s.home.monitors.foldl (fun s e => if e.2.scr.isNone then mergeLine (lineOf e.2.addr) (settleLine (lineOf e.2.addr) s) else s) s
/-- The machine one arithmetic cycle on, the transition it makes taken from the agenda. -/
def advanceTime (s : State) : State :=
  let s1 := mergeMonitored s.dtime (recallVictims (tick s))
  { s1 with agenda := s1.agenda.drop 1 }

end Sys2Proof.Machine
end

