-- ==== Sys2Proof/Machine/Dispatch.lean ====
section
/-!
DEFINITION. Dispatch.lean: one arm for each constructor of Instr.
-/
namespace Sys2Proof.Machine

/-- The meaning of an instruction or event. -/
def exec (i : Instr) (s : State) : Host.Outcome State Fault Refusal :=
  match i with
  | .iadd f => Sys2Proof.Machine.execIadd f s
  | .isub f => Sys2Proof.Machine.execIsub f s
  | .iaddc f => Sys2Proof.Machine.execIaddc f s
  | .isubb f => Sys2Proof.Machine.execIsubb f s
  | .imul f => Sys2Proof.Machine.execImul f s
  | .imulh f => Sys2Proof.Machine.execImulh f s
  | .imad f => Sys2Proof.Machine.execImad f s
  | .idot4 f => Sys2Proof.Machine.execIdot4 f s
  | .imin f => Sys2Proof.Machine.execImin f s
  | .imax f => Sys2Proof.Machine.execImax f s
  | .iabs f => Sys2Proof.Machine.execIabs f s
  | .ineg f => Sys2Proof.Machine.execIneg f s
  | .andB f => Sys2Proof.Machine.execAndB f s
  | .orB f => Sys2Proof.Machine.execOrB f s
  | .xorB f => Sys2Proof.Machine.execXorB f s
  | .andnB f => Sys2Proof.Machine.execAndnB f s
  | .notB f => Sys2Proof.Machine.execNotB f s
  | .shl f => Sys2Proof.Machine.execShl f s
  | .shr f => Sys2Proof.Machine.execShr f s
  | .sar f => Sys2Proof.Machine.execSar f s
  | .rotl f => Sys2Proof.Machine.execRotl f s
  | .funsh f => Sys2Proof.Machine.execFunsh f s
  | .bfx f => Sys2Proof.Machine.execBfx f s
  | .bfi f => Sys2Proof.Machine.execBfi f s
  | .popc f => Sys2Proof.Machine.execPopc f s
  | .clz f => Sys2Proof.Machine.execClz f s
  | .ctz f => Sys2Proof.Machine.execCtz f s
  | .brev f => Sys2Proof.Machine.execBrev f s
  | .permb f => Sys2Proof.Machine.execPermb f s
  | .sel f => Sys2Proof.Machine.execSel f s
  | .isetp f => Sys2Proof.Machine.execIsetp f s
  | .plop f => Sys2Proof.Machine.execPlop f s
  | .mov f => Sys2Proof.Machine.execMov f s
  | .movi f => Sys2Proof.Machine.execMovi f s
  | .fadd f => Sys2Proof.Machine.execFadd f s
  | .fsub f => Sys2Proof.Machine.execFsub f s
  | .fmul f => Sys2Proof.Machine.execFmul f s
  | .ffma f => Sys2Proof.Machine.execFfma f s
  | .fmin f => Sys2Proof.Machine.execFmin f s
  | .fmax f => Sys2Proof.Machine.execFmax f s
  | .fsetp f => Sys2Proof.Machine.execFsetp f s
  | .fclass f => Sys2Proof.Machine.execFclass f s
  | .frint f => Sys2Proof.Machine.execFrint f s
  | .fscale f => Sys2Proof.Machine.execFscale f s
  | .hadd2 f => Sys2Proof.Machine.execHadd2 f s
  | .hfma2 f => Sys2Proof.Machine.execHfma2 f s
  | .cvt f => Sys2Proof.Machine.execCvt f s
  | .sfn f => Sys2Proof.Machine.execSfn f s
  | .shfl f => Sys2Proof.Machine.execShfl f s
  | .vote f => Sys2Proof.Machine.execVote f s
  | .redw f => Sys2Proof.Machine.execRedw f s
  | .prfx f => Sys2Proof.Machine.execPrfx f s
  | .matchL f => Sys2Proof.Machine.execMatchL f s
  | .hlane f => Sys2Proof.Machine.execHlane f s
  | .exmrd f => Sys2Proof.Machine.execExmrd f s
  | .exmwr f => Sys2Proof.Machine.execExmwr f s
  | .exmand f => Sys2Proof.Machine.execExmand f s
  | .exmor f => Sys2Proof.Machine.execExmor f s
  | .tidx f => Sys2Proof.Machine.execTidx f s
  | .shpset f => Sys2Proof.Machine.execShpset f s
  | .isect f => Sys2Proof.Machine.execIsect f s
  | .deskew f => Sys2Proof.Machine.execDeskew f s
  | .pillar f => Sys2Proof.Machine.execPillar f s
  | .lmul f => Sys2Proof.Machine.execLmul f s
  | .lsum f => Sys2Proof.Machine.execLsum f s
  | .lcvt f => Sys2Proof.Machine.execLcvt f s
  | .bpack f => Sys2Proof.Machine.execBpack f s
  | .bunpk f => Sys2Proof.Machine.execBunpk f s
  | .clamp f => Sys2Proof.Machine.execClamp f s
  | .scle f => Sys2Proof.Machine.execScle f s
  | .ld f => Sys2Proof.Machine.execLd f s
  | .st f => Sys2Proof.Machine.execSt f s
  | .lds f => Sys2Proof.Machine.execLds f s
  | .sts f => Sys2Proof.Machine.execSts f s
  | .ldw f => Sys2Proof.Machine.execLdw f s
  | .stw f => Sys2Proof.Machine.execStw f s
  | .ldc f => Sys2Proof.Machine.execLdc f s
  | .pref f => Sys2Proof.Machine.execPref f s
  | .cwb f => Sys2Proof.Machine.execCwb f s
  | .cinv f => Sys2Proof.Machine.execCinv f s
  | .cdemote f => Sys2Proof.Machine.execCdemote f s
  | .atom f => Sys2Proof.Machine.execAtom f s
  | .cas f => Sys2Proof.Machine.execCas f s
  | .red f => Sys2Proof.Machine.execRed f s
  | .ldl f => Sys2Proof.Machine.execLdl f s
  | .stc f => Sys2Proof.Machine.execStc f s
  | .fence f => Sys2Proof.Machine.execFence f s
  | .acq f => Sys2Proof.Machine.execAcq f s
  | .rel f => Sys2Proof.Machine.execRel f s
  | .bind f => Sys2Proof.Machine.execBind f s
  | .unbind f => Sys2Proof.Machine.execUnbind f s
  | .waitc f => Sys2Proof.Machine.execWaitc f s
  | .bar f => Sys2Proof.Machine.execBar f s
  | .leaseGet f => Sys2Proof.Machine.execLeaseGet f s
  | .leaseDrop f => Sys2Proof.Machine.execLeaseDrop f s
  | .leaseDropall f => Sys2Proof.Machine.execLeaseDropall f s
  | .boinit f => Sys2Proof.Machine.execBoinit f s
  | .boarr f => Sys2Proof.Machine.execBoarr f s
  | .botok f => Sys2Proof.Machine.execBotok f s
  | .bowait f => Sys2Proof.Machine.execBowait f s
  | .bowaitp f => Sys2Proof.Machine.execBowaitp f s
  | .rinit f => Sys2Proof.Machine.execRinit f s
  | .rget f => Sys2Proof.Machine.execRget f s
  | .rputRes f => Sys2Proof.Machine.execRputRes f s
  | .rputPub f => Sys2Proof.Machine.execRputPub f s
  | .rrel f => Sys2Proof.Machine.execRrel f s
  | .rstat f => Sys2Proof.Machine.execRstat f s
  | .evmap f => Sys2Proof.Machine.execEvmap f s
  | .evsig f => Sys2Proof.Machine.execEvsig f s
  | .evwait f => Sys2Proof.Machine.execEvwait f s
  | .cp f => Sys2Proof.Machine.execCp f s
  | .cpblk f => Sys2Proof.Machine.execCpblk f s
  | .fork f => Sys2Proof.Machine.execFork f s
  | .rdv f => Sys2Proof.Machine.execRdv f s
  | .mldb f => Sys2Proof.Machine.execMldb f s
  | .mma f => Sys2Proof.Machine.execMma f s
  | .accz f => Sys2Proof.Machine.execAccz f s
  | .accsc f => Sys2Proof.Machine.execAccsc f s
  | .accld f => Sys2Proof.Machine.execAccld f s
  | .accst f => Sys2Proof.Machine.execAccst f s
  | .msel f => Sys2Proof.Machine.execMsel f s
  | .mnext f => Sys2Proof.Machine.execMnext f s
  | .mwaite f => Sys2Proof.Machine.execMwaite f s
  | .msig f => Sys2Proof.Machine.execMsig f s
  | .mend f => Sys2Proof.Machine.execMend f s
  | .mendLoop f => Sys2Proof.Machine.execMendLoop f s
  | .loopL f => Sys2Proof.Machine.execLoopL f s
  | .endl f => Sys2Proof.Machine.execEndl f s
  | .emit f => Sys2Proof.Machine.execEmit f s
  | .permw f => Sys2Proof.Machine.execPermw f s
  | .lset f => Sys2Proof.Machine.execLset f s
  | .lend f => Sys2Proof.Machine.execLend f s
  | .spawn f => Sys2Proof.Machine.execSpawn f s
  | .spawnt f => Sys2Proof.Machine.execSpawnt f s
  | .launchg f => Sys2Proof.Machine.execLaunchg f s
  | .exit f => Sys2Proof.Machine.execExit f s
  | .yield f => Sys2Proof.Machine.execYield f s
  | .cancel f => Sys2Proof.Machine.execCancel f s
  | .dlset f => Sys2Proof.Machine.execDlset f s
  | .dlrd f => Sys2Proof.Machine.execDlrd f s
  | .cqbind f => Sys2Proof.Machine.execCqbind f s
  | .cqbindOff f => Sys2Proof.Machine.execCqbindOff f s
  | .cqpush f => Sys2Proof.Machine.execCqpush f s
  | .cqflush f => Sys2Proof.Machine.execCqflush f s
  | .futwait f => Sys2Proof.Machine.execFutwait f s
  | .futpoll f => Sys2Proof.Machine.execFutpoll f s
  | .poola f => Sys2Proof.Machine.execPoola f s
  | .poolf f => Sys2Proof.Machine.execPoolf f s
  | .qcol f => Sys2Proof.Machine.execQcol f s
  | .qocc f => Sys2Proof.Machine.execQocc f s
  | .sample f => Sys2Proof.Machine.execSample f s
  | .sampleAcc f => Sys2Proof.Machine.execSampleAcc f s
  | .seqnew f => Sys2Proof.Machine.execSeqnew f s
  | .seqfork f => Sys2Proof.Machine.execSeqfork f s
  | .seqend f => Sys2Proof.Machine.execSeqend f s
  | .seqcommit f => Sys2Proof.Machine.execSeqcommit f s
  | .seqcommitConf f => Sys2Proof.Machine.execSeqcommitConf f s
  | .seqdraft f => Sys2Proof.Machine.execSeqdraft f s
  | .seqrej f => Sys2Proof.Machine.execSeqrej f s
  | .seqrd f => Sys2Proof.Machine.execSeqrd f s
  | .pnset f => Sys2Proof.Machine.execPnset f s
  | .pnclr f => Sys2Proof.Machine.execPnclr f s
  | .bra f => Sys2Proof.Machine.execBra f s
  | .brx f => Sys2Proof.Machine.execBrx f s
  | .call f => Sys2Proof.Machine.execCall f s
  | .callx f => Sys2Proof.Machine.execCallx f s
  | .ret f => Sys2Proof.Machine.execRet f s
  | .nop f => Sys2Proof.Machine.execNop f s
  | .trap f => Sys2Proof.Machine.execTrap f s
  | .trapPriv f => Sys2Proof.Machine.execTrapPriv f s
  | .eret f => Sys2Proof.Machine.execEret f s
  | .eretExit f => Sys2Proof.Machine.execEretExit f s
  | .eretFail f => Sys2Proof.Machine.execEretFail f s
  | .eretE f => Sys2Proof.Machine.execEretE f s
  | .eretEDone f => Sys2Proof.Machine.execEretEDone f s
  | .eretEDone64 f => Sys2Proof.Machine.execEretEDone64 f s
  | .sreg f => Sys2Proof.Machine.execSreg f s
  | .swr f => Sys2Proof.Machine.execSwr f s
  | .bkpt f => Sys2Proof.Machine.execBkpt f s
  | .mark f => Sys2Proof.Machine.execMark f s
  | .smpl f => Sys2Proof.Machine.execSmpl f s
  | .tlbinvPage f => Sys2Proof.Machine.execTlbinvPage f s
  | .tlbinvCtx f => Sys2Proof.Machine.execTlbinvCtx f s
  | .tlbinvAll f => Sys2Proof.Machine.execTlbinvAll f s
  | .ctxsetNew f => Sys2Proof.Machine.execCtxsetNew f s
  | .ctxsetRoot f => Sys2Proof.Machine.execCtxsetRoot f s
  | .ctxsetKill f => Sys2Proof.Machine.execCtxsetKill f s
  | .wsetCore f => Sys2Proof.Machine.execWsetCore f s
  | .wsetSlice f => Sys2Proof.Machine.execWsetSlice f s
  | .wsetGran f => Sys2Proof.Machine.execWsetGran f s
  | .wsetPort f => Sys2Proof.Machine.execWsetPort f s
  | .wsetFn f => Sys2Proof.Machine.execWsetFn f s
  | .regionCoh f => Sys2Proof.Machine.execRegionCoh f s
  | .regionSwm f => Sys2Proof.Machine.execRegionSwm f s
  | .biassetDev f => Sys2Proof.Machine.execBiassetDev f s
  | .biassetHost f => Sys2Proof.Machine.execBiassetHost f s
  | .wsave f => Sys2Proof.Machine.execWsave f s
  | .wrest f => Sys2Proof.Machine.execWrest f s
  | .sppin f => Sys2Proof.Machine.execSppin f s
  | .spunpin f => Sys2Proof.Machine.execSpunpin f s
  | .lqTailWrite queue tail => Sys2Proof.Machine.execLqTailWrite queue tail s
  | .launchAcceptResume queue => Sys2Proof.Machine.execLaunchAcceptResume queue s
  | .taskEmissionResume grid => Sys2Proof.Machine.execTaskEmissionResume grid s
  | .dispatchDecision core => Sys2Proof.Machine.execDispatchDecision core s
  | .waveFormation core quad => Sys2Proof.Machine.execWaveFormation core quad s
  | .formingWaveTimeout wave => Sys2Proof.Machine.execFormingWaveTimeout wave s
  | .issue core quad => Sys2Proof.Machine.execIssue core quad s
  | .yieldExpiry thread => Sys2Proof.Machine.execYieldExpiry thread s
  | .teamRetire team => Sys2Proof.Machine.execTeamRetire team s
  | .gridDrain grid => Sys2Proof.Machine.execGridDrain grid s
  | .neighbourAveraging => Sys2Proof.Machine.execNeighbourAveraging s
  | .taskTransitArrival task => Sys2Proof.Machine.execTaskTransitArrival task s
  | .thermalMigrationScan temps => Sys2Proof.Machine.execThermalMigrationScan temps s
  | .preemption team => Sys2Proof.Machine.execPreemption team s
  | .teamRestore core task => Sys2Proof.Machine.execTeamRestore core task s
  | .contextSwitch core => Sys2Proof.Machine.execContextSwitch core s
  | .l1SplitChange core => Sys2Proof.Machine.execL1SplitChange core s
  | .deadlineFire grid => Sys2Proof.Machine.execDeadlineFire grid s
  | .binTimeout core bin => Sys2Proof.Machine.execBinTimeout core bin s
  | .tileEmit core bin => Sys2Proof.Machine.execTileEmit core bin s
  | .scratchpadRefill team page => Sys2Proof.Machine.execScratchpadRefill team page s
  | .missEntryGrant core => Sys2Proof.Machine.execMissEntryGrant core s
  | .missDataFill core sector outcome => Sys2Proof.Machine.execMissDataFill core sector outcome s
  | .tlbWalk index => Sys2Proof.Machine.execTlbWalk index s
  | .dirReadRequest line core => Sys2Proof.Machine.execDirReadRequest line core s
  | .dirOwnershipRequest line core => Sys2Proof.Machine.execDirOwnershipRequest line core s
  | .dirBuntingRequest line core tag => Sys2Proof.Machine.execDirBuntingRequest line core tag s
  | .invalidation core line => Sys2Proof.Machine.execInvalidation core line s
  | .invalidationAck core line => Sys2Proof.Machine.execInvalidationAck core line s
  | .mergeRequest line => Sys2Proof.Machine.execMergeRequest line s
  | .merge line => Sys2Proof.Machine.execMerge line s
  | .dirRecall line => Sys2Proof.Machine.execDirRecall line s
  | .l1Eviction core line => Sys2Proof.Machine.execL1Eviction core line s
  | .writebackAck core line => Sys2Proof.Machine.execWritebackAck core line s
  | .farOperation op => Sys2Proof.Machine.execFarOperation op s
  | .barrierCredit credit => Sys2Proof.Machine.execBarrierCredit credit s
  | .monitorWake monitor => Sys2Proof.Machine.execMonitorWake monitor s
  | .monitorPoll thread => Sys2Proof.Machine.execMonitorPoll thread s
  | .hostRead pa size => Sys2Proof.Machine.execHostRead pa size s
  | .hostWrite pa size data => Sys2Proof.Machine.execHostWrite pa size data s
  | .birsp line data => Sys2Proof.Machine.execBirsp line data s
  | .copySector core outcome => Sys2Proof.Machine.execCopySector core outcome s
  | .copyComplete core copy => Sys2Proof.Machine.execCopyComplete core copy s
  | .eventPulse core source => Sys2Proof.Machine.execEventPulse core source s
  | .sinkMprogStart core sink => Sys2Proof.Machine.execSinkMprogStart core sink s
  | .sinkCopySubmit core sink => Sys2Proof.Machine.execSinkCopySubmit core sink s
  | .engineProgramFetch core engine => Sys2Proof.Machine.execEngineProgramFetch core engine s
  | .engineFault core engine cause addr => Sys2Proof.Machine.execEngineFault core engine cause addr s
  | .queryComplete cluster => Sys2Proof.Machine.execQueryComplete cluster s
  | .burgeeHold channel => Sys2Proof.Machine.execBurgeeHold channel s
  | .fabricFlitRoute flit => Sys2Proof.Machine.execFabricFlitRoute flit s
  | .packetDeliver packet => Sys2Proof.Machine.execPacketDeliver packet s
  | .e2eAck flow seq => Sys2Proof.Machine.execE2eAck flow seq s
  | .retransmitTimeout flow seq => Sys2Proof.Machine.execRetransmitTimeout flow seq s
  | .linkReplay port => Sys2Proof.Machine.execLinkReplay port s
  | .negotiationFlit port flit => Sys2Proof.Machine.execNegotiationFlit port flit s
  | .freezeFlit port flit => Sys2Proof.Machine.execFreezeFlit port flit s
  | .leaseRenewal line answer => Sys2Proof.Machine.execLeaseRenewal line answer s
  | .leaseExpiry line => Sys2Proof.Machine.execLeaseExpiry line s
  | .leaseEmbargoEnd page => Sys2Proof.Machine.execLeaseEmbargoEnd page s
  | .portRetrain port ok => Sys2Proof.Machine.execPortRetrain port ok s
  | .phbHoldTimeout bank => Sys2Proof.Machine.execPhbHoldTimeout bank s
  | .channelDqRetrain channel => Sys2Proof.Machine.execChannelDqRetrain channel s
  | .freezeRingStep => Sys2Proof.Machine.execFreezeRingStep s
  | .powerGovernorTick power => Sys2Proof.Machine.execPowerGovernorTick power s
  | .currentMonitorOver power => Sys2Proof.Machine.execCurrentMonitorOver power s
  | .waveSample core context => Sys2Proof.Machine.execWaveSample core context s
  | .breakdownRecord core counts => Sys2Proof.Machine.execBreakdownRecord core counts s
  | .comparatorMatch pair => Sys2Proof.Machine.execComparatorMatch pair s
  | .comparatorTimeout pair => Sys2Proof.Machine.execComparatorTimeout pair s
  | .redundancyMismatch pair kind => Sys2Proof.Machine.execRedundancyMismatch pair kind s
  | .trapServe core => Sys2Proof.Machine.execTrapServe core s
  | .heartbeatMissed => Sys2Proof.Machine.execHeartbeatMissed s
  | .clockMonitor => Sys2Proof.Machine.execClockMonitor s
  | .supplyMonitor => Sys2Proof.Machine.execSupplyMonitor s
  | .thermalTrip => Sys2Proof.Machine.execThermalTrip s
  | .freezePin => Sys2Proof.Machine.execFreezePin s
  | .arrayUncorrected unitKind unit addr => Sys2Proof.Machine.execArrayUncorrected unitKind unit addr s
  | .moduleQuiescent => Sys2Proof.Machine.execModuleQuiescent s
  | .hbOutToggle => Sys2Proof.Machine.execHbOutToggle s
  | .gdnCtlFrz w => Sys2Proof.Machine.execGdnCtlFrz w s
  | .gdnCtlThaw w => Sys2Proof.Machine.execGdnCtlThaw w s
  | .gdnCtlRel w => Sys2Proof.Machine.execGdnCtlRel w s
  | .gdnCtlAck w => Sys2Proof.Machine.execGdnCtlAck w s
  | .gdnHbWrite context beat => Sys2Proof.Machine.execGdnHbWrite context beat s
  | .gdnHbwinWrite window => Sys2Proof.Machine.execGdnHbwinWrite window s
  | .mxeCtlClrst core => Sys2Proof.Machine.execMxeCtlClrst core s
  | .mxeCtlAbort core => Sys2Proof.Machine.execMxeCtlAbort core s
  | .mxeCtlSkip core => Sys2Proof.Machine.execMxeCtlSkip core s
  | .mxeCtlResume core => Sys2Proof.Machine.execMxeCtlResume core s
  | .cpeCtlFail core fcause => Sys2Proof.Machine.execCpeCtlFail core fcause s
  | .cpeCtlResume core => Sys2Proof.Machine.execCpeCtlResume core s
  | .lcpCtlAbort core => Sys2Proof.Machine.execLcpCtlAbort core s
  | .lcpCtlSkip core => Sys2Proof.Machine.execLcpCtlSkip core s
  | .lcpCtlResume core => Sys2Proof.Machine.execLcpCtlResume core s
  | .phbCtlMapgo bank => Sys2Proof.Machine.execPhbCtlMapgo bank s
  | .phbCtlRetrain bank => Sys2Proof.Machine.execPhbCtlRetrain bank s
  | .hlyVacWrite cluster w => Sys2Proof.Machine.execHlyVacWrite cluster w s
  | .hlyAgeWrite cluster w => Sys2Proof.Machine.execHlyAgeWrite cluster w s
  | .hlyAvgWrite cluster w => Sys2Proof.Machine.execHlyAvgWrite cluster w s
  | .coreL1Write core w => Sys2Proof.Machine.execCoreL1Write core w s
  | .corePartWrite core entry w => Sys2Proof.Machine.execCorePartWrite core entry w s
  | .sltEntCommit core entry w => Sys2Proof.Machine.execSltEntCommit core entry w s
  | .sltEntRevoke core entry w => Sys2Proof.Machine.execSltEntRevoke core entry w s
  | .lqCfgWrite queue w => Sys2Proof.Machine.execLqCfgWrite queue w s
  | .dbgCtlWrite context w => Sys2Proof.Machine.execDbgCtlWrite context w s
  | .pwrCapWrite w => Sys2Proof.Machine.execPwrCapWrite w s
  | .mbCmdAttest mailbox => Sys2Proof.Machine.execMbCmdAttest mailbox s
  | .mbCmdLogread mailbox => Sys2Proof.Machine.execMbCmdLogread mailbox s
  | .sltStatRead core => Sys2Proof.Machine.execSltStatRead core s
  | .dbgDropRead context => Sys2Proof.Machine.execDbgDropRead context s
  | .trpCntRead core => Sys2Proof.Machine.execTrpCntRead core s
  | .serrCntRead core => Sys2Proof.Machine.execSerrCntRead core s
  | .phbStatRead bank => Sys2Proof.Machine.execPhbStatRead bank s
  | .registerWrite agent offset size data => Sys2Proof.Machine.execRegisterWrite agent offset size data s
  | .moduleReset => Sys2Proof.Machine.execModuleReset s
  | .bringupGuidon image selfTest => Sys2Proof.Machine.execBringupGuidon image selfTest s
  | .bringupManagement image => Sys2Proof.Machine.execBringupManagement image s
  | .bringupRecords identityOk config halyard setup => Sys2Proof.Machine.execBringupRecords identityOk config halyard setup s
  | .bringupMemory failing => Sys2Proof.Machine.execBringupMemory failing s
  | .bringupLinks hostPeer peers => Sys2Proof.Machine.execBringupLinks hostPeer peers s
  | .bringupContexts => Sys2Proof.Machine.execBringupContexts s
  | .matrixCommandComplete core => Sys2Proof.Machine.execMatrixCommandComplete core s
  | .hostSnoop line invalidate => Sys2Proof.Machine.execHostSnoop line invalidate s
  | .levelCauseClear cause => Sys2Proof.Machine.execLevelCauseClear cause s
  | .vacateHoldExpiry cluster => Sys2Proof.Machine.execVacateHoldExpiry cluster s
  | .phbBusyClear bank errs => Sys2Proof.Machine.execPhbBusyClear bank errs s
  | .flowOpen flow dest ordered secure port => Sys2Proof.Machine.execFlowOpen flow dest ordered secure port s
  | .flowClose flow => Sys2Proof.Machine.execFlowClose flow s

end Sys2Proof.Machine
end

