-- ==== Sys2Proof/Machine/Step.lean ====
section
/-!
DEFINITION. Step.lean: one step of the machine, and the state in which the next step runs a given instruction word.
-/
namespace Sys2Proof.Machine

/-- One arithmetic cycle: the next transition runs on the state one cycle on (log entries 1 and 2). -/
def step (s : State) : Host.Outcome State Fault Refusal := exec (nextStep (tick s)) (advanceTime s)

/-! ## Where a program's next instruction stands (log entry 6) -/

/-- A core without teams, and a free context. -/
def loadCore (s : State) : Nat := ((List.range 128).find? fun c => (teamsOn s c).isEmpty && !(s.work.waves.any fun e => e.2.core == c)).getD 0
def loadCtx (s : State) : Nat := ((List.range 64).find? fun x => (s.ctx x).st == .free).getD 0
/-- The page tables of the loaded program map its first gigabyte onto local memory, with every right. -/
def loadTables : List (Nat × Nat) := [(0x1000, 0x2003), (0x2000, 0x3003), (0x3000, 0x1D)]
def loadLine : Nat := 0x10000
/-- The line that holds the word in slot 0, a branch target. -/
def lineFor (w : IWord) : FLine := makeLine 1 [w]
/-- The engine whose program alone holds the word, if one does. -/
def programOf (w : IWord) : Option Engine :=
  match decodeWord {} w with
  | .ok _ => none
  | .error _ =>
    match decodeAny w with
    | some i => (shapeOf i).engines.head?
    | none => none
/-- The word stands in the handler wave alone. -/
def handlerWord (w : IWord) : Bool :=
  match decodeWord {} w, decodeWord { handler := false } w with
  | .ok _, .error _ => true
  | _, _ => false
/-- The module with a running grid of one team and one thread at the word, on a core of its own. -/
def loadGrid (word : IWord) (s : State) : State :=
  let c := loadCore s
  let x := loadCtx s
  let pc : DWord := BitVec.ofNat 64 (loadLine + 4)
  let w := s.work
  let line := natLe 64 (lineFor word).toNat
  let mem := loadTables.foldl (fun m e => Mem.put 0 m e.1 (natLe 8 e.2)) (Mem.put 0 s.mem loadLine line)
  let lineage := w.nextLineage
  let g : Grid :=
    { ctx := x, entry := pc, codeBase := BitVec.ofNat 64 loadLine, textBase := BitVec.ofNat 64 loadLine, teams := 1, hoistThreads := 1
      hoists := 1, gangTeams := 1, regs := 64, scratchPages := 1, state := 2, emitted := 1, lineage := BitVec.ofNat 64 lineage
      shapeSec := some [] }
  let t : Team :=
    { grid := w.nextGrid, core := some c, hoists := [{ index := 0, quad := 0, slots := [0], launched := 1 }], lineage := g.lineage }
  let hand := handlerWord word
  let th : Thread :=
    { team := w.nextTeam, pc := pc, lineage := g.lineage, handlerOf := if hand then some c else none
      slot := if hand then Config.handlerSlot else 0 }
  let wave : Wave :=
    { core := c, slot := th.slot, team := w.nextTeam, lanes := (Vector.replicate 32 none).setIfInBounds 0 (some w.nextThread), exm := 1, pc := pc }
  let k := s.core c
  { s with
    mem := mem
    ctxs := Tab.put s.ctxs x { st := .live, root := 0x1000, svc := true, gen := (s.ctx x).gen }
    guidon := { s.guidon with frozen := false }
    cores := Tab.put s.cores c
      { k with
        icache := Tab.del k.icache loadLine, tlb := [], world := false, shapes := none
        serving := if hand then some { team := w.nextTeam, regs := { epc := pc } } else k.serving }
    clusters := Tab.put s.clusters (c / 8) { s.cluster (c / 8) with tlb := [] }
    work := { w with
      lineages := Tab.put w.lineages lineage { ctx := x, grid := some w.nextGrid }, nextLineage := lineage + 1
      grids := Tab.put w.grids w.nextGrid g, nextGrid := w.nextGrid + 1
      teams := Tab.put w.teams w.nextTeam t, nextTeam := w.nextTeam + 1
      threads := Tab.put w.threads w.nextThread th, nextThread := w.nextThread + 1
      waves := Tab.put w.waves w.nextWave wave, nextWave := w.nextWave + 1 }
    agenda := .issue c 0 :: s.agenda }
/-- The same line as the program of an engine that the team owns. -/
def loadProgram (word : IWord) (e : Engine) (s : State) : State :=
  let c := loadCore s
  let pc : DWord := BitVec.ofNat 64 (loadLine + 4)
  let s1 := loadGrid word s
  let s2 := s1.modCore c fun k =>
    { k with
      owner := some s.work.nextTeam
      group := { mxe := { prog := if e = .matrix then some (pc, pc) else none }, lcp := { prog := if e = .lcp then some (pc, pc) else none } }
      cpe := { k.cpe with prog := if e = .copy then some (pc, pc) else none, halt := none } }
  { s2 with agenda := .engineProgramFetch c e :: s.agenda }
/-- The state whose next step fetches and runs the instruction whose bits are w. -/
def State.withFetchWord (s : State) (nbits w : Nat) : State :=
  let word : IWord := BitVec.ofNat 96 (w % 2 ^ nbits)
  match programOf word with
  | some e => loadProgram word e s
  | none => loadGrid word s

end Sys2Proof.Machine
end

