-- ==== Sys2Proof/Safety.lean ====
section
/-!
DEFINITION. Safety.lean: the terms in which claims about the machine are stated: the states in which a claim is made,
what a lane instruction does, what a step leaves alone, and what counts as a safe run.
-/
namespace Sys2Proof.Machine

/-! ## Memories in canonical form -/

/-- The home memory and every scratchpad are in canonical form. -/
def State.memOk (s : State) : Prop := Mem.wf 0 s.mem = true ∧ ∀ e ∈ s.work.teams, Mem.wf 0 e.2.scratch = true

/-- A run of n steps that ends in no fault and no refusal, with every memory in canonical form. -/
def safeRun : Nat → State → Prop
  | 0, s => s.memOk
  | n + 1, s => s.memOk ∧ ∃ t, step s = .next t ∧ safeRun n t

/-! ## The issuing wave -/

/-- The active threads of the issuing wave: the ones whose exm bit is set (spec 02 R29). -/
def State.activeNow (s : State) : List Lane := s.active (s.wave s.curWave)
/-- Each active thread of the issuing wave is live and stands in one lane (spec 02 R26). -/
def LanesSound (s : State) : Prop :=
  (s.activeNow.map Lane.id).Nodup ∧ ∀ l ∈ s.activeNow, s.thread? l.id = some l.th
/-- The executing thread moved to the sequential successor of the wave's instruction (spec 03 R48, 06 R116). -/
def nextTh (s : State) (t : Thread) : Thread := { t with pc := succPc (s.wave s.curWave).pc }

/-! ## What a step leaves alone -/

/-- Nothing but the table of threads differs. -/
def SameButThreads (s t : State) : Prop := t = { s with work := { s.work with threads := t.work.threads } }
/-- Nothing but threads and cores differs: what a trap, a park or an engine command may touch. -/
def SameButThreadsCores (s t : State) : Prop :=
  t = { s with cores := t.cores, work := { s.work with threads := t.work.threads } }

/-! ## Lane instructions -/

/-- A result that is a trap. -/
def LaneOut.isTrap : LaneOut → Bool
  | .trap _ => true
  | _ => false
/-- The executing thread that `out` gives a result other than a trap, as the instruction leaves it. -/
def laneDone (f : Fields) (out : State → Lane → LaneOut) (also : State → Lane → Thread → Thread) (s : State) (l : Lane) : Thread :=
  also s l (writeOut f (out s l) (nextTh s l.th))

/-- An instruction that computes in each lane: it answers a next state in which every executing thread whose result is no
trap has its result and stands at the successor, every active thread whose guard is false stands at the successor and is
otherwise as it was, a thread whose result is a trap that does not escalate is in its user-level handler, no thread outside
the wave's active ones has changed, no byte of memory has, and where no lane traps nothing but threads has. -/
def LaneEffect (i : Instr) (f : Fields) (out : State → Lane → LaneOut) (also : State → Lane → Thread → Thread) : Prop :=
  ∀ s, LanesSound s → ∃ t, exec i s = .next t ∧
    (∀ l ∈ s.execLanes f, (out s l).isTrap = false → t.thread? l.id = some (laneDone f out also s l)) ∧
    (∀ l ∈ s.activeNow, guardOk f l.th = false → t.thread? l.id = some (nextTh s l.th)) ∧
    (∀ l ∈ s.execLanes f, ∀ v, out s l = .trap v → escalates s l.th = false →
      t.thread? l.id = (enterUser s f l s.here v).thread? l.id) ∧
    (∀ k, k ∉ s.activeNow.map Lane.id → t.thread? k = s.thread? k) ∧
    SameButThreadsCores s t ∧
    ((∀ l ∈ s.execLanes f, (out s l).isTrap = false) → SameButThreads s t)

/-- The exact value of a finite pattern as read; 0 stands for an infinity or a NaN, of which nothing is claimed. -/
def FVal.exact : FVal → Rat
  | .fin neg m e => (if neg then -1 else 1) * (m : Rat) * (2 : Rat) ^ e
  | _ => 0

/-- No further effect on the thread. -/
def nothingElse (_ : State) (_ : Lane) (t : Thread) : Thread := t

/-! ## Instructions that complete -/

/-- A sound wave none of whose active threads is parked or waits for a page. -/
def Issuing (s : State) : Prop := LanesSound s ∧ ∀ l ∈ s.activeNow, l.th.park = none ∧ l.th.pages = []
/-- The registers, predicates, latches, PC and trap registers of a thread are as they were. -/
def KeepsThread (s t : State) (k : Nat) : Prop :=
  (t.thread? k).isSome = (s.thread? k).isSome ∧ (t.thread k).v = (s.thread k).v ∧ (t.thread k).p = (s.thread k).p ∧
    (t.thread k).q = (s.thread k).q ∧ (t.thread k).pc = (s.thread k).pc ∧ (t.thread k).trap = (s.thread k).trap ∧
    (t.thread k).savedQ = (s.thread k).savedQ
/-- Every executing thread has its result and stands at the successor, every other active thread stands at the successor and
is otherwise as it was, and every thread outside the wave's active ones is kept. -/
def DoneOn (f : Fields) (s t : State) (o : Lane → LaneOut) : Prop :=
  (∀ l ∈ s.execLanes f, t.thread? l.id = some (writeOut f (o l) (nextTh s l.th))) ∧
  (∀ l ∈ s.activeNow, guardOk f l.th = false → t.thread? l.id = some (nextTh s l.th)) ∧
  ∀ k, k ∉ s.activeNow.map Lane.id → KeepsThread s t k
/-- A thread without its reservation, which a write by another agent clears (spec 11 R230). -/
def Thread.bare (t : Thread) : Thread := { t with resv := none }
/-- As DoneOn, but for the reservations of threads. -/
def DoneBare (f : Fields) (s t : State) (o : Lane → LaneOut) : Prop :=
  (∀ l ∈ s.execLanes f, (t.thread? l.id).map Thread.bare = some (writeOut f (o l) (nextTh s l.th)).bare) ∧
  (∀ l ∈ s.activeNow, guardOk f l.th = false → (t.thread? l.id).map Thread.bare = some (nextTh s l.th).bare) ∧
  ∀ k, k ∉ s.activeNow.map Lane.id → (t.thread? k).map Thread.bare = (s.thread? k).map Thread.bare
/-- No thread but k holds a reservation on a line. -/
def NoResvBut (t : State) (k line : Nat) : Prop := ∀ j x r, j ≠ k → t.thread? j = some x → x.resv = some r → r.line ≠ line
/-- No result. -/
def noResult (_ : Lane) : LaneOut := .none

/-- Every executing thread is what a function of its lane says; every other active thread stands at the successor and is
otherwise as it was; no other thread has changed. -/
def LanesBecome (f : Fields) (s t : State) (g : Lane → Thread) : Prop :=
  (∀ l ∈ s.execLanes f, t.thread? l.id = some (g l)) ∧
    (∀ l ∈ s.activeNow, guardOk f l.th = false → t.thread? l.id = some (nextTh s l.th)) ∧
    ∀ k, k ∉ s.activeNow.map Lane.id → t.thread? k = s.thread? k
/-- A thread that a privileged trap has stopped at an address (spec 21 R399). -/
def Thread.stoppedAt (t : Thread) (pc : DWord) (resume : Option DWord) : Thread :=
  { t with
    stopped := true, pc := pc, park := none, resv := none, awaits := none, reply := none, batch := none, pages := []
    resume := resume }
/-- A core has counted one trap more and queued it, may have marked the open breakdown of a sampled instruction as trapped, and is
otherwise as it was, as is every other core. -/
def TrapQueued (s t : State) (c : Nat) (tr : Trap) : Prop :=
  t.core c = { s.core c with traps := (s.core c).traps ++ [tr], trpCnt := satInc (s.core c).trpCnt 1, brk := (t.core c).brk } ∧
    ((t.core c).brk = (s.core c).brk ∨ (t.core c).brk = (s.core c).brk.map fun b => (b.1, b.2.1, b.2.2.1, b.2.2.2.1, true)) ∧
    (∀ d, d ≠ c → t.core d = s.core d) ∧ SameButThreadsCores s t

/-! ## Global addresses -/

/-- The L1 of a core holds no SWM line and no partial. -/
def QuietL1 (s : State) (c : Nat) : Prop := ∀ e ∈ (s.core c).l1, e.2.st ≠ .swm ∧ e.2.st ≠ .b
/-- A line is in no bunting state, and no transaction is in progress on it. -/
def CalmLine (s : State) (line : Nat) : Prop := (dirOf s line).st ≠ .b ∧ (dirOf s line).pending = false
/-- A lane of the issuing core holds no earlier answer; its global address passes its checks and lies in local memory, in a calm
line that is not poisoned. -/
def PlainAt (f : Fields) (s : State) (need : Need) (n : Nat) (l : Lane) (x : Xlat) : Prop :=
  checkGlobal s (whoOf s l.th) need n (globalEa f l.th) = .ok x ∧ isLocal x.pa = true ∧ poisoned s x.pa = false ∧
    CalmLine s (lineOf x.pa) ∧ QuietL1 s (s.coreOf l.th) ∧ s.hereCore = s.coreOf l.th ∧ l.th.reply = none
/-- The ordering of an instruction on the executing threads' words waits for no remote access: a release does not, and neither
does ordering that names a word in an SWM or UNC page (spec 10 R194). -/
def NoOrderWait (f : Fields) (s : State) (xl : Lane → Xlat) (acq rel : Bool) : Prop :=
  ∀ l ∈ s.execLanes f, (rel = true → releaseWaits s l.id f.scope = false) ∧
    ((acq || rel) = true → (∃ k ∈ s.execLanes f, (xl k).mode ≠ 0) → remoteOpen s l.id = false)
/-- The data of an access is at hand: it needs no miss. -/
def AtHand (s : State) (x : Xlat) (n : Nat) : Prop := viaL1 x = true → sectorHit s s.hereCore x n = true

/-- One lane executes; its address is plain, and the access waits for nothing: neither for order, nor for the host, nor for room,
before its release side and after it, nor, where it runs near, for data. -/
def OnePlain (f : Fields) (s : State) (need : Need) (n : Nat) (near : State → Lane → Xlat → Bool) (acq rel : Bool) (l : Lane) (x : Xlat) : Prop :=
  LanesSound s ∧ s.execLanes f = [l] ∧ PlainAt f s need n l x ∧ writeWait s s.hereCore x.mode x.pa = none ∧
    writeWait (releaseBefore f rel [(l, x)] s) s.hereCore x.mode x.pa = none ∧ NoOrderWait f s (fun _ => x) acq rel ∧ (needsData f near s (l, x) = true → sectorHit s s.hereCore x n = true)
/-- Replay neither records nor plays the grid of a lane. -/
def Unrecorded (s : State) (l : Lane) : Prop := (s.gridOf l.th).recording = false ∧ (s.gridOf l.th).playing = false
/-- A core's own copy of a line holds n bytes of a list from an address, each marked as its own. -/
def CopyHolds (t : State) (c pa : Nat) (st : L1State) (bs : List Byte) : Prop :=
  ∃ e, l1Line t c (lineOf pa) = some e ∧ e.st = st ∧
    ∀ k, k < bs.length → e.bytes.extractLsb' (8 * (pa % 256 + k)) 8 = bs.getD k 0

/-- A core does not hold a line, and has room for it in its set. -/
def RoomFor (s : State) (c line : Nat) : Prop := l1Line s c line = none ∧ victimOf s c line = none
/-- No transaction is in progress on a line, in a directory state. -/
def Idle (s : State) (line : Nat) (st : DirState) : Prop := (dirOf s line).pending = false ∧ (dirOf s line).st = st

/-! ## The engine group of a core -/

/-- Nothing but threads and one core differs. -/
def OneCore (s t : State) (c : Nat) : Prop := SameButThreadsCores s t ∧ ∀ d, d ≠ c → t.core d = s.core d
/-- The issuing wave executes an instruction once, for its lowest executing lane l, and its team owns the engine group of
its core. -/
def GroupReady (f : Fields) (s : State) (l : Lane) : Prop :=
  Issuing s ∧ s.inEngine = false ∧ (s.execLanes f).head? = some l ∧ (s.core (s.coreOf l.th)).owner = some s.hereTeam
/-- The wave's threads have the result o, and nothing else has changed but the engine group and copy engine of the core and
the waits of threads for them. -/
def GroupDone (f : Fields) (s t : State) (l : Lane) (o : LaneOut) : Prop :=
  DoneOn f s t (fun _ => o) ∧ OneCore s t (s.coreOf l.th) ∧
    t.core (s.coreOf l.th) =
      { s.core (s.coreOf l.th) with group := t.group (s.coreOf l.th), cpe := t.cpe (s.coreOf l.th) }
/-- Every executing thread waits for a reason at its instruction; the wave's other active threads advance, and nothing but
threads has changed. -/
def AllWait (f : Fields) (s t : State) (p : Park) : Prop :=
  (∀ l ∈ s.execLanes f, ∃ x, t.thread? l.id = some x ∧ x.park = some p ∧ x.pc = (s.wave s.curWave).pc ∧ x.v = l.th.v ∧ x.p = l.th.p) ∧
    (∀ l ∈ s.activeNow, guardOk f l.th = false → t.thread? l.id = some (nextTh s l.th)) ∧
    (∀ k, k ∉ s.activeNow.map Lane.id → t.thread? k = s.thread? k) ∧ SameButThreads s t

/-- An entry of an accumulate: from the fragment's row, the active bank of the column's macro and the old value. -/
def mmaEntry (sr fmt row0 : Nat) (fr : Frag) (x : Mxe) (r c old : Nat) : Nat :=
  match x.active (c / 64) with
  | some b =>
    (accumulate sr fmt (fr.codes.getD (r - row0) 0) (fr.rows.getD (r - row0) []) (b.ecode.getD (c % 64) 0)
      ((List.range 24).map fun k => b.sig.getD (64 * k + c % 64) 0) old).e % 2 ^ 36
  | none => old

/-! ## Scratchpads -/

/-- A team without its resident pages, which a use of a scratchpad page may change (spec 09 R172). -/
def Team.bare (t : Team) : Team := { t with pages := [] }
/-- Nothing but the resident pages of teams differs. -/
def PagesOnly (s t : State) : Prop :=
  t = { s with work := { s.work with teams := t.work.teams } } ∧ ∀ k, (t.team? k).map Team.bare = (s.team? k).map Team.bare
/-- Where a lane's scratchpad access lands: in its own team's scratchpad, or through the window in that of a team of its gang, on a
page that is in its frame or whose team is away, and whose byte is not poisoned. -/
def PadAt (f : Fields) (s : State) (window : Bool) (n : Nat) (l : Lane) (team off : Nat) : Prop :=
  (if window then checkWindow s l.th.team n (offsetEa f l.th) = .ok (team, off)
    else team = l.th.team ∧ off = (offsetEa f l.th).toNat ∧ checkScratch s team n off = none) ∧
    pageReached s team (off / 4096) = true ∧ backPoisoned s team off = false
/-- An object whose read touches nothing but the use of its scratchpad page: in a scratchpad, or in a calm line while no device
write waits for a snoop. -/
def PlainLoc (s : State) : Loc → Prop
  | .scr _ _ => True
  | .glob _ pa => CalmLine s (lineOf pa) ∧ s.home.hostHeld = []
/-- The bytes of an object. -/
def locBytes (s : State) (n : Nat) : Loc → List Byte
  | .scr t o => scratchBytes s t o n
  | .glob _ pa => homeBytes s pa n
/-- Every team but one is as it was but for resident pages, and that one's scratchpad has bytes written at an offset. -/
def PadWritten (s t : State) (team off : Nat) (bs : List Byte) : Prop :=
  ∀ k, (t.team? k).map Team.bare =
    if k = team then (s.team? k).map fun x => { x.bare with scratch := Mem.put 0 x.scratch off bs } else (s.team? k).map Team.bare
/-- The bytes of an object have been written, and no other byte of memory or of a scratchpad has. -/
def LocWritten (s t : State) (p : Loc) (bs : List Byte) : Prop :=
  match p with
  | .scr team off => t.mem = s.mem ∧ PadWritten s t team off bs
  | .glob _ pa => t.mem = Mem.put 0 s.mem pa bs ∧ ∀ k, (t.team? k).map Team.bare = (s.team? k).map Team.bare

/-! ## Issue -/

/-- The machine as wave k is chosen to issue, and as its active threads have been noted to issue. -/
def chosen (s : State) (k : Nat) : State := { s with cur := .wave k }.modWave k fun w => { w with lastIssue := s.clock, forming := none }
def atIssue (s : State) (k : Nat) : State :=
  (chosen s k).modThreads ((activeLanes (chosen s k)).map Lane.id) fun t => { t with lastIssue := s.clock }
/-- Wave k issues the single instruction i, u being the machine once its line has been entered: the line passes its checks, the
slot is no first slot of a pair, its word decodes to i, no thread is at its first fetch, and where the word carries S no
thread has a cancellation to take, a breakpoint or a step, and the wave need not stay before the safe point. -/
def IssuesAlone (s : State) (k : Nat) (i : Instr) (u : State) : Prop :=
  ∃ l0 slot l, (activeLanes (chosen s k)).head? = some l0 ∧ slotOf ((atIssue s k).wave k).pc = some slot ∧
    enterLine (whoOf (atIssue s k) l0.th) (atIssue s k) = (.ok l, u) ∧
    (tplPairs (lineTpl l)).contains slot = false ∧ u.here.word = lineSlot l slot ∧ decodeWord (waveEnv u l0.th) (lineSlot l slot) = .ok i ∧
    (∀ x ∈ activeLanes u, x.th.entryCheck = false) ∧
    ((lineSlot l slot).getLsbD 79 = true → refused u (u.wave k) = false ∧ stopsHere u = none ∧
      ∀ x ∈ activeLanes u, x.th.cancel.isSome = true → x.th.handlerOf.isSome = true)
/-- The instruction of a wave about to run: resume marks at a safe point are used up, and a sampled instruction is counted. -/
def beforeRun (k : Nat) (i : Instr) (f : Fields) (u : State) : State :=
  let w := u.wave k
  let ls := activeLanes u
  let u0 := if f.stop then u.modThreads (ls.map Lane.id) fun t =>
      { t with resume := if t.resume == some w.pc then none else t.resume, restoreQ := t.restoreQ && restores i } else u
  if ls.any fun l => l.th.resume == some w.pc then u0 else sampleMem i u0

/-! ## Copies -/

/-- A global barrier object of a copy passes its checks. -/
def BarOk (s : State) (c : Nat) (x : Copy) : Prop :=
  x.be = true → x.bsp = false →
    ∃ a, checkGlobal s (copyWho s c x) { r := true, w := true, rmw := true } 64 x.bar = .ok a ∧ a.mode = 0
/-- The next sector of a scratchpad copy that nothing holds back. -/
structure SectorReady (s : State) (c : Nat) (x : Copy) : Prop where
  thawed : s.guidon.frozen = false
  runs : (s.pair (c / 2)).stop = false
  unhalted : (s.cpe c).halt = none
  next : nextCopy s (s.cpe c).q [] = some x
  begun : x.begun = true
  form : x.form = 2
  whole : x.part = 0
  role : (s.team x.team).role = .single
  plain : x.be = false
  aligned : (x.unit x.dst.toNat x.done).2.2 % 64 = 0
  stays : ∀ p ∈ x.padSpans s, inTransit s p.1 p.2.1 p.2.2 = false
  sound : backPoisoned s x.team (x.unit x.dst.toNat x.done).1.1 = false

end Sys2Proof.Machine
end

