-- ==== Sys2Proof/Certificates/Slice0/Obligations.lean ====
section
/-!
DEFINITION. Obligations.lean: the statements about the machine that are to be proved.
-/
open Sys2Proof Sys2Proof.Machine

/-- Words that the spec writes out bit by bit decode to the instructions they stand for. -/
def Obligations.DecodeSpecWords : Prop :=
  decodeTableWord 96 0x200001C14080D44000000000 =
      some (.fadd ⟨0, false, false, 0, 7, .reg 5, .reg 2, .reg 3, .zero, 0, 0⟩) ∧
    decodeTableWord 96 0x000001C20041144800000000 =
      some (.iadd ⟨0, false, false, 0, 7, .reg 8, .reg 1, .reg 4, .zero, 8, 0⟩) ∧
    decodeTableWord 96 0xB90081D45454544000000000 = some (.exit ⟨0, true, false, 0, 7, .zero, .zero, .zero, .zero, 0, 0⟩) ∧
    decodeTableWord 96 0xCD0001D45454544000000000 = some (.nop ⟨0, false, false, 0, 7, .zero, .zero, .zero, .zero, 0, 0⟩) ∧
    decodeTableWord 96 0x000201C14040D24A00000000 =
      some (.iaddc ⟨2, false, false, 0, 7, .reg 5, .reg 1, .reg 3, .pred 1, 10, 0⟩)

/-- Every well-formed instruction that is no event has a word, and decoding the word in its place gives the instruction. -/
def Obligations.EncodeThenDecode : Prop :=
  ∀ i : Instr, wellFormed i = true → (fieldsOf i).isSome = true →
    ∃ w, encode i = some w ∧ decodeWord (openEnv i) w = .ok i

/-- A word that decodes anywhere is the encoding of what it decodes to. -/
def Obligations.DecodeThenEncode : Prop :=
  ∀ (env : DecEnv) (w : IWord) (i : Instr), decodeWord env w = .ok i → encode i = some w

/-- A line passes its parity check exactly when each span of 60 slot bits together with its PAR bit holds an even number of ones. -/
def Obligations.LineChecks : Prop :=
  ∀ l : FLine, lineParityOk l = true ↔
    ∀ k, k < 8 → (((List.range 60).filter fun j => l.getLsbD (32 + 60 * k + j)).length + (l.getLsbD (24 + k)).toNat) % 2 = 0

/-- What reset leaves, where the spec gives the value. -/
def Obligations.ResetState : Prop :=
  let s := State.reset
  s.boot.step = 1 ∧ s.boot.fail = 0 ∧ s.boot.unit = 0 ∧ s.guidon.frozen = false ∧ s.guidon.safe = true ∧
    s.guidon.quiet = false ∧ s.guidon.rdn = true ∧ s.guidon.cause = 0 ∧ s.power.cap = 2200 ∧ s.power.fclk = 2900 ∧
    s.power.mig = 95 ∧ (∀ c, (s.cluster c).age = 65536 ∧ (s.cluster c).avg = 1 ∧ (s.cluster c).vacHold = 0) ∧
    (∀ c, (s.core c).l1Auto = true ∧ (s.core c).l1Size = 1 ∧ (s.core c).l1Pend = none) ∧ (∀ q, (s.queue q).cfg = 0) ∧
    (∀ x, (s.ctx x).st = .free) ∧ (∀ b, (Tab.get s.banks b {}).map = #v[0x0A418820, 0x16A4A0E6, 0x01F7B9AC]) ∧
    s.work.threads = [] ∧ s.work.waves = [] ∧ s.home.dir = [] ∧ s.log = []

/-- A step is exec of the next transition on the machine one arithmetic cycle on (log entries 1 and 2, the model's own conventions). -/
def Obligations.StepIsExec : Prop :=
  ∀ s : State, step s = exec (nextStep (tick s)) (advanceTime s) ∧ (tick s).clock = s.clock + 1 ∧
    (tick s).mem = s.mem ∧ (tick s).work = s.work ∧ (tick s).cores = s.cores ∧
    (s.guidon.frozen = true ∨ s.home.l2Wait = [] ∧ s.home.monitors = [] →
      advanceTime s = { tick s with agenda := (tick s).agenda.drop 1 }) ∧
    ∀ i r, s.agenda = i :: r → nextStep (tick s) = i

/-- An issue runs the meaning that exec dispatches to, for every instruction of a word. -/
def Obligations.ExecIsRun : Prop :=
  ∀ (i : Instr) (f : Fields) (s : State), fieldsOf i = some f → exec i s = .next (runInstr i s)

/-- Whatever word instruction a step issues alone, the step runs exec of it. -/
def Obligations.StepRunsDecoded : Prop :=
  ∀ (s : State) (c q k : Nat) (i : Instr) (f : Fields) (u : State), nextStep (tick s) = .issue c q → (advanceTime s).guidon.frozen = false →
    pickWave (advanceTime s) c q = some k → IssuesAlone (rejoin k (advanceTime s)) k i u → u.arraysHere = .clean → fieldsOf i = some f →
    step s = .next { settle (issueInstr k i none u) with cur := .none } ∧
      (cmpGate i f (if f.stop then u.modThreads ((activeLanes u).map Lane.id) fun t =>
          { t with resume := if t.resume == some (u.wave k).pc then none else t.resume, restoreQ := t.restoreQ && restores i } else u) = none →
        ∃ v, exec i (beforeRun k i f u) = .next v ∧
          issueInstr k i none u = afterIssue k (u.wave k).pc f.stop (latchBit f) (u.wave k).holdsAny ((activeLanes u).map Lane.id)
            (if leaps i then (u.execLanes f).map Lane.id else []) v)

/-- A frozen module with no input waiting lets its accesses in flight complete, and then lets only time pass. -/
def Obligations.FrozenStep : Prop :=
  ∀ s : State, s.guidon.frozen = true → s.agenda = [] →
    nextStep (tick s) ∈ [.hbOutToggle, .freezeRingStep, .moduleQuiescent, .issue 0 0] ++ dueLines s ++ dueFlight s ∧
    (∀ c q, exec (.issue c q) s = .next s) ∧
    (dueLines s = [] → dueFlight s = [] → ∃ t, step s = .next t ∧ t.clock = s.clock + 1 ∧
      (t.agenda = [] ∨ t.agenda = [.freezeRingStep]) ∧
      (t.banks = s.banks ∨ t.banks = s.banks.map fun e => (e.1, (rings.foldl ringStep e.2).settle)) ∧
      t = { s with
        clock := t.clock, dtime := t.dtime, tickRem := t.tickRem, agenda := t.agenda, banks := t.banks
        guidon := { s.guidon with quiet := t.guidon.quiet, hbOut := t.guidon.hbOut } })

/-- The canonical form of every memory holds after reset. -/
def Obligations.MemoryCanonicalAtReset : Prop :=
  State.reset.memOk ∧ State.reset.mem = []

/-- Every step keeps the canonical form of the home memory and of every scratchpad. -/
def Obligations.MemoryCanonicalStep : Prop :=
  ∀ s t : State, s.memOk → step s = .next t → t.memOk

/-- Addition and subtraction: D takes the delivered exact sum or difference, a predicate C the carry or borrow. -/
def Obligations.AddSubtract : Prop :=
  ∀ f : Fields,
    LaneEffect (.iadd f) f (fun s l => delivered f (iw f) f.uns (ityped s f l f.a + ityped s f l f.b)) (fun s l t => putPred f.c (decide (2 ^ iw f ≤ ipat s f l f.a + ipat s f l f.b)) t) ∧
    LaneEffect (.isub f) f (fun s l => delivered f (iw f) f.uns (ityped s f l f.a - ityped s f l f.b)) (fun s l t => putPred f.c (decide (ipat s f l f.a < ipat s f l f.b)) t) ∧
    LaneEffect (.iaddc f) f (fun s l => delivered f (iw f) f.uns (ityped s f l f.a + ityped s f l f.b + ((srcPred l f.c).toNat : Int))) (fun s l t => putPred f.c (decide (2 ^ iw f ≤ ipat s f l f.a + ipat s f l f.b + (srcPred l f.c).toNat)) t) ∧
    LaneEffect (.isubb f) f (fun s l => delivered f (iw f) f.uns (ityped s f l f.a - ityped s f l f.b - ((srcPred l f.c).toNat : Int))) (fun s l t => putPred f.c (decide (ipat s f l f.a < ipat s f l f.b + (srcPred l f.c).toNat)) t)

/-- The multiplications of R101. -/
def Obligations.Multiply : Prop :=
  ∀ f : Fields,
    LaneEffect (.imul f) f (fun s l => delivered f (iw f) f.uns (ityped s f l f.a * ityped s f l f.b)) nothingElse ∧
    LaneEffect (.imulh f) f (fun s l => ibits f (wrapBits (2 * iw f) (ityped s f l f.a * ityped s f l f.b) / 2 ^ iw f)) nothingElse ∧
    LaneEffect (.imad f) f (fun s l => delivered f (iw f) f.uns (ityped s f l f.a * ityped s f l f.b + ityped s f l f.c)) nothingElse ∧
    LaneEffect (.idot4 f) f (fun s l => delivered f 32 f.uns (ityped s f l f.c + dot4 f.uns (src32 s f l f.a) (src32 s f l f.b))) nothingElse

/-- IMIN, IMAX, IABS and INEG as R102 gives them. Its second part reads the minimum and the maximum back as typed; its third part says the cases of the most negative value; its last part is decoding. Where SAT and TRP are both set, TRP traps. -/
def Obligations.MinMaxAbsNeg : Prop :=
  (∀ f : Fields,
    LaneEffect (.imin f) f (fun s l => ibits f (wrapBits (iw f) (min (ityped s f l f.a) (ityped s f l f.b)))) nothingElse ∧
    LaneEffect (.imax f) f (fun s l => ibits f (wrapBits (iw f) (max (ityped s f l f.a) (ityped s f l f.b)))) nothingElse ∧
    LaneEffect (.iabs f) f (fun s l => delivered f (iw f) false ((ityped s f l f.a).natAbs : Int)) nothingElse ∧
    LaneEffect (.ineg f) f (fun s l => delivered f (iw f) false (-ityped s f l f.a)) nothingElse) ∧
  (∀ (f : Fields) (s : State) (l : Lane) (x y : Int), x = ityped s f l f.a → y = ityped s f l f.b →
    typed (iw f) f.uns (BitVec.ofNat 64 (wrapBits (iw f) (min x y))) = min x y ∧
    typed (iw f) f.uns (BitVec.ofNat 64 (wrapBits (iw f) (max x y))) = max x y) ∧
  (∀ (f : Fields) (w n : Nat) (y : Int), w = iw f → n = 2 ^ (w - 1) → (y = ((-(n : Int)).natAbs : Int) ∨ y = -(-(n : Int))) →
    (f.itrp = true → delivered f w false y = .trap { cause := 0x28 }) ∧
    (f.itrp = false → f.sat = true → delivered f w false y = .value (w == 64) (extendTo w false (n - 1))) ∧
    (f.itrp = false → f.sat = false → delivered f w false y = .value (w == 64) (extendTo w false n) ∧
      typed w false (BitVec.ofNat 64 n) = -(n : Int))) ∧
  ∀ (env : DecEnv) (w : IWord), opField w = 0x02 → (unpackFields w).fn = 2 ∨ (unpackFields w).fn = 3 → (unpackFields w).uns = true →
    ∃ k, decodeWord env w = .error ⟨0x01, k⟩

/-- The logic and shift instructions of R103; ROTL's pattern is that of BitFieldBits. -/
def Obligations.LogicShift : Prop :=
  ∀ f : Fields,
    LaneEffect (.andB f) f (fun s l => ibits f (ipat s f l f.a &&& ipat s f l f.b)) nothingElse ∧
    LaneEffect (.orB f) f (fun s l => ibits f (ipat s f l f.a ||| ipat s f l f.b)) nothingElse ∧
    LaneEffect (.xorB f) f (fun s l => ibits f (ipat s f l f.a ^^^ ipat s f l f.b)) nothingElse ∧
    LaneEffect (.andnB f) f (fun s l => ibits f (ipat s f l f.a &&& (2 ^ iw f - 1 - ipat s f l f.b))) nothingElse ∧
    LaneEffect (.notB f) f (fun s l => ibits f (2 ^ iw f - 1 - ipat s f l f.a)) nothingElse ∧
    LaneEffect (.shl f) f (fun s l => if f.sat || f.itrp then delivered f (iw f) f.uns (ityped s f l f.a * ((2 ^ min (src32 s f l f.b).toNat 64 : Nat) : Int)) else ibits f (if (src32 s f l f.b).toNat ≥ iw f then 0 else ipat s f l f.a * 2 ^ (src32 s f l f.b).toNat % 2 ^ iw f)) nothingElse ∧
    LaneEffect (.shr f) f (fun s l => ibits f (ipat s f l f.a / 2 ^ min (src32 s f l f.b).toNat (iw f))) nothingElse ∧
    LaneEffect (.sar f) f (fun s l => ibits f (wrapBits (iw f) (typed (iw f) false (srcVal s f (iw f == 64) (!f.uns) l f.a) / ((2 ^ min (src32 s f l f.b).toNat (iw f) : Nat) : Int)))) nothingElse ∧
    LaneEffect (.rotl f) f (fun s l => ibits f (rotlPat (iw f) (ipat s f l f.a) (src32 s f l f.b).toNat)) nothingElse ∧
    LaneEffect (.funsh f) f (fun s l => ibits f ((ipat s f l f.b * 2 ^ iw f + ipat s f l f.a) / 2 ^ min (src32 s f l f.c).toNat (iw f) % 2 ^ iw f)) nothingElse

/-- The instructions of R104 and R105. -/
def Obligations.BitFieldsSelectMove : Prop :=
  ∀ f : Fields,
    LaneEffect (.bfx f) f (fun s l => ibits f (bfxPat (iw f) f.uns (ipat s f l f.a) (src32 s f l f.b))) nothingElse ∧
    LaneEffect (.bfi f) f (fun s l => ibits f (bfiPat (iw f) (ipat s f l f.a) (ipat s f l f.b) (src32 s f l f.c))) nothingElse ∧
    LaneEffect (.popc f) f (fun s l => icount (popCount (iw f) (ipat s f l f.a))) nothingElse ∧
    LaneEffect (.clz f) f (fun s l => icount (leadZeros (bitsOf (iw f) (ipat s f l f.a)).reverse)) nothingElse ∧
    LaneEffect (.ctz f) f (fun s l => icount (leadZeros (bitsOf (iw f) (ipat s f l f.a)))) nothingElse ∧
    LaneEffect (.brev f) f (fun s l => ibits f (bitsNat (bitsOf (iw f) (ipat s f l f.a)).reverse)) nothingElse ∧
    LaneEffect (.permb f) f (fun s l => val32 (permbWord (src32 s f l f.a) (src32 s f l f.b) (src32 s f l f.c))) nothingElse ∧
    LaneEffect (.sel f) f (fun s l => ibits f (if srcPred l f.c then ipat s f l f.a else ipat s f l f.b)) nothingElse ∧
    LaneEffect (.isetp f) f (fun s l => .pred (condInt f.fn (ityped s f l f.a) (ityped s f l f.b) && (f.c == .zero || srcPred l f.c))) nothingElse ∧
    LaneEffect (.plop f) f (fun s l => (.pred (f.fn.getLsbD (4 * (srcPred l f.a).toNat + 2 * (srcPred l f.b).toNat + (srcPred l f.c).toNat)) : LaneOut)) nothingElse ∧
    LaneEffect (.mov f) f (fun s l => ibits f (ipat s f l f.a)) nothingElse ∧
    LaneEffect (.movi f) f (fun s l => val64 (pairOf (src32 s f l f.a) (src32 s f l f.b))) nothingElse

/-- Deliver of R98, read back as typed. -/
def Obligations.DeliverRule : Prop :=
  ∀ (w : Nat) (x : Int) (uns sat trp : Bool), 1 ≤ w → w ≤ 64 →
    let lo : Int := if uns then 0 else -(2 ^ (w - 1) : Nat)
    let hi : Int := if uns then (2 ^ w : Nat) - 1 else (2 ^ (w - 1) : Nat) - 1
    (deliver x w uns sat trp = none ↔ trp = true ∧ (x < lo ∨ hi < x)) ∧
      ∀ n, deliver x w uns sat trp = some n → n < 2 ^ w ∧
        (lo ≤ x → x ≤ hi → typed w uns (BitVec.ofNat 64 n) = x) ∧
        (sat = false → (n : Int) = x % (2 ^ w : Nat)) ∧
        (sat = true → typed w uns (BitVec.ofNat 64 n) = if x < lo then lo else if hi < x then hi else x)

/-- The bit instructions of R104 and ROTL of R103, bit by bit, for every width and pattern, and R104's worked PERMB. -/
def Obligations.BitFieldBits : Prop :=
  (∀ (w a b : Nat) (ctl : Word), 1 ≤ w → w ≤ 64 → a < 2 ^ w → b < 2 ^ w →
    let p := (ctl.extractLsb' 0 8).toNat
    let n := (ctl.extractLsb' 8 8).toNat
    let e := min (p + n) w
    (∀ i, i < w → (bfxPat w true a ctl).testBit i = (decide (n ≠ 0 ∧ p < w ∧ p + i < e) && a.testBit (p + i))) ∧
      (∀ i, i < w → n ≠ 0 → p < w → (bfxPat w false a ctl).testBit i = a.testBit (if p + i < e then p + i else e - 1)) ∧
      (∀ i, i < w → (bfiPat w a b ctl).testBit i = if n ≠ 0 ∧ p ≤ i ∧ i < e then b.testBit (i - p) else a.testBit i) ∧
      popCount w a = ((List.range w).filter fun i => a.testBit i).length ∧
      (let z := leadZeros (bitsOf w a).reverse
       z ≤ w ∧ (∀ i, i < w → w - z ≤ i → a.testBit i = false) ∧ (z < w → a.testBit (w - 1 - z) = true)) ∧
      (let z := leadZeros (bitsOf w a)
       z ≤ w ∧ (∀ i, i < z → a.testBit i = false) ∧ (z < w → a.testBit z = true)) ∧
      ∀ i, i < w → (bitsNat (bitsOf w a).reverse).testBit i = a.testBit (w - 1 - i)) ∧
  (∀ w a n i : Nat, 1 ≤ w → a < 2 ^ w → i < w → (rotlPat w a n).testBit i = a.testBit ((i + w - n % w) % w)) ∧
    permbWord 0x44332211 0x88776655 0x0000F470 = 0xFF558811

/-- FADD to FSETP, FRINT to SFN (OP 0x20 to 0x2D but FCLASS) complete for every operand. The exact values that are rounded are
given as rationals, the conditions of FSETP by R110's table, and R114's worked conversions by their results; SFN's results are those
of RoundingAndSpecialValues. -/
def Obligations.FloatingPoint : Prop :=
  (∀ (f : Fields) (s : State) (i : Instr) (out : Lane → LaneOut) (t h : Fmt) (wide : Bool) (A : Bool → Lane → DWord),
    LanesSound s → t = fmtOf f.fn.toNat → h = halfFmt f → wide = cvtWide (f.fn.extractLsb' 4 4) →
    A = (fun sgn l => srcVal s f (cvtWide (f.fn.extractLsb' 0 4)) sgn l f.a) →
    (i = .fadd f ∧ out = (fun l => fdeliver f (roundVal t f.rm.toNat f.ftz (addVal f.rm.toNat (t.read f.ftz (fsrc s f l f.a)) (t.read f.ftz (fsrc s f l f.b))))) ∨
      i = .fsub f ∧ out = (fun l => fdeliver f (roundVal t f.rm.toNat f.ftz (addVal f.rm.toNat (t.read f.ftz (fsrc s f l f.a)) (t.read f.ftz (fsrc s f l f.b)).negate))) ∨
      i = .fmul f ∧ out = (fun l => fdeliver f (roundVal t f.rm.toNat f.ftz (mulVal (t.read f.ftz (fsrc s f l f.a)) (t.read f.ftz (fsrc s f l f.b))))) ∨
      i = .ffma f ∧ out = (fun l => fdeliver f (roundVal t f.rm.toNat f.ftz (addVal f.rm.toNat (mulVal (t.read f.ftz (fsrc s f l f.a)) (t.read f.ftz (fsrc s f l f.b))) (t.read f.ftz (fsrc s f l f.c))))) ∨
      i = .fmin f ∧ out = (fun l => fdeliver f (
          let x := t.read f.ftz (fsrc s f l f.a); let y := t.read f.ftz (fsrc s f l f.b)
          if x.isSig || y.isSig then nanRes t true else if x.isNan && y.isNan then nanRes t false
          else if x.isNan then roundVal t 0 false y else if y.isNan then roundVal t 0 false x
          else roundVal t 0 false (if cmpVal x y = .lt ∨ cmpVal x y = .eq ∧ x.neg = true ∧ y.neg = false then x else y))) ∨
      i = .fmax f ∧ out = (fun l => fdeliver f (
          let x := t.read f.ftz (fsrc s f l f.a); let y := t.read f.ftz (fsrc s f l f.b)
          if x.isSig || y.isSig then nanRes t true else if x.isNan && y.isNan then nanRes t false
          else if x.isNan then roundVal t 0 false y else if y.isNan then roundVal t 0 false x
          else roundVal t 0 false (if ¬(cmpVal x y = .lt ∨ cmpVal x y = .eq ∧ x.neg = true ∧ y.neg = false) then x else y))) ∨
      i = .fsetp f ∧ out = (fun l => 
          let u := fmtOf (f.fn.extractLsb' 0 4).toNat; let c := (f.fn.extractLsb' 4 4).toNat
          let x := u.read f.ftz (fsrc s f l f.a); let y := u.read f.ftz (fsrc s f l f.b)
          if f.ftrp && (x.isSig || y.isSig || (decide (2 ≤ c ∧ c ≤ 5) && (x.isNan || y.isNan))) then .trap { cause := 0x20 }
          else .pred (fcond c x y && (f.c == .zero || srcPred l f.c))) ∨
      i = .frint f ∧ out = (fun l => fdeliver f (match t.read f.ftz (fsrc s f l f.a) with
          | .fin neg m e => roundVal t 0 false (.fin neg (roundInt f.rm.toNat neg m e) 0)
          | v => roundVal t 0 false v)) ∨
      i = .fscale f ∧ out = (fun l => fdeliver f (match t.read f.ftz (fsrc s f l f.a) with
          | .fin neg m e => roundVal t f.rm.toNat f.ftz (.fin neg m (e + (src32 s f l f.b).toInt))
          | v => roundVal t f.rm.toNat f.ftz v)) ∨
      i = .hadd2 f ∧ out = (fun l => fdeliver f (halves (roundVal h f.rm.toNat f.ftz (addVal f.rm.toNat (h.read f.ftz (fsrc s f l f.a)) (h.read f.ftz (fsrc s f l f.b)))) (roundVal h f.rm.toNat f.ftz (addVal f.rm.toNat (h.read f.ftz (fsrc s f l f.a / 65536)) (h.read f.ftz (fsrc s f l f.b / 65536)))))) ∨
      i = .hfma2 f ∧ out = (fun l => fdeliver f (halves (roundVal h f.rm.toNat f.ftz (addVal f.rm.toNat (mulVal (h.read f.ftz (fsrc s f l f.a)) (h.read f.ftz (fsrc s f l f.b))) (h.read f.ftz (fsrc s f l f.c)))) (roundVal h f.rm.toNat f.ftz (addVal f.rm.toNat (mulVal (h.read f.ftz (fsrc s f l f.a / 65536)) (h.read f.ftz (fsrc s f l f.b / 65536))) (h.read f.ftz (fsrc s f l f.c / 65536)))))) ∨
      i = .sfn f ∧ out = (fun l => fdeliver f (sfnRes f.fn.toNat f.ftz (fsrc s f l f.a))) ∨
      i = .cvt f ∧ (∃ x d, cvtType (f.fn.extractLsb' 0 4) = .flt x ∧ cvtType (f.fn.extractLsb' 4 4) = .flt d ∧ out = (fun l =>
        cvtFlt f wide (roundVal d f.rm.toNat f.ftz (x.read f.ftz (A false l).toNat)))) ∨
      i = .cvt f ∧ (∃ x w uns, cvtType (f.fn.extractLsb' 0 4) = .flt x ∧ cvtType (f.fn.extractLsb' 4 4) = .int w uns ∧ out = (fun l =>
        let r := toInt f.rm.toNat (typeLo w uns) (typeHi w uns) (x.read f.ftz (A false l).toNat)
        if f.ftrp && r.2 then .trap { cause := 0x20 } else .value wide (extendTo w uns (wrapBits w r.1)))) ∨
      i = .cvt f ∧ (∃ w uns d, cvtType (f.fn.extractLsb' 0 4) = .int w uns ∧ cvtType (f.fn.extractLsb' 4 4) = .flt d ∧ out = (fun l =>
        cvtFlt f wide (roundVal d (if f.fn.extractLsb' 4 4 = 13 then 0 else f.rm.toNat) f.ftz (ofInt (typed w uns (A (!uns) l)))))) ∨
      i = .cvt f ∧ (∃ w uns v vuns, cvtType (f.fn.extractLsb' 0 4) = .int w uns ∧ cvtType (f.fn.extractLsb' 4 4) = .int v vuns ∧ out = (fun l =>
        let x := typed w uns (A (!uns) l)
        if f.ftrp && (decide (x < typeLo v vuns) || decide (x > typeHi v vuns)) then .trap { cause := 0x28 }
        else .value wide (extendTo v vuns (wrapBits v x))))) →
    (f.ftrp = false → ∀ l, (out l).isTrap = false) ∧
    ∃ t, Sys2Proof.Machine.exec i s = .next t ∧
      (∀ l ∈ s.execLanes f, (out l).isTrap = false → t.thread? l.id = some (writeOut f (out l) (nextTh s l.th))) ∧
      (∀ l ∈ s.activeNow, guardOk f l.th = false → t.thread? l.id = some (nextTh s l.th)) ∧
      (∀ l ∈ s.execLanes f, ∀ v, out l = .trap v → escalates s l.th = false → t.thread? l.id = (enterUser s f l s.here v).thread? l.id) ∧
      (∀ k, k ∉ s.activeNow.map Lane.id → t.thread? k = s.thread? k) ∧ SameButThreadsCores s t ∧
      ((∀ l ∈ s.execLanes f, (out l).isTrap = false) → SameButThreads s t)) ∧
  (∀ (rm : Nat) (x : Bool) (m : Nat) (e : Int) (y : Bool) (n : Nat) (g : Int),
    (addVal rm (.fin x m e) (.fin y n g)).exact = (FVal.fin x m e).exact + (FVal.fin y n g).exact ∧
    (mulVal (.fin x m e) (.fin y n g)).exact = (FVal.fin x m e).exact * (FVal.fin y n g).exact ∧
    (cmpVal (.fin x m e) (.fin y n g) = .lt ↔ (FVal.fin x m e).exact < (FVal.fin y n g).exact) ∧
    (cmpVal (.fin x m e) (.fin y n g) = .eq ↔ (FVal.fin x m e).exact = (FVal.fin y n g).exact)) ∧
  (∀ (c : Nat) (x y : FVal), c < 14 →
    ((x.isNan || y.isNan) = true → fcond c x y = decide (7 ≤ c)) ∧
    ((x.isNan || y.isNan) = false → (fcond c x y = true ↔
      c = 6 ∨ ((c = 0 ∨ c = 8) ∧ cmpVal x y = .eq) ∨ ((c = 1 ∨ c = 9) ∧ cmpVal x y ≠ .eq) ∨
      ((c = 2 ∨ c = 10) ∧ cmpVal x y = .lt) ∨ ((c = 3 ∨ c = 11) ∧ (cmpVal x y = .lt ∨ cmpVal x y = .eq)) ∨
      ((c = 4 ∨ c = 12) ∧ cmpVal x y = .gt) ∨ ((c = 5 ∨ c = 13) ∧ (cmpVal x y = .gt ∨ cmpVal x y = .eq))))) ∧
  (toInt 4 (typeLo 8 false) (typeHi 8 false) (fp32.read false 0xC0200000) = (-3, false) ∧ extendTo 8 false (wrapBits 8 (-3)) = 0xFFFFFFFD ∧
    toInt 4 (typeLo 8 false) (typeHi 8 false) (fp32.read false 0x43960000) = (127, true)) ∧
  (roundVal fp32 0 false (match fp32.read false 0xBE99999A with | .fin neg m e => .fin neg (roundInt 0 neg m e) 0 | v => v)).bits = 0x80000000

/-- FCLASS by the operand's own fields, in f32, f16 and bf16: the word is 2^k for a k of at most 9, and each row of R111's table is one clause. -/
def Obligations.FclassBits : Prop :=
  ∀ f : Fields, ∃ k : State → Lane → Nat, LaneEffect (.fclass f) f (fun s l => val32 (BitVec.ofNat 32 (2 ^ k s l))) nothingElse ∧
    ∀ (s : State) (l : Lane) (eb fb e m : Nat) (neg : Prop),
      (f.fn.toNat = 0 ∧ eb = 8 ∧ fb = 23) ∨ (f.fn.toNat = 1 ∧ eb = 5 ∧ fb = 10) ∨ (f.fn.toNat = 2 ∧ eb = 8 ∧ fb = 7) →
      e = (src32 s f l f.a).toNat / 2 ^ fb % 2 ^ eb → m = (src32 s f l f.a).toNat % 2 ^ fb →
      (neg ↔ (src32 s f l f.a).getLsbD (eb + fb) = true) →
      k s l ≤ 9 ∧ (k s l = 0 ↔ neg ∧ e = 2 ^ eb - 1 ∧ m = 0) ∧ (k s l = 1 ↔ neg ∧ 0 < e ∧ e < 2 ^ eb - 1) ∧
        (k s l = 2 ↔ neg ∧ e = 0 ∧ m ≠ 0) ∧ (k s l = 3 ↔ neg ∧ e = 0 ∧ m = 0) ∧
        (k s l = 4 ↔ ¬neg ∧ e = 0 ∧ m = 0) ∧ (k s l = 5 ↔ ¬neg ∧ e = 0 ∧ m ≠ 0) ∧
        (k s l = 6 ↔ ¬neg ∧ 0 < e ∧ e < 2 ^ eb - 1) ∧ (k s l = 7 ↔ ¬neg ∧ e = 2 ^ eb - 1 ∧ m = 0) ∧
        (k s l = 8 ↔ e = 2 ^ eb - 1 ∧ m ≠ 0 ∧ m.testBit (fb - 1) = false) ∧
        (k s l = 9 ↔ e = 2 ^ eb - 1 ∧ m ≠ 0 ∧ m.testBit (fb - 1) = true)

/-- Round delivers a representable value unchanged and makes every NaN canonical; special operands of the arithmetic; R115's worked results. -/
def Obligations.RoundingAndSpecialValues : Prop :=
  (∀ (t : Fmt) (rm bits : Nat), t = fp32 ∨ t = fp16 ∨ t = bf16 → rm ≤ 4 → bits < 2 ^ (t.eb + t.fb + 1) →
    if (t.read false bits).isNan then (roundVal t rm false (t.read false bits)).bits = t.nan
    else (roundVal t rm false (t.read false bits)).bits = bits ∧ (roundVal t rm false (t.read false bits)).ovf = false ∧
      (roundVal t rm false (t.read false bits)).inv = false) ∧
    (∀ (t : Fmt) (rm : Nat) (ftz : Bool) (a b : Nat), t = fp32 ∨ t = fp16 ∨ t = bf16 → (t.read ftz a).isNan = true →
      (fAdd t rm ftz a b).bits = t.nan ∧ (fAdd t rm ftz b a).bits = t.nan ∧ (fMul t rm ftz a b).bits = t.nan ∧
        (fMul t rm ftz b a).bits = t.nan) ∧
    (∀ rm, (fAdd fp32 rm false 0x7F800000 0xFF800000).bits = 0x7FC00000 ∧ (fAdd fp32 rm false 0x7F800000 0xFF800000).inv = true ∧
      (fMul fp32 rm false 0 0x7F800000).bits = 0x7FC00000 ∧ (fMul fp32 rm false 0 0x7F800000).inv = true) ∧
    (sfnRes 0 false 0x40400000).bits = 0x3EAAAAAB ∧ (sfnRes 3 false 0x3F000000).bits = 0x3FB504F3 ∧
    (sfnRes 2 false 0x40000000).bits = 0x3FB504F3 ∧ (sfnRes 4 false 0x41000000).bits = 0x40400000 ∧
    (sfnRes 5 false 0x3F800000).bits = 0 ∧ (sfnRes 6 false 0x3F800000).bits = 0xBF800000 ∧ (sfnRes 7 false 0x41A00000).bits = 0x3F800000

/-- The lane instructions of OP 0x45 to 0x4B that compute in each thread complete for every operand; none of them traps. R130's
coordinate and R131's word are given for every operand beside the completion. -/
def Obligations.LaneIndexSpatial : Prop :=
  (∀ (f : Fields) (s : State) (i : Instr) (out : Lane → LaneOut), LanesSound s →
    (i = .hlane f ∧ out = (fun l => val32 (if f.mod.getLsbD 0 then physLane s (s.wave s.curWave) l.th.hwave ((src32 s f l f.a).toNat % 32)
          else remapEntry s (s.wave s.curWave) ((src32 s f l f.a).toNat % 32))) ∨
      i = .exmrd f ∧ out = (fun l => val32 (s.wave s.curWave).exm) ∨
      i = .tidx f ∧ out = (fun l => val32 (tidxWord (shapeEntry s l (f.mod.extractLsb' 2 4).toNat) (f.mod.extractLsb' 0 2).toNat (src32 s f l f.a))) ∨
      i = .isect f ∧ out = (fun l => val32 (isectWord (src32 s f l f.a) (src32 s f l f.b) (src32 s f l f.c))) ∨
      i = .deskew f ∧ out = (fun l => 
          let p := quadVal s f l f.a; let m := quadVal s f l f.b
          let h := mulNE (m.getD 3 0) (p.getD 3 0)
          let sn := w32 (sfnRes 5 false h.toNat); let cs := w32 (sfnRes 6 false h.toNat)
          .many [fmaNE (m.getD 0 0) (p.getD 3 0) (fmaNE (negW sn) (p.getD 1 0) (mulNE cs (p.getD 0 0))),
            fmaNE (m.getD 1 0) (p.getD 3 0) (fmaNE cs (p.getD 1 0) (mulNE sn (p.getD 0 0))), fmaNE (m.getD 2 0) (p.getD 3 0) (p.getD 2 0)]) ∨
      i = .pillar f ∧ out = (fun l => 
          let a := srcVal s f true false l f.a; let q := quadVal s f l f.b
          let ux := mulNE (subNE (loW a) (q.getD 0 0)) (q.getD 2 0); let uy := mulNE (subNE (hiW a) (q.getD 1 0)) (q.getD 2 0)
          let nx := ((q.getD 3 0).extractLsb' 0 16).toNat; let ny := ((q.getD 3 0).extractLsb' 16 16).toNat
          val32 (match floorPos ux, floorPos uy with
            | some ix, some iy =>
              if ix ≥ nx ∨ iy ≥ ny then 0xFFFFFFFF
              else if f.mod.getLsbD 0 then BitVec.ofNat 32 (iy * 65536 + ix) else BitVec.ofNat 32 (iy * nx + ix)
            | _, _ => 0xFFFFFFFF))) →
    ∃ t, Sys2Proof.Machine.exec i s = .next t ∧ SameButThreads s t ∧ LanesBecome f s t fun l => writeOut f (out l) (nextTh s l.th)) ∧
  (∀ (s : State) (w : Wave) (k n : Nat), (w.lanes.getD k none = some n →
      remapEntry s w k = BitVec.ofNat 32 ((s.thread n).hlane + 32 * (s.thread n).hwave)) ∧
    (w.lanes.getD k none = none → remapEntry s w k = 0x80000000)) ∧
  (∀ (s : State) (w : Wave) (hw h : Nat), ((∀ l ∈ s.present w, ¬(l.th.hwave = hw ∧ l.th.hlane = h)) → physLane s w hw h = 0xFFFFFFFF) ∧
    ∀ l ∈ s.present w, l.th.hwave = hw → l.th.hlane = h → (∀ x ∈ s.present w, x.th.hwave = hw → x.th.hlane = h → x = l) →
      physLane s w hw h = BitVec.ofNat 32 l.lane) ∧
  (∀ (ns : Vector Word 4) (k : Fin 4) (i : Word),
    (2 ^ 31 ≤ i.toNat ∨ (∃ j : Fin 4, j ≤ k ∧ ((ns.get j).toNat = 0 ∨ 2 ^ 31 ≤ (ns.get j).toNat)) → tidxWord ns k i = 0xFFFFFFFF) ∧
    (i.toNat < 2 ^ 31 → (∀ j : Fin 4, j ≤ k → 1 ≤ (ns.get j).toNat ∧ (ns.get j).toNat < 2 ^ 31) →
      (tidxWord ns k i).toNat =
        i.toNat / ((ns.toList.take k).foldl (fun p n => p * n.toNat) 1) % (ns.get k).toNat)) ∧
  (∀ a b k : Word, let m := a &&& b
    (popBelow m 32 ≤ k.toNat → isectWord a b k = BitVec.ofNat 32 (2 ^ 31 + popBelow m 32 * 2 ^ 24)) ∧
    ∀ p, p < 32 → m.getLsbD p = true → popBelow m p = k.toNat →
      isectWord a b k = BitVec.ofNat 32 (popBelow m 32 * 2 ^ 24 + popBelow b p * 2 ^ 16 + popBelow a p * 2 ^ 8 + p)) ∧
  (tidxWord #v[5, 7, 3, 1] 0 68 = 3 ∧ tidxWord #v[5, 7, 3, 1] 1 68 = 6 ∧ tidxWord #v[5, 7, 3, 1] 2 68 = 1 ∧
    isectWord 0xF0 0xA50 0 = 0x02000004 ∧ isectWord 0xF0 0xA50 1 = 0x02010206 ∧ isectWord 0xF0 0xA50 2 = 0x82000000) ∧
  (∀ q : List Word, q = [0xC1200000, 0xC1200000, 0x40000000, 0x00280028] →
    pillarWord false 0x40500000 0xC11C0000 q = 26 ∧ pillarWord false 0x40500000 0x40A00000 q = 1226 ∧
    pillarWord false 0x41200000 0 q = 0xFFFFFFFF) ∧
  deskewWords [0x40000000, 0x40400000, 0x3F800000, 0x3F800000] [0x3F800000, 0, 0, 0x3F000000] = [0xC0000000, 0x40000000, 0x3F800000]

/-- The narrow-format instructions of OP 0x50 to 0x56 complete for every operand; none has a trap. -/
def Obligations.NarrowFormats : Prop :=
  (∀ (f : Fields) (s : State) (i : Instr) (out : Lane → LaneOut), LanesSound s →
    (i = .lmul f ∧ out = (fun l => val32 (wordOfBytes fun j => lmulCode (l6Code (src32 s f l f.a) j) (l6Code (src32 s f l f.b) j))) ∨
      i = .lsum f ∧ out = (fun l => 
          let c := fp32.read false (src32 s f l f.c).toNat
          let ps := [0, 1, 2, 3].filterMap fun j => l6Prod (l6Code (src32 s f l f.a) j) (l6Code (src32 s f l f.b) j)
          let sum : Int := ps.foldl (· + ·) 0
          val32 (BitVec.ofNat 32 (if ps.isEmpty then roundVal fp32 f.rm.toNat false c
            else if sum = 0 && c.isZero then roundVal fp32 f.rm.toNat false (.fin (f.rm.toNat == 3) 0 0)
            else roundVal fp32 f.rm.toNat false (addVal f.rm.toNat (.fin (decide (sum < 0)) sum.natAbs (-16)) c)).bits)) ∨
      i = .lcvt f ∧ out = (fun l => 
          let el := lcvtElem (f.imm.extractLsb' 0 4).toNat
          let bnd := fun (e : Elem) v => if f.recB then clampB (effBound e (src32 s f l f.c)) v else v
          if f.imm.getLsbD 4 then val32 (elemWord el (el.write f.rm.toNat (bnd el (l6Val (src32 s f l f.a).toNat))))
          else val32 (BitVec.ofNat 32 (toL6 f.rm.toNat 31 (bnd .l6 (el.read ((src32 s f l f.a).toNat % 2 ^ el.bits)))))) ∨
      i = .bpack f ∧ out = (fun l => 
          let el := elemOf (f.imm.extractLsb' 0 4).toNat; let sc := ((src32 s f l f.c).extractLsb' 0 8).toNat
          let b := if f.recB then boundOfCode el ((src32 s f l f.c).extractLsb' 16 16).toNat else el.maxFinite
          if sc = 255 then val32 0
          else val32 (BitVec.ofNat 32 ((List.range ((f.imm.extractLsb' 4 2).toNat + 1)).foldl (fun w j =>
            w + packElem el f.rm.toNat b (scaleVal (127 - (sc : Int)) (fp32.read false (l.th.reg ((regNum? f.a).getD 0 + j)).toNat))
              * 2 ^ (el.bits * j)) 0))) ∨
      i = .bunpk f ∧ out = (fun l => 
          let ws := bunpkWords (f.imm.extractLsb' 0 4).toNat ((f.imm.extractLsb' 4 2).toNat + 1) f.rm.toNat ((src32 s f l f.c).extractLsb' 0 8).toNat (src32 s f l f.a).toNat
          match ws with | [x] => val32 x | ws => .many ws) ∨
      i = .clamp f ∧ out = (fun l => 
          if f.nsat then val32 (BitVec.ofInt 32 (clampInt (src32 s f l f.a).toInt (src32 s f l f.b).toInt (src32 s f l f.c).toInt))
          else val32 (BitVec.ofNat 32 (fMinMax fp32 false false (fMinMax fp32 false true (src32 s f l f.a).toNat (src32 s f l f.b).toNat).bits (src32 s f l f.c).toNat).bits)) ∨
      i = .scle f ∧ out = (fun l => 
          let code := (f.imm.extractLsb' 0 4).toNat; let el := elemOf code
          let b := if f.recB then effBound el (src32 s f l f.c) else el.maxFinite
          val32 (BitVec.ofNat 32 (el.write 1 (.fin false b.1 b.2) * 65536 + packScale code b (maxMag [fp32.read false (src32 s f l f.a).toNat]))))) →
    ∃ t, Sys2Proof.Machine.exec i s = .next t ∧ SameButThreads s t ∧ LanesBecome f s t fun l => writeOut f (out l) (nextTh s l.th)) ∧
  (∀ a b : Fin 64, lmulCode a b < 64 ∧ lmulCode a b = lmulCode b a ∧
    (a.val % 32 + b.val % 32 ≤ 16 → lmulCode a b = 0) ∧ (a.val % 32 = 0 ∨ b.val % 32 = 0 → lmulCode a b = 0) ∧
    (a.val % 32 ≠ 0 → b.val % 32 ≠ 0 → 16 < a.val % 32 + b.val % 32 →
      lmulCode a b % 32 = min (a.val % 32 + b.val % 32 - 16) 31 ∧ (lmulCode a b / 32 = 1 ↔ (a.val / 32 + b.val / 32) % 2 = 1))) ∧
  (∀ (code : Nat) (b a : Nat × Int), let s := packScale code b a
    (code = 6 ∨ code = 7 ∨ a.1 = 0 → s = 127) ∧
    (code ≠ 6 → code ≠ 7 → a.1 ≠ 0 → s ≤ 254 ∧ (∀ k, k < s → leMag a.1 (a.2 + 127 - (k : Int)) b.1 b.2 = false) ∧
      (s < 254 → leMag a.1 (a.2 + 127 - (s : Int)) b.1 b.2 = true))) ∧
  (∀ (code n rm sc a j : Nat), j < n → (bunpkWords code n rm sc a).length = n ∧
    (code = 0 → (bunpkWords code n rm sc a).getD j 1 = 0) ∧ (code ≠ 0 → sc = 255 → (bunpkWords code n rm sc a).getD j 1 = 0x7FC00000) ∧
    (code ≠ 0 → sc ≠ 255 → (bunpkWords code n rm sc a).getD j 1 = BitVec.ofNat 32 (roundVal fp32 rm false
      (scaleVal ((sc : Int) - 127) ((elemOf code).read (a / 2 ^ ((elemOf code).bits * j) % 2 ^ (elemOf code).bits)))).bits)) ∧
  (lmulCode 19 18 = 21 ∧ l6Units 21 = 9728 ∧ (lsumRes 0 0x30001213 0x14181012 (fp32.read false 0x3E800000)).bits = 0x40028000 ∧
    clampInt 5 9 3 = 9)

/-- The execution-mask writes of R126 and R127, and SHPSET (R129). -/
def Obligations.MasksAndShapes : Prop :=
  (∀ (f : Fields) (s : State), LanesSound s → (s.wave? s.curWave).isSome = true →
    ∀ i g, (i = Instr.exmwr f ∧ g = (fun _ v : Word => v)) ∨ (i = .exmand f ∧ g = (fun e v => e &&& v)) ∨ (i = .exmor f ∧ g = (fun e v => e ||| v)) →
    ∃ t, exec i s = .next t ∧ t.mem = s.mem ∧ t.cores = s.cores ∧ t.guidon = s.guidon ∧
      (∀ l ∈ s.activeNow, (t.thread l.id).pc = succPc (s.wave s.curWave).pc ∧ (t.thread l.id).v = l.th.v ∧ (t.thread l.id).p = l.th.p) ∧
      (∀ k, k ∉ (s.present (s.wave s.curWave)).map Lane.id → t.thread? k = s.thread? k) ∧
      match s.execLanes f with
      | [] => t = advance s
      | l :: _ =>
        let m := g (s.wave s.curWave).exm (src32 s f l f.a) &&& presentMask s (s.wave s.curWave)
        if m = 0 then t.wave? s.curWave = none
        else (t.wave s.curWave).exm = m ∧ (t.wave s.curWave).pc = (s.wave s.curWave).pc) ∧
  ∀ (f : Fields) (s : State) (l : Lane) (ls : List Lane) (g : Nat) (tab : Tab (Vector Word 4)), LanesSound s →
    byHidx (s.execLanes f) = l :: ls → (s.core (s.coreOf l.th)).shapes = some (g, tab) →
    ∃ t, exec (.shpset f) s = .next t ∧ t.mem = s.mem ∧ SameButThreadsCores s t ∧
      (∀ x ∈ s.activeNow, t.thread? x.id = some (nextTh s x.th)) ∧
      (t.core (s.coreOf l.th)).shapes = some (g, Tab.put tab (f.mod.extractLsb' 2 4).toNat
        ((Tab.get tab (f.mod.extractLsb' 2 4).toNat (Vector.replicate 4 1)).setIfInBounds (f.mod.extractLsb' 0 2).toNat (src32 s f l f.a))) ∧
      ∀ c, c ≠ s.coreOf l.th → t.core c = s.core c

/-- A wave-level exchange whose members have all arrived completes, each contributor with its result. -/
def Obligations.WaveSync : Prop :=
  ∀ (i : Instr) (f : Fields) (s A : State) (k : SyncKey),
    ((∃ a b, i = .shfl f ∧ a = (fun l => (src32 s f l f.a).setWidth 64) ∧
        b = (fun l => if f.mod.getLsbD 5 then (f.mod.extractLsb' 0 5).setWidth 32 else src32 s f l f.b) ∧
        A = arrive f 0 (fun l => ⟨i, src32 s f l f.c, a l, b l, true⟩) s) ∨
      (∃ a, i = .vote f ∧ a = (fun l => if f.fn == 3 then (src32 s f l f.a).setWidth 64 else (BitVec.ofBool (srcPred l f.a)).setWidth 64) ∧
        A = arrive f 0 (fun l => ⟨i, src32 s f l f.c, a l, 0, true⟩) s) ∨
      ((i = .redw f ∨ i = .prfx f) ∧ A = arrive f 0 (fun l => ⟨i, src32 s f l f.c, (src32 s f l f.a).setWidth 64, 0, true⟩) s) ∨
      (i = .matchL f ∧ A = arrive f 0 (fun l => ⟨i, src32 s f l f.c, srcVal s f (f.fn == 1) false l f.a, 0, true⟩) s)) →
    (A.work.threads.map (·.1)).Nodup →
    dedup ((A.work.threads.filter fun e => atWaveSync e.2 && e.2.team == s.curTeam).map fun e => e.2.syncKey) = [k] →
    (syncGroup A k ≠ []) → (∀ e ∈ syncGroup A k, waveMismatch A k (syncGroup A k) e.2.mask = false) →
    (∀ e ∈ syncGroup A k, (maskLanes e.2.mask).all (fun h => (syncGroup A k).any fun x => x.2.hlane == h) = true) →
    ∃ t, exec i s = .next t ∧ t.mem = s.mem ∧ ∀ e ∈ syncGroup A k, ∀ a, e.2.arrival = some a → fieldsOf a.ins = some f →
      let cs := (sortBy (fun e => e.2.hlane) (syncGroup A k)).filterMap fun e =>
        match e.2.arrival with | some a => if a.on then some (e.2.hlane, a) else none | none => none
      t.thread? e.1 = some { (if a.on then writeOut f (syncOut cs e.2.hlane a) e.2 else e.2).unparkNext with arrival := none, syncCnt := e.2.syncCnt + 1 }

/-- The values of SHFL, VOTE, REDW, PRFX and MATCH over the contributors. -/
def Obligations.ExchangeValues : Prop :=
  (∀ (f : Fields) (cs : List (Nat × Arrival)) (h : Nat) (x : Arrival), x.ins = .shfl f →
      syncOut cs h x = val32 (loW (match shflLane f.fn.toNat h x.b.toNat with
        | some k => ((cs.find? fun c => c.1 == k).map fun c => c.2.a).getD x.a
        | none => x.a))) ∧
    (∀ h x, h < 32 → shflLane 0 h x = some (x % 32) ∧ shflLane 1 h x = (if x ≤ h then some (h - x) else none) ∧
      shflLane 2 h x = (if h + x < 32 then some (h + x) else none) ∧ shflLane 3 h x = some (h ^^^ (x % 32))) ∧
    (∀ xs : List Word, xs ≠ [] → redValue 0 xs = xs.foldl (· + ·) 0 ∧ redValue 5 xs = xs.foldl (· &&& ·) 0xFFFFFFFF ∧
      redValue 6 xs = xs.foldl (· ||| ·) 0 ∧ redValue 7 xs = xs.foldl (· ^^^ ·) 0) ∧
    (∀ (xs : List Word) (j : Nat), j < xs.length → (prefixes 0 xs none).getD j 0 = (xs.take (j + 1)).foldl (· + ·) 0)

/-- The global loads that complete: what each executing thread receives (spec 11; log entry 5 for the one home image). -/
def Obligations.GlobalLoads : Prop :=
  (∀ (f : Fields) (s : State) (xl : Lane → Xlat), LanesSound s → s.home.hostHeld = [] →
      ((∀ l ∈ s.execLanes f, PlainAt f s { r := true } (szBytes f) l (xl l) ∧ AtHand s (xl l) (szBytes f)) → NoOrderWait f s xl (isAcq f) false →
        ∃ t, exec (.ld f) s = .next t ∧ DoneOn f s t (fun l => loadOf f (homeBytes s (xl l).pa (szBytes f))) ∧ t.mem = s.mem) ∧
      (f.sp = 0 → (∀ l ∈ s.execLanes f, PlainAt f s { r := true } (pairBytes f) l (xl l) ∧ AtHand s (xl l) (pairBytes f)) → NoOrderWait f s xl true false →
        ∃ t, exec (.acq f) s = .next t ∧ DoneOn f s t (fun l => loadOut (pairBytes f) false (homeBytes s (xl l).pa (pairBytes f))) ∧
          t.mem = s.mem) ∧
      (∀ n, n = (if f.fn.getLsbD 3 then 8 else 4) →
        (∀ l ∈ s.execLanes f, PlainAt f s { r := true } n l (xl l) ∧ AtHand s (xl l) n ∧
          condHolds (f.fn.extractLsb' 0 3) n (homeNat s (xl l).pa n) (regNat l.th f.b n) = true) → NoOrderWait f s xl (isAcq f) false →
        ∃ t, exec (.waitc f) s = .next t ∧ DoneOn f s t (fun l => loadOut n false (homeBytes s (xl l).pa n)) ∧ t.mem = s.mem)) ∧
    ∀ (f : Fields) (s : State) (l : Lane) (ls : List Lane) (x : Xlat), LanesSound s → s.home.hostHeld = [] → s.execLanes f = l :: ls →
      PlainAt f s { r := true } (szBytes f) l x → AtHand s x (szBytes f) →
      ∃ t, exec (.ldc f) s = .next t ∧ DoneOn f s t (fun _ => loadOf f (homeBytes s x.pa (szBytes f))) ∧ t.mem = s.mem

/-- The global writes that complete (spec 11; log entry 5 for the one home image). -/
def Obligations.GlobalStores : Prop :=
  ∀ (f : Fields) (s : State) (l : Lane) (x : Xlat),
    (∀ u, u = releaseBefore f (isRel f) [(l, x)] s → OnePlain f s { w := true } (szBytes f) (fun _ _ _ => true) false (isRel f) l x → x.pa % 256 + szBytes f ≤ 256 →
      ∃ t, exec (.st f) s = .next t ∧ DoneBare f s t noResult ∧
        (x.mode ≠ 1 ∨ streams u (s.coreOf l.th) (lineOf x.pa) f.hint = true →
          t.mem = Mem.put 0 s.mem x.pa (storeBytes l.th f.b (szBytes f)) ∧ NoResvBut t l.id (lineOf x.pa)) ∧
        (x.mode = 1 → streams u (s.coreOf l.th) (lineOf x.pa) f.hint = false →
          t.mem = s.mem ∧ CopyHolds t (s.coreOf l.th) x.pa .swm (storeBytes l.th f.b (szBytes f)))) ∧
    (f.sp = 0 → OnePlain f s { r := true, w := true, rmw := true } (opBytes (rmwOp f)) runsNear (isAcq f) (isRel f) l x → Unrecorded s l →
      ∃ t, exec (.atom f) s = .next t ∧ DoneBare f s t (fun _ => loadOut (opBytes (rmwOp f)) false (natLe (opBytes (rmwOp f)) (homeNat s x.pa (opBytes (rmwOp f))))) ∧
        t.mem = Mem.put 0 s.mem x.pa (natLe (opBytes (rmwOp f))
          (applyOp (rmwOp f) (homeNat s x.pa (opBytes (rmwOp f))) (regNat l.th f.b (opBytes (rmwOp f))))) ∧ NoResvBut t l.id (lineOf x.pa)) ∧
    (∀ n, n = (if f.fn.getLsbD 0 then 8 else 4) → f.sp = 0 → OnePlain f s { r := true, w := true, rmw := true } n runsNear (isAcq f) (isRel f) l x → Unrecorded s l →
      ∃ t, exec (.cas f) s = .next t ∧ DoneBare f s t (fun _ => loadOut n false (natLe n (homeNat s x.pa n))) ∧
        t.mem = if homeNat s x.pa n = regNat l.th f.b n then Mem.put 0 s.mem x.pa (natLe n (regNat l.th f.c n)) else s.mem) ∧
    (f.sp = 0 → OnePlain f s { r := true, w := true, rmw := true } (pairBytes f) runsNear false true l x →
      ∃ t, exec (.rel f) s = .next t ∧ DoneBare f s t noResult ∧
        t.mem = Mem.put 0 s.mem x.pa (natLe (pairBytes f) (homeNat s x.pa (pairBytes f))) ∧ NoResvBut t l.id (lineOf x.pa)) ∧
    (∀ held, held = (l.th.resv.any fun r => r.line == lineOf x.pa) →
      OnePlain f s { r := true, w := true, rmw := true } (pairBytes f) resvHeld false (isRel f) l x → Unrecorded s l →
      ∃ t, exec (.stc f) s = .next t ∧ DoneBare f s t (fun _ => .pred held) ∧ (t.thread? l.id).bind Thread.resv = none ∧
        t.mem = if held then Mem.put 0 s.mem x.pa (storeBytes l.th f.b (pairBytes f)) else s.mem)

/-- RED at the home, and into a core's partial (spec 11, 13). -/
def Obligations.Reductions : Prop :=
  ∀ (f : Fields) (s : State) (l : Lane) (x : Xlat) (n : Nat), n = opBytes (rmwOp f) → f.sp = 0 →
    OnePlain f s { r := true, w := true, rmw := true } n (fun _ _ _ => false) false (isRel f) l x →
    (x.mode ≠ 0 ∨ hostBias s x.pa = true →
      ∃ t, exec (.red f) s = .next t ∧ DoneBare f s t noResult ∧
        t.mem = Mem.put 0 s.mem x.pa (natLe n (applyOp (rmwOp f) (homeNat s x.pa n) (regNat l.th f.b n)))) ∧
    (x.mode = 0 → hostBias s x.pa = false → (setLines s (s.coreOf l.th) (lineOf x.pa)).length < 8 → x.pa % n = 0 →
      ∃ t, exec (.red f) s = .next t ∧ DoneBare f s t noResult ∧
        (streams s (s.coreOf l.th) (lineOf x.pa) f.hint = false → t.mem = s.mem ∧ (dirOf t (lineOf x.pa)).st = .b ∧
          (dirOf t (lineOf x.pa)).tag = f.fn.extractLsb' 0 4 ∧ (dirOf t (lineOf x.pa)).sharers = coreBit (s.coreOf l.th) ∧
          CopyHolds t (s.coreOf l.th) x.pa .b (natLe n (applyOp (rmwOp f) (opIdentity (rmwOp f)) (regNat l.th f.b n)))) ∧
        (streams s (s.coreOf l.th) (lineOf x.pa) f.hint = true →
          t.mem = Mem.put 0 s.mem x.pa (natLe n (applyOp (rmwOp f)
            (leNat (natLe n (applyOp (rmwOp f) (opIdentity (rmwOp f)) (regNat l.th f.b n)))) (homeNat s x.pa n)))))

/-- LDS, STS, LDW, STW (spec 09, 11): what a scratchpad access reads and writes. -/
def Obligations.Scratchpads : Prop :=
  (∀ (f : Fields) (s : State) (pt po : Lane → Nat), LanesSound s →
    ((∀ l ∈ s.execLanes f, PadAt f s false (szBytes f) l (pt l) (po l)) →
      ∃ t, exec (.lds f) s = .next t ∧ DoneOn f s t (fun l => loadOf f (scratchBytes s (pt l) (po l) (szBytes f))) ∧ t.mem = s.mem ∧
        ∀ k, (t.team? k).map Team.bare = (s.team? k).map Team.bare) ∧
    ((∀ l ∈ s.execLanes f, PadAt f s true (szBytes f) l (pt l) (po l)) →
      ∃ t, exec (.ldw f) s = .next t ∧ DoneOn f s t (fun l => loadOf f (scratchBytes s (pt l) (po l) (szBytes f))) ∧ t.mem = s.mem ∧
        ∀ k, (t.team? k).map Team.bare = (s.team? k).map Team.bare)) ∧
  ∀ (f : Fields) (s : State) (l : Lane) (team off : Nat), LanesSound s → s.execLanes f = [l] →
    (isRel f = true → releaseWaits s l.id f.scope = false ∧ QuietL1 s s.hereCore) →
    (PadAt f s false (szBytes f) l team off →
      ∃ t, exec (.sts f) s = .next t ∧ DoneOn f s t noResult ∧ t.mem = s.mem ∧ PadWritten s t team off (storeBytes l.th f.b (szBytes f))) ∧
    (PadAt f s true (szBytes f) l team off →
      ∃ t, exec (.stw f) s = .next t ∧ DoneOn f s t noResult ∧ t.mem = s.mem ∧ PadWritten s t team off (storeBytes l.th f.b (szBytes f)))

/-- The ring and event instructions of a wave whose team owns the engine group (spec 12 R257 to R263). -/
def Obligations.RingsAndEvents : Prop :=
  let counted := fun (k : Nat) (e : Nat × Sink) =>
    if e.2.mask.getLsbD k then (e.1, if e.2.cnt ≥ 255 then { e.2 with ovf := true } else { e.2 with cnt := e.2.cnt + 1 }) else e
  (∀ (f : Fields) (s : State) (l : Lane), GroupReady f s l →
    let c := s.coreOf l.th
    let ring := Tab.find (s.group c).rings (ringOf f)
    let put := fun (r : Ring) => { s.group c with rings := Tab.put (s.group c).rings (ringOf f) r }
    (∀ r, ring = some r → r.f ≠ 0 → ∃ t, exec (.rget f) s = .next t ∧
      GroupDone f s t l (.value false ((BitVec.ofNat 32 (r.base + r.rd * r.size)).setWidth 64)) ∧
      t.group c = put { r with taken := r.taken ++ [r.rd], rd := (r.rd + 1) % r.n, f := r.f - 1 }) ∧
    (∀ r, ring = some r → r.f = 0 → ∃ t, exec (.rget f) s = .next t ∧ AllWait f s t .engine) ∧
    (∀ r, ring = some r → r.e ≠ 0 → ∃ t, exec (.rputRes f) s = .next t ∧
      GroupDone f s t l (.value false ((BitVec.ofNat 32 (r.base + r.wr * r.size)).setWidth 64)) ∧
      t.group c = put { r with resv := r.resv ++ [(r.wr, true, false)], wr := (r.wr + 1) % r.n, e := r.e - 1 }) ∧
    (∀ r, ring = some r → r.e = 0 → ∃ t, exec (.rputRes f) s = .next t ∧ AllWait f s t .engine) ∧
    (∀ r x, ring = some r → r.resv.find? (fun x => x.2.1 && !x.2.2) = some x → ∃ t, exec (.rputPub f) s = .next t ∧
      GroupDone f s t l .none ∧ t.group c = put (r.ready x.1)) ∧
    (∀ r k ts, ring = some r → r.taken = k :: ts → ∃ t, exec (.rrel f) s = .next t ∧ GroupDone f s t l .none ∧
      t.group c = put { r with taken := ts, e := r.e + 1 }) ∧
    (∃ t, exec (.rstat f) s = .next t ∧ t.group c = s.group c ∧
      GroupDone f s t l (.value false ((match ring with
        | none => (0 : Word)
        | some r => BitVec.ofNat 32 (2 ^ 31 + 2 ^ 24 * r.wr + 2 ^ 16 * r.rd + 2 ^ 8 * r.e + r.f)).setWidth 64))) ∧
    (ring = none → exec (.rget f) s = .next (trapAll f { cause := 0x4A } s) ∧ exec (.rputRes f) s = .next (trapAll f { cause := 0x4A } s) ∧
      exec (.rputPub f) s = .next (trapAll f { cause := 0x4A } s) ∧ exec (.rrel f) s = .next (trapAll f { cause := 0x4A } s)) ∧
    (∀ base units slots, ring = none → base = (src32 s f l f.a).toNat → src32 s f l f.b = BitVec.ofNat 32 (65536 * slots + units) →
      base % 64 = 0 → 1 ≤ units → units ≤ 1024 → 1 ≤ slots → slots ≤ 64 → base + units * 64 * slots ≤ scratchSize s s.hereTeam →
      let s0 := repin c s.hereTeam (s.modGroup c fun g => { g with rings := Tab.del g.rings (ringOf f) })
      let r : Ring := { base := base, size := units * 64, n := slots, e := slots }
      let s1 := repin c s.hereTeam (s0.modGroup c fun g => { g with rings := Tab.put g.rings (ringOf f) r })
      pinFits s0 c s.hereTeam r.pages = true →
      (missingPages s s.hereTeam (ringPages s1 c) = [] →
        ∃ t, exec (.rinit f) s = .next t ∧ DoneOn f s t noResult ∧ t.mem = s.mem ∧ Tab.find (t.group c).rings (ringOf f) = some r) ∧
      (∀ p ps, missingPages s s.hereTeam (ringPages s1 c) = p :: ps → exec (.rinit f) s = .next (waitPages f (p :: ps) s))) ∧
    (∃ t, exec (.evsig f) s = .next t ∧ GroupDone f s t l .none ∧
      t.group c = { s.group c with sinks := (s.group c).sinks.map (counted (8 + (f.imm.extractLsb' 0 2).toNat)) }) ∧
    (∃ t, exec (.evmap f) s = .next t ∧ GroupDone f s t l .none ∧ ∃ x, t.group c =
        { s.group c with sinks := Tab.put (s.group c).sinks (f.imm.extractLsb' 0 4).toNat x } ∧
      x.mask = f.imm.extractLsb' 16 16 ∧ x.act = (f.imm.extractLsb' 4 2).toNat ∧ x.form = (f.imm.extractLsb' 6 3).toNat ∧ x.cnt = 0 ∧
      x.ovf = false ∧ (x.act = 1 → x.addr = reg64 l.th f.a) ∧ (x.act = 2 → x.addr = (reg32 l.th f.a).setWidth 64)) ∧
    (let k := (f.imm.extractLsb' 0 4).toNat
      let n := max 1 (f.imm.extractLsb' 4 8).toNat
      ∀ x, x = Tab.get (s.group c).sinks k {} → x.act = 0 →
      (n ≤ x.cnt → ∃ t, exec (.evwait f) s = .next t ∧
        GroupDone f s t l (.value false ((BitVec.ofNat 32 (x.ovf.toNat * 256 + (x.cnt - n))).setWidth 64)) ∧
        Tab.find (t.group c).sinks k = some { x with cnt := x.cnt - n, ovf := false } ∧
        ∀ j, j ≠ k → Tab.find (t.group c).sinks j = Tab.find (s.group c).sinks j) ∧
      (x.cnt < n → ∃ t, exec (.evwait f) s = .next t ∧ AllWait f s t .engine))) ∧
  ∀ (c k : Nat) (s : State), ∃ t, exec (.eventPulse c k) s = .next t ∧ OneCore s t c ∧ (∀ j, KeepsThread s t j) ∧
    t.group c = { s.group c with sinks := (s.group c).sinks.map (counted k) }

/-- Copies, the programs of the engines and the sinks that start them (spec 12 R244 to R267). -/
def Obligations.Copies : Prop :=
  (∀ (f : Fields) (s : State) (l : Lane) (p : Loc), Issuing s → s.inEngine = false → (s.execLanes f).head? = some l →
    descLoc f s l = .ok p → locWait s false p = none → p.poisoned s = false → PlainLoc s p →
    let u := touchLoc p s
    let bs := locBytes s 64 p
    let c := s.coreOf l.th
    let w := s.wave s.curWave
    let copy := fun (form : Nat) (op : Byte) => ({ descCopy bs form u l.th.team with
      scope := scopeOf f, hint := f.mod.extractLsb' 4 2, quad := w.quad, slot := w.slot, epc := w.pc, op := op, fn := f.fn } : Copy)
    let mbz := leAt bs 0x3C 4
    let tens := fun (x : Copy) => BitVec.ofNat 64 x.tens.toNat
    (s.cpe c).q.length < 64 → isSecondary u l.th.team = false →
    (∀ x y, f.fn.toNat ≤ 6 → x = copy f.fn.toNat 0x90 → y = { x with tens := 0 } →
      (x.toRing = true ∨ x.cle = true → (s.core c).owner = some l.th.team) →
      (copyReason u y mbz (tens x) = none → BarOk u c y →
        ∃ t, exec (.cp f) s = .next t ∧ DoneOn f s t noResult ∧ t.mem = s.mem ∧ ∃ z, (t.cpe c).q = (s.cpe c).q ++ [z] ∧
          z = { y with id := s.work.nextCopy, receivers := z.receivers, drops := z.drops } ∧ (x.form ≠ 6 → z.receivers = [] ∧ z.drops = 0)) ∧
      (∀ k, copyReason u y mbz (tens x) = some k →
        exec (.cp f) s = .next (trapAll f { cause := 0x60, eaddr := descEa f l.th, einfo := BitVec.ofNat 64 k } u))) ∧
    (∀ x a y, x = copy 7 0x91 → (x.cle = true → (s.core c).owner = some l.th.team) →
      copyReason u { x with tens := 0 } mbz (tens x) = none →
      checkGlobal u (copyWho u c x) { r := true } 64 (tens x) = .ok a → isRemote a.pa = false → poisoned s a.pa = false →
      PlainLoc s (.glob a.mode a.pa) → y = { x with tens := BitVec.ofNat 512 (leNat (homeBytes s a.pa 64)) } →
      tensOk y.tens = true → copyReason u y mbz (tens x) = none → BarOk u c y →
      ∃ t, exec (.cpblk f) s = .next t ∧ DoneOn f s t noResult ∧ t.mem = s.mem ∧
        (t.cpe c).q = (s.cpe c).q ++ [{ y with id := s.work.nextCopy, receivers := [], drops := 0 }])) ∧
  (∀ (f : Fields) (s : State) (l : Lane) (c : Nat), c = s.coreOf l.th →
    (GroupReady f s l →
      (((f.imm.getLsbD 0 = true → (s.lcp c).prog = none) ∧ (f.imm.getLsbD 1 = true → (s.cpe c).prog = none) ∧
          (f.imm.getLsbD 2 = true → (s.mxe c).prog = none)) →
        ∃ t, exec (.fork f) s = .next t ∧ GroupDone f s t l .none ∧
          t.lcp c = (if f.imm.getLsbD 0 then { s.lcp c with prog := some (reg64 l.th f.a, reg64 l.th f.a), loops := [], closed := false } else s.lcp c) ∧
          t.mxe c = (if f.imm.getLsbD 2 then { s.mxe c with prog := some (reg64 l.th f.c, reg64 l.th f.c), iw := Vector.replicate 8 0 } else s.mxe c) ∧
          t.cpe c = (if f.imm.getLsbD 1 then
            { s.cpe c with
              prog := some (reg64 l.th f.b, reg64 l.th f.b), iw := Vector.replicate 8 0, looped := f.imm.getLsbD 0
              nextPass := (s.cpe c).nextPass + 1, held := if f.imm.getLsbD 0 then none else some ((s.cpe c).nextPass, false) } else s.cpe c)) ∧
      ((f.imm.getLsbD 0 = true ∧ (s.lcp c).prog ≠ none) ∨ (f.imm.getLsbD 1 = true ∧ (s.cpe c).prog ≠ none) ∨
          (f.imm.getLsbD 2 = true ∧ (s.mxe c).prog ≠ none) → ∃ t, exec (.fork f) s = .next t ∧ AllWait f s t .engine)) ∧
    (∀ free, LanesSound s → (s.execLanes f).head? = some l →
      (free ↔ (s.core c).owner ≠ some l.th.team ∨
        ((f.imm.getLsbD 0 = true → (s.lcp c).prog = none ∨ ((s.lcp c).closed = true ∧ (s.lcp c).loops = [] ∧ (s.lcp c).halt = none)) ∧
          (f.imm.getLsbD 1 = true → (s.cpe c).prog = none ∧ (s.cpe c).passes = [] ∧
            ∀ k ∈ s.cores, ∀ x ∈ k.2.cpe.q, ¬ (x.prog = true ∧ x.team = l.th.team)) ∧
          (f.imm.getLsbD 2 = true → (s.mxe c).prog = none ∧ (s.mxe c).q = []))) →
      (free → ∃ t, exec (.rdv f) s = .next t ∧ DoneOn f s t noResult ∧ SameButThreads s t) ∧
      (¬ free → ∃ t, exec (.rdv f) s = .next t ∧ AllWait f s t .engine))) ∧
  (∀ (s : State) (c : Nat),
    (∀ x out, SectorReady s c x → out ≠ .uncorrectable → (∀ y ∈ (s.cpe c).q, y.id = x.id → y = x) →
      ∃ t, exec (.copySector c out) s = .next t ∧ t.mem = s.mem ∧ (∀ k, t.thread? k = s.thread? k) ∧
        PadWritten s t x.team (x.dst.toNat + x.done / max 1 (x.rowBytes / 64) * x.dstPitch + 64 * (x.done % max 1 (x.rowBytes / 64)))
          (scratchBytes s x.team (x.src.toNat + x.done / max 1 (x.rowBytes / 64) * x.srcPitch + 64 * (x.done % max 1 (x.rowBytes / 64))) 64) ∧
        ∃ n, (t.cpe c).q = (s.cpe c).q.map fun y => if y.id == x.id then { x with done := x.done + 1, credited := n } else y) ∧
    (s.guidon.frozen = true ∨ (s.cpe c).halt ≠ none ∧ nextCopy s (s.cpe c).q [] = none → ∀ out, exec (.copySector c out) s = .next s) ∧
    (∀ k x, s.guidon.frozen = false → (s.cpe c).q.find? (fun x => x.id == k) = some x → x.isOver s = true → x.fatal = none → x.be = false →
      x.ringSlot = none → x.cle = false → x.rcd = 0 → (s.teamCpe x.team).passes = [] →
      ∃ t, exec (.copyComplete c k) s = .next t ∧ OneCore s t c ∧ (∀ j, KeepsThread s t j) ∧
        t.cpe c = { s.cpe c with q := (s.cpe c).q.filter fun y => y.id != k }) ∧
    (∀ k x o, x = Tab.get (s.group c).sinks k {} → s.guidon.frozen = false → x.act = 1 → x.cnt ≠ 0 → (s.mxe c).prog = none →
      (s.core c).owner = some o →
      ∃ t, exec (.sinkMprogStart c k) s = .next t ∧ OneCore s t c ∧ (∀ j, KeepsThread s t j) ∧
        t.mxe c = { s.mxe c with prog := some (x.addr, x.addr), iw := Vector.replicate 8 0 } ∧
        Tab.find (t.group c).sinks k = some { x with cnt := x.cnt - 1 }) ∧
    (∀ k x o u bs d y, x = Tab.get (s.group c).sinks k {} → s.guidon.frozen = false → x.act = 2 → x.cnt ≠ 0 → x.form ≤ 5 →
      (s.core c).owner = some o → (s.cpe c).q.length < 64 → (s.cpe c).halt = none → checkScratch s o 64 x.addr.toNat = none →
      inTransit s o x.addr.toNat 64 = false → backPoisoned s o x.addr.toNat = false → isSecondary s o = false →
      u = setSink c k { x with cnt := x.cnt - 1 } s → bs = scratchBytes s o x.addr.toNat 64 →
      d = { descCopy bs x.form s o with
        scope := x.scope, quad := x.quad, slot := x.slot, epc := x.epc, op := 0x90, fn := BitVec.ofNat 8 x.form } →
      y = { d with tens := 0 } → copyReason u y (leAt bs 0x3C 4) (BitVec.ofNat 64 d.tens.toNat) = none → BarOk u c y →
      ∃ t, exec (.sinkCopySubmit c k) s = .next t ∧ t.mem = s.mem ∧ (∀ j, KeepsThread s t j) ∧
        (t.cpe c).q = (s.cpe c).q ++ [{ y with id := s.work.nextCopy, receivers := [], drops := 0 }] ∧
        Tab.find (t.group c).sinks k = some { x with cnt := x.cnt - 1 }) ∧
    (∀ h, (s.cpe c).halt = some h →
      (∃ t, exec (.cpeCtlResume c) s = .next t ∧ OneCore s t c ∧ (∀ j, KeepsThread s t j) ∧
        t.cpe c = { s.cpe c with halt := none, haltCopy := none, haltSink := none }) ∧
      (∀ k x fc, (s.cpe c).haltCopy = some k → (s.cpe c).q.find? (fun y => y.id == k) = some x →
        ∃ t, exec (.cpeCtlFail c fc) s = .next t ∧ OneCore s t c ∧ (∀ j, KeepsThread s t j) ∧ (t.cpe c).halt = none ∧
          (t.cpe c).q = (s.cpe c).q.map fun y =>
            if y.id == x.id then { x with fatal := some fc, told := true } else y)) ∧
    ((s.cpe c).halt = none → exec (.cpeCtlResume c) s = .next s ∧ ∀ fc, exec (.cpeCtlFail c fc) s = .next s))

/-- The loop-control processor and the fetch of engine programs (spec 12 R264 to R268). -/
def Obligations.LoopProcessor : Prop :=
  let rest := fun (s t : State) (c : Nat) => OneCore s t c ∧ ∀ k, KeepsThread s t k
  (∀ (f : Fields) (s : State) (c : Nat) (pc start : DWord), s.cur = .engine c .lcp → (s.lcp c).prog = some (pc, start) →
    let x := s.lcp c
    let n := (f.imm.extractLsb' 0 16).toNat
    (n ≠ 0 → x.loops.length < 5 → ∃ t, exec (.loopL f) s = .next t ∧ rest s t c ∧
      t.lcp c = { x with loops := (succPc pc, n) :: x.loops, closed := false, prog := some (succPc pc, start) }) ∧
    (n ≠ 0 → 5 ≤ x.loops.length → ∃ t, exec (.loopL f) s = .next t ∧ rest s t c ∧ t.lcp c = { x with halt := some 0x4A }) ∧
    (∀ a, n = 0 → afterEndl c s 65536 (succPc pc) 0 = .ok a → ∃ t, exec (.loopL f) s = .next t ∧ rest s t c ∧
      t.lcp c = { x with prog := some (a, start) }) ∧
    (∀ a k r, x.loops = (a, k) :: r → 1 < k → ∃ t, exec (.endl f) s = .next t ∧ rest s t c ∧
      t.lcp c = { x with loops := (a, k - 1) :: r, prog := some (a, start) }) ∧
    (∀ a k r, x.loops = (a, k) :: r → k ≤ 1 → ∃ t, exec (.endl f) s = .next t ∧ rest s t c ∧
      t.lcp c = { x with loops := r, closed := r.isEmpty, prog := some (succPc pc, start) }) ∧
    (x.loops = [] → ∃ t, exec (.endl f) s = .next t ∧ rest s t c ∧ t.lcp c = { x with halt := some 0x4A }) ∧
    (f.imm.getLsbD 0 = true → x.outM < 32 → ∃ t, exec (.emit f) s = .next t ∧ rest s t c ∧
      t.lcp c = { x with outM := x.outM + 1, recM := x.recM ++ [⟨x.a, f.imm.getLsbD 1⟩], prog := some (succPc pc, start) }) ∧
    (f.imm.getLsbD 0 = false → x.outC < 32 → ∃ t, exec (.emit f) s = .next t ∧ rest s t c ∧
      t.lcp c = { x with outC := x.outC + 1, recC := x.recC ++ [⟨x.a, f.imm.getLsbD 1⟩], prog := some (succPc pc, start) }) ∧
    (32 ≤ (if f.imm.getLsbD 0 then x.outM else x.outC) → exec (.emit f) s = .next s) ∧
    ((f.imm.extractLsb' 1 6).toNat ≤ 32 - (if f.imm.getLsbD 0 then x.outM else x.outC) →
      ∃ t, exec (.permw f) s = .next t ∧ rest s t c ∧ t.lcp c = { x with prog := some (succPc pc, start) }) ∧
    (32 - (if f.imm.getLsbD 0 then x.outM else x.outC) < (f.imm.extractLsb' 1 6).toNat → exec (.permw f) s = .next s) ∧
    (let k := (f.mod.extractLsb' 0 3).toNat
      ∃ t, exec (.lset f) s = .next t ∧ rest s t c ∧ t.lcp c =
        { x with
          a := x.a.setIfInBounds k (if f.mod.getLsbD 3 then x.a.getD k 0 + f.imm else f.imm), prog := some (succPc pc, start) }) ∧
    (∃ t, exec (.lend f) s = .next t ∧ rest s t c ∧ t.lcp c = { x with prog := none, loops := [], closed := false })) ∧
  (∀ (s : State) (c : Nat),
    (∀ h, (s.lcp c).halt = some h →
      (∃ t, exec (.lcpCtlResume c) s = .next t ∧ rest s t c ∧ t.lcp c = { s.lcp c with halt := none }) ∧
      (∀ pc start, (s.lcp c).prog = some (pc, start) → ∃ t, exec (.lcpCtlSkip c) s = .next t ∧ rest s t c ∧
        t.lcp c = { s.lcp c with halt := none, prog := some (succPc pc, start) }) ∧
      (∃ t, exec (.lcpCtlAbort c) s = .next t ∧ rest s t c ∧
        t.lcp c = { s.lcp c with halt := none, prog := none, loops := [], closed := false })) ∧
    ((s.lcp c).halt = none → exec (.lcpCtlResume c) s = .next s ∧ exec (.lcpCtlSkip c) s = .next s ∧ exec (.lcpCtlAbort c) s = .next s)) ∧
  ∀ (s u v : State) (c : Nat) (e : Engine) (pc : DWord) (w : IWord) (btm : Bool) (i : Instr),
    s.guidon.frozen = false → engineHalted s c e = false → progPc s c e = some pc →
    (e = .copy → (s.cpe c).looped = true → (s.cpe c).held ≠ none) →
    engineFetch c pc s = (.ok (w, btm), u) → (atStart s c e pc = true → btm = true) → decodeWord (engineEnv s c e) w = .ok i →
    (shapeOf i).engines.contains e = true →
    ((∀ g, i ≠ .nop g) → exec i { u with cur := .engine c e } = .next v →
      exec (.engineProgramFetch c e) s = .next { v with cur := .none }) ∧
    (∀ g, i = .nop g → exec (.engineProgramFetch c e) s = .next { engineNext { u with cur := .engine c e } with cur := .none })

/-- The matrix instructions of a wave and of the sequencer (spec 08 R150 to R153). -/
def Obligations.MatrixInstructions : Prop :=
  (∀ (f : Fields) (s : State) (l : Lane), GroupReady f s l →
    let c := s.coreOf l.th
    let w := s.wave s.curWave
    let m : MCmd := { word := w.wordAt w.pc, base := reg32 l.th f.a, epc := w.pc, quad := w.quad, slot := w.slot }
    let queued := { s.group c with mxe := { s.mxe c with q := (s.mxe c).q ++ [m] } }
    ((s.mxe c).q.length < 32 → (s.mxe c).prog = none →
      (∃ t, exec (.mldb f) s = .next t ∧ GroupDone f s t l .none ∧ t.group c = queued) ∧
      (∃ t, exec (.mma f) s = .next t ∧ GroupDone f s t l .none ∧ t.group c = queued) ∧
      (∃ t, exec (.accz f) s = .next t ∧ GroupDone f s t l .none ∧ t.group c = queued) ∧
      (∃ t, exec (.accsc f) s = .next t ∧ GroupDone f s t l .none ∧ t.group c = queued) ∧
      (∃ t, exec (.accld f) s = .next t ∧ GroupDone f s t l .none ∧ t.group c = queued) ∧
      (∃ t, exec (.accst f) s = .next t ∧ GroupDone f s t l .none ∧ t.group c = queued) ∧
      (∃ t, exec (.msel f) s = .next t ∧ GroupDone f s t l .none ∧ t.group c = queued) ∧
      (∃ t, exec (.msig f) s = .next t ∧ GroupDone f s t l .none ∧ t.group c = queued)) ∧
    (32 ≤ (s.mxe c).q.length ∨ (s.mxe c).prog ≠ none →
      (∃ t, exec (.mldb f) s = .next t ∧ AllWait f s t .engine) ∧
      (∃ t, exec (.mma f) s = .next t ∧ AllWait f s t .engine) ∧
      (∃ t, exec (.accz f) s = .next t ∧ AllWait f s t .engine) ∧
      (∃ t, exec (.accsc f) s = .next t ∧ AllWait f s t .engine) ∧
      (∃ t, exec (.accld f) s = .next t ∧ AllWait f s t .engine) ∧
      (∃ t, exec (.accst f) s = .next t ∧ AllWait f s t .engine) ∧
      (∃ t, exec (.msel f) s = .next t ∧ AllWait f s t .engine) ∧
      (∃ t, exec (.msig f) s = .next t ∧ AllWait f s t .engine))) ∧
  ∀ (f : Fields) (s : State) (c : Nat) (pc start : DWord), s.cur = .engine c .matrix → (s.mxe c).prog = some (pc, start) →
    let permit := fun (n : Nat) => match (s.mxe c).held with | some _ => n - 1 | none => n
    (∃ t, exec (.mendLoop f) s = .next t ∧ OneCore s t c ∧ (∀ k, KeepsThread s t k) ∧
      t.mxe c = { s.mxe c with prog := some (start, start) }) ∧
    (∃ t, exec (.mend f) s = .next t ∧ OneCore s t c ∧ (∀ k, KeepsThread s t k) ∧
      t.mxe c = { s.mxe c with prog := none, iw := Vector.replicate 8 0, held := none } ∧ (t.lcp c).outM = permit (s.lcp c).outM) ∧
    (∀ r rs, (s.lcp c).recM = r :: rs → ∃ t, exec (.mnext f) s = .next t ∧ OneCore s t c ∧ (∀ k, KeepsThread s t k) ∧
      t.mxe c = { s.mxe c with prog := some (succPc pc, start), iw := r.words, held := some r.sig } ∧
      t.lcp c = { s.lcp c with recM := rs, outM := permit (s.lcp c).outM }) ∧
    (let k := (f.imm.extractLsb' 0 4).toNat
      ∀ x, x = Tab.get (s.group c).sinks k {} → x.act = 0 → 1 ≤ x.cnt →
      ∃ t, exec (.mwaite f) s = .next t ∧ OneCore s t c ∧ (∀ k, KeepsThread s t k) ∧
        t.mxe c = { s.mxe c with prog := some (succPc pc, start) } ∧ Tab.find (t.group c).sinks k = some { x with cnt := x.cnt - 1 }) ∧
    (32 ≤ (s.mxe c).q.length → exec (.mldb f) s = .next s ∧ exec (.mma f) s = .next s ∧ exec (.msig f) s = .next s)

/-- The matrix engine's commands and its control bits (spec 08 R148, R155 to R162). -/
def Obligations.MatrixEngine : Prop :=
  let touched := fun (s t : State) (c : Nat) => ∃ u, PagesOnly s u ∧ OneCore u t c ∧ ∀ k, KeepsThread s t k
  let rest := fun (s t : State) (c : Nat) => OneCore s t c ∧ ∀ k, KeepsThread s t k
  (∀ (s : State) (c : Nat) (m : MCmd) (q : List MCmd), s.guidon.frozen = false → (s.mxe c).halt = none → (s.mxe c).q = m :: q → mxMissing s c = [] →
    let f := unpackFields m.word
    let op := opField m.word
    (op = 0xA2 → ∃ t, exec (.matrixCommandComplete c) s = .next t ∧ touched s t c ∧ (t.mxe c).q = q ∧
      ∀ r col, col < 512 → (t.mxe c).entry r col =
        if imNat f 0 6 ≤ r ∧ r < imNat f 0 6 + (imNat f 6 6 + 1) ∧ (imNat f 12 8).testBit (col / 64) = true
        then (match imNat f 20 3 with | 0 => 0 | 1 => 32767 | _ => 0xFF8000000) else (s.mxe c).entry r col) ∧
    (op = 0xA1 → (∀ k ∈ blocksOf (imNat f 14 8), ∃ b, (s.mxe c).active k = some b ∧ b.fmt.toNat = (f.mod.extractLsb' 2 4).toNat) →
      ∀ fr, (imNat f 26 2 = 2 ∧ (s.mxe c).coll = some fr ∧ fr.fmt.toNat = (f.mod.extractLsb' 2 4).toNat) → f.imm.getLsbD 25 = false →
      ∃ t, exec (.matrixCommandComplete c) s = .next t ∧ touched s t c ∧ (t.mxe c).q = q ∧
        (t.mxe c).coll = (if f.mod.getLsbD 1 then some fr else none) ∧
        ∀ r col, col < 512 → (t.mxe c).entry r col =
          if 8 * imNat f 22 3 ≤ r ∧ r < 8 * imNat f 22 3 + 8 ∧ fr.mask.getLsbD (r - 8 * imNat f 22 3) = true ∧
            (imNat f 14 8).testBit (col / 64) = true
          then mmaEntry f.fn.toNat (f.mod.extractLsb' 2 4).toNat (8 * imNat f 22 3) fr (s.mxe c) r col ((s.mxe c).entry r col)
          else (s.mxe c).entry r col) ∧
    (op = 0xA1 → (∃ k ∈ blocksOf (imNat f 14 8), ∀ b, (s.mxe c).active k = some b → b.fmt.toNat ≠ (f.mod.extractLsb' 2 4).toNat) →
      ∃ t, exec (.matrixCommandComplete c) s = .next t ∧ touched s t c ∧ t.mxe c = { s.mxe c with halt := some 0x49 }) ∧
    (op = 0xA0 →
      let addr := cmdAddr m (imNat f 0 14)
      let n := slabBytes (f.mod.extractLsb' 2 4).toNat
      let team := (s.core c).owner.getD 0
      (addr % 64 = 0 → addr + n ≤ scratchSize s team → ∃ t, exec (.matrixCommandComplete c) s = .next t ∧ touched s t c ∧
        t.mxe c = { s.mxe c with q := q, banks := Tab.put (s.mxe c).banks (4 * imNat f 25 3 + imNat f 23 2) (slabOf (f.mod.extractLsb' 2 4).toNat (scratchBytes s team addr n)) }) ∧
      (addr % 64 ≠ 0 → ∃ t, exec (.matrixCommandComplete c) s = .next t ∧ touched s t c ∧ t.mxe c = { s.mxe c with halt := some 0x43 }) ∧
      (addr % 64 = 0 → scratchSize s team < addr + n → ∃ t, exec (.matrixCommandComplete c) s = .next t ∧ touched s t c ∧
        t.mxe c = { s.mxe c with halt := some 0x48 })) ∧
    (op = 0xA5 →
      let addr := cmdAddr m (imNat f 0 8)
      let row := accRow m f (accOutSize f.fn.toNat)
      let bs := accBytes (s.mxe c) f.fn.toNat (imNat f 8 6 + m.row) 1 (imNat f 20 8)
      let team := (s.core c).owner.getD 0
      addr % 64 = 0 → addr + (imNat f 14 6 + 1) * row.2 ≤ scratchSize s team → ∃ t, exec (.matrixCommandComplete c) s = .next t ∧
        (∀ k, KeepsThread s t k) ∧ t.mem = s.mem ∧ t.mxe c = { s.mxe c with q := if m.row ≥ imNat f 14 6 then q else { m with row := m.row + 1 } :: q } ∧ PadWritten s t team row.1 bs) ∧
    (∀ cause addr, ∃ t, exec (.engineFault c .matrix cause addr) s = .next t ∧ rest s t c ∧ t.mxe c = { s.mxe c with halt := some cause })) ∧
  ∀ (s : State) (c : Nat),
    (s.guidon.frozen = true ∨ (s.mxe c).halt ≠ none ∨ (s.mxe c).q = [] ∨ mxMissing s c ≠ [] → exec (.matrixCommandComplete c) s = .next s) ∧
    (∃ t, exec (.mxeCtlClrst c) s = .next t ∧ rest s t c ∧ t.mxe c = { s.mxe c with sat := false, nan := false, ovf := false }) ∧
    (∀ h, (s.mxe c).halt = some h →
      (∃ t, exec (.mxeCtlResume c) s = .next t ∧ rest s t c ∧ t.mxe c = { s.mxe c with halt := none }) ∧
      (∀ m q, (s.mxe c).q = m :: q → ∃ t, exec (.mxeCtlSkip c) s = .next t ∧ rest s t c ∧ t.mxe c = { s.mxe c with halt := none, q := q }) ∧
      (∃ t, exec (.mxeCtlAbort c) s = .next t ∧ rest s t c ∧
        t.mxe c = { s.mxe c with halt := none, q := [], prog := none, iw := Vector.replicate 8 0, held := none })) ∧
    ((s.mxe c).halt = none → exec (.mxeCtlResume c) s = .next s ∧ exec (.mxeCtlSkip c) s = .next s ∧ exec (.mxeCtlAbort c) s = .next s)

/-- Control transfers and NOP (spec 06 R116, R117). -/
def Obligations.ControlTransfers : Prop :=
  ∀ (f : Fields) (s : State) (pc near : DWord), LanesSound s → pc = (s.wave s.curWave).pc →
    near = lineAddr pc + (f.imm.extractLsb' 3 29).signExtend 64 * 64 + (4 + 12 * (f.imm.extractLsb' 0 3).setWidth 64) →
    ((∀ l ∈ s.execLanes f, targetErr s l.th near = none) →
      (∃ t, exec (.bra f) s = .next t ∧ SameButThreads s t ∧ LanesBecome f s t fun l => { l.th with pc := near }) ∧
      ∃ t, exec (.call f) s = .next t ∧ SameButThreads s t ∧
        LanesBecome f s t fun l => { putD64 f.d (succPc pc) (nextTh s l.th) with pc := near }) ∧
    ((∀ l ∈ s.execLanes f, targetErr s l.th (reg64 l.th f.a + f.imm.signExtend 64) = none) →
      (∃ t, exec (.brx f) s = .next t ∧ SameButThreads s t ∧
        LanesBecome f s t fun l => { l.th with pc := reg64 l.th f.a + f.imm.signExtend 64 }) ∧
      ∃ t, exec (.callx f) s = .next t ∧ SameButThreads s t ∧
        LanesBecome f s t fun l => { putD64 f.d (succPc pc) (nextTh s l.th) with pc := reg64 l.th f.a + f.imm.signExtend 64 }) ∧
    ((∀ l ∈ s.execLanes f, targetErr s l.th (reg64 l.th f.a) = none) →
      ∃ t, exec (.ret f) s = .next t ∧ SameButThreads s t ∧ LanesBecome f s t fun l => { l.th with pc := reg64 l.th f.a }) ∧
    ∃ t, exec (.nop f) s = .next t ∧ SameButThreads s t ∧ LanesBecome f s t fun l => nextTh s l.th

/-- Trap service, ERET, ERET.EXIT and ERET.FAIL (spec 21 R400 to R406). -/
def Obligations.HandlerReturns : Prop :=
  (∀ (s : State) (c : Nat) (p : Trap) (ps : List Trap) (x frame : Nat), (s.core c).traps = p :: ps → (s.core c).serving = none →
    s.guidon.frozen = false → x = (s.grid (s.team p.team).grid).ctx → frame = canonVa (((s.ctx x).tfb.extractLsb' 6 51).toNat * 64) + 64 * c →
    (∀ u, vaWrite ⟨c, x, true⟩ { w := true } frame (frameBytes s c p) (s.modCore c fun k => { k with traps := ps }) = .ok u →
      ((s.ctx x).pvec.getLsbD 63 = true → ∃ t, exec (.trapServe c) s = .next t ∧ t.mem = u.mem ∧
        t.core c = { u.core c with serving := some p } ∧ (∀ d, d ≠ c → t.core d = u.core d) ∧
        (∀ h, h < 32 → t.thread? (u.work.nextThread + h) = some
          { Thread.setRegs {} 0 [loW (BitVec.ofNat 64 frame), hiW (BitVec.ofNat 64 frame), p.regs.cause.setWidth 32] with
            team := p.team, handlerOf := some c, pc := vecEntry (s.ctx x).pvec, entryCheck := true, lastIssue := s.clock,
            slot := Config.handlerSlot, hidx := h, lane := h }) ∧
        ∀ k, k < u.work.nextThread → t.thread? k = u.thread? k) ∧
      ((s.ctx x).pvec.getLsbD 63 = false →
        exec (.trapServe c) s = .next (failGrid (u.team p.team).grid p.regs.cause (retireTrapped p u))))) ∧
  (∀ (f : Fields) (s : State) (l : Lane) (c : Nat) (p : Trap), (s.execLanes f).head? = some l → l.th.handlerOf = some c →
    (s.core c).serving = some p → (∀ e ∈ s.work.threads, e.2.handlerOf = some c → (s.thread e.1).batch = none) →
    (p.redund = false → slotOf p.regs.epc ≠ none →
      ∃ t, exec (.eret f) s = .next t ∧ (t.core c).serving = none ∧ (t.core c).traps = (s.core c).traps ∧
        (∀ d, d ≠ c → t.core d = s.core d) ∧ (∀ e ∈ t.work.threads, e.2.handlerOf ≠ some c) ∧
        ∀ k x, s.thread? k = some x → (∀ e ∈ s.work.threads, e.1 = k → e.2.handlerOf ≠ some c) →
          t.thread? k = some (if k ∈ p.threads then
            { x with stopped := false, entryCheck := false, pc := p.regs.epc, resume := if x.resume.isSome then some p.regs.epc else none } else x)) ∧
    (p.threads = [] →
      (∃ t, exec (.eretExit f) s = .next t ∧ (t.core c).serving = none ∧ (∀ e ∈ t.work.threads, e.2.handlerOf ≠ some c) ∧
        ∀ k x, s.thread? k = some x → (∀ e ∈ s.work.threads, e.1 = k → e.2.handlerOf ≠ some c) → t.thread? k = some x) ∧
      (∀ u, u = endHandler c s → exec (.eretFail f) s = .next (failGrid (u.team p.team).grid p.regs.cause u)) ∧
      ∀ g, (endHandler c s).grid? ((endHandler c s).team p.team).grid = some g → g.cancel ≠ none →
        ∃ t, exec (.eretFail f) s = .next t ∧ t.grid? ((endHandler c s).team p.team).grid = some { g with fail := some (g.fail.getD p.regs.cause) })) ∧
  ∀ (f : Fields) (s : State) (l : Lane) (c k : Nat) (p : Trap) (x : Thread), (s.execLanes f).head? = some l → l.th.handlerOf = some c →
    (s.core c).serving = some p → (∀ e ∈ s.work.threads, e.2.handlerOf = some c → (s.thread e.1).batch = none) → p.threads = [k] → s.thread? k = some x → (∀ e ∈ s.work.threads, e.1 = k → e.2.handlerOf ≠ some c) →
    x.group = none → x.batch = none → (∀ e ∈ (endHandler c s).work.waves, e.2.lanes.toList.contains (some k) = false) →
    ∃ t, exec (.eretExit f) s = .next t ∧ (t.core c).serving = none ∧ t.thread? k = none

/-- SREG and SWR (spec 02 R32, 21 R411). The handler wave's own thread numbers read a free value (log entry 8, the model's choice). -/
def Obligations.SpecialRegisters : Prop :=
  (∀ (f : Fields) (s : State) (sel : Nat), LanesSound s → sel = (f.imm.extractLsb' 0 8).toNat →
    ∃ t, exec (.sreg f) s = .next t ∧ SameButThreads { s with free := s.free + 1 } t ∧
      LanesBecome f s t fun l => writeOut f (.value (Machine.selWide sel) (specialReg s l sel)) (nextTh s l.th)) ∧
  (∀ (s : State) (l : Lane), specialReg s l 0x01 = BitVec.ofNat 64 l.th.hidx ∧ specialReg s l 0x04 = BitVec.ofNat 64 l.lane ∧
    specialReg s l 0x0C = BitVec.ofNat 64 (s.coreOf l.th) ∧ specialReg s l 0x10 = BitVec.ofNat 64 s.clock ∧
    specialReg s l 0x12 = BitVec.ofNat 64 (s.ctxOf l.th) ∧ specialReg s l 0x0F = s.fabric.module_.setWidth 64 ∧
    (l.th.handlerOf = none → specialReg s l 0x14 = l.th.lineage ∧ specialReg s l 0x21 = l.th.trap.epc ∧
      specialReg s l 0x28 = l.th.trap.evalA.setWidth 64 ∧
      specialReg s l 0x00 = if l.th.spawned then 0xFFFFFFFF else BitVec.ofNat 64 (l.th.hoist * (s.gridOf l.th).hoistThreads + l.th.hidx)) ∧
    ∀ c p, l.th.handlerOf = some c → (s.core c).serving = some p →
      specialReg s l 0x20 = p.regs.cause.setWidth 64 ∧ specialReg s l 0x22 = p.regs.eaddr) ∧
  (∀ (f : Fields) (s : State) (l : Lane) (sel : Nat), LanesSound s → (s.execLanes f).head? = some l → l.th.handlerOf = none →
    sel = (f.imm.extractLsb' 0 8).toNat →
    ∃ t, exec (.swr f) s = .next t ∧ SameButThreads s t ∧
      LanesBecome f s t fun l => if l.th.handler then
          { nextTh s l.th with trap := l.th.trap.write sel (if Machine.selWide sel then reg64 l.th f.a else (reg32 l.th f.a).setWidth 64) }
        else nextTh s l.th) ∧
  ∀ (f : Fields) (s : State) (l : Lane) (c sel : Nat) (p : Trap) (r : TrapRegs), LanesSound s → (s.execLanes f).head? = some l → l.th.handlerOf = some c →
    (s.core c).serving = some p → sel = (f.imm.extractLsb' 0 8).toNat →
    r = p.regs.write sel (if Machine.selWide sel then reg64 l.th f.a else (reg32 l.th f.a).setWidth 64) →
    ∃ t, exec (.swr f) s = .next t ∧ LanesBecome f s t (fun l => nextTh s l.th) ∧ OneCore s t c ∧
      t.core c = { s.core c with serving := some { p with regs := r } }

/-- Software traps and the debugging instructions (spec 20 R388, R390, 21 R407, R410). -/
def Obligations.SoftwareTraps : Prop :=
  (∀ (f : Fields) (s : State) (pc : DWord), LanesSound s → pc = (s.wave s.curWave).pc → (∀ l ∈ s.execLanes f, escalates s l.th = false) →
    ∃ t, exec (.trap f) s = .next t ∧ SameButThreadsCores s t ∧ LanesBecome f s t fun l =>
      { l.th with
        trap := { cause := f.imm.extractLsb' 0 8, epc := succPc pc, eaddr := 0, einfo := (reg32 l.th f.a).setWidth 64,
                  efldA := s.here.word.extractLsb' 64 32, efldB := s.here.word.extractLsb' 32 32, efldC := s.here.word.extractLsb' 0 32,
                  efldD := efldD { s.here with after := true } { cause := f.imm.extractLsb' 0 8 }, next := succPc pc,
                  evalA := src32 s f l f.a, evalB := src32 s f l f.b, evalC := src32 s f l f.c },
        resv := none, savedQ := l.th.q, q := Vector.replicate 8 0, handler := true, park := none, pages := [],
        pc := vecEntry (s.ctx (s.ctxOf l.th)).uvec }) ∧
  (∀ (f : Fields) (s : State) (l : Lane) (c : Nat), LanesSound s → (byHidx (s.execLanes f)).head? = some l →
    (∀ k ∈ s.execLanes f, k.th.handlerOf = none ∧ s.coreOf k.th = c) →
    (f.imm.extractLsb' 0 8 ≠ 0x10 ∧ f.imm.extractLsb' 0 8 ≠ 0x11 →
      ∃ t tr, exec (.trapPriv f) s = .next t ∧ TrapQueued s t c tr ∧ tr.after = true ∧
        tr.regs = { cause := f.imm.extractLsb' 0 8, epc := succPc (s.wave s.curWave).pc, einfo := (reg32 l.th f.a).setWidth 64 } ∧
        LanesBecome f s t fun l => l.th.stoppedAt (succPc (s.wave s.curWave).pc) l.th.resume) ∧
    (s.hereDbg = true →
      ∃ t tr, exec (.bkpt f) s = .next t ∧ TrapQueued s t c tr ∧ tr.after = true ∧
        tr.regs = { cause := 0x10, epc := succPc (s.wave s.curWave).pc,
                    einfo := (f.imm.extractLsb' 0 16).setWidth 64 <<< 48 ||| s.hereOrdinal.setWidth 64 } ∧
        LanesBecome f s t fun l => l.th.stoppedAt (succPc (s.wave s.curWave).pc) (some (succPc (s.wave s.curWave).pc)))) ∧
  (∀ (f : Fields) (s : State), LanesSound s →
    (s.hereDbg = false → ∃ t, SameButThreads s t ∧ LanesBecome f s t (fun l => nextTh s l.th) ∧
      exec (.bkpt f) s = .next t ∧ exec (.mark f) s = .next t ∧ exec (.smpl f) s = .next t) ∧
    (s.hereDbg = true → s.execLanes f ≠ [] → ∃ t, exec (.smpl f) s = .next t ∧ SameButThreads s t ∧
      (∀ l ∈ s.activeNow, t.thread? l.id = some { nextTh s l.th with smpl := true }) ∧
      ∀ k, k ∉ s.activeNow.map Lane.id → t.thread? k = s.thread? k)) ∧
  ∀ (f : Fields) (s : State) (l : Lane) (x : Nat) (d : Dbg) (w : Wave) (bs : List Byte), LanesSound s → (s.execLanes f).head? = some l →
    x = s.hereCtx → s.hereDbg = true → d = (s.ctx x).blk → d.trc = true → w = s.wave s.curWave →
    bs = record (recordWord 3 0 w.core w.quad w.slot) s.hereOrdinal s.dtime
      (natLe 2 (f.imm.extractLsb' 0 16).toNat ++ natLe 2 0 ++ natLe 4 (reg32 l.th f.a).toNat ++ natLe 4 (s.team s.curTeam).index ++ natLe 4 0) →
    (2 ^ (d.bufn.toNat % 32) ≤ (d.head - d.tail).toNat → ∃ t, exec (.mark f) s = .next t ∧ LanesBecome f s t (fun l => nextTh s l.th) ∧
      t.mem = s.mem ∧ (t.ctx x).blk = { d with drop := satInc d.drop 1 }) ∧
    ((d.head - d.tail).toNat < 2 ^ (d.bufn.toNat % 32) → ∀ v,
      vaWrite (devWho x) { w := true } (d.buf.toNat + 32 * (d.head.toNat % 2 ^ (d.bufn.toNat % 32))) bs (advance s) = .ok v →
      exec (.mark f) s = .next (v.modCtx x fun c => { c with blk := { c.blk with head := c.blk.head + 1 } }))

/-- ERET.E in its three forms (spec 21 R407, R409). -/
def Obligations.UserReturns : Prop :=
  ∀ (f : Fields) (s : State), LanesSound s → (∀ l ∈ s.execLanes f, l.th.handler = true) →
    ((∀ l ∈ s.execLanes f, slotOf l.th.trap.epc ≠ none) → ∃ t, exec (.eretE f) s = .next t ∧ SameButThreads s t ∧
      LanesBecome f s t fun l => { l.th with
        pc := l.th.trap.epc, q := l.th.savedQ, savedQ := Vector.replicate 8 0, restoreQ := true, handler := false, trap := {}, resv := none }) ∧
    ((∀ l ∈ s.execLanes f, l.th.trap.efldD.getLsbD 4 = false) →
      ((∀ l ∈ s.execLanes f, trappedD l.th < s.regsOf l.th) → ∃ t, exec (.eretEDone f) s = .next t ∧ SameButThreads s t ∧
        LanesBecome f s t fun l => { l.th.setReg (trappedD l.th) l.th.trap.evalA with
          pc := l.th.trap.next, q := l.th.savedQ, savedQ := Vector.replicate 8 0, restoreQ := true, handler := false, trap := {}, resv := none }) ∧
      ((∀ l ∈ s.execLanes f, trappedD l.th % 2 = 0 ∧ trappedD l.th + 1 < s.regsOf l.th) →
        ∃ t, exec (.eretEDone64 f) s = .next t ∧ SameButThreads s t ∧
        LanesBecome f s t fun l => { (l.th.setReg (trappedD l.th) l.th.trap.evalA).setReg (trappedD l.th + 1) l.th.trap.evalB with
          pc := l.th.trap.next, q := l.th.savedQ, savedQ := Vector.replicate 8 0, restoreQ := true, handler := false, trap := {}, resv := none }))

/-- CWB, CINV, CDEMOTE (spec 11 R233), PREF (R224), FENCE (R231) and LDL (R230), for one executing thread. -/
def Obligations.CacheOperations : Prop :=
  (∀ (f : Fields) (s : State) (l : Lane) (c line : Nat) (x : Xlat), LanesSound s → s.execLanes f = [l] → c = s.hereCore → line = lineOf x.pa →
    checkGlobal s (whoOf s l.th) {} 1 (cacheEa f l) = .ok x → (dirOf s line).pending = false →
    (∃ t, exec (.cdemote f) s = .next t ∧ LanesBecome f s t (fun l => nextTh s l.th) ∧ t.mem = s.mem ∧
      l1Line t c line = (l1Line s c line).map (fun e => { e with hint := 1 }) ∧
      Tab.find t.home.l2 line = (Tab.find s.home.l2 line).map fun e => { e with hint := 1 }) ∧
    (l1Line s c line = none →
      (∃ t, exec (.cwb f) s = .next t ∧ LanesBecome f s t (fun l => nextTh s l.th) ∧ SameButThreads s t) ∧
      ∃ t, exec (.cinv f) s = .next t ∧ LanesBecome f s t (fun l => nextTh s l.th) ∧ t.mem = s.mem ∧
        (t.core c).icache = (s.core c).icache.filter fun e => lineOf e.1 != line) ∧
    ∀ e, l1Line s c line = some e →
      (e.st = .m → ∃ t, exec (.cwb f) s = .next t ∧ LanesBecome f s t (fun l => nextTh s l.th) ∧ OneCore s t c ∧
        t.core c = { s.core c with l1 := Tab.put (s.core c).l1 line { e with st := .e, dirty := 0 } }) ∧
      (e.st = .o → ∃ t, exec (.cwb f) s = .next t ∧ LanesBecome f s t (fun l => nextTh s l.th) ∧ t.mem = s.mem ∧
        l1Line t c line = some { e with st := .s, dirty := 0 } ∧
        dirOf t line = { dirOf s line with st := .s, sharers := (dirOf s line).sharers ||| coreBit c }) ∧
      (e.st = .e → ∃ t, exec (.cinv f) s = .next t ∧ DoneBare f s t noResult ∧ t.mem = s.mem ∧ l1Line t c line = none ∧
        dirOf t line = { dirOf s line with st := .i, sharers := 0 } ∧
        (t.core c).icache = (s.core c).icache.filter fun e => lineOf e.1 != line)) ∧
  (∀ (f : Fields) (s : State) (l : Lane), LanesSound s → s.execLanes f = [l] →
    (∀ k, checkGlobal s (whoOf s l.th) { r := true } 1 (globalEa f l.th) = .error k →
      ∃ t, exec (.pref f) s = .next t ∧ LanesBecome f s t (fun l => nextTh s l.th) ∧ SameButThreads s t) ∧
    ∀ x c, checkGlobal s (whoOf s l.th) { r := true } 1 (globalEa f l.th) = .ok x → isLocal x.pa = true → x.mode = 0 → c = s.coreOf l.th →
      l1Line s c (lineOf x.pa) = none → (s.core c).arrived = [] → (s.core c).miss = [] →
      ∃ t, exec (.pref f) s = .next t ∧ LanesBecome f s t (fun l => nextTh s l.th) ∧ t.mem = s.mem ∧
        ∀ k, k < 4 → Tab.find (t.core c).miss (lineOf x.pa + 64 * k) =
          some { hint := f.hint, swm := false, l2Only := f.fn.getLsbD 0 || f.hint == 3 }) ∧
  (∀ (f : Fields) (s : State), LanesSound s → s.execLanes f ≠ [] →
    ((∃ l ∈ s.execLanes f, remoteOpen s l.id = true) → ∃ t, exec (.fence f) s = .next t ∧ AllWait f s t (.remote Config.paSize)) ∧
    ((∀ l ∈ s.execLanes f, remoteOpen s l.id = false) →
      (f.scope.toNat < 2 → ∃ t, exec (.fence f) s = .next t ∧ LanesBecome f s t (fun l => nextTh s l.th) ∧ SameButThreads s t) ∧
      (2 ≤ f.scope.toNat → ∃ t, exec (.fence f) s = .next t ∧ DoneBare f s t noResult ∧
        (∀ e ∈ (t.core s.hereCore).l1, e.2.st ≠ .swm) ∧
        (QuietL1 s s.hereCore → t.mem = s.mem ∧ (f.scope.toNat < 4 → (t.core s.hereCore).l1 = (s.core s.hereCore).l1)) ∧
        (4 ≤ f.scope.toNat → ∀ e ∈ t.fabric.leases, e.2.ctx = s.hereCtx → e.2.expired = true)))) ∧
  ∀ (f : Fields) (s : State) (l : Lane) (x : Xlat), LanesSound s → s.execLanes f = [l] → s.hereCore = s.coreOf l.th →
    PlainAt f s { r := true, w := true, rmw := true } (pairBytes f) l x → x.mode ≠ 1 → AtHand s x (pairBytes f) → NoOrderWait f s (fun _ => x) (isAcq f) false →
      s.home.hostHeld = [] → Unrecorded s l →
    ∃ t, exec (.ldl f) s = .next t ∧ t.mem = s.mem ∧
      DoneBare f s t (fun _ => loadOut (pairBytes f) false (homeBytes s x.pa (pairBytes f))) ∧
      ∃ y, t.thread? l.id = some y ∧ y.resv = some ⟨lineOf x.pa, if x.mode = 0 then none else some s.home.farAge⟩

/-- The coalescing queue (spec 16 R335 to R339), pools (R340, R341) and collision queries (R342 to R345). -/
def Obligations.QueuesPoolsQueries : Prop :=
  (∀ (f : Fields) (s : State) (l : Lane) (c k ring : Nat), GroupReady f s l → c = s.coreOf l.th → k = (f.imm.extractLsb' 0 3).toNat →
    ring = (f.imm.extractLsb' 3 4).toNat →
    (∀ r, Tab.find (s.group c).rings ring = some r → 576 ≤ r.size → (∀ b, Tab.find (s.group c).bins k = some b → b.cur.rows = [] ∧ b.closed = []) →
      ∃ t, exec (.cqbind f) s = .next t ∧ GroupDone f s t l .none ∧
        t.group c = { s.group c with bins := Tab.put (s.group c).bins k { ring := ring, w := (f.imm.extractLsb' 7 4).toNat + 1, t := (f.imm.extractLsb' 11 16).toNat } }) ∧
    ((∀ r, Tab.find (s.group c).rings ring = some r → r.size < 576) → exec (.cqbind f) s = .next (trapAll f { cause := 0x4A } s)) ∧
    ((∀ b, Tab.find (s.group c).bins k = some b → b.cur.rows = [] ∧ b.closed = []) →
      ∃ t, exec (.cqbindOff f) s = .next t ∧ GroupDone f s t l .none ∧
        t.group c = { s.group c with bins := Tab.del (s.group c).bins k }) ∧
    (s.hereCore = c → Tab.find (s.group c).bins k = none → exec (.cqpush f) s = .next (trapAll f { cause := 0x4A } s)) ∧
    (∀ b, s.hereCore = c → Tab.find (s.group c).bins k = some b → s.regsOf l.th < (regNum? f.a).getD 0 + b.w →
      exec (.cqpush f) s = .next (takeUsers s f s.here ((s.execLanes f).map fun l => (l, { cause := 0x02, field := 6 })))) ∧
    (∀ b, s.hereCore = c → s.execLanes f = [l] → l.th.entered = none → (regNum? f.a).getD 0 + b.w ≤ s.regsOf l.th → Tab.find (s.group c).bins k = some b → b.closed.length < 2 → b.cur.rows.length < 7 →
      ∃ t, exec (.cqpush f) s = .next t ∧ t.mem = s.mem ∧
        (LanesBecome f s t fun l => putD32 f.d (BitVec.ofNat 32 (b.serial * 8 + b.cur.rows.length)) (nextTh s l.th)) ∧
        Tab.find (t.group c).bins k = some { b with cur :=
          { rows := b.cur.rows ++ [(l.th.regs ((regNum? f.a).getD 0) b.w, reg32 l.th f.b)],
            first := if b.cur.rows = [] then s.clock else b.cur.first } }) ∧
    ((∀ j, j < 8 → f.imm.getLsbD j = true → ∀ b, Tab.find (s.group c).bins j = some b → b.cur.rows = []) →
      ∃ t, exec (.cqflush f) s = .next t ∧ GroupDone f s t l .none ∧ t.group c = s.group c)) ∧
  (∀ (s : State) (c k : Nat) (b : Bin), Tab.find (s.group c).bins k = some b →
    (∀ tm tl ts r, (s.core c).owner = some tm → b.closed = tl :: ts → Tab.find (s.group c).rings b.ring = some r →
      (r.e = 0 → exec (.tileEmit c k) s = .next s) ∧
      (r.e ≠ 0 → inTransit s tm (r.slotAt r.wr) 576 = false → (s.team tm).role = .single → ∃ t, exec (.tileEmit c k) s = .next t ∧ t.mem = s.mem ∧
        Tab.find (t.group c).bins k = some { b with closed := ts } ∧
        PadWritten s t tm (r.slotAt (r.reserve false).1) (tileBytes tl))) ∧
    (b.t ≠ 0 → b.cur.rows ≠ [] → b.cur.first + 256 * b.t ≤ s.clock → (∀ r, Tab.find (s.group c).rings b.ring = some r → r.e = 0) →
      ∃ t, exec (.binTimeout c k) s = .next t ∧ (∀ j, t.thread? j = s.thread? j) ∧
        t.group c = { s.group c with bins := Tab.put (s.group c).bins k { b with closed := b.closed ++ [b.cur], cur := {}, serial := b.serial + 1 } }) ∧
    (b.t = 0 ∨ b.cur.rows = [] ∨ s.clock < b.cur.first + 256 * b.t → exec (.binTimeout c k) s = .next s)) ∧
  (∀ (f : Fields) (s : State) (l : Lane) (pa : Nat) (p : Pool) (bs : List Byte), LanesSound s → s.execLanes f = [l] →
    poolCheck f s l = .ok (.glob 0 pa) → PlainLoc s (.glob 0 pa) → poisoned s pa = false → locWait s true (.glob 0 pa) = none →
    isLocal pa = true → bs = homeBytes s pa 64 → p = readPool bs →
    (p.valid bs true = true → p.head = 0 → Unrecorded s l →
      (p.bump + 2 ^ p.lg ≤ p.limit → p.bump ≠ 0 → ∃ t, exec (.poola f) s = .next t ∧
        t.mem = Mem.put 0 s.mem pa (Pool.bytes { p with bump := p.bump + 2 ^ p.lg }) ∧
        (t.thread? l.id).map Thread.bare = some (putPred f.c true (putD64 f.d (BitVec.ofNat 64 p.bump) (nextTh s l.th))).bare) ∧
      (p.limit < p.bump + 2 ^ p.lg → ∃ t, exec (.poola f) s = .next t ∧
        t.mem = Mem.put 0 s.mem pa (Pool.bytes { p with failed := min (p.failed + 1) (2 ^ 32 - 1) }) ∧
        (t.thread? l.id).map Thread.bare = some (putPred f.c false (putD64 f.d 0 (nextTh s l.th))).bare)) ∧
    (p.valid bs true = false → exec (.poola f) s = .next (trapOne f l { cause := 0x84, eaddr := futEa f l, einfo := 1 } s)) ∧
    (p.valid bs false = true → QuietL1 s s.hereCore → p.node ((reg64 l.th f.b).toNat) = true →
      ∀ v, vaWrite (whoOf s l.th) { w := true } ((reg64 l.th f.b).toNat) (natLe 8 p.head) (advance s) = .ok v →
        CalmLine v (lineOf pa) → hostHolds v pa = false →
        ∃ t, exec (.poolf f) s = .next t ∧ t.mem = Mem.put 0 v.mem pa (Pool.bytes { p with head := (reg64 l.th f.b).toNat })) ∧
    (p.valid bs false = true → QuietL1 s s.hereCore → p.node ((reg64 l.th f.b).toNat) = false →
      exec (.poolf f) s = .next (trapOne f l { cause := 0x84, eaddr := reg64 l.th f.b, einfo := 2 } s))) ∧
  (∀ (f : Fields) (s : State) (l : Lane) (i : Instr) (occ : Bool) (q : Query), LanesSound s → s.execLanes f = [l] →
    (i = .qcol f ∧ occ = false ∨ i = .qocc f ∧ occ = true) → q = queryOf f occ s l →
    (∀ a, futurePair f l = some a → ∃ x, checkGlobal s (whoOf s l.th) { w := true } 16 a = .ok x) →
    (∀ e ∈ s.home.dir, e.2.pending = false) →
    ((s.cluster (s.hereCore / 8)).queries.length < 256 → ∃ t, exec i s = .next t ∧ DoneBare f s t noResult ∧
      (t.cluster (s.hereCore / 8)).queries = (s.cluster (s.hereCore / 8)).queries ++ [q] ∧
      t.mem = (devPut q.ctx q.fut.toNat (natLe 4 0) (advance s)).mem) ∧
    (256 ≤ (s.cluster (s.hereCore / 8)).queries.length → ∃ t, exec i s = .next t ∧ AllWait f s t .engine)) ∧
  ∀ (s : State) (k : Nat),
    ((s.cluster k).queries = [] → exec (.queryComplete k) s = .next s) ∧
    ∀ q qs r, (s.cluster k).queries = q :: qs → r = queryValue q (s.modCluster k fun x => { x with queries := qs }) →
      ∃ t, exec (.queryComplete k) s = .next t ∧ (t.cluster k).queries = qs ∧
        (∀ v, r.1 = .ok v → t.mem = (writeFuture q.ctx q.fut (futStatus 1 0) v r.2).mem) ∧
        ∀ e, r.1 = .error e → t.mem = (writeFuture q.ctx q.fut (futStatus 3 e) 0 r.2).mem

/-- BIND and UNBIND (spec 11 R234), LEASE and the events of leases (spec 13 R285, R286), for one executing thread. -/
def Obligations.BindingsAndLeases : Prop :=
  (∀ (f : Fields) (s : State) (l : Lane) (x : Xlat) (base n : Nat) (bs : List Binding), LanesSound s → s.execLanes f = [l] →
    f.fn.getLsbD 0 = false → f.fn.getLsbD 4 = false → base = (reg64 l.th f.b).toNat → n = (reg32 l.th f.c).toNat →
    checkGlobal s (whoOf s l.th) {} 1 (reg64 l.th f.a) = .ok x → (reg64 l.th f.a).toNat % 4 = 0 → x.mode = 0 →
    bs = (s.ctx s.hereCtx).binds →
    (base % 256 = 0 → 0 < n → n ≤ 2 ^ 24 → regionErr f s l (reg64 l.th f.b) n = none → ∀ bs' cs',
      bs' = removeRun none (vaOf (reg64 l.th f.b)) n bs →
      cs' = addRun { team := none, base := vaOf (reg64 l.th f.b), n := n, objTeam := none, obj := vaOf (reg64 l.th f.a) } bs' →
      (bs'.length ≤ 4096 → ∃ t, exec (.unbind f) s = .next t ∧ LanesBecome f s t (fun l => nextTh s l.th) ∧ t.mem = s.mem ∧
        t.ctx s.hereCtx = { s.ctx s.hereCtx with binds := bs' } ∧ ∀ k, k ≠ s.hereCtx → t.ctx k = s.ctx k) ∧
      (cs'.length ≤ 4096 → ∃ t, exec (.bind f) s = .next t ∧ LanesBecome f s t (fun l => nextTh s l.th) ∧ t.mem = s.mem ∧
        t.ctx s.hereCtx = { s.ctx s.hereCtx with binds := cs' } ∧ ∀ k, k ≠ s.hereCtx → t.ctx k = s.ctx k) ∧
      (4096 < cs'.length → exec (.bind f) s = .next (memTrapInfo f [(l, 0x46, reg64 l.th f.b)] (some 5) s))) ∧
    (base % 256 ≠ 0 → exec (.bind f) s = .next (memTrapInfo f [(l, 0x46, reg64 l.th f.b)] (some 3) s) ∧
      exec (.unbind f) s = .next (memTrapInfo f [(l, 0x46, reg64 l.th f.b)] (some 3) s))) ∧
  (∀ (f : Fields) (s : State) (l : Lane) (x : Xlat) (c : Nat), LanesSound s → s.execLanes f = [l] →
    checkGlobal s (whoOf s l.th) {} 1 (globalEa f l.th) = .ok x → isRemote x.pa = true → x.mode = 0 → c = s.ctxOf l.th →
    (leaseLive s c (lineOf x.pa) ≠ none ∨ flowTo s (paModule (lineOf x.pa)) c = none →
      ∃ t, exec (.leaseGet f) s = .next t ∧ LanesBecome f s t (fun l => nextTh s l.th) ∧ t.mem = s.mem ∧ t.fabric = s.fabric) ∧
    (∀ k w, Tab.find s.fabric.leases (lineOf x.pa) = none → flowTo s (paModule (lineOf x.pa)) c = some k →
      Tab.find s.fabric.flows k = some w → w.outst.length < 4096 →
      ∃ t, exec (.leaseGet f) s = .next t ∧ LanesBecome f s t (fun l => nextTh s l.th) ∧ t.mem = s.mem ∧
        Tab.find t.fabric.flows k = some { w with
          seq := w.seq + 1,
          outst := w.outst ++ [{ pkt := { src := s.fabric.module_.toNat, flow := k, seq := w.seq, typ := 0, secure := w.secure,
                                          ordered := w.ordered, pa := lineOf x.pa, size := 256, op := 1, b := BitVec.ofNat 64 c, c := 0, data := 0 },
                                 sent := s.dtime, first := s.dtime }] }) ∧
    (∀ k w d, Tab.find s.fabric.leases (lineOf x.pa) = some d → d.ctx = c → d.expired = true → d.asked = none →
      flowTo s (paModule (lineOf x.pa)) c = some k → Tab.find s.fabric.flows k = some w → w.outst.length < 4096 →
      ∃ t, exec (.leaseGet f) s = .next t ∧ LanesBecome f s t (fun l => nextTh s l.th) ∧ t.mem = s.mem ∧
        Tab.find t.fabric.leases (lineOf x.pa) = some { d with asked := some s.dtime } ∧
        Tab.find t.fabric.flows k = some { w with
          seq := w.seq + 1,
          outst := w.outst ++ [{ pkt := { src := s.fabric.module_.toNat, flow := k, seq := w.seq, typ := 6, secure := w.secure,
                                          ordered := w.ordered, pa := lineOf x.pa, size := 256, op := 1, b := d.version.setWidth 64, c := 0, data := 0 },
                                 sent := s.dtime, first := s.dtime }] }) ∧
    (∀ w, Tab.find s.fabric.leases (lineOf x.pa) = some w →
      ∃ t, exec (.leaseDrop f) s = .next t ∧ LanesBecome f s t (fun l => nextTh s l.th) ∧ t.mem = s.mem ∧
        Tab.find t.fabric.leases (lineOf x.pa) = some { w with expired := true } ∧
        (∀ k, l1Line t k (lineOf x.pa) = none) ∧ ∀ k, k ≠ lineOf x.pa → Tab.find t.fabric.leases k = Tab.find s.fabric.leases k) ∧
    (Tab.find s.fabric.leases (lineOf x.pa) = none →
      ∃ t, exec (.leaseDrop f) s = .next t ∧ LanesBecome f s t (fun l => nextTh s l.th) ∧ SameButThreads s t)) ∧
  (∀ (f : Fields) (s : State), LanesSound s → s.execLanes f ≠ [] →
    ∃ t, exec (.leaseDropall f) s = .next t ∧ LanesBecome f s t (fun l => nextTh s l.th) ∧ t.mem = s.mem ∧
      ∀ k, Tab.find t.fabric.leases k =
        (Tab.find s.fabric.leases k).map fun w => if w.ctx = s.hereCtx then { w with expired := true, late := w.asked.isSome } else w) ∧
  ∀ (s : State) (line : Nat),
    (∀ w a, s.work.threads.all (fun e => e.2.batch.isNone) = true → Tab.find s.fabric.leases line = some w → w.asked = some a →
      (∃ t, exec (.leaseRenewal line .unchanged) s = .next t ∧ t.mem = s.mem ∧
        Tab.find t.fabric.leases line = some { w with expiry := a + s.fabric.leaseNs, expired := w.late, late := false, asked := none }) ∧
      ∀ d v, (∃ t, exec (.leaseRenewal line (.data d v true)) s = .next t ∧ t.mem = s.mem ∧
          Tab.find t.fabric.leases line =
            some { w with expiry := a + s.fabric.leaseNs, expired := w.late, late := false, asked := none, bytes := d, version := v }) ∧
        ∃ t, exec (.leaseRenewal line (.data d v false)) s = .next t ∧ t.mem = s.mem ∧ Tab.find t.fabric.leases line = none ∧
          ∀ j y, s.thread? j = some y → y.park = some (.remote line) → y.awaits = none → t.thread? j = some y.unparkHere) ∧
    (∀ w, Tab.find s.fabric.leases line = some w →
      (w.expiry ≤ s.dtime → ∃ t, exec (.leaseExpiry line) s = .next t ∧ t = { s with fabric := { s.fabric with leases := t.fabric.leases }, cores := t.cores } ∧
        (∀ c k, l1Line t c k = if k = line then none else l1Line s c k) ∧
        Tab.find t.fabric.leases line = some { w with expired := true } ∧
        ∀ k, k ≠ line → Tab.find t.fabric.leases k = Tab.find s.fabric.leases k) ∧
      (s.dtime < w.expiry → exec (.leaseExpiry line) s = .next s)) ∧
    ∀ v e, v = Tab.get s.fabric.pageVer line {} → v.embargo = some e →
      (e ≤ s.dtime → ∃ t, exec (.leaseEmbargoEnd line) s = .next t ∧ t = { s with fabric := { s.fabric with pageVer := t.fabric.pageVer } } ∧
        Tab.find t.fabric.pageVer line = some { v with embargo := none }) ∧
      (s.dtime < e → exec (.leaseEmbargoEnd line) s = .next s)

/-- Barrier objects (spec 12 R240 to R243) and condition monitors (spec 11 R235, R236). -/
def Obligations.BarrierObjects : Prop :=
  (∀ (f : Fields) (s : State) (l : Lane) (p : Loc), LanesSound s → s.execLanes f = [l] → PlainLoc s p → p.poisoned s = false → QuietL1 s s.hereCore →
    (boCheck f { w := true } s l = .ok p → locWait s true p = none →
      (src32 s f l f.b ≠ 0 → ∃ t, exec (.boinit f) s = .next t ∧ DoneBare f s t noResult ∧
        LocWritten s t p (natLe 8 0 ++ natLe 8 0 ++ natLe 8 (src32 s f l f.b).toNat ++ List.replicate 40 0)) ∧
      (src32 s f l f.b = 0 → escalates s l.th = false → ∃ t y, exec (.boinit f) s = .next t ∧ t.mem = s.mem ∧
        t.thread? l.id = some y ∧ y.handler = true ∧ y.trap.cause = 0x02 ∧ y.v = l.th.v)) ∧
    (boCheck f { r := true, w := true, rmw := true } s l = .ok p → locWait s true p = none → releaseWaits s l.id (scopeOf f) = false →
      ∃ t, exec (.boarr f) s = .next t ∧ DoneBare f s t noResult ∧
        LocWritten s t p (creditBytes (locBytes s 64 p) (src32 s f l f.b).toNat false 0).1) ∧
    (boCheck f { r := true } s l = .ok p → locWait s false p = none → ∀ phase, phase = leNat (locBytes s 4 p) →
      (∃ t, exec (.botok f) s = .next t ∧ t.mem = s.mem ∧ LanesBecome f s t fun l => putD32 f.d (BitVec.ofNat 32 phase) (nextTh s l.th)) ∧
      (∀ d, d = (BitVec.ofNat 32 phase - src32 s f l f.b).toNat → 1 ≤ d → d < 2 ^ 31 →
        ∃ t, exec (.bowait f) s = .next t ∧ t.mem = s.mem ∧ LanesBecome f s t fun l => putPred f.d (decide (2 ≤ d)) (nextTh s l.th)) ∧
      ((phase + 2 ^ 32 - 1) % 2 = (f.fn.getLsbD 1).toNat →
        ∃ t, exec (.bowaitp f) s = .next t ∧ t.mem = s.mem ∧ LanesBecome f s t fun l => nextTh s l.th) ∧
      ∀ i, i = .bowait f ∧ (BitVec.ofNat 32 phase = src32 s f l f.b) ∨ i = .bowaitp f ∧ (phase + 2 ^ 32 - 1) % 2 ≠ (f.fn.getLsbD 1).toNat →
        ∀ tm o, p = .scr tm o → ∃ t k, exec i s = .next t ∧ t.mem = s.mem ∧
          (k, (⟨l.th.team, some tm, o, 4, 1, BitVec.ofNat 64 phase⟩ : Monitor)) ∈ t.home.monitors ∧
          LanesBecome f s t fun l => { l.th with
            pc := (s.wave s.curWave).pc, park := some (.monitor k), word := (s.wave s.curWave).wordAt (s.wave s.curWave).pc
            resume := some (s.wave s.curWave).pc })) ∧
  (∀ (o : List Byte) (n : Nat), o.length = 64 →
    (leAt o 0x18 8 + n + leAt o 0x20 8 < leAt o 0x10 8 →
      creditBytes o n false 0 = (o.take 24 ++ natLe 8 (leAt o 0x18 8 + n) ++ o.drop 32, false)) ∧
    (leAt o 0x18 8 + n + leAt o 0x20 8 = leAt o 0x10 8 →
      creditBytes o n false 0 = (natLe 4 (leAt o 0 4 + 1) ++ natLe 4 0 ++ (o.drop 4).take 4 ++ natLe 4 0 ++ (o.drop 16).take 8 ++
        natLe 16 0 ++ o.drop 40, false)) ∧
    (leAt o 0x10 8 < leAt o 0x18 8 + n + leAt o 0x20 8 → (creditBytes o n false 0).2 = true ∧
      (creditBytes o n false 0).1.take 16 = natLe 4 (leAt o 0 4 + 1) ++ natLe 4 0 ++ natLe 4 (leAt o 4 4 ||| 512) ++ natLe 4 0)) ∧
  (∀ (s : State) (c : Credit) (tm : Nat), c.team = some tm → s.team? tm ≠ none → backPoisoned s tm c.addr = false →
    ∃ t, exec (.barrierCredit c) s = .next t ∧ (∀ j, t.thread? j = s.thread? j) ∧
      LocWritten s t (.scr tm c.addr) (creditBytes (scratchBytes s tm c.addr 64) c.bytes c.failed c.cause).1) ∧
  (∀ (s : State) (k tm : Nat) (m : Monitor), Tab.find s.home.monitors k = some m → m.scr = some tm →
    (condHolds m.cond m.size (scratchNat s tm m.addr m.size) m.val.toNat = false → exec (.monitorWake k) s = .next s) ∧
    (condHolds m.cond m.size (scratchNat s tm m.addr m.size) m.val.toNat = true →
      (∀ e ∈ s.work.grids, e.2.recording = false ∧ e.2.playing = false) →
      ∃ t, exec (.monitorWake k) s = .next t ∧ t.mem = s.mem ∧ Tab.find t.home.monitors k = none ∧
        (∀ j y, s.thread? j = some y → y.park = some (.monitor k) → t.thread? j = some { y with park := none, pages := [] }) ∧
        ∀ j, (∀ e ∈ s.work.threads, e.1 = j → e.2.park ≠ some (.monitor k)) → t.thread? j = s.thread? j)) ∧
  ∀ (s : State) (j at_ : Nat) (y : Thread), s.thread? j = some y → y.park = some (.poll at_) →
    (at_ ≤ s.dtime → ∃ t, exec (.monitorPoll j) s = .next t ∧ ((s.team y.team).swap = false → SameButThreads s t) ∧ t.mem = s.mem ∧
      t.thread? j = some { y with park := none, pages := [] } ∧ ∀ k, k ≠ j → t.thread? k = s.thread? k) ∧
    (s.dtime < at_ → exec (.monitorPoll j) s = .next s)

/-- BAR in its three forms (spec 02 R33 to R35, 11 R237, 21 R404). -/
def Obligations.Barriers : Prop :=
  (∀ (f : Fields) (s A : State) (k : SyncKey), f.fn.toNat % 4 = 0 →
    A = arrive f 0 (fun l => ⟨.bar f, if f.a == .zero then f.imm else reg32 l.th f.a, 0, 0, true⟩) s → (A.work.threads.map (·.1)).Nodup →
    dedup ((A.work.threads.filter fun e => atWaveSync e.2 && e.2.team == s.curTeam).map fun e => e.2.syncKey) = [k] →
    syncGroup A k ≠ [] → (∀ e ∈ syncGroup A k, waveMismatch A k (syncGroup A k) e.2.mask = false) →
    ((∀ e ∈ syncGroup A k, (maskLanes e.2.mask).all (fun h => (syncGroup A k).any fun x => x.2.hlane == h) = true) →
      ∃ t, exec (.bar f) s = .next t ∧ SameButThreads s t ∧ ∀ e ∈ syncGroup A k,
        (∀ a, e.2.arrival = some a → ∀ g, fieldsOf a.ins = some g → a.ins = .bar g) →
        t.thread? e.1 = some { e.2.unparkNext with arrival := none, syncCnt := e.2.syncCnt + 1 }) ∧
    ((∀ e ∈ syncGroup A k, (maskLanes e.2.mask).all (fun h => (syncGroup A k).any fun x => x.2.hlane == h) = false) →
      exec (.bar f) s = .next A)) ∧
  (∀ (f : Fields) (s A : State) (l : Lane) (form other : Nat) (pc : DWord) (cnt : BitVec 16), LanesSound s →
    form = f.fn.toNat % 4 → (form = 1 ∧ other = 2 ∨ form = 2 ∧ other = 1) → s.activeNow.head? = some l → l.th.handlerOf = none →
    (∀ l ∈ s.execLanes f, releaseWaits s l.id (scopeOf f) = false) → QuietL1 s s.hereCore → (scopeOf f).toNat < 4 →
    (∀ e ∈ s.work.threads, QuietL1 s (s.coreOf e.2)) →
    A = arrive f form (fun l => ⟨.bar f, if f.a == .zero then f.imm else reg32 l.th f.a, 0, 0, true⟩) s → (A.work.threads.map (·.1)).Nodup →
    (∀ e ∈ A.work.threads, e.2.park ≠ some (.sync other)) →
    dedup ((A.work.threads.filter fun e => e.2.park == some (.sync form) && ((barTeams A form s.curTeam).map (·.1)).contains e.2.team).map
      fun e => (e.2.pc, e.2.barCnt form)) = [(pc, cnt)] →
    (∀ e ∈ barGroup A form s.curTeam pc cnt, barMismatch A form s.curTeam (barGroup A form s.curTeam pc cnt) e.2.mask = false) →
    (∀ e ∈ barGroup A form s.curTeam pc cnt, ∀ a g, e.2.arrival = some a → a.ins = .bar g → (scopeOf g).toNat < 4) →
    barGroup A form s.curTeam pc cnt ≠ [] →
    ((∀ e ∈ barGroup A form s.curTeam pc cnt, ∀ m ∈ barMembers A form s.curTeam e.2.mask,
        ∃ x ∈ barGroup A form s.curTeam pc cnt, x.1 = m.1) →
      ∃ t, exec (.bar f) s = .next t ∧ t.mem = s.mem ∧ ∀ e ∈ barGroup A form s.curTeam pc cnt,
        t.thread? e.1 = some { e.2 with
          park := none, pages := [], pc := succPc e.2.pc, resume := none, arrival := none
          tmCnt := if form = 1 then e.2.tmCnt + 1 else e.2.tmCnt, gnCnt := if form = 1 then e.2.gnCnt else e.2.gnCnt + 1 }) ∧
    ((∀ e ∈ barGroup A form s.curTeam pc cnt, ∃ m ∈ barMembers A form s.curTeam e.2.mask,
        ∀ x ∈ barGroup A form s.curTeam pc cnt, x.1 ≠ m.1) → exec (.bar f) s = .next A)) ∧
  ∀ (f : Fields) (s : State) (l : Lane), f.fn.toNat % 4 ≠ 0 → s.activeNow.head? = some l → l.th.handlerOf ≠ none →
    exec (.bar f) s = .next (trapAll f { cause := 0x80 } s)

/-- Spawning, ending, cancelling, deadlines and futures (spec 16 R320 to R332), for one executing thread. -/
def Obligations.SpawningAndEnding : Prop :=
  (∀ (f : Fields) (s : State) (l : Lane) (n c : Nat) (entry : DWord), LanesSound s → s.execLanes f = [l] → n = (reg32 l.th f.b).toNat →
    regNum? f.c = none → f.mod.getLsbD 4 = false → entry = branchTarget (s.wave s.curWave).pc f.imm → c = s.hereCore →
    (64 < n → exec (.spawn f) s = .next (trapOne f l { cause := 0x83, einfo := 1 } s)) ∧
    (n ≤ 64 → Config.taskListMax < tasksOn s c → ∃ t, exec (.spawn f) s = .next t ∧ AllWait f s t .tasks) ∧
    (n ≤ 64 → tasksOn s c ≤ Config.taskListMax → (Tab.get s.work.lineages l.th.lineage.toNat {}).cancel ≠ none →
      ∃ t, exec (.spawn f) s = .next t ∧ SameButThreads s t ∧ LanesBecome f s t fun l => putPred f.d false (nextTh s l.th)) ∧
    (1 ≤ n → n ≤ 32 → tasksOn s c + 1 ≤ Config.taskListMax → (Tab.get s.work.lineages l.th.lineage.toNat {}).cancel = none →
      ∃ t, exec (.spawn f) s = .next t ∧ t.mem = s.mem ∧ (LanesBecome f s t fun l => putPred f.d true (nextTh s l.th)) ∧
        t.work.nextTask = s.work.nextTask + 1 ∧
        Tab.find t.work.tasks s.work.nextTask = some
          { kind := .threads entry l.th.team ((List.range n).map fun k => (⟨spawnRegs f l ++ [BitVec.ofNat 32 k], l.th.lineage, none, s.dtime⟩ : Child)),
            grid := (s.team l.th.team).grid, core := s.coreOf l.th, stamp := s.dtime, queue := (s.gridOf l.th).queue, cls := (s.gridOf l.th).cls,
            lineage := l.th.lineage, pinned := (s.gridOf l.th).redundant || (s.gridOf l.th).stay, queued := s.clock }) ∧
    (256 < n → exec (.spawnt f) s = .next (trapOne f l { cause := 0x83, einfo := 1 } s)) ∧
    (n ≤ 256 → 1 < (s.gridOf l.th).gangTeams → exec (.spawnt f) s = .next (trapOne f l { cause := 0x83, einfo := 2 } s)) ∧
    (∀ g e, n = 1 → s.curTeam = l.th.team → s.grid? (s.team l.th.team).grid = some g → g.gangTeams ≤ 1 → g.teams ≤ g.emitted → g.pendChild = [] →
      nextEligible s g = some e → tasksOn s e < Config.taskListMax → (Tab.get s.work.lineages l.th.lineage.toNat {}).cancel = none →
      ∃ t, exec (.spawnt f) s = .next t ∧ t.mem = s.mem ∧ (LanesBecome f s t fun l => putPred f.d true (nextTh s l.th)) ∧
        t.grid? (s.team l.th.team).grid = some { g with serial := g.serial + 1, nextCore := e + 1 } ∧
        Tab.find t.work.tasks s.work.nextTask = some
          { kind := .child (g.teams + g.serial) entry ⟨spawnRegs f l ++ [0], l.th.lineage, none, s.dtime⟩,
            grid := (s.team l.th.team).grid, core := e, stamp := s.dtime, queue := g.queue, cls := g.cls,
            lineage := l.th.lineage, pinned := g.redundant || g.stay, queued := s.clock })) ∧
  (∀ (f : Fields) (s : State) (l : Lane) (x y : Xlat), LanesSound s → s.execLanes f = [l] →
    checkGlobal s (whoOf s l.th) { r := true, w := true } 64 (reg64 l.th f.a) = .ok x →
    checkGlobal s (whoOf s l.th) { r := true, w := true } 64 (reg64 l.th f.a + 320) = .ok y →
    (∀ e ∈ s.home.dir, e.2.pending = false) →
    ((Tab.get s.work.lineages l.th.lineage.toNat {}).cancel ≠ none →
      ∃ t, exec (.launchg f) s = .next t ∧ DoneBare f s t (fun _ => .pred false) ∧
        t.mem = (writeStatus (s.ctxOf l.th) (reg64 l.th f.a) 4 0 (advance s)).mem) ∧
    ((Tab.get s.work.lineages l.th.lineage.toNat {}).cancel = none →
      rangePoisoned s (whoOf s l.th) { r := true } (reg64 l.th f.a).toNat 384 = none →
      ∀ r, r = acceptRecord (s.ctxOf l.th) none (some l.th.lineage) (reg64 l.th f.a).toNat (advance s) →
        ∃ t, exec (.launchg f) s = .next t ∧ DoneBare f s t (fun _ => .pred (r.1 == .queued)) ∧ t.mem = r.2.mem ∧
          (r.1 = .queued → t.work.nextGrid = s.work.nextGrid + 1))) ∧
  (∀ (f : Fields) (s : State), LanesSound s →
    (∃ t, exec (.exit f) s = .next t ∧ (∀ l ∈ s.execLanes f, t.thread? l.id = none) ∧
      ((∀ l ∈ s.execLanes f, l.th.group = none) → t.mem = s.mem)) ∧
    (∃ t, exec (.yield f) s = .next t ∧ SameButThreads s t ∧ LanesBecome f s t fun l =>
      { nextTh s l.th with readyAt := if f.imm.extractLsb' 0 16 = 0 then 0 else s.clock + (f.imm.extractLsb' 0 16).toNat }) ∧
    ∀ l, (s.execLanes f).head? = some l →
      (∀ g, s.grid? (s.team l.th.team).grid = some g → ∃ t, exec (.dlset f) s = .next t ∧ LanesBecome f s t (fun l => nextTh s l.th) ∧
        t.grid? (s.team l.th.team).grid = some { g with deadline := (reg64 l.th f.a).toNat } ∧ t.mem = s.mem ∧ t.cores = s.cores) ∧
      (∃ t, exec (.dlrd f) s = .next t ∧ SameButThreads s t ∧
        LanesBecome f s t fun k => writeOut f (.value true (BitVec.ofNat 64 (s.gridOf l.th).deadline)) (nextTh s k.th))) ∧
  (∀ (s : State) (j : Nat) (y : Thread), s.thread? j = some y →
    (y.readyAt ≤ s.clock → ∃ t, exec (.yieldExpiry j) s = .next t ∧ SameButThreads s t ∧ t.thread? j = some { y with readyAt := 0 } ∧
      ∀ k, k ≠ j → t.thread? k = s.thread? k) ∧
    (s.clock < y.readyAt → exec (.yieldExpiry j) s = .next s)) ∧
  (∀ (f : Fields) (s : State) (l : Lane) (id : DWord), LanesSound s → s.execLanes f = [l] →
    id = (if f.mod.getLsbD 0 then l.th.lineage else reg64 l.th f.a) →
    ((∀ e, Tab.find s.work.lineages id.toNat = some e → e.ctx ≠ s.ctxOf l.th) →
      ∃ t, exec (.cancel f) s = .next t ∧ SameButThreads s t ∧ LanesBecome f s t fun l => putPred f.d (f.mod.getLsbD 0) (nextTh s l.th)) ∧
    (∀ e, Tab.find s.work.lineages id.toNat = some e → e.ctx = s.ctxOf l.th → e.cancel = none → (s.work.threads.map (·.1)).Nodup →
      ∃ t, exec (.cancel f) s = .next t ∧ ∀ j y, s.thread? j = some y → y.lineage = id → y.handlerOf = none → y.cancelled = false →
        y.cancel = none → y.park = none → (t.thread? j).map Thread.cancel = some (some 0x89))) ∧
  (∀ (s : State) (k : Nat) (g : Grid), s.grid? k = some g →
    (g.deadline = 0 ∨ s.dtime < g.deadline ∨ g.cancel ≠ none → exec (.deadlineFire k) s = .next s) ∧
    (g.deadline ≠ 0 → g.deadline ≤ s.dtime → g.cancel = none →
      (Tab.find s.work.lineages g.lineage.toNat = none → ∃ t, exec (.deadlineFire k) s = .next t ∧
        t.grid? k = some { g with deadlineFired := true, deadline := 0, cancel := some 0x88 } ∧ ∀ j, KeepsThread s t j) ∧
      ∀ e, Tab.find s.work.lineages g.lineage.toNat = some e → e.cancel = none → (s.work.threads.map (·.1)).Nodup →
        ∃ t, exec (.deadlineFire k) s = .next t ∧ ∀ j y, s.thread? j = some y → y.lineage = g.lineage → y.handlerOf = none →
          y.cancelled = false → y.cancel = none → y.park = none → (t.thread? j).map Thread.cancel = some (some 0x88))) ∧
  ∀ (f : Fields) (s : State) (l : Lane) (m pa : Nat) (bs : List Byte), LanesSound s → s.execLanes f = [l] →
    futCheck f s l = .ok (.glob m pa) → PlainLoc s (.glob m pa) → poisoned s pa = false → locWait s false (.glob m pa) = none →
    bs = homeBytes s pa 16 →
    (∃ t, exec (.futpoll f) s = .next t ∧ t.mem = s.mem ∧
      LanesBecome f s t fun l => writeOut f (val32 (BitVec.ofNat 32 (leAt bs 0 4))) (nextTh s l.th)) ∧
    (leAt bs 0 4 % 4 ≠ 0 → ∃ t, exec (.futwait f) s = .next t ∧ t.mem = s.mem ∧ LanesBecome f s t fun l =>
      writeOut f (if f.mod.getLsbD 0 then val32 (BitVec.ofNat 32 (leAt bs 0 4)) else val64 (BitVec.ofNat 64 (leAt bs 8 8))) (nextTh s l.th)) ∧
    (leAt bs 0 4 % 4 = 0 → ∃ t y p, exec (.futwait f) s = .next t ∧ t.mem = s.mem ∧ t.thread? l.id = some y ∧ y.park = some p ∧
      y.pc = (s.wave s.curWave).pc ∧ y.v = l.th.v)

/-- Translation invalidation, contexts and worlds (spec 19 R374 to R380). -/
def Obligations.Isolation : Prop :=
  (∀ (f : Fields) (s : State) (l : Lane), LanesSound s → (s.execLanes f).head? = some l → QuietL1 s s.hereCore →
    (∀ l ∈ s.execLanes f, remoteOpen s l.id = false) → s.home.hostHeld = [] →
    (∀ hit mine, mine = (fun x => (s.ctx s.hereCtx).world || !(s.ctx x).world) → hit = (fun (e : TlbEntry) => mine e.ctx) →
      (ctxRemote s mine = false → ∃ t, exec (.tlbinvAll f) s = .next t ∧ t.mem = s.mem ∧ (LanesBecome f s t fun l => nextTh s l.th) ∧
        (∀ c, (t.core c).tlb = (s.core c).tlb.filter fun e => !hit e) ∧ ∀ k, (t.cluster k).tlb = (s.cluster k).tlb.filter fun e => !hit e) ∧
      (ctxRemote s mine = true → ∃ t, exec (.tlbinvAll f) s = .next t ∧ AllWait f s t (.remote Config.paSize))) ∧
    ∀ x, x = (if f.c == .zero then s.hereCtx else (reg32 l.th f.c).toNat) →
      (ctxSecure s x = true → (s.ctx s.hereCtx).world = false →
        exec (.tlbinvCtx f) s = .next (trapAll f { cause := 0x42 } s) ∧ exec (.tlbinvPage f) s = .next (trapAll f { cause := 0x42 } s)) ∧
      (64 ≤ x → exec (.tlbinvCtx f) s = .next (trapAll f { cause := 0x44, einfo := 1 } s) ∧
        exec (.tlbinvPage f) s = .next (trapAll f { cause := 0x44, einfo := 1 } s)) ∧
      (x < 64 → (s.ctx x).st ≠ .free → ((s.ctx x).world = true → (s.ctx s.hereCtx).world = true) → ctxRemote s (fun k => k == x) = false →
        (∃ t, exec (.tlbinvCtx f) s = .next t ∧ t.mem = s.mem ∧ (LanesBecome f s t fun l => nextTh s l.th) ∧
          (∀ c, (t.core c).tlb = (s.core c).tlb.filter fun e => e.ctx != x) ∧ ∀ k, (t.cluster k).tlb = (s.cluster k).tlb.filter fun e => e.ctx != x) ∧
        ∀ n vpn, n = (reg32 l.th f.b).toNat → vpn = vaOf (reg64 l.th f.a) / 4096 →
          (1 ≤ n → n ≤ 2 ^ 20 → (reg64 l.th f.a).toNat % 4096 = 0 →
            ∃ t, exec (.tlbinvPage f) s = .next t ∧ t.mem = s.mem ∧ (LanesBecome f s t fun l => nextTh s l.th) ∧
              ∀ c, (t.core c).tlb = (s.core c).tlb.filter fun e => !(e.ctx == x && decide (e.vpn < vpn + n) && decide (vpn < e.vpn + e.pages))) ∧
          (n = 0 ∨ 2 ^ 20 < n ∨ (reg64 l.th f.a).toNat % 4096 ≠ 0 →
            exec (.tlbinvPage f) s = .next (trapAll f { cause := 0x44, einfo := 2 } s)))) ∧
  (∀ (f : Fields) (s : State) (l : Lane) (bs : List Byte), LanesSound s → (s.execLanes f).head? = some l → canonical (reg64 l.th f.a) = true →
    vaRead (whoOf s l.th) { r := true } (reg64 l.th f.a).toNat 64 s = (.ok bs, s) →
    (4 ≤ leAt bs 8 4 → (leAt bs 8 4 / 2 % 2 = 0 ∨ (s.ctx s.hereCtx).world = true) →
      exec (.ctxsetNew f) s = .next (trapAll f { cause := 0x44, einfo := 3 } s)) ∧
    (leAt bs 8 4 / 2 % 2 = 1 → (s.ctx s.hereCtx).world = false → exec (.ctxsetNew f) s = .next (trapAll f { cause := 0x42 } s)) ∧
    (leAt bs 8 4 < 4 → (leAt bs 8 4 / 2 % 2 = 0 ∨ (s.ctx s.hereCtx).world = true) → leAt bs 0x0C 4 = 0 → leAt bs 0x30 16 = 0 →
      rootOk (leAt bs 0 8) = true →
      (∀ x, (List.range Config.numContexts).find? (fun x => (s.ctx x).st == .free) = some x →
        ∃ t, exec (.ctxsetNew f) s = .next t ∧ t.mem = s.mem ∧
          (LanesBecome f s t fun l => writeOut f (val32 (BitVec.ofNat 32 x)) (nextTh s l.th)) ∧ (∀ k, k ≠ x → t.ctx k = s.ctx k) ∧
          (t.ctx x).st = .live ∧ (t.ctx x).root = leAt bs 0 8 ∧ (t.ctx x).world = decide (leAt bs 8 4 / 2 % 2 = 1) ∧
          (t.ctx x).dbg = decide (leAt bs 8 4 % 2 = 1) ∧ (t.ctx x).gen = (s.ctx x).gen + 1 ∧ (t.ctx x).svc = false ∧
          (t.ctx x).meas = BitVec.ofNat 256 (leAt bs 0x10 32) ∧ (t.ctx x).creator = BitVec.ofNat 8 s.hereCtx) ∧
      ((∀ x, x < 64 → (s.ctx x).st ≠ .free) → ∃ t, exec (.ctxsetNew f) s = .next t ∧ SameButThreads s t ∧
        LanesBecome f s t fun l => writeOut f (val32 0xFFFFFFFF) (nextTh s l.th)))) ∧
  (∀ (f : Fields) (s : State) (l : Lane) (x : Nat), LanesSound s → (s.execLanes f).head? = some l → x = (reg32 l.th f.b).toNat →
    (x < 64 → (s.ctx x).st = .live → ((s.ctx x).world = true → (s.ctx s.hereCtx).world = true) →
      (rootOk (reg64 l.th f.a).toNat = true → ctxRemote s (fun k => k == x) = false → QuietL1 s s.hereCore →
        (∀ l ∈ s.execLanes f, remoteOpen s l.id = false) → s.home.hostHeld = [] →
        ∃ t, exec (.ctxsetRoot f) s = .next t ∧ t.mem = s.mem ∧ (LanesBecome f s t fun l => nextTh s l.th) ∧
          t.ctx x = { s.ctx x with root := (reg64 l.th f.a).toNat } ∧ (∀ k, k ≠ x → t.ctx k = s.ctx k) ∧
          ∀ c, (t.core c).tlb = (s.core c).tlb.filter fun e => e.ctx != x) ∧
      (rootOk (reg64 l.th f.a).toNat = false → exec (.ctxsetRoot f) s = .next (trapAll f { cause := 0x44, einfo := 3 } s)) ∧
      (x = s.hereCtx → exec (.ctxsetKill f) s = .next (trapAll f { cause := 0x44, einfo := 1 } s)) ∧
      (x ≠ s.hereCtx → ∀ u, u = (tearDown x s).modCtx x (fun c => { c with killer := some l.id }) →
        (ctxGone u x = true → ∃ t, exec (.ctxsetKill f) s = .next t ∧ (t.ctx x).st = .free ∧ (t.ctx x).binds = [] ∧ (t.ctx x).pennants = [] ∧
          ∀ c, ∀ e ∈ (t.core c).tlb, e.ctx ≠ x) ∧
        (ctxGone u x = false → exec (.ctxsetKill f) s = .next (waitAll f (.poll (s.dtime + 1)) u)))) ∧
    (64 ≤ x → exec (.ctxsetRoot f) s = .next (trapAll f { cause := 0x44, einfo := 1 } s) ∧
      exec (.ctxsetKill f) s = .next (trapAll f { cause := 0x44, einfo := 1 } s))) ∧
  ∀ (f : Fields) (s : State) (l : Lane) (k w : Nat), LanesSound s → (s.execLanes f).head? = some l → k = (reg32 l.th f.b).toNat → w = (reg32 l.th f.c).toNat →
    ((s.ctx s.hereCtx).world = false → ∀ i, i = .wsetCore f ∨ i = .wsetSlice f ∨ i = .wsetGran f ∨ i = .wsetPort f ∨ i = .wsetFn f →
      exec i s = .next (trapAll f { cause := 0x42 } s)) ∧
    ((s.ctx s.hereCtx).world = true →
      (k < 128 → w ≤ 1 →
        ((teamsOn s k = [] ∧ ∀ e ∈ (s.core k).part, e.2.getLsbD 31 = false) → ∃ t, exec (.wsetCore f) s = .next t ∧
          (LanesBecome f s t fun l => writeOut f (val32 0) (nextTh s l.th)) ∧ OneCore s t k ∧ t.core k = { s.core k with world := decide (w = 1) }) ∧
        (teamsOn s k ≠ [] → ∃ t, exec (.wsetCore f) s = .next t ∧ SameButThreads s t ∧
          LanesBecome f s t fun l => writeOut f (val32 1) (nextTh s l.th))) ∧
      (128 ≤ k ∨ 1 < w → exec (.wsetCore f) s = .next (trapAll f { cause := 0x44, einfo := 3 } s)) ∧
      (k < 64 → w % 4 = 0 → w ≤ 16 → (∀ e ∈ s.home.dir, e.2.pending = false) → ∃ t, exec (.wsetSlice f) s = .next t ∧ DoneBare f s t (fun _ => val32 0) ∧
        Tab.get t.worlds.ways k 0 = w ∧ ∀ j, j ≠ k → Tab.get t.worlds.ways j 0 = Tab.get s.worlds.ways j 0) ∧
      (k < 64 → w ≤ 1 →
        ((∀ e ∈ s.fabric.flows, e.2.port ≠ k) → ∃ t, exec (.wsetPort f) s = .next t ∧ t.mem = s.mem ∧
          (LanesBecome f s t fun l => writeOut f (val32 0) (nextTh s l.th)) ∧
          ∀ j, j ∈ t.worlds.ports ↔ if j = k then w = 1 else j ∈ s.worlds.ports) ∧
        ((∃ e ∈ s.fabric.flows, e.2.port = k) → ∃ t, exec (.wsetPort f) s = .next t ∧ SameButThreads s t ∧
          LanesBecome f s t fun l => writeOut f (val32 1) (nextTh s l.th))) ∧
      (k < 4 → w ≤ 1 → (∀ e ∈ s.queues, e.2.en = true → (s.ctx e.2.ctx).fn ≠ some k) → ∃ t, exec (.wsetFn f) s = .next t ∧ t.mem = s.mem ∧
          (LanesBecome f s t fun l => writeOut f (val32 0) (nextTh s l.th)) ∧
          ∀ j, j ∈ t.worlds.fns ↔ if j = k then w = 1 else j ∈ s.worlds.fns) ∧
      (∀ first, (reg64 l.th f.a).toNat = first * 2 ^ 21 → 1 ≤ k → first + k ≤ 786432 → w ≤ 1 →
        (∀ l ∈ s.execLanes f, releaseWaits s l.id 5 = false) → (∀ e ∈ s.home.dir, e.2.pending = false) →
        (∀ e ∈ s.home.dir, first * 2 ^ 21 ≤ e.1 → e.1 < (first + k) * 2 ^ 21 → hostHolds s e.1 = false) →
        ∃ t, exec (.wsetGran f) s = .next t ∧ DoneBare f s t (fun _ => val32 0) ∧
          (∀ g, g ∈ t.worlds.granules ↔ if first ≤ g ∧ g < first + k then w = 1 else g ∈ s.worlds.granules) ∧
          (w = 0 → ∀ g a, first ≤ g → g < first + k → g ∈ s.worlds.granules → g * 2 ^ 21 ≤ a → a < (g + 1) * 2 ^ 21 → Mem.get 0 t.mem a = 0)))

/-- Regions and bias (spec 13 R278, R288, R289), images of waves and pins (spec 22 R415 to R420). The count of BIASSET.host is that of
log entry 32, the model's choice. -/
def Obligations.RegionsAndImages : Prop :=
  (∀ (f : Fields) (s : State) (l : Lane) (pages : List Nat), LanesSound s → (s.execLanes f).head? = some l → (reg64 l.th f.a).toNat % 4096 = 0 →
    1 ≤ (reg32 l.th f.b).toNat → (reg32 l.th f.b).toNat ≤ 65536 → (∀ l ∈ s.execLanes f, releaseWaits s l.id 5 = false) → QuietL1 s s.hereCore →
    (∀ e ∈ s.home.dir, e.2.pending = false) → (∀ e ∈ s.fabric.leases, isLocal e.1 = false) →
    (∀ n, rangePages s (whoOf s l.th) (some 0) (reg64 l.th f.a).toNat (reg32 l.th f.b).toNat 0 = .ok pages →
      n = ((heldLines s pages).filter fun line => overlap (swmMasks s line)).length →
      ∃ t, exec (.regionCoh f) s = .next t ∧ DoneBare f s t (fun _ => val32 (BitVec.ofNat 32 ((if n > 0 then 1 else 0) + 256 * min n 65535))) ∧
        ∀ c line, line / 4096 * 4096 ∈ pages → l1St t c line ≠ some .swm) ∧
    (rangePages s (whoOf s l.th) (some 1) (reg64 l.th f.a).toNat (reg32 l.th f.b).toNat 0 = .ok pages →
      ∃ t, exec (.regionSwm f) s = .next t ∧ DoneBare f s t (fun _ => val32 0) ∧
        ∀ line ∈ heldLines s pages, (dirOf t line).st = .i ∧ (dirOf t line).sharers = 0) ∧
    (rangePages s (whoOf s l.th) none (reg64 l.th f.a).toNat (reg32 l.th f.b).toNat 0 = .ok pages →
      (∀ n, n = ((((dedup pages).filter fun p => !hostBias s p).flatMap pageLines).filter (flipDirty s)).length →
        ∃ t, exec (.biassetHost f) s = .next t ∧ DoneBare f s t (fun _ => val32 (BitVec.ofNat 32 n)) ∧
          ∀ p ∈ pages, hostBias s p = false → p / 4096 ∈ t.home.bias ∧ ∀ e ∈ t.home.dir, e.1 ∉ pageLines p) ∧
      (∀ ps n, ps = (dedup pages).filter (fun p => hostBias s p) → (∀ x ∈ ps.flatMap pageLines, Tab.has s.home.flips x = true) →
        n = ((ps.flatMap pageLines).filter fun x => Tab.get s.home.flips x false).length →
        ∃ t, exec (.biassetDev f) s = .next t ∧ DoneBare f s t (fun _ => val32 (BitVec.ofNat 32 n)) ∧
          (t.home.bias = s.home.bias.filter fun p => !ps.contains (4096 * p)) ∧
          ∀ x ∈ ps.flatMap pageLines, (dirOf t x).st = .i ∧ ∀ c, l1St t c x ≠ some .swm) ∧
      (∀ ps x, ps = (dedup pages).filter (fun p => hostBias s p) → x ∈ ps.flatMap pageLines → Tab.has s.home.flips x = false →
        ∃ t, exec (.biassetDev f) s = .next t ∧ t.mem = s.mem ∧ x ∈ t.home.binv ∧ t.home.bias = s.home.bias ∧
          ∀ l ∈ s.execLanes f, ∃ y, t.thread? l.id = some y ∧ y.park.isSome = true ∧ y.pc = (s.wave s.curWave).pc))) ∧
  (∀ (f : Fields) (s : State) (l : Lane) (sel : Word) (c : Nat) (ts : List (Nat × Thread)) (u : State), LanesSound s → (s.execLanes f).head? = some l →
    sel = reg32 l.th f.b → c = s.coreOf l.th → sel.extractLsb' 7 25 = 0 →
    ts = (teamThreads s l.th.team).filter (fun e => e.2.hoist == (sel.extractLsb' 0 2).toNat && e.2.hwave == (sel.extractLsb' 2 5).toNat) →
    ts ≠ [] → (reg64 l.th f.a).toNat % 64 = 0 → canonical (reg64 l.th f.a) = true → u = s.modCore c (fun k => { k with suspend := none }) →
    ((∃ e ∈ ts, hasStopped s e.1 e.2 = false) → ∀ i, i = .wsave f ∨ i = .wrest f →
      ∃ t, exec i s = .next t ∧ t.mem = s.mem ∧ (t.core c).suspend = some ((sel.extractLsb' 0 2).toNat, (sel.extractLsb' 2 5).toNat) ∧
        ∀ l ∈ s.execLanes f, ∃ y, t.thread? l.id = some y ∧ y.park = some (.poll (s.dtime + 1))) ∧
    ((∀ e ∈ ts, hasStopped s e.1 e.2 = true) →
      (∀ v, vaWrite (whoOf s l.th) { w := true } (reg64 l.th f.a).toNat (waveImage u sel ts) u = .ok v → (∀ e ∈ s.home.dir, e.2.pending = false) →
        ∃ t, exec (.wsave f) s = .next t ∧ t.mem = v.mem ∧ DoneBare f s t noResult ∧ (t.core c).suspend = none) ∧
      (∀ bs, vaRead (whoOf s l.th) { r := true } (reg64 l.th f.a).toNat imageSize u = (.ok bs, u) →
        ∀ k x img, ts = [(k, x)] → s.thread? k = some x → k ∉ s.activeNow.map Lane.id → x.stopped = true →
          (BitVec.ofNat 32 (leAt bs 4 4) &&& BitVec.ofNat 32 (leAt bs 8 4)).getLsbD x.hlane = true →
          img = (bs.drop (64 + 320 * x.hlane)).take 320 →
          ∃ t, exec (.wrest f) s = .next t ∧ t.mem = s.mem ∧ (∀ l ∈ s.execLanes f, t.thread? l.id = some (nextTh s l.th)) ∧
            t.thread? k = some { x.setRegs 0 ((List.range (s.gridOf x).regs).map fun j => BitVec.ofNat 32 (leAt img (64 + 4 * j) 4)) with
              p := BitVec.ofNat 7 (leAt img 8 1) }))) ∧
  ∀ (f : Fields) (s : State) (l : Lane) (off n : Nat) (tm : Team), LanesSound s → (s.execLanes f).head? = some l → off = (reg32 l.th f.a).toNat →
    n = (reg32 l.th f.b).toNat → off % 4096 = 0 → s.team? l.th.team = some tm →
    (256 < n → ∃ t, exec (.sppin f) s = .next t ∧ exec (.spunpin f) s = .next t ∧ SameButThreads s t ∧
      LanesBecome f s t fun l => writeOut f (val32 2) (nextTh s l.th)) ∧
    (n ≤ 256 → (0 < n → off + 4096 * n ≤ scratchSize s l.th.team) → ∀ ps, ps = (List.range n).map (fun k => off / 4096 + k) →
      ((0 < n → pinFits s (s.coreOf l.th) l.th.team ps = true) → missingPages s l.th.team ps = [] →
        ∃ t, exec (.sppin f) s = .next t ∧ t.mem = s.mem ∧ (LanesBecome f s t fun l => writeOut f (val32 0) (nextTh s l.th)) ∧
          (n = 1 → tm.core ≠ none → ∃ e, (t.team? l.th.team).bind (fun x => Tab.find x.pages (off / 4096)) = some e ∧ e.pinned = true)) ∧
      (pinFits s (s.coreOf l.th) l.th.team ps = true → ∀ p r, missingPages s l.th.team ps = p :: r →
        ∃ t, exec (.sppin f) s = .next t ∧ AllWait f s t (.refill p.2) ∧ ∀ l ∈ s.execLanes f, (t.thread l.id).pages = p :: r) ∧
      (0 < n → pinFits s (s.coreOf l.th) l.th.team ps = false → ∃ t, exec (.sppin f) s = .next t ∧ SameButThreads s t ∧
        LanesBecome f s t fun l => writeOut f (val32 1) (nextTh s l.th)) ∧
      ∃ t, exec (.spunpin f) s = .next t ∧ t.mem = s.mem ∧ (LanesBecome f s t fun l => writeOut f (val32 0) (nextTh s l.th)) ∧
        t.team? l.th.team = some { tm with pages := tm.pages.map fun e => if ps.contains e.1 then (e.1, { e.2 with pinned := false }) else e })

/-- The sequence unit (spec 17 R347 to R358), for one executing thread. Where a scaled logit is NaN the token is a free value
(log entry 8, the model's choice). -/
def Obligations.Sequences : Prop :=
  (∀ (f : Fields) (s : State) (l : Lane) (h : Word), LanesSound s → s.execLanes f = [l] → h = reg32 l.th f.a →
    (seqOf s (s.ctxOf l.th) h = none → escalates s l.th = false →
      ∀ i, i = .seqrd f ∨ i = .seqrej f ∨ i = .seqend f ∨ i = .seqcommit f ∨ i = .seqcommitConf f ∨ i = .seqdraft f →
        ∃ t y, exec i s = .next t ∧ t.mem = s.mem ∧ t.seqs = s.seqs ∧ t.thread? l.id = some y ∧ y.handler = true ∧
          y.trap.cause = 0xA2 ∧ y.trap.evalA = 1 ∧ y.trap.einfo = pairOf h 0 ∧ y.v = l.th.v) ∧
    ∀ k q, seqOf s (s.ctxOf l.th) h = some (k, q) →
      (∀ d, seqField (whoOf s l.th) k q (f.imm.extractLsb' 0 4).toNat (reg32 l.th f.b).toNat (advance s) = .ok d →
        ∃ t, exec (.seqrd f) s = .next t ∧ SameButThreads s t ∧ LanesBecome f s t fun l => writeOut f d (nextTh s l.th)) ∧
      (∃ t, exec (.seqrej f) s = .next t ∧ t.mem = s.mem ∧ (LanesBecome f s t fun l => nextTh s l.th) ∧
        t.seq k = { q with drafts := q.drafts.take (reg32 l.th f.b).toNat } ∧ ∀ j, j ≠ k → t.seq j = s.seq j) ∧
      ((∀ e ∈ s.seqs, e.2.used = true → e.2.parent = k → e.2.p0 = 0 ∨ e.1 = k) → q.p0 = 0 →
        ∃ t, exec (.seqend f) s = .next t ∧ t.mem = s.mem ∧ (LanesBecome f s t fun l => nextTh s l.th) ∧
          t.seq k = { gen := q.gen } ∧ ∀ j, j ≠ k → t.seq j = s.seq j) ∧
      ((∃ e ∈ s.seqs, e.2.used = true ∧ e.2.parent = k ∧ 0 < e.2.p0 ∧ e.1 ≠ k) →
        ∃ t, exec (.seqend f) s = .next t ∧ t.mem = s.mem ∧ (LanesBecome f s t fun l => nextTh s l.th) ∧
          t.seq k = { q with drafts := [], ending := true, live := false } ∧ ∀ j, j ≠ k → t.seq j = s.seq j) ∧
      (q.stopped = false → (reg32 l.th f.b).toNat ≤ 0xFFFF → pnLive s q true = [] → q.drafts.length < 16 →
        ∃ t, exec (.seqdraft f) s = .next t ∧ t.mem = s.mem ∧
          (LanesBecome f s t fun l => writeOut f (val32 (BitVec.ofNat 32 (q.drafts.length + 1))) (nextTh s l.th)) ∧
          t.seq k = { q with drafts := q.drafts ++ [BitVec.ofNat 16 (reg32 l.th f.b).toNat] } ∧ ∀ j, j ≠ k → t.seq j = s.seq j) ∧
      (q.stopped = false → (reg32 l.th f.b).toNat ≤ 0xFFFF → 16 ≤ q.drafts.length → escalates s l.th = false →
        ∃ t y, exec (.seqdraft f) s = .next t ∧ t.mem = s.mem ∧ t.seqs = s.seqs ∧ t.thread? l.id = some y ∧ y.handler = true ∧ y.trap.cause = 0xA3) ∧
      (∀ i b ds sum, q.stopped = false → pnLive s q false = [] → b < 2 ^ 16 →
        (i = .seqcommit f ∧ b = (reg32 l.th f.b).toNat ∧ ds = [] ∨
          i = .seqcommitConf f ∧ (reg32 l.th f.b).toNat = 1 ∧ ∃ d, q.drafts = d :: ds ∧ b = d.toNat) →
        sum = min (q.cost + (reg32 l.th f.c).toNat) (2 ^ 32 - 1) →
        (q.len + 1 - q.p0 ≤ q.cap → sum ≤ q.costmax → (∀ e ∈ s.home.dir, e.2.pending = false) →
          ∀ v, vaWrite (whoOf s l.th) { w := true } (q.log.toNat + 2 * (q.len - q.p0)) (natLe 2 b) (advance s) = .ok v →
            ∃ t, exec i s = .next t ∧ t.mem = v.mem ∧ DoneBare f s t (fun _ => val32 (BitVec.ofNat 32 (b + 2 ^ 16))) ∧
              t.seq k = { q with len := q.len + 1, cost := sum, drafts := ds } ∧ ∀ j, j ≠ k → t.seq j = s.seq j) ∧
        (q.cap < q.len + 1 - q.p0 ∨ q.costmax < sum → escalates s l.th = false →
          ∃ t y, exec i s = .next t ∧ t.mem = s.mem ∧ t.seqs = s.seqs ∧ t.thread? l.id = some y ∧ y.handler = true ∧
            y.trap.cause = 0xA1 ∧ y.trap.evalA = 0xFFFFFFFF ∧ y.trap.evalB = BitVec.ofNat 32 b))) ∧
  (∀ (w : Who) (k : Nat) (q : Seq) (b : Nat) (s : State), seqField w k q 0 b s = .ok (val32 (BitVec.ofNat 32 q.len)) ∧
    seqField w k q 1 b s = .ok (val32 (BitVec.ofNat 32 q.drafts.length)) ∧ seqField w k q 2 b s = .ok (val32 (BitVec.ofNat 32 q.cost)) ∧
    seqField w k q 4 b s = .ok (val32 q.notify) ∧ seqField w k q 5 b s = .ok (val32 q.lastfork) ∧
    seqField w k q 10 b s = .ok (val64 q.log) ∧ seqField w k q 12 b s = .ok (val32 q.stream) ∧
    (q.len ≤ b → seqField w k q 8 b s = .ok (val32 0xFFFFFFFF))) ∧
  (∀ (f : Fields) (s : State) (l : Lane) (q : Seq), LanesSound s → s.execLanes f = [l] →
    (∀ x, checkGlobal s (whoOf s l.th) { r := true } 8 (reg64 l.th f.a) = .ok x →
      rangePoisoned s (whoOf s l.th) { r := true } (reg64 l.th f.a).toNat 32 = none →
      (∀ u, u = s ∨ u = advance s → descOf u (reg64 l.th f.a) l = .ok (some q)) →
      (∀ k g, freeSeq s = some (k, g) → ∃ t, exec (.seqnew f) s = .next t ∧ t.mem = s.mem ∧ t.seq k = { q with gen := g } ∧
        (∀ j, j ≠ k → t.seq j = s.seq j) ∧
        LanesBecome f s t fun l => writeOut f (val32 (BitVec.ofNat 32 (k + 2 ^ 14 * g.toNat))) (nextTh s l.th)) ∧
      (freeSeq s = none → ∃ t, exec (.seqnew f) s = .next t ∧ SameButThreads s t ∧
        LanesBecome f s t fun l => writeOut f (val32 0) (nextTh s l.th))) ∧
    ∀ x k g m p, checkGlobal s (whoOf s l.th) { r := true } 8 (reg64 l.th f.c) = .ok x →
      rangePoisoned s (whoOf s l.th) { r := true } (reg64 l.th f.c).toNat 32 = none →
      (∀ u, u = s ∨ u = advance s → descOf u (reg64 l.th f.c) l = .ok (some q)) →
      seqOf s (s.ctxOf l.th) (reg32 l.th f.a) = some (m, p) → (reg32 l.th f.b).toNat ≤ p.len → freeSeq s = some (k, g) →
      ∃ t, exec (.seqfork f) s = .next t ∧ t.mem = s.mem ∧
        t.seq k = { q with gen := g, forked := true, p0 := (reg32 l.th f.b).toNat, parent := m, len := (reg32 l.th f.b).toNat } ∧
        t.seq m = { p with lastfork := BitVec.ofNat 32 (k + 2 ^ 14 * g.toNat) } ∧
        (∀ j, j ≠ k → j ≠ m → t.seq j = s.seq j) ∧
        LanesBecome f s t fun l => writeOut f (val32 (BitVec.ofNat 32 (k + 2 ^ 14 * g.toNat))) (nextTh s l.th)) ∧
  (∀ (f : Fields) (s : State) (l : Lane) (n : Nat), LanesSound s → (s.execLanes f).head? = some l → n = (f.imm.extractLsb' 0 8).toNat →
    (∃ t, exec (.pnclr f) s = .next t ∧ t.mem = s.mem ∧ (LanesBecome f s t fun l => nextTh s l.th) ∧
      t.ctx (s.ctxOf l.th) = { s.ctx (s.ctxOf l.th) with pennants := Tab.del (s.ctx (s.ctxOf l.th)).pennants n }) ∧
    ∀ x p, checkGlobal s (whoOf s l.th) { r := true } 64 (reg64 l.th f.a) = .ok x → isRemote x.pa = false → poisoned s x.pa = false → PlainLoc s (.glob 0 x.pa) → QuietL1 s (s.coreOf l.th) →
      p = BitVec.ofNat 512 (leNat (homeBytes s x.pa 64)) →
      (pnOk p = true → ∃ t, exec (.pnset f) s = .next t ∧ t.mem = s.mem ∧ (LanesBecome f s t fun l => nextTh s l.th) ∧
        t.ctx (s.ctxOf l.th) = { s.ctx (s.ctxOf l.th) with pennants := Tab.put (s.ctx (s.ctxOf l.th)).pennants n p }) ∧
      (pnOk p = false → exec (.pnset f) s = .next (takeSeq f false ((s.execLanes f).map fun l => (l, seqFault 3 0)) s))) ∧
  ∀ (f : Fields) (s : State) (l : Lane) (a : SampleArg) (v : Nat), LanesSound s → s.execLanes f = [l] →
    (sampleArg f false s l = .ok (a, v) → checkScratch s l.th.team 4 (sampleOff f l) = none →
      checkScratch s l.th.team 1 (sampleOff f l + 4 * v - 1) = none →
      (∀ p ∈ pagesOf (sampleOff f l) (4 * v), pageReached s l.th.team p = true ∨
        32 < (pagesOf (sampleOff f l) (4 * v)).length ∧ inTransit s l.th.team (4096 * p) 1 = false) →
      (∀ k, k < (4 * v + 508) / 256 → backPoisoned s l.th.team (sampleOff f l + 256 * k) = false) →
      ∀ u xs, u = touchPages l.th.team (sampleOff f l) (4 * v) s →
        xs = (List.range v).map (fun i => leNat (((scratchBytes s l.th.team (sampleOff f l) (4 * v)).drop (4 * i)).take 4)) →
        (∀ d, drawToken a xs = some d → ∃ t, exec (.sample f) s = .next t ∧ SameButThreads u t ∧
          LanesBecome f s t fun l => writeOut f (val32 (BitVec.ofNat 32 d)) (nextTh s l.th)) ∧
        (drawToken a xs = none → ∃ t d, exec (.sample f) s = .next t ∧ SameButThreads { u with free := s.free + 1 } t ∧
          LanesBecome f s t fun l => writeOut f (val32 d) (nextTh s l.th))) ∧
    (sampleArg f true s l = .ok (a, v) → GroupReady f s l → ∀ xs, xs = (blocksOf (f.imm.extractLsb' 6 8).toNat).flatMap (fun m =>
        (List.range 64).map fun n => accOut 0 ((s.mxe (s.coreOf l.th)).entry (f.imm.extractLsb' 0 6).toNat (64 * m + n))) →
      ∀ d, drawToken a xs = some d → ∃ t, exec (.sampleAcc f) s = .next t ∧ SameButThreads s t ∧
        LanesBecome f s t fun l => writeOut f (val32 (BitVec.ofNat 32 d)) (nextTh s l.th))

/-- The work-distribution events (spec 02 R18 to R23, 15 R301 to R318, 22 R413 to R416). -/
def Obligations.Scheduling : Prop :=
  (∀ (s : State) (n : Nat) (tail : Word),
    ((s.queue n).en = false ∨ 2 ^ (s.queue n).log2n < (tail - (s.queue n).head).toNat →
      ∃ t, exec (.lqTailWrite n tail) s = .next t ∧ t.queues = s.queues ∧ t.logged = s.logged + 1 ∧ t.work = s.work ∧ t.mem = s.mem) ∧
    ((s.queue n).en = true → tail = (s.queue n).head → ∃ t, exec (.lqTailWrite n tail) s = .next t ∧
      t.queue n = { s.queue n with tail := tail } ∧ (∀ k, k ≠ n → t.queue k = s.queue k) ∧ t.work = s.work ∧ t.mem = s.mem) ∧
    ((s.queue n).waits = false → exec (.launchAcceptResume n) s = .next s) ∧
    ∀ i u bs v a r, (i = .lqTailWrite n tail ∧ u = s.modQueue n (fun q => { q with tail := tail }) ∨
        i = .launchAcceptResume n ∧ u = s ∧ (s.queue n).waits = true ∧ tail = (s.queue n).tail) →
      (s.queue n).en = true → tail = (s.queue n).head + 1 →
      devGet (s.queue n).ctx ((s.queue n).base.toNat + 8 * ((s.queue n).head.toNat % 2 ^ (s.queue n).log2n)) 8 u = (.ok bs, v) →
      leNat bs < 2 ^ 57 → (a, r) = acceptRecord (s.queue n).ctx (some n) none (canonVa (leNat bs)) v →
      (a = .queued ∨ a = .rejected → exec i s = .next (r.modQueue n fun q => { q with head := q.head + 1, waits := false })) ∧
      (a = .noRoom → exec i s = .next (r.modQueue n fun q => { q with waits := true }))) ∧
  (∀ (s : State) (k e : Nat) (g : Grid), s.grid? k = some g →
    (g.teams ≤ g.emitted → g.pendChild = [] → ∃ t, exec (.taskEmissionResume k) s = .next t ∧ SameButThreads s t ∧
      ∀ j y, s.thread? j = some y → y.park = some .tasks → t.thread? j = some y.unparkHere) ∧
    (g.emitted < g.teams → g.teams ≤ g.emitted + g.gangTeams → g.pendChild = [] → nextEligible s g = some e → tasksOn s e < Config.taskListMax →
      ∃ t, exec (.taskEmissionResume k) s = .next t ∧ t.grid? k = some { g with emitted := g.emitted + g.gangTeams, nextCore := e + 1 } ∧
        Tab.find t.work.tasks s.work.nextTask = some
          { kind := .teams g.emitted g.gangTeams, grid := k, core := e, stamp := g.stamp, queue := g.queue, cls := g.cls, lineage := g.lineage,
            pinned := g.gangTeams > 1 || g.redundant || g.stay, queued := s.clock })) ∧
  (∀ (s u : State) (c : Nat), u = returnStrays c s →
    (s.guidon.frozen = true → exec (.dispatchDecision c) s = .next s) ∧
    (s.guidon.frozen = false →
      (pickTask c (allowed c s) u = none → exec (.dispatchDecision c) s = .next u) ∧
      (∀ k v, pickTask c (allowed c s) u = some k → placeTask k c u = some v →
        ((s.core c).shift = none → exec (.dispatchDecision c) s = .next v) ∧
        (v.work.tasks.length < s.work.tasks.length → (s.core c).shift ≠ none →
          exec (.dispatchDecision c) s = .next (v.modCore c fun x => { x with shift := none }))) ∧
      (∀ k x g i r q slots, pickTask c (allowed c s) u = some k → Tab.find u.work.tasks k = some x → x.kind = .teams i 1 → x.moving s.clock = false →
        g = u.grid x.grid → g.redundant = false → g.hoists = 1 → g.playing = false → g.recording = false →
        findRecord { u with work := { u.work with tasks := Tab.del u.work.tasks k } } c x.grid (hoistNeeds g) = some (r, [(q, slots)]) →
        ∃ t tm, exec (.dispatchDecision c) s = .next t ∧ Tab.find t.work.tasks k = none ∧ t.team? u.work.nextTeam = some tm ∧
          tm.grid = x.grid ∧ tm.index = i ∧ tm.gang = i / g.gangTeams ∧ tm.core = some c ∧ tm.bindRec = r ∧ tm.role = .single ∧ tm.scratch = [] ∧
          tm.hoists = [{ index := 0, quad := q, slots := slots, launched := g.hoistThreads }] ∧
          ∀ h, h < g.hoistThreads → t.thread? (u.work.nextThread + h) = some
            { pc := g.entry, lineage := g.lineage, entryCheck := true, lastIssue := s.clock, team := u.work.nextTeam, hoist := 0, hidx := h,
              slot := slots.getD (h / 32) 0 })) ∧
    (s.guidon.frozen = true ∨ teamsOn s c = [] →
      ∃ t, exec (.contextSwitch c) s = .next t ∧ t = { s with cores := t.cores } ∧ ∀ k, t.core k = s.core k) ∧
    ∀ k tm, s.guidon.frozen = false → teamsOn s c = [(k, tm)] → (s.team k).core ≠ none →
      exec (.contextSwitch c) s = .next ((stopGang k s).modCore c fun x => { x with shift := some [(s.grid tm.grid).ctx] })) ∧
  (∀ (s : State) (c k : Nat) (x : Task), Tab.find s.work.tasks k = some x →
    (∃ t, exec (.taskTransitArrival k) s = .next t ∧ Tab.find t.work.tasks k = some { x with transit := none } ∧
      (∀ j, j ≠ k → Tab.find t.work.tasks j = Tab.find s.work.tasks j) ∧ t = { s with work := { s.work with tasks := t.work.tasks } }) ∧
    (s.guidon.frozen = true ∨ mayRestore c k s = false ∨ x.kind.isRestore = false ∨ x.core = c → exec (.teamRestore c k) s = .next s) ∧
    ∀ v tm tms, s.guidon.frozen = false → mayRestore c k s = true → x.kind = .restore [tm] → placeTask k c (carried c k s) = some v → s.team? tm = some tms → tms.role = .single →
      exec (.teamRestore c k) s = .next v ∧ Tab.find v.work.tasks k = none ∧ (v.team? tm).map Team.core = some (some c)) ∧
  (∀ (s : State), (s.work.tasks.map (·.1)).Nodup → ∃ t, exec .neighbourAveraging s = .next t ∧
    t = { s with work := { s.work with tasks := t.work.tasks } } ∧ (∀ k, Tab.find s.work.tasks k = none → Tab.find t.work.tasks k = none) ∧
    ∀ k y, Tab.find s.work.tasks k = some y → ∃ x, Tab.find t.work.tasks k = some x ∧
      (x = y ∨ movable s.clock y = true ∧ x = { y with core := x.core, transit := some (s.clock / 256 * 256 + 256) })) ∧
  (∀ (s : State) (c temp : Nat),
    (s.guidon.frozen = true ∨ temp < s.power.mig.toNat → exec (.thermalMigrationScan [(c, temp)]) s = .next s) ∧
    ∀ e, s.guidon.frozen = false → s.power.mig.toNat ≤ temp → (s.core c).lastMig = none →
      leastBy (fun t => t.2.placed) ((teamsOn s c).filter fun t => !t.2.preempt && decide (t.2.placed + 2000000 ≤ s.dtime)) = some e →
      exec (.thermalMigrationScan [(c, temp)]) s =
        .next (stopGang e.1 ((gangMates s e.1).foldl (fun s k => s.modTeam k fun x => { x with avoid := some (c, s.dtime + 2000000) })
          (s.modCore c fun x => { x with lastMig := some s.dtime })))) ∧
  (∀ (s u : State) (k c : Nat) (tm : Team),
    (s.guidon.frozen = true → exec (.preemption k) s = .next s) ∧
    (s.guidon.frozen = false → s.team? k = some tm → tm.core = some c → gangMates s k = [k] → tm.role = .single → swapWanted s k = true →
      teamQuiet s k = true → ∃ t x, exec (.preemption k) s = .next t ∧ t.team? k = some x ∧ x.core = none ∧ x.swap = true ∧
        t.work.tasks = s.work.tasks) ∧
    (s.guidon.frozen = false → s.team? k = some tm → tm.core = some c → gangMates s k = [k] → swapWanted s k = false →
      u = s.modTeam k (fun x => { x with preempt := true }) →
      (teamQuiet u k = false → exec (.preemption k) s = .next u) ∧
      (teamQuiet u k = true → tm.role = .single → tm.swap = false → gangMates u k = [k] →
        s.work.threads.all (fun e => e.2.batch.isNone) = true → (s.work.threads.map (·.1)).Nodup →
        ∃ t x, exec (.preemption k) s = .next t ∧ t.team? k = some x ∧ x.core = none ∧ x.preempt = false ∧ x.scratch = tm.scratch ∧
          (∀ j y, s.thread? j = some y → y.handlerOf = none → y.team = k → ∃ z, t.thread? j = some z ∧
            (y.park = none → z = savedThread (s.grid tm.grid) y) ∧
            (y.park ≠ none → z = savedThread (s.grid tm.grid) { y with park := none, awaits := none, reply := none, pages := [] })) ∧
          (Tab.find t.work.tasks s.work.nextTask).map Task.kind = some (.restore [k]) ∧
          ((s.core c).owner = some k → (t.core c).owner = none ∧ x.saved = some (s.core c).group)))) ∧
  ∀ (s : State) (c : Nat),
    (∀ n, (s.core c).l1Pend = some n → teamsOn s c = [] → ∃ t, exec (.l1SplitChange c) s = .next t ∧ (t.core c).l1Size = n ∧ (t.core c).l1Pend = none) ∧
    ((s.core c).l1Pend = none ∨ teamsOn s c ≠ [] → exec (.l1SplitChange c) s = .next s) ∧
    (∃ t, exec (.vacateHoldExpiry c) s = .next t ∧ ∀ i, i < 8 → (t.core (8 * c + i)).holdUntil =
      match (s.core (8 * c + i)).holdUntil with | some e => if e ≤ s.dtime then none else some e | none => none) ∧
    ∀ w : Word, ((s.cluster c).vacBusy = true → ∃ t, exec (.hlyVacWrite c w) s = .next t ∧
        t.cluster c = { s.cluster c with vacHold := w.extractLsb' 16 8 } ∧ t.cores = s.cores ∧ t.work = s.work) ∧
      ((s.cluster c).vacBusy = false → (∀ i, i < 8 → w.getLsbD i = true → teamsOn s (8 * c + i) = []) →
        ∃ t, exec (.hlyVacWrite c w) s = .next t ∧ t.work = s.work ∧
          t.cluster c = { s.cluster c with
            vacHold := w.extractLsb' 16 8, vacCores := w.extractLsb' 0 8, vacDone := w.extractLsb' 0 8, vacBusy := false } ∧
          ∀ i, i < 8 → w.getLsbD i = true →
            (t.core (8 * c + i)).holdUntil =
              if w.extractLsb' 16 8 = 0 then none else some (s.dtime + (w.extractLsb' 16 8).toNat * 16000))

/-- Waves (spec 02 R26, 15 R309), retirement (02 R22) and the drain of a grid (16 R333, R334), refill (09 R172). -/
def Obligations.WavesAndTeams : Prop :=
  (∀ (s : State) (c q : Nat),
    (s.guidon.frozen = true → exec (.waveFormation c q) s = .next s ∧ exec (.issue c q) s = .next s) ∧
    (s.guidon.frozen = false →
      (formHandler s c q = none → formable s c q = none → exec (.waveFormation c q) s = .next s) ∧
      (∀ team hoist slot pc ts, formHandler s c q = some (team, pc, ts) ∧ hoist = 0 ∧ slot = Config.handlerSlot ∨
          formHandler s c q = none ∧ (∃ h, formable s c q = some (team, h, slot, pc, ts) ∧ hoist = h.index) →
        ∃ t w, exec (.waveFormation c q) s = .next t ∧ t.mem = s.mem ∧ t.cores = s.cores ∧ t.work.nextWave = s.work.nextWave + 1 ∧
          t.wave? s.work.nextWave = some w ∧ w.core = c ∧ w.quad = q ∧ w.slot = slot ∧ w.team = team ∧ w.hoist = hoist ∧ w.pc = pc ∧
          w.lastIssue = s.clock ∧ w.forming = none ∧
          (∀ e ∈ ts, ∃ k, k < 32 ∧ w.lanes.getD k none = some e.1 ∧ w.exm.getLsbD k = true) ∧
          (∀ k, k < 32 → w.exm.getLsbD k = (w.lanes.getD k none).isSome) ∧
          ∀ j y, s.thread? j = some y → ∃ a b, t.thread? j = some { y with lane := a, slot := b }) ∧
      (pickWave s c q = none → exec (.issue c q) s = .next { settle s with cur := .none }) ∧
      ∀ k i f u, pickWave s c q = some k → IssuesAlone (rejoin k s) k i u → fieldsOf i = some f →
        (u.arraysHere = .clean → exec (.issue c q) s = .next { settle (issueInstr k i none u) with cur := .none }) ∧
        exec (.issue c q) s = .next { settle (match softTrap u.here i u with
          | some t => t
          | none => issueInstr k i none (softFixed u)) with cur := .none })) ∧
  (∀ (u : State) (i : Instr) (f : Fields) (ix : Byte) (lanes : Word) (l : Lane) (ls : List Lane), fieldsOf i = some f → u.arraysHere = .lost 1 ix lanes →
    (usesOf i f).srcs.contains ix.toNat = true → byHidx ((u.execLanes f).filter fun x => lanes.getLsbD x.lane) = l :: ls →
    softTrap u.here i u =
      some (takePriv (arraysRead u) ((l :: ls).map Lane.id) u.here { cause := 0xC9, einfo := ix.setWidth 64 <<< 8 ||| 1 })) ∧
  (∀ (s : State) (k e : Nat) (w : Wave), s.wave? k = some w → w.forming = some e →
    (e ≤ s.clock → ∃ t, exec (.formingWaveTimeout k) s = .next t ∧ t.wave? k = some { w with forming := none } ∧
      (∀ j, j ≠ k → t.wave? j = s.wave? j) ∧ t = { s with work := { s.work with waves := t.work.waves } }) ∧
    (s.clock < e → exec (.formingWaveTimeout k) s = .next s)) ∧
  (∀ (s : State) (k c : Nat) (tm : Team), s.team? k = some tm →
    (s.guidon.frozen = true ∨ canRetire s k = false → exec (.teamRetire k) s = .next s) ∧
    (s.guidon.frozen = false → canRetire s k = true → tm.core = some c →
      ∃ t, exec (.teamRetire k) s = .next t ∧ t.team? k = none ∧ (∀ x, ∀ e ∈ (t.ctx x).binds, x = (s.grid tm.grid).ctx → e.team ≠ some k ∧ e.objTeam ≠ some k) ∧
        ((s.core c).owner = some k → (t.core c).owner = none ∧ (t.core c).group = {}) ∧
        (∀ e ∈ t.home.monitors, e.2.scr ≠ some k))) ∧
  (∀ (s : State) (k : Nat) (g : Grid), s.grid? k = some g →
    (drained s k = false → exec (.gridDrain k) s = .next s) ∧
    (drained s k = true → ∃ t, exec (.gridDrain k) s = .next t ∧ t.grid? k = none ∧
      (g.result = 0 → g.future = 0 → ∀ st, st = (if g.fail.isSome then 6 else if g.deadlineFired then 5 else if g.cancel.isSome then 4 else 3) →
        t.mem = (writeStatus g.ctx g.rcd st (g.fail.getD 0) (releaseAll s)).mem))) ∧
  ∀ (s : State) (k page : Nat) (tm : Team), s.team? k = some tm →
    (tm.core = none → exec (.scratchpadRefill k page) s = .next s) ∧
    (∀ c, tm.core = some c →
      (Tab.find tm.pages page = none → ∃ t, exec (.scratchpadRefill k page) s = .next t ∧ PagesOnly s t ∧
        pageSt t k page = some .arriving) ∧
      (∀ p, Tab.find tm.pages page = some p → p.st = .leaving → ∃ t, exec (.scratchpadRefill k page) s = .next t ∧ PagesOnly s t ∧
        pageSt t k page = none) ∧
      ∀ p held, Tab.find tm.pages page = some p → p.st = .arriving →
        held = ((residents s c).filter fun e => e.2.2.st == .resident || e.2.2.st == .leaving).length →
        (held < frameCount s c → refillPoison s k page = none →
          ∃ t, exec (.scratchpadRefill k page) s = .next t ∧ t.mem = s.mem ∧ t.cores = s.cores ∧ resident t k page = true ∧
            (∀ j, (t.team? j).map Team.bare = (s.team? j).map Team.bare) ∧
            (s.work.threads.map (·.1)).Nodup →
            ∀ j y n, s.thread? j = some y → y.park = some (.refill n) → t.thread? j =
              some (if y.pages.all fun q => pageReached t q.1 q.2 then y.unparkHere else y)) ∧
        (∀ off, held < frameCount s c → refillPoison s k page = some off →
          ∃ t, exec (.scratchpadRefill k page) s = .next t ∧ t.logged = s.logged + 1 ∧
            ∀ j y n, s.thread? j = some y → y.park = some (.refill n) → (k, page) ∈ y.pages →
              ∃ z, t.thread? j = some z ∧ z.stopped = true ∧ z.park = none) ∧
        (∀ v w, frameCount s c ≤ held → ((residents s c).filter fun e => e.2.2.st == .leaving).length <
              ((residents s c).filter fun e => e.2.2.st == .arriving).length → victimPage s c = some (v, w) → (s.team v).core = some c →
          ∃ t, exec (.scratchpadRefill k page) s = .next t ∧ PagesOnly s t ∧ pageSt t v w = some .leaving))

/-- The directory's transactions in their stages, one clause per event and case; a line the core has no room for is CacheOperations' and RED's concern. -/
def Obligations.Directory : Prop :=
  (∀ (s : State) (line c k : Nat), k = lineOf line → c < Config.numCores → RoomFor s c k →
    ((dirOf s k).pending = true → ∀ tag : BitVec 4, tag.toNat ≤ 11 →
      exec (.dirReadRequest line c) s = .next (setDir k { dirOf s k with waits := (dirOf s k).waits ++ [(c, .read)] } s) ∧
      exec (.dirOwnershipRequest line c) s = .next (setDir k { dirOf s k with waits := (dirOf s k).waits ++ [(c, .own)] } s) ∧
      exec (.dirBuntingRequest line c tag) s = .next (setDir k { dirOf s k with waits := (dirOf s k).waits ++ [(c, .bunting tag)] } s)) ∧
    (Idle s k .i → (∃ t, exec (.dirReadRequest line c) s = .next t ∧ t.mem = s.mem ∧ l1St t c k = some .e ∧
        dirOf t k = { dirOf s k with st := .x, owner := c, sharers := coreBit c }) ∧
      (∃ t, exec (.dirOwnershipRequest line c) s = .next t ∧ t.mem = s.mem ∧ l1St t c k = some .m ∧
        dirOf t k = { dirOf s k with st := .x, owner := c, sharers := coreBit c, tag := 15 }) ∧
      ∀ tag : BitVec 4, tag.toNat ≤ 11 → ∃ t, exec (.dirBuntingRequest line c tag) s = .next t ∧ t.mem = s.mem ∧ l1St t c k = some .b ∧
        dirOf t k = { dirOf s k with st := .b, sharers := coreBit c, tag := tag }) ∧
    (Idle s k .x → (dirOf s k).owner ≠ c → ∀ l, l1Line s (dirOf s k).owner k = some l → l.st = .m →
      ∃ t, exec (.dirReadRequest line c) s = .next t ∧ t.mem = s.mem ∧ l1St t c k = some .s ∧
        l1Line t (dirOf s k).owner k = some { l with st := .o } ∧
        dirOf t k = { dirOf s k with st := .o, sharers := coreBit (dirOf s k).owner ||| coreBit c }) ∧
    (Idle s k .s → ∀ m, m = (dirOf s k).sharers &&& ~~~coreBit c → m ≠ 0 →
      ∃ t, exec (.dirOwnershipRequest line c) s = .next t ∧ t.mem = s.mem ∧ t.cores = s.cores ∧ t.work = s.work ∧
        dirOf t k = { dirOf s k with pending := true, grant := some (c, .own), invs := m, acks := m } ∧
        ∀ d, m.getLsbD d = true → (⟨homeSlice k, d, k, .inval⟩ : Msg) ∈ (chanOf t (64 + d / 8)).msgs) ∧
    (Idle s k .b → (dirOf s k).tag.toNat ≤ 11 → ∃ t, exec (.dirBuntingRequest line c (dirOf s k).tag) s = .next t ∧ t.mem = s.mem ∧
      l1St t c k = some .b ∧ dirOf t k = { dirOf s k with sharers := (dirOf s k).sharers ||| coreBit c })) ∧
  (∀ (s : State) (line c k : Nat), k = lineOf line → (dirOf s k).pending = true → (dirOf s k).st ≠ .b →
    ((dirOf s k).invs.getLsbD c = true → ∃ t, exec (.invalidation c line) s = .next t ∧ t.mem = s.mem ∧ l1Line t c k = none ∧
      dirOf t k = { dirOf s k with invs := (dirOf s k).invs &&& ~~~coreBit c } ∧ ∀ d, d ≠ c → t.core d = s.core d) ∧
    ((dirOf s k).acks.getLsbD c = true → (dirOf s k).invs = 0 →
      ((dirOf s k).acks &&& ~~~coreBit c ≠ 0 → exec (.invalidationAck c line) s =
        .next (setDir k { dirOf s k with acks := (dirOf s k).acks &&& ~~~coreBit c } s)) ∧
      ∀ g, (dirOf s k).acks &&& ~~~coreBit c = 0 → (dirOf s k).grant = some (g, .own) → (dirOf s k).waits = [] → RoomFor s g k →
        ∃ t, exec (.invalidationAck c line) s = .next t ∧ t.mem = s.mem ∧ l1St t g k = some .m ∧ (dirOf t k).pending = false ∧
          (dirOf t k).st = .x ∧ (dirOf t k).owner = g ∧ (dirOf t k).sharers = coreBit g)) ∧
  (∀ (s : State) (line k : Nat), k = lineOf line → (dirOf s k).st = .b →
    (∀ c l, (dirOf s k).pending = false → (coresOf (dirOf s k).sharers).head? = some c → l1Line s c k = some l → l.st = .b →
      ∃ t, exec (.mergeRequest line) s = .next t ∧ t.mem = s.mem ∧ l1Line t c k = none ∧ (dirOf t k).pending = true ∧
        (dirOf t k).answers = (dirOf s k).answers ++ [(c, l.bytes, l.mask)] ∧ (dirOf t k).sharers = (dirOf s k).sharers &&& ~~~coreBit c) ∧
    ((dirOf s k).pending = true → (dirOf s k).invs = 0 → (dirOf s k).acks = 0 → (dirOf s k).sharers = 0 → (dirOf s k).grant = none →
      (dirOf s k).waits = [] → poisoned s k = false → ∀ w op ps, op = (dirOf s k).tag.toNat → w = opBytes op →
      ps = (sortBy (fun p : Nat × BitVec 2048 × BitVec 256 => p.1) (dirOf s k).answers).map (fun p => p.2) →
      ∃ t, exec (.merge line) s = .next t ∧ (dirOf t k).st = .i ∧ (dirOf t k).pending = false ∧ (dirOf t k).answers = [] ∧
        (∀ j, j < 256 / w → homeNat t (k + w * j) w =
          match mergeTree (applyOp op) 128 ((ps.filter fun p => p.2.getLsbD j).map fun p => elemVal p.1 w j) with
          | [] => homeNat s (k + w * j) w
          | x :: _ => applyOp op x (homeNat s (k + w * j) w) % 2 ^ (8 * w)) ∧
        ∀ a, a < k ∨ k + 256 ≤ a → homeBytes t a 1 = homeBytes s a 1)) ∧
  (∀ (s : State) (line k : Nat), k = lineOf line → (dirOf s k).pending = false → (dirOf s k).st ≠ .b → (∀ e ∈ s.home.l2Wait, e.1 ≠ k) →
    ∃ t, exec (.dirRecall line) s = .next t ∧ t.mem = s.mem ∧ (dirOf t k).st = .i ∧ (dirOf t k).sharers = 0 ∧ Tab.find t.home.l2 k = none ∧
      ∀ c, c < 128 → (dirOf s k).sharers.getLsbD c = true ∨ (((dirOf s k).st = .x ∨ (dirOf s k).st = .o) ∧ (dirOf s k).owner = c) →
        l1Line t c k = none) ∧
  ∀ (s : State) (line c k : Nat), k = lineOf line →
    (∀ l, l1Line s c k = some l →
      (l.st = .m → 32 ≤ (s.core c).wbs.length → exec (.l1Eviction c line) s = .next s) ∧
      (l.st = .m → (s.core c).wbs.length < 32 → ∃ t, exec (.l1Eviction c line) s = .next t ∧ t.mem = s.mem ∧ l1Line t c k = none ∧
        (t.core c).wbs = Tab.put (s.core c).wbs k l) ∧
      (l.st = .swm → ∃ t, exec (.l1Eviction c line) s = .next t ∧ l1Line t c k = none ∧
        (∀ j, j < 256 → homeBytes t (k + j) 1 = if l.mask.getLsbD j then [l.bytes.extractLsb' (8 * j) 8] else homeBytes s (k + j) 1) ∧
        ∀ a, a < k ∨ k + 256 ≤ a → homeBytes t a 1 = homeBytes s a 1)) ∧
    (Tab.has (s.core c).wbs k = true → l1Line s c k = none → (dirOf s k).st = .x → (dirOf s k).owner = c →
      (∀ e ∈ s.home.dir, ∀ g, e.2.grant = some g → g.1 ≠ c) →
      ∃ t, exec (.writebackAck c line) s = .next t ∧ t.mem = s.mem ∧ (t.core c).wbs = Tab.del (s.core c).wbs k ∧
        dirOf t k = { dirOf s k with st := .i, sharers := 0 })

/-- Miss-status entries, walks, far operations and burgees, one clause per event and case. -/
def Obligations.MissesAndWalks : Prop :=
  (∀ (s : State) (c : Nat) (e : Nat × Thread), missWaiters s c = [e] → s.thread? e.1 = some e.2 →
    ((s.core c).miss.length + (newMisses s c e.2.asks).length > 256 → exec (.missEntryGrant c) s = .next s) ∧
    ((s.core c).miss.length + (newMisses s c e.2.asks).length ≤ 256 → ∃ t, exec (.missEntryGrant c) s = .next t ∧ t.mem = s.mem ∧
      (∀ a ∈ newMisses s c e.2.asks, Tab.has (t.core c).miss a.1 = true) ∧ t.thread? e.1 = some { e.2 with park := some (.miss 0) } ∧
      ∀ j, j ≠ e.1 → t.thread? j = s.thread? j)) ∧
  (∀ (s : State) (c sec k : Nat) (m : Miss), k = lineOf sec → Tab.find (s.core c).miss sec = some m → m.swm = false → m.l2Only = false →
    m.hint ≠ 3 → Idle s k .i → RoomFor s c k → underWay s c k [.read, .data] = false →
    (∃ t, exec (.missDataFill c sec .clean) s = .next t ∧ t.mem = s.mem ∧ Tab.find (t.core c).miss sec = none ∧
      dirOf t k = { dirOf s k with st := .x, owner := c, sharers := coreBit c } ∧ t.home.poison = s.home.poison ∧
      ∃ e, l1Line t c k = some e ∧ e.st = .e ∧ e.valid.getLsbD (sec / 64 % 4) = true) ∧
    ∃ t, exec (.missDataFill c sec .uncorrectable) s = .next t ∧ t.mem = s.mem ∧ Tab.find (t.core c).miss sec = none ∧
      poisoned t k = true ∧ t.log.head? = some ⟨0x50, 0xFF, unitOf 1 (homeSlice k), s.dtime, BitVec.ofNat 64 sec, 0⟩) ∧
  (∀ (s : State) (i : Nat) (w : Walk), s.walks[i]? = some w →
    (walkFrom s w.ctx (s.ctx w.ctx).world w.va 4 (s.ctx w.ctx).root = none → ∃ t, exec (.tlbWalk i) s = .next t ∧
      t = { s with walks := t.walks } ∧ ∀ y ∈ t.walks, y ∈ s.walks ∧ (y.core = w.core → y.ctx = w.ctx → y.va / 4096 ≠ w.va / 4096)) ∧
    ∀ pte pages, walkFrom s w.ctx (s.ctx w.ctx).world w.va 4 (s.ctx w.ctx).root = some (pte, pages) →
      ∃ t, exec (.tlbWalk i) s = .next t ∧ t.mem = s.mem ∧ t.work = s.work ∧
        (∀ y ∈ t.walks, y ∈ s.walks ∧ (y.core = w.core → y.ctx = w.ctx → y.va / 4096 ≠ w.va / 4096)) ∧
        ∀ x : TlbEntry, x = { ctx := w.ctx, gen := (s.ctx w.ctx).gen, vpn := w.va / 4096 / pages * pages, pages := pages, pte := pte } →
          (t.core w.core).tlb.head? = some x ∧ (t.cluster (w.core / 8)).tlb.head? = some x ∧
          (t.core w.core).tlb.length ≤ 64 ∧ (t.cluster (w.core / 8)).tlb.length ≤ 4096) ∧
  (∀ (s : State) (o : FarOp) (n pa : Nat), n = opBytes o.op.toNat → pa = o.pa / n * n → Tab.has s.home.dir (lineOf pa) = false →
    poisoned s pa = false →
    (o.kind = .atom ∨ o.kind = .red → ∃ t, exec (.farOperation o) s = .next t ∧ t.bus = BitVec.ofNat 512 (homeNat s pa n) ∧
      t.mem = Mem.put 0 s.mem pa (natLe n (applyOp o.op.toNat (homeNat s pa n) (o.b.toNat % 2 ^ (8 * n))))) ∧
    (o.kind = .cas → ∃ t, exec (.farOperation o) s = .next t ∧ t.bus = BitVec.ofNat 512 (homeNat s pa n) ∧
      t.mem = if homeNat s pa n = o.b.toNat % 2 ^ (8 * n) then Mem.put 0 s.mem pa (natLe n (o.c.toNat % 2 ^ (8 * n))) else s.mem) ∧
    (o.kind = .ldl → ∃ t, exec (.farOperation o) s = .next t ∧ t.bus = BitVec.ofNat 512 (homeNat s pa n) ∧ t.mem = s.mem) ∧
    (o.kind = .stc → ∃ t, exec (.farOperation o) s = .next t ∧ (∀ k ∈ holders s o.core (lineOf pa), (t.thread k).resv = none) ∧
      (holders s o.core (lineOf pa) = [] → t.bus = 0 ∧ t.mem = s.mem) ∧
      (holders s o.core (lineOf pa) ≠ [] → t.bus = 1 ∧ t.mem = Mem.put 0 s.mem pa (natLe n (o.b.toNat % 2 ^ (8 * n)))))) ∧
  ∀ (s : State) (ch : Nat) (x : Chan), x = chanOf s ch →
    (80 ≤ ch → exec (.burgeeHold ch) s = .next s) ∧
    (ch < 64 → (∀ m ∈ x.msgs, m.station ≠ x.station) → exec (.burgeeHold ch) s =
      .next (setChan ch { x with station := (x.station + 1) % 16, sent := [] } s)) ∧
    (∀ m, x.msgs = [m] → m.station = x.station →
      (64 ≤ ch → ch < 80 → exec (.burgeeHold ch) s = .next (setChan ch { x with station := (x.station + 1) % 64, msgs := [], sent := [m] } s)) ∧
      (ch < 64 → ∃ t, exec (.burgeeHold ch) s = .next t ∧ t = { s with fabric := t.fabric } ∧
        chanOf t ch = { x with station := (x.station + 1) % 16, msgs := [], sent := [m], rr := Tab.put x.rr m.station m.core } ∧
        (chanOf t (64 + m.station)).msgs = (chanOf s (64 + m.station)).msgs ++
          match m.kind.answer with | some a => [⟨ch, 8 * m.station + m.core, m.line, a⟩] | none => []))

/-- HOST_READ, HOST_WRITE, BIRSP and HOST_SNOOP; a clause about data is for lines not in state B, whose merge Directory describes, and with no transaction in progress. -/
def Obligations.HostAccesses : Prop :=
  (∀ (s : State) (pa n : Nat) (d : BitVec 512), hostReaches s pa = false →
    exec (.hostRead pa n) s = .fault .noSuchAddress ∧ exec (.hostWrite pa n d) s = .fault .noSuchAddress) ∧
  (∀ (s : State) (pa n line : Nat) (d : BitVec 512) (x : Option (BitVec 2048)) (inv : Bool), s.guidon.frozen = true →
    (hostReaches s pa = true → exec (.hostRead pa n) s = .next { s with fabric := { s.fabric with rx := s.fabric.rx ++ [.hostRead pa n] } } ∧
      exec (.hostWrite pa n d) s = .next { s with fabric := { s.fabric with rx := s.fabric.rx ++ [.hostWrite pa n d] } }) ∧
    exec (.birsp line x) s = .next { s with fabric := { s.fabric with rx := s.fabric.rx ++ [.birsp line x] } } ∧
    exec (.hostSnoop line inv) s = .next { s with fabric := { s.fabric with rx := s.fabric.rx ++ [.snoop line inv] } }) ∧
  (∀ (s : State) (pa n k : Nat) (d : BitVec 512), s.guidon.frozen = false → hostReaches s pa = true → k = lineOf pa →
    (secureGranule s pa = true →
      (∃ t, exec (.hostRead pa n) s = .next t ∧ t.bus = 0 ∧ t = { s with bus := t.bus, log := t.log, logged := s.logged + 1 } ∧
        t.log.head? = some ⟨0x42, 0xFF, unitOf 5 0, s.dtime, BitVec.ofNat 64 pa, 0⟩) ∧
      ∃ t, exec (.hostWrite pa n d) s = .next t ∧ t = { s with log := t.log, logged := s.logged + 1 } ∧
        t.log.head? = some ⟨0x42, 0xFF, unitOf 5 0, s.dtime, BitVec.ofNat 64 pa, 0⟩) ∧
    (secureGranule s pa = false → (dirOf s k).st ≠ .b → (dirOf s k).pending = false → ∀ m, m = min n (64 - pa % 64) →
      (∃ t, exec (.hostWrite pa n d) s = .next t ∧ t.mem = Mem.put 0 s.mem pa (natLe m d.toNat) ∧ (dirOf t k).st = .i ∧
        (isLocal k = true → hostBias s k = false → (dirOf t k).host = true) ∧
        ∀ c, c < 128 → Tab.has s.home.dir k = true →
          (dirOf s k).sharers.getLsbD c = true ∨ (((dirOf s k).st = .x ∨ (dirOf s k).st = .o) ∧ (dirOf s k).owner = c) → l1Line t c k = none) ∧
      (poisoned s pa = false → s.home.hostHeld = [] → ∃ t, exec (.hostRead pa n) s = .next t ∧ t.mem = s.mem ∧
        t.bus = BitVec.ofNat 512 (homeNat s pa m) ∧ (isLocal k = true → hostBias s k = false → (dirOf t k).host = true) ∧
        ∀ l, Tab.has s.home.dir k = true → (dirOf s k).st = .x ∨ (dirOf s k).st = .o → l1Line s (dirOf s k).owner k = some l →
          l1Line t (dirOf s k).owner k = some { l with st := .s, dirty := 0 } ∧ (dirOf t k).st = .s))) ∧
  (∀ (s : State) (line k : Nat), s.guidon.frozen = false → k = lineOf line →
    (∀ x, k ∉ s.home.binv → exec (.birsp line x) s = .next s) ∧
    (∀ d : BitVec 2048, k ∈ s.home.binv → s.home.hostHeld = [] → s.home.farHeld = [] → ∃ t, exec (.birsp line (some d)) s = .next t ∧ k ∉ t.home.binv ∧
      (dirOf t k).host = false ∧ (∀ j, j < 256 → homeBytes t (k + j) 1 = [d.extractLsb' (8 * j) 8]) ∧
      (∀ a, a < k ∨ k + 256 ≤ a → homeBytes t a 1 = homeBytes s a 1) ∧
      ∀ j x, s.thread? j = some x → x.park = some (.remote k) → x.awaits = none → x.batch = none → (t.thread j).park = none) ∧
    ∀ (pa n : Nat) (v : BitVec 2048), k ∈ s.home.binv → s.home.hostHeld = [(pa, n, v)] → s.home.farHeld = [] → lineOf pa = k → pa % 256 + n ≤ 256 →
      (dirOf s k).st ≠ .b → ∃ t, exec (.birsp line none) s = .next t ∧ t.home.hostHeld = [] ∧ k ∉ t.home.binv ∧
        (∀ j, j < n → homeBytes t (pa + j) 1 = [v.extractLsb' (8 * j) 8]) ∧
        ∀ a, a < pa ∨ pa + n ≤ a → homeBytes t a 1 = homeBytes s a 1) ∧
  ∀ (s : State) (line k : Nat) (inv : Bool), s.guidon.frozen = false → k = lineOf line →
    ((isHost k = false ∧ hostBias s k = false) ∨ Tab.has s.home.dir k = false → exec (.hostSnoop line inv) s = .next s) ∧
    (isHost k = true ∨ hostBias s k = true → Tab.has s.home.dir k = true → (dirOf s k).st ≠ .b → (dirOf s k).pending = false →
      (∃ t, exec (.hostSnoop line true) s = .next t ∧ t.mem = s.mem ∧ (dirOf t k).st = .i ∧ (dirOf t k).sharers = 0 ∧
        ∀ c, c < 128 → (dirOf s k).sharers.getLsbD c = true ∨ (((dirOf s k).st = .x ∨ (dirOf s k).st = .o) ∧ (dirOf s k).owner = c) →
          l1Line t c k = none) ∧
      ∀ l, (dirOf s k).st = .x ∨ (dirOf s k).st = .o → l1Line s (dirOf s k).owner k = some l →
        ∃ t, exec (.hostSnoop line false) s = .next t ∧ t.mem = s.mem ∧ (dirOf t k).st = .s ∧
          l1Line t (dirOf s k).owner k = some { l with st := .s, dirty := 0 })

/-- FLOW_OPEN, FLOW_CLOSE, E2E_ACK, RETRANSMIT_TIMEOUT and PACKET_DELIVER. -/
def Obligations.FlowsAndPackets : Prop :=
  (∀ (s : State) (k dest port : Nat) (ordered secure : Bool),
    (256 ≤ k ∨ Tab.has s.fabric.flows k = true → exec (.flowOpen k dest ordered secure port) s = .next s) ∧
    (k < 256 → Tab.has s.fabric.flows k = false →
      (port ∈ s.worlds.ports → secure = false → exec (.flowOpen k dest ordered secure port) s = .next (s.logDev 0x42 0xFF (unitOf 2 port) 0 0)) ∧
      (port ∉ s.worlds.ports ∨ secure = true → ∃ t, exec (.flowOpen k dest ordered secure port) s = .next t ∧ t = { s with fabric := t.fabric } ∧
        Tab.find t.fabric.flows k = some { dest := dest, ordered := ordered, secure := secure, port := port } ∧
        ∀ j, j ≠ k → Tab.find t.fabric.flows j = Tab.find s.fabric.flows j))) ∧
  (∀ (s : State) (k : Nat) (f : Flow), Tab.find s.fabric.flows k = some f →
    (f.outst = [] → s.work.groups.all (fun e => e.2.left != 0) = true → exec (.flowClose k) s = .next { s with fabric := { s.fabric with flows := Tab.del s.fabric.flows k } }) ∧
    ∀ (o : Outst) (j : Nat) (x : Thread), f.outst = [o] → o.copy = none → ¬(o.pkt.typ = 6 ∨ (o.pkt.typ = 0 ∧ o.pkt.op = 1)) →
      o.thread = some j → s.thread? j = some x → x.awaits = some (o.pkt.flow, o.pkt.seq) → x.handlerOf = none → x.batch = none →
      (s.work.threads.map (·.1)).Nodup → s.work.groups.all (fun e => e.2.left != 0) = true → ∀ (i : Instr) (cause : Byte),
        (i = .flowClose k ∧ cause = 0x58) ∨ (i = .retransmitTimeout k o.pkt.seq ∧ 8 ≤ o.tries ∧ o.sent + 20000 ≤ s.dtime ∧ cause = 0x59) →
        ∃ t, exec i s = .next t ∧ t.mem = s.mem ∧ t.thread? j = some (x.stoppedAt x.pc x.resume) ∧
          (∀ y, y ≠ j → t.thread? y = s.thread? y) ∧ (Tab.get t.fabric.flows k {}).outst = [] ∧
          ∃ tr, tr.regs.cause = cause ∧ tr.regs.epc = x.pc ∧ tr.threads = [j] ∧ (t.core (s.coreOf x)).traps = (s.core (s.coreOf x)).traps ++ [tr]) ∧
  (∀ (s : State) (k : Nat) (seq : Word) (f : Flow), Tab.find s.fabric.flows k = some f →
    (s.guidon.frozen = true → exec (.e2eAck k seq) s = .next { s with fabric := { s.fabric with rx := s.fabric.rx ++ [.ack k seq] } }) ∧
    (s.guidon.frozen = false → (∀ o ∈ f.outst, o.copy = none) → s.work.groups.all (fun e => e.2.left != 0) = true →
      ∃ t, exec (.e2eAck k seq) s = .next t ∧ t.mem = s.mem ∧
      ∀ o, o ∈ (Tab.get t.fabric.flows k {}).outst ↔
        o ∈ f.outst ∧ (o.pkt.seq = seq → o.thread.isSome = true ∧ (o.pkt.typ = 0 ∨ o.pkt.typ = 4))) ∧
    ∀ o : Outst, f.outst = [o] →
      (s.dtime < o.sent + 20000 → exec (.retransmitTimeout k o.pkt.seq) s = .next s) ∧
      (o.sent + 20000 ≤ s.dtime → o.tries < 8 → ∃ t, exec (.retransmitTimeout k o.pkt.seq) s = .next t ∧ t = { s with fabric := t.fabric } ∧
        Tab.find t.fabric.flows k = some { f with outst := [{ o with sent := s.dtime, tries := o.tries + 1 }] })) ∧
  (∀ (s : State) (p : Packet) (pa : Nat) (f : InFlow), pa = p.pa % 2 ^ 43 → f = Tab.get s.fabric.inFlows (inKey p) {} →
    (s.guidon.frozen = true → exec (.packetDeliver p) s = .next { s with fabric := { s.fabric with rx := s.fabric.rx ++ [.packet p] } }) ∧
    (s.guidon.frozen = false → (p.typ = 0 ∨ p.typ = 2 ∨ p.typ = 4 ∨ p.typ = 6) → snoopFirst s p = false → f.any = true →
      4096 ≤ seqBelow f p.seq → seqBelow f p.seq < 2 ^ 31 →
      ∃ t, exec (.packetDeliver p) s = .next t ∧ t.mem = s.mem ∧ Tab.find t.fabric.inFlows (inKey p) = none ∧
        t.log.head? = some ⟨0x58, 0xFF, unitOf 2 p.src, s.dtime, BitVec.ofNat 64 p.pa, 0⟩) ∧
    (s.guidon.frozen = false → f.any = false → f.held = [] → f.applied = [] → f.results = [] → p.ordered = false → refuses s p = false → poisoned s pa = false →
      (dirOf s (lineOf pa)).st ≠ .b → (dirOf s (lineOf pa)).pending = false → s.home.hostHeld = [] → hostHolds s pa = false →
      (p.typ = 4 → p.op ≠ 14 → ∃ t, exec (.packetDeliver p) s = .next t ∧
        t.mem = Mem.put 0 s.mem pa (natLe p.size (applyOp p.op.toNat (homeNat s pa p.size) (p.b.toNat % 2 ^ (8 * p.size)))) ∧
        t.fabric.replies = s.fabric.replies ++ [{ p with src := s.fabric.module_.toNat, typ := 5, b := BitVec.ofNat 64 (homeNat s pa p.size), c := 0, data := 0 },
          { p with src := s.fabric.module_.toNat, typ := 8, b := 0, c := 0, data := 0 }] ∧
        Tab.find t.fabric.inFlows (inKey p) =
          some { f with any := true, high := p.seq, applied := [p.seq], next := p.seq + 1, results := [(p.seq, BitVec.ofNat 64 (homeNat s pa p.size))] }) ∧
      (p.typ = 2 → ∃ t, exec (.packetDeliver p) s = .next t ∧ t.mem = Mem.put 0 s.mem pa (natLe p.size p.data.toNat)) ∧
      (p.typ = 0 → p.op ≠ 1 → ∃ t, exec (.packetDeliver p) s = .next t ∧ t.mem = s.mem ∧ ∃ b, t.fabric.replies = s.fabric.replies ++
        [{ p with src := s.fabric.module_.toNat, typ := 1, b := b, c := 0, data := BitVec.ofNat 2048 (homeNat s pa p.size) },
          { p with src := s.fabric.module_.toNat, typ := 8, b := 0, c := 0, data := 0 }])) ∧
    (s.guidon.frozen = false → snoopFirst s p = false → p.typ = 4 → p.seq ∈ f.applied → seqBelow f p.seq < 4096 → ∀ old, f.results = [(p.seq, old)] →
      ∃ t, exec (.packetDeliver p) s = .next t ∧ t.mem = s.mem ∧ Tab.get t.fabric.inFlows (inKey p) {} = f ∧
        t.fabric.replies = s.fabric.replies ++ [{ p with src := s.fabric.module_.toNat, typ := 5, b := old, c := 0, data := 0 },
          { p with src := s.fabric.module_.toNat, typ := 8, b := 0, c := 0, data := 0 }])) ∧
  ∀ (s : State) (p : Packet) (f : Flow) (o : Outst) (j : Nat) (x : Thread), s.guidon.frozen = false → p.typ = 5 → p.c = 0 →
    Tab.find s.fabric.flows p.flow = some f → f.outst = [o] → o.pkt.seq = p.seq → o.thread = some j → s.thread? j = some x →
    x.awaits = some (p.flow, p.seq) → x.batch = none → (s.work.threads.map (·.1)).Nodup → (s.gridOf x).recording = false → (s.gridOf x).playing = false →
    ∃ t, exec (.packetDeliver p) s = .next t ∧ t.mem = s.mem ∧
      t.thread? j = some { x with park := none, pages := [], reply := some { value := p.b, bad := false, line := lineOf o.pkt.pa }, awaits := none } ∧
      Tab.find t.fabric.flows p.flow = some { f with outst := [{ o with thread := none }] }

/-- FABRIC_FLIT_ROUTE, LINK_REPLAY, PORT_RETRAIN, NEGOTIATION_FLIT and FREEZE_FLIT. -/
def Obligations.LinksAndFlits : Prop :=
  (∀ (s : State) (f : Flit) (cnt p : Nat), cnt = (f.head.extractLsb' 72 4).toNat → p = (f.head.extractLsb' 0 6).toNat →
    (cnt = 0 → 10 ≤ (f.head.extractLsb' 76 4).toNat → exec (.fabricFlitRoute f) s = .next (s.logDev 0 0xFF (unitOf 2 0) 0 0)) ∧
    (cnt = 0 → (f.head.extractLsb' 76 4).toNat < 9 → exec (.fabricFlitRoute f) s = .next { s with fabric :=
      (if s.guidon.frozen then { s.fabric with rx := s.fabric.rx ++ [.flit f] } else { s.fabric with deliver := s.fabric.deliver ++ [f] }) }) ∧
    ((f.head.extractLsb' 76 4).toNat = 9 →
      (cnt ≠ 0 → exec (.fabricFlitRoute f) s = .next (s.logDev 0 0xFF (unitOf 2 0) 0 0)) ∧
      (cnt = 0 → ∀ e, s.fabric.ports.find? (fun e => e.2.peerMod == f.head.extractLsb' 80 8 && e.2.st != 0) = some e →
        exec (.fabricFlitRoute f) s = exec (.negotiationFlit e.1 f) s)) ∧
    (cnt ≠ 0 → (f.head.extractLsb' 76 4).toNat ≠ 9 → (port s p).st ≠ 4 → exec (.fabricFlitRoute f) s = .next (setPort p { port s p with dropped := (port s p).dropped + 1 } s)) ∧
    (cnt ≠ 0 → (f.head.extractLsb' 76 4).toNat ≠ 9 → (port s p).st = 4 → ∃ t, exec (.fabricFlitRoute f) s = .next t ∧ t = { s with fabric := t.fabric } ∧
      (∀ q, q ≠ p → port t q = port s q) ∧ port t p = { port s p with replay := (port t p).replay, tx := (port t p).tx } ∧ (port t p).tx.getLast? = (port t p).replay.getLast? ∧ (port t p).replay.length ≤ 512 ∧
      ∃ h : BitVec 128, (port t p).replay.getLast? = some ⟨h, f.payload⟩ ∧ h.extractLsb' 0 72 = f.head.extractLsb' 0 72 >>> 6 ∧
        (h.extractLsb' 72 4).toNat = cnt - 1 ∧ h.extractLsb' 76 52 = f.head.extractLsb' 76 52)) ∧
  (∀ (s : State) (p : Nat),
    ((port s p).replay = [] ∨ (port s p).st ≠ 4 → exec (.linkReplay p) s = .next s) ∧
    ((port s p).replay ≠ [] → (port s p).st = 4 →
      ((port s p).fails < 15 → exec (.linkReplay p) s = .next (setPort p { port s p with fails := (port s p).fails + 1, tx := (port s p).replay } s)) ∧
      (15 ≤ (port s p).fails → exec (.linkReplay p) s = .next (setPort p { port s p with st := 1, fails := 0 } s))) ∧
    (∃ t, exec (.portRetrain p true) s = .next t ∧ t = { s with fabric := t.fabric } ∧ port t p = { port s p with st := 3, fails := 0, replay := (port t p).replay, tx := (port t p).tx } ∧
      (port t p).tx.getLast? = some (makeNegotiation s (port s p)) ∧ (port t p).replay.getLast? = some (makeNegotiation s (port s p)) ∧
      ∀ q, q ≠ p → port t q = port s q) ∧
    ∃ t, exec (.portRetrain p false) s = .next t ∧ t.mem = s.mem ∧ port t p = { port s p with st := 5, fails := 0 } ∧
      t.log.head? = some ⟨0, 0xFF, unitOf 2 p, s.dtime, 0, 0⟩) ∧
  ∀ (s : State) (p : Nat) (f : Flit), exec (.negotiationFlit p f) s = exec (.freezeFlit p f) s ∧
    (((payloadByte f 0).toNat ≠ 1 ∧ (payloadByte f 0).toNat ≠ 2) ∨ f.head.extractLsb' 72 4 ≠ 0 ∨ f.head.extractLsb' 88 40 ≠ 0 ∨
        ((payloadByte f 0).toNat = 1 ∧ ∃ k, 7 ≤ k ∧ k < 64 ∧ payloadByte f k ≠ 0) ∨ ((payloadByte f 0).toNat = 2 ∧ ∃ k, 3 ≤ k ∧ k < 64 ∧ payloadByte f k ≠ 0) →
      exec (.negotiationFlit p f) s = .next (s.logDev 0 0xFF (unitOf 2 p) 0 0)) ∧
    (f.head.extractLsb' 72 4 = 0 → f.head.extractLsb' 88 40 = 0 →
      ((payloadByte f 0).toNat = 1 → (∀ k, 7 ≤ k → k < 64 → payloadByte f k = 0) →
        ((port s p).st ≠ 3 → exec (.negotiationFlit p f) s = .next s) ∧
        ((port s p).st = 3 → ∃ t, exec (.negotiationFlit p f) s = .next t ∧ t.mem = s.mem ∧ (∀ q, q ≠ p → port t q = port s q) ∧
          (port t p).peer = payloadByte f 1 ∧ (port t p).peerMod = payloadByte f 6 ∧
          (payloadByte f 1 = 0 → (port t p).st = 5 ∧ (port t p).agreed = 0) ∧
          (payloadByte f 1 ≠ 0 → (port t p).st = 4 ∧ (port t p).agreed.toNat = min (payloadByte f 1).toNat (port s p).loc.toNat))) ∧
      ((payloadByte f 0).toNat = 2 → (∀ k, 3 ≤ k → k < 64 → payloadByte f k = 0) →
        ((port s p).st = 0 ∨ (port s p).st = 5 → exec (.freezeFlit p f) s = .next s) ∧
        ((port s p).st ≠ 0 → (port s p).st ≠ 5 → ∃ t, exec (.freezeFlit p f) s = .next t ∧ t.mem = s.mem ∧ t.guidon.frozen = true ∧
          (s.guidon.frozen = true → t.guidon.cause = s.guidon.cause ∧ t.guidon.src = s.guidon.src ∧ t.fabric = s.fabric) ∧
          (s.guidon.frozen = false → t.guidon.cause = 0xC1 ∧ t.guidon.src = payloadByte f 1 ∧ t.guidon.safe = true ∧
            t.fabric = { s.fabric with ports := t.fabric.ports } ∧ (∀ q, q ∉ portsUp s → port t q = port s q) ∧
            ∃ g, (∀ q ∈ portsUp s, port t q = { port s q with replay := (port t q).replay, tx := (port t q).tx } ∧
                (port t q).tx.getLast? = some g ∧ (port t q).replay.getLast? = some g) ∧
              (g.head.extractLsb' 76 4).toNat = 9 ∧ payloadByte g 0 = 2 ∧ payloadByte g 1 = payloadByte f 1 ∧ payloadByte g 2 = payloadByte f 2))))

/-- The rings of spec 23 R437 to R442 and the power governor of R444; log entries 10 and 34 say what the readings are and what ends a hold. -/
def Obligations.PowerAndRings : Prop :=
  (∀ m : Vector Word 3, mapOk m = true ↔ (∀ k, k < 17 → mapField m k < 16 ∨ mapField m k = 31) ∧
    ∀ j k, j < k → k < 17 → mapField m j = mapField m k → mapField m k = 31) ∧
  (∀ (s : State) (b : Nat) (x : PhBank), x = bankOf s b →
    (x.busy.isSome = true ∨ mapOk x.staged = false → exec (.phbCtlMapgo b) s = .next (setBank b { x with mapErr := true } s)) ∧
    (x.busy = none → mapOk x.staged = true → ∃ t, exec (.phbCtlMapgo b) s = .next t ∧ t = { s with banks := t.banks } ∧
      (∀ c, c ≠ b → bankOf t c = bankOf s c) ∧ (bankOf t b).map = x.staged ∧ (bankOf t b).htr = x.htr ∧ (bankOf t b).mapErr = x.mapErr ∧
      ((∀ k, k < 17 → mapField x.staged k ≠ x.chan k → -8 ≤ (bankOf t b).err k ∧ (bankOf t b).err k ≤ 8) → (bankOf t b).busy = none) ∧
      ∀ k, k < 17 → mapField x.staged k ≠ x.chan k → (bankOf t b).err k < -8 ∨ 8 < (bankOf t b).err k → (bankOf t b).busy = some s.dtime) ∧
    (∃ t, exec (.phbCtlRetrain b) s = .next t ∧ t.mem = s.mem ∧ (port t (b / 4)).st = 1 ∧ (port t (b / 4)).fails = 0 ∧
      (∀ c, c / 4 ≠ b / 4 → bankOf t c = bankOf s c) ∧ ∀ i, i < 4 → (bankOf t (4 * (b / 4) + i)).busy = none ∧
        ∀ k, k < 17 → (bankOf t (4 * (b / 4) + i)).chan k = if (bankOf s (4 * (b / 4) + i)).sat k then 31 else (bankOf s (4 * (b / 4) + i)).chan k) ∧
    (∀ h, x.busy = some h → h + 1000000 ≤ s.dtime → exec (.phbHoldTimeout b) s = exec (.phbCtlRetrain b) s) ∧
    ((∀ h, x.busy = some h → s.dtime < h + 1000000) → exec (.phbHoldTimeout b) s = .next s) ∧
    (∀ es : List (BitVec 12), ∃ t, exec (.phbBusyClear b es) s = .next t ∧ t = { s with banks := t.banks } ∧ (bankOf t b).map = x.map ∧
      (∀ k e, k < 17 → es[k]? = some e → x.chan k ≠ 31 → (bankOf t b).err k = e.toInt) ∧
      ((∀ k ∈ x.moved, -8 ≤ (bankOf t b).err k ∧ (bankOf t b).err k ≤ 8) → (bankOf t b).busy = none) ∧
      ∀ k ∈ x.moved, (bankOf t b).err k < -8 ∨ 8 < (bankOf t b).err k → (bankOf t b).busy = x.busy) ∧
    (∃ t, exec (.phbStatRead b) s = .next t ∧ t = { s with bus := t.bus, banks := t.banks } ∧ (bankOf t b).mapErr = false ∧
      t.bus.getLsbD 31 = x.busy.isSome ∧ t.bus.getLsbD 30 = (x.chan 16 != 31) ∧ t.bus.getLsbD 29 = x.mapErr ∧
      ∀ k, k < 17 → t.bus.getLsbD k = x.sat k)) ∧
  (∀ s : State, (s.guidon.frozen = false → exec .freezeRingStep s = .next s) ∧
    (s.guidon.frozen = true → ∃ t, exec .freezeRingStep s = .next t ∧ t = { s with banks := t.banks } ∧
      ∀ b x, Tab.find s.banks b = some x → ∃ y, Tab.find t.banks b = some y ∧ y.map = x.map ∧ y.drift = x.drift ∧ ∀ k, k < 17 →
        y.code k = if 2 ≤ x.err k ∧ 0 < x.code k then x.code k - 1 else if x.err k ≤ -2 ∧ x.code k < 1023 then x.code k + 1 else x.code k)) ∧
  (∀ (s : State) (w : Nat) (p : Power), p = s.power →
    (∃ t, exec (.powerGovernorTick w) s = .next t ∧ t = { s with power := t.power } ∧ t.power.pwr = w ∧ t.power.cap = p.cap ∧
      (p.cap < w → t.power.under = 0 ∧
        (p.fabFirst = true → 1 < p.inj → t.power.inj = p.inj / 2 ∧ t.power.fclk = p.fclk) ∧
        (p.fabFirst = false ∨ p.inj ≤ 1 → t.power.inj = p.inj ∧ t.power.fclk = if 1450 < p.fclk then p.fclk - 50 else p.fclk)) ∧
      (w + 40 < p.cap → (p.under < 3 → t.power = { p with pwr := w, under := p.under + 1 }) ∧
        (3 ≤ p.under → t.power.under = 0 ∧ (p.steps = [] → t.power.inj = p.inj ∧ t.power.fclk = p.fclk) ∧
          (∀ r, p.steps = true :: r → t.power.inj = 2 * p.inj ∧ t.power.fclk = p.fclk ∧ t.power.steps = r) ∧
          ∀ r, p.steps = false :: r → t.power.inj = p.inj ∧ t.power.fclk = p.fclk + 50 ∧ t.power.steps = r)) ∧
      (w ≤ p.cap → p.cap ≤ w + 40 → t.power = { p with pwr := w, under := 0 })) ∧
    (w ≤ 2200 → exec (.currentMonitorOver w) s = .next s) ∧
    (2200 < w → ∃ t, exec (.currentMonitorOver w) s = .next t ∧ t = { s with power := t.power } ∧ t.power.fclk = 1450 ∧ t.power.pwr = w ∧ t.power.cap = p.cap) ∧
    exec (.channelDqRetrain w) s = .next s) ∧
  ∀ (s : State) (w : Word), ((w.extractLsb' 0 12).toNat < 1200 ∨ 2200 < (w.extractLsb' 0 12).toNat → exec (.pwrCapWrite w) s = .next (s.logDev 0 0xFF 0 0 0)) ∧
    (1200 ≤ (w.extractLsb' 0 12).toNat → (w.extractLsb' 0 12).toNat ≤ 2200 →
      exec (.pwrCapWrite w) s = .next { s with power := { s.power with cap := (w.extractLsb' 0 12).toNat } })

/-- MODULE_RESET and the seven events of bring-up; a genuine record is one in the format of R432 whose key digest is that of the boot ROMs and of the key it comes with, and whose ECDSA P-256 signature over the SHA-256 digest of its signed part verifies (spec 23 R432). The FAIL code of a bad format and the measurement of an image are the model's choice (log entry 9). -/
def Obligations.BringUp : Prop :=
  (∀ s : State, exec .moduleReset s = .next { State.reset with agenda := s.agenda, free := s.free, boot := { State.reset.boot with rom := s.boot.rom } }) ∧
  (∀ (i : Instr) (n : Nat), (∃ r b, i = .bringupGuidon r b ∧ n = 2) ∨ (∃ r, i = .bringupManagement r ∧ n = 3) ∨
      (∃ b r h c, i = .bringupRecords b r h c ∧ n = 4) ∨ (∃ f, i = .bringupMemory f ∧ n = 5) ∨ (∃ p ps, i = .bringupLinks p ps ∧ n = 6) ∨
      (i = .bringupContexts ∧ n = 7) → ∀ s : State,
    (s.boot.fail ≠ 0 ∨ (s.boot.step.toNat ≠ n ∧ (n = 2 → s.boot.step.toNat ≠ 1))) → exec i s = .next s) ∧
  (∀ (s : State) (r : BootRecord), s.boot.fail = 0 →
    (s.boot.step = 1 ∨ s.boot.step = 2 → ∀ ok,
      (recGenuine r s.boot.rom 3 = false → exec (.bringupGuidon r ok) s = .next { s with boot := { s.boot with step := 2, fail := 1, unit := 0 } }) ∧
      (recGenuine r s.boot.rom 3 = true →
        ((recVersion r).toNat < (Tab.get s.boot.mins 3 0).toNat → exec (.bringupGuidon r ok) s = .next { s with boot := { s.boot with step := 2, fail := 2, unit := 0 } }) ∧
        ((Tab.get s.boot.mins 3 0).toNat ≤ (recVersion r).toNat → exec (.bringupGuidon r ok) s =
          .next { s with boot := if ok then { s.boot with step := 3, measGuidon := recDigest r } else { s.boot with step := 2, fail := 5, unit := 0 } }))) ∧
    (s.boot.step = 3 →
      (recGenuine r s.boot.rom 1 = false → exec (.bringupManagement r) s = .next { s with boot := { s.boot with fail := 1, unit := 0 } }) ∧
      (recGenuine r s.boot.rom 1 = true →
        ((recVersion r).toNat < (Tab.get s.boot.mins 1 0).toNat → exec (.bringupManagement r) s = .next { s with boot := { s.boot with fail := 2, unit := 0 } }) ∧
        ((Tab.get s.boot.mins 1 0).toNat ≤ (recVersion r).toNat →
          exec (.bringupManagement r) s = .next { s with boot := { s.boot with step := 4, measMgmt := recDigest r } })))) ∧
  (∀ (s : State) (cfg hly : BootRecord) (c : ConfigRecord), s.boot.fail = 0 → s.boot.step = 4 →
    exec (.bringupRecords false cfg hly c) s = .next { s with boot := { s.boot with fail := 3, unit := 0 } } ∧
    (recGenuine cfg s.boot.rom 4 = false → exec (.bringupRecords true cfg hly c) s = .next { s with boot := { s.boot with fail := 1, unit := 0 } }) ∧
    (recGenuine cfg s.boot.rom 4 = true →
      (∀ v, c.minVersions = [(4, v)] → (recVersion cfg).toNat < v.toNat →
        exec (.bringupRecords true cfg hly c) s = .next { s with boot := { s.boot with fail := 2, unit := 0 } }) ∧
      (c.minVersions = [] → recGenuine hly s.boot.rom 2 = false →
        exec (.bringupRecords true cfg hly c) s = .next { s with boot := { s.boot with fail := 1, unit := 0 } }) ∧
      (recGenuine hly s.boot.rom 2 = true → ∀ v, c.minVersions = [(2, v)] → (recVersion hly).toNat < v.toNat →
        exec (.bringupRecords true cfg hly c) s = .next { s with boot := { s.boot with fail := 2, unit := 0 } }) ∧
      (recGenuine hly s.boot.rom 2 = true → c.minVersions = [] → ∃ t, exec (.bringupRecords true cfg hly c) s = .next t ∧
        t = { s with boot := t.boot, fabric := t.fabric } ∧ t.boot = { s.boot with step := 5, mins := [], measConfig := recDigest cfg, measHalyard := recDigest hly, setup := some c } ∧
        t.fabric = { s.fabric with module_ := BitVec.ofNat 8 c.moduleIndex, members := c.podMembers, leaseNs := max 1000 (min 1000000 c.leaseNs) }))) ∧
  (∀ (s : State) (ch : Nat), s.boot.fail = 0 → s.boot.step = 5 →
    exec (.bringupMemory (some ch)) s = .next { s with boot := { s.boot with fail := 4, unit := BitVec.ofNat 8 ch } } ∧
    ∃ t, exec (.bringupMemory none) s = .next t ∧ t = { s with boot := t.boot, home := t.home, fabric := t.fabric } ∧ t.boot = { s.boot with step := 6 } ∧
      t.home.bias = [] ∧ ∀ c, c < 128 → (Tab.get t.fabric.chanIfv c {}).st = 4 ∧
        (Tab.get t.fabric.chanIfv c {}).agreed = if Config.channelRev c then 2 else 1) ∧
  (∀ (s : State) (hp p : Nat) (c : ConfigRecord) (peers : List (Nat × Nat)), s.boot.fail = 0 → s.boot.step = 6 → s.boot.setup = some c →
    c.ports = [p] → ∃ t, exec (.bringupLinks hp peers) s = .next t ∧ t.mem = s.mem ∧ t.boot = { s.boot with step := 7 } ∧
      (BitVec.ofNat 8 hp = 0 → t.fabric.hostIfv.st = 5) ∧
      (BitVec.ofNat 8 hp ≠ 0 → t.fabric.hostIfv.st = 4 ∧ t.fabric.hostIfv.agreed.toNat = min (hp % 256) s.fabric.hostIfv.loc.toNat) ∧
      (∀ q, q ≠ p → port t q = port s q) ∧
      (peers = [] → port t p = { port s p with st := 0 } ∧ t.log.head? = some ⟨0, 0xFF, unitOf 2 p, s.dtime, 0, 0⟩) ∧
      ∀ v, peers = [(p, v)] → BitVec.ofNat 8 v ≠ 0 → (port t p).st = 4 ∧ (port t p).agreed.toNat = min (v % 256) (port s p).loc.toNat) ∧
  ∀ (s : State) (c : ConfigRecord), s.boot.fail = 0 → s.boot.step = 7 →
    (s.boot.setup = none → exec .bringupContexts s = .next s) ∧
    (s.boot.setup = some c → ∀ k : CtxSpec, c.contexts = [k] → ∃ t, exec .bringupContexts s = .next t ∧ t.mem = s.mem ∧ t.boot = { s.boot with step := 8 } ∧
      t.queues = [] ∧ (t.ctx 0).st = .live ∧ (t.ctx 0).root = k.root ∧ (t.ctx 0).world = k.world ∧ (t.ctx 0).dbg = k.dbg ∧ (t.ctx 0).svc = k.svc ∧
      (t.ctx 0).meas = k.meas ∧ (t.ctx 0).fn = some k.fn ∧ (∀ x, x ≠ 0 → (t.ctx x).st = .free) ∧ (∀ q ∈ c.secureCores, (t.core q).world = true) ∧
      (∀ q, q ∈ c.securePorts ↔ q ∈ t.worlds.ports) ∧ (∀ q, q ∈ c.secureFns ↔ q ∈ t.worlds.fns) ∧
      ∀ a n j, (a, n) ∈ c.secureGranules → j < n → a + j ∈ t.worlds.granules)

/-- The freeze of spec 22 R424 to R429, GDN_CTL, the heartbeat, and the comparator's events. -/
def Obligations.FreezeAndRedundancy : Prop :=
  (∀ (i : Instr) (cause : Byte), (i = .clockMonitor ∧ cause = 0xC3) ∨ (i = .supplyMonitor ∧ cause = 0xC4) ∨ (i = .thermalTrip ∧ cause = 0xC5) ∨
      (i = .freezePin ∧ cause = 0xC6) ∨ (∃ k u a, i = .arrayUncorrected k u a ∧ cause = 0xC7) ∨ (∃ w, i = .gdnCtlFrz w ∧ cause = 0xC1) → ∀ s : State,
    ∃ t, exec i s = .next t ∧ t.mem = s.mem ∧ t.guidon.frozen = true ∧
      (if levelCause cause then cause ∈ t.guidon.level else cause ∈ t.guidon.event) ∧ t.guidon.own.head? = some (cause, s.dtime) ∧
      (s.guidon.frozen = true → t.guidon.cause = s.guidon.cause ∧ t.guidon.src = s.guidon.src ∧ t.guidon.safe = s.guidon.safe ∧ t.fabric = s.fabric) ∧
      (s.guidon.frozen = false → t.guidon.cause = cause ∧ t.guidon.src = s.fabric.module_ ∧ t.guidon.safe = true ∧ t.guidon.quiet = false ∧
        (∀ k x, t.thread? k = some x → (∃ y, s.thread? k = some y ∧ x = { y with resv := none })) ∧
        t.fabric = { s.fabric with ports := t.fabric.ports } ∧ (∀ q, q ∉ portsUp s → port t q = port s q) ∧
        ∃ g, (∀ q ∈ portsUp s, port t q = { port s q with replay := (port t q).replay, tx := (port t q).tx } ∧
            (port t q).tx.getLast? = some g ∧ (port t q).replay.getLast? = some g) ∧
          payloadByte g 0 = 2 ∧ payloadByte g 1 = s.fabric.module_ ∧ payloadByte g 2 = cause)) ∧
  (∀ s : State, (s.guidon.hbwin = 0 ∨ s.guidon.frozen = true ∨ s.dtime < s.guidon.hbFrom + 1000 * s.guidon.hbwin.toNat → exec .heartbeatMissed s = .next s) ∧
    (s.guidon.hbwin ≠ 0 → s.guidon.frozen = false → s.guidon.hbFrom + 1000 * s.guidon.hbwin.toNat ≤ s.dtime →
      ∃ t, exec .heartbeatMissed s = .next t ∧ t.guidon.frozen = true ∧ t.guidon.cause = 0xC2 ∧ (0xC2 : Byte) ∈ t.guidon.event) ∧
    exec .moduleQuiescent s = .next (if s.guidon.frozen then { s with guidon := { s.guidon with quiet := true } } else s) ∧
    exec .hbOutToggle s = .next { s with guidon := { s.guidon with hbOut := !s.guidon.hbOut } } ∧
    (∀ c, ∃ t, exec (.levelCauseClear c) s = .next t ∧ t = { s with guidon := { s.guidon with level := t.guidon.level } } ∧
      ∀ d, d ∈ t.guidon.level ↔ d ∈ s.guidon.level ∧ d ≠ c)) ∧
  (∀ (s : State) (w : Word), w.getLsbD 31 = false →
    (w.getLsbD 29 = false → ∀ ev, ev = (if w.getLsbD 0 then [] else s.guidon.event) →
      (s.guidon.frozen = true → s.guidon.level = [] → ev = [] → s.fabric.rx = [] → exec (.gdnCtlThaw w) s =
        .next { s with guidon := { s.guidon with frozen := false, quiet := false, hbFrom := s.dtime, event := [], rdn := w.getLsbD 28, hbctx := w.extractLsb' 22 6 } }) ∧
      (s.guidon.frozen = false ∨ s.guidon.level ≠ [] ∨ ev ≠ [] → ∃ t, exec (.gdnCtlThaw w) s = .next t ∧
        t.guidon = { s.guidon with event := ev, rdn := w.getLsbD 28, hbctx := w.extractLsb' 22 6 } ∧ t.logged = s.logged + 1 ∧ t.mem = s.mem ∧ t.work = s.work)) ∧
    (w.getLsbD 30 = false →
      (s.guidon.frozen = true → ∃ t, exec (.gdnCtlRel w) s = .next t ∧ t.guidon.safe = s.guidon.safe ∧ t.guidon.frozen = true ∧ t.logged = s.logged + 1) ∧
      (s.guidon.frozen = false → ∃ t, exec (.gdnCtlRel w) s = .next t ∧ t = { s with guidon := t.guidon } ∧ t.guidon.safe = false ∧ t.guidon.frozen = false) ∧
      (w.getLsbD 29 = false → exec (.gdnCtlAck w) s =
        .next { s with guidon := { s.guidon with event := [], rdn := w.getLsbD 28, hbctx := w.extractLsb' 22 6 } }))) ∧
  (∀ (s : State) (x : Nat) (b : Word),
    (x ≠ s.guidon.hbctx.toNat → exec (.gdnHbWrite x b) s = .next s) ∧
    (x = s.guidon.hbctx.toNat → b = s.guidon.hb + 1 → exec (.gdnHbWrite x b) s = .next { s with guidon := { s.guidon with hb := b, hbFrom := s.dtime } }) ∧
    (x = s.guidon.hbctx.toNat → b ≠ s.guidon.hb + 1 →
      (s.guidon.hbwin = 0 → exec (.gdnHbWrite x b) s = .next { s with guidon := { s.guidon with hb := b } }) ∧
      (s.guidon.hbwin ≠ 0 → s.guidon.frozen = false → ∃ t, exec (.gdnHbWrite x b) s = .next t ∧ t.guidon.frozen = true ∧ t.guidon.cause = 0xC2)) ∧
    (1000000 < b.toNat → ∃ t, exec (.gdnHbwinWrite b) s = .next t ∧ t = { s with log := t.log, logged := s.logged + 1 }) ∧
    (b.toNat ≤ 1000000 → exec (.gdnHbwinWrite b) s = .next { s with guidon := { s.guidon with hbwin := b, hbFrom := s.dtime } })) ∧
  (∀ (s : State) (p : Nat) (a b : CmpEntry) (as bs : List CmpEntry), (s.pair p).prim = a :: as → (s.pair p).sec = b :: bs →
    (mismatchKind s a b = 0 → bothPerform a.word = false → ∀ pc, pc = (s.thread (a.thread.headD 0)).pc →
      ∃ t, exec (.comparatorMatch p) s = .next t ∧ t.mem = s.mem ∧ (t.pair p).prim = as ∧ (t.pair p).sec = bs ∧
        (∀ k ∈ a.thread, ∀ x, s.thread? k = some x → t.thread? k = some { x.unparkHere with matched := some pc }) ∧
        ∀ e ∈ a.thread.zip b.thread, (e.1, e.2, pc) ∈ (t.pair p).follow) ∧
    (∀ k, mismatchKind s a b = k → k ≠ 0 → exec (.comparatorMatch p) s = exec (.redundancyMismatch p (BitVec.ofNat 4 k)) s) ∧
    exec (.comparatorTimeout p) s = .next s) ∧
  ∀ (s : State) (p : Nat),
    (∀ e : CmpEntry, ((s.pair p).prim = [e] ∧ (s.pair p).sec = []) ∨ ((s.pair p).prim = [] ∧ (s.pair p).sec = [e]) →
      (s.dtime < e.time + 100000 → exec (.comparatorTimeout p) s = .next s) ∧
      (e.time + 100000 ≤ s.dtime → exec (.comparatorTimeout p) s = exec (.redundancyMismatch p 4) s)) ∧
    ∀ (k : BitVec 4) (team : Nat), (pairTeam p s = none → exec (.redundancyMismatch p k) s = .next s) ∧
      (pairTeam p s = some team → s.work.threads.all (fun e => e.2.batch.isNone) = true → ∃ t, exec (.redundancyMismatch p k) s = .next t ∧ t.mem = s.mem ∧
        (t.pair p).prim = [] ∧ (t.pair p).sec = [] ∧ (t.pair p).stop = true ∧
        ((s.work.threads.map (·.1)).Nodup → ∀ q, (s.team team).role = .primary q → ∀ e ∈ teamThreads s team ++ teamThreads s q, (t.thread e.1).stopped = true) ∧
        (∃ tr, tr.regs.cause = 0xC0 ∧ tr.regs.einfo.getLsbD 4 = false ∧ tr.regs.einfo.extractLsb' 0 4 = k ∧ tr.team = team ∧
          (t.core (2 * p)).traps = (s.core (2 * p)).traps ++ [tr]) ∧
        (s.guidon.rdn = true → t.guidon.frozen = true ∧ (s.guidon.frozen = false → t.guidon.cause = 0xC0)) ∧
        (s.guidon.rdn = false → t.guidon.frozen = s.guidon.frozen ∧ t.guidon.own.head? = some (0xC0, s.dtime)))

/-- The register writes and clearing reads of the event table, ATTEST, LOGREAD, WAVE_SAMPLE and BREAKDOWN_RECORD. The report's signature is ECDSA P-256 under an identity key and a nonce that no statement fixes (log entry 9); log entry 36 says who reaches a register. -/
def Obligations.Registers : Prop :=
  (∀ (s : State) (c : Nat) (w : Word),
    (w.toNat < 1024 ∨ 2 ^ 20 < w.toNat → exec (.hlyAgeWrite c w) s = .next (s.logDev 0 0xFF (unitOf 0 (8 * c)) 0 (w.setWidth 64))) ∧
    (1024 ≤ w.toNat → w.toNat ≤ 2 ^ 20 → exec (.hlyAgeWrite c w) s = .next { s with clusters := Tab.put s.clusters c { s.cluster c with age := w.toNat } }) ∧
    exec (.hlyAvgWrite c w) s = .next { s with clusters := Tab.put s.clusters c { s.cluster c with avg := w.extractLsb' 0 2 } } ∧
    (∀ n, n = (w.extractLsb' 0 3).toNat → ∃ t, exec (.coreL1Write c w) s = .next t ∧ (t.core c).l1Auto = w.getLsbD 8 ∧
      (n < 1 ∨ 4 < n → (t.core c).l1Size = (s.core c).l1Size ∧ (t.core c).l1Pend = (s.core c).l1Pend ∧ t.mem = s.mem ∧ t.logged = s.logged + 1) ∧
      (1 ≤ n → n ≤ 4 → (teamsOn s c = [] → (t.core c).l1Size = n ∧ (t.core c).l1Pend = none) ∧
        (teamsOn s c ≠ [] → (t.core c).l1Size = (s.core c).l1Size ∧ t.mem = s.mem ∧
          (t.core c).l1Pend = if w.getLsbD 8 then (s.core c).l1Pend else some n))) ∧
    (∀ (j : Nat) (v : Word), v = w &&& 0xFFFFFE00 →
      (v.getLsbD 31 = true → (v.getLsbD 30 ≠ (s.core c).world ∨ ∃ e ∈ (s.core c).part, e.1 ≠ j ∧ e.2.getLsbD 31 = true ∧ partOverlap e.2 v = true) →
        exec (.corePartWrite c j w) s = .next (s.logDev 0 0xFF (unitOf 0 c) 0 (v.setWidth 64))) ∧
      (v.getLsbD 31 = false ∨ (v.getLsbD 30 = (s.core c).world ∧ ∀ e ∈ (s.core c).part, e.1 ≠ j → e.2.getLsbD 31 = true → partOverlap e.2 v = false) →
        exec (.corePartWrite c j w) s = .next { s with cores := Tab.put s.cores c { s.core c with part := Tab.put (s.core c).part j v } })) ∧
    (∀ (j : Nat) (o b : Bind), o = Tab.get (s.core c).binds j {} → b = { o with ctl := w ||| 1, queues := o.stQueues, slots := o.stSlots } →
      (commitWhy s c b = 0 → exec (.sltEntCommit c j w) s = .next { s with cores := Tab.put s.cores c { s.core c with binds := Tab.put (s.core c).binds j b } }) ∧
      (commitWhy s c b ≠ 0 → ∃ t, exec (.sltEntCommit c j w) s = .next t ∧ (t.core c).sltEnt = BitVec.ofNat 4 j ∧
        (t.core c).sltWhy = BitVec.ofNat 8 (commitWhy s c b) ∧ Tab.get (t.core c).binds j {} = { o with ctl := 0, queues := 0, slots := 0 }) ∧
      exec (.sltEntRevoke c j w) s = .next { s with cores := Tab.put s.cores c { s.core c with
        binds := Tab.put (s.core c).binds j { b with ctl := w &&& 0xFFFFFFFE } } }) ∧
    (w.getLsbD 31 = true → (w.extractLsb' 0 5).toNat < 4 ∨ 16 < (w.extractLsb' 0 5).toNat →
      exec (.lqCfgWrite c w) s = .next (s.logDev 0 0xFF (unitOf 4 c) 0 (w.setWidth 64))) ∧
    (w.getLsbD 31 = false ∨ (4 ≤ (w.extractLsb' 0 5).toNat ∧ (w.extractLsb' 0 5).toNat ≤ 16) →
      exec (.lqCfgWrite c w) s = .next { s with queues := Tab.put s.queues c { s.queue c with cfg := w &&& 0x80FFC01F } })) ∧
  (∀ (s : State) (x : Nat) (w : Word), ((s.ctx x).dbg = false → exec (.dbgCtlWrite x w) s = .next s ∧ ∃ t, exec (.dbgDropRead x) s = .next t ∧ t = { s with bus := 0 }) ∧
    ((s.ctx x).dbg = true →
      (w.getLsbD 3 = true → w.getLsbD 4 = true → exec (.dbgCtlWrite x w) s = .next (s.logDev 0 (BitVec.ofNat 8 x) 0 0 (w.setWidth 64))) ∧
      (w.getLsbD 3 = false ∨ w.getLsbD 4 = false → ∃ t, exec (.dbgCtlWrite x w) s = .next t ∧ t.mem = s.mem ∧ t.work = s.work ∧
        (∀ j, j < 32 → j ≠ 3 → j ≠ 4 → (t.ctx x).blk.ctl.getLsbD j = (w.getLsbD j && (j < 5 || 8 ≤ j))) ∧
        ((∃ e ∈ s.work.grids, e.2.ctx = x ∧ e.2.state = 2) →
          (t.ctx x).blk.ctl.getLsbD 3 = (s.ctx x).blk.ctl.getLsbD 3 ∧ (t.ctx x).blk.ctl.getLsbD 4 = (s.ctx x).blk.ctl.getLsbD 4) ∧
        ((∀ e ∈ s.work.grids, e.2.ctx = x → e.2.state ≠ 2) → (t.ctx x).blk.ctl.getLsbD 3 = w.getLsbD 3 ∧ (t.ctx x).blk.ctl.getLsbD 4 = w.getLsbD 4)) ∧
      ∃ t, exec (.dbgDropRead x) s = .next t ∧ t.bus = BitVec.ofNat 512 (s.ctx x).blk.drop.toNat ∧ (t.ctx x).blk = { (s.ctx x).blk with drop := 0 })) ∧
  (∀ (s : State) (c : Nat),
    exec (.trpCntRead c) s = .next { s with bus := BitVec.ofNat 512 (s.core c).trpCnt.toNat, cores := Tab.put s.cores c { s.core c with trpCnt := 0 } } ∧
    exec (.serrCntRead c) s = .next { s with bus := BitVec.ofNat 512 (s.core c).serrCnt.toNat, cores := Tab.put s.cores c { s.core c with serrCnt := 0 } } ∧
    exec (.sltStatRead c) s = .next { s with bus := BitVec.ofNat 512 ((s.core c).sltEnt.toNat * 256 + (s.core c).sltWhy.toNat), cores := Tab.put s.cores c { s.core c with sltEnt := 0, sltWhy := 0 } }) ∧
  (∀ (s : State) (x y : Nat) (v : DWord), x < 64 →
    (∃ t, exec (.registerWrite (.ctx x) (0x1000000 + 0x1000 * x) 8 v) s = .next t ∧ t = { s with ctxs := t.ctxs } ∧
      t.ctx x = { s.ctx x with pvec := v &&& 0x81FFFFFFFFFFFFFF }) ∧
    (∃ t, exec (.registerWrite (.ctx x) (0x1000000 + 0x1000 * x + 8) 8 v) s = .next t ∧ t = { s with ctxs := t.ctxs } ∧
      t.ctx x = { s.ctx x with uvec := v &&& 0x81FFFFFFFFFFFFFF }) ∧
    (∃ t, exec (.registerWrite (.ctx x) (0x1000000 + 0x1000 * x + 16) 8 v) s = .next t ∧ t = { s with ctxs := t.ctxs } ∧
      t.ctx x = { s.ctx x with tfb := v &&& 0x01FFFFFFFFFFFFC0 }) ∧
    (y ≠ x → ∀ o, o = 0 ∨ o = 8 ∨ o = 16 → exec (.registerWrite (.ctx y) (0x1000000 + 0x1000 * x + o) 8 v) s = .next s) ∧
    (∃ t, exec (.registerWrite (.ctx x) (0x1000000 + 0x1000 * x) 2 v) s = .next t ∧ t = { s with log := t.log, logged := s.logged + 1 }) ∧
    exec (.registerWrite .guidon 0x340000C 4 v) s = exec (.gdnHbwinWrite (v.setWidth 32)) s) ∧
  (∀ (s : State) (m : Nat),
    (64 ≤ boxArg s m 0 → ∃ t, exec (.mbCmdAttest m) s = .next t ∧ t = { s with boxes := t.boxes } ∧ boxOf t m = { boxOf s m with stat := 2 }) ∧
    (boxArg s m 1 < 1 ∨ 256 < boxArg s m 1 → ∃ t, exec (.mbCmdLogread m) s = .next t ∧ t = { s with boxes := t.boxes } ∧ boxOf t m = { boxOf s m with stat := 2 }) ∧
    (1 ≤ boxArg s m 1 → boxArg s m 1 ≤ 256 → s.log = [] → m < 4 → ∃ t, exec (.mbCmdLogread m) s = .next t ∧ t = { s with boxes := t.boxes } ∧
      boxOf t m = { boxOf s m with stat := 0 }) ∧
    ∀ (x va out : Nat) (bs : List Byte), m < 4 → x = boxArg s m 0 → va = boxArg s m 1 → out = boxArg s m 2 → x < 64 →
      (∀ a, (dirOf s a).st ≠ .b ∧ (dirOf s a).host = false ∧ (dirOf s a).pending = false) → s.home.hostHeld = [] →
      bs = reportBytes s x (homeBytes s va 32) ++ reportSignature (reportBytes s x (homeBytes s va 32)) →
      (∀ a ∈ [va, va + 31, out, out + bs.length - 1], hostReaches s a = true ∧ secureGranule s a = false) →
      ∃ t, exec (.mbCmdAttest m) s = .next t ∧ (boxOf t m).stat = 0 ∧ homeBytes t out bs.length = bs ∧
        ∀ a, a < out ∨ out + bs.length ≤ a → homeBytes t a 1 = homeBytes s a 1) ∧
  ∀ (s : State) (c x : Nat),
    ((s.ctx x).dbg = false ∨ (s.ctx x).blk.ctl.getLsbD 1 = false ∨ (s.ctx x).blk.smp.extractLsb' 0 24 = 0 → exec (.waveSample c x) s = .next s) ∧
    ((∀ e ∈ s.work.teams, e.2.core ≠ some c) → exec (.waveSample c x) s = .next s) ∧
    ∀ (n : Nat) (d : Dbg), d = (s.ctx x).blk → n = 2 ^ (d.bufn.toNat % 32) → (s.ctx x).dbg = true →
      (n ≤ (d.head - d.tail).toNat → (∀ k team h, d.ctl.getLsbD 1 = true → d.smp.extractLsb' 0 24 ≠ 0 → k < 128 → (s.core c).sampPos = k →
          slotOwner s c (k / 32) (k % 32) = some (team, h) → (s.grid (s.team team).grid).ctx = x →
          ∃ t, exec (.waveSample c x) s = .next t ∧ t.mem = s.mem ∧ t.work = s.work ∧ (t.ctx x).blk.drop = satInc d.drop 1 ∧ (t.ctx x).blk.head = d.head ∧
            t.core c = { s.core c with sampPos := (k + 1) % 128 }) ∧
        ∀ ord q slot bad cs, (s.core c).brk = some (ord, x, q, slot, bad) → ∃ t, exec (.breakdownRecord c cs) s = .next t ∧ t.mem = s.mem ∧
          t.core c = { s.core c with brk := none } ∧ (t.ctx x).blk.drop = satInc d.drop 1 ∧ (t.ctx x).blk.head = d.head) ∧
      ((d.head - d.tail).toNat < n → ∀ ord q slot bad cs u, (s.core c).brk = some (ord, x, q, slot, bad) →
        vaWrite (devWho x) { w := true } (d.buf.toNat + 32 * (d.head.toNat % n))
          (record (recordWord 2 0 c q slot) ord s.dtime ((List.range 8).flatMap fun k => natLe 2 (if bad && k == 7 then 0 else (cs.getD k 0).toNat)))
          (s.modCore c fun k => { k with brk := none }) = .ok u →
        exec (.breakdownRecord c cs) s = .next (u.modCtx x fun k => { k with blk := { k.blk with head := k.blk.head + 1 } }))
end

