-- ==== Sys2Proof/Laws/State.lean ====
section
/-!
SUPPORT. State.lean: one lemma for each field under each update of Access.lean, so that no proof unfolds a record
update.
-/
namespace Sys2Proof.Laws

open Machine

variable (s : State)

/-! ### setCore -/

@[simp] theorem setCore_mem (c : Nat) (x : Core) : (s.setCore c x).mem = s.mem := rfl
@[simp] theorem setCore_work (c : Nat) (x : Core) : (s.setCore c x).work = s.work := rfl
@[simp] theorem setCore_clusters (c : Nat) (x : Core) : (s.setCore c x).clusters = s.clusters := rfl
@[simp] theorem setCore_pairs (c : Nat) (x : Core) : (s.setCore c x).pairs = s.pairs := rfl
@[simp] theorem setCore_ctxs (c : Nat) (x : Core) : (s.setCore c x).ctxs = s.ctxs := rfl
@[simp] theorem setCore_queues (c : Nat) (x : Core) : (s.setCore c x).queues = s.queues := rfl
@[simp] theorem setCore_seqs (c : Nat) (x : Core) : (s.setCore c x).seqs = s.seqs := rfl
@[simp] theorem setCore_walks (c : Nat) (x : Core) : (s.setCore c x).walks = s.walks := rfl
@[simp] theorem setCore_home (c : Nat) (x : Core) : (s.setCore c x).home = s.home := rfl
@[simp] theorem setCore_worlds (c : Nat) (x : Core) : (s.setCore c x).worlds = s.worlds := rfl
@[simp] theorem setCore_fabric (c : Nat) (x : Core) : (s.setCore c x).fabric = s.fabric := rfl
@[simp] theorem setCore_banks (c : Nat) (x : Core) : (s.setCore c x).banks = s.banks := rfl
@[simp] theorem setCore_power (c : Nat) (x : Core) : (s.setCore c x).power = s.power := rfl
@[simp] theorem setCore_guidon (c : Nat) (x : Core) : (s.setCore c x).guidon = s.guidon := rfl
@[simp] theorem setCore_boot (c : Nat) (x : Core) : (s.setCore c x).boot = s.boot := rfl
@[simp] theorem setCore_boxes (c : Nat) (x : Core) : (s.setCore c x).boxes = s.boxes := rfl
@[simp] theorem setCore_log (c : Nat) (x : Core) : (s.setCore c x).log = s.log := rfl
@[simp] theorem setCore_logged (c : Nat) (x : Core) : (s.setCore c x).logged = s.logged := rfl
@[simp] theorem setCore_clock (c : Nat) (x : Core) : (s.setCore c x).clock = s.clock := rfl
@[simp] theorem setCore_dtime (c : Nat) (x : Core) : (s.setCore c x).dtime = s.dtime := rfl
@[simp] theorem setCore_tickRem (c : Nat) (x : Core) : (s.setCore c x).tickRem = s.tickRem := rfl
@[simp] theorem setCore_cur (c : Nat) (x : Core) : (s.setCore c x).cur = s.cur := rfl
@[simp] theorem setCore_agenda (c : Nat) (x : Core) : (s.setCore c x).agenda = s.agenda := rfl
@[simp] theorem setCore_free (c : Nat) (x : Core) : (s.setCore c x).free = s.free := rfl
@[simp] theorem setCore_bus (c : Nat) (x : Core) : (s.setCore c x).bus = s.bus := rfl
@[simp] theorem setCore_cores (c : Nat) (x : Core) : (s.setCore c x).cores = Tab.put s.cores c x := rfl

/-! ### modCore -/

@[simp] theorem modCore_mem (c : Nat) (g : Core → Core) : (s.modCore c g).mem = s.mem := rfl
@[simp] theorem modCore_work (c : Nat) (g : Core → Core) : (s.modCore c g).work = s.work := rfl
@[simp] theorem modCore_clusters (c : Nat) (g : Core → Core) : (s.modCore c g).clusters = s.clusters := rfl
@[simp] theorem modCore_pairs (c : Nat) (g : Core → Core) : (s.modCore c g).pairs = s.pairs := rfl
@[simp] theorem modCore_ctxs (c : Nat) (g : Core → Core) : (s.modCore c g).ctxs = s.ctxs := rfl
@[simp] theorem modCore_queues (c : Nat) (g : Core → Core) : (s.modCore c g).queues = s.queues := rfl
@[simp] theorem modCore_seqs (c : Nat) (g : Core → Core) : (s.modCore c g).seqs = s.seqs := rfl
@[simp] theorem modCore_walks (c : Nat) (g : Core → Core) : (s.modCore c g).walks = s.walks := rfl
@[simp] theorem modCore_home (c : Nat) (g : Core → Core) : (s.modCore c g).home = s.home := rfl
@[simp] theorem modCore_worlds (c : Nat) (g : Core → Core) : (s.modCore c g).worlds = s.worlds := rfl
@[simp] theorem modCore_fabric (c : Nat) (g : Core → Core) : (s.modCore c g).fabric = s.fabric := rfl
@[simp] theorem modCore_banks (c : Nat) (g : Core → Core) : (s.modCore c g).banks = s.banks := rfl
@[simp] theorem modCore_power (c : Nat) (g : Core → Core) : (s.modCore c g).power = s.power := rfl
@[simp] theorem modCore_guidon (c : Nat) (g : Core → Core) : (s.modCore c g).guidon = s.guidon := rfl
@[simp] theorem modCore_boot (c : Nat) (g : Core → Core) : (s.modCore c g).boot = s.boot := rfl
@[simp] theorem modCore_boxes (c : Nat) (g : Core → Core) : (s.modCore c g).boxes = s.boxes := rfl
@[simp] theorem modCore_log (c : Nat) (g : Core → Core) : (s.modCore c g).log = s.log := rfl
@[simp] theorem modCore_logged (c : Nat) (g : Core → Core) : (s.modCore c g).logged = s.logged := rfl
@[simp] theorem modCore_clock (c : Nat) (g : Core → Core) : (s.modCore c g).clock = s.clock := rfl
@[simp] theorem modCore_dtime (c : Nat) (g : Core → Core) : (s.modCore c g).dtime = s.dtime := rfl
@[simp] theorem modCore_tickRem (c : Nat) (g : Core → Core) : (s.modCore c g).tickRem = s.tickRem := rfl
@[simp] theorem modCore_cur (c : Nat) (g : Core → Core) : (s.modCore c g).cur = s.cur := rfl
@[simp] theorem modCore_agenda (c : Nat) (g : Core → Core) : (s.modCore c g).agenda = s.agenda := rfl
@[simp] theorem modCore_free (c : Nat) (g : Core → Core) : (s.modCore c g).free = s.free := rfl
@[simp] theorem modCore_bus (c : Nat) (g : Core → Core) : (s.modCore c g).bus = s.bus := rfl
@[simp] theorem modCore_cores (c : Nat) (g : Core → Core) : (s.modCore c g).cores = Tab.put s.cores c (g (s.core c)) := rfl

/-! ### modCluster -/

@[simp] theorem modCluster_mem (c : Nat) (g : Cluster → Cluster) : (s.modCluster c g).mem = s.mem := rfl
@[simp] theorem modCluster_work (c : Nat) (g : Cluster → Cluster) : (s.modCluster c g).work = s.work := rfl
@[simp] theorem modCluster_cores (c : Nat) (g : Cluster → Cluster) : (s.modCluster c g).cores = s.cores := rfl
@[simp] theorem modCluster_pairs (c : Nat) (g : Cluster → Cluster) : (s.modCluster c g).pairs = s.pairs := rfl
@[simp] theorem modCluster_ctxs (c : Nat) (g : Cluster → Cluster) : (s.modCluster c g).ctxs = s.ctxs := rfl
@[simp] theorem modCluster_queues (c : Nat) (g : Cluster → Cluster) : (s.modCluster c g).queues = s.queues := rfl
@[simp] theorem modCluster_seqs (c : Nat) (g : Cluster → Cluster) : (s.modCluster c g).seqs = s.seqs := rfl
@[simp] theorem modCluster_walks (c : Nat) (g : Cluster → Cluster) : (s.modCluster c g).walks = s.walks := rfl
@[simp] theorem modCluster_home (c : Nat) (g : Cluster → Cluster) : (s.modCluster c g).home = s.home := rfl
@[simp] theorem modCluster_worlds (c : Nat) (g : Cluster → Cluster) : (s.modCluster c g).worlds = s.worlds := rfl
@[simp] theorem modCluster_fabric (c : Nat) (g : Cluster → Cluster) : (s.modCluster c g).fabric = s.fabric := rfl
@[simp] theorem modCluster_banks (c : Nat) (g : Cluster → Cluster) : (s.modCluster c g).banks = s.banks := rfl
@[simp] theorem modCluster_power (c : Nat) (g : Cluster → Cluster) : (s.modCluster c g).power = s.power := rfl
@[simp] theorem modCluster_guidon (c : Nat) (g : Cluster → Cluster) : (s.modCluster c g).guidon = s.guidon := rfl
@[simp] theorem modCluster_boot (c : Nat) (g : Cluster → Cluster) : (s.modCluster c g).boot = s.boot := rfl
@[simp] theorem modCluster_boxes (c : Nat) (g : Cluster → Cluster) : (s.modCluster c g).boxes = s.boxes := rfl
@[simp] theorem modCluster_log (c : Nat) (g : Cluster → Cluster) : (s.modCluster c g).log = s.log := rfl
@[simp] theorem modCluster_logged (c : Nat) (g : Cluster → Cluster) : (s.modCluster c g).logged = s.logged := rfl
@[simp] theorem modCluster_clock (c : Nat) (g : Cluster → Cluster) : (s.modCluster c g).clock = s.clock := rfl
@[simp] theorem modCluster_dtime (c : Nat) (g : Cluster → Cluster) : (s.modCluster c g).dtime = s.dtime := rfl
@[simp] theorem modCluster_tickRem (c : Nat) (g : Cluster → Cluster) : (s.modCluster c g).tickRem = s.tickRem := rfl
@[simp] theorem modCluster_cur (c : Nat) (g : Cluster → Cluster) : (s.modCluster c g).cur = s.cur := rfl
@[simp] theorem modCluster_agenda (c : Nat) (g : Cluster → Cluster) : (s.modCluster c g).agenda = s.agenda := rfl
@[simp] theorem modCluster_free (c : Nat) (g : Cluster → Cluster) : (s.modCluster c g).free = s.free := rfl
@[simp] theorem modCluster_bus (c : Nat) (g : Cluster → Cluster) : (s.modCluster c g).bus = s.bus := rfl
@[simp] theorem modCluster_clusters (c : Nat) (g : Cluster → Cluster) : (s.modCluster c g).clusters = Tab.put s.clusters c (g (s.cluster c)) := rfl

/-! ### setPair -/

@[simp] theorem setPair_mem (p : Nat) (x : Pair) : (s.setPair p x).mem = s.mem := rfl
@[simp] theorem setPair_work (p : Nat) (x : Pair) : (s.setPair p x).work = s.work := rfl
@[simp] theorem setPair_cores (p : Nat) (x : Pair) : (s.setPair p x).cores = s.cores := rfl
@[simp] theorem setPair_clusters (p : Nat) (x : Pair) : (s.setPair p x).clusters = s.clusters := rfl
@[simp] theorem setPair_ctxs (p : Nat) (x : Pair) : (s.setPair p x).ctxs = s.ctxs := rfl
@[simp] theorem setPair_queues (p : Nat) (x : Pair) : (s.setPair p x).queues = s.queues := rfl
@[simp] theorem setPair_seqs (p : Nat) (x : Pair) : (s.setPair p x).seqs = s.seqs := rfl
@[simp] theorem setPair_walks (p : Nat) (x : Pair) : (s.setPair p x).walks = s.walks := rfl
@[simp] theorem setPair_home (p : Nat) (x : Pair) : (s.setPair p x).home = s.home := rfl
@[simp] theorem setPair_worlds (p : Nat) (x : Pair) : (s.setPair p x).worlds = s.worlds := rfl
@[simp] theorem setPair_fabric (p : Nat) (x : Pair) : (s.setPair p x).fabric = s.fabric := rfl
@[simp] theorem setPair_banks (p : Nat) (x : Pair) : (s.setPair p x).banks = s.banks := rfl
@[simp] theorem setPair_power (p : Nat) (x : Pair) : (s.setPair p x).power = s.power := rfl
@[simp] theorem setPair_guidon (p : Nat) (x : Pair) : (s.setPair p x).guidon = s.guidon := rfl
@[simp] theorem setPair_boot (p : Nat) (x : Pair) : (s.setPair p x).boot = s.boot := rfl
@[simp] theorem setPair_boxes (p : Nat) (x : Pair) : (s.setPair p x).boxes = s.boxes := rfl
@[simp] theorem setPair_log (p : Nat) (x : Pair) : (s.setPair p x).log = s.log := rfl
@[simp] theorem setPair_logged (p : Nat) (x : Pair) : (s.setPair p x).logged = s.logged := rfl
@[simp] theorem setPair_clock (p : Nat) (x : Pair) : (s.setPair p x).clock = s.clock := rfl
@[simp] theorem setPair_dtime (p : Nat) (x : Pair) : (s.setPair p x).dtime = s.dtime := rfl
@[simp] theorem setPair_tickRem (p : Nat) (x : Pair) : (s.setPair p x).tickRem = s.tickRem := rfl
@[simp] theorem setPair_cur (p : Nat) (x : Pair) : (s.setPair p x).cur = s.cur := rfl
@[simp] theorem setPair_agenda (p : Nat) (x : Pair) : (s.setPair p x).agenda = s.agenda := rfl
@[simp] theorem setPair_free (p : Nat) (x : Pair) : (s.setPair p x).free = s.free := rfl
@[simp] theorem setPair_bus (p : Nat) (x : Pair) : (s.setPair p x).bus = s.bus := rfl
@[simp] theorem setPair_pairs (p : Nat) (x : Pair) : (s.setPair p x).pairs = Tab.put s.pairs p x := rfl

/-! ### setCtx -/

@[simp] theorem setCtx_mem (k : Nat) (x : Ctx) : (s.setCtx k x).mem = s.mem := rfl
@[simp] theorem setCtx_work (k : Nat) (x : Ctx) : (s.setCtx k x).work = s.work := rfl
@[simp] theorem setCtx_cores (k : Nat) (x : Ctx) : (s.setCtx k x).cores = s.cores := rfl
@[simp] theorem setCtx_clusters (k : Nat) (x : Ctx) : (s.setCtx k x).clusters = s.clusters := rfl
@[simp] theorem setCtx_pairs (k : Nat) (x : Ctx) : (s.setCtx k x).pairs = s.pairs := rfl
@[simp] theorem setCtx_queues (k : Nat) (x : Ctx) : (s.setCtx k x).queues = s.queues := rfl
@[simp] theorem setCtx_seqs (k : Nat) (x : Ctx) : (s.setCtx k x).seqs = s.seqs := rfl
@[simp] theorem setCtx_walks (k : Nat) (x : Ctx) : (s.setCtx k x).walks = s.walks := rfl
@[simp] theorem setCtx_home (k : Nat) (x : Ctx) : (s.setCtx k x).home = s.home := rfl
@[simp] theorem setCtx_worlds (k : Nat) (x : Ctx) : (s.setCtx k x).worlds = s.worlds := rfl
@[simp] theorem setCtx_fabric (k : Nat) (x : Ctx) : (s.setCtx k x).fabric = s.fabric := rfl
@[simp] theorem setCtx_banks (k : Nat) (x : Ctx) : (s.setCtx k x).banks = s.banks := rfl
@[simp] theorem setCtx_power (k : Nat) (x : Ctx) : (s.setCtx k x).power = s.power := rfl
@[simp] theorem setCtx_guidon (k : Nat) (x : Ctx) : (s.setCtx k x).guidon = s.guidon := rfl
@[simp] theorem setCtx_boot (k : Nat) (x : Ctx) : (s.setCtx k x).boot = s.boot := rfl
@[simp] theorem setCtx_boxes (k : Nat) (x : Ctx) : (s.setCtx k x).boxes = s.boxes := rfl
@[simp] theorem setCtx_log (k : Nat) (x : Ctx) : (s.setCtx k x).log = s.log := rfl
@[simp] theorem setCtx_logged (k : Nat) (x : Ctx) : (s.setCtx k x).logged = s.logged := rfl
@[simp] theorem setCtx_clock (k : Nat) (x : Ctx) : (s.setCtx k x).clock = s.clock := rfl
@[simp] theorem setCtx_dtime (k : Nat) (x : Ctx) : (s.setCtx k x).dtime = s.dtime := rfl
@[simp] theorem setCtx_tickRem (k : Nat) (x : Ctx) : (s.setCtx k x).tickRem = s.tickRem := rfl
@[simp] theorem setCtx_cur (k : Nat) (x : Ctx) : (s.setCtx k x).cur = s.cur := rfl
@[simp] theorem setCtx_agenda (k : Nat) (x : Ctx) : (s.setCtx k x).agenda = s.agenda := rfl
@[simp] theorem setCtx_free (k : Nat) (x : Ctx) : (s.setCtx k x).free = s.free := rfl
@[simp] theorem setCtx_bus (k : Nat) (x : Ctx) : (s.setCtx k x).bus = s.bus := rfl
@[simp] theorem setCtx_ctxs (k : Nat) (x : Ctx) : (s.setCtx k x).ctxs = Tab.put s.ctxs k x := rfl

/-! ### modCtx -/

@[simp] theorem modCtx_mem (k : Nat) (g : Ctx → Ctx) : (s.modCtx k g).mem = s.mem := rfl
@[simp] theorem modCtx_work (k : Nat) (g : Ctx → Ctx) : (s.modCtx k g).work = s.work := rfl
@[simp] theorem modCtx_cores (k : Nat) (g : Ctx → Ctx) : (s.modCtx k g).cores = s.cores := rfl
@[simp] theorem modCtx_clusters (k : Nat) (g : Ctx → Ctx) : (s.modCtx k g).clusters = s.clusters := rfl
@[simp] theorem modCtx_pairs (k : Nat) (g : Ctx → Ctx) : (s.modCtx k g).pairs = s.pairs := rfl
@[simp] theorem modCtx_queues (k : Nat) (g : Ctx → Ctx) : (s.modCtx k g).queues = s.queues := rfl
@[simp] theorem modCtx_seqs (k : Nat) (g : Ctx → Ctx) : (s.modCtx k g).seqs = s.seqs := rfl
@[simp] theorem modCtx_walks (k : Nat) (g : Ctx → Ctx) : (s.modCtx k g).walks = s.walks := rfl
@[simp] theorem modCtx_home (k : Nat) (g : Ctx → Ctx) : (s.modCtx k g).home = s.home := rfl
@[simp] theorem modCtx_worlds (k : Nat) (g : Ctx → Ctx) : (s.modCtx k g).worlds = s.worlds := rfl
@[simp] theorem modCtx_fabric (k : Nat) (g : Ctx → Ctx) : (s.modCtx k g).fabric = s.fabric := rfl
@[simp] theorem modCtx_banks (k : Nat) (g : Ctx → Ctx) : (s.modCtx k g).banks = s.banks := rfl
@[simp] theorem modCtx_power (k : Nat) (g : Ctx → Ctx) : (s.modCtx k g).power = s.power := rfl
@[simp] theorem modCtx_guidon (k : Nat) (g : Ctx → Ctx) : (s.modCtx k g).guidon = s.guidon := rfl
@[simp] theorem modCtx_boot (k : Nat) (g : Ctx → Ctx) : (s.modCtx k g).boot = s.boot := rfl
@[simp] theorem modCtx_boxes (k : Nat) (g : Ctx → Ctx) : (s.modCtx k g).boxes = s.boxes := rfl
@[simp] theorem modCtx_log (k : Nat) (g : Ctx → Ctx) : (s.modCtx k g).log = s.log := rfl
@[simp] theorem modCtx_logged (k : Nat) (g : Ctx → Ctx) : (s.modCtx k g).logged = s.logged := rfl
@[simp] theorem modCtx_clock (k : Nat) (g : Ctx → Ctx) : (s.modCtx k g).clock = s.clock := rfl
@[simp] theorem modCtx_dtime (k : Nat) (g : Ctx → Ctx) : (s.modCtx k g).dtime = s.dtime := rfl
@[simp] theorem modCtx_tickRem (k : Nat) (g : Ctx → Ctx) : (s.modCtx k g).tickRem = s.tickRem := rfl
@[simp] theorem modCtx_cur (k : Nat) (g : Ctx → Ctx) : (s.modCtx k g).cur = s.cur := rfl
@[simp] theorem modCtx_agenda (k : Nat) (g : Ctx → Ctx) : (s.modCtx k g).agenda = s.agenda := rfl
@[simp] theorem modCtx_free (k : Nat) (g : Ctx → Ctx) : (s.modCtx k g).free = s.free := rfl
@[simp] theorem modCtx_bus (k : Nat) (g : Ctx → Ctx) : (s.modCtx k g).bus = s.bus := rfl
@[simp] theorem modCtx_ctxs (k : Nat) (g : Ctx → Ctx) : (s.modCtx k g).ctxs = Tab.put s.ctxs k (g (s.ctx k)) := rfl

/-! ### modQueue -/

@[simp] theorem modQueue_mem (q : Nat) (g : Queue → Queue) : (s.modQueue q g).mem = s.mem := rfl
@[simp] theorem modQueue_work (q : Nat) (g : Queue → Queue) : (s.modQueue q g).work = s.work := rfl
@[simp] theorem modQueue_cores (q : Nat) (g : Queue → Queue) : (s.modQueue q g).cores = s.cores := rfl
@[simp] theorem modQueue_clusters (q : Nat) (g : Queue → Queue) : (s.modQueue q g).clusters = s.clusters := rfl
@[simp] theorem modQueue_pairs (q : Nat) (g : Queue → Queue) : (s.modQueue q g).pairs = s.pairs := rfl
@[simp] theorem modQueue_ctxs (q : Nat) (g : Queue → Queue) : (s.modQueue q g).ctxs = s.ctxs := rfl
@[simp] theorem modQueue_seqs (q : Nat) (g : Queue → Queue) : (s.modQueue q g).seqs = s.seqs := rfl
@[simp] theorem modQueue_walks (q : Nat) (g : Queue → Queue) : (s.modQueue q g).walks = s.walks := rfl
@[simp] theorem modQueue_home (q : Nat) (g : Queue → Queue) : (s.modQueue q g).home = s.home := rfl
@[simp] theorem modQueue_worlds (q : Nat) (g : Queue → Queue) : (s.modQueue q g).worlds = s.worlds := rfl
@[simp] theorem modQueue_fabric (q : Nat) (g : Queue → Queue) : (s.modQueue q g).fabric = s.fabric := rfl
@[simp] theorem modQueue_banks (q : Nat) (g : Queue → Queue) : (s.modQueue q g).banks = s.banks := rfl
@[simp] theorem modQueue_power (q : Nat) (g : Queue → Queue) : (s.modQueue q g).power = s.power := rfl
@[simp] theorem modQueue_guidon (q : Nat) (g : Queue → Queue) : (s.modQueue q g).guidon = s.guidon := rfl
@[simp] theorem modQueue_boot (q : Nat) (g : Queue → Queue) : (s.modQueue q g).boot = s.boot := rfl
@[simp] theorem modQueue_boxes (q : Nat) (g : Queue → Queue) : (s.modQueue q g).boxes = s.boxes := rfl
@[simp] theorem modQueue_log (q : Nat) (g : Queue → Queue) : (s.modQueue q g).log = s.log := rfl
@[simp] theorem modQueue_logged (q : Nat) (g : Queue → Queue) : (s.modQueue q g).logged = s.logged := rfl
@[simp] theorem modQueue_clock (q : Nat) (g : Queue → Queue) : (s.modQueue q g).clock = s.clock := rfl
@[simp] theorem modQueue_dtime (q : Nat) (g : Queue → Queue) : (s.modQueue q g).dtime = s.dtime := rfl
@[simp] theorem modQueue_tickRem (q : Nat) (g : Queue → Queue) : (s.modQueue q g).tickRem = s.tickRem := rfl
@[simp] theorem modQueue_cur (q : Nat) (g : Queue → Queue) : (s.modQueue q g).cur = s.cur := rfl
@[simp] theorem modQueue_agenda (q : Nat) (g : Queue → Queue) : (s.modQueue q g).agenda = s.agenda := rfl
@[simp] theorem modQueue_free (q : Nat) (g : Queue → Queue) : (s.modQueue q g).free = s.free := rfl
@[simp] theorem modQueue_bus (q : Nat) (g : Queue → Queue) : (s.modQueue q g).bus = s.bus := rfl
@[simp] theorem modQueue_queues (q : Nat) (g : Queue → Queue) : (s.modQueue q g).queues = Tab.put s.queues q (g (s.queue q)) := rfl

/-! ### modHome -/

@[simp] theorem modHome_mem (g : Home → Home) : (s.modHome g).mem = s.mem := rfl
@[simp] theorem modHome_work (g : Home → Home) : (s.modHome g).work = s.work := rfl
@[simp] theorem modHome_cores (g : Home → Home) : (s.modHome g).cores = s.cores := rfl
@[simp] theorem modHome_clusters (g : Home → Home) : (s.modHome g).clusters = s.clusters := rfl
@[simp] theorem modHome_pairs (g : Home → Home) : (s.modHome g).pairs = s.pairs := rfl
@[simp] theorem modHome_ctxs (g : Home → Home) : (s.modHome g).ctxs = s.ctxs := rfl
@[simp] theorem modHome_queues (g : Home → Home) : (s.modHome g).queues = s.queues := rfl
@[simp] theorem modHome_seqs (g : Home → Home) : (s.modHome g).seqs = s.seqs := rfl
@[simp] theorem modHome_walks (g : Home → Home) : (s.modHome g).walks = s.walks := rfl
@[simp] theorem modHome_worlds (g : Home → Home) : (s.modHome g).worlds = s.worlds := rfl
@[simp] theorem modHome_fabric (g : Home → Home) : (s.modHome g).fabric = s.fabric := rfl
@[simp] theorem modHome_banks (g : Home → Home) : (s.modHome g).banks = s.banks := rfl
@[simp] theorem modHome_power (g : Home → Home) : (s.modHome g).power = s.power := rfl
@[simp] theorem modHome_guidon (g : Home → Home) : (s.modHome g).guidon = s.guidon := rfl
@[simp] theorem modHome_boot (g : Home → Home) : (s.modHome g).boot = s.boot := rfl
@[simp] theorem modHome_boxes (g : Home → Home) : (s.modHome g).boxes = s.boxes := rfl
@[simp] theorem modHome_log (g : Home → Home) : (s.modHome g).log = s.log := rfl
@[simp] theorem modHome_logged (g : Home → Home) : (s.modHome g).logged = s.logged := rfl
@[simp] theorem modHome_clock (g : Home → Home) : (s.modHome g).clock = s.clock := rfl
@[simp] theorem modHome_dtime (g : Home → Home) : (s.modHome g).dtime = s.dtime := rfl
@[simp] theorem modHome_tickRem (g : Home → Home) : (s.modHome g).tickRem = s.tickRem := rfl
@[simp] theorem modHome_cur (g : Home → Home) : (s.modHome g).cur = s.cur := rfl
@[simp] theorem modHome_agenda (g : Home → Home) : (s.modHome g).agenda = s.agenda := rfl
@[simp] theorem modHome_free (g : Home → Home) : (s.modHome g).free = s.free := rfl
@[simp] theorem modHome_bus (g : Home → Home) : (s.modHome g).bus = s.bus := rfl
@[simp] theorem modHome_home (g : Home → Home) : (s.modHome g).home = g s.home := rfl

/-! ### modFabric -/

@[simp] theorem modFabric_mem (g : Fabric → Fabric) : (s.modFabric g).mem = s.mem := rfl
@[simp] theorem modFabric_work (g : Fabric → Fabric) : (s.modFabric g).work = s.work := rfl
@[simp] theorem modFabric_cores (g : Fabric → Fabric) : (s.modFabric g).cores = s.cores := rfl
@[simp] theorem modFabric_clusters (g : Fabric → Fabric) : (s.modFabric g).clusters = s.clusters := rfl
@[simp] theorem modFabric_pairs (g : Fabric → Fabric) : (s.modFabric g).pairs = s.pairs := rfl
@[simp] theorem modFabric_ctxs (g : Fabric → Fabric) : (s.modFabric g).ctxs = s.ctxs := rfl
@[simp] theorem modFabric_queues (g : Fabric → Fabric) : (s.modFabric g).queues = s.queues := rfl
@[simp] theorem modFabric_seqs (g : Fabric → Fabric) : (s.modFabric g).seqs = s.seqs := rfl
@[simp] theorem modFabric_walks (g : Fabric → Fabric) : (s.modFabric g).walks = s.walks := rfl
@[simp] theorem modFabric_home (g : Fabric → Fabric) : (s.modFabric g).home = s.home := rfl
@[simp] theorem modFabric_worlds (g : Fabric → Fabric) : (s.modFabric g).worlds = s.worlds := rfl
@[simp] theorem modFabric_banks (g : Fabric → Fabric) : (s.modFabric g).banks = s.banks := rfl
@[simp] theorem modFabric_power (g : Fabric → Fabric) : (s.modFabric g).power = s.power := rfl
@[simp] theorem modFabric_guidon (g : Fabric → Fabric) : (s.modFabric g).guidon = s.guidon := rfl
@[simp] theorem modFabric_boot (g : Fabric → Fabric) : (s.modFabric g).boot = s.boot := rfl
@[simp] theorem modFabric_boxes (g : Fabric → Fabric) : (s.modFabric g).boxes = s.boxes := rfl
@[simp] theorem modFabric_log (g : Fabric → Fabric) : (s.modFabric g).log = s.log := rfl
@[simp] theorem modFabric_logged (g : Fabric → Fabric) : (s.modFabric g).logged = s.logged := rfl
@[simp] theorem modFabric_clock (g : Fabric → Fabric) : (s.modFabric g).clock = s.clock := rfl
@[simp] theorem modFabric_dtime (g : Fabric → Fabric) : (s.modFabric g).dtime = s.dtime := rfl
@[simp] theorem modFabric_tickRem (g : Fabric → Fabric) : (s.modFabric g).tickRem = s.tickRem := rfl
@[simp] theorem modFabric_cur (g : Fabric → Fabric) : (s.modFabric g).cur = s.cur := rfl
@[simp] theorem modFabric_agenda (g : Fabric → Fabric) : (s.modFabric g).agenda = s.agenda := rfl
@[simp] theorem modFabric_free (g : Fabric → Fabric) : (s.modFabric g).free = s.free := rfl
@[simp] theorem modFabric_bus (g : Fabric → Fabric) : (s.modFabric g).bus = s.bus := rfl
@[simp] theorem modFabric_fabric (g : Fabric → Fabric) : (s.modFabric g).fabric = g s.fabric := rfl

/-! ### modWork -/

@[simp] theorem modWork_mem (g : Work → Work) : (s.modWork g).mem = s.mem := rfl
@[simp] theorem modWork_cores (g : Work → Work) : (s.modWork g).cores = s.cores := rfl
@[simp] theorem modWork_clusters (g : Work → Work) : (s.modWork g).clusters = s.clusters := rfl
@[simp] theorem modWork_pairs (g : Work → Work) : (s.modWork g).pairs = s.pairs := rfl
@[simp] theorem modWork_ctxs (g : Work → Work) : (s.modWork g).ctxs = s.ctxs := rfl
@[simp] theorem modWork_queues (g : Work → Work) : (s.modWork g).queues = s.queues := rfl
@[simp] theorem modWork_seqs (g : Work → Work) : (s.modWork g).seqs = s.seqs := rfl
@[simp] theorem modWork_walks (g : Work → Work) : (s.modWork g).walks = s.walks := rfl
@[simp] theorem modWork_home (g : Work → Work) : (s.modWork g).home = s.home := rfl
@[simp] theorem modWork_worlds (g : Work → Work) : (s.modWork g).worlds = s.worlds := rfl
@[simp] theorem modWork_fabric (g : Work → Work) : (s.modWork g).fabric = s.fabric := rfl
@[simp] theorem modWork_banks (g : Work → Work) : (s.modWork g).banks = s.banks := rfl
@[simp] theorem modWork_power (g : Work → Work) : (s.modWork g).power = s.power := rfl
@[simp] theorem modWork_guidon (g : Work → Work) : (s.modWork g).guidon = s.guidon := rfl
@[simp] theorem modWork_boot (g : Work → Work) : (s.modWork g).boot = s.boot := rfl
@[simp] theorem modWork_boxes (g : Work → Work) : (s.modWork g).boxes = s.boxes := rfl
@[simp] theorem modWork_log (g : Work → Work) : (s.modWork g).log = s.log := rfl
@[simp] theorem modWork_logged (g : Work → Work) : (s.modWork g).logged = s.logged := rfl
@[simp] theorem modWork_clock (g : Work → Work) : (s.modWork g).clock = s.clock := rfl
@[simp] theorem modWork_dtime (g : Work → Work) : (s.modWork g).dtime = s.dtime := rfl
@[simp] theorem modWork_tickRem (g : Work → Work) : (s.modWork g).tickRem = s.tickRem := rfl
@[simp] theorem modWork_cur (g : Work → Work) : (s.modWork g).cur = s.cur := rfl
@[simp] theorem modWork_agenda (g : Work → Work) : (s.modWork g).agenda = s.agenda := rfl
@[simp] theorem modWork_free (g : Work → Work) : (s.modWork g).free = s.free := rfl
@[simp] theorem modWork_bus (g : Work → Work) : (s.modWork g).bus = s.bus := rfl
@[simp] theorem modWork_work (g : Work → Work) : (s.modWork g).work = g s.work := rfl

/-! ### setThread -/

@[simp] theorem setThread_mem (k : Nat) (x : Thread) : (s.setThread k x).mem = s.mem := rfl
@[simp] theorem setThread_cores (k : Nat) (x : Thread) : (s.setThread k x).cores = s.cores := rfl
@[simp] theorem setThread_clusters (k : Nat) (x : Thread) : (s.setThread k x).clusters = s.clusters := rfl
@[simp] theorem setThread_pairs (k : Nat) (x : Thread) : (s.setThread k x).pairs = s.pairs := rfl
@[simp] theorem setThread_ctxs (k : Nat) (x : Thread) : (s.setThread k x).ctxs = s.ctxs := rfl
@[simp] theorem setThread_queues (k : Nat) (x : Thread) : (s.setThread k x).queues = s.queues := rfl
@[simp] theorem setThread_seqs (k : Nat) (x : Thread) : (s.setThread k x).seqs = s.seqs := rfl
@[simp] theorem setThread_walks (k : Nat) (x : Thread) : (s.setThread k x).walks = s.walks := rfl
@[simp] theorem setThread_home (k : Nat) (x : Thread) : (s.setThread k x).home = s.home := rfl
@[simp] theorem setThread_worlds (k : Nat) (x : Thread) : (s.setThread k x).worlds = s.worlds := rfl
@[simp] theorem setThread_fabric (k : Nat) (x : Thread) : (s.setThread k x).fabric = s.fabric := rfl
@[simp] theorem setThread_banks (k : Nat) (x : Thread) : (s.setThread k x).banks = s.banks := rfl
@[simp] theorem setThread_power (k : Nat) (x : Thread) : (s.setThread k x).power = s.power := rfl
@[simp] theorem setThread_guidon (k : Nat) (x : Thread) : (s.setThread k x).guidon = s.guidon := rfl
@[simp] theorem setThread_boot (k : Nat) (x : Thread) : (s.setThread k x).boot = s.boot := rfl
@[simp] theorem setThread_boxes (k : Nat) (x : Thread) : (s.setThread k x).boxes = s.boxes := rfl
@[simp] theorem setThread_log (k : Nat) (x : Thread) : (s.setThread k x).log = s.log := rfl
@[simp] theorem setThread_logged (k : Nat) (x : Thread) : (s.setThread k x).logged = s.logged := rfl
@[simp] theorem setThread_clock (k : Nat) (x : Thread) : (s.setThread k x).clock = s.clock := rfl
@[simp] theorem setThread_dtime (k : Nat) (x : Thread) : (s.setThread k x).dtime = s.dtime := rfl
@[simp] theorem setThread_tickRem (k : Nat) (x : Thread) : (s.setThread k x).tickRem = s.tickRem := rfl
@[simp] theorem setThread_cur (k : Nat) (x : Thread) : (s.setThread k x).cur = s.cur := rfl
@[simp] theorem setThread_agenda (k : Nat) (x : Thread) : (s.setThread k x).agenda = s.agenda := rfl
@[simp] theorem setThread_free (k : Nat) (x : Thread) : (s.setThread k x).free = s.free := rfl
@[simp] theorem setThread_bus (k : Nat) (x : Thread) : (s.setThread k x).bus = s.bus := rfl
@[simp] theorem setThread_threads (k : Nat) (x : Thread) : (s.setThread k x).work.threads = Tab.put s.work.threads k x := rfl
@[simp] theorem setThread_waves (k : Nat) (x : Thread) : (s.setThread k x).work.waves = s.work.waves := rfl
@[simp] theorem setThread_teams (k : Nat) (x : Thread) : (s.setThread k x).work.teams = s.work.teams := rfl
@[simp] theorem setThread_grids (k : Nat) (x : Thread) : (s.setThread k x).work.grids = s.work.grids := rfl
@[simp] theorem setThread_tasks (k : Nat) (x : Thread) : (s.setThread k x).work.tasks = s.work.tasks := rfl
@[simp] theorem setThread_groups (k : Nat) (x : Thread) : (s.setThread k x).work.groups = s.work.groups := rfl
@[simp] theorem setThread_lineages (k : Nat) (x : Thread) : (s.setThread k x).work.lineages = s.work.lineages := rfl
@[simp] theorem setThread_nextThread (k : Nat) (x : Thread) : (s.setThread k x).work.nextThread = s.work.nextThread := rfl
@[simp] theorem setThread_nextWave (k : Nat) (x : Thread) : (s.setThread k x).work.nextWave = s.work.nextWave := rfl
@[simp] theorem setThread_nextTeam (k : Nat) (x : Thread) : (s.setThread k x).work.nextTeam = s.work.nextTeam := rfl
@[simp] theorem setThread_nextGrid (k : Nat) (x : Thread) : (s.setThread k x).work.nextGrid = s.work.nextGrid := rfl
@[simp] theorem setThread_nextTask (k : Nat) (x : Thread) : (s.setThread k x).work.nextTask = s.work.nextTask := rfl
@[simp] theorem setThread_nextGroup (k : Nat) (x : Thread) : (s.setThread k x).work.nextGroup = s.work.nextGroup := rfl
@[simp] theorem setThread_nextLineage (k : Nat) (x : Thread) : (s.setThread k x).work.nextLineage = s.work.nextLineage := rfl
@[simp] theorem setThread_nextCopy (k : Nat) (x : Thread) : (s.setThread k x).work.nextCopy = s.work.nextCopy := rfl

/-! ### setWave -/

@[simp] theorem setWave_mem (k : Nat) (x : Wave) : (s.setWave k x).mem = s.mem := rfl
@[simp] theorem setWave_cores (k : Nat) (x : Wave) : (s.setWave k x).cores = s.cores := rfl
@[simp] theorem setWave_clusters (k : Nat) (x : Wave) : (s.setWave k x).clusters = s.clusters := rfl
@[simp] theorem setWave_pairs (k : Nat) (x : Wave) : (s.setWave k x).pairs = s.pairs := rfl
@[simp] theorem setWave_ctxs (k : Nat) (x : Wave) : (s.setWave k x).ctxs = s.ctxs := rfl
@[simp] theorem setWave_queues (k : Nat) (x : Wave) : (s.setWave k x).queues = s.queues := rfl
@[simp] theorem setWave_seqs (k : Nat) (x : Wave) : (s.setWave k x).seqs = s.seqs := rfl
@[simp] theorem setWave_walks (k : Nat) (x : Wave) : (s.setWave k x).walks = s.walks := rfl
@[simp] theorem setWave_home (k : Nat) (x : Wave) : (s.setWave k x).home = s.home := rfl
@[simp] theorem setWave_worlds (k : Nat) (x : Wave) : (s.setWave k x).worlds = s.worlds := rfl
@[simp] theorem setWave_fabric (k : Nat) (x : Wave) : (s.setWave k x).fabric = s.fabric := rfl
@[simp] theorem setWave_banks (k : Nat) (x : Wave) : (s.setWave k x).banks = s.banks := rfl
@[simp] theorem setWave_power (k : Nat) (x : Wave) : (s.setWave k x).power = s.power := rfl
@[simp] theorem setWave_guidon (k : Nat) (x : Wave) : (s.setWave k x).guidon = s.guidon := rfl
@[simp] theorem setWave_boot (k : Nat) (x : Wave) : (s.setWave k x).boot = s.boot := rfl
@[simp] theorem setWave_boxes (k : Nat) (x : Wave) : (s.setWave k x).boxes = s.boxes := rfl
@[simp] theorem setWave_log (k : Nat) (x : Wave) : (s.setWave k x).log = s.log := rfl
@[simp] theorem setWave_logged (k : Nat) (x : Wave) : (s.setWave k x).logged = s.logged := rfl
@[simp] theorem setWave_clock (k : Nat) (x : Wave) : (s.setWave k x).clock = s.clock := rfl
@[simp] theorem setWave_dtime (k : Nat) (x : Wave) : (s.setWave k x).dtime = s.dtime := rfl
@[simp] theorem setWave_tickRem (k : Nat) (x : Wave) : (s.setWave k x).tickRem = s.tickRem := rfl
@[simp] theorem setWave_cur (k : Nat) (x : Wave) : (s.setWave k x).cur = s.cur := rfl
@[simp] theorem setWave_agenda (k : Nat) (x : Wave) : (s.setWave k x).agenda = s.agenda := rfl
@[simp] theorem setWave_free (k : Nat) (x : Wave) : (s.setWave k x).free = s.free := rfl
@[simp] theorem setWave_bus (k : Nat) (x : Wave) : (s.setWave k x).bus = s.bus := rfl
@[simp] theorem setWave_threads (k : Nat) (x : Wave) : (s.setWave k x).work.threads = s.work.threads := rfl
@[simp] theorem setWave_waves (k : Nat) (x : Wave) : (s.setWave k x).work.waves = Tab.put s.work.waves k x := rfl
@[simp] theorem setWave_teams (k : Nat) (x : Wave) : (s.setWave k x).work.teams = s.work.teams := rfl
@[simp] theorem setWave_grids (k : Nat) (x : Wave) : (s.setWave k x).work.grids = s.work.grids := rfl
@[simp] theorem setWave_tasks (k : Nat) (x : Wave) : (s.setWave k x).work.tasks = s.work.tasks := rfl
@[simp] theorem setWave_groups (k : Nat) (x : Wave) : (s.setWave k x).work.groups = s.work.groups := rfl
@[simp] theorem setWave_lineages (k : Nat) (x : Wave) : (s.setWave k x).work.lineages = s.work.lineages := rfl
@[simp] theorem setWave_nextThread (k : Nat) (x : Wave) : (s.setWave k x).work.nextThread = s.work.nextThread := rfl
@[simp] theorem setWave_nextWave (k : Nat) (x : Wave) : (s.setWave k x).work.nextWave = s.work.nextWave := rfl
@[simp] theorem setWave_nextTeam (k : Nat) (x : Wave) : (s.setWave k x).work.nextTeam = s.work.nextTeam := rfl
@[simp] theorem setWave_nextGrid (k : Nat) (x : Wave) : (s.setWave k x).work.nextGrid = s.work.nextGrid := rfl
@[simp] theorem setWave_nextTask (k : Nat) (x : Wave) : (s.setWave k x).work.nextTask = s.work.nextTask := rfl
@[simp] theorem setWave_nextGroup (k : Nat) (x : Wave) : (s.setWave k x).work.nextGroup = s.work.nextGroup := rfl
@[simp] theorem setWave_nextLineage (k : Nat) (x : Wave) : (s.setWave k x).work.nextLineage = s.work.nextLineage := rfl
@[simp] theorem setWave_nextCopy (k : Nat) (x : Wave) : (s.setWave k x).work.nextCopy = s.work.nextCopy := rfl

/-! ### delWave -/

@[simp] theorem delWave_mem (k : Nat) : (s.delWave k).mem = s.mem := rfl
@[simp] theorem delWave_cores (k : Nat) : (s.delWave k).cores = s.cores := rfl
@[simp] theorem delWave_clusters (k : Nat) : (s.delWave k).clusters = s.clusters := rfl
@[simp] theorem delWave_pairs (k : Nat) : (s.delWave k).pairs = s.pairs := rfl
@[simp] theorem delWave_ctxs (k : Nat) : (s.delWave k).ctxs = s.ctxs := rfl
@[simp] theorem delWave_queues (k : Nat) : (s.delWave k).queues = s.queues := rfl
@[simp] theorem delWave_seqs (k : Nat) : (s.delWave k).seqs = s.seqs := rfl
@[simp] theorem delWave_walks (k : Nat) : (s.delWave k).walks = s.walks := rfl
@[simp] theorem delWave_home (k : Nat) : (s.delWave k).home = s.home := rfl
@[simp] theorem delWave_worlds (k : Nat) : (s.delWave k).worlds = s.worlds := rfl
@[simp] theorem delWave_fabric (k : Nat) : (s.delWave k).fabric = s.fabric := rfl
@[simp] theorem delWave_banks (k : Nat) : (s.delWave k).banks = s.banks := rfl
@[simp] theorem delWave_power (k : Nat) : (s.delWave k).power = s.power := rfl
@[simp] theorem delWave_guidon (k : Nat) : (s.delWave k).guidon = s.guidon := rfl
@[simp] theorem delWave_boot (k : Nat) : (s.delWave k).boot = s.boot := rfl
@[simp] theorem delWave_boxes (k : Nat) : (s.delWave k).boxes = s.boxes := rfl
@[simp] theorem delWave_log (k : Nat) : (s.delWave k).log = s.log := rfl
@[simp] theorem delWave_logged (k : Nat) : (s.delWave k).logged = s.logged := rfl
@[simp] theorem delWave_clock (k : Nat) : (s.delWave k).clock = s.clock := rfl
@[simp] theorem delWave_dtime (k : Nat) : (s.delWave k).dtime = s.dtime := rfl
@[simp] theorem delWave_tickRem (k : Nat) : (s.delWave k).tickRem = s.tickRem := rfl
@[simp] theorem delWave_cur (k : Nat) : (s.delWave k).cur = s.cur := rfl
@[simp] theorem delWave_agenda (k : Nat) : (s.delWave k).agenda = s.agenda := rfl
@[simp] theorem delWave_free (k : Nat) : (s.delWave k).free = s.free := rfl
@[simp] theorem delWave_bus (k : Nat) : (s.delWave k).bus = s.bus := rfl
@[simp] theorem delWave_threads (k : Nat) : (s.delWave k).work.threads = s.work.threads := rfl
@[simp] theorem delWave_waves (k : Nat) : (s.delWave k).work.waves = Tab.del s.work.waves k := rfl
@[simp] theorem delWave_teams (k : Nat) : (s.delWave k).work.teams = s.work.teams := rfl
@[simp] theorem delWave_grids (k : Nat) : (s.delWave k).work.grids = s.work.grids := rfl
@[simp] theorem delWave_tasks (k : Nat) : (s.delWave k).work.tasks = s.work.tasks := rfl
@[simp] theorem delWave_groups (k : Nat) : (s.delWave k).work.groups = s.work.groups := rfl
@[simp] theorem delWave_lineages (k : Nat) : (s.delWave k).work.lineages = s.work.lineages := rfl
@[simp] theorem delWave_nextThread (k : Nat) : (s.delWave k).work.nextThread = s.work.nextThread := rfl
@[simp] theorem delWave_nextWave (k : Nat) : (s.delWave k).work.nextWave = s.work.nextWave := rfl
@[simp] theorem delWave_nextTeam (k : Nat) : (s.delWave k).work.nextTeam = s.work.nextTeam := rfl
@[simp] theorem delWave_nextGrid (k : Nat) : (s.delWave k).work.nextGrid = s.work.nextGrid := rfl
@[simp] theorem delWave_nextTask (k : Nat) : (s.delWave k).work.nextTask = s.work.nextTask := rfl
@[simp] theorem delWave_nextGroup (k : Nat) : (s.delWave k).work.nextGroup = s.work.nextGroup := rfl
@[simp] theorem delWave_nextLineage (k : Nat) : (s.delWave k).work.nextLineage = s.work.nextLineage := rfl
@[simp] theorem delWave_nextCopy (k : Nat) : (s.delWave k).work.nextCopy = s.work.nextCopy := rfl

/-! ### setTeam -/

@[simp] theorem setTeam_mem (k : Nat) (x : Team) : (s.setTeam k x).mem = s.mem := rfl
@[simp] theorem setTeam_cores (k : Nat) (x : Team) : (s.setTeam k x).cores = s.cores := rfl
@[simp] theorem setTeam_clusters (k : Nat) (x : Team) : (s.setTeam k x).clusters = s.clusters := rfl
@[simp] theorem setTeam_pairs (k : Nat) (x : Team) : (s.setTeam k x).pairs = s.pairs := rfl
@[simp] theorem setTeam_ctxs (k : Nat) (x : Team) : (s.setTeam k x).ctxs = s.ctxs := rfl
@[simp] theorem setTeam_queues (k : Nat) (x : Team) : (s.setTeam k x).queues = s.queues := rfl
@[simp] theorem setTeam_seqs (k : Nat) (x : Team) : (s.setTeam k x).seqs = s.seqs := rfl
@[simp] theorem setTeam_walks (k : Nat) (x : Team) : (s.setTeam k x).walks = s.walks := rfl
@[simp] theorem setTeam_home (k : Nat) (x : Team) : (s.setTeam k x).home = s.home := rfl
@[simp] theorem setTeam_worlds (k : Nat) (x : Team) : (s.setTeam k x).worlds = s.worlds := rfl
@[simp] theorem setTeam_fabric (k : Nat) (x : Team) : (s.setTeam k x).fabric = s.fabric := rfl
@[simp] theorem setTeam_banks (k : Nat) (x : Team) : (s.setTeam k x).banks = s.banks := rfl
@[simp] theorem setTeam_power (k : Nat) (x : Team) : (s.setTeam k x).power = s.power := rfl
@[simp] theorem setTeam_guidon (k : Nat) (x : Team) : (s.setTeam k x).guidon = s.guidon := rfl
@[simp] theorem setTeam_boot (k : Nat) (x : Team) : (s.setTeam k x).boot = s.boot := rfl
@[simp] theorem setTeam_boxes (k : Nat) (x : Team) : (s.setTeam k x).boxes = s.boxes := rfl
@[simp] theorem setTeam_log (k : Nat) (x : Team) : (s.setTeam k x).log = s.log := rfl
@[simp] theorem setTeam_logged (k : Nat) (x : Team) : (s.setTeam k x).logged = s.logged := rfl
@[simp] theorem setTeam_clock (k : Nat) (x : Team) : (s.setTeam k x).clock = s.clock := rfl
@[simp] theorem setTeam_dtime (k : Nat) (x : Team) : (s.setTeam k x).dtime = s.dtime := rfl
@[simp] theorem setTeam_tickRem (k : Nat) (x : Team) : (s.setTeam k x).tickRem = s.tickRem := rfl
@[simp] theorem setTeam_cur (k : Nat) (x : Team) : (s.setTeam k x).cur = s.cur := rfl
@[simp] theorem setTeam_agenda (k : Nat) (x : Team) : (s.setTeam k x).agenda = s.agenda := rfl
@[simp] theorem setTeam_free (k : Nat) (x : Team) : (s.setTeam k x).free = s.free := rfl
@[simp] theorem setTeam_bus (k : Nat) (x : Team) : (s.setTeam k x).bus = s.bus := rfl
@[simp] theorem setTeam_threads (k : Nat) (x : Team) : (s.setTeam k x).work.threads = s.work.threads := rfl
@[simp] theorem setTeam_waves (k : Nat) (x : Team) : (s.setTeam k x).work.waves = s.work.waves := rfl
@[simp] theorem setTeam_teams (k : Nat) (x : Team) : (s.setTeam k x).work.teams = Tab.put s.work.teams k x := rfl
@[simp] theorem setTeam_grids (k : Nat) (x : Team) : (s.setTeam k x).work.grids = s.work.grids := rfl
@[simp] theorem setTeam_tasks (k : Nat) (x : Team) : (s.setTeam k x).work.tasks = s.work.tasks := rfl
@[simp] theorem setTeam_groups (k : Nat) (x : Team) : (s.setTeam k x).work.groups = s.work.groups := rfl
@[simp] theorem setTeam_lineages (k : Nat) (x : Team) : (s.setTeam k x).work.lineages = s.work.lineages := rfl
@[simp] theorem setTeam_nextThread (k : Nat) (x : Team) : (s.setTeam k x).work.nextThread = s.work.nextThread := rfl
@[simp] theorem setTeam_nextWave (k : Nat) (x : Team) : (s.setTeam k x).work.nextWave = s.work.nextWave := rfl
@[simp] theorem setTeam_nextTeam (k : Nat) (x : Team) : (s.setTeam k x).work.nextTeam = s.work.nextTeam := rfl
@[simp] theorem setTeam_nextGrid (k : Nat) (x : Team) : (s.setTeam k x).work.nextGrid = s.work.nextGrid := rfl
@[simp] theorem setTeam_nextTask (k : Nat) (x : Team) : (s.setTeam k x).work.nextTask = s.work.nextTask := rfl
@[simp] theorem setTeam_nextGroup (k : Nat) (x : Team) : (s.setTeam k x).work.nextGroup = s.work.nextGroup := rfl
@[simp] theorem setTeam_nextLineage (k : Nat) (x : Team) : (s.setTeam k x).work.nextLineage = s.work.nextLineage := rfl
@[simp] theorem setTeam_nextCopy (k : Nat) (x : Team) : (s.setTeam k x).work.nextCopy = s.work.nextCopy := rfl

/-! ### setGrid -/

@[simp] theorem setGrid_mem (k : Nat) (x : Grid) : (s.setGrid k x).mem = s.mem := rfl
@[simp] theorem setGrid_cores (k : Nat) (x : Grid) : (s.setGrid k x).cores = s.cores := rfl
@[simp] theorem setGrid_clusters (k : Nat) (x : Grid) : (s.setGrid k x).clusters = s.clusters := rfl
@[simp] theorem setGrid_pairs (k : Nat) (x : Grid) : (s.setGrid k x).pairs = s.pairs := rfl
@[simp] theorem setGrid_ctxs (k : Nat) (x : Grid) : (s.setGrid k x).ctxs = s.ctxs := rfl
@[simp] theorem setGrid_queues (k : Nat) (x : Grid) : (s.setGrid k x).queues = s.queues := rfl
@[simp] theorem setGrid_seqs (k : Nat) (x : Grid) : (s.setGrid k x).seqs = s.seqs := rfl
@[simp] theorem setGrid_walks (k : Nat) (x : Grid) : (s.setGrid k x).walks = s.walks := rfl
@[simp] theorem setGrid_home (k : Nat) (x : Grid) : (s.setGrid k x).home = s.home := rfl
@[simp] theorem setGrid_worlds (k : Nat) (x : Grid) : (s.setGrid k x).worlds = s.worlds := rfl
@[simp] theorem setGrid_fabric (k : Nat) (x : Grid) : (s.setGrid k x).fabric = s.fabric := rfl
@[simp] theorem setGrid_banks (k : Nat) (x : Grid) : (s.setGrid k x).banks = s.banks := rfl
@[simp] theorem setGrid_power (k : Nat) (x : Grid) : (s.setGrid k x).power = s.power := rfl
@[simp] theorem setGrid_guidon (k : Nat) (x : Grid) : (s.setGrid k x).guidon = s.guidon := rfl
@[simp] theorem setGrid_boot (k : Nat) (x : Grid) : (s.setGrid k x).boot = s.boot := rfl
@[simp] theorem setGrid_boxes (k : Nat) (x : Grid) : (s.setGrid k x).boxes = s.boxes := rfl
@[simp] theorem setGrid_log (k : Nat) (x : Grid) : (s.setGrid k x).log = s.log := rfl
@[simp] theorem setGrid_logged (k : Nat) (x : Grid) : (s.setGrid k x).logged = s.logged := rfl
@[simp] theorem setGrid_clock (k : Nat) (x : Grid) : (s.setGrid k x).clock = s.clock := rfl
@[simp] theorem setGrid_dtime (k : Nat) (x : Grid) : (s.setGrid k x).dtime = s.dtime := rfl
@[simp] theorem setGrid_tickRem (k : Nat) (x : Grid) : (s.setGrid k x).tickRem = s.tickRem := rfl
@[simp] theorem setGrid_cur (k : Nat) (x : Grid) : (s.setGrid k x).cur = s.cur := rfl
@[simp] theorem setGrid_agenda (k : Nat) (x : Grid) : (s.setGrid k x).agenda = s.agenda := rfl
@[simp] theorem setGrid_free (k : Nat) (x : Grid) : (s.setGrid k x).free = s.free := rfl
@[simp] theorem setGrid_bus (k : Nat) (x : Grid) : (s.setGrid k x).bus = s.bus := rfl
@[simp] theorem setGrid_threads (k : Nat) (x : Grid) : (s.setGrid k x).work.threads = s.work.threads := rfl
@[simp] theorem setGrid_waves (k : Nat) (x : Grid) : (s.setGrid k x).work.waves = s.work.waves := rfl
@[simp] theorem setGrid_teams (k : Nat) (x : Grid) : (s.setGrid k x).work.teams = s.work.teams := rfl
@[simp] theorem setGrid_grids (k : Nat) (x : Grid) : (s.setGrid k x).work.grids = Tab.put s.work.grids k x := rfl
@[simp] theorem setGrid_tasks (k : Nat) (x : Grid) : (s.setGrid k x).work.tasks = s.work.tasks := rfl
@[simp] theorem setGrid_groups (k : Nat) (x : Grid) : (s.setGrid k x).work.groups = s.work.groups := rfl
@[simp] theorem setGrid_lineages (k : Nat) (x : Grid) : (s.setGrid k x).work.lineages = s.work.lineages := rfl
@[simp] theorem setGrid_nextThread (k : Nat) (x : Grid) : (s.setGrid k x).work.nextThread = s.work.nextThread := rfl
@[simp] theorem setGrid_nextWave (k : Nat) (x : Grid) : (s.setGrid k x).work.nextWave = s.work.nextWave := rfl
@[simp] theorem setGrid_nextTeam (k : Nat) (x : Grid) : (s.setGrid k x).work.nextTeam = s.work.nextTeam := rfl
@[simp] theorem setGrid_nextGrid (k : Nat) (x : Grid) : (s.setGrid k x).work.nextGrid = s.work.nextGrid := rfl
@[simp] theorem setGrid_nextTask (k : Nat) (x : Grid) : (s.setGrid k x).work.nextTask = s.work.nextTask := rfl
@[simp] theorem setGrid_nextGroup (k : Nat) (x : Grid) : (s.setGrid k x).work.nextGroup = s.work.nextGroup := rfl
@[simp] theorem setGrid_nextLineage (k : Nat) (x : Grid) : (s.setGrid k x).work.nextLineage = s.work.nextLineage := rfl
@[simp] theorem setGrid_nextCopy (k : Nat) (x : Grid) : (s.setGrid k x).work.nextCopy = s.work.nextCopy := rfl

/-! ### modThread: the entry that is listed, or nothing -/

@[simp] theorem modThread_mem (k : Nat) (g : Thread → Thread) : (s.modThread k g).mem = s.mem := by
  unfold State.modThread; split <;> rfl
@[simp] theorem modThread_cores (k : Nat) (g : Thread → Thread) : (s.modThread k g).cores = s.cores := by
  unfold State.modThread; split <;> rfl
@[simp] theorem modThread_clusters (k : Nat) (g : Thread → Thread) : (s.modThread k g).clusters = s.clusters := by
  unfold State.modThread; split <;> rfl
@[simp] theorem modThread_pairs (k : Nat) (g : Thread → Thread) : (s.modThread k g).pairs = s.pairs := by
  unfold State.modThread; split <;> rfl
@[simp] theorem modThread_ctxs (k : Nat) (g : Thread → Thread) : (s.modThread k g).ctxs = s.ctxs := by
  unfold State.modThread; split <;> rfl
@[simp] theorem modThread_queues (k : Nat) (g : Thread → Thread) : (s.modThread k g).queues = s.queues := by
  unfold State.modThread; split <;> rfl
@[simp] theorem modThread_seqs (k : Nat) (g : Thread → Thread) : (s.modThread k g).seqs = s.seqs := by
  unfold State.modThread; split <;> rfl
@[simp] theorem modThread_walks (k : Nat) (g : Thread → Thread) : (s.modThread k g).walks = s.walks := by
  unfold State.modThread; split <;> rfl
@[simp] theorem modThread_home (k : Nat) (g : Thread → Thread) : (s.modThread k g).home = s.home := by
  unfold State.modThread; split <;> rfl
@[simp] theorem modThread_worlds (k : Nat) (g : Thread → Thread) : (s.modThread k g).worlds = s.worlds := by
  unfold State.modThread; split <;> rfl
@[simp] theorem modThread_fabric (k : Nat) (g : Thread → Thread) : (s.modThread k g).fabric = s.fabric := by
  unfold State.modThread; split <;> rfl
@[simp] theorem modThread_banks (k : Nat) (g : Thread → Thread) : (s.modThread k g).banks = s.banks := by
  unfold State.modThread; split <;> rfl
@[simp] theorem modThread_power (k : Nat) (g : Thread → Thread) : (s.modThread k g).power = s.power := by
  unfold State.modThread; split <;> rfl
@[simp] theorem modThread_guidon (k : Nat) (g : Thread → Thread) : (s.modThread k g).guidon = s.guidon := by
  unfold State.modThread; split <;> rfl
@[simp] theorem modThread_boot (k : Nat) (g : Thread → Thread) : (s.modThread k g).boot = s.boot := by
  unfold State.modThread; split <;> rfl
@[simp] theorem modThread_boxes (k : Nat) (g : Thread → Thread) : (s.modThread k g).boxes = s.boxes := by
  unfold State.modThread; split <;> rfl
@[simp] theorem modThread_log (k : Nat) (g : Thread → Thread) : (s.modThread k g).log = s.log := by
  unfold State.modThread; split <;> rfl
@[simp] theorem modThread_logged (k : Nat) (g : Thread → Thread) : (s.modThread k g).logged = s.logged := by
  unfold State.modThread; split <;> rfl
@[simp] theorem modThread_clock (k : Nat) (g : Thread → Thread) : (s.modThread k g).clock = s.clock := by
  unfold State.modThread; split <;> rfl
@[simp] theorem modThread_dtime (k : Nat) (g : Thread → Thread) : (s.modThread k g).dtime = s.dtime := by
  unfold State.modThread; split <;> rfl
@[simp] theorem modThread_tickRem (k : Nat) (g : Thread → Thread) : (s.modThread k g).tickRem = s.tickRem := by
  unfold State.modThread; split <;> rfl
@[simp] theorem modThread_cur (k : Nat) (g : Thread → Thread) : (s.modThread k g).cur = s.cur := by
  unfold State.modThread; split <;> rfl
@[simp] theorem modThread_agenda (k : Nat) (g : Thread → Thread) : (s.modThread k g).agenda = s.agenda := by
  unfold State.modThread; split <;> rfl
@[simp] theorem modThread_free (k : Nat) (g : Thread → Thread) : (s.modThread k g).free = s.free := by
  unfold State.modThread; split <;> rfl
@[simp] theorem modThread_bus (k : Nat) (g : Thread → Thread) : (s.modThread k g).bus = s.bus := by
  unfold State.modThread; split <;> rfl
@[simp] theorem modThread_waves (k : Nat) (g : Thread → Thread) : (s.modThread k g).work.waves = s.work.waves := by
  unfold State.modThread; split <;> rfl
@[simp] theorem modThread_teams (k : Nat) (g : Thread → Thread) : (s.modThread k g).work.teams = s.work.teams := by
  unfold State.modThread; split <;> rfl
@[simp] theorem modThread_grids (k : Nat) (g : Thread → Thread) : (s.modThread k g).work.grids = s.work.grids := by
  unfold State.modThread; split <;> rfl
@[simp] theorem modThread_tasks (k : Nat) (g : Thread → Thread) : (s.modThread k g).work.tasks = s.work.tasks := by
  unfold State.modThread; split <;> rfl
@[simp] theorem modThread_groups (k : Nat) (g : Thread → Thread) : (s.modThread k g).work.groups = s.work.groups := by
  unfold State.modThread; split <;> rfl
@[simp] theorem modThread_lineages (k : Nat) (g : Thread → Thread) : (s.modThread k g).work.lineages = s.work.lineages := by
  unfold State.modThread; split <;> rfl
@[simp] theorem modThread_nextThread (k : Nat) (g : Thread → Thread) : (s.modThread k g).work.nextThread = s.work.nextThread := by
  unfold State.modThread; split <;> rfl
@[simp] theorem modThread_nextWave (k : Nat) (g : Thread → Thread) : (s.modThread k g).work.nextWave = s.work.nextWave := by
  unfold State.modThread; split <;> rfl
@[simp] theorem modThread_nextTeam (k : Nat) (g : Thread → Thread) : (s.modThread k g).work.nextTeam = s.work.nextTeam := by
  unfold State.modThread; split <;> rfl
@[simp] theorem modThread_nextGrid (k : Nat) (g : Thread → Thread) : (s.modThread k g).work.nextGrid = s.work.nextGrid := by
  unfold State.modThread; split <;> rfl
@[simp] theorem modThread_nextTask (k : Nat) (g : Thread → Thread) : (s.modThread k g).work.nextTask = s.work.nextTask := by
  unfold State.modThread; split <;> rfl
@[simp] theorem modThread_nextGroup (k : Nat) (g : Thread → Thread) : (s.modThread k g).work.nextGroup = s.work.nextGroup := by
  unfold State.modThread; split <;> rfl
@[simp] theorem modThread_nextLineage (k : Nat) (g : Thread → Thread) : (s.modThread k g).work.nextLineage = s.work.nextLineage := by
  unfold State.modThread; split <;> rfl
@[simp] theorem modThread_nextCopy (k : Nat) (g : Thread → Thread) : (s.modThread k g).work.nextCopy = s.work.nextCopy := by
  unfold State.modThread; split <;> rfl

/-! ### modWave: the entry that is listed, or nothing -/

@[simp] theorem modWave_mem (k : Nat) (g : Wave → Wave) : (s.modWave k g).mem = s.mem := by
  unfold State.modWave; split <;> rfl
@[simp] theorem modWave_cores (k : Nat) (g : Wave → Wave) : (s.modWave k g).cores = s.cores := by
  unfold State.modWave; split <;> rfl
@[simp] theorem modWave_clusters (k : Nat) (g : Wave → Wave) : (s.modWave k g).clusters = s.clusters := by
  unfold State.modWave; split <;> rfl
@[simp] theorem modWave_pairs (k : Nat) (g : Wave → Wave) : (s.modWave k g).pairs = s.pairs := by
  unfold State.modWave; split <;> rfl
@[simp] theorem modWave_ctxs (k : Nat) (g : Wave → Wave) : (s.modWave k g).ctxs = s.ctxs := by
  unfold State.modWave; split <;> rfl
@[simp] theorem modWave_queues (k : Nat) (g : Wave → Wave) : (s.modWave k g).queues = s.queues := by
  unfold State.modWave; split <;> rfl
@[simp] theorem modWave_seqs (k : Nat) (g : Wave → Wave) : (s.modWave k g).seqs = s.seqs := by
  unfold State.modWave; split <;> rfl
@[simp] theorem modWave_walks (k : Nat) (g : Wave → Wave) : (s.modWave k g).walks = s.walks := by
  unfold State.modWave; split <;> rfl
@[simp] theorem modWave_home (k : Nat) (g : Wave → Wave) : (s.modWave k g).home = s.home := by
  unfold State.modWave; split <;> rfl
@[simp] theorem modWave_worlds (k : Nat) (g : Wave → Wave) : (s.modWave k g).worlds = s.worlds := by
  unfold State.modWave; split <;> rfl
@[simp] theorem modWave_fabric (k : Nat) (g : Wave → Wave) : (s.modWave k g).fabric = s.fabric := by
  unfold State.modWave; split <;> rfl
@[simp] theorem modWave_banks (k : Nat) (g : Wave → Wave) : (s.modWave k g).banks = s.banks := by
  unfold State.modWave; split <;> rfl
@[simp] theorem modWave_power (k : Nat) (g : Wave → Wave) : (s.modWave k g).power = s.power := by
  unfold State.modWave; split <;> rfl
@[simp] theorem modWave_guidon (k : Nat) (g : Wave → Wave) : (s.modWave k g).guidon = s.guidon := by
  unfold State.modWave; split <;> rfl
@[simp] theorem modWave_boot (k : Nat) (g : Wave → Wave) : (s.modWave k g).boot = s.boot := by
  unfold State.modWave; split <;> rfl
@[simp] theorem modWave_boxes (k : Nat) (g : Wave → Wave) : (s.modWave k g).boxes = s.boxes := by
  unfold State.modWave; split <;> rfl
@[simp] theorem modWave_log (k : Nat) (g : Wave → Wave) : (s.modWave k g).log = s.log := by
  unfold State.modWave; split <;> rfl
@[simp] theorem modWave_logged (k : Nat) (g : Wave → Wave) : (s.modWave k g).logged = s.logged := by
  unfold State.modWave; split <;> rfl
@[simp] theorem modWave_clock (k : Nat) (g : Wave → Wave) : (s.modWave k g).clock = s.clock := by
  unfold State.modWave; split <;> rfl
@[simp] theorem modWave_dtime (k : Nat) (g : Wave → Wave) : (s.modWave k g).dtime = s.dtime := by
  unfold State.modWave; split <;> rfl
@[simp] theorem modWave_tickRem (k : Nat) (g : Wave → Wave) : (s.modWave k g).tickRem = s.tickRem := by
  unfold State.modWave; split <;> rfl
@[simp] theorem modWave_cur (k : Nat) (g : Wave → Wave) : (s.modWave k g).cur = s.cur := by
  unfold State.modWave; split <;> rfl
@[simp] theorem modWave_agenda (k : Nat) (g : Wave → Wave) : (s.modWave k g).agenda = s.agenda := by
  unfold State.modWave; split <;> rfl
@[simp] theorem modWave_free (k : Nat) (g : Wave → Wave) : (s.modWave k g).free = s.free := by
  unfold State.modWave; split <;> rfl
@[simp] theorem modWave_bus (k : Nat) (g : Wave → Wave) : (s.modWave k g).bus = s.bus := by
  unfold State.modWave; split <;> rfl
@[simp] theorem modWave_threads (k : Nat) (g : Wave → Wave) : (s.modWave k g).work.threads = s.work.threads := by
  unfold State.modWave; split <;> rfl
@[simp] theorem modWave_teams (k : Nat) (g : Wave → Wave) : (s.modWave k g).work.teams = s.work.teams := by
  unfold State.modWave; split <;> rfl
@[simp] theorem modWave_grids (k : Nat) (g : Wave → Wave) : (s.modWave k g).work.grids = s.work.grids := by
  unfold State.modWave; split <;> rfl
@[simp] theorem modWave_tasks (k : Nat) (g : Wave → Wave) : (s.modWave k g).work.tasks = s.work.tasks := by
  unfold State.modWave; split <;> rfl
@[simp] theorem modWave_groups (k : Nat) (g : Wave → Wave) : (s.modWave k g).work.groups = s.work.groups := by
  unfold State.modWave; split <;> rfl
@[simp] theorem modWave_lineages (k : Nat) (g : Wave → Wave) : (s.modWave k g).work.lineages = s.work.lineages := by
  unfold State.modWave; split <;> rfl
@[simp] theorem modWave_nextThread (k : Nat) (g : Wave → Wave) : (s.modWave k g).work.nextThread = s.work.nextThread := by
  unfold State.modWave; split <;> rfl
@[simp] theorem modWave_nextWave (k : Nat) (g : Wave → Wave) : (s.modWave k g).work.nextWave = s.work.nextWave := by
  unfold State.modWave; split <;> rfl
@[simp] theorem modWave_nextTeam (k : Nat) (g : Wave → Wave) : (s.modWave k g).work.nextTeam = s.work.nextTeam := by
  unfold State.modWave; split <;> rfl
@[simp] theorem modWave_nextGrid (k : Nat) (g : Wave → Wave) : (s.modWave k g).work.nextGrid = s.work.nextGrid := by
  unfold State.modWave; split <;> rfl
@[simp] theorem modWave_nextTask (k : Nat) (g : Wave → Wave) : (s.modWave k g).work.nextTask = s.work.nextTask := by
  unfold State.modWave; split <;> rfl
@[simp] theorem modWave_nextGroup (k : Nat) (g : Wave → Wave) : (s.modWave k g).work.nextGroup = s.work.nextGroup := by
  unfold State.modWave; split <;> rfl
@[simp] theorem modWave_nextLineage (k : Nat) (g : Wave → Wave) : (s.modWave k g).work.nextLineage = s.work.nextLineage := by
  unfold State.modWave; split <;> rfl
@[simp] theorem modWave_nextCopy (k : Nat) (g : Wave → Wave) : (s.modWave k g).work.nextCopy = s.work.nextCopy := by
  unfold State.modWave; split <;> rfl

/-! ### modTeam: the entry that is listed, or nothing -/

@[simp] theorem modTeam_mem (k : Nat) (g : Team → Team) : (s.modTeam k g).mem = s.mem := by
  unfold State.modTeam; split <;> rfl
@[simp] theorem modTeam_cores (k : Nat) (g : Team → Team) : (s.modTeam k g).cores = s.cores := by
  unfold State.modTeam; split <;> rfl
@[simp] theorem modTeam_clusters (k : Nat) (g : Team → Team) : (s.modTeam k g).clusters = s.clusters := by
  unfold State.modTeam; split <;> rfl
@[simp] theorem modTeam_pairs (k : Nat) (g : Team → Team) : (s.modTeam k g).pairs = s.pairs := by
  unfold State.modTeam; split <;> rfl
@[simp] theorem modTeam_ctxs (k : Nat) (g : Team → Team) : (s.modTeam k g).ctxs = s.ctxs := by
  unfold State.modTeam; split <;> rfl
@[simp] theorem modTeam_queues (k : Nat) (g : Team → Team) : (s.modTeam k g).queues = s.queues := by
  unfold State.modTeam; split <;> rfl
@[simp] theorem modTeam_seqs (k : Nat) (g : Team → Team) : (s.modTeam k g).seqs = s.seqs := by
  unfold State.modTeam; split <;> rfl
@[simp] theorem modTeam_walks (k : Nat) (g : Team → Team) : (s.modTeam k g).walks = s.walks := by
  unfold State.modTeam; split <;> rfl
@[simp] theorem modTeam_home (k : Nat) (g : Team → Team) : (s.modTeam k g).home = s.home := by
  unfold State.modTeam; split <;> rfl
@[simp] theorem modTeam_worlds (k : Nat) (g : Team → Team) : (s.modTeam k g).worlds = s.worlds := by
  unfold State.modTeam; split <;> rfl
@[simp] theorem modTeam_fabric (k : Nat) (g : Team → Team) : (s.modTeam k g).fabric = s.fabric := by
  unfold State.modTeam; split <;> rfl
@[simp] theorem modTeam_banks (k : Nat) (g : Team → Team) : (s.modTeam k g).banks = s.banks := by
  unfold State.modTeam; split <;> rfl
@[simp] theorem modTeam_power (k : Nat) (g : Team → Team) : (s.modTeam k g).power = s.power := by
  unfold State.modTeam; split <;> rfl
@[simp] theorem modTeam_guidon (k : Nat) (g : Team → Team) : (s.modTeam k g).guidon = s.guidon := by
  unfold State.modTeam; split <;> rfl
@[simp] theorem modTeam_boot (k : Nat) (g : Team → Team) : (s.modTeam k g).boot = s.boot := by
  unfold State.modTeam; split <;> rfl
@[simp] theorem modTeam_boxes (k : Nat) (g : Team → Team) : (s.modTeam k g).boxes = s.boxes := by
  unfold State.modTeam; split <;> rfl
@[simp] theorem modTeam_log (k : Nat) (g : Team → Team) : (s.modTeam k g).log = s.log := by
  unfold State.modTeam; split <;> rfl
@[simp] theorem modTeam_logged (k : Nat) (g : Team → Team) : (s.modTeam k g).logged = s.logged := by
  unfold State.modTeam; split <;> rfl
@[simp] theorem modTeam_clock (k : Nat) (g : Team → Team) : (s.modTeam k g).clock = s.clock := by
  unfold State.modTeam; split <;> rfl
@[simp] theorem modTeam_dtime (k : Nat) (g : Team → Team) : (s.modTeam k g).dtime = s.dtime := by
  unfold State.modTeam; split <;> rfl
@[simp] theorem modTeam_tickRem (k : Nat) (g : Team → Team) : (s.modTeam k g).tickRem = s.tickRem := by
  unfold State.modTeam; split <;> rfl
@[simp] theorem modTeam_cur (k : Nat) (g : Team → Team) : (s.modTeam k g).cur = s.cur := by
  unfold State.modTeam; split <;> rfl
@[simp] theorem modTeam_agenda (k : Nat) (g : Team → Team) : (s.modTeam k g).agenda = s.agenda := by
  unfold State.modTeam; split <;> rfl
@[simp] theorem modTeam_free (k : Nat) (g : Team → Team) : (s.modTeam k g).free = s.free := by
  unfold State.modTeam; split <;> rfl
@[simp] theorem modTeam_bus (k : Nat) (g : Team → Team) : (s.modTeam k g).bus = s.bus := by
  unfold State.modTeam; split <;> rfl
@[simp] theorem modTeam_threads (k : Nat) (g : Team → Team) : (s.modTeam k g).work.threads = s.work.threads := by
  unfold State.modTeam; split <;> rfl
@[simp] theorem modTeam_waves (k : Nat) (g : Team → Team) : (s.modTeam k g).work.waves = s.work.waves := by
  unfold State.modTeam; split <;> rfl
@[simp] theorem modTeam_grids (k : Nat) (g : Team → Team) : (s.modTeam k g).work.grids = s.work.grids := by
  unfold State.modTeam; split <;> rfl
@[simp] theorem modTeam_tasks (k : Nat) (g : Team → Team) : (s.modTeam k g).work.tasks = s.work.tasks := by
  unfold State.modTeam; split <;> rfl
@[simp] theorem modTeam_groups (k : Nat) (g : Team → Team) : (s.modTeam k g).work.groups = s.work.groups := by
  unfold State.modTeam; split <;> rfl
@[simp] theorem modTeam_lineages (k : Nat) (g : Team → Team) : (s.modTeam k g).work.lineages = s.work.lineages := by
  unfold State.modTeam; split <;> rfl
@[simp] theorem modTeam_nextThread (k : Nat) (g : Team → Team) : (s.modTeam k g).work.nextThread = s.work.nextThread := by
  unfold State.modTeam; split <;> rfl
@[simp] theorem modTeam_nextWave (k : Nat) (g : Team → Team) : (s.modTeam k g).work.nextWave = s.work.nextWave := by
  unfold State.modTeam; split <;> rfl
@[simp] theorem modTeam_nextTeam (k : Nat) (g : Team → Team) : (s.modTeam k g).work.nextTeam = s.work.nextTeam := by
  unfold State.modTeam; split <;> rfl
@[simp] theorem modTeam_nextGrid (k : Nat) (g : Team → Team) : (s.modTeam k g).work.nextGrid = s.work.nextGrid := by
  unfold State.modTeam; split <;> rfl
@[simp] theorem modTeam_nextTask (k : Nat) (g : Team → Team) : (s.modTeam k g).work.nextTask = s.work.nextTask := by
  unfold State.modTeam; split <;> rfl
@[simp] theorem modTeam_nextGroup (k : Nat) (g : Team → Team) : (s.modTeam k g).work.nextGroup = s.work.nextGroup := by
  unfold State.modTeam; split <;> rfl
@[simp] theorem modTeam_nextLineage (k : Nat) (g : Team → Team) : (s.modTeam k g).work.nextLineage = s.work.nextLineage := by
  unfold State.modTeam; split <;> rfl
@[simp] theorem modTeam_nextCopy (k : Nat) (g : Team → Team) : (s.modTeam k g).work.nextCopy = s.work.nextCopy := by
  unfold State.modTeam; split <;> rfl

/-! ### modGrid: the entry that is listed, or nothing -/

@[simp] theorem modGrid_mem (k : Nat) (g : Grid → Grid) : (s.modGrid k g).mem = s.mem := by
  unfold State.modGrid; split <;> rfl
@[simp] theorem modGrid_cores (k : Nat) (g : Grid → Grid) : (s.modGrid k g).cores = s.cores := by
  unfold State.modGrid; split <;> rfl
@[simp] theorem modGrid_clusters (k : Nat) (g : Grid → Grid) : (s.modGrid k g).clusters = s.clusters := by
  unfold State.modGrid; split <;> rfl
@[simp] theorem modGrid_pairs (k : Nat) (g : Grid → Grid) : (s.modGrid k g).pairs = s.pairs := by
  unfold State.modGrid; split <;> rfl
@[simp] theorem modGrid_ctxs (k : Nat) (g : Grid → Grid) : (s.modGrid k g).ctxs = s.ctxs := by
  unfold State.modGrid; split <;> rfl
@[simp] theorem modGrid_queues (k : Nat) (g : Grid → Grid) : (s.modGrid k g).queues = s.queues := by
  unfold State.modGrid; split <;> rfl
@[simp] theorem modGrid_seqs (k : Nat) (g : Grid → Grid) : (s.modGrid k g).seqs = s.seqs := by
  unfold State.modGrid; split <;> rfl
@[simp] theorem modGrid_walks (k : Nat) (g : Grid → Grid) : (s.modGrid k g).walks = s.walks := by
  unfold State.modGrid; split <;> rfl
@[simp] theorem modGrid_home (k : Nat) (g : Grid → Grid) : (s.modGrid k g).home = s.home := by
  unfold State.modGrid; split <;> rfl
@[simp] theorem modGrid_worlds (k : Nat) (g : Grid → Grid) : (s.modGrid k g).worlds = s.worlds := by
  unfold State.modGrid; split <;> rfl
@[simp] theorem modGrid_fabric (k : Nat) (g : Grid → Grid) : (s.modGrid k g).fabric = s.fabric := by
  unfold State.modGrid; split <;> rfl
@[simp] theorem modGrid_banks (k : Nat) (g : Grid → Grid) : (s.modGrid k g).banks = s.banks := by
  unfold State.modGrid; split <;> rfl
@[simp] theorem modGrid_power (k : Nat) (g : Grid → Grid) : (s.modGrid k g).power = s.power := by
  unfold State.modGrid; split <;> rfl
@[simp] theorem modGrid_guidon (k : Nat) (g : Grid → Grid) : (s.modGrid k g).guidon = s.guidon := by
  unfold State.modGrid; split <;> rfl
@[simp] theorem modGrid_boot (k : Nat) (g : Grid → Grid) : (s.modGrid k g).boot = s.boot := by
  unfold State.modGrid; split <;> rfl
@[simp] theorem modGrid_boxes (k : Nat) (g : Grid → Grid) : (s.modGrid k g).boxes = s.boxes := by
  unfold State.modGrid; split <;> rfl
@[simp] theorem modGrid_log (k : Nat) (g : Grid → Grid) : (s.modGrid k g).log = s.log := by
  unfold State.modGrid; split <;> rfl
@[simp] theorem modGrid_logged (k : Nat) (g : Grid → Grid) : (s.modGrid k g).logged = s.logged := by
  unfold State.modGrid; split <;> rfl
@[simp] theorem modGrid_clock (k : Nat) (g : Grid → Grid) : (s.modGrid k g).clock = s.clock := by
  unfold State.modGrid; split <;> rfl
@[simp] theorem modGrid_dtime (k : Nat) (g : Grid → Grid) : (s.modGrid k g).dtime = s.dtime := by
  unfold State.modGrid; split <;> rfl
@[simp] theorem modGrid_tickRem (k : Nat) (g : Grid → Grid) : (s.modGrid k g).tickRem = s.tickRem := by
  unfold State.modGrid; split <;> rfl
@[simp] theorem modGrid_cur (k : Nat) (g : Grid → Grid) : (s.modGrid k g).cur = s.cur := by
  unfold State.modGrid; split <;> rfl
@[simp] theorem modGrid_agenda (k : Nat) (g : Grid → Grid) : (s.modGrid k g).agenda = s.agenda := by
  unfold State.modGrid; split <;> rfl
@[simp] theorem modGrid_free (k : Nat) (g : Grid → Grid) : (s.modGrid k g).free = s.free := by
  unfold State.modGrid; split <;> rfl
@[simp] theorem modGrid_bus (k : Nat) (g : Grid → Grid) : (s.modGrid k g).bus = s.bus := by
  unfold State.modGrid; split <;> rfl
@[simp] theorem modGrid_threads (k : Nat) (g : Grid → Grid) : (s.modGrid k g).work.threads = s.work.threads := by
  unfold State.modGrid; split <;> rfl
@[simp] theorem modGrid_waves (k : Nat) (g : Grid → Grid) : (s.modGrid k g).work.waves = s.work.waves := by
  unfold State.modGrid; split <;> rfl
@[simp] theorem modGrid_teams (k : Nat) (g : Grid → Grid) : (s.modGrid k g).work.teams = s.work.teams := by
  unfold State.modGrid; split <;> rfl
@[simp] theorem modGrid_tasks (k : Nat) (g : Grid → Grid) : (s.modGrid k g).work.tasks = s.work.tasks := by
  unfold State.modGrid; split <;> rfl
@[simp] theorem modGrid_groups (k : Nat) (g : Grid → Grid) : (s.modGrid k g).work.groups = s.work.groups := by
  unfold State.modGrid; split <;> rfl
@[simp] theorem modGrid_lineages (k : Nat) (g : Grid → Grid) : (s.modGrid k g).work.lineages = s.work.lineages := by
  unfold State.modGrid; split <;> rfl
@[simp] theorem modGrid_nextThread (k : Nat) (g : Grid → Grid) : (s.modGrid k g).work.nextThread = s.work.nextThread := by
  unfold State.modGrid; split <;> rfl
@[simp] theorem modGrid_nextWave (k : Nat) (g : Grid → Grid) : (s.modGrid k g).work.nextWave = s.work.nextWave := by
  unfold State.modGrid; split <;> rfl
@[simp] theorem modGrid_nextTeam (k : Nat) (g : Grid → Grid) : (s.modGrid k g).work.nextTeam = s.work.nextTeam := by
  unfold State.modGrid; split <;> rfl
@[simp] theorem modGrid_nextGrid (k : Nat) (g : Grid → Grid) : (s.modGrid k g).work.nextGrid = s.work.nextGrid := by
  unfold State.modGrid; split <;> rfl
@[simp] theorem modGrid_nextTask (k : Nat) (g : Grid → Grid) : (s.modGrid k g).work.nextTask = s.work.nextTask := by
  unfold State.modGrid; split <;> rfl
@[simp] theorem modGrid_nextGroup (k : Nat) (g : Grid → Grid) : (s.modGrid k g).work.nextGroup = s.work.nextGroup := by
  unfold State.modGrid; split <;> rfl
@[simp] theorem modGrid_nextLineage (k : Nat) (g : Grid → Grid) : (s.modGrid k g).work.nextLineage = s.work.nextLineage := by
  unfold State.modGrid; split <;> rfl
@[simp] theorem modGrid_nextCopy (k : Nat) (g : Grid → Grid) : (s.modGrid k g).work.nextCopy = s.work.nextCopy := by
  unfold State.modGrid; split <;> rfl

/-! ### modThreads -/

@[simp] theorem modThreads_mem (ts : List Nat) (g : Thread → Thread) : (s.modThreads ts g).mem = s.mem := by
  unfold State.modThreads; induction ts generalizing s with | nil => rfl | cons t r ih => simp [ih]
@[simp] theorem modThreads_cores (ts : List Nat) (g : Thread → Thread) : (s.modThreads ts g).cores = s.cores := by
  unfold State.modThreads; induction ts generalizing s with | nil => rfl | cons t r ih => simp [ih]
@[simp] theorem modThreads_clusters (ts : List Nat) (g : Thread → Thread) : (s.modThreads ts g).clusters = s.clusters := by
  unfold State.modThreads; induction ts generalizing s with | nil => rfl | cons t r ih => simp [ih]
@[simp] theorem modThreads_pairs (ts : List Nat) (g : Thread → Thread) : (s.modThreads ts g).pairs = s.pairs := by
  unfold State.modThreads; induction ts generalizing s with | nil => rfl | cons t r ih => simp [ih]
@[simp] theorem modThreads_ctxs (ts : List Nat) (g : Thread → Thread) : (s.modThreads ts g).ctxs = s.ctxs := by
  unfold State.modThreads; induction ts generalizing s with | nil => rfl | cons t r ih => simp [ih]
@[simp] theorem modThreads_queues (ts : List Nat) (g : Thread → Thread) : (s.modThreads ts g).queues = s.queues := by
  unfold State.modThreads; induction ts generalizing s with | nil => rfl | cons t r ih => simp [ih]
@[simp] theorem modThreads_seqs (ts : List Nat) (g : Thread → Thread) : (s.modThreads ts g).seqs = s.seqs := by
  unfold State.modThreads; induction ts generalizing s with | nil => rfl | cons t r ih => simp [ih]
@[simp] theorem modThreads_walks (ts : List Nat) (g : Thread → Thread) : (s.modThreads ts g).walks = s.walks := by
  unfold State.modThreads; induction ts generalizing s with | nil => rfl | cons t r ih => simp [ih]
@[simp] theorem modThreads_home (ts : List Nat) (g : Thread → Thread) : (s.modThreads ts g).home = s.home := by
  unfold State.modThreads; induction ts generalizing s with | nil => rfl | cons t r ih => simp [ih]
@[simp] theorem modThreads_worlds (ts : List Nat) (g : Thread → Thread) : (s.modThreads ts g).worlds = s.worlds := by
  unfold State.modThreads; induction ts generalizing s with | nil => rfl | cons t r ih => simp [ih]
@[simp] theorem modThreads_fabric (ts : List Nat) (g : Thread → Thread) : (s.modThreads ts g).fabric = s.fabric := by
  unfold State.modThreads; induction ts generalizing s with | nil => rfl | cons t r ih => simp [ih]
@[simp] theorem modThreads_banks (ts : List Nat) (g : Thread → Thread) : (s.modThreads ts g).banks = s.banks := by
  unfold State.modThreads; induction ts generalizing s with | nil => rfl | cons t r ih => simp [ih]
@[simp] theorem modThreads_power (ts : List Nat) (g : Thread → Thread) : (s.modThreads ts g).power = s.power := by
  unfold State.modThreads; induction ts generalizing s with | nil => rfl | cons t r ih => simp [ih]
@[simp] theorem modThreads_guidon (ts : List Nat) (g : Thread → Thread) : (s.modThreads ts g).guidon = s.guidon := by
  unfold State.modThreads; induction ts generalizing s with | nil => rfl | cons t r ih => simp [ih]
@[simp] theorem modThreads_boot (ts : List Nat) (g : Thread → Thread) : (s.modThreads ts g).boot = s.boot := by
  unfold State.modThreads; induction ts generalizing s with | nil => rfl | cons t r ih => simp [ih]
@[simp] theorem modThreads_boxes (ts : List Nat) (g : Thread → Thread) : (s.modThreads ts g).boxes = s.boxes := by
  unfold State.modThreads; induction ts generalizing s with | nil => rfl | cons t r ih => simp [ih]
@[simp] theorem modThreads_log (ts : List Nat) (g : Thread → Thread) : (s.modThreads ts g).log = s.log := by
  unfold State.modThreads; induction ts generalizing s with | nil => rfl | cons t r ih => simp [ih]
@[simp] theorem modThreads_logged (ts : List Nat) (g : Thread → Thread) : (s.modThreads ts g).logged = s.logged := by
  unfold State.modThreads; induction ts generalizing s with | nil => rfl | cons t r ih => simp [ih]
@[simp] theorem modThreads_clock (ts : List Nat) (g : Thread → Thread) : (s.modThreads ts g).clock = s.clock := by
  unfold State.modThreads; induction ts generalizing s with | nil => rfl | cons t r ih => simp [ih]
@[simp] theorem modThreads_dtime (ts : List Nat) (g : Thread → Thread) : (s.modThreads ts g).dtime = s.dtime := by
  unfold State.modThreads; induction ts generalizing s with | nil => rfl | cons t r ih => simp [ih]
@[simp] theorem modThreads_tickRem (ts : List Nat) (g : Thread → Thread) : (s.modThreads ts g).tickRem = s.tickRem := by
  unfold State.modThreads; induction ts generalizing s with | nil => rfl | cons t r ih => simp [ih]
@[simp] theorem modThreads_cur (ts : List Nat) (g : Thread → Thread) : (s.modThreads ts g).cur = s.cur := by
  unfold State.modThreads; induction ts generalizing s with | nil => rfl | cons t r ih => simp [ih]
@[simp] theorem modThreads_agenda (ts : List Nat) (g : Thread → Thread) : (s.modThreads ts g).agenda = s.agenda := by
  unfold State.modThreads; induction ts generalizing s with | nil => rfl | cons t r ih => simp [ih]
@[simp] theorem modThreads_free (ts : List Nat) (g : Thread → Thread) : (s.modThreads ts g).free = s.free := by
  unfold State.modThreads; induction ts generalizing s with | nil => rfl | cons t r ih => simp [ih]
@[simp] theorem modThreads_bus (ts : List Nat) (g : Thread → Thread) : (s.modThreads ts g).bus = s.bus := by
  unfold State.modThreads; induction ts generalizing s with | nil => rfl | cons t r ih => simp [ih]
@[simp] theorem modThreads_waves (ts : List Nat) (g : Thread → Thread) : (s.modThreads ts g).work.waves = s.work.waves := by
  unfold State.modThreads; induction ts generalizing s with | nil => rfl | cons t r ih => simp [ih]
@[simp] theorem modThreads_teams (ts : List Nat) (g : Thread → Thread) : (s.modThreads ts g).work.teams = s.work.teams := by
  unfold State.modThreads; induction ts generalizing s with | nil => rfl | cons t r ih => simp [ih]
@[simp] theorem modThreads_grids (ts : List Nat) (g : Thread → Thread) : (s.modThreads ts g).work.grids = s.work.grids := by
  unfold State.modThreads; induction ts generalizing s with | nil => rfl | cons t r ih => simp [ih]
@[simp] theorem modThreads_tasks (ts : List Nat) (g : Thread → Thread) : (s.modThreads ts g).work.tasks = s.work.tasks := by
  unfold State.modThreads; induction ts generalizing s with | nil => rfl | cons t r ih => simp [ih]
@[simp] theorem modThreads_groups (ts : List Nat) (g : Thread → Thread) : (s.modThreads ts g).work.groups = s.work.groups := by
  unfold State.modThreads; induction ts generalizing s with | nil => rfl | cons t r ih => simp [ih]
@[simp] theorem modThreads_lineages (ts : List Nat) (g : Thread → Thread) : (s.modThreads ts g).work.lineages = s.work.lineages := by
  unfold State.modThreads; induction ts generalizing s with | nil => rfl | cons t r ih => simp [ih]
@[simp] theorem modThreads_nextThread (ts : List Nat) (g : Thread → Thread) : (s.modThreads ts g).work.nextThread = s.work.nextThread := by
  unfold State.modThreads; induction ts generalizing s with | nil => rfl | cons t r ih => simp [ih]
@[simp] theorem modThreads_nextWave (ts : List Nat) (g : Thread → Thread) : (s.modThreads ts g).work.nextWave = s.work.nextWave := by
  unfold State.modThreads; induction ts generalizing s with | nil => rfl | cons t r ih => simp [ih]
@[simp] theorem modThreads_nextTeam (ts : List Nat) (g : Thread → Thread) : (s.modThreads ts g).work.nextTeam = s.work.nextTeam := by
  unfold State.modThreads; induction ts generalizing s with | nil => rfl | cons t r ih => simp [ih]
@[simp] theorem modThreads_nextGrid (ts : List Nat) (g : Thread → Thread) : (s.modThreads ts g).work.nextGrid = s.work.nextGrid := by
  unfold State.modThreads; induction ts generalizing s with | nil => rfl | cons t r ih => simp [ih]
@[simp] theorem modThreads_nextTask (ts : List Nat) (g : Thread → Thread) : (s.modThreads ts g).work.nextTask = s.work.nextTask := by
  unfold State.modThreads; induction ts generalizing s with | nil => rfl | cons t r ih => simp [ih]
@[simp] theorem modThreads_nextGroup (ts : List Nat) (g : Thread → Thread) : (s.modThreads ts g).work.nextGroup = s.work.nextGroup := by
  unfold State.modThreads; induction ts generalizing s with | nil => rfl | cons t r ih => simp [ih]
@[simp] theorem modThreads_nextLineage (ts : List Nat) (g : Thread → Thread) : (s.modThreads ts g).work.nextLineage = s.work.nextLineage := by
  unfold State.modThreads; induction ts generalizing s with | nil => rfl | cons t r ih => simp [ih]
@[simp] theorem modThreads_nextCopy (ts : List Nat) (g : Thread → Thread) : (s.modThreads ts g).work.nextCopy = s.work.nextCopy := by
  unfold State.modThreads; induction ts generalizing s with | nil => rfl | cons t r ih => simp [ih]

end Sys2Proof.Laws
end

