-- ==== Sys2Proof/Laws/Table.lean ====
section
/-!
SUPPORT. Table.lean: tables and memory in canonical form: reading after writing, and that every operation on a memory
keeps the canonical form.
-/
namespace Sys2Proof
namespace Laws

open Machine

/-! ## Tables -/

section Tables
variable {α : Type}

@[simp] theorem tab_find_nil (k : Nat) : Tab.find ([] : Tab α) k = none := rfl

theorem tab_find_put (t : Tab α) (k j : Nat) (v : α) :
    Tab.find (Tab.put t k v) j = if j = k then some v else Tab.find t j := by
  induction t with
  | nil =>
    by_cases h : k = j
    · subst h; simp [Tab.put, Tab.find]
    · simp [Tab.put, Tab.find, h, Ne.symm h]
  | cons e r ih =>
    obtain ⟨i, w⟩ := e
    simp only [Tab.put]
    split
    · by_cases h : k = j
      · subst h; simp [Tab.find]
      · simp [Tab.find, h, Ne.symm h]
    · split
      · rename_i h; subst h
        by_cases h : k = j
        · subst h; simp [Tab.find]
        · simp [Tab.find, h, Ne.symm h]
      · simp only [Tab.find, ih]
        by_cases h : i = j
        · subst h
          rename_i h2
          simp [Ne.symm h2]
        · simp [h]

@[simp] theorem tab_find_put_self (t : Tab α) (k : Nat) (v : α) : Tab.find (Tab.put t k v) k = some v := by
  simp [tab_find_put]
theorem tab_find_put_ne (t : Tab α) {k j : Nat} (h : j ≠ k) (v : α) : Tab.find (Tab.put t k v) j = Tab.find t j := by
  simp [tab_find_put, h]
@[simp] theorem tab_get_put_self (t : Tab α) (k : Nat) (v d : α) : Tab.get (Tab.put t k v) k d = v := by
  simp [Tab.get]
theorem tab_get_put (t : Tab α) (k j : Nat) (v d : α) :
    Tab.get (Tab.put t k v) j d = if j = k then v else Tab.get t j d := by
  simp only [Tab.get, tab_find_put]; split <;> simp
theorem tab_get_of_find {t : Tab α} {k : Nat} {v : α} (h : Tab.find t k = some v) (d : α) : Tab.get t k d = v := by
  simp [Tab.get, h]

theorem tab_find_del (t : Tab α) (k j : Nat) : Tab.find (Tab.del t k) j = if j = k then none else Tab.find t j := by
  induction t with
  | nil => simp [Tab.del, Tab.find]
  | cons e r ih =>
    obtain ⟨i, w⟩ := e
    simp only [Tab.del, List.filter_cons] at ih ⊢
    by_cases hk : i = k
    · subst hk
      simp only [bne_self_eq_false, Bool.false_eq_true, if_false, ih, Tab.find]
      by_cases hj : j = i
      · simp [hj]
      · simp [hj, Ne.symm hj]
    · have : (i != k) = true := by simpa using hk
      simp only [this, if_true, Tab.find, ih]
      by_cases hj : i = j
      · subst hj; simp [hk]
      · simp [hj]

/-- Every entry of a table with one put is that entry or an old one. -/
theorem tab_mem_put {t : Tab α} {k : Nat} {v : α} {e : Nat × α} (h : e ∈ Tab.put t k v) : e = (k, v) ∨ e ∈ t := by
  induction t with
  | nil => simpa [Tab.put] using h
  | cons x r ih =>
    obtain ⟨i, w⟩ := x
    simp only [Tab.put] at h
    split at h
    · simpa using h
    · split at h
      · simp only [List.mem_cons] at h ⊢
        rcases h with h | h
        · exact .inl h
        · exact .inr (.inr h)
      · simp only [List.mem_cons] at h ⊢
        rcases h with h | h
        · exact .inr (.inl h)
        · rcases ih h with h | h
          · exact .inl h
          · exact .inr (.inr h)
theorem tab_mem_of_find {t : Tab α} {k : Nat} {v : α} (h : Tab.find t k = some v) : (k, v) ∈ t := by
  induction t with
  | nil => simp at h
  | cons x r ih =>
    obtain ⟨i, w⟩ := x
    simp only [Tab.find] at h
    split at h
    · rename_i e; subst e; simp_all
    · exact List.mem_cons_of_mem _ (ih h)

end Tables

/-! ## Memory -/

/-- A table whose entries are changed in place. -/
theorem tab_find_mapVal {α : Type} (g : α → α) (t : Tab α) (k : Nat) : Tab.find (t.map fun e => (e.1, g e.2)) k = (Tab.find t k).map g := by
  induction t with
  | nil => rfl
  | cons e r ih =>
    simp only [List.map_cons, Tab.find, List.find?_cons] at ih ⊢
    split
    · rfl
    · exact ih
theorem mem_dedup {α : Type} [DecidableEq α] {x : α} : ∀ {l : List α}, x ∈ dedup l → x ∈ l
  | [], h => h
  | y :: r, h => by
    unfold dedup at h
    rcases List.mem_cons.1 h with h | h
    · subst h; exact List.mem_cons_self ..
    · exact List.mem_cons_of_mem _ (mem_dedup (List.mem_filter.1 h).1)


theorem mem_get_set (d : Byte) (m : Mem) (a b : Nat) (v : Byte) (h : Mem.wf d m = true) :
    Mem.get d (Mem.set d m a v) b = if b = a then v else Mem.get d m b := by
  have key : ∀ (m : Mem) (lo : Option Nat), Mem.wfFrom d lo m = true →
      (∀ b, (match lo with | none => False | some n => b ≤ n) → Mem.get d m b = d) ∧
      ∀ b, Mem.get d (Mem.set d m a v) b = if b = a then v else Mem.get d m b := by
    intro m
    induction m with
    | nil =>
      intro lo _
      refine ⟨fun b _ => rfl, fun b => ?_⟩
      simp only [Mem.set]
      by_cases hv : v = d
      · simp [hv, Mem.get]
      · simp only [hv, if_false, Mem.get]
        by_cases hb : b = a
        · simp [hb]
        · simp [hb, Ne.symm hb]
    | cons e r ih =>
      obtain ⟨j, w⟩ := e
      intro lo h
      simp only [Mem.wfFrom, Bool.and_eq_true] at h
      obtain ⟨⟨h1, h2⟩, h3⟩ := h
      obtain ⟨low, ih⟩ := ih _ h3
      refine ⟨fun b hb => ?_, fun b => ?_⟩
      · cases lo with
        | none => exact hb.elim
        | some n =>
          simp only [decide_eq_true_eq] at h1
          have : j ≠ b := by simp only at hb; omega
          simp only [Mem.get, this, if_false]
          exact low b (by simp only at hb ⊢; omega)
      · simp only [Mem.set]
        by_cases haj : a < j
        · have hj : j ≠ a := by omega
          by_cases hv : v = d
          · simp only [haj, hv, if_true]
            by_cases hb : b = a
            · subst hb; simp only [Mem.get, hj, if_false, if_true]; exact low b (by simp only; omega)
            · simp [hb]
          · simp only [haj, hv, if_true, if_false, Mem.get]
            by_cases hb : a = b
            · simp [hb]
            · simp [hb, Ne.symm hb]
        · simp only [haj, if_false]
          by_cases hjj : a = j
          · simp only [hjj, if_true]
            subst hjj
            by_cases hv : v = d
            · simp only [hv, if_true]
              by_cases hb : b = a
              · subst hb; simp only [if_true]; exact low b (by simp)
              · simp [hb, Mem.get, Ne.symm hb]
            · simp only [hv, if_false, Mem.get]
              by_cases hb : b = a
              · simp [hb]
              · simp [hb, Ne.symm hb]
          · simp only [hjj, if_false, Mem.get, ih]
            by_cases hb : j = b
            · have : b ≠ a := by omega
              simp [hb, this]
            · simp [hb]
  exact (key m none h).2 b

theorem mem_set_wf (d : Byte) (m : Mem) (a : Nat) (v : Byte) (h : Mem.wf d m = true) : Mem.wf d (Mem.set d m a v) = true := by
  have key : ∀ (m : Mem) (lo : Option Nat), (∀ n, lo = some n → n < a) → Mem.wfFrom d lo m = true →
      Mem.wfFrom d lo (Mem.set d m a v) = true := by
    intro m
    induction m with
    | nil =>
      intro lo hlo _
      simp only [Mem.set]
      split
      · rfl
      · rename_i hv
        cases lo with
        | none => simp [Mem.wfFrom, hv]
        | some n => simp [Mem.wfFrom, hv, hlo n rfl]
    | cons e r ih =>
      obtain ⟨j, w⟩ := e
      intro lo hlo h
      have h' := h
      simp only [Mem.wfFrom, Bool.and_eq_true] at h
      obtain ⟨⟨h1, h2⟩, h3⟩ := h
      simp only [Mem.set]
      split
      · rename_i haj
        split
        · exact h'
        · rename_i hv
          have : Mem.wfFrom d (some a) ((j, w) :: r) = true := by simp [Mem.wfFrom, haj, h3]; simpa using h2
          cases lo with
          | none => simp only [Mem.wfFrom, Bool.and_eq_true] at this ⊢; simp [hv, this]
          | some n => simp only [Mem.wfFrom, Bool.and_eq_true] at this ⊢; simp [hv, hlo n rfl, this]
      · split
        · rename_i e; subst e
          split
          · cases r with
            | nil => rfl
            | cons e r =>
              obtain ⟨i, x⟩ := e
              simp only [Mem.wfFrom, Bool.and_eq_true] at h3 ⊢
              refine ⟨⟨?_, h3.1.2⟩, h3.2⟩
              cases lo with
              | none => rfl
              | some n => have := h3.1.1; have := hlo n rfl; simp_all; omega
          · rename_i hv
            simp only [Mem.wfFrom, Bool.and_eq_true]
            exact ⟨⟨h1, by simpa using hv⟩, h3⟩
        · simp only [Mem.wfFrom, Bool.and_eq_true]
          refine ⟨⟨h1, h2⟩, ih _ ?_ h3⟩
          intro n hn
          have : j = n := Option.some.inj hn
          omega
  exact key m none (fun _ h => by cases h) h

theorem mem_put_wf (d : Byte) (bs : List Byte) (m : Mem) (a : Nat) (h : Mem.wf d m = true) : Mem.wf d (Mem.put d m a bs) = true := by
  induction bs generalizing m a with
  | nil => exact h
  | cons b r ih => exact ih _ _ (mem_set_wf d m a b h)

/-- A byte read after bytes are written from an address. -/
theorem mem_get_put (d : Byte) (bs : List Byte) (m : Mem) (a b : Nat) (h : Mem.wf d m = true) :
    Mem.get d (Mem.put d m a bs) b = if a ≤ b ∧ b < a + bs.length then bs.getD (b - a) 0 else Mem.get d m b := by
  induction bs generalizing m a with
  | nil => have : ¬(a ≤ b ∧ b < a + 0) := by omega
           simp only [Mem.put, List.length_nil, this, if_false]
  | cons x r ih =>
    simp only [Mem.put, ih _ _ (mem_set_wf d m a x h), mem_get_set d m a b x h, List.length_cons]
    by_cases h1 : b = a
    · subst h1
      have : ¬(b + 1 ≤ b ∧ b < b + 1 + r.length) := by omega
      simp [this]
    · by_cases h2 : a + 1 ≤ b ∧ b < a + 1 + r.length
      · have h3 : a ≤ b ∧ b < a + (r.length + 1) := by omega
        have h4 : b - a = (b - (a + 1)) + 1 := by omega
        simp [h2, h3, h4]
      · have h3 : ¬(a ≤ b ∧ b < a + (r.length + 1)) := by omega
        rw [if_neg h2, if_neg h1, if_neg h3]

/-- Bytes written are read back. -/
theorem mem_bytes_put_same (d : Byte) (bs : List Byte) (m : Mem) (a : Nat) (h : Mem.wf d m = true) :
    Mem.bytes d (Mem.put d m a bs) a bs.length = bs := by
  have key : ∀ (n : Nat) (a' : Nat), Mem.bytes d (Mem.put d m a bs) a' n = (List.range n).map fun i => Mem.get d (Mem.put d m a bs) (a' + i) := by
    intro n
    induction n with
    | zero => intro a'; rfl
    | succ n ih =>
      intro a'
      simp only [Mem.bytes, ih, List.range_succ_eq_map, List.map_cons, List.map_map, Nat.add_zero]
      congr 1
      apply List.map_congr_left
      intro i _
      simp only [Function.comp]
      congr 1; omega
  rw [key]
  apply List.ext_getElem
  · simp
  · intro i h1 h2
    have : a ≤ a + i ∧ a + i < a + bs.length := by omega
    simp [mem_get_put d bs m a _ h, this, h2]

@[simp] theorem mem_nil_wf (d : Byte) : Mem.wf d [] = true := rfl

end Laws
end Sys2Proof
end

