-- ==== Sys2Proof/Laws/Lanes.lean ====
section
/-!
SUPPORT. Lanes.lean: what the shared operations over the threads of a wave do: changing threads, advancing, taking traps,
and the common form of an instruction that computes in each lane.
-/
namespace Sys2Proof.Laws

open Machine

theorem nodup_map_inj {α β : Type} {g : α → β} {l : List α} (h : (l.map g).Nodup) {x y : α} (hx : x ∈ l) (hy : y ∈ l)
    (e : g x = g y) : x = y := by
  induction l with
  | nil => cases hx
  | cons z r ih =>
    obtain ⟨h1, h2⟩ := List.nodup_cons.1 h
    rcases List.mem_cons.1 hx with rfl | hx' <;> rcases List.mem_cons.1 hy with rfl | hy'
    · rfl
    · exact absurd (List.mem_map.2 ⟨y, hy', e.symm⟩) h1
    · exact absurd (List.mem_map.2 ⟨x, hx', e⟩) h1
    · exact ih h2 hx' hy'

theorem mem_of_filter {α : Type} {p : α → Bool} {l : List α} {x : α} (h : x ∈ l.filter p) : x ∈ l := (List.mem_filter.1 h).1

/-! ## Changing threads -/

theorem thread?_setThread (s : State) (k j : Nat) (x : Thread) : (s.setThread k x).thread? j = if j = k then some x else s.thread? j := by
  simp [State.thread?, tab_find_put]
theorem thread?_modThread (s : State) (k j : Nat) (g : Thread → Thread) :
    (s.modThread k g).thread? j = if j = k then (s.thread? k).map g else s.thread? j := by
  unfold State.modThread
  split
  · rename_i x h; rw [thread?_setThread]; split <;> simp [h]
  · rename_i h; split
    · rename_i e; subst e; simp [h]
    · rfl
theorem thread?_modThreads (s : State) (ts : List Nat) (g : Thread → Thread) (hn : ts.Nodup) (j : Nat) :
    (s.modThreads ts g).thread? j = if j ∈ ts then (s.thread? j).map g else s.thread? j := by
  unfold State.modThreads
  induction ts generalizing s with
  | nil => simp
  | cons t r ih =>
    obtain ⟨h1, h2⟩ := List.nodup_cons.1 hn
    simp only [List.foldl_cons, ih _ h2, thread?_modThread, List.mem_cons]
    by_cases e : j = t
    · subst e; simp [h1]
    · simp [e]
theorem thread?_modThreads_of_notMem (s : State) (ts : List Nat) (g : Thread → Thread) (j : Nat) (h : j ∉ ts) :
    (s.modThreads ts g).thread? j = s.thread? j := by
  unfold State.modThreads
  induction ts generalizing s with
  | nil => rfl
  | cons t r ih =>
    simp only [List.mem_cons, not_or] at h
    simp only [List.foldl_cons, ih _ h.2, thread?_modThread, h.1, if_false]
theorem thread_of_thread? {s : State} {k : Nat} {x : Thread} (h : s.thread? k = some x) : s.thread k = x :=
  tab_get_of_find h _

/-- Threads changed one after another, each once: what each change makes of the thread as it stood. -/
theorem thread?_foldl_modThread {α : Type} (id : α → Nat) (g : α → Thread → Thread) (l : List α) (s : State) (hn : (l.map id).Nodup)
    (x : α) (hx : x ∈ l) : (l.foldl (fun s e => s.modThread (id e) (g e)) s).thread? (id x) = (s.thread? (id x)).map (g x) := by
  have other : ∀ (r : List α) (s : State) (k : Nat), k ∉ r.map id → (r.foldl (fun s e => s.modThread (id e) (g e)) s).thread? k = s.thread? k := by
    intro r
    induction r with
    | nil => intro s k _; rfl
    | cons y r ih =>
      intro s k hk
      simp only [List.map_cons, List.mem_cons, not_or] at hk
      rw [List.foldl_cons, ih _ _ hk.2, thread?_modThread, if_neg hk.1]
  induction l generalizing s with
  | nil => cases hx
  | cons y r ih =>
    obtain ⟨h1, h2⟩ := List.nodup_cons.1 hn
    rw [List.foldl_cons]
    rcases List.mem_cons.1 hx with rfl | hx
    · rw [other _ _ _ h1, thread?_modThread, if_pos rfl]
    · have hne : id x ≠ id y := fun e => h1 (e ▸ List.mem_map.2 ⟨x, hx, rfl⟩)
      rw [ih _ h2 hx, thread?_modThread, if_neg hne]
/-- A listed entry is what its key finds, where keys are distinct. -/
theorem tab_find_of_mem {α : Type} {t : Tab α} (hn : (t.map (·.1)).Nodup) {e : Nat × α} (he : e ∈ t) : Tab.find t e.1 = some e.2 := by
  induction t with
  | nil => cases he
  | cons x r ih =>
    obtain ⟨h1, h2⟩ := List.nodup_cons.1 hn
    rcases List.mem_cons.1 he with rfl | he'
    · obtain ⟨k, v⟩ := e; simp [Tab.find]
    · obtain ⟨k, v⟩ := x
      have : k ≠ e.1 := fun h => h1 (List.mem_map.2 ⟨e, he', h.symm⟩)
      simp only [Tab.find, this, if_false]
      exact ih h2 he'

/-! ## States that differ in threads, or in threads and cores -/

theorem sameT_refl (s : State) : SameButThreads s s := rfl
theorem sameT_trans {s t u : State} (h : SameButThreads s t) (h' : SameButThreads t u) : SameButThreads s u := by
  unfold SameButThreads at *; rw [h'] ; rw [h]
theorem sameTC_refl (s : State) : SameButThreadsCores s s := rfl
theorem sameTC_trans {s t u : State} (h : SameButThreadsCores s t) (h' : SameButThreadsCores t u) : SameButThreadsCores s u := by
  unfold SameButThreadsCores at *; rw [h'] ; rw [h]
theorem sameTC_of_sameT {s t : State} (h : SameButThreads s t) : SameButThreadsCores s t := by
  unfold SameButThreads SameButThreadsCores at *; rw [h]
theorem sameT_modThread (s : State) (k : Nat) (g : Thread → Thread) : SameButThreads s (s.modThread k g) := by
  unfold State.modThread; split <;> rfl
theorem sameT_modThreads (s : State) (ts : List Nat) (g : Thread → Thread) : SameButThreads s (s.modThreads ts g) := by
  unfold State.modThreads
  induction ts generalizing s with
  | nil => rfl
  | cons t r ih => exact sameT_trans (sameT_modThread s t g) (ih _)
theorem sameT_foldl {α : Type} (step : State → α → State) (h : ∀ s x, SameButThreads s (step s x)) (l : List α) (s : State) :
    SameButThreads s (l.foldl step s) := by
  induction l generalizing s with
  | nil => rfl
  | cons x r ih => exact sameT_trans (h s x) (ih _)
theorem sameTC_foldl {α : Type} (step : State → α → State) (h : ∀ s x, SameButThreadsCores s (step s x)) (l : List α) (s : State) :
    SameButThreadsCores s (l.foldl step s) := by
  induction l generalizing s with
  | nil => rfl
  | cons x r ih => exact sameTC_trans (h s x) (ih _)
theorem sameTC_modCore (s : State) (c : Nat) (g : Core → Core) : SameButThreadsCores s (s.modCore c g) := rfl
theorem thread?_foldl_of {α : Type} (step : State → α → State) (j : Nat) (l : List α)
    (h : ∀ s, ∀ x ∈ l, (step s x).thread? j = s.thread? j) (s : State) : (l.foldl step s).thread? j = s.thread? j := by
  induction l generalizing s with
  | nil => rfl
  | cons x r ih =>
    rw [List.foldl_cons, ih (fun s y hy => h s y (List.mem_cons_of_mem _ hy)), h s x (List.mem_cons_self ..)]

/-! ## Taking traps -/

theorem sameTC_takePriv (s : State) (ids : List Nat) (a : TrapAt) (v : TrapVal) : SameButThreadsCores s (takePriv s ids a v) := by
  unfold takePriv
  split
  · exact sameTC_refl s
  · simp only
    have h : ∀ b g, SameButThreadsCores s (((s.countTraps (s.coreOf (s.thread ‹Nat›)) 1).modCore
        (s.coreOf (s.thread ‹Nat›)) b).modThreads ids g) := fun b g =>
      sameTC_trans (sameTC_modCore s _ _) (sameTC_trans (sameTC_modCore _ _ _) (sameTC_of_sameT (sameT_modThreads _ _ _)))
    split
    · exact sameTC_trans (h _ _) (sameTC_modCore _ _ _)
    · exact sameTC_trans (h _ _) (sameTC_modCore _ _ _)
theorem thread?_modCore (s : State) (c : Nat) (g : Core → Core) (j : Nat) : (s.modCore c g).thread? j = s.thread? j := rfl
theorem takePriv_thread? (s : State) (ids : List Nat) (a : TrapAt) (v : TrapVal) (j : Nat) (h : j ∉ ids) :
    (takePriv s ids a v).thread? j = s.thread? j := by
  unfold takePriv
  split
  · rfl
  · simp only
    split
    · rw [thread?_modCore, thread?_modThreads_of_notMem _ _ _ _ h]; rfl
    · rw [thread?_modCore, thread?_modThreads_of_notMem _ _ _ _ h]; rfl

theorem mem_insertBy {α : Type} (key : α → Nat) (x y : α) (l : List α) : y ∈ insertBy key x l ↔ y = x ∨ y ∈ l := by
  induction l with
  | nil => simp [insertBy]
  | cons z r ih =>
    simp only [insertBy]
    split
    · simp
    · simp only [List.mem_cons, ih]
      constructor
      · rintro (h | h | h) <;> simp [h]
      · rintro (h | h | h) <;> simp [h]
theorem mem_sortBy {α : Type} (key : α → Nat) (y : α) (l : List α) : y ∈ sortBy key l ↔ y ∈ l := by
  have : ∀ acc, y ∈ l.foldl (fun acc x => insertBy key x acc) acc ↔ y ∈ l ∨ y ∈ acc := by
    induction l with
    | nil => simp
    | cons x r ih =>
      intro acc
      simp only [List.foldl_cons, ih, mem_insertBy, List.mem_cons]
      constructor
      · rintro (h | h | h) <;> simp [h]
      · rintro ((h | h) | h) <;> simp [h]
  simpa [sortBy] using this []

theorem insertBy_perm {α : Type} (key : α → Nat) (x : α) (l : List α) : (insertBy key x l).Perm (x :: l) := by
  induction l with
  | nil => exact .refl _
  | cons y r ih =>
    simp only [insertBy]
    split
    · exact .refl _
    · exact (List.Perm.cons y ih).trans (List.Perm.swap x y r)
/-- Sorting keeps every element as often as it stands. -/
theorem sortBy_perm {α : Type} (key : α → Nat) (l : List α) : (sortBy key l).Perm l := by
  have : ∀ acc, (l.foldl (fun acc x => insertBy key x acc) acc).Perm (l ++ acc) := by
    induction l with
    | nil => intro acc; exact .refl _
    | cons x r ih =>
      intro acc
      exact (ih _).trans ((List.Perm.append_left r (insertBy_perm key x acc)).trans List.perm_middle)
  simpa [sortBy] using this []

theorem sameTC_takePrivs (s : State) (a : TrapAt) (ts : List (Lane × TrapVal)) : SameButThreadsCores s (takePrivs s a ts) := by
  unfold takePrivs
  simp only
  apply sameTC_foldl
  intro s x
  split
  · exact sameTC_refl s
  · exact sameTC_takePriv _ _ _ _
theorem takePrivs_thread? (s : State) (a : TrapAt) (ts : List (Lane × TrapVal)) (j : Nat) (h : ∀ e ∈ ts, e.1.id ≠ j) :
    (takePrivs s a ts).thread? j = s.thread? j := by
  unfold takePrivs
  simp only
  apply thread?_foldl_of
  intro s x _
  split
  · rfl
  · apply takePriv_thread?
    simp only [List.mem_map, List.mem_filter, mem_sortBy, not_exists, not_and, and_imp]
    intro e he _ heq
    exact h e he heq
@[simp] theorem takePrivs_nil (s : State) (a : TrapAt) : takePrivs s a [] = s := rfl

/-- What the user-level trap of a lane makes of its thread. -/
def userTrapped (s : State) (f : Fields) (l : Lane) (a : TrapAt) (v : TrapVal) (t : Thread) : Thread :=
  { t with
    trap := { cause := v.cause, epc := a.epc, eaddr := v.eaddr, einfo := v.einfo
              efldA := a.word.extractLsb' 64 32, efldB := a.word.extractLsb' 32 32, efldC := a.word.extractLsb' 0 32
              efldD := efldD a v, next := succPc a.pc
              evalA := src32 s f l f.a, evalB := src32 s f l f.b, evalC := src32 s f l f.c }
    resv := none, savedQ := t.q, q := Vector.replicate 8 0, handler := true
    pc := vecEntry (s.ctx (s.ctxOf l.th)).uvec, park := none, pages := [] }
theorem enterUser_eq (s : State) (f : Fields) (l : Lane) (a : TrapAt) (v : TrapVal) :
    enterUser s f l a v = s.modThread l.id (userTrapped s f l a v) := rfl
theorem userTrapped_sameT {s s' : State} (h : SameButThreads s s') (f : Fields) (l : Lane) (a : TrapAt) (v : TrapVal) :
    userTrapped s' f l a v = userTrapped s f l a v := by
  have hs : ∀ o, src32 s' f l o = src32 s f l o := by
    intro o; unfold src32; rw [h]; cases o <;> rfl
  have hc : (s'.ctx (s'.ctxOf l.th)).uvec = (s.ctx (s.ctxOf l.th)).uvec := by rw [h]; rfl
  funext t
  simp only [userTrapped, hs, hc]

theorem sameT_enterUsers (s : State) (f : Fields) (a : TrapAt) (ts : List (Lane × TrapVal)) :
    SameButThreads s (ts.foldl (fun s' e => enterUser s' f e.1 a e.2) s) :=
  sameT_foldl _ (fun s e => by rw [enterUser_eq]; exact sameT_modThread _ _ _) _ _
theorem enterUsers_thread? (s s0 : State) (h : SameButThreads s s0) (f : Fields) (a : TrapAt) (ts : List (Lane × TrapVal))
    (hn : (ts.map fun e => e.1.id).Nodup) (j : Nat) :
    (ts.foldl (fun s' e => enterUser s' f e.1 a e.2) s0).thread? j =
      match ts.find? (fun e => e.1.id == j) with
      | some e => (s0.thread? j).map (userTrapped s f e.1 a e.2)
      | none => s0.thread? j := by
  induction ts generalizing s0 with
  | nil => rfl
  | cons e r ih =>
    obtain ⟨h1, h2⟩ := List.nodup_cons.1 hn
    rw [List.foldl_cons, ih _ (sameT_trans h (by rw [enterUser_eq]; exact sameT_modThread _ _ _)) h2, List.find?_cons, enterUser_eq]
    simp only [thread?_modThread, userTrapped_sameT h]
    by_cases hj : e.1.id = j
    · have : r.find? (fun x => x.1.id == j) = none := by
        rw [List.find?_eq_none]
        intro x hx hxj
        exact h1 (List.mem_map.2 ⟨x, hx, by simpa [hj] using hxj⟩)
      simp [hj, this]
    · have : (e.1.id == j) = false := by simpa using hj
      simp [this, Ne.symm hj]

/-- Everything that the user-level traps of a list of lanes do, where each lane stands for a thread of its own: nothing but
threads and cores changes, a thread outside the list is as it was, and a thread whose trap does not escalate enters its
handler. -/
theorem takeUsers_spec (s s0 : State) (h : SameButThreads s s0) (f : Fields) (a : TrapAt) (ts : List (Lane × TrapVal))
    (hn : (ts.map fun e => e.1.id).Nodup) :
    SameButThreadsCores s0 (takeUsers s0 f a ts) ∧
    (∀ j, (∀ e ∈ ts, e.1.id ≠ j) → (takeUsers s0 f a ts).thread? j = s0.thread? j) ∧
    (∀ e ∈ ts, escalates s e.1.th = false →
      (takeUsers s0 f a ts).thread? e.1.id = (s0.thread? e.1.id).map (userTrapped s f e.1 a e.2)) := by
  have hesc : ∀ t, escalates s0 t = escalates s t := by intro t; unfold escalates; rw [h]; rfl
  have sub : ∀ (p : Lane × TrapVal → Bool), ((ts.filter p).map fun e => e.1.id).Nodup := fun p =>
    List.Nodup.sublist (List.Sublist.map _ List.filter_sublist) hn
  have inj : ∀ e ∈ ts, ∀ e' ∈ ts, e.1.id = e'.1.id → e = e' := by
    intro e he e' he' heq
    exact nodup_map_inj hn he he' heq
  unfold takeUsers
  simp only
  generalize hs1 : List.foldl (fun s' (e : Lane × TrapVal) => enterUser s' f e.1 a e.2) s0 (ts.filter fun e => !escalates s0 e.1.th) = s1
  have hT1 : SameButThreads s0 s1 := hs1 ▸ sameT_enterUsers _ _ _ _
  have th1 : ∀ j, s1.thread? j = match (ts.filter fun e => !escalates s0 e.1.th).find? (fun e => e.1.id == j) with
      | some e => (s0.thread? j).map (userTrapped s f e.1 a e.2)
      | none => s0.thread? j := fun j => hs1 ▸ enterUsers_thread? s s0 h f a _ (sub _) j
  suffices main : ∀ s2, SameButThreadsCores s1 s2 → (∀ j, s2.thread? j = s1.thread? j) →
      SameButThreadsCores s0 (takePrivs (takePrivs s2 { a with nested := false }
        ((ts.filter fun e => escalates s0 e.1.th).filter fun e => !e.1.th.handler)) { a with nested := true }
        ((ts.filter fun e => escalates s0 e.1.th).filter fun e => e.1.th.handler)) ∧
      (∀ j, (∀ e ∈ ts, e.1.id ≠ j) → (takePrivs (takePrivs s2 { a with nested := false }
        ((ts.filter fun e => escalates s0 e.1.th).filter fun e => !e.1.th.handler)) { a with nested := true }
        ((ts.filter fun e => escalates s0 e.1.th).filter fun e => e.1.th.handler)).thread? j = s0.thread? j) ∧
      (∀ e ∈ ts, escalates s e.1.th = false → (takePrivs (takePrivs s2 { a with nested := false }
        ((ts.filter fun e => escalates s0 e.1.th).filter fun e => !e.1.th.handler)) { a with nested := true }
        ((ts.filter fun e => escalates s0 e.1.th).filter fun e => e.1.th.handler)).thread? e.1.id =
          (s0.thread? e.1.id).map (userTrapped s f e.1 a e.2)) by
    apply main
    · split
      · exact sameTC_refl _
      · exact sameTC_modCore _ _ _
    · intro j; split <;> rfl
  intro s2 hT2 th2
  refine ⟨?_, ?_, ?_⟩
  · exact sameTC_trans (sameTC_of_sameT hT1) (sameTC_trans hT2 (sameTC_trans (sameTC_takePrivs _ _ _) (sameTC_takePrivs _ _ _)))
  · intro j hj
    rw [takePrivs_thread?, takePrivs_thread?, th2, th1]
    · have : (ts.filter fun e => !escalates s0 e.1.th).find? (fun e => e.1.id == j) = none := by
        rw [List.find?_eq_none]
        intro x hx hxj
        exact hj x (mem_of_filter hx) (by simpa using hxj)
      rw [this]
    · intro e he; exact hj e (mem_of_filter (mem_of_filter he))
    · intro e he; exact hj e (mem_of_filter (mem_of_filter he))
  · intro e he hne
    have other : ∀ e' ∈ ts.filter fun e => escalates s0 e.1.th, e'.1.id ≠ e.1.id := by
      intro e' he' heq
      obtain ⟨m, hm⟩ := List.mem_filter.1 he'
      have := inj e' m e he heq
      subst this
      rw [hesc, hne] at hm; cases hm
    rw [takePrivs_thread?, takePrivs_thread?, th2, th1]
    · have : (ts.filter fun e => !escalates s0 e.1.th).find? (fun x => x.1.id == e.1.id) = some e := by
        cases hf : (ts.filter fun e => !escalates s0 e.1.th).find? (fun x => x.1.id == e.1.id) with
        | none =>
          rw [List.find?_eq_none] at hf
          exact absurd (by simp : (e.1.id == e.1.id) = true) (hf e (List.mem_filter.2 ⟨he, by rw [hesc, hne]; rfl⟩))
        | some x =>
          have h1 := List.mem_of_find?_eq_some hf
          have h2 := List.find?_some hf
          rw [inj x (mem_of_filter h1) e he (by simpa using h2)]
      rw [this]
    · intro e' he'; exact other e' (mem_of_filter he')
    · intro e' he'; exact other e' (mem_of_filter he')
theorem takeUsers_nil (s : State) (f : Fields) (a : TrapAt) : takeUsers s f a [] = s := rfl

/-! ## The common form of a lane instruction -/

theorem execLanes_sub {s : State} {f : Fields} {l : Lane} (h : l ∈ s.execLanes f) : l ∈ s.activeNow := mem_of_filter h
theorem execLanes_guard {s : State} {f : Fields} {l : Lane} (h : l ∈ s.execLanes f) : guardOk f l.th = true :=
  (List.mem_filter.1 h).2
theorem lanes_inj {s : State} (h : LanesSound s) {l l' : Lane} (hl : l ∈ s.activeNow) (hl' : l' ∈ s.activeNow) (e : l.id = l'.id) :
    l = l' := nodup_map_inj h.1 hl hl' e

/-- Every active thread of a sound wave stands at the successor after advance, and nothing else has changed. -/
theorem advance_spec (s : State) (h : LanesSound s) :
    SameButThreads s (advance s) ∧ (∀ l ∈ s.activeNow, (advance s).thread? l.id = some (nextTh s l.th)) ∧
    ∀ k, k ∉ s.activeNow.map Lane.id → (advance s).thread? k = s.thread? k := by
  refine ⟨sameT_modThreads _ _ _, fun l hl => ?_, fun k hk => thread?_modThreads_of_notMem _ _ _ _ hk⟩
  have e : advance s = s.modThreads (s.activeNow.map Lane.id) (nextTh s) := rfl
  rw [e, thread?_modThreads _ _ _ h.1, if_pos (List.mem_map.2 ⟨l, hl, rfl⟩), h.2 l hl]
  rfl

/-- Everything that an instruction in the common lane form does. -/
theorem perLane_spec (f : Fields) (out : State → Lane → LaneOut) (also : State → Lane → Thread → Thread) (s : State) (hs : LanesSound s) :
    (∀ l ∈ s.execLanes f, (out s l).isTrap = false → (perLane f out also s).thread? l.id = some (laneDone f out also s l)) ∧
    (∀ l ∈ s.activeNow, guardOk f l.th = false → (perLane f out also s).thread? l.id = some (nextTh s l.th)) ∧
    (∀ l ∈ s.execLanes f, ∀ v, out s l = .trap v → escalates s l.th = false →
      (perLane f out also s).thread? l.id = (enterUser s f l s.here v).thread? l.id) ∧
    (∀ k, k ∉ s.activeNow.map Lane.id → (perLane f out also s).thread? k = s.thread? k) ∧
    SameButThreadsCores s (perLane f out also s) ∧
    ((∀ l ∈ s.execLanes f, (out s l).isTrap = false) → SameButThreads s (perLane f out also s)) := by
  obtain ⟨a1, a2, a3⟩ := advance_spec s hs
  have hexn : ((s.execLanes f).map Lane.id).Nodup := List.Nodup.sublist (List.Sublist.map _ List.filter_sublist) hs.1
  unfold perLane
  simp only
  generalize hres : ((s.execLanes f).map fun l => (l, out s l)) = res
  generalize hs2 : res.foldl (fun s' e => match e.2 with
    | .trap _ => s'
    | o => s'.modThread e.1.id fun t => also s e.1 (writeOut f o t)) (advance s) = s2
  have hresn : (res.map fun e => e.1.id).Nodup := by subst hres; simpa [List.map_map, Function.comp_def] using hexn
  have key : ∀ (r : List (Lane × LaneOut)) (s0 : State), (r.map fun e => e.1.id).Nodup →
      SameButThreads s0 (r.foldl (fun s' e => match e.2 with
        | .trap _ => s'
        | o => s'.modThread e.1.id fun t => also s e.1 (writeOut f o t)) s0) ∧
      ∀ j, (r.foldl (fun s' e => match e.2 with
        | .trap _ => s'
        | o => s'.modThread e.1.id fun t => also s e.1 (writeOut f o t)) s0).thread? j =
        match r.find? (fun e => e.1.id == j) with
        | some e => if e.2.isTrap then s0.thread? j else (s0.thread? j).map fun t => also s e.1 (writeOut f e.2 t)
        | none => s0.thread? j := by
    intro r
    induction r with
    | nil => intro s0 _; exact ⟨rfl, fun _ => rfl⟩
    | cons e r ih =>
      intro s0 hn
      obtain ⟨h1, h2⟩ := List.nodup_cons.1 hn
      have hnone : ∀ j, e.1.id = j → r.find? (fun x => x.1.id == j) = none := by
        intro j hj
        rw [List.find?_eq_none]
        intro x hx hxj
        exact h1 (List.mem_map.2 ⟨x, hx, by simpa [hj] using hxj⟩)
      rw [List.foldl_cons]
      obtain ⟨l, o⟩ := e
      cases o with
      | trap v =>
        obtain ⟨i1, i2⟩ := ih s0 h2
        refine ⟨i1, fun j => ?_⟩
        rw [i2 j, List.find?_cons]
        by_cases hj : l.id = j
        · have hn := hnone j hj
          simp [hj, hn, LaneOut.isTrap]
        · have : (l.id == j) = false := by simpa using hj
          simp only [this]
      | none | value _ _ | many _ | pred _ =>
        all_goals
          obtain ⟨i1, i2⟩ := ih (s0.modThread l.id fun t => also s l (writeOut f _ t)) h2
          refine ⟨sameT_trans (sameT_modThread _ _ _) i1, fun j => ?_⟩
          refine Eq.trans (i2 j) ?_
          rw [List.find?_cons]
          simp only [thread?_modThread]
          by_cases hj : l.id = j
          · have hn := hnone j hj
            simp [hj, hn, LaneOut.isTrap]
          · have : (l.id == j) = false := by simpa using hj
            simp only [this, Ne.symm hj, if_false]
  obtain ⟨b1, b2⟩ := key res (advance s) hresn
  rw [hs2] at b1 b2
  have hT : SameButThreads s s2 := sameT_trans a1 b1
  generalize htr : (res.filterMap fun e => match e.2 with | .trap v => some (e.1, v) | _ => none) = tr
  have memtr : ∀ e : Lane × TrapVal, e ∈ tr ↔ e.1 ∈ s.execLanes f ∧ out s e.1 = .trap e.2 := by
    intro e
    subst htr; subst hres
    simp only [List.mem_filterMap, List.mem_map]
    constructor
    · rintro ⟨_, ⟨l, hl, rfl⟩, he⟩
      simp only at he
      cases ho : out s l <;> rw [ho] at he <;> simp at he
      subst he; exact ⟨hl, ho⟩
    · rintro ⟨h1, h2⟩
      exact ⟨_, ⟨e.1, h1, rfl⟩, by simp only [h2]⟩
  have htrn : (tr.map fun e => e.1.id).Nodup := by
    subst htr; subst hres
    have : ∀ ls : List Lane, (ls.map Lane.id).Nodup →
        (((ls.map fun l => (l, out s l)).filterMap fun e => match e.2 with | .trap v => some (e.1, v) | _ => none).map fun e => e.1.id).Nodup := by
      intro ls
      induction ls with
      | nil => intro _; simp
      | cons l r ih =>
        intro hn
        obtain ⟨h1, h2⟩ := List.nodup_cons.1 hn
        have := ih h2
        simp only [List.map_cons, List.filterMap_cons]
        cases ho : out s l <;> simp only [] <;> try exact this
        rw [List.map_cons, List.nodup_cons]
        refine ⟨?_, this⟩
        simp only [List.mem_map, List.mem_filterMap, not_exists, not_and]
        rintro x ⟨_, ⟨l', hl', rfl⟩, hx⟩ hid
        simp only at hx
        cases ho' : out s l' <;> rw [ho'] at hx <;> simp at hx
        subst hx
        exact h1 (List.mem_map.2 ⟨l', hl', hid⟩)
    exact this _ hexn
  obtain ⟨u1, u2, u3⟩ := takeUsers_spec s s2 hT f s.here tr htrn
  have find_res : ∀ l ∈ s.execLanes f, res.find? (fun e => e.1.id == l.id) = some (l, out s l) := by
    intro l hl
    cases hf : res.find? (fun e => e.1.id == l.id) with
    | none =>
      rw [List.find?_eq_none] at hf
      subst hres
      exact absurd (by simp) (hf (l, out s l) (List.mem_map.2 ⟨l, hl, rfl⟩))
    | some x =>
      have h1 := List.mem_of_find?_eq_some hf
      have h2 := List.find?_some hf
      subst hres
      obtain ⟨l', hl', rfl⟩ := List.mem_map.1 h1
      rw [lanes_inj hs (execLanes_sub hl') (execLanes_sub hl) (by simpa using h2)]
  have find_none : ∀ j, (∀ l ∈ s.execLanes f, l.id ≠ j) → res.find? (fun e => e.1.id == j) = none := by
    intro j hj
    rw [List.find?_eq_none]
    intro x hx hxj
    subst hres
    obtain ⟨l', hl', rfl⟩ := List.mem_map.1 hx
    exact hj l' hl' (by simpa using hxj)
  refine ⟨?_, ?_, ?_, ?_, sameTC_trans (sameTC_of_sameT hT) u1, ?_⟩
  · intro l hl ho
    rw [u2, b2, find_res l hl, a2 l (execLanes_sub hl)]
    · simp [ho, laneDone]
    · intro e he heq
      obtain ⟨m, hm⟩ := (memtr e).1 he
      have := lanes_inj hs (execLanes_sub m) (execLanes_sub hl) heq
      subst this
      rw [hm] at ho; cases ho
  · intro l hl hg
    have no : ∀ l' ∈ s.execLanes f, l'.id ≠ l.id := by
      intro l' hl' heq
      have := lanes_inj hs (execLanes_sub hl') hl heq
      subst this
      rw [execLanes_guard hl'] at hg; cases hg
    rw [u2, b2, find_none _ no, a2 l hl]
    intro e he; exact no e.1 ((memtr e).1 he).1
  · intro l hl v ho he
    rw [u3 (l, v) ((memtr _).2 ⟨hl, ho⟩) he, b2, find_res l hl, enterUser_eq, thread?_modThread]
    simp only [ho, LaneOut.isTrap, if_true, a2 l (execLanes_sub hl), hs.2 l (execLanes_sub hl), Option.map_some]
    rfl
  · intro k hk
    have no : ∀ l' ∈ s.execLanes f, l'.id ≠ k := fun l' hl' heq => hk (List.mem_map.2 ⟨l', execLanes_sub hl', heq⟩)
    rw [u2, b2, find_none _ no, a3 k hk]
    intro e he; exact no e.1 ((memtr e).1 he).1
  · intro hno
    have : tr = [] := by
      rw [List.eq_nil_iff_forall_not_mem]
      intro e he
      obtain ⟨m, hm⟩ := (memtr e).1 he
      have := hno _ m
      rw [hm] at this; cases this
    rw [this, takeUsers_nil]
    exact hT

/-- An instruction whose meaning is the common lane form does what that form does. -/
theorem laneEffect_of (i : Instr) (f : Fields) (out : State → Lane → LaneOut) (also : State → Lane → Thread → Thread)
    (h : ∀ s, exec i s = .next (perLane f out also s)) : LaneEffect i f out also :=
  fun s hs => ⟨perLane f out also s, h s, perLane_spec f out also s hs⟩

end Sys2Proof.Laws
end

