-- ==== Sys2Proof/Laws/Memory.lean ====
section
/-!
SUPPORT. Memory.lean: what the shared operations over memory do where nothing stands in their way: reads, home writes, a
load of a whole wave, and the frames of the operations on an L1.
-/
namespace Sys2Proof.Laws

open Machine

/-! ## Homes without partials -/

theorem mergeLine_quiet (s : State) (line : Nat) (h : (dirOf s line).st ≠ .b) : mergeLine line s = s := by
  unfold mergeLine
  simp only
  rw [if_pos (by simpa [bne] using h)]
theorem settleLine_idle (s : State) (line : Nat) (h : (dirOf s line).pending = false) : settleLine line s = s := by
  unfold settleLine
  rw [if_neg (by simp [h])]
theorem farRead_quiet (s : State) (pa n : Nat) (h : CalmLine s (lineOf pa)) (hh : s.home.hostHeld = []) :
    farRead pa n s = (homeBytes s pa n, s) := by
  unfold farRead
  simp [settleLine_idle s _ h.2, mergeLine_quiet s _ h.1, hh]
/-- Lines on which nothing is in progress are settled. -/
theorem settleAll_idle (pas : List Nat) (s : State) (h : ∀ pa ∈ pas, (dirOf s (lineOf pa)).pending = false) : settleAll pas s = s := by
  unfold settleAll
  have hd : ∀ k ∈ dedup (pas.map lineOf), (dirOf s k).pending = false := by
    intro k hk
    obtain ⟨pa, hp, rfl⟩ := List.mem_map.1 (mem_dedup hk)
    exact h pa hp
  generalize dedup (pas.map lineOf) = ks at hd
  induction ks with
  | nil => rfl
  | cons k r ih =>
    rw [List.foldl_cons, settleLine_idle _ _ (hd k (List.mem_cons_self ..))]
    exact ih fun j hj => hd j (List.mem_cons_of_mem _ hj)

/-! ## States that differ in cores and the L2 -/

/-- Nothing but cores and the L2 differs, and no L1 gains an SWM line or a partial. -/
def Hinted (s t : State) : Prop :=
  t = { s with cores := t.cores, home := { s.home with l2 := t.home.l2, l2Wait := t.home.l2Wait } } ∧ ∀ c, QuietL1 s c → QuietL1 t c
theorem hinted_refl (s : State) : Hinted s s := ⟨rfl, fun _ h => h⟩
theorem hinted_trans {s t u : State} (h : Hinted s t) (h' : Hinted t u) : Hinted s u := by
  refine ⟨?_, fun c q => h'.2 c (h.2 c q)⟩
  have a := h.1; have b := h'.1
  rw [b]; rw [a]
theorem quietL1_setL1 {s : State} {c line : Nat} {l : L1Line} (hl : l.st ≠ .swm ∧ l.st ≠ .b) (k : Nat) (h : QuietL1 s k) :
    QuietL1 (setL1 c line l s) k := by
  unfold QuietL1 setL1 at *
  simp only [State.core, modCore_cores, tab_get_put]
  by_cases e : k = c
  · subst e
    rw [if_pos rfl]
    intro x hx
    rcases tab_mem_put hx with rfl | hx
    · exact hl
    · exact h x hx
  · rw [if_neg e]; exact h
theorem l1Line_quiet {s : State} {c line : Nat} {l : L1Line} (h : QuietL1 s c) (e : l1Line s c line = some l) : l.st ≠ .swm ∧ l.st ≠ .b :=
  h _ (tab_mem_of_find e)
theorem hinted_setL1 {s : State} {c line : Nat} {l : L1Line} (hl : l.st ≠ .swm ∧ l.st ≠ .b) : Hinted s (setL1 c line l s) :=
  ⟨rfl, fun k h => quietL1_setL1 hl k h⟩
theorem leastBy_mem {α : Type} (key : α → Nat) : ∀ (l : List α) (x : α), leastBy key l = some x → x ∈ l
  | [], _, h => by cases h
  | y :: r, x, h => by
    unfold leastBy at h
    cases hr : leastBy key r with
    | none => rw [hr] at h; simp only [Option.some.injEq] at h; subst h; exact List.mem_cons_self ..
    | some z =>
      rw [hr] at h
      simp only at h
      split at h
      · cases h; exact List.mem_cons_of_mem _ (leastBy_mem key r _ hr)
      · cases h; exact List.mem_cons_self ..
theorem hinted_demoteLast {s : State} {c line : Nat} (q : QuietL1 s c) : Hinted s (demoteLast c line s) := by
  unfold demoteLast
  simp only
  split
  · exact hinted_refl s
  · split
    · rename_i e he
      have := leastBy_mem _ _ _ he
      have hm : e ∈ (s.core c).l1 := (List.mem_filter.1 ((List.mem_filter.1 this).1)).1
      exact hinted_setL1 (q e hm)
    · exact hinted_refl s
/-- A change of the home that touches the L2 alone. -/
def OnlyL2 (g : Home → Home) : Prop := ∀ h, g h = { h with l2 := (g h).l2, l2Wait := (g h).l2Wait }
theorem onlyL2_demote (line : Nat) : OnlyL2 (l2Demote line) := by
  intro h
  unfold l2Demote
  simp only
  split
  · rfl
  · split <;> rfl
theorem onlyL2_put (line : Nat) (hint : BitVec 2) (v d : BitVec 4) (clock : Nat) : OnlyL2 (l2Put line hint v d clock) := by
  intro h
  unfold l2Put
  simp only
  split
  · rw [onlyL2_demote line h]
  · rfl
theorem onlyL2_touch (line : Nat) (hint : BitVec 2) (v d : BitVec 4) (s : State) : ∃ g, OnlyL2 g ∧ l2Touch line hint v d s = s.modHome g := by
  refine ⟨_, ?_, rfl⟩
  intro h
  simp only
  split
  · exact onlyL2_put line hint v d s.clock h
  · split <;> rfl
theorem onlyL2_dirty (line : Nat) (d : BitVec 4) (s : State) : ∃ g, OnlyL2 g ∧ l2Dirty line d s = s.modHome g := by
  refine ⟨_, ?_, rfl⟩
  intro h
  simp only
  split <;> rfl
theorem hinted_onlyL2 {s : State} {g : Home → Home} (h : OnlyL2 g) : Hinted s (s.modHome g) := by
  refine ⟨?_, fun _ q => q⟩
  have := h s.home
  show ({ s with home := g s.home } : State) = _
  rw [this]
  rfl
theorem hinted_l2Touch (line : Nat) (hint : BitVec 2) (v d : BitVec 4) (s : State) : Hinted s (l2Touch line hint v d s) := by
  obtain ⟨g, h, e⟩ := onlyL2_touch line hint v d s
  rw [e]; exact hinted_onlyL2 h
theorem hinted_l2Dirty (line : Nat) (d : BitVec 4) (s : State) : Hinted s (l2Dirty line d s) := by
  obtain ⟨g, h, e⟩ := onlyL2_dirty line d s
  rw [e]; exact hinted_onlyL2 h
theorem hinted_touchHint {s : State} {c line : Nat} {hint : BitVec 2} (q : QuietL1 s c) : Hinted s (touchHint c line hint s) := by
  unfold touchHint
  split
  · exact hinted_l2Touch _ _ _ _ _
  · rename_i l hl
    have hq := l1Line_quiet q hl
    simp only
    split
    · exact hinted_trans (hinted_demoteLast q) (hinted_setL1 hq)
    · exact hinted_setL1 hq

theorem homeBytes_hinted {s t : State} (h : Hinted s t) (pa n : Nat) : homeBytes t pa n = homeBytes s pa n := by
  unfold homeBytes; rw [h.1]
theorem dirOf_hinted {s t : State} (h : Hinted s t) (k : Nat) : dirOf t k = dirOf s k := by unfold dirOf; rw [h.1]
theorem poisoned_hinted {s t : State} (h : Hinted s t) (k : Nat) : poisoned t k = poisoned s k := by unfold poisoned; rw [h.1]
theorem thread?_hinted {s t : State} (h : Hinted s t) (k : Nat) : t.thread? k = s.thread? k := by unfold State.thread?; rw [h.1]

/-! ## One read -/

theorem coreRead_quiet (s : State) (c n : Nat) (x : Xlat) (h : CalmLine s (lineOf x.pa)) (hh : s.home.hostHeld = []) (q : QuietL1 s c) :
    coreRead c n x s = (homeBytes s x.pa n, s) := by
  unfold coreRead
  rw [farRead_quiet s _ _ h hh]
  simp only
  split
  · rename_i l hl
    have := (l1Line_quiet q hl).1
    rw [if_neg (by simpa using this)]
  · rfl
theorem local_places {pa : Nat} (h : isLocal pa = true) : isRemote pa = false ∧ isMmio pa = false := by
  unfold isLocal isRemote isMmio at *
  simp only [beq_iff_eq] at h
  rw [h]; decide
/-- A plain read gives the home's bytes and touches nothing but hints. -/
theorem readOne_plain (hint : BitVec 2) (l : Lane) (n : Nat) (x : Xlat) (s : State) (hl : isLocal x.pa = true) (hp : poisoned s x.pa = false)
    (hb : CalmLine s (lineOf x.pa)) (hh : s.home.hostHeld = []) (q : QuietL1 s (s.coreOf l.th)) (hr : (s.thread l.id).reply = none) :
    ∃ t, readOne hint l n x s = (.done (homeBytes s x.pa n) false, t) ∧ Hinted s t := by
  unfold readOne orReply
  obtain ⟨r, m⟩ := local_places hl
  simp only [hr, r, m, Bool.false_eq_true, if_false, coreRead_quiet s _ n x hb hh q, hp]
  split
  · exact ⟨_, rfl, hinted_touchHint q⟩
  · exact ⟨_, rfl, hinted_refl s⟩
theorem coreOf_hinted {s t : State} (h : Hinted s t) (th : Thread) : t.coreOf th = s.coreOf th := by
  unfold State.coreOf State.team; rw [h.1]

/-- The reads of a list of lanes, each plain: the home's bytes in order, no wait and no failure. -/
theorem accesses_plain (hint : BitVec 2) (n : Nat) (ps : List (Lane × Xlat)) (s : State) (hh : s.home.hostHeld = [])
    (h : ∀ e ∈ ps, isLocal e.2.pa = true ∧ poisoned s e.2.pa = false ∧ CalmLine s (lineOf e.2.pa) ∧ QuietL1 s (s.coreOf e.1.th) ∧
      (s.thread e.1.id).reply = none) :
    ∃ t, Hinted s t ∧ accesses (fun l x s => readOne hint l n x s) ps s =
      { got := ps.map fun e => (e.1, e.2, homeBytes s e.2.pa n, false), waits := [], fails := [], st := t } := by
  unfold accesses
  have : ∀ (ps : List (Lane × Xlat)) (got : List (Lane × Xlat × List Byte × Bool)) (u : State), Hinted s u →
      (∀ e ∈ ps, isLocal e.2.pa = true ∧ poisoned s e.2.pa = false ∧ CalmLine s (lineOf e.2.pa) ∧ QuietL1 s (s.coreOf e.1.th) ∧
        (s.thread e.1.id).reply = none) →
      ∃ t, Hinted s t ∧ ps.foldl (fun (r : Round) e =>
        let a := readOne hint e.1 n e.2 r.st
        match a.1 with
        | .done bs bad => { r with got := r.got ++ [(e.1, e.2, bs, bad)], st := a.2 }
        | .waits p => { r with waits := r.waits ++ [(e.1, p)], st := a.2 }
        | .fails c => { r with fails := r.fails ++ [(e.1, c, e.2)], st := a.2 }) { got := got, waits := [], fails := [], st := u } =
        { got := got ++ ps.map fun e => (e.1, e.2, homeBytes s e.2.pa n, false), waits := [], fails := [], st := t } := by
    intro ps
    induction ps with
    | nil => intro got u hu _; exact ⟨u, hu, by simp⟩
    | cons e r ih =>
      intro got u hu hall
      obtain ⟨h1, h2, h3, h4, h5⟩ := hall e (List.mem_cons_self ..)
      have hhu : u.home.hostHeld = [] := by rw [hu.1]; exact hh
      obtain ⟨v, hv, hvh⟩ := readOne_plain hint e.1 n e.2 u h1 (by rw [poisoned_hinted hu]; exact h2) (by unfold CalmLine; rw [dirOf_hinted hu]; exact h3) hhu
        (by rw [coreOf_hinted hu]; exact hu.2 _ h4) (by have : u.thread e.1.id = s.thread e.1.id := by { unfold State.thread; rw [hu.1] }
                                                        rw [this]; exact h5)
      rw [List.foldl_cons]
      simp only [hv]
      obtain ⟨t, ht, hf⟩ := ih (got ++ [(e.1, e.2, homeBytes u e.2.pa n, false)]) v (hinted_trans hu hvh) (fun x hx => hall x (List.mem_cons_of_mem _ hx))
      refine ⟨t, ht, ?_⟩
      rw [hf, homeBytes_hinted hu]
      simp
  obtain ⟨t, ht, he⟩ := this ps [] s (hinted_refl s) h
  refine ⟨t, ht, ?_⟩
  simp only [List.nil_append] at he
  exact he

/-! ## Threads after an instruction -/

/-- Changes of one thread after another, where `d x` changes the thread of x alone in states that keep P. -/
theorem thread?_fold_done {α : Type} (id : α → Nat) (d : State → α → State) (g : α → Thread → Thread) (P : State → Prop)
    (hd : ∀ x s, P s → P (d s x) ∧ ∀ j, (d s x).thread? j = if j = id x then (s.thread? j).map (g x) else s.thread? j)
    (l : List α) (hn : (l.map id).Nodup) (s : State) (hp : P s) :
    P (l.foldl d s) ∧ (∀ x ∈ l, (l.foldl d s).thread? (id x) = (s.thread? (id x)).map (g x)) ∧
      ∀ j, j ∉ l.map id → (l.foldl d s).thread? j = s.thread? j := by
  induction l generalizing s with
  | nil => exact ⟨hp, (fun _ h => by cases h), fun _ _ => rfl⟩
  | cons x r ih =>
    obtain ⟨n1, n2⟩ := List.nodup_cons.1 hn
    obtain ⟨hp', hx⟩ := hd x s hp
    obtain ⟨i0, i1, i2⟩ := ih n2 (d s x) hp'
    rw [List.foldl_cons]
    refine ⟨i0, fun y hy => ?_, fun j hj => ?_⟩
    · rcases List.mem_cons.1 hy with rfl | hy
      · rw [i2 _ n1, hx, if_pos rfl]
      · have : id y ≠ id x := fun e => n1 (e ▸ List.mem_map.2 ⟨y, hy, rfl⟩)
        rw [i1 y hy, hx, if_neg this]
    · simp only [List.map_cons, List.mem_cons, not_or] at hj
      rw [i2 j hj.2, hx, if_neg hj.1]
theorem keepsThread_of_eq {s t : State} {k : Nat} (h : t.thread? k = s.thread? k) : KeepsThread s t k := by
  have : t.thread k = s.thread k := by
    simp only [State.thread, Tab.get]
    simp only [State.thread?] at h
    rw [h]
  unfold KeepsThread
  rw [h, this]
  exact ⟨rfl, rfl, rfl, rfl, rfl, rfl, rfl⟩
theorem execLanes_nodup {s : State} (hs : LanesSound s) (f : Fields) : ((s.execLanes f).map Lane.id).Nodup :=
  List.Nodup.sublist (List.Sublist.map _ List.filter_sublist) hs.1
theorem byHidx_perm (ls : List Lane) : (byHidx ls).Perm ls := sortBy_perm _ _
/-- The executing threads take their results after the wave's threads have advanced. -/
theorem doneOn_of (s u t : State) (f : Fields) (o : Lane → LaneOut) (hs : LanesSound s)
    (adv : ∀ j, u.thread? j = (advance s).thread? j)
    (h1 : ∀ l ∈ s.execLanes f, t.thread? l.id = (u.thread? l.id).map (writeOut f (o l)))
    (h2 : ∀ j, j ∉ (s.execLanes f).map Lane.id → t.thread? j = u.thread? j) : DoneOn f s t o := by
  obtain ⟨_, a2, a3⟩ := advance_spec s hs
  refine ⟨fun l hl => ?_, fun l hl hg => ?_, fun k hk => ?_⟩
  · rw [h1 l hl, adv, a2 l (execLanes_sub hl)]; rfl
  · have : l.id ∉ (s.execLanes f).map Lane.id := by
      intro hm
      obtain ⟨l', hl', e⟩ := List.mem_map.1 hm
      have := lanes_inj hs (execLanes_sub hl') hl e
      subst this
      rw [execLanes_guard hl'] at hg; cases hg
    rw [h2 _ this, adv, a2 l hl]
  · apply keepsThread_of_eq
    have : k ∉ (s.execLanes f).map Lane.id := by
      intro hm
      obtain ⟨l', hl', e⟩ := List.mem_map.1 hm
      exact hk (List.mem_map.2 ⟨l', execLanes_sub hl', e⟩)
    rw [h2 _ this, adv, a3 k hk]

/-! ## A load of a whole wave -/

/-- Nothing but cores, the L2, walks and the fabric differs, and no L1 gains an SWM line or a partial. -/
def Calm (s t : State) : Prop :=
  t = { s with
    cores := t.cores, walks := t.walks, fabric := t.fabric
    home := { s.home with l2 := t.home.l2, l2Wait := t.home.l2Wait } } ∧ ∀ c, QuietL1 s c → QuietL1 t c
theorem calm_refl (s : State) : Calm s s := ⟨rfl, fun _ h => h⟩
theorem calm_trans {s t u : State} (h : Calm s t) (h' : Calm t u) : Calm s u := by
  refine ⟨?_, fun c q => h'.2 c (h.2 c q)⟩
  have a := h.1; have b := h'.1
  rw [b]; rw [a]
theorem calm_of_hinted {s t : State} (h : Hinted s t) : Calm s t := by
  refine ⟨?_, h.2⟩
  have a := h.1
  rw [a]
theorem calm_noteWalk (w : Who) (ea : DWord) (s : State) : Calm s (noteWalk w ea s) := by
  unfold noteWalk
  split
  · exact calm_refl s
  · exact ⟨rfl, fun _ h => h⟩
theorem calm_foldl {α : Type} (d : State → α → State) (h : ∀ s x, Calm s (d s x)) (l : List α) (s : State) : Calm s (l.foldl d s) := by
  induction l generalizing s with
  | nil => exact calm_refl s
  | cons x r ih => exact calm_trans (h s x) (ih _)
theorem tab_mem_del {α : Type} {t : Tab α} {k : Nat} {e : Nat × α} (h : e ∈ Tab.del t k) : e ∈ t := (List.mem_filter.1 h).1
theorem calm_delL1 (c line : Nat) (s : State) : Calm s (delL1 c line s) := by
  refine ⟨rfl, fun k h => ?_⟩
  unfold QuietL1 delL1 at *
  simp only [State.core, modCore_cores, tab_get_put]
  by_cases e : k = c
  · subst e; rw [if_pos rfl]; intro x hx; exact h x (tab_mem_del hx)
  · rw [if_neg e]; exact h
theorem calm_dropCopies (k : Nat) (s : State) : Calm s (dropCopies k s) := by
  refine ⟨rfl, fun c h => ?_⟩
  unfold QuietL1 dropCopies State.core Tab.get at *
  intro e he
  rw [tab_find_mapVal (fun x : Core => { x with l1 := Tab.del x.l1 k })] at he
  cases hf : Tab.find s.cores c with
  | none => rw [hf] at he; exact h e (by rw [hf]; exact he)
  | some x =>
    rw [hf] at he
    exact h e (by rw [hf]; exact tab_mem_del he)
theorem calm_expireLeases (x : Nat) (s : State) : Calm s (expireLeases x s) := by
  unfold expireLeases
  simp only
  exact calm_trans ⟨rfl, fun _ h => h⟩ (calm_foldl (fun s k => dropCopies k s) (fun s k => calm_dropCopies k s) _ _)
/-- An acquire's drop of clean SWM sectors writes nothing. -/
theorem calm_acquireSwm (c : Nat) (s : State) : Calm s (acquireSwm c s) := by
  unfold acquireSwm
  split
  · refine ⟨rfl, fun k h => ?_⟩
    unfold QuietL1 at *
    simp only [State.core, modCore_cores, tab_get_put]
    by_cases e : k = c
    · subst e
      rw [if_pos rfl]
      intro y hy
      obtain ⟨z, hz, hzy⟩ := List.mem_filterMap.1 hy
      have hq := h z hz
      rw [if_neg (by simpa using hq.1)] at hzy
      cases hzy
      exact hq
    · rw [if_neg e]; exact h
  · exact calm_refl s
theorem calm_acquireSide (c x : Nat) (sc : BitVec 3) (s : State) : Calm s (acquireSide c x sc s) := by
  unfold acquireSide
  split
  · exact calm_refl s
  · split
    · exact calm_acquireSwm c s
    · exact calm_trans (calm_acquireSwm c s) (calm_expireLeases _ _)
theorem fenceSwm_quiet {s : State} {c : Nat} (q : QuietL1 s c) : fenceSwm c s = s := by
  unfold fenceSwm
  have : ((s.core c).l1.filter fun e => e.2.st == .swm) = [] := by
    rw [List.filter_eq_nil_iff]
    intro e he
    simp [(q e he).1]
  rw [this]; rfl
theorem calm_fenceSides {s : State} {c : Nat} (x : Nat) (sc : BitVec 3) (q : QuietL1 s c) : Calm s (fenceSides c x sc s) := by
  unfold fenceSides
  split
  · exact calm_acquireSide _ _ _ _
  · rw [fenceSwm_quiet q]; exact calm_acquireSide _ _ _ _
theorem calm_acquired (f : Fields) (on : Bool) (mode : Nat) {s : State} (q : QuietL1 s s.hereCore) : Calm s (acquired f on mode s) := by
  unfold acquired
  split
  · exact calm_refl s
  · split
    · exact calm_acquireSide _ _ _ _
    · exact calm_fenceSides _ _ q
/-- Ordering on an object in a scratchpad or a COH page. -/
theorem calm_acquired_object (f : Fields) (on : Bool) (s : State) : Calm s (acquired f on 0 s) := by
  unfold acquired
  split
  · exact calm_refl s
  · exact calm_acquireSide _ _ _ _
theorem hereCore_calm {s t : State} (h : Calm s t) : t.hereCore = s.hereCore := by unfold State.hereCore State.wave; rw [h.1]
theorem thread?_calm {s t : State} (h : Calm s t) (k : Nat) : t.thread? k = s.thread? k := by unfold State.thread?; rw [h.1]
theorem calm_arrived (s : State) (c : Nat) (g : List Nat → List Nat) : Calm s (s.modCore c fun x => { x with arrived := g x.arrived }) := by
  refine ⟨rfl, fun k h => ?_⟩
  unfold QuietL1 at *
  simp only [State.core, modCore_cores, tab_get_put]
  by_cases e : k = c
  · subst e; rw [if_pos rfl]; exact h
  · rw [if_neg e]; exact h

theorem advance_calm {s u : State} (h : Calm s u) (j : Nat) : (advance u).thread? j = (advance s).thread? j := by
  have e : (advance u).work = (advance s).work := by
    rw [h.1]
    have : ∀ (ids : List Nat) (g : Thread → Thread) (a b : State), a.work = b.work → (a.modThreads ids g).work = (b.modThreads ids g).work := by
      intro ids g
      unfold State.modThreads
      induction ids with
      | nil => intro a b e; exact e
      | cons t r ih =>
        intro a b e
        rw [List.foldl_cons, List.foldl_cons]
        apply ih
        unfold State.modThread State.thread?
        rw [e]
        split
        · simp only [State.setThread, e]
        · exact e
    exact this _ _ _ _ rfl
  unfold State.thread?
  rw [e]
theorem putOut_thread? (f : Fields) (l : Lane) (o : LaneOut) (s : State) (j : Nat) :
    (putOut f l o s).thread? j = if j = l.id then (s.thread? j).map (writeOut f o) else s.thread? j := by
  unfold putOut; rw [thread?_modThread]; split
  · rename_i e; subst e; rfl
  · rfl
theorem putOut_mem (f : Fields) (l : Lane) (o : LaneOut) (s : State) : (putOut f l o s).mem = s.mem := by
  unfold putOut State.modThread; split <;> rfl
theorem advance_mem (s : State) : (advance s).mem = s.mem := by
  have := sameT_modThreads s ((s.active (s.wave s.curWave)).map Lane.id) fun t => { t with pc := succPc (s.wave s.curWave).pc }
  unfold SameButThreads at this
  show (s.modThreads _ _).mem = s.mem
  rw [this]
/-- The core a thread's result is written on keeps its lines. -/
theorem putOut_cores (f : Fields) (l : Lane) (o : LaneOut) (s : State) : (putOut f l o s).cores = s.cores ∧ (putOut f l o s).hereCore = s.hereCore := by
  unfold putOut State.modThread State.hereCore State.wave; split <;> exact ⟨rfl, rfl⟩
theorem quietL1_cores {s t : State} {c : Nat} (h : t.cores = s.cores) (q : QuietL1 s c) : QuietL1 t c := by
  unfold QuietL1 State.core at *; rw [h]; exact q
/-- A load that every executing thread completes. -/
theorem complete_loads (f : Fields) (on : Bool) (s u : State) (hs : LanesSound s) (hu : Calm s u) (q : QuietL1 s s.hereCore)
    (ps : List (Lane × Xlat)) (bs : Lane × Xlat → List Byte) (o : Lane → List Byte → LaneOut) (b : Lane → List Byte)
    (hb : ∀ e ∈ ps, bs e = b e.1) (hp : (ps.map (·.1)).Perm (s.execLanes f)) :
    let t := complete f true (fun l x bs s => acquired f on x.mode (putOut f l (o l bs) s))
      { got := ps.map fun e => (e.1, e.2, bs e, false), waits := [], fails := [], st := u }
    DoneOn f s t (fun l => o l (b l)) ∧ t.mem = s.mem := by
  intro t
  have hnb : (ps.map fun e => ((e.1, e.2, bs e, false) : Lane × Xlat × List Byte × Bool)).filter (fun e => e.2.2.2) = [] := by
    rw [List.filter_eq_nil_iff]
    intro x hx
    obtain ⟨e, _, rfl⟩ := List.mem_map.1 hx
    simp
  have ht : t = (ps.map fun e => ((e.1, e.2, bs e, false) : Lane × Xlat × List Byte × Bool)).foldl
      (fun s e => acquired f on e.2.1.mode (putOut f e.1 (o e.1 e.2.2.1) s))
      ((advance u).modCore u.hereCore fun c => { c with arrived := c.arrived.filter fun a =>
        !((ps.map fun e => ((e.1, e.2, bs e, false) : Lane × Xlat × List Byte × Bool)).map fun e => sectorOf e.2.1.pa).contains a }) := by
    show complete _ _ _ _ = _
    unfold complete
    simp only [hnb, leastBy]
    rfl
  rw [List.foldl_map] at ht
  generalize hu0 : ((advance u).modCore u.hereCore fun c => { c with arrived := c.arrived.filter fun a =>
        !((ps.map fun e => ((e.1, e.2, bs e, false) : Lane × Xlat × List Byte × Bool)).map fun e => sectorOf e.2.1.pa).contains a }) = u0 at ht
  have hT : SameButThreads u (advance u) := by unfold advance; exact sameT_modThreads _ _ _
  have hu0t : ∀ j, u0.thread? j = (advance s).thread? j := by
    intro j; subst hu0; rw [thread?_modCore]; exact advance_calm hu j
  have hq0 : QuietL1 u0 s.hereCore ∧ u0.hereCore = s.hereCore := by
    have e0 : (advance u).hereCore = s.hereCore := by
      rw [← hereCore_calm hu]; unfold State.hereCore State.wave; rw [hT]
    have q0 : QuietL1 (advance u) s.hereCore := quietL1_cores (by rw [hT]) (hu.2 _ q)
    subst hu0
    exact ⟨(calm_arrived (advance u) u.hereCore _).2 _ q0, (hereCore_calm (calm_arrived (advance u) u.hereCore _)).trans e0⟩
  have hids : (ps.map fun e => e.1.id).Perm ((s.execLanes f).map Lane.id) := by
    have := hp.map Lane.id
    rwa [List.map_map] at this
  have hn : (ps.map fun e => e.1.id).Nodup := hids.nodup_iff.2 (execLanes_nodup hs f)
  have step : ∀ (e : Lane × Xlat) (v : State), QuietL1 v s.hereCore ∧ v.hereCore = s.hereCore →
      Calm (putOut f e.1 (o e.1 (bs e)) v) (acquired f on e.2.mode (putOut f e.1 (o e.1 (bs e)) v)) := by
    intro e v h
    refine calm_acquired f on _ ?_
    rw [(putOut_cores f e.1 (o e.1 (bs e)) v).2, h.2]
    exact quietL1_cores (putOut_cores _ _ _ _).1 h.1
  have keep : ∀ (e : Lane × Xlat) (v : State), QuietL1 v s.hereCore ∧ v.hereCore = s.hereCore →
      QuietL1 (acquired f on e.2.mode (putOut f e.1 (o e.1 (bs e)) v)) s.hereCore ∧
        (acquired f on e.2.mode (putOut f e.1 (o e.1 (bs e)) v)).hereCore = s.hereCore := by
    intro e v h
    have c := step e v h
    exact ⟨c.2 _ (quietL1_cores (putOut_cores _ _ _ _).1 h.1), (hereCore_calm c).trans ((putOut_cores f e.1 (o e.1 (bs e)) v).2.trans h.2)⟩
  obtain ⟨_, k1, k2⟩ := thread?_fold_done (fun e : Lane × Xlat => e.1.id) (fun s e => acquired f on e.2.mode (putOut f e.1 (o e.1 (bs e)) s))
    (fun e => writeOut f (o e.1 (bs e))) (fun v => QuietL1 v s.hereCore ∧ v.hereCore = s.hereCore)
    (fun e v h => ⟨keep e v h, fun j => by rw [thread?_calm (step e v h), putOut_thread?]⟩) ps hn u0 hq0
  rw [← ht] at k1 k2
  refine ⟨doneOn_of s u0 t f _ hs hu0t ?_ ?_, ?_⟩
  · intro l hl
    obtain ⟨e, he, rfl⟩ := List.mem_map.1 (hp.mem_iff.2 hl)
    rw [k1 e he, hb e he]
  · intro j hj
    exact k2 j (fun h => hj (hids.mem_iff.1 h))
  · have hm : u0.mem = s.mem := by
      subst hu0
      rw [modCore_mem, advance_mem, hu.1]
    have : ∀ (ps : List (Lane × Xlat)) (x : State), QuietL1 x s.hereCore ∧ x.hereCore = s.hereCore →
        (ps.foldl (fun s e => acquired f on e.2.mode (putOut f e.1 (o e.1 (bs e)) s)) x).mem = x.mem := by
      intro ps
      induction ps with
      | nil => intro x _; rfl
      | cons e r ih =>
        intro x hx
        rw [List.foldl_cons, ih _ (keep e x hx), (step e x hx).1]
        exact putOut_mem _ _ _ _
    rw [ht, this _ _ hq0, hm]

/-! ## Checks and waits of a whole instruction -/

theorem splitChecks_ok {α : Type} (ls : List Lane) (g : Lane → Except Byte α) (x : Lane → α) (ea : Lane → DWord)
    (h : ∀ l ∈ ls, g l = .ok (x l)) : splitChecks (ls.map fun l => (l, g l, ea l)) = ([], ls.map fun l => (l, x l)) := by
  unfold splitChecks
  induction ls with
  | nil => rfl
  | cons l r ih =>
    have := ih (fun k hk => h k (List.mem_cons_of_mem _ hk))
    simp only [Prod.mk.injEq] at this
    have hl := h l (List.mem_cons_self ..)
    simp only [List.map_cons, List.filterMap_cons, hl, this.1, this.2]
theorem sectorWait_none (f : Fields) (n : Nat) (ps : List (Lane × Xlat)) (s : State) (h : ∀ e ∈ ps, AtHand s e.2 n) : sectorWait f n ps s = none := by
  unfold sectorWait
  have h1 : (ps.filter fun e => viaL1 e.2 && !sectorHit s s.hereCore e.2 n) = [] := by
    rw [List.filter_eq_nil_iff]
    intro e he
    simp only [Bool.and_eq_true, Bool.not_eq_true', not_and, Bool.not_eq_false]
    exact h e he
  rw [h1]
  rfl
theorem readWait_none (f : Fields) (n : Nat) (ps : List (Lane × Xlat)) (s : State) (h : ∀ e ∈ ps, AtHand s e.2 n) : readWait f n ps s = none :=
  sectorWait_none f n ps s h
theorem sectorHit_of {s u : State} (hc : u.cores = s.cores) (c : Nat) (x : Xlat) (n : Nat) : sectorHit u c x n = sectorHit s c x n := by
  unfold sectorHit l1Line State.core
  rw [hc]
theorem atHand_calm {s u : State} (h : Calm s u) (hc : u.cores = s.cores) {x : Xlat} {n : Nat} (a : AtHand s x n) : AtHand u x n := by
  intro v
  rw [hereCore_calm h, sectorHit_of hc]
  exact a v
theorem noteWalks_cores (ls : List Lane) (g : State → Lane → State) (hg : ∀ s l, (g s l).cores = s.cores) (s : State) :
    (ls.foldl g s).cores = s.cores := by
  induction ls generalizing s with
  | nil => rfl
  | cons l r ih => rw [List.foldl_cons, ih, hg]
theorem noteWalk_cores (w : Who) (ea : DWord) (s : State) : (noteWalk w ea s).cores = s.cores := by
  unfold noteWalk; split <;> rfl
theorem noteWalk_eq (w : Who) (ea : DWord) (s : State) : ∃ k, noteWalk w ea s = { s with walks := k } := by
  unfold noteWalk
  split
  · exact ⟨s.walks, rfl⟩
  · exact ⟨_, rfl⟩
theorem noteWalks_eq (f : Fields) (ls : List Lane) (s : State) :
    ∃ k, ls.foldl (fun s l => noteWalk (whoOf s l.th) (globalEa f l.th) s) s = { s with walks := k } := by
  induction ls generalizing s with
  | nil => exact ⟨s.walks, rfl⟩
  | cons l r ih =>
    obtain ⟨k, hk⟩ := noteWalk_eq (whoOf s l.th) (globalEa f l.th) s
    obtain ⟨k', hk'⟩ := ih { s with walks := k }
    exact ⟨k', by rw [List.foldl_cons, hk, hk']⟩
theorem requestOrder_perm (ps : List (Lane × Xlat)) : (requestOrder ps).Perm ps := by
  unfold requestOrder
  exact ((sortBy_perm _ _).append_right _).trans (by simpa using List.filter_append_perm (fun e : Lane × Xlat => cached e.2.mode) ps)
theorem orderWait_none (f : Fields) (s : State) (xl : Lane → Xlat) (acq rel : Bool) (ls : List Lane) (hp : ls.Perm (s.execLanes f))
    (h : NoOrderWait f s xl acq rel) : orderWait f acq rel (ls.map fun l => (l, xl l)) s = false := by
  unfold orderWait
  rw [List.any_eq_false]
  intro l hl
  obtain ⟨h1, h2⟩ := h l hl
  have e1 : (rel && releaseWaits s l.id f.scope) = false := by
    cases hr : rel with
    | false => rfl
    | true => rw [h1 hr]; rfl
  have e2 : ((acq || rel) && fenced (ls.map fun l => (l, xl l)) && remoteOpen s l.id) = false := by
    cases ho : (acq || rel) with
    | false => rfl
    | true =>
      cases hf : fenced (ls.map fun l => (l, xl l)) with
      | false => rfl
      | true =>
        unfold fenced at hf
        obtain ⟨e, he, hm⟩ := List.any_eq_true.1 hf
        obtain ⟨k, hk, rfl⟩ := List.mem_map.1 he
        rw [h2 ho ⟨k, hp.mem_iff.1 hk, by simpa using hm⟩]
        rfl
  rw [e1, e2]; simp
/-- An instruction on global addresses whose lanes are all plain reaches its accesses. -/
theorem withGlobal_plain (f : Fields) (need : Need) (n : Nat) (acq rel : Bool) (act : List (Lane × Xlat) → State → State) (s : State)
    (xl : Lane → Xlat) (hne : s.execLanes f ≠ [])
    (h : ∀ l ∈ s.execLanes f, PlainAt f s need n l (xl l)) (ho : NoOrderWait f s xl acq rel) :
    ∃ k, withGlobal f need n acq rel act s = act (requestOrder ((byHidx (s.execLanes f)).map fun l => (l, xl l))) { s with walks := k } := by
  have hperm := byHidx_perm (s.execLanes f)
  have he : (byHidx (s.execLanes f)).isEmpty = false := by
    cases hb : byHidx (s.execLanes f) with
    | nil => rw [hb] at hperm; exact absurd hperm.nil_eq.symm hne
    | cons => rfl
  have hsp := splitChecks_ok (byHidx (s.execLanes f)) (fun l => checkGlobal s (whoOf s l.th) need n (globalEa f l.th)) xl
    (fun l => globalEa f l.th) (fun l hl => (h l (hperm.mem_iff.1 hl)).1)
  obtain ⟨k, hk⟩ := noteWalks_eq f (byHidx (s.execLanes f)) s
  have how : orderWait f acq rel ((byHidx (s.execLanes f)).map fun l => (l, xl l)) { s with walks := k } = false :=
    orderWait_none f { s with walks := k } xl acq rel _ hperm ho
  have hset : settleAll ((((byHidx (s.execLanes f)).map fun l => (l, xl l)).filter fun e => viaL1 e.2).map fun e => e.2.pa)
      { s with walks := k } = { s with walks := k } := by
    apply settleAll_idle
    intro pa hp
    obtain ⟨e, hm, rfl⟩ := List.mem_map.1 hp
    obtain ⟨l, hl, rfl⟩ := List.mem_map.1 (List.mem_filter.1 hm).1
    exact (h l (hperm.mem_iff.1 hl)).2.2.2.1.2
  refine ⟨k, ?_⟩
  unfold withGlobal
  simp only [hsp, hk, he, how, hset, List.isEmpty_nil, Bool.not_true, Bool.false_eq_true, if_false]
theorem withGlobal_nobody (f : Fields) (need : Need) (n : Nat) (acq rel : Bool) (act : List (Lane × Xlat) → State → State) (s : State)
    (he : s.execLanes f = []) : withGlobal f need n acq rel act s = advance s := by
  have : byHidx (s.execLanes f) = [] := by rw [he]; rfl
  unfold withGlobal
  simp only [this, List.isEmpty_nil, if_true]

/-- A global load of a wave whose lanes' addresses are all plain and whose data is at hand. -/
theorem globalLoad_done (f : Fields) (need : Need) (n : Nat) (on : Bool) (o : Lane → List Byte → LaneOut) (s : State) (xl : Lane → Xlat)
    (done : Lane → Xlat → List Byte → State → State)
    (hs : LanesSound s) (hh : s.home.hostHeld = []) (h : ∀ l ∈ s.execLanes f, PlainAt f s need n l (xl l) ∧ AtHand s (xl l) n)
    (ho : NoOrderWait f s xl on false)
    (hd : ∀ l ∈ s.execLanes f, ∀ u, done l (xl l) (homeBytes s (xl l).pa n) u = acquired f on (xl l).mode (putOut f l (o l (homeBytes s (xl l).pa n)) u)) :
    let t := globalLoad f need n on done s
    DoneOn f s t (fun l => o l (homeBytes s (xl l).pa n)) ∧ t.mem = s.mem := by
  intro t
  have hperm := byHidx_perm (s.execLanes f)
  by_cases he : s.execLanes f = []
  · have ht : t = advance s := withGlobal_nobody _ _ _ _ _ _ _ he
    rw [ht]
    exact ⟨doneOn_of s (advance s) _ f _ hs (fun _ => rfl) (by rw [he]; intro l hl; cases hl) (fun _ _ => rfl), advance_mem s⟩
  · obtain ⟨k, hk⟩ := withGlobal_plain f need n on false (fun ps s =>
      match readWait f n ps s with
      | some s1 => s1
      | none => complete f true done (accesses (fun l x s => readOne f.hint l n x s) ps s)) s xl he (fun l hl => (h l hl).1) ho
    generalize hps : requestOrder ((byHidx (s.execLanes f)).map fun l => (l, xl l)) = ps at hk
    have hpp : ps.Perm ((s.execLanes f).map fun l => (l, xl l)) := by
      subst hps; exact (requestOrder_perm _).trans (hperm.map _)
    have hmem : ∀ e ∈ ps, e.1 ∈ s.execLanes f ∧ e.2 = xl e.1 := by
      intro e hm
      obtain ⟨l, hl, rfl⟩ := List.mem_map.1 (hpp.mem_iff.1 hm)
      exact ⟨hl, rfl⟩
    have hw : readWait f n ps { s with walks := k } = none := by
      apply readWait_none
      intro e hm
      obtain ⟨m1, m2⟩ := hmem e hm
      rw [m2]
      exact (h _ m1).2
    have hcu : Calm s { s with walks := k } := ⟨rfl, fun _ h => h⟩
    obtain ⟨v, hv, ha⟩ := accesses_plain f.hint n ps { s with walks := k } hh (by
      intro e hm
      obtain ⟨m1, m2⟩ := hmem e hm
      obtain ⟨_, p1, p2, p3, p4, _, p6⟩ := (h _ m1).1
      rw [m2]
      have : ({ s with walks := k } : State).thread e.1.id = e.1.th := thread_of_thread? (hs.2 _ (execLanes_sub m1))
      exact ⟨p1, p2, p3, p4, by rw [this]; exact p6⟩)
    have ht : t = complete f true done { got := ps.map fun e => (e.1, e.2, homeBytes s e.2.pa n, false), waits := [], fails := [], st := v } := by
      refine hk.trans ?_
      simp only [hw, ha]
      rfl
    have hc : complete f true done { got := ps.map fun e => (e.1, e.2, homeBytes s e.2.pa n, false), waits := [], fails := [], st := v } =
        complete f true (fun l x bs s => acquired f on x.mode (putOut f l (o l bs) s)) { got := ps.map fun e => (e.1, e.2, homeBytes s e.2.pa n, false), waits := [], fails := [], st := v } := by
      unfold complete
      simp only [List.isEmpty_nil, Bool.not_true, Bool.and_false, Bool.false_and, Bool.false_eq_true, if_false]
      have : ∀ (ps : List (Lane × Xlat)) (w : State), (∀ e ∈ ps, e.1 ∈ s.execLanes f ∧ e.2 = xl e.1) →
          (ps.map fun e => ((e.1, e.2, homeBytes s e.2.pa n, false) : Lane × Xlat × List Byte × Bool)).foldl (fun s e => done e.1 e.2.1 e.2.2.1 s) w =
          (ps.map fun e => ((e.1, e.2, homeBytes s e.2.pa n, false) : Lane × Xlat × List Byte × Bool)).foldl
            (fun s e => acquired f on e.2.1.mode (putOut f e.1 (o e.1 e.2.2.1) s)) w := by
        intro ls
        induction ls with
        | nil => intro w _; rfl
        | cons e r ih =>
          intro w hm
          obtain ⟨m1, m2⟩ := hm e (List.mem_cons_self ..)
          obtain ⟨l, x⟩ := e
          simp only at m1 m2
          subst m2
          simp only [List.map_cons, List.foldl_cons]
          rw [hd l m1]
          exact ih _ (fun k hk => hm k (List.mem_cons_of_mem _ hk))
      rw [this _ _ hmem]
    have q : QuietL1 s s.hereCore := by
      obtain ⟨l, hl⟩ := List.exists_mem_of_ne_nil _ he
      obtain ⟨_, _, _, _, p4, p5, _⟩ := (h l hl).1
      rw [p5]; exact p4
    rw [ht, hc]
    exact complete_loads f on s v hs (calm_trans hcu (calm_of_hinted hv)) q _ (fun e => homeBytes s e.2.pa n) o
      (fun l => homeBytes s (xl l).pa n) (by intro e hm; rw [(hmem e hm).2])
      (by have := hpp.map (fun e : Lane × Xlat => e.1); rw [List.map_map] at this; simpa [Function.comp_def] using this)

end Sys2Proof.Laws
end

