-- ==== Sys2Proof/Laws/Writes.lean ====
section
/-!
SUPPORT. Writes.lean: what ownership, eviction and home writes leave as it was: every step of a store or read-modify-write
whose line is in no bunting state touches memory in one place only, and threads in their reservations only.
-/
namespace Sys2Proof.Laws

open Machine

/-- Memory, waves, teams, grids and contexts are as they were, threads differ in reservations at most, no L1 gains an SWM
line or a partial, and no directory entry enters state B. -/
structure Quietly (s u : State) : Prop where
  mem : u.mem = s.mem
  thr : ∀ k, (u.thread? k).map Thread.bare = (s.thread? k).map Thread.bare
  cur : u.cur = s.cur
  waves : u.work.waves = s.work.waves
  teams : u.work.teams = s.work.teams
  grids : u.work.grids = s.work.grids
  ctxs : u.ctxs = s.ctxs
  quiet : ∀ c, QuietL1 s c → QuietL1 u c
  dir : ∀ k, (dirOf s k).st ≠ .b → (dirOf u k).st ≠ .b
theorem Quietly.rfl' (s : State) : Quietly s s := ⟨rfl, fun _ => rfl, rfl, rfl, rfl, rfl, rfl, fun _ h => h, fun _ h => h⟩
theorem Quietly.trans {s t u : State} (a : Quietly s t) (b : Quietly t u) : Quietly s u :=
  ⟨b.mem.trans a.mem, fun k => (b.thr k).trans (a.thr k), b.cur.trans a.cur, b.waves.trans a.waves, b.teams.trans a.teams,
    b.grids.trans a.grids, b.ctxs.trans a.ctxs, fun c h => b.quiet c (a.quiet c h), fun k h => b.dir k (a.dir k h)⟩
theorem quietly_of_hinted {s t : State} (h : Hinted s t) : Quietly s t := by
  have q := h.2
  refine ⟨?_, fun k => by rw [thread?_hinted h], ?_, ?_, ?_, ?_, ?_, q, fun k hk => by rw [dirOf_hinted h]; exact hk⟩ <;> rw [h.1]
theorem quietly_of_calm {s t : State} (h : Calm s t) : Quietly s t := by
  have q := h.2
  refine ⟨?_, fun k => by rw [thread?_calm h], ?_, ?_, ?_, ?_, ?_, q, fun k hk => by unfold dirOf; rw [h.1]; exact hk⟩ <;> rw [h.1]

/-! ## Reservations -/

theorem quietly_clearResv (line : Nat) (keep : Nat → Thread → Bool) (s : State) : Quietly s (clearResv line keep s) := by
  unfold clearResv
  simp only
  generalize ((s.work.threads.filter _).map _) = ids
  have h : ∀ (ids : List Nat) (s : State), Quietly s (s.modThreads ids fun t => { t with resv := none }) := by
    intro ids
    unfold State.modThreads
    induction ids with
    | nil => intro s; exact Quietly.rfl' s
    | cons t r ih =>
      intro s
      rw [List.foldl_cons]
      refine Quietly.trans ?_ (ih _)
      refine ⟨?_, fun k => ?_, ?_, ?_, ?_, ?_, ?_, ?_, ?_⟩
      case refine_2 =>
        rw [thread?_modThread]
        by_cases e : k = t
        · subst e; rw [if_pos rfl, Option.map_map]; rfl
        · rw [if_neg e]
      all_goals (unfold State.modThread; split <;> first | rfl | exact fun _ h => h)
  exact h ids s
theorem quietly_writeResv (line : Nat) (w : Option Nat) (s : State) : Quietly s (writeResv line w s) := quietly_clearResv _ _ _
theorem quietly_coreResv (c line : Nat) (s : State) : Quietly s (coreResv c line s) := by
  unfold coreResv; exact quietly_clearResv _ _ _

/-! ## Lines and the directory -/

theorem quietly_delL1 (c line : Nat) (s : State) : Quietly s (delL1 c line s) := quietly_of_calm (calm_delL1 c line s)
theorem quietly_setL1 {s : State} {c line : Nat} {l : L1Line} (h : l.st ≠ .swm ∧ l.st ≠ .b) : Quietly s (setL1 c line l s) :=
  quietly_of_hinted (hinted_setL1 h)
theorem quietly_loseCopy (c line : Nat) (s : State) : Quietly s (loseCopy c line s) :=
  (quietly_coreResv c line s).trans (quietly_delL1 c line _)
theorem quietly_setDir {s : State} {line : Nat} {d : Dir} (h : (dirOf s line).st ≠ .b → d.st ≠ .b) : Quietly s (setDir line d s) := by
  refine ⟨rfl, fun _ => rfl, rfl, rfl, rfl, rfl, rfl, fun _ h => h, fun k hk => ?_⟩
  unfold dirOf setDir at *
  simp only [State.modHome, tab_get_put]
  split
  · rename_i e; subst e; exact h hk
  · exact hk
theorem quietly_modDir {s : State} {line : Nat} {g : Dir → Dir} (h : (dirOf s line).st ≠ .b → (g (dirOf s line)).st ≠ .b) :
    Quietly s (modDir line g s) := quietly_setDir h
theorem quietly_foldl {α : Type} (d : State → α → State) (h : ∀ s x, Quietly s (d s x)) (l : List α) (s : State) : Quietly s (l.foldl d s) := by
  induction l generalizing s with
  | nil => exact Quietly.rfl' s
  | cons x r ih => exact (h s x).trans (ih _)
theorem quietly_invalidateOthers (c line : Nat) (s : State) : Quietly s (invalidateOthers c line s) := by
  unfold invalidateOthers
  simp only
  exact quietly_foldl _ (fun s k => quietly_loseCopy k line s) _ _
theorem quietly_predict (c line : Nat) (s : State) : Quietly s (predict c line s) := ⟨rfl, fun _ => rfl, rfl, rfl, rfl, rfl, rfl, fun _ h => h, fun _ h => h⟩
theorem quietly_work {s u : State} (h1 : u.mem = s.mem) (h2 : u.work = s.work) (h3 : u.cur = s.cur) (h4 : u.ctxs = s.ctxs)
    (h5 : u.cores = s.cores) (h6 : u.home.dir = s.home.dir) : Quietly s u := by
  refine ⟨h1, fun k => by unfold State.thread?; rw [h2], h3, by rw [h2], by rw [h2], by rw [h2], h4, fun c q => quietL1_cores h5 q, fun k hk => ?_⟩
  unfold dirOf; rw [h6]; exact hk
/-- A message on its way changes nothing but the crossbar. -/
theorem quietly_sendMsg (k : Nat) (m : Msg) (s : State) : Quietly s (sendMsg k m s) := quietly_work rfl rfl rfl rfl rfl rfl
theorem quietly_tellHome (c line : Nat) (k : MsgKind) (s : State) : Quietly s (tellHome c line k s) := quietly_sendMsg _ _ _
theorem quietly_tellCore (c line : Nat) (k : MsgKind) (s : State) : Quietly s (tellCore c line k s) := quietly_sendMsg _ _ _
theorem quietly_l2Touch (line : Nat) (hint : BitVec 2) (v d : BitVec 4) (s : State) : Quietly s (l2Touch line hint v d s) :=
  quietly_of_hinted (hinted_l2Touch _ _ _ _ _)
theorem quietly_l2Dirty (line : Nat) (d : BitVec 4) (s : State) : Quietly s (l2Dirty line d s) := quietly_of_hinted (hinted_l2Dirty _ _ _)
theorem quietly_grantOwn {s : State} (c : Nat) {line : Nat} (h : (dirOf s line).st ≠ .b) : Quietly s (grantOwn c line s) := by
  unfold grantOwn
  simp only
  rw [mergeLine_quiet _ _ h]
  exact (quietly_invalidateOthers c line _).trans (quietly_modDir (fun _ => by simp))
theorem quietly_recallLine {s : State} {line : Nat} (h : (dirOf s line).st ≠ .b) : Quietly s (recallLine line s) := by
  unfold recallLine
  simp only
  rw [mergeLine_quiet _ _ h]
  exact (quietly_invalidateOthers 128 line _).trans (quietly_modDir (fun _ => by simp))
theorem quietly_modCore (s : State) (c : Nat) (g : Core → Core) (h : ∀ x, (g x).l1 = x.l1) : Quietly s (s.modCore c g) := by
  refine ⟨rfl, fun _ => rfl, rfl, rfl, rfl, rfl, rfl, fun k hk => ?_, fun _ h => h⟩
  unfold QuietL1 at *
  simp only [State.core, modCore_cores, tab_get_put]
  by_cases e : k = c
  · subst e; rw [if_pos rfl, h]; exact hk
  · rw [if_neg e]; exact hk
theorem quietly_evictLine {s u : State} {c line : Nat} (q : QuietL1 s c) (h : evictLine c line s = some u) : Quietly s u := by
  unfold evictLine at h
  split at h
  · cases h; exact Quietly.rfl' s
  · rename_i l hl
    obtain ⟨n1, n2⟩ := l1Line_quiet q hl
    have kb : Quietly s (evictLine.keepBack c line l s) := by
      unfold evictLine.keepBack
      exact (quietly_loseCopy c line s).trans ((quietly_tellHome _ _ _ _).trans (quietly_modCore _ _ _ (fun _ => rfl)))
    split at h
    · split at h
      · cases h
      · cases h; exact kb
    · split at h
      · cases h
      · cases h; exact kb
    · rename_i e; exact absurd e n2
    · rename_i e; exact absurd e n1
    · cases h
      refine (quietly_modDir (fun hn => ?_)).trans (quietly_loseCopy c line _)
      show (if ((dirOf s line).st == .x && (dirOf s line).owner == c) = true then { dirOf s line with st := .i } else dirOf s line).st ≠ .b
      split
      · simp
      · exact hn
    · cases h; exact quietly_loseCopy c line s
theorem quietly_makeRoom {s u : State} {c line : Nat} {swm : Bool} (q : QuietL1 s c) (h : makeRoom c line swm s = some u) : Quietly s u := by
  unfold makeRoom at h
  split at h
  · split at h
    · cases h; exact Quietly.rfl' s
    · exact quietly_evictLine q h
  · split at h
    · cases h; exact Quietly.rfl' s
    · exact quietly_evictLine q h
theorem quietly_placeLine {s u : State} {c line : Nat} {st : L1State} {hint : BitVec 2} {v d : BitVec 4} (q : QuietL1 s c)
    (hst : st ≠ .swm ∧ st ≠ .b) (h : placeLine c line st hint v d s = some u) : Quietly s u := by
  unfold placeLine at h
  cases hm : makeRoom c line (st == .swm) s with
  | none => rw [hm] at h; cases h
  | some s1 =>
    rw [hm] at h
    simp only [Option.map_some, Option.some.injEq] at h
    subst h
    have h1 := quietly_makeRoom q hm
    have q1 := h1.quiet _ q
    refine h1.trans ?_
    have h2 : ∀ (p : Prop) [Decidable p], Hinted s1 (if p then demoteLast c line s1 else s1) := by
      intro p _; split
      · exact hinted_demoteLast q1
      · exact hinted_refl _
    have h3 : ∀ (a p : Prop) [Decidable a] [Decidable p], Hinted s1 (if a then s1 else l2Touch line hint v 0 (if p then demoteLast c line s1 else s1)) := by
      intro a p _ _; split
      · exact hinted_refl _
      · exact hinted_trans (h2 p) (hinted_l2Touch _ _ _ _ _)
    have h4 : ∀ (L : L1Line) (w : State), L.st = st → Hinted s1 w → Hinted s1 (touchHint c line hint (setL1 c line L w)) := by
      intro L w e hw
      have q2 : Hinted w (setL1 c line L w) := hinted_setL1 (by rw [e]; exact hst)
      exact hinted_trans hw (hinted_trans q2 (hinted_touchHint (q2.2 _ (hw.2 _ q1))))
    exact quietly_of_hinted (h4 _ _ rfl (h3 _ _))
theorem quietly_takeOwn {s : State} {c line : Nat} {hint : BitVec 2} {v d : BitVec 4} (q : QuietL1 s c) (h : (dirOf s line).st ≠ .b) :
    Quietly s (takeOwn c line hint v d s) := by
  unfold takeOwn
  split
  · exact quietly_grantOwn c h
  · rename_i s1 hm
    have h1 := quietly_makeRoom q hm
    have h2 := quietly_grantOwn c (h1.dir _ h)
    simp only
    cases hp : placeLine c line .m hint v d (grantOwn c line s1) with
    | none => exact h1.trans h2
    | some u => exact h1.trans (h2.trans (quietly_placeLine (h2.quiet _ (h1.quiet _ q)) (by decide) hp))
theorem quietly_ownLine {s : State} {c line : Nat} {hint : BitVec 2} {v d : BitVec 4} (q : QuietL1 s c) (h : (dirOf s line).st ≠ .b) :
    Quietly s (ownLine c line hint v d s) := by
  unfold ownLine
  split
  · exact quietly_takeOwn q h
  · have h1 := (quietly_predict c line s).trans (quietly_tellHome c line .own _)
    exact h1.trans (quietly_takeOwn (h1.quiet _ q) (h1.dir _ h))
/-- A far access finds the line recalled. -/
theorem quietly_farPlace {s : State} {c line : Nat} {hint : BitVec 2} {k : BitVec 4} (h : (dirOf s line).st ≠ .b) :
    Quietly s (farPlace c line hint k s) := by
  unfold farPlace
  have h1 := quietly_predict c line s
  exact h1.trans ((quietly_recallLine (h1.dir _ h)).trans (quietly_l2Touch _ _ _ _ _))

/-! ## Home writes -/

theorem overwrite_mem (pa n : Nat) (s : State) : (overwrite pa n s).mem = s.mem := by unfold overwrite; split <;> rfl
/-- A home write changes the bytes it names, and threads in their reservations. -/
theorem quietly_homeWrite (w : Option Nat) (pa : Nat) (bs : List Byte) (s : State) :
    Quietly { s with mem := Mem.put 0 s.mem pa bs } (homeWrite w pa bs s) := by
  unfold homeWrite
  refine (quietly_writeResv (lineOf pa) w _).trans ?_
  generalize writeResv (lineOf pa) w _ = u
  have h1 : Quietly u (overwrite pa bs.length u) := by
    unfold overwrite
    split
    · exact Quietly.rfl' u
    · exact ⟨rfl, fun _ => rfl, rfl, rfl, rfl, rfl, rfl, fun _ h => h, fun _ h => h⟩
  refine h1.trans ?_
  generalize overwrite pa bs.length u = v
  unfold touchVersion
  simp only
  split
  · exact Quietly.rfl' v
  · exact ⟨rfl, fun _ => rfl, rfl, rfl, rfl, rfl, rfl, fun _ h => h, fun _ h => h⟩
theorem homeWrite_mem (w : Option Nat) (pa : Nat) (bs : List Byte) (s : State) : (homeWrite w pa bs s).mem = Mem.put 0 s.mem pa bs :=
  (quietly_homeWrite w pa bs s).mem
/-- Threads of t hold only reservations that they hold in u. -/
def ResvFrom (u t : State) : Prop := ∀ j x r, t.thread? j = some x → x.resv = some r → ∃ y, u.thread? j = some y ∧ y.resv = some r
theorem ResvFrom.trans {s t u : State} (a : ResvFrom s t) (b : ResvFrom t u) : ResvFrom s u := by
  intro j x r h1 h2
  obtain ⟨y, y1, y2⟩ := b j x r h1 h2
  exact a j y r y1 y2
theorem resvFrom_of_eq {u t : State} (h : ∀ j, t.thread? j = u.thread? j) : ResvFrom u t := fun j x r h1 h2 => ⟨x, by rw [← h]; exact h1, h2⟩
theorem resvFrom_modThread (s : State) (k : Nat) (g : Thread → Thread) (h : ∀ x r, (g x).resv = some r → x.resv = some r) :
    ResvFrom s (s.modThread k g) := by
  intro j x r h1 h2
  rw [thread?_modThread] at h1
  split at h1
  · rename_i e
    subst e
    cases hs : s.thread? j with
    | none => rw [hs] at h1; cases h1
    | some y =>
      rw [hs] at h1
      simp only [Option.map_some, Option.some.injEq] at h1
      subst h1
      exact ⟨y, rfl, h y r h2⟩
  · exact ⟨x, h1, h2⟩
theorem resvFrom_modThreads (ids : List Nat) (g : Thread → Thread) (h : ∀ x r, (g x).resv = some r → x.resv = some r) (s : State) :
    ResvFrom s (s.modThreads ids g) := by
  unfold State.modThreads
  induction ids generalizing s with
  | nil => exact resvFrom_of_eq fun _ => rfl
  | cons t r ih => rw [List.foldl_cons]; exact (resvFrom_modThread s t g h).trans (ih _)
theorem noResvBut_from {u t : State} {k line : Nat} (h : ResvFrom u t) (n : NoResvBut u k line) : NoResvBut t k line := by
  intro j x r hj h1 h2
  obtain ⟨y, y1, y2⟩ := h j x r h1 h2
  exact n j y r hj y1 y2
theorem noResvBut_clear (line k : Nat) (s : State) : NoResvBut (writeResv line (some k) s) k line := by
  intro j x r hj h1 h2 hl
  unfold writeResv clearResv at h1
  simp only at h1
  generalize hids : ((s.work.threads.filter _).map (·.1)) = ids at h1
  have hin : ∀ y, s.thread? j = some y → y.resv = some r → j ∈ ids := by
    intro y y1 y2
    subst hids
    refine List.mem_map.2 ⟨(j, y), List.mem_filter.2 ⟨tab_mem_of_find y1, ?_⟩, rfl⟩
    simp only [y2, hl, beq_self_eq_true, Bool.true_and, Bool.not_eq_true', beq_eq_false_iff_ne, ne_eq]
    intro e
    exact hj (Option.some.inj e)
  have key : ∀ (ids : List Nat) (s : State), j ∈ ids → ∀ y, (s.modThreads ids fun t => { t with resv := none }).thread? j = some y → y.resv = none := by
    intro ids
    induction ids with
    | nil => intro s h; cases h
    | cons a rest ih =>
      intro s hm y hy
      rw [State.modThreads, List.foldl_cons] at hy
      by_cases hr : j ∈ rest
      · exact ih _ hr y hy
      · have e : j = a := by
          rcases List.mem_cons.1 hm with e | e
          · exact e
          · exact absurd e hr
        have := thread?_modThreads_of_notMem (s.modThread a fun t => { t with resv := none }) rest (fun t => { t with resv := none }) j hr
        unfold State.modThreads at this
        rw [this, thread?_modThread, if_pos e] at hy
        cases hs : s.thread? a with
        | none => rw [hs] at hy; cases hy
        | some z => rw [hs] at hy; simp only [Option.map_some, Option.some.injEq] at hy; subst hy; rfl
  have hfrom := resvFrom_modThreads ids (fun t => { t with resv := none }) (fun x r h => by cases h) s j x r h1 h2
  obtain ⟨y, y1, y2⟩ := hfrom
  have := key ids s (hin y y1 y2) x h1
  rw [this] at h2; cases h2
theorem noResvBut_homeWrite (k pa : Nat) (bs : List Byte) (s : State) : NoResvBut (homeWrite (some k) pa bs s) k (lineOf pa) := by
  unfold homeWrite
  refine noResvBut_from (resvFrom_of_eq fun j => ?_) (noResvBut_clear (lineOf pa) k { s with mem := Mem.put 0 s.mem pa bs })
  have h1 : ∀ v : State, (touchVersion pa v).thread? j = v.thread? j := by intro v; unfold touchVersion; simp only; split <;> rfl
  have h2 : ∀ v : State, (overwrite pa bs.length v).thread? j = v.thread? j := by intro v; unfold overwrite; split <;> rfl
  rw [h1, h2]

/-! ## One executing thread -/

theorem evictLine_isNone (s : State) (c line : Nat) : (evictLine c line s).isNone =
    (match l1Line s c line with
     | none => false
     | some l => (l.st == .m || l.st == .o) && decide ((s.core c).wbs.length ≥ 32)) := by
  unfold evictLine
  cases l1Line s c line with
  | none => rfl
  | some l =>
    simp only
    cases hl : l.st <;> simp only [beq_self_eq_true, Bool.true_or, Bool.or_true, Bool.true_and]
    case m => by_cases h : (s.core c).wbs.length ≥ 32 <;> simp [h]
    case o => by_cases h : (s.core c).wbs.length ≥ 32 <;> simp [h]
    all_goals rfl
theorem victimOf_cores {s s' : State} (h : s'.cores = s.cores) (c line : Nat) : victimOf s' c line = victimOf s c line := by
  unfold victimOf setLines sameSet l1Sets State.core
  rw [h]
theorem makeRoom_isNone_cores {s s' : State} (h : s'.cores = s.cores) (c line : Nat) (swm : Bool) :
    (makeRoom c line swm s').isNone = (makeRoom c line swm s).isNone := by
  have e1 : ∀ k, l1Line s' c k = l1Line s c k := by intro k; unfold l1Line State.core; rw [h]
  have e2 : s'.core c = s.core c := by unfold State.core; rw [h]
  unfold makeRoom
  rw [e1, victimOf_cores h]
  split
  · split
    · rfl
    · rw [evictLine_isNone, evictLine_isNone, e1, e2]
  · split
    · rfl
    · rw [evictLine_isNone, evictLine_isNone, e1, e2]
theorem writeWait_walks (s : State) (c mode pa : Nat) (w : List Walk) (h : writeWait s c mode pa = none) :
    writeWait { s with walks := w } c mode pa = none := by
  unfold writeWait at *
  have e1 : hostHolds { s with walks := w } pa = hostHolds s pa := rfl
  rw [e1, makeRoom_isNone_cores (s := s) (s' := { s with walks := w }) rfl]
  exact h
/-- The instruction of one executing thread reaches its access. -/
theorem withGlobal_one (f : Fields) (need : Need) (n : Nat) (acq rel : Bool) (act : List (Lane × Xlat) → State → State) (s : State) (l : Lane) (x : Xlat)
    (he : s.execLanes f = [l]) (hc : PlainAt f s need n l x) (ho : NoOrderWait f s (fun _ => x) acq rel) :
    ∃ k, withGlobal f need n acq rel act s = act [(l, x)] { s with walks := k } := by
  obtain ⟨k, hk⟩ := withGlobal_plain f need n acq rel act s (fun _ => x) (by rw [he]; simp)
    (by rw [he]; intro y hy; simp only [List.mem_singleton] at hy; subst hy; exact hc) ho
  refine ⟨k, hk.trans ?_⟩
  have hb : byHidx (s.execLanes f) = [l] := by rw [he]; rfl
  have hp := requestOrder_perm [(l, x)]
  rw [hb]
  simp only [List.map_cons, List.map_nil]
  rw [List.perm_singleton.1 hp]
theorem storeWait_one (f : Fields) (n : Nat) (near : State → Lane → Xlat → Bool) (s : State) (l : Lane) (x : Xlat) (k : List Walk)
    (hn : near { s with walks := k } l x = near s l x) (h : writeWait s s.hereCore x.mode x.pa = none)
    (hd : needsData f near s (l, x) = true → sectorHit s s.hereCore x n = true) :
    storeWait f n near [(l, x)] { s with walks := k } = none := by
  unfold storeWait
  have e : ({ s with walks := k } : State).hereCore = s.hereCore := rfl
  simp only [List.findSome?_cons, List.findSome?_nil, e, writeWait_walks s _ _ _ k h, ite_self]
  apply sectorWait_none
  intro e hm
  obtain ⟨h1, h2⟩ := List.mem_filter.1 hm
  simp only [List.mem_singleton] at h1
  subst h1
  intro _
  refine hd ?_
  unfold needsData at *
  rw [hn] at h2
  exact h2
theorem releaseSide_quiet (s : State) (c : Nat) (sc : BitVec 3) (q : QuietL1 s c) : releaseSide c sc s = s := by
  unfold releaseSide
  split
  · rfl
  · have : ((s.core c).l1.filter fun e => e.2.st == .swm && e.2.mask != 0) = [] := by
      rw [List.filter_eq_nil_iff]
      intro e he
      have := (q e he).1
      simp [this]
    rw [this]; rfl
theorem complete_one (f : Fields) (whole : Bool) (done : Lane → Xlat → List Byte → State → State) (l : Lane) (x : Xlat) (bs : List Byte) (u : State) :
    ∃ g : List Nat → List Nat, complete f whole done { got := [(l, x, bs, false)], waits := [], fails := [], st := u } =
      done l x bs ((advance u).modCore u.hereCore fun c => { c with arrived := g c.arrived }) :=
  ⟨fun a => a.filter fun a => !([sectorOf x.pa] : List Nat).contains a, by
    unfold complete
    simp only [List.filter_cons, List.filter_nil, Bool.false_eq_true, if_false, leastBy, List.isEmpty_nil, Bool.not_true, Bool.and_false,
      Bool.false_and]
    rfl⟩

/-! ### Threads after it -/

theorem bare_writeOut (f : Fields) (o : LaneOut) (t : Thread) : (writeOut f o t).bare = writeOut f o t.bare := by
  have h32 : ∀ (o : Opnd) (x : Word) (t : Thread), (putD32 o x t).bare = putD32 o x t.bare := by intro o x t; cases o <;> rfl
  have h64 : ∀ (o : Opnd) (x : DWord) (t : Thread), (putD64 o x t).bare = putD64 o x t.bare := by intro o x t; cases o <;> rfl
  have hp : ∀ (o : Opnd) (x : Bool) (t : Thread), (putPred o x t).bare = putPred o x t.bare := by
    intro o x t; cases o <;> first | rfl | (unfold putPred Thread.setPred; simp only; split <;> rfl)
  have hrs : ∀ (xs : List Word) (n : Nat) (t : Thread), (t.setRegs n xs).bare = t.bare.setRegs n xs := by
    intro xs; induction xs with
    | nil => intro n t; rfl
    | cons x r ih => intro n t; unfold Thread.setRegs; rw [ih]; rfl
  cases o with
  | none => rfl
  | value w x =>
    show (writeValue f w x t).bare = writeValue f w x t.bare
    unfold writeValue
    simp only
    have h1 : (if f.nw then t else if w then putD64 f.d x t else putD32 f.d (loW x) t).bare =
        (if f.nw then t.bare else if w then putD64 f.d x t.bare else putD32 f.d (loW x) t.bare) := by
      split
      · rfl
      · split
        · exact h64 _ _ _
        · exact h32 _ _ _
    rw [← h1]
    split <;> rfl
  | many xs => show (putDs f.d xs t).bare = putDs f.d xs t.bare; unfold putDs; split; exact hrs _ _ _; rfl
  | pred b => exact hp _ _ _
  | trap v => rfl
theorem resv_writeOut (f : Fields) (o : LaneOut) (t : Thread) : (writeOut f o t).resv = t.resv := by
  have h32 : ∀ (o : Opnd) (x : Word) (t : Thread), (putD32 o x t).resv = t.resv := by intro o x t; cases o <;> rfl
  have h64 : ∀ (o : Opnd) (x : DWord) (t : Thread), (putD64 o x t).resv = t.resv := by intro o x t; cases o <;> rfl
  have hp : ∀ (o : Opnd) (x : Bool) (t : Thread), (putPred o x t).resv = t.resv := by
    intro o x t; cases o <;> first | rfl | (unfold putPred Thread.setPred; simp only; split <;> rfl)
  have hrs : ∀ (xs : List Word) (n : Nat) (t : Thread), (t.setRegs n xs).resv = t.resv := by
    intro xs; induction xs with
    | nil => intro n t; rfl
    | cons x r ih => intro n t; unfold Thread.setRegs; rw [ih]; rfl
  cases o with
  | none => rfl
  | value w x =>
    show (writeValue f w x t).resv = t.resv
    unfold writeValue
    simp only
    have h1 : (if f.nw then t else if w then putD64 f.d x t else putD32 f.d (loW x) t).resv = t.resv := by
      split
      · rfl
      · split
        · exact h64 _ _ _
        · exact h32 _ _ _
    split
    · exact h1
    · exact h1
  | many xs => show (putDs f.d xs t).resv = t.resv; unfold putDs; split; exact hrs _ _ _; rfl
  | pred b => exact hp _ _ _
  | trap v => rfl
/-- The same wave advances in states that agree but for reservations. -/
theorem advance_bare {s u : State} (hs : LanesSound s) (hcur : u.cur = s.cur) (hwaves : u.work.waves = s.work.waves)
    (hthr : ∀ k, (u.thread? k).map Thread.bare = (s.thread? k).map Thread.bare) (j : Nat) :
    ((advance u).thread? j).map Thread.bare = ((advance s).thread? j).map Thread.bare := by
  have hw : u.wave u.curWave = s.wave s.curWave := by unfold State.wave State.curWave; rw [hwaves, hcur]
  have hids : (u.active (u.wave u.curWave)).map Lane.id = (s.active (s.wave s.curWave)).map Lane.id := by
    rw [hw]
    unfold State.active State.present
    generalize (s.wave s.curWave) = w
    have : ∀ (ls : List (Option Nat × Nat)),
        ((ls.filterMap fun e => e.1.map fun t => (⟨e.2, t, u.thread t⟩ : Lane)).filter fun l => w.exm.getLsbD l.lane).map Lane.id =
        ((ls.filterMap fun e => e.1.map fun t => (⟨e.2, t, s.thread t⟩ : Lane)).filter fun l => w.exm.getLsbD l.lane).map Lane.id := by
      intro ls
      induction ls with
      | nil => rfl
      | cons e r ih =>
        obtain ⟨a, b⟩ := e
        cases a with
        | none => exact ih
        | some t =>
          simp only [List.filterMap_cons, Option.map_some, List.filter_cons]
          split
          · simp only [List.map_cons, ih]
          · exact ih
    exact this _
  have hn : ((s.active (s.wave s.curWave)).map Lane.id).Nodup := hs.1
  unfold advance
  simp only
  rw [hids, hw, thread?_modThreads _ _ _ hn, thread?_modThreads _ _ _ hn]
  have := hthr j
  split
  · have e : ∀ o : Option Thread, (o.map fun t => { t with pc := succPc (s.wave s.curWave).pc }).map Thread.bare =
        (o.map Thread.bare).map fun t => { t with pc := succPc (s.wave s.curWave).pc } := by
      intro o; cases o <;> rfl
    rw [e, e, this]
  · exact this
theorem doneBare_of (s u t : State) (f : Fields) (o : Lane → LaneOut) (hs : LanesSound s)
    (adv : ∀ j, (u.thread? j).map Thread.bare = ((advance s).thread? j).map Thread.bare)
    (h1 : ∀ l ∈ s.execLanes f, (t.thread? l.id).map Thread.bare = ((u.thread? l.id).map (writeOut f (o l))).map Thread.bare)
    (h2 : ∀ j, j ∉ (s.execLanes f).map Lane.id → (t.thread? j).map Thread.bare = (u.thread? j).map Thread.bare) : DoneBare f s t o := by
  obtain ⟨_, a2, a3⟩ := advance_spec s hs
  refine ⟨fun l hl => ?_, fun l hl hg => ?_, fun k hk => ?_⟩
  · have := adv l.id
    rw [a2 l (execLanes_sub hl)] at this
    rw [h1 l hl, Option.map_map]
    have e : Thread.bare ∘ writeOut f (o l) = (writeOut f (o l)) ∘ Thread.bare := by funext t; exact bare_writeOut _ _ _
    rw [e, ← Option.map_map, this]
    simp only [Option.map_some, bare_writeOut]
  · have : l.id ∉ (s.execLanes f).map Lane.id := by
      intro hm
      obtain ⟨l', hl', e⟩ := List.mem_map.1 hm
      have := lanes_inj hs (execLanes_sub hl') hl e
      subst this
      rw [execLanes_guard hl'] at hg; cases hg
    rw [h2 _ this, adv, a2 l hl]; rfl
  · have : k ∉ (s.execLanes f).map Lane.id := by
      intro hm
      obtain ⟨l', hl', e⟩ := List.mem_map.1 hm
      exact hk (List.mem_map.2 ⟨l', execLanes_sub hl', e⟩)
    rw [h2 _ this, adv, a3 k hk]
theorem resvFrom_advance (u : State) : ResvFrom u (advance u) := by
  unfold advance; exact resvFrom_modThreads _ (fun t => { t with pc := succPc (u.wave u.curWave).pc }) (fun x r h => h) u
/-- The end of an instruction with one executing thread that has its result o. -/
theorem finish_one (s u : State) (f : Fields) (l : Lane) (o : LaneOut) (hs : LanesSound s) (he : s.execLanes f = [l]) (h : Quietly s { u with mem := s.mem })
    (on : Bool) (q : on = true → QuietL1 s s.hereCore) (mode c : Nat) (g : List Nat → List Nat) :
    let t := acquired f on mode (putOut f l o ((advance u).modCore c fun k => { k with arrived := g k.arrived }))
    DoneBare f s t (fun _ => o) ∧ t.mem = u.mem ∧ ResvFrom u t ∧
      Calm (putOut f l o ((advance u).modCore c fun k => { k with arrived := g k.arrived })) t := by
  intro t
  have hu : ∀ j, (((advance u).modCore c fun k => { k with arrived := g k.arrived }).thread? j).map Thread.bare = ((advance s).thread? j).map Thread.bare := by
    intro j
    rw [thread?_modCore]
    exact advance_bare (u := u) hs h.cur h.waves h.thr j
  have hT : SameButThreads u (advance u) := by unfold advance; exact sameT_modThreads _ _ _
  have hA := calm_arrived (advance u) c g
  have hcm : Calm (putOut f l o ((advance u).modCore c fun k => { k with arrived := g k.arrived })) t := by
    cases hon : on with
    | false =>
      have : t = putOut f l o ((advance u).modCore c fun k => { k with arrived := g k.arrived }) := by
        show acquired f on mode _ = _
        rw [hon]; rfl
      rw [this]; exact calm_refl _
    | true =>
      refine calm_acquired f on mode ?_
      have e1 : u.hereCore = s.hereCore := by
        have a := h.cur; have b := h.waves
        unfold State.hereCore State.wave
        rw [show u.cur = s.cur from a, show u.work.waves = s.work.waves from b]
      have e2 : (advance u).hereCore = s.hereCore := by rw [← e1]; unfold State.hereCore State.wave; rw [hT]
      rw [(putOut_cores f l o _).2, hereCore_calm hA, e2]
      refine quietL1_cores (putOut_cores f l o _).1 (hA.2 _ (quietL1_cores (by rw [hT]) ?_))
      exact h.quiet _ (q hon)
  have ht : ∀ j, t.thread? j = (putOut f l o ((advance u).modCore c fun k => { k with arrived := g k.arrived })).thread? j :=
    fun j => thread?_calm hcm j
  refine ⟨doneBare_of s _ t f _ hs hu (fun k hk => ?_) (fun j hj => ?_), ?_, ?_, hcm⟩
  · rw [he] at hk
    simp only [List.mem_singleton] at hk
    subst hk
    rw [ht, putOut_thread?, if_pos rfl]
  · rw [he] at hj
    simp only [List.map_cons, List.map_nil, List.mem_singleton] at hj
    rw [ht, putOut_thread?, if_neg hj]
  · rw [hcm.1]
    show (putOut f l o _).mem = _
    rw [putOut_mem, modCore_mem, advance_mem]
  · have r1 : ResvFrom u ((advance u).modCore c fun k => { k with arrived := g k.arrived }) :=
      (resvFrom_advance u).trans (resvFrom_of_eq fun j => thread?_modCore _ _ _ j)
    have r2 : ∀ v : State, ResvFrom v (putOut f l o v) := by
      intro v
      unfold putOut
      exact resvFrom_modThread v l.id (fun t => writeOut f o t) (fun x r h => by rw [resv_writeOut] at h; exact h)
    exact (r1.trans (r2 _)).trans (resvFrom_of_eq ht)

/-! ## Stores and read-modify-writes of one thread -/

theorem storeOne_home {s : State} {c t mode : Nat} {hint : BitVec 2} {pa : Nat} {bs : List Byte} (q : QuietL1 s c)
    (hd : (dirOf s (lineOf pa)).st ≠ .b) (hm : mode ≠ 1) :
    Quietly { s with mem := Mem.put 0 s.mem pa bs } (storeOne c t mode hint pa bs s) ∧
      NoResvBut (storeOne c t mode hint pa bs s) t (lineOf pa) := by
  unfold storeOne
  simp only
  split
  · refine ⟨?_, noResvBut_homeWrite _ _ _ _⟩
    have h1 : Quietly s (if streams s c (lineOf pa) hint then farPlace c (lineOf pa) hint (sectorBit pa) s
        else ownLine c (lineOf pa) hint (sectorBit pa) (sectorBit pa) s) := by
      split
      · exact quietly_farPlace hd
      · exact quietly_ownLine q hd
    refine Quietly.trans ?_ (quietly_homeWrite (some t) pa bs _)
    exact ⟨by rw [h1.mem], h1.thr, h1.cur, h1.waves, h1.teams, h1.grids, h1.ctxs, h1.quiet, h1.dir⟩
  · exact absurd rfl hm
  · exact ⟨quietly_homeWrite _ _ _ _, noResvBut_homeWrite _ _ _ _⟩
theorem dropSwm_quiet {s : State} {c line : Nat} (q : QuietL1 s c) : dropSwm c line s = s := by
  unfold dropSwm
  split
  · rename_i l hl
    have := (l1Line_quiet q hl).1
    rw [if_neg (by simpa using this)]
  · rfl
theorem quietly_rmwPlace {s : State} {c mode : Nat} {far : Bool} {hint : BitVec 2} {pa : Nat} (q : QuietL1 s c)
    (hd : (dirOf s (lineOf pa)).st ≠ .b) : Quietly s (rmwPlace c mode far hint pa s) := by
  unfold rmwPlace
  simp only
  split
  · split
    · exact quietly_farPlace hd
    · exact quietly_ownLine q hd
  · rw [dropSwm_quiet q]; exact quietly_l2Touch _ _ _ _ _
  · exact Quietly.rfl' s
theorem rmwOne_home {s : State} {c t mode : Nat} {hint : BitVec 2} {pa n : Nat} {g : Nat → Option Nat} (q : QuietL1 s c)
    (hd : (dirOf s (lineOf pa)).st ≠ .b) :
    (rmwOne c t mode hint pa n g s).1 = homeNat s pa n ∧
      (match g (homeNat s pa n) with
       | some x => Quietly { s with mem := Mem.put 0 s.mem pa (natLe n x) } (rmwOne c t mode hint pa n g s).2 ∧
           NoResvBut (rmwOne c t mode hint pa n g s).2 t (lineOf pa)
       | none => Quietly s (rmwOne c t mode hint pa n g s).2) := by
  have h1 := quietly_rmwPlace (mode := mode) (far := predictFar s (lineOf pa)) (hint := hint) q hd
  have hn : homeNat (rmwPlace c mode (predictFar s (lineOf pa)) hint pa s) pa n = homeNat s pa n := by
    unfold homeNat homeBytes; rw [h1.mem]
  unfold rmwOne
  simp only [hn]
  cases g (homeNat s pa n) with
  | none => exact ⟨rfl, h1⟩
  | some x =>
    refine ⟨rfl, ?_, noResvBut_homeWrite _ _ _ _⟩
    refine Quietly.trans ?_ (quietly_homeWrite (some t) pa (natLe n x) _)
    exact ⟨by rw [h1.mem], h1.thr, h1.cur, h1.waves, h1.teams, h1.grids, h1.ctxs, h1.quiet, h1.dir⟩
theorem replayAtomic_off (a : TrapAt) (t v pa : Nat) (s : State) (h1 : (s.gridOf (s.thread t)).recording = false)
    (h2 : (s.gridOf (s.thread t)).playing = false) : replayAtomic a t v pa s = s := by
  unfold replayAtomic
  simp only [h1, h2, Bool.false_eq_true, if_false, Bool.false_and, Bool.not_false, if_true]

/-! ## Bytes of a core's own copy -/

/-- One byte stored into a copy. -/
def byteIn (k : Nat) (b : Byte) (l : L1Line) : L1Line :=
  { l with
    bytes := (l.bytes &&& ~~~((0xFF#2048) <<< (8 * k))) ||| ((BitVec.setWidth 2048 b) <<< (8 * k))
    mask := l.mask ||| (1#256 <<< k) }
theorem ff_bit (i : Nat) : (0xFF#2048).getLsbD i = decide (i < 8) := by
  rw [BitVec.getLsbD_ofNat, show 0xFF = 2 ^ 8 - 1 from rfl, Nat.testBit_two_pow_sub_one]
  by_cases h : i < 8
  · have : i < 2048 := by omega
    simp [h, this]
  · simp [h]
theorem byteIn_bytes (k j : Nat) (b : Byte) (l : L1Line) (hk : k < 256) (hj : j < 256) :
    (byteIn k b l).bytes.extractLsb' (8 * j) 8 = if j = k then b else l.bytes.extractLsb' (8 * j) 8 := by
  apply BitVec.eq_of_getLsbD_eq
  intro i hi
  unfold byteIn
  simp only [BitVec.getLsbD_extractLsb', hi, decide_true, Bool.true_and, BitVec.getLsbD_or, BitVec.getLsbD_and, BitVec.getLsbD_not,
    BitVec.getLsbD_shiftLeft, ff_bit, BitVec.getLsbD_setWidth]
  have h1 : 8 * j + i < 2048 := by omega
  by_cases e : j = k
  · subst e
    have h2 : ¬ (8 * j + i < 8 * j) := by omega
    have h3 : 8 * j + i - 8 * j = i := by omega
    have h4 : i < 2048 := by omega
    simp [h1, h2, h3, hi, h4]
  · rw [if_neg e]
    rcases Nat.lt_or_gt_of_ne e with h | h
    · have h2 : 8 * j + i < 8 * k := by omega
      simp [h1, h2, hi]
    · have h2 : ¬ (8 * j + i < 8 * k) := by omega
      have h3 : ¬ (8 * j + i - 8 * k < 8) := by omega
      have h5 : b.getLsbD (8 * j + i - 8 * k) = false := BitVec.getLsbD_of_ge _ _ (by omega)
      simp [h1, h2, h3, h5, hi]
theorem byteIn_mask (k j : Nat) (b : Byte) (l : L1Line) (hj : j < 256) :
    (byteIn k b l).mask.getLsbD j = (decide (j = k) || l.mask.getLsbD j) := by
  unfold byteIn
  simp only [BitVec.getLsbD_or, BitVec.getLsbD_shiftLeft]
  have h1 : (1#256).getLsbD (j - k) = decide (j - k = 0) := by
    rw [BitVec.getLsbD_one]
    by_cases h : j - k = 0 <;> simp [h]
  rw [h1]
  by_cases e : j = k
  · subst e; simp [hj]
  · rcases Nat.lt_or_gt_of_ne e with h | h
    · simp [e, h]
    · have : j - k ≠ 0 := by omega
      simp [e, this]
theorem swmStore_eq (pa : Nat) (bs : List Byte) (l : L1Line) :
    swmStore pa bs l = bs.zipIdx.foldl (fun l e => byteIn (pa % 256 + e.2) e.1 l) l := rfl
theorem swmFold (o : Nat) (bs : List Byte) (i : Nat) (l : L1Line) (h : o + i + bs.length ≤ 256) :
    let r := (bs.zipIdx i).foldl (fun l e => byteIn (o + e.2) e.1 l) l
    r.st = l.st ∧ (∀ k, k < bs.length → r.mask.getLsbD (o + i + k) = true ∧ r.bytes.extractLsb' (8 * (o + i + k)) 8 = bs.getD k 0) ∧
      ∀ j, j < o + i → r.mask.getLsbD j = l.mask.getLsbD j ∧ r.bytes.extractLsb' (8 * j) 8 = l.bytes.extractLsb' (8 * j) 8 := by
  induction bs generalizing i l with
  | nil => exact ⟨rfl, (fun k hk => absurd hk (by simp)), fun _ _ => ⟨rfl, rfl⟩⟩
  | cons b r ih =>
    simp only [List.length_cons] at h
    obtain ⟨i1, i2, i3⟩ := ih (i + 1) (byteIn (o + i) b l) (by omega)
    simp only [List.zipIdx_cons, List.foldl_cons]
    refine ⟨i1, fun k hk => ?_, fun j hj => ?_⟩
    · cases k with
      | zero =>
        obtain ⟨m1, m2⟩ := i3 (o + i) (by omega)
        simp only [Nat.add_zero]
        rw [m1, m2, byteIn_mask _ _ _ _ (by omega), byteIn_bytes _ _ _ _ (by omega) (by omega)]
        simp
      | succ k =>
        simp only [List.length_cons] at hk
        obtain ⟨m1, m2⟩ := i2 k (by omega)
        have e : o + i + (k + 1) = o + (i + 1) + k := by omega
        rw [e, m1, m2]
        exact ⟨rfl, rfl⟩
    · obtain ⟨m1, m2⟩ := i3 j (by omega)
      rw [m1, m2, byteIn_mask _ _ _ _ (by omega), byteIn_bytes _ _ _ _ (by omega) (by omega)]
      have : j ≠ o + i := by omega
      simp [this]
/-- The bytes and mask of a copy after a store. -/
theorem swmStore_spec (pa : Nat) (bs : List Byte) (l : L1Line) (h : pa % 256 + bs.length ≤ 256) :
    (swmStore pa bs l).st = l.st ∧ ∀ k, k < bs.length → (swmStore pa bs l).mask.getLsbD (pa % 256 + k) = true ∧
      (swmStore pa bs l).bytes.extractLsb' (8 * (pa % 256 + k)) 8 = bs.getD k 0 := by
  obtain ⟨h1, h2, _⟩ := swmFold (pa % 256) bs 0 l (by omega)
  exact ⟨h1, fun k hk => h2 k hk⟩
theorem l1Line_setL1_self (c line : Nat) (l : L1Line) (s : State) : l1Line (setL1 c line l s) c line = some l := by
  unfold l1Line setL1
  simp only [State.core, modCore_cores, tab_get_put_self, tab_find_put_self]
theorem l1Line_setL1_ne (c line k : Nat) (l : L1Line) (s : State) (h : k ≠ line) : l1Line (setL1 c line l s) c k = l1Line s c k := by
  unfold l1Line setL1
  simp only [State.core, modCore_cores, tab_get_put_self, tab_find_put_ne _ h]
/-- The placed line stands in the L1 in its state. -/
theorem l1Line_placeLine {s u : State} {c line : Nat} {st : L1State} {hint : BitVec 2} {v d : BitVec 4} (h : placeLine c line st hint v d s = some u) :
    ∃ e, l1Line u c line = some e ∧ e.st = st ∧
      (makeRoom c line (st == .swm) s).any (fun s1 => e.mask == ((l1Line s1 c line).map L1Line.mask).getD 0) = true := by
  unfold placeLine at h
  cases hm : makeRoom c line (st == .swm) s with
  | none => rw [hm] at h; cases h
  | some s1 =>
    rw [hm] at h
    simp only [Option.map_some, Option.some.injEq] at h
    subst h
    have key : ∀ (L : L1Line) (w : State), ∃ e, l1Line (touchHint c line hint (setL1 c line L w)) c line = some e ∧ e.st = L.st ∧ e.mask = L.mask := by
      intro L w
      unfold touchHint
      rw [l1Line_setL1_self]
      exact ⟨_, l1Line_setL1_self _ _ _ _, rfl, rfl⟩
    obtain ⟨e, k1, k2, k3⟩ := key { (l1Line s1 c line).getD { st := st, hint := hintNext hint none } with
      st := st, valid := ((l1Line s1 c line).getD { st := st, hint := hintNext hint none }).valid ||| v
      dirty := ((l1Line s1 c line).getD { st := st, hint := hintNext hint none }).dirty ||| d, used := s.clock }
      (if (l1Line s1 c line).isSome then s1
        else l2Touch line hint v 0 (if ((l1Line s1 c line).getD { st := st, hint := hintNext hint none }).hint = 2 then demoteLast c line s1 else s1))
    refine ⟨e, k1, k2, ?_⟩
    simp only [Option.any_some, k3]
    cases l1Line s1 c line <;> simp

theorem bare_team {a b : Thread} (h : a.bare = b.bare) : a.team = b.team ∧ a.handlerOf = b.handlerOf := by
  unfold Thread.bare at h
  simp only [Thread.mk.injEq] at h
  exact ⟨h.1, h.2.2.2.2.1⟩
theorem writeOut_team (f : Fields) (o : LaneOut) (t : Thread) : (writeOut f o t).team = t.team := by
  have h32 : ∀ (o : Opnd) (x : Word) (t : Thread), (putD32 o x t).team = t.team := by intro o x t; cases o <;> rfl
  have h64 : ∀ (o : Opnd) (x : DWord) (t : Thread), (putD64 o x t).team = t.team := by intro o x t; cases o <;> rfl
  have hp : ∀ (o : Opnd) (x : Bool) (t : Thread), (putPred o x t).team = t.team := by
    intro o x t; cases o <;> first | rfl | (unfold putPred Thread.setPred; simp only; split <;> rfl)
  have hrs : ∀ (xs : List Word) (n : Nat) (t : Thread), (t.setRegs n xs).team = t.team := by
    intro xs; induction xs with
    | nil => intro n t; rfl
    | cons x r ih => intro n t; unfold Thread.setRegs; rw [ih]; rfl
  cases o with
  | none => rfl
  | value w x =>
    show (writeValue f w x t).team = t.team
    unfold writeValue
    simp only
    have h1 : (if f.nw then t else if w then putD64 f.d x t else putD32 f.d (loW x) t).team = t.team := by
      split
      · rfl
      · split
        · exact h64 _ _ _
        · exact h32 _ _ _
    split
    · exact h1
    · exact h1
  | many xs => show (putDs f.d xs t).team = t.team; unfold putDs; split; exact hrs _ _ _; rfl
  | pred b => exact hp _ _ _
  | trap v => rfl
/-- The end of an instruction with one executing thread whose access left u, and which writes a result. -/
theorem complete_write (f : Fields) (s u : State) (l : Lane) (x : Xlat) (bs : List Byte) (o : LaneOut) (whole on : Bool)
    (q : on = true → QuietL1 s s.hereCore)
    (done : Lane → Xlat → List Byte → State → State) (hs : LanesSound s) (he : s.execLanes f = [l]) (h : Quietly s { u with mem := s.mem })
    (hd : ∀ g : List Nat → List Nat, done l x bs ((advance u).modCore u.hereCore fun c => { c with arrived := g c.arrived }) =
      acquired f on x.mode (putOut f l o ((advance u).modCore u.hereCore fun c => { c with arrived := g c.arrived }))) :
    let t := complete f whole done { got := [(l, x, bs, false)], waits := [], fails := [], st := u }
    DoneBare f s t (fun _ => o) ∧ t.mem = u.mem ∧ ResvFrom u t := by
  intro t
  obtain ⟨g, hg⟩ := complete_one f whole done l x bs u
  have ht : t = acquired f on x.mode (putOut f l o ((advance u).modCore u.hereCore fun c => { c with arrived := g c.arrived })) := by
    rw [← hd]; exact hg
  rw [ht]
  obtain ⟨a, b, c, _⟩ := finish_one s u f l o hs he h on q x.mode u.hereCore g
  exact ⟨a, b, c⟩
theorem putOut_none (f : Fields) (l : Lane) (v : State) (j : Nat) : (putOut f l .none v).thread? j = v.thread? j := by
  rw [putOut_thread?]; split
  · cases h : v.thread? j <;> rfl
  · rfl
/-- The same for an instruction without a result. -/
theorem complete_store (f : Fields) (s u : State) (l : Lane) (x : Xlat) (bs : List Byte) (whole : Bool)
    (hs : LanesSound s) (he : s.execLanes f = [l]) (h : Quietly s { u with mem := s.mem }) :
    let t := complete f whole (fun _ _ _ s => s) { got := [(l, x, bs, false)], waits := [], fails := [], st := u }
    DoneBare f s t noResult ∧ t.mem = u.mem ∧ ResvFrom u t ∧ t.home = u.home ∧ ∀ c k, l1Line t c k = l1Line u c k := by
  intro t
  obtain ⟨g, hg⟩ := complete_one f whole (fun _ _ _ s => s) l x bs u
  have ht : t = ((advance u).modCore u.hereCore fun c => { c with arrived := g c.arrived }) := hg
  obtain ⟨f1, f2, f3, _⟩ := finish_one s u f l .none hs he h false (fun h => by cases h) 0 u.hereCore g
  have hT : SameButThreads u (advance u) := by unfold advance; exact sameT_modThreads _ _ _
  have e : ∀ j, t.thread? j = (acquired f false 0 (putOut f l .none ((advance u).modCore u.hereCore fun c => { c with arrived := g c.arrived }))).thread? j := by
    intro j
    show _ = (putOut f l .none _).thread? j
    rw [putOut_none, ht]
  refine ⟨?_, ?_, ?_, ?_, fun c k => ?_⟩
  · obtain ⟨d1, d2, d3⟩ := f1
    exact ⟨fun l hl => by rw [e]; exact d1 l hl, fun l hl hg => by rw [e]; exact d2 l hl hg, fun k hk => by rw [e]; exact d3 k hk⟩
  · rw [ht, modCore_mem, advance_mem]
  · intro j x r h1 h2; rw [e] at h1; exact f3 j x r h1 h2
  · rw [ht, hT]; rfl
  · rw [ht]
    unfold l1Line
    simp only [State.core, modCore_cores, tab_get_put]
    have hc : (advance u).cores = u.cores := by rw [hT]
    rw [hc]
    split
    · rename_i e2; subst e2; rfl
    · rfl

/-- The executing thread's grid is still its grid once it has its result. -/
theorem finish_grid (s u : State) (f : Fields) (l : Lane) (o : LaneOut) (hs : LanesSound s) (he : s.execLanes f = [l])
    (h : Quietly s { u with mem := s.mem }) (on : Bool) (q : on = true → QuietL1 s s.hereCore) (mode c : Nat) (g : List Nat → List Nat) :
    let t := acquired f on mode (putOut f l o ((advance u).modCore c fun k => { k with arrived := g k.arrived }))
    t.gridOf (t.thread l.id) = s.gridOf l.th := by
  intro t
  obtain ⟨⟨d1, _, _⟩, _, _, hcm⟩ := finish_one s u f l o hs he h on q mode c g
  have hl := d1 l (by rw [he]; exact List.mem_singleton.2 rfl)
  have hT : t.work.teams = s.work.teams ∧ t.work.grids = s.work.grids := by
    have e1 : t.work = (putOut f l o ((advance u).modCore c fun k => { k with arrived := g k.arrived })).work := by
      have hh := congrArg State.work hcm.1
      exact hh
    have e2 := sameT_modThread ((advance u).modCore c fun k => { k with arrived := g k.arrived }) l.id fun t => writeOut f o t
    have e3 : SameButThreads u (advance u) := by unfold advance; exact sameT_modThreads _ _ _
    rw [e1]
    unfold putOut
    rw [e2]
    simp only [modCore_work]
    rw [e3]
    exact ⟨h.teams, h.grids⟩
  have hteam : (t.thread l.id).team = l.th.team := by
    cases hx : t.thread? l.id with
    | none => simp only [t] at hx; rw [hx] at hl; cases hl
    | some y =>
      have hx' := hx
      simp only [t] at hx'
      rw [hx'] at hl
      simp only [Option.map_some, Option.some.injEq] at hl
      rw [thread_of_thread? hx, (bare_team hl).1, writeOut_team]
      rfl
  unfold State.gridOf State.grid State.team
  rw [hteam, hT.1, hT.2]

/-! ## Reductions into a core's partial -/

theorem loseCopy_home (c line : Nat) (s : State) : (loseCopy c line s).home = s.home := by
  unfold loseCopy delL1 coreResv clearResv
  simp only [modCore_home]
  rw [sameT_modThreads]
theorem invalidateOthers_home (c line : Nat) (s : State) : (invalidateOthers c line s).home = s.home := by
  unfold invalidateOthers
  simp only
  have : ∀ (ks : List Nat) (s : State), (ks.foldl (fun s k => loseCopy k line s) s).home = s.home := by
    intro ks
    induction ks with
    | nil => intro s; rfl
    | cons k r ih => intro s; rw [List.foldl_cons, ih, loseCopy_home]
  exact this _ _
theorem recallLine_poison {s : State} {line : Nat} (h : (dirOf s line).st ≠ .b) : (recallLine line s).home.poison = s.home.poison := by
  unfold recallLine
  simp only
  rw [mergeLine_quiet _ _ h]
  show (invalidateOthers 128 line s).home.poison = _
  rw [invalidateOthers_home]
theorem onlyL2_keeps {g : Home → Home} (h : OnlyL2 g) (x : Home) : (g x).poison = x.poison ∧ (g x).dir = x.dir := by
  rw [h x]; exact ⟨rfl, rfl⟩
theorem l2Touch_keeps (line : Nat) (hint : BitVec 2) (v d : BitVec 4) (s : State) :
    (l2Touch line hint v d s).home.poison = s.home.poison ∧ (l2Touch line hint v d s).home.dir = s.home.dir ∧
      (l2Touch line hint v d s).cores = s.cores := by
  obtain ⟨g, h, e⟩ := onlyL2_touch line hint v d s
  rw [e]; exact ⟨(onlyL2_keeps h _).1, (onlyL2_keeps h _).2, rfl⟩
theorem rmwPlace_poison {s : State} {c mode : Nat} {hint : BitVec 2} {pa : Nat} (q : QuietL1 s c) (hd : (dirOf s (lineOf pa)).st ≠ .b) :
    (rmwPlace c mode true hint pa s).home.poison = s.home.poison := by
  unfold rmwPlace
  simp only [Bool.true_or, if_true]
  split
  · unfold farPlace
    rw [(l2Touch_keeps _ _ _ _ _).1, recallLine_poison ((quietly_predict c _ s).dir _ hd)]
    rfl
  · rw [dropSwm_quiet q, (l2Touch_keeps _ _ _ _ _).1]
  · rfl
/-- Memory, threads but for reservations, and waves are kept. -/
structure Framed (s u : State) : Prop where
  mem : u.mem = s.mem
  thr : ∀ k, (u.thread? k).map Thread.bare = (s.thread? k).map Thread.bare
  cur : u.cur = s.cur
  waves : u.work.waves = s.work.waves
theorem Framed.trans {s t u : State} (a : Framed s t) (b : Framed t u) : Framed s u :=
  ⟨b.mem.trans a.mem, fun k => (b.thr k).trans (a.thr k), b.cur.trans a.cur, b.waves.trans a.waves⟩
theorem Framed.rfl' (s : State) : Framed s s := ⟨rfl, fun _ => rfl, rfl, rfl⟩
theorem Quietly.framed {s u : State} (h : Quietly s u) : Framed s u := ⟨h.mem, h.thr, h.cur, h.waves⟩
theorem framed_of {s u : State} (h : u = { s with cores := u.cores, home := u.home }) : Framed s u := by
  refine ⟨?_, fun k => ?_, ?_, ?_⟩
  · rw [h]
  · unfold State.thread?; rw [h]
  · rw [h]
  · rw [h]
theorem framed_demoteLast (c line : Nat) (s : State) : Framed s (demoteLast c line s) := by
  unfold demoteLast
  simp only
  split
  · exact Framed.rfl' s
  · split
    · exact framed_of rfl
    · exact Framed.rfl' s
theorem framed_l2Touch (line : Nat) (hint : BitVec 2) (v d : BitVec 4) (s : State) : Framed s (l2Touch line hint v d s) :=
  (quietly_l2Touch _ _ _ _ _).framed
theorem framed_touchHint (c line : Nat) (hint : BitVec 2) (s : State) : Framed s (touchHint c line hint s) := by
  unfold touchHint
  split
  · exact framed_l2Touch _ _ _ _ _
  · simp only
    split
    · exact (framed_demoteLast _ _ _).trans (framed_of rfl)
    · exact framed_of rfl
theorem framed_placeLine {s u : State} {c line : Nat} {st : L1State} {hint : BitVec 2} {v d : BitVec 4} (q : QuietL1 s c)
    (h : placeLine c line st hint v d s = some u) : Framed s u := by
  unfold placeLine at h
  cases hm : makeRoom c line (st == .swm) s with
  | none => rw [hm] at h; cases h
  | some s1 =>
    rw [hm] at h
    simp only [Option.map_some, Option.some.injEq] at h
    subst h
    refine (quietly_makeRoom q hm).framed.trans ?_
    have h2 : ∀ (p : Prop) [Decidable p], Framed s1 (if p then demoteLast c line s1 else s1) := by
      intro p _; split
      · exact framed_demoteLast _ _ _
      · exact Framed.rfl' _
    have h3 : ∀ (a p : Prop) [Decidable a] [Decidable p], Framed s1 (if a then s1 else l2Touch line hint v 0 (if p then demoteLast c line s1 else s1)) := by
      intro a p _ _; split
      · exact Framed.rfl' _
      · exact (h2 p).trans (framed_l2Touch _ _ _ _ _)
    have h4 : ∀ (L : L1Line) (w : State), Framed s1 w → Framed s1 (touchHint c line hint (setL1 c line L w)) := fun L w hw =>
      hw.trans (Framed.trans (framed_of rfl) (framed_touchHint _ _ _ _))
    exact h4 _ _ (h3 _ _)
theorem home_demoteLast (c line : Nat) (y : State) : (demoteLast c line y).home = y.home := by
  unfold demoteLast; simp only; split
  · rfl
  · split <;> rfl
theorem dir_touchHint (c line : Nat) (hint : BitVec 2) (s : State) : (touchHint c line hint s).home.dir = s.home.dir := by
  unfold touchHint
  split
  · exact (l2Touch_keeps _ _ _ _ _).2.1
  · simp only
    show (if _ then demoteLast c line s else s).home.dir = _
    split
    · rw [home_demoteLast]
    · rfl
theorem dir_placeLine {s u : State} {c line : Nat} {st : L1State} {hint : BitVec 2} {v d : BitVec 4} (hm : makeRoom c line (st == .swm) s = some s)
    (h : placeLine c line st hint v d s = some u) : u.home.dir = s.home.dir := by
  unfold placeLine at h
  rw [hm] at h
  simp only [Option.map_some, Option.some.injEq] at h
  subst h
  rw [dir_touchHint]
  have h2 : ∀ (p : Prop) [Decidable p], (if p then demoteLast c line s else s).home.dir = s.home.dir := by
    intro p _; split
    · rw [home_demoteLast]
    · rfl
  have h3 : ∀ (a p : Prop) [Decidable a] [Decidable p], (if a then s else l2Touch line hint v 0 (if p then demoteLast c line s else s)).home.dir = s.home.dir := by
    intro a p _ _; split
    · rfl
    · rw [(l2Touch_keeps _ _ _ _ _).2.1, h2]
  exact h3 _ _
theorem poison_touchHint (c line : Nat) (hint : BitVec 2) (s : State) : (touchHint c line hint s).home.poison = s.home.poison := by
  unfold touchHint
  split
  · exact (l2Touch_keeps _ _ _ _ _).1
  · simp only
    show (ite _ _ s).home.poison = _
    split
    · rw [home_demoteLast]
    · rfl
theorem poison_placeLine {s u : State} {c line : Nat} {st : L1State} {hint : BitVec 2} {v d : BitVec 4} (hm : makeRoom c line (st == .swm) s = some s)
    (h : placeLine c line st hint v d s = some u) : u.home.poison = s.home.poison := by
  unfold placeLine at h
  rw [hm] at h
  simp only [Option.map_some, Option.some.injEq] at h
  subst h
  rw [poison_touchHint]
  have h2 : ∀ (p : Prop) [Decidable p], (if p then demoteLast c line s else s).home.poison = s.home.poison := by
    intro p _; split
    · rw [home_demoteLast]
    · rfl
  have h3 : ∀ (a p : Prop) [Decidable a] [Decidable p], (if a then s else l2Touch line hint v 0 (if p then demoteLast c line s else s)).home.poison = s.home.poison := by
    intro a p _ _; split
    · rfl
    · rw [(l2Touch_keeps _ _ _ _ _).1, h2]
  exact h3 _ _
/-! ## A partial of one element -/

theorem extract_bytes (x : BitVec 2048) : ∀ (n o : Nat),
    (x.extractLsb' (8 * o) (8 * n)).toNat = leNat ((List.range n).map fun j => x.extractLsb' (8 * (o + j)) 8)
  | 0, o => by simp [leNat]
  | n + 1, o => by
    have ih := extract_bytes x n (o + 1)
    have e : (List.range (n + 1)).map (fun j => x.extractLsb' (8 * (o + j)) 8) =
        x.extractLsb' (8 * o) 8 :: (List.range n).map fun j => x.extractLsb' (8 * (o + 1 + j)) 8 := by
      rw [List.range_succ_eq_map, List.map_cons, List.map_map]
      congr 1
      refine List.map_congr_left fun j _ => ?_
      simp only [Function.comp_apply]
      rw [show o + (j + 1) = o + 1 + j by omega]
    rw [e]
    show _ = (x.extractLsb' (8 * o) 8).toNat + 256 * leNat _
    rw [← ih]
    simp only [BitVec.extractLsb'_toNat, Nat.shiftRight_eq_div_pow]
    rw [show 8 * (n + 1) = 8 + 8 * n by omega, Nat.pow_add, Nat.mod_mul, show 8 * (o + 1) = 8 * o + 8 by omega, Nat.pow_add, Nat.div_div_eq_div_mul]
theorem foldl_one {α β : Type} (f : α → β → α) (l : List β) (b : β) (s : α) (hb : b ∈ l) (hn : l.Nodup) (h : ∀ x ∈ l, x ≠ b → ∀ a, f a x = a) :
    l.foldl f s = f s b := by
  have none : ∀ (r : List β) (a : α), (∀ x ∈ r, ∀ a, f a x = a) → r.foldl f a = a := by
    intro r
    induction r with
    | nil => intro a _; rfl
    | cons y t ih => intro a hr; rw [List.foldl_cons, hr y List.mem_cons_self]; exact ih a fun x hx => hr x (List.mem_cons_of_mem _ hx)
  induction l generalizing s with
  | nil => cases hb
  | cons y t ih =>
    rw [List.foldl_cons]
    obtain ⟨h1, h2⟩ := List.nodup_cons.1 hn
    by_cases e : y = b
    · subst e
      exact none t _ fun x hx => h x (List.mem_cons_of_mem _ hx) (fun e => h1 (e ▸ hx))
    · rw [h y List.mem_cons_self e]
      exact ih s ((List.mem_cons.1 hb).resolve_left fun e' => e e'.symm) h2 fun x hx => h x (List.mem_cons_of_mem _ hx)
/-- A partial with one element leaves an L1: the home combines it. -/
theorem evict_partial {s : State} {c pa op n : Nat} {L : L1Line} {bs : List Byte} (ul : l1Line s c (lineOf pa) = some L) (hst : L.st = .b)
    (htag : (dirOf s (lineOf pa)).tag.toNat = op) (hn : n = opBytes op) (hm : L.mask = 1#256 <<< (pa % 256 / n)) (hl : bs.length = n)
    (hb : ∀ j, j < n → L.bytes.extractLsb' (8 * (pa % 256 + j)) 8 = bs.getD j 0) (hp : poisoned s (lineOf pa) = false) (hal : pa % n = 0) :
    ∃ v, evictLine c (lineOf pa) s = some v ∧ (∀ j, (v.thread? j).map Thread.bare = (s.thread? j).map Thread.bare) ∧ v.cur = s.cur ∧
      v.work.waves = s.work.waves ∧ v.mem = Mem.put 0 s.mem pa (natLe n (applyOp op (leNat bs) (homeNat s pa n))) := by
  have hn4 : n = 4 ∨ n = 8 := by rw [hn]; unfold opBytes; split <;> simp
  generalize hk : pa % 256 / n = k at hm
  have hkn : n * k = pa % 256 := by rcases hn4 with e | e <;> subst e <;> omega
  have hk' : k < 256 / n := by rcases hn4 with e | e <;> subst e <;> omega
  have hpa : lineOf pa + n * k = pa := by rw [hkn]; unfold lineOf; omega
  have hev : elemVal L.bytes n k = leNat bs := by
    unfold elemVal
    rw [Nat.mul_assoc, hkn, extract_bytes]
    congr 1
    apply List.ext_getElem
    · simp [hl]
    · intro i h1 h2
      simp only [List.getElem_map, List.getElem_range]
      rw [hb i (by omega), List.getD_eq_getElem?_getD, List.getElem?_eq_getElem h2]; rfl
  have hmi : mergeInto (dirOf s (lineOf pa)).tag.toNat (lineOf pa) [(L.bytes, L.mask)] s =
      homeWrite none pa (natLe n (applyOp op (leNat bs) (homeNat s pa n))) s := by
    unfold mergeInto
    rw [htag]
    simp only [List.isEmpty_cons, Bool.false_eq_true, if_false, hp]
    unfold mergePartials
    simp only [← hn]
    rw [foldl_one _ _ k s (List.mem_range.2 hk') List.nodup_range]
    · have hk256 : k < 256 := by rcases hn4 with e | e <;> subst e <;> omega
      have hbit : L.mask.getLsbD k = true := by rw [hm]; simp [hk256]
      have : (([(L.bytes, L.mask)] : List (BitVec 2048 × BitVec 256)).filter fun p => p.2.getLsbD k).map (fun p => elemVal p.1 n k) = [leNat bs] := by
        simp [hbit, hev]
      rw [this]
      show homeWrite none (lineOf pa + n * k) _ s = _
      rw [hpa]
    · intro j _ hj a
      have hbit : L.mask.getLsbD j = false := by
        rw [hm, BitVec.getLsbD_shiftLeft, BitVec.getLsbD_one]
        by_cases h : j < k
        · simp [h]
        · have : ¬ j - k = 0 := by omega
          simp [this]
      have : (([(L.bytes, L.mask)] : List (BitVec 2048 × BitVec 256)).filter fun p => p.2.getLsbD j).map (fun p => elemVal p.1 n j) = [] := by
        simp [hbit]
      rw [this]; rfl
  have q := quietly_homeWrite none pa (natLe n (applyOp op (leNat bs) (homeNat s pa n))) s
  generalize homeWrite none pa (natLe n (applyOp op (leNat bs) (homeNat s pa n))) s = W at hmi q
  unfold evictLine
  rw [ul]
  simp only [hst, hmi]
  refine ⟨_, rfl, ?_⟩
  generalize hx : setDir (lineOf pa) _ (tellHome c (lineOf pa) .back W) = y
  have y1 : y.mem = W.mem ∧ y.work = W.work ∧ y.cur = W.cur := by
    subst hx; exact ⟨rfl, rfl, rfl⟩
  clear hx
  have l := quietly_loseCopy c (lineOf pa) y
  have y2 : ∀ j, y.thread? j = W.thread? j := by intro j; unfold State.thread?; rw [y1.2.1]
  exact ⟨fun j => (l.thr j).trans ((congrArg _ (y2 j)).trans (q.thr j)), l.cur.trans (y1.2.2.trans q.cur), l.waves.trans ((congrArg _ y1.2.1).trans q.waves), l.mem.trans (y1.1.trans q.mem)⟩
theorem makeRoom_free {s : State} {c line : Nat} {swm : Bool} (h : victimOf s c line = none)
    (hl : ∀ l, l1Line s c line = some l → (l.st == .swm) = swm) : makeRoom c line swm s = some s := by
  unfold makeRoom
  rw [h]
  split
  · rename_i l e
    rw [hl l e]; simp
  · rfl
theorem victimOf_none {s : State} {c line : Nat} (h : (setLines s c line).length < 8) : victimOf s c line = none := by
  unfold victimOf; simp only [h, if_true]
/-- Losing copies does not fill a set. -/
theorem setLines_loseCopy (k c line : Nat) (s : State) : (setLines (loseCopy k line s) c line).length ≤ (setLines s c line).length := by
  have hc : (loseCopy k line s).core c = if c = k then { s.core c with l1 := Tab.del (s.core c).l1 line } else s.core c := by
    unfold loseCopy delL1
    have : (coreResv k line s).cores = s.cores := by unfold coreResv clearResv; simp only; rw [sameT_modThreads]
    simp only [State.core, modCore_cores, tab_get_put, this]
    split
    · rename_i e; rw [e]
    · rfl
  unfold setLines sameSet l1Sets
  rw [hc]
  split
  · simp only
    exact List.Sublist.length_le (List.Sublist.filter _ List.filter_sublist)
  · exact Nat.le_refl _
theorem setLines_home (c line : Nat) (s : State) (g : Home → Home) : setLines (s.modHome g) c line = setLines s c line := rfl
theorem setLines_recall {s : State} {line c : Nat} (h : (dirOf s line).st ≠ .b) :
    (setLines (recallLine line s) c line).length ≤ (setLines s c line).length := by
  unfold recallLine
  simp only
  rw [mergeLine_quiet _ _ h]
  have hk : ∀ (ks : List Nat) (s : State), (setLines (ks.foldl (fun s k => loseCopy k line s) s) c line).length ≤ (setLines s c line).length := by
    intro ks
    induction ks with
    | nil => intro s; exact Nat.le_refl _
    | cons k r ih => intro s; rw [List.foldl_cons]; exact Nat.le_trans (ih _) (setLines_loseCopy k c line s)
  show (setLines (modDir line _ (invalidateOthers 128 line s)) c line).length ≤ _
  have : ∀ g y, setLines (modDir line g y) c line = setLines y c line := fun _ _ => rfl
  rw [this]
  unfold invalidateOthers
  exact hk _ s
theorem l1Line_loseCopy (c line : Nat) (s : State) : l1Line (loseCopy c line s) c line = none := by
  unfold loseCopy delL1 l1Line
  simp only [State.core, modCore_cores, tab_get_put_self, tab_find_del, if_true]

/-! ## An access after its release side -/

theorem expireLeases_walks (x : Nat) (k : List Walk) (s v : State) (hv : v = { s with walks := k }) :
    expireLeases x v = { expireLeases x s with walks := k } := by
  have h : ∀ (ls : List Nat) (u v : State), v = { u with walks := k } →
      ls.foldl (fun s k => dropCopies k s) v = { ls.foldl (fun s k => dropCopies k s) u with walks := k } := by
    intro ls
    induction ls with
    | nil => intro u v e; exact e
    | cons a r ih => intro u v e; subst e; rw [List.foldl_cons, List.foldl_cons]; exact ih (dropCopies a u) _ rfl
  subst hv
  unfold expireLeases
  exact h _ _ _ rfl
theorem acquireSide_walks (c x : Nat) (sc : BitVec 3) (k : List Walk) (s : State) :
    acquireSide c x sc { s with walks := k } = { acquireSide c x sc s with walks := k } := by
  have h : acquireSwm c { s with walks := k } = { acquireSwm c s with walks := k } := by
    unfold acquireSwm
    by_cases q : (s.core c).l1.any (fun e => e.2.st == L1State.swm) = true
    · rw [if_pos (c := ((State.core { s with walks := k } c).l1.any fun e => e.2.st == L1State.swm) = true) q, if_pos q]; rfl
    · rw [if_neg (c := ((State.core { s with walks := k } c).l1.any fun e => e.2.st == L1State.swm) = true) q, if_neg q]
  unfold acquireSide
  split
  · rfl
  · split
    · exact h
    · exact expireLeases_walks x k _ _ h
/-- Where the core holds no line that a release writes back, the release side writes nothing. -/
theorem releaseBefore_calm (f : Fields) (rel : Bool) (ps : List (Lane × Xlat)) {s : State} (q : QuietL1 s s.hereCore) : Calm s (releaseBefore f rel ps s) := by
  unfold releaseBefore
  split
  · exact calm_refl s
  · split
    · exact calm_fenceSides _ _ q
    · rw [releaseSide_quiet _ _ _ q]; exact calm_refl s
theorem releaseBefore_walks (f : Fields) (rel : Bool) (ps : List (Lane × Xlat)) (k : List Walk) {s : State} (q : QuietL1 s s.hereCore) :
    releaseBefore f rel ps { s with walks := k } = { releaseBefore f rel ps s with walks := k } := by
  have q' : QuietL1 { s with walks := k } ({ s with walks := k } : State).hereCore := q
  unfold releaseBefore
  split
  · rfl
  · split
    · have e : ({ s with walks := k } : State).hereCore = s.hereCore := rfl
      have e2 : ({ s with walks := k } : State).hereCtx = s.hereCtx := rfl
      unfold fenceSides
      rw [fenceSwm_quiet q, fenceSwm_quiet q', ite_self, ite_self, e, e2]
      exact acquireSide_walks _ _ _ _ _
    · rw [releaseSide_quiet _ _ _ q, releaseSide_quiet _ _ _ q']
theorem afterWait_none {c : Nat} {x : Xlat} {k : State → Got × State} {s : State} (h : writeWait s c x.mode x.pa = none) : afterWait c x k s = k s := by
  unfold afterWait; rw [h]
/-- The parts of a plain single access. -/
theorem onePlain_parts {f : Fields} {s : State} {need : Need} {n : Nat} {near : State → Lane → Xlat → Bool} {acq rel : Bool} {l : Lane} {x : Xlat}
    (h : OnePlain f s need n near acq rel l x) :
    (LanesSound s ∧ s.execLanes f = [l] ∧ s.hereCore = s.coreOf l.th ∧ isRemote x.pa = false ∧ isMmio x.pa = false ∧ poisoned s x.pa = false ∧
      CalmLine s (lineOf x.pa) ∧ QuietL1 s s.hereCore ∧ l.th.reply = none) ∧
    (∀ k, near { s with walks := k } l x = near s l x → storeWait f n near [(l, x)] { s with walks := k } = none) ∧
    (∀ k, let w := releaseBefore f rel [(l, x)] { s with walks := k }
      Calm s w ∧ writeWait w (s.coreOf l.th) x.mode x.pa = none ∧ w.coreOf l.th = s.coreOf l.th ∧ w.thread l.id = l.th) ∧
    (∀ k, writeWait { s with walks := k } (s.coreOf l.th) x.mode x.pa = none ∧ ({ s with walks := k } : State).thread l.id = l.th) ∧
    ∀ act, ∃ k, withGlobal f need n acq rel act s = act [(l, x)] { s with walks := k } := by
  obtain ⟨hs, he, hp, ww, wr, ho, hd⟩ := h
  have hp' := hp
  obtain ⟨hk, hl, np, cl, q, hc, hr⟩ := hp
  have hl2 := local_places hl
  have q' : QuietL1 s s.hereCore := by rw [hc]; exact q
  have th : s.thread l.id = l.th := thread_of_thread? (hs.2 l (execLanes_sub (he ▸ List.mem_singleton.2 rfl : l ∈ s.execLanes f)))
  refine ⟨⟨hs, he, hc, hl2.1, hl2.2, np, cl, q', hr⟩, fun k hn => storeWait_one f n near s l x k hn ww hd, fun k => ?_,
    fun k => ⟨hc ▸ writeWait_walks s _ _ _ k ww, th⟩, fun act => withGlobal_one f need n acq rel act s l x he hp' ho⟩
  have cw : Calm s (releaseBefore f rel [(l, x)] s) := releaseBefore_calm f rel [(l, x)] q'
  have cw' : Calm s (releaseBefore f rel [(l, x)] { s with walks := k }) := by
    rw [releaseBefore_walks f rel [(l, x)] k q']
    exact calm_trans cw ⟨rfl, fun _ h => h⟩
  refine ⟨cw', ?_, ?_, ?_⟩
  · rw [releaseBefore_walks f rel [(l, x)] k q', ← hc]
    exact writeWait_walks _ _ _ _ k wr
  · unfold State.coreOf State.team; rw [cw'.1]
  · unfold State.thread Tab.get
    have e : Tab.find (releaseBefore f rel [(l, x)] { s with walks := k }).work.threads l.id = s.thread? l.id := thread?_calm cw' l.id
    rw [e]
    exact th
/-- A single RMW on a plain word: the old value, the new one written, and no other thread's reservation kept on its line. -/
theorem globalRmw_one {f : Fields} {n op : Nat} {b c : Lane → Nat} {g : Lane → Nat → Option Nat} {wait acq rel : Bool}
    {done : Lane → Xlat → List Byte → State → State} {s : State} {l : Lane} {x : Xlat}
    (h : OnePlain f s { r := true, w := true, rmw := true } n runsNear acq rel l x) :
    ∃ u : State, globalRmw f n op b c g wait acq rel done s =
        complete f wait done { got := [(l, x, natLe n (homeNat s x.pa n), false)], waits := [], fails := [], st := u } ∧
      Quietly s { u with mem := s.mem } ∧
      u.mem = (match g l (homeNat s x.pa n) with | some v => Mem.put 0 s.mem x.pa (natLe n v) | none => s.mem) ∧
      (∀ v, g l (homeNat s x.pa n) = some v → NoResvBut u l.id (lineOf x.pa)) := by
  obtain ⟨⟨hs, he, hc, nr, nm, np, cl, q, hr⟩, hsw, hrel, hpl, hact⟩ := onePlain_parts h
  obtain ⟨k, hk⟩ := hact (fun ps s =>
    match storeWait f n runsNear ps s with
    | some s1 => s1
    | none =>
      complete f wait done (accesses (fun l x s => rmwLane f.hint l x n op (b l) (c l) (g l) wait s) ps
        (releaseBefore f (rel && willWrite n g ps s) ps s)))
  -- the state in which the access runs
  obtain ⟨w, hw, cw, ww, co, th⟩ : ∃ w, releaseBefore f (rel && willWrite n g [(l, x)] { s with walks := k }) [(l, x)] { s with walks := k } = w ∧
      Calm s w ∧ writeWait w (s.coreOf l.th) x.mode x.pa = none ∧ w.coreOf l.th = s.coreOf l.th ∧ w.thread l.id = l.th := by
    cases hb : rel && willWrite n g [(l, x)] { s with walks := k } with
    | false =>
      have e : releaseBefore f false [(l, x)] { s with walks := k } = { s with walks := k } := rfl
      exact ⟨_, rfl, by rw [e]; exact ⟨⟨rfl, fun _ h => h⟩, (hpl k).1, rfl, (hpl k).2⟩⟩
    | true =>
      have : rel = true := by cases rel <;> simp_all
      subst this
      exact ⟨_, rfl, hrel k⟩
  have hd : (dirOf w (lineOf x.pa)).st ≠ .b := by unfold dirOf; rw [cw.1]; exact cl.1
  have qw : QuietL1 w (s.coreOf l.th) := cw.2 _ (hc ▸ q)
  have hm : homeNat w x.pa n = homeNat s x.pa n := by unfold homeNat homeBytes; rw [cw.1]
  obtain ⟨a1, a2⟩ := rmwOne_home (t := l.id) (mode := x.mode) (hint := f.hint) (n := n) (g := g l) qw hd
  rw [hm] at a1 a2
  refine ⟨(rmwOne (s.coreOf l.th) l.id x.mode f.hint x.pa n (g l) w).2, ?_, ?_, ?_, ?_⟩
  · refine hk.trans ?_
    simp only [hsw k rfl, hw]
    refine congrArg (complete f wait done) ?_
    have hpo : poisoned w x.pa = false := by unfold poisoned; rw [cw.1]; exact np
    have hrep : (w.thread l.id).reply = none := by rw [th]; exact hr
    simp only [accesses, List.foldl_cons, List.foldl_nil, rmwLane, orOldValue, hrep, nr, hpo, Bool.false_eq_true, if_false, co, afterWait_none ww]
    rw [a1]; rfl
  · have base : Quietly s w := quietly_of_calm cw
    cases hg : g l (homeNat s x.pa n) with
    | none => rw [hg] at a2; exact ⟨rfl, (base.trans a2).thr, (base.trans a2).cur, (base.trans a2).waves, (base.trans a2).teams, (base.trans a2).grids, (base.trans a2).ctxs, (base.trans a2).quiet, (base.trans a2).dir⟩
    | some v =>
      rw [hg] at a2
      have b := a2.1
      exact ⟨rfl, fun j => (b.thr j).trans (base.thr j), b.cur.trans base.cur, b.waves.trans base.waves, b.teams.trans base.teams, b.grids.trans base.grids,
        b.ctxs.trans base.ctxs, fun d hd => b.quiet d (base.quiet d hd), fun d hd => b.dir d (base.dir d hd)⟩
  · cases hg : g l (homeNat s x.pa n) with
    | none => rw [hg] at a2; exact a2.mem.trans (quietly_of_calm cw).mem
    | some v => rw [hg] at a2; rw [a2.1.mem]; show Mem.put 0 w.mem x.pa _ = _; rw [(quietly_of_calm cw).mem]
  · intro v hv
    rw [hv] at a2
    exact a2.2

end Sys2Proof.Laws
end

