-- ==== Sys2Proof/Laws/Engine.lean ====
section
/-!
SUPPORT. Engine.lean: what a wave-once instruction on the engine group of a core does: its result in every executing thread,
the waits it ends, and nothing else.
-/
namespace Sys2Proof.Laws

open Machine

/-- The threads of a state but for waits that have ended, and its waves. -/
structure Stirred (s u : State) : Prop where
  waves : u.work.waves = s.work.waves
  cur : u.cur = s.cur
  thr : ∀ j, u.thread? j = s.thread? j ∨ u.thread? j = (s.thread? j).map Thread.unparkHere

theorem Stirred.rfl' (s : State) : Stirred s s := ⟨rfl, rfl, fun _ => .inl rfl⟩
theorem stirred_keeps {s u : State} (h : Stirred s u) (k : Nat) : KeepsThread s u k := by
  rcases h.thr k with a | a
  · exact keepsThread_of_eq a
  · unfold KeepsThread
    have x : (u.thread k) = ((s.thread? k).map Thread.unparkHere).getD {} := by
      simp only [State.thread, Tab.get]; simp only [State.thread?] at a; rw [a]; rfl
    have y : (s.thread k) = (s.thread? k).getD {} := by simp only [State.thread, Tab.get, State.thread?]
    rw [a, x, y]
    cases s.thread? k <;> exact ⟨rfl, rfl, rfl, rfl, rfl, rfl, rfl⟩
theorem stirred_modCore {s u : State} (h : Stirred s u) (c : Nat) (g : Core → Core) : Stirred s (u.modCore c g) :=
  ⟨h.waves, h.cur, h.thr⟩
theorem sameT_cur {s t : State} (h : SameButThreads s t) : t.cur = s.cur := by rw [h]
theorem sameT_waves {s t : State} (h : SameButThreads s t) : t.work.waves = s.work.waves := by rw [h]
theorem sameT_cores {s t : State} (h : SameButThreads s t) : t.cores = s.cores := by rw [h]
theorem unparkHere_twice (o : Option Thread) : (o.map Thread.unparkHere).map Thread.unparkHere = o.map Thread.unparkHere := by
  cases o <;> rfl
theorem thread?_modThreads_unpark (s : State) (ts : List Nat) (j : Nat) :
    (s.modThreads ts Thread.unparkHere).thread? j = s.thread? j ∨
      (s.modThreads ts Thread.unparkHere).thread? j = (s.thread? j).map Thread.unparkHere := by
  unfold State.modThreads
  induction ts generalizing s with
  | nil => exact .inl rfl
  | cons x r ih =>
    rw [List.foldl_cons]
    have h1 : (s.modThread x Thread.unparkHere).thread? j = s.thread? j ∨
        (s.modThread x Thread.unparkHere).thread? j = (s.thread? j).map Thread.unparkHere := by
      rw [thread?_modThread]
      split
      · rename_i e; subst e; exact .inr rfl
      · exact .inl rfl
    rcases ih (s.modThread x Thread.unparkHere) with h | h <;> rcases h1 with k | k <;> rw [h, k]
    · exact .inl rfl
    · exact .inr rfl
    · exact .inr rfl
    · exact .inr (unparkHere_twice _)
theorem stirred_wakeEngine {s u : State} (h : Stirred s u) (c : Nat) : Stirred s (wakeEngine c u) := by
  unfold wakeEngine
  generalize hts : (u.work.threads.filter _).map _ = ts
  have e := sameT_modThreads u ts Thread.unparkHere
  refine ⟨(sameT_waves e).trans h.waves, (sameT_cur e).trans h.cur, fun j => ?_⟩
  rcases thread?_modThreads_unpark u ts j with a | a <;> rcases h.thr j with b | b <;> rw [a, b]
  · exact .inl rfl
  · exact .inr rfl
  · exact .inr rfl
  · exact .inr (unparkHere_twice _)
theorem wakeEngine_cores (c : Nat) (u : State) : (wakeEngine c u).cores = u.cores := sameT_cores (sameT_modThreads _ _ _)
theorem wakeEngine_sameT (c : Nat) (u : State) : SameButThreads u (wakeEngine c u) := sameT_modThreads _ _ _
theorem active_ids (s : State) : (s.activeNow.map Lane.id) = ((s.present (s.wave s.curWave)).filter fun l => (s.wave s.curWave).exm.getLsbD l.lane).map Lane.id := rfl

/-- The active lanes of a wave none of whose active threads is parked do not see waits end. -/
theorem stirred_active {s u : State} (hi : Issuing s) (h : Stirred s u) : u.activeNow = s.activeNow := by
  have hw : u.wave u.curWave = s.wave s.curWave := by unfold State.wave State.curWave; rw [h.waves, h.cur]
  unfold State.activeNow
  rw [hw]
  have hall : ∀ l ∈ s.active (s.wave s.curWave), u.thread l.id = l.th := by
    intro l hl
    have e := hi.1.2 l hl
    have p := hi.2 l hl
    have : u.thread? l.id = some l.th := by
      rcases h.thr l.id with a | a
      · rw [a, e]
      · rw [a, e]
        show some { l.th with park := none, pages := [] } = some l.th
        rw [← p.1, ← p.2]
    exact thread_of_thread? this
  unfold State.active State.present at *
  generalize (s.wave s.curWave) = w at *
  have : ∀ (ls : List (Option Nat × Nat)),
      (∀ l ∈ (ls.filterMap fun e => e.1.map fun t => (⟨e.2, t, s.thread t⟩ : Lane)).filter fun l => w.exm.getLsbD l.lane, u.thread l.id = l.th) →
      ((ls.filterMap fun e => e.1.map fun t => (⟨e.2, t, u.thread t⟩ : Lane)).filter fun l => w.exm.getLsbD l.lane) =
      ((ls.filterMap fun e => e.1.map fun t => (⟨e.2, t, s.thread t⟩ : Lane)).filter fun l => w.exm.getLsbD l.lane) := by
    intro ls hh
    induction ls with
    | nil => rfl
    | cons e r ih =>
      obtain ⟨a, b⟩ := e
      cases a with
      | none => exact ih hh
      | some t =>
        simp only [List.filterMap_cons, Option.map_some, List.filter_cons] at hh ⊢
        split
        · rename_i hb
          rw [if_pos hb] at hh
          rw [ih fun l hl => hh l (List.mem_cons_of_mem _ hl)]
          have := hh _ (List.mem_cons_self ..)
          simp only at this
          rw [this]
        · rename_i hb
          rw [if_neg hb] at hh
          exact ih hh
  exact this _ hall
theorem stirred_execLanes {s u : State} (hi : Issuing s) (h : Stirred s u) (f : Fields) : u.execLanes f = s.execLanes f := by
  have := stirred_active hi h
  unfold State.activeNow at this
  unfold State.execLanes
  rw [this]
theorem stirred_advance {s u : State} (hi : Issuing s) (h : Stirred s u) (j : Nat) :
    (advance u).thread? j = if j ∈ s.activeNow.map Lane.id then (advance s).thread? j else u.thread? j := by
  have hw : u.wave u.curWave = s.wave s.curWave := by unfold State.wave State.curWave; rw [h.waves, h.cur]
  have ha := stirred_active hi h
  have hn : (s.activeNow.map Lane.id).Nodup := hi.1.1
  have e : advance u = u.modThreads (s.activeNow.map Lane.id) fun t => { t with pc := succPc (s.wave s.curWave).pc } := by
    rw [← ha, ← hw]; rfl
  have e' : advance s = s.modThreads (s.activeNow.map Lane.id) fun t => { t with pc := succPc (s.wave s.curWave).pc } := rfl
  rw [e, e', thread?_modThreads _ _ _ hn, thread?_modThreads _ _ _ hn]
  split
  · rename_i hj
    obtain ⟨l, hl, hl'⟩ := List.mem_map.1 hj
    subst hl'
    rcases h.thr l.id with a | a
    · rw [a]
    · rw [a, hi.1.2 l hl]
      have : l.th.unparkHere = l.th := by
        show { l.th with park := none, pages := [] } = l.th
        rw [← (hi.2 l hl).1, ← (hi.2 l hl).2]
      rw [Option.map_some, this]
  · rfl
/-- The result of a wave-once instruction after a change of the engine group: `t` the threads advanced and written. -/
theorem doneOn_stirred {s u t : State} {f : Fields} {o : LaneOut} (hi : Issuing s) (h : Stirred s u)
    (h1 : ∀ l ∈ s.execLanes f, t.thread? l.id = ((advance u).thread? l.id).map (writeOut f o))
    (h2 : ∀ j, j ∉ (s.execLanes f).map Lane.id → t.thread? j = (advance u).thread? j) : DoneOn f s t (fun _ => o) := by
  obtain ⟨_, a2, a3⟩ := advance_spec s hi.1
  have inA : ∀ l ∈ s.activeNow, l.id ∈ s.activeNow.map Lane.id := fun l hl => List.mem_map.2 ⟨l, hl, rfl⟩
  refine ⟨fun l hl => ?_, fun l hl hg => ?_, fun k hk => ?_⟩
  · rw [h1 l hl, stirred_advance hi h, if_pos (inA l (execLanes_sub hl)), a2 l (execLanes_sub hl)]; rfl
  · have : l.id ∉ (s.execLanes f).map Lane.id := by
      intro hm
      obtain ⟨l', hl', e⟩ := List.mem_map.1 hm
      have := lanes_inj hi.1 (execLanes_sub hl') hl e
      subst this
      rw [execLanes_guard hl'] at hg; cases hg
    rw [h2 _ this, stirred_advance hi h, if_pos (inA l hl), a2 l hl]
  · have : k ∉ (s.execLanes f).map Lane.id := by
      intro hm
      obtain ⟨l', hl', e⟩ := List.mem_map.1 hm
      exact hk (List.mem_map.2 ⟨l', execLanes_sub hl', e⟩)
    have e : t.thread? k = u.thread? k := by rw [h2 _ this, stirred_advance hi h, if_neg hk]
    rcases h.thr k with a | a
    · exact keepsThread_of_eq (e.trans a)
    · have e2 := e.trans a
      unfold KeepsThread
      have x : (t.thread k) = ((s.thread? k).map Thread.unparkHere).getD {} := by
        simp only [State.thread, Tab.get]; simp only [State.thread?] at e2; rw [e2]; rfl
      have y : (s.thread k) = (s.thread? k).getD {} := by simp only [State.thread, Tab.get, State.thread?]
      rw [e2, x, y]
      cases s.thread? k <;> exact ⟨rfl, rfl, rfl, rfl, rfl, rfl, rfl⟩
theorem doneOn_doneWith {s u : State} {f : Fields} {o : LaneOut} (hi : Issuing s) (h : Stirred s u) :
    DoneOn f s (doneWith f o u) (fun _ => o) := by
  have hst : Stirred s u := h
  have hex : (advance u).execLanes f = (advance u).execLanes f := rfl
  have hids : ((advance u).execLanes f).map Lane.id = (s.execLanes f).map Lane.id := by
    have hsame : SameButThreads u (advance u) := by unfold advance; exact sameT_modThreads _ _ _
    have hw : (advance u).wave (advance u).curWave = s.wave s.curWave := by
      unfold State.wave State.curWave; rw [sameT_waves hsame, sameT_cur hsame, h.waves, h.cur]
    unfold State.execLanes
    rw [hw]
    have ha : ∀ l ∈ s.active (s.wave s.curWave), guardOk f ((advance u).thread l.id) = guardOk f l.th := by
      intro l hl
      have : (advance u).thread? l.id = some (nextTh s l.th) := by
        rw [stirred_advance hi h, if_pos (show l.id ∈ s.activeNow.map Lane.id from List.mem_map.2 ⟨l, hl, rfl⟩)]
        exact (advance_spec s hi.1).2.1 l hl
      rw [thread_of_thread? this]; rfl
    unfold State.active State.present at *
    generalize (s.wave s.curWave) = w at *
    have : ∀ (ls : List (Option Nat × Nat)),
      (∀ l ∈ (ls.filterMap fun e => e.1.map fun t => (⟨e.2, t, s.thread t⟩ : Lane)).filter fun l => w.exm.getLsbD l.lane,
        guardOk f ((advance u).thread l.id) = guardOk f l.th) →
      (((ls.filterMap fun e => e.1.map fun t => (⟨e.2, t, (advance u).thread t⟩ : Lane)).filter fun l => w.exm.getLsbD l.lane).filter
        fun l => guardOk f l.th).map Lane.id =
      (((ls.filterMap fun e => e.1.map fun t => (⟨e.2, t, s.thread t⟩ : Lane)).filter fun l => w.exm.getLsbD l.lane).filter
        fun l => guardOk f l.th).map Lane.id := by
      intro ls hh
      induction ls with
      | nil => rfl
      | cons e r ih =>
        obtain ⟨a, b⟩ := e
        cases a with
        | none => exact ih hh
        | some t =>
          simp only [List.filterMap_cons, Option.map_some, List.filter_cons] at hh ⊢
          by_cases hb : w.exm.getLsbD b = true
          · rw [if_pos hb] at hh
            have g := hh _ (List.mem_cons_self ..)
            simp only at g
            have ih' := ih fun l hl => hh l (List.mem_cons_of_mem _ hl)
            rw [if_pos hb, if_pos hb]
            simp only [List.filter_cons, g]
            by_cases hg : guardOk f (s.thread t) = true
            · rw [if_pos hg, if_pos hg]; simp only [List.map_cons, ih']
            · rw [if_neg hg, if_neg hg]; exact ih'
          · rw [if_neg hb] at hh
            rw [if_neg hb, if_neg hb]
            exact ih hh
    exact this _ ha
  have hn : ((s.execLanes f).map Lane.id).Nodup := execLanes_nodup hi.1 f
  unfold doneWith putAll
  rw [hids]
  refine doneOn_stirred hi h (fun l hl => ?_) (fun j hj => ?_)
  · rw [thread?_modThreads _ _ _ hn, if_pos (List.mem_map.2 ⟨l, hl, rfl⟩)]
  · rw [thread?_modThreads _ _ _ hn, if_neg hj]
theorem doneOn_advance {s u : State} {f : Fields} (hi : Issuing s) (h : Stirred s u) : DoneOn f s (advance u) (fun _ => .none) :=
  doneOn_stirred hi h (fun l _ => by cases (advance u).thread? l.id <;> rfl) (fun _ _ => rfl)

/-! ## Nothing else -/

theorem oneCore_modCore {s u : State} {c : Nat} (h : OneCore s u c) (g : Core → Core) : OneCore s (u.modCore c g) c := by
  refine ⟨sameTC_trans h.1 (sameTC_modCore u c g), fun d hd => ?_⟩
  rw [← h.2 d hd]
  simp only [State.core, modCore_cores, tab_get_put, if_neg hd]
theorem oneCore_refl (s : State) (c : Nat) : OneCore s s c := ⟨sameTC_refl s, fun _ _ => rfl⟩
theorem oneCore_sameT {s u v : State} {c : Nat} (h : OneCore s u c) (k : SameButThreads u v) : OneCore s v c := by
  refine ⟨sameTC_trans h.1 (sameTC_of_sameT k), fun d hd => ?_⟩
  rw [← h.2 d hd]; unfold State.core; rw [sameT_cores k]
theorem sameT_doneWith (f : Fields) (o : LaneOut) (u : State) : SameButThreads u (doneWith f o u) := by
  unfold doneWith putAll advance
  exact sameT_trans (sameT_modThreads _ _ _) (sameT_modThreads _ _ _)
theorem sameT_advance (u : State) : SameButThreads u (advance u) := by unfold advance; exact sameT_modThreads _ _ _
theorem core_sameT {u v : State} (k : SameButThreads u v) (c : Nat) : v.core c = u.core c := by unfold State.core; rw [sameT_cores k]
theorem core_modCore (s : State) (c d : Nat) (g : Core → Core) : (s.modCore c g).core d = if d = c then g (s.core c) else s.core d := by
  simp only [State.core, modCore_cores, tab_get_put]
theorem core_wakeEngine (c d : Nat) (u : State) : (wakeEngine c u).core d = u.core d := core_sameT (wakeEngine_sameT c u) d

/-- What a change of the engine group and copy engine of a core leaves alone. -/
structure Engaged (s u : State) (c : Nat) : Prop where
  st : Stirred s u
  one : OneCore s u c
  rest : u.core c = { s.core c with group := u.group c, cpe := u.cpe c }
theorem Engaged.rfl' (s : State) (c : Nat) : Engaged s s c := ⟨.rfl' s, oneCore_refl s c, rfl⟩
theorem engaged_modGroup {s u : State} {c : Nat} (h : Engaged s u c) (g : Group → Group) : Engaged s (u.modGroup c g) c := by
  refine ⟨stirred_modCore h.st _ _, oneCore_modCore h.one _, ?_⟩
  have hr := h.rest
  unfold State.modGroup State.group State.cpe at *
  simp only [core_modCore, if_true]
  rw [hr]
theorem engaged_modCpe {s u : State} {c : Nat} (h : Engaged s u c) (g : Cpe → Cpe) : Engaged s (u.modCpe c g) c := by
  refine ⟨stirred_modCore h.st _ _, oneCore_modCore h.one _, ?_⟩
  have hr := h.rest
  unfold State.modCpe State.group State.cpe at *
  simp only [core_modCore, if_true]
  rw [hr]
theorem engaged_wake {s u : State} {c : Nat} (h : Engaged s u c) (d : Nat) : Engaged s (wakeEngine d u) c :=
  ⟨stirred_wakeEngine h.st d, oneCore_sameT h.one (wakeEngine_sameT d u), by
    have hr := h.rest
    unfold State.group State.cpe at *
    rw [core_wakeEngine]; exact hr⟩
theorem groupDone_doneWith {s u : State} {f : Fields} {l : Lane} {o : LaneOut} (hi : Issuing s) (h : Engaged s u (s.coreOf l.th)) :
    GroupDone f s (doneWith f o u) l o := by
  refine ⟨doneOn_doneWith hi h.st, oneCore_sameT h.one (sameT_doneWith _ _ _), ?_⟩
  have hr := h.rest
  unfold State.group State.cpe at *
  rw [core_sameT (sameT_doneWith f o u)]; exact hr
theorem groupDone_advance {s u : State} {f : Fields} {l : Lane} (hi : Issuing s) (h : Engaged s u (s.coreOf l.th)) :
    GroupDone f s (advance u) l .none := by
  refine ⟨doneOn_advance hi h.st, oneCore_sameT h.one (sameT_advance _), ?_⟩
  have hr := h.rest
  unfold State.group State.cpe at *
  rw [core_sameT (sameT_advance u)]; exact hr
theorem group_doneWith (f : Fields) (o : LaneOut) (u : State) (c : Nat) : (doneWith f o u).group c = u.group c := by
  unfold State.group; rw [core_sameT (sameT_doneWith f o u)]
theorem group_advance (u : State) (c : Nat) : (advance u).group c = u.group c := by
  unfold State.group; rw [core_sameT (sameT_advance u)]
theorem cpe_advance (u : State) (c : Nat) : (advance u).cpe c = u.cpe c := by unfold State.cpe; rw [core_sameT (sameT_advance u)]
theorem group_wake (d : Nat) (u : State) (c : Nat) : (wakeEngine d u).group c = u.group c := by unfold State.group; rw [core_wakeEngine]
theorem cpe_wake (d : Nat) (u : State) (c : Nat) : (wakeEngine d u).cpe c = u.cpe c := by unfold State.cpe; rw [core_wakeEngine]
theorem group_modGroup (u : State) (c : Nat) (g : Group → Group) : (u.modGroup c g).group c = g (u.group c) := by
  unfold State.modGroup State.group; rw [core_modCore, if_pos rfl]
theorem cpe_modGroup (u : State) (c : Nat) (g : Group → Group) : (u.modGroup c g).cpe c = u.cpe c := by
  unfold State.modGroup State.cpe; rw [core_modCore, if_pos rfl]
theorem cpe_modCpe (u : State) (c : Nat) (g : Cpe → Cpe) : (u.modCpe c g).cpe c = g (u.cpe c) := by
  unfold State.modCpe State.cpe; rw [core_modCore, if_pos rfl]
theorem group_modCpe (u : State) (c : Nat) (g : Cpe → Cpe) : (u.modCpe c g).group c = u.group c := by
  unfold State.modCpe State.group; rw [core_modCore, if_pos rfl]
/-! ## Engine programs -/

theorem engaged_modMxe {s u : State} {c : Nat} (h : Engaged s u c) (g : Mxe → Mxe) : Engaged s (u.modMxe c g) c := engaged_modGroup h _
theorem engaged_modLcp {s u : State} {c : Nat} (h : Engaged s u c) (g : Lcp → Lcp) : Engaged s (u.modLcp c g) c := engaged_modGroup h _
theorem engaged_pulse {s u : State} {c : Nat} (h : Engaged s u c) (k : Nat) : Engaged s (pulse c k u) c := engaged_wake (engaged_modGroup h _) c
theorem engaged_setProgPc {s u : State} {c : Nat} (h : Engaged s u c) (e : Engine) (pc : DWord) : Engaged s (setProgPc c e pc u) c := by
  unfold setProgPc
  cases e
  · exact engaged_modCpe h _
  · exact engaged_modMxe h _
  · exact engaged_modLcp h _
theorem engaged_cur {s u : State} {c : Nat} (h : Engaged s u c) : u.cur = s.cur := h.st.cur
theorem engaged_keeps {s u : State} {c : Nat} (h : Engaged s u c) (k : Nat) : KeepsThread s u k := stirred_keeps h.st k
theorem engaged_mem {s u : State} {c : Nat} (h : Engaged s u c) : u.mem = s.mem := by rw [h.one.1]
theorem mxe_modMxe (u : State) (c : Nat) (g : Mxe → Mxe) : (u.modMxe c g).mxe c = g (u.mxe c) := by
  unfold State.modMxe State.mxe; rw [group_modGroup]
theorem lcp_modMxe (u : State) (c : Nat) (g : Mxe → Mxe) : (u.modMxe c g).lcp c = u.lcp c := by
  unfold State.modMxe State.lcp; rw [group_modGroup]
theorem lcp_modLcp (u : State) (c : Nat) (g : Lcp → Lcp) : (u.modLcp c g).lcp c = g (u.lcp c) := by
  unfold State.modLcp State.lcp; rw [group_modGroup]
theorem mxe_modLcp (u : State) (c : Nat) (g : Lcp → Lcp) : (u.modLcp c g).mxe c = u.mxe c := by
  unfold State.modLcp State.mxe; rw [group_modGroup]
theorem mxe_wake (d : Nat) (u : State) (c : Nat) : (wakeEngine d u).mxe c = u.mxe c := by unfold State.mxe; rw [group_wake]
theorem lcp_wake (d : Nat) (u : State) (c : Nat) : (wakeEngine d u).lcp c = u.lcp c := by unfold State.lcp; rw [group_wake]
theorem mxe_modCpe (u : State) (c : Nat) (g : Cpe → Cpe) : (u.modCpe c g).mxe c = u.mxe c := by unfold State.mxe; rw [group_modCpe]
theorem lcp_modCpe (u : State) (c : Nat) (g : Cpe → Cpe) : (u.modCpe c g).lcp c = u.lcp c := by unfold State.lcp; rw [group_modCpe]
theorem cpe_modMxe (u : State) (c : Nat) (g : Mxe → Mxe) : (u.modMxe c g).cpe c = u.cpe c := cpe_modGroup u c _
theorem cpe_modLcp (u : State) (c : Nat) (g : Lcp → Lcp) : (u.modLcp c g).cpe c = u.cpe c := cpe_modGroup u c _
theorem mxe_pulse (u : State) (c k : Nat) : (pulse c k u).mxe c = u.mxe c := by
  unfold pulse; rw [mxe_wake]; unfold State.mxe; rw [group_modGroup]; rfl
theorem lcp_pulse (u : State) (c k : Nat) : (pulse c k u).lcp c = u.lcp c := by
  unfold pulse; rw [lcp_wake]; unfold State.lcp; rw [group_modGroup]; rfl
/-- The program of the current engine goes on at the successor. -/
theorem engineNext_at {s : State} {c : Nat} {e : Engine} {pc : DWord} (hc : s.cur = .engine c e) (hp : progPc s c e = some pc) :
    engineNext s = setProgPc c e (succPc pc) s := by
  unfold engineNext; rw [hc]; simp only [hp]
/-- A wave-once instruction on a group that its team owns runs its action. -/
theorem withGroup_ready {f : Fields} {s : State} {l : Lane} (h : GroupReady f s l) (act : Lane → Nat → State → Option State) :
    withGroup f act s = match act l (s.coreOf l.th) s with | some s2 => s2 | none => trapAll f { cause := 0x4A } s := by
  obtain ⟨_, _, hl, ho⟩ := h
  unfold withGroup waveOnce firstLane
  simp only [hl]
  unfold claim
  simp only [ho, beq_self_eq_true, if_true]
  all_goals rfl
/-- Executing threads that wait at their instruction. -/
theorem allWait_waitAll {f : Fields} {s : State} (hs : LanesSound s) (p : Park) : AllWait f s (waitAll f p s) p := by
  obtain ⟨a1, a2, a3⟩ := advance_spec s hs
  have hsame := sameT_advance s
  have hw : (advance s).wave (advance s).curWave = s.wave s.curWave := by
    unfold State.wave State.curWave; rw [sameT_waves hsame, sameT_cur hsame]
  have hn : ((s.execLanes f).map Lane.id).Nodup := execLanes_nodup hs f
  have same : SameButThreads s (waitAll f p s) := by
    unfold waitAll parkLanes
    exact sameT_trans hsame (sameT_foldl _ (fun _ _ => sameT_modThread _ _ _) _ _)
  unfold waitAll parkLanes at *
  simp only [hw] at *
  refine ⟨fun l hl => ?_, fun l hl hg => ?_, fun k hk => ?_, same⟩
  · rw [thread?_foldl_modThread Lane.id (fun _ t =>
      { t with pc := (s.wave s.curWave).pc, park := some p, word := (s.wave s.curWave).wordAt (s.wave s.curWave).pc, resume := some (s.wave s.curWave).pc }) _ _ hn l hl,
      a2 l (execLanes_sub hl)]
    exact ⟨_, rfl, rfl, rfl, rfl, rfl⟩
  · have : l.id ∉ (s.execLanes f).map Lane.id := by
      intro hm
      obtain ⟨l', hl', e⟩ := List.mem_map.1 hm
      have := lanes_inj hs (execLanes_sub hl') hl e
      subst this
      rw [execLanes_guard hl'] at hg; cases hg
    rw [thread?_foldl_of _ _ _ (fun u x hx => by rw [thread?_modThread, if_neg]; intro e; exact this (List.mem_map.2 ⟨x, hx, e.symm⟩)), a2 l hl]
  · have : k ∉ (s.execLanes f).map Lane.id := by
      intro hm
      obtain ⟨l', hl', e⟩ := List.mem_map.1 hm
      exact hk (List.mem_map.2 ⟨l', execLanes_sub hl', e⟩)
    rw [thread?_foldl_of _ _ _ (fun u x hx => by rw [thread?_modThread, if_neg]; intro e; exact this (List.mem_map.2 ⟨x, hx, e.symm⟩)), a3 k hk]
theorem curTeam_here {s : State} (h : s.inEngine = false) : s.hereTeam = s.curTeam := by
  unfold State.inEngine at h; unfold State.hereTeam; split <;> simp_all

end Sys2Proof.Laws
end

