-- ==== Sys2Proof/Laws/Pads.lean ====
section
/-!
SUPPORT. Pads.lean: what the scratchpad instructions do: the pages they use, what they read and what they write.
-/
namespace Sys2Proof.Laws

open Machine

/-! ## Resident pages -/

theorem pagesOnly_refl (s : State) : PagesOnly s s := ⟨rfl, fun _ => rfl⟩
theorem pagesOnly_trans {s t u : State} (a : PagesOnly s t) (b : PagesOnly t u) : PagesOnly s u := by
  refine ⟨?_, fun k => (b.2 k).trans (a.2 k)⟩
  rw [b.1]; rw [a.1]
theorem team?_modTeam (s : State) (k j : Nat) (g : Team → Team) :
    (s.modTeam k g).team? j = if j = k then (s.team? k).map g else s.team? j := by
  unfold State.modTeam
  split
  · rename_i x hx
    simp only [State.team?, State.setTeam, tab_find_put]
    simp only [State.team?] at hx
    split
    · rw [hx]; rfl
    · rfl
  · rename_i hx
    split
    · rename_i e; subst e; rw [hx]; rfl
    · rfl
theorem modTeam_eq (s : State) (k : Nat) (g : Team → Team) :
    s.modTeam k g = { s with work := { s.work with teams := (s.modTeam k g).work.teams } } := by
  unfold State.modTeam; split <;> rfl
theorem pagesOnly_modTeam (s : State) (k : Nat) (g : Team → Team) (h : ∀ x, (g x).bare = x.bare) : PagesOnly s (s.modTeam k g) := by
  refine ⟨modTeam_eq s k g, fun j => ?_⟩
  rw [team?_modTeam]
  split
  · rename_i e; subst e
    cases s.team? j with
    | none => rfl
    | some x => simp only [Option.map_some, h]
  · rfl
theorem pagesOnly_touch (l : Loc) (s : State) : PagesOnly s (touchLoc l s) := by
  cases l with
  | scr t o => exact pagesOnly_modTeam _ _ _ fun _ => rfl
  | glob m pa => exact pagesOnly_refl s
theorem pagesOnly_foldl {α : Type} (d : State → α → State) (h : ∀ s x, PagesOnly s (d s x)) (l : List α) (s : State) : PagesOnly s (l.foldl d s) := by
  induction l generalizing s with
  | nil => exact pagesOnly_refl s
  | cons x r ih => exact pagesOnly_trans (h s x) (ih _)
theorem bare_scratch {a b : Option Team} (h : a.map Team.bare = b.map Team.bare) : (a.getD {}).scratch = (b.getD {}).scratch := by
  cases a with
  | none => cases b with
    | none => rfl
    | some y => cases h
  | some x => cases b with
    | none => cases h
    | some y =>
      simp only [Option.map_some, Option.some.injEq] at h
      have h1 : x.bare = y.bare := h
      exact (congrArg Team.scratch h1 : x.bare.scratch = y.bare.scratch)
theorem scratchBytes_pages {s t : State} (h : PagesOnly s t) (team off n : Nat) : scratchBytes t team off n = scratchBytes s team off n := by
  unfold scratchBytes
  have := bare_scratch (h.2 team)
  simp only [State.team, Tab.get]
  simp only [State.team?] at this
  rw [this]
theorem bare_grid {a b : Option Team} (h : a.map Team.bare = b.map Team.bare) : (a.getD {}).grid = (b.getD {}).grid := by
  cases a with
  | none => cases b with
    | none => rfl
    | some y => cases h
  | some x => cases b with
    | none => cases h
    | some y =>
      simp only [Option.map_some, Option.some.injEq] at h
      exact (congrArg Team.grid h : x.bare.grid = y.bare.grid)
theorem scratchSize_pages {s t : State} (h : PagesOnly s t) (team : Nat) : scratchSize t team = scratchSize s team := by
  have e : (t.team team).grid = (s.team team).grid := bare_grid (h.2 team)
  unfold scratchSize
  rw [e, h.1]; rfl
theorem pagesOnly_threads {s t : State} (h : PagesOnly s t) : t.work.threads = s.work.threads ∧ t.work.waves = s.work.waves ∧ t.cur = s.cur ∧
    t.mem = s.mem ∧ t.cores = s.cores ∧ t.home = s.home ∧ t.work.grids = s.work.grids ∧ t.ctxs = s.ctxs := by
  rw [h.1]; exact ⟨rfl, rfl, rfl, rfl, rfl, rfl, rfl, rfl⟩
theorem pagesOnly_stirred {s t : State} (h : PagesOnly s t) : Stirred s t := by
  obtain ⟨a, b, c, _⟩ := pagesOnly_threads h
  exact ⟨b, c, fun j => .inl (by unfold State.thread?; rw [a])⟩
theorem pagesOnly_active {s u : State} (h : PagesOnly s u) (w : Wave) : u.active w = s.active w := by
  unfold State.active State.present State.thread; rw [(pagesOnly_threads h).1]
theorem pagesOnly_execLanes {s u : State} (h : PagesOnly s u) (f : Fields) : u.execLanes f = s.execLanes f := by
  obtain ⟨_, b, c, _⟩ := pagesOnly_threads h
  unfold State.execLanes
  have : u.wave u.curWave = s.wave s.curWave := by unfold State.wave State.curWave; rw [b, c]
  rw [this, pagesOnly_active h]
theorem pagesOnly_advance {s u : State} (h : PagesOnly s u) (j : Nat) : (advance u).thread? j = (advance s).thread? j := by
  obtain ⟨a, b, c, _⟩ := pagesOnly_threads h
  have hw : u.wave u.curWave = s.wave s.curWave := by unfold State.wave State.curWave; rw [b, c]
  unfold advance
  simp only
  rw [hw, pagesOnly_active h]
  have ht : ∀ j, u.thread? j = s.thread? j := by intro j; unfold State.thread?; rw [a]
  generalize (s.active (s.wave s.curWave)).map Lane.id = ids
  unfold State.modThreads
  have : ∀ (ids : List Nat) (x y : State), (∀ j, x.thread? j = y.thread? j) →
      (ids.foldl (fun s t => s.modThread t fun t => { t with pc := succPc (s.wave s.curWave).pc }) x).thread? j =
      (ids.foldl (fun s t => s.modThread t fun t => { t with pc := succPc (s.wave s.curWave).pc }) x).thread? j := fun _ _ _ _ => rfl
  generalize succPc (s.wave s.curWave).pc = pc
  clear this
  induction ids generalizing s u with
  | nil => exact ht j
  | cons i r ih =>
    simp only [List.foldl_cons]
    have key : ∀ (x y : State), (∀ j, x.thread? j = y.thread? j) → ∀ (l : List Nat) j,
        (l.foldl (fun s t => s.modThread t fun t => { t with pc := pc }) x).thread? j =
        (l.foldl (fun s t => s.modThread t fun t => { t with pc := pc }) y).thread? j := by
      intro x y hxy l
      induction l generalizing x y with
      | nil => exact hxy
      | cons k m ih2 =>
        intro j
        rw [List.foldl_cons, List.foldl_cons]
        refine ih2 _ _ (fun j => ?_) j
        rw [thread?_modThread, thread?_modThread, hxy, hxy]
    exact key _ _ (fun j => by rw [thread?_modThread, thread?_modThread, ht, ht]) r j

theorem team_pages {s u : State} (h : PagesOnly s u) (k : Nat) : (u.team k).bare = (s.team k).bare := by
  have e := h.2 k
  have a : u.team k = (u.team? k).getD {} := rfl
  have b : s.team k = (s.team? k).getD {} := rfl
  rw [a, b]
  cases hu : u.team? k with
  | none => cases hs : s.team? k with
    | none => rfl
    | some y => rw [hu, hs] at e; cases e
  | some x => cases hs : s.team? k with
    | none => rw [hu, hs] at e; cases e
    | some y =>
      rw [hu, hs] at e
      simp only [Option.map_some, Option.some.injEq] at e
      exact e
theorem coreOf_pages {s u : State} (h : PagesOnly s u) (t : Thread) : u.coreOf t = s.coreOf t := by
  unfold State.coreOf
  have e : (u.team t.team).core = (s.team t.team).core := (congrArg Team.core (team_pages h t.team) : (u.team t.team).bare.core = (s.team t.team).bare.core)
  rw [e]
theorem wave_pages {s u : State} (h : PagesOnly s u) : u.wave u.curWave = s.wave s.curWave := by
  obtain ⟨_, b, c, _⟩ := pagesOnly_threads h
  unfold State.wave State.curWave; rw [b, c]
theorem core_pages {s u : State} (h : PagesOnly s u) (c : Nat) : u.core c = s.core c := by
  unfold State.core; rw [(pagesOnly_threads h).2.2.2.2.1]
/-- A plain object is read where it stands. -/
theorem locRead_plain {s : State} {p : Loc} (h : PlainLoc s p) (n : Nat) : p.read n (touchLoc p s) = (locBytes s n p, touchLoc p s) := by
  cases p with
  | scr t o =>
    show (scratchBytes (touchLoc (.scr t o) s) t o n, _) = _
    rw [scratchBytes_pages (pagesOnly_touch _ _)]; rfl
  | glob m pa => exact farRead_quiet s pa n h.1 h.2

/-! ## Places -/

theorem mem_byHidx {l : Lane} {ls : List Lane} : l ∈ byHidx ls ↔ l ∈ ls := mem_sortBy _ _ _
theorem withPads_at {f : Fields} {window : Bool} {n : Nat} {w loads : Bool} {act : List (Lane × Loc) → State → State} {s : State}
    {pt po : Lane → Nat} (h : ∀ l ∈ s.execLanes f, PadAt f s window n l (pt l) (po l)) (hne : s.execLanes f ≠ []) :
    withPads f window n w loads act s =
      act ((byHidx (s.execLanes f)).map fun l => (l, .scr (pt l) (po l)))
        (((byHidx (s.execLanes f)).map fun l => (l, Loc.scr (pt l) (po l))).foldl (fun s e => touchLoc e.2 s) s) := by
  unfold withPads
  have hne' : (s.execLanes f).isEmpty = false := by
    cases h : s.execLanes f with
    | nil => exact absurd h hne
    | cons => rfl
  simp only [hne', Bool.false_eq_true, if_false]
  have hlw : (((byHidx (s.execLanes f)).map fun l => (l, Loc.scr (pt l) (po l))).findSome? fun e => locWait s w e.2) = none := by
    rw [List.findSome?_eq_none_iff]
    intro e he
    obtain ⟨l, hl, rfl⟩ := List.mem_map.1 he
    simp only [locWait, (h l (mem_byHidx.1 hl)).2.1, if_true]
  have hps : (if loads = true then ((byHidx (s.execLanes f)).map fun l => (l, Loc.scr (pt l) (po l))).find? (fun e => e.2.poisoned s) else none) = none := by
    split
    · rw [List.find?_eq_none]
      intro e he
      obtain ⟨l, hl, rfl⟩ := List.mem_map.1 he
      simp only [Loc.poisoned, (h l (mem_byHidx.1 hl)).2.2]
      exact Bool.false_ne_true
    · rfl
  cases window with
  | true =>
    have hc : ∀ l ∈ byHidx (s.execLanes f), winCheck f n s l = .ok (Loc.scr (pt l) (po l)) := by
      intro l hl
      have := (h l (mem_byHidx.1 hl)).1
      simp only [if_true] at this
      unfold winCheck
      rw [this]
    simp only [if_true, splitChecks_ok (byHidx (s.execLanes f)) (winCheck f n s) (fun l => Loc.scr (pt l) (po l)) (offEa f) hc,
      List.isEmpty_nil, Bool.not_true, Bool.false_eq_true, if_false, hlw, hps]
  | false =>
    have hc : ∀ l ∈ byHidx (s.execLanes f), scrCheck f n s l = .ok (Loc.scr (pt l) (po l)) := by
      intro l hl
      have := (h l (mem_byHidx.1 hl)).1
      simp only [Bool.false_eq_true, if_false] at this
      obtain ⟨a, b, c⟩ := this
      unfold scrCheck
      rw [a, b] at c
      simp only [c, a, b]
    simp only [Bool.false_eq_true, if_false]
    unfold withLocs
    simp only [splitChecks_ok (byHidx (s.execLanes f)) (scrCheck f n s) (fun l => Loc.scr (pt l) (po l)) (offEa f) hc,
      List.isEmpty_nil, Bool.not_true, Bool.false_eq_true, if_false, hlw, hps]

/-- Scratchpad bytes depend on the teams alone, but for their resident pages. -/
theorem scratchBytes_bare {s u : State} (h : ∀ k, (u.team? k).map Team.bare = (s.team? k).map Team.bare) (team off n : Nat) :
    scratchBytes u team off n = scratchBytes s team off n := by
  unfold scratchBytes
  have := bare_scratch (h team)
  simp only [State.team, Tab.get]
  simp only [State.team?] at this
  rw [this]
/-- Reads of scratchpads in turn, between which no team and no memory changes, read what stood there at first. -/
theorem foldl_scratch (d : Lane → List Byte → State → State) (hd : ∀ l bs u, (d l bs u).work.teams = u.work.teams ∧ (d l bs u).mem = u.mem)
    (pt po : Lane → Nat) (n : Nat) (s : State) (ls : List Lane) (u : State) (hu : ∀ k, (u.team? k).map Team.bare = (s.team? k).map Team.bare) :
    ls.foldl (fun u l => d l (scratchBytes u (pt l) (po l) n) u) u = ls.foldl (fun u l => d l (scratchBytes s (pt l) (po l) n) u) u ∧
      (∀ k, ((ls.foldl (fun u l => d l (scratchBytes s (pt l) (po l) n) u) u).team? k).map Team.bare = (s.team? k).map Team.bare) ∧
      (ls.foldl (fun u l => d l (scratchBytes s (pt l) (po l) n) u) u).mem = u.mem := by
  induction ls generalizing u with
  | nil => exact ⟨rfl, hu, rfl⟩
  | cons l r ih =>
    simp only [List.foldl_cons, scratchBytes_bare hu]
    obtain ⟨a, b, c⟩ := ih (d l (scratchBytes s (pt l) (po l) n) u) (fun k => by
      rw [← hu k]; unfold State.team?; rw [(hd l _ u).1])
    exact ⟨a, b, c.trans (hd l _ u).2⟩
theorem acquired_keeps (f : Fields) (on : Bool) (l : Lane) (o : LaneOut) (u : State) :
    (acquired f on 0 (putOut f l o u)).work.teams = u.work.teams ∧ (acquired f on 0 (putOut f l o u)).mem = u.mem := by
  have h := calm_acquired_object f on (putOut f l o u)
  generalize acquired f on 0 (putOut f l o u) = t at h
  refine ⟨?_, ?_⟩
  · rw [h.1]
    show (putOut f l o u).work.teams = _
    unfold putOut
    rw [sameT_modThread u l.id]
  · rw [h.1]
    exact putOut_mem _ _ _ _

/-- A load from scratchpad places. -/
theorem padLoad_done {f : Fields} {window : Bool} {s : State} {pt po : Lane → Nat} (hs : LanesSound s)
    (h : ∀ l ∈ s.execLanes f, PadAt f s window (szBytes f) l (pt l) (po l)) :
    let t := padLoad f window s
    DoneOn f s t (fun l => loadOf f (scratchBytes s (pt l) (po l) (szBytes f))) ∧ t.mem = s.mem ∧
      ∀ k, (t.team? k).map Team.bare = (s.team? k).map Team.bare := by
  intro t
  by_cases hne : s.execLanes f = []
  · have ht : t = advance s := by
      show padLoad f window s = _
      unfold padLoad withPads
      rw [hne]; rfl
    rw [ht]
    refine ⟨doneOn_of s (advance s) _ f _ hs (fun _ => rfl) (fun l hl => by rw [hne] at hl; cases hl) (fun _ _ => rfl), advance_mem s, fun k => ?_⟩
    unfold State.team?; rw [sameT_advance s]
  generalize hv : ((byHidx (s.execLanes f)).map fun l => (l, Loc.scr (pt l) (po l))).foldl (fun s e => touchLoc e.2 s) s = v
  have pv : PagesOnly s v := by rw [← hv]; exact pagesOnly_foldl _ (fun s x => pagesOnly_touch _ _) _ _
  have ht : t = (byHidx (s.execLanes f)).foldl (fun u l => acquired f (isAcq f) 0 (putOut f l (loadOf f (scratchBytes u (pt l) (po l) (szBytes f))) u)) (advance v) := by
    show padLoad f window s = _
    unfold padLoad
    rw [withPads_at h hne, hv, List.foldl_map]
    simp only [Loc.read]
  have hav : ∀ k, ((advance v).team? k).map Team.bare = (s.team? k).map Team.bare := by
    intro k
    rw [← pv.2 k]
    unfold State.team?; rw [sameT_advance v]
  obtain ⟨e1, e2, e3⟩ := foldl_scratch (fun l bs u => acquired f (isAcq f) 0 (putOut f l (loadOf f bs) u)) (fun l bs u => acquired_keeps f _ l _ u)
    pt po (szBytes f) s (byHidx (s.execLanes f)) (advance v) hav
  rw [e1] at ht
  rw [← ht] at e2 e3
  have hids : ((byHidx (s.execLanes f)).map Lane.id).Perm ((s.execLanes f).map Lane.id) := (byHidx_perm _).map _
  have hn : ((byHidx (s.execLanes f)).map Lane.id).Nodup := hids.nodup_iff.2 (execLanes_nodup hs f)
  obtain ⟨_, k1, k2⟩ := thread?_fold_done Lane.id (fun u l => acquired f (isAcq f) 0 (putOut f l (loadOf f (scratchBytes s (pt l) (po l) (szBytes f))) u))
    (fun l => writeOut f (loadOf f (scratchBytes s (pt l) (po l) (szBytes f)))) (fun _ => True)
    (fun e s _ => ⟨trivial, fun j => by rw [thread?_calm (calm_acquired_object f _ _), putOut_thread?]⟩) (byHidx (s.execLanes f)) hn (advance v) trivial
  rw [← ht] at k1 k2
  refine ⟨doneOn_of s (advance v) t f _ hs (fun j => pagesOnly_advance pv j) (fun l hl => k1 l (mem_byHidx.2 hl)) (fun j hj => k2 j fun h => hj (hids.mem_iff.1 h)), ?_, e2⟩
  rw [e3, advance_mem, (pagesOnly_threads pv).2.2.2.1]

/-- A store of one thread to a scratchpad place. -/
theorem padStore_done {f : Fields} {window : Bool} {s : State} {l : Lane} {team off : Nat} (hs : LanesSound s) (he : s.execLanes f = [l])
    (h : PadAt f s window (szBytes f) l team off) (hrel : isRel f = true → releaseWaits s l.id f.scope = false ∧ QuietL1 s s.hereCore) :
    let t := padStore f window s
    DoneOn f s t noResult ∧ t.mem = s.mem ∧ PadWritten s t team off (storeBytes l.th f.b (szBytes f)) := by
  intro t
  generalize hv : touchLoc (.scr team off) s = v
  have pv : PagesOnly s v := by rw [← hv]; exact pagesOnly_touch _ _
  have hb : byHidx (s.execLanes f) = [l] := by rw [he]; rfl
  have hgo : withPads f window (szBytes f) true false (fun ps s =>
      let s1 := if isRel f then releaseSide s.hereCore f.scope s else s
      ps.foldl (fun s e => e.2.write (storeBytes e.1.th f.b (szBytes f)) s) (advance s1)) s =
      scratchWrite team off (storeBytes l.th f.b (szBytes f)) (advance v) := by
    rw [withPads_at (pt := fun _ => team) (po := fun _ => off) (fun k hk => by rw [he] at hk; simp only [List.mem_singleton] at hk; subst hk; exact h) (by rw [he]; simp)]
    rw [hb]
    simp only [List.map_cons, List.map_nil, List.foldl_cons, List.foldl_nil, hv]
    have : (if isRel f = true then releaseSide v.hereCore f.scope v else v) = v := by
      split
      · rename_i hr
        have q := (hrel hr).2
        have hc : v.hereCore = s.hereCore := by
          obtain ⟨_, b, c, _⟩ := pagesOnly_threads pv
          unfold State.hereCore State.wave; rw [b, c]
        refine releaseSide_quiet _ _ _ ?_
        rw [hc]
        unfold QuietL1 State.core at *
        rw [(pagesOnly_threads pv).2.2.2.2.1]; exact q
      · rfl
    rw [this]
    rfl
  have ht : t = scratchWrite team off (storeBytes l.th f.b (szBytes f)) (advance v) := by
    show padStore f window s = _
    unfold padStore
    cases hr : isRel f with
    | false =>
      rw [hr] at hgo
      exact hgo
    | true =>
      rw [hr] at hgo
      have : ((s.execLanes f).any fun l => releaseWaits s l.id f.scope) = false := by
        rw [he]; simp [(hrel hr).1]
      simp only [if_true]
      unfold releaseFirst
      rw [if_neg (by rw [this]; exact Bool.false_ne_true)]
      exact hgo
  have hthr : ∀ j, t.thread? j = (advance v).thread? j := by
    intro j; rw [ht]; unfold scratchWrite State.thread?; rw [modTeam_eq]
  refine ⟨doneOn_of s (advance v) t f _ hs (fun j => pagesOnly_advance pv j) (fun k _ => ?_) (fun j _ => hthr j), ?_, fun k => ?_⟩
  · rw [hthr]; cases (advance v).thread? k.id <;> rfl
  · rw [ht]; unfold scratchWrite; rw [modTeam_eq]
    show (advance v).mem = _
    rw [advance_mem, (pagesOnly_threads pv).2.2.2.1]
  · rw [ht]
    unfold scratchWrite
    rw [team?_modTeam]
    have hadv : ∀ j, (advance v).team? j = v.team? j := by intro j; unfold State.team?; rw [sameT_advance v]
    rw [hadv, hadv]
    have pk := pv.2 k
    split
    · rename_i e
      subst e
      cases hvk : v.team? k with
      | none =>
        cases hsk : s.team? k with
        | none => rfl
        | some y => rw [hvk, hsk] at pk; cases pk
      | some x =>
        cases hsk : s.team? k with
        | none => rw [hvk, hsk] at pk; cases pk
        | some y =>
          rw [hvk, hsk] at pk
          simp only [Option.map_some, Option.some.injEq] at pk ⊢
          have e1 : x.scratch = y.scratch := (congrArg Team.scratch pk : x.bare.scratch = y.bare.scratch)
          show ({ x.bare with scratch := Mem.put 0 x.scratch off _ } : Team) = _
          rw [pk, e1]
    · exact pk

end Sys2Proof.Laws
end

