-- ==== Sys2Proof/Laws/Matrix.lean ====
section
/-!
SUPPORT. Matrix.lean: the entries of the accumulator store after the commands of the matrix engine.
-/
namespace Sys2Proof.Laws

open Machine

theorem accKey_inj {r c r' c' : Nat} (h : c < 512) (h' : c' < 512) : accKey r c = accKey r' c' ↔ r = r' ∧ c = c' := by
  unfold accKey; omega
theorem entry_setEntry (x : Mxe) (r c e r' c' : Nat) (h : c < 512) (h' : c' < 512) :
    (x.setEntry r c e).entry r' c' = if r' = r ∧ c' = c then e % 2 ^ 36 else x.entry r' c' := by
  unfold Mxe.entry Mxe.setEntry
  split
  · rename_i h0
    simp only [Tab.get, tab_find_del, accKey_inj h' h]
    split
    · simp only [Option.getD_none]; rw [h0]; rfl
    · rfl
  · simp only [tab_get_put, accKey_inj h' h]
    split
    · rw [BitVec.toNat_ofNat]
    · rfl
theorem entry_flag (x : Mxe) (o : AccOut) (r c : Nat) : (x.flag o).entry r c = x.entry r c := rfl
/-- Banks and their selection are those of another engine. -/
def SameBanks (x y : Mxe) : Prop := y.banks = x.banks ∧ y.sel = x.sel
theorem sameBanks_setEntry (x : Mxe) (r c e : Nat) : SameBanks x (x.setEntry r c e) := ⟨rfl, rfl⟩
theorem sameBanks_active {x y : Mxe} (h : SameBanks x y) (m : Nat) : y.active m = x.active m := by
  unfold Mxe.active Mxe.bankSel; rw [h.1, h.2]

/-- Entries after a fold whose steps each change their own entries, no two the same. -/
theorem fold_entry {α : Type} (P : Mxe → Prop) (d : Mxe → α → Mxe) (touch : α → Nat → Nat → Prop) (val : α → Nat → Nat → Nat → Nat)
    (l : List α) (hd : ∀ x, ∀ a ∈ l, P x → P (d x a) ∧ ∀ r c, c < 512 → (touch a r c → (d x a).entry r c = val a r c (x.entry r c)) ∧
      (¬ touch a r c → (d x a).entry r c = x.entry r c))
    (hp : l.Pairwise fun a b => ∀ r c, touch a r c → ¬ touch b r c) (x : Mxe) (hx : P x) :
    P (l.foldl d x) ∧ ∀ r c, c < 512 → (∀ a ∈ l, touch a r c → (l.foldl d x).entry r c = val a r c (x.entry r c)) ∧
      ((∀ a ∈ l, ¬ touch a r c) → (l.foldl d x).entry r c = x.entry r c) := by
  induction l generalizing x with
  | nil => exact ⟨hx, fun r c _ => ⟨(fun a ha => by cases ha), fun _ => rfl⟩⟩
  | cons b l ih =>
    obtain ⟨p1, p2⟩ := hd x b (List.mem_cons_self ..) hx
    obtain ⟨hb, hl⟩ := List.pairwise_cons.1 hp
    obtain ⟨i1, i2⟩ := ih (fun x a ha => hd x a (List.mem_cons_of_mem _ ha)) hl (d x b) p1
    rw [List.foldl_cons]
    refine ⟨i1, fun r c hc => ⟨fun a ha ht => ?_, fun hn => ?_⟩⟩
    · rcases List.mem_cons.1 ha with e | ha
      · subst e
        rw [(i2 r c hc).2 fun z hz h => hb z hz r c ht h]
        exact ((p2 r c hc).1 ht)
      · rw [(i2 r c hc).1 a ha ht]
        have : ¬ touch b r c := fun h => hb a ha r c h ht
        rw [(p2 r c hc).2 this]
    · rw [(i2 r c hc).2 fun z hz => hn z (List.mem_cons_of_mem _ hz)]
      exact (p2 r c hc).2 (hn b (List.mem_cons_self ..))

theorem pairwise_range_ne (n : Nat) : (List.range n).Pairwise fun a b => a ≠ b := List.nodup_range
theorem pairwise_blocks (m : Nat) : (blocksOf m).Pairwise fun a b => a ≠ b := by
  unfold blocksOf; exact List.Pairwise.sublist List.filter_sublist (pairwise_range_ne 8)
theorem mem_blocks {m k : Nat} : k ∈ blocksOf m ↔ k < 8 ∧ m.testBit k = true := by
  unfold blocksOf; rw [List.mem_filter, List.mem_range]

/-- One macro of one row. -/
theorem mma_macro (x y : Mxe) (sr fmt row0 k m : Nat) (fr : Frag) (b : Bank) (hy : SameBanks x y) (hm : m < 8) (hb : x.active m = some b) :
    let z := (List.range 64).foldl (fun (x : Mxe) n =>
        let col := (List.range 24).map fun k => b.sig.getD (64 * k + n) 0
        let o := accumulate sr fmt (fr.codes.getD k 0) (fr.rows.getD k []) (b.ecode.getD n 0) col (x.entry (row0 + k) (64 * m + n))
        (x.setEntry (row0 + k) (64 * m + n) o.e).flag o) y
    SameBanks x z ∧ ∀ r c, c < 512 → z.entry r c =
      if r = row0 + k ∧ c / 64 = m then mmaEntry sr fmt row0 fr x r c (y.entry r c) else y.entry r c := by
  intro z
  obtain ⟨p1, p2⟩ := fold_entry (SameBanks x) (fun (x : Mxe) (n : Nat) =>
        let col := (List.range 24).map fun k => b.sig.getD (64 * k + n) 0
        let o := accumulate sr fmt (fr.codes.getD k 0) (fr.rows.getD k []) (b.ecode.getD n 0) col (x.entry (row0 + k) (64 * m + n))
        (x.setEntry (row0 + k) (64 * m + n) o.e).flag o)
    (fun n r c => r = row0 + k ∧ c = 64 * m + n) (fun _ r c old => mmaEntry sr fmt row0 fr x r c old) (List.range 64)
    (by
      intro w n hn hw
      rw [List.mem_range] at hn
      refine ⟨⟨hw.1, hw.2⟩, fun r c hc => ⟨fun ⟨hr, hcn⟩ => ?_, fun hne => ?_⟩⟩
      · simp only [entry_flag]
        rw [entry_setEntry _ _ _ _ _ _ (by omega) hc, if_pos ⟨hr, hcn⟩]
        unfold mmaEntry
        have e1 : c / 64 = m := by omega
        have e2 : c % 64 = n := by omega
        have e3 : r - row0 = k := by omega
        rw [e1, e2, e3, hb, hr, hcn]
      · simp only [entry_flag]
        rw [entry_setEntry _ _ _ _ _ _ (by omega) hc, if_neg hne])
    (by
      refine List.Pairwise.imp ?_ (pairwise_range_ne 64)
      intro a b hab r c h1 h2
      omega)
    y hy
  refine ⟨p1, fun r c hc => ?_⟩
  split
  · rename_i h
    exact (p2 r c hc).1 (c % 64) (List.mem_range.2 (by omega)) ⟨h.1, by omega⟩
  · rename_i h
    exact (p2 r c hc).2 fun n hn hh => h ⟨hh.1, by rw [List.mem_range] at hn; omega⟩
/-- One row. -/
theorem mma_row (x y : Mxe) (sr fmt row0 cmask k : Nat) (fr : Frag) (hy : SameBanks x y) :
    let z := (blocksOf cmask).foldl (fun (x : Mxe) m =>
        match x.active m with
        | none => x
        | some b =>
          (List.range 64).foldl (fun x n =>
            let col := (List.range 24).map fun k => b.sig.getD (64 * k + n) 0
            let o := accumulate sr fmt (fr.codes.getD k 0) (fr.rows.getD k []) (b.ecode.getD n 0) col (x.entry (row0 + k) (64 * m + n))
            (x.setEntry (row0 + k) (64 * m + n) o.e).flag o) x) y
    SameBanks x z ∧ ∀ r c, c < 512 → z.entry r c =
      if r = row0 + k ∧ cmask.testBit (c / 64) = true then mmaEntry sr fmt row0 fr x r c (y.entry r c) else y.entry r c := by
  intro z
  obtain ⟨p1, p2⟩ := fold_entry (SameBanks x) (fun (x : Mxe) m =>
        match x.active m with
        | none => x
        | some b =>
          (List.range 64).foldl (fun x n =>
            let col := (List.range 24).map fun k => b.sig.getD (64 * k + n) 0
            let o := accumulate sr fmt (fr.codes.getD k 0) (fr.rows.getD k []) (b.ecode.getD n 0) col (x.entry (row0 + k) (64 * m + n))
            (x.setEntry (row0 + k) (64 * m + n) o.e).flag o) x)
    (fun m r c => r = row0 + k ∧ c / 64 = m) (fun _ r c old => mmaEntry sr fmt row0 fr x r c old) (blocksOf cmask)
    (by
      intro w m hm hw
      have hm8 := (mem_blocks.1 hm).1
      have ha := sameBanks_active hw m
      cases hb : x.active m with
      | none =>
        have e : (match w.active m with
          | none => w
          | some b =>
            (List.range 64).foldl (fun x n =>
              let col := (List.range 24).map fun k => b.sig.getD (64 * k + n) 0
              let o := accumulate sr fmt (fr.codes.getD k 0) (fr.rows.getD k []) (b.ecode.getD n 0) col (x.entry (row0 + k) (64 * m + n))
              (x.setEntry (row0 + k) (64 * m + n) o.e).flag o) w) = w := by rw [ha, hb]
        refine ⟨?_, fun r c hc => ⟨fun h => ?_, fun h => ?_⟩⟩
        · exact e.symm ▸ hw
        · have : mmaEntry sr fmt row0 fr x r c (w.entry r c) = w.entry r c := by unfold mmaEntry; rw [h.2, hb]
          rw [this]; exact congrArg (fun v : Mxe => v.entry r c) e
        · exact congrArg (fun v : Mxe => v.entry r c) e
      | some b =>
        have e : (match w.active m with
          | none => w
          | some b =>
            (List.range 64).foldl (fun x n =>
              let col := (List.range 24).map fun k => b.sig.getD (64 * k + n) 0
              let o := accumulate sr fmt (fr.codes.getD k 0) (fr.rows.getD k []) (b.ecode.getD n 0) col (x.entry (row0 + k) (64 * m + n))
              (x.setEntry (row0 + k) (64 * m + n) o.e).flag o) w) =
            (List.range 64).foldl (fun x n =>
              let col := (List.range 24).map fun k => b.sig.getD (64 * k + n) 0
              let o := accumulate sr fmt (fr.codes.getD k 0) (fr.rows.getD k []) (b.ecode.getD n 0) col (x.entry (row0 + k) (64 * m + n))
              (x.setEntry (row0 + k) (64 * m + n) o.e).flag o) w := by rw [ha, hb]
        obtain ⟨q1, q2⟩ := mma_macro x w sr fmt row0 k m fr b hw hm8 hb
        refine ⟨?_, fun r c hc => ⟨fun h => ?_, fun h => ?_⟩⟩
        · exact e.symm ▸ q1
        · exact (congrArg (fun v : Mxe => v.entry r c) e).trans ((q2 r c hc).trans (if_pos h))
        · exact (congrArg (fun v : Mxe => v.entry r c) e).trans ((q2 r c hc).trans (if_neg h)))
    (by
      refine List.Pairwise.imp ?_ (pairwise_blocks cmask)
      intro a b hab r c h1 h2
      omega)
    y hy
  refine ⟨p1, fun r c hc => ?_⟩
  split
  · rename_i h
    exact (p2 r c hc).1 (c / 64) (mem_blocks.2 ⟨by omega, h.2⟩) ⟨h.1, rfl⟩
  · rename_i h
    exact (p2 r c hc).2 fun m hm hh => h ⟨hh.1, by rw [hh.2]; exact (mem_blocks.1 hm).2⟩
/-- MMA accumulates into the entries of its valid rows and selected columns, and leaves every other entry. -/
theorem mma_entry (x : Mxe) (sr fmt row0 cmask : Nat) (fr : Frag) :
    SameBanks x (x.mma sr fmt row0 cmask fr) ∧ ∀ r c, c < 512 →
      (x.mma sr fmt row0 cmask fr).entry r c =
        if row0 ≤ r ∧ r < row0 + 8 ∧ fr.mask.getLsbD (r - row0) = true ∧ cmask.testBit (c / 64) = true
        then mmaEntry sr fmt row0 fr x r c (x.entry r c) else x.entry r c := by
  unfold Mxe.mma
  obtain ⟨p1, p2⟩ := fold_entry (SameBanks x) (fun (x : Mxe) r =>
    if !fr.mask.getLsbD r then x
    else
      (blocksOf cmask).foldl (fun x m =>
        match x.active m with
        | none => x
        | some b =>
          (List.range 64).foldl (fun x n =>
            let col := (List.range 24).map fun k => b.sig.getD (64 * k + n) 0
            let o := accumulate sr fmt (fr.codes.getD r 0) (fr.rows.getD r []) (b.ecode.getD n 0) col (x.entry (row0 + r) (64 * m + n))
            (x.setEntry (row0 + r) (64 * m + n) o.e).flag o) x) x)
    (fun k r c => fr.mask.getLsbD k = true ∧ r = row0 + k ∧ cmask.testBit (c / 64) = true)
    (fun _ r c old => mmaEntry sr fmt row0 fr x r c old) (List.range 8)
    (by
      intro w k hk hw
      cases hm : fr.mask.getLsbD k with
      | false =>
        simp only [Bool.not_false, if_true]
        exact ⟨hw, fun r c hc => ⟨(fun h => absurd h.1 (by decide)), fun _ => trivial⟩⟩
      | true =>
        simp only [Bool.not_true, Bool.false_eq_true, if_false]
        obtain ⟨q1, q2⟩ := mma_row x w sr fmt row0 cmask k fr hw
        exact ⟨q1, fun r c hc => ⟨fun h => (q2 r c hc).trans (if_pos h.2), fun h => (q2 r c hc).trans (if_neg fun hh => h ⟨trivial, hh⟩)⟩⟩)
    (by
      refine List.Pairwise.imp ?_ (pairwise_range_ne 8)
      intro a b hab r c h1 h2
      omega)
    x ⟨rfl, rfl⟩
  refine ⟨p1, fun r c hc => ?_⟩
  split
  · rename_i h
    exact (p2 r c hc).1 (r - row0) (List.mem_range.2 (by omega)) ⟨h.2.2.1, by omega, h.2.2.2⟩
  · rename_i h
    exact (p2 r c hc).2 fun k hk hh => h (by
      rw [List.mem_range] at hk
      have : r - row0 = k := by omega
      exact ⟨by omega, by omega, by rw [this]; exact hh.1, hh.2.2⟩)

/-! ## Regions -/

theorem mem_regionCells {n cmask r i m j : Nat} :
    (r, i, m, j) ∈ regionCells n cmask → r < n ∧ m < 8 ∧ cmask.testBit m = true ∧ j < 64 := by
  unfold regionCells
  intro h
  obtain ⟨r', hr, h⟩ := List.mem_flatMap.1 h
  obtain ⟨⟨m', i'⟩, hq, h⟩ := List.mem_flatMap.1 h
  obtain ⟨j', hj, h⟩ := List.mem_map.1 h
  simp only [Prod.mk.injEq] at h
  obtain ⟨rfl, rfl, rfl, rfl⟩ := h
  have := mem_blocks.1 (List.mem_of_getElem? (List.mem_zipIdx_iff_getElem?.1 hq))
  exact ⟨List.mem_range.1 hr, this.1, this.2, List.mem_range.1 hj⟩
theorem regionCells_mem {n cmask r m j : Nat} (hr : r < n) (hm : m < 8) (hb : cmask.testBit m = true) (hj : j < 64) :
    ∃ i, (r, i, m, j) ∈ regionCells n cmask := by
  obtain ⟨i, hi⟩ := List.getElem?_of_mem (mem_blocks.2 ⟨hm, hb⟩ : m ∈ blocksOf cmask)
  refine ⟨i, ?_⟩
  unfold regionCells
  refine List.mem_flatMap.2 ⟨r, List.mem_range.2 hr, List.mem_flatMap.2 ⟨(m, i), List.mem_zipIdx_iff_getElem?.2 hi, ?_⟩⟩
  exact List.mem_map.2 ⟨j, List.mem_range.2 hj, rfl⟩
/-- One value written to every entry of a list of cells. -/
theorem fold_const (l : List (Nat × Nat × Nat × Nat)) (row0 e : Nat) (hl : ∀ p ∈ l, p.2.2.1 < 8 ∧ p.2.2.2 < 64) (x : Mxe) (r c : Nat) (hc : c < 512) :
    (l.foldl (fun (x : Mxe) p => x.setEntry (row0 + p.1) (64 * p.2.2.1 + p.2.2.2) e) x).entry r c =
      if ∃ p ∈ l, r = row0 + p.1 ∧ c = 64 * p.2.2.1 + p.2.2.2 then e % 2 ^ 36 else x.entry r c := by
  induction l generalizing x with
  | nil => rw [if_neg]; · rfl
           · rintro ⟨p, hp, _⟩; cases hp
  | cons p l ih =>
    rw [List.foldl_cons, ih fun q hq => hl q (List.mem_cons_of_mem _ hq)]
    obtain ⟨h8, h64⟩ := hl p (List.mem_cons_self ..)
    rw [entry_setEntry _ _ _ _ _ _ (by omega) hc]
    by_cases h1 : ∃ q ∈ l, r = row0 + q.1 ∧ c = 64 * q.2.2.1 + q.2.2.2
    · rw [if_pos h1, if_pos]
      obtain ⟨q, hq, h⟩ := h1
      exact ⟨q, List.mem_cons_of_mem _ hq, h⟩
    · rw [if_neg h1]
      by_cases h2 : r = row0 + p.1 ∧ c = 64 * p.2.2.1 + p.2.2.2
      · rw [if_pos h2, if_pos ⟨p, List.mem_cons_self .., h2⟩]
      · rw [if_neg h2, if_neg]
        rintro ⟨q, hq, h⟩
        rcases List.mem_cons.1 hq with e | hq
        · subst e; exact h2 h
        · exact h1 ⟨q, hq, h⟩
/-- ACCZ writes one value to every entry of its region. -/
theorem accz_entry (x : Mxe) (row0 n cmask e r c : Nat) (hc : c < 512) :
    ((regionCells n cmask).foldl (fun (x : Mxe) p => x.setEntry (row0 + p.1) (64 * p.2.2.1 + p.2.2.2) e) x).entry r c =
      if row0 ≤ r ∧ r < row0 + n ∧ cmask.testBit (c / 64) = true then e % 2 ^ 36 else x.entry r c := by
  rw [fold_const _ _ _ (fun p hp => ⟨(mem_regionCells hp).2.1, (mem_regionCells hp).2.2.2⟩) x r c hc]
  by_cases h : row0 ≤ r ∧ r < row0 + n ∧ cmask.testBit (c / 64) = true
  · rw [if_pos h, if_pos]
    obtain ⟨i, hi⟩ := regionCells_mem (n := n) (cmask := cmask) (r := r - row0) (m := c / 64) (j := c % 64) (by omega) (by omega) h.2.2 (by omega)
    exact ⟨_, hi, by simp only; omega, by simp only; omega⟩
  · rw [if_neg h, if_neg]
    rintro ⟨⟨a, b, d, j⟩, hp, h1, h2⟩
    obtain ⟨x1, x2, x3, x4⟩ := mem_regionCells hp
    simp only at h1 h2
    have : c / 64 = d := by omega
    exact h ⟨by omega, by omega, by rw [this]; exact x3⟩
theorem fold_setEntry_rest (l : List (Nat × Nat × Nat × Nat)) (row0 e : Nat) (x : Mxe) :
    let y := l.foldl (fun (x : Mxe) p => x.setEntry (row0 + p.1) (64 * p.2.2.1 + p.2.2.2) e) x
    y = { x with acc := y.acc } := by
  intro y
  show l.foldl (fun (x : Mxe) p => x.setEntry (row0 + p.1) (64 * p.2.2.1 + p.2.2.2) e) x = { x with acc := (l.foldl (fun (x : Mxe) p => x.setEntry (row0 + p.1) (64 * p.2.2.1 + p.2.2.2) e) x).acc }
  clear y
  induction l generalizing x with
  | nil => rfl
  | cons p l ih => rw [List.foldl_cons]; exact ih _
/-- An accumulate leaves the queue. -/
theorem mma_rest (x : Mxe) (sr fmt row0 cmask : Nat) (fr : Frag) : (x.mma sr fmt row0 cmask fr).q = x.q := by
  have fold : ∀ {α : Type} (d : Mxe → α → Mxe) (h : ∀ x a, (d x a).q = x.q) (l : List α) (x : Mxe), (l.foldl d x).q = x.q := by
    intro α d h l
    induction l with
    | nil => intro x; rfl
    | cons a l ih => intro x; rw [List.foldl_cons, ih, h]
  have hq : ∀ (x : Mxe) (r c e : Nat) (o : AccOut), ((x.setEntry r c e).flag o).q = x.q := fun _ _ _ _ _ => rfl
  unfold Mxe.mma
  refine fold _ (fun x r => ?_) _ _
  split
  · rfl
  · refine fold _ (fun x m => ?_) _ _
    split
    · rfl
    · exact fold _ (fun x n => hq _ _ _ _ _) _ _
/-- The record that the matrix engine holds is given up. -/
theorem keepsThread_pages {s u t : State} (h : PagesOnly s u) {k : Nat} (a : KeepsThread u t k) : KeepsThread s t k := by
  have e : u.work.threads = s.work.threads := (pagesOnly_threads h).1
  have e1 : u.thread? k = s.thread? k := by unfold State.thread?; rw [e]
  have e2 : u.thread k = s.thread k := by unfold State.thread; rw [e]
  unfold KeepsThread at *
  rw [e1, e2] at a; exact a
/-- A running engine whose head command's pages are in their frames runs it, after noting that they are used. -/
theorem matrix_runs {s : State} {c : Nat} {m : MCmd} {q : List MCmd} (hf : s.guidon.frozen = false) (hh : (s.mxe c).halt = none)
    (hq : (s.mxe c).q = m :: q) (hm : mxMissing s c = []) : ∃ u, PagesOnly s u ∧ u.mxe c = s.mxe c ∧
      matrixCommandComplete c s = match (opField m.word).toNat with
      | 0xA0 => runMldb c m (unpackFields m.word) u
      | 0xA1 => runMma c m (unpackFields m.word) u
      | 0xA2 => runAccz c (unpackFields m.word) u
      | 0xA3 => runAccsc c (unpackFields m.word) u
      | 0xA4 => runAccld c m (unpackFields m.word) u
      | 0xA5 => runAccst c m (unpackFields m.word) u
      | 0xA6 => runMsel c (unpackFields m.word) u
      | _ => runMsig c m (unpackFields m.word) u := by
  have p : PagesOnly s (match (s.mxe c).q.head?.bind (cmdSpan s c), (s.core c).owner with
      | some (a, n), some t => touchPages t a n s
      | _, _ => s) := by
    split
    · exact pagesOnly_modTeam _ _ _ fun _ => rfl
    · exact pagesOnly_refl s
  refine ⟨_, p, ?_, ?_⟩
  · exact congrArg (fun x : Core => x.group.mxe) (core_pages p c)
  · unfold matrixCommandComplete
    simp only [hf, hh, hm, hq, List.isEmpty_nil, Option.isSome_none, Bool.not_true, Bool.or_self, Bool.false_eq_true, if_false] <;> rfl
theorem returnM_spec {s u : State} {c : Nat} (h : Engaged s u c) :
    Engaged s (returnM c u) c ∧ (returnM c u).mxe c = { u.mxe c with held := none } := by
  unfold returnM
  split
  · rename_i hh
    refine ⟨h, ?_⟩
    rw [← hh]
  · rename_i sig hh
    have b : Engaged s ((u.modMxe c fun x => { x with held := none }).modLcp c fun x => { x with outM := x.outM - 1 }) c :=
      engaged_modLcp (engaged_modMxe h _) _
    refine ⟨engaged_wake ?_ c, ?_⟩
    · split
      · exact engaged_pulse b 12
      · exact b
    · rw [mxe_wake]
      split <;> simp only [mxe_pulse, mxe_modLcp, mxe_modMxe]

end Sys2Proof.Laws
end

