-- ==== Sys2Proof/Laws/Copies.lean ====
section
/-!
SUPPORT. Copies.lean: acceptance, movement and completion of copies.
-/
namespace Sys2Proof.Laws

open Machine

/-- Waves, the current agent, threads and home memory are as they were. -/
def CopyKeeps (s v : State) : Prop :=
  v.work.waves = s.work.waves ∧ v.cur = s.cur ∧ (∀ j, v.thread? j = s.thread? j) ∧ v.mem = s.mem

theorem logs_keep (c x : Nat) (a : DWord) (gone : List Nat) (s : State) :
    let v := gone.foldl (fun s k => logCore 0x61 c x a (BitVec.ofNat 64 k) s) s
    v = { s with log := v.log, logged := v.logged } := by
  intro v
  have : ∀ (gone : List Nat) (s : State), gone.foldl (fun s k => logCore 0x61 c x a (BitVec.ofNat 64 k) s) s =
      { s with log := (gone.foldl (fun s k => logCore 0x61 c x a (BitVec.ofNat 64 k) s) s).log
               logged := (gone.foldl (fun s k => logCore 0x61 c x a (BitVec.ofNat 64 k) s) s).logged } := by
    intro gone
    induction gone with
    | nil => intro s; rfl
    | cons k r ih => intro s; rw [List.foldl_cons]; exact ih _
  exact this gone s
/-- The end of acceptance: the copy joins the queue. -/
theorem accept_end {c : Nat} {y : Copy} {s : State} (hb : BarOk s c y) : barFault s (copyWho s c y) y = none := by
  unfold barFault
  split
  · rename_i h
    simp only [Bool.and_eq_true, Bool.not_eq_true'] at h
    obtain ⟨b, h1, h2⟩ := hb h.1 h.2
    rw [h1]; simp [h2]
  · rfl
/-- A copy without a tensor record that passes its checks joins the queue. -/
theorem acceptCopy_ok {c : Nat} {x y : Copy} {mbz d : Nat} {s : State} (hy : y = { x with tens := 0 }) (h7 : ¬ x.form = 7)
    (hr : copyReason s y mbz (BitVec.ofNat 64 x.tens.toNat) = none) (hb : BarOk s c y) :
    ∃ R D v, acceptCopy c x mbz d s = (.ok (), v) ∧ CopyKeeps s v ∧
      (v.cpe c).q = (s.cpe c).q ++ [{ y with id := s.work.nextCopy, receivers := R, drops := D }] ∧ (x.form ≠ 6 → R = [] ∧ D = 0) ∧
      v.group c = s.group c := by
  subst hy
  have hw : copyWho s c { x with tens := 0 } = copyWho s c x := rfl
  have hbar := accept_end hb
  rw [hw] at hbar
  unfold acceptCopy
  simp only [hr, if_neg h7, hbar]
  generalize hg : (List.filterMap (fun (e : Nat × Option Nat) => if e.2.isNone = true then some e.1 else none) _) = gone
  have hl := logs_keep c x.ctx x.dst gone s
  simp only at hl
  refine ⟨((if x.form = 6 then mcastTeams s x.team (x.flags.extractLsb' 16 8).toNat else []).filterMap fun e => e.2.map fun t => (t, (s.team t).gen)),
    gone.foldl (fun (d : Byte) k => d ||| (1#8 <<< k)) 0, _, rfl, ⟨?_, ?_, ?_, ?_⟩, ?_, fun h6 => ?_, ?_⟩
  · show (gone.foldl _ s).work.waves = _; rw [hl]
  · show (gone.foldl _ s).cur = _; rw [hl]
  · intro j; show (gone.foldl _ s).thread? j = _; rw [hl]; rfl
  · show (gone.foldl _ s).mem = _; rw [hl]
  · rw [cpe_modCpe]
    show ((gone.foldl _ s).cpe c).q ++ _ = _
    rw [hl]; rfl
  · simp only [if_neg h6, List.filterMap_nil] at hg ⊢
    subst hg
    exact ⟨trivial, rfl⟩
  · rw [group_modCpe]
    show (gone.foldl _ s).group c = _
    rw [hl]; rfl
/-- A copy is refused with the lowest reason. -/
theorem acceptCopy_reject {c : Nat} {x : Copy} {mbz d k : Nat} {s : State} (h7 : ¬ x.form = 7)
    (hr : copyReason s { x with tens := 0 } mbz (BitVec.ofNat 64 x.tens.toNat) = some k) :
    acceptCopy c x mbz d s = (.error ⟨0x60, k, d⟩, s) := by
  unfold acceptCopy
  simp only [hr, ne_eq, h7, not_false_eq_true, decide_true, Bool.true_or, if_true]
/-- A copy with a tensor record that passes its checks joins the queue. -/
theorem acceptCopy_blk {c : Nat} {x y : Copy} {mbz d : Nat} {s : State} {a : Xlat} {bs : List Byte} (h7 : x.form = 7)
    (h1 : copyReason s { x with tens := 0 } mbz (BitVec.ofNat 64 x.tens.toNat) = none)
    (ha : checkGlobal s (copyWho s c x) { r := true } 64 (BitVec.ofNat 64 x.tens.toNat) = .ok a) (hl : isRemote a.pa = false)
    (hp : poisoned s a.pa = false) (hf : farRead a.pa 64 s = (bs, s)) (hy : y = { x with tens := BitVec.ofNat 512 (leNat bs) })
    (ht : tensOk y.tens = true) (hr : copyReason s y mbz (BitVec.ofNat 64 x.tens.toNat) = none) (hb : BarOk s c y) :
    ∃ v, acceptCopy c x mbz d s = (.ok (), v) ∧ CopyKeeps s v ∧
      (v.cpe c).q = (s.cpe c).q ++ [{ y with id := s.work.nextCopy, receivers := [], drops := 0 }] := by
  subst hy
  have hw : copyWho s c { x with tens := BitVec.ofNat 512 (leNat bs) } = copyWho s c x := rfl
  have hbar := accept_end hb
  rw [hw] at hbar
  have h6 : ¬ x.form = 6 := by omega
  unfold acceptCopy readTens
  simp only [h1, if_pos h7, ha, hl, hp, hf, Bool.false_eq_true, if_false]
  simp only at ht
  simp only [ht, if_true, hr, hbar, if_neg h6, List.filterMap_nil, List.foldl_nil]
  refine ⟨_, rfl, ⟨rfl, rfl, fun _ => rfl, rfl⟩, ?_⟩
  rw [cpe_modCpe]; rfl
/-- Whether a rendezvous is complete. -/
theorem joined_iff (s : State) (c team : Nat) (f : Fields) : joined s c team f = true ↔
    ((s.core c).owner ≠ some team ∨
        ((f.imm.getLsbD 0 = true → (s.lcp c).prog = none ∨ ((s.lcp c).closed = true ∧ (s.lcp c).loops = [] ∧ (s.lcp c).halt = none)) ∧
          (f.imm.getLsbD 1 = true → (s.cpe c).prog = none ∧ (s.cpe c).passes = [] ∧
            ∀ k ∈ s.cores, ∀ x ∈ k.2.cpe.q, ¬ (x.prog = true ∧ x.team = team)) ∧
          (f.imm.getLsbD 2 = true → (s.mxe c).prog = none ∧ (s.mxe c).q = []))) := by
  unfold joined
  by_cases ho : (s.core c).owner = some team
  · rw [if_neg (by simp [ho])]
    simp only [ho, ne_eq, not_true_eq_false, false_or, Bool.and_eq_true, Bool.or_eq_true, Bool.not_eq_true', Option.isNone_iff_eq_none,
      List.isEmpty_iff, List.any_eq_false, beq_iff_eq]
    cases f.imm.getLsbD 0 <;> cases f.imm.getLsbD 1 <;> cases f.imm.getLsbD 2 <;> simp [and_assoc]
  · rw [if_pos (by simpa using ho)]
    exact ⟨fun _ => .inl ho, fun _ => rfl⟩

/-! ## Sectors -/

theorem cpe_softError (s : State) (c x a : Nat) : (softError c x 0x50 a s).cpe c = s.cpe c := by
  have : (softError c x 0x50 a s).core c = (s.modCore c fun k => { k with serrCnt := satInc k.serrCnt 1 }).core c := rfl
  unfold State.cpe; rw [this, core_modCore, if_pos rfl]
theorem chunks_one (a : Nat) (h : a % 64 = 0) : chunks 64 3 a 64 = [(a, 64)] := by
  simp [chunks, h]
theorem mem_bytes_length (d : Byte) (m : Mem) : ∀ (n a : Nat), (Mem.bytes d m a n).length = n
  | 0, _ => rfl
  | n + 1, a => by show (Mem.bytes d m (a + 1) n).length + 1 = n + 1; rw [mem_bytes_length d m n]
theorem creditCopy_plain {c n : Nat} {x : Copy} {b : Bool} {u : State} (h : x.be = false) : creditCopy c x n b u = u := by
  unfold creditCopy; simp only [h, Bool.not_false, Bool.true_or, if_true]
/-- A sector of a scratchpad copy lands in its team's scratchpad. -/
theorem copySector_pads {s : State} {c : Nat} {x : Copy} {out : ReadOutcome} (h : SectorReady s c x) (ho : out ≠ .uncorrectable)
    (hid : ∀ y ∈ (s.cpe c).q, y.id = x.id → y = x) :
    let t := copySector c out s
    let r := x.done / max 1 (x.rowBytes / 64)
    let j := x.done % max 1 (x.rowBytes / 64)
    t.mem = s.mem ∧ (∀ k, t.thread? k = s.thread? k) ∧
      PadWritten s t x.team (x.dst.toNat + r * x.dstPitch + 64 * j) (scratchBytes s x.team (x.src.toNat + r * x.srcPitch + 64 * j) 64) ∧
      ∃ n, (t.cpe c).q = (s.cpe c).q.map fun y => if y.id == x.id then { x with done := x.done + 1, credited := n } else y := by
  intro t r j
  have hform := h.form
  have hb' : beginCopy c x s = (x, s) := by unfold beginCopy; rw [if_pos h.begun]
  have hd : sectorDiffers c s = none := by
    unfold sectorDiffers; rw [h.next]; simp only [Option.bind_some, hb', h.role]
  have hacc : x.isAcc = false := by unfold Copy.isAcc Copy.srcSp; rw [hform]; rfl
  have hss : x.srcSp = 1 := by unfold Copy.srcSp; rw [hform]; rfl
  have hds : x.dstSp = 1 := by unfold Copy.dstSp; rw [hform]; rfl
  have hu : x.unit x.dst.toNat x.done = ((x.src.toNat + r * x.srcPitch + 64 * j, 64), some, x.dst.toNat + r * x.dstPitch + 64 * j) := by
    unfold Copy.unit; simp only [hform, hacc, Bool.false_eq_true, if_false]; rfl
  have hal : (x.dst.toNat + r * x.dstPitch + 64 * j) % 64 = 0 := by have := h.aligned; rw [hu] at this; exact this
  have hbp : backPoisoned s x.team (x.src.toNat + r * x.srcPitch + 64 * j) = false := by have := h.sound; rw [hu] at this; exact this
  have hsp : ((x.padSpans s).any fun p => inTransit s p.1 p.2.1 p.2.2) = false := by
    rw [List.any_eq_false]; intro p hp; rw [h.stays p hp]; simp
  have hsn : x.snoops (copyWho s c x) s = none := by unfold Copy.snoops; rw [if_pos hds]
  generalize hsrc : x.src.toNat + r * x.srcPitch + 64 * j = src at hu hbp ⊢
  generalize hdst : x.dst.toNat + r * x.dstPitch + 64 * j = dst at hu hal ⊢
  -- the state after the read
  have hbs : ∀ v : State, (∀ k, (v.team? k).map Team.bare = (s.team? k).map Team.bare) → scratchBytes v x.team src 64 = scratchBytes s x.team src 64 :=
    fun v hv => scratchBytes_bare hv _ _ _
  obtain ⟨v, hv, hvp, hvq⟩ : ∃ v, (match out with | .corrected => softError c x.ctx 0x50 src (touchPages x.team src 64 s) | _ => touchPages x.team src 64 s) = v ∧
      ((∀ k, (v.team? k).map Team.bare = (s.team? k).map Team.bare) ∧ v.mem = s.mem ∧ (∀ k, v.thread? k = s.thread? k)) ∧ v.cpe c = s.cpe c := by
    have p := pagesOnly_modTeam s x.team (fun t => { t with pages := usePages s.clock src 64 false t.pages }) fun _ => rfl
    have p' : PagesOnly s (touchPages x.team src 64 s) := p
    have q : (touchPages x.team src 64 s).cpe c = s.cpe c := by unfold State.cpe; rw [core_pages p']
    have a := pagesOnly_threads p'
    cases out with
    | corrected => exact ⟨_, rfl, ⟨p'.2, a.2.2.2.1, fun k => by show Tab.find _ k = _; unfold State.thread?; rw [← a.1]; rfl⟩, (cpe_softError _ c x.ctx _).trans q⟩
    | uncorrectable => exact absurd rfl ho
    | clean => exact ⟨_, rfl, ⟨p'.2, a.2.2.2.1, fun k => by unfold State.thread?; rw [a.1]⟩, q⟩
  have hrole : mirrors v x.team = [x.team] := by
    unfold mirrors
    have e := hvp.1 x.team
    have hr := h.role
    have : (v.team x.team).role = (s.team x.team).role := by
      have a : v.team x.team = (v.team? x.team).getD {} := rfl
      have b : s.team x.team = (s.team? x.team).getD {} := rfl
      rw [a, b]
      cases hv1 : v.team? x.team with
      | none => cases hs1 : s.team? x.team with
        | none => rfl
        | some y => rw [hv1, hs1] at e; cases e
      | some z => cases hs1 : s.team? x.team with
        | none => rw [hv1, hs1] at e; cases e
        | some y =>
          rw [hv1, hs1] at e
          simp only [Option.map_some, Option.some.injEq] at e
          exact (congrArg Team.role e : z.bare.role = y.bare.role)
    rw [this, hr]
  have hls : ∀ bs : List Byte, bs.length = 64 → landSectors (copyWho s c x) x dst bs v = (64, none, scratchWrite x.team dst bs v) := by
    intro bs hl
    unfold landSectors
    rw [hl, show 64 / 64 + 2 = 3 from rfl, chunks_one dst hal]
    simp only [List.foldl_cons, List.foldl_nil, Nat.sub_self, List.drop_zero, endWrite, hds, if_true, Copy.pads, hform]
    rw [if_neg (by decide), hrole]
    simp only [List.foldl_cons, List.foldl_nil]
    rw [List.take_of_length_le (by omega)]
  have hlen : (scratchBytes s x.team src 64).length = 64 := by unfold scratchBytes; exact mem_bytes_length _ _ _ _
  have e : t = (let y := { x with done := x.done + 1, part := 0 }
      let s3 := setCopy c y (scratchWrite x.team dst (scratchBytes s x.team src 64) v)
      if y.done < y.units then creditLanded c y s3 else s3) := by
    show copySector c out s = _
    unfold copySector
    simp only [h.thawed, h.runs, Bool.or_self, Bool.false_eq_true, if_false, hd]
    unfold moveSector
    simp only [h.thawed, h.unhalted, Option.isSome_none, Bool.or_self, Bool.false_eq_true, if_false, h.next, hb', hsp, hsn, hacc, hu, hss, endRead,
      if_true, hbp, if_neg ho, h.whole, Nat.add_zero, List.drop_zero, hls _ hlen]
    rw [← hv] at hls ⊢
    cases out with
    | uncorrectable => exact absurd rfl ho
    | clean => simp only [hls _ hlen, hds]; rfl
    | corrected => simp only [hls _ hlen, hds]; rfl
  -- threads, memory and pads of it
  have hT : ∀ y z w, (setCopy c y (scratchWrite z dst w v)).mem = s.mem ∧ (∀ k, (setCopy c y (scratchWrite z dst w v)).thread? k = s.thread? k) := by
    intro y z w
    refine ⟨?_, fun k => ?_⟩
    · show (scratchWrite _ _ _ v).mem = _; unfold scratchWrite; rw [modTeam_eq]; exact hvp.2.1
    · show (scratchWrite _ _ _ v).thread? k = _; unfold scratchWrite; rw [modTeam_eq]; exact hvp.2.2 k
  have hP : ∀ y w k, ((setCopy c y (scratchWrite x.team dst w v)).team? k).map Team.bare =
      if k = x.team then (s.team? k).map fun t => { t.bare with scratch := Mem.put 0 t.scratch dst w } else (s.team? k).map Team.bare := by
    intro y w k
    have h3 : ∀ u k, (setCopy c y u).team? k = u.team? k := fun _ _ => rfl
    rw [h3]; unfold scratchWrite
    rw [team?_modTeam]
    have e := hvp.1 k
    split
    · rename_i hk
      cases hv1 : v.team? k with
      | none => cases hs1 : s.team? k with
        | none => simp only [Option.map_none, ← hk, hv1]
        | some y => rw [hv1, hs1] at e; cases e
      | some z => cases hs1 : s.team? k with
        | none => rw [hv1, hs1] at e; cases e
        | some y =>
          rw [hv1, hs1] at e
          simp only [Option.map_some, Option.some.injEq] at e
          rw [← hk, hv1]
          have e1 : z.scratch = y.scratch := (congrArg Team.scratch e : z.bare.scratch = y.bare.scratch)
          have e2 : ({ z.bare with scratch := Mem.put 0 z.scratch dst w } : Team) = { y.bare with scratch := Mem.put 0 y.scratch dst w } := by
            rw [e, e1]
          exact congrArg some e2
    · exact e
  have hQ : ∀ y w, ((setCopy c y (scratchWrite x.team dst w v)).cpe c).q = (s.cpe c).q.map fun z => if z.id == y.id then y else z := by
    intro y w
    unfold setCopy; rw [cpe_modCpe]
    have : (scratchWrite x.team dst w v).cpe c = v.cpe c := by unfold scratchWrite; rw [modTeam_eq]; rfl
    rw [this, hvq]
  have hpart : ({ x with done := x.done + 1, part := 0 } : Copy) = { x with done := x.done + 1 } := by
    have := h.whole; cases x; simp only at this; subst this; rfl
  simp only [hpart] at e
  by_cases hlt : ({ x with done := x.done + 1 } : Copy).done < ({ x with done := x.done + 1 } : Copy).units
  · rw [if_pos hlt] at e
    unfold creditLanded at e
    simp only at e
    generalize hn : landed (setCopy c { x with done := x.done + 1 } (scratchWrite x.team dst (scratchBytes s x.team src 64) v)) { x with done := x.done + 1 } = n at e
    by_cases hle : n ≤ x.credited
    · rw [if_pos hle] at e
      rw [e]
      exact ⟨(hT _ _ _).1, (hT _ _ _).2, hP _ _, x.credited, hQ _ _⟩
    · rw [if_neg hle, creditCopy_plain (by exact h.plain)] at e
      rw [e]
      have hT' := hT { x with done := x.done + 1 } x.team (scratchBytes s x.team src 64)
      refine ⟨hT'.1, hT'.2, hP { x with done := x.done + 1 } _, n, ?_⟩
      have h2 : ∀ y u, ((setCopy c y u).cpe c).q = (u.cpe c).q.map fun z => if z.id == y.id then y else z := by
        intro y u; unfold setCopy; rw [cpe_modCpe]
      rw [h2, hQ, List.map_map]
      refine List.map_congr_left fun z _ => ?_
      simp only [Function.comp_apply]
      by_cases hz : z.id = x.id
      · simp only [hz, beq_self_eq_true, if_true]
      · simp only [beq_eq_false_iff_ne.mpr hz, Bool.false_eq_true, if_false]
  · rw [if_neg hlt] at e
    rw [e]
    exact ⟨(hT _ _ _).1, (hT _ _ _).2, hP _ _, x.credited, hQ _ _⟩

/-- Passes that have ended are all that `finishPasses` acts on. -/
theorem finishPasses_idle {team : Nat} {s : State} (h : (s.teamCpe team).passes = []) : finishPasses team s = s := by
  unfold finishPasses
  simp only [h, List.filter_nil, List.isEmpty_nil, if_true, List.foldl_nil]
/-- A team's passes are those of its engine group. -/
theorem teamCpe_engaged {s u : State} {c : Nat} (h : Engaged s u c) (hp : (u.cpe c).passes = (s.cpe c).passes) (k : Nat) :
    (u.teamCpe k).passes = (s.teamCpe k).passes := by
  have ht : u.team k = s.team k := by unfold State.team; rw [h.one.1]
  have hc : ∀ d, (u.core d).owner = (s.core d).owner ∧ (u.cpe d).passes = (s.cpe d).passes := by
    intro d
    by_cases hd : d = c
    · subst hd; exact ⟨by rw [h.rest], hp⟩
    · unfold State.cpe; rw [h.one.2 d hd]; exact ⟨rfl, rfl⟩
  unfold State.teamCpe
  rw [ht]
  split
  · rfl
  · cases (s.team k).core with
    | none => rfl
    | some d => simp only [(hc d).1]; split <;> first | exact (hc d).2 | rfl
/-- A completed copy without a credit, a ring, a pulse, a record or a fault leaves the queue. -/
theorem copyComplete_plain {s : State} {c k : Nat} {x : Copy} (hf : s.guidon.frozen = false) (hx : (s.cpe c).q.find? (fun x => x.id == k) = some x)
    (hov : x.isOver s = true) (hfa : x.fatal = none) (hbe : x.be = false) (hrs : x.ringSlot = none) (hcle : x.cle = false) (hrcd : x.rcd = 0)
    (hps : (s.teamCpe x.team).passes = []) :
    Engaged s (copyComplete c k s) c ∧ (copyComplete c k s).cpe c = { s.cpe c with q := (s.cpe c).q.filter fun y => y.id != k } := by
  have hid : x.id = k := by simpa using List.find?_some hx
  have e : copyComplete c k s = finishPasses x.team (wakeEngine c ((creditLanded c x s).modCpe c fun q => { q with q := q.q.filter fun y => y.id != k })) := by
    unfold copyComplete
    simp only [hx, hf, hov, Bool.not_true, Bool.or_false, Bool.false_eq_true, if_false, hfa, Option.isSome_none, Bool.false_and, hrs, hcle, hrcd, if_true]
  obtain ⟨n, hn⟩ : ∃ n, creditLanded c x s = s ∨ creditLanded c x s = setCopy c { x with credited := n } s := by
    unfold creditLanded
    by_cases hle : landed s x ≤ x.credited
    · exact ⟨0, .inl (by simp only [if_pos hle])⟩
    · exact ⟨landed s x, .inr (by simp only [if_neg hle]; rw [creditCopy_plain hbe])⟩
  have hg : ((creditLanded c x s).cpe c) = s.cpe c ∨ (creditLanded c x s).cpe c = { s.cpe c with q := (s.cpe c).q.map fun y => if y.id == x.id then { x with credited := n } else y } := by
    obtain h | h := hn
    · exact .inl (by rw [h])
    · right; rw [h]; unfold setCopy; rw [cpe_modCpe]
  have en : Engaged s (creditLanded c x s) c := by
    obtain h | h := hn
    · rw [h]; exact Engaged.rfl' s c
    · rw [h]; exact engaged_modCpe (Engaged.rfl' s c) _
  have hw : (wakeEngine c ((creditLanded c x s).modCpe c fun q => { q with q := q.q.filter fun y => y.id != k })).cpe c = { s.cpe c with q := (s.cpe c).q.filter fun y => y.id != k } := by
    rw [cpe_wake, cpe_modCpe]
    obtain h | h := hg
    · rw [h]
    · rw [h]
      have : ((s.cpe c).q.map fun y => if y.id == x.id then { x with credited := n } else y).filter (fun y => y.id != k) = (s.cpe c).q.filter fun y => y.id != k := by
        generalize (s.cpe c).q = l
        induction l with
        | nil => rfl
        | cons y r ih =>
          rw [List.map_cons, List.filter_cons, List.filter_cons, ih]
          by_cases hy : y.id = k
          · have e1 : (y.id == x.id) = true := by simp [hy, hid]
            simp only [e1, if_true]
            simp [hid, hy]
          · have e1 : (y.id == x.id) = false := by simp [hy, hid]
            simp only [e1, Bool.false_eq_true, if_false]
      simp only [this]
  have ew := engaged_wake (engaged_modCpe en fun q => { q with q := q.q.filter fun y => y.id != k }) c
  rw [e, finishPasses_idle (by rw [teamCpe_engaged ew (by rw [hw])]; exact hps)]
  exact ⟨ew, hw⟩

end Sys2Proof.Laws
end

