-- ==== Sys2Proof/Laws/PerInstr.lean ====
section
/-!
SUPPORT. PerInstr.lean: for each instruction, that the decoder's selection by OP and form selectors names it, and that its
selectors are then well formed.
-/
namespace Sys2Proof.Laws

/-- OP and the fields select exactly this instruction; an event has neither. -/
def Select.Statement (i : Instr) : Prop :=
  match opOf i, fieldsOf i with
  | some op, some f => formOk i = true → selectOp op.toNat f = .ok i
  | none, none => True
  | _, _ => False

namespace Select

set_option Elab.async false

theorem op_00 (f : Fields) : selectOp 0x00 f = (if f.fn == 0 then .ok (.iadd f) else if f.fn == 1 then .ok (.isub f) else if f.fn == 2 then .ok (.iaddc f) else if f.fn == 3 then .ok (.isubb f) else .error 1) := rfl
theorem op_01 (f : Fields) : selectOp 0x01 f = (if f.fn == 0 then .ok (.imul f) else if f.fn == 1 then .ok (.imulh f) else if f.fn == 2 then .ok (.imad f) else if f.fn == 3 then .ok (.idot4 f) else .error 1) := rfl
theorem op_02 (f : Fields) : selectOp 0x02 f = (if f.fn == 0 then .ok (.imin f) else if f.fn == 1 then .ok (.imax f) else if f.fn == 2 then .ok (.iabs f) else if f.fn == 3 then .ok (.ineg f) else .error 1) := rfl
theorem op_03 (f : Fields) : selectOp 0x03 f = (if f.fn == 0 then .ok (.andB f) else if f.fn == 1 then .ok (.orB f) else if f.fn == 2 then .ok (.xorB f) else if f.fn == 3 then .ok (.andnB f) else if f.fn == 4 then .ok (.notB f) else .error 1) := rfl
theorem op_04 (f : Fields) : selectOp 0x04 f = (if f.fn == 0 then .ok (.shl f) else if f.fn == 1 then .ok (.shr f) else if f.fn == 2 then .ok (.sar f) else if f.fn == 3 then .ok (.rotl f) else if f.fn == 4 then .ok (.funsh f) else .error 1) := rfl
theorem op_05 (f : Fields) : selectOp 0x05 f = (if f.fn == 0 then .ok (.bfx f) else if f.fn == 1 then .ok (.bfi f) else if f.fn == 2 then .ok (.popc f) else if f.fn == 3 then .ok (.clz f) else if f.fn == 4 then .ok (.ctz f) else if f.fn == 5 then .ok (.brev f) else if f.fn == 6 then .ok (.permb f) else .error 1) := rfl
theorem op_06 (f : Fields) : selectOp 0x06 f = (if f.fn == 0 then .ok (.sel f) else .error 1) := rfl
theorem op_07 (f : Fields) : selectOp 0x07 f = (if decide (f.fn.toNat ≤ 5) then .ok (.isetp f) else .error 1) := rfl
theorem op_08 (f : Fields) : selectOp 0x08 f = (.ok (.plop f)) := rfl
theorem op_09 (f : Fields) : selectOp 0x09 f = (if f.fn == 0 then .ok (.mov f) else if f.fn == 1 then .ok (.movi f) else .error 1) := rfl
theorem op_20 (f : Fields) : selectOp 0x20 f = (if decide (f.fn.toNat ≤ 2) then .ok (.fadd f) else .error 1) := rfl
theorem op_21 (f : Fields) : selectOp 0x21 f = (if decide (f.fn.toNat ≤ 2) then .ok (.fsub f) else .error 1) := rfl
theorem op_22 (f : Fields) : selectOp 0x22 f = (if decide (f.fn.toNat ≤ 2) then .ok (.fmul f) else .error 1) := rfl
theorem op_23 (f : Fields) : selectOp 0x23 f = (if decide (f.fn.toNat ≤ 2) then .ok (.ffma f) else .error 1) := rfl
theorem op_24 (f : Fields) : selectOp 0x24 f = (if decide (f.fn.toNat ≤ 2) then .ok (.fmin f) else .error 1) := rfl
theorem op_25 (f : Fields) : selectOp 0x25 f = (if decide (f.fn.toNat ≤ 2) then .ok (.fmax f) else .error 1) := rfl
theorem op_26 (f : Fields) : selectOp 0x26 f = (if decide ((f.fn.extractLsb' 0 4).toNat ≤ 2 ∧ (f.fn.extractLsb' 4 4).toNat ≤ 13) then .ok (.fsetp f) else .error 1) := rfl
theorem op_27 (f : Fields) : selectOp 0x27 f = (if decide (f.fn.toNat ≤ 2) then .ok (.fclass f) else .error 1) := rfl
theorem op_28 (f : Fields) : selectOp 0x28 f = (if decide (f.fn.toNat ≤ 2) then .ok (.frint f) else .error 1) := rfl
theorem op_29 (f : Fields) : selectOp 0x29 f = (if decide (f.fn.toNat ≤ 2) then .ok (.fscale f) else .error 1) := rfl
theorem op_2a (f : Fields) : selectOp 0x2a f = (if decide (f.fn.toNat ≤ 1) then .ok (.hadd2 f) else .error 1) := rfl
theorem op_2b (f : Fields) : selectOp 0x2b f = (if decide (f.fn.toNat ≤ 1) then .ok (.hfma2 f) else .error 1) := rfl
theorem op_2c (f : Fields) : selectOp 0x2c f = (if decide ((f.fn.extractLsb' 0 4).toNat ≤ 13 ∧ (f.fn.extractLsb' 4 4).toNat ≤ 13) then .ok (.cvt f) else .error 1) := rfl
theorem op_2d (f : Fields) : selectOp 0x2d f = (if decide (f.fn.toNat ≤ 7) then .ok (.sfn f) else .error 1) := rfl
theorem op_40 (f : Fields) : selectOp 0x40 f = (if decide (f.fn.toNat ≤ 3) then .ok (.shfl f) else .error 1) := rfl
theorem op_41 (f : Fields) : selectOp 0x41 f = (if decide (f.fn.toNat ≤ 3) then .ok (.vote f) else .error 1) := rfl
theorem op_42 (f : Fields) : selectOp 0x42 f = (if decide (f.fn.toNat ≤ 10) then .ok (.redw f) else .error 1) := rfl
theorem op_43 (f : Fields) : selectOp 0x43 f = (if decide (f.fn.toNat ≤ 10) then .ok (.prfx f) else .error 1) := rfl
theorem op_44 (f : Fields) : selectOp 0x44 f = (if decide (f.fn.toNat ≤ 1) then .ok (.matchL f) else .error 1) := rfl
theorem op_45 (f : Fields) : selectOp 0x45 f = (if f.fn == 0 then .ok (.hlane f) else .error 1) := rfl
theorem op_46 (f : Fields) : selectOp 0x46 f = (if f.fn == 0 then .ok (.exmrd f) else if f.fn == 1 then .ok (.exmwr f) else if f.fn == 2 then .ok (.exmand f) else if f.fn == 3 then .ok (.exmor f) else .error 1) := rfl
theorem op_47 (f : Fields) : selectOp 0x47 f = (if f.fn == 0 then .ok (.tidx f) else .error 1) := rfl
theorem op_48 (f : Fields) : selectOp 0x48 f = (if f.fn == 0 then .ok (.shpset f) else .error 1) := rfl
theorem op_49 (f : Fields) : selectOp 0x49 f = (if f.fn == 0 then .ok (.isect f) else .error 1) := rfl
theorem op_4a (f : Fields) : selectOp 0x4a f = (if f.fn == 0 then .ok (.deskew f) else .error 1) := rfl
theorem op_4b (f : Fields) : selectOp 0x4b f = (if f.fn == 0 then .ok (.pillar f) else .error 1) := rfl
theorem op_50 (f : Fields) : selectOp 0x50 f = (if f.fn == 0 then .ok (.lmul f) else .error 1) := rfl
theorem op_51 (f : Fields) : selectOp 0x51 f = (if f.fn == 0 then .ok (.lsum f) else .error 1) := rfl
theorem op_52 (f : Fields) : selectOp 0x52 f = (if f.fn == 0 then .ok (.lcvt f) else .error 1) := rfl
theorem op_53 (f : Fields) : selectOp 0x53 f = (if f.fn == 0 then .ok (.bpack f) else .error 1) := rfl
theorem op_54 (f : Fields) : selectOp 0x54 f = (if f.fn == 0 then .ok (.bunpk f) else .error 1) := rfl
theorem op_55 (f : Fields) : selectOp 0x55 f = (if f.fn == 0 then .ok (.clamp f) else .error 1) := rfl
theorem op_56 (f : Fields) : selectOp 0x56 f = (if f.fn == 0 then .ok (.scle f) else .error 1) := rfl
theorem op_60 (f : Fields) : selectOp 0x60 f = (if loadFn f true then .ok (.ld f) else .error 1) := rfl
theorem op_61 (f : Fields) : selectOp 0x61 f = (if storeFn f then .ok (.st f) else .error 1) := rfl
theorem op_62 (f : Fields) : selectOp 0x62 f = (if loadFn f true then .ok (.lds f) else .error 1) := rfl
theorem op_63 (f : Fields) : selectOp 0x63 f = (if storeFn f then .ok (.sts f) else .error 1) := rfl
theorem op_64 (f : Fields) : selectOp 0x64 f = (if loadFn f true then .ok (.ldw f) else .error 1) := rfl
theorem op_65 (f : Fields) : selectOp 0x65 f = (if storeFn f then .ok (.stw f) else .error 1) := rfl
theorem op_66 (f : Fields) : selectOp 0x66 f = (if loadFn f false then .ok (.ldc f) else .error 1) := rfl
theorem op_67 (f : Fields) : selectOp 0x67 f = (if decide (f.fn.toNat ≤ 1) then .ok (.pref f) else .error 1) := rfl
theorem op_68 (f : Fields) : selectOp 0x68 f = (if f.fn == 0 then .ok (.cwb f) else if f.fn == 1 then .ok (.cinv f) else if f.fn == 2 then .ok (.cdemote f) else .error 1) := rfl
theorem op_69 (f : Fields) : selectOp 0x69 f = (if f.sp != 3 && decide ((f.fn.extractLsb' 0 4).toNat ≤ 13) then .ok (.atom f) else .error 1) := rfl
theorem op_6a (f : Fields) : selectOp 0x6a f = (if f.sp != 3 && f.fn.extractLsb' 1 3 == 0 then .ok (.cas f) else .error 1) := rfl
theorem op_6b (f : Fields) : selectOp 0x6b f = (if f.sp != 3 && decide ((f.fn.extractLsb' 0 4).toNat ≤ 11) && !f.fn.getLsbD 6 then .ok (.red f) else .error 1) := rfl
theorem op_6c (f : Fields) : selectOp 0x6c f = (if f.fn.extractLsb' 1 5 == 0 && !f.fn.getLsbD 7 then .ok (.ldl f) else .error 1) := rfl
theorem op_6d (f : Fields) : selectOp 0x6d f = (if f.fn.extractLsb' 1 5 == 0 && !f.fn.getLsbD 6 then .ok (.stc f) else .error 1) := rfl
theorem op_6e (f : Fields) : selectOp 0x6e f = (if f.fn == 0 then .ok (.fence f) else .error 1) := rfl
theorem op_6f (f : Fields) : selectOp 0x6f f = (if f.fn.extractLsb' 6 2 == 0 && !f.fn.getLsbD 5 && f.fn.extractLsb' 1 3 == 0 then .ok (.acq f) else .error 1) := rfl
theorem op_70 (f : Fields) : selectOp 0x70 f = (if f.fn.extractLsb' 6 2 == 0 && !f.fn.getLsbD 5 && f.fn.extractLsb' 1 3 == 0 then .ok (.rel f) else .error 1) := rfl
theorem op_71 (f : Fields) : selectOp 0x71 f = (if f.fn &&& 0xEE == 0 then .ok (.bind f) else .error 1) := rfl
theorem op_72 (f : Fields) : selectOp 0x72 f = (if f.fn &&& 0xFE == 0 then .ok (.unbind f) else .error 1) := rfl
theorem op_73 (f : Fields) : selectOp 0x73 f = (if !f.fn.getLsbD 7 && f.sp == 0 && f.fn.extractLsb' 0 3 != 7 then .ok (.waitc f) else .error 1) := rfl
theorem op_74 (f : Fields) : selectOp 0x74 f = (if decide (f.fn.toNat ≤ 2) then .ok (.bar f) else .error 1) := rfl
theorem op_75 (f : Fields) : selectOp 0x75 f = (if f.fn == 0 then .ok (.leaseGet f) else if f.fn == 1 then .ok (.leaseDrop f) else if f.fn == 2 then .ok (.leaseDropall f) else .error 1) := rfl
theorem op_80 (f : Fields) : selectOp 0x80 f = (if f.fn &&& 0xFE == 0 then .ok (.boinit f) else .error 1) := rfl
theorem op_81 (f : Fields) : selectOp 0x81 f = (if f.fn &&& 0xFE == 0 then .ok (.boarr f) else .error 1) := rfl
theorem op_82 (f : Fields) : selectOp 0x82 f = (if f.fn &&& 0xFE == 0 then .ok (.botok f) else .error 1) := rfl
theorem op_83 (f : Fields) : selectOp 0x83 f = (if f.fn &&& 0xFE == 0 then .ok (.bowait f) else .error 1) := rfl
theorem op_84 (f : Fields) : selectOp 0x84 f = (if f.fn &&& 0xFC == 0 then .ok (.bowaitp f) else .error 1) := rfl
theorem op_85 (f : Fields) : selectOp 0x85 f = (if f.fn == 0 then .ok (.rinit f) else .error 1) := rfl
theorem op_86 (f : Fields) : selectOp 0x86 f = (if f.fn == 0 then .ok (.rget f) else .error 1) := rfl
theorem op_87 (f : Fields) : selectOp 0x87 f = (if f.fn == 0 then .ok (.rputRes f) else if f.fn == 1 then .ok (.rputPub f) else .error 1) := rfl
theorem op_88 (f : Fields) : selectOp 0x88 f = (if f.fn == 0 then .ok (.rrel f) else .error 1) := rfl
theorem op_89 (f : Fields) : selectOp 0x89 f = (if f.fn == 0 then .ok (.rstat f) else .error 1) := rfl
theorem op_8a (f : Fields) : selectOp 0x8a f = (if f.fn == 0 then .ok (.evmap f) else .error 1) := rfl
theorem op_8b (f : Fields) : selectOp 0x8b f = (if f.fn == 0 then .ok (.evsig f) else .error 1) := rfl
theorem op_8c (f : Fields) : selectOp 0x8c f = (if f.fn == 0 then .ok (.evwait f) else .error 1) := rfl
theorem op_90 (f : Fields) : selectOp 0x90 f = (if decide (f.fn.toNat ≤ 6) then .ok (.cp f) else .error 1) := rfl
theorem op_91 (f : Fields) : selectOp 0x91 f = (if f.fn == 0 then .ok (.cpblk f) else .error 1) := rfl
theorem op_92 (f : Fields) : selectOp 0x92 f = (if f.fn == 0 then .ok (.fork f) else .error 1) := rfl
theorem op_93 (f : Fields) : selectOp 0x93 f = (if f.fn == 0 then .ok (.rdv f) else .error 1) := rfl
theorem op_a0 (f : Fields) : selectOp 0xa0 f = (if f.fn == 0 then .ok (.mldb f) else .error 1) := rfl
theorem op_a1 (f : Fields) : selectOp 0xa1 f = (if decide (f.fn.toNat ≤ 3) then .ok (.mma f) else .error 1) := rfl
theorem op_a2 (f : Fields) : selectOp 0xa2 f = (if f.fn == 0 then .ok (.accz f) else .error 1) := rfl
theorem op_a3 (f : Fields) : selectOp 0xa3 f = (if f.fn == 0 then .ok (.accsc f) else .error 1) := rfl
theorem op_a4 (f : Fields) : selectOp 0xa4 f = (if decide (f.fn.toNat ≤ 3) then .ok (.accld f) else .error 1) := rfl
theorem op_a5 (f : Fields) : selectOp 0xa5 f = (if decide (f.fn.toNat ≤ 7) then .ok (.accst f) else .error 1) := rfl
theorem op_a6 (f : Fields) : selectOp 0xa6 f = (if f.fn == 0 then .ok (.msel f) else .error 1) := rfl
theorem op_a7 (f : Fields) : selectOp 0xa7 f = (if f.fn == 0 then .ok (.mnext f) else .error 1) := rfl
theorem op_a8 (f : Fields) : selectOp 0xa8 f = (if f.fn == 0 then .ok (.mwaite f) else .error 1) := rfl
theorem op_a9 (f : Fields) : selectOp 0xa9 f = (if f.fn == 0 then .ok (.msig f) else .error 1) := rfl
theorem op_aa (f : Fields) : selectOp 0xaa f = (if f.fn == 0 && !f.imm.getLsbD 0 then .ok (.mend f) else if f.fn == 0 && f.imm.getLsbD 0 then .ok (.mendLoop f) else .error 1) := rfl
theorem op_b0 (f : Fields) : selectOp 0xb0 f = (if f.fn == 0 then .ok (.loopL f) else .error 1) := rfl
theorem op_b1 (f : Fields) : selectOp 0xb1 f = (if f.fn == 0 then .ok (.endl f) else .error 1) := rfl
theorem op_b2 (f : Fields) : selectOp 0xb2 f = (if f.fn == 0 then .ok (.emit f) else .error 1) := rfl
theorem op_b3 (f : Fields) : selectOp 0xb3 f = (if f.fn == 0 then .ok (.permw f) else .error 1) := rfl
theorem op_b4 (f : Fields) : selectOp 0xb4 f = (if f.fn == 0 then .ok (.lset f) else .error 1) := rfl
theorem op_b5 (f : Fields) : selectOp 0xb5 f = (if f.fn == 0 then .ok (.lend f) else .error 1) := rfl
theorem op_b8 (f : Fields) : selectOp 0xb8 f = (if f.fn == 0 then .ok (.spawn f) else if f.fn == 1 then .ok (.spawnt f) else if f.fn == 2 then .ok (.launchg f) else .error 1) := rfl
theorem op_b9 (f : Fields) : selectOp 0xb9 f = (if f.fn == 0 then .ok (.exit f) else if f.fn == 1 then .ok (.yield f) else if f.fn == 2 then .ok (.cancel f) else .error 1) := rfl
theorem op_ba (f : Fields) : selectOp 0xba f = (if f.fn == 0 then .ok (.dlset f) else if f.fn == 1 then .ok (.dlrd f) else .error 1) := rfl
theorem op_bb (f : Fields) : selectOp 0xbb f = (if f.fn == 0 && !f.imm.getLsbD 31 then .ok (.cqbind f) else if f.fn == 0 && f.imm.getLsbD 31 then .ok (.cqbindOff f) else if f.fn == 1 then .ok (.cqpush f) else if f.fn == 2 then .ok (.cqflush f) else .error 1) := rfl
theorem op_bc (f : Fields) : selectOp 0xbc f = (if f.fn == 0 then .ok (.futwait f) else if f.fn == 1 then .ok (.futpoll f) else .error 1) := rfl
theorem op_bd (f : Fields) : selectOp 0xbd f = (if f.fn == 0 then .ok (.poola f) else if f.fn == 1 then .ok (.poolf f) else .error 1) := rfl
theorem op_be (f : Fields) : selectOp 0xbe f = (if f.fn == 0 then .ok (.qcol f) else if f.fn == 1 then .ok (.qocc f) else .error 1) := rfl
theorem op_c0 (f : Fields) : selectOp 0xc0 f = (if f.fn == 0 then .ok (.sample f) else if f.fn == 1 then .ok (.sampleAcc f) else .error 1) := rfl
theorem op_c1 (f : Fields) : selectOp 0xc1 f = (if f.fn == 0 then .ok (.seqnew f) else if f.fn == 1 then .ok (.seqfork f) else if f.fn == 2 then .ok (.seqend f) else .error 1) := rfl
theorem op_c2 (f : Fields) : selectOp 0xc2 f = (if f.fn == 0 && !f.mod.getLsbD 0 then .ok (.seqcommit f) else if f.fn == 0 && f.mod.getLsbD 0 then .ok (.seqcommitConf f) else if f.fn == 0 then .error 9 else .error 1) := rfl
theorem op_c3 (f : Fields) : selectOp 0xc3 f = (if f.fn == 0 then .ok (.seqdraft f) else if f.fn == 1 then .ok (.seqrej f) else .error 1) := rfl
theorem op_c4 (f : Fields) : selectOp 0xc4 f = (if f.fn == 0 then .ok (.seqrd f) else .error 1) := rfl
theorem op_c5 (f : Fields) : selectOp 0xc5 f = (if f.fn == 0 then .ok (.pnset f) else if f.fn == 1 then .ok (.pnclr f) else .error 1) := rfl
theorem op_c8 (f : Fields) : selectOp 0xc8 f = (if f.fn == 0 then .ok (.bra f) else .error 1) := rfl
theorem op_c9 (f : Fields) : selectOp 0xc9 f = (if f.fn == 0 then .ok (.brx f) else .error 1) := rfl
theorem op_ca (f : Fields) : selectOp 0xca f = (if f.fn == 0 then .ok (.call f) else .error 1) := rfl
theorem op_cb (f : Fields) : selectOp 0xcb f = (if f.fn == 0 then .ok (.callx f) else .error 1) := rfl
theorem op_cc (f : Fields) : selectOp 0xcc f = (if f.fn == 0 then .ok (.ret f) else .error 1) := rfl
theorem op_cd (f : Fields) : selectOp 0xcd f = (if f.fn == 0 then .ok (.nop f) else .error 1) := rfl
theorem op_e0 (f : Fields) : selectOp 0xe0 f = (if f.fn == 0 && !f.mod.getLsbD 0 then .ok (.trap f) else if f.fn == 0 && f.mod.getLsbD 0 then .ok (.trapPriv f) else if f.fn == 0 then .error 9 else .error 1) := rfl
theorem op_e1 (f : Fields) : selectOp 0xe1 f = (if f.fn == 0 && f.mod == 0 then .ok (.eret f) else if f.fn == 0 && f.mod == 1 then .ok (.eretExit f) else if f.fn == 0 && f.mod == 2 then .ok (.eretFail f) else if f.fn == 1 && f.mod == 0 then .ok (.eretE f) else if f.fn == 1 && f.mod == 1 then .ok (.eretEDone f) else if f.fn == 1 && f.mod == 3 then .ok (.eretEDone64 f) else if f.fn == 0 || f.fn == 1 then .error 9 else .error 1) := rfl
theorem op_e2 (f : Fields) : selectOp 0xe2 f = (if f.fn == 0 then .ok (.sreg f) else .error 1) := rfl
theorem op_e3 (f : Fields) : selectOp 0xe3 f = (if f.fn == 0 then .ok (.swr f) else .error 1) := rfl
theorem op_e4 (f : Fields) : selectOp 0xe4 f = (if f.fn == 0 then .ok (.bkpt f) else .error 1) := rfl
theorem op_e5 (f : Fields) : selectOp 0xe5 f = (if f.fn == 0 then .ok (.mark f) else if f.fn == 1 then .ok (.smpl f) else .error 1) := rfl
theorem op_e6 (f : Fields) : selectOp 0xe6 f = (if f.fn == 0 && f.mod == 0 then .ok (.tlbinvPage f) else if f.fn == 0 && f.mod == 1 then .ok (.tlbinvCtx f) else if f.fn == 0 && f.mod == 2 then .ok (.tlbinvAll f) else if f.fn == 0 then .error 9 else .error 1) := rfl
theorem op_e7 (f : Fields) : selectOp 0xe7 f = (if f.fn == 0 && f.mod == 0 then .ok (.ctxsetNew f) else if f.fn == 0 && f.mod == 1 then .ok (.ctxsetRoot f) else if f.fn == 0 && f.mod == 2 then .ok (.ctxsetKill f) else if f.fn == 1 && f.mod == 0 then .ok (.wsetCore f) else if f.fn == 1 && f.mod == 1 then .ok (.wsetSlice f) else if f.fn == 1 && f.mod == 2 then .ok (.wsetGran f) else if f.fn == 1 && f.mod == 3 then .ok (.wsetPort f) else if f.fn == 1 && f.mod == 4 then .ok (.wsetFn f) else if f.fn == 0 || f.fn == 1 then .error 9 else .error 1) := rfl
theorem op_e8 (f : Fields) : selectOp 0xe8 f = (if f.fn == 0 && f.mod == 0 then .ok (.regionCoh f) else if f.fn == 0 && f.mod == 1 then .ok (.regionSwm f) else if f.fn == 0 then .error 9 else .error 1) := rfl
theorem op_e9 (f : Fields) : selectOp 0xe9 f = (if f.fn == 0 && f.mod == 0 then .ok (.biassetDev f) else if f.fn == 0 && f.mod == 1 then .ok (.biassetHost f) else if f.fn == 0 then .error 9 else .error 1) := rfl
theorem op_ea (f : Fields) : selectOp 0xea f = (if f.fn == 0 then .ok (.wsave f) else .error 1) := rfl
theorem op_eb (f : Fields) : selectOp 0xeb f = (if f.fn == 0 then .ok (.wrest f) else .error 1) := rfl
theorem op_ec (f : Fields) : selectOp 0xec f = (if f.fn == 0 then .ok (.sppin f) else if f.fn == 1 then .ok (.spunpin f) else .error 1) := rfl

theorem iadd (f : Fields) : Statement (.iadd f) := fun h0 => (op_00 f).trans (by have h : (f.fn == 0) = true := h0; clear h0; simp_all)
theorem isub (f : Fields) : Statement (.isub f) := fun h0 => (op_00 f).trans (by have h : (f.fn == 1) = true := h0; clear h0; simp_all)
theorem iaddc (f : Fields) : Statement (.iaddc f) := fun h0 => (op_00 f).trans (by have h : (f.fn == 2) = true := h0; clear h0; simp_all)
theorem isubb (f : Fields) : Statement (.isubb f) := fun h0 => (op_00 f).trans (by have h : (f.fn == 3) = true := h0; clear h0; simp_all)
theorem imul (f : Fields) : Statement (.imul f) := fun h0 => (op_01 f).trans (by have h : (f.fn == 0) = true := h0; clear h0; simp_all)
theorem imulh (f : Fields) : Statement (.imulh f) := fun h0 => (op_01 f).trans (by have h : (f.fn == 1) = true := h0; clear h0; simp_all)
theorem imad (f : Fields) : Statement (.imad f) := fun h0 => (op_01 f).trans (by have h : (f.fn == 2) = true := h0; clear h0; simp_all)
theorem idot4 (f : Fields) : Statement (.idot4 f) := fun h0 => (op_01 f).trans (by have h : (f.fn == 3) = true := h0; clear h0; simp_all)
theorem imin (f : Fields) : Statement (.imin f) := fun h0 => (op_02 f).trans (by have h : (f.fn == 0) = true := h0; clear h0; simp_all)
theorem imax (f : Fields) : Statement (.imax f) := fun h0 => (op_02 f).trans (by have h : (f.fn == 1) = true := h0; clear h0; simp_all)
theorem iabs (f : Fields) : Statement (.iabs f) := fun h0 => (op_02 f).trans (by have h : (f.fn == 2) = true := h0; clear h0; simp_all)
theorem ineg (f : Fields) : Statement (.ineg f) := fun h0 => (op_02 f).trans (by have h : (f.fn == 3) = true := h0; clear h0; simp_all)
theorem andB (f : Fields) : Statement (.andB f) := fun h0 => (op_03 f).trans (by have h : (f.fn == 0) = true := h0; clear h0; simp_all)
theorem orB (f : Fields) : Statement (.orB f) := fun h0 => (op_03 f).trans (by have h : (f.fn == 1) = true := h0; clear h0; simp_all)
theorem xorB (f : Fields) : Statement (.xorB f) := fun h0 => (op_03 f).trans (by have h : (f.fn == 2) = true := h0; clear h0; simp_all)
theorem andnB (f : Fields) : Statement (.andnB f) := fun h0 => (op_03 f).trans (by have h : (f.fn == 3) = true := h0; clear h0; simp_all)
theorem notB (f : Fields) : Statement (.notB f) := fun h0 => (op_03 f).trans (by have h : (f.fn == 4) = true := h0; clear h0; simp_all)
theorem shl (f : Fields) : Statement (.shl f) := fun h0 => (op_04 f).trans (by have h : (f.fn == 0) = true := h0; clear h0; simp_all)
theorem shr (f : Fields) : Statement (.shr f) := fun h0 => (op_04 f).trans (by have h : (f.fn == 1) = true := h0; clear h0; simp_all)
theorem sar (f : Fields) : Statement (.sar f) := fun h0 => (op_04 f).trans (by have h : (f.fn == 2) = true := h0; clear h0; simp_all)
theorem rotl (f : Fields) : Statement (.rotl f) := fun h0 => (op_04 f).trans (by have h : (f.fn == 3) = true := h0; clear h0; simp_all)
theorem funsh (f : Fields) : Statement (.funsh f) := fun h0 => (op_04 f).trans (by have h : (f.fn == 4) = true := h0; clear h0; simp_all)
theorem bfx (f : Fields) : Statement (.bfx f) := fun h0 => (op_05 f).trans (by have h : (f.fn == 0) = true := h0; clear h0; simp_all)
theorem bfi (f : Fields) : Statement (.bfi f) := fun h0 => (op_05 f).trans (by have h : (f.fn == 1) = true := h0; clear h0; simp_all)
theorem popc (f : Fields) : Statement (.popc f) := fun h0 => (op_05 f).trans (by have h : (f.fn == 2) = true := h0; clear h0; simp_all)
theorem clz (f : Fields) : Statement (.clz f) := fun h0 => (op_05 f).trans (by have h : (f.fn == 3) = true := h0; clear h0; simp_all)
theorem ctz (f : Fields) : Statement (.ctz f) := fun h0 => (op_05 f).trans (by have h : (f.fn == 4) = true := h0; clear h0; simp_all)
theorem brev (f : Fields) : Statement (.brev f) := fun h0 => (op_05 f).trans (by have h : (f.fn == 5) = true := h0; clear h0; simp_all)
theorem permb (f : Fields) : Statement (.permb f) := fun h0 => (op_05 f).trans (by have h : (f.fn == 6) = true := h0; clear h0; simp_all)
theorem sel (f : Fields) : Statement (.sel f) := fun h0 => (op_06 f).trans (by have h : (f.fn == 0) = true := h0; clear h0; simp_all)
theorem isetp (f : Fields) : Statement (.isetp f) := fun h0 => (op_07 f).trans (by have h : (decide (f.fn.toNat ≤ 5)) = true := h0; clear h0; simp_all)
theorem plop (f : Fields) : Statement (.plop f) := fun h0 => (op_08 f).trans (by have h : (true) = true := h0; clear h0; simp_all)
theorem mov (f : Fields) : Statement (.mov f) := fun h0 => (op_09 f).trans (by have h : (f.fn == 0) = true := h0; clear h0; simp_all)
theorem movi (f : Fields) : Statement (.movi f) := fun h0 => (op_09 f).trans (by have h : (f.fn == 1) = true := h0; clear h0; simp_all)
theorem fadd (f : Fields) : Statement (.fadd f) := fun h0 => (op_20 f).trans (by have h : (decide (f.fn.toNat ≤ 2)) = true := h0; clear h0; simp_all)
theorem fsub (f : Fields) : Statement (.fsub f) := fun h0 => (op_21 f).trans (by have h : (decide (f.fn.toNat ≤ 2)) = true := h0; clear h0; simp_all)
theorem fmul (f : Fields) : Statement (.fmul f) := fun h0 => (op_22 f).trans (by have h : (decide (f.fn.toNat ≤ 2)) = true := h0; clear h0; simp_all)
theorem ffma (f : Fields) : Statement (.ffma f) := fun h0 => (op_23 f).trans (by have h : (decide (f.fn.toNat ≤ 2)) = true := h0; clear h0; simp_all)
theorem fmin (f : Fields) : Statement (.fmin f) := fun h0 => (op_24 f).trans (by have h : (decide (f.fn.toNat ≤ 2)) = true := h0; clear h0; simp_all)
theorem fmax (f : Fields) : Statement (.fmax f) := fun h0 => (op_25 f).trans (by have h : (decide (f.fn.toNat ≤ 2)) = true := h0; clear h0; simp_all)
theorem fsetp (f : Fields) : Statement (.fsetp f) := fun h0 => (op_26 f).trans (by have h : (decide ((f.fn.extractLsb' 0 4).toNat ≤ 2 ∧ (f.fn.extractLsb' 4 4).toNat ≤ 13)) = true := h0; clear h0; simp_all)
theorem fclass (f : Fields) : Statement (.fclass f) := fun h0 => (op_27 f).trans (by have h : (decide (f.fn.toNat ≤ 2)) = true := h0; clear h0; simp_all)
theorem frint (f : Fields) : Statement (.frint f) := fun h0 => (op_28 f).trans (by have h : (decide (f.fn.toNat ≤ 2)) = true := h0; clear h0; simp_all)
theorem fscale (f : Fields) : Statement (.fscale f) := fun h0 => (op_29 f).trans (by have h : (decide (f.fn.toNat ≤ 2)) = true := h0; clear h0; simp_all)
theorem hadd2 (f : Fields) : Statement (.hadd2 f) := fun h0 => (op_2a f).trans (by have h : (decide (f.fn.toNat ≤ 1)) = true := h0; clear h0; simp_all)
theorem hfma2 (f : Fields) : Statement (.hfma2 f) := fun h0 => (op_2b f).trans (by have h : (decide (f.fn.toNat ≤ 1)) = true := h0; clear h0; simp_all)
theorem cvt (f : Fields) : Statement (.cvt f) := fun h0 => (op_2c f).trans (by have h : (decide ((f.fn.extractLsb' 0 4).toNat ≤ 13 ∧ (f.fn.extractLsb' 4 4).toNat ≤ 13)) = true := h0; clear h0; simp_all)
theorem sfn (f : Fields) : Statement (.sfn f) := fun h0 => (op_2d f).trans (by have h : (decide (f.fn.toNat ≤ 7)) = true := h0; clear h0; simp_all)
theorem shfl (f : Fields) : Statement (.shfl f) := fun h0 => (op_40 f).trans (by have h : (decide (f.fn.toNat ≤ 3)) = true := h0; clear h0; simp_all)
theorem vote (f : Fields) : Statement (.vote f) := fun h0 => (op_41 f).trans (by have h : (decide (f.fn.toNat ≤ 3)) = true := h0; clear h0; simp_all)
theorem redw (f : Fields) : Statement (.redw f) := fun h0 => (op_42 f).trans (by have h : (decide (f.fn.toNat ≤ 10)) = true := h0; clear h0; simp_all)
theorem prfx (f : Fields) : Statement (.prfx f) := fun h0 => (op_43 f).trans (by have h : (decide (f.fn.toNat ≤ 10)) = true := h0; clear h0; simp_all)
theorem matchL (f : Fields) : Statement (.matchL f) := fun h0 => (op_44 f).trans (by have h : (decide (f.fn.toNat ≤ 1)) = true := h0; clear h0; simp_all)
theorem hlane (f : Fields) : Statement (.hlane f) := fun h0 => (op_45 f).trans (by have h : (f.fn == 0) = true := h0; clear h0; simp_all)
theorem exmrd (f : Fields) : Statement (.exmrd f) := fun h0 => (op_46 f).trans (by have h : (f.fn == 0) = true := h0; clear h0; simp_all)
theorem exmwr (f : Fields) : Statement (.exmwr f) := fun h0 => (op_46 f).trans (by have h : (f.fn == 1) = true := h0; clear h0; simp_all)
theorem exmand (f : Fields) : Statement (.exmand f) := fun h0 => (op_46 f).trans (by have h : (f.fn == 2) = true := h0; clear h0; simp_all)
theorem exmor (f : Fields) : Statement (.exmor f) := fun h0 => (op_46 f).trans (by have h : (f.fn == 3) = true := h0; clear h0; simp_all)
theorem tidx (f : Fields) : Statement (.tidx f) := fun h0 => (op_47 f).trans (by have h : (f.fn == 0) = true := h0; clear h0; simp_all)
theorem shpset (f : Fields) : Statement (.shpset f) := fun h0 => (op_48 f).trans (by have h : (f.fn == 0) = true := h0; clear h0; simp_all)
theorem isect (f : Fields) : Statement (.isect f) := fun h0 => (op_49 f).trans (by have h : (f.fn == 0) = true := h0; clear h0; simp_all)
theorem deskew (f : Fields) : Statement (.deskew f) := fun h0 => (op_4a f).trans (by have h : (f.fn == 0) = true := h0; clear h0; simp_all)
theorem pillar (f : Fields) : Statement (.pillar f) := fun h0 => (op_4b f).trans (by have h : (f.fn == 0) = true := h0; clear h0; simp_all)
theorem lmul (f : Fields) : Statement (.lmul f) := fun h0 => (op_50 f).trans (by have h : (f.fn == 0) = true := h0; clear h0; simp_all)
theorem lsum (f : Fields) : Statement (.lsum f) := fun h0 => (op_51 f).trans (by have h : (f.fn == 0) = true := h0; clear h0; simp_all)
theorem lcvt (f : Fields) : Statement (.lcvt f) := fun h0 => (op_52 f).trans (by have h : (f.fn == 0) = true := h0; clear h0; simp_all)
theorem bpack (f : Fields) : Statement (.bpack f) := fun h0 => (op_53 f).trans (by have h : (f.fn == 0) = true := h0; clear h0; simp_all)
theorem bunpk (f : Fields) : Statement (.bunpk f) := fun h0 => (op_54 f).trans (by have h : (f.fn == 0) = true := h0; clear h0; simp_all)
theorem clamp (f : Fields) : Statement (.clamp f) := fun h0 => (op_55 f).trans (by have h : (f.fn == 0) = true := h0; clear h0; simp_all)
theorem scle (f : Fields) : Statement (.scle f) := fun h0 => (op_56 f).trans (by have h : (f.fn == 0) = true := h0; clear h0; simp_all)
theorem ld (f : Fields) : Statement (.ld f) := fun h0 => (op_60 f).trans (by have h : (loadFn f true) = true := h0; clear h0; simp_all)
theorem st (f : Fields) : Statement (.st f) := fun h0 => (op_61 f).trans (by have h : (storeFn f) = true := h0; clear h0; simp_all)
theorem lds (f : Fields) : Statement (.lds f) := fun h0 => (op_62 f).trans (by have h : (loadFn f true) = true := h0; clear h0; simp_all)
theorem sts (f : Fields) : Statement (.sts f) := fun h0 => (op_63 f).trans (by have h : (storeFn f) = true := h0; clear h0; simp_all)
theorem ldw (f : Fields) : Statement (.ldw f) := fun h0 => (op_64 f).trans (by have h : (loadFn f true) = true := h0; clear h0; simp_all)
theorem stw (f : Fields) : Statement (.stw f) := fun h0 => (op_65 f).trans (by have h : (storeFn f) = true := h0; clear h0; simp_all)
theorem ldc (f : Fields) : Statement (.ldc f) := fun h0 => (op_66 f).trans (by have h : (loadFn f false) = true := h0; clear h0; simp_all)
theorem pref (f : Fields) : Statement (.pref f) := fun h0 => (op_67 f).trans (by have h : (decide (f.fn.toNat ≤ 1)) = true := h0; clear h0; simp_all)
theorem cwb (f : Fields) : Statement (.cwb f) := fun h0 => (op_68 f).trans (by have h : (f.fn == 0) = true := h0; clear h0; simp_all)
theorem cinv (f : Fields) : Statement (.cinv f) := fun h0 => (op_68 f).trans (by have h : (f.fn == 1) = true := h0; clear h0; simp_all)
theorem cdemote (f : Fields) : Statement (.cdemote f) := fun h0 => (op_68 f).trans (by have h : (f.fn == 2) = true := h0; clear h0; simp_all)
theorem atom (f : Fields) : Statement (.atom f) := fun h0 => (op_69 f).trans (by have h : (f.sp != 3 && decide ((f.fn.extractLsb' 0 4).toNat ≤ 13)) = true := h0; clear h0; simp_all)
theorem cas (f : Fields) : Statement (.cas f) := fun h0 => (op_6a f).trans (by have h : (f.sp != 3 && f.fn.extractLsb' 1 3 == 0) = true := h0; clear h0; simp_all)
theorem red (f : Fields) : Statement (.red f) := fun h0 => (op_6b f).trans (by have h : (f.sp != 3 && decide ((f.fn.extractLsb' 0 4).toNat ≤ 11) && !f.fn.getLsbD 6) = true := h0; clear h0; simp_all)
theorem ldl (f : Fields) : Statement (.ldl f) := fun h0 => (op_6c f).trans (by have h : (f.fn.extractLsb' 1 5 == 0 && !f.fn.getLsbD 7) = true := h0; clear h0; simp_all)
theorem stc (f : Fields) : Statement (.stc f) := fun h0 => (op_6d f).trans (by have h : (f.fn.extractLsb' 1 5 == 0 && !f.fn.getLsbD 6) = true := h0; clear h0; simp_all)
theorem fence (f : Fields) : Statement (.fence f) := fun h0 => (op_6e f).trans (by have h : (f.fn == 0) = true := h0; clear h0; simp_all)
theorem acq (f : Fields) : Statement (.acq f) := fun h0 => (op_6f f).trans (by have h : (f.fn.extractLsb' 6 2 == 0 && !f.fn.getLsbD 5 && f.fn.extractLsb' 1 3 == 0) = true := h0; clear h0; simp_all)
theorem rel (f : Fields) : Statement (.rel f) := fun h0 => (op_70 f).trans (by have h : (f.fn.extractLsb' 6 2 == 0 && !f.fn.getLsbD 5 && f.fn.extractLsb' 1 3 == 0) = true := h0; clear h0; simp_all)
theorem bind (f : Fields) : Statement (.bind f) := fun h0 => (op_71 f).trans (by have h : (f.fn &&& 0xEE == 0) = true := h0; clear h0; simp_all)
theorem unbind (f : Fields) : Statement (.unbind f) := fun h0 => (op_72 f).trans (by have h : (f.fn &&& 0xFE == 0) = true := h0; clear h0; simp_all)
theorem waitc (f : Fields) : Statement (.waitc f) := fun h0 => (op_73 f).trans (by have h : (!f.fn.getLsbD 7 && f.sp == 0 && f.fn.extractLsb' 0 3 != 7) = true := h0; clear h0; simp_all)
theorem bar (f : Fields) : Statement (.bar f) := fun h0 => (op_74 f).trans (by have h : (decide (f.fn.toNat ≤ 2)) = true := h0; clear h0; simp_all)
theorem leaseGet (f : Fields) : Statement (.leaseGet f) := fun h0 => (op_75 f).trans (by have h : (f.fn == 0) = true := h0; clear h0; simp_all)
theorem leaseDrop (f : Fields) : Statement (.leaseDrop f) := fun h0 => (op_75 f).trans (by have h : (f.fn == 1) = true := h0; clear h0; simp_all)
theorem leaseDropall (f : Fields) : Statement (.leaseDropall f) := fun h0 => (op_75 f).trans (by have h : (f.fn == 2) = true := h0; clear h0; simp_all)
theorem boinit (f : Fields) : Statement (.boinit f) := fun h0 => (op_80 f).trans (by have h : (f.fn &&& 0xFE == 0) = true := h0; clear h0; simp_all)
theorem boarr (f : Fields) : Statement (.boarr f) := fun h0 => (op_81 f).trans (by have h : (f.fn &&& 0xFE == 0) = true := h0; clear h0; simp_all)
theorem botok (f : Fields) : Statement (.botok f) := fun h0 => (op_82 f).trans (by have h : (f.fn &&& 0xFE == 0) = true := h0; clear h0; simp_all)
theorem bowait (f : Fields) : Statement (.bowait f) := fun h0 => (op_83 f).trans (by have h : (f.fn &&& 0xFE == 0) = true := h0; clear h0; simp_all)
theorem bowaitp (f : Fields) : Statement (.bowaitp f) := fun h0 => (op_84 f).trans (by have h : (f.fn &&& 0xFC == 0) = true := h0; clear h0; simp_all)
theorem rinit (f : Fields) : Statement (.rinit f) := fun h0 => (op_85 f).trans (by have h : (f.fn == 0) = true := h0; clear h0; simp_all)
theorem rget (f : Fields) : Statement (.rget f) := fun h0 => (op_86 f).trans (by have h : (f.fn == 0) = true := h0; clear h0; simp_all)
theorem rputRes (f : Fields) : Statement (.rputRes f) := fun h0 => (op_87 f).trans (by have h : (f.fn == 0) = true := h0; clear h0; simp_all)
theorem rputPub (f : Fields) : Statement (.rputPub f) := fun h0 => (op_87 f).trans (by have h : (f.fn == 1) = true := h0; clear h0; simp_all)
theorem rrel (f : Fields) : Statement (.rrel f) := fun h0 => (op_88 f).trans (by have h : (f.fn == 0) = true := h0; clear h0; simp_all)
theorem rstat (f : Fields) : Statement (.rstat f) := fun h0 => (op_89 f).trans (by have h : (f.fn == 0) = true := h0; clear h0; simp_all)
theorem evmap (f : Fields) : Statement (.evmap f) := fun h0 => (op_8a f).trans (by have h : (f.fn == 0) = true := h0; clear h0; simp_all)
theorem evsig (f : Fields) : Statement (.evsig f) := fun h0 => (op_8b f).trans (by have h : (f.fn == 0) = true := h0; clear h0; simp_all)
theorem evwait (f : Fields) : Statement (.evwait f) := fun h0 => (op_8c f).trans (by have h : (f.fn == 0) = true := h0; clear h0; simp_all)
theorem cp (f : Fields) : Statement (.cp f) := fun h0 => (op_90 f).trans (by have h : (decide (f.fn.toNat ≤ 6)) = true := h0; clear h0; simp_all)
theorem cpblk (f : Fields) : Statement (.cpblk f) := fun h0 => (op_91 f).trans (by have h : (f.fn == 0) = true := h0; clear h0; simp_all)
theorem fork (f : Fields) : Statement (.fork f) := fun h0 => (op_92 f).trans (by have h : (f.fn == 0) = true := h0; clear h0; simp_all)
theorem rdv (f : Fields) : Statement (.rdv f) := fun h0 => (op_93 f).trans (by have h : (f.fn == 0) = true := h0; clear h0; simp_all)
theorem mldb (f : Fields) : Statement (.mldb f) := fun h0 => (op_a0 f).trans (by have h : (f.fn == 0) = true := h0; clear h0; simp_all)
theorem mma (f : Fields) : Statement (.mma f) := fun h0 => (op_a1 f).trans (by have h : (decide (f.fn.toNat ≤ 3)) = true := h0; clear h0; simp_all)
theorem accz (f : Fields) : Statement (.accz f) := fun h0 => (op_a2 f).trans (by have h : (f.fn == 0) = true := h0; clear h0; simp_all)
theorem accsc (f : Fields) : Statement (.accsc f) := fun h0 => (op_a3 f).trans (by have h : (f.fn == 0) = true := h0; clear h0; simp_all)
theorem accld (f : Fields) : Statement (.accld f) := fun h0 => (op_a4 f).trans (by have h : (decide (f.fn.toNat ≤ 3)) = true := h0; clear h0; simp_all)
theorem accst (f : Fields) : Statement (.accst f) := fun h0 => (op_a5 f).trans (by have h : (decide (f.fn.toNat ≤ 7)) = true := h0; clear h0; simp_all)
theorem msel (f : Fields) : Statement (.msel f) := fun h0 => (op_a6 f).trans (by have h : (f.fn == 0) = true := h0; clear h0; simp_all)
theorem mnext (f : Fields) : Statement (.mnext f) := fun h0 => (op_a7 f).trans (by have h : (f.fn == 0) = true := h0; clear h0; simp_all)
theorem mwaite (f : Fields) : Statement (.mwaite f) := fun h0 => (op_a8 f).trans (by have h : (f.fn == 0) = true := h0; clear h0; simp_all)
theorem msig (f : Fields) : Statement (.msig f) := fun h0 => (op_a9 f).trans (by have h : (f.fn == 0) = true := h0; clear h0; simp_all)
theorem mend (f : Fields) : Statement (.mend f) := fun h0 => (op_aa f).trans (by have h : (f.fn == 0 && !f.imm.getLsbD 0) = true := h0; clear h0; simp_all)
theorem mendLoop (f : Fields) : Statement (.mendLoop f) := fun h0 => (op_aa f).trans (by have h : (f.fn == 0 && f.imm.getLsbD 0) = true := h0; clear h0; simp_all)
theorem loopL (f : Fields) : Statement (.loopL f) := fun h0 => (op_b0 f).trans (by have h : (f.fn == 0) = true := h0; clear h0; simp_all)
theorem endl (f : Fields) : Statement (.endl f) := fun h0 => (op_b1 f).trans (by have h : (f.fn == 0) = true := h0; clear h0; simp_all)
theorem emit (f : Fields) : Statement (.emit f) := fun h0 => (op_b2 f).trans (by have h : (f.fn == 0) = true := h0; clear h0; simp_all)
theorem permw (f : Fields) : Statement (.permw f) := fun h0 => (op_b3 f).trans (by have h : (f.fn == 0) = true := h0; clear h0; simp_all)
theorem lset (f : Fields) : Statement (.lset f) := fun h0 => (op_b4 f).trans (by have h : (f.fn == 0) = true := h0; clear h0; simp_all)
theorem lend (f : Fields) : Statement (.lend f) := fun h0 => (op_b5 f).trans (by have h : (f.fn == 0) = true := h0; clear h0; simp_all)
theorem spawn (f : Fields) : Statement (.spawn f) := fun h0 => (op_b8 f).trans (by have h : (f.fn == 0) = true := h0; clear h0; simp_all)
theorem spawnt (f : Fields) : Statement (.spawnt f) := fun h0 => (op_b8 f).trans (by have h : (f.fn == 1) = true := h0; clear h0; simp_all)
theorem launchg (f : Fields) : Statement (.launchg f) := fun h0 => (op_b8 f).trans (by have h : (f.fn == 2) = true := h0; clear h0; simp_all)
theorem exit (f : Fields) : Statement (.exit f) := fun h0 => (op_b9 f).trans (by have h : (f.fn == 0) = true := h0; clear h0; simp_all)
theorem yield (f : Fields) : Statement (.yield f) := fun h0 => (op_b9 f).trans (by have h : (f.fn == 1) = true := h0; clear h0; simp_all)
theorem cancel (f : Fields) : Statement (.cancel f) := fun h0 => (op_b9 f).trans (by have h : (f.fn == 2) = true := h0; clear h0; simp_all)
theorem dlset (f : Fields) : Statement (.dlset f) := fun h0 => (op_ba f).trans (by have h : (f.fn == 0) = true := h0; clear h0; simp_all)
theorem dlrd (f : Fields) : Statement (.dlrd f) := fun h0 => (op_ba f).trans (by have h : (f.fn == 1) = true := h0; clear h0; simp_all)
theorem cqbind (f : Fields) : Statement (.cqbind f) := fun h0 => (op_bb f).trans (by have h : (f.fn == 0 && !f.imm.getLsbD 31) = true := h0; clear h0; simp_all)
theorem cqbindOff (f : Fields) : Statement (.cqbindOff f) := fun h0 => (op_bb f).trans (by have h : (f.fn == 0 && f.imm.getLsbD 31) = true := h0; clear h0; simp_all)
theorem cqpush (f : Fields) : Statement (.cqpush f) := fun h0 => (op_bb f).trans (by have h : (f.fn == 1) = true := h0; clear h0; simp_all)
theorem cqflush (f : Fields) : Statement (.cqflush f) := fun h0 => (op_bb f).trans (by have h : (f.fn == 2) = true := h0; clear h0; simp_all)
theorem futwait (f : Fields) : Statement (.futwait f) := fun h0 => (op_bc f).trans (by have h : (f.fn == 0) = true := h0; clear h0; simp_all)
theorem futpoll (f : Fields) : Statement (.futpoll f) := fun h0 => (op_bc f).trans (by have h : (f.fn == 1) = true := h0; clear h0; simp_all)
theorem poola (f : Fields) : Statement (.poola f) := fun h0 => (op_bd f).trans (by have h : (f.fn == 0) = true := h0; clear h0; simp_all)
theorem poolf (f : Fields) : Statement (.poolf f) := fun h0 => (op_bd f).trans (by have h : (f.fn == 1) = true := h0; clear h0; simp_all)
theorem qcol (f : Fields) : Statement (.qcol f) := fun h0 => (op_be f).trans (by have h : (f.fn == 0) = true := h0; clear h0; simp_all)
theorem qocc (f : Fields) : Statement (.qocc f) := fun h0 => (op_be f).trans (by have h : (f.fn == 1) = true := h0; clear h0; simp_all)
theorem sample (f : Fields) : Statement (.sample f) := fun h0 => (op_c0 f).trans (by have h : (f.fn == 0) = true := h0; clear h0; simp_all)
theorem sampleAcc (f : Fields) : Statement (.sampleAcc f) := fun h0 => (op_c0 f).trans (by have h : (f.fn == 1) = true := h0; clear h0; simp_all)
theorem seqnew (f : Fields) : Statement (.seqnew f) := fun h0 => (op_c1 f).trans (by have h : (f.fn == 0) = true := h0; clear h0; simp_all)
theorem seqfork (f : Fields) : Statement (.seqfork f) := fun h0 => (op_c1 f).trans (by have h : (f.fn == 1) = true := h0; clear h0; simp_all)
theorem seqend (f : Fields) : Statement (.seqend f) := fun h0 => (op_c1 f).trans (by have h : (f.fn == 2) = true := h0; clear h0; simp_all)
theorem seqcommit (f : Fields) : Statement (.seqcommit f) := fun h0 => (op_c2 f).trans (by have h : (f.fn == 0 && !f.mod.getLsbD 0) = true := h0; clear h0; simp_all)
theorem seqcommitConf (f : Fields) : Statement (.seqcommitConf f) := fun h0 => (op_c2 f).trans (by have h : (f.fn == 0 && f.mod.getLsbD 0) = true := h0; clear h0; simp_all)
theorem seqdraft (f : Fields) : Statement (.seqdraft f) := fun h0 => (op_c3 f).trans (by have h : (f.fn == 0) = true := h0; clear h0; simp_all)
theorem seqrej (f : Fields) : Statement (.seqrej f) := fun h0 => (op_c3 f).trans (by have h : (f.fn == 1) = true := h0; clear h0; simp_all)
theorem seqrd (f : Fields) : Statement (.seqrd f) := fun h0 => (op_c4 f).trans (by have h : (f.fn == 0) = true := h0; clear h0; simp_all)
theorem pnset (f : Fields) : Statement (.pnset f) := fun h0 => (op_c5 f).trans (by have h : (f.fn == 0) = true := h0; clear h0; simp_all)
theorem pnclr (f : Fields) : Statement (.pnclr f) := fun h0 => (op_c5 f).trans (by have h : (f.fn == 1) = true := h0; clear h0; simp_all)
theorem bra (f : Fields) : Statement (.bra f) := fun h0 => (op_c8 f).trans (by have h : (f.fn == 0) = true := h0; clear h0; simp_all)
theorem brx (f : Fields) : Statement (.brx f) := fun h0 => (op_c9 f).trans (by have h : (f.fn == 0) = true := h0; clear h0; simp_all)
theorem call (f : Fields) : Statement (.call f) := fun h0 => (op_ca f).trans (by have h : (f.fn == 0) = true := h0; clear h0; simp_all)
theorem callx (f : Fields) : Statement (.callx f) := fun h0 => (op_cb f).trans (by have h : (f.fn == 0) = true := h0; clear h0; simp_all)
theorem ret (f : Fields) : Statement (.ret f) := fun h0 => (op_cc f).trans (by have h : (f.fn == 0) = true := h0; clear h0; simp_all)
theorem nop (f : Fields) : Statement (.nop f) := fun h0 => (op_cd f).trans (by have h : (f.fn == 0) = true := h0; clear h0; simp_all)
theorem trap (f : Fields) : Statement (.trap f) := fun h0 => (op_e0 f).trans (by have h : (f.fn == 0 && !f.mod.getLsbD 0) = true := h0; clear h0; simp_all)
theorem trapPriv (f : Fields) : Statement (.trapPriv f) := fun h0 => (op_e0 f).trans (by have h : (f.fn == 0 && f.mod.getLsbD 0) = true := h0; clear h0; simp_all)
theorem eret (f : Fields) : Statement (.eret f) := fun h0 => (op_e1 f).trans (by have h : (f.fn == 0 && f.mod == 0) = true := h0; clear h0; simp_all)
theorem eretExit (f : Fields) : Statement (.eretExit f) := fun h0 => (op_e1 f).trans (by have h : (f.fn == 0 && f.mod == 1) = true := h0; clear h0; simp_all)
theorem eretFail (f : Fields) : Statement (.eretFail f) := fun h0 => (op_e1 f).trans (by have h : (f.fn == 0 && f.mod == 2) = true := h0; clear h0; simp_all)
theorem eretE (f : Fields) : Statement (.eretE f) := fun h0 => (op_e1 f).trans (by have h : (f.fn == 1 && f.mod == 0) = true := h0; clear h0; simp_all)
theorem eretEDone (f : Fields) : Statement (.eretEDone f) := fun h0 => (op_e1 f).trans (by have h : (f.fn == 1 && f.mod == 1) = true := h0; clear h0; simp_all)
theorem eretEDone64 (f : Fields) : Statement (.eretEDone64 f) := fun h0 => (op_e1 f).trans (by have h : (f.fn == 1 && f.mod == 3) = true := h0; clear h0; simp_all)
theorem sreg (f : Fields) : Statement (.sreg f) := fun h0 => (op_e2 f).trans (by have h : (f.fn == 0) = true := h0; clear h0; simp_all)
theorem swr (f : Fields) : Statement (.swr f) := fun h0 => (op_e3 f).trans (by have h : (f.fn == 0) = true := h0; clear h0; simp_all)
theorem bkpt (f : Fields) : Statement (.bkpt f) := fun h0 => (op_e4 f).trans (by have h : (f.fn == 0) = true := h0; clear h0; simp_all)
theorem mark (f : Fields) : Statement (.mark f) := fun h0 => (op_e5 f).trans (by have h : (f.fn == 0) = true := h0; clear h0; simp_all)
theorem smpl (f : Fields) : Statement (.smpl f) := fun h0 => (op_e5 f).trans (by have h : (f.fn == 1) = true := h0; clear h0; simp_all)
theorem tlbinvPage (f : Fields) : Statement (.tlbinvPage f) := fun h0 => (op_e6 f).trans (by have h : (f.fn == 0 && f.mod == 0) = true := h0; clear h0; simp_all)
theorem tlbinvCtx (f : Fields) : Statement (.tlbinvCtx f) := fun h0 => (op_e6 f).trans (by have h : (f.fn == 0 && f.mod == 1) = true := h0; clear h0; simp_all)
theorem tlbinvAll (f : Fields) : Statement (.tlbinvAll f) := fun h0 => (op_e6 f).trans (by have h : (f.fn == 0 && f.mod == 2) = true := h0; clear h0; simp_all)
theorem ctxsetNew (f : Fields) : Statement (.ctxsetNew f) := fun h0 => (op_e7 f).trans (by have h : (f.fn == 0 && f.mod == 0) = true := h0; clear h0; simp_all)
theorem ctxsetRoot (f : Fields) : Statement (.ctxsetRoot f) := fun h0 => (op_e7 f).trans (by have h : (f.fn == 0 && f.mod == 1) = true := h0; clear h0; simp_all)
theorem ctxsetKill (f : Fields) : Statement (.ctxsetKill f) := fun h0 => (op_e7 f).trans (by have h : (f.fn == 0 && f.mod == 2) = true := h0; clear h0; simp_all)
theorem wsetCore (f : Fields) : Statement (.wsetCore f) := fun h0 => (op_e7 f).trans (by have h : (f.fn == 1 && f.mod == 0) = true := h0; clear h0; simp_all)
theorem wsetSlice (f : Fields) : Statement (.wsetSlice f) := fun h0 => (op_e7 f).trans (by have h : (f.fn == 1 && f.mod == 1) = true := h0; clear h0; simp_all)
theorem wsetGran (f : Fields) : Statement (.wsetGran f) := fun h0 => (op_e7 f).trans (by have h : (f.fn == 1 && f.mod == 2) = true := h0; clear h0; simp_all)
theorem wsetPort (f : Fields) : Statement (.wsetPort f) := fun h0 => (op_e7 f).trans (by have h : (f.fn == 1 && f.mod == 3) = true := h0; clear h0; simp_all)
theorem wsetFn (f : Fields) : Statement (.wsetFn f) := fun h0 => (op_e7 f).trans (by have h : (f.fn == 1 && f.mod == 4) = true := h0; clear h0; simp_all)
theorem regionCoh (f : Fields) : Statement (.regionCoh f) := fun h0 => (op_e8 f).trans (by have h : (f.fn == 0 && f.mod == 0) = true := h0; clear h0; simp_all)
theorem regionSwm (f : Fields) : Statement (.regionSwm f) := fun h0 => (op_e8 f).trans (by have h : (f.fn == 0 && f.mod == 1) = true := h0; clear h0; simp_all)
theorem biassetDev (f : Fields) : Statement (.biassetDev f) := fun h0 => (op_e9 f).trans (by have h : (f.fn == 0 && f.mod == 0) = true := h0; clear h0; simp_all)
theorem biassetHost (f : Fields) : Statement (.biassetHost f) := fun h0 => (op_e9 f).trans (by have h : (f.fn == 0 && f.mod == 1) = true := h0; clear h0; simp_all)
theorem wsave (f : Fields) : Statement (.wsave f) := fun h0 => (op_ea f).trans (by have h : (f.fn == 0) = true := h0; clear h0; simp_all)
theorem wrest (f : Fields) : Statement (.wrest f) := fun h0 => (op_eb f).trans (by have h : (f.fn == 0) = true := h0; clear h0; simp_all)
theorem sppin (f : Fields) : Statement (.sppin f) := fun h0 => (op_ec f).trans (by have h : (f.fn == 0) = true := h0; clear h0; simp_all)
theorem spunpin (f : Fields) : Statement (.spunpin f) := fun h0 => (op_ec f).trans (by have h : (f.fn == 1) = true := h0; clear h0; simp_all)
theorem lqTailWrite (a0 : Nat) (a1 : Word) : Statement (.lqTailWrite a0 a1) := trivial
theorem launchAcceptResume (a0 : Nat) : Statement (.launchAcceptResume a0) := trivial
theorem taskEmissionResume (a0 : Nat) : Statement (.taskEmissionResume a0) := trivial
theorem dispatchDecision (a0 : Nat) : Statement (.dispatchDecision a0) := trivial
theorem waveFormation (a0 : Nat) (a1 : Nat) : Statement (.waveFormation a0 a1) := trivial
theorem formingWaveTimeout (a0 : Nat) : Statement (.formingWaveTimeout a0) := trivial
theorem issue (a0 : Nat) (a1 : Nat) : Statement (.issue a0 a1) := trivial
theorem yieldExpiry (a0 : Nat) : Statement (.yieldExpiry a0) := trivial
theorem teamRetire (a0 : Nat) : Statement (.teamRetire a0) := trivial
theorem gridDrain (a0 : Nat) : Statement (.gridDrain a0) := trivial
theorem neighbourAveraging : Statement .neighbourAveraging := trivial
theorem taskTransitArrival (a0 : Nat) : Statement (.taskTransitArrival a0) := trivial
theorem thermalMigrationScan (a0 : List (Nat × Nat)) : Statement (.thermalMigrationScan a0) := trivial
theorem preemption (a0 : Nat) : Statement (.preemption a0) := trivial
theorem teamRestore (a0 : Nat) (a1 : Nat) : Statement (.teamRestore a0 a1) := trivial
theorem contextSwitch (a0 : Nat) : Statement (.contextSwitch a0) := trivial
theorem l1SplitChange (a0 : Nat) : Statement (.l1SplitChange a0) := trivial
theorem deadlineFire (a0 : Nat) : Statement (.deadlineFire a0) := trivial
theorem binTimeout (a0 : Nat) (a1 : Nat) : Statement (.binTimeout a0 a1) := trivial
theorem tileEmit (a0 : Nat) (a1 : Nat) : Statement (.tileEmit a0 a1) := trivial
theorem scratchpadRefill (a0 : Nat) (a1 : Nat) : Statement (.scratchpadRefill a0 a1) := trivial
theorem missEntryGrant (a0 : Nat) : Statement (.missEntryGrant a0) := trivial
theorem missDataFill (a0 : Nat) (a1 : Nat) (a2 : ReadOutcome) : Statement (.missDataFill a0 a1 a2) := trivial
theorem tlbWalk (a0 : Nat) : Statement (.tlbWalk a0) := trivial
theorem dirReadRequest (a0 : Nat) (a1 : Nat) : Statement (.dirReadRequest a0 a1) := trivial
theorem dirOwnershipRequest (a0 : Nat) (a1 : Nat) : Statement (.dirOwnershipRequest a0 a1) := trivial
theorem dirBuntingRequest (a0 : Nat) (a1 : Nat) (a2 : BitVec 4) : Statement (.dirBuntingRequest a0 a1 a2) := trivial
theorem invalidation (a0 : Nat) (a1 : Nat) : Statement (.invalidation a0 a1) := trivial
theorem invalidationAck (a0 : Nat) (a1 : Nat) : Statement (.invalidationAck a0 a1) := trivial
theorem mergeRequest (a0 : Nat) : Statement (.mergeRequest a0) := trivial
theorem merge (a0 : Nat) : Statement (.merge a0) := trivial
theorem dirRecall (a0 : Nat) : Statement (.dirRecall a0) := trivial
theorem l1Eviction (a0 : Nat) (a1 : Nat) : Statement (.l1Eviction a0 a1) := trivial
theorem writebackAck (a0 : Nat) (a1 : Nat) : Statement (.writebackAck a0 a1) := trivial
theorem farOperation (a0 : FarOp) : Statement (.farOperation a0) := trivial
theorem barrierCredit (a0 : Credit) : Statement (.barrierCredit a0) := trivial
theorem monitorWake (a0 : Nat) : Statement (.monitorWake a0) := trivial
theorem monitorPoll (a0 : Nat) : Statement (.monitorPoll a0) := trivial
theorem hostRead (a0 : Nat) (a1 : Nat) : Statement (.hostRead a0 a1) := trivial
theorem hostWrite (a0 : Nat) (a1 : Nat) (a2 : BitVec 512) : Statement (.hostWrite a0 a1 a2) := trivial
theorem birsp (a0 : Nat) (a1 : Option (BitVec 2048)) : Statement (.birsp a0 a1) := trivial
theorem copySector (a0 : Nat) (a1 : ReadOutcome) : Statement (.copySector a0 a1) := trivial
theorem copyComplete (a0 : Nat) (a1 : Nat) : Statement (.copyComplete a0 a1) := trivial
theorem eventPulse (a0 : Nat) (a1 : Nat) : Statement (.eventPulse a0 a1) := trivial
theorem sinkMprogStart (a0 : Nat) (a1 : Nat) : Statement (.sinkMprogStart a0 a1) := trivial
theorem sinkCopySubmit (a0 : Nat) (a1 : Nat) : Statement (.sinkCopySubmit a0 a1) := trivial
theorem engineProgramFetch (a0 : Nat) (a1 : Engine) : Statement (.engineProgramFetch a0 a1) := trivial
theorem engineFault (a0 : Nat) (a1 : Engine) (a2 : Byte) (a3 : DWord) : Statement (.engineFault a0 a1 a2 a3) := trivial
theorem queryComplete (a0 : Nat) : Statement (.queryComplete a0) := trivial
theorem burgeeHold (a0 : Nat) : Statement (.burgeeHold a0) := trivial
theorem fabricFlitRoute (a0 : Flit) : Statement (.fabricFlitRoute a0) := trivial
theorem packetDeliver (a0 : Packet) : Statement (.packetDeliver a0) := trivial
theorem e2eAck (a0 : Nat) (a1 : Word) : Statement (.e2eAck a0 a1) := trivial
theorem retransmitTimeout (a0 : Nat) (a1 : Word) : Statement (.retransmitTimeout a0 a1) := trivial
theorem linkReplay (a0 : Nat) : Statement (.linkReplay a0) := trivial
theorem negotiationFlit (a0 : Nat) (a1 : Flit) : Statement (.negotiationFlit a0 a1) := trivial
theorem freezeFlit (a0 : Nat) (a1 : Flit) : Statement (.freezeFlit a0 a1) := trivial
theorem leaseRenewal (a0 : Nat) (a1 : RenewalAnswer) : Statement (.leaseRenewal a0 a1) := trivial
theorem leaseExpiry (a0 : Nat) : Statement (.leaseExpiry a0) := trivial
theorem leaseEmbargoEnd (a0 : Nat) : Statement (.leaseEmbargoEnd a0) := trivial
theorem portRetrain (a0 : Nat) (a1 : Bool) : Statement (.portRetrain a0 a1) := trivial
theorem phbHoldTimeout (a0 : Nat) : Statement (.phbHoldTimeout a0) := trivial
theorem channelDqRetrain (a0 : Nat) : Statement (.channelDqRetrain a0) := trivial
theorem freezeRingStep : Statement .freezeRingStep := trivial
theorem powerGovernorTick (a0 : Nat) : Statement (.powerGovernorTick a0) := trivial
theorem currentMonitorOver (a0 : Nat) : Statement (.currentMonitorOver a0) := trivial
theorem waveSample (a0 : Nat) (a1 : Nat) : Statement (.waveSample a0 a1) := trivial
theorem breakdownRecord (a0 : Nat) (a1 : List (BitVec 16)) : Statement (.breakdownRecord a0 a1) := trivial
theorem comparatorMatch (a0 : Nat) : Statement (.comparatorMatch a0) := trivial
theorem comparatorTimeout (a0 : Nat) : Statement (.comparatorTimeout a0) := trivial
theorem redundancyMismatch (a0 : Nat) (a1 : BitVec 4) : Statement (.redundancyMismatch a0 a1) := trivial
theorem trapServe (a0 : Nat) : Statement (.trapServe a0) := trivial
theorem heartbeatMissed : Statement .heartbeatMissed := trivial
theorem clockMonitor : Statement .clockMonitor := trivial
theorem supplyMonitor : Statement .supplyMonitor := trivial
theorem thermalTrip : Statement .thermalTrip := trivial
theorem freezePin : Statement .freezePin := trivial
theorem arrayUncorrected (a0 : BitVec 4) (a1 : BitVec 12) (a2 : DWord) : Statement (.arrayUncorrected a0 a1 a2) := trivial
theorem moduleQuiescent : Statement .moduleQuiescent := trivial
theorem hbOutToggle : Statement .hbOutToggle := trivial
theorem gdnCtlFrz (a0 : Word) : Statement (.gdnCtlFrz a0) := trivial
theorem gdnCtlThaw (a0 : Word) : Statement (.gdnCtlThaw a0) := trivial
theorem gdnCtlRel (a0 : Word) : Statement (.gdnCtlRel a0) := trivial
theorem gdnCtlAck (a0 : Word) : Statement (.gdnCtlAck a0) := trivial
theorem gdnHbWrite (a0 : Nat) (a1 : Word) : Statement (.gdnHbWrite a0 a1) := trivial
theorem gdnHbwinWrite (a0 : Word) : Statement (.gdnHbwinWrite a0) := trivial
theorem mxeCtlClrst (a0 : Nat) : Statement (.mxeCtlClrst a0) := trivial
theorem mxeCtlAbort (a0 : Nat) : Statement (.mxeCtlAbort a0) := trivial
theorem mxeCtlSkip (a0 : Nat) : Statement (.mxeCtlSkip a0) := trivial
theorem mxeCtlResume (a0 : Nat) : Statement (.mxeCtlResume a0) := trivial
theorem cpeCtlFail (a0 : Nat) (a1 : Byte) : Statement (.cpeCtlFail a0 a1) := trivial
theorem cpeCtlResume (a0 : Nat) : Statement (.cpeCtlResume a0) := trivial
theorem lcpCtlAbort (a0 : Nat) : Statement (.lcpCtlAbort a0) := trivial
theorem lcpCtlSkip (a0 : Nat) : Statement (.lcpCtlSkip a0) := trivial
theorem lcpCtlResume (a0 : Nat) : Statement (.lcpCtlResume a0) := trivial
theorem phbCtlMapgo (a0 : Nat) : Statement (.phbCtlMapgo a0) := trivial
theorem phbCtlRetrain (a0 : Nat) : Statement (.phbCtlRetrain a0) := trivial
theorem hlyVacWrite (a0 : Nat) (a1 : Word) : Statement (.hlyVacWrite a0 a1) := trivial
theorem hlyAgeWrite (a0 : Nat) (a1 : Word) : Statement (.hlyAgeWrite a0 a1) := trivial
theorem hlyAvgWrite (a0 : Nat) (a1 : Word) : Statement (.hlyAvgWrite a0 a1) := trivial
theorem coreL1Write (a0 : Nat) (a1 : Word) : Statement (.coreL1Write a0 a1) := trivial
theorem corePartWrite (a0 : Nat) (a1 : Nat) (a2 : Word) : Statement (.corePartWrite a0 a1 a2) := trivial
theorem sltEntCommit (a0 : Nat) (a1 : Nat) (a2 : Word) : Statement (.sltEntCommit a0 a1 a2) := trivial
theorem sltEntRevoke (a0 : Nat) (a1 : Nat) (a2 : Word) : Statement (.sltEntRevoke a0 a1 a2) := trivial
theorem lqCfgWrite (a0 : Nat) (a1 : Word) : Statement (.lqCfgWrite a0 a1) := trivial
theorem dbgCtlWrite (a0 : Nat) (a1 : Word) : Statement (.dbgCtlWrite a0 a1) := trivial
theorem pwrCapWrite (a0 : Word) : Statement (.pwrCapWrite a0) := trivial
theorem mbCmdAttest (a0 : Nat) : Statement (.mbCmdAttest a0) := trivial
theorem mbCmdLogread (a0 : Nat) : Statement (.mbCmdLogread a0) := trivial
theorem sltStatRead (a0 : Nat) : Statement (.sltStatRead a0) := trivial
theorem dbgDropRead (a0 : Nat) : Statement (.dbgDropRead a0) := trivial
theorem trpCntRead (a0 : Nat) : Statement (.trpCntRead a0) := trivial
theorem serrCntRead (a0 : Nat) : Statement (.serrCntRead a0) := trivial
theorem phbStatRead (a0 : Nat) : Statement (.phbStatRead a0) := trivial
theorem registerWrite (a0 : Agent) (a1 : Nat) (a2 : Nat) (a3 : DWord) : Statement (.registerWrite a0 a1 a2 a3) := trivial
theorem moduleReset : Statement .moduleReset := trivial
theorem bringupGuidon (a0 : BootRecord) (a1 : Bool) : Statement (.bringupGuidon a0 a1) := trivial
theorem bringupManagement (a0 : BootRecord) : Statement (.bringupManagement a0) := trivial
theorem bringupRecords (a0 : Bool) (a1 : BootRecord) (a2 : BootRecord) (a3 : ConfigRecord) : Statement (.bringupRecords a0 a1 a2 a3) := trivial
theorem bringupMemory (a0 : Option Nat) : Statement (.bringupMemory a0) := trivial
theorem bringupLinks (a0 : Nat) (a1 : List (Nat × Nat)) : Statement (.bringupLinks a0 a1) := trivial
theorem bringupContexts : Statement .bringupContexts := trivial
theorem matrixCommandComplete (a0 : Nat) : Statement (.matrixCommandComplete a0) := trivial
theorem hostSnoop (a0 : Nat) (a1 : Bool) : Statement (.hostSnoop a0 a1) := trivial
theorem levelCauseClear (a0 : Byte) : Statement (.levelCauseClear a0) := trivial
theorem vacateHoldExpiry (a0 : Nat) : Statement (.vacateHoldExpiry a0) := trivial
theorem phbBusyClear (a0 : Nat) (a1 : List (BitVec 12)) : Statement (.phbBusyClear a0 a1) := trivial
theorem flowOpen (a0 : Nat) (a1 : Nat) (a2 : Bool) (a3 : Bool) (a4 : Nat) : Statement (.flowOpen a0 a1 a2 a3 a4) := trivial
theorem flowClose (a0 : Nat) : Statement (.flowClose a0) := trivial

end Select

end Sys2Proof.Laws
end

