-- ==== Sys2Proof/Laws/Encode.lean ====
section
/-!
SUPPORT. Encode.lean: operand codes and the fields of a word, packed and unpacked (spec 03 R43, R44).
-/
namespace Sys2Proof.Laws

/-- The operand that an operand's code names is that operand. -/
theorem ofCode_code (o : Opnd) (h : o.named = true) : Opnd.ofCode o.code = o := by
  cases o with
  | reg n => revert n; decide +kernel
  | latch n => revert n; decide +kernel
  | pred n => revert n; decide +kernel
  | imm => rfl
  | zero => rfl
  | special k => revert k; decide +kernel
  | const => rfl
  | resv c => cases h
/-- The code of the operand that a code names is that code. -/
theorem code_ofCode (c : BitVec 8) : (Opnd.ofCode c).code = c := by revert c; decide +kernel
/-- A code names an operand, whatever the code. -/
theorem ofCode_inj {c d : BitVec 8} (h : Opnd.ofCode c = Opnd.ofCode d) : c = d := by
  rw [← code_ofCode c, ← code_ofCode d, h]

/-! ## Fields of a concatenation -/

theorem extract_low {w v : Nat} (x : BitVec w) (y : BitVec v) (b n : Nat) (h : b + n ≤ v) :
    (x ++ y).extractLsb' b n = y.extractLsb' b n := by
  apply BitVec.eq_of_getLsbD_eq
  intro i hi
  have : b + i < v := by omega
  simp [BitVec.getLsbD_append, this]
theorem extract_high {w v : Nat} (x : BitVec w) (y : BitVec v) (b n : Nat) (h : v ≤ b) :
    (x ++ y).extractLsb' b n = x.extractLsb' (b - v) n := by
  apply BitVec.eq_of_getLsbD_eq
  intro i hi
  have h1 : ¬ b + i < v := by omega
  have h2 : b + i - v = b - v + i := by omega
  simp [BitVec.getLsbD_append, h1, h2]
theorem extract_all {w : Nat} (x : BitVec w) : x.extractLsb' 0 w = x := by
  apply BitVec.eq_of_getLsbD_eq
  intro i hi
  simp [hi]
theorem bit_low {w v : Nat} (x : BitVec w) (y : BitVec v) (b : Nat) (h : b < v) : (x ++ y).getLsbD b = y.getLsbD b := by
  simp [BitVec.getLsbD_append, h]
theorem bit_high {w v : Nat} (x : BitVec w) (y : BitVec v) (b : Nat) (h : v ≤ b) : (x ++ y).getLsbD b = x.getLsbD (b - v) := by
  simp [BitVec.getLsbD_append, Nat.not_lt.2 h]

/-! ## The word -/

theorem bit_one (b : Bool) : (BitVec.ofBool b).getLsbD 0 = b := by cases b <;> rfl

theorem opField_pack (op : Byte) (f : Fields) : opField (packFields op f) = op :=
  (extract_high _ _ 88 8 (by decide)).trans (extract_all _)
theorem pack_fn (op : Byte) (f : Fields) : (packFields op f).extractLsb' 80 8 = f.fn :=
  (extract_low _ _ 80 8 (by decide)).trans <| (extract_high _ _ 80 8 (by decide)).trans (extract_all _)
theorem pack_stop (op : Byte) (f : Fields) : (packFields op f).getLsbD 79 = f.stop :=
  (bit_low _ _ 79 (by decide)).trans <| (bit_low _ _ 79 (by decide)).trans <| (bit_high _ _ 79 (by decide)).trans (bit_one _)
theorem pack_nw (op : Byte) (f : Fields) : (packFields op f).getLsbD 78 = f.nw :=
  (bit_low _ _ 78 (by decide)).trans <| (bit_low _ _ 78 (by decide)).trans <| (bit_low _ _ 78 (by decide)).trans <| (bit_high _ _ 78 (by decide)).trans (bit_one _)
theorem pack_lq (op : Byte) (f : Fields) : (packFields op f).extractLsb' 74 4 = f.lq :=
  (extract_low _ _ 74 4 (by decide)).trans <| (extract_low _ _ 74 4 (by decide)).trans <| (extract_low _ _ 74 4 (by decide)).trans <| (extract_low _ _ 74 4 (by decide)).trans <| (extract_high _ _ 74 4 (by decide)).trans (extract_all _)
theorem pack_pg (op : Byte) (f : Fields) : (packFields op f).extractLsb' 70 4 = f.pg :=
  (extract_low _ _ 70 4 (by decide)).trans <| (extract_low _ _ 70 4 (by decide)).trans <| (extract_low _ _ 70 4 (by decide)).trans <| (extract_low _ _ 70 4 (by decide)).trans <| (extract_low _ _ 70 4 (by decide)).trans <| (extract_high _ _ 70 4 (by decide)).trans (extract_all _)
theorem pack_d (op : Byte) (f : Fields) : (packFields op f).extractLsb' 62 8 = f.d.code :=
  (extract_low _ _ 62 8 (by decide)).trans <| (extract_low _ _ 62 8 (by decide)).trans <| (extract_low _ _ 62 8 (by decide)).trans <| (extract_low _ _ 62 8 (by decide)).trans <| (extract_low _ _ 62 8 (by decide)).trans <| (extract_low _ _ 62 8 (by decide)).trans <| (extract_high _ _ 62 8 (by decide)).trans (extract_all _)
theorem pack_a (op : Byte) (f : Fields) : (packFields op f).extractLsb' 54 8 = f.a.code :=
  (extract_low _ _ 54 8 (by decide)).trans <| (extract_low _ _ 54 8 (by decide)).trans <| (extract_low _ _ 54 8 (by decide)).trans <| (extract_low _ _ 54 8 (by decide)).trans <| (extract_low _ _ 54 8 (by decide)).trans <| (extract_low _ _ 54 8 (by decide)).trans <| (extract_low _ _ 54 8 (by decide)).trans <| (extract_high _ _ 54 8 (by decide)).trans (extract_all _)
theorem pack_b (op : Byte) (f : Fields) : (packFields op f).extractLsb' 46 8 = f.b.code :=
  (extract_low _ _ 46 8 (by decide)).trans <| (extract_low _ _ 46 8 (by decide)).trans <| (extract_low _ _ 46 8 (by decide)).trans <| (extract_low _ _ 46 8 (by decide)).trans <| (extract_low _ _ 46 8 (by decide)).trans <| (extract_low _ _ 46 8 (by decide)).trans <| (extract_low _ _ 46 8 (by decide)).trans <| (extract_low _ _ 46 8 (by decide)).trans <| (extract_high _ _ 46 8 (by decide)).trans (extract_all _)
theorem pack_c (op : Byte) (f : Fields) : (packFields op f).extractLsb' 38 8 = f.c.code :=
  (extract_low _ _ 38 8 (by decide)).trans <| (extract_low _ _ 38 8 (by decide)).trans <| (extract_low _ _ 38 8 (by decide)).trans <| (extract_low _ _ 38 8 (by decide)).trans <| (extract_low _ _ 38 8 (by decide)).trans <| (extract_low _ _ 38 8 (by decide)).trans <| (extract_low _ _ 38 8 (by decide)).trans <| (extract_low _ _ 38 8 (by decide)).trans <| (extract_low _ _ 38 8 (by decide)).trans <| (extract_high _ _ 38 8 (by decide)).trans (extract_all _)
theorem pack_mod (op : Byte) (f : Fields) : (packFields op f).extractLsb' 32 6 = f.mod :=
  (extract_low _ _ 32 6 (by decide)).trans <| (extract_low _ _ 32 6 (by decide)).trans <| (extract_low _ _ 32 6 (by decide)).trans <| (extract_low _ _ 32 6 (by decide)).trans <| (extract_low _ _ 32 6 (by decide)).trans <| (extract_low _ _ 32 6 (by decide)).trans <| (extract_low _ _ 32 6 (by decide)).trans <| (extract_low _ _ 32 6 (by decide)).trans <| (extract_low _ _ 32 6 (by decide)).trans <| (extract_low _ _ 32 6 (by decide)).trans <| (extract_high _ _ 32 6 (by decide)).trans (extract_all _)
theorem pack_imm (op : Byte) (f : Fields) : (packFields op f).extractLsb' 0 32 = f.imm :=
  (extract_low _ _ 0 32 (by decide)).trans <| (extract_low _ _ 0 32 (by decide)).trans <| (extract_low _ _ 0 32 (by decide)).trans <| (extract_low _ _ 0 32 (by decide)).trans <| (extract_low _ _ 0 32 (by decide)).trans <| (extract_low _ _ 0 32 (by decide)).trans <| (extract_low _ _ 0 32 (by decide)).trans <| (extract_low _ _ 0 32 (by decide)).trans <| (extract_low _ _ 0 32 (by decide)).trans <| (extract_low _ _ 0 32 (by decide)).trans <| (extract_low _ _ 0 32 (by decide)).trans <| extract_all _
theorem unpack_pack (op : Byte) (f : Fields) (hd : f.d.named = true) (ha : f.a.named = true) (hb : f.b.named = true)
    (hc : f.c.named = true) : unpackFields (packFields op f) = f := by
  simp only [unpackFields, pack_fn, pack_stop, pack_nw, pack_lq, pack_pg, pack_d, pack_a, pack_b, pack_c, pack_mod, pack_imm,
    ofCode_code, hd, ha, hb, hc]
/-- A word is the fields it holds. -/
theorem word_ext {x y : IWord} (ho : opField x = opField y) (hf : unpackFields x = unpackFields y) : x = y := by
  simp only [unpackFields, Fields.mk.injEq] at hf
  obtain ⟨h1, h2, h3, h4, h5, h6, h7, h8, h9, h10, h11⟩ := hf
  have bits : ∀ (b n : Nat), x.extractLsb' b n = y.extractLsb' b n → ∀ i, b ≤ i → i < b + n → x.getLsbD i = y.getLsbD i := by
    intro b n h i hb hi
    have := congrArg (fun z : BitVec n => z.getLsbD (i - b)) h
    have e : b + (i - b) = i := by omega
    have l : i - b < n := by omega
    simpa [e, l] using this
  apply BitVec.eq_of_getLsbD_eq
  intro i hi
  rcases Nat.lt_or_ge i 32 with h | h
  · exact bits 0 32 h11 i (by omega) (by omega)
  rcases Nat.lt_or_ge i 38 with h | h
  · exact bits 32 6 h10 i (by omega) (by omega)
  rcases Nat.lt_or_ge i 46 with h | h
  · exact bits 38 8 (ofCode_inj h9) i (by omega) (by omega)
  rcases Nat.lt_or_ge i 54 with h | h
  · exact bits 46 8 (ofCode_inj h8) i (by omega) (by omega)
  rcases Nat.lt_or_ge i 62 with h | h
  · exact bits 54 8 (ofCode_inj h7) i (by omega) (by omega)
  rcases Nat.lt_or_ge i 70 with h | h
  · exact bits 62 8 (ofCode_inj h6) i (by omega) (by omega)
  rcases Nat.lt_or_ge i 74 with h | h
  · exact bits 70 4 h5 i (by omega) (by omega)
  rcases Nat.lt_or_ge i 78 with h | h
  · exact bits 74 4 h4 i (by omega) (by omega)
  rcases Nat.lt_or_ge i 79 with h | h
  · have : i = 78 := by omega
    rw [this]; exact h3
  rcases Nat.lt_or_ge i 80 with h | h
  · have : i = 79 := by omega
    rw [this]; exact h2
  rcases Nat.lt_or_ge i 88 with h | h
  · exact bits 80 8 h1 i (by omega) (by omega)
  · exact bits 88 8 ho i (by omega) (by omega)
theorem ofCode_named_code (c : BitVec 8) : Opnd.ofCode (Opnd.ofCode c).code = Opnd.ofCode c := by rw [code_ofCode]
/-- Packing what a word holds gives the word back. -/
theorem pack_unpack (w : IWord) : packFields (opField w) (unpackFields w) = w := by
  apply word_ext (opField_pack _ _)
  simp only [unpackFields, pack_fn, pack_stop, pack_nw, pack_lq, pack_pg, pack_d, pack_a, pack_b, pack_c, pack_mod, pack_imm,
    code_ofCode]

end Sys2Proof.Laws
end

