-- ==== Sys2Proof/Laws/Program.lean ====
section
/-!
SUPPORT. Program.lean: an engine runs an instruction of its program as exec does.
-/

namespace Sys2Proof.Laws
open Machine


/-- What an engine program may hold runs as exec runs it, but for NOP. -/
theorem runProgram_exec (i : Instr) (e : Engine) (h : (shapeOf i).engines.contains e = true) (hn : ∀ g, i ≠ .nop g) (y : State) :
    exec i y = .next (runProgram i y) := by
  cases i with
  | cp f => rfl
  | cpblk f => rfl
  | evwait f => rfl
  | mldb f => rfl
  | mma f => rfl
  | accz f => rfl
  | accsc f => rfl
  | accld f => rfl
  | accst f => rfl
  | msel f => rfl
  | mnext f => rfl
  | mwaite f => rfl
  | msig f => rfl
  | mend f => rfl
  | mendLoop f => rfl
  | loopL f => rfl
  | endl f => rfl
  | emit f => rfl
  | permw f => rfl
  | lset f => rfl
  | lend f => rfl
  | nop f => exact absurd rfl (hn f)
  | _ => exact absurd h Bool.false_ne_true
end Sys2Proof.Laws
end

