-- ==== Sys2Proof/Laws/Traps.lean ====
section
/-!
SUPPORT. Traps.lean: threads of a wave that each become something, and what one privileged trap of several threads does.
-/
namespace Sys2Proof.Laws

open Machine

/-- Executing threads changed after the wave's threads have advanced. -/
theorem lanesBecome_of {s t : State} {f : Fields} {g : Lane → Thread} (hs : LanesSound s)
    (h1 : ∀ l ∈ s.execLanes f, t.thread? l.id = some (g l))
    (h2 : ∀ j, j ∉ (s.execLanes f).map Lane.id → t.thread? j = (advance s).thread? j) : LanesBecome f s t g := by
  obtain ⟨_, a2, a3⟩ := advance_spec s hs
  refine ⟨h1, fun l hl hg => ?_, fun k hk => ?_⟩
  · have : l.id ∉ (s.execLanes f).map Lane.id := by
      intro hm
      obtain ⟨l', hl', e⟩ := List.mem_map.1 hm
      have := lanes_inj hs (execLanes_sub hl') hl e
      subst this
      rw [execLanes_guard hl'] at hg; cases hg
    rw [h2 _ this, a2 l hl]
  · have : k ∉ (s.execLanes f).map Lane.id := by
      intro hm
      obtain ⟨l', hl', e⟩ := List.mem_map.1 hm
      exact hk (List.mem_map.2 ⟨l', execLanes_sub hl', e⟩)
    rw [h2 _ this, a3 k hk]
theorem lanesBecome_modThreads {s : State} {f : Fields} (hs : LanesSound s) (g : Thread → Thread) :
    LanesBecome f s ((advance s).modThreads ((s.execLanes f).map Lane.id) g) fun l => g (nextTh s l.th) := by
  obtain ⟨_, a2, _⟩ := advance_spec s hs
  refine lanesBecome_of hs (fun l hl => ?_) (fun j hj => thread?_modThreads_of_notMem _ _ _ _ hj)
  rw [thread?_modThreads _ _ _ (execLanes_nodup hs f), if_pos (List.mem_map.2 ⟨l, hl, rfl⟩), a2 l (execLanes_sub hl)]; rfl
theorem lanesBecome_fold {s : State} {f : Fields} (hs : LanesSound s) (g : Lane → Thread → Thread) :
    LanesBecome f s ((s.execLanes f).foldl (fun s l => s.modThread l.id (g l)) (advance s)) fun l => g l (nextTh s l.th) := by
  obtain ⟨_, a2, _⟩ := advance_spec s hs
  refine lanesBecome_of hs (fun l hl => ?_) (fun j hj => ?_)
  · rw [thread?_foldl_modThread Lane.id g _ _ (execLanes_nodup hs f) l hl, a2 l (execLanes_sub hl)]; rfl
  · exact thread?_foldl_of _ _ _ (fun u x hx => by rw [thread?_modThread, if_neg]; intro e; exact hj (List.mem_map.2 ⟨x, hx, e.symm⟩)) _
/-- A change of other parts of the state leaves what the lanes become. -/
theorem lanesBecome_congr {s t u : State} {f : Fields} {g : Lane → Thread} (h : LanesBecome f s t g) (e : ∀ j, u.thread? j = t.thread? j) :
    LanesBecome f s u g :=
  ⟨fun l hl => (e _).trans (h.1 l hl), fun l hl hg => (e _).trans (h.2.1 l hl hg), fun k hk => (e _).trans (h.2.2 k hk)⟩
theorem leastBy_some {α : Type} (key : α → Nat) (l : List α) (h : l ≠ []) : ∃ x, leastBy key l = some x := by
  cases l with
  | nil => exact absurd rfl h
  | cons a r =>
    unfold leastBy
    split
    · exact ⟨_, rfl⟩
    · split <;> exact ⟨_, rfl⟩
/-- After the instruction, and for a cause that is no decode cause, only R403's four registers are taken. -/
theorem privRegs_after {a : TrapAt} {v : TrapVal} (h : a.after = true ∨ (v.cause ≠ 0x01 ∧ v.cause ≠ 0x02)) :
    privRegs a v = { cause := v.cause, epc := a.epc, eaddr := v.eaddr, einfo := v.einfo } := by
  unfold privRegs
  rw [if_neg]
  rcases h with h | ⟨h, h'⟩ <;> simp_all
@[simp] theorem privRegs_cause (a : TrapAt) (v : TrapVal) : (privRegs a v).cause = v.cause := by unfold privRegs; split <;> rfl
@[simp] theorem privRegs_epc (a : TrapAt) (v : TrapVal) : (privRegs a v).epc = a.epc := by unfold privRegs; split <;> rfl
/-- The stop of a privileged trap's threads. -/
def stopWith (a : TrapAt) (v : TrapVal) (t : Thread) : Thread :=
  t.stoppedAt a.epc (if v.cause = 0x10 ∨ v.cause = 0x11 then some a.epc else t.resume)
/-- What the trap record of threads reports, lead being the lowest of them. -/
def privTrap (s : State) (ids : List Nat) (a : TrapAt) (v : TrapVal) (lead : Nat) : Trap :=
  let th := s.thread lead
  { regs := privRegs a v, team := th.team
    threads := ids, quad := s.quadOf th, slot := th.slot, lanes := ids.foldl (fun m t => m ||| (1#32 <<< (s.thread t).lane)) 0
    hidx := th.hidx, hoist := th.hoist, atSp := a.word.getLsbD 79, pair := a.pair, lineSlot := (slotOf a.pc).getD 0
    nested := a.nested, after := a.after, ordinal := (s.gridOf th).ordinal a.pc, lineage := th.lineage, time := s.dtime }
/-- One privileged trap of threads that no handler wave runs: each stops, and the trap is queued at their core. -/
theorem takePriv_spec {s : State} {ids : List Nat} {a : TrapAt} {v : TrapVal} (hn : ids.Nodup) (hne : ids ≠ [])
    (hh : ∀ k ∈ ids, (s.thread k).handlerOf = none) {c : Nat} (hc : ∀ k ∈ ids, s.coreOf (s.thread k) = c) :
    ∃ tr lead, lead ∈ ids ∧ TrapQueued s (takePriv s ids a v) c tr ∧
      tr.regs = privRegs a v ∧ tr.threads = ids ∧ tr.source = 0 ∧
      tr.team = (s.thread lead).team ∧ tr.after = a.after ∧ tr.time = s.dtime ∧
      ∀ j, (takePriv s ids a v).thread? j = if j ∈ ids then (s.thread? j).map (stopWith a v) else s.thread? j := by
  obtain ⟨lead, hl⟩ := leastBy_some (fun t => (s.thread t).hidx) ids hne
  have hm : lead ∈ ids := leastBy_mem _ _ _ hl
  unfold takePriv
  rw [hl]
  simp only [hh lead hm, Option.isSome_none, Bool.false_eq_true, if_false, hc lead hm]
  have hb : ∀ (g : Grid) (t : Thread) (x : Core), trappedBreak g t a x = { x with brk := (trappedBreak g t a x).brk } ∧
      ((trappedBreak g t a x).brk = x.brk ∨ (trappedBreak g t a x).brk = x.brk.map fun b => (b.1, b.2.1, b.2.2.1, b.2.2.2.1, true)) := by
    intro g t x
    unfold trappedBreak
    cases hx : x.brk with
    | none => exact ⟨rfl, .inl hx⟩
    | some b =>
      obtain ⟨b1, b2, b3, b4, b5⟩ := b
      simp only
      split
      · exact ⟨rfl, .inr rfl⟩
      · exact ⟨rfl, .inl hx⟩
  have hcore : ∀ d, ((((s.countTraps c 1).modCore c (trappedBreak (s.gridOf (s.thread lead)) (s.thread lead) a)).modThreads ids fun t =>
        { t with
          stopped := true, pc := a.epc, park := none, resv := none, awaits := none, reply := none, batch := none, pages := []
          resume := if v.cause = 0x10 || v.cause = 0x11 then some a.epc else t.resume }).modCore c
        fun x => { x with traps := x.traps ++ [privTrap s ids a v lead] }).core d =
      if d = c then { trappedBreak (s.gridOf (s.thread lead)) (s.thread lead) a { s.core c with trpCnt := satInc (s.core c).trpCnt 1 } with
        traps := (s.core c).traps ++ [privTrap s ids a v lead] } else s.core d := by
    intro d
    rw [core_modCore, core_sameT (sameT_modThreads _ _ _), core_sameT (sameT_modThreads _ _ _), core_modCore, core_modCore, if_pos rfl]
    unfold State.countTraps
    rw [core_modCore, core_modCore, if_pos rfl]
    split
    · rw [(hb _ _ _).1]
    · rfl
  refine ⟨privTrap s ids a v lead, lead, hm, ⟨?_, ?_, ?_, ?_⟩, ?_, ?_, ?_, ?_, ?_, ?_, ?_⟩
  · refine (hcore c).trans ?_
    rw [if_pos rfl]
    refine Eq.trans ?_ (congrArg (fun b => ({ s.core c with traps := (s.core c).traps ++ [privTrap s ids a v lead], trpCnt := satInc (s.core c).trpCnt 1, brk := b } : Core)) (congrArg Core.brk ((hcore c).trans (if_pos rfl))).symm)
    rw [(hb _ _ _).1]
  · have e := congrArg Core.brk ((hcore c).trans (if_pos rfl))
    have h2 := (hb (s.gridOf (s.thread lead)) (s.thread lead) { s.core c with trpCnt := satInc (s.core c).trpCnt 1 }).2
    exact h2.imp (fun h => Eq.trans e h) (fun h => Eq.trans e h)
  · intro d hd
    exact (hcore d).trans (if_neg hd)
  · exact sameTC_trans (sameTC_trans (sameTC_trans (sameTC_modCore s _ _) (sameTC_modCore _ _ _)) (sameTC_of_sameT (sameT_modThreads _ _ _))) (sameTC_modCore _ _ _)
  iterate 6 · rfl
  · intro j
    rw [thread?_modCore, thread?_modThreads _ _ _ hn]
    show (if j ∈ ids then (s.thread? j).map _ else s.thread? j) = _
    have : (fun t : Thread => { t with stopped := true, pc := a.epc, park := none, resv := none, awaits := none, reply := none, batch := none, pages := [], resume := if v.cause = 0x10 || v.cause = 0x11 then some a.epc else t.resume }) = stopWith a v := by
      funext t; unfold stopWith Thread.stoppedAt; simp only [Bool.or_eq_true, decide_eq_true_eq]
    rw [this]

theorem thread_active {s : State} (hs : LanesSound s) {l : Lane} (hl : l ∈ s.activeNow) : (advance s).thread l.id = nextTh s l.th :=
  thread_of_thread? ((advance_spec s hs).2.1 l hl)
theorem coreOf_sameT {s u : State} (h : SameButThreads s u) (t : Thread) : u.coreOf t = s.coreOf t := by unfold State.coreOf State.team; rw [h]
/-- One privileged trap of all executing threads, after the wave's threads have advanced. -/
theorem takePriv_advance {s : State} {f : Fields} {ids : List Nat} {a : TrapAt} {v : TrapVal} {c : Nat} (hs : LanesSound s)
    (hp : ids.Perm ((s.execLanes f).map Lane.id)) (hne : s.execLanes f ≠ [])
    (hh : ∀ l ∈ s.execLanes f, l.th.handlerOf = none ∧ s.coreOf l.th = c) :
    ∃ tr, TrapQueued s (takePriv (advance s) ids a v) c tr ∧
      tr.regs = privRegs a v ∧ tr.threads = ids ∧ tr.source = 0 ∧
      tr.after = a.after ∧ tr.time = s.dtime ∧
      LanesBecome f s (takePriv (advance s) ids a v) fun l => stopWith a v (nextTh s l.th) := by
  obtain ⟨a1, a2, _⟩ := advance_spec s hs
  have mem : ∀ k, k ∈ ids ↔ k ∈ (s.execLanes f).map Lane.id := fun k => hp.mem_iff
  have each : ∀ k ∈ ids, ∃ l ∈ s.execLanes f, (advance s).thread k = nextTh s l.th := by
    intro k hk
    obtain ⟨l, hl, rfl⟩ := List.mem_map.1 ((mem k).1 hk)
    exact ⟨l, hl, thread_active hs (execLanes_sub hl)⟩
  have hne' : ids ≠ [] := by
    intro e; rw [e] at hp
    exact hne (List.map_eq_nil_iff.1 hp.symm.eq_nil)
  obtain ⟨tr, lead, _, ⟨q1, q0, q2, q3⟩, h1, h2, h3, h4, h5, h6, h7⟩ := takePriv_spec (s := advance s) (a := a) (v := v) (c := c)
    (hp.nodup_iff.2 (execLanes_nodup hs f)) hne'
    (fun k hk => by obtain ⟨l, hl, e⟩ := each k hk; rw [e]; exact (hh l hl).1)
    (fun k hk => by obtain ⟨l, hl, e⟩ := each k hk; rw [e, coreOf_sameT a1]; exact (hh l hl).2)
  have hc : ∀ d, (advance s).core d = s.core d := fun d => core_sameT a1 d
  refine ⟨tr, ⟨?_, by rw [← hc c]; exact q0, ?_, sameTC_trans (sameTC_of_sameT a1) q3⟩, h1, h2, h3, h5, ?_, ?_⟩
  · rw [q1, hc]
  · intro d hd; rw [q2 d hd, hc]
  · rw [h6, a1]
  · refine lanesBecome_of hs (fun l hl => ?_) (fun j hj => ?_)
    · rw [h7, if_pos ((mem _).2 (List.mem_map.2 ⟨l, hl, rfl⟩)), a2 l (execLanes_sub hl)]; rfl
    · rw [h7, if_neg (fun h => hj ((mem _).1 h))]
/-- User-level traps of all executing threads, none of which escalates, after the wave's threads have advanced. -/
theorem takeUsers_advance {s : State} {f : Fields} {a : TrapAt} {v : Lane → TrapVal} (hs : LanesSound s)
    (he : ∀ l ∈ s.execLanes f, escalates s l.th = false) :
    let t := takeUsers (advance s) f a ((s.execLanes f).map fun l => (l, v l))
    SameButThreadsCores s t ∧ LanesBecome f s t fun l => userTrapped s f l a (v l) (nextTh s l.th) := by
  intro t
  obtain ⟨a1, a2, _⟩ := advance_spec s hs
  obtain ⟨h1, h2, h3⟩ := takeUsers_spec s (advance s) a1 f a ((s.execLanes f).map fun l => (l, v l))
    (by simpa [List.map_map, Function.comp_def] using execLanes_nodup hs f)
  refine ⟨sameTC_trans (sameTC_of_sameT a1) h1, lanesBecome_of hs (fun l hl => ?_) (fun j hj => ?_)⟩
  · have := h3 (l, v l) (List.mem_map.2 ⟨l, hl, rfl⟩) (he l hl)
    refine this.trans ?_
    rw [a2 l (execLanes_sub hl)]; rfl
  · refine h2 j fun e hm => ?_
    obtain ⟨l, hl, rfl⟩ := List.mem_map.1 hm
    intro e; exact hj (List.mem_map.2 ⟨l, hl, e⟩)
/-- A transfer whose targets all stand. -/
theorem transfer_done {s : State} {f : Fields} {target : State → Lane → DWord} {link : Bool} (hs : LanesSound s)
    (ht : ∀ l ∈ s.execLanes f, targetErr s l.th (target s l) = none) :
    SameButThreads s (transfer f target link s) ∧
      LanesBecome f s (transfer f target link s) fun l =>
        { (if link then putD64 f.d (succPc (s.wave s.curWave).pc) (nextTh s l.th) else nextTh s l.th) with pc := target s l } := by
  have hok : ((s.execLanes f).map fun l => (l, target s l, targetErr s l.th (target s l))) =
      (s.execLanes f).map fun l => (l, target s l, (none : Option Byte)) := List.map_congr_left fun l hl => by rw [ht l hl]
  have hfm : ∀ ls : List Lane, (ls.map fun l => (l, target s l, (none : Option Byte))).filterMap
      (fun e => e.2.2.map fun c => (e.1, ({ cause := c, eaddr := e.2.1 } : TrapVal))) = [] := by
    intro ls; induction ls with
    | nil => rfl
    | cons a r ih => simp [ih]
  have hfl : ∀ ls : List Lane, ((ls.map fun l => (l, target s l, (none : Option Byte))).filter fun e => e.2.2.isNone) =
      ls.map fun l => (l, target s l, (none : Option Byte)) := by
    intro ls; induction ls with
    | nil => rfl
    | cons a r ih => simp [ih]
  have e : transfer f target link s = (s.execLanes f).foldl (fun s' l => s'.modThread l.id fun t =>
      { (if link then putD64 f.d (succPc (s.wave s.curWave).pc) t else t) with pc := target s l }) (advance s) := by
    unfold transfer
    simp only [hok, hfm, hfl, List.foldl_map, takePrivs_nil]
  rw [e]
  exact ⟨sameT_trans (sameT_advance s) (sameT_foldl _ (fun _ _ => sameT_modThread _ _ _) _ _),
    lanesBecome_fold hs fun l t => { (if link then putD64 f.d (succPc (s.wave s.curWave).pc) t else t) with pc := target s l }⟩

end Sys2Proof.Laws
end

