-- ==== Sys2Proof/Laws/Returns.lean ====
section
/-!
SUPPORT. Returns.lean: the end of a handler wave, the threads that a served trap sets going, and threads added or retired.
-/
namespace Sys2Proof.Laws

open Machine

theorem thread?_modTeam (s : State) (k : Nat) (g : Team → Team) (j : Nat) : (s.modTeam k g).thread? j = s.thread? j := by
  rw [modTeam_eq]; rfl
theorem thread?_freeLineages (s : State) (j : Nat) : (freeLineages s).thread? j = s.thread? j := rfl
theorem thread?_releaseMonitor (m : Nat) (s : State) (j : Nat) : (releaseMonitor m s).thread? j = s.thread? j := by
  unfold releaseMonitor; split <;> rfl
theorem threads_releaseMonitor (m : Nat) (s : State) : (releaseMonitor m s).work = s.work ∧ (releaseMonitor m s).cores = s.cores := by
  unfold releaseMonitor; split <;> exact ⟨rfl, rfl⟩
/-- A thread that completes alone: the end of its wait ends no other's. -/
def Single (s : State) (t : Nat) : Prop := (s.thread t).batch = none
theorem thread?_leaveWait (t : Nat) (s : State) (hb : Single s t) (j : Nat) (h : j ≠ t) : (leaveWait t s).thread? j = s.thread? j := by
  unfold leaveWait
  unfold Single at hb
  simp only [hb]
  split
  · rw [thread?_releaseMonitor, thread?_modThread, if_neg h]
  · rw [thread?_modThread, if_neg h]
theorem leaveWait_cores (t : Nat) (s : State) (hb : Single s t) : (leaveWait t s).cores = s.cores := by
  have h : ∀ g, (s.modThread t g).cores = s.cores := fun g => sameT_cores (sameT_modThread s t g)
  unfold leaveWait
  unfold Single at hb
  simp only [hb]
  split
  · rw [(threads_releaseMonitor _ _).2, h]
  · exact h _
theorem single_leaveWait {t : Nat} {s : State} (hb : Single s t) {j : Nat} (hj : Single s j) : Single (leaveWait t s) j := by
  by_cases h : j = t
  · subst h
    have e : (leaveWait j s).thread? j = (s.thread? j).map fun x =>
        { x with park := none, arrival := none, asks := [], awaits := none, reply := none, batch := none, pages := [] } := by
      unfold leaveWait
      unfold Single at hb
      simp only [hb]
      split
      · rw [thread?_releaseMonitor, thread?_modThread, if_pos rfl]
      · rw [thread?_modThread, if_pos rfl]
    have e' : (leaveWait j s).thread j = ((leaveWait j s).thread? j).getD {} := rfl
    unfold Single; rw [e', e]; cases s.thread? j <;> rfl
  · have e : (leaveWait t s).thread j = ((leaveWait t s).thread? j).getD {} := rfl
    unfold Single; rw [e, thread?_leaveWait t s hb j h]; exact hj
theorem foldl_leaveWait (ids : List Nat) (s : State) (hb : ∀ t ∈ ids, Single s t) : (ids.foldl (fun s t => leaveWait t s) s).cores = s.cores ∧
    ∀ j, j ∉ ids → (ids.foldl (fun s t => leaveWait t s) s).thread? j = s.thread? j := by
  induction ids generalizing s with
  | nil => exact ⟨rfl, fun _ _ => rfl⟩
  | cons a r ih =>
    have ha := hb a List.mem_cons_self
    obtain ⟨i1, i2⟩ := ih (leaveWait a s) fun t ht => single_leaveWait ha (hb t (List.mem_cons_of_mem _ ht))
    refine ⟨i1.trans (leaveWait_cores a s ha), fun j hj => ?_⟩
    rw [List.foldl_cons, i2 j (fun h => hj (List.mem_cons_of_mem _ h)), thread?_leaveWait _ _ ha _ (fun h => hj (by rw [h]; exact List.mem_cons_self))]
/-- The entries of threads whose key is in no list of ids are those of before, after waits are left. -/
theorem tab_put_mem {α : Type} {t : Tab α} {k : Nat} {v : α} {e : Nat × α} (h : e ∈ Tab.put t k v) (hk : e.1 ≠ k) : e ∈ t := by
  rcases tab_mem_put h with rfl | h
  · exact absurd rfl hk
  · exact h
/-- Filtering leaves the entry of a key all of whose entries pass. -/
theorem tab_find_filter {α : Type} {t : Tab α} {k : Nat} {p : Nat × α → Bool} (h : ∀ e ∈ t, e.1 = k → p e = true) :
    Tab.find (t.filter p) k = Tab.find t k := by
  induction t with
  | nil => rfl
  | cons a r ih =>
    obtain ⟨j, w⟩ := a
    have ihr := ih fun e he => h e (List.mem_cons_of_mem _ he)
    rw [List.filter_cons]
    by_cases hj : j = k
    · have := h (j, w) List.mem_cons_self hj
      rw [if_pos this]; simp only [Tab.find, hj, if_true]
    · split
      · simp only [Tab.find, hj, if_false]; exact ihr
      · rw [ihr]; simp only [Tab.find, hj, if_false]
/-- A thread of no handler wave of the core: none of its entries names it. -/
def OffHandler (s : State) (c k : Nat) : Prop := ∀ e ∈ s.work.threads, e.1 = k → e.2.handlerOf ≠ some c
theorem modThread_threads (s : State) (t : Nat) (g : Thread → Thread) : ∀ e ∈ (s.modThread t g).work.threads, e.1 ≠ t → e ∈ s.work.threads := by
  intro e he hk
  unfold State.modThread at he
  split at he
  · exact tab_put_mem he hk
  · exact he
theorem leaveWait_threads (t : Nat) (s : State) (hb : Single s t) : ∀ e ∈ (leaveWait t s).work.threads, e.1 ≠ t → e ∈ s.work.threads := by
  intro e he hk
  unfold leaveWait at he
  unfold Single at hb
  simp only [hb] at he
  split at he
  · rw [(threads_releaseMonitor _ _).1] at he; exact modThread_threads _ _ _ e he hk
  · exact modThread_threads _ _ _ e he hk
theorem foldl_leaveWait_threads (ids : List Nat) (s : State) (hb : ∀ t ∈ ids, Single s t) : ∀ e ∈ (ids.foldl (fun s t => leaveWait t s) s).work.threads, e.1 ∉ ids → e ∈ s.work.threads := by
  induction ids generalizing s with
  | nil => intro e he _; exact he
  | cons a r ih =>
    intro e he hk
    rw [List.foldl_cons] at he
    have ha := hb a List.mem_cons_self
    have := ih _ (fun t ht => single_leaveWait ha (hb t (List.mem_cons_of_mem _ ht))) e he (fun h => hk (List.mem_cons_of_mem _ h))
    exact leaveWait_threads a s ha e this (fun h => hk (by rw [h]; exact List.mem_cons_self))
/-- No thread of a core's handler wave completes an instruction together with others. -/
def SingleHandler (s : State) (c : Nat) : Prop := ∀ e ∈ s.work.threads, e.2.handlerOf = some c → Single s e.1
/-- The end of a handler wave. -/
theorem endHandler_spec (c : Nat) (s : State) (hs : SingleHandler s c) :
    (endHandler c s).core c = { s.core c with serving := none, handlerFault := none, suspend := none } ∧
    (∀ d, d ≠ c → (endHandler c s).core d = s.core d) ∧
    (∀ e ∈ (endHandler c s).work.threads, e.2.handlerOf ≠ some c) ∧
    ∀ k, OffHandler s c k → (endHandler c s).thread? k = s.thread? k := by
  have hb : ∀ t ∈ (s.work.threads.filter fun e => e.2.handlerOf == some c).map (·.1), Single s t := by
    intro t ht
    obtain ⟨e, he, rfl⟩ := List.mem_map.1 ht
    obtain ⟨h1, h2⟩ := List.mem_filter.1 he
    exact hs e h1 (by simpa using h2)
  have hc := (foldl_leaveWait ((s.work.threads.filter fun e => e.2.handlerOf == some c).map (·.1)) s hb).1
  have hcores : (endHandler c s).cores = Tab.put s.cores c { s.core c with serving := none, handlerFault := none, suspend := none } := by
    show Tab.put (List.foldl (fun s t => leaveWait t s) s _).cores c
      { (Tab.get (List.foldl (fun s t => leaveWait t s) s _).cores c {} : Core) with serving := none, handlerFault := none, suspend := none } = _
    rw [hc]; rfl
  refine ⟨?_, fun d hd => ?_, fun e he => ?_, fun k hk => ?_⟩
  · unfold State.core; rw [hcores, tab_get_put, if_pos rfl]; rfl
  · unfold State.core; rw [hcores, tab_get_put, if_neg hd]
  · have : e ∈ (List.foldl (fun s t => leaveWait t s) s _).work.threads.filter fun e => e.2.handlerOf != some c := he
    simpa using (List.mem_filter.1 this).2
  · have hids : k ∉ (s.work.threads.filter fun e => e.2.handlerOf == some c).map (·.1) := by
      intro h
      obtain ⟨e, he, rfl⟩ := List.mem_map.1 h
      obtain ⟨h1, h2⟩ := List.mem_filter.1 he
      exact hk e h1 rfl (by simpa using h2)
    show Tab.find ((List.foldl (fun s t => leaveWait t s) s ((s.work.threads.filter fun e => e.2.handlerOf == some c).map (·.1))).work.threads.filter fun e => e.2.handlerOf != some c) k = _
    rw [tab_find_filter]
    · exact (foldl_leaveWait _ s hb).2 k hids
    · intro e he hek
      have := foldl_leaveWait_threads _ s hb e he (by rw [hek]; exact hids)
      simpa using hk e this hek
/-- Threads changed by one idempotent function. -/
theorem thread?_modThreads_idem (ts : List Nat) (g : Thread → Thread) (hg : ∀ t, g (g t) = g t) (s : State) (j : Nat) :
    (s.modThreads ts g).thread? j = if j ∈ ts then (s.thread? j).map g else s.thread? j := by
  unfold State.modThreads
  induction ts generalizing s with
  | nil => rfl
  | cons a r ih =>
    rw [List.foldl_cons, ih, thread?_modThread]
    by_cases h1 : j ∈ r
    · rw [if_pos h1, if_pos (List.mem_cons_of_mem _ h1)]
      split
      · rename_i h; rw [h]; cases s.thread? a with
        | none => rfl
        | some x => simp [hg]
      · rfl
    · rw [if_neg h1]
      by_cases h2 : j = a
      · subst h2; simp
      · simp [h1, h2]
theorem modThreads_handlers (ts : List Nat) (g : Thread → Thread) (hg : ∀ t, (g t).handlerOf = t.handlerOf) (s : State) (c : Nat)
    (h : ∀ e ∈ s.work.threads, e.2.handlerOf ≠ some c) : ∀ e ∈ (s.modThreads ts g).work.threads, e.2.handlerOf ≠ some c := by
  unfold State.modThreads
  induction ts generalizing s with
  | nil => exact h
  | cons a r ih =>
    rw [List.foldl_cons]
    apply ih
    intro e he
    unfold State.modThread at he
    split at he
    · rename_i x hx
      rcases tab_mem_put he with rfl | he
      · show (g x).handlerOf ≠ _
        rw [hg]; exact h (a, x) (tab_mem_of_find hx)
      · exact h e he
    · exact h e he
/-- Threads added in turn. -/
theorem addThreads_spec (th : Nat → Thread) (n : Nat) (s : State) :
    let t := (List.range n).foldl (fun s h => addThread (th h) s) s
    (t.mem = s.mem ∧ ∀ d, t.core d = s.core d) ∧ t.work.nextThread = s.work.nextThread + n ∧ (∀ h, h < n → t.thread? (s.work.nextThread + h) = some (th h)) ∧
    ∀ k, (k < s.work.nextThread ∨ s.work.nextThread + n ≤ k) → t.thread? k = s.thread? k := by
  induction n with
  | zero => exact ⟨⟨rfl, fun _ => rfl⟩, rfl, fun h hh => absurd hh (Nat.not_lt_zero _), fun _ _ => rfl⟩
  | succ n ih =>
    intro t
    have ht : t = addThread (th n) ((List.range n).foldl (fun s h => addThread (th h) s) s) := by
      show (List.range (n + 1)).foldl _ s = _
      rw [List.range_succ, List.foldl_append]; rfl
    obtain ⟨i0, i1, i2, i3⟩ := ih
    generalize (List.range n).foldl (fun s h => addThread (th h) s) s = u at *
    have hf : ∀ k, t.thread? k = if k = u.work.nextThread then some (th n) else u.thread? k := by
      intro k; rw [ht]; show Tab.find (Tab.put _ _ _) k = _; rw [tab_find_put]; rfl
    refine ⟨?_, ?_, fun h hh => ?_, fun k hk => ?_⟩
    · rw [ht]; exact ⟨i0.1, i0.2⟩
    · rw [ht]; show u.work.nextThread + 1 = _; rw [i1]; omega
    · rw [hf, i1]
      by_cases e : h = n
      · rw [if_pos (by omega), e]
      · rw [if_neg (by omega)]; exact i2 h (by omega)
    · rw [hf, i1, if_neg (by omega)]; exact i3 k (by omega)

theorem serving_quietEngine (team : Nat) (s : State) (c : Nat) : ((quietEngine team s).core c).serving = (s.core c).serving := by
  unfold quietEngine
  split
  · split
    · rw [core_modCore]; split
      · rename_i h; rw [h]
      · rfl
    · rfl
  · rfl
theorem thread?_quietEngine (team : Nat) (s : State) (j : Nat) : (quietEngine team s).thread? j = s.thread? j := by
  unfold quietEngine
  split
  · split <;> rfl
  · rfl
theorem cores_modTeam (s : State) (k : Nat) (g : Team → Team) : (s.modTeam k g).cores = s.cores := by rw [modTeam_eq]
/-- A thread of no spawn group and no wave retires: it is gone, and no trap in service changes. -/
theorem retireThread_alone {u : State} {k : Nat} {x : Thread} (e : Bool) (hx : u.thread? k = some x) (hg : x.group = none) (hb : x.batch = none)
    (hw : ∀ e ∈ u.work.waves, e.2.lanes.toList.contains (some k) = false) :
    (retireThread k e u).thread? k = none ∧ ∀ c, ((retireThread k e u).core c).serving = (u.core c).serving := by
  have hs : Single u k := by unfold Single State.thread Tab.get; unfold State.thread? at hx; rw [hx]; exact hb
  have hs' : (u.thread k).batch = none := hs
  have hwv : (leaveWait k u).work.waves = u.work.waves := by
    have h : ∀ g, (u.modThread k g).work.waves = u.work.waves := fun g => sameT_waves (sameT_modThread u k g)
    unfold leaveWait; simp only [hs']; split
    · rw [(threads_releaseMonitor _ _).1, h]
    · exact h _
  have hl : leaveWave k (leaveWait k u) = leaveWait k u := by
    unfold leaveWave
    rw [hwv]
    have : u.work.waves.filter (fun e => e.2.lanes.toList.contains (some k)) = [] :=
      List.filter_eq_nil_iff.2 fun e he => by rw [hw e he]; simp
    rw [this]; rfl
  have hc := leaveWait_cores k u hs
  unfold retireThread
  rw [hx]
  simp only [hl, hg, leaveGroup?]
  split
  · exact ⟨by rw [thread?_freeLineages]; show Tab.find (Tab.del _ _) _ = _; rw [tab_find_del, if_pos rfl],
      fun c => by show (Tab.get (leaveWait k u).cores c {}).serving = _; rw [hc]; rfl⟩
  · constructor
    · rw [thread?_freeLineages, thread?_quietEngine]
      unfold trimHoists
      rw [thread?_modTeam]
      show Tab.find (Tab.del _ _) _ = _; rw [tab_find_del, if_pos rfl]
    · intro c
      show ((quietEngine x.team _).core c).serving = _
      rw [serving_quietEngine]
      unfold trimHoists State.core
      rw [cores_modTeam]
      show (Tab.get (State.cores (State.modTeam _ _ _)) c {}).serving = _
      rw [cores_modTeam, hc]

end Sys2Proof.Laws
end

