-- ==== Sys2Proof/Tests/Slice0.lean ====
section
/-!
SUPPORT. Slice0.lean: tests of decoding and of single steps, whose expected values come from the spec or from hand
calculation, and for each statement with hypotheses a concrete state and operands that meet them.
-/
namespace Sys2Proof.Tests

open Machine

set_option Elab.async false
set_option linter.unusedSimpArgs false
set_option linter.unusedTactic false

/-! ## The state of the tests: one thread of one team on core 0, with one page of memory mapped -/

/-- A register file with values from v0 on. -/
def file (vs : List Word) : Vector Word 64 := Vector.ofFn fun k => vs.getD k.val 0
/-- Thread 0 with register values. -/
def thread0 (vs : List Word) : Thread := { pc := 0x10004, lineage := 1, v := file vs }
/-- Wave 0 with thread 0 alone. -/
def wave0 : Wave := { lanes := (Vector.replicate 32 none).setIfInBounds 0 (some 0), exm := 1, pc := 0x10004 }
/-- Team 0 of grid 0. -/
def team0 : Team := { core := some 0, hoists := [{ index := 0, quad := 0, slots := [0], launched := 1 }], lineage := 1 }
/-- Grid 0, running. -/
def grid0 : Grid :=
  { entry := 0x10004, codeBase := 0x10000, textBase := 0x10000, teams := 1, hoistThreads := 1, hoists := 1, gangTeams := 1, regs := 64
    scratchPages := 1, state := 2, emitted := 1, lineage := 1, shapeSec := some [] }
/-- A translation of the first 64 MiB of addresses to themselves, in memory mode m, with rights to read, write and execute. -/
def map0 (m : Nat) : TlbEntry := { pages := 16384, pte := BitVec.ofNat 64 (0x1D + 64 * m) }
/-- The machine with thread 0 issuing. -/
def one (th : Thread) (m : Nat := 0) : State :=
  { State.reset with
    ctxs := [(0, { st := .live, svc := true, uvec := 0x8000000000010004 })]
    cores := [(0, { tlb := [map0 m] })]
    work := { threads := [(0, th)], waves := [(0, wave0)], teams := [(0, team0)], grids := [(0, grid0)], lineages := [(1, { grid := some 0 })]
              nextThread := 1, nextWave := 1, nextTeam := 1, nextGrid := 1, nextLineage := 2 }
    cur := .wave 0 }
/-- The lane of thread 0. -/
def lane (s : State) : Lane := ⟨0, 0, s.thread 0⟩
/-- Register fields D v8, A v2, B v4, C v6 with FN, MOD and IMM, the guard p7. -/
def flds (fn : BitVec 8 := 0) (mod : BitVec 6 := 0) (imm : Word := 0) : Fields :=
  ⟨fn, true, false, 0, 7, .reg 8, .reg 2, .reg 4, .reg 6, mod, imm⟩
/-- The outcome is a next state that passes a check. -/
def nextIs (p : State → Bool) : Host.Outcome State Fault Refusal → Bool
  | .next t => p t
  | _ => false
/-- Two register words of a 64-bit value. -/
def wide (x : Nat) : List Word := [BitVec.ofNat 32 x, BitVec.ofNat 32 (x / 2 ^ 32)]

/-! ## Decoding and well-formedness -/

/-- Words that the spec writes out bit by bit, at least one of every section of the opcode table, decode to the instructions
they stand for. -/
theorem test_decode_integer :
    decodeTableWord 96 0x000001C20041144800000000 = some (.iadd ⟨0, false, false, 0, 7, .reg 8, .reg 1, .reg 4, .zero, 8, 0⟩) ∧
      decodeTableWord 96 0x000001C10000924A00000000 = some (.iadd ⟨0, false, false, 0, 7, .reg 4, .reg 0, .reg 2, .pred 1, 10, 0⟩) := by
  decide +kernel
theorem test_decode_float :
    decodeTableWord 96 0x200001C14080D44000000000 = some (.fadd ⟨0, false, false, 0, 7, .reg 5, .reg 2, .reg 3, .zero, 0, 0⟩) ∧
      decodeTableWord 96 0x200081C14080D44200000000 = some (.fadd ⟨0, true, false, 0, 7, .reg 5, .reg 2, .reg 3, .zero, 2, 0⟩) := by
  decide +kernel
theorem test_decode_lane :
    decodeTableWord 96 0x400381C1411415C000000001 = some (.shfl ⟨3, true, false, 0, 7, .reg 5, .reg 4, .imm, .special 5, 0, 1⟩) ∧
      decodeTableWord 96 0x490001C583C4054000000000 = some (.isect ⟨0, false, false, 0, 7, .reg 22, .reg 15, .reg 16, .reg 21, 0, 0⟩) := by
  decide +kernel
theorem test_decode_memory :
    decodeTableWord 96 0x600281C20114544000000040 = some (.ld ⟨2, true, false, 0, 7, .reg 8, .reg 4, .zero, .zero, 0, 0x40⟩) ∧
      decodeTableWord 96 0x604281C20114544600000040 = some (.ld ⟨0x42, true, false, 0, 7, .reg 8, .reg 4, .zero, .zero, 6, 0x40⟩) ∧
      decodeTableWord 96 0x6B0281D44502D44000000004 = some (.red ⟨2, true, false, 0, 7, .zero, .reg 20, .reg 11, .zero, 0, 4⟩) ∧
      decodeTableWord 96 0x740081D44114544000000000 = some (.bar ⟨0, true, false, 0, 7, .zero, .reg 4, .zero, .zero, 0, 0⟩) := by
  decide +kernel
theorem test_decode_engines :
    decodeTableWord 96 0x900081D44194544200800002 = some (.cp ⟨0, true, false, 0, 7, .zero, .reg 6, .zero, .zero, 2, 0x00800002⟩) ∧
      decodeTableWord 96 0x900081D45454544290C00006 = some (.cp ⟨0, true, false, 0, 7, .zero, .zero, .zero, .zero, 2, 0x90C00006⟩) ∧
      decodeTableWord 96 0xA10081D454545442027FC003 = some (.mma ⟨0, true, false, 0, 7, .zero, .zero, .zero, .zero, 2, 0x027FC003⟩) := by
  decide +kernel
theorem test_decode_work :
    decodeTableWord 96 0xB90081D45454544000000000 = some (.exit ⟨0, true, false, 0, 7, .zero, .zero, .zero, .zero, 0, 0⟩) ∧
      decodeTableWord 96 0xBB0181544502144000000000 = some (.cqpush ⟨1, true, false, 0, 5, .zero, .reg 20, .reg 8, .zero, 0, 0⟩) ∧
      decodeTableWord 96 0xBD0081C18114528000000000 = some (.poola ⟨0, true, false, 0, 7, .reg 6, .reg 4, .zero, .pred 2, 0, 0⟩) := by
  decide +kernel
theorem test_decode_sequences :
    decodeTableWord 96 0xC00081C2C102850000000440 = some (.sample ⟨0, true, false, 0, 7, .reg 11, .reg 4, .reg 10, .reg 20, 0, 0x440⟩) ∧
      decodeTableWord 96 0xC20081C24101544100000000 = some (.seqcommitConf ⟨0, true, false, 0, 7, .reg 9, .reg 4, .reg 5, .zero, 1, 0⟩) := by
  decide +kernel
theorem test_decode_control :
    decodeTableWord 96 0xC80080545454544000000004 = some (.bra ⟨0, true, false, 0, 1, .zero, .zero, .zero, .zero, 0, 4⟩) ∧
      decodeTableWord 96 0xCD0001D45454544000000000 = some (.nop ⟨0, false, false, 0, 7, .zero, .zero, .zero, .zero, 0, 0⟩) := by
  decide +kernel
theorem test_decode_traps :
    decodeTableWord 96 0xE00081D440D45441000000E5 = some (.trapPriv ⟨0, true, false, 0, 7, .zero, .reg 3, .zero, .zero, 1, 0xE5⟩) ∧
      decodeTableWord 96 0xE10181D45454544100000000 = some (.eretEDone ⟨1, true, false, 0, 7, .zero, .zero, .zero, .zero, 1, 0⟩) ∧
      decodeTableWord 96 0xE30081D44094544000000021 = some (.swr ⟨0, true, false, 0, 7, .zero, .reg 2, .zero, .zero, 0, 0x21⟩) ∧
      decodeTableWord 96 0xE50181D45454544000000000 = some (.smpl ⟨1, true, false, 0, 7, .zero, .zero, .zero, .zero, 0, 0⟩) := by
  decide +kernel
theorem test_decode_system :
    decodeTableWord 96 0xE60081D44101C20000000000 = some (.tlbinvPage ⟨0, true, false, 0, 7, .zero, .reg 4, .reg 7, .reg 8, 0, 0⟩) ∧
      decodeTableWord 96 0xE70181C18101C20200000000 = some (.wsetGran ⟨1, true, false, 0, 7, .reg 6, .reg 4, .reg 7, .reg 8, 2, 0⟩) ∧
      decodeTableWord 96 0xE90081C18101D44100000000 = some (.biassetHost ⟨0, true, false, 0, 7, .reg 6, .reg 4, .reg 7, .zero, 1, 0⟩) ∧
      decodeTableWord 96 0xEC0181C18202544000000000 = some (.spunpin ⟨1, true, false, 0, 7, .reg 6, .reg 8, .reg 9, .zero, 0, 0⟩) := by
  decide +kernel
/-- EXIT without S does not decode (spec 03, the example line). -/
theorem test_decode_refuses : decodeTableWord 96 0xB90001D45454544000000000 = none := by decide +kernel
/-- Addresses of slots (spec 03 R39). -/
theorem test_slots : slotOf 0x10004 = some 0 ∧ slotOf 0x10010 = some 1 ∧ slotOf 0x10034 = some 4 ∧ slotOf 0x10000 = none := by
  decide +kernel

/-! Ill-formed terms, one for each check. -/

/-- A form selector that is not the constructor's. -/
theorem test_ill_form : wellFormed (.spunpin { flds with stop := true }) = false := by decide +kernel
/-- An operand code that names nothing. -/
theorem test_ill_operand : wellFormed (.iadd { flds with d := .resv 0x60 }) = false := by decide +kernel
/-- A field that a row requires to be zero. -/
theorem test_ill_zero : wellFormed (.iadd { flds with c := .reg 3 }) = false := by decide +kernel
/-- An instruction that must carry S. -/
theorem test_ill_stop : wellFormed (.exit ⟨0, false, false, 0, 7, .zero, .zero, .zero, .zero, 0, 0⟩) = false := by decide +kernel
/-- An event index out of range. -/
theorem test_ill_event : wellFormed (.issue 128 0) = false ∧ wellFormed (.issue 127 4) = false ∧ wellFormed (.issue 127 3) = true := by
  decide +kernel

/-! ## Witnesses: a concrete state and operands for the hypotheses of each statement -/

theorem witness_EncodeThenDecode : wellFormed (.iadd { flds with c := .zero }) = true ∧ (fieldsOf (.iadd flds)).isSome = true := by
  decide +kernel
theorem witness_DecodeThenEncode : decodeWord {} 0xB90081D45454544000000000 =
    .ok (.exit ⟨0, true, false, 0, 7, .zero, .zero, .zero, .zero, 0, 0⟩) := by decide +kernel
theorem witness_ExecIsRun : fieldsOf (.iadd flds) = some flds := rfl

/-- The spec's IADD placed for the next step, one cycle on, and the machine once its line is entered. -/
def placed : State := State.reset.withFetchWord 96 0x000001C20041144800000000
def entered : State := (enterLine ⟨0, 0, true⟩ (atIssue (advanceTime placed) 0)).2
def iadd0 : Fields := ⟨0, false, false, 0, 7, .reg 8, .reg 1, .reg 4, .zero, 8, 0⟩
theorem witness_StepRunsDecoded :
    nextStep (tick placed) = .issue 0 0 ∧ placed.guidon.frozen = false ∧ pickWave (advanceTime placed) 0 0 = some 0 ∧
      rejoin 0 (advanceTime placed) = advanceTime placed ∧ IssuesAlone (rejoin 0 (advanceTime placed)) 0 (.iadd iadd0) entered ∧ entered.arraysHere = .clean ∧ fieldsOf (.iadd iadd0) = some iadd0 ∧
      cmpGate (.iadd iadd0) iadd0 entered = none := by
  have h : pickWave (advanceTime placed) 0 0 = some 0 := by decide +kernel
  have hr : rejoin 0 (advanceTime placed) = advanceTime placed := by decide +kernel
  refine ⟨by decide +kernel, by decide +kernel, h, hr, hr.symm ▸ ?_, by decide +kernel, rfl, by decide +kernel⟩
  refine ⟨(activeLanes (chosen (advanceTime placed) 0)).headD ⟨0, 0, {}⟩, 0, lineFor 0x000001C20041144800000000, ?_⟩
  decide +kernel

theorem witness_FrozenStep : ({ State.reset with guidon := { frozen := true } } : State).agenda = [] := rfl
/-- The step of the placed IADD answers a next state in which v8 is the sum of v1 and v4, from a state in canonical form. -/
theorem witness_MemoryCanonicalStep :
    placed.memOk ∧ nextIs (fun t => (t.thread 0).v.getD 8 0 == 0 && (t.thread 0).pc == 0x10010) (step placed) = true := by
  dsimp only [State.memOk]; decide +kernel

/-- Thread 0 with numbers in v2, v4 and v6; addresses of 64 bits stand in a register and the next one. -/
def s1 : State := one (thread0 ([5, 0] ++ wide 0x100 ++ wide 0x7FFFFFFF ++ wide 9))
/-- TRP for an integer instruction, and S. -/
def trp : Fields := flds 0 4
theorem witness_lane : LanesSound s1 ∧ s1.execLanes flds = [lane s1] ∧ s1.execLanes { flds with pg := 0 } = [] ∧
    s1.activeNow = [lane s1] ∧ guardOk { flds with pg := 0 } (lane s1).th = false ∧ escalates s1 (lane s1).th = false := by
  dsimp only [LanesSound]; decide +kernel

/-! ### Lane instructions: an executing thread with a result, one with a trap, one whose guard is false -/

/-- A 32-bit integer instruction, with TRP. -/
def f32t : Fields := flds 0 0x18
theorem witness_AddSubtract : LanesSound s1 ∧ s1.execLanes f32t = [lane s1] ∧
    (delivered f32t (iw f32t) f32t.uns (ityped s1 f32t (lane s1) f32t.a + ityped s1 f32t (lane s1) f32t.b)).isTrap = true ∧
    (delivered f32t (iw f32t) f32t.uns (ityped s1 f32t (lane s1) f32t.a - ityped s1 f32t (lane s1) f32t.b)).isTrap = false ∧
    guardOk { f32t with pg := 0 } (lane s1).th = false ∧ escalates s1 (lane s1).th = false := by
  dsimp only [LanesSound]; decide +kernel
theorem witness_Multiply : LanesSound s1 ∧ s1.execLanes f32t = [lane s1] ∧
    (delivered f32t (iw f32t) f32t.uns (ityped s1 f32t (lane s1) f32t.a * ityped s1 f32t (lane s1) f32t.b)).isTrap = true ∧
    (delivered (flds 0 8) 32 false (ityped s1 (flds 0 8) (lane s1) f32t.a * ityped s1 (flds 0 8) (lane s1) f32t.b)).isTrap = false := by
  dsimp only [LanesSound]; decide +kernel
theorem witness_MinMaxAbsNeg :
    (ityped s1 f32t (lane s1) f32t.a = 0x100 ∧ ityped s1 f32t (lane s1) f32t.b = 0x7FFFFFFF) ∧
      (iw f32t = 32 ∧ (2147483648 : Int) = ((-((2 ^ 31 : Nat) : Int)).natAbs : Int) ∧ f32t.itrp = true) ∧
      ((flds 0 0x28).itrp = false ∧ (flds 0 0x28).sat = true) ∧ ((flds 0 8).itrp = false ∧ (flds 0 8).sat = false) ∧
      opField 0x020201C20001144A00000000 = 2 ∧ (unpackFields 0x020201C20001144A00000000).fn = 2 ∧
      (unpackFields 0x020201C20001144A00000000).uns = true := by decide +kernel
theorem witness_LogicShift : LanesSound s1 ∧ s1.execLanes f32t = [lane s1] ∧
    (delivered f32t 32 false (ityped s1 f32t (lane s1) f32t.a * 2 ^ 64)).isTrap = true := by
  dsimp only [LanesSound]; decide +kernel
theorem witness_BitFieldsSelectMove : LanesSound s1 ∧ s1.execLanes f32t = [lane s1] ∧
    (ibits f32t (bfxPat 32 false (ipat s1 f32t (lane s1) f32t.a) 0x0808)).isTrap = false := by
  dsimp only [LanesSound]; decide +kernel
theorem witness_DeliverRule : deliver 256 8 true false true = none ∧ deliver 255 8 true false true = some 255 ∧
    deliver (-129) 8 false true false = some 0x80 ∧ deliver 128 8 false false false = some 0x80 := by decide +kernel
theorem witness_BitFieldBits : (let ctl : Word := 0x1C08; (ctl.extractLsb' 0 8).toNat = 8 ∧ (ctl.extractLsb' 8 8).toNat = 28) ∧
    (0x80000001 : Nat) < 2 ^ 32 ∧ leadZeros (bitsOf 32 0x80000001).reverse = 0 := by decide +kernel
theorem witness_FloatingPoint : LanesSound s1 ∧ s1.execLanes flds = [lane s1] ∧ flds.ftrp = false ∧
    (fdeliver flds (fAdd (fmtOf 0) 0 false (fsrc s1 flds (lane s1) flds.a) (fsrc s1 flds (lane s1) flds.b))).isTrap = false ∧
    (fdeliver (flds 0 2) (fAdd (fmtOf 0) 0 false 0x7F7FFFFF 0x7F7FFFFF)).isTrap = true ∧
    (cvtType 0 = .flt fp32 ∧ cvtType 1 = .flt fp16) ∧ (cvtType 0 = .flt fp32 ∧ cvtType 5 = .int 8 false) ∧
    (cvtType 7 = .int 32 false ∧ cvtType 0 = .flt fp32) ∧ (cvtType 12 = .int 64 true ∧ cvtType 9 = .int 8 true) ∧ 13 < 14 ∧
    (FVal.nan true).isNan = true ∧ ((FVal.fin true 1 0).isNan || (FVal.inf false).isNan) = false := by
  dsimp only [LanesSound]; decide +kernel
/-- The bounds of the rows of R111: the largest exponent, the smallest normal and the signalling and quiet NaNs of f16. -/
theorem witness_FclassBits :
    (0x7C00 / 2 ^ 10 % 2 ^ 5 = 2 ^ 5 - 1 ∧ 0x7C00 % 2 ^ 10 = 0) ∧ (0x0400 / 2 ^ 10 % 2 ^ 5 = 1 ∧ 0x0400 % 2 ^ 10 = 0) ∧
      (0x03FF / 2 ^ 10 % 2 ^ 5 = 0 ∧ 0x03FF % 2 ^ 10 ≠ 0) ∧ ((0x7DFF % 2 ^ 10).testBit 9 = false ∧ 0x7DFF % 2 ^ 10 ≠ 0) ∧
      ((0x7E00 % 2 ^ 10).testBit 9 = true ∧ 0x7E00 / 2 ^ 10 % 2 ^ 5 = 2 ^ 5 - 1) ∧ (flds 1).fn.toNat = 1 := by decide +kernel
theorem witness_RoundingAndSpecialValues : (fp16.read false 0x7C01).isNan = true ∧ (fp16.read false 0x7C00).isNan = false ∧
    0x7C01 < 2 ^ (fp16.eb + fp16.fb + 1) ∧ (fp32.read true 0xFFC00000).isNan = true := by decide +kernel
theorem witness_LaneIndexSpatial : LanesSound s1 ∧ s1.execLanes flds = [lane s1] ∧
    (wave0.lanes.getD 0 none = some 0 ∧ wave0.lanes.getD 1 none = none) ∧
    (s1.present wave0 = [lane s1] ∧ (lane s1).th.hwave = 0 ∧ (lane s1).th.hlane = 0) ∧
    (2 ^ 31 ≤ (0x80000000 : Word).toNat ∧ (0x7FFFFFFF : Word).toNat < 2 ^ 31 ∧ ((#v[5, 7, 3, 1] : Vector Word 4).get 3).toNat = 1) ∧
    (popBelow (0xF0 &&& 0xA50) 32 = 2 ∧ ((0xF0 &&& 0xA50 : Word).getLsbD 6 = true ∧ popBelow (0xF0 &&& 0xA50) 6 = 1)) := by
  dsimp only [LanesSound]; decide +kernel
theorem witness_NarrowFormats : LanesSound s1 ∧ s1.execLanes flds = [lane s1] ∧
    (8 % 32 + 8 % 32 ≤ 16) ∧ 16 < (9 + 32) % 32 + 8 % 32 ∧ (31 % 32 + 31 % 32 - 16) > 31 ∧ packScale 1 (127, 0) (1, 300) = 254 ∧
    packScale 1 (127, 0) (1, 0) < 254 ∧ (255 : Nat) = 255 ∧ 3 < 4 := by
  dsimp only [LanesSound]; decide +kernel

/-- A wave of threads 0 and 1 in lanes 0 and 1; R21's launch gives them t.hidx 0 and 1. -/
def two (vs ws : List Word) : State :=
  let s := one (thread0 vs)
  { s with
    work := { s.work with
      threads := [(0, thread0 vs), (1, { thread0 ws with hidx := 1, lane := 1 })]
      waves := [(0, { wave0 with lanes := ((Vector.replicate 32 none).setIfInBounds 0 (some 0)).setIfInBounds 1 (some 1), exm := 3 })]
      teams := [(0, { team0 with hoists := [{ index := 0, quad := 0, slots := [0], launched := 2 }] })]
      grids := [(0, { grid0 with hoistThreads := 2 })], nextThread := 2 } }
def s2 : State := two [] [0, 0, 3, 0]
/-- The same with shape entries for its grid. -/
def s2s : State := s2.modCore 0 fun k => { k with shapes := some (0, []) }
theorem witness_MasksAndShapes : LanesSound s2 ∧ (s2.wave? s2.curWave).isSome = true ∧
    (byHidx (s2s.execLanes flds)).length = 2 ∧ LanesSound s2s ∧ (s2s.core 0).shapes = some (0, []) ∧
    src32 s2 flds (lane s2) flds.a = 0 := by
  dsimp only [LanesSound]; decide +kernel

/-- SHFL by register with a mask of lanes 0 and 1 in v6, in both threads. -/
def s2x : State := two [0, 0, 5, 0, 1, 0, 3] [0, 0, 6, 0, 0, 0, 3]
def shflArr : State :=
  arrive (flds 3) 0 (fun l => ⟨.shfl (flds 3), src32 s2x (flds 3) l flds.c, (src32 s2x (flds 3) l flds.a).setWidth 64,
    if (flds 3).mod.getLsbD 5 then ((flds 3).mod.extractLsb' 0 5).setWidth 32 else src32 s2x (flds 3) l flds.b, true⟩) s2x
/-- VOTE of an operand and REDW, with the same mask. -/
def voteArr : State := arrive (flds 3) 0 (fun l => ⟨.vote (flds 3), src32 s2x (flds 3) l flds.c, (src32 s2x (flds 3) l flds.a).setWidth 64, 0, true⟩) s2x
def redwArr : State := arrive (flds 3) 0 (fun l => ⟨.redw (flds 3), src32 s2x (flds 3) l flds.c, (src32 s2x (flds 3) l flds.a).setWidth 64, 0, true⟩) s2x
def matchArr : State := arrive (flds 3) 0 (fun l => ⟨.matchL (flds 3), src32 s2x (flds 3) l flds.c, srcVal s2x (flds 3) false false l flds.a, 0, true⟩) s2x
/-- The premises of WaveSync about an arrival. -/
def Whole (A : State) : Prop :=
  ∃ k, (A.work.threads.map (·.1)).Nodup ∧
    dedup ((A.work.threads.filter fun e => atWaveSync e.2 && e.2.team == 0).map fun e => e.2.syncKey) = [k] ∧
    syncGroup A k ≠ [] ∧ (∀ e ∈ syncGroup A k, waveMismatch A k (syncGroup A k) e.2.mask = false) ∧
    ∀ e ∈ syncGroup A k, (maskLanes e.2.mask).all (fun h => (syncGroup A k).any fun x => x.2.hlane == h) = true
/-- The key at which the arrivals of a state wait. -/
def keyOf (A : State) : SyncKey :=
  ((A.work.threads.filter fun e => atWaveSync e.2 && e.2.team == 0).map fun e => e.2.syncKey).headD (s2x.thread 0).syncKey
theorem witness_WaveSync : Whole shflArr ∧ Whole voteArr ∧ Whole redwArr ∧ Whole matchArr ∧ s2x.curTeam = 0 := by
  refine ⟨⟨keyOf shflArr, ?_⟩, ⟨keyOf voteArr, ?_⟩, ⟨keyOf redwArr, ?_⟩, ⟨keyOf matchArr, ?_⟩, ?_⟩ <;> decide +kernel
theorem witness_ExchangeValues : (⟨.shfl (flds 3), 3, 5, 1, true⟩ : Arrival).ins = .shfl (flds 3) ∧ ([1, 2] : List Word) ≠ [] ∧
    1 < ([1, 2] : List Word).length ∧ 31 < 32 := by decide +kernel

/-! ### Memory -/

/-- Thread 0 with the address 0x100 in v2 and v3, 7 in v4 and v5 and 9 in v6 and v7, in memory mode m. -/
def at100 (m : Nat) : State := one (thread0 ([5, 0] ++ wide 0x100 ++ wide 7 ++ wide 9)) m
/-- The line at 0x100 in the L1 of core 0, in a state. -/
def held (st : L1State) (m : Nat := 0) : State :=
  let s := at100 m
  { s.modCore 0 (fun k => { k with l1 := [(0x100, { st := st, valid := 15 })] }) with
    home := { s.home with dir := [(0x100, { st := .x, sharers := 1, owner := 0 })] } }
/-- LD and its like at offset 0: FN 2 is a 32-bit load. -/
def ld32 : Fields := flds 2
def all3 : Need := { r := true, w := true, rmw := true }
theorem witness_GlobalLoads :
    LanesSound (held .e) ∧ (held .e).home.hostHeld = [] ∧ (held .e).execLanes ld32 = [lane (held .e)] ∧
    PlainAt ld32 (held .e) { r := true } (szBytes ld32) (lane (held .e)) ⟨0x100, 0⟩ ∧ AtHand (held .e) ⟨0x100, 0⟩ (szBytes ld32) ∧
    ld32.sp = 0 ∧ PlainAt ld32 (held .e) { r := true } (pairBytes ld32) (lane (held .e)) ⟨0x100, 0⟩ ∧
    AtHand (held .e) ⟨0x100, 0⟩ (pairBytes ld32) ∧ PlainAt (flds 1) (held .e) { r := true } 4 (lane (held .e)) ⟨0x100, 0⟩ ∧
    AtHand (held .e) ⟨0x100, 0⟩ 4 ∧ (flds 1).fn.getLsbD 3 = false ∧
    condHolds ((flds 1).fn.extractLsb' 0 3) 4 (homeNat (held .e) 0x100 4) (regNat (lane (held .e)).th (flds 1).b 4) = true ∧
    NoOrderWait ld32 (held .e) (fun _ => ⟨0x100, 0⟩) (isAcq ld32) false ∧ NoOrderWait ld32 (held .e) (fun _ => ⟨0x100, 0⟩) true false ∧
    NoOrderWait (flds 0x41) (at100 1) (fun _ => ⟨0x100, 1⟩) true false := by
  and_intros <;> (try dsimp only [LanesSound, PlainAt, QuietL1, AtHand, NoOrderWait]) <;> decide +kernel
/-- A store with the hint that streams. -/
def st32 : Fields := flds 2 0x30
theorem witness_GlobalStores :
    OnePlain ld32 (held .m) { w := true } (szBytes ld32) (fun _ _ _ => true) false (isRel ld32) (lane (held .m)) ⟨0x100, 0⟩ ∧
    0x100 % 256 + szBytes ld32 ≤ 256 ∧
    (OnePlain ld32 (at100 1) { w := true } (szBytes ld32) (fun _ _ _ => true) false (isRel ld32) (lane (at100 1)) ⟨0x100, 1⟩ ∧
      streams (releaseBefore ld32 (isRel ld32) [(lane (at100 1), ⟨0x100, 1⟩)] (at100 1)) 0 0x100 ld32.hint = false) ∧
    (OnePlain st32 (at100 1) { w := true } (szBytes st32) (fun _ _ _ => true) false (isRel st32) (lane (at100 1)) ⟨0x100, 1⟩ ∧
      streams (at100 1) 0 0x100 st32.hint = true) ∧
    ld32.sp = 0 ∧ OnePlain ld32 (at100 2) all3 (opBytes (rmwOp ld32)) runsNear (isAcq ld32) (isRel ld32) (lane (at100 2)) ⟨0x100, 2⟩ ∧
    Unrecorded (at100 2) (lane (at100 2)) ∧
    OnePlain ld32 (held .m) all3 (if ld32.fn.getLsbD 0 then 8 else 4) runsNear (isAcq ld32) (isRel ld32) (lane (held .m)) ⟨0x100, 0⟩ ∧
    OnePlain ld32 (held .m) all3 (pairBytes ld32) runsNear false true (lane (held .m)) ⟨0x100, 0⟩ ∧ Unrecorded (held .m) (lane (held .m)) := by
  and_intros <;> (try dsimp only [OnePlain, Unrecorded, LanesSound, PlainAt, QuietL1, AtHand, NoOrderWait]) <;> decide +kernel
/-- STC with a reservation held and without one. -/
theorem witness_GlobalStores_stc :
    let s := (held .m).modThread 0 fun y => { y with resv := some ⟨0x100, none⟩ }
    OnePlain ld32 s all3 (pairBytes ld32) resvHeld false (isRel ld32) (lane s) ⟨0x100, 0⟩ ∧ Unrecorded s (lane s) ∧
      ((lane s).th.resv.any fun r => r.line == lineOf 0x100) = true ∧
      OnePlain ld32 (at100 0) all3 (pairBytes ld32) resvHeld false (isRel ld32) (lane (at100 0)) ⟨0x100, 0⟩ := by
  and_intros <;> (try dsimp only [OnePlain, Unrecorded, LanesSound, PlainAt, QuietL1, AtHand, NoOrderWait]) <;> decide +kernel
theorem witness_Reductions :
    ld32.sp = 0 ∧ OnePlain ld32 (at100 0) all3 (opBytes (rmwOp ld32)) (fun _ _ _ => false) false (isRel ld32) (lane (at100 0)) ⟨0x100, 0⟩ ∧
      hostBias (at100 0) 0x100 = false ∧ (setLines (at100 0) ((at100 0).coreOf (lane (at100 0)).th) (lineOf 0x100)).length < 8 ∧
      0x100 % opBytes (rmwOp ld32) = 0 ∧ streams (at100 0) 0 0x100 ld32.hint = false ∧
      OnePlain ld32 (at100 2) all3 (opBytes (rmwOp ld32)) (fun _ _ _ => false) false (isRel ld32) (lane (at100 2)) ⟨0x100, 2⟩ ∧
      OnePlain st32 (at100 0) all3 (opBytes (rmwOp st32)) (fun _ _ _ => false) false (isRel st32) (lane (at100 0)) ⟨0x100, 0⟩ ∧
      streams (at100 0) 0 0x100 st32.hint = true := by
  and_intros <;> (try dsimp only [OnePlain, Unrecorded, LanesSound, PlainAt, QuietL1, AtHand, NoOrderWait]) <;> decide +kernel

/-- Team 0 with its page 0 resident, and the last word of the page in v2. -/
def pad : State :=
  (one (thread0 ([5, 0] ++ wide 0xFFC ++ wide 7 ++ wide 9))).modTeam 0 fun t => { t with pages := [(0, {})] }
/-- The window's address of offset 0xFFC of the thread's own team. -/
def winTeam (s : State) : Except Byte (Nat × Nat) := checkWindow s 0 4 (offsetEa ld32 (lane s).th)
theorem witness_Scratchpads :
    LanesSound pad ∧ pad.execLanes ld32 = [lane pad] ∧ PadAt ld32 pad false (szBytes ld32) (lane pad) 0 0xFFC ∧
      (∃ t o, PadAt ld32 pad true (szBytes ld32) (lane pad) t o) ∧ isRel ld32 = false ∧
      isRel (flds 0xA2) = true ∧ releaseWaits pad 0 0 = false ∧ QuietL1 pad pad.hereCore := by
  refine ⟨?_, ?_, ?_, ⟨0, 0xFFC, ?_⟩, ?_, ?_⟩ <;> (try dsimp only [PadAt, LanesSound, QuietL1]) <;> decide +kernel

/-! ### The engine group -/

/-- Team 0 owns the engine group of core 0, which holds a group. -/
def own (g : Group) (vs : List Word := []) : State :=
  (one (thread0 vs)).modCore 0 fun k => { k with owner := some 0, group := g }
/-- A ring of two slots with one ready and one taken, and its limits. -/
def ring1 : Ring := { base := 64, size := 64, n := 4, f := 1, e := 1, resv := [(2, true, false)], taken := [1], wr := 3, rd := 2 }
def ringed (r : Ring) : State := own { rings := [(0, r)] }
theorem witness_RingsAndEvents_rings :
    GroupReady flds (ringed ring1) (lane (ringed ring1)) ∧ ringOf flds = 0 ∧ (ringed ring1).coreOf (lane (ringed ring1)).th = 0 ∧
      Tab.find ((ringed ring1).group 0).rings 0 = some ring1 ∧ ring1.f ≠ 0 ∧ ring1.e ≠ 0 ∧
      ring1.resv.find? (fun x => x.2.1 && !x.2.2) = some (2, true, false) ∧ ring1.taken = 1 :: [] ∧
      Tab.find ((ringed { ring1 with f := 0, e := 0 }).group 0).rings 0 = some { ring1 with f := 0, e := 0 } ∧
      GroupReady flds (ringed { ring1 with f := 0, e := 0 }) (lane (ringed { ring1 with f := 0, e := 0 })) ∧
      GroupReady flds (own {}) (lane (own {})) ∧ Tab.find ((own {}).group 0).rings 0 = none := by
  and_intros <;> (try dsimp only [GroupReady, Issuing, LanesSound]) <;> decide +kernel
/-- RINIT of one slot of one unit at offset 0, and of the largest slot count that a page holds. -/
def rin (b : Word) : State := own {} [0, 0, 0, 0, b]
theorem witness_RingsAndEvents_rinit :
    GroupReady flds (rin 0x00400001) (lane (rin 0x00400001)) ∧ src32 (rin 0x00400001) flds (lane (rin 0x00400001)) flds.a = 0 ∧
      src32 (rin 0x00400001) flds (lane (rin 0x00400001)) flds.b = BitVec.ofNat 32 (65536 * 64 + 1) ∧
      0 + 1 * 64 * 64 ≤ scratchSize (rin 0x00400001) (rin 0x00400001).hereTeam ∧ (rin 0x00400001).hereTeam = 0 ∧
      pinFits (repin 0 0 ((rin 0x00400001).modGroup 0 fun g => { g with rings := Tab.del g.rings 0 })) 0 0
        ({ base := 0, size := 64, n := 64, e := 64 } : Ring).pages = true := by
  and_intros <;> (try dsimp only [GroupReady, Issuing, LanesSound]) <;> decide +kernel
/-- The page of the ring is in a frame, or still has to come. -/
theorem witness_RingsAndEvents_pages :
    let in0 := fun (s : State) => s.modTeam 0 fun t => { t with pages := [(0, {})] }
    missingPages (in0 (own {})) 0 (ringPages (ringed ring1) 0) = [] ∧ missingPages (own {}) 0 (ringPages (ringed ring1) 0) = [(0, 0)] := by
  and_intros <;> decide +kernel
/-- A sink that counts, at the count EVWAIT needs and one below it. -/
theorem witness_RingsAndEvents_sinks :
    let s := own { sinks := [(0, { cnt := 1, mask := 0x100 })] }
    GroupReady flds s (lane s) ∧ (Tab.get (s.group 0).sinks 0 {}).act = 0 ∧ max 1 (flds.imm.extractLsb' 4 8).toNat ≤ (Tab.get (s.group 0).sinks 0 {}).cnt ∧
      (Tab.get (s.group 0).sinks 1 {}).cnt < max 1 ((flds 0 0 1).imm.extractLsb' 4 8).toNat := by
  and_intros <;> (try dsimp only [GroupReady, Issuing, LanesSound]) <;> decide +kernel

/-! ### Engines -/

/-- Bytes listed at an address. -/
def memOf (a : Nat) (bs : List Byte) : Mem := Mem.put 0 [] a bs
/-- A copy descriptor of form 2 at offset 0 of the scratchpad: 64 bytes from offset 128 to offset 192, or with flags. -/
def desc (flags : Nat := 0) : List Byte := natLe 8 128 ++ natLe 8 192 ++ natLe 4 64 ++ natLe 4 1 ++ natLe 32 0 ++ natLe 4 flags ++ natLe 4 0
/-- CP of form 2 from a descriptor in the scratchpad. -/
def cpF : Fields := { flds 2 0 0x00800000 with a := .zero }
def copyAt (bs : List Byte) (mem : Mem) : State :=
  let s := own {}
  { s.modTeam 0 (fun t => { t with scratch := memOf 0 bs, pages := [(0, {})] }) with mem := mem }
def cp1 : State := copyAt (desc) []
/-- The copy that CP or CPBLK takes from the descriptor. -/
def copyOf (s : State) (form : Nat) (op : Byte) : Copy :=
  { descCopy (locBytes s 64 (.scr 0 0)) form (touchLoc (.scr 0 0) s) 0 with
    scope := scopeOf cpF, hint := cpF.mod.extractLsb' 4 2, quad := (s.wave 0).quad, slot := (s.wave 0).slot, epc := (s.wave 0).pc, op := op
    fn := cpF.fn }
/-- The reason of a copy with no tensor descriptor read yet. -/
def reasonOf (s : State) (x : Copy) : Option Nat := copyReason (touchLoc (.scr 0 0) s) { x with tens := 0 } 0 (BitVec.ofNat 64 x.tens.toNat)
/-- Flag bit 11 is no defined flag of form 2, which is reason 3 of R246. -/
theorem witness_Copies_cp :
    Issuing cp1 ∧ cp1.inEngine = false ∧ (cp1.execLanes cpF).head? = some (lane cp1) ∧ descLoc cpF cp1 (lane cp1) = .ok (.scr 0 0) ∧
      locWait cp1 false (.scr 0 0) = none ∧ (Loc.scr 0 0).poisoned cp1 = false ∧ PlainLoc cp1 (.scr 0 0) ∧ (cp1.cpe 0).q.length < 64 ∧
      isSecondary (touchLoc (.scr 0 0) cp1) 0 = false ∧ cpF.fn.toNat ≤ 6 ∧ (cp1.core 0).owner = some 0 ∧
      (copyOf cp1 2 0x90).be = false ∧ reasonOf cp1 (copyOf cp1 2 0x90) = none ∧
      (copyOf (copyAt (desc 0x800) []) 2 0x90).flags = 0x800 ∧ reasonOf (copyAt (desc 0x800) []) (copyOf (copyAt (desc 0x800) []) 2 0x90) = some 3 := by
  and_intros <;> (try dsimp only [Issuing, LanesSound, PlainLoc]) <;> decide +kernel
/-- CPBLK between scratchpad offsets, its tensor record of one element at global address 0x100. -/
def blk : State :=
  copyAt (natLe 8 128 ++ natLe 8 192 ++ natLe 32 0 ++ natLe 8 0x100 ++ natLe 4 0x3000 ++ natLe 4 0)
    (memOf 0x100 (natLe 16 1 ++ natLe 1 1 ++ natLe 7 1 ++ natLe 4 1))
theorem witness_Copies_cpblk :
    let x := copyOf blk 7 0x91
    let y := { x with tens := BitVec.ofNat 512 (leNat (homeBytes blk 0x100 64)) }
    let u := touchLoc (.scr 0 0) blk
    descLoc cpF blk (lane blk) = .ok (.scr 0 0) ∧ x.tens.toNat = 0x100 ∧ x.cle = false ∧ reasonOf blk x = none ∧
      checkGlobal u (copyWho u 0 x) { r := true } 64 0x100 = .ok ⟨0x100, 0⟩ ∧ isRemote 0x100 = false ∧
      poisoned blk 0x100 = false ∧ PlainLoc blk (.glob 0 0x100) ∧ tensOk y.tens = true ∧ copyReason u y 0 0x100 = none ∧ y.be = false := by
  and_intros <;> (try dsimp only [PlainLoc]) <;> decide +kernel
/-- FORK of all three engines, free and with one program running; RDV with the group owned and not, and a processor that is halted. -/
theorem witness_Copies_fork :
    let busy := own { mxe := { prog := some (0x10004, 0x10004) } }
    let halted := own { lcp := { prog := some (0x10004, 0x10004), closed := true, halt := some 0x4A } }
    GroupReady (flds 0 0 7) (own {}) (lane (own {})) ∧ ((own {}).lcp 0).prog = none ∧ ((own {}).cpe 0).prog = none ∧ ((own {}).mxe 0).prog = none ∧
      GroupReady (flds 0 0 7) busy (lane busy) ∧ (flds 0 0 7).imm.getLsbD 2 = true ∧ (busy.mxe 0).prog ≠ none ∧
      LanesSound (at100 0) ∧ ((at100 0).execLanes flds).head? = some (lane (at100 0)) ∧ ((at100 0).core 0).owner ≠ some 0 ∧
      ((halted.lcp 0).prog ≠ none ∧ (halted.lcp 0).halt ≠ none ∧ (flds 0 0 7).imm.getLsbD 0 = true) := by
  and_intros <;> (try dsimp only [GroupReady, Issuing, LanesSound]) <;> decide +kernel
/-- A copy of form 2 in progress, one that is over, and engines halted. -/
def moving (x : Copy) (cpe : Cpe := {}) : State := (own {}).modCpe 0 fun _ => { cpe with q := [x] }
def copy0 : Copy := { id := 3, form := 2, src := 128, dst := 192, rowBytes := 64, rows := 1, begun := true }
theorem witness_Copies_sector :
    SectorReady (moving copy0) 0 copy0 ∧ ReadOutcome.clean ≠ .uncorrectable ∧ ∀ y ∈ ((moving copy0).cpe 0).q, y.id = copy0.id → y = copy0 := by
  refine ⟨⟨?_, ?_, ?_, ?_, ?_, ?_, ?_, ?_, ?_, ?_, ?_, ?_⟩, ?_, ?_⟩ <;> decide +kernel
theorem witness_Copies_events :
    let d := moving { copy0 with done := 1 }
    let h := moving copy0 { halt := some 0x40, haltCopy := some 3 }
    ((h.cpe 0).halt ≠ none ∧ nextCopy (moving { copy0 with done := 1 } { halt := some 0x40 }) [{ copy0 with done := 1 }] [] = none) ∧
    ((d.cpe 0).q.find? (fun x => x.id == 3) = some { copy0 with done := 1 } ∧ ({ copy0 with done := 1 } : Copy).isOver d = true ∧
      copy0.fatal = none ∧ copy0.be = false ∧ copy0.ringSlot = none ∧ copy0.cle = false ∧ copy0.rcd = 0 ∧ (d.teamCpe 0).passes = []) ∧
    ((h.cpe 0).halt = some 0x40 ∧ (h.cpe 0).haltCopy = some 3 ∧ (h.cpe 0).q.find? (fun y => y.id == 3) = some copy0) := by
  and_intros <;> decide +kernel
/-- Sinks that start a matrix program and submit a copy. -/
theorem witness_Copies_sinks :
    let k : Sink := { act := 1, cnt := 1, addr := 0x10004 }
    let s := own { sinks := [(0, k)] }
    let k2 : Sink := { act := 2, cnt := 1, form := 2 }
    let c := copyAt desc []
    let t := c.modGroup 0 fun g => { g with sinks := [(0, k2)] }
    let u := setSink 0 0 { k2 with cnt := 0 } t
    let d := { descCopy (scratchBytes t 0 0 64) 2 t 0 with op := 0x90, fn := 2 }
    (Tab.get (s.group 0).sinks 0 {} = k ∧ (s.mxe 0).prog = none ∧ (s.core 0).owner = some 0) ∧
    (Tab.get (t.group 0).sinks 0 {} = k2 ∧ (t.core 0).owner = some 0 ∧ (t.cpe 0).q.length < 64 ∧ (t.cpe 0).halt = none ∧
      checkScratch t 0 64 k2.addr.toNat = none ∧ inTransit t 0 k2.addr.toNat 64 = false ∧ backPoisoned t 0 k2.addr.toNat = false ∧
      isSecondary t 0 = false ∧ copyReason u { d with tens := 0 } 0 (BitVec.ofNat 64 d.tens.toNat) = none ∧ d.be = false) := by
  and_intros <;> decide +kernel

/-- A loop-control program at 0x10004 on core 0, with loops. -/
def lcpAt (loops : List (DWord × Nat)) (outM : Nat := 0) : State :=
  { own { lcp := { prog := some (0x10004, 0x10004), loops := loops, outM := outM } } with cur := .engine 0 .lcp }
theorem witness_LoopProcessor_program :
    let s := lcpAt [(0x10010, 2)]
    (s.cur = .engine 0 .lcp ∧ (s.lcp 0).prog = some (0x10004, 0x10004)) ∧ ((flds 0 0 1).imm.extractLsb' 0 16).toNat ≠ 0 ∧
      (s.lcp 0).loops.length < 5 ∧ 5 ≤ ((lcpAt (List.replicate 5 (0x10010, 2))).lcp 0).loops.length ∧
      ((s.lcp 0).loops = (0x10010, 2) :: [] ∧ ((lcpAt [(0x10010, 1)]).lcp 0).loops = [(0x10010, 1)]) ∧ ((lcpAt []).lcp 0).loops = [] ∧
      ((flds 0 0 1).imm.getLsbD 0 = true ∧ ((lcpAt [] 31).lcp 0).outM < 32) ∧ 32 ≤ ((lcpAt [] 32).lcp 0).outM ∧
      ((flds 0 0 3).imm.extractLsb' 1 6).toNat ≤ 32 - ((lcpAt [] 31).lcp 0).outM ∧
      32 - ((lcpAt [] 32).lcp 0).outM < ((flds 0 0 3).imm.extractLsb' 1 6).toNat := by
  and_intros <;> decide +kernel
/-- The program LOOP 0, ENDL, LEND in one line, whose skip leads to LEND; and the halted processor. -/
def loopLine : FLine :=
  makeLine 1 [0xB00081D45454544000000000, 0xB10081D45454544000000000, 0xB50081D45454544000000000]
def skipping : State :=
  { lcpAt [] with mem := memOf 0x10000 (natLe 64 loopLine.toNat) }
theorem witness_LoopProcessor_fetch :
    afterEndl 0 skipping 65536 (succPc 0x10004) 0 = .ok (0x1001C) ∧ ((flds 0 0 0).imm.extractLsb' 0 16).toNat = 0 ∧
    skipping.guidon.frozen = false ∧ engineHalted skipping 0 .lcp = false ∧ progPc skipping 0 .lcp = some 0x10004 ∧
    (engineFetch 0 0x10004 skipping).1 = .ok (0xB00081D45454544000000000, true) ∧
    (decodeWord (engineEnv skipping 0 .lcp) 0xB00081D45454544000000000).toOption.map (fun i => (shapeOf i).engines.contains .lcp) = some true ∧
    (((own { lcp := { prog := some (0x10004, 0x10004), halt := some 0x4A } }).lcp 0).halt = some 0x4A) := by
  and_intros <;> decide +kernel

theorem witness_MatrixInstructions :
    let full := own { mxe := { q := List.replicate 32 {} } }
    let p := { own { mxe := { prog := some (0x10004, 0x10004) }, lcp := { recM := [{}] }, sinks := [(0, { cnt := 1 })] } with cur := .engine 0 .matrix }
    (GroupReady flds (own {}) (lane (own {})) ∧ ((own {}).mxe 0).q.length < 32 ∧ ((own {}).mxe 0).prog = none) ∧
    (GroupReady flds full (lane full) ∧ 32 ≤ (full.mxe 0).q.length) ∧
    (p.cur = .engine 0 .matrix ∧ (p.mxe 0).prog = some (0x10004, 0x10004) ∧ (p.lcp 0).recM = {} :: [] ∧
      (Tab.get (p.group 0).sinks 0 {}).act = 0 ∧ 1 ≤ (Tab.get (p.group 0).sinks 0 {}).cnt) := by
  and_intros <;> (try dsimp only [GroupReady, Issuing, LanesSound]) <;> decide +kernel
/-- Commands ACCZ, MLDB, ACCST and MMA at the head of the queue. -/
def mxq (op imm : Nat) (x : Mxe := {}) : State :=
  own { mxe := { x with q := [{ word := BitVec.ofNat 96 (op * 2 ^ 88 + 0x81D454545440 * 2 ^ 32 + imm) }] } }
def mxHead (s : State) : Fields := unpackFields (((s.mxe 0).q.headD {}).word)
theorem witness_MatrixEngine :
    let z := mxq 0xA2 0xFF000
    let b := mxq 0xA0 0
    let b1 := mxq 0xA0 1
    let bEnd := mxq 0xA0 0x3FFF
    let st := mxq 0xA5 0x0FF00000
    let m := mxq 0xA1 0x08004000 { banks := [(0, { fmt := 0 })], coll := some { fmt := 0 } }
    let m0 := mxq 0xA1 0x08004000
    let team0 := fun (s : State) => (s.core 0).owner.getD 0
    (z.guidon.frozen = false ∧ (z.mxe 0).halt = none ∧ opField ((z.mxe 0).q.headD {}).word = 0xA2 ∧ (z.mxe 0).q.length = 1) ∧
    (cmdAddr ((b.mxe 0).q.headD {}) (imNat (mxHead b) 0 14) % 64 = 0 ∧
      cmdAddr ((b.mxe 0).q.headD {}) (imNat (mxHead b) 0 14) + slabBytes ((mxHead b).mod.extractLsb' 2 4).toNat ≤ scratchSize b (team0 b)) ∧
    (scratchSize bEnd (team0 bEnd) <
      cmdAddr ((bEnd.mxe 0).q.headD {}) (imNat (mxHead bEnd) 0 14) + slabBytes ((mxHead bEnd).mod.extractLsb' 2 4).toNat) ∧
    (cmdAddr { (b1.mxe 0).q.headD {} with base := 4 } (imNat (mxHead b1) 0 14) % 64 ≠ 0) ∧
    (cmdAddr ((st.mxe 0).q.headD {}) (imNat (mxHead st) 0 8) % 64 = 0) ∧
    (blocksOf (imNat (mxHead m) 14 8) = [0] ∧ ((m.mxe 0).active 0).map (fun b => b.fmt.toNat) = some 0 ∧ imNat (mxHead m) 26 2 = 2 ∧
      (m.mxe 0).coll = some { fmt := 0 } ∧ (mxHead m).imm.getLsbD 25 = false) ∧
    (blocksOf (imNat (mxHead m0) 14 8) = [0] ∧ (m0.mxe 0).active 0 = none) ∧
    ((own { mxe := { halt := some 0x49, q := [{}] } }).mxe 0).halt = some 0x49 := by
  and_intros <;> decide +kernel

/-! ### Control transfers, traps and returns -/

/-- A line at 0x10000 all of whose slots are branch targets, and thread 0 with the address of slot 1 in v2. -/
def lined : State := { one (thread0 ([5, 0] ++ wide 0x10010)) with mem := memOf 0x10000 (natLe 64 (makeLine 31 []).toNat) }
/-- A transfer to the instruction itself by IMM, and by a register and offset 0. -/
theorem witness_ControlTransfers :
    LanesSound lined ∧ lined.execLanes flds = [lane lined] ∧
      targetErr lined (lane lined).th (lineAddr 0x10004 + (flds.imm.extractLsb' 3 29).signExtend 64 * 64 +
        (4 + 12 * (flds.imm.extractLsb' 0 3).setWidth 64)) = none ∧
      targetErr lined (lane lined).th (reg64 (lane lined).th flds.a + flds.imm.signExtend 64) = none ∧
      targetErr lined (lane lined).th (reg64 (lane lined).th flds.a) = none := by
  and_intros <;> (try dsimp only [LanesSound]) <;> decide +kernel

/-- A trap of thread 0 at 0x10004. -/
def trap0 : Trap := { regs := { cause := 0x40, epc := 0x10004 }, threads := [0] }
/-- The trap queued, with a privileged handler named or not. -/
def queued (pvec : DWord) : State :=
  let s := (one (thread0 [])).modCore 0 fun k => { k with traps := [trap0] }
  { s with ctxs := [(0, { st := .live, svc := true, pvec := pvec, tfb := 0x1000 })] }
/-- The handler wave of core 0 serving a trap of threads, its own thread being 0 and the stopped one 1. -/
def handling (ids : List Nat) (vs : List Word := []) : State :=
  let h : Thread := { thread0 vs with handlerOf := some 0, slot := Config.handlerSlot }
  let s := (one h).modCore 0 fun k => { k with serving := some { trap0 with threads := ids } }
  { s with work := { s.work with
    threads := [(0, h), (1, { thread0 [] with stopped := true })], waves := [(0, { wave0 with slot := Config.handlerSlot })] } }
theorem witness_HandlerReturns_serve :
    let s := queued 0x8000000000010004
    (s.core 0).traps = trap0 :: [] ∧ (s.core 0).serving = none ∧ s.guidon.frozen = false ∧ (s.grid (s.team 0).grid).ctx = 0 ∧
      (vaWrite ⟨0, 0, true⟩ { w := true } 0x1000 (frameBytes s 0 trap0) (s.modCore 0 fun k => { k with traps := [] })).toOption.isSome = true ∧
      (s.ctx 0).pvec.getLsbD 63 = true ∧ ((queued 0).ctx 0).pvec.getLsbD 63 = false ∧
      ((s.ctx 0).tfb.extractLsb' 6 51).toNat * 64 + 64 * 0 = 0x1000 := by
  and_intros <;> decide +kernel
theorem witness_HandlerReturns_eret :
    let s := handling [1]
    let e := handling []
    ((s.execLanes flds).head? = some (lane s) ∧ (lane s).th.handlerOf = some 0 ∧ (s.core 0).serving = some { trap0 with threads := [1] } ∧
      trap0.redund = false ∧ slotOf trap0.regs.epc ≠ none) ∧
    ((e.execLanes flds).head? = some (lane e) ∧ (e.core 0).serving = some { trap0 with threads := [] }) ∧
    (∃ g, (endHandler 0 e).grid? ((endHandler 0 e).team 0).grid = some g ∧ g.cancel = none) ∧
    ((s.thread? 1).map Thread.group = some none ∧ (∀ e ∈ s.work.threads, e.1 = 1 → e.2.handlerOf ≠ some 0) ∧
      ∀ e ∈ (endHandler 0 s).work.waves, e.2.lanes.toList.contains (some 1) = false) := by
  refine ⟨?_, ?_, ⟨grid0, ?_⟩, ?_⟩ <;> decide +kernel
theorem witness_SpecialRegisters :
    let s := handling [1]
    LanesSound (at100 0) ∧ ((at100 0).execLanes flds).head? = some (lane (at100 0)) ∧ (lane (at100 0)).th.handlerOf = none ∧
      LanesSound s ∧ (s.execLanes flds).head? = some (lane s) ∧ (lane s).th.handlerOf = some 0 ∧
      (s.core 0).serving = some { trap0 with threads := [1] } ∧
      (one { thread0 [] with handler := true }).thread 0 = { thread0 [] with handler := true } := by
  and_intros <;> (try dsimp only [LanesSound]) <;> decide +kernel
/-- The same machine with page tables from 0x1000 that map the first gigabyte of addresses to themselves (log entry 6). -/
def tables (s : State) : State :=
  { s with
    mem := loadTables.foldl (fun m e => Mem.put 0 m e.1 (natLe 8 e.2)) s.mem
    ctxs := s.ctxs.map fun e => (e.1, { e.2 with root := 0x1000 }) }
/-- The context with debugging, its trace buffer of one record at 0x4000 empty or full. -/
def debug (head : Word) : State :=
  let blk : Dbg := { ctl := 7, smp := 1, buf := 0x4000, head := head }
  tables { at100 0 with ctxs := [(0, { st := .live, svc := true, dbg := true, uvec := 0x8000000000010004, blk := blk })] }
theorem witness_SoftwareTraps :
    let s := at100 0
    let d := debug 0
    LanesSound s ∧ s.execLanes flds = [lane s] ∧ escalates s (lane s).th = false ∧ (byHidx (s.execLanes flds)).head? = some (lane s) ∧
      (lane s).th.handlerOf = none ∧ s.coreOf (lane s).th = 0 ∧ (flds 0 0 0x0F).imm.extractLsb' 0 8 ≠ 0x10 ∧
      (flds 0 0 0x12).imm.extractLsb' 0 8 ≠ 0x11 ∧ d.hereDbg = true ∧ s.hereDbg = false ∧ LanesSound d ∧ d.execLanes flds ≠ [] ∧
      (byHidx (d.execLanes flds)).head? = some (lane d) ∧ (d.execLanes flds).head? = some (lane d) ∧ d.hereCtx = 0 ∧ (d.ctx 0).blk.trc = true ∧
      2 ^ ((d.ctx 0).blk.bufn.toNat % 32) ≤ ((debug 1).ctx 0).blk.head.toNat ∧ ((d.ctx 0).blk.head - (d.ctx 0).blk.tail).toNat < 1 ∧
      (vaWrite (devWho 0) { w := true } 0x4000 (List.replicate 32 0) (advance d)).toOption.isSome = true := by
  and_intros <;> (try dsimp only [LanesSound]) <;> decide +kernel
/-- Thread 0 in its user-level handler for a trap of an instruction whose D is v8. -/
def inHandler : State := one { thread0 [] with handler := true, trap := { epc := 0x10004, next := 0x10010, efldA := 0x2, efldB := 0 } }
theorem witness_UserReturns :
    LanesSound inHandler ∧ inHandler.execLanes flds = [lane inHandler] ∧ (lane inHandler).th.handler = true ∧
      slotOf (lane inHandler).th.trap.epc ≠ none ∧ (lane inHandler).th.trap.efldD.getLsbD 4 = false ∧ trappedD (lane inHandler).th = 8 ∧
      trappedD (lane inHandler).th % 2 = 0 ∧ trappedD (lane inHandler).th + 1 < inHandler.regsOf (lane inHandler).th := by
  and_intros <;> (try dsimp only [LanesSound]) <;> decide +kernel

/-! ### Cache operations -/

/-- The line at 0x100 held in a state by core 0, its directory entry in another. -/
def heldAs (st : L1State) (d : DirState) : State :=
  let s := held st
  { s with home := { s.home with dir := [(0x100, { st := d, sharers := 1, owner := 0 })] } }
theorem witness_CacheOperations_lines :
    let s := at100 0
    let x : Xlat := ⟨0x100, 0⟩
    (LanesSound s ∧ s.execLanes flds = [lane s] ∧ s.hereCore = 0 ∧ checkGlobal s (whoOf s (lane s).th) {} 1 (cacheEa flds (lane s)) = .ok x ∧
      (dirOf s 0x100).pending = false ∧ l1Line s 0 0x100 = none) ∧
    ((l1Line (held .m) 0 0x100).map L1Line.st = some .m ∧ (dirOf (held .m) 0x100).pending = false ∧
      checkGlobal (held .m) (whoOf (held .m) (lane s).th) {} 1 (cacheEa flds (lane (held .m))) = .ok x) ∧
    ((l1Line (heldAs .o .o) 0 0x100).map L1Line.st = some .o ∧ (l1Line (held .e) 0 0x100).map L1Line.st = some .e) := by
  and_intros <;> (try dsimp only [LanesSound]) <;> decide +kernel
/-- PREF at a mapped and at an unmapped address; FENCE that waits for a packet of its thread and one that does not; LDL. -/
def packetOf (seq : Word) (typ : BitVec 4) : Packet :=
  { src := 0, flow := 0, seq := seq, typ := typ, secure := false, ordered := false, pa := 0x100, size := 4, op := 0, b := 0, c := 0, data := 0 }
def sentBy (th : Option Nat) : State :=
  let s := at100 0
  { s with fabric := { s.fabric with flows := [(0, { outst := [{ pkt := packetOf 0 2, thread := th }] })] } }
theorem witness_CacheOperations_others :
    let s := at100 0
    let far := one (thread0 ([5, 0] ++ wide (2 ^ 30)))
    let e := held .e
    (checkGlobal s (whoOf s (lane s).th) { r := true } 1 (globalEa flds (lane s).th) = .ok ⟨0x100, 0⟩ ∧ isLocal 0x100 = true ∧
      l1Line s 0 0x100 = none ∧ (s.core 0).arrived = [] ∧ (s.core 0).miss = []) ∧
    (checkGlobal far (whoOf far (lane far).th) { r := true } 1 (globalEa flds (lane far).th) = .error 0x40) ∧
    (s.execLanes flds ≠ [] ∧ remoteOpen s 0 = false ∧ (flds 0 2).scope.toNat < 2 ∧ 2 ≤ (flds 0 4).scope.toNat ∧
      4 ≤ (flds 0 8).scope.toNat ∧ QuietL1 s s.hereCore) ∧
    (PlainAt ld32 e all3 (pairBytes ld32) (lane e) ⟨0x100, 0⟩ ∧ AtHand e ⟨0x100, 0⟩ (pairBytes ld32) ∧ e.home.hostHeld = [] ∧ Unrecorded e (lane e) ∧
      e.hereCore = e.coreOf (lane e).th ∧ NoOrderWait ld32 e (fun _ => ⟨0x100, 0⟩) (isAcq ld32) false) ∧
    (PlainAt ld32 (at100 2) all3 (pairBytes ld32) (lane (at100 2)) ⟨0x100, 2⟩ ∧ AtHand (at100 2) ⟨0x100, 2⟩ (pairBytes ld32) ∧
      NoOrderWait ld32 (at100 2) (fun _ => ⟨0x100, 2⟩) (isAcq ld32) false) := by
  and_intros <;> (try dsimp only [QuietL1, PlainAt, AtHand, Unrecorded, NoOrderWait]) <;> decide +kernel
theorem witness_CacheOperations_fence : remoteOpen (sentBy (some 0)) 0 = true ∧ (sentBy (some 0)).execLanes (flds 0 10) = [lane (sentBy (some 0))] := by
  decide +kernel

/-! ### Queues, pools and queries -/

/-- A group with a ring of tiles and bin 0 holding rows. -/
def binned (rows n : Nat) (clock : Nat := 0) (ready : Nat := 0) : State :=
  let b : Bin := { w := 1, t := 1, cur := { rows := List.replicate n ([1], 2) }, closed := List.replicate rows { rows := [([3], 4)] } }
  { own { rings := [(0, { size := 576, n := 2, e := ready })], bins := [(0, b)] } with clock := clock }
theorem witness_QueuesPoolsQueries_bins :
    let s := binned 0 0
    let full := binned 1 6 256 1
    let narrow := own { rings := [(0, { size := 512, n := 2 })] }
    (GroupReady flds s (lane s) ∧ (Tab.find (s.group 0).rings 0).map Ring.size = some 576 ∧
      (∀ b ∈ Tab.find (s.group 0).bins 0, b.cur.rows = [] ∧ b.closed = [])) ∧
    ((Tab.find (narrow.group 0).rings 0).map Ring.size = some 512 ∧ GroupReady flds narrow (lane narrow) ∧ Tab.find (narrow.group 0).bins 0 = none ∧
      narrow.hereCore = narrow.coreOf (lane narrow).th) ∧
    ((lane full).th.entered = none ∧ 2 + 1 ≤ full.regsOf (lane full).th ∧
      full.regsOf (lane full).th < (regNum? ({ flds with a := .reg 63 } : Fields).a).getD 0 + 2) ∧
    (inTransit full 0 (({ size := 576, n := 2 } : Ring).slotAt 0) 576 = false ∧ (Tab.find ((binned 0 6 256).group 0).rings 0).map Ring.e = some 0) ∧
    (GroupReady flds full (lane full) ∧ full.execLanes flds = [lane full] ∧ (Tab.find (full.group 0).bins 0).map (fun b => b.closed.length) = some 1 ∧
      (Tab.find (full.group 0).bins 0).map (fun b => b.cur.rows.length) = some 6) ∧
    ((full.core 0).owner = some 0 ∧ (full.team 0).role = .single ∧ (Tab.find (full.group 0).rings 0).map Ring.e = some 1) ∧
    ((Tab.find ((binned 0 6 256).group 0).bins 0).map (fun b => decide (b.cur.first + 256 * b.t ≤ (binned 0 6 256).clock)) = some true ∧
      (Tab.find ((binned 0 6 255).group 0).bins 0).map (fun b => decide ((binned 0 6 255).clock < b.cur.first + 256 * b.t)) = some true) := by
  and_intros <;> (try dsimp only [GroupReady, Issuing, LanesSound]) <;> decide +kernel
/-- A pool descriptor at 0x100: nodes of 64 bytes from 0x4000, two handed out, the limit at the third or fourth. -/
def pool (limit : Nat) (lg : Nat := 6) (node : Nat := 0x4040) : State :=
  { one (thread0 ([5, 0] ++ wide 0x100 ++ wide node)) with
    mem := memOf 0x100 (natLe 8 0 ++ natLe 8 0x4080 ++ natLe 8 0x4000 ++ natLe 8 limit ++ natLe 4 lg) }
theorem witness_QueuesPoolsQueries_pools :
    let s := pool 0x40C0
    let p := readPool (homeBytes s 0x100 64)
    (LanesSound s ∧ s.execLanes flds = [lane s] ∧ poolCheck flds s (lane s) = .ok (.glob 0 0x100) ∧ PlainLoc s (.glob 0 0x100) ∧
      poisoned s 0x100 = false ∧ locWait s true (.glob 0 0x100) = none ∧ isLocal 0x100 = true ∧ Unrecorded s (lane s) ∧ QuietL1 s s.hereCore) ∧
    (p.valid (homeBytes s 0x100 64) true = true ∧ p.head = 0 ∧ p.bump + 2 ^ p.lg ≤ p.limit ∧ p.bump ≠ 0) ∧
    ((readPool (homeBytes (pool 0x4080) 0x100 64)).limit < (readPool (homeBytes (pool 0x4080) 0x100 64)).bump + 2 ^ 6) ∧
    ((readPool (homeBytes (pool 0x40C0 5) 0x100 64)).valid (homeBytes (pool 0x40C0 5) 0x100 64) true = false) ∧
    (p.node ((reg64 (lane s).th flds.b).toNat) = true ∧ p.node 0x4080 = false ∧
      (vaWrite (whoOf s (lane s).th) { w := true } 0x4040 (natLe 8 p.head) (advance s)).toOption.any (fun v =>
        decide ((dirOf v 0x100).st ≠ .b) && !hostHolds v 0x100) = true) := by
  and_intros <;> (try dsimp only [LanesSound, PlainLoc, Unrecorded, QuietL1]) <;> decide +kernel
theorem witness_QueuesPoolsQueries_queries :
    let f : Fields := { flds with a := .reg 8, b := .reg 12, c := .zero }
    let s := at100 0
    let full := s.modCluster 0 fun k => { k with queries := List.replicate 256 {} }
    LanesSound s ∧ s.execLanes f = [lane s] ∧ futurePair f (lane s) = none ∧ (∀ e ∈ s.home.dir, e.2.pending = false) ∧ (s.cluster (s.hereCore / 8)).queries.length < 256 ∧
      256 ≤ (full.cluster (full.hereCore / 8)).queries.length ∧ (full.cluster 0).queries = {} :: List.replicate 255 {} := by
  and_intros <;> (try dsimp only [LanesSound]) <;> decide +kernel

/-! ### Bindings, leases, barrier objects and barriers -/

/-- BIND of n blocks from 0x4000 or another address to the object at 0x100. -/
def binding (base n : Nat) : State := one (thread0 ([5, 0] ++ wide 0x100 ++ wide base ++ [BitVec.ofNat 32 n]))
theorem witness_BindingsAndLeases_bind :
    let s := binding 0x4000 2
    let b : Binding := { base := 0x4000, n := 2, obj := 0x100 }
    let many := { s with ctxs := [(0, { st := .live, binds := (List.range 4096).map fun k => { base := 2 ^ 30 + 512 * k, n := 1 } })] }
    (LanesSound s ∧ s.execLanes flds = [lane s] ∧ flds.fn.getLsbD 0 = false ∧ flds.fn.getLsbD 4 = false ∧
      checkGlobal s (whoOf s (lane s).th) {} 1 (reg64 (lane s).th flds.a) = .ok ⟨0x100, 0⟩ ∧ (reg64 (lane s).th flds.b).toNat % 256 = 0 ∧
      regionErr flds s (lane s) (reg64 (lane s).th flds.b) 2 = none) ∧
    ((removeRun none 0x4000 2 (s.ctx s.hereCtx).binds).length ≤ 4096 ∧ (addRun b []).length ≤ 4096) ∧
    ((reg64 (lane (binding 0x4001 2)).th flds.b).toNat % 256 ≠ 0) ∧
    (4096 < (addRun b (removeRun none 0x4000 2 (many.ctx 0).binds)).length ∧ many.execLanes flds = [lane many]) := by
  and_intros <;> (try dsimp only [LanesSound]) <;> decide +kernel
/-- A thread whose v2 names the remote line at 2^51 + 2^43 + 0x100, of module 1, through a page of its own, in a pod of module 0 and that of the line. -/
def remotePa : Nat := 2 ^ 51 + 2 ^ 43 + 0x100
def leasing (leases : Tab Lease) (flows : Tab Flow) : State :=
  let s := at100 0
  let s1 := s.modCore 0 fun k => { k with tlb := [{ pages := 512, pte := BitVec.ofNat 64 (2 ^ 51 + 2 ^ 43 + 0x1D) }] }
  { s1 with fabric := { s1.fabric with members := [0, paModule remotePa], leases := leases, flows := flows } }
theorem witness_BindingsAndLeases_leases :
    let s := leasing [(remotePa, { expiry := 5, asked := some 1 })] []
    let k := paModule remotePa
    let g := leasing [] [(0, { dest := k })]
    (LanesSound s ∧ s.execLanes flds = [lane s] ∧ checkGlobal s (whoOf s (lane s).th) {} 1 (globalEa flds (lane s).th) = .ok ⟨remotePa, 0⟩ ∧
      isRemote remotePa = true ∧ lineOf remotePa = remotePa ∧ leaseLive s 0 remotePa ≠ none) ∧
    (checkGlobal g (whoOf g (lane g).th) {} 1 (globalEa flds (lane g).th) = .ok ⟨remotePa, 0⟩ ∧ Tab.find g.fabric.leases remotePa = none ∧
      flowTo g k 0 = some 0 ∧ flowTo (leasing [] []) k 0 = none ∧ Tab.find g.fabric.flows 0 = some { dest := k }) ∧
    (let e := leasing [(remotePa, { expired := true })] [(0, { dest := k })]
     checkGlobal e (whoOf e (lane e).th) {} 1 (globalEa flds (lane e).th) = .ok ⟨remotePa, 0⟩ ∧ e.ctxOf (lane e).th = 0 ∧ flowTo e k 0 = some 0 ∧
      Tab.find e.fabric.leases remotePa = some { expired := true } ∧ s.work.threads.all (fun e => e.2.batch.isNone) = true) ∧
    (Tab.find s.fabric.leases remotePa = some { expiry := 5, asked := some 1 } ∧ s.dtime < 5 ∧
      Tab.find (leasing [(remotePa, { expiry := 0 })] []).fabric.leases remotePa = some { expiry := 0 }) ∧
    (s.execLanes flds ≠ []) := by
  and_intros <;> (try dsimp only [LanesSound]) <;> decide +kernel
theorem witness_BindingsAndLeases_embargo :
    let s := { at100 0 with fabric := { (at100 0).fabric with pageVer := [(0x1000, { embargo := some 7 })] } }
    (Tab.get s.fabric.pageVer 0x1000 {}).embargo = some 7 ∧ s.dtime < 7 ∧ ({ s with dtime := 7 } : State).dtime = 7 := by
  and_intros <;> decide +kernel

/-- A barrier object in the scratchpad at 64, or in memory at 0x100 by the other space bit, with a phase and a token in v4. -/
def object (phase tok : Nat) : State :=
  (one (thread0 ([5, 0] ++ [64, 0] ++ [BitVec.ofNat 32 tok]))).modTeam 0 fun t =>
    { t with pages := [(0, {})], scratch := memOf 64 (natLe 16 phase ++ natLe 8 3 ++ natLe 8 1) }
/-- Fields of a barrier-object instruction on a scratchpad address. -/
def boF (fn : BitVec 8 := 1) : Fields := { flds fn with c := .zero }
theorem witness_BarrierObjects_instructions :
    let s := object 5 5
    let p : Loc := .scr 0 64
    (LanesSound s ∧ s.execLanes (boF) = [lane s] ∧ PlainLoc s p ∧ p.poisoned s = false ∧ QuietL1 s s.hereCore ∧
      boCheck boF { w := true } s (lane s) = .ok p ∧ locWait s true p = none ∧ src32 s boF (lane s) boF.b ≠ 0 ∧
      src32 (object 5 0) boF (lane (object 5 0)) boF.b = 0 ∧ escalates (object 5 0) (lane (object 5 0)).th = false) ∧
    (boCheck boF { r := true, w := true, rmw := true } s (lane s) = .ok p ∧ releaseWaits s 0 (scopeOf boF) = false) ∧
    (boCheck boF { r := true } s (lane s) = .ok p ∧ locWait s false p = none ∧ leNat (locBytes s 4 p) = 5 ∧
      src32 s boF (lane s) boF.b = 5 ∧ (BitVec.ofNat 32 5 - src32 (object 5 4) boF (lane (object 5 4)) boF.b).toNat = 1 ∧
      (BitVec.ofNat 32 5 - src32 (object 5 (2 ^ 31 + 6)) boF (lane (object 5 (2 ^ 31 + 6))) boF.b).toNat < 2 ^ 31) ∧
    ((5 + 2 ^ 32 - 1) % 2 = (boF.fn.getLsbD 1).toNat ∧ (4 + 2 ^ 32 - 1) % 2 ≠ (boF.fn.getLsbD 1).toNat) := by
  and_intros <;> (try dsimp only [LanesSound, PlainLoc, QuietL1]) <;> decide +kernel
/-- An object that expects 3 with 1 arrived: one short of it, exactly it and one more. -/
theorem witness_BarrierObjects_credits :
    let o := natLe 16 5 ++ natLe 8 3 ++ natLe 8 1 ++ natLe 32 0
    let s := (object 5 5)
    let m : Monitor := { scr := some 0, addr := 64, size := 4, cond := 1, val := 5 }
    let parked := { one { thread0 [] with park := some (.monitor 0) } with
      home := { s.home with monitors := [(0, m), (1, { m with val := 4 })] }, work := { s.work with threads := [(0, { thread0 [] with park := some (.monitor 0) })] } }
    o.length = 64 ∧ leAt o 0x18 8 + 1 + leAt o 0x20 8 < leAt o 0x10 8 ∧ leAt o 0x18 8 + 2 + leAt o 0x20 8 = leAt o 0x10 8 ∧
      leAt o 0x10 8 < leAt o 0x18 8 + 3 + leAt o 0x20 8 ∧ s.team? 0 ≠ none ∧ backPoisoned s 0 64 = false ∧
      Tab.find parked.home.monitors 0 = some m ∧ condHolds 1 4 (scratchNat parked 0 64 4) 5 = false ∧ condHolds 1 4 (scratchNat parked 0 64 4) 4 = true ∧
      (∀ e ∈ parked.work.grids, e.2.recording = false ∧ e.2.playing = false) ∧ (parked.thread? 0).map Thread.park = some (some (.monitor 0)) ∧
      ((one { thread0 [] with park := some (.poll 3) }).thread? 0).map Thread.park = some (some (.poll 3)) := by
  and_intros <;> decide +kernel

/-- BAR over the wave: both members arrived; and only thread 0 executes with a mask of lanes 0 and 1. -/
def barF (form : BitVec 8) : Fields := { flds form with d := .zero, a := .reg 2, b := .zero, c := .zero }
def barArr (s : State) (f : Fields) : State := arrive f (f.fn.toNat % 4) (fun l => ⟨.bar f, if f.a == .zero then f.imm else reg32 l.th f.a, 0, 0, true⟩) s
def s2b : State := two [0, 0, 3] [0, 0, 3]
/-- The same wave in a grid of threads 0 and 1 where thread 1 has not come to the barrier. -/
def half : State :=
  let s := two [0, 0, 3] [0, 0, 3]
  s.modWave 0 fun w => { w with lanes := (Vector.replicate 32 none).setIfInBounds 0 (some 0), exm := 1 }
theorem witness_Barriers_wave :
    (barF 0).fn.toNat % 4 = 0 ∧ Whole (barArr s2b (barF 0)) ∧
      (let A := barArr half (barF 0)
       ∃ k, dedup ((A.work.threads.filter fun e => atWaveSync e.2 && e.2.team == 0).map fun e => e.2.syncKey) = [k] ∧ syncGroup A k ≠ [] ∧
        (∀ e ∈ syncGroup A k, waveMismatch A k (syncGroup A k) e.2.mask = false) ∧
        ∀ e ∈ syncGroup A k, (maskLanes e.2.mask).all (fun h => (syncGroup A k).any fun x => x.2.hlane == h) = false) := by
  refine ⟨?_, ⟨keyOf (barArr s2b (barF 0)), ?_⟩, ⟨keyOf (barArr half (barF 0)), ?_⟩⟩ <;> decide +kernel
/-- BAR over the team, of hoist 0 by the mask 1. -/
def s2t : State := two [0, 0, 1] [0, 0, 1]
def halfT : State :=
  s2t.modWave 0 fun w => { w with lanes := (Vector.replicate 32 none).setIfInBounds 0 (some 0), exm := 1 }
/-- The premises of Barriers about the arrivals at a team or gang barrier. -/
def BarPremises (s : State) (f : Fields) (form other : Nat) : Prop :=
  ∃ pc cnt, (let A := barArr s f
    LanesSound s ∧ form = f.fn.toNat % 4 ∧ (s.activeNow.head?.map fun l => l.th.handlerOf) = some none ∧
    (∀ l ∈ s.execLanes f, releaseWaits s l.id (scopeOf f) = false) ∧ QuietL1 s s.hereCore ∧ (scopeOf f).toNat < 4 ∧
    (∀ e ∈ s.work.threads, QuietL1 s (s.coreOf e.2)) ∧ (A.work.threads.map (·.1)).Nodup ∧ (∀ e ∈ A.work.threads, e.2.park ≠ some (.sync other)) ∧
    dedup ((A.work.threads.filter fun e => e.2.park == some (.sync form) && ((barTeams A form s.curTeam).map (·.1)).contains e.2.team).map
      fun e => (e.2.pc, e.2.barCnt form)) = [(pc, cnt)] ∧
    (∀ e ∈ barGroup A form s.curTeam pc cnt, barMismatch A form s.curTeam (barGroup A form s.curTeam pc cnt) e.2.mask = false) ∧
    (∀ e ∈ barGroup A form s.curTeam pc cnt, (match e.2.arrival.map Arrival.ins with
      | some (.bar g) => decide ((scopeOf g).toNat < 4) | _ => true) = true) ∧
    barGroup A form s.curTeam pc cnt ≠ [])
/-- Every member has come to the barrier; and for every arrival one is missing. -/
def BarAll (s : State) (f : Fields) (form : Nat) : Prop :=
  let A := barArr s f
  ∀ e ∈ barGroup A form s.curTeam 0x10004 0, ∀ m ∈ barMembers A form s.curTeam e.2.mask, ∃ x ∈ barGroup A form s.curTeam 0x10004 0, x.1 = m.1
def BarSome (s : State) (f : Fields) (form : Nat) : Prop :=
  let A := barArr s f
  ∀ e ∈ barGroup A form s.curTeam 0x10004 0, ∃ m ∈ barMembers A form s.curTeam e.2.mask, ∀ x ∈ barGroup A form s.curTeam 0x10004 0, x.1 ≠ m.1
theorem witness_Barriers_team :
    BarPremises s2t (barF 1) 1 2 ∧ BarAll s2t (barF 1) 1 ∧ BarPremises halfT (barF 1) 1 2 ∧ BarSome halfT (barF 1) 1 := by
  refine ⟨⟨0x10004, 0, ?_⟩, ?_, ⟨0x10004, 0, ?_⟩, ?_⟩
  · dsimp only [LanesSound, QuietL1]; and_intros <;> decide +kernel
  · dsimp only [BarAll]; decide +kernel
  · dsimp only [LanesSound, QuietL1]; and_intros <;> decide +kernel
  · dsimp only [BarSome]; decide +kernel
theorem witness_Barriers_gang :
    BarPremises s2t (barF 2) 2 1 ∧ BarAll s2t (barF 2) 2 ∧ (barF 2).fn.toNat % 4 ≠ 0 ∧
      (handling [1]).activeNow.head?.map (fun l => l.th.handlerOf) = some (some 0) := by
  refine ⟨⟨0x10004, 0, ?_⟩, ?_, ?_, ?_⟩
  · dsimp only [LanesSound, QuietL1]; and_intros <;> decide +kernel
  · dsimp only [BarAll]; decide +kernel
  · decide +kernel
  · decide +kernel

/-! ### Spawning and ending -/

/-- A spawner with n in v4 and no future. -/
def spawnF : Fields := { flds with c := .zero }
def spawning (n : Nat) (k : State → State := fun s => s) : State := k (one (thread0 ([5, 0] ++ [0, 0] ++ [BitVec.ofNat 32 n])))
/-- Core 0 with k queued tasks; lineage 1 cancelled; the grid a gang of two. -/
def crowd (k : Nat) (s : State) : State := { s with work := { s.work with tasks := (List.range k).map fun i => (i, {}) } }
def cancelled1 (s : State) : State := { s with work := { s.work with lineages := [(1, { grid := some 0, cancel := some 0x89 })] } }
def gang2 (s : State) : State := { s with work := { s.work with grids := [(0, { grid0 with gangTeams := 2 })] } }
theorem witness_SpawningAndEnding_spawn :
    let s := spawning 32
    let s64 := spawning 64 (crowd Config.taskListMax)
    let sBig := spawning 257
    (LanesSound s ∧ s.execLanes spawnF = [lane s] ∧ regNum? spawnF.c = none ∧ spawnF.mod.getLsbD 4 = false ∧
      (reg32 (lane s).th spawnF.b).toNat = 32 ∧ tasksOn s s.hereCore + 1 ≤ Config.taskListMax ∧
      (Tab.get s.work.lineages (lane s).th.lineage.toNat {}).cancel = none) ∧
    ((reg32 (lane (spawning 65)).th spawnF.b).toNat > 64 ∧ (reg32 (lane sBig).th spawnF.b).toNat > 256) ∧
    (tasksOn s64 0 ≤ Config.taskListMax ∧ Config.taskListMax < tasksOn (spawning 1 (crowd (Config.taskListMax + 1))) 0) ∧
    (Tab.get (spawning 1 cancelled1).work.lineages 1 {}).cancel ≠ none ∧ 1 < ((spawning 1 gang2).gridOf (lane s).th).gangTeams ∧
    ((spawning 1).grid? ((spawning 1).team 0).grid = some grid0 ∧ grid0.gangTeams ≤ 1 ∧ grid0.teams ≤ grid0.emitted ∧ grid0.pendChild = [] ∧
      (spawning 1).curTeam = 0 ∧ tasksOn (spawning 1) 0 < Config.taskListMax) := by
  and_intros <;> (try dsimp only [LanesSound]) <;> decide +kernel
/-- Core 0 is eligible under a committed bind record that carries the queue. -/
def bindable (s : State) : State :=
  s.modCore 0 fun k => { k with binds := [(0, { ctl := 0x1FE001, queues := 0xFFF000, slots := 0xC00 })] }
theorem witness_SpawningAndEnding_spawnt : (nextEligible (spawning 1 bindable) grid0).isSome = true := by decide +kernel
theorem witness_SpawningAndEnding_launch :
    let s := at100 0
    checkGlobal s (whoOf s (lane s).th) { r := true, w := true } 64 (reg64 (lane s).th flds.a) = .ok ⟨0x100, 0⟩ ∧
      checkGlobal s (whoOf s (lane s).th) { r := true, w := true } 64 (reg64 (lane s).th flds.a + 320) = .ok ⟨0x240, 0⟩ ∧
      rangePoisoned s (whoOf s (lane s).th) { r := true } 0x100 384 = none ∧ (Tab.get s.work.lineages 1 {}).cancel = none ∧
      (∀ e ∈ s.home.dir, e.2.pending = false) ∧ (Tab.get (cancelled1 s).work.lineages (lane s).th.lineage.toNat {}).cancel ≠ none := by
  and_intros <;> decide +kernel
theorem witness_SpawningAndEnding_others :
    let s := at100 0
    let y := one { thread0 ([5, 0] ++ wide 1) with readyAt := 3 }
    let g : Grid := { grid0 with deadline := 4 }
    let d := fun (t : Nat) => { (one (thread0 [])) with dtime := t, work := { (one (thread0 [])).work with grids := [(0, g)] } }
    (LanesSound s ∧ (s.execLanes flds).head? = some (lane s) ∧ s.grid? (s.team 0).grid = some grid0 ∧ (lane s).th.group = none) ∧
    ((y.thread? 0).map Thread.readyAt = some 3 ∧ y.clock < 3) ∧
    (Tab.find y.work.lineages (reg64 (lane y).th flds.a).toNat = some { grid := some 0 } ∧ y.ctxOf (lane y).th = 0 ∧ (y.work.threads.map (·.1)).Nodup ∧
      (y.thread 0).handlerOf = none ∧ (y.thread 0).cancelled = false ∧ (flds 0 1).mod.getLsbD 0 = true ∧
      (y.thread 0).lineage = reg64 (lane y).th flds.a ∧ (y.thread 0).park = none ∧ (y.thread 0).cancel = none ∧
      Tab.find s.work.lineages (reg64 (lane s).th flds.a).toNat = none) ∧
    ((d 4).grid? 0 = some g ∧ g.deadline ≤ (d 4).dtime ∧ (d 3).dtime < g.deadline ∧ g.cancel = none ∧
      Tab.find (d 4).work.lineages g.lineage.toNat = some { grid := some 0 } ∧
      Tab.find ({ (d 4).work with lineages := [] } : Work).lineages g.lineage.toNat = none) := by
  and_intros <;> (try dsimp only [LanesSound]) <;> decide +kernel
/-- A future at 0x100 with its status word. -/
def future (st : Nat) : State := { at100 0 with mem := memOf 0x100 (natLe 4 st ++ natLe 4 0 ++ natLe 8 77) }
theorem witness_SpawningAndEnding_futures :
    let s := future 1
    let p := future 4
    futCheck flds s (lane s) = .ok (.glob 0 0x100) ∧ PlainLoc s (.glob 0 0x100) ∧ poisoned s 0x100 = false ∧
      locWait s false (.glob 0 0x100) = none ∧ leAt (homeBytes s 0x100 16) 0 4 % 4 ≠ 0 ∧ leAt (homeBytes p 0x100 16) 0 4 % 4 = 0 := by
  and_intros <;> (try dsimp only [PlainLoc]) <;> decide +kernel

/-! ### Isolation -/

/-- A privileged thread in context 0, of either world, with v2, v4 and v6 of its own; contexts 1 and 2 of the two worlds. -/
def priv (world : Bool) (a : Nat) (b c : Word) : State :=
  let s := one (thread0 ([5, 0] ++ wide a ++ [b, 0, c, 0]))
  tables { s with ctxs := [(0, { st := .live, svc := true, world := world }), (1, { st := .live }), (2, { st := .live, world := true })] }
theorem witness_Isolation_tlbinv :
    let s := priv false 0x1000 1 1
    (LanesSound s ∧ (s.execLanes flds).head? = some (lane s) ∧ QuietL1 s s.hereCore ∧ (∀ l ∈ s.execLanes flds, remoteOpen s l.id = false) ∧
      s.home.hostHeld = []) ∧ ctxRemote s (fun x => !(s.ctx x).world) = false ∧
    (ctxSecure s 2 = true ∧ (s.ctx s.hereCtx).world = false) ∧ (reg32 (lane s).th flds.c).toNat = 1 ∧
    ((s.ctx 1).st ≠ .free ∧ (s.ctx 1).world = false ∧ ctxRemote s (fun k => k == 1) = false) ∧
    ((reg32 (lane s).th flds.b).toNat = 1 ∧ (reg64 (lane s).th flds.a).toNat % 4096 = 0) ∧
    ((reg32 (lane (priv false 0x1000 (2 ^ 20 + 1) 1)).th flds.b).toNat > 2 ^ 20 ∧ (reg64 (lane (priv false 0x1001 1 1)).th flds.a).toNat % 4096 ≠ 0) := by
  and_intros <;> (try dsimp only [LanesSound, QuietL1]) <;> decide +kernel
/-- A context descriptor at 0x200: the root at 0x5000 and flags. -/
def ctxDesc (flags : Nat) (world : Bool := false) : State :=
  let s := priv world 0x200 3 0
  { s with mem := Mem.put 0 (Mem.put 0 s.mem 0x200 (natLe 8 0x5000)) 0x208 (natLe 8 flags) }
/-- A read that succeeds and leaves the machine as it is. -/
def reads (s : State) (va n : Nat) : Prop := vaRead (whoOf s (lane s).th) { r := true } va n s = (.ok (homeBytes s va n), s)
theorem witness_Isolation_ctxset :
    let s := ctxDesc 1
    (LanesSound s ∧ (s.execLanes flds).head? = some (lane s) ∧ canonical (reg64 (lane s).th flds.a) = true ∧ reads s 0x200 64) ∧
    (leAt (homeBytes s 0x200 64) 8 4 < 4 ∧ leAt (homeBytes s 0x200 64) 0x0C 4 = 0 ∧ leAt (homeBytes s 0x200 64) 0x30 16 = 0 ∧
      rootOk (leAt (homeBytes s 0x200 64) 0 8) = true ∧ ((List.range Config.numContexts).find? fun x => (s.ctx x).st == .free) = some 3) ∧
    (reads (ctxDesc 4) 0x200 64 ∧ 4 ≤ leAt (homeBytes (ctxDesc 4) 0x200 64) 8 4 ∧ reads (ctxDesc 2) 0x200 64 ∧
      leAt (homeBytes (ctxDesc 2) 0x200 64) 8 4 / 2 % 2 = 1) := by
  and_intros <;> (try dsimp only [LanesSound, reads]) <;> decide +kernel
theorem witness_Isolation_root :
    let s := priv false 0x5000 1 0
    let u := (tearDown 1 s).modCtx 1 (fun c => { c with killer := some 0 })
    ((reg32 (lane s).th flds.b).toNat = 1 ∧ (s.ctx 1).st = .live ∧ rootOk (reg64 (lane s).th flds.a).toNat = true ∧ QuietL1 s s.hereCore ∧
      rootOk (reg64 (lane (priv false 0x5001 1 0)).th flds.a).toNat = false) ∧
    ((reg32 (lane (priv false 0x5000 0 0)).th flds.b).toNat = s.hereCtx ∧ 64 ≤ (reg32 (lane (priv false 0 64 0)).th flds.b).toNat) ∧
    (1 ≠ s.hereCtx ∧ ctxGone u 1 = true) ∧
    (ctxRemote s (fun k => k == 1) = false ∧ (∀ l ∈ s.execLanes flds, remoteOpen s l.id = false) ∧ s.home.hostHeld = []) := by
  and_intros <;> (try dsimp only [QuietL1]) <;> decide +kernel
/-- A team of context 1 on core 1 keeps the context from going at once. -/
theorem witness_Isolation_kill :
    let s0 := priv false 0x5000 1 0
    let s := { s0 with work := { s0.work with
      threads := s0.work.threads ++ [(1, { thread0 [] with team := 1, stopped := true })], teams := s0.work.teams ++ [(1, { team0 with grid := 1, core := some 1 })]
      grids := s0.work.grids ++ [(1, { grid0 with ctx := 1 })] } }
    let s1 := s.modCore 1 fun k => { k with serving := some { team := 1, threads := [1] } }
    ctxGone ((tearDown 1 s1).modCtx 1 (fun c => { c with killer := some 0 })) 1 = false := by decide +kernel
theorem witness_Isolation_wset :
    let s := priv true 0x200000 1 1
    ((s.ctx s.hereCtx).world = true ∧ (reg32 (lane s).th flds.b).toNat = 1 ∧ (reg32 (lane s).th flds.c).toNat = 1) ∧
    (teamsOn s 1 = [] ∧ (∀ e ∈ (s.core 1).part, e.2.getLsbD 31 = false) ∧ teamsOn s 0 ≠ []) ∧
    ((reg32 (lane (priv true 0 128 1)).th flds.b).toNat = 128 ∧ (reg32 (lane (priv true 0 127 2)).th flds.c).toNat > 1) ∧
    ((reg32 (lane (priv true 0 63 16)).th flds.c).toNat % 4 = 0 ∧ (reg32 (lane (priv true 0 63 16)).th flds.b).toNat < 64) ∧
    ((∀ e ∈ s.fabric.flows, e.2.port ≠ 1) ∧ ∀ e ∈ s.queues, e.2.en = true → (s.ctx e.2.ctx).fn ≠ some 1) ∧
    ((reg64 (lane s).th flds.a).toNat = 1 * 2 ^ 21 ∧ (∀ l ∈ s.execLanes flds, releaseWaits s l.id 5 = false) ∧
      (∀ e ∈ s.home.dir, e.2.pending = false) ∧ (∀ e ∈ s.home.dir, 1 * 2 ^ 21 ≤ e.1 → e.1 < 2 * 2 ^ 21 → hostHolds s e.1 = false)) ∧
    (∃ e ∈ ({ s.fabric with flows := [(0, { port := 1 })] } : Fabric).flows, e.2.port = 1) := by
  and_intros <;> decide +kernel

/-! ### Regions, images, pins -/

/-- One page at the address in v2, in a memory mode, with one line held in the L1 of core 0. -/
def region (m : Nat) (b : Word := 1) : State :=
  let s := one (thread0 ([5, 0] ++ wide 0x4000 ++ [b])) m
  { s with home := { s.home with dir := [(0x4000, { st := .s, sharers := 1 })] } }
/-- The page in host bias, its lines answered or not. -/
def biased (all : Bool) : State :=
  let s := region 0
  { s with home := { s.home with bias := [4], flips := if all then (pageLines 0x4000).map fun x => (x, false) else [] } }
theorem witness_RegionsAndImages_region :
    let s := region 0
    (LanesSound s ∧ (s.execLanes flds).head? = some (lane s) ∧ (reg64 (lane s).th flds.a).toNat % 4096 = 0 ∧ (reg32 (lane s).th flds.b).toNat = 1 ∧
      (reg32 (lane (region 0 65536)).th flds.b).toNat = 65536 ∧
      (∀ l ∈ s.execLanes flds, releaseWaits s l.id 5 = false) ∧ QuietL1 s s.hereCore ∧ (∀ e ∈ s.home.dir, e.2.pending = false) ∧
      ∀ e ∈ s.fabric.leases, isLocal e.1 = false) ∧
    (rangePages s (whoOf s (lane s).th) (some 0) 0x4000 1 0 = .ok [0x4000] ∧
      rangePages (region 1) (whoOf s (lane s).th) (some 1) 0x4000 1 0 = .ok [0x4000] ∧
      rangePages s (whoOf s (lane s).th) none 0x4000 1 0 = .ok [0x4000]) ∧
    (hostBias s 0x4000 = false ∧ hostBias (biased true) 0x4000 = true ∧
      (∀ x ∈ pageLines 0x4000, Tab.has (biased true).home.flips x = true) ∧ Tab.has (biased false).home.flips 0x4000 = false) := by
  and_intros <;> (try dsimp only [LanesSound, QuietL1]) <;> decide +kernel
/-- The handler wave of core 0 with an image address in v2; thread 1 is a stopped or a running thread of the team. -/
def imaging (stopped : Bool) : State :=
  let s := handling [1] ([5, 0] ++ wide 0x4000)
  { s with mem := memOf 0x4000 (natLe 4 1 ++ natLe 4 1 ++ natLe 4 1)
           work := { s.work with threads := [(0, { (s.thread 0) with hoist := 9 }), (1, { thread0 [] with stopped := stopped })] } }
theorem witness_RegionsAndImages_images :
    let s := imaging true
    let ts := (teamThreads s 0).filter (fun e => e.2.hoist == 0 && e.2.hwave == 0)
    let u := s.modCore 0 (fun k => { k with suspend := none })
    (LanesSound s ∧ (s.execLanes flds).head? = some (lane s) ∧ (reg32 (lane s).th flds.b).extractLsb' 7 25 = 0 ∧ ts = [(1, s.thread 1)] ∧
      (reg64 (lane s).th flds.a).toNat % 64 = 0 ∧ canonical (reg64 (lane s).th flds.a) = true ∧ hasStopped s 1 (s.thread 1) = true ∧
      hasStopped (imaging false) 1 ((imaging false).thread 1) = false) ∧
    ((vaWrite (whoOf s (lane s).th) { w := true } 0x4000 (waveImage u 0 ts) u).toOption.isSome = true ∧ ∀ e ∈ s.home.dir, e.2.pending = false) ∧
    ((vaRead (whoOf s (lane s).th) { r := true } 0x4000 imageSize u).2 = u ∧
      (vaRead (whoOf s (lane s).th) { r := true } 0x4000 imageSize u).1.toOption.any (fun bs =>
        (BitVec.ofNat 32 (leAt bs 4 4) &&& BitVec.ofNat 32 (leAt bs 8 4)).getLsbD (s.thread 1).hlane) = true ∧
      1 ∉ s.activeNow.map Lane.id ∧ (s.thread 1).stopped = true) := by
  and_intros <;> (try dsimp only [LanesSound]) <;> decide +kernel
/-- SPPIN of one page and of 257; a core with all frames pinned turns it away. -/
def pinning (n : Word) : State := one (thread0 ([5, 0] ++ [0, 0] ++ [n]))
theorem witness_RegionsAndImages_pins :
    let s := pinning 1
    (LanesSound s ∧ (s.execLanes flds).head? = some (lane s) ∧ (reg32 (lane s).th flds.a).toNat % 4096 = 0 ∧ s.team? 0 = some team0 ∧
      256 < (reg32 (lane (pinning 257)).th flds.b).toNat ∧ (reg32 (lane s).th flds.b).toNat = 1 ∧ 0 + 4096 * 1 ≤ scratchSize s 0 ∧
      pinFits s 0 0 [0] = true ∧ team0.core ≠ none ∧ missingPages s 0 [0] = [(0, 0)] ∧
      missingPages (s.modTeam 0 fun t => { t with pages := [(0, {})] }) 0 [0] = []) := by
  and_intros <;> (try dsimp only [LanesSound]) <;> decide +kernel
theorem witness_RegionsAndImages_full :
    pinFits ((pinning 1).modTeam 0 fun t => { t with pages := (List.range 256).map fun k => (k + 1, { pinned := true }) }) 0 0 [0] = false := by
  decide +kernel

/-! ### Sequences -/

/-- Sequence 0 of generation 1, its log at 0x1000, with handle 0x4000. -/
def seq0 : Seq := { gen := 1, used := true, live := true, log := 0x1000, cap := 4, costmax := 10 }
/-- Sequence entries, and thread 0 with v2 a handle, v4 a token or a position, v6 a cost. -/
def seqAt (qs : Tab Seq) (b : Word := 0) (c : Word := 1) (h : Word := 0x4000) : State :=
  { one (thread0 [5, 0, h, 0, b, 0, c]) with seqs := qs }
theorem witness_Sequences_entries :
    let s := seqAt [(0, seq0)]
    let child : Seq := { seq0 with p0 := 1, parent := 0 }
    let full : Seq := { seq0 with drafts := List.replicate 16 7 }
    let d := seqAt [(0, { seq0 with drafts := [7] })] 1
    (LanesSound s ∧ s.execLanes flds = [lane s] ∧ seqOf s (s.ctxOf (lane s).th) 0x4000 = some (0, seq0) ∧
      seqOf s (s.ctxOf (lane s).th) 0x8000 = none ∧ escalates s (lane s).th = false) ∧
    ((∀ e ∈ s.seqs, e.2.used = true → e.2.parent = 0 → e.2.p0 = 0 ∨ e.1 = 0) ∧ seq0.p0 = 0) ∧
    (∃ e ∈ (seqAt [(0, seq0), (1, child)]).seqs, e.2.used = true ∧ e.2.parent = 0 ∧ 0 < e.2.p0 ∧ e.1 ≠ 0) ∧
    (seq0.stopped = false ∧ (reg32 (lane (seqAt [(0, seq0)] 0xFFFF)).th flds.b).toNat ≤ 0xFFFF ∧ pnLive s seq0 true = [] ∧ seq0.drafts.length < 16 ∧
      16 ≤ full.drafts.length) ∧
    (pnLive s seq0 false = [] ∧ seq0.len + 1 - seq0.p0 ≤ seq0.cap ∧ min (seq0.cost + 1) (2 ^ 32 - 1) ≤ seq0.costmax ∧
      (vaWrite (whoOf s (lane s).th) { w := true } 0x1000 (natLe 2 0) (advance s)).toOption.isSome = true ∧ (∀ e ∈ s.home.dir, e.2.pending = false) ∧
      ({ seq0 with len := 4 } : Seq).cap < ({ seq0 with len := 4 } : Seq).len + 1 - 0) ∧
    ((reg32 (lane d).th flds.b).toNat = 1 ∧ (d.seq 0).drafts = [7]) := by
  and_intros <;> (try dsimp only [LanesSound]) <;> decide +kernel
/-- The field read by SEQRD: the length, and the token at a position. -/
theorem witness_Sequences_field :
    (match seqField (whoOf (seqAt []) (lane (seqAt [])).th) 0 { seq0 with len := 2 } 0 0 (seqAt []) with | .ok _ => true | _ => false) = true ∧
    (match seqField (whoOf (seqAt []) (lane (seqAt [])).th) 0 { seq0 with len := 2 } 8 1 (advance (seqAt [])) with | .ok _ => true | _ => false) = true := by
  decide +kernel
/-- A descriptor at 0x100 of a log of four tokens at 0x1000, and a parent of two tokens to fork at position 2. -/
def seqDescAt (vs : List Word) (qs : Tab Seq) : State :=
  { one (thread0 vs) with seqs := qs, mem := memOf 0x100 (natLe 8 0x1000 ++ natLe 4 4 ++ natLe 4 10) }
def descSeq : Seq := { used := true, live := true, log := 0x1000, cap := 4, costmax := 10 }
/-- A descriptor's check that gives an entry. -/
def descOk (s : State) (ea : DWord) (l : Lane) (q : Seq) : Bool := match descOf s ea l with | .ok (some x) => x == q | _ => false
theorem witness_Sequences_new :
    let s := seqDescAt ([5, 0] ++ wide 0x100) []
    let k := seqDescAt ([5, 0] ++ [0x4000, 0] ++ [2, 0] ++ wide 0x100) [(0, { seq0 with len := 2 })]
    (checkGlobal s (whoOf s (lane s).th) { r := true } 8 (reg64 (lane s).th flds.a) = .ok ⟨0x100, 0⟩ ∧
      rangePoisoned s (whoOf s (lane s).th) { r := true } 0x100 32 = none ∧ descOk s 0x100 (lane s) descSeq = true ∧
      descOk (advance s) 0x100 (lane s) descSeq = true ∧ freeSeq s = some (0, 1)) ∧
    (checkGlobal k (whoOf k (lane k).th) { r := true } 8 (reg64 (lane k).th flds.c) = .ok ⟨0x100, 0⟩ ∧ descOk k 0x100 (lane k) descSeq = true ∧
      seqOf k (k.ctxOf (lane k).th) (reg32 (lane k).th flds.a) = some (0, { seq0 with len := 2 }) ∧
      (reg32 (lane k).th flds.b).toNat ≤ 2 ∧ freeSeq k = some (1, 1)) := by
  and_intros <;> decide +kernel
/-- The table with every entry in use has no free one. -/
theorem witness_Sequences_full : ∀ n i : Nat, ∀ s : State, (∀ k, (s.seq k).used = true) → firstFree s n i = none := by
  intro n
  induction n with
  | zero => intros; rfl
  | succ n ih => intro i s h; simp [firstFree, h, ih]
/-- A pennant image without faults, and one of the reserved condition. -/
theorem witness_Sequences_pennant :
    let s := at100 0
    let t := { s with mem := memOf 0x102 [3] }
    (checkGlobal s (whoOf s (lane s).th) { r := true } 64 (reg64 (lane s).th flds.a) = .ok ⟨0x100, 0⟩ ∧ poisoned s 0x100 = false ∧
      PlainLoc s (.glob 0 0x100) ∧ isRemote 0x100 = false ∧ QuietL1 s (s.coreOf (lane s).th)) ∧
      pnOk (BitVec.ofNat 512 (leNat (homeBytes s 0x100 64))) = true ∧ pnOk (BitVec.ofNat 512 (leNat (homeBytes t 0x100 64))) = false := by
  and_intros <;> (try dsimp only [PlainLoc, QuietL1]) <;> decide +kernel
/-- SAMPLE of the sequence with temperature 0 over two logits at offset 64, and of the least positive temperature over a 0. -/
def sampling (t : Word) : State :=
  let s := seqAt [(0, seq0)] 64
  let th := { thread0 ([5, 0, 0x4000, 0, 64, 0] ++ [0, 0] ++ [0, 0, 0, 0] ++ [t, 0x3F800000, 1, 2]) with pc := 0x10004 }
  { s with work := { s.work with threads := [(0, th)] } }
def sampF : Fields := { flds with c := .reg 12 }
/-- The arguments of a draw. -/
def argOk (acc : Bool) (s : State) : Bool := match sampleArg sampF acc s (lane s) with | .ok a => a.2 == 2 && a.1.k == 1 | .error _ => false
theorem witness_Sequences_sample :
    let s := sampling 0
    let o := { sampling 0 with cores := (own {}).cores }
    (argOk false s = true ∧ checkScratch s 0 4 (sampleOff sampF (lane s)) = none ∧ checkScratch s 0 1 (sampleOff sampF (lane s) + 4 * 2 - 1) = none ∧
      (drawToken ⟨0, 0x3F800000, 1, 0, 0, 0⟩ [0x3F800000, 0x40000000]) = some 1) ∧
    (pagesOf 64 8 = [0] ∧ pageReached (s.modTeam 0 fun t => { t with pages := [(0, {})] }) 0 0 = true ∧
      32 < (pagesOf 64 (4 * 65536)).length ∧ inTransit s 0 0 1 = false ∧ (8 + 508) / 256 = 2 ∧ backPoisoned s 0 64 = false ∧ backPoisoned s 0 320 = false) ∧
    (GroupReady sampF o (lane o) ∧ argOk true o = true) := by
  and_intros <;> (try dsimp only [GroupReady, Issuing, LanesSound]) <;> decide +kernel
theorem witness_Sequences_nan : drawToken ⟨1, 0x3F800000, 1, 0, 0, 0⟩ [0] = none := by decide +kernel

/-! ### Scheduling -/

/-- Core 0 bound to every queue of context 0, with grid 0, a task and no team. -/
def bind0 : Bind := { ctl := 0x1FE001, queues := 0xFFF000, slots := 0x2400 }
def gridS (emitted : Nat) : Grid := { grid0 with shapeSec := none, emitted := emitted, regs := 16 }
def idle (g : Grid) (tasks : Tab Task) : State :=
  tables { State.reset with
    ctxs := [(0, { st := .live })], cores := [(0, { binds := [(0, bind0)] })], queues := [(0, { cfg := 0x80000004, base := 0x8000 })]
    work := { grids := [(0, g)], lineages := [(1, { grid := some 0 })], tasks := tasks, nextGrid := 1, nextLineage := 2, nextTask := tasks.length } }
/-- A launch record at 0xA000 for a grid of one thread of the code object at 0xC000; a record of zeros stands at 0xB000. -/
def launchRecord : List Byte :=
  natLe 8 0 ++ natLe 8 0xC044 ++ natLe 8 0xC000 ++ natLe 8 0 ++ natLe 4 1 ++ natLe 2 1 ++ natLe 1 1 ++ natLe 1 1 ++ natLe 1 16 ++ natLe 1 0 ++
    natLe 2 0 ++ natLe 1 1 ++ natLe 3 0
def codeObject : List Byte :=
  natLe 4 0x014F594E ++ natLe 2 1 ++ natLe 2 2 ++ natLe 8 0 ++ natLe 16 0 ++ (natLe 8 1 ++ natLe 4 64 ++ natLe 4 64) ++ (natLe 8 3 ++ natLe 4 128 ++ natLe 4 0)
/-- Queue 0 with one entry that names a record. -/
def launching (record : Nat) : State :=
  let s := idle (gridS 1) []
  { s with mem := Mem.put 0 (Mem.put 0 (Mem.put 0 s.mem 0x8000 (natLe 8 record)) 0xA000 launchRecord) 0xC000 codeObject
           queues := [(0, { cfg := 0x80000004, base := 0x8000, tail := 1, waits := true })] }
/-- What becomes of the record of the queue's entry. -/
def taken (s : State) : Option Accept :=
  match devGet 0 0x8000 8 s with
  | (.ok bs, v) => some (acceptRecord 0 (some 0) none (canonVa (leNat bs)) v).1
  | _ => none
theorem witness_Scheduling_queues :
    ((launching 0xA000).queue 0).en = true ∧ ((launching 0xA000).queue 0).tail = ((launching 0xA000).queue 0).head + 1 ∧
      ((launching 0xA000).queue 0).waits = true ∧ taken (launching 0xA000) = some .queued ∧ taken (launching 0xB000) = some .rejected ∧ 0xB000 < 2 ^ 57 ∧
      2 ^ ((launching 0xA000).queue 0).log2n < ((17 : Word) - ((launching 0xA000).queue 0).head).toNat ∧ ((idle (gridS 1) []).queue 0).waits = false := by
  and_intros <;> decide +kernel
/-- With a full lineage table no lineage is given, which is the case noRoom. -/
theorem witness_Scheduling_noRoom (s : State) (h : s.work.lineages = List.replicate 65536 (0, {})) : newLineage 0 none none s = none := by
  rw [newLineage, if_pos]
  rw [h, List.length_replicate]
  exact Nat.le_refl _
def task0 (k : TaskKind := .teams 0 1) : Task := { kind := k, core := 0 }
theorem witness_Scheduling_tasks :
    let s := idle (gridS 0) []
    let w := idle (gridS 1) [(0, task0)]
    let u := returnStrays 0 w
    (s.grid? 0 = some (gridS 0) ∧ (gridS 0).emitted < (gridS 0).teams ∧ (gridS 0).teams ≤ (gridS 0).emitted + (gridS 0).gangTeams ∧
      (gridS 0).pendChild = [] ∧ nextEligible s (gridS 0) = some 0 ∧ tasksOn s 0 < Config.taskListMax) ∧
    (w.guidon.frozen = false ∧ pickTask 0 (allowed 0 w) u = some 0 ∧ (w.core 0).shift = none ∧ (placeTask 0 0 u).isSome = true ∧ Tab.find u.work.tasks 0 = some task0 ∧
      task0.kind = .teams 0 1 ∧ task0.moving w.clock = false ∧ (gridS 1).redundant = false ∧ (gridS 1).hoists = 1 ∧
      (gridS 1).playing = false ∧ (gridS 1).recording = false ∧
      findRecord { u with work := { u.work with tasks := Tab.del u.work.tasks 0 } } 0 0 (hoistNeeds (gridS 1)) = some (0, [(0, [0])])) ∧
    (pickTask 0 (allowed 0 s) (returnStrays 0 s) = none ∧ teamsOn w 0 = []) ∧
    (let v := w.modCore 0 fun k => { k with shift := some [1] }
     pickTask 0 (allowed 0 v) (returnStrays 0 v) = some 0 ∧ (v.core 0).shift ≠ none ∧
      (placeTask 0 0 (returnStrays 0 v)).map (fun u => u.work.tasks.length) = some 0 ∧ v.work.tasks.length = 1) := by
  and_intros <;> decide +kernel
/-- Team 0 on core 0 with its one thread parked at its safe point and no wave; and saved, with a task that restores it. -/
def resting (preempt : Bool := false) : State :=
  let s := one { thread0 [] with stopped := true }
  { s with work := { s.work with waves := [], teams := [(0, { team0 with preempt := preempt })] } }
def saved0 : State :=
  let s := idle (gridS 1) [(0, task0 (.restore [0]))]
  { s with work := { s.work with teams := [(0, { team0 with core := none })], threads := [(0, thread0 [])] } }
/-- The same saved team, with core 1 bound as core 0 is. -/
def saved1 : State := saved0.modCore 1 fun k => { k with binds := [(0, bind0)] }
theorem witness_Scheduling_preemption :
    let s := resting
    let u := s.modTeam 0 (fun x => { x with preempt := true })
    let busy := one (thread0 [])
    (s.guidon.frozen = false ∧ s.team? 0 = some team0 ∧ team0.core = some 0 ∧ gangMates s 0 = [0] ∧ swapWanted s 0 = false ∧ teamQuiet u 0 = true ∧
      team0.role = .single ∧ team0.swap = false ∧ gangMates u 0 = [0] ∧ s.work.threads.all (fun e => e.2.batch.isNone) = true ∧ (s.work.threads.map (·.1)).Nodup) ∧
    teamQuiet (busy.modTeam 0 (fun x => { x with preempt := true })) 0 = false ∧
    (teamsOn busy 0 = [(0, team0)] ∧ (busy.team 0).core ≠ none) ∧
    (mayRestore 1 0 saved1 = true ∧ (task0 (.restore [0])).kind.isRestore = true ∧ (placeTask 0 1 (carried 1 0 saved1)).isSome = true ∧
      (saved1.team? 0).map Team.role = some .single ∧ Tab.find saved1.work.tasks 0 = some (task0 (.restore [0])) ∧ mayRestore 0 0 saved0 = false) ∧
    ({ core := 0, queued := 0, transit := some 5 } : Task).transit = some 5 := by
  and_intros <;> decide +kernel
/-- Team 0 waits for a condition and fills its core, whose list holds a task of the grid that finds no room. -/
def waiting : State :=
  let s := idle (gridS 1) [(0, task0)]
  { s with work := { s.work with
    threads := [(0, { thread0 [] with park := some (.monitor 0) })], nextThread := 1, nextTeam := 1
    teams := [(0, { team0 with hoists := (List.range 4).map fun q => { index := q, quad := q, slots := List.range 32, launched := 1 } })] } }
theorem witness_Scheduling_swap :
    waiting.guidon.frozen = false ∧ (waiting.team? 0).map Team.core = some (some 0) ∧ gangMates waiting 0 = [0] ∧
      (waiting.team 0).role = .single ∧ swapWanted waiting 0 = true ∧ teamQuiet waiting 0 = true := by
  and_intros <;> decide +kernel
theorem witness_Scheduling_cores :
    let s := idle (gridS 1) [(0, task0)]
    let p := s.modCore 0 fun k => { k with l1Pend := some 2 }
    let b := s.modCluster 0 fun k => { k with vacBusy := true }
    let hot := { resting with dtime := 2000000 }
    ((s.work.tasks.map (·.1)).Nodup ∧ movable s.clock task0 = true) ∧ ((p.core 0).l1Pend = some 2 ∧ teamsOn p 0 = [] ∧ (s.core 0).l1Pend = none) ∧
    ((b.cluster 0).vacBusy = true ∧ (s.cluster 0).vacBusy = false ∧ (∀ i, i < 8 → (0x20F : Word).getLsbD i = true → teamsOn s (8 * 0 + i) = []) ∧
      (0x2020F : Word).extractLsb' 16 8 ≠ 0) ∧
    (95 < hot.power.mig.toNat + 1 ∧ hot.power.mig.toNat ≤ 95 ∧ (hot.core 0).lastMig = none ∧
      leastBy (fun t => t.2.placed) ((teamsOn hot 0).filter fun t => !t.2.preempt && decide (t.2.placed + 2000000 ≤ hot.dtime)) = some (0, team0)) := by
  and_intros <;> decide +kernel

/-! ### Waves and teams -/

/-- Team 0 with a ready thread and no wave. -/
def ready : State := let s := one (thread0 []); { s with work := { s.work with waves := [] } }
theorem witness_WavesAndTeams_waves :
    let h := let s := handling [1]; { s with work := { s.work with waves := [] } }
    let f := { (one (thread0 [])) with work := { (one (thread0 [])).work with waves := [(0, { wave0 with forming := some 3 })] } }
    (ready.guidon.frozen = false ∧ formHandler ready 0 0 = none ∧
      (formable ready 0 0).map (fun e => (e.1, e.2.1.index, e.2.2.1, e.2.2.2.1)) = some (0, 0, 0, 0x10004)) ∧
    (formHandler h 0 0).map (fun e => (e.1, e.2.1)) = some (0, 0x10004) ∧ formable ready 0 1 = none ∧ pickWave ready 0 0 = none ∧
    ((f.wave? 0).map Wave.forming = some (some 3) ∧ f.clock < 3 ∧ ({ f with clock := 3 } : State).clock = 3) := by
  and_intros <;> decide +kernel
/-- A chosen wave that issues alone, as in StepRunsDecoded. -/
theorem witness_WavesAndTeams_issue :
    pickWave (advanceTime placed) 0 0 = some 0 ∧ IssuesAlone (rejoin 0 (advanceTime placed)) 0 (.iadd iadd0) entered ∧ entered.arraysHere = .clean :=
  ⟨witness_StepRunsDecoded.2.2.1, witness_StepRunsDecoded.2.2.2.2.1, witness_StepRunsDecoded.2.2.2.2.2.1⟩
/-- The executing thread reads v1, which its array lost. -/
theorem witness_WavesAndTeams_lost :
    let u := entered.modCore 0 fun c => { c with arrays := .lost 1 1 1 }
    fieldsOf (.iadd iadd0) = some iadd0 ∧ u.arraysHere = .lost 1 1 1 ∧ (usesOf (.iadd iadd0) iadd0).srcs.contains (1 : Byte).toNat = true ∧
      byHidx ((u.execLanes iadd0).filter fun x => (1 : Word).getLsbD x.lane) = [lane u] := by
  and_intros <;> decide +kernel
/-- Team 0 without threads, owning the engine group; and its grid when the team is gone too. -/
def ended : State := let s := own {}; { s with work := { s.work with waves := [], threads := [] } }
def gone : State := let s := ended; { s with work := { s.work with teams := [] } }
theorem witness_WavesAndTeams_ends :
    canRetire ended 0 = true ∧ canRetire ready 0 = false ∧ (ended.team? 0).map Team.core = some (some 0) ∧ (ended.core 0).owner = some 0 ∧
      drained gone 0 = true ∧ drained ended 0 = false ∧ gone.grid? 0 = some grid0 ∧ grid0.result = 0 ∧ grid0.future = 0 ∧
      (saved0.team? 0).map Team.core = some none := by
  and_intros <;> decide +kernel
/-- Team 0 with some pages, and a thread that waits for one. -/
def paging (ps : Tab Page) : State :=
  (one { thread0 [] with park := some (.refill 0), pages := [(0, 0)] }).modTeam 0 fun t => { t with pages := ps }
def heldPages (s : State) : Nat := ((residents s 0).filter fun e => e.2.2.st == .resident || e.2.2.st == .leaving).length
theorem witness_WavesAndTeams_refill :
    let full := paging ((0, { st := .arriving }) :: (List.range 128).map fun k => (k + 1, {}))
    (Tab.find (paging []).work.teams 0).map (fun t => Tab.find t.pages 0) = some none ∧
    pageSt (paging [(0, { st := .leaving })]) 0 0 = some .leaving ∧
    (pageSt (paging [(0, { st := .arriving })]) 0 0 = some .arriving ∧ heldPages (paging [(0, { st := .arriving })]) < frameCount (paging []) 0 ∧
      refillPoison (paging []) 0 0 = none ∧ ((paging [(0, { st := .arriving })]).work.threads.map (·.1)).Nodup) ∧
    (frameCount full 0 ≤ heldPages full ∧ ((residents full 0).filter fun e => e.2.2.st == .leaving).length = 0 ∧ victimPage full 0 = some (0, 1) ∧
      (full.team 0).core = some 0) := by
  and_intros <;> decide +kernel
/-- A page whose backing page has a poisoned line. -/
theorem witness_WavesAndTeams_poison :
    refillPoison { paging [] with home := { (paging []).home with poison := [(lineOf (Config.backingPage 0 0), 0)] } } 0 0 = some 0 := by
  unfold refillPoison
  rw [show List.range 16 = 0 :: (List.range 15).map (· + 1) from by decide, List.find?_cons_of_pos]
  · rfl
  · simp [poisoned, Tab.has, Tab.find]

/-! ### The directory, misses, walks, far operations, the host -/

/-- Directory entries of the line at 0x100, with core 0's L1 line in a state, and core 1 another requester. -/
def dirAt (d : Dir) (l1 : Tab L1Line := []) (wbs : Tab L1Line := []) : State :=
  { State.reset with home := { dir := [(0x100, d)] }, cores := [(0, { l1 := l1, wbs := wbs })] }
theorem witness_Directory_requests :
    let x := dirAt { st := .x, owner := 0, sharers := 1 } [(0x100, { st := .m })]
    let sh := dirAt { st := .s, sharers := 3 }
    let b := dirAt { st := .b, sharers := 1, tag := 11 } [(0x100, { st := .b })]
    (lineOf 0x1FF = 0x100 ∧ 127 < Config.numCores ∧ RoomFor (dirAt { pending := true }) 127 0x100 ∧ (dirOf (dirAt { pending := true }) 0x100).pending = true ∧
      (11 : BitVec 4).toNat ≤ 11) ∧ (Idle (dirAt {}) 0x100 .i ∧ RoomFor (dirAt {}) 1 0x100) ∧
    (Idle x 0x100 .x ∧ (dirOf x 0x100).owner ≠ 1 ∧ (l1Line x 0 0x100).map L1Line.st = some .m ∧ RoomFor x 1 0x100) ∧
    (Idle sh 0x100 .s ∧ (dirOf sh 0x100).sharers &&& ~~~coreBit 1 ≠ 0 ∧ RoomFor sh 1 0x100) ∧
    (Idle b 0x100 .b ∧ (dirOf b 0x100).tag.toNat ≤ 11 ∧ RoomFor b 1 0x100) := by
  and_intros <;> (try dsimp only [RoomFor, Idle]) <;> decide +kernel
theorem witness_Directory_transactions :
    let p := dirAt { st := .s, pending := true, invs := 1, acks := 1, grant := some (1, .own) } [(0x100, { st := .s })]
    let a := dirAt { st := .s, pending := true, acks := 1, grant := some (1, .own) }
    let a2 := dirAt { st := .s, pending := true, acks := 3, grant := some (2, .own) }
    let m := dirAt { st := .b, sharers := 1, tag := 0 } [(0x100, { st := .b })]
    let g := dirAt { st := .b, pending := true, tag := 0, answers := [(0, 5, 1)] }
    ((dirOf p 0x100).pending = true ∧ (dirOf p 0x100).st ≠ .b ∧ (dirOf p 0x100).invs.getLsbD 0 = true) ∧
    ((dirOf a 0x100).acks.getLsbD 0 = true ∧ (dirOf a 0x100).invs = 0 ∧ (dirOf a 0x100).acks &&& ~~~coreBit 0 = 0 ∧
      (dirOf a 0x100).grant = some (1, .own) ∧ (dirOf a 0x100).waits = [] ∧ RoomFor a 1 0x100) ∧ (dirOf a2 0x100).acks &&& ~~~coreBit 0 ≠ 0 ∧
    ((dirOf m 0x100).st = .b ∧ (dirOf m 0x100).pending = false ∧ (coresOf (dirOf m 0x100).sharers).head? = some 0 ∧
      (l1Line m 0 0x100).map L1Line.st = some .b) ∧
    ((dirOf g 0x100).pending = true ∧ (dirOf g 0x100).sharers = 0 ∧ (dirOf g 0x100).grant = none ∧ poisoned g 0x100 = false) ∧
    ((dirOf a 0x100).pending = true ∧ (dirOf (dirAt { st := .x, owner := 0, sharers := 1 }) 0x100).pending = false ∧
      (dirAt { st := .x, owner := 0, sharers := 1 }).home.l2Wait = []) := by
  and_intros <;> (try dsimp only [RoomFor, Idle]) <;> decide +kernel
/-- An L1 line that is evicted, with its write-back table one short of full and full. -/
theorem witness_Directory_evictions :
    let l : L1Line := { st := .m }
    let s := dirAt { st := .x, owner := 0, sharers := 1 } [(0x100, l)] ((List.range 31).map fun k => (0x10000 + 256 * k, l))
    let f := dirAt { st := .x, owner := 0, sharers := 1 } [(0x100, l)] ((List.range 32).map fun k => (0x10000 + 256 * k, l))
    let w := dirAt { st := .x, owner := 0, sharers := 1 } [] [(0x100, l)]
    l1Line s 0 0x100 = some l ∧ (s.core 0).wbs.length < 32 ∧ 32 ≤ (f.core 0).wbs.length ∧
      (l1Line (dirAt {} [(0x100, { st := .swm, mask := 1 })]) 0 0x100).map L1Line.st = some .swm ∧
      (Tab.has (w.core 0).wbs 0x100 = true ∧ l1Line w 0 0x100 = none ∧ (dirOf w 0x100).st = .x ∧ (dirOf w 0x100).owner = 0 ∧
        ∀ e ∈ w.home.dir, ∀ g ∈ e.2.grant, g.1 ≠ 0) := by
  and_intros <;> decide +kernel
theorem witness_MissesAndWalks :
    let t : Thread := { thread0 [] with park := some (.miss 1), asks := [(0x100, false)] }
    let s := one t
    let full := s.modCore 0 fun k => { k with miss := (List.range 256).map fun i => (0x10000 + 64 * i, {}) }
    let m := { (dirAt {}) with cores := [(0, { miss := [(0x140, {})] })] }
    let w := { tables (at100 0) with walks := [⟨0, 0, 0x5000⟩, ⟨0, 0, 2 ^ 40⟩] }
    (missWaiters s 0 = [(0, t)] ∧ s.thread? 0 = some t ∧ (s.core 0).miss.length + (newMisses s 0 t.asks).length ≤ 256 ∧
      (full.core 0).miss.length + (newMisses full 0 t.asks).length > 256) ∧
    (lineOf 0x140 = 0x100 ∧ Tab.find (m.core 0).miss 0x140 = some {} ∧ ({} : Miss).swm = false ∧ ({} : Miss).l2Only = false ∧ ({} : Miss).hint ≠ 3 ∧
      Idle m 0x100 .i ∧ RoomFor m 0 0x100 ∧ underWay m 0 0x100 [.read, .data] = false) ∧
    (w.walks[0]? = some ⟨0, 0, 0x5000⟩ ∧ (walkFrom w 0 (w.ctx 0).world 0x5000 4 (w.ctx 0).root).isSome = true ∧
      walkFrom w 0 (w.ctx 0).world (2 ^ 40) 4 (w.ctx 0).root = none) := by
  and_intros <;> (try dsimp only [RoomFor, Idle]) <;> decide +kernel
/-- A message that waits at a station. -/
def msgTo (station : Nat) : Msg := { station := station, core := 1, line := 0x100, kind := .read }
/-- Far operations of two threads of core 0, one with a reservation; a home channel and a return channel. -/
theorem witness_MissesAndWalks_far :
    let r := one { thread0 [] with resv := some ⟨0x100, none⟩ }
    let n := one (thread0 [])
    let c := { n with fabric := { n.fabric with chans := [(63, { station := 2, msgs := [msgTo 2] }), (64, { station := 63, msgs := [msgTo 63] })] } }
    (opBytes 0 = 4 ∧ 0x104 / 4 * 4 = 0x104 ∧ Tab.has n.home.dir (lineOf 0x104) = false ∧ poisoned n 0x104 = false) ∧
    (holders r 0 0x100 ≠ [] ∧ holders n 0 0x100 = []) ∧
    ((chanOf c 63).msgs = [msgTo 2] ∧ (chanOf c 63).station = (msgTo 2).station ∧ (chanOf c 64).msgs = [msgTo 63] ∧ (chanOf c 64).station = (msgTo 63).station) ∧
    (∀ m ∈ (chanOf c 62).msgs, m.station ≠ (chanOf c 62).station) := by
  and_intros <;> decide +kernel
def frz (s : State) : State := { s with guidon := { frozen := true } }
theorem witness_HostAccesses :
    let s := at100 0
    let sec := { s with worlds := { s.worlds with granules := [0] } }
    let x := held .m
    let held1 := { s with home := { s.home with binv := [0x100], hostHeld := [(0x110, 4, 7)] } }
    (hostReaches s (2 ^ 49) = false ∧ hostReaches s 0x13F = true ∧ s.guidon.frozen = false ∧ secureGranule sec 0x13F = true) ∧
    (secureGranule s 0x13F = false ∧ (dirOf s 0x100).st ≠ .b ∧ (dirOf s 0x100).pending = false ∧ min 64 (64 - 0x13F % 64) = 1 ∧ poisoned s 0x13F = false ∧ s.home.hostHeld = []) ∧
    (Tab.has x.home.dir 0x100 = true ∧ (dirOf x 0x100).st = .x ∧ (dirOf x 0x100).pending = false ∧ (l1Line x (dirOf x 0x100).owner 0x100).isSome = true) ∧
    (Tab.has s.home.dir 0x100 = false ∧ held1.home.farHeld = [] ∧ (frz s).guidon.frozen = true ∧ (frz s).fabric.rx = []) ∧
    (0x100 ∉ s.home.binv ∧ 0x100 ∈ held1.home.binv ∧ held1.home.hostHeld = [(0x110, 4, 7)] ∧ lineOf 0x110 = 0x100 ∧ (0x1FC : Nat) % 256 + 4 ≤ 256 ∧
      (dirOf held1 0x100).st ≠ .b) ∧ ({ s with home := { s.home with binv := [0x100] } } : State).home.hostHeld = [] ∧
    ((isHost 0x100 = false ∧ hostBias s 0x100 = false) ∧ hostBias { x with home := { x.home with bias := [0] } } 0x100 = true) ∧
    (let w := one { thread0 [] with park := some (.remote 0x100) }
     let r := { w with home := { w.home with binv := [0x100] } }
     0x100 ∈ r.home.binv ∧ r.home.hostHeld = [] ∧ r.home.farHeld = [] ∧ ∃ x, r.thread? 0 = some x ∧ x.park = some (.remote 0x100) ∧ x.awaits = none ∧
       x.batch = none) := by
  and_intros <;> decide +kernel

/-! ### Flows, packets, links -/

/-- Flow 0 with packets of thread 0 outstanding. -/
def flowAt (os : List Outst) (t : Thread := thread0 []) (dtime : Nat := 20000) : State :=
  let s := one t
  { s with fabric := { s.fabric with flows := [(0, { outst := os })] }, dtime := dtime }
theorem witness_FlowsAndPackets_flows :
    let o : Outst := { pkt := packetOf 5 4, tries := 8, thread := some 0 }
    let t : Thread := { thread0 [] with park := some (.remote 0x100), awaits := some (0, 5) }
    let s := flowAt [o] t
    (Tab.has s.fabric.flows 255 = false ∧ Tab.has s.fabric.flows 0 = true ∧ 0 ∉ s.worlds.ports) ∧
    (Tab.find s.fabric.flows 0 = some { outst := [o] } ∧ s.thread? 0 = some t ∧ t.awaits = some (o.pkt.flow, o.pkt.seq) ∧ t.handlerOf = none ∧
      t.batch = none ∧ o.copy = none ∧ o.pkt.typ = 4 ∧ (s.work.threads.map (·.1)).Nodup ∧ s.work.groups.all (fun e => e.2.left != 0) = true ∧ 8 ≤ o.tries ∧ o.sent + 20000 ≤ s.dtime) ∧ (flowAt [o] t 19999).dtime < o.sent + 20000 ∧
    (Tab.find (flowAt []).fabric.flows 0 = some {} ∧ s.guidon.frozen = false) ∧
    ((s.gridOf t).recording = false ∧ (s.gridOf t).playing = false ∧ (packetOf 5 5).typ = 5 ∧ (packetOf 5 5).c = 0 ∧ (packetOf 5 5).flow = 0) := by
  and_intros <;> decide +kernel
/-- What the destination has kept of a flow: SEQ 5000 the highest, 5000 applied. -/
theorem witness_FlowsAndPackets_delivery :
    let f : InFlow := { any := true, high := 5000, applied := [5000], next := 5001, results := [(5000, 9)] }
    let s := { (at100 0) with fabric := { (at100 0).fabric with inFlows := [(0, f)] } }
    let n := at100 0
    (snoopFirst s (packetOf 904 4) = false ∧ snoopFirst s (packetOf 5000 4) = false ∧ (frz n).guidon.frozen = true ∧ (dirOf n (lineOf 0x100)).pending = false) ∧
    ((packetOf 904 4).typ = 4 ∧ (packetOf 0 2).typ = 2 ∧ (packetOf 0 0).typ = 0 ∧ (packetOf 0 0).op ≠ 1 ∧
      refuses n (packetOf 0 2) = false ∧ refuses n (packetOf 0 0) = false) ∧
    (({} : InFlow).any = false ∧ ({} : InFlow).held = [] ∧ ({} : InFlow).applied = [] ∧ ({} : InFlow).results = []) ∧
    (Tab.get s.fabric.inFlows (inKey (packetOf 904 4)) {} = f ∧ f.any = true ∧ 4096 ≤ seqBelow f 904 ∧ seqBelow f 904 < 2 ^ 31 ∧ seqBelow f 905 < 4096) ∧
    (Tab.get n.fabric.inFlows (inKey (packetOf 0 4)) {} = {} ∧ (packetOf 0 4).ordered = false ∧ refuses n (packetOf 0 4) = false ∧
      poisoned n 0x100 = false ∧ (dirOf n 0x100).st ≠ .b ∧ n.home.hostHeld = [] ∧ hostHolds n 0x100 = false ∧ (packetOf 0 4).op ≠ 14) ∧
    ((5000 : Word) ∈ f.applied ∧ f.results = [((packetOf 5000 4).seq, 9)]) := by
  and_intros <;> decide +kernel
/-- A flit with a hop count and its first port; ports in their states. -/
def linkAt (p : Port) : State := { State.reset with fabric := { ports := [(3, p)] } }
def flitOf (head : BitVec 128) (bs : List Byte) : Flit := ⟨head, BitVec.ofNat 512 (leNat bs)⟩
theorem witness_LinksAndFlits :
    let one1 : BitVec 128 := 1 <<< 72 ||| 3
    (one1.extractLsb' 72 4).toNat = 1 ∧ (one1.extractLsb' 0 6).toNat = 3 ∧ (port (linkAt { st := 4 }) 3).st = 4 ∧ (port (linkAt {}) 3).st ≠ 4 ∧
      ((0 : BitVec 128).extractLsb' 76 4).toNat < 9 ∧ 10 ≤ ((10 <<< 76 : BitVec 128).extractLsb' 76 4).toNat ∧
      ((9 <<< 76 : BitVec 128).extractLsb' 76 4).toNat = 9 ∧
      (let h : BitVec 128 := 7 <<< 80 ||| 9 <<< 76
       (h.extractLsb' 72 4).toNat = 0 ∧ ((linkAt { st := 3, peerMod := 7 }).fabric.ports.find? (fun e => e.2.peerMod == h.extractLsb' 80 8 && e.2.st != 0)).isSome = true) ∧
      ((port (linkAt { st := 4, replay := [⟨0, 0⟩], fails := 14 }) 3).fails < 15 ∧ 15 ≤ (port (linkAt { st := 4, replay := [⟨0, 0⟩], fails := 15 }) 3).fails ∧
        (port (linkAt { st := 4, replay := [⟨0, 0⟩] }) 3).replay ≠ []) ∧
      ((payloadByte (flitOf 0 [1, 2, 0, 0, 0, 0, 1]) 0).toNat = 1 ∧ (∀ k, 7 ≤ k → k < 64 → payloadByte (flitOf 0 [1, 2, 0, 0, 0, 0, 1]) k = 0) ∧
        payloadByte (flitOf 0 [1, 2]) 1 ≠ 0 ∧ payloadByte (flitOf 0 [1]) 1 = 0 ∧ (port (linkAt { st := 3 }) 3).st = 3) ∧
      ((payloadByte (flitOf 0 [2, 1, 0xC1]) 0).toNat = 2 ∧ (∀ k, 3 ≤ k → k < 64 → payloadByte (flitOf 0 [2, 1, 0xC1]) k = 0) ∧
        (port (linkAt { st := 1 }) 3).st ≠ 0 ∧ (port (linkAt { st := 5 }) 3).st = 5) ∧
      (payloadByte (flitOf 0 [3]) 0).toNat ≠ 1 ∧ payloadByte (flitOf 0 (List.replicate 64 2)) 63 ≠ 0 := by
  refine ⟨?_, ?_, ?_, ?_, ?_, ?_, ?_, ?_, ?_, ⟨?_, ?_, ?_⟩, ⟨?_, ?_, ?_⟩, ?_⟩
  case refine_11 => intro k h1 h2; revert h1; revert k; decide +kernel
  case refine_14 => intro k h1 h2; revert h1; revert k; decide +kernel
  all_goals decide +kernel

/-! ### Rings, power, boot, freeze, registers -/

theorem witness_PowerAndRings :
    let x : PhBank := { busy := some 7 }
    let s := { State.reset with banks := [(2, x)] }
    let bad : PhBank := { staged := #v[0, 0, 0] }
    ((bankOf s 2).busy.isSome = true ∧ mapOk bad.staged = false ∧ ({} : PhBank).busy = none ∧ mapOk ({} : PhBank).staged = true) ∧
    (7 + 1000000 ≤ ({ s with dtime := 1000007 } : State).dtime ∧ ({ s with dtime := 1000006 } : State).dtime < 7 + 1000000) ∧
    (({} : PhBank).chan 0 ≠ 31 ∧ ([5] : List (BitVec 12))[0]? = some 5) ∧
    (let p : Power := {}
     p.cap < 2201 ∧ 2159 + 40 < p.cap ∧ ¬(2160 + 40 < p.cap) ∧ 2200 ≤ p.cap ∧ p.under < 3 ∧ 3 ≤ ({ p with under := 3 } : Power).under ∧
      ({ p with steps := [true] } : Power).steps = [true] ∧ (1 < p.inj ∧ 1450 < p.fclk)) ∧
    ((1199 : Word).extractLsb' 0 12).toNat < 1200 ∧ 1200 ≤ ((2200 : Word).extractLsb' 0 12).toNat ∧ ((2200 : Word).extractLsb' 0 12).toNat ≤ 2200 ∧
      (2200 : Nat) < 2201 := by
  and_intros <;> decide +kernel
/-- Records with no body, of security version 4, in the format of spec 23 R432; their signatures are made outside Lean with the
key of RFC 6979, A.2.5. -/
def rootDigest : BitVec 256 := 0x59e6ec7e68de7735b98c29e3c45700077cce4c55b6145a3acb40a844273ec2d6
def rec0 (kind : Nat) (sig : Nat) : BootRecord :=
  { bytes := natLe 4 0x52435A4C ++ natLe 2 1 ++ natLe 2 kind ++ natLe 4 0 ++ natLe 4 4 ++ natLe 32 rootDigest.toNat ++ (natLe 64 sig).reverse
    key := 0x60fed4ba255a9d31c961eb74c6356d68c049b8923b61fa6ce669622e60f29fb67903fe1008b8bc99a41ae9e95628bc64f2f1b20c2d7e9f5177a3c294d4462299 }
def mgmt : BootRecord :=
  rec0 1 0xd47266cf0471c3da31035b14fc0c4ca5f8faa17e5a1f016556c29413ff8f1b1a41b7b72c7c81603114bfab9bf2da9322f16aea26cf4e0768a1b203b37dd7afc1
def halyard : BootRecord :=
  rec0 2 0xa5a405a10302ab1b10aad734d904fd1ae9ca3f5f3b235e46e4cc68aab294e4f813c551f588e40db3003c6958e3efcedbd107419bb7c256d0db66698be8546898
def guidon : BootRecord :=
  rec0 3 0x9eb937a1f1519614bdb08ad4df2d942aaad9f58b427df4d438849730d0919de0f0827d8ac074bbdd8fea34b7d89b55af54859b528ecbb00d923f1b69c8fc12a0
def configRec : BootRecord :=
  rec0 4 0xe7f4834552549230e5e1dcbfa9bcd42a952cea1731d4d416038c34b0af1de9618d160dd521e1ad140b2117183342ac3ac32dd02806325bf37da56061766752a0
/-- RFC 6979, A.2.5: the signature of "sample" with SHA-256. -/
theorem test_ecdsa :
    ecdsaVerifies mgmt.key (sha256 [115, 97, 109, 112, 108, 101])
      0xEFD48B2AACB6A8FD1140DD9CD45E81D69D2C877B56AAF991C34D0EA84EAF3716F7CB1C942D657C41D436C7A1B6E29F65F3E900DBB9AFF4064DC4AB2F843ACDA8 = true := by
  decide +kernel
theorem witness_BringUp_records :
    recGenuine mgmt rootDigest 1 = true ∧ recGenuine halyard rootDigest 2 = true ∧ recGenuine guidon rootDigest 3 = true ∧
      recGenuine configRec rootDigest 4 = true ∧ recGenuine mgmt rootDigest 3 = false ∧ recGenuine guidon rootDigest 1 = false ∧
      recGenuine guidon 0 3 = false ∧ recGenuine mgmt rootDigest 4 = false ∧ recGenuine mgmt rootDigest 2 = false ∧
      (recVersion mgmt, recVersion halyard, recVersion guidon, recVersion configRec) = (4, 4, 4, 4) := by
  and_intros <;> decide +kernel
def conf (mins : List (Nat × Word) := []) : ConfigRecord :=
  { minVersions := mins, moduleIndex := 0, podMembers := [0], ports := [3], leaseNs := 5, secureCores := [1], sliceWays := [], secureGranules := [(2, 1)]
    securePorts := [4], secureFns := [1], parts := [], contexts := [⟨0x1000, false, true, true, 0, 0⟩] }
def booting (step : BitVec 4) (mins : Tab Word := []) : State := { State.reset with boot := { step := step, mins := mins, setup := some (conf), rom := rootDigest } }
theorem witness_BringUp :
    ((booting 1).boot.fail = 0 ∧ (booting 1).boot.step = 1 ∧ (booting 2).boot.step = 2 ∧ (booting 1).boot.rom = rootDigest ∧
      (4 : Word).toNat < (Tab.get (booting 2 [(3, 5)]).boot.mins 3 0).toNat ∧ (Tab.get (booting 2 [(3, 4)]).boot.mins 3 0).toNat ≤ (4 : Word).toNat) ∧
    ((booting 3).boot.step = 3 ∧ (4 : Word).toNat < (Tab.get (booting 3 [(1, 5)]).boot.mins 1 0).toNat ∧
      (Tab.get (booting 3 [(1, 4)]).boot.mins 1 0).toNat ≤ (4 : Word).toNat) ∧
    ((booting 4).boot.step = 4 ∧ (conf [(4, 5)]).minVersions = [(4, 5)] ∧ (conf [(2, 5)]).minVersions = [(2, 5)] ∧
      (4 : Word).toNat < (5 : Word).toNat ∧ (conf).minVersions = []) ∧
    ((booting 5).boot.step = 5 ∧ (booting 6).boot.step = 6 ∧ (booting 6).boot.setup = some conf ∧ (conf).ports = [3] ∧ BitVec.ofNat 8 256 = (0 : Byte) ∧
      BitVec.ofNat 8 255 ≠ (0 : Byte)) ∧
    ((booting 7).boot.step = 7 ∧ (booting 7).boot.setup = some conf ∧ (conf).contexts = [⟨0x1000, false, true, true, 0, 0⟩] ∧
      ((2, 1) : Nat × Nat) ∈ (conf).secureGranules) ∧
    (booting 8).boot.step.toNat ≠ 7 ∧ ({ booting 8 with boot := { step := 2, fail := 1 } } : State).boot.fail ≠ 0 := by
  and_intros <;> decide +kernel
/-- The module with a heartbeat window of 2 us from time 0, and comparator entries that match and differ. -/
def beating (dtime : Nat) : State := { State.reset with guidon := { hbwin := 2 }, dtime := dtime }
def duo (b : CmpEntry) : State :=
  let s := two [] []
  { s with
    pairs := [(0, { prim := [{ thread := [0], ops := [1] }], sec := [b] })]
    work := { s.work with
      threads := [(0, thread0 []), (1, { thread0 [] with team := 1 })]
      teams := [(0, { team0 with role := .primary 1 }), (1, { team0 with core := some 1, role := .secondary 0 })] } }
theorem witness_FreezeAndRedundancy :
    let a : CmpEntry := { thread := [0], ops := [1] }
    let same := duo { thread := [1], ops := [1] }
    (levelCause 0xC3 = true ∧ levelCause 0xC7 = false ∧ State.reset.guidon.frozen = false) ∧
    ((beating 1999).dtime < 0 + 1000 * (beating 1999).guidon.hbwin.toNat ∧ (beating 2000).guidon.hbFrom + 1000 * (beating 2000).guidon.hbwin.toNat ≤ (beating 2000).dtime ∧
      (beating 2000).guidon.hbwin ≠ 0) ∧
    ((0x50000001 : Word).getLsbD 31 = false ∧ (0x10000001 : Word).getLsbD 30 = false ∧ (0x50000001 : Word).getLsbD 29 = false ∧ (0x50000001 : Word).getLsbD 0 = true) ∧
    ((5 : Nat) ≠ State.reset.guidon.hbctx.toNat ∧ (0 : Nat) = State.reset.guidon.hbctx.toNat ∧ (1 : Word) = State.reset.guidon.hb + 1 ∧
      1000000 < (1000001 : Word).toNat) ∧
    ((same.pair 0).prim = a :: [] ∧ (same.pair 0).sec = { thread := [1], ops := [1] } :: [] ∧ mismatchKind same a { thread := [1], ops := [1] } = 0 ∧
      bothPerform a.word = false ∧ mismatchKind same a { thread := [1], ops := [2] } = 1) ∧
    (same.work.threads.all (fun e => e.2.batch.isNone) = true ∧ State.reset.fabric.rx = [] ∧ State.reset.guidon.level = [] ∧ State.reset.guidon.event = []) ∧
    (pairTeam 0 same = some 0 ∧ (same.team 0).role = .primary 1 ∧ pairTeam 1 same = none ∧ (same.work.threads.map (·.1)).Nodup) ∧
    (same.dtime < a.time + 100000 ∧ ({ same with dtime := 100000 } : State).dtime = a.time + 100000) := by
  and_intros <;> decide +kernel
theorem witness_Registers :
    let s := State.reset
    let dbg0 := debug 0
    let full := debug 1
    let part := s.modCore 0 fun k => { k with part := [(1, 0x80100200)] }
    (1023 < 1024 ∧ (0x100000 : Word).toNat = 2 ^ 20 ∧ 2 ^ 20 < (0x100001 : Word).toNat) ∧
    ((0x80100200 : Word).getLsbD 31 = true ∧ partOverlap 0x80100200 0x80100200 = true ∧ (∃ e ∈ (part.core 0).part, e.1 ≠ 0 ∧ e.2.getLsbD 31 = true) ∧
      (0x80100200 : Word).getLsbD 30 = (s.core 0).world ∧ (0xC0100200 : Word).getLsbD 30 ≠ (s.core 0).world) ∧
    (commitWhy s 0 { ctl := 1 } = 1 ∧ teamsOn s 0 = [] ∧ teamsOn dbg0 0 ≠ []) ∧
    (((0x80000003 : Word).extractLsb' 0 5).toNat < 4 ∧ 16 < ((0x80000011 : Word).extractLsb' 0 5).toNat) ∧
    ((dbg0.ctx 0).dbg = true ∧ (s.ctx 0).dbg = false ∧ (∃ e ∈ dbg0.work.grids, e.2.ctx = 0 ∧ e.2.state = 2)) ∧
    ((dbg0.ctx 0).blk.ctl.getLsbD 1 = true ∧ (dbg0.ctx 0).blk.smp.extractLsb' 0 24 ≠ 0 ∧ (dbg0.core 0).sampPos = 0 ∧
      (slotOwner dbg0 0 0 0).map (·.1) = some 0 ∧ (dbg0.grid (dbg0.team 0).grid).ctx = 0 ∧
      1 ≤ ((full.ctx 0).blk.head - (full.ctx 0).blk.tail).toNat ∧ ((dbg0.ctx 0).blk.head - (dbg0.ctx 0).blk.tail).toNat < 1) := by
  and_intros <;> decide +kernel
/-- A mailbox's command: a context, the nonce's and the report's addresses; a count of 0 and of 257. -/
def boxed (x va out : Nat) : State :=
  { State.reset with boxes := [(0, { args := #v[BitVec.ofNat 64 x, BitVec.ofNat 64 va, BitVec.ofNat 64 out] })] }
theorem witness_Registers_mailbox :
    let s := boxed 5 0x100 0x200
    let bs := reportBytes s 5 (homeBytes s 0x100 32)
    (64 ≤ boxArg (boxed 64 0 0) 0 0 ∧ boxArg (boxed 0 0 0) 0 1 < 1 ∧ 256 < boxArg (boxed 0 257 0) 0 1 ∧ boxArg (boxed 0 256 0) 0 1 ≤ 256 ∧ s.log = []) ∧
    (boxArg s 0 0 = 5 ∧ boxArg s 0 1 = 0x100 ∧ boxArg s 0 2 = 0x200 ∧ s.home.hostHeld = []) ∧
    (∀ a ∈ [0x100, 0x100 + 31, 0x200, 0x200 + (bs ++ reportSignature bs).length - 1], hostReaches s a = true ∧ secureGranule s a = false) := by
  and_intros <;> decide +kernel
theorem witness_Registers_lines (a : Nat) : (dirOf (boxed 5 0x100 0x200) a).st ≠ .b ∧ (dirOf (boxed 5 0x100 0x200) a).host = false ∧
    (dirOf (boxed 5 0x100 0x200) a).pending = false := by
  have h : dirOf (boxed 5 0x100 0x200) a = {} := rfl
  simp [h]
/-- An open breakdown of context 0 whose record finds room. -/
theorem witness_Registers_breakdown :
    let s := (debug 0).modCore 0 fun k => { k with brk := some (3, 0, 0, 0, false) }
    (s.core 0).brk = some (3, 0, 0, 0, false) ∧
      (vaWrite (devWho 0) { w := true } 0x4000 (List.replicate 32 0) (s.modCore 0 fun k => { k with brk := none })).toOption.isSome = true := by
  and_intros <;> decide +kernel

/-! ## Single steps: expected values by hand from the rules named -/

/-- A register of thread 0 after an instruction. -/
def regAfter (i : Instr) (s : State) (k : Nat) (v : Word) : Bool := nextIs (fun t => (t.thread 0).v.getD k 0 == v) (exec i s)
/-- R98, R100: 0x100 + 0x7FFFFFFF wraps as i32, and saturates with SAT. -/
theorem test_iadd_wrap : regAfter (.iadd (flds 0 8)) s1 8 0x800000FF = true := by decide +kernel
theorem test_iadd_sat : regAfter (.iadd (flds 0 0x28)) s1 8 0x7FFFFFFF = true := by decide +kernel
/-- R103: a shift by the width or more of an unsigned word gives 0. -/
theorem test_shl_width : regAfter (.shl (flds 0 0xA)) (one (thread0 [0, 0, 1, 0, 32])) 8 0 = true := by decide +kernel
/-- R101: the high half of (−1) × 2 as i32. -/
theorem test_imulh : regAfter (.imulh (flds 0 8)) (one (thread0 [0, 0, 0xFFFFFFFF, 0, 2])) 8 0xFFFFFFFF = true := by decide +kernel
/-- Worked table of spec 21: FADD of 1.0 and 2.0; and of two values that overflow, with TRP, into the user handler. -/
theorem test_fadd : regAfter (.fadd (flds 0 2)) (one (thread0 [0, 0, 0x3F800000, 0, 0x40000000])) 8 0x40400000 = true := by decide +kernel
theorem test_fadd_trap :
    nextIs (fun t => (t.thread 0).handler && (t.thread 0).trap.cause == 0x22 && (t.thread 0).trap.evalA == 0x7F000000 && (t.thread 0).v.getD 8 0 == 0)
      (exec (.fadd (flds 0 2)) (one (thread0 [0, 0, 0x7F000000, 0, 0x7F000000]))) = true := by decide +kernel
/-- R1, R220: memory is little-endian; LD of 32 bits, and ST of the word in v4. -/
theorem test_ld : regAfter (.ld ld32) { at100 2 with mem := memOf 0x100 [0x11, 0x22, 0x33, 0x44] } 8 0x44332211 = true := by decide +kernel
theorem test_st :
    nextIs (fun t => homeBytes t 0x100 8 == [7, 0, 0, 0, 0xEE, 0, 0, 0]) (exec (.st ld32) { at100 2 with mem := memOf 0x103 [0xFF, 0xEE] }) = true := by
  decide +kernel
/-- R225: RED.add.i32 at the home. -/
theorem test_red : nextIs (fun t => homeNat t 0x100 4 == 6) (exec (.red (flds 0)) { at100 2 with mem := memOf 0x100 (natLe 4 0xFFFFFFFF) }) = true := by
  decide +kernel
/-- R116: BRA of two slots forward from slot 0 of a line; the target is a branch target. -/
theorem test_bra : nextIs (fun t => (t.thread 0).pc == 0x1001C) (exec (.bra (flds 0 0 2)) lined) = true := by decide +kernel
/-- R22: EXIT retires the thread. -/
theorem test_exit : nextIs (fun t => (t.thread? 0).isNone) (exec (.exit flds) (one (thread0 []))) = true := by decide +kernel
/-- R32, R406: SREG of s.clock, and TRAP with its cause, value and return address. -/
theorem test_sreg : regAfter (.sreg (flds 0 0 0x10)) { at100 0 with clock := 5 } 8 5 = true := by decide +kernel
theorem test_trap :
    nextIs (fun t => (t.thread 0).handler && (t.thread 0).trap.cause == 0xE5 && (t.thread 0).trap.einfo == 0x100 && (t.thread 0).trap.epc == 0x10010)
      (exec (.trap (flds 0 0 0xE5)) (at100 0)) = true := by decide +kernel
/-- R115: EXP2, LOG2 and TANH at the worked points. -/
theorem test_sfn : (sfnRes 3 false 0x3F000000).bits = 0x3FB504F3 ∧ (sfnRes 4 false 0x41000000).bits = 0x40400000 := by decide +kernel
/-- R104: the worked PERMB. -/
theorem test_permb : permbWord 0x44332211 0x88776655 0x0000F470 = 0xFF558811 := by decide +kernel
/-- R424: the freeze pin freezes a running module with its cause. -/
theorem test_freeze : nextIs (fun t => t.guidon.frozen && t.guidon.cause == 0xC6) (exec .freezePin State.reset) = true := by decide +kernel
/-- R412: an issue whose register v1 is lost traps before its instruction; a corrected word counts and logs, and the instruction runs. -/
theorem test_lost_register :
    nextIs (fun t => (t.thread 0).pc == 0x10004 && (t.thread 0).v.getD 8 0 == 0 &&
        (t.core 0).traps.any fun e => e.regs.cause == 0xC9 && e.regs.einfo == 0x101)
      (exec (.issue 0 0) ((advanceTime placed).modCore 0 fun c => { c with arrays := .lost 1 1 1 })) = true := by decide +kernel
theorem test_corrected_word :
    nextIs (fun t => (t.thread 0).pc == 0x10010 && t.logged == 1) (exec (.issue 0 0) ((advanceTime placed).modCore 0 fun c => { c with arrays := .corrected 0xC9 0 })) = true := by
  decide +kernel

end Sys2Proof.Tests
end

section
/-!
PROOFS. Rounding: a value read from a pattern rounds back to that pattern, a NaN operand makes the sum and the product
NaN, and the special functions at the worked points (spec 00 R3, 05 R76 to R78, 06 R108, R115).
-/
namespace Sys2Proof.Proofs

open Machine

/-! ### Patterns -/

/-- The sign bit and the magnitude that `Fmt.read` takes from a pattern make up the pattern. -/
theorem pack_sign_mag (t : Fmt) {bits : Nat} (h : bits < 2 ^ (t.magBits + 1)) :
    t.pack (bits.testBit t.magBits) (bits % 2 ^ t.magBits) = bits := by
  have hsign : (bits.testBit t.magBits).toNat = bits / 2 ^ t.magBits := by
    rw [Nat.toNat_testBit, Nat.mod_eq_of_lt]
    exact Nat.div_lt_of_lt_mul (by rwa [← Nat.pow_succ])
  rw [Fmt.pack, hsign, Nat.mul_comm, Nat.div_add_mod]

/-- A magnitude pattern with a nonzero exponent field: the field counts from 1, and the significand has its hidden bit. -/
theorem exponent_add_significand (fb mag : Nat) (h : 2 ^ fb ≤ mag) :
    (mag / 2 ^ fb - 1) * 2 ^ fb + (2 ^ fb + mag % 2 ^ fb) = mag := by
  have hpos : 1 ≤ mag / 2 ^ fb := Nat.div_pos h (Nat.two_pow_pos fb)
  calc (mag / 2 ^ fb - 1) * 2 ^ fb + (2 ^ fb + mag % 2 ^ fb)
      = (mag / 2 ^ fb - 1 + 1) * 2 ^ fb + mag % 2 ^ fb := by rw [Nat.add_one_mul, Nat.add_assoc]
    _ = mag := by rw [Nat.sub_add_cancel hpos, Nat.mul_comm, Nat.div_add_mod]

theorem log2_significand {fb r : Nat} (h : r < 2 ^ fb) : Nat.log2 (2 ^ fb + r) = fb :=
  (Nat.log2_eq_iff (by have := Nat.two_pow_pos fb; omega)).2 ⟨by omega, by rw [Nat.pow_succ]; omega⟩

/-! ### Rounding a value that the format holds -/

/-- Where the unit of the result is the value's own exponent, nothing is rounded in any mode. -/
theorem roundFin_of_unit (t : Fmt) (rm : Nat) (neg : Bool) {m mag : Nat} {e : Int}
    (hu : max ((Nat.log2 m : Int) + e - (t.fb : Int)) t.emin = e)
    (hmag : (e - t.emin).toNat * 2 ^ t.fb + m = mag) (htop : mag ≤ t.top) :
    roundFin t rm false neg m e = { bits := t.pack neg mag } := by
  simp [roundFin, hu, hmag, Nat.not_lt.2 htop]

theorem roundFin_subnormal (t : Fmt) (rm : Nat) (neg : Bool) {m : Nat} (hm : m ≠ 0) (hsub : m < 2 ^ t.fb)
    (htop : m ≤ t.top) : roundFin t rm false neg m t.emin = { bits := t.pack neg m } := by
  have hlog : Nat.log2 m < t.fb := (Nat.log2_lt hm).2 hsub
  exact roundFin_of_unit t rm neg (by omega) (by simp) htop

theorem roundFin_normal (t : Fmt) (rm : Nat) (neg : Bool) {mag : Nat} (hnorm : 2 ^ t.fb ≤ mag) (htop : mag ≤ t.top) :
    roundFin t rm false neg (2 ^ t.fb + mag % 2 ^ t.fb) (t.emin + ((mag / 2 ^ t.fb : Nat) : Int) - 1) =
      { bits := t.pack neg mag } := by
  have hpos : 1 ≤ mag / 2 ^ t.fb := Nat.div_pos hnorm (Nat.two_pow_pos t.fb)
  have hlog := log2_significand (Nat.mod_lt mag (Nat.two_pow_pos t.fb))
  have hexp : (t.emin + ((mag / 2 ^ t.fb : Nat) : Int) - 1 - t.emin).toNat = mag / 2 ^ t.fb - 1 := by omega
  refine roundFin_of_unit t rm neg ?_ ?_ htop
  · rw [hlog]; omega
  · rw [hexp, exponent_add_significand t.fb mag hnorm]

/-- A pattern that is no NaN, read and rounded again, is itself, without exceptions: for every format and mode. -/
theorem roundVal_read (t : Fmt) (rm : Nat) {bits : Nat} (hbits : bits < 2 ^ (t.magBits + 1))
    (hnan : (t.read false bits).isNan = false) : roundVal t rm false (t.read false bits) = { bits := bits } := by
  have hpack := pack_sign_mag t hbits
  by_cases htop : bits % 2 ^ t.magBits > t.top
  · by_cases hinf : (t.hasInf && bits % 2 ^ t.magBits == t.top + 1) = true
    · obtain ⟨hhas, hmag⟩ : t.hasInf = true ∧ bits % 2 ^ t.magBits = t.top + 1 := by simpa using hinf
      have hread : t.read false bits = .inf (bits.testBit t.magBits) := by simp only [Fmt.read, if_pos htop, if_pos hinf]
      rw [hmag] at hpack
      rw [hread]
      simp [roundVal, hhas, Fmt.infBits, hpack]
    · have hread : t.read false bits = .nan (!(bits % 2 ^ t.magBits).testBit (t.fb - 1)) := by
        simp only [Fmt.read, if_pos htop, if_neg hinf]
      rw [hread] at hnan
      cases hnan
  · by_cases hsub : bits % 2 ^ t.magBits < 2 ^ t.fb
    · have hread : t.read false bits = .fin (bits.testBit t.magBits) (bits % 2 ^ t.magBits) t.emin := by
        simp [Fmt.read, htop, hsub]
      rw [hread, roundVal]
      split
      case isTrue hzero => rw [← hzero, hpack]
      case isFalse hzero => rw [roundFin_subnormal t rm _ hzero hsub (by omega), hpack]
    · have hread : t.read false bits = .fin (bits.testBit t.magBits) (2 ^ t.fb + bits % 2 ^ t.magBits % 2 ^ t.fb)
          (t.emin + ((bits % 2 ^ t.magBits / 2 ^ t.fb : Nat) : Int) - 1) := by
        simp only [Fmt.read, if_neg htop, if_neg hsub]
      have hne : 2 ^ t.fb + bits % 2 ^ t.magBits % 2 ^ t.fb ≠ 0 := by have := Nat.two_pow_pos t.fb; omega
      rw [hread, roundVal, if_neg hne, roundFin_normal t rm _ (by omega) (by omega), hpack]

/-! ### NaN and infinite operands -/

theorem roundVal_bits_of_isNan (t : Fmt) (rm : Nat) (ftz : Bool) {v : FVal} (h : v.isNan = true) :
    (roundVal t rm ftz v).bits = t.nan := by
  cases v with
  | nan sig => rfl
  | fin neg m e => cases h
  | inf neg => cases h

theorem addVal_isNan_left (rm : Nat) {a : FVal} (b : FVal) (h : a.isNan = true) : (addVal rm a b).isNan = true := by
  cases a with
  | nan sig => cases b <;> rfl
  | fin neg m e => cases h
  | inf neg => cases h

theorem addVal_isNan_right (rm : Nat) (a : FVal) {b : FVal} (h : b.isNan = true) : (addVal rm a b).isNan = true := by
  cases b with
  | nan sig => cases a <;> rfl
  | fin neg m e => cases h
  | inf neg => cases h

theorem mulVal_isNan_left {a : FVal} (b : FVal) (h : a.isNan = true) : (mulVal a b).isNan = true := by
  cases a with
  | nan sig => cases b <;> rfl
  | fin neg m e => cases h
  | inf neg => cases h

theorem mulVal_isNan_right (a : FVal) {b : FVal} (h : b.isNan = true) : (mulVal a b).isNan = true := by
  cases b with
  | nan sig => cases a <;> rfl
  | fin neg m e => cases h
  | inf neg => cases h

/-- Infinities of opposite signs have no sum: invalid, and the canonical NaN, in every mode. -/
theorem fAdd_of_opposite_inf (t : Fmt) (rm : Nat) (ftz neg : Bool) {a b : Nat} (ha : t.read ftz a = .inf neg)
    (hb : t.read ftz b = .inf (!neg)) : fAdd t rm ftz a b = nanRes t true := by
  rw [fAdd, ha, hb]
  cases neg <;> rfl

/-- A zero and an infinity have no product. -/
theorem fMul_of_zero_inf (t : Fmt) (rm : Nat) (ftz neg inf : Bool) {a b : Nat} {e : Int} (ha : t.read ftz a = .fin neg 0 e)
    (hb : t.read ftz b = .inf inf) : fMul t rm ftz a b = nanRes t true := by
  rw [fMul, ha, hb]
  rfl

/-! ### Special functions -/

/-- The worked results of R115: RCP(3), EXP2(0.5), SQRT(2), LOG2(8), SINPI(1), COSPI(1), TANH(20). -/
theorem sfnRes_worked_points :
    (sfnRes 0 false 0x40400000).bits = 0x3EAAAAAB ∧ (sfnRes 3 false 0x3F000000).bits = 0x3FB504F3 ∧
      (sfnRes 2 false 0x40000000).bits = 0x3FB504F3 ∧ (sfnRes 4 false 0x41000000).bits = 0x40400000 ∧
      (sfnRes 5 false 0x3F800000).bits = 0 ∧ (sfnRes 6 false 0x3F800000).bits = 0xBF800000 ∧
      (sfnRes 7 false 0x41A00000).bits = 0x3F800000 := by
  and_intros <;> decide +kernel

/-- Settles O21: `roundVal_read` gives the patterns that are no NaN; a NaN operand stays a NaN through `addVal` and
`mulVal`, and every NaN is delivered canonical. -/
theorem roundingAndSpecialValues : Obligations.RoundingAndSpecialValues := by
  unfold Obligations.RoundingAndSpecialValues
  refine ⟨fun t rm bits _ _ hbits => ?_, fun t rm ftz a b _ hnan => ?_, fun rm => ?_, sfnRes_worked_points⟩
  · split
    case isTrue hnan => exact roundVal_bits_of_isNan t rm false hnan
    case isFalse hnan =>
      rw [roundVal_read t rm hbits (Bool.eq_false_of_not_eq_true hnan)]
      exact ⟨rfl, rfl, rfl⟩
  · exact ⟨roundVal_bits_of_isNan t rm ftz (addVal_isNan_left rm _ hnan),
      roundVal_bits_of_isNan t rm ftz (addVal_isNan_right rm _ hnan),
      roundVal_bits_of_isNan t rm ftz (mulVal_isNan_left _ hnan),
      roundVal_bits_of_isNan t rm ftz (mulVal_isNan_right _ hnan)⟩
  · have hpos : fp32.read false 0x7F800000 = .inf false := by decide
    have hneg : fp32.read false 0xFF800000 = .inf true := by decide
    have hzero : fp32.read false 0 = .fin false 0 fp32.emin := by decide
    rw [fAdd_of_opposite_inf fp32 rm false false hpos hneg, fMul_of_zero_inf fp32 rm false false false hzero hpos]
    exact ⟨rfl, rfl, rfl, rfl⟩

end Sys2Proof.Proofs
end

section
/-!
PROOFS. One step: what `tick`, `nextStep` and the two passes of `advanceTime` over the home do (spec 09 R188, 11 R236,
13 R276, 15 R310; log entries 1 and 2).
-/
namespace Sys2Proof.Proofs
open Machine

/-! ### The clocks' cycle -/

@[simp] theorem tick_clock (s : State) : (tick s).clock = s.clock + 1 := rfl
@[simp] theorem tick_mem (s : State) : (tick s).mem = s.mem := rfl
@[simp] theorem tick_work (s : State) : (tick s).work = s.work := rfl
@[simp] theorem tick_cores (s : State) : (tick s).cores = s.cores := rfl
@[simp] theorem tick_home (s : State) : (tick s).home = s.home := rfl
@[simp] theorem tick_guidon (s : State) : (tick s).guidon = s.guidon := rfl

/-- What recurs joins the agenda behind what stands in it. -/
theorem agenda_prefix_tick (s : State) : s.agenda <+: (tick s).agenda := by
  simp only [tick, List.append_assoc, List.prefix_append]

/-! ### The next transition -/

theorem nextStep_of_agenda_cons {s : State} {i : Instr} {r : List Instr} (h : s.agenda = i :: r) : nextStep s = i := by
  rw [nextStep, h]

theorem nextStep_tick_of_agenda_cons {s : State} {i : Instr} {r : List Instr} (h : s.agenda = i :: r) :
    nextStep (tick s) = i := by
  obtain ⟨new, hnew⟩ := agenda_prefix_tick s
  have hhead : (tick s).agenda = i :: (r ++ new) := by rw [← hnew, h, List.cons_append]
  exact nextStep_of_agenda_cons hhead

/-! ### The home's passes of a cycle -/

theorem recallVictims_of_idle {s : State} (h : s.guidon.frozen = true ∨ s.home.l2Wait = []) : recallVictims s = s := by
  rcases h with hfrozen | hwait
  · rw [recallVictims, if_pos hfrozen]
  · rw [recallVictims, hwait, List.foldl_nil, ite_self]

theorem mergeMonitored_of_idle (before : Nat) {s : State} (h : s.guidon.frozen = true ∨ s.home.monitors = []) :
    mergeMonitored before s = s := by
  rcases h with hfrozen | hmon
  · rw [mergeMonitored, hfrozen, Bool.true_or, if_pos rfl]
  · rw [mergeMonitored, hmon, List.foldl_nil, ite_self]

/-- With the home's passes idle, the machine one cycle on is `tick` with the head taken from the agenda. -/
theorem advanceTime_of_idle {s : State} (h : s.guidon.frozen = true ∨ s.home.l2Wait = [] ∧ s.home.monitors = []) :
    advanceTime s = { tick s with agenda := (tick s).agenda.drop 1 } := by
  rw [← tick_guidon, ← tick_home] at h
  have hrecall : recallVictims (tick s) = tick s := recallVictims_of_idle (h.imp_right And.left)
  have hmerge : mergeMonitored s.dtime (tick s) = tick s := mergeMonitored_of_idle s.dtime (h.imp_right And.right)
  rw [advanceTime, hrecall, hmerge]

/-- Settles O6: `step` is `exec` by definition; `advanceTime_of_idle` gives the frame of the cycle, and
`nextStep_tick_of_agenda_cons` the head of the agenda as its transition. -/
theorem stepIsExec : Obligations.StepIsExec := by
  unfold Obligations.StepIsExec
  exact fun s => ⟨rfl, tick_clock s, tick_mem s, tick_work s, tick_cores s, advanceTime_of_idle,
    fun _ _ => nextStep_tick_of_agenda_cons⟩

end Sys2Proof.Proofs
end

section
/-!
PROOFS. Arrival and completion at wave-level exchanges (spec 02 R33, R34, 07 R119): the one group of a team goes on when it
is complete and waits while it is not.
-/
namespace Sys2Proof.Proofs
open Machine Laws

/-! ### Arrival -/

theorem sameT_arrive (f : Fields) (form : Nat) (arr : Lane → Arrival) (s : State) : SameButThreads s (arrive f form arr s) :=
  sameT_foldl _ (fun s _ => sameT_modThread s _ _) _ _

theorem sameT_mem {s t : State} (h : SameButThreads s t) : t.mem = s.mem := by rw [h]

/-! ### Completion of a wave-level group -/

/-- The contributors of a group, with their home lanes in ascending order. -/
def contributors (g : List (Nat × Thread)) : List (Nat × Arrival) :=
  (sortBy (fun e => e.2.hlane) g).filterMap fun e =>
    match e.2.arrival with | some a => if a.on then some (e.2.hlane, a) else none | none => none
/-- A member that goes on past its instruction, its result written where it contributes. -/
def passWave (cs : List (Nat × Arrival)) (t : Thread) : Thread :=
  let t1 := match t.arrival with
    | some a => if a.on then (match fieldsOf a.ins with | some f => writeOut f (syncOut cs t.hlane a) t | none => t) else t
    | none => t
  { t1.unparkNext with arrival := none, syncCnt := t.syncCnt + 1 }

theorem releaseWave_eq (s : State) (g : List (Nat × Thread)) :
    releaseWave s g = (sortBy (fun e => e.2.hlane) g).foldl (fun s e => s.modThread e.1 (passWave (contributors g))) s := rfl

theorem sameT_releaseWave (s : State) (g : List (Nat × Thread)) : SameButThreads s (releaseWave s g) :=
  sameT_foldl _ (fun s _ => sameT_modThread s _ _) _ _

/-- Every member of a released group goes on, where threads have keys of their own. -/
theorem releaseWave_thread? {s : State} (hn : (s.work.threads.map (·.1)).Nodup) {g : List (Nat × Thread)}
    (hg : g.Sublist s.work.threads) {e : Nat × Thread} (he : e ∈ g) :
    (releaseWave s g).thread? e.1 = some (passWave (contributors g) e.2) := by
  have hperm := sortBy_perm (fun e : Nat × Thread => e.2.hlane) g
  have hkeys : ((sortBy (fun e : Nat × Thread => e.2.hlane) g).map (·.1)).Nodup :=
    (hperm.map _).nodup_iff.2 (hn.sublist (hg.map _))
  have hfind : s.thread? e.1 = some e.2 := tab_find_of_mem hn (hg.subset he)
  rw [releaseWave_eq, thread?_foldl_modThread (fun e => e.1) (fun _ => passWave (contributors g)) _ s hkeys e
    (hperm.mem_iff.2 he), hfind, Option.map_some]

theorem syncGroup_sublist (s : State) (k : SyncKey) : (syncGroup s k).Sublist s.work.threads := List.filter_sublist

theorem resolveWaves_of_one {team : Nat} {s : State} {k : SyncKey}
    (h : dedup ((s.work.threads.filter fun e => atWaveSync e.2 && e.2.team == team).map fun e => e.2.syncKey) = [k]) :
    resolveWaves team s = resolveWaveGroup s k := by
  rw [resolveWaves, h, List.foldl_cons, List.foldl_nil]

theorem resolveWaveGroup_of_complete {s : State} {k : SyncKey} (hne : syncGroup s k ≠ [])
    (hok : ∀ e ∈ syncGroup s k, waveMismatch s k (syncGroup s k) e.2.mask = false)
    (hall : ∀ e ∈ syncGroup s k, (maskLanes e.2.mask).all (fun h => (syncGroup s k).any fun x => x.2.hlane == h) = true) :
    resolveWaveGroup s k = releaseWave s (syncGroup s k) := by
  obtain ⟨e, r, hg⟩ := List.exists_cons_of_ne_nil hne
  have he : e ∈ syncGroup s k := hg ▸ List.mem_cons_self
  have hno := hok e he
  have hyes := hall e he
  unfold resolveWaveGroup
  rw [hg] at hno hyes ⊢
  simp only [hno, hyes, Bool.false_eq_true, if_false, if_true]

theorem resolveWaveGroup_of_missing {s : State} {k : SyncKey} (hne : syncGroup s k ≠ [])
    (hok : ∀ e ∈ syncGroup s k, waveMismatch s k (syncGroup s k) e.2.mask = false)
    (hmiss : ∀ e ∈ syncGroup s k, (maskLanes e.2.mask).all (fun h => (syncGroup s k).any fun x => x.2.hlane == h) = false) :
    resolveWaveGroup s k = s := by
  obtain ⟨e, r, hg⟩ := List.exists_cons_of_ne_nil hne
  have he : e ∈ syncGroup s k := hg ▸ List.mem_cons_self
  have hno := hok e he
  have hlack := hmiss e he
  unfold resolveWaveGroup
  rw [hg] at hno hlack ⊢
  simp only [hno, hlack, Bool.false_eq_true, if_false]

/-- Settles O25: each of the five instructions arrives and then resolves the groups of its team, of which there is the one
complete group; `releaseWave_thread?` says what its members become. -/
theorem waveSync : Obligations.WaveSync := by
  unfold Obligations.WaveSync
  intro i f s A k hins hn hkeys hne hok hall
  have hexec : exec i s = .next (resolveWaves s.curTeam A) ∧ SameButThreads s A := by
    rcases hins with ⟨a, b, rfl, rfl, rfl, rfl⟩ | ⟨a, rfl, rfl, rfl⟩ | ⟨rfl | rfl, rfl⟩ | ⟨rfl, rfl⟩ <;>
      exact ⟨rfl, sameT_arrive _ _ _ _⟩
  obtain ⟨hexec, hsame⟩ := hexec
  rw [resolveWaves_of_one hkeys, resolveWaveGroup_of_complete hne hok hall] at hexec
  refine ⟨_, hexec, sameT_mem (sameT_trans hsame (sameT_releaseWave A _)), fun e he a ha hf => ?_⟩
  rw [releaseWave_thread? hn (syncGroup_sublist A k) he]
  simp only [passWave, ha, hf]
  rfl

end Sys2Proof.Proofs
end

section
/-!
PROOFS. Special registers read and written (spec 02 R32, 21 R411): the values of SREG, and what SWR makes of the threads in
handler state and of the trap that a handler wave serves.
-/
namespace Sys2Proof.Proofs
open Machine Laws

/-! ### Reading -/

/-- An instruction that gives each executing thread a value has LanesBecome for it, and changes nothing but threads. -/
theorem laneMap_value {f : Fields} {s : State} (hs : LanesSound s) (wide : Bool) (val : State → Lane → DWord) :
    SameButThreads s (laneMap f (fun s l => .value wide (val s l)) s) ∧
      LanesBecome f s (laneMap f (fun s l => .value wide (val s l)) s) fun l => writeOut f (.value wide (val s l)) (nextTh s l.th) := by
  obtain ⟨hex, hidle, -, hrest, -, hsame⟩ := perLane_spec f (fun s l => .value wide (val s l)) (fun _ _ t => t) s hs
  exact ⟨hsame fun _ _ => rfl, fun l hl => hex l hl rfl, hidle, hrest⟩

/-- SREG takes one free value, whether a thread reads it or not (log entry 8). -/
theorem exec_sreg (f : Fields) (s : State) : exec (.sreg f) s =
    .next { laneMap f (fun s l => .value (Machine.selWide (selOf f)) (specialReg s l (selOf f))) s with free := s.free + 1 } := rfl

theorem sameT_withFree {s t : State} (n : Nat) (h : SameButThreads s t) : SameButThreads { s with free := n } { t with free := n } := by
  unfold SameButThreads at *
  rw [h]

theorem lanesBecome_withFree {f : Fields} {s t : State} {g : Lane → Thread} (n : Nat) (h : LanesBecome f s t g) :
    LanesBecome f s { t with free := n } g := h

/-! ### Writing -/

/-- The active threads advanced, then the executing ones changed. -/
theorem lanesBecome_modThreads_advance {f : Fields} {s : State} (hs : LanesSound s) (g : Thread → Thread) :
    LanesBecome f s ((advance s).modThreads ((s.execLanes f).map Lane.id) g) fun l => g (nextTh s l.th) := by
  obtain ⟨-, hactive, hrest⟩ := advance_spec s hs
  have hn := execLanes_nodup hs f
  refine ⟨fun l hl => ?_, fun l hl hg => ?_, fun k hk => ?_⟩
  · rw [thread?_modThreads _ _ _ hn, if_pos (List.mem_map_of_mem hl), hactive l (execLanes_sub hl), Option.map_some]
  · have hnot : l.id ∉ (s.execLanes f).map Lane.id := fun hmem => by
      obtain ⟨x, hx, hid⟩ := List.mem_map.1 hmem
      have hguard := execLanes_guard hx
      rw [lanes_inj hs (execLanes_sub hx) hl hid, hg] at hguard
      cases hguard
    rw [thread?_modThreads_of_notMem _ _ _ _ hnot, hactive l hl]
  · have hnot : k ∉ (s.execLanes f).map Lane.id := fun hmem => by
      obtain ⟨x, hx, hid⟩ := List.mem_map.1 hmem
      exact hk (List.mem_map.2 ⟨x, execLanes_sub hx, hid⟩)
    rw [thread?_modThreads_of_notMem _ _ _ _ hnot, hrest k hk]

/-- The active threads advanced, and nothing done in the executing ones. -/
theorem lanesBecome_advance {f : Fields} {s : State} (hs : LanesSound s) : LanesBecome f s (advance s) fun l => nextTh s l.th := by
  obtain ⟨-, hactive, hrest⟩ := advance_spec s hs
  exact ⟨fun l hl => hactive l (execLanes_sub hl), fun l hl _ => hactive l hl, hrest⟩

/-- The value that SWR writes in a thread. -/
def swrValue (f : Fields) (t : Thread) : DWord :=
  if Machine.selWide (selOf f) then reg64 t f.a else (reg32 t f.a).setWidth 64
/-- SWR in a thread of a user wave. -/
def swrThread (f : Fields) (t : Thread) : Thread :=
  if t.handler then { t with trap := t.trap.write (selOf f) (swrValue f t) } else t

theorem exec_swr (f : Fields) (s : State) : exec (.swr f) s = .next (swr f s) := rfl

theorem swr_user {f : Fields} {s : State} {l : Lane} (hl : (s.execLanes f).head? = some l) (hh : l.th.handlerOf = none) :
    swr f s = (advance s).modThreads ((s.execLanes f).map Lane.id) (swrThread f) := by
  unfold swr firstLane
  simp only [hl, hh]
  rfl

theorem swr_handler {f : Fields} {s : State} {l : Lane} {c : Nat} (hl : (s.execLanes f).head? = some l)
    (hh : l.th.handlerOf = some c) :
    swr f s = (advance s).modCore c fun x =>
      { x with serving := x.serving.map fun p => { p with regs := p.regs.write (selOf f) (swrValue f l.th) } } := by
  unfold swr firstLane
  simp only [hl, hh]
  rfl

/-- Settles O38: SREG is a lane instruction with a value; the values are the cases of `specialReg`; SWR is `swr_user` outside
the handler wave and `swr_handler` in it. -/
theorem specialRegisters : Obligations.SpecialRegisters := by
  unfold Obligations.SpecialRegisters
  refine ⟨fun f s sel hs hsel => ?_, fun s l => ?_, fun f s l sel hs hl hh hsel => ?_, fun f s l c sel p r hs hl hh hp hsel hr => ?_⟩
  · subst hsel
    obtain ⟨hsame, hlanes⟩ := laneMap_value (f := f) hs (Machine.selWide (selOf f)) fun s l => specialReg s l (selOf f)
    exact ⟨_, exec_sreg f s, sameT_withFree _ hsame, lanesBecome_withFree _ hlanes⟩
  · refine ⟨rfl, rfl, rfl, rfl, rfl, rfl, fun hh => ?_, fun c p hh hp => ?_⟩
    · simp [specialReg, State.trapRegs, State.gridOf, hh]
    · simp [specialReg, State.trapRegs, hh, hp]
  · subst hsel
    refine ⟨_, (exec_swr f s).trans (congrArg _ (swr_user hl hh)), sameT_trans (advance_spec s hs).1 (sameT_modThreads _ _ _), ?_⟩
    exact lanesBecome_modThreads_advance hs (swrThread f)
  · subst hsel hr
    obtain ⟨hsame, -, -⟩ := advance_spec s hs
    have hcore : (advance s).core c = s.core c := core_sameT hsame c
    refine ⟨_, (exec_swr f s).trans (congrArg _ (swr_handler hl hh)), lanesBecome_advance hs, ?_, ?_⟩
    · exact oneCore_modCore (oneCore_sameT (oneCore_refl s c) hsame) _
    · rw [core_modCore, if_pos rfl, hcore, hp]
      rfl

end Sys2Proof.Proofs
end

section
/-!
PROOFS. One issue of a wave that stands alone at a word (spec 02 R26, R27, 03 R40, R60, 15 R313): the step runs the decoded
instruction.
-/
namespace Sys2Proof.Proofs
open Machine Laws

/-- Every word instruction has one meaning, in ISSUE and in exec. -/
theorem exec_eq_runInstr {i : Instr} {f : Fields} (s : State) (h : fieldsOf i = some f) : exec i s = .next (runInstr i s) := by
  cases i <;> simp only [fieldsOf, reduceCtorEq] at h <;> rfl

/-! ### Arrays that return right words -/

theorem softTrap_of_clean {s : State} (a : TrapAt) (i : Instr) (h : s.arraysHere = .clean) : softTrap a i s = none := by
  simp only [softTrap, h]

theorem softFixed_of_clean {s : State} (h : s.arraysHere = .clean) : softFixed s = s := by
  simp only [softFixed, arraysRead, h]

/-! ### From the choice of the wave to its instruction -/

theorem issueWave_eq_issueAt {s : State} {k slot : Nat} {l0 : Lane} (hl : (activeLanes (chosen s k)).head? = some l0)
    (hslot : slotOf ((atIssue s k).wave k).pc = some slot) : issueWave k s = issueAt k l0 slot (atIssue s k) := by
  simp only [chosen, atIssue] at hl hslot
  simp only [issueWave, chosen, atIssue, hl, hslot]

/-- A wave whose line passes, that owes nothing at a safe point and has no thread at its first fetch, decodes. -/
theorem issueAt_eq_decodeIssue {s u : State} {k slot : Nat} {l0 : Lane} {l : FLine}
    (hline : enterLine (whoOf s l0.th) s = (.ok l, u)) (hentry : ∀ x ∈ activeLanes u, x.th.entryCheck = false)
    (hsafe : (lineSlot l slot).getLsbD 79 = true →
      refused u (u.wave k) = false ∧ ∀ x ∈ activeLanes u, x.th.cancel.isSome = true → x.th.handlerOf.isSome = true) :
    issueAt k l0 slot s = decodeIssue k l0 l slot u := by
  have hnew : ((activeLanes u).filter fun x => x.th.entryCheck) = [] :=
    List.filter_eq_nil_iff.2 fun x hx => by rw [hentry x hx]; exact Bool.false_ne_true
  by_cases hstop : (lineSlot l slot).getLsbD 79 = true
  · obtain ⟨hgo, hcancel⟩ := hsafe hstop
    have hkept : ((activeLanes u).filter fun x => x.th.cancel.isSome && x.th.handlerOf.isNone) = [] :=
      List.filter_eq_nil_iff.2 fun x hx hboth => by
        obtain ⟨hc, hn⟩ := Bool.and_eq_true_iff.1 hboth
        have hsome := hcancel x hx hc
        rw [← Option.not_isSome, hsome] at hn
        cases hn
    simp [issueAt, hline, hgo, hkept, hnew]
  · simp only [issueAt, hline, Bool.eq_false_of_not_eq_true hstop, hnew, Bool.false_and, Bool.false_eq_true, if_false,
      List.isEmpty_nil, if_true]

/-- A word that is in no pair and decodes issues its instruction, where no breakpoint or step stops it. -/
theorem decodeIssue_eq_issueInstr {u : State} {k slot : Nat} {l0 : Lane} {l : FLine} {i : Instr}
    (hpair : (tplPairs (lineTpl l)).contains slot = false) (hword : u.here.word = lineSlot l slot)
    (hdec : decodeWord (waveEnv u l0.th) (lineSlot l slot) = .ok i)
    (hstop : (lineSlot l slot).getLsbD 79 = true → stopsHere u = none) (hclean : u.arraysHere = .clean) :
    decodeIssue k l0 l slot u = issueInstr k i none u := by
  have hnone : (if u.here.word.getLsbD 79 then stopsHere u else none) = none := by
    rw [hword]
    split
    case isTrue h => exact hstop h
    case isFalse => rfl
  simp only [decodeIssue, hdec, hpair, Bool.false_eq_true, if_false, hnone, softTrap_of_clean _ i hclean, softFixed_of_clean hclean]

theorem issueWave_of_issuesAlone {s u : State} {k : Nat} {i : Instr} (h : IssuesAlone s k i u) (hclean : u.arraysHere = .clean) :
    issueWave k s = issueInstr k i none u := by
  obtain ⟨l0, slot, l, hl, hslot, hline, hpair, hword, hdec, hentry, hsafe⟩ := h
  rw [issueWave_eq_issueAt hl hslot, issueAt_eq_decodeIssue hline hentry fun hs => ⟨(hsafe hs).1, (hsafe hs).2.2⟩]
  exact decodeIssue_eq_issueInstr hpair hword hdec (fun hs => (hsafe hs).2.1) hclean

/-- A thawed quadrant issues for the wave it picks, and the consequences for other waves follow. -/
theorem issue_of_pickWave {s : State} {c q k : Nat} (hthaw : s.guidon.frozen = false) (hk : pickWave s c q = some k) :
    issue c q s = { settle (issueWave k (rejoin k s)) with cur := .none } := by
  simp only [issue, hthaw, hk, Bool.false_eq_true, if_false]

/-- An instruction that the comparator does not hold runs on the machine about to run it. -/
theorem issueInstr_eq_afterIssue {u : State} {k : Nat} {i : Instr} {f : Fields} (hf : fieldsOf i = some f)
    (hgate : cmpGate i f (if f.stop then u.modThreads ((activeLanes u).map Lane.id) fun t =>
      { t with resume := if t.resume == some (u.wave k).pc then none else t.resume, restoreQ := t.restoreQ && restores i } else u) = none) :
    issueInstr k i none u = afterIssue k (u.wave k).pc f.stop (latchBit f) (u.wave k).holdsAny ((activeLanes u).map Lane.id)
      (if leaps i then (u.execLanes f).map Lane.id else []) (runInstr i (beforeRun k i f u)) := by
  simp only [issueInstr, hf, Option.getD_some, hgate, beforeRun]

/-- Settles O8: `issueWave_of_issuesAlone` leads from the chosen wave to its instruction, and `issueInstr_eq_afterIssue` from
there to exec. -/
theorem stepRunsDecoded : Obligations.StepRunsDecoded := by
  unfold Obligations.StepRunsDecoded
  intro s c q k i f u hnext hthaw hk halone hclean hf
  refine ⟨?_, fun hgate => ⟨runInstr i (beforeRun k i f u), exec_eq_runInstr _ hf, issueInstr_eq_afterIssue hf hgate⟩⟩
  have hstep : step s = .next (issue c q (advanceTime s)) := by
    rw [step, hnext]
    rfl
  rw [hstep, issue_of_pickWave hthaw hk, issueWave_of_issuesAlone halone hclean]

end Sys2Proof.Proofs
end

section
/-!
PROOFS. BAR at a wave, a team and a gang (spec 02 R33 to R35, 11 R237, 21 R404): the one barrier of a team that an arrival
completes, or at which a member is missing.
-/
namespace Sys2Proof.Proofs
open Machine Laws

/-! ### A fence with nothing to move -/

theorem acquireSwm_of_quiet {s : State} {c : Nat} (h : QuietL1 s c) : acquireSwm c s = s := by
  have hnone : ((s.core c).l1.any fun e => e.2.st == .swm) = false :=
    List.any_eq_false.2 fun e he => by simpa using (h e he).1
  rw [acquireSwm, hnone]
  rfl

/-- A fence below pod scope in a core without SWM lines and partials moves nothing. -/
theorem fenceSides_of_quiet {s : State} {c : Nat} (x : Nat) {scope : BitVec 3} (h : QuietL1 s c) (hscope : scope.toNat < 4) :
    fenceSides c x scope s = s := by
  rw [fenceSides, fenceSwm_quiet h, ite_self, acquireSide, acquireSwm_of_quiet h, if_pos hscope, ite_self]

theorem quietL1_sameT {s t : State} {c : Nat} (h : SameButThreads s t) (q : QuietL1 s c) : QuietL1 t c := by
  unfold QuietL1
  rw [core_sameT h]
  exact q

theorem coreOf_sameT {s t : State} (h : SameButThreads s t) (x : Thread) : t.coreOf x = s.coreOf x := by
  unfold State.coreOf State.team
  rw [h]

/-! ### What holds of every thread -/

theorem forall_threads_modThread {P : Thread → Prop} {s : State} (h : ∀ e ∈ s.work.threads, P e.2) (k : Nat) {g : Thread → Thread}
    (hg : ∀ x, P x → P (g x)) : ∀ e ∈ (s.modThread k g).work.threads, P e.2 := by
  intro e he
  unfold State.modThread at he
  split at he
  case h_1 x hx =>
    rcases tab_mem_put he with rfl | hold
    · exact hg x (h _ (tab_mem_of_find hx))
    · exact h e hold
  case h_2 => exact h e he

theorem forall_threads_foldl_modThread {α : Type} {P : Thread → Prop} (id : α → Nat) {g : α → Thread → Thread}
    (hg : ∀ a x, P x → P (g a x)) (l : List α) {s : State} (h : ∀ e ∈ s.work.threads, P e.2) :
    ∀ e ∈ (l.foldl (fun s a => s.modThread (id a) (g a)) s).work.threads, P e.2 := by
  induction l generalizing s with
  | nil => exact h
  | cons a r ih => exact ih (forall_threads_modThread h (id a) (hg a))

/-! ### Barriers of a form -/

/-- The barriers of one form at which threads of a team wait. -/
def resolveForm (team form : Nat) (s : State) : State :=
  (dedup ((s.work.threads.filter fun e => e.2.park == some (.sync form) && ((barTeams s form team).map (·.1)).contains e.2.team).map
    fun e => (e.2.pc, e.2.barCnt form))).foldl (fun s k => resolveBarGroup form team k.1 k.2 s) s

theorem resolveBars_eq (team : Nat) (s : State) : resolveBars team s = resolveForm team 2 (resolveForm team 1 s) := rfl

theorem resolveForm_of_nobody {s : State} {team form : Nat} (h : ∀ e ∈ s.work.threads, e.2.park ≠ some (.sync form)) :
    resolveForm team form s = s := by
  have hnone : (s.work.threads.filter fun e =>
      e.2.park == some (.sync form) && ((barTeams s form team).map (·.1)).contains e.2.team) = [] :=
    List.filter_eq_nil_iff.2 fun e he hboth => h e he (by simpa using (Bool.and_eq_true_iff.1 hboth).1)
  rw [resolveForm, hnone]
  rfl

theorem resolveForm_of_one {s : State} {team form : Nat} {pc : DWord} {cnt : BitVec 16}
    (h : dedup ((s.work.threads.filter fun e =>
      e.2.park == some (.sync form) && ((barTeams s form team).map (·.1)).contains e.2.team).map
        fun e => (e.2.pc, e.2.barCnt form)) = [(pc, cnt)]) :
    resolveForm team form s = resolveBarGroup form team pc cnt s := by
  rw [resolveForm, h, List.foldl_cons, List.foldl_nil]

/-- With nobody at the other form before and after, the barriers of a team are those of one form. -/
theorem resolveBars_of_form {s t : State} {team form other : Nat} (hform : form = 1 ∧ other = 2 ∨ form = 2 ∧ other = 1)
    (ht : resolveForm team form s = t) (hs : ∀ e ∈ s.work.threads, e.2.park ≠ some (.sync other))
    (hleft : ∀ e ∈ t.work.threads, e.2.park ≠ some (.sync other)) : resolveBars team s = t := by
  rw [resolveBars_eq]
  rcases hform with ⟨rfl, rfl⟩ | ⟨rfl, rfl⟩
  · rw [ht, resolveForm_of_nobody hleft]
  · rw [resolveForm_of_nobody hs, ht]

theorem barGroup_sublist (s : State) (form team : Nat) (pc : DWord) (cnt : BitVec 16) :
    (barGroup s form team pc cnt).Sublist s.work.threads := List.filter_sublist

theorem resolveBarGroup_of_complete {s : State} {form team : Nat} {pc : DWord} {cnt : BitVec 16}
    (hne : barGroup s form team pc cnt ≠ [])
    (hok : ∀ e ∈ barGroup s form team pc cnt, barMismatch s form team (barGroup s form team pc cnt) e.2.mask = false)
    (hall : ∀ e ∈ barGroup s form team pc cnt, ∀ m ∈ barMembers s form team e.2.mask,
      ∃ x ∈ barGroup s form team pc cnt, x.1 = m.1) :
    resolveBarGroup form team pc cnt s = releaseBar form (barGroup s form team pc cnt) s := by
  obtain ⟨e, r, hg⟩ := List.exists_cons_of_ne_nil hne
  have he : e ∈ barGroup s form team pc cnt := hg ▸ List.mem_cons_self
  have hno := hok e he
  have hyes : ((barMembers s form team e.2.mask).all fun m => (barGroup s form team pc cnt).any fun x => x.1 == m.1) = true := by
    simpa using hall e he
  unfold resolveBarGroup
  rw [hg] at hno hyes ⊢
  simp only [hno, hyes, Bool.false_eq_true, if_false, if_true]

theorem resolveBarGroup_of_missing {s : State} {form team : Nat} {pc : DWord} {cnt : BitVec 16}
    (hne : barGroup s form team pc cnt ≠ [])
    (hok : ∀ e ∈ barGroup s form team pc cnt, barMismatch s form team (barGroup s form team pc cnt) e.2.mask = false)
    (hmiss : ∀ e ∈ barGroup s form team pc cnt, ∃ m ∈ barMembers s form team e.2.mask,
      ∀ x ∈ barGroup s form team pc cnt, x.1 ≠ m.1) :
    resolveBarGroup form team pc cnt s = s := by
  obtain ⟨e, r, hg⟩ := List.exists_cons_of_ne_nil hne
  have he : e ∈ barGroup s form team pc cnt := hg ▸ List.mem_cons_self
  have hno := hok e he
  have hlack : ((barMembers s form team e.2.mask).all fun m => (barGroup s form team pc cnt).any fun x => x.1 == m.1) = false := by
    obtain ⟨m, hm, hx⟩ := hmiss e he
    exact List.all_eq_false.2 ⟨m, hm, Bool.not_eq_true _ ▸ List.any_eq_false.2 fun x hxg => by simpa using hx x hxg⟩
  unfold resolveBarGroup
  rw [hg] at hno hlack ⊢
  simp only [hno, hlack, Bool.false_eq_true, if_false]

/-! ### Release -/

/-- The fence of a member below pod scope moves nothing where the member's core is quiet. -/
theorem barFence_of_quiet {s : State} {x : Thread} (hq : QuietL1 s (s.coreOf x))
    (hscope : ∀ a g, x.arrival = some a → a.ins = .bar g → (scopeOf g).toNat < 4) : barFence s x = s := by
  unfold barFence
  split
  case h_1 a ha =>
    split
    case h_1 g hon hins => exact fenceSides_of_quiet _ hq (hscope a g ha hins)
    case h_2 => rfl
  case h_2 => rfl

/-- Where no member's fence moves anything, a release does nothing but pass the members on. -/
theorem releaseBar_of_quiet {s : State} (form : Nat) {g : List (Nat × Thread)} (hq : ∀ e ∈ g, QuietL1 s (s.coreOf e.2))
    (hscope : ∀ e ∈ g, ∀ a f, e.2.arrival = some a → a.ins = .bar f → (scopeOf f).toNat < 4) :
    releaseBar form g s = g.foldl (fun s e => s.modThread e.1 (passBar form)) s := by
  unfold releaseBar
  induction g generalizing s with
  | nil => rfl
  | cons e r ih =>
    have hfence : barFence s e.2 = s := barFence_of_quiet (hq e List.mem_cons_self) (hscope e List.mem_cons_self)
    have hsame := sameT_modThread s e.1 (passBar form)
    rw [List.foldl_cons, List.foldl_cons, hfence]
    refine ih (fun x hx => ?_) fun x hx => hscope x (List.mem_cons_of_mem e hx)
    rw [coreOf_sameT hsame]
    exact quietL1_sameT hsame (hq x (List.mem_cons_of_mem e hx))

/-! ### The instruction -/

/-- What a thread presents at BAR. -/
def barArrival (f : Fields) (l : Lane) : Arrival := ⟨.bar f, if f.a == .zero then f.imm else reg32 l.th f.a, 0, 0, true⟩

theorem exec_bar (f : Fields) (s : State) : exec (.bar f) s = .next (bar f s) := rfl

theorem bar_of_wave {f : Fields} (s : State) (h : f.fn.toNat % 4 = 0) :
    bar f s = resolveWaves s.curTeam (arrive f 0 (barArrival f) s) := by
  unfold bar barForm
  rw [if_pos h]
  rfl

theorem bar_of_handler {f : Fields} {s : State} {l : Lane} (h : f.fn.toNat % 4 ≠ 0) (hl : s.activeNow.head? = some l)
    (hh : l.th.handlerOf ≠ none) : bar f s = trapAll f { cause := 0x80 } s := by
  unfold State.activeNow at hl
  unfold bar barForm
  simp only [h, if_false, hl, Option.isSome_iff_ne_none.2 hh, if_true]

/-- A team or gang barrier of a user wave that waits for no remote write and whose core is quiet. -/
theorem bar_of_user {f : Fields} {s : State} {l : Lane} (h : f.fn.toNat % 4 ≠ 0) (hl : s.activeNow.head? = some l)
    (hh : l.th.handlerOf = none) (hrel : ∀ l ∈ s.execLanes f, releaseWaits s l.id (scopeOf f) = false)
    (hq : QuietL1 s s.hereCore) (hscope : (scopeOf f).toNat < 4) :
    bar f s = resolveBars s.curTeam (arrive f (f.fn.toNat % 4) (barArrival f) s) := by
  have hgo : ((s.execLanes f).any fun l => releaseWaits s l.id (scopeOf f)) = false :=
    List.any_eq_false.2 fun x hx => by rw [hrel x hx]; exact Bool.false_ne_true
  unfold State.activeNow at hl
  unfold bar barForm
  simp only [h, if_false, hl, hh, Option.isSome_none, Bool.false_eq_true, releaseFirst, hgo, fenceSides_of_quiet _ hq hscope,
    ite_self]
  rfl

/-- Arrival leaves every thread on its core. -/
theorem quiet_arrive {f : Fields} {s : State} (form : Nat) (arr : Lane → Arrival) (h : ∀ e ∈ s.work.threads, QuietL1 s (s.coreOf e.2)) :
    ∀ e ∈ (arrive f form arr s).work.threads, QuietL1 (arrive f form arr s) ((arrive f form arr s).coreOf e.2) := by
  have hsame := sameT_arrive f form arr s
  have hstay : ∀ e ∈ (arrive f form arr s).work.threads, QuietL1 s (s.coreOf e.2) := by
    unfold arrive
    refine forall_threads_foldl_modThread (P := fun x => QuietL1 s (s.coreOf x)) Lane.id ?_ _ h
    exact fun _ _ hx => hx
  intro e he
  rw [coreOf_sameT hsame]
  exact quietL1_sameT hsame (hstay e he)

/-- A wave barrier: a released member has no result, its instruction being BAR. -/
theorem passWave_of_bar {cs : List (Nat × Arrival)} {t : Thread}
    (h : ∀ a, t.arrival = some a → ∀ g, fieldsOf a.ins = some g → a.ins = .bar g) :
    passWave cs t = { t.unparkNext with arrival := none, syncCnt := t.syncCnt + 1 } := by
  unfold passWave
  cases ha : t.arrival with
  | none => rfl
  | some a =>
    cases hf : fieldsOf a.ins with
    | none => simp only [hf, ite_self]
    | some g =>
      have hout : syncOut cs t.hlane a = .none := by simp only [syncOut, h a ha g hf]
      simp only [hf, hout, writeOut, ite_self]

/-- Everybody of the one barrier of a form has come: each goes on, and nothing but threads has changed. -/
theorem resolveBars_of_complete {s : State} {team form other : Nat} {pc : DWord} {cnt : BitVec 16}
    (hform : form = 1 ∧ other = 2 ∨ form = 2 ∧ other = 1) (hn : (s.work.threads.map (·.1)).Nodup)
    (hother : ∀ e ∈ s.work.threads, e.2.park ≠ some (.sync other))
    (hq : ∀ e ∈ s.work.threads, QuietL1 s (s.coreOf e.2))
    (hscope : ∀ e ∈ barGroup s form team pc cnt, ∀ a g, e.2.arrival = some a → a.ins = .bar g → (scopeOf g).toNat < 4)
    (hgroup : resolveForm team form s = releaseBar form (barGroup s form team pc cnt) s) :
    SameButThreads s (resolveBars team s) ∧
      ∀ e ∈ barGroup s form team pc cnt, (resolveBars team s).thread? e.1 = some (passBar form e.2) := by
  have hsub := barGroup_sublist s form team pc cnt
  rw [releaseBar_of_quiet form (fun e he => hq e (hsub.subset he)) hscope] at hgroup
  have hleft := forall_threads_foldl_modThread (P := fun x => x.park ≠ some (.sync other)) (fun e : Nat × Thread => e.1)
    (g := fun _ => passBar form) (fun _ _ _ h => by cases h) (barGroup s form team pc cnt) hother
  rw [resolveBars_of_form hform hgroup hother hleft]
  refine ⟨sameT_foldl _ (fun s _ => sameT_modThread s _ _) _ _, fun e he => ?_⟩
  rw [thread?_foldl_modThread (fun e => e.1) (fun _ => passBar form) _ s (hn.sublist (hsub.map _)) e he,
    show s.thread? e.1 = some e.2 from tab_find_of_mem hn (hsub.subset he), Option.map_some]

/-- Settles O45: a wave barrier is a wave-level group; a team or gang barrier is the one barrier of its form; the handler wave
takes part in neither. -/
theorem barriers : Obligations.Barriers := by
  unfold Obligations.Barriers
  refine ⟨fun f s A k hform hA hn hkeys hne hok => ?_, ?_, fun f s l hform hl hh => ?_⟩
  · have hexec : exec (.bar f) s = .next (resolveWaveGroup A k) := by
      rw [exec_bar, bar_of_wave s hform, ← resolveWaves_of_one hkeys, hA]
      rfl
    refine ⟨fun hall => ?_, fun hmiss => ?_⟩
    · rw [resolveWaveGroup_of_complete hne hok hall] at hexec
      refine ⟨_, hexec, sameT_trans (hA ▸ sameT_arrive f 0 _ s) (sameT_releaseWave A _), fun e he hins => ?_⟩
      rw [releaseWave_thread? hn (syncGroup_sublist A k) he, passWave_of_bar hins]
    · rw [hexec, resolveWaveGroup_of_missing hne hok hmiss]
  · intro f s A l form other pc cnt _ hform hforms hl hh hrel hq hscope hcores hA hn hother hkeys hok hscopes hne
    have hteam : f.fn.toNat % 4 ≠ 0 := by omega
    have hexec : exec (.bar f) s = .next (resolveBars s.curTeam A) := by
      rw [exec_bar, bar_of_user hteam hl hh hrel hq hscope, ← hform, hA]
      rfl
    refine ⟨fun hall => ?_, fun hmiss => ?_⟩
    · have hgroup := (resolveForm_of_one hkeys).trans (resolveBarGroup_of_complete hne hok hall)
      have hquiet : ∀ e ∈ A.work.threads, QuietL1 A (A.coreOf e.2) := hA ▸ quiet_arrive form _ hcores
      obtain ⟨hsame, hpass⟩ := resolveBars_of_complete hforms hn hother hquiet hscopes hgroup
      exact ⟨_, hexec, sameT_mem (sameT_trans (hA ▸ sameT_arrive f form _ s) hsame), hpass⟩
    · have hgroup := (resolveForm_of_one hkeys).trans (resolveBarGroup_of_missing hne hok hmiss)
      rw [hexec, resolveBars_of_form hforms hgroup hother hother]
  · rw [exec_bar, bar_of_handler hform hl hh]

end Sys2Proof.Proofs
end

section
/-!
PROOFS. The threads of a team that a dispatch decision starts (spec 02 R21, 15 R308), in a table of threads whose keys do not
rise: a refutation of the statement about scheduling.
-/
namespace Sys2Proof.Proofs
open Machine

/-- A grid of one team of one thread that is not yet RUNNING: its first team writes the launch record at 0x5000. -/
def acceptedGrid : Grid :=
  { entry := 0x10004, rcd := 0x5000, teams := 1, hoistThreads := 1, hoists := 1, gangTeams := 1, regs := 16, scratchPages := 1
    state := 1, emitted := 1 }
def firstTask : Task := { kind := .teams 0 1, core := 0 }
/-- Thread 7 waits for the line of the launch record, and thread 0 for thread 7, with which it completes: data that came for
thread 0 was poisoned. Thread 0 stands behind thread 7. -/
def unrisenThreads : Tab Thread :=
  [(7, { park := some (.own 0x5000), batch := some 1 }), (0, { park := some .others, batch := some 1, reply := some { bad := true } })]
/-- Core 0 with the task of the grid on its list, 0 as the key of the next thread, and a transaction in progress on the line of
the launch record. -/
def unrisen : State :=
  { State.reset with
    mem := loadTables.foldl (fun m e => Mem.put 0 m e.1 (natLe 8 e.2)) []
    ctxs := [(0, { st := .live, root := 0x1000 })]
    cores := [(0, { binds := [(0, { ctl := 0x1FE001, queues := 0xFFF000, slots := 0x2400 })] })]
    home := { State.reset.home with dir := [(0x5000, { pending := true })] }
    work := { threads := unrisenThreads, grids := [(0, acceptedGrid)], tasks := [(0, firstTask)], nextGrid := 1, nextTask := 1 } }

/-- Core 0 decides for the task, for which a bind record gives slot 0 of quadrant 0. -/
theorem unrisen_decides :
    unrisen.guidon.frozen = false ∧ pickTask 0 (allowed 0 unrisen) (returnStrays 0 unrisen) = some 0 ∧
      findRecord { returnStrays 0 unrisen with
        work := { (returnStrays 0 unrisen).work with tasks := Tab.del (returnStrays 0 unrisen).work.tasks 0 } } 0 0
        (hoistNeeds acceptedGrid) = some (0, [(0, [0])]) := by
  and_intros <;> decide +kernel

/-- The new thread 0 goes before thread 7, and the old one stays behind it. The write of the launch record ends the transaction
on its line, with it the wait of thread 7, and then the threads of its batch trap together: by its key, the new thread 0 too. -/
theorem unrisen_stops : ((dispatchDecision 0 unrisen).thread? 0).map Thread.stopped = some true := by decide +kernel

/-- Refutes O50: its clause on a dispatch decision says of every table of threads that the threads of the placed team stand at
the grid's entry. In `unrisen` the keys of that table are distinct but do not rise, so a put leaves the old entry of its key
behind the new one, and the new thread takes the trap of the old. Where keys rise, a put replaces the old entry; the clause
has no hypothesis that they do. -/
theorem not_scheduling : ¬ Obligations.Scheduling := by
  unfold Obligations.Scheduling
  rintro ⟨-, -, hdispatch, -⟩
  obtain ⟨hthaw, hpick, hrecord⟩ := unrisen_decides
  obtain ⟨-, hdecide, -⟩ := hdispatch unrisen _ 0 rfl
  obtain ⟨-, -, hplaced⟩ := hdecide hthaw
  obtain ⟨t, -, hexec, -, -, -, -, -, -, -, -, -, -, hthreads⟩ :=
    hplaced 0 firstTask acceptedGrid 0 0 0 [0] hpick rfl rfl rfl rfl rfl rfl rfl rfl hrecord
  have hnext : exec (.dispatchDecision 0) unrisen = .next (dispatchDecision 0 unrisen) := rfl
  obtain rfl : dispatchDecision 0 unrisen = t := Host.Outcome.next.inj (hnext.symm.trans hexec)
  have hstarted := congrArg (Option.map Thread.stopped) (hthreads 0 (by decide))
  rw [show (returnStrays 0 unrisen).work.nextThread + 0 = 0 from rfl, unrisen_stops] at hstarted
  cases hstarted

end Sys2Proof.Proofs
end

section
/-!
PROOFS. Words and instructions (spec 03 R43, R44, R47, R56, R60): what selects an instruction from OP and its form selectors,
what a word must meet to decode, and that the encoder and the decoder undo each other; the one meaning of a decoded instruction
(R48, 06 R97).
-/
namespace Sys2Proof.Proofs
open Laws

/-! ### The selection by OP and form selectors -/

open Select in
/-- OP and the form selectors select every instruction: the laws of `Select`, one for each constructor, in the order of `Instr`. -/
theorem select_statement (i : Instr) : Select.Statement i :=
  i.casesOn
    iadd isub iaddc isubb imul imulh imad idot4 imin imax iabs ineg andB orB xorB andnB notB shl shr sar rotl funsh
    bfx bfi popc clz ctz brev permb sel isetp plop mov movi fadd fsub fmul ffma fmin fmax fsetp fclass frint fscale
    hadd2 hfma2 cvt sfn shfl vote redw prfx matchL hlane exmrd exmwr exmand exmor tidx shpset isect deskew pillar
    lmul lsum lcvt bpack bunpk clamp scle ld st lds sts ldw stw ldc pref cwb cinv cdemote atom cas red ldl stc fence
    acq rel bind unbind waitc bar leaseGet leaseDrop leaseDropall boinit boarr botok bowait bowaitp rinit rget
    rputRes rputPub rrel rstat evmap evsig evwait cp cpblk fork rdv mldb mma accz accsc accld accst msel mnext
    mwaite msig mend mendLoop loopL endl emit permw lset lend spawn spawnt launchg exit yield cancel dlset dlrd
    cqbind cqbindOff cqpush cqflush futwait futpoll poola poolf qcol qocc sample sampleAcc seqnew seqfork seqend
    seqcommit seqcommitConf seqdraft seqrej seqrd pnset pnclr bra brx call callx ret nop trap trapPriv eret eretExit
    eretFail eretE eretEDone eretEDone64 sreg swr bkpt mark smpl tlbinvPage tlbinvCtx tlbinvAll ctxsetNew ctxsetRoot
    ctxsetKill wsetCore wsetSlice wsetGran wsetPort wsetFn regionCoh regionSwm biassetDev biassetHost wsave wrest
    sppin spunpin launchAcceptResume taskEmissionResume dispatchDecision waveFormation formingWaveTimeout issue
    yieldExpiry teamRetire gridDrain taskTransitArrival preemption teamRestore l1SplitChange deadlineFire binTimeout
    tileEmit scratchpadRefill missEntryGrant missDataFill tlbWalk invalidation invalidationAck mergeRequest merge
    writebackAck monitorWake monitorPoll copySector copyComplete sinkMprogStart sinkCopySubmit engineProgramFetch
    queryComplete packetDeliver retransmitTimeout burgeeHold leaseEmbargoEnd waveSample comparatorMatch
    comparatorTimeout trapServe matrixCommandComplete vacateHoldExpiry phbHoldTimeout lqTailWrite neighbourAveraging
    thermalMigrationScan contextSwitch dirReadRequest dirOwnershipRequest dirBuntingRequest dirRecall l1Eviction
    farOperation barrierCredit hostRead hostWrite birsp eventPulse engineFault leaseExpiry fabricFlitRoute e2eAck
    linkReplay negotiationFlit freezeFlit leaseRenewal portRetrain channelDqRetrain freezeRingStep powerGovernorTick
    currentMonitorOver breakdownRecord redundancyMismatch heartbeatMissed clockMonitor supplyMonitor thermalTrip
    freezePin arrayUncorrected moduleQuiescent hbOutToggle gdnCtlFrz gdnCtlThaw gdnCtlRel gdnCtlAck gdnHbWrite
    gdnHbwinWrite mxeCtlClrst mxeCtlAbort mxeCtlSkip mxeCtlResume cpeCtlFail cpeCtlResume lcpCtlAbort lcpCtlSkip
    lcpCtlResume phbCtlMapgo phbCtlRetrain hlyVacWrite hlyAgeWrite hlyAvgWrite coreL1Write corePartWrite
    sltEntCommit sltEntRevoke lqCfgWrite dbgCtlWrite pwrCapWrite mbCmdAttest mbCmdLogread sltStatRead dbgDropRead
    trpCntRead serrCntRead phbStatRead registerWrite moduleReset bringupGuidon bringupManagement bringupRecords
    bringupMemory bringupLinks bringupContexts hostSnoop levelCauseClear phbBusyClear flowOpen flowClose

/-- An instruction with fields has an OP, and the two select it where its form selectors are its own. -/
theorem exists_op_selectOp {i : Instr} {f : Fields} (hf : fieldsOf i = some f) :
    ∃ op, opOf i = some op ∧ (formOk i = true → selectOp op.toNat f = .ok i) := by
  have hselect := select_statement i
  cases hop : opOf i with
  | some op =>
    simp only [Select.Statement, hop, hf] at hselect
    exact ⟨op, rfl, hselect⟩
  | none => simp only [Select.Statement, hop, hf] at hselect

/-- A selection names the OP and keeps every field: each branch gives a constructor of that OP the fields as they are. -/
theorem selectOp_eq_ok {op : Nat} {f : Fields} {i : Instr} (h : selectOp op f = .ok i) :
    opOf i = some (BitVec.ofNat 8 op) ∧ fieldsOf i = some f := by
  unfold selectOp at h
  split at h <;> repeat' split at h
  all_goals cases h <;> exact ⟨rfl, rfl⟩

/-! ### The encoder -/

theorem encode_of_fields {i : Instr} {op : Byte} {f : Fields} (hop : opOf i = some op) (hf : fieldsOf i = some f) :
    encode i = some (packFields op f) := by
  simp only [encode, hop, hf]

/-! ### The decoder -/

/-- What a word must meet to decode in a place: no privileged encoding outside privileged mode, an OP of the place, a selected
instruction, and fields that pass its checks. OP 0xFF selects nothing. -/
theorem decodeWord_eq_ok_iff {env : DecEnv} {w : IWord} {i : Instr} :
    decodeWord env w = .ok i ↔
      (privEncoding (opField w) (unpackFields w).fn && !env.priv) = false ∧ opPlaced env.engine (opField w).toNat = true ∧
        selectOp (opField w).toNat (unpackFields w) = .ok i ∧ checkFields env i (unpackFields w) = none := by
  by_cases hreserved : opField w = 0xFF
  · have hselect : selectOp (opField w).toNat (unpackFields w) = .error 0 := by rw [hreserved]; rfl
    simp only [decodeWord, if_pos hreserved, hselect, reduceCtorEq, false_and, and_false]
  · simp only [decodeWord, if_neg hreserved]
    cases hpriv : privEncoding (opField w) (unpackFields w).fn && !env.priv
    case true => simp
    cases hplaced : opPlaced env.engine (opField w).toNat
    case false => simp
    cases hselect : selectOp (opField w).toNat (unpackFields w) with
    | error k => simp
    | ok j =>
      simp only [Bool.false_eq_true, if_false, Bool.not_true, true_and, Except.ok.injEq]
      constructor
      · intro hdec
        split at hdec
        case h_1 => cases hdec
        case h_2 hcheck =>
          cases hdec
          exact ⟨rfl, hcheck⟩
      · rintro ⟨rfl, hcheck⟩
        simp only [hcheck]

/-! ### The most permissive place -/

theorem priv_openEnv (i : Instr) : (openEnv i).priv = true := by
  unfold openEnv
  split <;> rfl

/-- The place an instruction may stand in holds its OP: an instruction of programs only stands in a program of its engine, and
no other has an OP that only programs hold. -/
theorem opPlaced_openEnv {i : Instr} {op : Byte} (h : opOf i = some op) : opPlaced (openEnv i).engine op.toNat = true := by
  cases i <;> cases h <;> rfl

theorem wellFormed_word_iff {i : Instr} {f : Fields} (hf : fieldsOf i = some f) :
    wellFormed i = true ↔ formOk i = true ∧ f.d.named = true ∧ f.a.named = true ∧ f.b.named = true ∧ f.c.named = true ∧
      checkFields (openEnv i) i f = none := by
  simp only [wellFormed, hf, Bool.and_eq_true, Option.isNone_iff_eq_none, and_assoc]

/-- Settles O2: the word packs the OP that selects the instruction with its fields, and the decoder takes the same OP and fields
out of it. -/
theorem encodeThenDecode : Obligations.EncodeThenDecode := by
  unfold Obligations.EncodeThenDecode
  intro i hwf hfields
  obtain ⟨f, hf⟩ := Option.isSome_iff_exists.1 hfields
  obtain ⟨op, hop, hselect⟩ := exists_op_selectOp hf
  obtain ⟨hform, hd, ha, hb, hc, hcheck⟩ := (wellFormed_word_iff hf).1 hwf
  refine ⟨packFields op f, encode_of_fields hop hf, decodeWord_eq_ok_iff.2 ?_⟩
  rw [opField_pack, unpack_pack op f hd ha hb hc, priv_openEnv]
  exact ⟨Bool.and_false _, opPlaced_openEnv hop, hselect hform, hcheck⟩

/-- Settles O3: the instruction has the OP and the fields that the word holds, and these pack to the word. -/
theorem decodeThenEncode : Obligations.DecodeThenEncode := by
  unfold Obligations.DecodeThenEncode
  intro env w i hdec
  obtain ⟨-, -, hselect, -⟩ := decodeWord_eq_ok_iff.1 hdec
  obtain ⟨hop, hf⟩ := selectOp_eq_ok hselect
  rw [BitVec.ofNat_toNat, BitVec.setWidth_eq] at hop
  rw [encode_of_fields hop hf, pack_unpack]

/-! ### One meaning -/

/-- Settles O7, by the lemma on which an issue rests too. -/
theorem execIsRun : Obligations.ExecIsRun := by
  unfold Obligations.ExecIsRun
  exact fun _ _ s hf => exec_eq_runInstr s hf

end Sys2Proof.Proofs
end

section
/-!
PROOFS. The parity of a line (spec 03 R39): the running parity of a span is that of the number of its ones.
-/
namespace Sys2Proof.Proofs

/-- A running parity from `p` over the flags `b` of a list. -/
theorem foldl_bne_eq_decide (b : Nat → Bool) (js : List Nat) (p : Bool) :
    js.foldl (fun q j => q != b j) p = decide ((js.filter b).length % 2 ≠ p.toNat) := by
  induction js generalizing p with
  | nil => cases p <;> rfl
  | cons j js ih =>
    rw [List.foldl_cons, ih, List.filter_cons]
    cases b j with
    | false => simp
    | true =>
      refine decide_eq_decide.2 ?_
      cases p <;> simp only [if_true, List.length_cons, Bool.false_bne, bne_self_eq_false, Bool.toNat_true, Bool.toNat_false] <;>
        omega

theorem spanParity_eq_decide (l : FLine) (k : Nat) :
    spanParity l k = decide (((List.range 60).filter fun j => l.getLsbD (32 + 60 * k + j)).length % 2 = 1) := by
  have hbits : (List.range 60).filter (fun j => (l.extractLsb' (32 + 60 * k) 60).getLsbD j) =
      (List.range 60).filter fun j => l.getLsbD (32 + 60 * k + j) :=
    List.filter_congr fun j hj => by simp [List.mem_range.1 hj]
  rw [spanParity, parityOf, foldl_bne_eq_decide, hbits]
  simp

/-- Settles O4: a span and its PAR bit agree exactly when their ones together are even in number. -/
theorem lineChecks : Obligations.LineChecks := by
  unfold Obligations.LineChecks
  intro l
  simp only [lineParityOk, List.all_eq_true, List.mem_range, beq_iff_eq, spanParity_eq_decide]
  refine forall₂_congr fun k _ => ?_
  cases l.getLsbD (24 + k) with
  | false =>
    rw [decide_eq_false_iff_not, Bool.toNat_false]
    omega
  | true =>
    rw [decide_eq_true_iff, Bool.toNat_true]
    omega

end Sys2Proof.Proofs
end

section
/-!
PROOFS. Words as the spec writes them out (spec 03 R43, R44, R56, R57, R60, 06 R105): the twelve bytes of a word make up
the word again, and the word that an instruction of a wave encodes to stands for that instruction.
-/
namespace Sys2Proof.Proofs

/-! ### A word as bytes -/

/-- The first `n` bytes of a word, laid in their places, hold its low `8 * n` bits. -/
theorem getLsbD_foldl_bytes (w : IWord) (n j : Nat) :
    ((((List.range n).map fun k => w.extractLsb' (8 * k) 8).zipIdx.foldl
      (fun acc p => acc ||| ((p.1.setWidth 96).shiftLeft (8 * p.2))) (0 : IWord)).getLsbD j) =
      (decide (j < 8 * n) && w.getLsbD j) := by
  induction n with
  | zero => simp
  | succ n ih =>
    rw [List.range_succ, List.map_append, List.zipIdx_append, List.foldl_append, List.map_singleton, List.zipIdx_singleton,
      List.foldl_cons, List.foldl_nil, BitVec.getLsbD_or, ih]
    simp only [BitVec.shiftLeft_eq, BitVec.getLsbD_shiftLeft, BitVec.getLsbD_setWidth, BitVec.getLsbD_extractLsb',
      List.length_map, List.length_range, Nat.zero_add]
    by_cases hlow : j < 8 * n
    · simp [hlow, show j < 8 * (n + 1) by omega]
    · by_cases hw : j < 96
      · rw [show 8 * n + (j - 8 * n) = j by omega]
        by_cases hbyte : j < 8 * (n + 1)
        · simp [hlow, hbyte, hw, show j - 8 * n < 8 by omega, show j - 8 * n < 96 by omega]
        · simp [hlow, hbyte, show ¬ j - 8 * n < 8 by omega]
      · simp [hw, BitVec.getLsbD_of_ge w j (by omega)]

theorem bytesWord_wordBytes (w : IWord) : bytesWord (wordBytes w) = w := by
  refine BitVec.eq_of_getLsbD_eq fun j hj => ?_
  have hbytes : (wordBytes w).take 12 = wordBytes w := List.take_of_length_le (by simp [wordBytes])
  rw [bytesWord, hbytes, wordBytes, getLsbD_foldl_bytes, decide_eq_true hj, Bool.true_and]

/-! ### The instruction a word stands for -/

theorem decodeBytes_wordBytes (w : IWord) : decodeBytes (wordBytes w) = (decodeAny w).map fun i => (i, []) := by
  rw [decodeBytes, bytesWord_wordBytes]
  rfl

theorem decodeTableWord_word (w : Nat) : decodeTableWord 96 w = decodeAny (BitVec.ofNat 96 w) := by
  have hmod : BitVec.ofNat 96 (w % 2 ^ 96) = BitVec.ofNat 96 w := BitVec.eq_of_toNat_eq (by simp)
  rw [decodeTableWord, hmod, decodeBytes_wordBytes, Option.map_map]
  exact Option.map_id'

theorem decodeAny_of_decodeWord {w : IWord} {i : Instr} (h : decodeWord {} w = .ok i) : decodeAny w = some i := by
  rw [decodeAny, h]

/-- The word that a well-formed instruction of a wave encodes to stands for it. -/
theorem decodeTableWord_of_encode {w : Nat} {i : Instr} (hwf : wellFormed i = true) (hwave : openEnv i = {})
    (henc : encode i = some (BitVec.ofNat 96 w)) : decodeTableWord 96 w = some i := by
  have hfields : (fieldsOf i).isSome = true := by
    cases hf : fieldsOf i with
    | some f => rfl
    | none => simp [encode, hf] at henc
  obtain ⟨v, hv, hdec⟩ := encodeThenDecode i hwf hfields
  obtain rfl : BitVec.ofNat 96 w = v := Option.some.inj (henc.symm.trans hv)
  rw [hwave] at hdec
  rw [decodeTableWord_word, decodeAny_of_decodeWord hdec]

/-- Settles O1: each word is the encoding of its instruction, which is well formed and one of a wave. -/
theorem decodeSpecWords : Obligations.DecodeSpecWords := by
  unfold Obligations.DecodeSpecWords
  and_intros
  all_goals exact decodeTableWord_of_encode (by decide) rfl rfl

end Sys2Proof.Proofs
end

section
/-!
PROOFS. Integer instructions in the common lane form (spec 06 R97, R98, R100 to R105): each executing thread is given the
result of its rule, and nothing else happens.
-/
namespace Sys2Proof.Proofs
open Machine Laws

/-- An instruction that maps each lane to a result has that result and no further effect. -/
theorem laneEffect_of_laneMap {i : Instr} {f : Fields} {out : State → Lane → LaneOut}
    (h : ∀ s, exec i s = .next (laneMap f out s)) : LaneEffect i f out nothingElse :=
  laneEffect_of i f out nothingElse h

/-! ### Carry and borrow -/

/-- Without a carry in, the sum is that of the two operands. -/
theorem addOut_false (f : Fields) :
    addOut false f = fun s l => delivered f (iw f) f.uns (ityped s f l f.a + ityped s f l f.b) := by
  funext s l
  rw [addOut, carryIn, if_neg Bool.false_ne_true, Nat.cast_zero, Int.add_zero]

theorem subOut_false (f : Fields) :
    subOut false f = fun s l => delivered f (iw f) f.uns (ityped s f l f.a - ityped s f l f.b) := by
  funext s l
  rw [subOut, carryIn, if_neg Bool.false_ne_true, Nat.cast_zero, Int.sub_zero]

/-- Settles O12: the four instructions are the sum and the difference in the common lane form, with the carry or the borrow as
their further effect. -/
theorem addSubtract : Obligations.AddSubtract := by
  unfold Obligations.AddSubtract
  intro f
  have hadd := laneEffect_of (.iadd f) f (addOut false f) (addCarry false f) fun _ => rfl
  have hsub := laneEffect_of (.isub f) f (subOut false f) (subBorrow false f) fun _ => rfl
  rw [addOut_false] at hadd
  rw [subOut_false] at hsub
  exact ⟨hadd, hsub, laneEffect_of (.iaddc f) f (addOut true f) (addCarry true f) fun _ => rfl,
    laneEffect_of (.isubb f) f (subOut true f) (subBorrow true f) fun _ => rfl⟩

/-- Settles O13: each multiplication maps the lanes to its result. -/
theorem multiply : Obligations.Multiply := by
  unfold Obligations.Multiply
  intro f
  and_intros
  all_goals exact laneEffect_of_laneMap fun _ => rfl

/-- Settles O15: each logic or shift instruction maps the lanes to its result. -/
theorem logicShift : Obligations.LogicShift := by
  unfold Obligations.LogicShift
  intro f
  and_intros
  all_goals exact laneEffect_of_laneMap fun _ => rfl

/-- Settles O16: each instruction maps the lanes to its result. -/
theorem bitFieldsSelectMove : Obligations.BitFieldsSelectMove := by
  unfold Obligations.BitFieldsSelectMove
  intro f
  and_intros
  all_goals exact laneEffect_of_laneMap fun _ => rfl

end Sys2Proof.Proofs
end

section
/-!
PROOFS. Typed patterns and delivery (spec 06 R98, R102): a w-bit pattern read as typed is a bit vector read as unsigned or
signed, a value of the type survives its pattern, and what Deliver answers inside and outside the type.
-/
namespace Sys2Proof.Proofs
open Machine Laws

/-! ### Patterns as bit vectors -/

theorem wrapBits_eq_toNat (w : Nat) (x : Int) : wrapBits w x = (BitVec.ofInt w x).toNat := (BitVec.toNat_ofInt x).symm

theorem wrapBits_lt (w : Nat) (x : Int) : wrapBits w x < 2 ^ w := by
  rw [wrapBits_eq_toNat]
  exact BitVec.isLt _

theorem natCast_wrapBits (w : Nat) (x : Int) : (wrapBits w x : Int) = x % ((2 ^ w : Nat) : Int) :=
  Int.toNat_of_nonneg (Int.emod_nonneg _ (by exact_mod_cast (Nat.two_pow_pos w).ne'))

theorem wrapBits_natCast {w n : Nat} (h : n < 2 ^ w) : wrapBits w (n : Int) = n := by
  rw [wrapBits_eq_toNat, BitVec.ofInt_natCast, BitVec.toNat_ofNat, Nat.mod_eq_of_lt h]

theorem typed_unsigned (w : Nat) (x : DWord) : typed w true x = ((x.setWidth w).toNat : Int) := by
  simp only [typed, Bool.true_or, if_true, BitVec.toNat_setWidth]

theorem typed_signed (w : Nat) (x : DWord) : typed w false x = (x.setWidth w).toInt := by
  have hhalf : x.toNat % 2 ^ w < 2 ^ (w - 1) ↔ 2 * (x.toNat % 2 ^ w) < 2 ^ w := by
    cases w with
    | zero => simp [Nat.mod_one]
    | succ w => rw [Nat.add_sub_cancel, Nat.pow_succ]; omega
  simp only [typed, Bool.false_or, decide_eq_true_eq, hhalf, BitVec.toInt_eq_toNat_cond, BitVec.toNat_setWidth]

theorem setWidth_ofNat_wrapBits {w : Nat} (hw : w ≤ 64) (x : Int) :
    (BitVec.ofNat 64 (wrapBits w x)).setWidth w = BitVec.ofInt w x := by
  rw [BitVec.setWidth_ofNat_of_le hw, wrapBits_eq_toNat, BitVec.ofNat_toNat, BitVec.setWidth_eq]

/-! ### The range of a type -/

theorem typeLo_le_typed (w : Nat) (uns : Bool) (x : DWord) : typeLo w uns ≤ typed w uns x := by
  cases uns with
  | true => rw [typed_unsigned, typeLo, if_pos rfl]; exact Int.natCast_nonneg _
  | false =>
    rw [typed_signed, typeLo, if_neg Bool.false_ne_true, Nat.cast_pow]
    exact BitVec.le_toInt _

theorem typed_le_typeHi (w : Nat) (uns : Bool) (x : DWord) : typed w uns x ≤ typeHi w uns := by
  cases uns with
  | true =>
    rw [typed_unsigned, typeHi, if_pos rfl]
    have := (x.setWidth w).isLt
    omega
  | false =>
    rw [typed_signed, typeHi, if_neg Bool.false_ne_true, Nat.cast_pow]
    exact Int.le_sub_one_of_lt BitVec.toInt_lt

theorem typeLo_le_typeHi (w : Nat) (uns : Bool) : typeLo w uns ≤ typeHi w uns :=
  (typeLo_le_typed w uns 0).trans (typed_le_typeHi w uns 0)

/-- A value of the type is read back from its pattern. -/
theorem typed_wrapBits {w : Nat} {uns : Bool} {x : Int} (hpos : 1 ≤ w) (hw : w ≤ 64) (hlo : typeLo w uns ≤ x)
    (hhi : x ≤ typeHi w uns) : typed w uns (BitVec.ofNat 64 (wrapBits w x)) = x := by
  cases uns with
  | true =>
    rw [typeLo, if_pos rfl] at hlo
    rw [typeHi, if_pos rfl] at hhi
    rw [typed_unsigned, setWidth_ofNat_wrapBits hw, ← wrapBits_eq_toNat, natCast_wrapBits]
    exact Int.emod_eq_of_lt hlo (by omega)
  | false =>
    rw [typeLo, if_neg Bool.false_ne_true, Nat.cast_pow] at hlo
    rw [typeHi, if_neg Bool.false_ne_true, Nat.cast_pow] at hhi
    rw [typed_signed, setWidth_ofNat_wrapBits hw]
    exact BitVec.toInt_ofInt_eq_self hpos hlo (Int.lt_of_le_sub_one hhi)

/-! ### Deliver -/

theorem clampInt_mem {lo hi : Int} (h : lo ≤ hi) (x : Int) : lo ≤ clampInt x lo hi ∧ clampInt x lo hi ≤ hi := by
  unfold clampInt
  split
  · exact ⟨le_rfl, h⟩
  · split
    · exact ⟨h, le_rfl⟩
    · omega

theorem clampInt_of_mem {lo hi x : Int} (hlo : lo ≤ x) (hhi : x ≤ hi) : clampInt x lo hi = x := by
  rw [clampInt, if_neg (not_lt.2 hlo), if_neg (not_lt.2 hhi)]

/-- A trap outside the type where TRP asks for one; else the pattern of the clamped value under SAT, of the value without. -/
theorem deliver_eq_ite (x : Int) (w : Nat) (uns sat trp : Bool) :
    deliver x w uns sat trp = if trp = true ∧ (x < typeLo w uns ∨ typeHi w uns < x) then none
      else some (wrapBits w (if sat then clampInt x (typeLo w uns) (typeHi w uns) else x)) := by
  cases sat <;> simp [deliver]

theorem deliver_eq_none_iff {x : Int} {w : Nat} {uns sat trp : Bool} :
    deliver x w uns sat trp = none ↔ trp = true ∧ (x < typeLo w uns ∨ typeHi w uns < x) := by
  rw [deliver_eq_ite, ite_eq_left_iff]
  simp only [reduceCtorEq, imp_false, not_not]

theorem deliver_eq_some {x : Int} {w n : Nat} {uns sat trp : Bool} (h : deliver x w uns sat trp = some n) :
    n = wrapBits w (if sat then clampInt x (typeLo w uns) (typeHi w uns) else x) := by
  rw [deliver_eq_ite] at h
  split at h
  · cases h
  · exact (Option.some.inj h).symm

theorem deliver_of_not_trp (x : Int) (w : Nat) (uns sat : Bool) :
    deliver x w uns sat false = some (wrapBits w (if sat then clampInt x (typeLo w uns) (typeHi w uns) else x)) := by
  cases sat <;> rfl

/-- Settles O17: a clamped value is of the type and so is a value inside it, and a value of the type is read back from its
pattern. -/
theorem deliverRule : Obligations.DeliverRule := by
  unfold Obligations.DeliverRule
  intro w x uns sat trp hpos hw
  refine ⟨deliver_eq_none_iff, fun n hn => ?_⟩
  obtain rfl := deliver_eq_some hn
  refine ⟨wrapBits_lt _ _, fun hlo hhi => ?_, fun hsat => ?_, fun hsat => ?_⟩
  · have hmem : clampInt x (typeLo w uns) (typeHi w uns) = x := clampInt_of_mem hlo hhi
    rw [hmem, ite_self]
    exact typed_wrapBits hpos hw hlo hhi
  · rw [hsat, if_neg Bool.false_ne_true, natCast_wrapBits]
  · obtain ⟨hlo, hhi⟩ := clampInt_mem (typeLo_le_typeHi w uns) x
    rw [hsat, if_pos rfl]
    exact typed_wrapBits hpos hw hlo hhi

/-! ### Minimum, maximum and the most negative value -/

theorem iw_mem (f : Fields) : 1 ≤ iw f ∧ iw f ≤ 64 := by
  have h : ∀ wid : BitVec 2, 1 ≤ widBits wid ∧ widBits wid ≤ 64 := by decide
  exact h f.wid

theorem delivered_of_deliver_some {f : Fields} {w n : Nat} {uns : Bool} {x : Int} (h : deliver x w uns f.sat f.itrp = some n) :
    delivered f w uns x = .value (w == 64) (extendTo w uns n) := by
  rw [delivered, h]

theorem delivered_of_deliver_none {f : Fields} {w : Nat} {uns : Bool} {x : Int} (h : deliver x w uns f.sat f.itrp = none) :
    delivered f w uns x = .trap { cause := 0x28 } := by
  rw [delivered, h]

/-- The pattern of 2^(w - 1) is read as the most negative value. -/
theorem typed_two_pow_pred {w : Nat} (hpos : 1 ≤ w) (hw : w ≤ 64) :
    typed w false (BitVec.ofNat 64 (2 ^ (w - 1))) = -((2 ^ (w - 1) : Nat) : Int) := by
  have hlt : 2 ^ (w - 1) < 2 ^ w := Nat.pow_lt_pow_right (by decide) (by omega)
  have hdouble : 2 ^ w = 2 * 2 ^ (w - 1) := by rw [← Nat.pow_succ', Nat.succ_eq_add_one, Nat.sub_add_cancel hpos]
  rw [typed_signed, BitVec.setWidth_ofNat_of_le hw, BitVec.toInt_eq_toNat_cond, BitVec.toNat_ofNat, Nat.mod_eq_of_lt hlt,
    if_neg (by omega)]
  omega

theorem delivered_two_pow_pred {f : Fields} {w : Nat} (hpos : 1 ≤ w) :
    (f.itrp = true → delivered f w false ((2 ^ (w - 1) : Nat) : Int) = .trap { cause := 0x28 }) ∧
    (f.itrp = false → f.sat = true → delivered f w false ((2 ^ (w - 1) : Nat) : Int) =
      .value (w == 64) (extendTo w false (2 ^ (w - 1) - 1))) ∧
    (f.itrp = false → f.sat = false → delivered f w false ((2 ^ (w - 1) : Nat) : Int) =
      .value (w == 64) (extendTo w false (2 ^ (w - 1)))) := by
  have hlt : 2 ^ (w - 1) < 2 ^ w := Nat.pow_lt_pow_right (by decide) (by omega)
  have habove : typeHi w false < ((2 ^ (w - 1) : Nat) : Int) := Int.sub_one_lt_of_le le_rfl
  refine ⟨fun htrp => ?_, fun htrp hsat => ?_, fun htrp hsat => ?_⟩
  · exact delivered_of_deliver_none (deliver_eq_none_iff.2 ⟨htrp, .inr habove⟩)
  · have hclamp : clampInt ((2 ^ (w - 1) : Nat) : Int) (typeLo w false) (typeHi w false) = ((2 ^ (w - 1) - 1 : Nat) : Int) := by
      rw [clampInt, if_neg (not_lt.2 ((typeLo_le_typeHi w false).trans habove.le)), if_pos habove,
        Nat.cast_sub Nat.one_le_two_pow]
      rfl
    refine delivered_of_deliver_some ?_
    rw [htrp, hsat, deliver_of_not_trp, if_pos rfl, hclamp, wrapBits_natCast ((Nat.sub_le _ _).trans_lt hlt)]
  · refine delivered_of_deliver_some ?_
    rw [htrp, hsat, deliver_of_not_trp, if_neg Bool.false_ne_true, wrapBits_natCast hlt]

/-! ### Reserved modifiers -/

theorem opcodeErr_of_modOk_false (env : DecEnv) {sh : Shape} (f : Fields) (h : sh.modOk = false) :
    (opcodeErr env sh f).isSome = true := by
  simp only [opcodeErr, h, Bool.not_false, if_true]
  split_ifs <;> rfl

/-- An instruction whose modifier is reserved raises RESERVED_OPCODE. -/
theorem checkFields_of_modOk_false (env : DecEnv) {i : Instr} (f : Fields) (h : (shapeOf i).modOk = false) :
    ∃ k, checkFields env i f = some ⟨0x01, k⟩ := by
  obtain ⟨k, hk⟩ := Option.isSome_iff_exists.1 (opcodeErr_of_modOk_false env f h)
  exact ⟨k, by simp only [checkFields, hk]⟩

/-- A word whose OP is neither reserved nor privileged, and which selects an instruction with a reserved modifier. -/
theorem decodeWord_of_modOk_false {env : DecEnv} {w : IWord} {i : Instr} (hop : opField w ≠ 0xFF)
    (hpriv : privEncoding (opField w) (unpackFields w).fn = false)
    (hselect : selectOp (opField w).toNat (unpackFields w) = .ok i) (hmod : (shapeOf i).modOk = false) :
    ∃ k, decodeWord env w = .error ⟨0x01, k⟩ := by
  obtain ⟨k, hk⟩ := checkFields_of_modOk_false env (unpackFields w) hmod
  simp only [decodeWord, if_neg hop, hpriv, Bool.false_and, Bool.false_eq_true, if_false]
  cases opPlaced env.engine (opField w).toNat with
  | false => exact ⟨0, rfl⟩
  | true => exact ⟨k, by simp only [hselect, hk, Bool.not_true, Bool.false_eq_true, if_false]⟩

/-- UNS is reserved for IABS and INEG. -/
theorem modOk_of_uns {f : Fields} (h : f.uns = true) :
    (shapeOf (.iabs f)).modOk = false ∧ (shapeOf (.ineg f)).modOk = false := by
  simp [shapeOf, intShape, h]

/-- Settles O14: the four instructions map the lanes to their results; the smaller and the larger of two values of the type are
of the type; the negation of the most negative value is just above it; a word with a reserved modifier does not decode. -/
theorem minMaxAbsNeg : Obligations.MinMaxAbsNeg := by
  unfold Obligations.MinMaxAbsNeg
  refine ⟨fun f => ?_, fun f s l x y hx hy => ?_, fun f w n y hw hn hy => ?_, fun env w hop hfn huns => ?_⟩
  · and_intros
    all_goals exact laneEffect_of_laneMap fun _ => rfl
  · obtain ⟨hpos, h64⟩ := iw_mem f
    have hxlo : typeLo (iw f) f.uns ≤ x := hx ▸ typeLo_le_typed _ _ _
    have hylo : typeLo (iw f) f.uns ≤ y := hy ▸ typeLo_le_typed _ _ _
    have hxhi : x ≤ typeHi (iw f) f.uns := hx ▸ typed_le_typeHi _ _ _
    have hyhi : y ≤ typeHi (iw f) f.uns := hy ▸ typed_le_typeHi _ _ _
    exact ⟨typed_wrapBits hpos h64 (le_min hxlo hylo) ((min_le_left x y).trans hxhi),
      typed_wrapBits hpos h64 (hxlo.trans (le_max_left x y)) (max_le hxhi hyhi)⟩
  · obtain ⟨hpos, h64⟩ := hw ▸ iw_mem f
    have hyn : y = (n : Int) := by omega
    rw [hyn, hn]
    obtain ⟨htrap, hsat, hwrap⟩ := delivered_two_pow_pred (f := f) hpos
    exact ⟨htrap, hsat, fun ht hs => ⟨hwrap ht hs, typed_two_pow_pred hpos h64⟩⟩
  · obtain ⟨hiabs, hineg⟩ := modOk_of_uns huns
    have hne : opField w ≠ 0xFF := by rw [hop]; decide
    have hpriv : privEncoding (opField w) (unpackFields w).fn = false := by simp [privEncoding, hop]
    have hselect : selectOp (opField w).toNat (unpackFields w) = selectOp 0x02 (unpackFields w) := by rw [hop]; rfl
    rcases hfn with hfn | hfn
    · exact decodeWord_of_modOk_false hne hpriv (by rw [hselect, Select.op_02, hfn]; rfl) hiabs
    · exact decodeWord_of_modOk_false hne hpriv (by rw [hselect, Select.op_02, hfn]; rfl) hineg

end Sys2Proof.Proofs
end

section
/-!
PROOFS. Bit fields, counts, reversal and rotation bit by bit (spec 06 R103, R104).
-/
namespace Sys2Proof.Proofs
open Machine Laws

/-! ### Fields -/

/-- The field of `n` bits from bit `p`. -/
theorem testBit_field (a p n i : Nat) : (a / 2 ^ p % 2 ^ n).testBit i = (decide (i < n) && a.testBit (p + i)) := by
  rw [Nat.testBit_mod_two_pow, Nat.testBit_div_two_pow, Nat.add_comm]

/-- A field written: the bits below it, the field, and the bits above it. -/
theorem testBit_insert (a b p e i : Nat) (h : p ≤ e) :
    (a / 2 ^ e * 2 ^ e + b % 2 ^ (e - p) * 2 ^ p + a % 2 ^ p).testBit i =
      if p ≤ i ∧ i < e then b.testBit (i - p) else a.testBit i := by
  have hlow : a % 2 ^ p < 2 ^ p := Nat.mod_lt _ (Nat.two_pow_pos p)
  have hmid : 2 ^ p * (b % 2 ^ (e - p)) + a % 2 ^ p < 2 ^ e := by
    have hfield : b % 2 ^ (e - p) < 2 ^ (e - p) := Nat.mod_lt _ (Nat.two_pow_pos _)
    calc 2 ^ p * (b % 2 ^ (e - p)) + a % 2 ^ p < 2 ^ p * (b % 2 ^ (e - p)) + 2 ^ p := Nat.add_lt_add_left hlow _
      _ = 2 ^ p * (b % 2 ^ (e - p) + 1) := (Nat.mul_succ _ _).symm
      _ ≤ 2 ^ p * 2 ^ (e - p) := Nat.mul_le_mul_left _ hfield
      _ = 2 ^ e := by rw [← Nat.pow_add, Nat.add_sub_cancel' h]
  have hsum : a / 2 ^ e * 2 ^ e + b % 2 ^ (e - p) * 2 ^ p + a % 2 ^ p =
      2 ^ e * (a / 2 ^ e) + (2 ^ p * (b % 2 ^ (e - p)) + a % 2 ^ p) := by ring
  rw [hsum, Nat.testBit_two_pow_mul_add _ hmid, Nat.testBit_two_pow_mul_add _ hlow]
  by_cases hie : i < e
  · by_cases hip : i < p
    · simp [hie, hip, Nat.testBit_mod_two_pow]
    · simp [hie, hip, Nat.not_lt.1 hip, Nat.testBit_mod_two_pow, show i - p < e - p by omega]
  · simp [hie, Nat.testBit_div_two_pow, Nat.sub_add_cancel (Nat.not_lt.1 hie)]

/-- A field of at least one and at most `w` bits, extended by its own sign to `w` bits. -/
theorem testBit_signed_field {w k v i : Nat} (hk : k ≤ 64) (hpos : 0 < k) (hi : i < w) :
    (wrapBits w (typed k false (BitVec.ofNat 64 v))).testBit i = v.testBit (if i < k then i else k - 1) := by
  rw [typed_signed, BitVec.setWidth_ofNat_of_le hk, wrapBits_eq_toNat]
  change ((BitVec.ofNat k v).signExtend w).getLsbD i = _
  rw [BitVec.getLsbD_signExtend, decide_eq_true hi, Bool.true_and, BitVec.msb_eq_getLsbD_last]
  have hlast : k - 1 < k := Nat.sub_lt hpos Nat.one_pos
  split
  case isTrue hik => rw [BitVec.getLsbD_ofNat, decide_eq_true hik, Bool.true_and]
  case isFalse => rw [BitVec.getLsbD_ofNat, decide_eq_true hlast, Bool.true_and]

theorem testBit_unsigned_field {w k v i : Nat} (hk : k ≤ 64) (hkw : k ≤ w) :
    (wrapBits w (typed k true (BitVec.ofNat 64 v))).testBit i = (decide (i < k) && v.testBit i) := by
  have hv : v % 2 ^ k < 2 ^ w := (Nat.mod_lt _ (Nat.two_pow_pos k)).trans_le (Nat.pow_le_pow_right (by decide) hkw)
  rw [typed_unsigned, BitVec.setWidth_ofNat_of_le hk, BitVec.toNat_ofNat, wrapBits_natCast hv, Nat.testBit_mod_two_pow]

/-! ### Lists of bits -/

@[simp] theorem length_bitsOf (w n : Nat) : (bitsOf w n).length = w := by simp [bitsOf]

@[simp] theorem getElem_bitsOf (w n i : Nat) (h : i < (bitsOf w n).length) : (bitsOf w n)[i] = n.testBit i := by
  simp [bitsOf]

/-- Leading zeros are counted up to the first one. -/
theorem leadZeros_eq_findIdx (l : List Bool) : leadZeros l = l.findIdx id := by
  induction l with
  | nil => rfl
  | cons b r ih => cases b <;> simp [leadZeros, List.findIdx_cons, ih]

theorem testBit_bitsNat (l : List Bool) (i : Nat) : (bitsNat l).testBit i = l.getD i false := by
  induction l generalizing i with
  | nil => simp [bitsNat]
  | cons b r ih =>
    cases i with
    | zero => cases b <;> simp [bitsNat, Nat.testBit_zero]
    | succ i =>
      have hhalf : (b.toNat + 2 * bitsNat r) / 2 = bitsNat r := by have := b.toNat_lt; omega
      rw [bitsNat, Nat.testBit_succ, hhalf, ih, List.getD_cons_succ]

/-- What the count of leading zeros says of a list of bits. -/
theorem leadZeros_spec (l : List Bool) : leadZeros l ≤ l.length ∧
    (∀ i, ∀ h : i < l.length, i < leadZeros l → l[i] = false) ∧ ∀ h : leadZeros l < l.length, l[leadZeros l] = true := by
  rw [leadZeros_eq_findIdx]
  refine ⟨List.findIdx_le_length, fun i h hi => ?_, fun h => ?_⟩
  · simpa using List.not_of_lt_findIdx hi
  · exact List.findIdx_getElem (p := id) (w := h)

/-! ### The instructions -/

theorem popCount_eq (w a : Nat) : popCount w a = ((List.range w).filter fun i => a.testBit i).length := by
  rw [popCount, bitsOf, List.filter_map, List.length_map]
  rfl

/-- BFX of no field, or of one that begins above the width. -/
theorem bfxPat_of_empty {w p n : Nat} {ctl : Word} (uns : Bool) (a : Nat) (hp : p = (ctl.extractLsb' 0 8).toNat)
    (hn : n = (ctl.extractLsb' 8 8).toNat) (h : n = 0 ∨ p ≥ w) : bfxPat w uns a ctl = 0 := by
  subst hp hn
  exact if_pos h

theorem bfxPat_of_field {w p n : Nat} {ctl : Word} (uns : Bool) (a : Nat) (hp : p = (ctl.extractLsb' 0 8).toNat)
    (hn : n = (ctl.extractLsb' 8 8).toNat) (h : ¬(n = 0 ∨ p ≥ w)) : bfxPat w uns a ctl =
      wrapBits w (typed (min (p + n) w - p) uns (BitVec.ofNat 64 (a / 2 ^ p % 2 ^ (min (p + n) w - p)))) := by
  subst hp hn
  exact if_neg h

theorem testBit_bfxPat_unsigned {w p n i : Nat} {ctl : Word} (a : Nat) (hw : w ≤ 64) (hp : p = (ctl.extractLsb' 0 8).toNat)
    (hn : n = (ctl.extractLsb' 8 8).toNat) :
    (bfxPat w true a ctl).testBit i = (decide (n ≠ 0 ∧ p < w ∧ p + i < min (p + n) w) && a.testBit (p + i)) := by
  by_cases hempty : n = 0 ∨ p ≥ w
  · have hnone : ¬(n ≠ 0 ∧ p < w ∧ p + i < min (p + n) w) := by omega
    rw [bfxPat_of_empty true a hp hn hempty, decide_eq_false hnone, Bool.false_and, Nat.zero_testBit]
  · have hin : i < min (p + n) w - p ↔ n ≠ 0 ∧ p < w ∧ p + i < min (p + n) w := by omega
    rw [bfxPat_of_field true a hp hn hempty, testBit_unsigned_field (by omega) (by omega), testBit_field,
      Bool.and_self_left, decide_eq_decide.2 hin]

theorem testBit_bfxPat_signed {w p n i : Nat} {ctl : Word} (a : Nat) (hw : w ≤ 64) (hi : i < w)
    (hp : p = (ctl.extractLsb' 0 8).toNat) (hn : n = (ctl.extractLsb' 8 8).toNat) (hn0 : n ≠ 0) (hpw : p < w) :
    (bfxPat w false a ctl).testBit i = a.testBit (if p + i < min (p + n) w then p + i else min (p + n) w - 1) := by
  have hfield : ¬(n = 0 ∨ p ≥ w) := by omega
  rw [bfxPat_of_field false a hp hn hfield, testBit_signed_field (by omega) (by omega) hi]
  by_cases hin : p + i < min (p + n) w
  · have hik : i < min (p + n) w - p := by omega
    rw [if_pos hin, if_pos hik, testBit_field, decide_eq_true hik, Bool.true_and]
  · have hik : ¬ i < min (p + n) w - p := by omega
    have hlast : min (p + n) w - p - 1 < min (p + n) w - p := by omega
    have hend : p + (min (p + n) w - p - 1) = min (p + n) w - 1 := by omega
    rw [if_neg hin, if_neg hik, testBit_field, decide_eq_true hlast, Bool.true_and, hend]

theorem testBit_bfiPat {w p n i : Nat} {ctl : Word} (a b : Nat) (hi : i < w) (hp : p = (ctl.extractLsb' 0 8).toNat)
    (hn : n = (ctl.extractLsb' 8 8).toNat) :
    (bfiPat w a b ctl).testBit i = if n ≠ 0 ∧ p ≤ i ∧ i < min (p + n) w then b.testBit (i - p) else a.testBit i := by
  by_cases hempty : n = 0 ∨ p ≥ w
  · have hkeep : bfiPat w a b ctl = a := by subst hp hn; exact if_pos hempty
    rw [hkeep, if_neg (by omega)]
  · have hinsert : bfiPat w a b ctl = a / 2 ^ min (p + n) w * 2 ^ min (p + n) w + b % 2 ^ (min (p + n) w - p) * 2 ^ p + a % 2 ^ p := by
      subst hp hn
      exact if_neg hempty
    rw [hinsert, testBit_insert a b p _ i (by omega)]
    exact if_congr (by omega) rfl rfl

theorem leadZeros_bitsOf (w a : Nat) : leadZeros (bitsOf w a) ≤ w ∧ (∀ i, i < leadZeros (bitsOf w a) → a.testBit i = false) ∧
    (leadZeros (bitsOf w a) < w → a.testBit (leadZeros (bitsOf w a)) = true) := by
  obtain ⟨hle, hzeros, hone⟩ := leadZeros_spec (bitsOf w a)
  simp only [length_bitsOf, getElem_bitsOf] at hle hzeros hone
  exact ⟨hle, fun i hi => hzeros i (by omega) hi, hone⟩

theorem leadZeros_bitsOf_reverse (w a : Nat) :
    leadZeros (bitsOf w a).reverse ≤ w ∧
    (∀ i, i < w → w - leadZeros (bitsOf w a).reverse ≤ i → a.testBit i = false) ∧
    (leadZeros (bitsOf w a).reverse < w → a.testBit (w - 1 - leadZeros (bitsOf w a).reverse) = true) := by
  obtain ⟨hle, hzeros, hone⟩ := leadZeros_spec (bitsOf w a).reverse
  simp only [List.length_reverse, length_bitsOf, List.getElem_reverse, getElem_bitsOf] at hle hzeros hone
  refine ⟨hle, fun i hi hz => ?_, hone⟩
  have hfalse := hzeros (w - 1 - i) (by omega) (by omega)
  rwa [show w - 1 - (w - 1 - i) = i by omega] at hfalse

theorem testBit_bitsNat_reverse {w i : Nat} (a : Nat) (hi : i < w) :
    (bitsNat (bitsOf w a).reverse).testBit i = a.testBit (w - 1 - i) := by
  rw [testBit_bitsNat, List.getD_eq_getElem _ _ (by simpa using hi), List.getElem_reverse, getElem_bitsOf, length_bitsOf]

/-- A rotation by k puts the top k bits below the others. -/
theorem testBit_rotlPat {w a i : Nat} (n : Nat) (ha : a < 2 ^ w) (hi : i < w) :
    (rotlPat w a n).testBit i = a.testBit ((i + w - n % w) % w) := by
  have hk : n % w < w := Nat.mod_lt _ (by omega)
  have htop : a / 2 ^ (w - n % w) < 2 ^ (n % w) := by
    refine Nat.div_lt_of_lt_mul ?_
    rwa [← Nat.pow_add, Nat.sub_add_cancel hk.le]
  rw [rotlPat, Nat.mul_comm, Nat.testBit_mod_two_pow, Nat.testBit_two_pow_mul_add _ htop, decide_eq_true hi, Bool.true_and]
  split
  case isTrue hik =>
    have hwrap : (i + w - n % w) % w = i + (w - n % w) := by rw [Nat.add_sub_assoc hk.le, Nat.mod_eq_of_lt (by omega)]
    rw [Nat.testBit_div_two_pow, hwrap]
  case isFalse hik =>
    have hstay : (i + w - n % w) % w = i - n % w := by
      rw [Nat.sub_add_comm (Nat.not_lt.1 hik), Nat.add_mod_right, Nat.mod_eq_of_lt (by omega)]
    rw [hstay]

/-- Settles O18: the bits of each pattern, and the worked PERMB. -/
theorem bitFieldBits : Obligations.BitFieldBits := by
  unfold Obligations.BitFieldBits
  refine ⟨fun w a b ctl _ hw _ _ => ⟨fun i _ => ?_, fun i hi hn hp => ?_, fun i hi => ?_, popCount_eq w a,
    leadZeros_bitsOf_reverse w a, leadZeros_bitsOf w a, fun i hi => testBit_bitsNat_reverse a hi⟩,
    fun w a n i _ ha hi => testBit_rotlPat n ha hi, rfl⟩
  · exact testBit_bfxPat_unsigned a hw rfl rfl
  · exact testBit_bfxPat_signed a hw hi rfl rfl hn hp
  · exact testBit_bfiPat a b hi rfl rfl

end Sys2Proof.Proofs
end

section
/-!
PROOFS. FCLASS (spec 06 R111): the class of a pattern by its sign, exponent field and fraction.
-/
namespace Sys2Proof.Proofs
open Machine Laws

/-- R111's table: the bit of a sign, an exponent field `e` of `eb` bits and a fraction `m` of `fb` bits. -/
def classOf (eb fb : Nat) (neg : Bool) (e m : Nat) : Nat :=
  if e = 2 ^ eb - 1 then
    if m = 0 then (if neg then 0 else 7) else if m.testBit (fb - 1) then 9 else 8
  else if e = 0 then
    if m = 0 then (if neg then 3 else 4) else (if neg then 2 else 5)
  else if neg then 1 else 6

/-- The rows of the table, one clause each. -/
theorem classOf_table {eb fb e m : Nat} (neg : Bool) (heb : 0 < eb) (he : e < 2 ^ eb) :
    classOf eb fb neg e m ≤ 9 ∧ (classOf eb fb neg e m = 0 ↔ neg = true ∧ e = 2 ^ eb - 1 ∧ m = 0) ∧
      (classOf eb fb neg e m = 1 ↔ neg = true ∧ 0 < e ∧ e < 2 ^ eb - 1) ∧
      (classOf eb fb neg e m = 2 ↔ neg = true ∧ e = 0 ∧ m ≠ 0) ∧ (classOf eb fb neg e m = 3 ↔ neg = true ∧ e = 0 ∧ m = 0) ∧
      (classOf eb fb neg e m = 4 ↔ ¬neg = true ∧ e = 0 ∧ m = 0) ∧ (classOf eb fb neg e m = 5 ↔ ¬neg = true ∧ e = 0 ∧ m ≠ 0) ∧
      (classOf eb fb neg e m = 6 ↔ ¬neg = true ∧ 0 < e ∧ e < 2 ^ eb - 1) ∧
      (classOf eb fb neg e m = 7 ↔ ¬neg = true ∧ e = 2 ^ eb - 1 ∧ m = 0) ∧
      (classOf eb fb neg e m = 8 ↔ e = 2 ^ eb - 1 ∧ m ≠ 0 ∧ m.testBit (fb - 1) = false) ∧
      (classOf eb fb neg e m = 9 ↔ e = 2 ^ eb - 1 ∧ m ≠ 0 ∧ m.testBit (fb - 1) = true) := by
  have hones : 0 < 2 ^ eb - 1 := Nat.sub_pos_of_lt (Nat.one_lt_two_pow heb.ne')
  have hle : e ≤ 2 ^ eb - 1 := Nat.le_sub_one_of_lt he
  unfold classOf
  generalize 2 ^ eb - 1 = ones at *
  by_cases htop : e = ones
  · have hne : e ≠ 0 := by omega
    cases neg <;> cases m.testBit (fb - 1) <;> by_cases hm : m = 0 <;> simp [htop, hm, hones.ne', hones]
  · by_cases hzero : e = 0
    · cases neg <;> by_cases hm : m = 0 <;> simp [hzero, hm, hones.ne]
    · have hmid : 0 < e ∧ e < ones := by omega
      cases neg <;> simp [htop, hzero, hmid]

/-- A format whose infinity has an exponent field of ones and no fraction. -/
def InfOnTop (t : Fmt) : Prop := t.hasInf = true ∧ t.top + 1 = (2 ^ t.eb - 1) * 2 ^ t.fb

theorem mag_eq_fields (t : Fmt) (bits : Nat) :
    bits % 2 ^ t.magBits = bits / 2 ^ t.fb % 2 ^ t.eb * 2 ^ t.fb + bits % 2 ^ t.fb := by
  rw [Fmt.magBits, Nat.add_comm t.eb, Nat.pow_add, Nat.mod_mul, Nat.add_comm, Nat.mul_comm (2 ^ t.fb)]

theorem read_of_ones_zero {t : Fmt} {bits : Nat} (ht : InfOnTop t) (he : bits / 2 ^ t.fb % 2 ^ t.eb = 2 ^ t.eb - 1)
    (hm : bits % 2 ^ t.fb = 0) : t.read false bits = .inf (bits.testBit t.magBits) := by
  obtain ⟨hinf, htop⟩ := ht
  have hmag : bits % 2 ^ t.magBits = t.top + 1 := by rw [mag_eq_fields, he, hm, htop, Nat.add_zero]
  simp [Fmt.read, hmag, hinf]

theorem read_of_ones_frac {t : Fmt} {bits : Nat} (ht : InfOnTop t) (hfb : 0 < t.fb)
    (he : bits / 2 ^ t.fb % 2 ^ t.eb = 2 ^ t.eb - 1) (hm : bits % 2 ^ t.fb ≠ 0) :
    t.read false bits = .nan (!(bits % 2 ^ t.fb).testBit (t.fb - 1)) := by
  obtain ⟨-, htop⟩ := ht
  have hmag : bits % 2 ^ t.magBits = t.top + 1 + bits % 2 ^ t.fb := by rw [mag_eq_fields, he, htop]
  have hquiet : (bits % 2 ^ t.magBits).testBit (t.fb - 1) = (bits % 2 ^ t.fb).testBit (t.fb - 1) := by
    rw [Nat.testBit_mod_two_pow, Nat.testBit_mod_two_pow, decide_eq_true (by rw [Fmt.magBits]; omega), decide_eq_true (by omega)]
  rw [Fmt.read, hquiet, if_pos (by omega), if_neg (by simp; omega)]

theorem mag_le_top {t : Fmt} {bits : Nat} (ht : InfOnTop t) (he : bits / 2 ^ t.fb % 2 ^ t.eb < 2 ^ t.eb - 1) :
    bits % 2 ^ t.magBits ≤ t.top := by
  obtain ⟨-, htop⟩ := ht
  have hlow : bits % 2 ^ t.fb < 2 ^ t.fb := Nat.mod_lt _ (Nat.two_pow_pos _)
  have hmul : (bits / 2 ^ t.fb % 2 ^ t.eb + 1) * 2 ^ t.fb ≤ (2 ^ t.eb - 1) * 2 ^ t.fb := Nat.mul_le_mul_right _ he
  rw [mag_eq_fields]
  rw [Nat.add_one_mul] at hmul
  omega

theorem read_of_zeros {t : Fmt} {bits : Nat} (ht : InfOnTop t) (heb : 0 < t.eb) (he : bits / 2 ^ t.fb % 2 ^ t.eb = 0) :
    t.read false bits = .fin (bits.testBit t.magBits) (bits % 2 ^ t.fb) t.emin := by
  have hones : 0 < 2 ^ t.eb - 1 := Nat.sub_pos_of_lt (Nat.one_lt_two_pow heb.ne')
  have hlow : bits % 2 ^ t.fb < 2 ^ t.fb := Nat.mod_lt _ (Nat.two_pow_pos _)
  have hle := mag_le_top ht (he ▸ hones)
  have hmag : bits % 2 ^ t.magBits = bits % 2 ^ t.fb := by rw [mag_eq_fields, he, Nat.zero_mul, Nat.zero_add]
  rw [hmag] at hle
  rw [Fmt.read, hmag, if_neg (Nat.not_lt.2 hle), if_pos hlow]
  rfl

theorem read_of_between {t : Fmt} {bits : Nat} (ht : InfOnTop t) (hpos : 0 < bits / 2 ^ t.fb % 2 ^ t.eb)
    (he : bits / 2 ^ t.fb % 2 ^ t.eb < 2 ^ t.eb - 1) :
    ∃ g, t.read false bits = .fin (bits.testBit t.magBits) (2 ^ t.fb + bits % 2 ^ t.fb) g := by
  have hfrac : bits % 2 ^ t.magBits % 2 ^ t.fb = bits % 2 ^ t.fb := by
    rw [mag_eq_fields, Nat.mul_add_mod_self_right, Nat.mod_mod]
  have hnorm : ¬ bits % 2 ^ t.magBits < 2 ^ t.fb := by
    have := Nat.mul_le_mul_right (2 ^ t.fb) hpos
    rw [mag_eq_fields]
    omega
  rw [Fmt.read, hfrac, if_neg (Nat.not_lt.2 (mag_le_top ht he)), if_neg hnorm]
  exact ⟨_, rfl⟩

/-- The class of a pattern is R111's, by the fields of the pattern. -/
theorem classBit_eq_classOf {t : Fmt} (ht : InfOnTop t) (heb : 0 < t.eb) (hfb : 0 < t.fb) (bits : Nat) :
    classBit t bits = classOf t.eb t.fb (bits.testBit t.magBits) (bits / 2 ^ t.fb % 2 ^ t.eb) (bits % 2 ^ t.fb) := by
  have hlt : bits / 2 ^ t.fb % 2 ^ t.eb < 2 ^ t.eb := Nat.mod_lt _ (Nat.two_pow_pos _)
  by_cases hones : bits / 2 ^ t.fb % 2 ^ t.eb = 2 ^ t.eb - 1
  · by_cases hm : bits % 2 ^ t.fb = 0
    · simp only [classBit, read_of_ones_zero ht hones hm, classOf, if_pos hones, if_pos hm]
    · simp only [classBit, read_of_ones_frac ht hfb hones hm, classOf, if_pos hones, if_neg hm]
      cases (bits % 2 ^ t.fb).testBit (t.fb - 1) <;> rfl
  · by_cases hzero : bits / 2 ^ t.fb % 2 ^ t.eb = 0
    · simp only [classBit, read_of_zeros ht heb hzero, classOf, if_neg hones, if_pos hzero,
        if_pos (Nat.mod_lt bits (Nat.two_pow_pos t.fb))]
    · obtain ⟨g, hread⟩ := read_of_between ht (Nat.pos_of_ne_zero hzero) (by omega)
      have hpos := Nat.two_pow_pos t.fb
      simp only [classBit, hread, classOf, if_neg hones, if_neg hzero, if_neg (show ¬ 2 ^ t.fb + bits % 2 ^ t.fb = 0 by omega),
        if_neg (show ¬ 2 ^ t.fb + bits % 2 ^ t.fb < 2 ^ t.fb by omega)]

theorem infOnTop_fmtOf (n : Nat) : InfOnTop (fmtOf n) ∧ 0 < (fmtOf n).eb ∧ 0 < (fmtOf n).fb := by
  have hcases : fmtOf n = fp32 ∨ fmtOf n = fp16 ∨ fmtOf n = bf16 := by
    unfold fmtOf
    split
    · exact .inl rfl
    · exact .inr (.inl rfl)
    · exact .inr (.inr rfl)
  rcases hcases with h | h | h <;> rw [h] <;> exact ⟨⟨rfl, rfl⟩, by decide, by decide⟩

/-- Settles O20: the class of the raw operand is R111's table at its fields, and it is delivered as it is. -/
theorem fclassBits : Obligations.FclassBits := by
  unfold Obligations.FclassBits
  intro f
  refine ⟨fun s l => classBit (ffmt f) (fsrc s f l f.a), laneEffect_of_laneMap fun _ => rfl, ?_⟩
  intro s l eb fb e m neg hfmt he hm hneg
  have hfields : (ffmt f).eb = eb ∧ (ffmt f).fb = fb := by
    rw [ffmt]
    rcases hfmt with ⟨hfn, heb, hfb⟩ | ⟨hfn, heb, hfb⟩ | ⟨hfn, heb, hfb⟩ <;> rw [hfn, heb, hfb] <;> exact ⟨rfl, rfl⟩
  obtain ⟨heb, hfb⟩ := hfields
  obtain ⟨htop, hebPos, hfbPos⟩ := infOnTop_fmtOf f.fn.toNat
  have hclass := classBit_eq_classOf htop hebPos hfbPos (fsrc s f l f.a)
  rw [← ffmt, Fmt.magBits, heb, hfb, fsrc, ← he, ← hm] at hclass
  have hsign : neg ↔ (src32 s f l f.a).toNat.testBit (eb + fb) = true := hneg
  beta_reduce
  rw [fsrc, hclass, propext hsign]
  exact classOf_table _ (heb ▸ hebPos) (he ▸ Nat.mod_lt _ (Nat.two_pow_pos eb))

end Sys2Proof.Proofs
end

section
/-!
PROOFS. Floating-point instructions (spec 06 R106 to R115): exact sums, products and comparisons as rationals, the conditions
of FSETP, and each instruction in the common lane form.
-/
namespace Sys2Proof.Proofs
open Machine Laws

/-! ### Exact values -/

/-- An integer in units of 2^k, as a value. -/
theorem exact_ofUnits (z k : Int) : (FVal.fin (decide (z < 0)) z.natAbs k).exact = (z : Rat) * 2 ^ k := by
  rw [FVal.exact]
  congr 1
  by_cases hneg : z < 0
  · have habs : ((z.natAbs : Int) : Rat) = ((-z : Int) : Rat) := by rw [Int.ofNat_natAbs_of_nonpos hneg.le]
    rw [Int.cast_natCast] at habs
    rw [decide_eq_true hneg, if_pos rfl, habs, Int.cast_neg, neg_one_mul, neg_neg]
  · have habs : ((z.natAbs : Int) : Rat) = (z : Rat) := by rw [Int.natAbs_of_nonneg (not_lt.1 hneg)]
    rw [Int.cast_natCast] at habs
    rw [decide_eq_false hneg, if_neg Bool.false_ne_true, habs, one_mul]

/-- `finInt` is the value in units of 2^k, for k at most its exponent. -/
theorem finInt_mul_two_zpow (neg : Bool) (m : Nat) {e k : Int} (h : k ≤ e) :
    (finInt neg m e k : Rat) * 2 ^ k = (FVal.fin neg m e).exact := by
  have hscale : (2 : Rat) ^ (e - k).toNat * 2 ^ k = 2 ^ e := by
    rw [← zpow_natCast, ← zpow_add₀ two_ne_zero, Int.toNat_of_nonneg (Int.sub_nonneg.2 h), Int.sub_add_cancel]
  have hunits : (finInt neg m e k : Rat) = (if neg then -1 else 1) * (m : Rat) * 2 ^ (e - k).toNat := by
    cases neg <;> simp [finInt]
  rw [hunits, mul_assoc, hscale, FVal.exact]

theorem exact_addVal (rm : Nat) (x : Bool) (m : Nat) (e : Int) (y : Bool) (n : Nat) (g : Int) :
    (addVal rm (.fin x m e) (.fin y n g)).exact = (FVal.fin x m e).exact + (FVal.fin y n g).exact := by
  rw [← finInt_mul_two_zpow x m (min_le_left e g), ← finInt_mul_two_zpow y n (min_le_right e g), ← add_mul, ← Int.cast_add]
  simp only [addVal]
  split
  case isTrue hzero => rw [hzero, FVal.exact, Nat.cast_zero, Int.cast_zero, mul_zero, zero_mul]
  case isFalse => exact exact_ofUnits _ _

theorem exact_mulVal (x : Bool) (m : Nat) (e : Int) (y : Bool) (n : Nat) (g : Int) :
    (mulVal (.fin x m e) (.fin y n g)).exact = (FVal.fin x m e).exact * (FVal.fin y n g).exact := by
  have hsign : ((if (x != y) = true then -1 else 1 : Rat)) = (if x = true then -1 else 1) * (if y = true then -1 else 1) := by
    cases x <;> cases y <;> simp
  simp only [mulVal, FVal.exact]
  rw [hsign, zpow_add₀ two_ne_zero, Nat.cast_mul]
  ring

theorem cmpVal_fin_lt_iff (x : Bool) (m : Nat) (e : Int) (y : Bool) (n : Nat) (g : Int) :
    cmpVal (.fin x m e) (.fin y n g) = .lt ↔ (FVal.fin x m e).exact < (FVal.fin y n g).exact := by
  have hunit : (0 : Rat) < 2 ^ min e g := zpow_pos two_pos _
  rw [← finInt_mul_two_zpow x m (min_le_left e g), ← finInt_mul_two_zpow y n (min_le_right e g), mul_lt_mul_iff_left₀ hunit,
    Int.cast_lt, cmpVal, compare_lt_iff_lt]

theorem cmpVal_fin_eq_iff (x : Bool) (m : Nat) (e : Int) (y : Bool) (n : Nat) (g : Int) :
    cmpVal (.fin x m e) (.fin y n g) = .eq ↔ (FVal.fin x m e).exact = (FVal.fin y n g).exact := by
  have hunit : (2 : Rat) ^ min e g ≠ 0 := (zpow_pos two_pos _).ne'
  rw [← finInt_mul_two_zpow x m (min_le_left e g), ← finInt_mul_two_zpow y n (min_le_right e g), mul_left_inj' hunit,
    Int.cast_inj, cmpVal, compare_eq_iff_eq]

/-! ### The conditions of FSETP -/

theorem fcond_of_nan {c : Nat} {x y : FVal} (hc : c < 14) (h : (x.isNan || y.isNan) = true) : fcond c x y = decide (7 ≤ c) := by
  interval_cases c <;> simp only [fcond, h] <;> rfl

theorem fcond_iff_of_ordered {c : Nat} {x y : FVal} (hc : c < 14) (h : (x.isNan || y.isNan) = false) :
    fcond c x y = true ↔ c = 6 ∨ ((c = 0 ∨ c = 8) ∧ cmpVal x y = .eq) ∨ ((c = 1 ∨ c = 9) ∧ cmpVal x y ≠ .eq) ∨
      ((c = 2 ∨ c = 10) ∧ cmpVal x y = .lt) ∨ ((c = 3 ∨ c = 11) ∧ (cmpVal x y = .lt ∨ cmpVal x y = .eq)) ∨
      ((c = 4 ∨ c = 12) ∧ cmpVal x y = .gt) ∨ ((c = 5 ∨ c = 13) ∧ (cmpVal x y = .gt ∨ cmpVal x y = .eq)) := by
  unfold fcond
  rw [h]
  generalize cmpVal x y = o
  cases o <;> interval_cases c <;> decide

/-! ### Minimum and maximum -/

/-- FMIN takes the first operand exactly where it is less, −0 being less than +0, and FMAX exactly where it is not. -/
theorem fMinMax_eq (t : Fmt) (ftz big : Bool) (a b : Nat) :
    fMinMax t ftz big a b =
      (let x := t.read ftz a; let y := t.read ftz b
       if x.isSig || y.isSig then nanRes t true else if x.isNan && y.isNan then nanRes t false
       else if x.isNan then roundVal t 0 false y else if y.isNan then roundVal t 0 false x
       else roundVal t 0 false
        (if decide (cmpVal x y = .lt ∨ cmpVal x y = .eq ∧ x.neg = true ∧ y.neg = false) != big then x else y)) := by
  unfold fMinMax
  generalize t.read ftz a = x
  generalize t.read ftz b = y
  cases hcmp : cmpVal x y <;> simp [hcmp]

/-! ### The common lane form -/

/-- What FloatingPoint says of an instruction and its results in the lanes: LaneEffect at one state, and traps with TRP only. -/
def FloatCompletes (f : Fields) (s : State) (i : Instr) (out : Lane → LaneOut) : Prop :=
  (f.ftrp = false → ∀ l, (out l).isTrap = false) ∧
    ∃ t, exec i s = .next t ∧
      (∀ l ∈ s.execLanes f, (out l).isTrap = false → t.thread? l.id = some (writeOut f (out l) (nextTh s l.th))) ∧
      (∀ l ∈ s.activeNow, guardOk f l.th = false → t.thread? l.id = some (nextTh s l.th)) ∧
      (∀ l ∈ s.execLanes f, ∀ v, out l = .trap v → escalates s l.th = false → t.thread? l.id = (enterUser s f l s.here v).thread? l.id) ∧
      (∀ k, k ∉ s.activeNow.map Lane.id → t.thread? k = s.thread? k) ∧ SameButThreadsCores s t ∧
      ((∀ l ∈ s.execLanes f, (out l).isTrap = false) → SameButThreads s t)

theorem floatCompletes_of_laneMap {f : Fields} {s : State} {i : Instr} {o : State → Lane → LaneOut} (hs : LanesSound s)
    (hi : ∀ s, exec i s = .next (laneMap f o s)) (htrap : f.ftrp = false → ∀ l, (o s l).isTrap = false) :
    FloatCompletes f s i (o s) :=
  ⟨htrap, laneEffect_of_laneMap hi s hs⟩

theorem isTrap_fdeliver {f : Fields} (h : f.ftrp = false) (r : FRes) : (fdeliver f r).isTrap = false := by
  rw [fdeliver, h]
  rfl

theorem isTrap_cvtFlt {f : Fields} (h : f.ftrp = false) (wide : Bool) (r : FRes) : (cvtFlt f wide r).isTrap = false := by
  rw [cvtFlt, h]
  rfl

theorem floatCompletes_of_fdeliver {f : Fields} {s : State} {i : Instr} {r : State → Lane → FRes} (hs : LanesSound s)
    (hi : ∀ s, exec i s = .next (laneMap f (fun s l => fdeliver f (r s l)) s)) :
    FloatCompletes f s i fun l => fdeliver f (r s l) :=
  floatCompletes_of_laneMap (o := fun s l => fdeliver f (r s l)) hs hi fun h _ => isTrap_fdeliver h _

/-! ### Conversions -/

theorem cvtOut_flt_flt {f : Fields} {x d : Fmt} (hx : cvtType (f.fn.extractLsb' 0 4) = .flt x)
    (hd : cvtType (f.fn.extractLsb' 4 4) = .flt d) (s : State) (l : Lane) :
    cvtOut f s l = cvtFlt f (cvtWide (f.fn.extractLsb' 4 4)) (roundVal d f.rm.toNat f.ftz
      (x.read f.ftz (srcVal s f (cvtWide (f.fn.extractLsb' 0 4)) false l f.a).toNat)) := by
  simp only [cvtOut, hx, hd]

theorem cvtOut_flt_int {f : Fields} {x : Fmt} {w : Nat} {uns : Bool} (hx : cvtType (f.fn.extractLsb' 0 4) = .flt x)
    (hd : cvtType (f.fn.extractLsb' 4 4) = .int w uns) (s : State) (l : Lane) :
    cvtOut f s l =
      (let r := toInt f.rm.toNat (typeLo w uns) (typeHi w uns)
        (x.read f.ftz (srcVal s f (cvtWide (f.fn.extractLsb' 0 4)) false l f.a).toNat)
       if f.ftrp && r.2 then .trap { cause := 0x20 }
       else .value (cvtWide (f.fn.extractLsb' 4 4)) (extendTo w uns (wrapBits w r.1))) := by
  simp only [cvtOut, hx, hd]

theorem cvtOut_int_flt {f : Fields} {d : Fmt} {w : Nat} {uns : Bool} (hx : cvtType (f.fn.extractLsb' 0 4) = .int w uns)
    (hd : cvtType (f.fn.extractLsb' 4 4) = .flt d) (s : State) (l : Lane) :
    cvtOut f s l = cvtFlt f (cvtWide (f.fn.extractLsb' 4 4))
      (roundVal d (if f.fn.extractLsb' 4 4 = 13 then 0 else f.rm.toNat) f.ftz
        (ofInt (typed w uns (srcVal s f (cvtWide (f.fn.extractLsb' 0 4)) (!uns) l f.a)))) := by
  simp only [cvtOut, hx, hd]

theorem cvtOut_int_int {f : Fields} {w v : Nat} {uns vuns : Bool} (hx : cvtType (f.fn.extractLsb' 0 4) = .int w uns)
    (hd : cvtType (f.fn.extractLsb' 4 4) = .int v vuns) (s : State) (l : Lane) :
    cvtOut f s l =
      (let x := typed w uns (srcVal s f (cvtWide (f.fn.extractLsb' 0 4)) (!uns) l f.a)
       if f.ftrp && (decide (x < typeLo v vuns) || decide (x > typeHi v vuns)) then .trap { cause := 0x28 }
       else .value (cvtWide (f.fn.extractLsb' 4 4)) (extendTo v vuns (wrapBits v x))) := by
  simp only [cvtOut, hx, hd, deliver, Bool.false_eq_true, if_false]
  split_ifs <;> rfl

theorem floatCompletes_cvt {f : Fields} {s : State} {out : Lane → LaneOut} (hs : LanesSound s) (hout : ∀ l, cvtOut f s l = out l)
    (htrap : f.ftrp = false → ∀ l, (out l).isTrap = false) : FloatCompletes f s (.cvt f) out := by
  obtain rfl : cvtOut f s = out := funext hout
  exact floatCompletes_of_laneMap hs (fun _ => rfl) htrap

/-- A result that traps only with TRP. -/
theorem isTrap_ite_ftrp {f : Fields} (h : f.ftrp = false) (c : Bool) (v : TrapVal) {o : LaneOut} (ho : o.isTrap = false) :
    (if f.ftrp && c then .trap v else o).isTrap = false := by
  rw [h, Bool.false_and, if_neg Bool.false_ne_true, ho]

/-- Settles O19: each instruction maps the lanes to its result, of which only TRP makes a trap; sums, products and comparisons
are exact. -/
theorem floatingPoint : Obligations.FloatingPoint := by
  unfold Obligations.FloatingPoint
  refine ⟨?_, fun rm x m e y n g => ⟨exact_addVal rm x m e y n g, exact_mulVal x m e y n g, cmpVal_fin_lt_iff x m e y n g,
    cmpVal_fin_eq_iff x m e y n g⟩, fun c x y hc => ⟨fcond_of_nan hc, fcond_iff_of_ordered hc⟩, by decide +kernel, by decide +kernel⟩
  intro f s i out t h wide A hs ht hh hwide hA hrow
  subst ht hh hwide hA
  change FloatCompletes f s i out
  rcases hrow with ⟨rfl, rfl⟩ | ⟨rfl, rfl⟩ | ⟨rfl, rfl⟩ | ⟨rfl, rfl⟩ | ⟨rfl, rfl⟩ | ⟨rfl, rfl⟩ | ⟨rfl, rfl⟩ | ⟨rfl, rfl⟩ | ⟨rfl, rfl⟩ |
    ⟨rfl, rfl⟩ | ⟨rfl, rfl⟩ | ⟨rfl, rfl⟩ | ⟨rfl, x, d, hx, hd, rfl⟩ | ⟨rfl, x, w, uns, hx, hd, rfl⟩ | ⟨rfl, w, uns, d, hx, hd, rfl⟩ |
    ⟨rfl, w, uns, v, vuns, hx, hd, rfl⟩
  · exact floatCompletes_of_fdeliver (i := .fadd f) hs fun _ => rfl
  · exact floatCompletes_of_fdeliver (i := .fsub f) hs fun _ => rfl
  · exact floatCompletes_of_fdeliver (i := .fmul f) hs fun _ => rfl
  · exact floatCompletes_of_fdeliver (i := .ffma f) hs fun _ => rfl
  · have hfmin : FloatCompletes f s (.fmin f) fun l =>
        fdeliver f (fMinMax (fmtOf f.fn.toNat) f.ftz false (fsrc s f l f.a) (fsrc s f l f.b)) :=
      floatCompletes_of_fdeliver (i := .fmin f) hs fun _ => rfl
    simpa only [fMinMax_eq, Bool.bne_false, decide_eq_true_eq] using hfmin
  · have hfmax : FloatCompletes f s (.fmax f) fun l =>
        fdeliver f (fMinMax (fmtOf f.fn.toNat) f.ftz true (fsrc s f l f.a) (fsrc s f l f.b)) :=
      floatCompletes_of_fdeliver (i := .fmax f) hs fun _ => rfl
    simpa only [fMinMax_eq, Bool.bne_true, Bool.not_eq_true', decide_eq_false_iff_not] using hfmax
  · exact floatCompletes_of_laneMap hs (o := fsetpOut f) (fun _ => rfl) fun htrp _ => isTrap_ite_ftrp htrp _ _ rfl
  · exact floatCompletes_of_fdeliver (i := .frint f) hs fun _ => rfl
  · exact floatCompletes_of_fdeliver (i := .fscale f) hs fun _ => rfl
  · exact floatCompletes_of_fdeliver (i := .hadd2 f) hs fun _ => rfl
  · exact floatCompletes_of_fdeliver (i := .hfma2 f) hs fun _ => rfl
  · exact floatCompletes_of_fdeliver (i := .sfn f) hs fun _ => rfl
  · exact floatCompletes_cvt hs (cvtOut_flt_flt hx hd s) fun htrp _ => isTrap_cvtFlt htrp _ _
  · exact floatCompletes_cvt hs (cvtOut_flt_int hx hd s) fun htrp _ => isTrap_ite_ftrp htrp _ _ rfl
  · exact floatCompletes_cvt hs (cvtOut_int_flt hx hd s) fun htrp _ => isTrap_cvtFlt htrp _ _
  · exact floatCompletes_cvt hs (cvtOut_int_int hx hd s) fun htrp _ => isTrap_ite_ftrp htrp _ _ rfl

end Sys2Proof.Proofs
end

section
/-!
PROOFS. Control transfers (spec 06 R116, R117): a transfer whose targets all stand, for each instruction's target.
-/
namespace Sys2Proof.Proofs
open Machine Laws

/-- A near target is that slot of the line that IMM names. -/
theorem branchTarget_eq (pc : DWord) (imm : Word) : branchTarget pc imm =
    lineAddr pc + (imm.extractLsb' 3 29).signExtend 64 * 64 + (4 + 12 * (imm.extractLsb' 0 3).setWidth 64) := by
  rw [branchTarget, BitVec.add_assoc, BitVec.add_assoc]

/-- An instruction that is a transfer without a link, where each target stands. -/
theorem transfer_completes {i : Instr} {f : Fields} {s : State} {target : State → Lane → DWord} (hs : LanesSound s)
    (hi : exec i s = .next (transfer f target false s)) (ht : ∀ l ∈ s.execLanes f, targetErr s l.th (target s l) = none) :
    ∃ t, exec i s = .next t ∧ SameButThreads s t ∧ LanesBecome f s t fun l => { l.th with pc := target s l } := by
  obtain ⟨hsame, hlanes⟩ := transfer_done (link := false) hs ht
  exact ⟨_, hi, hsame, hlanes⟩

/-- An instruction that is a transfer with a link, where each target stands. -/
theorem transferLink_completes {i : Instr} {f : Fields} {s : State} {target : State → Lane → DWord} (hs : LanesSound s)
    (hi : exec i s = .next (transfer f target true s)) (ht : ∀ l ∈ s.execLanes f, targetErr s l.th (target s l) = none) :
    ∃ t, exec i s = .next t ∧ SameButThreads s t ∧
      LanesBecome f s t fun l => { putD64 f.d (succPc (s.wave s.curWave).pc) (nextTh s l.th) with pc := target s l } := by
  obtain ⟨hsame, hlanes⟩ := transfer_done (link := true) hs ht
  exact ⟨_, hi, hsame, hlanes⟩

/-- Settles O36: BRA and CALL transfer to the near target, BRX and CALLX to the far one, RET to A; NOP advances. -/
theorem controlTransfers : Obligations.ControlTransfers := by
  unfold Obligations.ControlTransfers
  intro f s pc near hs hpc hnear
  subst hpc
  rw [← branchTarget_eq] at hnear
  subst hnear
  refine ⟨fun ht => ⟨?_, ?_⟩, fun ht => ⟨?_, ?_⟩, fun ht => ?_, ?_⟩
  · exact transfer_completes (i := .bra f) (target := nearTarget f) hs rfl ht
  · exact transferLink_completes (i := .call f) (target := nearTarget f) hs rfl ht
  · exact transfer_completes (i := .brx f) (target := farTarget f) hs rfl ht
  · exact transferLink_completes (i := .callx f) (target := farTarget f) hs rfl ht
  · exact transfer_completes (i := .ret f) (target := fun _ l => reg64 l.th f.a) hs rfl ht
  · exact ⟨advance s, rfl, sameT_advance s, lanesBecome_advance hs⟩

end Sys2Proof.Proofs
end

section
/-!
PROOFS. Lane instructions without a trap, and the wave-local, index, sparse and spatial ones (spec 07 R125 to R134): the remap
entries and physical lanes of a wave, the coordinate of a linear index, and the intersection word by its ranks.
-/
namespace Sys2Proof.Proofs
open Machine Laws

/-! ### The common lane form without a trap -/

/-- What LaneIndexSpatial and NarrowFormats say of an instruction and its results in the lanes. -/
def LaneCompletes (f : Fields) (s : State) (i : Instr) (out : Lane → LaneOut) : Prop :=
  ∃ t, exec i s = .next t ∧ SameButThreads s t ∧ LanesBecome f s t fun l => writeOut f (out l) (nextTh s l.th)

theorem laneCompletes_of_laneMap {f : Fields} {s : State} {i : Instr} {o : State → Lane → LaneOut} {out : Lane → LaneOut}
    (hs : LanesSound s) (hi : ∀ s, exec i s = .next (laneMap f o s)) (hout : ∀ l, o s l = out l)
    (htrap : ∀ l, (out l).isTrap = false) : LaneCompletes f s i out := by
  obtain rfl : o s = out := funext hout
  obtain ⟨t, hexec, hlanes, hidle, -, hrest, -, hsame⟩ := laneEffect_of_laneMap hi s hs
  exact ⟨t, hexec, hsame fun l _ => htrap l, fun l hl => hlanes l hl (htrap l), hidle, hrest⟩

/-! ### The remap table (R125) -/

theorem remapEntry_of_some {s : State} {w : Wave} {k n : Nat} (h : w.lanes.getD k none = some n) :
    remapEntry s w k = BitVec.ofNat 32 ((s.thread n).hlane + 32 * (s.thread n).hwave) := by
  simp only [remapEntry, h, Nat.add_comm, Nat.mul_comm]

theorem remapEntry_of_none {s : State} {w : Wave} {k : Nat} (h : w.lanes.getD k none = none) : remapEntry s w k = 0x80000000 := by
  simp only [remapEntry, h]

theorem physLane_of_absent {s : State} {w : Wave} {hw h : Nat} (ha : ∀ l ∈ s.present w, ¬(l.th.hwave = hw ∧ l.th.hlane = h)) :
    physLane s w hw h = 0xFFFFFFFF := by
  have hfind : (s.present w).find? (fun l => l.th.hwave == hw && l.th.hlane == h) = none :=
    List.find?_eq_none.2 fun l hl => by simpa only [Bool.and_eq_true, beq_iff_eq] using ha l hl
  simp only [physLane, hfind]

theorem physLane_of_unique {s : State} {w : Wave} {l : Lane} (hl : l ∈ s.present w)
    (hu : ∀ x ∈ s.present w, x.th.hwave = l.th.hwave → x.th.hlane = l.th.hlane → x = l) :
    physLane s w l.th.hwave l.th.hlane = BitVec.ofNat 32 l.lane := by
  have hfind : (s.present w).find? (fun x => x.th.hwave == l.th.hwave && x.th.hlane == l.th.hlane) = some l := by
    cases hx : (s.present w).find? (fun x => x.th.hwave == l.th.hwave && x.th.hlane == l.th.hlane) with
    | none => exact absurd (List.find?_eq_none.1 hx l hl) (by simp)
    | some x =>
      have hplace := List.find?_some hx
      rw [Bool.and_eq_true, beq_iff_eq, beq_iff_eq] at hplace
      obtain ⟨hwave, hlane⟩ := hplace
      rw [hu x (List.mem_of_find?_eq_some hx) hwave hlane]
  simp only [physLane, hfind]

/-! ### The coordinate of a linear index (R130) -/

/-- The extents up to dimension k are valid exactly when each of them is. -/
theorem all_extentOk_iff (ns : Vector Word 4) (k : Fin 4) : (ns.toList.take (k + 1)).all extentOk = true ↔
    ∀ j : Fin 4, j ≤ k → 1 ≤ (ns.get j).toNat ∧ (ns.get j).toNat < 2 ^ 31 := by
  simp only [List.all_eq_true, List.mem_take_iff_getElem, extentOk, decide_eq_true_eq]
  constructor
  · intro h j hj
    exact h (ns.get j) ⟨j, by simp only [Vector.length_toList]; omega, rfl⟩
  · rintro h n ⟨j, hj, rfl⟩
    obtain ⟨hk, h4⟩ := Nat.lt_min.1 hj
    exact h ⟨j, by simpa using h4⟩ (Nat.le_of_lt_succ hk)

theorem tidxWord_of_invalid {ns : Vector Word 4} {k : Fin 4} {i : Word}
    (h : 2 ^ 31 ≤ i.toNat ∨ ∃ j : Fin 4, j ≤ k ∧ ((ns.get j).toNat = 0 ∨ 2 ^ 31 ≤ (ns.get j).toNat)) :
    tidxWord ns k i = 0xFFFFFFFF := by
  rw [tidxWord, if_pos]
  refine h.imp id fun ⟨j, hj, hbad⟩ => ?_
  rw [Bool.not_eq_true', ← Bool.not_eq_true, all_extentOk_iff]
  intro hall
  have := hall j hj
  omega

theorem toNat_tidxWord_of_valid {ns : Vector Word 4} {k : Fin 4} {i : Word} (hi : i.toNat < 2 ^ 31)
    (h : ∀ j : Fin 4, j ≤ k → 1 ≤ (ns.get j).toNat ∧ (ns.get j).toNat < 2 ^ 31) :
    (tidxWord ns k i).toNat = i.toNat / ((ns.toList.take k).foldl (fun p n => p * n.toNat) 1) % (ns.get k).toNat := by
  have hall := (all_extentOk_iff ns k).2 h
  have hlower : (ns.toList.take (k + 1)).take k = ns.toList.take k := by rw [List.take_take, Nat.min_eq_left (Nat.le_succ _)]
  have hown : (ns.toList.take (k + 1)).getD k 1 = ns.get k := by
    have hk : (k : Nat) < (ns.toList.take (k + 1)).length := by simp
    rw [List.getD_eq_getElem _ _ hk, List.getElem_take]
    rfl
  have hlt : i.toNat / ((ns.toList.take k).foldl (fun p n => p * n.toNat) 1) % (ns.get k).toNat < 2 ^ 32 := by
    have hmod := Nat.mod_lt (i.toNat / ((ns.toList.take k).foldl (fun p n => p * n.toNat) 1)) (h k le_rfl).1
    have hext := (h k le_rfl).2
    omega
  simp only [tidxWord, hall, Bool.not_true, Bool.false_eq_true, or_false, ge_iff_le, if_neg (not_le.2 hi), hlower, hown,
    BitVec.toNat_ofNat, Nat.mod_eq_of_lt hlt]

/-! ### The intersection word (R131) -/

/-- Of the positions where q holds, the one with as many below it as stand below p is p. -/
theorem getElem?_filter_range {q : Nat → Bool} {n p : Nat} (hp : p < n) (hq : q p = true) :
    ((List.range n).filter q)[((List.range p).filter q).length]? = some p := by
  obtain ⟨r, rfl⟩ := Nat.exists_eq_add_of_le hp
  rw [List.range_add, List.range_succ, List.filter_append, List.filter_append, List.filter_cons_of_pos hq, List.append_assoc,
    List.getElem?_append_right le_rfl, Nat.sub_self]
  rfl

theorem isectWord_of_past {a b k : Word} (h : popBelow (a &&& b) 32 ≤ k.toNat) :
    isectWord a b k = BitVec.ofNat 32 (2 ^ 31 + popBelow (a &&& b) 32 * 2 ^ 24) := by
  have hnone := List.getElem?_eq_none (l := (List.range 32).filter fun i => (a &&& b).getLsbD i) h
  have hcount : popBelow (a &&& b) 32 < 64 := by
    have := List.length_filter_le (fun i => (a &&& b).getLsbD i) (List.range 32)
    rw [List.length_range] at this
    exact this.trans_lt (by decide)
  have hmod : ((List.range 32).filter fun i => (a &&& b).getLsbD i).length % 64 = popBelow (a &&& b) 32 := Nat.mod_eq_of_lt hcount
  simp only [isectWord, hnone, hmod]

theorem isectWord_of_rank {a b k : Word} {p : Nat} (hp : p < 32) (hm : (a &&& b).getLsbD p = true)
    (hk : popBelow (a &&& b) p = k.toNat) :
    isectWord a b k =
      BitVec.ofNat 32 (popBelow (a &&& b) 32 * 2 ^ 24 + popBelow b p * 2 ^ 16 + popBelow a p * 2 ^ 8 + p) := by
  have hsome : ((List.range 32).filter fun i => (a &&& b).getLsbD i)[k.toNat]? = some p := by
    rw [← hk]
    exact getElem?_filter_range hp hm
  simp only [isectWord, hsome]
  rfl

/-- Settles O22: each instruction maps the lanes to its result, none of which is a trap; the words by the cases of their
definitions, the worked results by evaluation. -/
theorem laneIndexSpatial : Obligations.LaneIndexSpatial := by
  unfold Obligations.LaneIndexSpatial
  refine ⟨?_, fun s w k n => ⟨remapEntry_of_some, remapEntry_of_none⟩, fun s w hw h => ⟨physLane_of_absent, ?_⟩,
    fun ns k i => ⟨tidxWord_of_invalid, toNat_tidxWord_of_valid⟩,
    fun a b k => ⟨isectWord_of_past, fun p hp hm hk => isectWord_of_rank hp hm hk⟩, by decide +kernel, ?_, by decide +kernel⟩
  · intro f s i out hs hrow
    change LaneCompletes f s i out
    rcases hrow with ⟨rfl, rfl⟩ | ⟨rfl, rfl⟩ | ⟨rfl, rfl⟩ | ⟨rfl, rfl⟩ | ⟨rfl, rfl⟩ | ⟨rfl, rfl⟩
    all_goals exact laneCompletes_of_laneMap hs (fun _ => rfl) (fun _ => rfl) fun _ => rfl
  · rintro l hl rfl rfl hu
    exact physLane_of_unique hl hu
  · rintro q rfl
    decide +kernel

end Sys2Proof.Proofs
end

section
/-!
PROOFS. Narrow formats (spec 07 R135 to R141): the product of two L6 codes, the least scale that keeps a magnitude within its
bound, unpacked words, and each instruction in the common lane form.
-/
namespace Sys2Proof.Proofs
open Machine Laws

/-! ### Products of L6 codes (R136) -/

theorem lmulCode_comm (a b : Nat) : lmulCode a b = lmulCode b a := by
  simp only [lmulCode, Nat.add_comm (a % 32), bne_comm (a := a.testBit 5), or_left_comm (a := a % 32 = 0)]

theorem lmulCode_of_zero {a b : Nat} (h : a % 32 = 0 ∨ b % 32 = 0) : lmulCode a b = 0 := by
  rw [lmulCode, if_pos (or_assoc.1 (.inl h))]

theorem lmulCode_of_small {a b : Nat} (h : a % 32 + b % 32 ≤ 16) : lmulCode a b = 0 := by
  rw [lmulCode, if_pos (.inr (.inr h))]

theorem lmulCode_of_large {a b : Nat} (ha : a % 32 ≠ 0) (hb : b % 32 ≠ 0) (h : 16 < a % 32 + b % 32) :
    lmulCode a b = (a.testBit 5 != b.testBit 5).toNat * 32 + min (a % 32 + b % 32 - 16) 31 := by
  rw [lmulCode, if_neg (by omega)]

theorem lmulCode_lt (a b : Nat) : lmulCode a b < 64 := by
  have hsign := (a.testBit 5 != b.testBit 5).toNat_lt
  rw [lmulCode]
  split <;> omega

/-- The signs of two codes differ exactly when one of the two is negative. -/
theorem toNat_bne_sign (a b : Fin 64) : (a.val.testBit 5 != b.val.testBit 5).toNat = (a.val / 32 + b.val / 32) % 2 := by
  have hsign : ∀ c : Fin 64, (c.val.testBit 5).toNat = c.val / 32 := by decide
  rw [← hsign a, ← hsign b]
  cases a.val.testBit 5 <;> cases b.val.testBit 5 <;> rfl

/-! ### The scale of PackBlock (R139, R141) -/

/-- A search of the numbers up to n that answers n when none is found. -/
theorem find?_range_getD (p : Nat → Bool) (n : Nat) :
    ((List.range (n + 1)).find? p).getD n ≤ n ∧ (∀ k, k < ((List.range (n + 1)).find? p).getD n → p k = false) ∧
      (((List.range (n + 1)).find? p).getD n < n → p (((List.range (n + 1)).find? p).getD n) = true) := by
  cases h : (List.range (n + 1)).find? p with
  | none =>
    have hall := List.find?_range_eq_none.1 h
    exact ⟨le_rfl, fun k hk => by simpa using hall k (Nat.lt_succ_of_lt hk), fun hlt => absurd hlt (lt_irrefl n)⟩
  | some i =>
    obtain ⟨hi, hmem, hbelow⟩ := List.find?_range_eq_some.1 h
    exact ⟨Nat.le_of_lt_succ (List.mem_range.1 hmem), fun k hk => by simpa using hbelow k hk, fun _ => hi⟩

theorem packScale_of_fixed {code : Nat} {b a : Nat × Int} (h : code = 6 ∨ code = 7 ∨ a.1 = 0) : packScale code b a = 127 := by
  rw [packScale, if_pos]
  simpa [fixedScale, or_assoc] using h

theorem packScale_of_searched {code : Nat} {b a : Nat × Int} (h6 : code ≠ 6) (h7 : code ≠ 7) (ha : a.1 ≠ 0) :
    packScale code b a = ((List.range 255).find? fun (s : Nat) => leMag a.1 (a.2 + 127 - (s : Int)) b.1 b.2).getD 254 := by
  have hsearch : ¬(fixedScale code || a.1 == 0) = true := by simp [fixedScale, h6, h7, ha]
  rw [packScale, if_neg hsearch]

/-! ### Unpacked words (R140) -/

theorem length_bunpkWords (code n rm sc a : Nat) : (bunpkWords code n rm sc a).length = n := by
  rw [bunpkWords, List.length_map, List.length_range]

theorem getD_bunpkWords {n j : Nat} (code rm sc a : Nat) (d : Word) (hj : j < n) : (bunpkWords code n rm sc a).getD j d =
    if code = 0 then 0 else if sc = 255 then 0x7FC00000 else BitVec.ofNat 32 (roundVal fp32 rm false
      (scaleVal ((sc : Int) - 127) ((elemOf code).read (a / 2 ^ ((elemOf code).bits * j) % 2 ^ (elemOf code).bits)))).bits := by
  rw [List.getD_eq_getElem _ _ (by rwa [length_bunpkWords])]
  simp only [bunpkWords, List.getElem_map, List.getElem_range]

theorem isTrap_bunpkOut (f : Fields) (s : State) (l : Lane) : (bunpkOut f s l).isTrap = false := by
  simp only [bunpkOut]
  split <;> rfl

/-! ### The instructions -/

/-- The bound of LCVT is looked at only where there is one. -/
theorem lcvtOut_eq (f : Fields) (s : State) (l : Lane) : lcvtOut f s l =
    (let el := lcvtElem (f.imm.extractLsb' 0 4).toNat
     let bnd := fun (e : Elem) v => if f.recB then clampB (effBound e (src32 s f l f.c)) v else v
     if f.imm.getLsbD 4 then val32 (elemWord el (el.write f.rm.toNat (bnd el (l6Val (src32 s f l f.a).toNat))))
     else val32 (BitVec.ofNat 32 (toL6 f.rm.toNat 31 (bnd .l6 (el.read ((src32 s f l f.a).toNat % 2 ^ el.bits)))))) := by
  cases hb : f.recB <;> simp only [lcvtOut, hb] <;> rfl

theorem isTrap_ite_val32 (c : Prop) [Decidable c] (x y : Word) : (if c then val32 x else val32 y).isTrap = false := by
  split <;> rfl

/-- Settles O23: each instruction maps the lanes to its result, none of which is a trap; the codes, scales and words by the
cases of their definitions, the worked results by evaluation. -/
theorem narrowFormats : Obligations.NarrowFormats := by
  unfold Obligations.NarrowFormats
  refine ⟨?_, fun a b => ⟨lmulCode_lt a b, lmulCode_comm a b, lmulCode_of_small, lmulCode_of_zero, fun ha hb h => ?_⟩,
    fun code b a => ⟨packScale_of_fixed, fun h6 h7 ha => ?_⟩, fun code n rm sc a j hj => ?_, by decide +kernel⟩
  · intro f s i out hs hrow
    change LaneCompletes f s i out
    rcases hrow with ⟨rfl, rfl⟩ | ⟨rfl, rfl⟩ | ⟨rfl, rfl⟩ | ⟨rfl, rfl⟩ | ⟨rfl, rfl⟩ | ⟨rfl, rfl⟩ | ⟨rfl, rfl⟩
    · exact laneCompletes_of_laneMap hs (fun _ => rfl) (fun _ => rfl) fun _ => rfl
    · exact laneCompletes_of_laneMap hs (fun _ => rfl) (fun _ => rfl) fun _ => rfl
    · exact laneCompletes_of_laneMap hs (fun _ => rfl) (lcvtOut_eq f s) fun _ => isTrap_ite_val32 _ _ _
    · exact laneCompletes_of_laneMap hs (fun _ => rfl) (fun _ => rfl) fun _ => isTrap_ite_val32 _ _ _
    · exact laneCompletes_of_laneMap hs (fun _ => rfl) (fun _ => rfl) fun l => isTrap_bunpkOut f s l
    · exact laneCompletes_of_laneMap hs (fun _ => rfl) (fun _ => rfl) fun _ => isTrap_ite_val32 _ _ _
    · exact laneCompletes_of_laneMap hs (fun _ => rfl) (fun _ => rfl) fun _ => rfl
  · have hsign := toNat_bne_sign a b
    have hbit := (a.val.testBit 5 != b.val.testBit 5).toNat_lt
    have hmag : min (a.val % 32 + b.val % 32 - 16) 31 < 32 := Nat.lt_succ_of_le (min_le_right _ _)
    rw [lmulCode_of_large ha hb h]
    omega
  · simpa only [packScale_of_searched h6 h7 ha] using
      find?_range_getD (fun (s : Nat) => leMag a.1 (a.2 + 127 - (s : Int)) b.1 b.2) 254
  · rw [getD_bunpkWords code rm sc a 1 hj]
    refine ⟨length_bunpkWords code n rm sc a, fun hc => if_pos hc, fun hc hsc => ?_, fun hc hsc => ?_⟩
    · rw [if_neg hc, if_pos hsc]
    · rw [if_neg hc, if_neg hsc]

end Sys2Proof.Proofs
end

section
/-!
PROOFS. Matrix instructions (spec 08 R150 to R153, R164): a command that a wave queues or waits for, and the instructions of the
sequencer.
-/
namespace Sys2Proof.Proofs
open Machine Laws

/-! ### Commands of a wave (R150) -/

/-- The command that the issuing wave's instruction queues, with the base of its lowest executing lane. -/
def waveCmd (f : Fields) (s : State) (l : Lane) : MCmd :=
  let w := s.wave s.curWave
  { word := w.wordAt w.pc, base := reg32 l.th f.a, epc := w.pc, quad := w.quad, slot := w.slot }

/-- A matrix command of a wave waits while the queue is full or a program runs, and is queued otherwise. -/
theorem matrixCmd_of_ready {i : Instr} {f : Fields} {s : State} {l : Lane} (h : GroupReady f s l) :
    matrixCmd i f s =
      if 32 ≤ (s.mxe (s.coreOf l.th)).q.length ∨ (s.mxe (s.coreOf l.th)).prog ≠ none then waitAll f .engine s
      else advance (s.modMxe (s.coreOf l.th) fun x => { x with q := (s.mxe (s.coreOf l.th)).q ++ [waveCmd f s l] }) := by
  have ⟨_, hwave, _, _⟩ := h
  rw [matrixCmd, hwave, if_neg Bool.false_ne_true, withGroup_ready h]
  simp only [Bool.or_eq_true, decide_eq_true_eq, Option.isSome_iff_ne_none]
  rfl

/-- With room and no program, a matrix command of a wave is queued at once. -/
theorem command_queued {i : Instr} {f : Fields} {s : State} {l : Lane} (h : GroupReady f s l)
    (hroom : (s.mxe (s.coreOf l.th)).q.length < 32) (hprog : (s.mxe (s.coreOf l.th)).prog = none)
    (hi : exec i s = .next (matrixCmd i f s)) :
    ∃ t, exec i s = .next t ∧ GroupDone f s t l .none ∧ t.group (s.coreOf l.th) =
      { s.group (s.coreOf l.th) with
        mxe := { s.mxe (s.coreOf l.th) with q := (s.mxe (s.coreOf l.th)).q ++ [waveCmd f s l] } } := by
  have ⟨hissuing, _⟩ := h
  have hfree : ¬ (32 ≤ (s.mxe (s.coreOf l.th)).q.length ∨ (s.mxe (s.coreOf l.th)).prog ≠ none) := by
    simpa [hprog] using hroom
  rw [matrixCmd_of_ready h, if_neg hfree] at hi
  refine ⟨_, hi, groupDone_advance hissuing (engaged_modMxe (.rfl' s _) _), ?_⟩
  rw [group_advance, State.modMxe, group_modGroup]
  rfl

/-- With a full queue or a running program, the threads of a matrix command wait. -/
theorem command_waits {i : Instr} {f : Fields} {s : State} {l : Lane} (h : GroupReady f s l)
    (hbusy : 32 ≤ (s.mxe (s.coreOf l.th)).q.length ∨ (s.mxe (s.coreOf l.th)).prog ≠ none)
    (hi : exec i s = .next (matrixCmd i f s)) : ∃ t, exec i s = .next t ∧ AllWait f s t .engine := by
  have ⟨⟨hsound, _⟩, _⟩ := h
  rw [matrixCmd_of_ready h, if_pos hbusy] at hi
  exact ⟨_, hi, allWait_waitAll hsound _⟩

/-! ### The sequencer (R153, R164, log entry 74) -/

theorem inSequencer_at {s : State} {c : Nat} (hcur : s.cur = .engine c .matrix) (k : Nat → State → State) :
    inSequencer k s = k c s := by
  rw [inSequencer, hcur]

theorem matrixCmd_of_full {i : Instr} {f : Fields} {s : State} {c : Nat} (hcur : s.cur = .engine c .matrix)
    (hfull : 32 ≤ (s.mxe c).q.length) : matrixCmd i f s = s := by
  have hhere : s.hereCore = c := by rw [State.hereCore, hcur]
  have hin : s.inEngine = true := by rw [State.inEngine, hcur]
  rw [matrixCmd, if_pos hin]
  simp only [hhere, ge_iff_le, hfull, if_true]

theorem mxe_setProgPc (c : Nat) (pc : DWord) (u : State) : (setProgPc c .matrix pc u).mxe c =
    { u.mxe c with prog := (u.mxe c).prog.map fun p => (pc, p.2) } := mxe_modMxe u c _

theorem lcp_setProgPc (c : Nat) (pc : DWord) (u : State) : (setProgPc c .matrix pc u).lcp c = u.lcp c := lcp_modMxe u c _

theorem sinks_setProgPc (c : Nat) (pc : DWord) (u : State) :
    ((setProgPc c .matrix pc u).group c).sinks = (u.group c).sinks := by
  rw [setProgPc, State.modMxe, group_modGroup]

/-- The permit of a held record returns to the loop-control processor. -/
theorem lcp_returnM (c : Nat) (u : State) :
    (returnM c u).lcp c = { u.lcp c with outM := (u.lcp c).outM - (u.mxe c).held.isSome.toNat } := by
  unfold returnM
  split
  · next hheld => simp [hheld]
  · next sig hheld =>
    rw [lcp_wake]
    cases sig <;> simp [lcp_pulse, lcp_modLcp, lcp_modMxe, hheld]

/-- The end of a matrix program gives up its record and its iteration words. -/
theorem mxEnd_spec {s u : State} {c : Nat} (h : Engaged s u c) : Engaged s (mxEnd c u) c ∧
    (mxEnd c u).mxe c = { u.mxe c with prog := none, iw := Vector.replicate 8 0, held := none } ∧
    (mxEnd c u).lcp c = { u.lcp c with outM := (u.lcp c).outM - (u.mxe c).held.isSome.toNat } := by
  obtain ⟨hengaged, hmxe⟩ := returnM_spec h
  refine ⟨engaged_wake (engaged_modMxe hengaged _) c, ?_, ?_⟩
  · rw [mxEnd, mxe_wake, mxe_modMxe, hmxe]
  · rw [mxEnd, lcp_wake, lcp_modMxe, lcp_returnM]

/-- The machine once the sequencer has given up its record and taken the next one. -/
def withRecord (c : Nat) (r : IterRec) (rs : List IterRec) (s : State) : State :=
  ((returnM c s).modLcp c fun x => { x with recM := rs }).modMxe c fun x => { x with iw := r.words, held := some r.sig }

theorem withRecord_spec (c : Nat) (r : IterRec) (rs : List IterRec) (s : State) : Engaged s (withRecord c r rs s) c ∧
    (withRecord c r rs s).mxe c = { s.mxe c with iw := r.words, held := some r.sig } ∧
    (withRecord c r rs s).lcp c =
      { s.lcp c with recM := rs, outM := (s.lcp c).outM - (s.mxe c).held.isSome.toNat } := by
  obtain ⟨hengaged, hmxe⟩ := returnM_spec (.rfl' s c)
  refine ⟨engaged_modMxe (engaged_modLcp hengaged _) _, ?_, ?_⟩
  · rw [withRecord, mxe_modMxe, mxe_modLcp, hmxe]
  · rw [withRecord, lcp_modMxe, lcp_modLcp, lcp_returnM]

section Sequencer
variable {f : Fields} {s : State} {c : Nat} {pc start : DWord}

/-- After a change of its engine group, the program of the matrix engine goes on at the successor. -/
theorem engineNext_matrix {u : State} (hcur : s.cur = .engine c .matrix) (h : Engaged s u c)
    (hprog : (u.mxe c).prog = some (pc, start)) : engineNext u = setProgPc c .matrix (succPc pc) u :=
  engineNext_at ((engaged_cur h).trans hcur) (by rw [progPc, hprog, Option.map_some])

theorem mendLoop_eq (hcur : s.cur = .engine c .matrix) (hprog : (s.mxe c).prog = some (pc, start)) :
    mendLoop f s = setProgPc c .matrix start s := by
  rw [mendLoop, inSequencer_at hcur]
  simp only [hprog]

theorem mnext_eq {r : IterRec} {rs : List IterRec} (hcur : s.cur = .engine c .matrix)
    (hprog : (s.mxe c).prog = some (pc, start)) (hrec : (s.lcp c).recM = r :: rs) :
    mnext f s = setProgPc c .matrix (succPc pc) (withRecord c r rs s) := by
  obtain ⟨hengaged, hmxe, -⟩ := withRecord_spec c r rs s
  rw [mnext, inSequencer_at hcur]
  simp only [hrec]
  exact engineNext_matrix hcur hengaged ((congrArg Mxe.prog hmxe).trans hprog)

theorem engaged_setSink {u : State} (h : Engaged s u c) (k : Nat) (x : Sink) : Engaged s (setSink c k x u) c := engaged_modGroup h _

theorem mxe_setSink (u : State) (k : Nat) (x : Sink) : (setSink c k x u).mxe c = u.mxe c := by
  rw [State.mxe, setSink, group_modGroup, State.mxe]

theorem find_sinks_setSink (u : State) (k : Nat) (x : Sink) : Tab.find ((setSink c k x u).group c).sinks k = some x := by
  rw [setSink, group_modGroup, tab_find_put_self]

theorem mwaite_eq (hcur : s.cur = .engine c .matrix) (hprog : (s.mxe c).prog = some (pc, start))
    (hact : (sinkOf s c (imNat f 0 4)).act = 0) (hcnt : 1 ≤ (sinkOf s c (imNat f 0 4)).cnt) :
    mwaite f s = setProgPc c .matrix (succPc pc)
      (setSink c (imNat f 0 4) { sinkOf s c (imNat f 0 4) with cnt := (sinkOf s c (imNat f 0 4)).cnt - 1 } s) := by
  have htake : takeCounts c (imNat f 0 4) 1 s =
      some (setSink c (imNat f 0 4) { sinkOf s c (imNat f 0 4) with cnt := (sinkOf s c (imNat f 0 4)).cnt - 1 } s) :=
    if_neg (Nat.not_lt.2 hcnt)
  rw [mwaite, inSequencer_at hcur]
  simp only [hact, ne_eq, not_true_eq_false, if_false, htake]
  exact engineNext_matrix hcur (engaged_setSink (.rfl' s c) _ _) ((congrArg Mxe.prog (mxe_setSink s _ _)).trans hprog)

end Sequencer

/-- Settles O34: each command of a wave is `command_queued` or `command_waits`; the sequencer's instructions are changes of
its engine group, after which its program stands where `setProgPc` puts it. -/
theorem matrixInstructions : Obligations.MatrixInstructions := by
  unfold Obligations.MatrixInstructions
  refine ⟨fun f s l h => ⟨fun hroom hprog => ?_, fun hbusy => ?_⟩, fun f s c pc start hcur hprog => ?_⟩
  · exact ⟨command_queued h hroom hprog rfl, command_queued h hroom hprog rfl, command_queued h hroom hprog rfl,
      command_queued h hroom hprog rfl, command_queued h hroom hprog rfl, command_queued h hroom hprog rfl,
      command_queued h hroom hprog rfl, command_queued h hroom hprog rfl⟩
  · exact ⟨command_waits h hbusy rfl, command_waits h hbusy rfl, command_waits h hbusy rfl, command_waits h hbusy rfl,
      command_waits h hbusy rfl, command_waits h hbusy rfl, command_waits h hbusy rfl, command_waits h hbusy rfl⟩
  intro permit
  have hpermit : ∀ n, permit n = n - (s.mxe c).held.isSome.toNat := fun n => by
    cases hheld : (s.mxe c).held <;> simp [permit, hheld]
  refine ⟨?_, ?_, fun r rs hrec => ?_, fun x hx hact hcnt => ?_, fun hfull => ?_⟩
  · have hengaged := engaged_setProgPc (.rfl' s c) .matrix start
    refine ⟨_, congrArg Host.Outcome.next (mendLoop_eq hcur hprog), hengaged.one, engaged_keeps hengaged, ?_⟩
    rw [mxe_setProgPc, hprog, Option.map_some]
  · obtain ⟨hengaged, hmxe, hlcp⟩ := mxEnd_spec (.rfl' s c)
    refine ⟨_, congrArg Host.Outcome.next (inSequencer_at hcur mxEnd), hengaged.one, engaged_keeps hengaged, hmxe, ?_⟩
    rw [hlcp, hpermit]
  · obtain ⟨hengaged, hmxe, hlcp⟩ := withRecord_spec c r rs s
    have hnext := engaged_setProgPc hengaged .matrix (succPc pc)
    refine ⟨_, congrArg Host.Outcome.next (mnext_eq hcur hprog hrec), hnext.one, engaged_keeps hnext, ?_, ?_⟩
    · rw [mxe_setProgPc, hmxe, hprog, Option.map_some]
    · rw [lcp_setProgPc, hlcp, hpermit]
  · subst hx
    have hnext := engaged_setProgPc (engaged_setSink (.rfl' s c) (imNat f 0 4)
      { sinkOf s c (imNat f 0 4) with cnt := (sinkOf s c (imNat f 0 4)).cnt - 1 }) .matrix (succPc pc)
    refine ⟨_, congrArg Host.Outcome.next (mwaite_eq hcur hprog hact hcnt), hnext.one, engaged_keeps hnext, ?_, ?_⟩
    · rw [mxe_setProgPc, mxe_setSink, hprog, Option.map_some]
    · rw [sinks_setProgPc]
      exact find_sinks_setSink s _ _
  · exact ⟨congrArg Host.Outcome.next (matrixCmd_of_full hcur hfull), congrArg Host.Outcome.next (matrixCmd_of_full hcur hfull),
      congrArg Host.Outcome.next (matrixCmd_of_full hcur hfull)⟩

end Sys2Proof.Proofs
end

section
/-!
PROOFS. The commands of the matrix engine (spec 08 R148, R155, R156, R158 to R162): what the head command does to the engine and to its
owner's scratchpad, the halts, and the control bits.
-/
namespace Sys2Proof.Proofs
open Machine Laws

/-! ### A command done, a row done, a halt (R154, R155) -/

theorem engaged_mxDone {s u : State} {c : Nat} (h : Engaged s u c) : Engaged s (mxDone c u) c :=
  engaged_wake (engaged_modMxe h _) c

theorem mxe_mxDone (c : Nat) (u : State) : (mxDone c u).mxe c = { u.mxe c with q := (u.mxe c).q.drop 1 } := by
  rw [mxDone, mxe_wake, mxe_modMxe]

theorem engaged_accRowDone {s u : State} {c : Nat} (h : Engaged s u c) (m : MCmd) (f : Fields) :
    Engaged s (accRowDone c m f u) c := by
  unfold accRowDone
  split
  · exact engaged_mxDone h
  · exact engaged_modMxe h _

theorem mxe_accRowDone {u : State} {c : Nat} {q : List MCmd} (m : MCmd) (f : Fields) (hq : (u.mxe c).q.drop 1 = q) :
    (accRowDone c m f u).mxe c =
      { u.mxe c with q := if m.row ≥ imNat f 14 6 then q else { m with row := m.row + 1 } :: q } := by
  unfold accRowDone
  split
  · rw [mxe_mxDone, hq]
  · rw [mxe_modMxe, hq]

theorem teams_accRowDone (c : Nat) (m : MCmd) (f : Fields) (u : State) :
    (accRowDone c m f u).work.teams = u.work.teams := by
  unfold accRowDone
  split
  · rw [mxDone, wakeEngine_sameT c (u.modMxe c _)]
    rfl
  · rfl

/-- A halt counts and queues a trap of the core, and no thread stops. -/
theorem mxHalt_spec (c : Nat) (cause : Byte) (addr : Nat) (m : MCmd) (u : State) :
    Stirred u (mxHalt c cause addr m u) ∧ OneCore u (mxHalt c cause addr m u) c ∧
      (mxHalt c cause addr m u).mxe c = { u.mxe c with halt := some cause } := by
  refine ⟨⟨rfl, rfl, fun _ => .inl rfl⟩, ?_, ?_⟩
  · unfold mxHalt engineTrap State.countTraps State.modMxe State.modGroup
    exact oneCore_modCore (oneCore_modCore (oneCore_modCore (oneCore_refl u c) _) _) _
  · rw [← mxe_modMxe u c fun x => { x with halt := some cause }]
    simp only [mxHalt, engineTrap, State.countTraps, State.mxe, State.group, core_modCore, if_true]

/-! ### Addresses (R155, R158) -/

theorem mxAddr_pages {s u : State} (h : PagesOnly s u) (c addr n : Nat) : mxAddr u c addr n = mxAddr s c addr n := by
  unfold mxAddr
  rw [scratchSize_pages h, core_pages h]

theorem mxAddr_misaligned {s : State} {c addr n : Nat} (h : addr % 64 ≠ 0) : mxAddr s c addr n = some 0x43 := if_pos h

theorem mxAddr_outlying {s : State} {c addr n : Nat} (h : addr % 64 = 0)
    (hend : scratchSize s ((s.core c).owner.getD 0) < addr + n) : mxAddr s c addr n = some 0x48 := by
  rw [mxAddr, if_neg (not_not.2 h), if_pos hend]

theorem mxAddr_inside {s : State} {c addr n : Nat} (h : addr % 64 = 0)
    (hend : addr + n ≤ scratchSize s ((s.core c).owner.getD 0)) : mxAddr s c addr n = none := by
  rw [mxAddr, if_neg (not_not.2 h), if_neg (Nat.not_lt.2 hend)]

theorem withMxAddr_of_some {s : State} {c addr n : Nat} {cause : Byte} (h : mxAddr s c addr n = some cause) (m : MCmd)
    (k : State → State) : withMxAddr c m addr n k s = mxHalt c cause addr m s := by
  rw [withMxAddr, h]

theorem withMxAddr_of_none {s : State} {c addr n : Nat} (h : mxAddr s c addr n = none) (m : MCmd) (k : State → State) :
    withMxAddr c m addr n k s = k s := by
  rw [withMxAddr, h]

/-! ### The scratchpad of the owner (R162) -/

theorem keepsThread_trans {s u t : State} {k : Nat} (h : KeepsThread s u k) (h' : KeepsThread u t k) : KeepsThread s t k := by
  obtain ⟨hsome, hv, hp, hq, hpc, htrap, hsaved⟩ := h
  obtain ⟨hsome', hv', hp', hq', hpc', htrap', hsaved'⟩ := h'
  exact ⟨hsome'.trans hsome, hv'.trans hv, hp'.trans hp, hq'.trans hq, hpc'.trans hpc, htrap'.trans htrap, hsaved'.trans hsaved⟩

theorem thread?_scratchWrite (team off : Nat) (bs : List Byte) (u : State) (k : Nat) :
    (scratchWrite team off bs u).thread? k = u.thread? k := by
  rw [scratchWrite, modTeam_eq]
  rfl

theorem mxe_scratchWrite (team off : Nat) (bs : List Byte) (u : State) (c : Nat) :
    (scratchWrite team off bs u).mxe c = u.mxe c := by
  rw [scratchWrite, modTeam_eq]
  rfl

theorem mem_scratchWrite (team off : Nat) (bs : List Byte) (u : State) : (scratchWrite team off bs u).mem = u.mem := by
  rw [scratchWrite, modTeam_eq]

/-- A team with bytes written to its scratchpad. -/
def writtenTeam (off : Nat) (bs : List Byte) (x : Team) : Team := { x with scratch := Mem.put 0 x.scratch off bs }

theorem padWritten_scratchWrite {s u : State} (h : PagesOnly s u) (team off : Nat) (bs : List Byte) :
    PadWritten s (scratchWrite team off bs u) team off bs := by
  obtain ⟨-, hteams⟩ := h
  intro k
  rw [scratchWrite, team?_modTeam]
  split
  · next hk =>
    subst hk
    have hwritten := congrArg (Option.map (writtenTeam off bs)) (hteams k)
    rw [Option.map_map, Option.map_map] at hwritten
    rw [Option.map_map]
    exact hwritten
  · exact hteams k

/-! ### The head command of a running engine (R151, R155) -/

/-- The engine runs, a command and the rest of the queue are given, and the command's pages are in their frames. -/
structure HeadRuns (s : State) (c : Nat) (m : MCmd) (q : List MCmd) : Prop where
  thawed : s.guidon.frozen = false
  unhalted : (s.mxe c).halt = none
  queue : (s.mxe c).q = m :: q
  paged : mxMissing s c = []

/-- What a command changes: the use of its pages, then threads and one core; no thread but in its waits. -/
def Touched (s t : State) (c : Nat) : Prop := ∃ u, PagesOnly s u ∧ OneCore u t c ∧ ∀ k, KeepsThread s t k

theorem touched_of_stirred {s u t : State} {c : Nat} (hp : PagesOnly s u) (hs : Stirred u t) (ho : OneCore u t c) : Touched s t c :=
  ⟨u, hp, ho, fun k => keepsThread_pages hp (stirred_keeps hs k)⟩

theorem touched_of_engaged {s u t : State} {c : Nat} (hp : PagesOnly s u) (h : Engaged u t c) : Touched s t c :=
  touched_of_stirred hp h.st h.one

section Head
variable {s : State} {c : Nat} {m : MCmd} {q : List MCmd}

/-- The head command runs as its OP says, after its pages have been noted as used. -/
theorem head_runs (h : HeadRuns s c m q) : ∃ u, PagesOnly s u ∧ u.mxe c = s.mxe c ∧
    (opField m.word = 0xA0 → matrixCommandComplete c s = runMldb c m (unpackFields m.word) u) ∧
    (opField m.word = 0xA1 → matrixCommandComplete c s = runMma c m (unpackFields m.word) u) ∧
    (opField m.word = 0xA2 → matrixCommandComplete c s = runAccz c (unpackFields m.word) u) ∧
    (opField m.word = 0xA5 → matrixCommandComplete c s = runAccst c m (unpackFields m.word) u) := by
  obtain ⟨u, hpages, hmxe, hrun⟩ := matrix_runs h.thawed h.unhalted h.queue h.paged
  refine ⟨u, hpages, hmxe, fun hop => ?_, fun hop => ?_, fun hop => ?_, fun hop => ?_⟩ <;> rw [hop] at hrun <;> exact hrun

/-- The head command halts the engine with a cause. -/
theorem head_halts {u : State} {cause : Byte} {addr : Nat} (hpages : PagesOnly s u) (hmxe : u.mxe c = s.mxe c)
    (hrun : matrixCommandComplete c s = mxHalt c cause addr m u) :
    ∃ t, exec (.matrixCommandComplete c) s = .next t ∧ Touched s t c ∧ t.mxe c = { s.mxe c with halt := some cause } := by
  obtain ⟨hstirred, hone, hhalt⟩ := mxHalt_spec c cause addr m u
  exact ⟨_, congrArg Host.Outcome.next hrun, touched_of_stirred hpages hstirred hone, by rw [hhalt, hmxe]⟩

/-! ### ACCZ (R161) -/

/-- The value that ACCZ fills with: 0, 32,767 or the pattern of minus infinity. -/
def acczValue (f : Fields) : Nat := match imNat f 20 3 with | 0 => 0 | 1 => 32767 | _ => 0xFF8000000

theorem acczValue_lt (f : Fields) : acczValue f < 2 ^ 36 := by
  unfold acczValue
  split <;> decide

theorem accz_completes (h : HeadRuns s c m q) (hop : opField m.word = 0xA2) :
    ∃ t, exec (.matrixCommandComplete c) s = .next t ∧ Touched s t c ∧ (t.mxe c).q = q ∧
      ∀ r col, col < 512 → (t.mxe c).entry r col =
        if imNat (unpackFields m.word) 0 6 ≤ r ∧ r < imNat (unpackFields m.word) 0 6 + (imNat (unpackFields m.word) 6 6 + 1) ∧
          (imNat (unpackFields m.word) 12 8).testBit (col / 64) = true
        then acczValue (unpackFields m.word) else (s.mxe c).entry r col := by
  obtain ⟨u, hpages, hmxe, -, -, hrun, -⟩ := head_runs h
  replace hrun := hrun hop
  have hengaged : Engaged u (runAccz c (unpackFields m.word) u) c := engaged_mxDone (engaged_modMxe (.rfl' u c) _)
  refine ⟨_, congrArg Host.Outcome.next hrun, touched_of_engaged hpages hengaged, ?_, fun r col hcol => ?_⟩
  · rw [runAccz, mxe_mxDone, mxe_modMxe, fold_setEntry_rest, hmxe, h.queue]
    rfl
  · rw [runAccz, mxe_mxDone, mxe_modMxe, hmxe, ← Nat.mod_eq_of_lt (acczValue_lt (unpackFields m.word))]
    exact accz_entry (s.mxe c) _ _ _ (acczValue (unpackFields m.word)) r col hcol

/-! ### MMA (R148, R160) -/

/-- The active banks of the column blocks of an MMA hold slabs of its format. -/
def banksOf (fmt : Nat) (f : Fields) (x : Mxe) : Bool :=
  (blocksOf (imNat f 14 8)).all fun k => match x.active k with | some b => b.fmt.toNat == fmt | none => false

theorem banksOf_iff {fmt : Nat} {f : Fields} {x : Mxe} : banksOf fmt f x = true ↔
    ∀ k ∈ blocksOf (imNat f 14 8), ∃ b, x.active k = some b ∧ b.fmt.toNat = fmt := by
  rw [banksOf, List.all_eq_true]
  refine forall₂_congr fun k _ => ?_
  cases x.active k <;> simp

theorem runMma_of_foreign_bank {f : Fields} {u : State} (hbanks : banksOf (f.mod.extractLsb' 2 4).toNat f (u.mxe c) = false) :
    runMma c m f u = mxHalt c 0x49 0 m u := by
  have hforeign : (!banksOf (f.mod.extractLsb' 2 4).toNat f (u.mxe c)) = true := by rw [hbanks, Bool.not_false]
  exact if_pos hforeign

/-- The engine after an accumulate of a fragment, which the collector keeps or loses. -/
def mmaDone (f : Fields) (fr : Frag) (x : Mxe) : Mxe :=
  { (x.mma f.fn.toNat (f.mod.extractLsb' 2 4).toNat (8 * imNat f 22 3) (imNat f 14 8) fr) with
    coll := if f.mod.getLsbD 1 then some fr else none }

theorem mmaFrag_collector {f : Fields} {u : State} {fmt : Nat} {fr : Frag} (hsrc : imNat f 26 2 = 2)
    (hcoll : (u.mxe c).coll = some fr) (hfmt : fr.fmt.toNat = fmt) : mmaFrag u c m f fmt = .got fr := by
  simp only [mmaFrag, hsrc, hcoll, hfmt, beq_self_eq_true, if_true]

theorem runMma_of_got {f : Fields} {u : State} {fr : Frag} (hbanks : banksOf (f.mod.extractLsb' 2 4).toNat f (u.mxe c) = true)
    (hfrag : mmaFrag u c m f (f.mod.extractLsb' 2 4).toNat = .got fr) (hkeep : f.imm.getLsbD 25 = false) :
    runMma c m f u = mxDone c (u.modMxe c (mmaDone f fr)) := by
  have hown : ¬ (!banksOf (f.mod.extractLsb' 2 4).toNat f (u.mxe c)) = true := by rw [hbanks, Bool.not_true]; exact Bool.false_ne_true
  refine (if_neg hown).trans ?_
  simp only [hfrag, hkeep, Bool.false_eq_true, if_false]
  rfl

theorem mma_completes {f : Fields} {fr : Frag} (h : HeadRuns s c m q) (hop : opField m.word = 0xA1) (hf : f = unpackFields m.word)
    (hbanks : banksOf (f.mod.extractLsb' 2 4).toNat f (s.mxe c) = true) (hsrc : imNat f 26 2 = 2)
    (hcoll : (s.mxe c).coll = some fr) (hfmt : fr.fmt.toNat = (f.mod.extractLsb' 2 4).toNat) (hkeep : f.imm.getLsbD 25 = false) :
    ∃ t, exec (.matrixCommandComplete c) s = .next t ∧ Touched s t c ∧
      t.mxe c = { mmaDone f fr (s.mxe c) with q := q } := by
  subst hf
  obtain ⟨u, hpages, hmxe, -, hrun, -, -⟩ := head_runs h
  replace hrun := hrun hop
  rw [runMma_of_got (by rwa [hmxe]) (mmaFrag_collector hsrc (by rwa [hmxe]) hfmt) hkeep] at hrun
  refine ⟨_, congrArg Host.Outcome.next hrun, touched_of_engaged hpages (engaged_mxDone (engaged_modMxe (.rfl' u c) _)), ?_⟩
  have hqueue : (mmaDone (unpackFields m.word) fr (s.mxe c)).q = m :: q := (mma_rest _ _ _ _ _ _).trans h.queue
  rw [mxe_mxDone, mxe_modMxe, hmxe, hqueue, List.drop_one, List.tail_cons]

theorem mma_halts {f : Fields} (h : HeadRuns s c m q) (hop : opField m.word = 0xA1) (hf : f = unpackFields m.word)
    (hforeign : ∃ k ∈ blocksOf (imNat f 14 8), ∀ b, (s.mxe c).active k = some b → b.fmt.toNat ≠ (f.mod.extractLsb' 2 4).toNat) :
    ∃ t, exec (.matrixCommandComplete c) s = .next t ∧ Touched s t c ∧ t.mxe c = { s.mxe c with halt := some 0x49 } := by
  subst hf
  obtain ⟨u, hpages, hmxe, -, hrun, -, -⟩ := head_runs h
  replace hrun := hrun hop
  have hbanks : banksOf ((unpackFields m.word).mod.extractLsb' 2 4).toNat (unpackFields m.word) (u.mxe c) = false := by
    rw [hmxe, Bool.eq_false_iff]
    intro hall
    obtain ⟨k, hk, hother⟩ := hforeign
    obtain ⟨b, hactive, hfmt⟩ := banksOf_iff.1 hall k hk
    exact hother b hactive hfmt
  rw [runMma_of_foreign_bank hbanks] at hrun
  exact head_halts hpages hmxe hrun

/-! ### MLDB (R159) -/

theorem mldb_completes {f : Fields} (h : HeadRuns s c m q) (hop : opField m.word = 0xA0) (hf : f = unpackFields m.word)
    (haddr : mxAddr s c (cmdAddr m (imNat f 0 14)) (slabBytes (f.mod.extractLsb' 2 4).toNat) = none) :
    ∃ t, exec (.matrixCommandComplete c) s = .next t ∧ Touched s t c ∧ t.mxe c =
      { s.mxe c with
        q := q
        banks := Tab.put (s.mxe c).banks (4 * imNat f 25 3 + imNat f 23 2) (slabOf (f.mod.extractLsb' 2 4).toNat
          (scratchBytes s ((s.core c).owner.getD 0) (cmdAddr m (imNat f 0 14)) (slabBytes (f.mod.extractLsb' 2 4).toNat))) } := by
  subst hf
  obtain ⟨u, hpages, hmxe, hrun, -, -, -⟩ := head_runs h
  replace hrun := hrun hop
  rw [runMldb, withMxAddr_of_none ((mxAddr_pages hpages c _ _).trans haddr)] at hrun
  refine ⟨_, congrArg Host.Outcome.next hrun, touched_of_engaged hpages (engaged_mxDone (engaged_modMxe (.rfl' u c) _)), ?_⟩
  rw [mxe_mxDone, mxe_modMxe, hmxe, core_pages hpages, scratchBytes_pages hpages, h.queue, List.drop_one, List.tail_cons]

theorem mldb_halts {f : Fields} {cause : Byte} (h : HeadRuns s c m q) (hop : opField m.word = 0xA0) (hf : f = unpackFields m.word)
    (haddr : mxAddr s c (cmdAddr m (imNat f 0 14)) (slabBytes (f.mod.extractLsb' 2 4).toNat) = some cause) :
    ∃ t, exec (.matrixCommandComplete c) s = .next t ∧ Touched s t c ∧ t.mxe c = { s.mxe c with halt := some cause } := by
  subst hf
  obtain ⟨u, hpages, hmxe, hrun, -, -, -⟩ := head_runs h
  replace hrun := hrun hop
  rw [runMldb, withMxAddr_of_some ((mxAddr_pages hpages c _ _).trans haddr)] at hrun
  exact head_halts hpages hmxe hrun

/-! ### ACCST (R162) -/

/-- Bytes of a row written, and the command gone on to its next row or done. -/
theorem rowWritten_spec {u : State} (h : HeadRuns s c m q) (hpages : PagesOnly s u) (hmxe : u.mxe c = s.mxe c) (f : Fields)
    (team off : Nat) (bs : List Byte) :
    (∀ k, KeepsThread s (accRowDone c m f (scratchWrite team off bs u)) k) ∧
      (accRowDone c m f (scratchWrite team off bs u)).mem = s.mem ∧
      (accRowDone c m f (scratchWrite team off bs u)).mxe c =
        { s.mxe c with q := if m.row ≥ imNat f 14 6 then q else { m with row := m.row + 1 } :: q } ∧
      PadWritten s (accRowDone c m f (scratchWrite team off bs u)) team off bs := by
  obtain ⟨-, -, -, hmem, -⟩ := pagesOnly_threads hpages
  have hwrite : (scratchWrite team off bs u).mxe c = s.mxe c := (mxe_scratchWrite team off bs u c).trans hmxe
  have hrow := engaged_accRowDone (.rfl' (scratchWrite team off bs u) c) m f
  refine ⟨fun k => keepsThread_pages hpages ?_, ?_, ?_, fun k => ?_⟩
  · exact keepsThread_trans (keepsThread_of_eq (thread?_scratchWrite team off bs u k)) (engaged_keeps hrow k)
  · rw [engaged_mem hrow, mem_scratchWrite, hmem]
  · rw [mxe_accRowDone (q := q) m f (by rw [hwrite, h.queue, List.drop_one, List.tail_cons]), hwrite]
  · rw [State.team?, teams_accRowDone]
    exact padWritten_scratchWrite hpages team off bs k

theorem accst_completes {f : Fields} (h : HeadRuns s c m q) (hop : opField m.word = 0xA5) (hf : f = unpackFields m.word)
    (haddr : mxAddr s c (cmdAddr m (imNat f 0 8)) ((imNat f 14 6 + 1) * (accRow m f (accOutSize f.fn.toNat)).2) = none) :
    ∃ t, exec (.matrixCommandComplete c) s = .next t ∧ (∀ k, KeepsThread s t k) ∧ t.mem = s.mem ∧
      t.mxe c = { s.mxe c with q := if m.row ≥ imNat f 14 6 then q else { m with row := m.row + 1 } :: q } ∧
      PadWritten s t ((s.core c).owner.getD 0) (accRow m f (accOutSize f.fn.toNat)).1
        (accBytes (s.mxe c) f.fn.toNat (imNat f 8 6 + m.row) 1 (imNat f 20 8)) := by
  subst hf
  obtain ⟨u, hpages, hmxe, -, -, -, hrun⟩ := head_runs h
  replace hrun := hrun hop
  rw [runAccst, withMxAddr_of_none ((mxAddr_pages hpages c _ _).trans haddr), hmxe, core_pages hpages] at hrun
  exact ⟨_, congrArg Host.Outcome.next hrun, rowWritten_spec h hpages hmxe (unpackFields m.word) _ _ _⟩

end Head

/-! ### MXE_CTL and faults (R155, R156) -/

theorem mxHalted_of_halted {k : State → State} {s : State} {c : Nat} {h : Byte} (hh : (s.mxe c).halt = some h) :
    mxHalted c k s = wakeEngine c (k s) := by
  rw [mxHalted, hh]
  rfl

theorem mxHalted_of_none {k : State → State} {s : State} {c : Nat} (hh : (s.mxe c).halt = none) : mxHalted c k s = s := by
  rw [mxHalted, hh]
  rfl

/-- A frozen or halted engine, one without a command, and one whose pages are not in their frames complete nothing. -/
theorem matrixCommandComplete_idle {s : State} {c : Nat}
    (h : s.guidon.frozen = true ∨ (s.mxe c).halt ≠ none ∨ (s.mxe c).q = [] ∨ mxMissing s c ≠ []) :
    matrixCommandComplete c s = s := by
  by_cases hq : (s.mxe c).q = []
  · unfold matrixCommandComplete
    simp only [hq, List.head?_nil, Option.bind_none]
    split <;> rfl
  · have hidle : (s.guidon.frozen || (s.mxe c).halt.isSome || !(mxMissing s c).isEmpty) = true := by
      simpa [hq, Option.isSome_iff_ne_none, or_assoc] using h
    exact if_pos hidle

theorem engineFault_matrix {s : State} {c : Nat} {m : MCmd} {q : List MCmd} (hh : (s.mxe c).halt = none)
    (hq : (s.mxe c).q = m :: q) (cause : Byte) (addr : DWord) :
    engineFault c .matrix cause addr s = mxHalt c cause addr.toNat m s := by
  simp only [engineFault, engineHalted, hh, hq, Option.isSome_none, Bool.false_eq_true, if_false]

/-- A change of a halted engine by a control bit. -/
theorem mxHalted_spec {k : State → State} {s : State} {c : Nat} {h : Byte} (hh : (s.mxe c).halt = some h)
    (hk : Engaged s (k s) c) : OneCore s (mxHalted c k s) c ∧ (∀ j, KeepsThread s (mxHalted c k s) j) ∧
      (mxHalted c k s).mxe c = (k s).mxe c := by
  rw [mxHalted_of_halted hh, mxe_wake]
  have hwake := engaged_wake hk c
  exact ⟨hwake.one, engaged_keeps hwake, rfl⟩

theorem mxeCtlResume_halted {s : State} {c : Nat} {h : Byte} (hh : (s.mxe c).halt = some h) :
    ∃ t, exec (.mxeCtlResume c) s = .next t ∧ (OneCore s t c ∧ ∀ k, KeepsThread s t k) ∧
      t.mxe c = { s.mxe c with halt := none } := by
  obtain ⟨hone, hkeeps, hmxe⟩ := mxHalted_spec (k := fun s => s.modMxe c fun x => { x with halt := none }) hh
    (engaged_modMxe (.rfl' s c) _)
  exact ⟨_, rfl, ⟨hone, hkeeps⟩, hmxe.trans (mxe_modMxe s c _)⟩

theorem mxeCtlAbort_halted {s : State} {c : Nat} {h : Byte} (hh : (s.mxe c).halt = some h) :
    ∃ t, exec (.mxeCtlAbort c) s = .next t ∧ (OneCore s t c ∧ ∀ k, KeepsThread s t k) ∧
      t.mxe c = { s.mxe c with halt := none, q := [], prog := none, iw := Vector.replicate 8 0, held := none } := by
  obtain ⟨hend, hmxeEnd, -⟩ := mxEnd_spec (engaged_modMxe (.rfl' s c) fun x => { x with q := [], halt := none })
  obtain ⟨hone, hkeeps, hmxe⟩ := mxHalted_spec (k := fun s => mxEnd c (s.modMxe c fun x => { x with q := [], halt := none })) hh hend
  refine ⟨_, rfl, ⟨hone, hkeeps⟩, hmxe.trans (hmxeEnd.trans ?_)⟩
  rw [mxe_modMxe]

/-- The engine without its halt and its head command. -/
def withoutHead (c : Nat) (s : State) : State :=
  (s.modMxe c fun x => { x with halt := none }).modMxe c fun x => { x with q := x.q.drop 1 }

theorem mxeCtlSkip_of_command {s : State} {c : Nat} {h : Byte} {m : MCmd} {q : List MCmd} (hh : (s.mxe c).halt = some h)
    (hq : (s.mxe c).q = m :: q) :
    mxeCtlSkip c s = mxHalted c (withoutHead c) s := by
  rw [mxeCtlSkip, mxHalted_of_halted hh, mxHalted_of_halted hh]
  simp only [hq, List.isEmpty_cons, Bool.false_eq_true, if_false, withoutHead]

theorem mxeCtlSkip_halted {s : State} {c : Nat} {h : Byte} {m : MCmd} {q : List MCmd} (hh : (s.mxe c).halt = some h)
    (hq : (s.mxe c).q = m :: q) :
    ∃ t, exec (.mxeCtlSkip c) s = .next t ∧ (OneCore s t c ∧ ∀ k, KeepsThread s t k) ∧
      t.mxe c = { s.mxe c with halt := none, q := q } := by
  obtain ⟨hone, hkeeps, hmxe⟩ := mxHalted_spec (k := withoutHead c) hh (engaged_modMxe (engaged_modMxe (.rfl' s c) _) _)
  refine ⟨_, congrArg Host.Outcome.next (mxeCtlSkip_of_command hh hq), ⟨hone, hkeeps⟩, hmxe.trans ?_⟩
  rw [withoutHead, mxe_modMxe, mxe_modMxe, hq, List.drop_one, List.tail_cons]

/-- Settles O35: the head command is the one of its OP, each of which completes or halts as its lemma says; the control bits
are changes of the engine, which act under `mxHalted` but for CLRST. -/
theorem matrixEngine : Obligations.MatrixEngine := by
  unfold Obligations.MatrixEngine
  intro touched rest
  refine ⟨fun s c m q hthawed hrunning hq hpaged => ?_,
    fun s c => ⟨fun h => ?_, ?_, fun h hh => ⟨?_, fun m q hq => ?_, ?_⟩, fun hh => ?_⟩⟩
  · have hhead : HeadRuns s c m q := ⟨hthawed, hrunning, hq, hpaged⟩
    refine ⟨fun hop => accz_completes hhead hop, fun hop hbanks fr hfr hkeep => ?_, fun hop hforeign => ?_,
      fun hop => ⟨fun halign hend => ?_, fun halign => ?_, fun halign hend => ?_⟩, fun hop halign hend => ?_, fun cause addr => ?_⟩
    · obtain ⟨hsrc, hcoll, hfmt⟩ := hfr
      obtain ⟨t, ht, htouched, hmxe⟩ := mma_completes hhead hop rfl (banksOf_iff.2 hbanks) hsrc hcoll hfmt hkeep
      refine ⟨t, ht, htouched, by rw [hmxe], by rw [hmxe]; rfl, fun r col hcol => ?_⟩
      rw [hmxe]
      exact (mma_entry _ _ _ _ _ _).2 r col hcol
    · exact mma_halts hhead hop rfl hforeign
    · exact mldb_completes hhead hop rfl (mxAddr_inside halign hend)
    · exact mldb_halts hhead hop rfl (mxAddr_misaligned halign)
    · exact mldb_halts hhead hop rfl (mxAddr_outlying halign hend)
    · exact accst_completes hhead hop rfl (mxAddr_inside halign hend)
    · obtain ⟨hstirred, hone, hhalt⟩ := mxHalt_spec c cause addr.toNat m s
      exact ⟨_, congrArg Host.Outcome.next (engineFault_matrix hrunning hq cause addr), ⟨hone, stirred_keeps hstirred⟩, hhalt⟩
  · exact congrArg Host.Outcome.next (matrixCommandComplete_idle h)
  · have hclear := engaged_modMxe (.rfl' s c) fun x => { x with sat := false, nan := false, ovf := false }
    exact ⟨_, rfl, ⟨hclear.one, engaged_keeps hclear⟩, mxe_modMxe s c _⟩
  · exact mxeCtlResume_halted hh
  · exact mxeCtlSkip_halted hh hq
  · exact mxeCtlAbort_halted hh
  · exact ⟨congrArg Host.Outcome.next (mxHalted_of_none hh), congrArg Host.Outcome.next (mxHalted_of_none hh),
      congrArg Host.Outcome.next (mxHalted_of_none hh)⟩

end Sys2Proof.Proofs
end

section
/-!
PROOFS. Canonical memories (spec 09 R169, R171): the state's own operations, and those that traps and lanes share, keep the home
memory and every scratchpad in canonical form. Only bytes written and new teams touch either.
-/
namespace Sys2Proof.Proofs
open Machine Laws

/-- A memory is in canonical form. -/
def Canonical (m : Mem) : Prop := Mem.wf 0 m = true
/-- Every team of a table has its scratchpad in canonical form. -/
def PadsOk (t : Tab Team) : Prop := ∀ e ∈ t, Canonical e.2.scratch

section
variable {s : State}

/-! ### The state -/

@[simp] theorem memOk_mk {m : Mem} {w : Work} {cores clusters pairs ctxs queues seqs walks home worlds fabric banks power guidon boot boxes log
    logged clock dtime tickRem cur agenda free} {bus : BitVec 512} :
    State.memOk ⟨m, w, cores, clusters, pairs, ctxs, queues, seqs, walks, home, worlds, fabric, banks, power, guidon, boot, boxes, log, logged,
      clock, dtime, tickRem, cur, agenda, free, bus⟩ ↔ Canonical m ∧ PadsOk w.teams := Iff.rfl
@[simp] theorem mem_canonical (h : s.memOk) : Canonical s.mem := h.1
@[simp] theorem teams_padsOk (h : s.memOk) : PadsOk s.work.teams := h.2
@[simp] theorem padsOk_nil : PadsOk [] := by simp [PadsOk]
@[simp] theorem padsOk_put {t : Tab Team} {k x} (h : PadsOk t) (hx : Canonical x.scratch) : PadsOk (Tab.put t k x) := fun e he => by
  rcases tab_mem_put he with rfl | he
  · exact hx
  · exact h e he
@[simp] theorem padsOk_filter {t : Tab Team} {p} (h : PadsOk t) : PadsOk (t.filter p) := fun e he => h e (List.mem_filter.1 he).1
@[simp] theorem padsOk_del {t : Tab Team} {k} (h : PadsOk t) : PadsOk (Tab.del t k) := padsOk_filter h
@[simp] theorem padsOk_map {t : Tab Team} {g : Nat × Team → Nat × Team} (h : PadsOk t) (hg : ∀ e, (g e).2.scratch = e.2.scratch) :
    PadsOk (t.map g) := fun e he => by
  obtain ⟨a, ha, rfl⟩ := List.mem_map.1 he
  rw [hg]; exact h a ha
@[simp] theorem put_canonical {m : Mem} {a bs} (h : Canonical m) : Canonical (Mem.put 0 m a bs) := mem_put_wf 0 bs m a h
theorem team?_canonical {k : Nat} {x : Team} (h : s.memOk) (hx : s.team? k = some x) : Canonical x.scratch := h.2 (k, x) (tab_mem_of_find hx)
@[simp] theorem team_canonical {k : Nat} (h : s.memOk) : Mem.wf 0 (s.team k).scratch = true := by
  unfold State.team Tab.get
  cases hx : Tab.find s.work.teams k with
  | none => rfl
  | some x => exact team?_canonical h hx

theorem memOk_of_eq {t : State} (h : s.memOk) (hm : t.mem = s.mem) (ht : t.work.teams = s.work.teams) : t.memOk := by
  unfold State.memOk; rw [hm, ht]; exact h
@[simp] theorem ite_memOk {c : Prop} [Decidable c] {a b : State} : (if c then a else b).memOk ↔ (c → a.memOk) ∧ (¬ c → b.memOk) := by
  split <;> simp [*]
@[simp] theorem foldl_memOk {α : Type} {l : List α} {f : State → α → State} (h : s.memOk) (hf : ∀ s x, s.memOk → (f s x).memOk) :
    (l.foldl f s).memOk := by
  induction l generalizing s with
  | nil => exact h
  | cons x l ih => exact ih (hf s x h)

theorem getD_memOk {o : Option State} (h : s.memOk) (ho : ∀ t, o = some t → t.memOk) : (o.getD s).memOk := by
  cases o with
  | none => exact h
  | some t => exact ho t rfl

@[simp] theorem setCore_memOk {c x} (h : s.memOk) : (s.setCore c x).memOk := h
@[simp] theorem modCore_memOk {c g} (h : s.memOk) : (s.modCore c g).memOk := h
@[simp] theorem modCluster_memOk {c g} (h : s.memOk) : (s.modCluster c g).memOk := h
@[simp] theorem setPair_memOk {c x} (h : s.memOk) : (s.setPair c x).memOk := h
@[simp] theorem setCtx_memOk {c x} (h : s.memOk) : (s.setCtx c x).memOk := h
@[simp] theorem modCtx_memOk {c g} (h : s.memOk) : (s.modCtx c g).memOk := h
@[simp] theorem modQueue_memOk {c g} (h : s.memOk) : (s.modQueue c g).memOk := h
@[simp] theorem modHome_memOk {g} (h : s.memOk) : (s.modHome g).memOk := h
@[simp] theorem modFabric_memOk {g} (h : s.memOk) : (s.modFabric g).memOk := h
@[simp] theorem setThread_memOk {c x} (h : s.memOk) : (s.setThread c x).memOk := h
@[simp] theorem setWave_memOk {c x} (h : s.memOk) : (s.setWave c x).memOk := h
@[simp] theorem delWave_memOk {c} (h : s.memOk) : (s.delWave c).memOk := h
@[simp] theorem setGrid_memOk {c x} (h : s.memOk) : (s.setGrid c x).memOk := h
@[simp] theorem logDev_memOk {a b c d e} (h : s.memOk) : (s.logDev a b c d e).memOk := h
@[simp] theorem fresh_memOk (h : s.memOk) : s.fresh.2.memOk := h
@[simp] theorem setTeam_memOk {k x} (h : s.memOk) (hx : Canonical x.scratch) : (s.setTeam k x).memOk := ⟨h.1, padsOk_put h.2 hx⟩
theorem modWork_padsOk {g} (h : s.memOk) (hg : PadsOk (g s.work).teams) : (s.modWork g).memOk := ⟨h.1, hg⟩
@[simp] theorem modWork_memOk {g} (h : s.memOk) (hg : (g s.work).teams = s.work.teams) : (s.modWork g).memOk := memOk_of_eq h rfl hg
@[simp] theorem modThread_memOk {c g} (h : s.memOk) : (s.modThread c g).memOk := by unfold State.modThread; split <;> simp [h]
@[simp] theorem modThreads_memOk {c g} (h : s.memOk) : (s.modThreads c g).memOk := by unfold State.modThreads; simp +contextual [h]
@[simp] theorem modWave_memOk {c g} (h : s.memOk) : (s.modWave c g).memOk := by unfold State.modWave; split <;> simp [h]
@[simp] theorem modGrid_memOk {c g} (h : s.memOk) : (s.modGrid c g).memOk := by unfold State.modGrid; split <;> simp [h]
theorem modTeam_canonical {k g} (h : s.memOk) (hg : ∀ x, Canonical x.scratch → Canonical (g x).scratch) : (s.modTeam k g).memOk := by
  unfold State.modTeam
  split
  · next hx => exact setTeam_memOk h (hg _ (team?_canonical h hx))
  · exact h
@[simp] theorem modTeam_memOk {k g} (h : s.memOk) (hg : ∀ x, (g x).scratch = x.scratch) : (s.modTeam k g).memOk :=
  modTeam_canonical h fun x hx => by rwa [hg]

/-! ### The operations of Access.lean -/

@[simp] theorem advance_memOk (h : s.memOk) : (advance s).memOk := by simp [advance, h]

/-! ### The operations of Ops.lean -/

@[simp] theorem countTraps_memOk {c n} (h : s.memOk) : (State.countTraps s c n).memOk := by simp [State.countTraps, h]

@[simp] theorem takePriv_memOk {ids a v} (h : s.memOk) : (takePriv s ids a v).memOk := by
  grind [takePriv, modThreads_memOk, modCore_memOk, countTraps_memOk, foldl_memOk]

@[simp] theorem enterUser_memOk {f l a v} (h : s.memOk) : (enterUser s f l a v).memOk := by simp [enterUser, h]

@[simp] theorem takePrivs_memOk {a ts} (h : s.memOk) : (takePrivs s a ts).memOk := by
  grind [takePrivs, takePriv_memOk, foldl_memOk]

@[simp] theorem takeUsers_memOk {f a ts} (h : s.memOk) : (takeUsers s f a ts).memOk := by
  grind [takeUsers, takePrivs_memOk, enterUser_memOk, countTraps_memOk, foldl_memOk]

@[simp] theorem perLane_memOk {f out also} (h : s.memOk) : (perLane f out also s).memOk := by
  simp only [perLane]
  refine takeUsers_memOk (foldl_memOk (advance_memOk h) fun s x h => ?_)
  split <;> simp [h]

@[simp] theorem laneMap_memOk {f out} (h : s.memOk) : (laneMap f out s).memOk := by simp [laneMap, h]
@[simp] theorem parkLanes_memOk {ls p} (h : s.memOk) : (parkLanes ls p s).memOk := by simp +contextual [parkLanes, h]

/-! ### The operations of Int.lean -/

@[simp] theorem iadd_memOk {f} (h : s.memOk) : (Machine.iadd f s).memOk := by simp [Machine.iadd, h]
@[simp] theorem isub_memOk {f} (h : s.memOk) : (Machine.isub f s).memOk := by simp [Machine.isub, h]
@[simp] theorem iaddc_memOk {f} (h : s.memOk) : (Machine.iaddc f s).memOk := by simp [Machine.iaddc, h]
@[simp] theorem isubb_memOk {f} (h : s.memOk) : (Machine.isubb f s).memOk := by simp [Machine.isubb, h]
@[simp] theorem imul_memOk {f} (h : s.memOk) : (Machine.imul f s).memOk := by simp [Machine.imul, h]
@[simp] theorem imulh_memOk {f} (h : s.memOk) : (Machine.imulh f s).memOk := by simp [Machine.imulh, h]
@[simp] theorem imad_memOk {f} (h : s.memOk) : (Machine.imad f s).memOk := by simp [Machine.imad, h]
@[simp] theorem idot4_memOk {f} (h : s.memOk) : (Machine.idot4 f s).memOk := by simp [Machine.idot4, h]
@[simp] theorem imin_memOk {f} (h : s.memOk) : (Machine.imin f s).memOk := by simp [Machine.imin, h]
@[simp] theorem imax_memOk {f} (h : s.memOk) : (Machine.imax f s).memOk := by simp [Machine.imax, h]
@[simp] theorem iabs_memOk {f} (h : s.memOk) : (Machine.iabs f s).memOk := by simp [Machine.iabs, h]
@[simp] theorem ineg_memOk {f} (h : s.memOk) : (Machine.ineg f s).memOk := by simp [Machine.ineg, h]
@[simp] theorem logicOp_memOk {f g} (h : s.memOk) : (logicOp f g s).memOk := by simp [logicOp, h]
@[simp] theorem andB_memOk {f} (h : s.memOk) : (Machine.andB f s).memOk := by simp [Machine.andB, h]
@[simp] theorem orB_memOk {f} (h : s.memOk) : (Machine.orB f s).memOk := by simp [Machine.orB, h]
@[simp] theorem xorB_memOk {f} (h : s.memOk) : (Machine.xorB f s).memOk := by simp [Machine.xorB, h]
@[simp] theorem andnB_memOk {f} (h : s.memOk) : (Machine.andnB f s).memOk := by simp [Machine.andnB, h]
@[simp] theorem notB_memOk {f} (h : s.memOk) : (Machine.notB f s).memOk := by simp [Machine.notB, h]
@[simp] theorem shl_memOk {f} (h : s.memOk) : (Machine.shl f s).memOk := by simp [Machine.shl, h]
@[simp] theorem shr_memOk {f} (h : s.memOk) : (Machine.shr f s).memOk := by simp [Machine.shr, h]
@[simp] theorem sar_memOk {f} (h : s.memOk) : (Machine.sar f s).memOk := by simp [Machine.sar, h]
@[simp] theorem rotl_memOk {f} (h : s.memOk) : (Machine.rotl f s).memOk := by simp [Machine.rotl, h]
@[simp] theorem funsh_memOk {f} (h : s.memOk) : (Machine.funsh f s).memOk := by simp [Machine.funsh, h]
@[simp] theorem bfx_memOk {f} (h : s.memOk) : (Machine.bfx f s).memOk := by simp [Machine.bfx, h]
@[simp] theorem bfi_memOk {f} (h : s.memOk) : (Machine.bfi f s).memOk := by simp [Machine.bfi, h]
@[simp] theorem popc_memOk {f} (h : s.memOk) : (Machine.popc f s).memOk := by simp [Machine.popc, h]
@[simp] theorem clz_memOk {f} (h : s.memOk) : (Machine.clz f s).memOk := by simp [Machine.clz, h]
@[simp] theorem ctz_memOk {f} (h : s.memOk) : (Machine.ctz f s).memOk := by simp [Machine.ctz, h]
@[simp] theorem brev_memOk {f} (h : s.memOk) : (Machine.brev f s).memOk := by simp [Machine.brev, h]
@[simp] theorem permb_memOk {f} (h : s.memOk) : (Machine.permb f s).memOk := by simp [Machine.permb, h]
@[simp] theorem sel_memOk {f} (h : s.memOk) : (Machine.sel f s).memOk := by simp [Machine.sel, h]
@[simp] theorem isetp_memOk {f} (h : s.memOk) : (Machine.isetp f s).memOk := by simp [Machine.isetp, h]
@[simp] theorem plop_memOk {f} (h : s.memOk) : (Machine.plop f s).memOk := by simp [Machine.plop, h]
@[simp] theorem mov_memOk {f} (h : s.memOk) : (Machine.mov f s).memOk := by simp [Machine.mov, h]
@[simp] theorem movi_memOk {f} (h : s.memOk) : (Machine.movi f s).memOk := by simp [Machine.movi, h]

/-! ### The operations of Sync.lean -/

@[simp] theorem releaseWave_memOk {g} (h : s.memOk) : (releaseWave s g).memOk := by simp +contextual [releaseWave, h]

@[simp] theorem resolveWaveGroup_memOk {k} (h : s.memOk) : (resolveWaveGroup s k).memOk := by
  simp only [resolveWaveGroup]
  split <;> simp [h]

@[simp] theorem resolveWaves_memOk {team} (h : s.memOk) : (resolveWaves team s).memOk := by simp +contextual [resolveWaves, h]
@[simp] theorem arrive_memOk {f form arr} (h : s.memOk) : (arrive f form arr s).memOk := by simp +contextual [arrive, h]
@[simp] theorem waveSync_memOk {i f a b} (h : s.memOk) : (Machine.waveSync i f a b s).memOk := by simp [Machine.waveSync, h]
@[simp] theorem shfl_memOk {f} (h : s.memOk) : (Machine.shfl f s).memOk := by simp [Machine.shfl, h]
@[simp] theorem vote_memOk {f} (h : s.memOk) : (Machine.vote f s).memOk := by simp [Machine.vote, h]
@[simp] theorem redw_memOk {f} (h : s.memOk) : (Machine.redw f s).memOk := by simp [Machine.redw, h]
@[simp] theorem prfx_memOk {f} (h : s.memOk) : (Machine.prfx f s).memOk := by simp [Machine.prfx, h]
@[simp] theorem matchL_memOk {f} (h : s.memOk) : (Machine.matchL f s).memOk := by simp [Machine.matchL, h]
end

end Sys2Proof.Proofs
end

section
/-!
PROOFS. The memory system keeps memories canonical (spec 09, 10, 13): writes at the home and in a scratchpad, transactions of the
directory, and packets of the fabric.
-/
namespace Sys2Proof.Proofs
open Machine Laws

section
variable {s : State}

/-! ### The operations of Translate.lean -/

@[simp] theorem noteWalk_memOk {w ea} (h : s.memOk) : (noteWalk w ea s).memOk := by simp [noteWalk, h]

/-! ### The operations of Memory.lean -/

@[simp] theorem setChan_memOk {k x} (h : s.memOk) : (setChan k x s).memOk := by simp [setChan, h]
@[simp] theorem sendMsg_memOk {k m} (h : s.memOk) : (sendMsg k m s).memOk := by simp [sendMsg, h]
@[simp] theorem tellHome_memOk {c line kind} (h : s.memOk) : (tellHome c line kind s).memOk := by simp [tellHome, h]
@[simp] theorem tellCore_memOk {c line kind} (h : s.memOk) : (tellCore c line kind s).memOk := by simp [tellCore, h]
@[simp] theorem setL1_memOk {c line l} (h : s.memOk) : (setL1 c line l s).memOk := by simp [setL1, h]
@[simp] theorem delL1_memOk {c line} (h : s.memOk) : (delL1 c line s).memOk := by simp [delL1, h]
@[simp] theorem clearResv_memOk {line keep} (h : s.memOk) : (clearResv line keep s).memOk := by simp [clearResv, h]
@[simp] theorem writeResv_memOk {line writer} (h : s.memOk) : (writeResv line writer s).memOk := by simp [writeResv, h]
@[simp] theorem coreResv_memOk {c line} (h : s.memOk) : (coreResv c line s).memOk := by simp [coreResv, h]
@[simp] theorem setPoison_memOk {line} (h : s.memOk) : (setPoison line s).memOk := by simp [setPoison, h]

@[simp] theorem overwrite_memOk {pa n} (h : s.memOk) : (overwrite pa n s).memOk := by
  simp only [overwrite]
  split <;> simp [h]

@[simp] theorem touchVersion_memOk {pa} (h : s.memOk) : (touchVersion pa s).memOk := by simp [touchVersion, h]

@[simp] theorem homeWrite_memOk {w pa bs} (h : s.memOk) : (homeWrite w pa bs s).memOk :=
  touchVersion_memOk (overwrite_memOk (writeResv_memOk ⟨put_canonical h.1, h.2⟩))

@[simp] theorem setDir_memOk {line d} (h : s.memOk) : (setDir line d s).memOk := by simp [setDir, h]
@[simp] theorem modDir_memOk {line g} (h : s.memOk) : (modDir line g s).memOk := by simp [modDir, h]
@[simp] theorem loseCopy_memOk {c line} (h : s.memOk) : (loseCopy c line s).memOk := by simp [loseCopy, h]

@[simp] theorem mergePartials_memOk {op line parts} (h : s.memOk) : (mergePartials op line parts s).memOk := by
  grind [mergePartials, homeWrite_memOk, foldl_memOk]

@[simp] theorem mergeInto_memOk {op line parts} (h : s.memOk) : (mergeInto op line parts s).memOk := by simp [mergeInto, h]

@[simp] theorem mergeLine_memOk {line} (h : s.memOk) : (mergeLine line s).memOk := by
  grind [mergeLine, mergeInto_memOk, setDir_memOk, loseCopy_memOk, foldl_memOk]

@[simp] theorem dropCopies_memOk {line} (h : s.memOk) : (dropCopies line s).memOk := by simp [dropCopies, h]

@[simp] theorem invalidateOthers_memOk {c line} (h : s.memOk) : (invalidateOthers c line s).memOk := by
  simp only [invalidateOthers]
  (repeat' split) <;> simp +contextual [h]

@[simp] theorem recallLine_memOk {line} (h : s.memOk) : (recallLine line s).memOk := by
  grind [recallLine, mergeLine_memOk, modDir_memOk, invalidateOthers_memOk]

@[simp] theorem predict_memOk {c line} (h : s.memOk) : (predict c line s).memOk := by simp [predict, h]

@[simp] theorem demoteLast_memOk {c line} (h : s.memOk) : (demoteLast c line s).memOk := by
  simp only [demoteLast]
  (repeat' split) <;> simp +contextual [h]

@[simp] theorem l2Touch_memOk {line hint valid dirty} (h : s.memOk) : (l2Touch line hint valid dirty s).memOk := by simp [l2Touch, h]
@[simp] theorem l2Dirty_memOk {line sectors} (h : s.memOk) : (l2Dirty line sectors s).memOk := by simp [l2Dirty, h]

@[simp] theorem l2Drop_memOk {line} (h : s.memOk) : (l2Drop line s).memOk := by
  simp only [l2Drop]
  split <;> simp [h]

@[simp] theorem touchHint_memOk {c line hint} (h : s.memOk) : (touchHint c line hint s).memOk := by
  simp only [touchHint]
  split <;> simp [h]

@[simp] theorem swmBack_memOk {c line l} (h : s.memOk) : (swmBack c line l s).memOk := by
  grind [swmBack, homeWrite_memOk, l2Dirty_memOk, setL1_memOk, foldl_memOk]

@[simp] theorem keepBack_memOk {c line l} (h : s.memOk) : (evictLine.keepBack c line l s).memOk :=
  modCore_memOk (tellHome_memOk (loseCopy_memOk h))

theorem evictLine_memOk {c line t} (h : s.memOk) (e : evictLine c line s = some t) : t.memOk := by
  unfold evictLine at e
  repeat' split at e
  all_goals cases e
  · exact h
  · exact keepBack_memOk h
  · exact keepBack_memOk h
  · exact loseCopy_memOk (setDir_memOk (tellHome_memOk (mergeInto_memOk h)))
  · exact loseCopy_memOk (swmBack_memOk h)
  · exact loseCopy_memOk (modDir_memOk h)
  · exact loseCopy_memOk h

theorem makeRoom_memOk {c line swm} {t} (h : s.memOk) (e : makeRoom c line swm s = some t) : t.memOk := by
  grind [makeRoom, evictLine_memOk]

theorem placeLine_memOk {c line st hint v d t} (h : s.memOk) (e : placeLine c line st hint v d s = some t) : t.memOk := by
  obtain ⟨u, hu, rfl⟩ := Option.map_eq_some_iff.1 e
  have hu' := makeRoom_memOk h hu
  refine touchHint_memOk (setL1_memOk ?_)
  split
  · exact hu'
  · exact l2Touch_memOk (by split <;> simp [hu'])

@[simp] theorem fenceSwm_memOk {c} (h : s.memOk) : (fenceSwm c s).memOk := by
  grind [fenceSwm, delL1_memOk, swmBack_memOk, foldl_memOk]

@[simp] theorem dropSwm_memOk {c line} (h : s.memOk) : (dropSwm c line s).memOk := by
  simp only [dropSwm]
  split <;> simp [h]

@[simp] theorem touchPages_memOk {team off n} (h : s.memOk) : (touchPages team off n s).memOk := modTeam_memOk h fun _ => rfl
@[simp] theorem scratchWrite_memOk {team off bs} (h : s.memOk) : (scratchWrite team off bs s).memOk := modTeam_canonical h fun _ => put_canonical

/-! ### The operations of Directory.lean -/

@[simp] theorem grantRead_memOk {c line} (h : s.memOk) : (grantRead c line s).2.memOk := by
  grind [grantRead, mergeLine_memOk, setDir_memOk, setL1_memOk]

@[simp] theorem grantOwn_memOk {c line} (h : s.memOk) : (grantOwn c line s).memOk := by
  grind [grantOwn, invalidateOthers_memOk, mergeLine_memOk, modDir_memOk]

@[simp] theorem grantBunting_memOk {c line tag} (h : s.memOk) : (grantBunting c line tag s).memOk := by simp [grantBunting, h]

@[simp] theorem takeOwn_memOk {c line hint v d} (h : s.memOk) : (takeOwn c line hint v d s).memOk := by
  unfold takeOwn
  split
  · exact grantOwn_memOk h
  · next hu => exact getD_memOk (grantOwn_memOk (makeRoom_memOk h hu)) fun _ => placeLine_memOk (grantOwn_memOk (makeRoom_memOk h hu))

@[simp] theorem ownLine_memOk {c line hint valid dirty} (h : s.memOk) : (ownLine c line hint valid dirty s).memOk := by
  grind [ownLine, takeOwn_memOk, tellHome_memOk, predict_memOk]

@[simp] theorem settleBatch_memOk {b} (h : s.memOk) : (settleBatch b s).memOk := by
  simp only [settleBatch]
  (repeat' split) <;> simp +contextual [h]

@[simp] theorem wakeWhere_memOk {hit} (h : s.memOk) : (wakeWhere hit s).memOk := by simp +contextual [wakeWhere, h]
@[simp] theorem wakeOwn_memOk {hit} (h : s.memOk) : (wakeOwn hit s).memOk := by simp [wakeOwn, h]

@[simp] theorem giveLine_memOk {c line r} (h : s.memOk) : (giveLine c line r s).memOk := by
  have ht : (tellCore c line .data s).memOk := tellCore_memOk h
  cases r with
  | read => exact getD_memOk (grantRead_memOk ht) fun _ => placeLine_memOk (grantRead_memOk ht)
  | own => exact takeOwn_memOk ht
  | bunting tag =>
    have hg := grantBunting_memOk (c := c) (line := line) (tag := tag.toNat) ht
    unfold giveLine
    simp only
    split
    · exact getD_memOk hg fun _ => placeLine_memOk (loseCopy_memOk hg)
    · exact hg

@[simp] theorem askDir_memOk {c line r} (h : s.memOk) : (askDir c line r s).memOk := by
  grind [askDir, setDir_memOk, predict_memOk, giveLine_memOk, tellCore_memOk, foldl_memOk]

@[simp] theorem serveWaits_memOk {line n} (h : s.memOk) : (serveWaits line n s).memOk := by
  induction n generalizing s with
  | zero => exact h
  | succ n ih =>
    simp only [serveWaits]
    split
    · exact h
    · split
      · exact h
      · exact ih (askDir_memOk (setDir_memOk h))

@[simp] theorem endTransaction_memOk {line} (h : s.memOk) : (endTransaction line s).memOk := by
  grind [endTransaction, makeRoom_memOk, setDir_memOk, giveLine_memOk, wakeOwn_memOk, serveWaits_memOk]

@[simp] theorem requestDir_memOk {line core r} (h : s.memOk) : (requestDir line core r s).memOk := by simp [requestDir, h]
@[simp] theorem dirReadRequest_memOk {line core} (h : s.memOk) : (Machine.dirReadRequest line core s).memOk := by simp [Machine.dirReadRequest, h]

@[simp] theorem dirOwnershipRequest_memOk {line core} (h : s.memOk) : (Machine.dirOwnershipRequest line core s).memOk := by
  simp [Machine.dirOwnershipRequest, h]

@[simp] theorem dirBuntingRequest_memOk {line core tag} (h : s.memOk) : (Machine.dirBuntingRequest line core tag s).memOk := by
  simp [Machine.dirBuntingRequest, h]

@[simp] theorem invalidation_memOk {core line} (h : s.memOk) : (Machine.invalidation core line s).memOk := by
  grind [Machine.invalidation, tellHome_memOk, loseCopy_memOk, setDir_memOk]

@[simp] theorem invalidationAck_memOk {core line} (h : s.memOk) : (Machine.invalidationAck core line s).memOk := by
  simp [Machine.invalidationAck, h]

@[simp] theorem mergeRequest_memOk {line} (h : s.memOk) : (Machine.mergeRequest line s).memOk := by
  simp only [Machine.mergeRequest]
  (repeat' split) <;> simp +contextual [h]

@[simp] theorem merge_memOk {line} (h : s.memOk) : (Machine.merge line s).memOk := by simp [Machine.merge, h]
@[simp] theorem l1Eviction_memOk {c line} (h : s.memOk) : (Machine.l1Eviction c line s).memOk := getD_memOk h fun _ => evictLine_memOk h
@[simp] theorem retryGrants_memOk {core} (h : s.memOk) : (retryGrants core s).memOk := by simp +contextual [retryGrants, h]

@[simp] theorem backHome_memOk {core line} (h : s.memOk) : (backHome core line s).memOk := by
  grind [backHome, modCore_memOk, l2Dirty_memOk, setDir_memOk]

@[simp] theorem writebackAck_memOk {core line} (h : s.memOk) : (Machine.writebackAck core line s).memOk := by
  grind [Machine.writebackAck, retryGrants_memOk, wakeOwn_memOk, backHome_memOk]

@[simp] theorem settleWith_memOk {line n} (h : s.memOk) : (settleWith line n s).memOk := by
  induction n generalizing s with
  | zero => exact h
  | succ n ih =>
    simp only [settleWith]
    split
    · exact h
    · refine ih (endTransaction_memOk ?_)
      grind [mergeLine_memOk, loseCopy_memOk, foldl_memOk, modDir_memOk, backHome_memOk]

@[simp] theorem settleLine_memOk {line} (h : s.memOk) : (settleLine line s).memOk := by simp [settleLine, h]
@[simp] theorem settleAll_memOk {pas} (h : s.memOk) : (settleAll pas s).memOk := by simp +contextual [settleAll, h]

@[simp] theorem dirRecall_memOk {line} (h : s.memOk) : (Machine.dirRecall line s).memOk := by
  grind [Machine.dirRecall, l2Drop_memOk, recallLine_memOk, settleLine_memOk]

/-! ### The operations of Flow.lean -/

@[simp] theorem sendFlit_memOk {p f} (h : s.memOk) : (sendFlit p f s).memOk := by simp [sendFlit, h]

@[simp] theorem modFlow_memOk {k g} (h : s.memOk) : (modFlow k g s).memOk := by
  simp only [modFlow]
  split <;> simp [h]

@[simp] theorem sendPacket_memOk {port m p} (h : s.memOk) : (sendPacket port m p s).memOk := by
  simp only [sendPacket]
  (repeat' split) <;> simp +contextual [h]

@[simp] theorem sendOn_memOk {k p t} (h : s.memOk) : (sendOn k p t s).memOk := by simp [sendOn, h]

theorem request_memOk {x p th t} (h : s.memOk) (e : request x p th s = .ok t) : t.memOk := by
  unfold request at e
  repeat' split at e
  all_goals cases e
  exact sendOn_memOk h

@[simp] theorem setLease_memOk {line l} (h : s.memOk) : (setLease line l s).memOk := by simp [setLease, h]

@[simp] theorem expireLease_memOk {line} (h : s.memOk) : (expireLease line s).memOk := by
  simp only [expireLease]
  split <;> simp [h]

@[simp] theorem updateLease_memOk {pa bs} (h : s.memOk) : (updateLease pa bs s).memOk := by
  simp only [updateLease]
  split <;> simp [h]

@[simp] theorem staleAsks_memOk {line} (h : s.memOk) : (staleAsks line s).memOk := by simp [staleAsks, h]

theorem sendWrite_memOk {x pa bs th t} (h : s.memOk) (e : sendWrite x pa bs th s = .ok t) : t.memOk := by
  unfold sendWrite at e
  split at e
  · next hu =>
    cases e
    exact updateLease_memOk (staleAsks_memOk (request_memOk h hu))
  · next hu => exact (hu _ e).elim

@[simp] theorem remoteBytes_memOk {x mode pa n} (h : s.memOk) : (remoteBytes x mode pa n s).2.memOk := by
  simp only [remoteBytes]
  split <;> simp [h]

/-! ### The operations of Global.lean -/

@[simp] theorem farRead_memOk {pa n} (h : s.memOk) : (farRead pa n s).2.memOk := by simp [farRead, h]

@[simp] theorem farWrite_memOk {writer mode pa bs} (h : s.memOk) : (farWrite writer mode pa bs s).memOk := by
  grind [farWrite, modHome_memOk, recallLine_memOk, settleLine_memOk, homeWrite_memOk, l2Dirty_memOk]

@[simp] theorem vaRead_memOk {w need va n} (h : s.memOk) : (vaRead w need va n s).2.memOk := by
  unfold vaRead
  refine List.foldlRecOn (motive := fun acc : _ × State => acc.2.memOk) _ _ h fun acc hacc c _ => ?_
  grind [remoteBytes_memOk, farRead_memOk, dropSwm_memOk]

@[simp] theorem agentWrite_memOk {w x bs} (h : s.memOk) : (agentWrite w x bs s).memOk := by
  unfold agentWrite
  split
  · split
    · next hu => exact sendWrite_memOk h hu
    · exact h
  · refine farWrite_memOk ?_
    split
    · exact dropSwm_memOk h
    · exact h

theorem vaWrite_memOk {w need va bs} {t} (h : s.memOk) (e : vaWrite w need va bs s = .ok t) : t.memOk := by
  grind [vaWrite, agentWrite_memOk, foldl_memOk]

@[simp] theorem logCore_memOk {cause c x addr info} (h : s.memOk) : (logCore cause c x addr info s).memOk := by simp [logCore, h]

@[simp] theorem releaseSide_memOk {c scope} (h : s.memOk) : (releaseSide c scope s).memOk := by
  simp only [releaseSide]
  (repeat' split) <;> simp +contextual [h]

@[simp] theorem expireLeases_memOk {x} (h : s.memOk) : (expireLeases x s).memOk := by simp +contextual [expireLeases, h]
@[simp] theorem acquireSwm_memOk {c} (h : s.memOk) : (acquireSwm c s).memOk := by simp [acquireSwm, h]
@[simp] theorem acquireSide_memOk {c x scope} (h : s.memOk) : (acquireSide c x scope s).memOk := by simp [acquireSide, h]
@[simp] theorem fenceSides_memOk {c x scope} (h : s.memOk) : (fenceSides c x scope s).memOk := by simp [fenceSides, h]

@[simp] theorem noteSnoop_memOk {p} (h : s.memOk) : (noteSnoop p s).memOk := by
  simp only [noteSnoop]
  split <;> simp [h]

@[simp] theorem farPlace_memOk {c line hint sectors} (h : s.memOk) : (farPlace c line hint sectors s).memOk := by
  grind [farPlace, l2Touch_memOk, recallLine_memOk, predict_memOk]

@[simp] theorem storeOne_memOk {c t mode hint pa bs} (h : s.memOk) : (storeOne c t mode hint pa bs s).memOk := by
  have hplaced : ((placeLine c (lineOf pa) .swm hint 0 (sectorBit pa) s).getD s).memOk := getD_memOk h fun _ => placeLine_memOk h
  simp only [storeOne]
  split
  · refine homeWrite_memOk ?_
    split
    · exact farPlace_memOk h
    · exact ownLine_memOk h
  · split
    · exact homeWrite_memOk (l2Touch_memOk h)
    · split
      · exact writeResv_memOk (setL1_memOk hplaced)
      · exact homeWrite_memOk hplaced
  · exact homeWrite_memOk h

@[simp] theorem rmwPlace_memOk {c mode far hint pa} (h : s.memOk) : (rmwPlace c mode far hint pa s).memOk := by
  simp only [rmwPlace]
  split <;> simp [h]

@[simp] theorem rmwOne_memOk {c a1 mode hint pa n g} (h : s.memOk) : (rmwOne c a1 mode hint pa n g s).2.memOk := by
  simp only [rmwOne]
  split <;> simp [h]

@[simp] theorem redOne_memOk {c t mode op hint pa b} (h : s.memOk) : (redOne c t mode op hint pa b s).memOk := by
  grind [redOne, makeRoom_memOk, predict_memOk, tellHome_memOk, grantBunting_memOk, loseCopy_memOk, placeLine_memOk, setL1_memOk, writeResv_memOk,
    evictLine_memOk, rmwPlace_memOk, logDev_memOk, homeWrite_memOk, getD_memOk]

@[simp] theorem memTrapInfo_memOk {f bad info} (h : s.memOk) : (memTrapInfo f bad info s).memOk := by
  grind [memTrapInfo, modThreads_memOk, advance_memOk, takePriv_memOk, foldl_memOk]

@[simp] theorem memTrap_memOk {f bad} (h : s.memOk) : (memTrap f bad s).memOk := by simp [memTrap, h]

@[simp] theorem trapAll_memOk {f v} (h : s.memOk) : (trapAll f v s).memOk := by
  grind [trapAll, takePriv_memOk, modThreads_memOk, advance_memOk]

@[simp] theorem waitAll_memOk {f p} (h : s.memOk) : (waitAll f p s).memOk := by simp [waitAll, h]
@[simp] theorem waitPages_memOk {f ps} (h : s.memOk) : (waitPages f ps s).memOk := by simp [waitPages, h]
end

end Sys2Proof.Proofs
end

section
/-!
PROOFS. Lane instructions, the work of grids and teams, replay, engine groups and synchronization objects keep memories canonical
(spec 06, 15, 16, 12, 20).
-/
namespace Sys2Proof.Proofs
open Machine Laws

section
variable {s : State}

/-! ### The operations of Fp.lean -/

@[simp] theorem fadd_memOk {f} (h : s.memOk) : (Machine.fadd f s).memOk := by simp [Machine.fadd, h]
@[simp] theorem fsub_memOk {f} (h : s.memOk) : (Machine.fsub f s).memOk := by simp [Machine.fsub, h]
@[simp] theorem fmul_memOk {f} (h : s.memOk) : (Machine.fmul f s).memOk := by simp [Machine.fmul, h]
@[simp] theorem ffma_memOk {f} (h : s.memOk) : (Machine.ffma f s).memOk := by simp [Machine.ffma, h]
@[simp] theorem fmin_memOk {f} (h : s.memOk) : (Machine.fmin f s).memOk := by simp [Machine.fmin, h]
@[simp] theorem fmax_memOk {f} (h : s.memOk) : (Machine.fmax f s).memOk := by simp [Machine.fmax, h]
@[simp] theorem fsetp_memOk {f} (h : s.memOk) : (Machine.fsetp f s).memOk := by simp [Machine.fsetp, h]
@[simp] theorem fclass_memOk {f} (h : s.memOk) : (Machine.fclass f s).memOk := by simp [Machine.fclass, h]
@[simp] theorem frint_memOk {f} (h : s.memOk) : (Machine.frint f s).memOk := by simp [Machine.frint, h]
@[simp] theorem fscale_memOk {f} (h : s.memOk) : (Machine.fscale f s).memOk := by simp [Machine.fscale, h]
@[simp] theorem hadd2_memOk {f} (h : s.memOk) : (Machine.hadd2 f s).memOk := by simp [Machine.hadd2, h]
@[simp] theorem hfma2_memOk {f} (h : s.memOk) : (Machine.hfma2 f s).memOk := by simp [Machine.hfma2, h]
@[simp] theorem cvt_memOk {f} (h : s.memOk) : (Machine.cvt f s).memOk := by simp [Machine.cvt, h]

/-! ### The operations of Sfn.lean -/

@[simp] theorem sfn_memOk {f} (h : s.memOk) : (Machine.sfn f s).memOk := by simp [Machine.sfn, h]

/-! ### The operations of LaneOps.lean -/

@[simp] theorem hlane_memOk {f} (h : s.memOk) : (Machine.hlane f s).memOk := by simp [Machine.hlane, h]
@[simp] theorem exmrd_memOk {f} (h : s.memOk) : (Machine.exmrd f s).memOk := by simp [Machine.exmrd, h]
@[simp] theorem dissolve_memOk {w} (h : s.memOk) : (dissolve w s).memOk := by simp [dissolve, h]

@[simp] theorem writeExm_memOk {f g} (h : s.memOk) : (writeExm f g s).memOk := by
  grind [writeExm, advance_memOk, modThreads_memOk, dissolve_memOk, modWave_memOk]

@[simp] theorem exmwr_memOk {f} (h : s.memOk) : (Machine.exmwr f s).memOk := by simp [Machine.exmwr, h]
@[simp] theorem exmand_memOk {f} (h : s.memOk) : (Machine.exmand f s).memOk := by simp [Machine.exmand, h]
@[simp] theorem exmor_memOk {f} (h : s.memOk) : (Machine.exmor f s).memOk := by simp [Machine.exmor, h]
@[simp] theorem tidx_memOk {f} (h : s.memOk) : (Machine.tidx f s).memOk := by simp [Machine.tidx, h]

@[simp] theorem shpset_memOk {f} (h : s.memOk) : (Machine.shpset f s).memOk := by
  simp only [Machine.shpset]
  split <;> simp [h]

@[simp] theorem isect_memOk {f} (h : s.memOk) : (Machine.isect f s).memOk := by simp [Machine.isect, h]
@[simp] theorem deskew_memOk {f} (h : s.memOk) : (Machine.deskew f s).memOk := by simp [Machine.deskew, h]
@[simp] theorem pillar_memOk {f} (h : s.memOk) : (Machine.pillar f s).memOk := by simp [Machine.pillar, h]

/-! ### The operations of Work.lean -/

@[simp] theorem devPut_memOk {x va bs} (h : s.memOk) : (devPut x va bs s).memOk := by
  grind [devPut, vaWrite_memOk, logDev_memOk]

@[simp] theorem devGet_memOk {x va n} (h : s.memOk) : (devGet x va n s).2.memOk := by simp [devGet, h]
@[simp] theorem releaseAll_memOk (h : s.memOk) : (releaseAll s).memOk := by simp +contextual [releaseAll, h]

@[simp] theorem writeFuture_memOk {x fut status value} (h : s.memOk) : (writeFuture x fut status value s).memOk := by
  grind [writeFuture, devPut_memOk, releaseAll_memOk]

@[simp] theorem writeCompletion_memOk {x fut status value} (h : s.memOk) : (writeCompletion x fut status value s).memOk := by
  simp [writeCompletion, h]

@[simp] theorem endGroup_memOk {k} (h : s.memOk) : (endGroup k s).memOk := by
  simp only [endGroup]
  (repeat' split) <;> simp +contextual [h]

@[simp] theorem endGroups_memOk (h : s.memOk) : (endGroups s).memOk := by simp +contextual [endGroups, h]

@[simp] theorem leaveGroup_memOk {k n exits cause} (h : s.memOk) : (leaveGroup k n exits cause s).memOk := by
  simp only [leaveGroup]
  split <;> simp [h]

@[simp] theorem leaveGroup?_memOk {k n exits cause} (h : s.memOk) : (leaveGroup? k n exits cause s).memOk := by
  simp only [leaveGroup?]
  split <;> simp [h]

@[simp] theorem addTask_memOk {a0} (h : s.memOk) : (addTask a0 s).memOk := by simp [addTask, h]

@[simp] theorem requeue_memOk {team ms} (h : s.memOk) : (requeue team ms s).memOk :=
  addTask_memOk (foldl_memOk h fun _ _ h => modTeam_memOk h fun _ => rfl)

@[simp] theorem wakeTeam_memOk {team} (h : s.memOk) : (wakeTeam team s).memOk := by simp [wakeTeam, h]
@[simp] theorem releaseMonitor_memOk {m} (h : s.memOk) : (releaseMonitor m s).memOk := by simp [releaseMonitor, h]

@[simp] theorem leaveWait_memOk {a0} (h : s.memOk) : (leaveWait a0 s).memOk := by
  grind [leaveWait, modThread_memOk, settleBatch_memOk, releaseMonitor_memOk]

@[simp] theorem leaveWave_memOk {a0} (h : s.memOk) : (leaveWave a0 s).memOk := by
  grind [leaveWave, delWave_memOk, dissolve_memOk, setWave_memOk, foldl_memOk]

@[simp] theorem thinWave_memOk {k out} (h : s.memOk) : (thinWave k out s).memOk := by
  grind [thinWave, setWave_memOk, modThreads_memOk, dissolve_memOk, foldl_memOk]

@[simp] theorem endRun_memOk {k} (h : s.memOk) : (endRun k s).memOk := by simp [endRun, h]

@[simp] theorem tidyWave_memOk {k} (h : s.memOk) : (tidyWave k s).memOk := by
  grind [tidyWave, dissolve_memOk, endRun_memOk, thinWave_memOk, setWave_memOk]

@[simp] theorem tidyWaves_memOk {ts} (h : s.memOk) : (tidyWaves ts s).memOk := by simp +contextual [tidyWaves, h]
@[simp] theorem freeLineages_memOk (h : s.memOk) : (freeLineages s).memOk := by simp [freeLineages, h]

theorem newLineage_memOk {x parent grid} {a t} (h : s.memOk) (e : newLineage x parent grid s = some (a, t)) : t.memOk := by
  grind [newLineage, modWork_memOk]

@[simp] theorem trimHoists_memOk {team} (h : s.memOk) : (trimHoists team s).memOk := modTeam_memOk h fun _ => rfl

@[simp] theorem quietEngine_memOk {team} (h : s.memOk) : (quietEngine team s).memOk := by
  simp only [quietEngine]
  split <;> simp [h]

@[simp] theorem retireThread_memOk {t byExit} (h : s.memOk) : (retireThread t byExit s).memOk := by
  have hleft : (leaveWave t (leaveWait t s)).memOk := leaveWave_memOk (leaveWait_memOk h)
  simp only [retireThread]
  split
  · exact h
  · refine freeLineages_memOk ?_
    split
    · exact leaveGroup?_memOk (modWork_memOk hleft rfl)
    · exact quietEngine_memOk (trimHoists_memOk (leaveGroup?_memOk (modWork_memOk (modTeam_memOk hleft fun _ => rfl) rfl)))

@[simp] theorem takeCancel_memOk {a0} (h : s.memOk) : (takeCancel a0 s).memOk := by
  grind [takeCancel, leaveGroup?_memOk, retireThread_memOk, modThread_memOk, leaveWait_memOk]

@[simp] theorem dropTask_memOk {k cause} (h : s.memOk) : (dropTask k cause s).memOk := by
  simp only [dropTask]
  (repeat' split) <;> simp +contextual [h]

@[simp] theorem writeStatus_memOk {x rcd st cause} (h : s.memOk) : (writeStatus x rcd st cause s).memOk := by simp [writeStatus, h]

@[simp] theorem drainGrid_memOk {k} (h : s.memOk) : (drainGrid k s).memOk := by
  grind [drainGrid, releaseAll_memOk, devGet_memOk, devPut_memOk, writeStatus_memOk, writeCompletion_memOk, freeLineages_memOk, modWork_memOk]

@[simp] theorem cancelLineage_memOk {l cause} (h : s.memOk) : (cancelLineage l cause s).memOk := by
  grind [cancelLineage, modWork_memOk, dropTask_memOk, modGrid_memOk, leaveGroup?_memOk, wakeTeam_memOk, tidyWaves_memOk, takeCancel_memOk,
    freeLineages_memOk, drainGrid_memOk, foldl_memOk]

@[simp] theorem cancelGrid_memOk {k cause} (h : s.memOk) : (cancelGrid k cause s).memOk := by simp [cancelGrid, h]
@[simp] theorem failGrid_memOk {k cause} (h : s.memOk) : (failGrid k cause s).memOk := by simp [failGrid, h]

theorem emitOne_memOk {k} {t} (h : s.memOk) (e : emitOne k s = some t) : t.memOk := by
  grind [emitOne, addTask_memOk, modGrid_memOk]

@[simp] theorem emitTasks_memOk {k n} (h : s.memOk) : (emitTasks k n s).memOk := by
  induction n generalizing s with
  | zero => exact h
  | succ n ih =>
    unfold emitTasks
    split
    · next hu => exact ih (emitOne_memOk h hu)
    · exact h

@[simp] theorem emitAll_memOk {k} (h : s.memOk) : (emitAll k s).memOk := by simp [emitAll, h]

theorem codeRead_memOk {α : Type} {x va n} {k : List Byte → State → Except Byte α × State} (h : s.memOk)
    (hk : ∀ bs s, s.memOk → (k bs s).2.memOk) : (codeRead x va n s k).2.memOk := by
  have hread := devGet_memOk (x := x) (va := va) (n := n) h
  simp only [codeRead]
  split
  · exact hread
  · exact hk _ _ hread

@[simp] theorem readCode_memOk {x base} (h : s.memOk) : (readCode x base s).2.memOk := by
  refine codeRead_memOk h fun _ s h => ?_
  split
  · exact h
  refine codeRead_memOk h fun _ s h => ?_
  simp only
  split
  · exact h
  split
  · split
    · exact h
    · exact codeRead_memOk h fun _ s h => codeRead_memOk h fun _ s h => codeRead_memOk h fun _ s h => h
  · exact h

@[simp] theorem acceptRecord_memOk {x host parent va} (h : s.memOk) : (acceptRecord x host parent va s).2.memOk := by
  have hread := devGet_memOk (x := x) (va := va) (n := 384) h
  have hcode {base} := readCode_memOk (x := x) (base := base) hread
  simp only [acceptRecord]
  split
  · exact hread
  split
  · exact writeCompletion_memOk (writeStatus_memOk hread)
  split
  · exact writeCompletion_memOk (writeStatus_memOk hcode)
  split
  · exact hcode
  · next hu => exact emitAll_memOk (writeStatus_memOk (devPut_memOk (devPut_memOk (modCtx_memOk (modWork_memOk (newLineage_memOk hcode hu) rfl)))))

@[simp] theorem readQueue_memOk {n fuel} (h : s.memOk) : (readQueue n fuel s).memOk := by
  induction fuel generalizing s with
  | zero => exact h
  | succ fuel ih => grind [readQueue, modQueue_memOk, devGet_memOk, acceptRecord_memOk, writeStatus_memOk, logDev_memOk]

/-! ### The operations of Debug.lean -/

@[simp] theorem putRecord_memOk {x bs} (h : s.memOk) : (putRecord x bs s).memOk := by
  grind [putRecord, modCtx_memOk, vaWrite_memOk]

@[simp] theorem replayPut_memOk {x w ord value key} (h : s.memOk) : (replayPut x w ord value key s).memOk := by
  grind [replayPut, modCtx_memOk, vaWrite_memOk]

@[simp] theorem replayStep_memOk {x} (h : s.memOk) : (replayStep x s).memOk := by simp [replayStep, h]
@[simp] theorem diverge_memOk {x} (h : s.memOk) : (diverge x s).memOk := by simp [diverge, h]
@[simp] theorem replayTaken_memOk {x} (h : s.memOk) : (replayTaken x s).memOk := by simp [replayTaken, h]

@[simp] theorem replayAtomic_memOk {a a1 value pa} (h : s.memOk) : (replayAtomic a a1 value pa s).memOk := by
  grind [replayAtomic, replayPut_memOk, diverge_memOk, replayStep_memOk, takePriv_memOk]

@[simp] theorem replayWake_memOk {a0 value pa} (h : s.memOk) : (replayWake a0 value pa s).memOk := by simp [replayWake, h]

@[simp] theorem waveSample_memOk {core context} (h : s.memOk) : (Machine.waveSample core context s).memOk := by
  simp only [Machine.waveSample]
  (repeat' split) <;> simp +contextual [h]

@[simp] theorem breakdownRecord_memOk {core counts} (h : s.memOk) : (Machine.breakdownRecord core counts s).memOk := by
  simp only [Machine.breakdownRecord]
  split <;> simp [h]

/-! ### The operations of Group.lean -/

@[simp] theorem waveOnce_memOk {f act} (h : s.memOk) (hact : ∀ x1 s, s.memOk → (act x1 s).memOk) : (waveOnce f act s).memOk := by
  simp only [waveOnce]
  split <;> simp [h, hact]

@[simp] theorem putAll_memOk {f o} (h : s.memOk) : (putAll f o s).memOk := by simp [putAll, h]
@[simp] theorem doneWith_memOk {f o} (h : s.memOk) : (doneWith f o s).memOk := by simp [doneWith, h]
@[simp] theorem wakeEngine_memOk {c} (h : s.memOk) : (wakeEngine c s).memOk := by simp [wakeEngine, h]
@[simp] theorem modGroup_memOk {c g} (h : s.memOk) : (State.modGroup s c g).memOk := by simp [State.modGroup, h]
@[simp] theorem modMxe_memOk {c g} (h : s.memOk) : (State.modMxe s c g).memOk := by simp [State.modMxe, h]
@[simp] theorem modLcp_memOk {c g} (h : s.memOk) : (State.modLcp s c g).memOk := by simp [State.modLcp, h]
@[simp] theorem modCpe_memOk {c g} (h : s.memOk) : (State.modCpe s c g).memOk := by simp [State.modCpe, h]

@[simp] theorem modTeamGroup_memOk {team k} (h : s.memOk) : (State.modTeamGroup s team k).memOk := by
  simp only [State.modTeamGroup]
  (repeat' split) <;> simp +contextual [h]

@[simp] theorem modTeamCpe_memOk {team k} (h : s.memOk) : (State.modTeamCpe s team k).memOk := by
  simp only [State.modTeamCpe]
  (repeat' split) <;> simp +contextual [h]

@[simp] theorem repin_memOk {c team} (h : s.memOk) : (repin c team s).memOk := by simp [repin, h]

theorem rinitOne_memOk {c team n base geo} {t} (h : s.memOk) (e : rinitOne c team n base geo s = some t) : t.memOk := by
  grind [rinitOne, repin_memOk, modGroup_memOk]

theorem initRings_memOk {c team rs t} (h : s.memOk) (e : initRings c team rs s = some t) : t.memOk := by
  induction rs generalizing s with
  | nil => cases e; exact h
  | cons r rs ih =>
    simp only [initRings] at e
    split at e
    · cases e
    split at e
    · cases e
    · next hu => exact ih (rinitOne_memOk h hu) e

theorem claim_memOk {c team t} (h : s.memOk) (e : claim c team s = .owned t) : t.memOk := by
  unfold claim at e
  split at e
  · split at e <;> cases e
    exact h
  split at e
  · next hu =>
    split at e <;> cases e
    exact initRings_memOk (modCore_memOk h) hu
  · cases e

theorem withGroup_memOk {f act} (h : s.memOk) (hact : ∀ l c s t, s.memOk → act l c s = some t → t.memOk) : (withGroup f act s).memOk := by
  refine waveOnce_memOk h fun l s h => ?_
  simp only
  split
  · exact waitAll_memOk h
  · exact trapAll_memOk h
  · exact waitPages_memOk h
  · next hu =>
    have hu := claim_memOk h hu
    split
    · next ht => exact hact _ _ _ _ hu ht
    · exact trapAll_memOk h

@[simp] theorem pulse_memOk {c src} (h : s.memOk) : (pulse c src s).memOk := by simp [pulse, h]
@[simp] theorem eventPulse_memOk {core source} (h : s.memOk) : (Machine.eventPulse core source s).memOk := by simp [Machine.eventPulse, h]

@[simp] theorem Loc_read_memOk {l n} (h : s.memOk) : (Loc.read l n s).2.memOk := by
  simp only [Loc.read]
  split <;> simp [h]

@[simp] theorem Loc_write_memOk {l bs} (h : s.memOk) : (Loc.write l bs s).memOk := by
  simp only [Loc.write]
  split <;> simp [h]

@[simp] theorem creditAt_memOk {x l bytes failed cause} (h : s.memOk) : (creditAt x l bytes failed cause s).memOk := by
  have hw {bs} : (l.write bs (l.read 64 s).2).memOk := Loc_write_memOk (Loc_read_memOk h)
  simp only [creditAt]
  split
  · exact logDev_memOk h
  split
  · exact logDev_memOk hw
  · exact hw

@[simp] theorem barrierCredit_memOk {credit} (h : s.memOk) : (Machine.barrierCredit credit s).memOk := by
  simp only [Machine.barrierCredit]
  split <;> simp [h]

/-! ### The operations of Objects.lean -/

@[simp] theorem engineTrap_memOk {c team e cause eaddr einfo epc quad slot} (h : s.memOk) :
    (engineTrap c team e cause eaddr einfo epc quad slot s).memOk := by simp [engineTrap, h]

@[simp] theorem setProgPc_memOk {c e pc} (h : s.memOk) : (setProgPc c e pc s).memOk := by
  simp only [setProgPc]
  split <;> simp [h]

@[simp] theorem programFaultWith_memOk {c e cause addr w hi} (h : s.memOk) : (programFaultWith c e cause addr w hi s).memOk := by
  simp only [programFaultWith]
  split <;> simp [h]

@[simp] theorem programFault_memOk {c e cause addr w} (h : s.memOk) : (programFault c e cause addr w s).memOk := by simp [programFault, h]

@[simp] theorem engineNext_memOk (h : s.memOk) : (engineNext s).memOk := by
  simp only [engineNext]
  (repeat' split) <;> simp +contextual [h]

@[simp] theorem parkMonitor_memOk {l m polled} (h : s.memOk) : (parkMonitor l m polled s).memOk := by
  simp only [parkMonitor]
  (repeat' split) <;> simp +contextual [h]

@[simp] theorem monitorRead_memOk {m} (h : s.memOk) : (monitorRead m s).2.memOk := by
  simp only [monitorRead]
  split <;> simp [h]

@[simp] theorem monitorWake_memOk {monitor} (h : s.memOk) : (Machine.monitorWake monitor s).memOk := by
  grind [Machine.monitorWake, monitorRead_memOk, replayWake_memOk, modHome_memOk, modThreads_memOk, wakeTeam_memOk, foldl_memOk]

@[simp] theorem monitorPoll_memOk {thread} (h : s.memOk) : (Machine.monitorPoll thread s).memOk := by
  simp only [Machine.monitorPoll]
  split <;> simp [h]

@[simp] theorem touchLoc_memOk {l} (h : s.memOk) : (touchLoc l s).memOk := by
  simp only [touchLoc]
  split <;> simp [h]

@[simp] theorem waitLocs_memOk {f k ps} (h : s.memOk) : (waitLocs f k ps s).memOk := by
  simp only [waitLocs]
  split <;> simp [h]

@[simp] theorem poisonTrap_memOk {f pa} (h : s.memOk) : (poisonTrap f pa s).memOk := by simp [poisonTrap, h]

@[simp] theorem withLocs_memOk {f check ea w loads act} (h : s.memOk) (hact : ∀ x1 s, s.memOk → (act x1 s).memOk) :
    (withLocs f check ea w loads act s).memOk := by
  grind [withLocs, memTrap_memOk, waitLocs_memOk, poisonTrap_memOk, touchLoc_memOk, foldl_memOk]

@[simp] theorem releaseFirst_memOk {f scope k} (h : s.memOk) (hk : ∀ s, s.memOk → (k s).memOk) : (releaseFirst f scope k s).memOk := by
  simp [releaseFirst, h, hk]

@[simp] theorem boinit_memOk {f} (h : s.memOk) : (Machine.boinit f s).memOk := by
  grind [Machine.boinit, withLocs_memOk, Loc_write_memOk, advance_memOk, takeUsers_memOk, foldl_memOk]

@[simp] theorem boarr_memOk {f} (h : s.memOk) : (Machine.boarr f s).memOk := by
  grind [Machine.boarr, releaseFirst_memOk, withLocs_memOk, releaseSide_memOk, creditAt_memOk, advance_memOk, foldl_memOk]

@[simp] theorem botok_memOk {f} (h : s.memOk) : (Machine.botok f s).memOk := by
  grind [Machine.botok, withLocs_memOk, Loc_read_memOk, modThread_memOk, advance_memOk, foldl_memOk]

@[simp] theorem boMonitor_memOk {l p phase} (h : s.memOk) : (boMonitor l p phase s).memOk := by
  simp only [boMonitor]
  split <;> simp [h]

@[simp] theorem boWaitOn_memOk {f out} (h : s.memOk) : (boWaitOn f out s).memOk := by
  grind [boWaitOn, withLocs_memOk, Loc_read_memOk, acquireSide_memOk, modThread_memOk, boMonitor_memOk, advance_memOk, foldl_memOk]

@[simp] theorem bowait_memOk {f} (h : s.memOk) : (Machine.bowait f s).memOk := by simp [Machine.bowait, h]
@[simp] theorem bowaitp_memOk {f} (h : s.memOk) : (bowaitp f s).memOk := boWaitOn_memOk h

theorem withRing_memOk {f act} (h : s.memOk) (hact : ∀ c r s t, s.memOk → act c r s = some t → t.memOk) : (withRing f act s).memOk := by
  refine withGroup_memOk h fun _ c s t h e => ?_
  obtain ⟨r, -, hr⟩ := Option.bind_eq_some_iff.1 e
  exact hact c r s t h hr

@[simp] theorem setRing_memOk {c n r} (h : s.memOk) : (setRing c n r s).memOk := by simp [setRing, h]

@[simp] theorem rinit_memOk {f} (h : s.memOk) : (rinit f s).memOk := by
  refine withGroup_memOk h fun l c s t h e => ?_
  obtain ⟨u, hu, rfl⟩ := Option.map_eq_some_iff.1 e
  split
  · exact advance_memOk (rinitOne_memOk h hu)
  · exact waitPages_memOk h

@[simp] theorem rget_memOk {f} (h : s.memOk) : (Machine.rget f s).memOk := by
  grind [Machine.rget, withRing_memOk, waitAll_memOk, doneWith_memOk, setRing_memOk]

@[simp] theorem rputRes_memOk {f} (h : s.memOk) : (Machine.rputRes f s).memOk := by
  grind [Machine.rputRes, withRing_memOk, waitAll_memOk, doneWith_memOk, setRing_memOk]

@[simp] theorem rputPub_memOk {f} (h : s.memOk) : (rputPub f s).memOk := by
  refine withRing_memOk h fun c r s t h e => ?_
  obtain ⟨x, -, rfl⟩ := Option.map_eq_some_iff.1 e
  exact advance_memOk (setRing_memOk h)

@[simp] theorem rrel_memOk {f} (h : s.memOk) : (Machine.rrel f s).memOk := by
  grind [Machine.rrel, withRing_memOk, advance_memOk, setRing_memOk]

@[simp] theorem rstat_memOk {f} (h : s.memOk) : (Machine.rstat f s).memOk := by
  grind [Machine.rstat, withGroup_memOk, doneWith_memOk]

@[simp] theorem setSink_memOk {c k x} (h : s.memOk) : (setSink c k x s).memOk := by simp [setSink, h]

@[simp] theorem evmap_memOk {f} (h : s.memOk) : (Machine.evmap f s).memOk := by
  grind [Machine.evmap, withGroup_memOk, advance_memOk, setSink_memOk]

@[simp] theorem evsig_memOk {f} (h : s.memOk) : (Machine.evsig f s).memOk := by
  grind [Machine.evsig, withGroup_memOk, advance_memOk, pulse_memOk]

theorem takeCounts_memOk {c k n} {t} (h : s.memOk) (e : takeCounts c k n s = some t) : t.memOk := by
  grind [takeCounts, setSink_memOk]

@[simp] theorem evwait_memOk {f} (h : s.memOk) : (Machine.evwait f s).memOk := by
  grind [Machine.evwait, programFault_memOk, takeCounts_memOk, engineNext_memOk, setSink_memOk, withGroup_memOk, waitAll_memOk, doneWith_memOk]
end

end Sys2Proof.Proofs
end

section
/-!
PROOFS. The engines keep memories canonical (spec 08, 12, 14): fetches, the sequencers, the matrix engine, and the copies, which
write scratchpads and home memory.
-/
namespace Sys2Proof.Proofs
open Machine Laws

section
variable {s : State}

/-! ### The operations of Fetch.lean -/

@[simp] theorem cachedLine_memOk {c pa} (h : s.memOk) : (cachedLine c pa s).2.memOk := by
  simp only [cachedLine]
  (repeat' split) <;> simp +contextual [h]

@[simp] theorem dropLine_memOk {c pa} (h : s.memOk) : (dropLine c pa s).memOk := by simp [dropLine, h]
@[simp] theorem softError_memOk {c x cause addr} (h : s.memOk) : (softError c x cause addr s).memOk := by simp [softError, h]

@[simp] theorem fetchLine_memOk {w va} (h : s.memOk) : (fetchLine w va s).2.memOk := by
  grind [fetchLine, logCore_memOk, cachedLine_memOk, noteWalk_memOk, dropLine_memOk, softError_memOk]

@[simp] theorem noteEntry_memOk {w va} (h : s.memOk) : (noteEntry w va s).memOk := by
  simp only [noteEntry]
  split <;> simp [h]

@[simp] theorem engineFetch_memOk {c pc} (h : s.memOk) : (engineFetch c pc s).2.memOk := by
  simp only [engineFetch]
  (repeat' split) <;> simp +contextual [h]

/-! ### The operations of Loop.lean -/

@[simp] theorem inLcp_memOk {k} (h : s.memOk) (hk : ∀ x1 x2 s, s.memOk → (k x1 x2 s).memOk) : (inLcp k s).memOk := by
  simp only [inLcp]
  split <;> simp [h, hk]

@[simp] theorem lcpConfig_memOk {c i} (h : s.memOk) : (lcpConfig c i s).memOk := by simp [lcpConfig, h]

@[simp] theorem loopL_memOk {f} (h : s.memOk) : (Machine.loopL f s).memOk := by
  grind [Machine.loopL, inLcp_memOk, setProgPc_memOk, programFault_memOk, lcpConfig_memOk, engineNext_memOk, modLcp_memOk]

@[simp] theorem endl_memOk {f} (h : s.memOk) : (Machine.endl f s).memOk := by
  grind [Machine.endl, inLcp_memOk, lcpConfig_memOk, setProgPc_memOk, modLcp_memOk, wakeEngine_memOk, engineNext_memOk]

@[simp] theorem emit_memOk {f} (h : s.memOk) : (Machine.emit f s).memOk := by
  grind [Machine.emit, inLcp_memOk, engineNext_memOk, modLcp_memOk]

@[simp] theorem permw_memOk {f} (h : s.memOk) : (Machine.permw f s).memOk := by
  simp only [Machine.permw]
  (repeat' split) <;> simp +contextual [h]

@[simp] theorem lset_memOk {f} (h : s.memOk) : (Machine.lset f s).memOk := by
  grind [Machine.lset, inLcp_memOk, engineNext_memOk, modLcp_memOk]

@[simp] theorem lcpEnd_memOk {c} (h : s.memOk) : (lcpEnd c s).memOk := by simp [lcpEnd, h]
@[simp] theorem lend_memOk {a0} (h : s.memOk) : (Machine.lend a0 s).memOk := by simp +contextual [Machine.lend, h]

@[simp] theorem lcpHalted_memOk {core k} (h : s.memOk) (hk : ∀ s, s.memOk → (k s).memOk) : (lcpHalted core k s).memOk := by
  grind [lcpHalted, wakeEngine_memOk, modLcp_memOk]

@[simp] theorem lcpCtlAbort_memOk {core} (h : s.memOk) : (Machine.lcpCtlAbort core s).memOk := by simp +contextual [Machine.lcpCtlAbort, h]

@[simp] theorem lcpCtlSkip_memOk {core} (h : s.memOk) : (Machine.lcpCtlSkip core s).memOk := by
  grind [Machine.lcpCtlSkip, lcpHalted_memOk, setProgPc_memOk]

@[simp] theorem lcpCtlResume_memOk {core} (h : s.memOk) : (Machine.lcpCtlResume core s).memOk := by simp [Machine.lcpCtlResume, h]

/-! ### The operations of Narrow.lean -/

@[simp] theorem lmul_memOk {f} (h : s.memOk) : (Machine.lmul f s).memOk := by simp [Machine.lmul, h]
@[simp] theorem lsum_memOk {f} (h : s.memOk) : (Machine.lsum f s).memOk := by simp [Machine.lsum, h]
@[simp] theorem lcvt_memOk {f} (h : s.memOk) : (Machine.lcvt f s).memOk := by simp [Machine.lcvt, h]
@[simp] theorem bpack_memOk {f} (h : s.memOk) : (Machine.bpack f s).memOk := by simp [Machine.bpack, h]
@[simp] theorem bunpk_memOk {f} (h : s.memOk) : (Machine.bunpk f s).memOk := by simp [Machine.bunpk, h]
@[simp] theorem clamp_memOk {f} (h : s.memOk) : (Machine.clamp f s).memOk := by simp [Machine.clamp, h]
@[simp] theorem scle_memOk {f} (h : s.memOk) : (Machine.scle f s).memOk := by simp [Machine.scle, h]

/-! ### The operations of Matrix.lean -/

@[simp] theorem mxHalt_memOk {c cause addr m} (h : s.memOk) : (mxHalt c cause addr m s).memOk := by simp [mxHalt, h]
@[simp] theorem mxDone_memOk {c} (h : s.memOk) : (mxDone c s).memOk := by simp [mxDone, h]

@[simp] theorem withMxAddr_memOk {c m addr n k} (h : s.memOk) (hk : ∀ s, s.memOk → (k s).memOk) : (withMxAddr c m addr n k s).memOk := by
  simp only [withMxAddr]
  split <;> simp [h, hk]

@[simp] theorem runMldb_memOk {c m f} (h : s.memOk) : (runMldb c m f s).memOk := by
  grind [runMldb, withMxAddr_memOk, mxDone_memOk, modMxe_memOk]

@[simp] theorem runMma_memOk {c m f} (h : s.memOk) : (runMma c m f s).memOk := by
  grind [runMma, mxHalt_memOk, modMxe_memOk, modGroup_memOk, mxDone_memOk]

@[simp] theorem runAccz_memOk {c f} (h : s.memOk) : (runAccz c f s).memOk := by simp [runAccz, h]
@[simp] theorem runAccsc_memOk {c f} (h : s.memOk) : (runAccsc c f s).memOk := by simp [runAccsc, h]
@[simp] theorem accRowDone_memOk {c m f} (h : s.memOk) : (accRowDone c m f s).memOk := by simp [accRowDone, h]

@[simp] theorem runAccld_memOk {c m f} (h : s.memOk) : (runAccld c m f s).memOk := by
  grind [runAccld, withMxAddr_memOk, accRowDone_memOk, modMxe_memOk, foldl_memOk]

@[simp] theorem runAccst_memOk {c m f} (h : s.memOk) : (runAccst c m f s).memOk := by
  grind [runAccst, withMxAddr_memOk, accRowDone_memOk, scratchWrite_memOk]

@[simp] theorem runMsel_memOk {c f} (h : s.memOk) : (runMsel c f s).memOk := by simp [runMsel, h]

@[simp] theorem runMsig_memOk {c m f} (h : s.memOk) : (runMsig c m f s).memOk := by
  grind [runMsig, mxHalt_memOk, modMxe_memOk, pulse_memOk, mxDone_memOk, withMxAddr_memOk, scratchWrite_memOk]

@[simp] theorem matrixCommandComplete_memOk {core} (h : s.memOk) : (Machine.matrixCommandComplete core s).memOk := by
  simp only [Machine.matrixCommandComplete]
  (repeat' split) <;> simp +contextual [h]

@[simp] theorem matrixCmd_memOk {i f} (h : s.memOk) : (matrixCmd i f s).memOk := by
  grind [matrixCmd, engineNext_memOk, modMxe_memOk, withGroup_memOk, waitAll_memOk, advance_memOk]

@[simp] theorem mldb_memOk {f} (h : s.memOk) : (Machine.mldb f s).memOk := by simp [Machine.mldb, h]
@[simp] theorem mma_memOk {f} (h : s.memOk) : (Machine.mma f s).memOk := by simp [Machine.mma, h]
@[simp] theorem accz_memOk {f} (h : s.memOk) : (Machine.accz f s).memOk := by simp [Machine.accz, h]
@[simp] theorem accsc_memOk {f} (h : s.memOk) : (Machine.accsc f s).memOk := by simp [Machine.accsc, h]
@[simp] theorem accld_memOk {f} (h : s.memOk) : (Machine.accld f s).memOk := by simp [Machine.accld, h]
@[simp] theorem accst_memOk {f} (h : s.memOk) : (Machine.accst f s).memOk := by simp [Machine.accst, h]
@[simp] theorem msel_memOk {f} (h : s.memOk) : (Machine.msel f s).memOk := by simp [Machine.msel, h]
@[simp] theorem msig_memOk {f} (h : s.memOk) : (Machine.msig f s).memOk := by simp [Machine.msig, h]

@[simp] theorem returnM_memOk {c} (h : s.memOk) : (returnM c s).memOk := by
  grind [returnM, modLcp_memOk, modMxe_memOk, wakeEngine_memOk, pulse_memOk]

@[simp] theorem mxEnd_memOk {c} (h : s.memOk) : (mxEnd c s).memOk := by
  grind [mxEnd, wakeEngine_memOk, modMxe_memOk, returnM_memOk]

@[simp] theorem inSequencer_memOk {k} (h : s.memOk) (hk : ∀ x1 s, s.memOk → (k x1 s).memOk) : (inSequencer k s).memOk := by
  simp only [inSequencer]
  split <;> simp [h, hk]

@[simp] theorem mnext_memOk {a0} (h : s.memOk) : (Machine.mnext a0 s).memOk := by
  grind [Machine.mnext, inSequencer_memOk, modLcp_memOk, returnM_memOk, engineNext_memOk, modMxe_memOk, mxEnd_memOk]

@[simp] theorem mwaite_memOk {f} (h : s.memOk) : (Machine.mwaite f s).memOk := by
  grind [Machine.mwaite, inSequencer_memOk, programFault_memOk, takeCounts_memOk, engineNext_memOk]

@[simp] theorem mend_memOk {a0} (h : s.memOk) : (Machine.mend a0 s).memOk := by simp +contextual [Machine.mend, h]

@[simp] theorem mendLoop_memOk {a0} (h : s.memOk) : (Machine.mendLoop a0 s).memOk := by
  grind [Machine.mendLoop, inSequencer_memOk, setProgPc_memOk]

@[simp] theorem mxeCtlClrst_memOk {core} (h : s.memOk) : (Machine.mxeCtlClrst core s).memOk := by simp [Machine.mxeCtlClrst, h]
@[simp] theorem mxHalted_memOk {core k} (h : s.memOk) (hk : ∀ s, s.memOk → (k s).memOk) : (mxHalted core k s).memOk := by simp [mxHalted, h, hk]

@[simp] theorem mxeCtlAbort_memOk {core} (h : s.memOk) : (Machine.mxeCtlAbort core s).memOk := by
  grind [Machine.mxeCtlAbort, mxHalted_memOk, mxEnd_memOk, modMxe_memOk]

@[simp] theorem mxeCtlSkip_memOk {core} (h : s.memOk) : (Machine.mxeCtlSkip core s).memOk := by
  grind [Machine.mxeCtlSkip, mxHalted_memOk, modMxe_memOk, setProgPc_memOk]

@[simp] theorem mxeCtlResume_memOk {core} (h : s.memOk) : (Machine.mxeCtlResume core s).memOk := by simp +contextual [Machine.mxeCtlResume, h]

/-! ### The operations of Copy.lean -/

@[simp] theorem readTens_memOk {w va} (h : s.memOk) : (readTens w va s).2.memOk := by
  simp only [readTens]
  (repeat' split) <;> simp +contextual [h]

@[simp] theorem acceptCopy_memOk {c x mbz descAddr} (h : s.memOk) : (acceptCopy c x mbz descAddr s).2.memOk := by
  grind [acceptCopy, readTens_memOk, logCore_memOk, modCpe_memOk, modWork_memOk, foldl_memOk]

@[simp] theorem onceTrap_memOk {f l cause ea} (h : s.memOk) : (onceTrap f l cause ea s).memOk := by simp [onceTrap, h]

@[simp] theorem waveCopy_memOk {f form l bs} (h : s.memOk) : (waveCopy f form l bs s).memOk := by
  grind [waveCopy, claim_memOk, waitAll_memOk, trapAll_memOk, waitPages_memOk, acceptCopy_memOk, advance_memOk]

@[simp] theorem finishPasses_memOk {team} (h : s.memOk) : (finishPasses team s).memOk := by
  simp only [finishPasses]
  (repeat' split) <;> simp +contextual [h]

@[simp] theorem progCopy_memOk {f form} (h : s.memOk) : (progCopy f form s).memOk := by
  grind [progCopy, engineNext_memOk, finishPasses_memOk, wakeEngine_memOk, modCpe_memOk, programFault_memOk, acceptCopy_memOk,
    programFaultWith_memOk]

@[simp] theorem copyInstr_memOk {f form} (h : s.memOk) : (copyInstr f form s).memOk := by
  unfold copyInstr
  split
  · exact progCopy_memOk h
  refine waveOnce_memOk h fun l s h => ?_
  split
  · exact onceTrap_memOk h
  split
  · exact waitLocs_memOk h
  split
  · exact poisonTrap_memOk h
  · exact waveCopy_memOk (Loc_read_memOk (touchLoc_memOk h))

@[simp] theorem cp_memOk {f} (h : s.memOk) : (Machine.cp f s).memOk := by simp [Machine.cp, h]
@[simp] theorem cpblk_memOk {f} (h : s.memOk) : (Machine.cpblk f s).memOk := by simp [Machine.cpblk, h]

@[simp] theorem endRead_memOk {w space team addr n} (h : s.memOk) : (endRead w space team addr n s).2.memOk := by
  simp only [endRead]
  split <;> simp [h]

@[simp] theorem tagCopy_memOk {id s0} (h : s.memOk) : (tagCopy id s0 s).memOk := h

theorem endWrite_memOk {w c addr bs t} (h : s.memOk) (e : endWrite w c addr bs s = .ok t) : t.memOk := by
  unfold endWrite at e
  split at e
  · cases e
    exact foldl_memOk h fun _ _ h => scratchWrite_memOk h
  split at e <;> cases e
  next hu => exact tagCopy_memOk (vaWrite_memOk h hu)

@[simp] theorem landSectors_memOk {w c addr bs} (h : s.memOk) : (landSectors w c addr bs s).2.2.memOk := by
  unfold landSectors
  refine List.foldlRecOn (motive := fun acc : _ × _ × State => acc.2.2.memOk) _ _ h fun acc hacc k _ => ?_
  grind [endWrite_memOk]

@[simp] theorem setCopy_memOk {c x} (h : s.memOk) : (setCopy c x s).memOk := by simp [setCopy, h]

@[simp] theorem creditCopy_memOk {c x bytes failed} (h : s.memOk) : (creditCopy c x bytes failed s).memOk := by
  grind [creditCopy, creditAt_memOk, logCore_memOk, foldl_memOk]

@[simp] theorem creditLanded_memOk {c x} (h : s.memOk) : (creditLanded c x s).memOk := by simp [creditLanded, h]
@[simp] theorem modRings_memOk {team n k} (h : s.memOk) : (modRings team n k s).memOk := by simp +contextual [modRings, h]

@[simp] theorem beginCopy_memOk {c x} (h : s.memOk) : (beginCopy c x s).2.memOk := by
  simp only [beginCopy]
  (repeat' split) <;> simp +contextual [h]

@[simp] theorem copyTrap_memOk {c x e addr sector} (h : s.memOk) : (copyTrap c x e addr sector s).memOk := by simp [copyTrap, h]

@[simp] theorem copyFault_memOk {c x e addr sector} (h : s.memOk) : (copyFault c x e addr sector s).memOk := by
  grind [copyFault, copyTrap_memOk, creditLanded_memOk, setCopy_memOk, modCpe_memOk]

@[simp] theorem poisonSource_memOk {w space addr} (h : s.memOk) : (poisonSource w space addr s).memOk := by
  simp only [poisonSource]
  (repeat' split) <;> simp +contextual [h]

@[simp] theorem hintLine_memOk {w hint addr dirty} (h : s.memOk) : (hintLine w hint addr dirty s).memOk := by
  simp only [hintLine]
  split <;> simp [h]

@[simp] theorem moveSector_memOk {core outcome} (h : s.memOk) : (moveSector core outcome s).memOk := by
  unfold moveSector
  split
  · exact h
  split
  · exact h
  extract_lets +lift b x w u rd s1
  have hb : b.2.memOk := beginCopy_memOk h
  have hrd : rd.2.memOk := by
    unfold rd
    split
    · exact hb
    · exact endRead_memOk hb
  have hs1 : s1.memOk := by
    unfold s1
    split
    · exact softError_memOk hrd
    · exact hrd
  clear_value s1 rd
  split
  · exact hb
  split
  · exact noteSnoop_memOk hb
  split
  · exact copyFault_memOk hrd
  split
  · refine copyFault_memOk ?_
    split
    · exact hrd
    · exact poisonSource_memOk hrd
  split
  · exact copyFault_memOk hs1
  extract_lets r s2 s3
  have hr : r.2.2.memOk := landSectors_memOk hs1
  have hs2 : s2.memOk := by
    unfold s2
    split
    · exact hintLine_memOk hr
    · exact hr
  have hs3 : s3.memOk := by
    refine setCopy_memOk ?_
    split
    · exact hintLine_memOk hs2
    · exact hs2
  clear_value s3 r
  split
  · exact copyFault_memOk hr
  split
  · exact creditLanded_memOk hs3
  · exact hs3

@[simp] theorem copyComplete_memOk {core copy} (h : s.memOk) : (Machine.copyComplete core copy s).memOk := by
  grind [Machine.copyComplete, creditLanded_memOk, creditCopy_memOk, modRings_memOk, modTeamGroup_memOk, vaWrite_memOk, releaseSide_memOk,
    logCore_memOk, modCpe_memOk, copyTrap_memOk, finishPasses_memOk, wakeEngine_memOk, foldl_memOk]

@[simp] theorem copyAnswered_memOk {os cause} (h : s.memOk) : (copyAnswered os cause s).memOk := by
  grind [copyAnswered, creditLanded_memOk, setCopy_memOk, foldl_memOk]

@[simp] theorem cpeHalted_memOk {c k} (h : s.memOk) (hk : ∀ x1 s, s.memOk → (k x1 s).memOk) : (cpeHalted c k s).memOk := by
  grind [cpeHalted, wakeEngine_memOk, modCpe_memOk]

@[simp] theorem cpeCtlResume_memOk {core} (h : s.memOk) : (Machine.cpeCtlResume core s).memOk := by simp [Machine.cpeCtlResume, h]

@[simp] theorem cpeCtlFail_memOk {core fcause} (h : s.memOk) : (Machine.cpeCtlFail core fcause s).memOk := by
  grind [Machine.cpeCtlFail, cpeHalted_memOk, setCopy_memOk, setSink_memOk, finishPasses_memOk, modCpe_memOk]

@[simp] theorem sinkMprogStart_memOk {core sink} (h : s.memOk) : (Machine.sinkMprogStart core sink s).memOk := by simp [Machine.sinkMprogStart, h]

@[simp] theorem sinkCopySubmit_memOk {core sink} (h : s.memOk) : (Machine.sinkCopySubmit core sink s).memOk := by
  simp only [Machine.sinkCopySubmit]
  (repeat' split) <;> simp +contextual [h]

@[simp] theorem fork_memOk {f} (h : s.memOk) : (Machine.fork f s).memOk := by
  grind [Machine.fork, withGroup_memOk, waitAll_memOk, modLcp_memOk, modCpe_memOk, modMxe_memOk, advance_memOk]

@[simp] theorem rdv_memOk {f} (h : s.memOk) : (Machine.rdv f s).memOk := by simp +contextual [Machine.rdv, h]

@[simp] theorem nextPass_memOk {c} (h : s.memOk) : (nextPass c s).memOk := by
  simp only [nextPass]
  split <;> simp [h]

@[simp] theorem runProgram_memOk {i} (h : s.memOk) : (runProgram i s).memOk := by
  simp only [runProgram]
  split <;> simp [h]

@[simp] theorem engineProgramFetch_memOk {core engine} (h : s.memOk) : (Machine.engineProgramFetch core engine s).memOk := by
  grind [Machine.engineProgramFetch, nextPass_memOk, programFault_memOk, engineFetch_memOk, runProgram_memOk, padsOk_put, padsOk_del, padsOk_map,
    teams_padsOk, modWork_padsOk, memOk_mk, mem_canonical]

@[simp] theorem engineFault_memOk {core engine cause addr} (h : s.memOk) : (Machine.engineFault core engine cause addr s).memOk := by
  simp only [Machine.engineFault]
  (repeat' split) <;> simp +contextual [h]
end

end Sys2Proof.Proofs
end

section
/-!
PROOFS. Spawning, placement, pre-emption, traps, control transfer, barriers and sequences keep memories canonical (spec 02, 15, 16,
17, 21, 22). A team that starts has an empty scratchpad, and one that is saved or restored keeps its own.
-/
namespace Sys2Proof.Proofs
open Machine Laws

section
variable {s : State}

/-! ### The operations of Spawn.lean -/

@[simp] theorem trapOne_memOk {f l v} (h : s.memOk) : (trapOne f l v s).memOk := by
  grind [trapOne, takePriv_memOk, modThreads_memOk, advance_memOk]

@[simp] theorem checkedAddrs_memOk {f n align ea act} (h : s.memOk) (hact : ∀ s, s.memOk → (act s).memOk) :
    (checkedAddrs f n align ea act s).memOk := by simp [checkedAddrs, h, hact]

theorem spawnLineage_memOk {f l} {a t} (h : s.memOk) (e : spawnLineage f l s = some (a, t)) : t.memOk := by
  grind [spawnLineage, newLineage_memOk]

@[simp] theorem spawnGroup_memOk {f l n} (h : s.memOk) : (spawnGroup f l n s).2.memOk := by
  simp only [spawnGroup]
  (repeat' split) <;> simp +contextual [h]

@[simp] theorem spawnOne_memOk {f make l} (h : s.memOk) (hmake : ∀ x1 s, s.memOk → (make x1 s).memOk) : (spawnOne f make s l).memOk := by
  grind [spawnOne, spawnLineage_memOk, modThread_memOk, spawnGroup_memOk, freeLineages_memOk]

@[simp] theorem spawnChecked_memOk {f limit gangs room act} (h : s.memOk) (hact : ∀ s, s.memOk → (act s).memOk) :
    (spawnChecked f limit gangs room act s).memOk := by
  grind [spawnChecked, checkedAddrs_memOk, trapOne_memOk, waitAll_memOk, foldl_memOk]

@[simp] theorem addThreads_memOk {l entry cs} (h : s.memOk) : (addThreads l entry cs s).memOk := by simp +contextual [addThreads, h]

@[simp] theorem spawn_memOk {f} (h : s.memOk) : (Machine.spawn f s).memOk := by
  grind [Machine.spawn, spawnChecked_memOk, spawnOne_memOk, addThreads_memOk, advance_memOk, foldl_memOk]

@[simp] theorem addTeams_memOk {l entry cs} (h : s.memOk) : (addTeams l entry cs s).memOk := emitAll_memOk (modGrid_memOk h)

@[simp] theorem spawnt_memOk {f} (h : s.memOk) : (Machine.spawnt f s).memOk := by
  grind [Machine.spawnt, spawnChecked_memOk, spawnOne_memOk, addTeams_memOk, advance_memOk, foldl_memOk]

@[simp] theorem launchCancelled_memOk {l a} (h : s.memOk) : (launchCancelled l a s).memOk := writeStatus_memOk h

@[simp] theorem launchg_memOk {f} (h : s.memOk) : (Machine.launchg f s).memOk := by
  grind [Machine.launchg, checkedAddrs_memOk, poisonTrap_memOk, modThread_memOk, launchCancelled_memOk, acceptRecord_memOk, advance_memOk,
    foldl_memOk]

@[simp] theorem exit_memOk {f} (h : s.memOk) : (Machine.exit f s).memOk := by
  grind [Machine.exit, retireThread_memOk, modThreads_memOk, advance_memOk, foldl_memOk]

@[simp] theorem yield_memOk {f} (h : s.memOk) : (Machine.yield f s).memOk := by simp [Machine.yield, h]

@[simp] theorem cancel_memOk {f} (h : s.memOk) : (Machine.cancel f s).memOk := by
  grind [Machine.cancel, modThread_memOk, cancelLineage_memOk, advance_memOk, foldl_memOk]

@[simp] theorem dlset_memOk {f} (h : s.memOk) : (Machine.dlset f s).memOk := by
  grind [Machine.dlset, waveOnce_memOk, modGrid_memOk, advance_memOk]

@[simp] theorem dlrd_memOk {f} (h : s.memOk) : (Machine.dlrd f s).memOk := by simp +contextual [Machine.dlrd, h]
@[simp] theorem setBin_memOk {c k b} (h : s.memOk) : (setBin c k b s).memOk := by simp [setBin, h]

@[simp] theorem tileEmit_memOk {core bin} (h : s.memOk) : (Machine.tileEmit core bin s).memOk := by
  grind [Machine.tileEmit, scratchWrite_memOk, wakeEngine_memOk, pulse_memOk, setBin_memOk, setRing_memOk, foldl_memOk]

@[simp] theorem closeTile_memOk {c k} (h : s.memOk) : (closeTile c k s).memOk := by
  simp only [closeTile]
  split <;> simp [h]

@[simp] theorem emitBins_memOk {c} (h : s.memOk) : (emitBins c s).memOk := by simp +contextual [emitBins, h]

@[simp] theorem emptyBin_memOk {c k} (h : s.memOk) : (emptyBin c k s).memOk := by
  grind [emptyBin, tileEmit_memOk, closeTile_memOk]

@[simp] theorem emitSaved_memOk {team} (h : s.memOk) : (emitSaved team s).memOk := by
  grind [emitSaved, emitBins_memOk, setCore_memOk, modTeam_memOk, padsOk_put, padsOk_del, padsOk_map, teams_padsOk, modWork_padsOk, memOk_mk,
    mem_canonical]

@[simp] theorem rebind_memOk {f k act} (h : s.memOk) (hact : ∀ x1 s t, s.memOk → act x1 s = some t → t.memOk) : (rebind f k act s).memOk := by
  grind [rebind, withGroup_memOk, closeTile_memOk, waitAll_memOk]

@[simp] theorem cqbind_memOk {f} (h : s.memOk) : (Machine.cqbind f s).memOk := by
  grind [Machine.cqbind, withGroup_memOk, rebind_memOk, advance_memOk, setBin_memOk]

@[simp] theorem cqbindOff_memOk {f} (h : s.memOk) : (Machine.cqbindOff f s).memOk := by
  grind [Machine.cqbindOff, rebind_memOk, advance_memOk, modGroup_memOk]

@[simp] theorem pushRow_memOk {f c k l} (h : s.memOk) : (pushRow f c k s l).memOk := by
  grind [pushRow, modThread_memOk, setBin_memOk, closeTile_memOk]

@[simp] theorem pushRows_memOk {f c} (h : s.memOk) : (pushRows f c s).memOk := by
  grind [pushRows, pushRow_memOk, modThreads_memOk, advance_memOk, waitAll_memOk, foldl_memOk]

@[simp] theorem cqpush_memOk {f} (h : s.memOk) : (Machine.cqpush f s).memOk := by
  grind [Machine.cqpush, takeUsers_memOk, pushRows_memOk, withGroup_memOk]

@[simp] theorem cqflush_memOk {f} (h : s.memOk) : (Machine.cqflush f s).memOk := by
  grind [Machine.cqflush, withGroup_memOk, advance_memOk, closeTile_memOk, foldl_memOk]

@[simp] theorem futRead_memOk {f wait out} (h : s.memOk) : (futRead f wait out s).memOk := by
  grind [futRead, withLocs_memOk, Loc_read_memOk, parkMonitor_memOk, modThread_memOk, acquireSide_memOk, advance_memOk, foldl_memOk]

@[simp] theorem futwait_memOk {f} (h : s.memOk) : (Machine.futwait f s).memOk := by simp [Machine.futwait, h]
@[simp] theorem futpoll_memOk {f} (h : s.memOk) : (Machine.futpoll f s).memOk := by simp [Machine.futpoll, h]

theorem poolPop_memOk {w va mode pa} {a t} (h : s.memOk) (e : poolPop w va mode pa s = .ok (a, t)) : t.memOk := by
  grind [poolPop, farRead_memOk, vaRead_memOk, farWrite_memOk]

theorem poolPush_memOk {w va mode pa node} {t} (h : s.memOk) (e : poolPush w va mode pa node s = .ok t) : t.memOk := by
  grind [poolPush, farRead_memOk, vaWrite_memOk, farWrite_memOk]

theorem poolRun_memOk {f op ps} (h : s.memOk) (hop : ∀ m pa l s t, s.memOk → op m pa l s = .ok t → t.memOk) : (poolRun f op ps s).memOk := by
  unfold poolRun
  extract_lets r
  have hr : ∀ t, r = .ok t → t.memOk := by
    refine List.foldlRecOn (motive := fun acc : Except (Lane × PoolErr) State => ∀ t, acc = .ok t → t.memOk) _ _ ?_ fun acc hacc c _ t e => ?_
    · rintro t ⟨⟩
      exact advance_memOk h
    · grind
  clear_value r
  split
  · exact hr _ rfl
  · split
    · exact poisonTrap_memOk h
    · exact trapOne_memOk h

@[simp] theorem poola_memOk {f} (h : s.memOk) : (poola f s).memOk := by
  refine withLocs_memOk h fun ps s h => poolRun_memOk h fun m pa l s t h e => ?_
  split at e
  · cases e
  · next hu =>
    cases e
    exact replayAtomic_memOk (acquireSide_memOk (modThread_memOk (poolPop_memOk h hu)))

@[simp] theorem poolf_memOk {f} (h : s.memOk) : (poolf f s).memOk :=
  withLocs_memOk h fun _ _ h => poolRun_memOk h fun _ _ _ _ _ h e => poolPush_memOk (releaseSide_memOk h) e

@[simp] theorem submit_memOk {f make} (h : s.memOk) : (submit f make s).memOk := by
  grind [submit, checkedAddrs_memOk, waitAll_memOk, modCluster_memOk, devPut_memOk, advance_memOk, foldl_memOk]

@[simp] theorem qcol_memOk {f} (h : s.memOk) : (Machine.qcol f s).memOk := by simp [Machine.qcol, h]
@[simp] theorem qocc_memOk {f} (h : s.memOk) : (Machine.qocc f s).memOk := by simp [Machine.qocc, h]
@[simp] theorem queryGet_memOk {q va} (h : s.memOk) : (queryGet q va s).2.memOk := by simp [queryGet, h]

/-- `visit` is unfolded by `delta`: Lean does not derive its equations within its limits. -/
theorem visit_memOk {q fuel node m e acc} (h : acc.2.memOk) : (visit q fuel node m e acc).2.memOk := by
  induction fuel using Nat.rec generalizing node m e acc with
  | zero =>
    delta visit Nat.brecOn Nat.brecOn.go visit._f
    dsimp only
    split
    · exact h
    split
    · exact h
    split
    · exact queryGet_memOk h
    · next bs _ =>
      generalize leAt bs 0 4 % 4 = kind
      rcases kind with _ | _ | _ | _ | kind <;> exact queryGet_memOk h
  | succ n ih =>
    delta visit Nat.brecOn Nat.brecOn.go visit._f
    dsimp only
    split
    · exact h
    split
    · exact h
    split
    · exact queryGet_memOk h
    · next bs _ =>
      generalize leAt bs 0 4 % 4 = kind
      rcases kind with _ | _ | _ | _ | kind
      case succ.succ.succ.zero =>
        exact List.foldlRecOn (motive := fun acc : Except Byte (Nat × Nat) × State => acc.2.memOk) _ _ (queryGet_memOk h)
          fun acc hacc i _ => by set_option smartUnfolding false in exact ih hacc
      all_goals exact queryGet_memOk h

@[simp] theorem locate_memOk {q p fuel node m e} (h : s.memOk) : (locate q p fuel node m e s).2.memOk := by
  induction fuel generalizing node m e s with
  | zero =>
    unfold locate
    simp only
    split
    · exact queryGet_memOk h
    split
    · next hn => cases hn
    · exact queryGet_memOk h
    · exact queryGet_memOk h
  | succ n ih =>
    unfold locate
    simp only
    split
    · exact queryGet_memOk h
    split
    · next hn =>
      cases hn
      exact ih (queryGet_memOk h)
    · exact queryGet_memOk h
    · exact queryGet_memOk h

@[simp] theorem queryValue_memOk {q} (h : s.memOk) : (queryValue q s).2.memOk := by
  have hroot : (queryGet q q.tree.toNat s).2.memOk := queryGet_memOk h
  simp only [queryValue]
  split
  · exact hroot
  split
  · split
    · exact hroot
    · exact locate_memOk hroot
  · split <;> exact visit_memOk hroot

@[simp] theorem queryComplete_memOk {cluster} (h : s.memOk) : (Machine.queryComplete cluster s).memOk := by
  grind [Machine.queryComplete, queryValue_memOk, modCluster_memOk, writeFuture_memOk, wakeEngine_memOk, foldl_memOk]

@[simp] theorem wakeTasks_memOk (h : s.memOk) : (wakeTasks s).memOk := by simp [wakeTasks, h]
@[simp] theorem yieldExpiry_memOk {thread} (h : s.memOk) : (Machine.yieldExpiry thread s).memOk := by simp [Machine.yieldExpiry, h]

@[simp] theorem deadlineFire_memOk {grid} (h : s.memOk) : (Machine.deadlineFire grid s).memOk := by
  grind [Machine.deadlineFire, cancelGrid_memOk, modGrid_memOk, emitBins_memOk, emitSaved_memOk, foldl_memOk]

@[simp] theorem gridDrain_memOk {grid} (h : s.memOk) : (Machine.gridDrain grid s).memOk := by simp [Machine.gridDrain, h]

@[simp] theorem taskEmissionResume_memOk {grid} (h : s.memOk) : (Machine.taskEmissionResume grid s).memOk := by
  simp [Machine.taskEmissionResume, h]

@[simp] theorem lqTailWrite_memOk {queue tail} (h : s.memOk) : (Machine.lqTailWrite queue tail s).memOk := by simp [Machine.lqTailWrite, h]

@[simp] theorem launchAcceptResume_memOk {queue} (h : s.memOk) : (Machine.launchAcceptResume queue s).memOk := by
  simp [Machine.launchAcceptResume, h]

@[simp] theorem binTimeout_memOk {core bin} (h : s.memOk) : (Machine.binTimeout core bin s).memOk := by
  simp only [Machine.binTimeout]
  split <;> simp [h]

/-! ### The operations of Place.lean -/

@[simp] theorem setSplit_memOk {c n} (h : s.memOk) : (setSplit c n s).memOk := by
  grind [setSplit, modCore_memOk, evictLine_memOk, backHome_memOk, foldl_memOk, getD_memOk]

@[simp] theorem openCore_memOk {c k saved} (h : s.memOk) : (openCore c k saved s).memOk := by
  simp only [openCore]
  split <;> simp [h]

@[simp] theorem addThread_memOk {a0} (h : s.memOk) : (addThread a0 s).memOk := by simp [addThread, h]
@[simp] theorem markRunning_memOk {k} (h : s.memOk) : (markRunning k s).memOk := by simp [markRunning, h]

theorem startTeam_memOk {c k rec_ idx assign ch role} (h : s.memOk) : (startTeam c k rec_ idx assign ch role s).2.memOk := by
  simp only [startTeam]
  refine markRunning_memOk (foldl_memOk (modWork_padsOk (openCore_memOk h) (padsOk_put (teams_padsOk (openCore_memOk h)) rfl)) fun s hst h => ?_)
  exact foldl_memOk h fun s i h => addThread_memOk h

theorem placeOne_memOk {c k idx ch a t} (h : s.memOk) (e : placeOne c k idx ch s = some (a, t)) : t.memOk := by
  have hstart {c role} {s : State} {o : Option (ℕ × List (ℕ × List ℕ))} (h : s.memOk) {p}
      (e : o.map (fun a => startTeam c k a.1 idx a.2 ch role s) = some p) : p.2.memOk := by
    obtain ⟨a, -, rfl⟩ := Option.map_eq_some_iff.1 e
    exact startTeam_memOk h
  simp only [placeOne] at e
  split at e
  · exact hstart h e
  split at e
  · cases e
  split at e
  · cases e
  next p hp =>
  split at e
  · cases e
  next q hq =>
  cases e
  exact modTeam_memOk (hstart (hstart h hp) hq) fun _ => rfl

theorem gangPlace_memOk {c g put is used first a t} (h : s.memOk) (hput : ∀ k i s a t, s.memOk → put k i s = some (a, t) → t.memOk)
    (e : gangPlace c g put is used first s = some (a, t)) : t.memOk := by
  induction is generalizing used first s with
  | nil =>
    obtain ⟨k, -, hk⟩ := Option.map_eq_some_iff.1 e
    cases hk
    exact h
  | cons i is ih =>
    simp only [gangPlace] at e
    split at e
    · cases e
    · next hu =>
      obtain ⟨k, -, hk⟩ := List.exists_of_findSome?_eq_some hu
      obtain ⟨p, hp, hkp⟩ := Option.map_eq_some_iff.1 hk
      cases hkp
      exact ih (hput _ _ _ _ _ h hp) e

@[simp] theorem fillWave_memOk {wk hw entry copy cs} (h : s.memOk) : (fillWave wk hw entry copy cs s).memOk := by
  grind [fillWave, setWave_memOk, addThread_memOk, foldl_memOk]

theorem joinTeam_memOk {c k team entry copy cs t} (h : s.memOk) (e : joinTeam c k team entry copy cs s = some t) : t.memOk := by
  simp only [joinTeam] at e
  split at e
  · split at e
    · cases e
    · cases e
      exact fillWave_memOk h
  · split at e
    · cases e
    · obtain ⟨⟨q, b, hw⟩, -, rfl⟩ := Option.map_eq_some_iff.1 e
      exact fillWave_memOk (modWork_memOk (modTeam_memOk h fun _ => rfl) rfl)

theorem placeThreads_memOk {c k origin entry cs a t} (h : s.memOk) (e : placeThreads c k origin entry cs s = some (a, t)) : t.memOk := by
  obtain ⟨host, -, e⟩ := Option.bind_eq_some_iff.1 e
  obtain ⟨s1, h1, e⟩ := Option.bind_eq_some_iff.1 e
  have hs1 := joinTeam_memOk h h1
  split at e
  · split at e
    · obtain ⟨s2, h2, hp⟩ := Option.map_eq_some_iff.1 e
      cases hp
      exact joinTeam_memOk hs1 h2
    · cases e
  · cases e
    exact hs1

theorem restoreOne_memOk {c k t} (h : s.memOk) (e : restoreOne c k s = some t) : t.memOk := by
  simp only [restoreOne] at e
  split at e
  · cases e
  split at e
  · cases e
  obtain ⟨a, -, rfl⟩ := Option.map_eq_some_iff.1 e
  exact modCore_memOk (acquireSide_memOk (modWork_memOk (setTeam_memOk (openCore_memOk h) (team_canonical h)) rfl))

theorem restoreUnit_memOk {c k a t} (h : s.memOk) (e : restoreUnit c k s = some (a, t)) : t.memOk := by
  unfold restoreUnit at e
  split at e
  · split at e
    · cases e
    · obtain ⟨s2, h2, hp⟩ := Option.map_eq_some_iff.1 e
      obtain ⟨s1, h1, h2⟩ := Option.bind_eq_some_iff.1 h2
      cases hp
      exact restoreOne_memOk (restoreOne_memOk h h1) h2
  · obtain ⟨s1, h1, hp⟩ := Option.map_eq_some_iff.1 e
    cases hp
    exact restoreOne_memOk h h1

theorem placeKind_memOk {k c a t} (h : s.memOk) (e : placeKind k c s = some (a, t)) : t.memOk := by
  simp only [placeKind] at e
  split at e
  · split at e
    · exact placeOne_memOk h e
    · exact gangPlace_memOk h (fun _ _ _ _ _ h e => placeOne_memOk h e) e
  · exact placeOne_memOk h e
  · exact placeThreads_memOk h e
  · split at e
    · exact restoreUnit_memOk h e
    · exact gangPlace_memOk h (fun _ _ _ _ _ h e => restoreUnit_memOk h e) e

theorem placeTask_memOk {key c t} (h : s.memOk) (e : placeTask key c s = some t) : t.memOk := by
  unfold placeTask at e
  split at e
  · cases e
  split at e
  · cases e
  obtain ⟨⟨a, u⟩, hp, e⟩ := Option.bind_eq_some_iff.1 e
  have hu : u.memOk := placeKind_memOk (modWork_memOk h rfl) hp
  simp only at e
  split at e
  · cases e
  cases e
  refine wakeTasks_memOk ?_
  split
  · refine replayPut_memOk ?_
    split
    · exact replayTaken_memOk hu
    · exact hu
  · split
    · exact replayTaken_memOk hu
    · exact hu

@[simp] theorem returnStrays_memOk {c} (h : s.memOk) : (returnStrays c s).memOk := by simp [returnStrays, h]

@[simp] theorem dispatchFor_memOk {c allow} (h : s.memOk) : (dispatchFor c allow s).memOk := by
  grind [dispatchFor, returnStrays_memOk, placeTask_memOk, getD_memOk]

@[simp] theorem dispatchDecision_memOk {core} (h : s.memOk) : (Machine.dispatchDecision core s).memOk := by simp [Machine.dispatchDecision, h]
@[simp] theorem carried_memOk {core task} (h : s.memOk) : (carried core task s).memOk := by simp [carried, h]

@[simp] theorem teamRestore_memOk {core task} (h : s.memOk) : (Machine.teamRestore core task s).memOk := by
  grind [Machine.teamRestore, placeTask_memOk, carried_memOk, getD_memOk]

/-! ### The operations of Sched.lean -/

@[simp] theorem saveTeam_memOk {team} (h : s.memOk) : (saveTeam team s).memOk := by
  unfold saveTeam
  extract_lets +lift tm g
  split
  · exact h
  · extract_lets x owns sus stays last gone s1 s2 s3 shape s4 s5
    have hs1 : s1.memOk := foldl_memOk (releaseSide_memOk h) fun _ _ h => dissolve_memOk h
    have hs3 : s3.memOk := modTeam_memOk (modWork_memOk hs1 rfl) fun _ => rfl
    have hs4 : s4.memOk := modWork_padsOk hs3 (padsOk_map (teams_padsOk hs3) fun e => by split <;> rfl)
    exact wakeEngine_memOk (modCore_memOk hs4)

@[simp] theorem vacateUpdate_memOk {cl} (h : s.memOk) : (vacateUpdate cl s).memOk := by
  simp only [vacateUpdate]
  (repeat' split) <;> simp +contextual [h]

@[simp] theorem finishPreempt_memOk {team} (h : s.memOk) : (finishPreempt team s).memOk := by
  unfold finishPreempt
  extract_lets +lift ms asleep cs s0 s1 s2
  have hs0 : s0.memOk := by
    unfold s0
    split
    · exact h
    · exact foldl_memOk h fun _ _ h => leaveWait_memOk h
  have hs1 : s1.memOk := foldl_memOk hs0 fun _ _ h => saveTeam_memOk h
  have hs2 : s2.memOk := by
    unfold s2
    split
    · exact hs1
    · exact requeue_memOk hs1
  split
  · exact h
  · exact foldl_memOk hs2 fun _ _ h => vacateUpdate_memOk h

@[simp] theorem stopGang_memOk {team} (h : s.memOk) : (stopGang team s).memOk :=
  finishPreempt_memOk (foldl_memOk h fun _ _ h => modTeam_memOk h fun _ => rfl)

@[simp] theorem preemption_memOk {team} (h : s.memOk) : (preemption team s).memOk := by
  unfold preemption
  split
  · exact h
  split
  · exact stopGang_memOk (foldl_memOk h fun _ _ h => modTeam_memOk h fun _ => rfl)
  · exact stopGang_memOk h

@[simp] theorem preemptCores_memOk {cs} (h : s.memOk) : (preemptCores cs s).memOk := by
  simp only [preemptCores]
  (repeat' split) <;> simp +contextual [h]

@[simp] theorem contextSwitch_memOk {core} (h : s.memOk) : (Machine.contextSwitch core s).memOk := by simp [Machine.contextSwitch, h]

@[simp] theorem hlyVacWrite_memOk {cluster w} (h : s.memOk) : (Machine.hlyVacWrite cluster w s).memOk := by
  grind [Machine.hlyVacWrite, modCluster_memOk, vacateUpdate_memOk, preemptCores_memOk]

@[simp] theorem vacateHoldExpiry_memOk {cluster} (h : s.memOk) : (Machine.vacateHoldExpiry cluster s).memOk := by
  grind [Machine.vacateHoldExpiry, modCore_memOk, foldl_memOk]

@[simp] theorem thermalMigrationScan_memOk {temps} (h : s.memOk) : (thermalMigrationScan temps s).memOk := by
  unfold thermalMigrationScan
  split
  · exact h
  refine foldl_memOk h fun s e h => ?_
  extract_lets c fresh
  split
  · exact h
  split
  · exact h
  · exact stopGang_memOk (foldl_memOk (modCore_memOk h) fun _ _ h => modTeam_memOk h fun _ => rfl)

@[simp] theorem moveTasks_memOk {i j n} (h : s.memOk) : (moveTasks i j n s).memOk := by simp +contextual [moveTasks, h]

@[simp] theorem neighbourAveraging_memOk (h : s.memOk) : (Machine.neighbourAveraging s).memOk := by
  grind [Machine.neighbourAveraging, moveTasks_memOk, foldl_memOk]

@[simp] theorem taskTransitArrival_memOk {task} (h : s.memOk) : (Machine.taskTransitArrival task s).memOk := by
  simp only [Machine.taskTransitArrival]
  split <;> simp [h]

@[simp] theorem l1SplitChange_memOk {core} (h : s.memOk) : (Machine.l1SplitChange core s).memOk := by
  simp only [Machine.l1SplitChange]
  split <;> simp [h]

@[simp] theorem releaseGroup_memOk {c} (h : s.memOk) : (releaseGroup c s).memOk := by
  grind [releaseGroup, emptyBin_memOk, logCore_memOk, modCore_memOk, wakeEngine_memOk, foldl_memOk]

@[simp] theorem teamRetire_memOk {team} (h : s.memOk) : (Machine.teamRetire team s).memOk := by
  grind [Machine.teamRetire, releaseGroup_memOk, modWork_memOk, modCtx_memOk, modHome_memOk, leaveGroup?_memOk, modCore_memOk, freeLineages_memOk,
    vacateUpdate_memOk, padsOk_put, padsOk_del, padsOk_map, teams_padsOk, modWork_padsOk, memOk_mk, mem_canonical]

@[simp] theorem formWave_memOk {c q slot team hoist pc ts} (h : s.memOk) : (formWave c q slot team hoist pc ts s).memOk := by
  grind [formWave, modWork_memOk, modThread_memOk, foldl_memOk]

@[simp] theorem waveFormation_memOk {core quad} (h : s.memOk) : (Machine.waveFormation core quad s).memOk := by
  simp only [Machine.waveFormation]
  (repeat' split) <;> simp +contextual [h]

@[simp] theorem formingWaveTimeout_memOk {wave} (h : s.memOk) : (Machine.formingWaveTimeout wave s).memOk := by
  simp only [Machine.formingWaveTimeout]
  split <;> simp [h]

@[simp] theorem setPage_memOk {team page p} (h : s.memOk) : (setPage team page p s).memOk := by simp [setPage, h]
@[simp] theorem dropPage_memOk {team page} (h : s.memOk) : (dropPage team page s).memOk := by simp [dropPage, h]

@[simp] theorem refillFails_memOk {c team page off} (h : s.memOk) : (refillFails c team page off s).memOk := by
  grind [refillFails, logDev_memOk, mxHalt_memOk, takePriv_memOk, dropPage_memOk, foldl_memOk]

@[simp] theorem wakePages_memOk (h : s.memOk) : (wakePages s).memOk := by simp [wakePages, h]

@[simp] theorem scratchpadRefill_memOk {team page} (h : s.memOk) : (Machine.scratchpadRefill team page s).memOk := by
  simp only [Machine.scratchpadRefill]
  (repeat' split) <;> simp +contextual [h]

/-! ### The operations of System.lean -/

@[simp] theorem endHandler_memOk {c} (h : s.memOk) : (endHandler c s).memOk := by
  grind [endHandler, leaveWait_memOk, modWork_memOk, freeLineages_memOk, modCore_memOk, foldl_memOk]

@[simp] theorem retireTrapped_memOk {p} (h : s.memOk) : (retireTrapped p s).memOk := by simp +contextual [retireTrapped, h]
@[simp] theorem failTrap_memOk {p cause} (h : s.memOk) : (failTrap p cause s).memOk := by simp [failTrap, h]

@[simp] theorem failServed_memOk {c cause} (h : s.memOk) : (failServed c cause s).memOk := by
  simp only [failServed]
  split <;> simp [h]

@[simp] theorem trapServe_memOk {core} (h : s.memOk) : (Machine.trapServe core s).memOk := by
  grind [Machine.trapServe, modCore_memOk, vaWrite_memOk, logCore_memOk, failTrap_memOk, addThread_memOk, foldl_memOk]

@[simp] theorem eretWith_memOk {f act} (h : s.memOk) (hact : ∀ x1 x2 s, s.memOk → (act x1 x2 s).memOk) : (eretWith f act s).memOk := by
  simp only [eretWith]
  (repeat' split) <;> simp +contextual [h, hact]

@[simp] theorem eretFailing_memOk {c p} (h : s.memOk) : (eretFailing c p s).memOk := by simp [eretFailing, h]

@[simp] theorem eret_memOk {f} (h : s.memOk) : (Machine.eret f s).memOk := by
  grind [Machine.eret, eretWith_memOk, eretFailing_memOk, takePriv_memOk, modThreads_memOk, endHandler_memOk]

@[simp] theorem eretExit_memOk {f} (h : s.memOk) : (Machine.eretExit f s).memOk := by
  grind [Machine.eretExit, eretWith_memOk, retireTrapped_memOk, endHandler_memOk]

@[simp] theorem eretFail_memOk {f} (h : s.memOk) : (Machine.eretFail f s).memOk := by simp +contextual [Machine.eretFail, h]

@[simp] theorem eretEWith_memOk {f bad act} (h : s.memOk) : (eretEWith f bad act s).memOk := by
  grind [eretEWith, modThreads_memOk, advance_memOk, takeUsers_memOk]

@[simp] theorem eretE_memOk {f} (h : s.memOk) : (Machine.eretE f s).memOk := by simp [Machine.eretE, h]
@[simp] theorem eretEDone_memOk {f} (h : s.memOk) : (Machine.eretEDone f s).memOk := by simp [Machine.eretEDone, h]
@[simp] theorem eretEDone64_memOk {f} (h : s.memOk) : (Machine.eretEDone64 f s).memOk := by simp [Machine.eretEDone64, h]
@[simp] theorem sreg_memOk {f} (h : s.memOk) : (Machine.sreg f s).memOk := by simp [Machine.sreg, h]

@[simp] theorem swr_memOk {f} (h : s.memOk) : (Machine.swr f s).memOk := by
  simp only [Machine.swr]
  (repeat' split) <;> simp +contextual [h]

@[simp] theorem trap_memOk {f} (h : s.memOk) : (Machine.trap f s).memOk := by simp [Machine.trap, h]

@[simp] theorem trapPriv_memOk {f} (h : s.memOk) : (Machine.trapPriv f s).memOk := by
  simp only [Machine.trapPriv]
  split <;> simp [h]

@[simp] theorem bkpt_memOk {f} (h : s.memOk) : (Machine.bkpt f s).memOk := by simp [Machine.bkpt, h]

@[simp] theorem mark_memOk {f} (h : s.memOk) : (Machine.mark f s).memOk := by
  grind [Machine.mark, waveOnce_memOk, advance_memOk, putRecord_memOk]

@[simp] theorem smpl_memOk {f} (h : s.memOk) : (Machine.smpl f s).memOk := by
  grind [Machine.smpl, waveOnce_memOk, advance_memOk, modThreads_memOk]

/-! ### The operations of Control.lean -/

@[simp] theorem transfer_memOk {f target link} (h : s.memOk) : (transfer f target link s).memOk := by
  grind [transfer, modThread_memOk, advance_memOk, takePrivs_memOk, foldl_memOk]

@[simp] theorem bra_memOk {f} (h : s.memOk) : (Machine.bra f s).memOk := by simp [Machine.bra, h]
@[simp] theorem brx_memOk {f} (h : s.memOk) : (Machine.brx f s).memOk := by simp [Machine.brx, h]
@[simp] theorem call_memOk {f} (h : s.memOk) : (Machine.call f s).memOk := by simp [Machine.call, h]
@[simp] theorem callx_memOk {f} (h : s.memOk) : (Machine.callx f s).memOk := by simp [Machine.callx, h]
@[simp] theorem ret_memOk {f} (h : s.memOk) : (Machine.ret f s).memOk := by simp [Machine.ret, h]
@[simp] theorem nop_memOk {a0} (h : s.memOk) : (Machine.nop a0 s).memOk := by simp [Machine.nop, h]

/-! ### The operations of Bar.lean -/

@[simp] theorem barFence_memOk {a1} (h : s.memOk) : (barFence s a1).memOk := by
  simp only [barFence]
  (repeat' split) <;> simp +contextual [h]

@[simp] theorem releaseBar_memOk {form g} (h : s.memOk) : (releaseBar form g s).memOk := by
  grind [releaseBar, modThread_memOk, barFence_memOk, foldl_memOk]

@[simp] theorem resolveBarGroup_memOk {form team pc cnt} (h : s.memOk) : (resolveBarGroup form team pc cnt s).memOk := by
  simp only [resolveBarGroup]
  (repeat' split) <;> simp +contextual [h]

@[simp] theorem resolveBars_memOk {team} (h : s.memOk) : (resolveBars team s).memOk := by
  grind [resolveBars, resolveBarGroup_memOk, foldl_memOk]

@[simp] theorem bar_memOk {f} (h : s.memOk) : (Machine.bar f s).memOk := by
  grind [Machine.bar, resolveWaves_memOk, arrive_memOk, trapAll_memOk, releaseFirst_memOk, fenceSides_memOk, resolveBars_memOk]

/-! ### The operations of Seq.lean -/

@[simp] theorem setSeq_memOk {i q} (h : s.memOk) : (State.setSeq i q s).memOk := by simp [State.setSeq, h]

theorem endSeq_memOk {n i} (h : s.memOk) : (endSeq n i s).memOk := by
  induction n generalizing i s with
  | zero => exact h
  | succ n ih =>
    simp only [endSeq]
    split
    · exact setSeq_memOk h
    · split
      · exact ih (setSeq_memOk h)
      · exact setSeq_memOk h

@[simp] theorem freeSeqs_memOk {x} (h : s.memOk) : (freeSeqs x s).memOk := by simp [freeSeqs, h]
@[simp] theorem takeSeq_memOk {f after ts} (h : s.memOk) : (takeSeq f after ts s).memOk := by simp +contextual [takeSeq, h]

theorem eachSeq_memOk {f op} (h : s.memOk) (hop : ∀ x1 s, s.memOk → (op x1 s).2.memOk) : (eachSeq f op s).memOk := by
  unfold eachSeq
  extract_lets here r outs users mems
  have hr : r.1.memOk := by
    refine List.foldlRecOn (motive := fun acc : State × List (Lane × SeqOut) => acc.1.memOk) _ _ (advance_memOk h) fun acc hacc l _ => ?_
    have ho := hop l _ hacc
    simp only
    split
    · exact modThread_memOk ho
    · exact modThread_memOk ho
    · exact ho
  exact takePrivs_memOk (takeSeq_memOk (takeSeq_memOk hr))

@[simp] theorem notify_memOk {w i p} (h : s.memOk) : (notify w i p s).memOk := by
  grind [notify, setSeq_memOk, releaseSide_memOk, logCore_memOk, agentWrite_memOk]

theorem pennantFork_memOk {w i p pre} (h : s.memOk) : (pennantFork w i p pre s).2.memOk := by
  simp only [pennantFork]
  split
  · exact h
  split
  · exact logCore_memOk h
  split
  · exact logCore_memOk h
  split
  · exact logCore_memOk h
  · next hu =>
    have hs1 := poolPop_memOk h hu
    split
    · exact hs1
    · exact setSeq_memOk (setSeq_memOk hs1)

theorem applyEffects_memOk {w i es} (h : s.memOk) : (applyEffects w i es s).2.memOk := by
  refine List.foldlRecOn (motive := fun acc : Nat × State => acc.2.memOk) _ _ h fun acc hacc e _ => ?_
  cases e with
  | notify p => exact notify_memOk hacc
  | fork p pre => exact pennantFork_memOk hacc

theorem commitOne_memOk {f conf l} (h : s.memOk) : (commitOne f conf l s).2.memOk := by
  unfold commitOne
  extract_lets w k b cost
  split
  · exact h
  next i q _ =>
  generalize (if conf = true then decide (b > q.drafts.length) else decide (b > 0xFFFF)) = tooMany
  split
  · exact h
  split
  · exact h
  extract_lets toks es c0
  clear_value toks c0
  split
  · split
    · exact h
    · split <;> exact h
  split
  · exact h
  · extract_lets c
    split
    · exact h
    split
    · exact h
    · next hu =>
      have hs1 := vaWrite_memOk h hu
      extract_lets r d
      have hr : r.2.memOk := applyEffects_memOk (setSeq_memOk hs1)
      split <;> exact hr

@[simp] theorem seqcommit_memOk {f} (h : s.memOk) : (Machine.seqcommit f s).memOk := by
  grind [Machine.seqcommit, eachSeq_memOk, commitOne_memOk]

@[simp] theorem seqcommitConf_memOk {f} (h : s.memOk) : (Machine.seqcommitConf f s).memOk := by
  grind [Machine.seqcommitConf, eachSeq_memOk, commitOne_memOk]

@[simp] theorem draftOne_memOk {f l} (h : s.memOk) : (draftOne f l s).2.memOk := by
  simp only [draftOne]
  (repeat' split) <;> simp +contextual [h]

@[simp] theorem seqdraft_memOk {f} (h : s.memOk) : (Machine.seqdraft f s).memOk := by
  grind [Machine.seqdraft, eachSeq_memOk, draftOne_memOk]

@[simp] theorem onSeq_memOk {f op} (h : s.memOk) (hop : ∀ x1 x2 x3 s, s.memOk → (op x1 x2 x3 s).2.memOk) : (onSeq f op s).memOk := by
  grind [onSeq, eachSeq_memOk]

@[simp] theorem seqrej_memOk {f} (h : s.memOk) : (Machine.seqrej f s).memOk := by simp +contextual [Machine.seqrej, h]

@[simp] theorem seqend_memOk {f} (h : s.memOk) : (Machine.seqend f s).memOk := by
  grind [Machine.seqend, onSeq_memOk, endSeq_memOk]

@[simp] theorem seqrd_memOk {f} (h : s.memOk) : (Machine.seqrd f s).memOk := by simp [Machine.seqrd, h]

@[simp] theorem withDescs_memOk {f o desHandle pre act} (h : s.memOk) (hact : ∀ x1 x2 s, s.memOk → (act x1 x2 s).2.memOk) :
    (withDescs f o desHandle pre act s).memOk := by
  grind [withDescs, memTrap_memOk, poisonTrap_memOk, eachSeq_memOk]

@[simp] theorem seqnew_memOk {f} (h : s.memOk) : (Machine.seqnew f s).memOk := by
  grind [Machine.seqnew, withDescs_memOk, setSeq_memOk]

@[simp] theorem seqfork_memOk {f} (h : s.memOk) : (Machine.seqfork f s).memOk := by
  grind [Machine.seqfork, withDescs_memOk, setSeq_memOk]

@[simp] theorem pnset_memOk {f} (h : s.memOk) : (Machine.pnset f s).memOk := by
  grind [Machine.pnset, waveOnce_memOk, onceTrap_memOk, vaRead_memOk, poisonTrap_memOk, modCtx_memOk, advance_memOk, takeSeq_memOk]

@[simp] theorem pnclr_memOk {f} (h : s.memOk) : (Machine.pnclr f s).memOk := by
  grind [Machine.pnclr, waveOnce_memOk, modCtx_memOk, advance_memOk]

@[simp] theorem sampleOne_memOk {f acc logits l} (h : s.memOk) : (sampleOne f acc logits l s).2.memOk := by
  simp only [sampleOne]
  (repeat' split) <;> simp +contextual [h]

@[simp] theorem sample_memOk {f} (h : s.memOk) : (Machine.sample f s).memOk := by
  grind [Machine.sample, memTrap_memOk, waitPages_memOk, poisonTrap_memOk, eachSeq_memOk, sampleOne_memOk, touchPages_memOk, foldl_memOk]

@[simp] theorem sampleAcc_memOk {f} (h : s.memOk) : (Machine.sampleAcc f s).memOk := by
  grind [Machine.sampleAcc, withGroup_memOk, eachSeq_memOk, sampleOne_memOk]
end

end Sys2Proof.Proofs
end

section
/-!
PROOFS. Contexts and worlds, freezes, the fabric, the host's accesses, ordering, power and the registers keep memories canonical
(spec 11, 13, 19, 22, 23). A granule that leaves the secure world is filled with zeros, which leave no byte in the list.
-/
namespace Sys2Proof.Proofs
open Machine Laws

section
variable {s : State}

/-! ### The operations of Isolation.lean -/

@[simp] theorem ctxFault_memOk {f reason} (h : s.memOk) : (ctxFault f reason s).memOk := by simp [ctxFault, h]
@[simp] theorem worldFault_memOk {f} (h : s.memOk) : (worldFault f s).memOk := by simp [worldFault, h]
@[simp] theorem operandFault_memOk {f} (h : s.memOk) : (operandFault f s).memOk := by simp [operandFault, h]

@[simp] theorem fencedSys_memOk {f act} (h : s.memOk) (hact : ∀ s, s.memOk → (act s).memOk) : (fencedSys f act s).memOk := by
  grind [fencedSys, releaseFirst_memOk, fenceSides_memOk]

@[simp] theorem dropTlb_memOk {hit} (h : s.memOk) : (dropTlb hit s).memOk := by simp [dropTlb, h]

@[simp] theorem tlbinvWith_memOk {f named hit} (h : s.memOk) : (tlbinvWith f named hit s).memOk := by
  grind [tlbinvWith, waitAll_memOk, advance_memOk, dropTlb_memOk, fenceSides_memOk]

@[simp] theorem withTlbCtx_memOk {f act} (h : s.memOk) (hact : ∀ x1 x2 s, s.memOk → (act x1 x2 s).memOk) : (withTlbCtx f act s).memOk := by
  simp +contextual [withTlbCtx, h, hact]

@[simp] theorem tlbinvPage_memOk {f} (h : s.memOk) : (Machine.tlbinvPage f s).memOk := by simp +contextual [Machine.tlbinvPage, h]
@[simp] theorem tlbinvCtx_memOk {f} (h : s.memOk) : (Machine.tlbinvCtx f s).memOk := by simp +contextual [Machine.tlbinvCtx, h]
@[simp] theorem tlbinvAll_memOk {f} (h : s.memOk) : (Machine.tlbinvAll f s).memOk := by simp +contextual [Machine.tlbinvAll, h]

@[simp] theorem ctxsetNew_memOk {f} (h : s.memOk) : (Machine.ctxsetNew f s).memOk := by
  grind [Machine.ctxsetNew, waveOnce_memOk, vaRead_memOk, onceTrap_memOk, worldFault_memOk, ctxFault_memOk, doneWith_memOk, setCtx_memOk]

@[simp] theorem withLive_memOk {f act} (h : s.memOk) (hact : ∀ x1 x2 s, s.memOk → (act x1 x2 s).memOk) : (withLive f act s).memOk := by
  simp +contextual [withLive, h, hact]

@[simp] theorem ctxsetRoot_memOk {f} (h : s.memOk) : (Machine.ctxsetRoot f s).memOk := by
  grind [Machine.ctxsetRoot, withLive_memOk, ctxFault_memOk, tlbinvWith_memOk, modCtx_memOk]

theorem cancelEntries_memOk {q n} (h : s.memOk) : (cancelEntries q n s).memOk := by
  induction n generalizing s with
  | zero => exact h
  | succ n ih =>
    simp only [cancelEntries]
    split
    · exact h
    · refine ih ?_
      have hs1 : ((devGet (s.queue q).ctx ((s.queue q).base.toNat + 8 * ((s.queue q).head.toNat % 2 ^ (s.queue q).log2n)) 8 s).2.modQueue q
          fun v => { v with head := v.head + 1 }).memOk := modQueue_memOk (devGet_memOk h)
      split
      · split
        · exact hs1
        · exact writeCompletion_memOk (writeStatus_memOk hs1)
      · exact hs1

@[simp] theorem stopEngines_memOk {c} (h : s.memOk) : (stopEngines c s).memOk := by simp [stopEngines, h]

theorem tearDown_memOk {x} (h : s.memOk) : (tearDown x s).memOk := by
  unfold tearDown
  extract_lets ofGrid s0 s1 s2 s3 teams served s4 s5 ids s6 owned s7 s8 s9 s10 s11 live s12 s13
  have hs1 : s1.memOk := foldl_memOk (modCtx_memOk h) fun s q h => by
    split
    · exact modQueue_memOk (cancelEntries_memOk h)
    · exact h
  have hs2 : s2.memOk := foldl_memOk hs1 fun _ _ h => dropTask_memOk h
  have hs3 : s3.memOk := foldl_memOk hs2 fun _ _ h => foldl_memOk (modGrid_memOk h) fun _ _ h => leaveGroup?_memOk h
  have hs4 : s4.memOk := foldl_memOk hs3 fun _ _ h => endHandler_memOk h
  have hs6 : s6.memOk := foldl_memOk (s := s5) (memOk_of_eq hs4 rfl rfl) fun _ _ h => retireThread_memOk h
  have hs7 : s7.memOk := foldl_memOk hs6 fun _ _ h => stopEngines_memOk h
  clear_value s7
  have hs8 : s8.memOk := modWork_padsOk hs7 (padsOk_map (padsOk_filter (teams_padsOk hs7)) fun e => by split <;> rfl)
  have hs11 : s11.memOk := modFabric_memOk (expireLeases_memOk (modHome_memOk (freeSeqs_memOk (modCtx_memOk hs8))))
  exact memOk_of_eq (modWork_memOk (g := fun w => { w with lineages := w.lineages.filter fun e => e.2.ctx != x }) hs11 rfl) rfl rfl

@[simp] theorem freeCtx_memOk {x} (h : s.memOk) : (freeCtx x s).memOk := by
  grind [freeCtx, setCtx_memOk, dropTlb_memOk, padsOk_put, padsOk_del, padsOk_map, teams_padsOk, modWork_padsOk, memOk_mk, mem_canonical]

theorem ctxsetKill_memOk {f} (h : s.memOk) : (Machine.ctxsetKill f s).memOk := by
  refine withLive_memOk h fun x l s h => ?_
  split
  · exact ctxFault_memOk h
  extract_lets s1
  have hs1 : s1.memOk := by
    unfold s1
    split
    · exact modCtx_memOk (tearDown_memOk h)
    · exact h
  clear_value s1
  split
  · exact advance_memOk (freeCtx_memOk hs1)
  · exact waitAll_memOk hs1

theorem withBlock_memOk {f limit ok act} (h : s.memOk) (hact : ∀ x1 x2 x3 s, s.memOk → (act x1 x2 x3 s).memOk) :
    (withBlock f limit ok act s).memOk := by
  refine waveOnce_memOk h fun l s h => ?_
  extract_lets i w
  split
  · exact worldFault_memOk h
  split
  · exact ctxFault_memOk h
  · exact hact _ _ _ _ h

theorem wsetDone_memOk {f busy change} (h : s.memOk) (hchange : ∀ s, s.memOk → (change s).memOk) : (wsetDone f busy change s).memOk := by
  unfold wsetDone
  split
  · exact doneWith_memOk h
  · exact doneWith_memOk (hchange _ h)

@[simp] theorem wsetCore_memOk {f} (h : s.memOk) : (Machine.wsetCore f s).memOk := by
  grind [Machine.wsetCore, withBlock_memOk, wsetDone_memOk, modCore_memOk]

@[simp] theorem homeLine_memOk {line} (h : s.memOk) : (homeLine line s).memOk := by
  grind [homeLine, dropSwm_memOk, recallLine_memOk, settleLine_memOk, backHome_memOk, foldl_memOk]

@[simp] theorem flushLines_memOk {hit} (h : s.memOk) : (flushLines hit s).memOk := by
  grind [flushLines, l2Drop_memOk, homeLine_memOk, foldl_memOk]

@[simp] theorem wsetSlice_memOk {f} (h : s.memOk) : (Machine.wsetSlice f s).memOk := by
  grind [Machine.wsetSlice, withBlock_memOk, wsetDone_memOk, flushLines_memOk, padsOk_put, padsOk_del, padsOk_map, teams_padsOk, modWork_padsOk,
    memOk_mk, mem_canonical]

/-- A list of bytes is in canonical form above a bound exactly when its addresses rise from it and no byte is the default. -/
theorem wfFrom_iff {d : Byte} {m : Mem} {lo : Option Nat} : Mem.wfFrom d lo m = true ↔
    (∀ n, lo = some n → ∀ e ∈ m, n < e.1) ∧ m.Pairwise (fun a b => a.1 < b.1) ∧ ∀ e ∈ m, e.2 ≠ d := by
  induction m generalizing lo with
  | nil => simp [Mem.wfFrom]
  | cons e r ih =>
    obtain ⟨j, b⟩ := e
    simp only [Mem.wfFrom, Bool.and_eq_true, ih, List.pairwise_cons, List.forall_mem_cons, bne_iff_ne]
    cases lo with
    | none => simp; tauto
    | some n =>
      simp only [Option.some.injEq, forall_eq', decide_eq_true_eq]
      constructor
      · rintro ⟨⟨hn, hb⟩, hj, hp, hd⟩
        exact ⟨⟨hn, fun e he => hn.trans (hj e he)⟩, ⟨hj, hp⟩, hb, hd⟩
      · rintro ⟨⟨hn, -⟩, ⟨hj, hp⟩, hb, hd⟩
        exact ⟨⟨hn, hb⟩, hj, hp, hd⟩

/-- Filling a range with zeros takes its bytes out of the list. -/
theorem fill_canonical {m : Mem} {a n : Nat} (h : Canonical m) : Canonical (Mem.fill 0 m a n 0) := by
  obtain ⟨-, hp, hd⟩ := wfFrom_iff.1 h
  refine wfFrom_iff.2 ⟨by simp, ?_, ?_⟩
  · simp only [Mem.fill, if_true, List.append_nil, List.pairwise_append, List.mem_filter, decide_eq_true_eq]
    exact ⟨hp.filter _, hp.filter _, fun x ⟨_, hx⟩ y ⟨_, hy⟩ => by omega⟩
  · simp only [Mem.fill, if_true, List.append_nil, List.mem_append, List.mem_filter]
    rintro e (⟨he, -⟩ | ⟨he, -⟩) <;> exact hd e he

theorem zeroGranule_memOk {g} (h : s.memOk) : (zeroGranule g s).memOk := by
  have hfill : State.memOk { s with mem := Mem.fill 0 s.mem (g * 2 ^ 21) (2 ^ 21) 0 } := ⟨fill_canonical h.1, h.2⟩
  unfold zeroGranule
  refine foldl_memOk (modHome_memOk (foldl_memOk hfill fun s x h => ?_)) fun _ _ h => touchVersion_memOk h
  split
  · exact writeResv_memOk h
  · exact h

@[simp] theorem wsetGran_memOk {f} (h : s.memOk) : (Machine.wsetGran f s).memOk := by
  grind [Machine.wsetGran, waveOnce_memOk, worldFault_memOk, ctxFault_memOk, releaseFirst_memOk, waitAll_memOk, noteSnoop_memOk, flushLines_memOk,
    fenceSides_memOk, zeroGranule_memOk, doneWith_memOk, foldl_memOk, padsOk_put, padsOk_del, padsOk_map, teams_padsOk, modWork_padsOk, memOk_mk,
    mem_canonical]

theorem wsetPort_memOk {f} (h : s.memOk) : (Machine.wsetPort f s).memOk :=
  withBlock_memOk h fun _ _ _ _ h => wsetDone_memOk h fun _ h => h

theorem wsetFn_memOk {f} (h : s.memOk) : (Machine.wsetFn f s).memOk :=
  withBlock_memOk h fun _ _ _ _ h => wsetDone_memOk h fun _ h => h

@[simp] theorem withPages_memOk {f mode act} (h : s.memOk) (hact : ∀ x1 s, s.memOk → (act x1 s).memOk) : (withPages f mode act s).memOk := by
  grind [withPages, waveOnce_memOk, onceTrap_memOk, operandFault_memOk]

@[simp] theorem regionCoh_memOk {f} (h : s.memOk) : (Machine.regionCoh f s).memOk := by
  grind [Machine.regionCoh, withPages_memOk, fencedSys_memOk, homeLine_memOk, doneWith_memOk, foldl_memOk]

@[simp] theorem regionSwm_memOk {f} (h : s.memOk) : (Machine.regionSwm f s).memOk := by
  grind [Machine.regionSwm, withPages_memOk, fencedSys_memOk, doneWith_memOk, homeLine_memOk, foldl_memOk]

@[simp] theorem toHost_memOk {page} (h : s.memOk) : (toHost page s).memOk := by
  grind [toHost, l2Drop_memOk, homeLine_memOk, modHome_memOk, foldl_memOk]

@[simp] theorem biassetHost_memOk {f} (h : s.memOk) : (Machine.biassetHost f s).memOk := by
  grind [Machine.biassetHost, withPages_memOk, fencedSys_memOk, doneWith_memOk, toHost_memOk, foldl_memOk]

@[simp] theorem askLines_memOk {ls} (h : s.memOk) : (askLines ls s).memOk := by simp [askLines, h]

@[simp] theorem biassetDev_memOk {f} (h : s.memOk) : (Machine.biassetDev f s).memOk := by
  grind [Machine.biassetDev, withPages_memOk, releaseFirst_memOk, waitAll_memOk, askLines_memOk, fenceSides_memOk, l2Drop_memOk, homeLine_memOk,
    modHome_memOk, doneWith_memOk, foldl_memOk]

theorem withHomeWave_memOk {f act} (h : s.memOk) (hact : ∀ x1 x2 x3 s, s.memOk → (act x1 x2 x3 s).memOk) : (withHomeWave f act s).memOk := by
  refine waveOnce_memOk h fun l s h => ?_
  extract_lets sel hoist hw c ts
  split
  · exact operandFault_memOk h
  split
  · exact onceTrap_memOk h
  split
  · exact onceTrap_memOk h
  split
  · exact hact _ _ _ _ (modCore_memOk h)
  · exact waitAll_memOk (modCore_memOk h)

theorem wsave_memOk {f} (h : s.memOk) : (Machine.wsave f s).memOk := by
  refine withHomeWave_memOk h fun l sel ts s h => ?_
  split
  · exact onceTrap_memOk h
  · next hu => exact advance_memOk (vaWrite_memOk h hu)

@[simp] theorem applyImage_memOk {bs a1} (h : s.memOk) : (applyImage bs a1 s).memOk := by simp [applyImage, h]

theorem wrest_memOk {f} (h : s.memOk) : (Machine.wrest f s).memOk := by
  refine withHomeWave_memOk h fun l sel ts s h => ?_
  have hr {w n a k} : (vaRead w n a k s).2.memOk := vaRead_memOk h
  simp only
  split
  · exact onceTrap_memOk hr
  · split
    · exact operandFault_memOk hr
    · exact advance_memOk (foldl_memOk hr fun _ _ h => applyImage_memOk h)

theorem withPins_memOk {f act} (h : s.memOk) (hact : ∀ x1 x2 x3 s, s.memOk → (act x1 x2 x3 s).memOk) : (withPins f act s).memOk := by
  refine waveOnce_memOk h fun l s h => ?_
  extract_lets off n team
  split
  · exact onceTrap_memOk h
  split
  · exact doneWith_memOk h
  split
  · exact onceTrap_memOk h
  · exact hact _ _ _ _ h

@[simp] theorem setPins_memOk {team pages on} (h : s.memOk) : (setPins team pages on s).memOk := by simp [setPins, h]

@[simp] theorem sppin_memOk {f} (h : s.memOk) : (Machine.sppin f s).memOk := by
  grind [Machine.sppin, withPins_memOk, doneWith_memOk, setPins_memOk, waitPages_memOk]

@[simp] theorem spunpin_memOk {f} (h : s.memOk) : (Machine.spunpin f s).memOk := by
  grind [Machine.spunpin, withPins_memOk, doneWith_memOk, setPins_memOk]

/-! ### The operations of Freeze.lean -/

@[simp] theorem modGuidon_memOk {g} (h : s.memOk) : (State.modGuidon s g).memOk := by simp [State.modGuidon, h]
@[simp] theorem recordCause_memOk {c} (h : s.memOk) : (recordCause c s).memOk := by simp [recordCause, h]

@[simp] theorem freeze_memOk {cause src flitCause} (h : s.memOk) : (freeze cause src flitCause s).memOk := by
  grind [freeze, recordCause_memOk, modGuidon_memOk, sendFlit_memOk, modThreads_memOk, foldl_memOk]

@[simp] theorem freezeHere_memOk {cause} (h : s.memOk) : (freezeHere cause s).memOk := by simp [freezeHere, h]
@[simp] theorem clockMonitor_memOk (h : s.memOk) : (Machine.clockMonitor s).memOk := by simp [Machine.clockMonitor, h]
@[simp] theorem supplyMonitor_memOk (h : s.memOk) : (Machine.supplyMonitor s).memOk := by simp [Machine.supplyMonitor, h]
@[simp] theorem thermalTrip_memOk (h : s.memOk) : (Machine.thermalTrip s).memOk := by simp [Machine.thermalTrip, h]
@[simp] theorem freezePin_memOk (h : s.memOk) : (Machine.freezePin s).memOk := by simp [Machine.freezePin, h]

@[simp] theorem arrayUncorrected_memOk {unitKind unit addr} (h : s.memOk) : (Machine.arrayUncorrected unitKind unit addr s).memOk := by
  simp [Machine.arrayUncorrected, h]

@[simp] theorem heartbeatMissed_memOk (h : s.memOk) : (Machine.heartbeatMissed s).memOk := by simp [Machine.heartbeatMissed, h]
@[simp] theorem moduleQuiescent_memOk (h : s.memOk) : (Machine.moduleQuiescent s).memOk := by simp [Machine.moduleQuiescent, h]
@[simp] theorem hbOutToggle_memOk (h : s.memOk) : (Machine.hbOutToggle s).memOk := by simp [Machine.hbOutToggle, h]
@[simp] theorem levelCauseClear_memOk {cause} (h : s.memOk) : (Machine.levelCauseClear cause s).memOk := by simp [Machine.levelCauseClear, h]
@[simp] theorem reportRedundancy_memOk {c x addr info} (h : s.memOk) : (reportRedundancy c x addr info s).memOk := by simp [reportRedundancy, h]

/-! ### The operations of Fabric.lean -/

@[simp] theorem inbound_memOk {i k} (h : s.memOk) (hk : ∀ s, s.memOk → (k s).memOk) : (inbound i k s).memOk := by simp [inbound, h, hk]
@[simp] theorem wakeRemote_memOk {line} (h : s.memOk) : (wakeRemote line s).memOk := by simp [wakeRemote, h]

@[simp] theorem failWaiting_memOk {os cause} (h : s.memOk) : (failWaiting os cause s).memOk := by
  grind [failWaiting, copyAnswered_memOk, modFabric_memOk, takePriv_memOk, settleBatch_memOk, foldl_memOk]

@[simp] theorem resetFlow_memOk {k} (h : s.memOk) : (resetFlow k s).memOk := by
  grind [resetFlow, endGroups_memOk, failWaiting_memOk, modFlow_memOk]

@[simp] theorem flowOpen_memOk {flow dest ordered secure port} (h : s.memOk) : (Machine.flowOpen flow dest ordered secure port s).memOk := by
  simp [Machine.flowOpen, h]

@[simp] theorem flowClose_memOk {flow} (h : s.memOk) : (Machine.flowClose flow s).memOk := by
  grind [Machine.flowClose, endGroups_memOk, failWaiting_memOk, modFabric_memOk]

@[simp] theorem ackOne_memOk {flow seq} (h : s.memOk) : (ackOne flow seq s).memOk := by
  grind [ackOne, copyAnswered_memOk, endGroups_memOk, wakeRemote_memOk, modFlow_memOk]

@[simp] theorem e2eAck_memOk {flow seq} (h : s.memOk) : (Machine.e2eAck flow seq s).memOk := by simp +contextual [Machine.e2eAck, h]

@[simp] theorem retransmitTimeout_memOk {flow seq} (h : s.memOk) : (Machine.retransmitTimeout flow seq s).memOk := by
  grind [Machine.retransmitTimeout, sendPacket_memOk, modFlow_memOk, endGroups_memOk, failWaiting_memOk]

@[simp] theorem leaseRenewal_memOk {line answer} (h : s.memOk) : (Machine.leaseRenewal line answer s).memOk := by
  simp only [Machine.leaseRenewal]
  (repeat' split) <;> simp +contextual [h]

@[simp] theorem leaseExpiry_memOk {line} (h : s.memOk) : (Machine.leaseExpiry line s).memOk := by
  simp only [Machine.leaseExpiry]
  split <;> simp [h]

@[simp] theorem withRemoteLines_memOk {f act} (h : s.memOk) (hact : ∀ x1 s, s.memOk → (act x1 s).memOk) : (withRemoteLines f act s).memOk := by
  simp [withRemoteLines, h, hact]

theorem requestWait_memOk {x p k t} (h : s.memOk) (e : requestWait x p k s = .ok t) : t.memOk := by
  unfold requestWait at e
  split at e
  · cases e
  · split at e
    · next hu =>
      cases e
      exact modThread_memOk (request_memOk h hu)
    · next hu => exact (hu _ e).elim

theorem askLease_memOk {x line k t} (h : s.memOk) (e : askLease x line k s = .ok t) : t.memOk := by
  have hask {k : Option ℕ} {p : Packet} (e : (match k with | some k => requestWait x p k s | none => request x p none s) = .ok t) : t.memOk := by
    split at e
    · exact requestWait_memOk h e
    · exact request_memOk h e
  unfold askLease at e
  extract_lets base ask at e
  split at e
  · split at e
    · split at e
      · cases e
        exact h
      · split at e
        · next hu =>
          cases e
          exact setLease_memOk (request_memOk h hu)
        · next hu => exact (hu _ e).elim
    · exact hask e
  · exact hask e

theorem leaseGet_memOk {f} (h : s.memOk) : (Machine.leaseGet f s).memOk := by
  refine withRemoteLines_memOk h fun ls s h => foldl_memOk h fun s e h => ?_
  have ht := touchHint_memOk (c := s.coreOf e.1.th) (line := e.2) (hint := f.hint) h
  simp only
  split
  · exact ht
  · split
    · next hu => exact askLease_memOk ht hu
    · exact ht

@[simp] theorem leaseDrop_memOk {f} (h : s.memOk) : (Machine.leaseDrop f s).memOk := by
  grind [Machine.leaseDrop, withRemoteLines_memOk, expireLease_memOk, foldl_memOk]

@[simp] theorem leaseDropall_memOk {f} (h : s.memOk) : (Machine.leaseDropall f s).memOk := by simp [Machine.leaseDropall, h]
@[simp] theorem reply_memOk {p typ b c data} (h : s.memOk) : (reply p typ b c data s).memOk := by simp [reply, h]
@[simp] theorem grantLease_give_memOk {pa v} (h : s.memOk) : (grantLease.give pa s v).memOk := modFabric_memOk h

theorem grantLease_memOk {pa} (h : s.memOk) : (grantLease pa s).2.memOk := by
  simp only [grantLease]
  split
  · split
    · exact h
    · exact grantLease_give_memOk h
  · exact grantLease_give_memOk h

@[simp] theorem leaseEmbargoEnd_memOk {page} (h : s.memOk) : (Machine.leaseEmbargoEnd page s).memOk := by
  simp only [Machine.leaseEmbargoEnd]
  split <;> simp [h]

@[simp] theorem answerRead_memOk {p} (h : s.memOk) : (answerRead p s).memOk := by
  grind [answerRead, reply_memOk, grantLease_memOk, farRead_memOk]

@[simp] theorem applyRequest_memOk {p} (h : s.memOk) : (applyRequest p s).2.memOk := by
  simp only [applyRequest]
  split
  · exact answerRead_memOk h
  · split
    · simp only
      split
      · exact reply_memOk (grantLease_memOk h)
      · exact answerRead_memOk h
    · exact answerRead_memOk h
  · split
    · exact reply_memOk (logDev_memOk h)
    · exact reply_memOk (farWrite_memOk h)
  · split
    · exact reply_memOk h
    · refine reply_memOk ?_
      split
      · exact farWrite_memOk (farRead_memOk h)
      · exact farRead_memOk h

@[simp] theorem applyOnce_memOk {p} (h : s.memOk) : (applyOnce p s).memOk :=
  reply_memOk (modFabric_memOk (applyRequest_memOk h))

@[simp] theorem awaitSnoop_memOk {p} (h : s.memOk) : (awaitSnoop p s).memOk := by simp [awaitSnoop, h]

theorem applyHeld_memOk {key n} (h : s.memOk) : (applyHeld key n s).memOk := by
  induction n generalizing s with
  | zero => exact h
  | succ n ih =>
    simp only [applyHeld]
    split
    · exact h
    · split
      · exact awaitSnoop_memOk (modFabric_memOk h)
      · exact ih (applyOnce_memOk (modFabric_memOk h))

@[simp] theorem deliverRequest_memOk {p} (h : s.memOk) : (deliverRequest p s).memOk := by
  simp only [deliverRequest]
  split
  · exact reply_memOk (logDev_memOk (modFabric_memOk h))
  split
  · refine reply_memOk ?_
    split
    · exact answerRead_memOk h
    · exact answerRead_memOk h
    · exact reply_memOk h
    · exact reply_memOk h
  split
  · exact modFabric_memOk h
  split
  · exact modFabric_memOk h
  · exact applyHeld_memOk (applyOnce_memOk h)

@[simp] theorem answerThread_memOk {a0 r p} (h : s.memOk) : (answerThread a0 r p s).memOk := by
  grind [answerThread, replayPut_memOk, replayTaken_memOk, wakeWhere_memOk, modThread_memOk]

@[simp] theorem deliverReply_memOk {p} (h : s.memOk) : (deliverReply p s).memOk := by
  grind [deliverReply, resetFlow_memOk, modFabric_memOk, modFlow_memOk, answerThread_memOk, leaseRenewal_memOk, setLease_memOk, wakeRemote_memOk,
    ackOne_memOk]

@[simp] theorem takeFlits_memOk {p} (h : s.memOk) : (takeFlits p s).memOk := by simp [takeFlits, h]

@[simp] theorem takePacket_memOk {packet} (h : s.memOk) : (takePacket packet s).memOk := by
  have htaken {g} : (takeFlits packet (s.modFabric g)).memOk := takeFlits_memOk (modFabric_memOk h)
  simp only [takePacket]
  split
  · exact awaitSnoop_memOk htaken
  split
  · exact deliverRequest_memOk htaken
  split
  · exact deliverReply_memOk htaken
  · exact logDev_memOk htaken

@[simp] theorem packetDeliver_memOk {packet} (h : s.memOk) : (Machine.packetDeliver packet s).memOk := by
  simp +contextual [Machine.packetDeliver, h]

@[simp] theorem setPort_memOk {p x} (h : s.memOk) : (setPort p x s).memOk := by simp [setPort, h]
@[simp] theorem takeFlit_memOk {flit} (h : s.memOk) : (takeFlit flit s).memOk := by simp [takeFlit, h]

@[simp] theorem controlFlit_memOk {p flit} (h : s.memOk) : (controlFlit p flit s).memOk := by
  simp only [controlFlit]
  split <;> simp [h]

@[simp] theorem linkFlit_memOk {flit} (h : s.memOk) : (linkFlit flit s).memOk := by
  simp only [linkFlit]
  split <;> simp [h]

@[simp] theorem fabricFlitRoute_memOk {flit} (h : s.memOk) : (Machine.fabricFlitRoute flit s).memOk := by
  simp only [Machine.fabricFlitRoute]
  (repeat' split) <;> simp +contextual [h]

@[simp] theorem startRetrain_memOk {p} (h : s.memOk) : (startRetrain p s).memOk := by simp [startRetrain, h]
@[simp] theorem linkReplay_memOk {p} (h : s.memOk) : (Machine.linkReplay p s).memOk := by simp [Machine.linkReplay, h]
@[simp] theorem portRetrain_memOk {p ok} (h : s.memOk) : (Machine.portRetrain p ok s).memOk := by simp [Machine.portRetrain, h]

@[simp] theorem negotiationFlit_memOk {port flit} (h : s.memOk) : (Machine.negotiationFlit port flit s).memOk := by
  simp [Machine.negotiationFlit, h]

@[simp] theorem freezeFlit_memOk {port flit} (h : s.memOk) : (Machine.freezeFlit port flit s).memOk := by simp [Machine.freezeFlit, h]

/-! ### The operations of Coherence.lean -/

@[simp] theorem burgeeHold_memOk {channel} (h : s.memOk) : (Machine.burgeeHold channel s).memOk := by
  simp only [Machine.burgeeHold]
  (repeat' split) <;> simp +contextual [h]

@[simp] theorem askHost_memOk {line} (h : s.memOk) : (askHost line s).memOk := by simp [askHost, h]

@[simp] theorem takeMisses_memOk {c hint l2Only asks} (h : s.memOk) : (takeMisses c hint l2Only asks s).memOk := by
  grind [takeMisses, modCore_memOk, askHost_memOk, tellHome_memOk, foldl_memOk]

@[simp] theorem missEntryGrant_memOk {core} (h : s.memOk) : (Machine.missEntryGrant core s).memOk := by
  simp only [Machine.missEntryGrant]
  split <;> simp [h]

@[simp] theorem wakeMisses_memOk {c} (h : s.memOk) : (wakeMisses c s).memOk := by simp [wakeMisses, h]

@[simp] theorem missDataFill_memOk {core sector outcome} (h : s.memOk) : (Machine.missDataFill core sector outcome s).memOk := by
  grind [Machine.missDataFill, makeRoom_memOk, modHome_memOk, settleLine_memOk, softError_memOk, setPoison_memOk, logDev_memOk, modCore_memOk,
    placeLine_memOk, l2Touch_memOk, grantRead_memOk, mergeLine_memOk, wakeMisses_memOk, getD_memOk]

@[simp] theorem tlbWalk_memOk {index} (h : s.memOk) : (Machine.tlbWalk index s).memOk := by
  grind [Machine.tlbWalk, modCluster_memOk, modCore_memOk, padsOk_put, padsOk_del, padsOk_map, teams_padsOk, modWork_padsOk, memOk_mk,
    mem_canonical]

@[simp] theorem sendSnoop_memOk {line} (h : s.memOk) : (sendSnoop line s).memOk := by simp [sendSnoop, h]

@[simp] theorem farOperation_memOk {op} (h : s.memOk) : (Machine.farOperation op s).memOk := by
  unfold Machine.farOperation
  extract_lets n pa line sa s0 s1 old put say
  have hs0 : s0.memOk := by
    unfold s0
    split
    · exact settleLine_memOk h
    · exact predict_memOk (settleLine_memOk h)
  have hs1 : s1.memOk := by
    unfold s1
    split
    · exact recallLine_memOk hs0
    · exact hs0
  have hsay {x} {s : State} (h : s.memOk) : (say x s).memOk := h
  have hput {x} {s : State} (h : s.memOk) : (put x s).memOk := homeWrite_memOk h
  clear_value s1 put say
  split
  · exact modHome_memOk (sendSnoop_memOk h)
  split
  · exact hsay (logDev_memOk hs1)
  split
  · exact hsay (hput hs1)
  · exact hsay (hput hs1)
  · refine hsay ?_
    split
    · exact hput hs1
    · exact hs1
  · exact hsay hs1
  · split
    · exact hsay (modThreads_memOk hs1)
    · exact hsay (hput (modThreads_memOk hs1))

@[simp] theorem setHost_memOk {line} (h : s.memOk) : (setHost line s).memOk := by simp [setHost, h]

@[simp] theorem hostDown_memOk {line} (h : s.memOk) : (hostDown line s).memOk := by
  grind [hostDown, mergeLine_memOk, setL1_memOk, setDir_memOk]

@[simp] theorem takeHostRead_memOk {pa size} (h : s.memOk) : (takeHostRead pa size s).memOk := by
  grind [takeHostRead, logDev_memOk, hostDown_memOk, settleLine_memOk, farRead_memOk, setHost_memOk, padsOk_put, padsOk_del, padsOk_map,
    teams_padsOk, modWork_padsOk, memOk_mk, mem_canonical]

@[simp] theorem takeHostWrite_memOk {pa size data} (h : s.memOk) : (takeHostWrite pa size data s).memOk := by
  grind [takeHostWrite, logDev_memOk, recallLine_memOk, settleLine_memOk, setHost_memOk, homeWrite_memOk]

@[simp] theorem hostRead_memOk {pa size} (h : s.memOk) : (Machine.hostRead pa size s).memOk := by simp +contextual [Machine.hostRead, h]

@[simp] theorem hostWrite_memOk {pa size data} (h : s.memOk) : (Machine.hostWrite pa size data s).memOk := by
  simp +contextual [Machine.hostWrite, h]

@[simp] theorem takeBirsp_memOk {line data} (h : s.memOk) : (takeBirsp line data s).memOk := by
  grind [takeBirsp, homeWrite_memOk, modHome_memOk, modDir_memOk, recallLine_memOk, wakeRemote_memOk, farOperation_memOk, foldl_memOk]

@[simp] theorem birsp_memOk {line data} (h : s.memOk) : (Machine.birsp line data s).memOk := by simp +contextual [Machine.birsp, h]
@[simp] theorem takeSnoop_memOk {line invalidate} (h : s.memOk) : (takeSnoop line invalidate s).memOk := by simp [takeSnoop, h]

@[simp] theorem hostSnoop_memOk {line invalidate} (h : s.memOk) : (Machine.hostSnoop line invalidate s).memOk := by
  simp +contextual [Machine.hostSnoop, h]

@[simp] theorem takeInbound_memOk {r} (h : s.memOk) : (takeInbound r s).memOk := by
  simp only [takeInbound]
  split <;> simp [h]

/-! ### The operations of Guidon.lean -/

@[simp] theorem logGuidon_memOk (h : s.memOk) : (logGuidon s).memOk := by simp [logGuidon, h]

@[simp] theorem thaw_memOk (h : s.memOk) : (thaw s).memOk := by
  grind [thaw, logGuidon_memOk, modGuidon_memOk, modFabric_memOk, takeInbound_memOk, foldl_memOk]

@[simp] theorem release_memOk (h : s.memOk) : (release s).memOk := by simp [release, h]

@[simp] theorem gdnCtlWrite_memOk {w} (h : s.memOk) : (gdnCtlWrite w s).memOk := by
  grind [gdnCtlWrite, modGuidon_memOk, freezeHere_memOk, thaw_memOk, release_memOk]

@[simp] theorem gdnCtlFrz_memOk {w} (h : s.memOk) : (Machine.gdnCtlFrz w s).memOk := by simp [Machine.gdnCtlFrz, h]
@[simp] theorem gdnCtlThaw_memOk {w} (h : s.memOk) : (Machine.gdnCtlThaw w s).memOk := by simp [Machine.gdnCtlThaw, h]
@[simp] theorem gdnCtlRel_memOk {w} (h : s.memOk) : (Machine.gdnCtlRel w s).memOk := by simp [Machine.gdnCtlRel, h]
@[simp] theorem gdnCtlAck_memOk {w} (h : s.memOk) : (Machine.gdnCtlAck w s).memOk := by simp [Machine.gdnCtlAck, h]
@[simp] theorem gdnHbWrite_memOk {context beat} (h : s.memOk) : (Machine.gdnHbWrite context beat s).memOk := by simp [Machine.gdnHbWrite, h]
@[simp] theorem gdnHbwinWrite_memOk {window} (h : s.memOk) : (Machine.gdnHbwinWrite window s).memOk := by simp [Machine.gdnHbwinWrite, h]

/-! ### The operations of Order.lean -/

@[simp] theorem cacheOp_memOk {f act} (h : s.memOk) (hact : ∀ x1 x2 s, s.memOk → (act x1 x2 s).memOk) : (cacheOp f act s).memOk := by
  grind [cacheOp, memTrap_memOk, advance_memOk, settleAll_memOk, foldl_memOk]

@[simp] theorem cleanCopy_memOk {c line} (h : s.memOk) : (cleanCopy c line s).memOk := by
  simp only [cleanCopy]
  (repeat' split) <;> simp +contextual [h]

@[simp] theorem dropCopy_memOk {c line} (h : s.memOk) : (dropCopy c line s).memOk := by
  simp only [dropCopy]
  (repeat' split) <;> simp +contextual [h]

@[simp] theorem cwb_memOk {f} (h : s.memOk) : (Machine.cwb f s).memOk := by simp +contextual [Machine.cwb, h]

@[simp] theorem cinv_memOk {f} (h : s.memOk) : (Machine.cinv f s).memOk := by
  grind [Machine.cinv, cacheOp_memOk, modCore_memOk, dropCopy_memOk, cleanCopy_memOk]

@[simp] theorem cdemote_memOk {f} (h : s.memOk) : (Machine.cdemote f s).memOk := by
  grind [Machine.cdemote, cacheOp_memOk, modCore_memOk, modHome_memOk]

@[simp] theorem fence_memOk {f} (h : s.memOk) : (Machine.fence f s).memOk := by simp [Machine.fence, h]

@[simp] theorem bindAll_memOk {f isBind} (h : s.memOk) : (bindAll f isBind s).memOk := by
  simp only [bindAll]
  split <;> simp [h]

@[simp] theorem bind_memOk {f} (h : s.memOk) : (Machine.bind f s).memOk := by simp [Machine.bind, h]
@[simp] theorem unbind_memOk {f} (h : s.memOk) : (Machine.unbind f s).memOk := by simp [Machine.unbind, h]

/-! ### The operations of Power.lean -/

@[simp] theorem setBank_memOk {b x} (h : s.memOk) : (setBank b x s).memOk := by simp [setBank, h]
@[simp] theorem phbCtlMapgo_memOk {bank} (h : s.memOk) : (Machine.phbCtlMapgo bank s).memOk := by simp [Machine.phbCtlMapgo, h]
@[simp] theorem dropRings_memOk {b} (h : s.memOk) : (dropRings b s).memOk := by simp [dropRings, h]

@[simp] theorem phbCtlRetrain_memOk {bank} (h : s.memOk) : (Machine.phbCtlRetrain bank s).memOk := by
  grind [Machine.phbCtlRetrain, startRetrain_memOk, dropRings_memOk, foldl_memOk]

@[simp] theorem phbHoldTimeout_memOk {bank} (h : s.memOk) : (Machine.phbHoldTimeout bank s).memOk := by
  simp only [Machine.phbHoldTimeout]
  split <;> simp [h]

@[simp] theorem phbBusyClear_memOk {bank errs} (h : s.memOk) : (Machine.phbBusyClear bank errs s).memOk := by simp [Machine.phbBusyClear, h]
@[simp] theorem setHeater_memOk {bank k code} (h : s.memOk) : (setHeater bank k code s).memOk := by simp [setHeater, h]
@[simp] theorem onBus_memOk {x} (h : s.memOk) : (onBus x s).memOk := by simp [onBus, h]
@[simp] theorem phbStatRead_memOk {bank} (h : s.memOk) : (Machine.phbStatRead bank s).memOk := by simp [Machine.phbStatRead, h]
@[simp] theorem freezeRingStep_memOk (h : s.memOk) : (Machine.freezeRingStep s).memOk := by simp [Machine.freezeRingStep, h]
@[simp] theorem modPower_memOk {g} (h : s.memOk) : (State.modPower s g).memOk := by simp [State.modPower, h]

@[simp] theorem powerGovernorTick_memOk {power} (h : s.memOk) : (Machine.powerGovernorTick power s).memOk := by
  simp [Machine.powerGovernorTick, h]

@[simp] theorem currentMonitorOver_memOk {power} (h : s.memOk) : (Machine.currentMonitorOver power s).memOk := by
  simp [Machine.currentMonitorOver, h]

@[simp] theorem pwrCapWrite_memOk {w} (h : s.memOk) : (Machine.pwrCapWrite w s).memOk := by simp [Machine.pwrCapWrite, h]
@[simp] theorem channelDqRetrain_memOk {a0} (h : s.memOk) : (Machine.channelDqRetrain a0 s).memOk := by simp [Machine.channelDqRetrain, h]
@[simp] theorem setBox_memOk {m x} (h : s.memOk) : (setBox m x s).memOk := by simp [setBox, h]

@[simp] theorem boxGet_memOk {m va n} (h : s.memOk) : (boxGet m va n s).2.memOk := by
  unfold boxGet
  split
  · split
    · exact List.foldlRecOn (motive := fun acc : Option (List Byte) × State => acc.2.memOk) _ _ h fun acc hacc c _ => farRead_memOk (n := c.2) hacc
    · exact h
  · exact devGet_memOk h

theorem boxPut_memOk {m va bs} {t} (h : s.memOk) (e : boxPut m va bs s = some t) : t.memOk := by
  grind [boxPut, farWrite_memOk, vaWrite_memOk, foldl_memOk]

theorem boxDone_memOk {m r} (h : s.memOk) (hr : ∀ t, r = some t → t.memOk) : (boxDone m r s).memOk := by
  unfold boxDone
  split
  · exact setBox_memOk (hr _ rfl)
  · exact setBox_memOk h

@[simp] theorem mbCmdAttest_memOk {mailbox} (h : s.memOk) : (Machine.mbCmdAttest mailbox s).memOk := by
  have hr {a n} : (boxGet mailbox a n s).2.memOk := boxGet_memOk h
  simp only [Machine.mbCmdAttest]
  split
  · exact boxDone_memOk h (by simp)
  split
  · exact boxDone_memOk hr (by simp)
  · exact boxDone_memOk hr fun t e => boxPut_memOk hr e

@[simp] theorem mbCmdLogread_memOk {mailbox} (h : s.memOk) : (Machine.mbCmdLogread mailbox s).memOk := by
  simp only [Machine.mbCmdLogread]
  split
  · exact boxDone_memOk h (by simp)
  · exact boxDone_memOk h fun t e => boxPut_memOk h e

@[simp] theorem mbCommand_memOk {m w} (h : s.memOk) : (mbCommand m w s).memOk := by
  have hs1 : (setBox m { boxOf s m with cmd := w, stat := 1 } s).memOk := setBox_memOk h
  simp only [mbCommand]
  split
  · exact mbCmdAttest_memOk hs1
  · exact mbCmdLogread_memOk hs1
  · exact boxDone_memOk hs1 (by simp)

@[simp] theorem moduleReset_memOk : (Machine.moduleReset s).memOk := ⟨rfl, padsOk_nil⟩
@[simp] theorem modBoot_memOk {g} (h : s.memOk) : (State.modBoot s g).memOk := by simp [State.modBoot, h]
@[simp] theorem atStep_memOk {n k} (h : s.memOk) (hk : ∀ s, s.memOk → (k s).memOk) : (atStep n k s).memOk := by simp [atStep, h, hk]
@[simp] theorem bootFail_memOk {code unit} (h : s.memOk) : (bootFail code unit s).memOk := by simp [bootFail, h]

@[simp] theorem bringupGuidon_memOk {image selfTest} (h : s.memOk) : (Machine.bringupGuidon image selfTest s).memOk := by
  grind [Machine.bringupGuidon, atStep_memOk, modBoot_memOk, bootFail_memOk]

@[simp] theorem bringupManagement_memOk {image} (h : s.memOk) : (Machine.bringupManagement image s).memOk := by
  grind [Machine.bringupManagement, atStep_memOk, bootFail_memOk, modBoot_memOk]

@[simp] theorem bringupRecords_memOk {identityOk config halyard setup} (h : s.memOk) :
    (Machine.bringupRecords identityOk config halyard setup s).memOk := by
  grind [Machine.bringupRecords, atStep_memOk, bootFail_memOk, modFabric_memOk, modBoot_memOk, foldl_memOk]

@[simp] theorem bringupMemory_memOk {failing} (h : s.memOk) : (Machine.bringupMemory failing s).memOk := by
  grind [Machine.bringupMemory, atStep_memOk, bootFail_memOk, modFabric_memOk, modHome_memOk, modBoot_memOk]

@[simp] theorem bringupLinks_memOk {hostPeer peers} (h : s.memOk) : (Machine.bringupLinks hostPeer peers s).memOk := by
  grind [Machine.bringupLinks, atStep_memOk, modFabric_memOk, modBoot_memOk, logDev_memOk, setPort_memOk, foldl_memOk]

@[simp] theorem createCtx_memOk {c} (h : s.memOk) : (createCtx c s).memOk := by
  simp only [createCtx]
  split <;> simp [h]

@[simp] theorem bringupContexts_memOk (h : s.memOk) : (Machine.bringupContexts s).memOk := by
  grind [Machine.bringupContexts, atStep_memOk, modCore_memOk, modBoot_memOk, createCtx_memOk, foldl_memOk, padsOk_put, padsOk_del, padsOk_map,
    teams_padsOk, modWork_padsOk, memOk_mk, mem_canonical]

/-! ### The operations of Registers.lean -/

@[simp] theorem corePartWrite_memOk {core entry w} (h : s.memOk) : (Machine.corePartWrite core entry w s).memOk := by
  simp [Machine.corePartWrite, h]

@[simp] theorem commitBind_memOk {core entry w} (h : s.memOk) : (commitBind core entry w s).memOk := by simp [commitBind, h]
@[simp] theorem sltEntCommit_memOk {core entry w} (h : s.memOk) : (Machine.sltEntCommit core entry w s).memOk := by simp [Machine.sltEntCommit, h]
@[simp] theorem sltEntRevoke_memOk {core entry w} (h : s.memOk) : (Machine.sltEntRevoke core entry w s).memOk := by simp [Machine.sltEntRevoke, h]
@[simp] theorem stageBind_memOk {core entry second w} (h : s.memOk) : (stageBind core entry second w s).memOk := by simp [stageBind, h]
@[simp] theorem sltStatRead_memOk {core} (h : s.memOk) : (Machine.sltStatRead core s).memOk := by simp [Machine.sltStatRead, h]
@[simp] theorem trpCntRead_memOk {core} (h : s.memOk) : (Machine.trpCntRead core s).memOk := by simp [Machine.trpCntRead, h]
@[simp] theorem serrCntRead_memOk {core} (h : s.memOk) : (Machine.serrCntRead core s).memOk := by simp [Machine.serrCntRead, h]
@[simp] theorem coreL1Write_memOk {core w} (h : s.memOk) : (Machine.coreL1Write core w s).memOk := by simp [Machine.coreL1Write, h]
@[simp] theorem hlyAgeWrite_memOk {cluster w} (h : s.memOk) : (Machine.hlyAgeWrite cluster w s).memOk := by simp [Machine.hlyAgeWrite, h]
@[simp] theorem hlyAvgWrite_memOk {cluster w} (h : s.memOk) : (Machine.hlyAvgWrite cluster w s).memOk := by simp [Machine.hlyAvgWrite, h]
@[simp] theorem lqCfgWrite_memOk {queue w} (h : s.memOk) : (Machine.lqCfgWrite queue w s).memOk := by simp [Machine.lqCfgWrite, h]
@[simp] theorem dbgCtlWrite_memOk {context w} (h : s.memOk) : (Machine.dbgCtlWrite context w s).memOk := by simp [Machine.dbgCtlWrite, h]
@[simp] theorem dbgDropRead_memOk {context} (h : s.memOk) : (Machine.dbgDropRead context s).memOk := by simp [Machine.dbgDropRead, h]

@[simp] theorem regCleared_memOk {r} (h : s.memOk) : (regCleared r s).memOk := by
  simp only [regCleared]
  split <;> simp [h]

@[simp] theorem mxeCtl_memOk {c w} (h : s.memOk) : (mxeCtl c w s).memOk := by simp [mxeCtl, h]
@[simp] theorem cpeCtl_memOk {c w} (h : s.memOk) : (cpeCtl c w s).memOk := by simp [cpeCtl, h]
@[simp] theorem lcpCtl_memOk {c w} (h : s.memOk) : (lcpCtl c w s).memOk := by simp [lcpCtl, h]
@[simp] theorem phbCtl_memOk {b w} (h : s.memOk) : (phbCtl b w s).memOk := by simp [phbCtl, h]

@[simp] theorem regSet_memOk {a r v} (h : s.memOk) : (regSet a r v s).memOk := by
  simp only [regSet]
  (repeat' split) <;> simp +contextual [h]

@[simp] theorem regRead_memOk {a off size} (h : s.memOk) : (regRead a off size s).2.memOk := by
  simp only [regRead]
  (repeat' split) <;> simp +contextual [h]

@[simp] theorem regWrite_memOk {a off size v} (h : s.memOk) : (regWrite a off size v s).memOk := by
  simp only [regWrite]
  (repeat' split) <;> simp +contextual [h]

@[simp] theorem registerWrite_memOk {agent offset size data} (h : s.memOk) : (Machine.registerWrite agent offset size data s).memOk := by
  simp [Machine.registerWrite, h]
end

end Sys2Proof.Proofs
end

section
/-!
PROOFS. Loads and stores, redundancy, soft errors and the issue of a wave keep memories canonical (spec 09, 11, 15, 21, 22), and so does
every step (log entries 1 and 2).
-/
namespace Sys2Proof.Proofs
open Machine Laws

section
variable {s : State}

/-! ### The operations of Loads.lean -/

@[simp] theorem releaseBefore_memOk {f rel ps} (h : s.memOk) : (releaseBefore f rel ps s).memOk := by simp [releaseBefore, h]

@[simp] theorem withGlobal_memOk {f need n acq rel act} (h : s.memOk) (hact : ∀ x1 s, s.memOk → (act x1 s).memOk) :
    (withGlobal f need n acq rel act s).memOk := by
  grind [withGlobal, noteWalk_memOk, advance_memOk, memTrap_memOk, waitAll_memOk, settleAll_memOk, foldl_memOk]

@[simp] theorem missWait_memOk {f needs} (h : s.memOk) : (missWait f needs s).memOk := by
  grind [missWait, waitAll_memOk, takeMisses_memOk, modThreads_memOk]

theorem sectorWait_memOk {f n ps} {t} (h : s.memOk) (e : sectorWait f n ps s = some t) : t.memOk := by
  grind [sectorWait, missWait_memOk]

theorem readWait_memOk {f n ps} {t} (h : s.memOk) (e : readWait f n ps s = some t) : t.memOk := by
  grind [readWait, sectorWait_memOk]

theorem storeWait_memOk {f n near ps} {t} (h : s.memOk) (e : storeWait f n near ps s = some t) : t.memOk := by
  grind [storeWait, waitAll_memOk, noteSnoop_memOk, sectorWait_memOk]

theorem askedFor_memOk {wait line r} (h : s.memOk) (hr : ∀ t, r = .ok t → t.memOk) : (askedFor wait line r s).2.memOk := by
  unfold askedFor
  split
  · exact hr _ rfl
  · exact h
  · exact h

@[simp] theorem takeReply_memOk {a0} (h : s.memOk) : (takeReply a0 s).memOk := by simp [takeReply, h]

@[simp] theorem orReply_memOk {a0 n x k} (h : s.memOk) (hk : ∀ s, s.memOk → (k s).2.memOk) : (orReply a0 n x k s).2.memOk := by
  simp only [orReply]
  split <;> simp [h, hk]

@[simp] theorem orOldValue_memOk {a0 n x g k} (h : s.memOk) (hk : ∀ s, s.memOk → (k s).2.memOk) : (orOldValue a0 n x g k s).2.memOk := by
  simp only [orOldValue]
  (repeat' split) <;> simp +contextual [h, hk]

@[simp] theorem remoteRead_memOk {hint k n x} (h : s.memOk) : (remoteRead hint k n x s).2.memOk := by
  simp only [remoteRead]
  split
  · exact h
  split
  · split
    · simp only
      split
      · exact l2Touch_memOk h
      · exact getD_memOk h fun _ => placeLine_memOk h
    · exact askedFor_memOk h fun _ => askLease_memOk h
  · exact askedFor_memOk h fun _ => requestWait_memOk h

@[simp] theorem remoteStore_memOk {k x bs} (h : s.memOk) : (remoteStore k x bs s).2.memOk := by
  simp only [remoteStore]
  split
  · exact h
  · exact askedFor_memOk h fun _ => sendWrite_memOk h

@[simp] theorem remoteRmw_memOk {k n x op b c wait} (h : s.memOk) : (remoteRmw k n x op b c wait s).2.memOk := by
  unfold remoteRmw
  extract_lets +lift line blank p ctx
  split
  · exact h
  have hsent {t} (e : (if wait = true then requestWait ctx p k s else request ctx p (some k) s) = .ok t) : t.memOk := by
    split at e
    · exact requestWait_memOk h e
    · exact request_memOk h e
  split
  · next hu =>
    refine askedFor_memOk h fun t e => ?_
    cases e
    split
    · exact staleAsks_memOk (hsent hu)
    · exact expireLease_memOk (staleAsks_memOk (hsent hu))
  · exact askedFor_memOk h fun _ => hsent

@[simp] theorem coreRead_memOk {c n x} (h : s.memOk) : (coreRead c n x s).2.memOk := by
  simp only [coreRead]
  (repeat' split) <;> simp +contextual [h]

@[simp] theorem readOne_memOk {hint l n x} (h : s.memOk) : (readOne hint l n x s).2.memOk := by
  grind [readOne, orReply_memOk, remoteRead_memOk, regRead_memOk, coreRead_memOk, touchHint_memOk]

@[simp] theorem afterWait_memOk {c x k} (h : s.memOk) (hk : ∀ s, s.memOk → (k s).2.memOk) : (afterWait c x k s).2.memOk := by
  simp only [afterWait]
  split <;> simp [h, hk]

@[simp] theorem writeOne_memOk {hint l x bs} (h : s.memOk) : (writeOne hint l x bs s).2.memOk := by
  simp only [writeOne]
  (repeat' split) <;> simp +contextual [h]

@[simp] theorem rmwLane_memOk {hint l x n op b c g wait} (h : s.memOk) : (rmwLane hint l x n op b c g wait s).2.memOk := by
  grind [rmwLane, orOldValue_memOk, remoteRmw_memOk, afterWait_memOk, rmwOne_memOk]

theorem accesses_memOk {one ps} (h : s.memOk) (hone : ∀ l x s, s.memOk → (one l x s).2.memOk) : (accesses one ps s).st.memOk := by
  refine List.foldlRecOn (motive := fun r : Round => r.st.memOk) _ _ h fun r hr e _ => ?_
  simp only
  split <;> exact hone _ _ _ hr

@[simp] theorem holdAll_memOk {r} (h : s.memOk) : (holdAll r s).memOk := by
  simp only [holdAll]
  exact foldl_memOk (foldl_memOk h fun _ _ h => modThread_memOk (parkLanes_memOk h)) fun _ _ h => modThread_memOk (parkLanes_memOk h)

theorem complete_memOk {f whole done r} (h : r.st.memOk) (hdone : ∀ l x bs s, s.memOk → (done l x bs s).memOk) :
    (complete f whole done r).memOk := by
  simp only [complete]
  split
  · exact poisonTrap_memOk h
  · have hs0 {g} : ((advance r.st).modCore r.st.hereCore g).memOk := modCore_memOk (advance_memOk h)
    have hs2 {g} : (r.waits.foldl (fun s e => parkLanes [e.1] (fun _ => e.2) s)
        (r.got.foldl (fun s e => done e.1 e.2.1 e.2.2.1 s) ((advance r.st).modCore r.st.hereCore g))).memOk :=
      foldl_memOk (foldl_memOk hs0 fun _ _ h => hdone _ _ _ _ h) fun _ _ h => parkLanes_memOk h
    split
    · exact holdAll_memOk hs0
    · split
      · exact hs2
      · exact takePriv_memOk (modThreads_memOk hs2)

@[simp] theorem acquired_memOk {f on mode} (h : s.memOk) : (acquired f on mode s).memOk := by simp [acquired, h]
@[simp] theorem putOut_memOk {f l o} (h : s.memOk) : (putOut f l o s).memOk := by simp [putOut, h]

theorem globalLoad_memOk {f need n acq done} (h : s.memOk) (hdone : ∀ l x bs s, s.memOk → (done l x bs s).memOk) :
    (globalLoad f need n acq done s).memOk := by
  refine withGlobal_memOk h fun ps s h => ?_
  split
  · next hu => exact readWait_memOk h hu
  · exact complete_memOk (accesses_memOk h fun _ _ _ h => readOne_memOk h) hdone

theorem globalRmw_memOk {f n op b c g wait acq rel done} (h : s.memOk) (hdone : ∀ l x bs s, s.memOk → (done l x bs s).memOk) :
    (globalRmw f n op b c g wait acq rel done s).memOk := by
  refine withGlobal_memOk h fun ps s h => ?_
  split
  · next hu => exact storeWait_memOk h hu
  · exact complete_memOk (accesses_memOk (releaseBefore_memOk h) fun _ _ _ h => rmwLane_memOk h) hdone

@[simp] theorem withPads_memOk {f window n w loads act} (h : s.memOk) (hact : ∀ x1 s, s.memOk → (act x1 s).memOk) :
    (withPads f window n w loads act s).memOk := by
  grind [withPads, advance_memOk, memTrap_memOk, waitLocs_memOk, poisonTrap_memOk, touchLoc_memOk, withLocs_memOk, foldl_memOk]

@[simp] theorem ld_memOk {f} (h : s.memOk) : (Machine.ld f s).memOk := globalLoad_memOk h fun _ _ _ _ h => acquired_memOk (putOut_memOk h)

@[simp] theorem st_memOk {f} (h : s.memOk) : (Machine.st f s).memOk := by
  unfold Machine.st
  extract_lets n
  refine withGlobal_memOk h fun ps s h => ?_
  split
  · next hu => exact storeWait_memOk h hu
  · exact complete_memOk (accesses_memOk (releaseBefore_memOk h) fun _ _ _ h => writeOne_memOk h) fun _ _ _ _ h => h

@[simp] theorem padLoad_memOk {f window} (h : s.memOk) : (padLoad f window s).memOk := by
  grind [padLoad, withPads_memOk, Loc_read_memOk, acquired_memOk, putOut_memOk, advance_memOk, foldl_memOk]

@[simp] theorem padStore_memOk {f window} (h : s.memOk) : (padStore f window s).memOk := by
  grind [padStore, withPads_memOk, releaseSide_memOk, Loc_write_memOk, advance_memOk, releaseFirst_memOk, foldl_memOk]

@[simp] theorem lds_memOk {f} (h : s.memOk) : (Machine.lds f s).memOk := by simp [Machine.lds, h]
@[simp] theorem sts_memOk {f} (h : s.memOk) : (Machine.sts f s).memOk := by simp [Machine.sts, h]
@[simp] theorem ldw_memOk {f} (h : s.memOk) : (Machine.ldw f s).memOk := by simp [Machine.ldw, h]
@[simp] theorem stw_memOk {f} (h : s.memOk) : (Machine.stw f s).memOk := by simp [Machine.stw, h]

@[simp] theorem ldc_memOk {f} (h : s.memOk) : (Machine.ldc f s).memOk := by
  unfold Machine.ldc
  extract_lets n ex
  clear_value ex
  split
  · exact advance_memOk h
  extract_lets ea s0
  have hs0 : s0.memOk := noteWalk_memOk h
  clear_value s0
  split
  · exact onceTrap_memOk hs0
  extract_lets s1 a
  have hs1 : s1.memOk := by
    unfold s1
    split
    · exact settleAll_memOk hs0
    · exact hs0
  have ha : a.2.memOk := readOne_memOk hs1
  clear_value a s1
  split
  · next hu => exact readWait_memOk hs1 hu
  split
  · exact waitAll_memOk ha
  · exact onceTrap_memOk ha
  · split
    · exact poisonTrap_memOk ha
    · exact foldl_memOk (modCore_memOk (advance_memOk ha)) fun _ _ h => putOut_memOk h

@[simp] theorem prefLine_memOk {f l x} (h : s.memOk) : (prefLine f l x s).memOk := by
  unfold prefLine
  extract_lets +lift line c asks l2Only s1 new
  split
  · split
    · exact h
    split
    · exact h
    split
    · next hu => exact askLease_memOk h hu
    · exact h
  split
  · exact h
  refine takeMisses_memOk ?_
  unfold s1
  split <;> split
  · exact touchHint_memOk h
  · exact h
  · exact l2Touch_memOk h
  · exact h

@[simp] theorem pref_memOk {f} (h : s.memOk) : (Machine.pref f s).memOk := by
  grind [Machine.pref, prefLine_memOk, advance_memOk, foldl_memOk]

@[simp] theorem rmwDone_memOk {f here n l mode key bs} (h : s.memOk) : (rmwDone f here n l mode key bs s).memOk := by
  grind [rmwDone, replayAtomic_memOk, acquired_memOk, putOut_memOk]

@[simp] theorem padRmw_memOk {f n g rel loads done} (h : s.memOk) (hdone : ∀ x1 x2 x3 s, s.memOk → (done x1 x2 x3 s).memOk) :
    (padRmw f n g rel loads done s).memOk := by
  grind [padRmw, withPads_memOk, Loc_read_memOk, releaseSide_memOk, Loc_write_memOk, advance_memOk, releaseFirst_memOk, foldl_memOk]

@[simp] theorem atom_memOk {f} (h : s.memOk) : (Machine.atom f s).memOk := by
  unfold Machine.atom
  extract_lets n here b g
  split
  · exact globalRmw_memOk h fun _ _ _ _ h => rmwDone_memOk h
  · exact padRmw_memOk h fun _ _ _ _ h => rmwDone_memOk h

@[simp] theorem cas_memOk {f} (h : s.memOk) : (Machine.cas f s).memOk := by
  unfold Machine.cas
  extract_lets n here b c g
  split
  · exact globalRmw_memOk h fun _ _ _ _ h => rmwDone_memOk h
  · exact padRmw_memOk h fun _ _ _ _ h => rmwDone_memOk h

@[simp] theorem redLane_memOk {f l x} (h : s.memOk) : (redLane f l x s).2.memOk := by
  simp only [redLane]
  (repeat' split) <;> simp +contextual [h]

@[simp] theorem red_memOk {f} (h : s.memOk) : (Machine.red f s).memOk := by
  unfold Machine.red
  extract_lets n g
  split
  · refine withGlobal_memOk h fun ps s h => ?_
    split
    · next hu => exact storeWait_memOk h hu
    · exact complete_memOk (accesses_memOk (releaseBefore_memOk h) fun _ _ _ h => redLane_memOk h) fun _ _ _ _ h => h
  · exact padRmw_memOk h fun _ _ _ _ h => h

@[simp] theorem farResv_memOk {a0 line} (h : s.memOk) : (farResv a0 line s).memOk := by
  grind [farResv, modThread_memOk, modHome_memOk]

@[simp] theorem setResv_memOk {a0 x} (h : s.memOk) : (setResv a0 x s).memOk := by simp [setResv, h]

@[simp] theorem ldl_memOk {f} (h : s.memOk) : (Machine.ldl f s).memOk := by
  unfold Machine.ldl
  extract_lets n here
  refine withGlobal_memOk h fun ps s h => ?_
  extract_lets near s1
  split
  · next hu => exact readWait_memOk h hu
  have hs1 : s1.memOk := foldl_memOk h fun s e h => by
    split
    · exact dropSwm_memOk h
    · exact h
  exact complete_memOk (accesses_memOk hs1 fun _ _ _ h => readOne_memOk h)
    fun _ _ _ _ h => replayAtomic_memOk (acquired_memOk (setResv_memOk (putOut_memOk h)))

@[simp] theorem stcLane_memOk {f l x} (h : s.memOk) : (stcLane f l x s).2.memOk := by
  grind [stcLane, modThread_memOk, afterWait_memOk, storeOne_memOk, homeWrite_memOk, dropSwm_memOk]

@[simp] theorem stc_memOk {f} (h : s.memOk) : (Machine.stc f s).memOk := by
  unfold Machine.stc
  extract_lets here
  refine withGlobal_memOk h fun ps s h => ?_
  split
  · next hu => exact storeWait_memOk h hu
  · exact complete_memOk (accesses_memOk (releaseBefore_memOk h) fun _ _ _ h => stcLane_memOk h)
      fun _ _ _ _ h => replayAtomic_memOk (putOut_memOk h)

@[simp] theorem acq_memOk {f} (h : s.memOk) : (Machine.acq f s).memOk := by
  unfold Machine.acq
  extract_lets n done
  have hdone {l mode bs} {s : State} (h : s.memOk) : (done l mode bs s).memOk := acquired_memOk (putOut_memOk h)
  split
  · exact globalLoad_memOk h fun _ _ _ _ h => hdone h
  · exact withPads_memOk h fun ps s h => foldl_memOk (advance_memOk h) fun _ _ h => hdone (Loc_read_memOk h)

@[simp] theorem rel_memOk {f} (h : s.memOk) : (Machine.rel f s).memOk := by
  unfold Machine.rel
  extract_lets n
  split
  · exact globalRmw_memOk h fun _ _ _ _ h => h
  · exact padRmw_memOk h fun _ _ _ _ h => h

@[simp] theorem waitc_memOk {f} (h : s.memOk) : (Machine.waitc f s).memOk := by
  unfold Machine.waitc
  extract_lets n cond
  refine globalLoad_memOk h fun l x bs s h => ?_
  extract_lets b
  split
  · exact acquired_memOk (putOut_memOk h)
  · exact parkMonitor_memOk h

/-! ### The operations of Redund.lean -/

theorem cmpGate_memOk {i f} {t} (h : s.memOk) (e : cmpGate i f s = some t) : t.memOk := by
  grind [cmpGate, leaveWave_memOk, waitAll_memOk, setPair_memOk, foldl_memOk]

@[simp] theorem wakeFull_memOk {p} (h : s.memOk) : (wakeFull p s).memOk := by simp [wakeFull, h]

@[simp] theorem pairTrap_memOk {p prim kind addr serial lead} (h : s.memOk) : (pairTrap p prim kind addr serial lead s).memOk := by
  grind [pairTrap, modThreads_memOk, leaveWait_memOk, modCore_memOk, countTraps_memOk, reportRedundancy_memOk, setPair_memOk, foldl_memOk]

@[simp] theorem redundancyMismatch_memOk {pair kind} (h : s.memOk) : (Machine.redundancyMismatch pair kind s).memOk := by
  simp only [Machine.redundancyMismatch]
  split <;> simp [h]

@[simp] theorem comparatorMatch_memOk {pair} (h : s.memOk) : (Machine.comparatorMatch pair s).memOk := by
  grind [Machine.comparatorMatch, redundancyMismatch_memOk, modThreads_memOk, wakeFull_memOk, setPair_memOk]

@[simp] theorem comparatorTimeout_memOk {pair} (h : s.memOk) : (Machine.comparatorTimeout pair s).memOk := by simp [Machine.comparatorTimeout, h]

@[simp] theorem followOne_memOk {e} (h : s.memOk) : (followOne e s).memOk := by
  simp only [followOne]
  split <;> simp [h]

@[simp] theorem settlePair_memOk {p} (h : s.memOk) : (settlePair p s).memOk := by
  grind [settlePair, followOne_memOk, setPair_memOk, foldl_memOk]

@[simp] theorem copySector_memOk {core outcome} (h : s.memOk) : (Machine.copySector core outcome s).memOk := by
  simp only [Machine.copySector]
  (repeat' split) <;> simp +contextual [h]

/-! ### The operations of Soft.lean -/

@[simp] theorem loseLine_memOk {who va} (h : s.memOk) : (loseLine who va s).memOk := by
  simp only [loseLine]
  (repeat' split) <;> simp +contextual [h]

@[simp] theorem arraysRead_memOk (h : s.memOk) : (arraysRead s).memOk := by
  simp only [arraysRead]
  split <;> simp [h]

theorem softTrap_memOk {a i} {t} (h : s.memOk) (e : softTrap a i s = some t) : t.memOk := by
  grind [softTrap, takePriv_memOk, arraysRead_memOk, loseLine_memOk]

@[simp] theorem softFixed_memOk (h : s.memOk) : (softFixed s).memOk := by
  simp only [softFixed]
  split <;> simp [h]

/-! ### The operations of Run.lean -/

@[simp] theorem runInstr_memOk {i} (h : s.memOk) : (runInstr i s).memOk := by
  cases i
  case iadd f => exact iadd_memOk h
  case isub f => exact isub_memOk h
  case iaddc f => exact iaddc_memOk h
  case isubb f => exact isubb_memOk h
  case imul f => exact imul_memOk h
  case imulh f => exact imulh_memOk h
  case imad f => exact imad_memOk h
  case idot4 f => exact idot4_memOk h
  case imin f => exact imin_memOk h
  case imax f => exact imax_memOk h
  case iabs f => exact iabs_memOk h
  case ineg f => exact ineg_memOk h
  case andB f => exact andB_memOk h
  case orB f => exact orB_memOk h
  case xorB f => exact xorB_memOk h
  case andnB f => exact andnB_memOk h
  case notB f => exact notB_memOk h
  case shl f => exact shl_memOk h
  case shr f => exact shr_memOk h
  case sar f => exact sar_memOk h
  case rotl f => exact rotl_memOk h
  case funsh f => exact funsh_memOk h
  case bfx f => exact bfx_memOk h
  case bfi f => exact bfi_memOk h
  case popc f => exact popc_memOk h
  case clz f => exact clz_memOk h
  case ctz f => exact ctz_memOk h
  case brev f => exact brev_memOk h
  case permb f => exact permb_memOk h
  case sel f => exact sel_memOk h
  case isetp f => exact isetp_memOk h
  case plop f => exact plop_memOk h
  case mov f => exact mov_memOk h
  case movi f => exact movi_memOk h
  case fadd f => exact fadd_memOk h
  case fsub f => exact fsub_memOk h
  case fmul f => exact fmul_memOk h
  case ffma f => exact ffma_memOk h
  case fmin f => exact fmin_memOk h
  case fmax f => exact fmax_memOk h
  case fsetp f => exact fsetp_memOk h
  case fclass f => exact fclass_memOk h
  case frint f => exact frint_memOk h
  case fscale f => exact fscale_memOk h
  case hadd2 f => exact hadd2_memOk h
  case hfma2 f => exact hfma2_memOk h
  case cvt f => exact cvt_memOk h
  case sfn f => exact sfn_memOk h
  case shfl f => exact shfl_memOk h
  case vote f => exact vote_memOk h
  case redw f => exact redw_memOk h
  case prfx f => exact prfx_memOk h
  case matchL f => exact matchL_memOk h
  case hlane f => exact hlane_memOk h
  case exmrd f => exact exmrd_memOk h
  case exmwr f => exact exmwr_memOk h
  case exmand f => exact exmand_memOk h
  case exmor f => exact exmor_memOk h
  case tidx f => exact tidx_memOk h
  case shpset f => exact shpset_memOk h
  case isect f => exact isect_memOk h
  case deskew f => exact deskew_memOk h
  case pillar f => exact pillar_memOk h
  case lmul f => exact lmul_memOk h
  case lsum f => exact lsum_memOk h
  case lcvt f => exact lcvt_memOk h
  case bpack f => exact bpack_memOk h
  case bunpk f => exact bunpk_memOk h
  case clamp f => exact clamp_memOk h
  case scle f => exact scle_memOk h
  case ld f => exact ld_memOk h
  case st f => exact st_memOk h
  case lds f => exact lds_memOk h
  case sts f => exact sts_memOk h
  case ldw f => exact ldw_memOk h
  case stw f => exact stw_memOk h
  case ldc f => exact ldc_memOk h
  case pref f => exact pref_memOk h
  case cwb f => exact cwb_memOk h
  case cinv f => exact cinv_memOk h
  case cdemote f => exact cdemote_memOk h
  case atom f => exact atom_memOk h
  case cas f => exact cas_memOk h
  case red f => exact red_memOk h
  case ldl f => exact ldl_memOk h
  case stc f => exact stc_memOk h
  case fence f => exact fence_memOk h
  case acq f => exact acq_memOk h
  case rel f => exact rel_memOk h
  case bind f => exact bind_memOk h
  case unbind f => exact unbind_memOk h
  case waitc f => exact waitc_memOk h
  case bar f => exact bar_memOk h
  case leaseGet f => exact leaseGet_memOk h
  case leaseDrop f => exact leaseDrop_memOk h
  case leaseDropall f => exact leaseDropall_memOk h
  case boinit f => exact boinit_memOk h
  case boarr f => exact boarr_memOk h
  case botok f => exact botok_memOk h
  case bowait f => exact bowait_memOk h
  case bowaitp f => exact bowaitp_memOk h
  case rinit f => exact rinit_memOk h
  case rget f => exact rget_memOk h
  case rputRes f => exact rputRes_memOk h
  case rputPub f => exact rputPub_memOk h
  case rrel f => exact rrel_memOk h
  case rstat f => exact rstat_memOk h
  case evmap f => exact evmap_memOk h
  case evsig f => exact evsig_memOk h
  case evwait f => exact evwait_memOk h
  case cp f => exact cp_memOk h
  case cpblk f => exact cpblk_memOk h
  case fork f => exact fork_memOk h
  case rdv f => exact rdv_memOk h
  case mldb f => exact mldb_memOk h
  case mma f => exact mma_memOk h
  case accz f => exact accz_memOk h
  case accsc f => exact accsc_memOk h
  case accld f => exact accld_memOk h
  case accst f => exact accst_memOk h
  case msel f => exact msel_memOk h
  case mnext f => exact mnext_memOk (a0 := f) h
  case mwaite f => exact mwaite_memOk h
  case msig f => exact msig_memOk h
  case mend f => exact mend_memOk (a0 := f) h
  case mendLoop f => exact mendLoop_memOk (a0 := f) h
  case loopL f => exact loopL_memOk h
  case endl f => exact endl_memOk h
  case emit f => exact emit_memOk h
  case permw f => exact permw_memOk h
  case lset f => exact lset_memOk h
  case lend f => exact lend_memOk (a0 := f) h
  case spawn f => exact spawn_memOk h
  case spawnt f => exact spawnt_memOk h
  case launchg f => exact launchg_memOk h
  case exit f => exact exit_memOk h
  case yield f => exact yield_memOk h
  case cancel f => exact cancel_memOk h
  case dlset f => exact dlset_memOk h
  case dlrd f => exact dlrd_memOk h
  case cqbind f => exact cqbind_memOk h
  case cqbindOff f => exact cqbindOff_memOk h
  case cqpush f => exact cqpush_memOk h
  case cqflush f => exact cqflush_memOk h
  case futwait f => exact futwait_memOk h
  case futpoll f => exact futpoll_memOk h
  case poola f => exact poola_memOk h
  case poolf f => exact poolf_memOk h
  case qcol f => exact qcol_memOk h
  case qocc f => exact qocc_memOk h
  case sample f => exact sample_memOk h
  case sampleAcc f => exact sampleAcc_memOk h
  case seqnew f => exact seqnew_memOk h
  case seqfork f => exact seqfork_memOk h
  case seqend f => exact seqend_memOk h
  case seqcommit f => exact seqcommit_memOk h
  case seqcommitConf f => exact seqcommitConf_memOk h
  case seqdraft f => exact seqdraft_memOk h
  case seqrej f => exact seqrej_memOk h
  case seqrd f => exact seqrd_memOk h
  case pnset f => exact pnset_memOk h
  case pnclr f => exact pnclr_memOk h
  case bra f => exact bra_memOk h
  case brx f => exact brx_memOk h
  case call f => exact call_memOk h
  case callx f => exact callx_memOk h
  case ret f => exact ret_memOk h
  case nop f => exact nop_memOk (a0 := f) h
  case trap f => exact trap_memOk h
  case trapPriv f => exact trapPriv_memOk h
  case eret f => exact eret_memOk h
  case eretExit f => exact eretExit_memOk h
  case eretFail f => exact eretFail_memOk h
  case eretE f => exact eretE_memOk h
  case eretEDone f => exact eretEDone_memOk h
  case eretEDone64 f => exact eretEDone64_memOk h
  case sreg f => exact sreg_memOk h
  case swr f => exact swr_memOk h
  case bkpt f => exact bkpt_memOk h
  case mark f => exact mark_memOk h
  case smpl f => exact smpl_memOk h
  case tlbinvPage f => exact tlbinvPage_memOk h
  case tlbinvCtx f => exact tlbinvCtx_memOk h
  case tlbinvAll f => exact tlbinvAll_memOk h
  case ctxsetNew f => exact ctxsetNew_memOk h
  case ctxsetRoot f => exact ctxsetRoot_memOk h
  case ctxsetKill f => exact ctxsetKill_memOk h
  case wsetCore f => exact wsetCore_memOk h
  case wsetSlice f => exact wsetSlice_memOk h
  case wsetGran f => exact wsetGran_memOk h
  case wsetPort f => exact wsetPort_memOk h
  case wsetFn f => exact wsetFn_memOk h
  case regionCoh f => exact regionCoh_memOk h
  case regionSwm f => exact regionSwm_memOk h
  case biassetDev f => exact biassetDev_memOk h
  case biassetHost f => exact biassetHost_memOk h
  case wsave f => exact wsave_memOk h
  case wrest f => exact wrest_memOk h
  case sppin f => exact sppin_memOk h
  case spunpin f => exact spunpin_memOk h
  all_goals exact h

@[simp] theorem settleHandler_memOk {c} (h : s.memOk) : (settleHandler c s).memOk := by
  simp only [settleHandler]
  split <;> simp [h]

@[simp] theorem settle_memOk (h : s.memOk) : (settle s).memOk := by
  grind [settle, settleHandler_memOk, tidyWave_memOk, resolveBars_memOk, resolveWaves_memOk, settlePair_memOk, foldl_memOk]

@[simp] theorem rejoin_memOk {k} (h : s.memOk) : (rejoin k s).memOk := by simp +contextual [rejoin, h]
@[simp] theorem waveTrap_memOk {ls a v} (h : s.memOk) : (waveTrap ls a v s).memOk := by simp [waveTrap, h]

@[simp] theorem enterLine_memOk {who} (h : s.memOk) : (enterLine who s).2.memOk := by
  have hfresh {la} : (enterLine.fresh who la s).2.memOk := by
    simp only [enterLine.fresh]
    split <;> exact modWave_memOk (fetchLine_memOk h)
  simp only [enterLine]
  split
  · split
    · exact h
    · exact hfresh
  · exact hfresh

@[simp] theorem decodeTrap_memOk {a e} (h : s.memOk) : (decodeTrap a e s).memOk := by simp [decodeTrap, h]

@[simp] theorem sampleMem_memOk {i} (h : s.memOk) : (sampleMem i s).memOk := by
  grind [sampleMem, modThreads_memOk, modCore_memOk]

@[simp] theorem reenter_memOk {k gone} (h : s.memOk) : (reenter k gone s).memOk := by simp [reenter, h]

@[simp] theorem afterIssue_memOk {k pc stop latches pinned ids gone} (h : s.memOk) : (afterIssue k pc stop latches pinned ids gone s).memOk := by
  grind [afterIssue, modThreads_memOk, reenter_memOk, tidyWave_memOk, setWave_memOk, dissolve_memOk, modWave_memOk]

@[simp] theorem issueInstr_memOk {k i next} (h : s.memOk) : (issueInstr k i next s).memOk := by
  unfold issueInstr
  extract_lets w ls ids f again s0 s1 gone pc
  have hs0 : s0.memOk := by
    unfold s0
    split
    · exact modThreads_memOk h
    · exact h
  clear_value s0
  split
  · next hu => exact cmpGate_memOk hs0 hu
  have hs1 : s1.memOk := by
    refine runInstr_memOk ?_
    split
    · exact hs0
    · exact sampleMem_memOk hs0
  clear_value s1
  split
  · exact afterIssue_memOk hs1
  · exact afterIssue_memOk (runInstr_memOk (modWave_memOk hs1))

@[simp] theorem decodeIssue_memOk {k l0 l slot} (h : s.memOk) : (decodeIssue k l0 l slot s).memOk := by
  have hissue {i next} : (issueInstr k i next (softFixed s)).memOk := issueInstr_memOk (softFixed_memOk h)
  unfold decodeIssue
  extract_lets w env first a b
  split
  · exact decodeTrap_memOk h
  split
  · split
    · exact decodeTrap_memOk h
    split
    · split
      · next hu =>
        obtain hu | ⟨-, hu⟩ := (Option.orElse_eq_some _ _ _).1 hu
        · exact softTrap_memOk h hu
        · exact softTrap_memOk h hu
      · exact hissue
    · exact decodeTrap_memOk h
  · split
    · exact waveTrap_memOk h
    split
    · next hu => exact softTrap_memOk h hu
    · exact hissue

@[simp] theorem issueAt_memOk {k l0 slot} (h : s.memOk) : (issueAt k l0 slot s).memOk := by
  unfold issueAt
  extract_lets who r u w ls gone entered s1
  have hu : u.memOk := enterLine_memOk h
  clear_value r
  split
  · exact waveTrap_memOk hu
  extract_lets safe
  split
  · split
    · exact hu
    · exact dissolve_memOk hu
  split
  · exact foldl_memOk hu fun _ _ h => takeCancel_memOk h
  split
  · exact decodeIssue_memOk hu
  split
  · exact waveTrap_memOk (modThreads_memOk hu)
  · exact decodeIssue_memOk (noteEntry_memOk (modThreads_memOk hu))

theorem cur_memOk {c} (h : s.memOk) : State.memOk { s with cur := c } := h

@[simp] theorem issueWave_memOk {k} (h : s.memOk) : (issueWave k s).memOk := by
  unfold issueWave
  extract_lets s0 ls s1 pc at_
  have hs0 : s0.memOk := modWave_memOk (cur_memOk h)
  clear_value s0
  split
  · exact delWave_memOk hs0
  have hs1 : s1.memOk := modThreads_memOk hs0
  split
  · exact waveTrap_memOk hs1
  · exact issueAt_memOk hs1

@[simp] theorem issue_memOk {core quad} (h : s.memOk) : (Machine.issue core quad s).memOk := by
  unfold Machine.issue
  split
  · exact h
  split
  · exact cur_memOk (settle_memOk h)
  · exact cur_memOk (settle_memOk (issueWave_memOk (rejoin_memOk h)))

/-! ### The operations of Agenda.lean -/

@[simp] theorem tick_memOk (h : s.memOk) : (tick s).memOk := by simp [tick, h]

@[simp] theorem recallVictims_memOk (h : s.memOk) : (recallVictims s).memOk := by
  grind [recallVictims, dirRecall_memOk, foldl_memOk]

@[simp] theorem mergeMonitored_memOk {before} (h : s.memOk) : (mergeMonitored before s).memOk := by
  grind [mergeMonitored, mergeLine_memOk, settleLine_memOk, foldl_memOk]

@[simp] theorem advanceTime_memOk (h : s.memOk) : (advanceTime s).memOk := by
  grind [advanceTime, mergeMonitored_memOk, recallVictims_memOk, tick_memOk, padsOk_put, padsOk_del, padsOk_map, teams_padsOk, modWork_padsOk,
    memOk_mk, mem_canonical]

/-! ### The step -/

theorem next_memOk {u t : State} (e : (Host.Outcome.next u : Host.Outcome State Fault Refusal) = .next t) (hu : u.memOk) : t.memOk := by
  cases e
  exact hu

theorem execHostRead_memOk {pa size t} (h : s.memOk) (e : execHostRead pa size s = .next t) : t.memOk := by
  unfold execHostRead at e
  split at e
  · exact next_memOk e (hostRead_memOk h)
  · cases e

theorem execHostWrite_memOk {pa size data t} (h : s.memOk) (e : execHostWrite pa size data s = .next t) : t.memOk := by
  unfold execHostWrite at e
  split at e
  · exact next_memOk e (hostWrite_memOk h)
  · cases e

theorem exec_event_memOk {i t} (h : s.memOk) (hi : fieldsOf i = none) (e : exec i s = .next t) : t.memOk := by
  cases i
  case hostRead pa size => exact execHostRead_memOk h e
  case hostWrite pa size data => exact execHostWrite_memOk h e
  case lqTailWrite queue tail => exact next_memOk e (lqTailWrite_memOk h)
  case launchAcceptResume queue => exact next_memOk e (launchAcceptResume_memOk h)
  case taskEmissionResume grid => exact next_memOk e (taskEmissionResume_memOk h)
  case dispatchDecision core => exact next_memOk e (dispatchDecision_memOk h)
  case waveFormation core quad => exact next_memOk e (waveFormation_memOk h)
  case formingWaveTimeout wave => exact next_memOk e (formingWaveTimeout_memOk h)
  case issue core quad => exact next_memOk e (issue_memOk h)
  case yieldExpiry thread => exact next_memOk e (yieldExpiry_memOk h)
  case teamRetire team => exact next_memOk e (teamRetire_memOk h)
  case gridDrain grid => exact next_memOk e (gridDrain_memOk h)
  case neighbourAveraging => exact next_memOk e (neighbourAveraging_memOk h)
  case taskTransitArrival task => exact next_memOk e (taskTransitArrival_memOk h)
  case thermalMigrationScan temps => exact next_memOk e (thermalMigrationScan_memOk h)
  case preemption team => exact next_memOk e (preemption_memOk h)
  case teamRestore core task => exact next_memOk e (teamRestore_memOk h)
  case contextSwitch core => exact next_memOk e (contextSwitch_memOk h)
  case l1SplitChange core => exact next_memOk e (l1SplitChange_memOk h)
  case deadlineFire grid => exact next_memOk e (deadlineFire_memOk h)
  case binTimeout core bin => exact next_memOk e (binTimeout_memOk h)
  case tileEmit core bin => exact next_memOk e (tileEmit_memOk h)
  case scratchpadRefill team page => exact next_memOk e (scratchpadRefill_memOk h)
  case missEntryGrant core => exact next_memOk e (missEntryGrant_memOk h)
  case missDataFill core sector outcome => exact next_memOk e (missDataFill_memOk h)
  case tlbWalk index => exact next_memOk e (tlbWalk_memOk h)
  case dirReadRequest line core => exact next_memOk e (dirReadRequest_memOk h)
  case dirOwnershipRequest line core => exact next_memOk e (dirOwnershipRequest_memOk h)
  case dirBuntingRequest line core tag => exact next_memOk e (dirBuntingRequest_memOk h)
  case invalidation core line => exact next_memOk e (invalidation_memOk h)
  case invalidationAck core line => exact next_memOk e (invalidationAck_memOk h)
  case mergeRequest line => exact next_memOk e (mergeRequest_memOk h)
  case merge line => exact next_memOk e (merge_memOk h)
  case dirRecall line => exact next_memOk e (dirRecall_memOk h)
  case l1Eviction core line => exact next_memOk e (l1Eviction_memOk h)
  case writebackAck core line => exact next_memOk e (writebackAck_memOk h)
  case farOperation op => exact next_memOk e (farOperation_memOk h)
  case barrierCredit credit => exact next_memOk e (barrierCredit_memOk h)
  case monitorWake monitor => exact next_memOk e (monitorWake_memOk h)
  case monitorPoll thread => exact next_memOk e (monitorPoll_memOk h)
  case birsp line data => exact next_memOk e (birsp_memOk h)
  case copySector core outcome => exact next_memOk e (copySector_memOk h)
  case copyComplete core copy => exact next_memOk e (copyComplete_memOk h)
  case eventPulse core source => exact next_memOk e (eventPulse_memOk h)
  case sinkMprogStart core sink => exact next_memOk e (sinkMprogStart_memOk h)
  case sinkCopySubmit core sink => exact next_memOk e (sinkCopySubmit_memOk h)
  case engineProgramFetch core engine => exact next_memOk e (engineProgramFetch_memOk h)
  case engineFault core engine cause addr => exact next_memOk e (engineFault_memOk h)
  case queryComplete cluster => exact next_memOk e (queryComplete_memOk h)
  case burgeeHold channel => exact next_memOk e (burgeeHold_memOk h)
  case fabricFlitRoute flit => exact next_memOk e (fabricFlitRoute_memOk h)
  case packetDeliver packet => exact next_memOk e (packetDeliver_memOk h)
  case e2eAck flow seq => exact next_memOk e (e2eAck_memOk h)
  case retransmitTimeout flow seq => exact next_memOk e (retransmitTimeout_memOk h)
  case linkReplay port => exact next_memOk e (linkReplay_memOk h)
  case negotiationFlit port flit => exact next_memOk e (negotiationFlit_memOk h)
  case freezeFlit port flit => exact next_memOk e (freezeFlit_memOk h)
  case leaseRenewal line answer => exact next_memOk e (leaseRenewal_memOk h)
  case leaseExpiry line => exact next_memOk e (leaseExpiry_memOk h)
  case leaseEmbargoEnd page => exact next_memOk e (leaseEmbargoEnd_memOk h)
  case portRetrain port ok => exact next_memOk e (portRetrain_memOk h)
  case phbHoldTimeout bank => exact next_memOk e (phbHoldTimeout_memOk h)
  case channelDqRetrain channel => exact next_memOk e (channelDqRetrain_memOk h)
  case freezeRingStep => exact next_memOk e (freezeRingStep_memOk h)
  case powerGovernorTick power => exact next_memOk e (powerGovernorTick_memOk h)
  case currentMonitorOver power => exact next_memOk e (currentMonitorOver_memOk h)
  case waveSample core context => exact next_memOk e (waveSample_memOk h)
  case breakdownRecord core counts => exact next_memOk e (breakdownRecord_memOk h)
  case comparatorMatch pair => exact next_memOk e (comparatorMatch_memOk h)
  case comparatorTimeout pair => exact next_memOk e (comparatorTimeout_memOk h)
  case redundancyMismatch pair kind => exact next_memOk e (redundancyMismatch_memOk h)
  case trapServe core => exact next_memOk e (trapServe_memOk h)
  case heartbeatMissed => exact next_memOk e (heartbeatMissed_memOk h)
  case clockMonitor => exact next_memOk e (clockMonitor_memOk h)
  case supplyMonitor => exact next_memOk e (supplyMonitor_memOk h)
  case thermalTrip => exact next_memOk e (thermalTrip_memOk h)
  case freezePin => exact next_memOk e (freezePin_memOk h)
  case arrayUncorrected unitKind unit addr => exact next_memOk e (arrayUncorrected_memOk h)
  case moduleQuiescent => exact next_memOk e (moduleQuiescent_memOk h)
  case hbOutToggle => exact next_memOk e (hbOutToggle_memOk h)
  case gdnCtlFrz w => exact next_memOk e (gdnCtlFrz_memOk h)
  case gdnCtlThaw w => exact next_memOk e (gdnCtlThaw_memOk h)
  case gdnCtlRel w => exact next_memOk e (gdnCtlRel_memOk h)
  case gdnCtlAck w => exact next_memOk e (gdnCtlAck_memOk h)
  case gdnHbWrite context beat => exact next_memOk e (gdnHbWrite_memOk h)
  case gdnHbwinWrite window => exact next_memOk e (gdnHbwinWrite_memOk h)
  case mxeCtlClrst core => exact next_memOk e (mxeCtlClrst_memOk h)
  case mxeCtlAbort core => exact next_memOk e (mxeCtlAbort_memOk h)
  case mxeCtlSkip core => exact next_memOk e (mxeCtlSkip_memOk h)
  case mxeCtlResume core => exact next_memOk e (mxeCtlResume_memOk h)
  case cpeCtlFail core fcause => exact next_memOk e (cpeCtlFail_memOk h)
  case cpeCtlResume core => exact next_memOk e (cpeCtlResume_memOk h)
  case lcpCtlAbort core => exact next_memOk e (lcpCtlAbort_memOk h)
  case lcpCtlSkip core => exact next_memOk e (lcpCtlSkip_memOk h)
  case lcpCtlResume core => exact next_memOk e (lcpCtlResume_memOk h)
  case phbCtlMapgo bank => exact next_memOk e (phbCtlMapgo_memOk h)
  case phbCtlRetrain bank => exact next_memOk e (phbCtlRetrain_memOk h)
  case hlyVacWrite cluster w => exact next_memOk e (hlyVacWrite_memOk h)
  case hlyAgeWrite cluster w => exact next_memOk e (hlyAgeWrite_memOk h)
  case hlyAvgWrite cluster w => exact next_memOk e (hlyAvgWrite_memOk h)
  case coreL1Write core w => exact next_memOk e (coreL1Write_memOk h)
  case corePartWrite core entry w => exact next_memOk e (corePartWrite_memOk h)
  case sltEntCommit core entry w => exact next_memOk e (sltEntCommit_memOk h)
  case sltEntRevoke core entry w => exact next_memOk e (sltEntRevoke_memOk h)
  case lqCfgWrite queue w => exact next_memOk e (lqCfgWrite_memOk h)
  case dbgCtlWrite context w => exact next_memOk e (dbgCtlWrite_memOk h)
  case pwrCapWrite w => exact next_memOk e (pwrCapWrite_memOk h)
  case mbCmdAttest mailbox => exact next_memOk e (mbCmdAttest_memOk h)
  case mbCmdLogread mailbox => exact next_memOk e (mbCmdLogread_memOk h)
  case sltStatRead core => exact next_memOk e (sltStatRead_memOk h)
  case dbgDropRead context => exact next_memOk e (dbgDropRead_memOk h)
  case trpCntRead core => exact next_memOk e (trpCntRead_memOk h)
  case serrCntRead core => exact next_memOk e (serrCntRead_memOk h)
  case phbStatRead bank => exact next_memOk e (phbStatRead_memOk h)
  case registerWrite agent offset size data => exact next_memOk e (registerWrite_memOk h)
  case moduleReset => exact next_memOk e moduleReset_memOk
  case bringupGuidon image selfTest => exact next_memOk e (bringupGuidon_memOk h)
  case bringupManagement image => exact next_memOk e (bringupManagement_memOk h)
  case bringupRecords identityOk config halyard setup => exact next_memOk e (bringupRecords_memOk h)
  case bringupMemory failing => exact next_memOk e (bringupMemory_memOk h)
  case bringupLinks hostPeer peers => exact next_memOk e (bringupLinks_memOk h)
  case bringupContexts => exact next_memOk e (bringupContexts_memOk h)
  case matrixCommandComplete core => exact next_memOk e (matrixCommandComplete_memOk h)
  case hostSnoop line invalidate => exact next_memOk e (hostSnoop_memOk h)
  case levelCauseClear cause => exact next_memOk e (levelCauseClear_memOk h)
  case vacateHoldExpiry cluster => exact next_memOk e (vacateHoldExpiry_memOk h)
  case phbBusyClear bank errs => exact next_memOk e (phbBusyClear_memOk h)
  case flowOpen flow dest ordered secure port => exact next_memOk e (flowOpen_memOk h)
  case flowClose flow => exact next_memOk e (flowClose_memOk h)
  all_goals cases hi

theorem exec_memOk {i t} (h : s.memOk) (e : exec i s = .next t) : t.memOk := by
  cases hi : fieldsOf i with
  | none => exact exec_event_memOk h hi e
  | some f => exact next_memOk ((exec_eq_runInstr s hi).symm.trans e) (runInstr_memOk h)
end

/-- Settles O11: time passes, and then one instruction or event runs; neither leaves canonical form. -/
theorem memoryCanonicalStep : Obligations.MemoryCanonicalStep := fun _ _ h e => exec_memOk (advanceTime_memOk h) e

/-- Settles O10: both are empty lists. -/
theorem memoryCanonicalAtReset : Obligations.MemoryCanonicalAtReset := ⟨⟨rfl, padsOk_nil⟩, rfl⟩

end Sys2Proof.Proofs
end

section
/-!
PROOFS. The loads and stores of a scratchpad, and two statements about memory that fail where the memory is not in canonical form.
-/
namespace Sys2Proof.Proofs

open Machine Laws

/-- Settles O30: the loads and the stores of a place of a scratchpad or of a window are the laws of Laws/Pads, with the two placings of an address. -/
theorem scratchpads : Obligations.Scratchpads :=
  ⟨fun _ _ _ _ hs => ⟨fun h => ⟨_, rfl, padLoad_done hs h⟩, fun h => ⟨_, rfl, padLoad_done hs h⟩⟩,
    fun _ _ _ _ _ hs he hrel => ⟨fun h => ⟨_, rfl, padStore_done hs he h hrel⟩, fun h => ⟨_, rfl, padStore_done hs he h hrel⟩⟩⟩

/-! Both statements below speak of every state, and so of one whose memory lists its bytes out of order. There a zero stored at an address is
lost: the list is searched only up to the first greater address, so an entry that stands behind that stays and is read. -/

/-- A memory that lists the byte 1 before the byte 0: a zero stored at the address 0 leaves the 9 that is read there. -/
def outOfOrder : Mem := [(1, 1), (0, 9)]

/-- A device whose memory is out of order and that has asked the host about the line 0. -/
def askedOutOfOrder : State := { State.reset with mem := outOfOrder, home := { binv := [0] } }

/-- The host's answer stores 256 zeros in the line 0, and the byte 0 keeps its 9. -/
theorem birsp_askedOutOfOrder : homeBytes (birsp 0 (some 0) askedOutOfOrder) 0 1 = [9] := by decide +kernel

/-- Refutes O54: a back-invalidate answer does not store its zeros in a memory that lists its bytes out of order, which
the clause does not exclude. -/
theorem not_hostAccesses : ¬ Obligations.HostAccesses := by
  unfold Obligations.HostAccesses
  rintro ⟨_, _, _, hbirsp, _⟩
  obtain ⟨_, hanswer, _⟩ := hbirsp askedOutOfOrder 0 0 rfl rfl
  obtain ⟨t, ht, _, _, hbytes, _⟩ := hanswer 0 (by decide) rfl rfl
  have hstep : exec (.birsp 0 (some 0)) askedOutOfOrder = .next (birsp 0 (some 0) askedOutOfOrder) := rfl
  have hzero := hbytes 0 (by decide)
  rw [← Host.Outcome.next.inj (hstep.symm.trans ht), birsp_askedOutOfOrder] at hzero
  simp at hzero

/-- A line of which the core has written the bytes 0 and 1, with zeros, without asking for ownership. -/
def writtenZeros : L1Line := { st := .swm, mask := 3 }

/-- A device whose memory is out of order and whose core 0 holds such a line at 0. -/
def swmOutOfOrder : State := { State.reset with mem := outOfOrder, cores := [(0, { l1 := [(0, writtenZeros)] })] }

/-- The eviction writes the line's zeros back, and the byte 0 keeps its 9. -/
theorem l1Eviction_swmOutOfOrder : homeBytes (l1Eviction 0 0 swmOutOfOrder) 0 1 = [9] := by decide +kernel

/-- Refutes O52: the eviction of an SWM line does not write its zeros back to a memory that lists its bytes out of order,
which the clause does not exclude. -/
theorem not_directory : ¬ Obligations.Directory := by
  unfold Obligations.Directory
  rintro ⟨_, _, _, _, heviction⟩
  obtain ⟨hline, _⟩ := heviction swmOutOfOrder 0 0 0 rfl
  obtain ⟨_, _, hswm⟩ := hline writtenZeros rfl
  obtain ⟨t, ht, _, hbytes, _⟩ := hswm rfl
  have hstep : exec (.l1Eviction 0 0) swmOutOfOrder = .next (l1Eviction 0 0 swmOutOfOrder) := rfl
  have hzero := hbytes 0 (by decide)
  rw [← Host.Outcome.next.inj (hstep.symm.trans ht), l1Eviction_swmOutOfOrder] at hzero
  simp [writtenZeros] at hzero

end Sys2Proof.Proofs
end

section
/-!
PROOFS. The events of miss-status entries: entries taken, and a sector's data placed.
-/
namespace Sys2Proof.Proofs

open Machine Laws

section
variable {s : State}

/-! ## Entries taken -/

theorem tab_has_put {α : Type} (t : Tab α) (k j : Nat) (v : α) : Tab.has (Tab.put t k v) j = (decide (j = k) || Tab.has t j) := by
  by_cases h : j = k <;> simp [Tab.has, tab_find_put, h]

/-- An entry of a core's miss-status table written. -/
def putMiss (c : Nat) (a : Nat) (m : Miss) (s : State) : State := s.modCore c fun x => { x with miss := Tab.put x.miss a m }
theorem has_putMiss (c a j : Nat) (m : Miss) :
    Tab.has ((putMiss c a m s).core c).miss j = (decide (j = a) || Tab.has (s.core c).miss j) := by
  rw [putMiss, core_modCore, if_pos rfl, tab_has_put]
theorem has_foldl_putMiss {α : Type} (c : Nat) (key : α → Nat) (m : α → Miss) (l : List α) (s : State) (j : Nat) :
    Tab.has ((l.foldl (fun s a => putMiss c (key a) (m a) s) s).core c).miss j =
      (l.any (fun a => decide (j = key a)) || Tab.has (s.core c).miss j) := by
  induction l generalizing s with
  | nil => rfl
  | cons a r ih => rw [List.foldl_cons, ih, has_putMiss, List.any_cons, Bool.or_left_comm, Bool.or_assoc]

theorem askHost_keeps (line : Nat) (s : State) :
    (askHost line s).mem = s.mem ∧ (askHost line s).cores = s.cores ∧ (askHost line s).work = s.work := by
  unfold askHost
  split <;> exact ⟨rfl, rfl, rfl⟩
/-- Requests for a list of lines, each told to its home and asked of the host, change no memory, no core and no thread. -/
theorem foldl_askHost_keeps (c : Nat) (ks : List Nat) (s : State) :
    let t := ks.foldl (fun s k => askHost k (tellHome c k .read s)) s
    t.mem = s.mem ∧ t.cores = s.cores ∧ t.work = s.work := by
  refine List.foldlRecOn (motive := fun t : State => t.mem = s.mem ∧ t.cores = s.cores ∧ t.work = s.work) ks _ ⟨rfl, rfl, rfl⟩
    fun u hu k _ => ?_
  obtain ⟨hmem', hcores', hwork'⟩ := hu
  obtain ⟨hmem, hcores, hwork⟩ := askHost_keeps k (tellHome c k .read u)
  exact ⟨hmem.trans hmem', hcores.trans hcores', hwork.trans hwork'⟩
theorem foldl_putMiss_keeps {α : Type} (c : Nat) (key : α → Nat) (m : α → Miss) (l : List α) (s : State) :
    let t := l.foldl (fun s a => putMiss c (key a) (m a) s) s
    t.mem = s.mem ∧ t.work = s.work :=
  List.foldlRecOn (motive := fun t : State => t.mem = s.mem ∧ t.work = s.work) l _ ⟨rfl, rfl⟩ fun _ hu _ _ => hu

theorem takeMisses_keeps (c : Nat) (hint : BitVec 2) (l2Only : Bool) (asks : List (Nat × Bool)) (s : State) :
    (takeMisses c hint l2Only asks s).mem = s.mem ∧ (takeMisses c hint l2Only asks s).work = s.work := by
  obtain ⟨hmem, hwork⟩ := foldl_putMiss_keeps c (fun a : Nat × Bool => a.1) (fun a => { hint := hint, swm := a.2, l2Only := l2Only }) asks s
  obtain ⟨hmem', _, hwork'⟩ := foldl_askHost_keeps c (dedup (asks.map fun a => lineOf a.1))
    (asks.foldl (fun s a => putMiss c a.1 { hint := hint, swm := a.2, l2Only := l2Only } s) s)
  exact ⟨hmem'.trans hmem, hwork'.trans hwork⟩
theorem has_takeMisses {c : Nat} {hint : BitVec 2} {l2Only : Bool} {asks : List (Nat × Bool)} {a : Nat × Bool} (ha : a ∈ asks) :
    Tab.has ((takeMisses c hint l2Only asks s).core c).miss a.1 = true := by
  obtain ⟨_, hcores, _⟩ := foldl_askHost_keeps c (dedup (asks.map fun a => lineOf a.1))
    (asks.foldl (fun s a => putMiss c a.1 { hint := hint, swm := a.2, l2Only := l2Only } s) s)
  have hput := has_foldl_putMiss c (fun a : Nat × Bool => a.1) (fun a => { hint := hint, swm := a.2, l2Only := l2Only }) asks s a.1
  have hany : (asks.any fun x => decide (a.1 = x.1)) = true := List.any_eq_true.2 ⟨a, ha, by simp⟩
  rw [hany, Bool.true_or] at hput
  simp only [State.core] at hput ⊢
  exact (congrArg (fun t : Tab Core => Tab.has (Tab.get t c {}).miss a.1) hcores).trans hput

theorem missEntryGrant_of_full {c : Nat} {e : Nat × Thread} (he : missWaiters s c = [e])
    (hfull : (s.core c).miss.length + (newMisses s c e.2.asks).length > 256) : missEntryGrant c s = s := by
  simp [missEntryGrant, he, leastBy, hfull]
theorem missEntryGrant_of_single {c : Nat} {e : Nat × Thread} (he : missWaiters s c = [e])
    (hroom : (s.core c).miss.length + (newMisses s c e.2.asks).length ≤ 256) :
    missEntryGrant c s = (takeMisses c e.2.askHint false (newMisses s c e.2.asks) s).modThread e.1 fun t => { t with park := some (.miss 0) } := by
  simp [missEntryGrant, he, leastBy, hroom, State.modThreads]

/-- The entries of the only waiting instruction are taken, and it waits for their data. -/
theorem missEntryGrant_takes {c : Nat} {e : Nat × Thread} (he : missWaiters s c = [e]) (hthread : s.thread? e.1 = some e.2)
    (hroom : (s.core c).miss.length + (newMisses s c e.2.asks).length ≤ 256) :
    let t := missEntryGrant c s
    t.mem = s.mem ∧ (∀ a ∈ newMisses s c e.2.asks, Tab.has (t.core c).miss a.1 = true) ∧
      t.thread? e.1 = some { e.2 with park := some (.miss 0) } ∧ ∀ j, j ≠ e.1 → t.thread? j = s.thread? j := by
  obtain ⟨hmem, hwork⟩ := takeMisses_keeps c e.2.askHint false (newMisses s c e.2.asks) s
  have hthreads : ∀ j, (takeMisses c e.2.askHint false (newMisses s c e.2.asks) s).thread? j = s.thread? j := fun j => by
    rw [State.thread?, State.thread?, hwork]
  simp only [missEntryGrant_of_single he hroom]
  refine ⟨by rw [modThread_mem, hmem], fun a ha => ?_, ?_, fun j hj => ?_⟩
  · rw [core_sameT (sameT_modThread _ _ _)]
    exact has_takeMisses ha
  · rw [thread?_modThread, if_pos rfl, hthreads, hthread]; rfl
  · rw [thread?_modThread, if_neg hj, hthreads]

end

end Sys2Proof.Proofs
end

section
/-!
PROOFS. A sector's data placed: the line of a miss-status entry granted and placed where the core has room for it.
-/
namespace Sys2Proof.Proofs

open Machine Laws

section
variable {s t u : State}

/-- Two states differ in caches and threads alone: memory, the log, the directory, poison and every core's miss-status entries are as they were. -/
structure CachesOnly (s t : State) : Prop where
  mem : t.mem = s.mem
  log : t.log = s.log
  dir : t.home.dir = s.home.dir
  poison : t.home.poison = s.home.poison
  miss : ∀ c, (t.core c).miss = (s.core c).miss
theorem CachesOnly.refl (s : State) : CachesOnly s s := ⟨rfl, rfl, rfl, rfl, fun _ => rfl⟩
theorem CachesOnly.trans (h : CachesOnly s t) (h' : CachesOnly t u) : CachesOnly s u :=
  ⟨h'.mem.trans h.mem, h'.log.trans h.log, h'.dir.trans h.dir, h'.poison.trans h.poison, fun c => (h'.miss c).trans (h.miss c)⟩
theorem cachesOnly_ite {p : Prop} [Decidable p] (h : CachesOnly s t) : CachesOnly s (if p then t else s) := by
  split
  · exact h
  · exact .refl s

theorem cachesOnly_modCore (c : Nat) {g : Core → Core} (hg : (g (s.core c)).miss = (s.core c).miss) : CachesOnly s (s.modCore c g) := by
  refine ⟨rfl, rfl, rfl, rfl, fun d => ?_⟩
  rw [core_modCore]
  split
  · next h => rw [h, hg]
  · rfl
theorem cachesOnly_setL1 (c line : Nat) (l : L1Line) (s : State) : CachesOnly s (setL1 c line l s) := cachesOnly_modCore c rfl
theorem cachesOnly_demoteLast (c line : Nat) (s : State) : CachesOnly s (demoteLast c line s) := by
  unfold demoteLast
  dsimp only
  split
  · exact .refl s
  · split
    · exact cachesOnly_setL1 _ _ _ s
    · exact .refl s
theorem cachesOnly_l2Touch (line : Nat) (hint : BitVec 2) (valid dirty : BitVec 4) (s : State) : CachesOnly s (l2Touch line hint valid dirty s) := by
  obtain ⟨hpoison, hdir, hcores⟩ := l2Touch_keeps line hint valid dirty s
  exact ⟨rfl, rfl, hdir, hpoison, fun c => by rw [State.core, State.core, hcores]⟩
theorem cachesOnly_touchHint (c line : Nat) (hint : BitVec 2) (s : State) : CachesOnly s (touchHint c line hint s) := by
  unfold touchHint
  split
  · exact cachesOnly_l2Touch _ _ _ _ s
  · exact (cachesOnly_ite (cachesOnly_demoteLast c line s)).trans (cachesOnly_setL1 _ _ _ _)
theorem cachesOnly_modThreads (ks : List Nat) (g : Thread → Thread) : CachesOnly s (s.modThreads ks g) :=
  ⟨modThreads_mem .., modThreads_log .., by rw [modThreads_home], by rw [modThreads_home], fun c => by rw [core_sameT (sameT_modThreads _ _ _)]⟩

theorem CachesOnly.dirOf (h : CachesOnly s t) (line : Nat) : Machine.dirOf t line = Machine.dirOf s line := by
  rw [Machine.dirOf, Machine.dirOf, h.dir]

/-! ## A line placed -/

theorem makeRoom_of_roomFor {c line : Nat} (h : RoomFor s c line) (swm : Bool) : makeRoom c line swm s = some s := by
  obtain ⟨hline, hvictim⟩ := h
  simp [makeRoom, hline, hvictim]
theorem touchHint_l1Line {c line : Nat} {l : L1Line} (h : l1Line s c line = some l) (hint : BitVec 2) :
    l1Line (touchHint c line hint s) c line = some { l with hint := hintNext hint (some l.hint), used := s.clock } := by
  simp only [touchHint, h, l1Line_setL1_self]
/-- A line placed in a core that has room for it: its state and its sectors are those given. -/
theorem placeLine_of_roomFor {c line : Nat} (h : RoomFor s c line) (st : L1State) (hint : BitVec 2) (valid dirty : BitVec 4) :
    ∃ t e, placeLine c line st hint valid dirty s = some t ∧ CachesOnly s t ∧ l1Line t c line = some e ∧ e.st = st ∧ e.valid = valid := by
  simp only [placeLine, makeRoom_of_roomFor h, Option.map_some, h.1, Option.getD_none, Option.isSome_none, Bool.false_eq_true, if_false]
  refine ⟨_, _, rfl, ?_, touchHint_l1Line (l1Line_setL1_self _ _ _ _) hint, rfl, ?_⟩
  · exact (cachesOnly_ite (cachesOnly_demoteLast c line s)).trans
      ((cachesOnly_l2Touch _ _ _ _ _).trans ((cachesOnly_setL1 _ _ _ _).trans (cachesOnly_touchHint _ _ _ _)))
  · exact BitVec.zero_or

theorem grantRead_of_idle {c line : Nat} (h : Idle s line .i) :
    grantRead c line s = (.e, setDir line { dirOf s line with st := .x, owner := c, sharers := coreBit c } s) := by
  obtain ⟨_, hst⟩ := h
  simp only [grantRead, mergeLine_quiet s line (by simp [hst]), hst]

/-! ## The data of a sector -/

/-- The sector stands among the core's arrived ones where an instruction waits for it, and what waits for no other sector reissues. -/
def arrival (c sector : Nat) (s : State) : State :=
  let waited := s.work.threads.any fun e => e.2.park == some (.miss 0) && s.coreOf e.2 == c && e.2.asks.any fun a => a.1 == sector
  wakeMisses c (if waited then s.modCore c fun x => { x with arrived := x.arrived ++ [sector] } else s)
/-- The data of a sector arrives at a core that has room for its line: the entry is free, the line granted and placed. -/
def dataPlaced (c sector : Nat) (hint : BitVec 2) (s : State) : State :=
  let freed := s.modCore c fun x => { x with miss := Tab.del x.miss sector }
  let g := grantRead c (lineOf sector) freed
  arrival c sector ((placeLine c (lineOf sector) g.1 hint (sectorBit sector) 0 g.2).getD g.2)
/-- A line is asked of the host no longer. -/
def unasked (line : Nat) (s : State) : State := s.modHome fun h => { h with hostReqs := h.hostReqs.filter fun k => k != line }
/-- A line is poisoned, which the device log tells. -/
def poisonLogged (sector : Nat) (s : State) : State :=
  setPoison (lineOf sector) (s.logDev 0x50 0xFF (unitOf 1 (homeSlice (lineOf sector))) (BitVec.ofNat 64 sector) 0)

/-- A sector that a core asked for in a tracked copy, whose line is in no other L1 and under no message, and that the core has room for. -/
structure Awaited (s : State) (c sector : Nat) (hint : BitVec 2) : Prop where
  entry : Tab.find (s.core c).miss sector = some { hint := hint }
  kept : hint ≠ 3
  idle : Idle s (lineOf sector) .i
  room : RoomFor s c (lineOf sector)
  here : underWay s c (lineOf sector) [.read, .data] = false

/-- The outcome of the read told: an error logged, and the line poisoned when it could not be corrected. -/
def outcomeTold (c sector : Nat) (outcome : ReadOutcome) (s : State) : State :=
  match outcome with
  | .clean => s
  | .corrected => softError c 0xFF 0x50 sector s
  | .uncorrectable => poisonLogged sector s
theorem missDataFill_of_awaited {c sector : Nat} {hint : BitVec 2} (h : Awaited s c sector hint) (outcome : ReadOutcome) :
    missDataFill c sector outcome s = dataPlaced c sector hint (outcomeTold c sector outcome (unasked (lineOf sector) s)) := by
  have hsettle : settleLine (lineOf sector) s = s := by simp [settleLine, h.idle.1]
  have hkept : (hint != 3) = true := by simpa using h.kept
  simp only [missDataFill, h.entry, h.here, hkept, makeRoom_of_roomFor h.room, hsettle, Bool.not_false, Bool.and_self, Option.isNone_some,
    Bool.and_false, Bool.or_self, Bool.false_eq_true, if_false, if_true]
  cases outcome <;> rfl

theorem l1Line_modCore {c line : Nat} {g : Core → Core} (hl1 : (g (s.core c)).l1 = (s.core c).l1) :
    l1Line (s.modCore c g) c line = l1Line s c line := by
  rw [l1Line, core_modCore, if_pos rfl, hl1, l1Line]
/-- A change of a core that keeps its lines and its size keeps its room. -/
theorem roomFor_modCore {c line : Nat} (h : RoomFor s c line) {g : Core → Core} (hl1 : (g (s.core c)).l1 = (s.core c).l1)
    (hsize : (g (s.core c)).l1Size = (s.core c).l1Size) : RoomFor (s.modCore c g) c line := by
  have hset : setLines (s.modCore c g) c line = setLines s c line := by
    simp only [setLines, sameSet, l1Sets, core_modCore, if_pos, hl1, hsize]
  obtain ⟨hline, hvictim⟩ := h
  exact ⟨(l1Line_modCore hl1).trans hline, by rw [victimOf, hset]; exact hvictim⟩

theorem cachesOnly_arrival (c sector : Nat) (s : State) : CachesOnly s (arrival c sector s) :=
  (cachesOnly_ite (cachesOnly_modCore c rfl)).trans (cachesOnly_modThreads _ _)
theorem l1Line_arrival (c sector line : Nat) (s : State) : l1Line (arrival c sector s) c line = l1Line s c line := by
  rw [l1Line, arrival, wakeMisses, core_sameT (sameT_modThreads _ _ _)]
  split
  · exact l1Line_modCore rfl
  · rfl

/-- The entry freed, and the line granted to its core. -/
def grantedTo (c sector : Nat) (s : State) : State :=
  setDir (lineOf sector) { dirOf s (lineOf sector) with st := .x, owner := c, sharers := coreBit c }
    (s.modCore c fun x => { x with miss := Tab.del x.miss sector })
theorem find_miss_grantedTo (c sector : Nat) (s : State) : Tab.find ((grantedTo c sector s).core c).miss sector = none := by
  show Tab.find ((s.modCore c fun x => { x with miss := Tab.del x.miss sector }).core c).miss sector = none
  rw [core_modCore, if_pos rfl, tab_find_del, if_pos rfl]
theorem roomFor_grantedTo {c sector line : Nat} (h : RoomFor s c line) : RoomFor (grantedTo c sector s) c line :=
  show RoomFor (s.modCore c fun x => { x with miss := Tab.del x.miss sector }) c line from roomFor_modCore h rfl rfl
theorem dirOf_grantedTo (c sector : Nat) (s : State) :
    dirOf (grantedTo c sector s) (lineOf sector) = { dirOf s (lineOf sector) with st := .x, owner := c, sharers := coreBit c } := by
  simp [grantedTo, setDir, dirOf]

/-- The data placed is the line granted and placed, with changes of threads and of caches only after it. -/
theorem dataPlaced_spec {c sector : Nat} (hint : BitVec 2) (hi : Idle s (lineOf sector) .i) (hr : RoomFor s c (lineOf sector)) :
    let t := dataPlaced c sector hint s
    CachesOnly (grantedTo c sector s) t ∧ ∃ e, l1Line t c (lineOf sector) = some e ∧ e.st = .e ∧ e.valid = sectorBit sector := by
  have hgrant : grantRead c (lineOf sector) (s.modCore c fun x => { x with miss := Tab.del x.miss sector }) = (.e, grantedTo c sector s) :=
    grantRead_of_idle hi
  obtain ⟨placed, e, hplaced, hcaches, hline, hst, hvalid⟩ := placeLine_of_roomFor (roomFor_grantedTo hr) .e hint (sectorBit sector) 0
  have ht : dataPlaced c sector hint s = arrival c sector placed := by
    rw [dataPlaced, hgrant, hplaced, Option.getD_some]
  rw [ht]
  exact ⟨hcaches.trans (cachesOnly_arrival c sector placed), e, (l1Line_arrival c sector _ placed).trans hline, hst, hvalid⟩

theorem lineOf_lineOf (pa : Nat) : lineOf (lineOf pa) = lineOf pa := by
  unfold lineOf
  rw [Nat.mul_div_cancel _ (by decide)]
theorem poisoned_poisonLogged (sector : Nat) (s : State) : poisoned (poisonLogged sector s) (lineOf sector) = true := by
  simp [poisoned, poisonLogged, setPoison, lineOf_lineOf, tab_has_put]
theorem sectorBit_getLsbD (sector : Nat) : (sectorBit sector).getLsbD (sector / 64 % 4) = true := by
  have : sector / 64 % 4 < 4 := Nat.mod_lt _ (by decide)
  simp [sectorBit, this]

/-- Clean data: the line in E at the core, with the sector valid. -/
theorem missDataFill_clean_places {c sector : Nat} {hint : BitVec 2} (h : Awaited s c sector hint) :
    let t := missDataFill c sector .clean s
    t.mem = s.mem ∧ Tab.find (t.core c).miss sector = none ∧
      dirOf t (lineOf sector) = { dirOf s (lineOf sector) with st := .x, owner := c, sharers := coreBit c } ∧ t.home.poison = s.home.poison ∧
      ∃ e, l1Line t c (lineOf sector) = some e ∧ e.st = .e ∧ e.valid.getLsbD (sector / 64 % 4) = true := by
  obtain ⟨hcaches, e, hline, hst, hvalid⟩ := dataPlaced_spec (s := unasked (lineOf sector) s) hint h.idle h.room
  simp only [missDataFill_of_awaited h, outcomeTold]
  refine ⟨hcaches.mem, ?_, ?_, hcaches.poison, e, hline, hst, hvalid ▸ sectorBit_getLsbD sector⟩
  · rw [hcaches.miss, find_miss_grantedTo]
  · rw [hcaches.dirOf, dirOf_grantedTo]; rfl
/-- Data that could not be corrected: the line is poisoned, and the log tells of the sector. -/
theorem missDataFill_uncorrectable_poisons {c sector : Nat} {hint : BitVec 2} (h : Awaited s c sector hint) :
    let t := missDataFill c sector .uncorrectable s
    t.mem = s.mem ∧ Tab.find (t.core c).miss sector = none ∧ poisoned t (lineOf sector) = true ∧
      t.log.head? = some ⟨0x50, 0xFF, unitOf 1 (homeSlice (lineOf sector)), s.dtime, BitVec.ofNat 64 sector, 0⟩ := by
  obtain ⟨hcaches, -⟩ := dataPlaced_spec (s := poisonLogged sector (unasked (lineOf sector) s)) hint h.idle h.room
  simp only [missDataFill_of_awaited h, outcomeTold]
  refine ⟨hcaches.mem, ?_, ?_, ?_⟩
  · rw [hcaches.miss, find_miss_grantedTo]
  · rw [poisoned, hcaches.poison]
    exact poisoned_poisonLogged sector _
  · rw [hcaches.log]; rfl

end

end Sys2Proof.Proofs
end

section
/-!
PROOFS. A hold of the crossbar: the message its station sends, and the answer a slice gives.
-/
namespace Sys2Proof.Proofs

open Machine Laws

section
variable {s : State}

theorem chanOf_setChan_self (k : Nat) (x : Chan) : chanOf (setChan k x s) k = x := by simp [chanOf, setChan]
theorem chanOf_setChan_ne {j k : Nat} (h : j ≠ k) (x : Chan) : chanOf (setChan k x s) j = chanOf s j := by
  simp [chanOf, setChan, tab_get_put, h]

theorem nextMsg_of_noneHere {x : Chan} (home : Bool) (h : ∀ m ∈ x.msgs, m.station ≠ x.station) : nextMsg home x = none := by
  have hmine : (x.msgs.filter fun m => m.station == x.station) = [] := List.filter_eq_nil_iff.2 (by simpa using h)
  cases home <;> simp [nextMsg, hmine, leastBy]
theorem nextMsg_of_single {x : Chan} {m : Msg} (home : Bool) (hx : x.msgs = [m]) (hm : m.station = x.station) : nextMsg home x = some m := by
  cases home <;> simp [nextMsg, hx, hm, leastBy]

theorem burgeeHold_of_noChannel {ch : Nat} (h : 80 ≤ ch) : burgeeHold ch s = s := by
  unfold burgeeHold
  exact if_pos h
theorem burgeeHold_home_of_noneHere {ch : Nat} (hch : ch < 64) (h : ∀ m ∈ (chanOf s ch).msgs, m.station ≠ (chanOf s ch).station) :
    burgeeHold ch s = setChan ch { chanOf s ch with station := ((chanOf s ch).station + 1) % 16, sent := [] } s := by
  have hin : ¬ ch ≥ 80 := by omega
  simp [burgeeHold, hin, hch, nextMsg_of_noneHere _ h]
theorem burgeeHold_return_of_single {ch : Nat} {m : Msg} (h64 : 64 ≤ ch) (h80 : ch < 80) (hx : (chanOf s ch).msgs = [m])
    (hm : m.station = (chanOf s ch).station) :
    burgeeHold ch s = setChan ch { chanOf s ch with station := ((chanOf s ch).station + 1) % 64, msgs := [], sent := [m] } s := by
  have hin : ¬ ch ≥ 80 := by omega
  have hreturn : ¬ ch < 64 := by omega
  simp [burgeeHold, hin, hreturn, nextMsg_of_single _ hx hm, hx, dropFirst]

/-- A home channel once its station has sent the only message it had. -/
def homeSent (ch : Nat) (m : Msg) (s : State) : State :=
  setChan ch { chanOf s ch with
    station := ((chanOf s ch).station + 1) % 16, msgs := [], sent := [m], rr := Tab.put (chanOf s ch).rr m.station m.core } s
theorem burgeeHold_home_of_noAnswer {ch : Nat} {m : Msg} (hch : ch < 64) (hx : (chanOf s ch).msgs = [m]) (hm : m.station = (chanOf s ch).station)
    (ha : m.kind.answer = none) : burgeeHold ch s = homeSent ch m s := by
  have hin : ¬ ch ≥ 80 := by omega
  simp [burgeeHold, hin, hch, nextMsg_of_single _ hx hm, hx, dropFirst, homeSent, ha]
theorem burgeeHold_home_of_answer {ch : Nat} {m : Msg} {a : MsgKind} (hch : ch < 64) (hx : (chanOf s ch).msgs = [m])
    (hm : m.station = (chanOf s ch).station) (ha : m.kind.answer = some a) :
    burgeeHold ch s = sendMsg (64 + m.station) ⟨ch, 8 * m.station + m.core, m.line, a⟩ (homeSent ch m s) := by
  have hin : ¬ ch ≥ 80 := by omega
  simp [burgeeHold, hin, hch, nextMsg_of_single _ hx hm, hx, dropFirst, homeSent, ha]

/-- A slice's answer, where it gives one, is the last message of the return channel of the sender's cluster. -/
theorem burgeeHold_home_answers {ch : Nat} {m : Msg} (hch : ch < 64) (hx : (chanOf s ch).msgs = [m]) (hm : m.station = (chanOf s ch).station) :
    ∃ t, exec (.burgeeHold ch) s = .next t ∧ t = { s with fabric := t.fabric } ∧
      chanOf t ch = { chanOf s ch with
        station := ((chanOf s ch).station + 1) % 16, msgs := [], sent := [m], rr := Tab.put (chanOf s ch).rr m.station m.core } ∧
      (chanOf t (64 + m.station)).msgs = (chanOf s (64 + m.station)).msgs ++
        match m.kind.answer with | some a => [⟨ch, 8 * m.station + m.core, m.line, a⟩] | none => [] := by
  have hne : 64 + m.station ≠ ch := by omega
  have hstep : exec (.burgeeHold ch) s = .next (burgeeHold ch s) := rfl
  cases ha : m.kind.answer with
  | none =>
    rw [burgeeHold_home_of_noAnswer hch hx hm ha] at hstep
    exact ⟨_, hstep, rfl, chanOf_setChan_self _ _, by simp [homeSent, chanOf_setChan_ne hne]⟩
  | some a =>
    rw [burgeeHold_home_of_answer hch hx hm ha] at hstep
    refine ⟨_, hstep, rfl, (chanOf_setChan_ne hne.symm _).trans (chanOf_setChan_self _ _), ?_⟩
    simp [sendMsg, homeSent, chanOf_setChan_self, chanOf_setChan_ne hne]

end

end Sys2Proof.Proofs
end

section
/-!
PROOFS. The events of page-table walks and of far operations.
-/
namespace Sys2Proof.Proofs

open Machine Laws

section
variable {s : State}

/-! ## Walks -/

/-- The queue of walks once the page of a walk has been looked for. -/
def walksLeft (s : State) (w : Walk) : List Walk := s.walks.filter fun y => !(y.core == w.core && y.ctx == w.ctx && y.va / 4096 == w.va / 4096)
theorem mem_walksLeft {w y : Walk} (h : y ∈ walksLeft s w) : y ∈ s.walks ∧ (y.core = w.core → y.ctx = w.ctx → y.va / 4096 ≠ w.va / 4096) := by
  simpa [walksLeft, or_assoc, imp_iff_not_or] using h

theorem tlbWalk_of_noLeaf {i : Nat} {w : Walk} (hw : s.walks[i]? = some w)
    (hleaf : walkFrom s w.ctx (s.ctx w.ctx).world w.va 4 (s.ctx w.ctx).root = none) :
    tlbWalk i s = { s with walks := walksLeft s w } := by
  simp only [tlbWalk, hw, hleaf, walksLeft]

/-- The translation that a walk enters in the TLBs. -/
def walked (s : State) (w : Walk) (pte : DWord) (pages : Nat) : TlbEntry :=
  { ctx := w.ctx, gen := (s.ctx w.ctx).gen, vpn := w.va / 4096 / pages * pages, pages := pages, pte := pte }
theorem tlbWalk_of_leaf {i : Nat} {w : Walk} {pte : DWord} {pages : Nat} (hw : s.walks[i]? = some w)
    (hleaf : walkFrom s w.ctx (s.ctx w.ctx).world w.va 4 (s.ctx w.ctx).root = some (pte, pages)) :
    tlbWalk i s = (({ s with walks := walksLeft s w } : State).modCore w.core fun c => { c with tlb := tlbPut 64 (walked s w pte pages) c.tlb }).modCluster
      (w.core / 8) fun c => { c with tlb := tlbPut 4096 (walked s w pte pages) c.tlb } := by
  simp only [tlbWalk, hw, hleaf, walksLeft, walked]

theorem tlbPut_head {n : Nat} (hn : 0 < n) (e : TlbEntry) (t : List TlbEntry) : (tlbPut n e t).head? = some e := by
  obtain ⟨k, rfl⟩ := Nat.exists_eq_succ_of_ne_zero hn.ne'
  rfl
theorem tlbPut_length_le (n : Nat) (e : TlbEntry) (t : List TlbEntry) : (tlbPut n e t).length ≤ n := List.length_take_le ..

theorem core_modCluster (c d : Nat) (g : Cluster → Cluster) : (s.modCluster c g).core d = s.core d := rfl
theorem cluster_modCluster_self (c : Nat) (g : Cluster → Cluster) : (s.modCluster c g).cluster c = g (s.cluster c) := by
  simp [State.cluster]

/-! ## Far operations -/

theorem dirOf_of_noEntry {line : Nat} (h : Tab.has s.home.dir line = false) : dirOf s line = {} := by
  simp only [Tab.has, Option.isSome_eq_false_iff, Option.isNone_iff_eq_none] at h
  simp [dirOf, Tab.get, h]
theorem hostHolds_of_noEntry {pa : Nat} (h : Tab.has s.home.dir (lineOf pa) = false) : hostHolds s pa = false := by
  simp [hostHolds, dirOf_of_noEntry h]
theorem settleLine_of_noEntry {line : Nat} (h : Tab.has s.home.dir line = false) : settleLine line s = s := by
  simp [settleLine, dirOf_of_noEntry h]

/-- The answer of a far operation stands on the bus. -/
def farAnswer (x : Nat) (s : State) : State := { s with bus := BitVec.ofNat 512 x }
theorem thread_farAnswer (x k : Nat) : (farAnswer x s).thread k = s.thread k := rfl
/-- A far operation at a line that no directory entry tracks and no poison covers, by its kind. -/
def farAt (o : FarOp) (n pa : Nat) (s : State) : State :=
  let counted := predict o.core (lineOf pa) s
  let old := homeNat s pa n
  let put := fun x => homeWrite none pa (natLe n x)
  match o.kind with
  | .atom => farAnswer old (put (applyOp o.op.toNat old (lowBits n o.b)) counted)
  | .red => farAnswer old (put (applyOp o.op.toNat old (lowBits n o.b)) counted)
  | .cas => farAnswer old (if old = lowBits n o.b then put (lowBits n o.c) counted else counted)
  | .ldl => farAnswer old s
  | .stc =>
    let own := holders s o.core (lineOf pa)
    let ended := counted.modThreads own fun t => { t with resv := none }
    if own.isEmpty then farAnswer 0 ended else farAnswer 1 (put (lowBits n o.b) ended)
theorem farOperation_of_noEntry {o : FarOp} {n pa : Nat} (hn : n = opBytes o.op.toNat) (hpa : pa = o.pa / n * n)
    (hdir : Tab.has s.home.dir (lineOf pa) = false) (hp : poisoned s pa = false) : farOperation o s = farAt o n pa s := by
  have hdir' : Tab.has (predict o.core (lineOf pa) s).home.dir (lineOf pa) = false := hdir
  have hp' : poisoned (predict o.core (lineOf pa) s) pa = false := hp
  have hold : homeNat (predict o.core (lineOf pa) s) pa n = homeNat s pa n := rfl
  cases hk : o.kind <;>
    simp [farOperation, farAt, farAnswer, ← hn, ← hpa, hk, hostHolds_of_noEntry hdir, settleLine_of_noEntry hdir, hdir, hdir', hp, hp', hold]

/-- A home write leaves no reservation that was not held before it. -/
theorem resvFrom_homeWrite (w : Option Nat) (pa : Nat) (bs : List Byte) : ResvFrom s (homeWrite w pa bs s) := by
  have hversion : ∀ u : State, (touchVersion pa u).work = u.work := by intro u; simp only [touchVersion]; split <;> rfl
  have hpoison : ∀ u : State, (overwrite pa bs.length u).work = u.work := by intro u; simp only [overwrite]; split <;> rfl
  have hcleared : ResvFrom s (writeResv (lineOf pa) w { s with mem := Mem.put 0 s.mem pa bs }) := resvFrom_modThreads _ _ (by simp) _
  exact hcleared.trans (resvFrom_of_eq fun j => by simp only [State.thread?, homeWrite, hversion, hpoison])
theorem resv_eq_none_of_from {u t : State} (h : ResvFrom u t) {k : Nat} (hu : (u.thread k).resv = none) : (t.thread k).resv = none := by
  by_contra hne
  obtain ⟨r, hr⟩ := Option.ne_none_iff_exists'.1 hne
  cases ht : t.thread? k with
  | none => simp [State.thread, Tab.get, show Tab.find t.work.threads k = none from ht] at hr
  | some x =>
    obtain ⟨y, hy, hyr⟩ := h k x r ht (tab_get_of_find ht {} ▸ hr)
    rw [State.thread, tab_get_of_find hy {}, hyr] at hu
    cases hu
/-- The reservations of the listed threads end. -/
theorem resv_endResv {ks : List Nat} {k : Nat} (h : k ∈ ks) : ((s.modThreads ks fun t => { t with resv := none }).thread k).resv = none := by
  have hk := thread?_modThreads_idem ks (fun t => { t with resv := none }) (fun _ => rfl) s k
  rw [if_pos h] at hk
  simp only [State.thread, Tab.get]
  simp only [State.thread?] at hk
  rw [hk]
  cases Tab.find s.work.threads k <;> rfl

theorem resv_farAt_stc {o : FarOp} {n pa k : Nat} (hk : o.kind = .stc) (h : k ∈ holders s o.core (lineOf pa)) :
    ((farAt o n pa s).thread k).resv = none := by
  have hended := resv_endResv (s := predict o.core (lineOf pa) s) h
  have hsome : (holders s o.core (lineOf pa)).isEmpty = false := by
    rw [List.isEmpty_eq_false_iff]; exact List.ne_nil_of_mem h
  simp only [farAt, hk, hsome, Bool.false_eq_true, if_false, thread_farAnswer]
  exact resv_eq_none_of_from (resvFrom_homeWrite none pa _) hended

theorem bus_farAnswer (x : Nat) : (farAnswer x s).bus = BitVec.ofNat 512 x := rfl
theorem mem_farAnswer (x : Nat) : (farAnswer x s).mem = s.mem := rfl
theorem mem_predict (c line : Nat) : (predict c line s).mem = s.mem := rfl

theorem farAt_operator {o : FarOp} (n pa : Nat) (hk : o.kind = .atom ∨ o.kind = .red) :
    (farAt o n pa s).bus = BitVec.ofNat 512 (homeNat s pa n) ∧
      (farAt o n pa s).mem = Mem.put 0 s.mem pa (natLe n (applyOp o.op.toNat (homeNat s pa n) (lowBits n o.b))) := by
  rcases hk with hk | hk <;> simp only [farAt, hk, bus_farAnswer, mem_farAnswer, homeWrite_mem, mem_predict, and_self]
theorem farAt_cas {o : FarOp} (n pa : Nat) (hk : o.kind = .cas) :
    (farAt o n pa s).bus = BitVec.ofNat 512 (homeNat s pa n) ∧
      (farAt o n pa s).mem = if homeNat s pa n = lowBits n o.b then Mem.put 0 s.mem pa (natLe n (lowBits n o.c)) else s.mem := by
  simp only [farAt, hk, bus_farAnswer, mem_farAnswer, true_and]
  split
  · rw [homeWrite_mem, mem_predict]
  · rw [mem_predict]
theorem farAt_ldl {o : FarOp} (n pa : Nat) (hk : o.kind = .ldl) :
    (farAt o n pa s).bus = BitVec.ofNat 512 (homeNat s pa n) ∧ (farAt o n pa s).mem = s.mem := by
  simp only [farAt, hk, bus_farAnswer, mem_farAnswer, and_self]
theorem farAt_stc_of_noHolder {o : FarOp} {n pa : Nat} (hk : o.kind = .stc) (h : holders s o.core (lineOf pa) = []) :
    (farAt o n pa s).bus = 0 ∧ (farAt o n pa s).mem = s.mem := by
  simp only [farAt, hk, h, List.isEmpty_nil, if_true, bus_farAnswer, mem_farAnswer, modThreads_mem, mem_predict, and_true]
  rfl
theorem farAt_stc_of_holder {o : FarOp} {n pa : Nat} (hk : o.kind = .stc) (h : holders s o.core (lineOf pa) ≠ []) :
    (farAt o n pa s).bus = 1 ∧ (farAt o n pa s).mem = Mem.put 0 s.mem pa (natLe n (lowBits n o.b)) := by
  have hsome : (holders s o.core (lineOf pa)).isEmpty = false := by rwa [List.isEmpty_eq_false_iff]
  simp only [farAt, hk, hsome, Bool.false_eq_true, if_false, bus_farAnswer, mem_farAnswer, homeWrite_mem, modThreads_mem, mem_predict, and_true]
  rfl

end

end Sys2Proof.Proofs
end

section
/-!
PROOFS. Misses, walks, far operations and the crossbar: the statement, from the parts above.
-/
namespace Sys2Proof.Proofs

open Machine Laws

/-- Settles O53: each event is first brought to a plain equation for its next state, of which the clause is then read off. -/
theorem missesAndWalks : Obligations.MissesAndWalks := by
  unfold Obligations.MissesAndWalks
  refine ⟨fun s c e he hthread => ⟨fun hfull => ?_, fun hroom => ⟨_, rfl, missEntryGrant_takes he hthread hroom⟩⟩,
    fun s c sec k m hk hm hswm hl2 hhint hidle hroom hhere => ?_, fun s i w hw => ⟨fun hleaf => ?_, fun pte pages hleaf => ?_⟩,
    fun s o n pa hn hpa hdir hp => ?_, fun s ch x hx => ?_⟩
  case refine_1 => exact congrArg Host.Outcome.next (missEntryGrant_of_full he hfull)
  case refine_2 =>
    subst hk
    have h : Awaited s c sec m.hint := ⟨hm.trans (by cases m; cases hswm; cases hl2; rfl), hhint, hidle, hroom, hhere⟩
    exact ⟨⟨_, rfl, missDataFill_clean_places h⟩, ⟨_, rfl, missDataFill_uncorrectable_poisons h⟩⟩
  case refine_3 =>
    have ht := tlbWalk_of_noLeaf hw hleaf
    exact ⟨_, congrArg Host.Outcome.next ht, rfl, fun y hy => mem_walksLeft hy⟩
  case refine_4 =>
    have ht := tlbWalk_of_leaf hw hleaf
    refine ⟨_, congrArg Host.Outcome.next ht, rfl, rfl, fun y hy => mem_walksLeft hy, fun x hx => ?_⟩
    obtain rfl : x = walked s w pte pages := hx
    rw [core_modCluster, core_modCore, if_pos rfl, cluster_modCluster_self]
    exact ⟨tlbPut_head (by decide) _ _, tlbPut_head (by decide) _ _, tlbPut_length_le .., tlbPut_length_le ..⟩
  case refine_5 =>
    have ht : exec (.farOperation o) s = .next (farAt o n pa s) := congrArg Host.Outcome.next (farOperation_of_noEntry hn hpa hdir hp)
    exact ⟨fun hk => ⟨_, ht, farAt_operator n pa hk⟩, fun hk => ⟨_, ht, farAt_cas n pa hk⟩, fun hk => ⟨_, ht, farAt_ldl n pa hk⟩,
      fun hk => ⟨_, ht, fun k h => resv_farAt_stc hk h, fun h => farAt_stc_of_noHolder hk h, fun h => farAt_stc_of_holder hk h⟩⟩
  case refine_6 =>
    subst hx
    refine ⟨fun h80 => congrArg Host.Outcome.next (burgeeHold_of_noChannel h80),
      fun hch h => congrArg Host.Outcome.next (burgeeHold_home_of_noneHere hch h), fun m hm hst => ⟨fun h64 h80 => ?_, fun hch => ?_⟩⟩
    · exact congrArg Host.Outcome.next (burgeeHold_return_of_single h64 h80 hm hst)
    · exact burgeeHold_home_answers hch hm hst

end Sys2Proof.Proofs
end

section
/-!
PROOFS. Global loads (spec 11 R216 to R222, R232, R235): a load of a whole wave is `globalLoad_done`; the uniform load is one
plain read, whose bytes every executing thread is given.
-/
namespace Sys2Proof.Proofs

open Machine Laws

variable {s : State}

theorem homeBytes_of_mem {s u : State} (h : u.mem = s.mem) (pa n : Nat) : homeBytes u pa n = homeBytes s pa n := by
  rw [homeBytes, homeBytes, h]

/-! ### LD, ACQ and WAITC -/

theorem exec_ld (f : Fields) (s : State) : exec (.ld f) s = .next (ld f s) := rfl
theorem exec_waitc (f : Fields) (s : State) : exec (.waitc f) s = .next (waitc f s) := rfl
theorem exec_acq (f : Fields) (s : State) : exec (.acq f) s = .next (acq f s) := rfl
theorem exec_ldc (f : Fields) (s : State) : exec (.ldc f) s = .next (ldc f s) := rfl

/-- ACQ on a global word is a load with an acquire side. -/
theorem acq_of_global {f : Fields} (hsp : f.sp = 0) : acq f s = globalLoad f { r := true } (pairBytes f) true
    (fun l x bs s => acquired f true x.mode (putOut f l (loadOut (pairBytes f) false bs) s)) s := by
  unfold acq
  simp only [hsp, beq_self_eq_true, if_true]

/-! ### The uniform load -/

/-- The results of the executing threads, written after the wave has advanced and the sectors of the access have left the
core's list of arrived ones. -/
theorem putOuts_doneOn {f : Fields} {u : State} {ls : List Lane} (hs : LanesSound s) (hl : s.execLanes f = ls) (hu : Calm s u)
    (c : Nat) (g : List Nat → List Nat) (o : LaneOut) :
    DoneOn f s (ls.foldl (fun s e => putOut f e o s) ((advance u).modCore c fun k => { k with arrived := g k.arrived })) (fun _ => o) ∧
      (ls.foldl (fun s e => putOut f e o s) ((advance u).modCore c fun k => { k with arrived := g k.arrived })).mem = s.mem := by
  subst hl
  refine ⟨doneOn_of s ((advance u).modCore c fun k => { k with arrived := g k.arrived }) _ f _ hs (fun j => advance_calm hu j) (fun l hl => ?_) (fun j hj => ?_), ?_⟩
  · exact thread?_foldl_modThread Lane.id (fun _ => writeOut f o) _ _ (execLanes_nodup hs f) l hl
  · refine thread?_foldl_of _ _ _ (fun u x hx => ?_) _
    rw [putOut_thread?, if_neg]
    rintro rfl
    exact hj (List.mem_map_of_mem hx)
  · have hmem := sameT_mem (sameT_foldl (fun s e => putOut f e o s) (fun u e => sameT_modThread u e.id (writeOut f o)) (s.execLanes f)
      ((advance u).modCore c fun k => { k with arrived := g k.arrived }))
    rw [hmem, modCore_mem, advance_mem, (quietly_of_calm hu).mem]

theorem ldc_done {f : Fields} {l : Lane} {ls : List Lane} {x : Xlat} (hs : LanesSound s) (hheld : s.home.hostHeld = [])
    (hl : s.execLanes f = l :: ls) (hp : PlainAt f s { r := true } (szBytes f) l x) (ha : AtHand s x (szBytes f)) :
    DoneOn f s (ldc f s) (fun _ => loadOf f (homeBytes s x.pa (szBytes f))) ∧ (ldc f s).mem = s.mem := by
  obtain ⟨hcheck, hlocal, hsound, hcalm, hquiet, -, hreply⟩ := hp
  have hth : s.thread l.id = l.th := thread_of_thread? (hs.2 l (execLanes_sub (hl ▸ List.mem_cons_self ..)))
  obtain ⟨k, hk⟩ := noteWalk_eq (whoOf s l.th) (globalEa f l.th) s
  have hsettled : (if viaL1 x then settleAll [x.pa] { s with walks := k } else { s with walks := k }) = { s with walks := k } := by
    rw [settleAll_idle _ { s with walks := k } (fun pa hpa => by rw [List.mem_singleton.1 hpa]; exact hcalm.2), ite_self]
  have hwait : readWait f (szBytes f) [(l, x)] { s with walks := k } = none :=
    readWait_none _ _ _ _ fun e he => by rw [List.mem_singleton.1 he]; exact ha
  obtain ⟨u, hread, hu⟩ := readOne_plain f.hint l (szBytes f) x { s with walks := k } hlocal hsound hcalm hheld hquiet
    (by rw [← hth] at hreply; exact hreply)
  rw [homeBytes_of_mem (s := s) (u := { s with walks := k }) rfl] at hread
  have hwalked : Calm s { s with walks := k } := ⟨rfl, fun _ h => h⟩
  have hcalmed : Calm s u := calm_trans hwalked (calm_of_hinted hu)
  have hldc : ldc f s = (l :: ls).foldl (fun v e => putOut f e (loadOf f (homeBytes s x.pa (szBytes f))) v)
      ((advance u).modCore (s.coreOf l.th) fun c => { c with arrived := c.arrived.filter fun k => k != sectorOf x.pa }) := by
    unfold ldc
    simp only [hl, hcheck, hk, hsettled, hwait, hread, Bool.false_eq_true, if_false]
  rw [hldc]
  exact putOuts_doneOn hs hl hcalmed _ (fun a => a.filter fun k => k != sectorOf x.pa) _

/-- Settles O27: LD, ACQ and WAITC are loads of a whole wave, and LDC is one read for all executing threads. -/
theorem globalLoads : Obligations.GlobalLoads := by
  unfold Obligations.GlobalLoads
  refine ⟨fun f s xl hs hheld => ⟨fun h ho => ?_, fun hsp h ho => ?_, fun n hn h ho => ?_⟩, fun f s l ls x hs hheld hl hp ha => ?_⟩
  · exact ⟨_, exec_ld f s, globalLoad_done f _ _ _ (fun _ => loadOf f) s xl _ hs hheld h ho fun _ _ _ => rfl⟩
  · refine ⟨_, exec_acq f s, ?_⟩
    rw [acq_of_global hsp]
    exact globalLoad_done f _ _ _ (fun _ => loadOut (pairBytes f) false) s xl _ hs hheld h ho fun _ _ _ => rfl
  · subst hn
    refine ⟨_, exec_waitc f s, globalLoad_done f _ _ _ (fun _ => loadOut _ false) s xl _ hs hheld
      (fun l hl => ⟨(h l hl).1, (h l hl).2.1⟩) ho fun l hl u => if_pos (h l hl).2.2⟩
  · exact ⟨_, exec_ldc f s, ldc_done hs hheld hl hp ha⟩

end Sys2Proof.Proofs
end

section
/-!
PROOFS. The freeze (spec 22 R424 to R428): a cause recorded, the flits sent on the ports that are up, and the reservations gone.
-/
namespace Sys2Proof.Proofs

open Machine Laws

section
variable {s u : State}

/-! ### Flits on several ports -/

/-- A port on which flits have gone out, the last of them `f`. -/
structure SentLast (f : Flit) (x y : Port) : Prop where
  rest : y = { x with replay := y.replay, tx := y.tx }
  tx : y.tx.getLast? = some f
  replay : y.replay.getLast? = some f

theorem getLast?_keep (l : List Flit) (f : Flit) : ((l ++ [f]).drop ((l ++ [f]).length - 512)).getLast? = some f := by
  rw [List.getLast?_drop, if_neg (by simp only [List.length_append, List.length_singleton]; omega), List.getLast?_concat]

theorem port_sendFlit_ne {p q : Nat} (h : q ≠ p) (f : Flit) : port (sendFlit p f s) q = port s q := by
  simp only [port, sendFlit, modFabric_fabric, tab_get_put, if_neg h]

theorem port_sendFlit_self {p : Nat} (f : Flit) {x : Port} (h : (port s p) = { x with replay := (port s p).replay, tx := (port s p).tx }) :
    SentLast f x (port (sendFlit p f s) p) := by
  have e : port (sendFlit p f s) p = { port s p with
      replay := (((port s p).replay ++ [f]).drop (((port s p).replay ++ [f]).length - 512))
      tx := (((port s p).tx ++ [f]).drop (((port s p).tx ++ [f]).length - 512)) } := by
    simp only [port, sendFlit, modFabric_fabric, tab_get_put_self]
  rw [e]
  obtain ⟨r, o, hy⟩ : ∃ r o, port s p = { x with replay := r, tx := o } := ⟨(port s p).replay, (port s p).tx, h⟩
  refine ⟨?_, ?_, ?_⟩
  · rw [hy]
  · dsimp only
    rw [getLast?_keep]
  · dsimp only
    rw [getLast?_keep]

/-- One flit sent on each of a list of ports: nothing but those ports differs, and each has sent it last. -/
theorem foldl_sendFlit (f : Flit) (ps : List Nat) (s : State) :
    let t := ps.foldl (fun s p => sendFlit p f s) s
    t = { s with fabric := { s.fabric with ports := t.fabric.ports } } ∧ (∀ q, q ∉ ps → port t q = port s q) ∧
      ∀ q ∈ ps, SentLast f (port s q) (port t q) := by
  induction ps using List.reverseRecOn with
  | nil => exact ⟨rfl, fun _ _ => rfl, fun _ h => by cases h⟩
  | append_singleton ps p ih =>
    obtain ⟨hrest, hothers, hsent⟩ := ih
    simp only [List.foldl_append, List.foldl_cons, List.foldl_nil]
    generalize ps.foldl (fun s p => sendFlit p f s) s = u at hrest hothers hsent
    refine ⟨?_, fun q hq => ?_, fun q hq => ?_⟩
    · rw [sendFlit, hrest]; rfl
    · simp only [List.mem_append, List.mem_singleton, not_or] at hq
      rw [port_sendFlit_ne hq.2, hothers q hq.1]
    · by_cases hqp : q = p
      · subst hqp
        refine port_sendFlit_self f ?_
        by_cases hin : q ∈ ps
        · exact (hsent q hin).rest
        · rw [hothers q hin]
      · rw [port_sendFlit_ne hqp]
        exact hsent q ((List.mem_append.1 hq).resolve_right (by simpa using hqp))

/-! ### A cause recorded -/

theorem recordCause_eq (c : Byte) (s : State) : recordCause c s = { s with guidon := (recordCause c s).guidon } := rfl
theorem recordCause_own (c : Byte) (s : State) : (recordCause c s).guidon.own.head? = some (c, s.dtime) := rfl
theorem mem_recordCause (c : Byte) (s : State) :
    if levelCause c then c ∈ (recordCause c s).guidon.level else c ∈ (recordCause c s).guidon.event := by
  have hadd : ∀ l : List Byte, c ∈ if (!l.contains c) = true then l ++ [c] else l := by
    intro l
    split
    case isTrue => exact List.mem_append_right _ (List.mem_singleton_self c)
    case isFalse h => simpa using h
  simp only [recordCause, State.modGuidon]
  split
  case isTrue h => simpa only [h, Bool.true_and] using hadd s.guidon.level
  case isFalse h => simpa only [Bool.not_eq_true _ ▸ h, Bool.not_false, Bool.true_and] using hadd s.guidon.event

/-! ### The freeze -/

/-- What a freeze with a cause leaves: the clause of the statement. -/
def Froze (cause : Byte) (s t : State) : Prop :=
  t.mem = s.mem ∧ t.guidon.frozen = true ∧
    (if levelCause cause then cause ∈ t.guidon.level else cause ∈ t.guidon.event) ∧ t.guidon.own.head? = some (cause, s.dtime) ∧
    (s.guidon.frozen = true → t.guidon.cause = s.guidon.cause ∧ t.guidon.src = s.guidon.src ∧ t.guidon.safe = s.guidon.safe ∧ t.fabric = s.fabric) ∧
    (s.guidon.frozen = false → t.guidon.cause = cause ∧ t.guidon.src = s.fabric.module_ ∧ t.guidon.safe = true ∧ t.guidon.quiet = false ∧
      (∀ k x, t.thread? k = some x → (∃ y, s.thread? k = some y ∧ x = { y with resv := none })) ∧
      t.fabric = { s.fabric with ports := t.fabric.ports } ∧ (∀ q, q ∉ portsUp s → port t q = port s q) ∧
      ∃ g, (∀ q ∈ portsUp s, port t q = { port s q with replay := (port t q).replay, tx := (port t q).tx } ∧
          (port t q).tx.getLast? = some g ∧ (port t q).replay.getLast? = some g) ∧
        payloadByte g 0 = 2 ∧ payloadByte g 1 = s.fabric.module_ ∧ payloadByte g 2 = cause)

theorem freezeHere_of_frozen {c : Byte} (h : s.guidon.frozen = true) : freezeHere c s = recordCause c s := by
  simp only [freezeHere, freeze, h, if_true]

/-- The Guidon of a module as it freezes for the first time. -/
def stopped (c : Byte) (s : State) : State :=
  (recordCause c s).modGuidon fun g => { g with frozen := true, safe := true, quiet := false, cause := c, src := BitVec.ofNat 8 s.fabric.module_.toNat }
theorem payloadByte_ofNat (h : BitVec 128) (n : Nat) {k : Nat} (hk : k < 64) :
    payloadByte ⟨h, BitVec.ofNat 512 n⟩ k = BitVec.ofNat 8 (n / 2 ^ (8 * k)) := by
  apply BitVec.eq_of_getLsbD_eq
  intro i hi
  have hi' : 8 * k + i < 512 := by omega
  simp only [payloadByte, BitVec.getLsbD_extractLsb', BitVec.getLsbD_ofNat, hi, hi', decide_true, Bool.true_and, Nat.testBit_div_two_pow]
  rw [Nat.add_comm]

theorem payload_makeFreezeFlit (m : Nat) (src c : Byte) :
    payloadByte (makeFreezeFlit m src.toNat c) 0 = 2 ∧ payloadByte (makeFreezeFlit m src.toNat c) 1 = src ∧
      payloadByte (makeFreezeFlit m src.toNat c) 2 = c := by
  have hs := src.isLt
  have hc := c.isLt
  refine ⟨?_, ?_, ?_⟩ <;>
  · rw [makeFreezeFlit, payloadByte_ofNat _ _ (by decide)]
    apply BitVec.eq_of_toNat_eq
    simp only [BitVec.toNat_ofNat, BitVec.reduceToNat, Nat.reduceMul, Nat.reducePow]
    omega

/-- A thread without its reservation (spec 11 R230). -/
def unreserved (t : Thread) : Thread := { t with resv := none }
/-- The flit that a module's own freeze sends. -/
def freezeFlit (c : Byte) (s : State) : Flit := makeFreezeFlit s.fabric.module_.toNat s.fabric.module_.toNat c
/-- What a module that ran records and sends, before its threads lose their reservations. -/
def announced (c : Byte) (s : State) : State := (portsUp s).foldl (fun u p => sendFlit p (freezeFlit c s) u) (stopped c s)
theorem announced_rest (c : Byte) (s : State) :
    announced c s = { stopped c s with fabric := { s.fabric with ports := (announced c s).fabric.ports } } :=
  (foldl_sendFlit (freezeFlit c s) (portsUp s) (stopped c s)).1
theorem announced_work (c : Byte) (s : State) : (announced c s).work = s.work := by rw [announced_rest]; rfl
theorem freezeHere_of_running {c : Byte} (h : s.guidon.frozen = false) :
    freezeHere c s = (announced c s).modThreads (s.work.threads.map (·.1)) unreserved := by
  rw [← announced_work c s]
  simp only [freezeHere, freeze, h, Bool.false_eq_true, if_false]
  rfl

theorem thread?_bare_all {v : State} (h : v.work = s.work) (k : Nat) :
    (v.modThreads (s.work.threads.map (·.1)) unreserved).thread? k = (s.thread? k).map unreserved := by
  rw [thread?_modThreads_idem _ unreserved (fun _ => rfl)]
  have hk : v.thread? k = s.thread? k := by rw [State.thread?, h]; rfl
  rw [hk]
  split
  case isTrue => rfl
  case isFalse hno =>
    cases hx : s.thread? k with
    | none => rfl
    | some x => exact absurd (List.mem_map.2 ⟨_, tab_mem_of_find hx, rfl⟩) hno

/-- A freeze touches the Guidon, the ports and the threads alone. -/
theorem freezeHere_rest (c : Byte) (s : State) : freezeHere c s = { s with
    guidon := (freezeHere c s).guidon
    fabric := (freezeHere c s).fabric
    work := { s.work with threads := (freezeHere c s).work.threads } } := by
  by_cases h : s.guidon.frozen = true
  · rw [freezeHere_of_frozen h]; rfl
  · have hsame := sameT_modThreads (announced c s) (s.work.threads.map (·.1)) unreserved
    rw [freezeHere_of_running (by simpa using h), hsame, announced_rest]
    rfl

theorem stopped_freezeHere (c : Byte) (s : State) (k : Nat) : ((freezeHere c s).thread k).stopped = (s.thread k).stopped := by
  by_cases h : s.guidon.frozen = true
  · rw [freezeHere_of_frozen h]; rfl
  · rw [freezeHere_of_running (by simpa using h)]
    simp only [State.thread, Tab.get]
    have hk := thread?_bare_all (announced_work c s) k
    simp only [State.thread?] at hk
    rw [hk]
    cases Tab.find s.work.threads k <;> rfl

theorem froze_freezeHere (c : Byte) (s : State) : Froze c s (freezeHere c s) := by
  have hcause := mem_recordCause (s := s) c
  have hmem : (freezeHere c s).mem = s.mem := by rw [freezeHere_rest]
  by_cases h : s.guidon.frozen = true
  · rw [freezeHere_of_frozen h]
    exact ⟨rfl, h, hcause, rfl, fun _ => ⟨rfl, rfl, rfl, rfl⟩, fun hno => absurd hno (by simp [h])⟩
  · have hrun : s.guidon.frozen = false := by simpa using h
    have hf := freezeHere_of_running (c := c) hrun
    have hg : (freezeHere c s).guidon = (stopped c s).guidon := by
      rw [hf, sameT_modThreads, announced_rest]
    have hfab : (freezeHere c s).fabric = (announced c s).fabric := by rw [hf, sameT_modThreads]
    obtain ⟨hrest, hothers, hsent⟩ := foldl_sendFlit (freezeFlit c s) (portsUp s) (stopped c s)
    have hport : ∀ q, port (freezeHere c s) q = port (announced c s) q := fun q => by rw [port, hfab]; rfl
    refine ⟨hmem, by rw [hg]; rfl, by rw [hg]; exact hcause, by rw [hg]; rfl, fun hno => absurd hno h, fun _ =>
      ⟨by rw [hg]; rfl, by rw [hg]; exact BitVec.ofNat_toNat _ _, by rw [hg]; rfl, by rw [hg]; rfl, fun k x hx => ?_, ?_, fun q hq => ?_,
        freezeFlit c s, fun q hq => ?_, payload_makeFreezeFlit _ _ _⟩⟩
    · rw [hf, thread?_bare_all (announced_work c s)] at hx
      obtain ⟨y, hy, rfl⟩ := Option.map_eq_some_iff.1 hx
      exact ⟨y, hy, rfl⟩
    · rw [hfab, announced_rest]
    · rw [hport]; exact hothers q hq
    · rw [hport]; exact ⟨(hsent q hq).rest, (hsent q hq).tx, (hsent q hq).replay⟩

/-! ### The inputs that freeze -/

/-- A freeze of a state that differs from `s` in nothing a freeze reads. -/
theorem Froze.of_eq {c : Byte} {v t : State} (h : Froze c v t) (hmem : v.mem = s.mem) (htime : v.dtime = s.dtime) (hfab : v.fabric = s.fabric)
    (hwork : v.work = s.work) (hg : v.guidon.frozen = s.guidon.frozen ∧ v.guidon.cause = s.guidon.cause ∧ v.guidon.src = s.guidon.src ∧
      v.guidon.safe = s.guidon.safe) : Froze c s t := by
  obtain ⟨hfrozen, hwhy, hsrc, hsafe⟩ := hg
  unfold Froze portsUp port State.thread? at h ⊢
  rwa [hmem, htime, hfab, hwork, hfrozen, hwhy, hsrc, hsafe] at h

theorem froze_gdnCtlFrz (w : Word) (s : State) : Froze 0xC1 s (gdnCtlFrz w s) := by
  have h31 : (w ||| 0x80000000).getLsbD 31 = true := by simp
  unfold gdnCtlFrz gdnCtlWrite
  simp only [h31, if_true]
  exact (froze_freezeHere _ _).of_eq rfl rfl rfl rfl ⟨rfl, rfl, rfl, rfl⟩

theorem froze_arrayUncorrected (k : BitVec 4) (v : BitVec 12) (a : DWord) (s : State) : Froze 0xC7 s (arrayUncorrected k v a s) :=
  (froze_freezeHere _ _).of_eq rfl rfl rfl rfl ⟨rfl, rfl, rfl, rfl⟩

theorem heartbeatMissed_of_idle (h : s.guidon.hbwin = 0 ∨ s.guidon.frozen = true ∨ s.dtime < s.guidon.hbFrom + 1000 * s.guidon.hbwin.toNat) :
    heartbeatMissed s = s := by
  unfold heartbeatMissed
  rw [if_pos]
  simpa [or_assoc] using h
theorem heartbeatMissed_of_due (hw : s.guidon.hbwin ≠ 0) (hf : s.guidon.frozen = false)
    (ht : s.guidon.hbFrom + 1000 * s.guidon.hbwin.toNat ≤ s.dtime) : heartbeatMissed s = freezeHere 0xC2 s := by
  unfold heartbeatMissed
  rw [if_neg]
  simp only [hf, Bool.or_false, Bool.or_eq_true, decide_eq_true_eq, not_or, Nat.not_lt]
  exact ⟨hw, ht⟩

/-! ### GDN_CTL and the heartbeat -/

/-- The Guidon as a write of GDN_CTL sets it before it acts (spec 22 R425). -/
def ctlSet (w : Word) (s : State) : State := { s with
  guidon := { s.guidon with rdn := w.getLsbD 28, hbctx := w.extractLsb' 22 6, event := if w.getLsbD 0 then [] else s.guidon.event } }

theorem gdnCtlThaw_eq {w : Word} (h31 : w.getLsbD 31 = false) (h29 : w.getLsbD 29 = false) : gdnCtlThaw w s = thaw (ctlSet w s) := by
  have hctx : (w ||| 0x40000000#32).extractLsb' 22 6 = w.extractLsb' 22 6 := by
    rw [BitVec.extractLsb'_or]; simp
  rw [BitVec.getLsbD_eq_getElem (by decide)] at h31 h29
  simp [gdnCtlThaw, gdnCtlWrite, State.modGuidon, ctlSet, h31, h29, hctx]
theorem gdnCtlRel_eq {w : Word} (h31 : w.getLsbD 31 = false) (h30 : w.getLsbD 30 = false) : gdnCtlRel w s = release (ctlSet w s) := by
  have hctx : (w ||| 0x20000000#32).extractLsb' 22 6 = w.extractLsb' 22 6 := by
    rw [BitVec.extractLsb'_or]; simp
  rw [BitVec.getLsbD_eq_getElem (by decide)] at h31 h30
  simp [gdnCtlRel, gdnCtlWrite, State.modGuidon, ctlSet, h31, h30, hctx]
theorem gdnCtlAck_eq {w : Word} (h31 : w.getLsbD 31 = false) (h30 : w.getLsbD 30 = false) (h29 : w.getLsbD 29 = false) :
    gdnCtlAck w s = { s with guidon := { s.guidon with event := [], rdn := w.getLsbD 28, hbctx := w.extractLsb' 22 6 } } := by
  have hctx : (w ||| 1#32).extractLsb' 22 6 = w.extractLsb' 22 6 := by
    rw [BitVec.extractLsb'_or]; simp
  rw [BitVec.getLsbD_eq_getElem (by decide)] at h31 h30 h29
  simp [gdnCtlAck, gdnCtlWrite, State.modGuidon, h31, h30, h29, hctx]

theorem thaw_of_clear (hf : s.guidon.frozen = true) (hl : s.guidon.level = []) (he : s.guidon.event = []) (hrx : s.fabric.rx = []) :
    thaw s = { s with guidon := { s.guidon with frozen := false, quiet := false, hbFrom := s.dtime } } := by
  have hfab : { s.fabric with rx := [] } = s.fabric := by rw [← hrx]
  simp only [thaw, hf, hl, he, hrx, List.isEmpty_nil, Bool.not_true, Bool.or_self, Bool.false_eq_true, if_false, List.foldl_nil,
    State.modGuidon, State.modFabric, hfab]
theorem thaw_of_held (h : s.guidon.frozen = false ∨ s.guidon.level ≠ [] ∨ s.guidon.event ≠ []) : thaw s = logGuidon s := by
  unfold thaw
  rw [if_pos]
  simpa [or_assoc] using h

theorem release_of_frozen (h : s.guidon.frozen = true) : release s = logGuidon s := if_pos h
theorem release_of_running (h : s.guidon.frozen = false) : release s = { s with guidon := { s.guidon with safe := false } } :=
  if_neg (by simp [h])

theorem gdnHbWrite_of_other {x : Nat} (b : Word) (h : x ≠ s.guidon.hbctx.toNat) : gdnHbWrite x b s = s := if_pos h
theorem gdnHbWrite_of_next {x : Nat} {b : Word} (hx : x = s.guidon.hbctx.toNat) (hb : b = s.guidon.hb + 1) :
    gdnHbWrite x b s = { s with guidon := { s.guidon with hb := b, hbFrom := s.dtime } } := by
  unfold gdnHbWrite
  rw [if_neg (not_not.2 hx), if_pos hb]
  rfl
theorem gdnHbWrite_of_wrong {x : Nat} {b : Word} (hx : x = s.guidon.hbctx.toNat) (hb : b ≠ s.guidon.hb + 1) :
    gdnHbWrite x b s = if s.guidon.hbwin = 0 then { s with guidon := { s.guidon with hb := b } }
      else freezeHere 0xC2 { s with guidon := { s.guidon with hb := b } } := by
  unfold gdnHbWrite
  rw [if_neg (not_not.2 hx), if_neg hb]
  rfl
theorem gdnHbwinWrite_of_long {b : Word} (h : 1000000 < b.toNat) : gdnHbwinWrite b s = logGuidon s := if_pos h
theorem gdnHbwinWrite_of_valid {b : Word} (h : b.toNat ≤ 1000000) :
    gdnHbwinWrite b s = { s with guidon := { s.guidon with hbwin := b, hbFrom := s.dtime } } := if_neg (by omega)

/-! ### The comparator -/

/-- A primary's thread that the comparator has matched at an address. -/
def matchedAt (pc : DWord) (t : Thread) : Thread := { t.unparkHere with matched := some pc }
/-- A pair without its two oldest entries, whose threads follow each other from an address. -/
def matchedPair (x : Pair) (a b : CmpEntry) (as bs : List CmpEntry) (pc : DWord) : Pair :=
  { x with prim := as, sec := bs, follow := x.follow ++ (a.thread.zip b.thread).map fun e => (e.1, e.2, pc) }

theorem comparatorMatch_of_equal {p : Nat} {a b : CmpEntry} {as bs : List CmpEntry} {pc : DWord} (ha : (s.pair p).prim = a :: as)
    (hb : (s.pair p).sec = b :: bs) (hk : mismatchKind s a b = 0) (hboth : bothPerform a.word = false) (hpc : pc = (s.thread (a.thread.headD 0)).pc) :
    comparatorMatch p s = wakeFull p ((s.modThreads a.thread (matchedAt pc)).setPair p (matchedPair (s.pair p) a b as bs pc)) := by
  subst hpc
  unfold comparatorMatch
  simp only [ha, hb, hk, ne_eq, not_true, if_false, hboth, Bool.false_eq_true]
  rfl
theorem comparatorMatch_of_unequal {p : Nat} {a b : CmpEntry} {as bs : List CmpEntry} (ha : (s.pair p).prim = a :: as) (hb : (s.pair p).sec = b :: bs)
    (hk : mismatchKind s a b ≠ 0) : comparatorMatch p s = redundancyMismatch p (BitVec.ofNat 4 (mismatchKind s a b)) s := by
  unfold comparatorMatch
  simp only [ha, hb]
  rw [if_pos hk]

theorem wakeFull_rest (p : Nat) (s : State) : SameButThreads s (wakeFull p s) := sameT_modThreads _ _ _
theorem thread?_wakeFull (p k : Nat) {x : Thread} (h : s.thread? k = some x) (hx : x.unparkHere = x) : (wakeFull p s).thread? k = some x := by
  unfold wakeFull
  rw [thread?_modThreads_idem _ Thread.unparkHere (fun _ => rfl), h]
  split
  · rw [Option.map_some, hx]
  · rfl

theorem comparatorMatch_equal_releases {p : Nat} {a b : CmpEntry} {as bs : List CmpEntry} {pc : DWord} (ha : (s.pair p).prim = a :: as)
    (hb : (s.pair p).sec = b :: bs) (hk : mismatchKind s a b = 0) (hboth : bothPerform a.word = false)
    (hpc : pc = (s.thread (a.thread.headD 0)).pc) :
    (comparatorMatch p s).mem = s.mem ∧ (comparatorMatch p s).pair p = matchedPair (s.pair p) a b as bs pc ∧
      ∀ k ∈ a.thread, ∀ x, s.thread? k = some x → (comparatorMatch p s).thread? k = some (matchedAt pc x) := by
  rw [comparatorMatch_of_equal ha hb hk hboth hpc]
  refine ⟨?_, ?_, fun k hin x hx => ?_⟩
  · rw [sameT_mem (wakeFull_rest p _)]
    exact (sameT_mem (sameT_modThreads s a.thread (matchedAt pc)) : (s.modThreads a.thread (matchedAt pc)).mem = s.mem)
  · rw [wakeFull_rest]
    exact tab_get_put_self ..
  · refine thread?_wakeFull p k ?_ rfl
    show (s.modThreads a.thread (matchedAt pc)).thread? k = _
    rw [thread?_modThreads_idem _ (matchedAt pc) (fun _ => rfl), if_pos hin, hx]
    rfl

/-! ### Entries that no partner matches -/

/-- One core's entry alone in a pair. -/
def LoneEntry (s : State) (p : Nat) (e : CmpEntry) : Prop :=
  ((s.pair p).prim = [e] ∧ (s.pair p).sec = []) ∨ ((s.pair p).prim = [] ∧ (s.pair p).sec = [e])
theorem comparatorTimeout_of_lone {p : Nat} {e : CmpEntry} (h : LoneEntry s p e) :
    comparatorTimeout p s = if e.time + 100000 ≤ s.dtime then redundancyMismatch p 4 s else s := by
  unfold comparatorTimeout
  rcases h with ⟨hp, hs⟩ | ⟨hp, hs⟩ <;> simp [hp, hs]
theorem comparatorTimeout_of_both {p : Nat} {a b : CmpEntry} {as bs : List CmpEntry} (ha : (s.pair p).prim = a :: as)
    (hb : (s.pair p).sec = b :: bs) : comparatorTimeout p s = s := by
  unfold comparatorTimeout
  simp [ha, hb]

/-! ### A pair that stops -/

/-- Nothing but threads and monitors differs. -/
def WaitsOnly (s t : State) : Prop := t = { s with home := t.home, work := { s.work with threads := t.work.threads } }
theorem waitsOnly_trans {s t v : State} (h : WaitsOnly s t) (h' : WaitsOnly t v) : WaitsOnly s v := by
  unfold WaitsOnly at *
  rw [h', h]
theorem waitsOnly_modThread (s : State) (k : Nat) (g : Thread → Thread) : WaitsOnly s (s.modThread k g) := by
  have h := sameT_modThread s k g
  unfold WaitsOnly
  rw [h]
theorem waitsOnly_releaseMonitor (m : Nat) (s : State) : WaitsOnly s (releaseMonitor m s) := by
  unfold releaseMonitor WaitsOnly
  split <;> rfl
theorem waitsOnly_leaveWait (k : Nat) (s : State) (hb : Single s k) : WaitsOnly s (leaveWait k s) := by
  unfold leaveWait
  unfold Single at hb
  simp only [hb]
  split
  · exact waitsOnly_trans (waitsOnly_modThread _ _ _) (waitsOnly_releaseMonitor _ _)
  · exact waitsOnly_modThread _ _ _
theorem isSome_leaveWait (k : Nat) (s : State) (hb : Single s k) (j : Nat) : ((leaveWait k s).thread? j).isSome = (s.thread? j).isSome := by
  unfold leaveWait
  unfold Single at hb
  simp only [hb]
  split <;> simp only [thread?_releaseMonitor, thread?_modThread] <;> split <;> simp_all

/-- No thread completes its instruction with others. -/
def AllSingle (s : State) : Prop := ∀ k, Single s k
theorem allSingle_of_none (h : s.work.threads.all (fun e => e.2.batch.isNone) = true) : AllSingle s := by
  intro k
  unfold Single State.thread Tab.get
  cases hx : Tab.find s.work.threads k with
  | none => rfl
  | some x => simpa using List.all_eq_true.1 h _ (tab_mem_of_find hx)
theorem foldl_leaveWait_rest (ids : List Nat) (s : State) (hb : AllSingle s) :
    WaitsOnly s (ids.foldl (fun s t => leaveWait t s) s) ∧
      ∀ j, ((ids.foldl (fun s t => leaveWait t s) s).thread? j).isSome = (s.thread? j).isSome := by
  induction ids generalizing s with
  | nil => exact ⟨rfl, fun _ => rfl⟩
  | cons a r ih =>
    obtain ⟨hrest, hsome⟩ := ih (leaveWait a s) fun k => single_leaveWait (hb a) (hb k)
    exact ⟨waitsOnly_trans (waitsOnly_leaveWait a s (hb a)) hrest, fun j => (hsome j).trans (isSome_leaveWait a s (hb a) j)⟩

/-! ### The report and the stop -/

/-- A redundancy report touches the Guidon, the log, the ports and the threads alone. -/
theorem reportRedundancy_rest (c x : Nat) (addr info : DWord) (s : State) :
    let t := reportRedundancy c x addr info s
    t = { s with guidon := t.guidon, log := t.log, logged := t.logged, fabric := t.fabric, work := { s.work with threads := t.work.threads } } := by
  unfold reportRedundancy
  split
  · have h := freezeHere_rest 0xC0 s
    simp only
    rw [h]
  · rfl
theorem stopped_reportRedundancy (c x : Nat) (addr info : DWord) (s : State) (k : Nat) :
    ((reportRedundancy c x addr info s).thread k).stopped = (s.thread k).stopped := by
  unfold reportRedundancy
  split
  · exact stopped_freezeHere _ _ _
  · rfl
theorem reportRedundancy_of_rdn (c x : Nat) (addr info : DWord) (h : s.guidon.rdn = true) :
    (reportRedundancy c x addr info s).guidon.frozen = true ∧
      (s.guidon.frozen = false → (reportRedundancy c x addr info s).guidon.cause = 0xC0) := by
  rw [reportRedundancy, if_pos h]
  obtain ⟨-, hfrozen, -, -, -, hfirst⟩ := froze_freezeHere 0xC0 s
  exact ⟨hfrozen, fun hrun => (hfirst hrun).1⟩
theorem reportRedundancy_of_not_rdn (c x : Nat) (addr info : DWord) (h : s.guidon.rdn = false) :
    (reportRedundancy c x addr info s).guidon.frozen = s.guidon.frozen ∧
      (reportRedundancy c x addr info s).guidon.own.head? = some (0xC0, s.dtime) := by
  rw [reportRedundancy, if_neg (by simp [h])]
  exact ⟨rfl, rfl⟩

@[simp] theorem setPair_core (s : State) (p : Nat) (x : Pair) (c : Nat) : (s.setPair p x).core c = s.core c := rfl
/-- A thread that a pair's mismatch stops. -/
def halted (t : Thread) : Thread := { t with stopped := true, resv := none }
/-- A pair and its primary's core once a mismatch has stopped some threads and queued a trap (spec 22 R423). -/
def pairHalted (p : Nat) (ids : List Nat) (tr : Trap) (s : State) : State :=
  let u := (((ids.foldl (fun s t => leaveWait t s) s).modThreads ids halted).countTraps (2 * p) 1).modCore (2 * p) fun x => { x with traps := x.traps ++ [tr] }
  u.setPair p { u.pair p with prim := [], sec := [], follow := [], stop := true }

/-- The threads of a pair's two teams that have not stopped yet. -/
def pairRunning (s : State) (team : Nat) : List Nat :=
  ((teamThreads s team ++ match (s.team team).role with | .primary q => teamThreads s q | _ => []).filter fun e => !e.2.stopped).map (·.1)
/-- What a mismatch's trap says of its kind. -/
structure Names (tr : Trap) (kind team : Nat) : Prop where
  cause : tr.regs.cause = 0xC0
  info : ∃ n, tr.regs.einfo = BitVec.ofNat 64 (kind % 16 + 2 ^ 32 * n)
  team : tr.team = team
theorem redundancyMismatch_eq {p team : Nat} {k : BitVec 4} (h : pairTeam p s = some team) : ∃ tr x addr info,
    Names tr k.toNat team ∧ redundancyMismatch p k s = reportRedundancy (2 * p) x addr info (pairHalted p (pairRunning s team) tr s) := by
  unfold redundancyMismatch
  simp only [h]
  refine ⟨_, _, _, _, ?_, rfl⟩
  exact ⟨rfl, ⟨_, rfl⟩, rfl⟩

theorem names_info {tr : Trap} {k : BitVec 4} {team : Nat} (h : Names tr k.toNat team) :
    tr.regs.einfo.getLsbD 4 = false ∧ tr.regs.einfo.extractLsb' 0 4 = k := by
  obtain ⟨n, hn⟩ := h.info
  have hk := k.isLt
  rw [hn]
  constructor
  · rw [BitVec.getLsbD_ofNat, Nat.testBit_eq_decide_div_mod_eq]
    simp only [Bool.and_eq_false_iff, decide_eq_false_iff_not]
    omega
  · apply BitVec.eq_of_toNat_eq
    simp only [BitVec.extractLsb'_toNat, BitVec.toNat_ofNat, Nat.shiftRight_zero]
    omega

section
variable {p : Nat} {ids : List Nat} {tr : Trap} (hb : AllSingle s)
include hb

theorem pairHalted_rest : (pairHalted p ids tr s).mem = s.mem ∧ (pairHalted p ids tr s).guidon = s.guidon ∧
    (pairHalted p ids tr s).dtime = s.dtime := by
  have h := (foldl_leaveWait_rest ids s hb).1
  have hm := sameT_modThreads (ids.foldl (fun s t => leaveWait t s) s) ids halted
  unfold pairHalted
  simp only [State.setPair, State.countTraps, State.modCore]
  rw [hm, h]
  exact ⟨rfl, rfl, rfl⟩
theorem pairHalted_traps : ((pairHalted p ids tr s).core (2 * p)).traps = (s.core (2 * p)).traps ++ [tr] := by
  have hcores : ((ids.foldl (fun s t => leaveWait t s) s).modThreads ids halted).cores = s.cores := by
    rw [sameT_cores (sameT_modThreads _ ids halted), (foldl_leaveWait ids s fun t _ => hb t).1]
  rw [pairHalted, setPair_core, core_modCore, if_pos rfl, State.countTraps, core_modCore, if_pos rfl]
  simp only [State.core, hcores]
theorem pairHalted_thread? (j : Nat) : (pairHalted p ids tr s).thread? j =
    if j ∈ ids then ((ids.foldl (fun s t => leaveWait t s) s).thread? j).map halted else s.thread? j := by
  show ((ids.foldl (fun s t => leaveWait t s) s).modThreads ids halted).thread? j = _
  rw [thread?_modThreads_idem _ halted (fun _ => rfl)]
  split
  · rfl
  · exact (foldl_leaveWait ids s fun t _ => hb t).2 j ‹_›
/-- Of the threads that ran, each has stopped. -/
theorem stopped_pairHalted {j : Nat} (h : j ∈ ids → (s.thread? j).isSome = true) (h' : j ∉ ids → (s.thread j).stopped = true) :
    ((pairHalted p ids tr s).thread j).stopped = true := by
  have hj := pairHalted_thread? (p := p) (ids := ids) (tr := tr) hb j
  by_cases hin : j ∈ ids
  · have hsome := (foldl_leaveWait_rest ids s hb).2 j
    rw [h hin] at hsome
    obtain ⟨x, hx⟩ := Option.isSome_iff_exists.1 hsome
    rw [if_pos hin, hx] at hj
    rw [thread_of_thread? hj]
    rfl
  · rw [if_neg hin] at hj
    rw [State.thread, Tab.get]
    rw [State.thread?] at hj
    rw [hj]
    exact h' hin
end

theorem pairHalted_pair (p : Nat) (ids : List Nat) (tr : Trap) (s : State) : ((pairHalted p ids tr s).pair p).prim = [] ∧
    ((pairHalted p ids tr s).pair p).sec = [] ∧ ((pairHalted p ids tr s).pair p).stop = true := by
  unfold pairHalted
  simp only [State.setPair, State.pair, tab_get_put_self, and_self]

theorem mem_pairRunning {team q : Nat} (hn : (s.work.threads.map (·.1)).Nodup) (hq : (s.team team).role = .primary q) {e : Nat × Thread}
    (he : e ∈ teamThreads s team ++ teamThreads s q) :
    s.thread? e.1 = some e.2 ∧ (e.1 ∉ pairRunning s team → e.2.stopped = true) := by
  have hin : e ∈ s.work.threads := by
    rcases List.mem_append.1 he with h | h <;> exact List.mem_of_mem_filter h
  refine ⟨tab_find_of_mem hn hin, fun hno => ?_⟩
  by_contra hrun
  refine hno (List.mem_map.2 ⟨e, List.mem_filter.2 ⟨?_, by simpa using hrun⟩, rfl⟩)
  rw [hq]
  exact he

theorem redundancyMismatch_of_noTeam {p : Nat} (k : BitVec 4) (h : pairTeam p s = none) : redundancyMismatch p k s = s := by
  unfold redundancyMismatch
  simp only [h]

theorem redundancyMismatch_stops {p team : Nat} {k : BitVec 4} (h : pairTeam p s = some team)
    (hb : s.work.threads.all (fun e => e.2.batch.isNone) = true) :
    let t := redundancyMismatch p k s
    t.mem = s.mem ∧ (t.pair p).prim = [] ∧ (t.pair p).sec = [] ∧ (t.pair p).stop = true ∧
      ((s.work.threads.map (·.1)).Nodup → ∀ q, (s.team team).role = .primary q → ∀ e ∈ teamThreads s team ++ teamThreads s q, (t.thread e.1).stopped = true) ∧
      (∃ tr, tr.regs.cause = 0xC0 ∧ tr.regs.einfo.getLsbD 4 = false ∧ tr.regs.einfo.extractLsb' 0 4 = k ∧ tr.team = team ∧
        (t.core (2 * p)).traps = (s.core (2 * p)).traps ++ [tr]) ∧
      (s.guidon.rdn = true → t.guidon.frozen = true ∧ (s.guidon.frozen = false → t.guidon.cause = 0xC0)) ∧
      (s.guidon.rdn = false → t.guidon.frozen = s.guidon.frozen ∧ t.guidon.own.head? = some (0xC0, s.dtime)) := by
  have hsingle := allSingle_of_none hb
  obtain ⟨tr, x, addr, info, hnames, heq⟩ := redundancyMismatch_eq (k := k) h
  obtain ⟨hkind, hk⟩ := names_info hnames
  simp only [heq]
  have hrest := reportRedundancy_rest (2 * p) x addr info (pairHalted p (pairRunning s team) tr s)
  obtain ⟨hprim, hsec, hstop⟩ := pairHalted_pair p (pairRunning s team) tr s
  obtain ⟨hmem, hgdn, htime⟩ := pairHalted_rest (p := p) (ids := pairRunning s team) (tr := tr) hsingle
  have htraps := pairHalted_traps (p := p) (ids := pairRunning s team) (tr := tr) hsingle
  have hstopped : (s.work.threads.map (·.1)).Nodup → ∀ q, (s.team team).role = .primary q → ∀ e ∈ teamThreads s team ++ teamThreads s q,
      ((pairHalted p (pairRunning s team) tr s).thread e.1).stopped = true := by
    intro hn q hq e he
    obtain ⟨hfind, hrun⟩ := mem_pairRunning hn hq he
    exact stopped_pairHalted hsingle (fun _ => by rw [hfind]; rfl) fun hno => by rw [thread_of_thread? hfind]; exact hrun hno
  rw [← hgdn, ← htime, ← hmem]
  generalize pairHalted p (pairRunning s team) tr s = u at *
  have hpair : (reportRedundancy (2 * p) x addr info u).pair p = u.pair p := by rw [hrest]; rfl
  have hcore : (reportRedundancy (2 * p) x addr info u).core (2 * p) = u.core (2 * p) := by rw [hrest]; rfl
  refine ⟨by rw [hrest], by rw [hpair, hprim], by rw [hpair, hsec], by rw [hpair, hstop], fun hn q hq e he => ?_,
    ⟨tr, hnames.cause, hkind, hk, hnames.team, by rw [hcore, htraps]⟩, reportRedundancy_of_rdn _ _ _ _, reportRedundancy_of_not_rdn _ _ _ _⟩
  rw [stopped_reportRedundancy]
  exact hstopped hn q hq e he

/-! ### The inputs as instructions -/

theorem exec_clockMonitor (s : State) : exec .clockMonitor s = .next (freezeHere 0xC3 s) := rfl
theorem exec_supplyMonitor (s : State) : exec .supplyMonitor s = .next (freezeHere 0xC4 s) := rfl
theorem exec_thermalTrip (s : State) : exec .thermalTrip s = .next (freezeHere 0xC5 s) := rfl
theorem exec_freezePin (s : State) : exec .freezePin s = .next (freezeHere 0xC6 s) := rfl
theorem exec_arrayUncorrected (k : BitVec 4) (v : BitVec 12) (a : DWord) (s : State) :
    exec (.arrayUncorrected k v a) s = .next (arrayUncorrected k v a s) := rfl
theorem exec_gdnCtlFrz (w : Word) (s : State) : exec (.gdnCtlFrz w) s = .next (gdnCtlFrz w s) := rfl
theorem exec_heartbeatMissed (s : State) : exec .heartbeatMissed s = .next (heartbeatMissed s) := rfl
theorem exec_levelCauseClear (c : Byte) (s : State) : exec (.levelCauseClear c) s = .next (levelCauseClear c s) := rfl
theorem exec_gdnCtlThaw (w : Word) (s : State) : exec (.gdnCtlThaw w) s = .next (gdnCtlThaw w s) := rfl
theorem exec_gdnCtlRel (w : Word) (s : State) : exec (.gdnCtlRel w) s = .next (gdnCtlRel w s) := rfl
theorem exec_gdnCtlAck (w : Word) (s : State) : exec (.gdnCtlAck w) s = .next (gdnCtlAck w s) := rfl
theorem exec_gdnHbWrite (x : Nat) (b : Word) (s : State) : exec (.gdnHbWrite x b) s = .next (gdnHbWrite x b s) := rfl
theorem exec_gdnHbwinWrite (b : Word) (s : State) : exec (.gdnHbwinWrite b) s = .next (gdnHbwinWrite b s) := rfl
theorem exec_comparatorMatch (p : Nat) (s : State) : exec (.comparatorMatch p) s = .next (comparatorMatch p s) := rfl
theorem exec_comparatorTimeout (p : Nat) (s : State) : exec (.comparatorTimeout p) s = .next (comparatorTimeout p s) := rfl
theorem exec_redundancyMismatch (p : Nat) (k : BitVec 4) (s : State) : exec (.redundancyMismatch p k) s = .next (redundancyMismatch p k s) := rfl
theorem exec_moduleQuiescent (s : State) :
    exec .moduleQuiescent s = .next (if s.guidon.frozen then { s with guidon := { s.guidon with quiet := true } } else s) := rfl
theorem exec_hbOutToggle (s : State) : exec .hbOutToggle s = .next { s with guidon := { s.guidon with hbOut := !s.guidon.hbOut } } := rfl

theorem exec_freezes {i : Instr} {cause : Byte} (h : (i = .clockMonitor ∧ cause = 0xC3) ∨ (i = .supplyMonitor ∧ cause = 0xC4) ∨
    (i = .thermalTrip ∧ cause = 0xC5) ∨ (i = .freezePin ∧ cause = 0xC6) ∨ (∃ k u a, i = .arrayUncorrected k u a ∧ cause = 0xC7) ∨
    (∃ w, i = .gdnCtlFrz w ∧ cause = 0xC1)) (s : State) : ∃ t, exec i s = .next t ∧ Froze cause s t := by
  rcases h with ⟨rfl, rfl⟩ | ⟨rfl, rfl⟩ | ⟨rfl, rfl⟩ | ⟨rfl, rfl⟩ | ⟨k, v, a, rfl, rfl⟩ | ⟨w, rfl, rfl⟩
  · exact ⟨_, exec_clockMonitor s, froze_freezeHere _ _⟩
  · exact ⟨_, exec_supplyMonitor s, froze_freezeHere _ _⟩
  · exact ⟨_, exec_thermalTrip s, froze_freezeHere _ _⟩
  · exact ⟨_, exec_freezePin s, froze_freezeHere _ _⟩
  · exact ⟨_, exec_arrayUncorrected k v a s, froze_arrayUncorrected k v a s⟩
  · exact ⟨_, exec_gdnCtlFrz w s, froze_gdnCtlFrz w s⟩

theorem heartbeatMissed_freezes (hw : s.guidon.hbwin ≠ 0) (hf : s.guidon.frozen = false)
    (ht : s.guidon.hbFrom + 1000 * s.guidon.hbwin.toNat ≤ s.dtime) :
    (heartbeatMissed s).guidon.frozen = true ∧ (heartbeatMissed s).guidon.cause = 0xC2 ∧ (0xC2 : Byte) ∈ (heartbeatMissed s).guidon.event := by
  rw [heartbeatMissed_of_due hw hf ht]
  obtain ⟨-, hfrozen, hcause, -, -, hfirst⟩ := froze_freezeHere 0xC2 s
  exact ⟨hfrozen, (hfirst hf).1, hcause⟩
theorem gdnHbWrite_wrong_freezes {x : Nat} {b : Word} (hx : x = s.guidon.hbctx.toNat) (hb : b ≠ s.guidon.hb + 1) (hw : s.guidon.hbwin ≠ 0)
    (hf : s.guidon.frozen = false) : (gdnHbWrite x b s).guidon.frozen = true ∧ (gdnHbWrite x b s).guidon.cause = 0xC2 := by
  rw [gdnHbWrite_of_wrong hx hb, if_neg hw]
  obtain ⟨-, hfrozen, -, -, -, hfirst⟩ := froze_freezeHere 0xC2 { s with guidon := { s.guidon with hb := b } }
  exact ⟨hfrozen, (hfirst hf).1⟩

/-- GDN_CTL with THAW alone. -/
theorem gdnCtlThaw_clauses {w : Word} (h31 : w.getLsbD 31 = false) (h29 : w.getLsbD 29 = false) {ev : List Byte}
    (hev : ev = if w.getLsbD 0 then [] else s.guidon.event) :
    (s.guidon.frozen = true → s.guidon.level = [] → ev = [] → s.fabric.rx = [] → gdnCtlThaw w s = { s with
      guidon := { s.guidon with frozen := false, quiet := false, hbFrom := s.dtime, event := [], rdn := w.getLsbD 28, hbctx := w.extractLsb' 22 6 } }) ∧
    (s.guidon.frozen = false ∨ s.guidon.level ≠ [] ∨ ev ≠ [] → (gdnCtlThaw w s).guidon =
      { s.guidon with event := ev, rdn := w.getLsbD 28, hbctx := w.extractLsb' 22 6 } ∧ (gdnCtlThaw w s).logged = s.logged + 1 ∧
        (gdnCtlThaw w s).mem = s.mem ∧ (gdnCtlThaw w s).work = s.work) := by
  rw [gdnCtlThaw_eq h31 h29]
  have hset : (ctlSet w s).guidon.event = ev := hev.symm
  refine ⟨fun hf hl he hrx => ?_, fun hheld => ?_⟩
  · rw [thaw_of_clear (s := ctlSet w s) hf hl (hset.trans he) hrx]
    rw [ctlSet, ← hev, he]
  · rw [thaw_of_held (by rw [hset]; exact hheld), hev]
    exact ⟨rfl, rfl, rfl, rfl⟩
/-- GDN_CTL with REL alone. -/
theorem gdnCtlRel_clauses {w : Word} (h31 : w.getLsbD 31 = false) (h30 : w.getLsbD 30 = false) :
    (s.guidon.frozen = true → (gdnCtlRel w s).guidon.safe = s.guidon.safe ∧ (gdnCtlRel w s).guidon.frozen = true ∧
      (gdnCtlRel w s).logged = s.logged + 1) ∧
    (s.guidon.frozen = false → gdnCtlRel w s = { s with guidon := (gdnCtlRel w s).guidon } ∧ (gdnCtlRel w s).guidon.safe = false ∧
      (gdnCtlRel w s).guidon.frozen = false) := by
  rw [gdnCtlRel_eq h31 h30]
  refine ⟨fun hf => ?_, fun hf => ?_⟩
  · rw [release_of_frozen (s := ctlSet w s) hf]
    exact ⟨rfl, hf, rfl⟩
  · rw [release_of_running (s := ctlSet w s) hf]
    exact ⟨rfl, rfl, hf⟩

/-- Settles O59: the freeze inputs, the heartbeat's events, GDN_CTL, GDN_HB and GDN_HBWIN, and the comparator's events, each
brought to the plain equation of its next state. -/
theorem freezeAndRedundancy : Obligations.FreezeAndRedundancy := by
  unfold Obligations.FreezeAndRedundancy
  refine ⟨fun i cause h s => exec_freezes h s, fun s => ⟨fun h => ?_, fun hw hf ht => ?_, exec_moduleQuiescent s, exec_hbOutToggle s, fun c => ?_⟩,
    fun s w h31 => ⟨fun h29 ev hev => ?_, fun h30 => ?_⟩, fun s x b => ⟨fun h => ?_, fun hx hb => ?_, fun hx hb => ⟨fun hw => ?_, fun hw hf => ?_⟩, fun h => ?_, fun h => ?_⟩,
    fun s p a b as bs ha hb => ⟨fun hk hboth pc hpc => ?_, fun k hk hne => ?_, ?_⟩,
    fun s p => ⟨fun e h => ⟨fun hlate => ?_, fun hlate => ?_⟩, fun k team => ⟨fun h => ?_, fun h hbatch => ?_⟩⟩⟩
  · rw [exec_heartbeatMissed, heartbeatMissed_of_idle h]
  · exact ⟨_, exec_heartbeatMissed s, heartbeatMissed_freezes hw hf ht⟩
  · exact ⟨_, exec_levelCauseClear c s, rfl, fun d => by simp [levelCauseClear, State.modGuidon]⟩
  · obtain ⟨hclear, hheld⟩ := gdnCtlThaw_clauses h31 h29 hev
    exact ⟨fun hf hl he hrx => congrArg Host.Outcome.next (hclear hf hl he hrx), fun h => ⟨_, exec_gdnCtlThaw w s, hheld h⟩⟩
  · obtain ⟨hfrozen, hrun⟩ := gdnCtlRel_clauses h31 h30
    exact ⟨fun hf => ⟨_, exec_gdnCtlRel w s, hfrozen hf⟩, fun hf => ⟨_, exec_gdnCtlRel w s, hrun hf⟩,
      fun h29 => congrArg Host.Outcome.next (gdnCtlAck_eq h31 h30 h29)⟩
  · rw [exec_gdnHbWrite, gdnHbWrite_of_other b h]
  · rw [exec_gdnHbWrite, gdnHbWrite_of_next hx hb]
  · rw [exec_gdnHbWrite, gdnHbWrite_of_wrong hx hb, if_pos hw]
  · exact ⟨_, exec_gdnHbWrite x b s, gdnHbWrite_wrong_freezes hx hb hw hf⟩
  · exact ⟨_, (exec_gdnHbwinWrite b s).trans (congrArg Host.Outcome.next (gdnHbwinWrite_of_long h)), rfl⟩
  · rw [exec_gdnHbwinWrite, gdnHbwinWrite_of_valid h]
  · obtain ⟨hmem, hpair, hthreads⟩ := comparatorMatch_equal_releases ha hb hk hboth hpc
    exact ⟨_, exec_comparatorMatch p s, hmem, by rw [hpair]; rfl, by rw [hpair]; rfl, hthreads,
      fun e he => by rw [hpair]; exact List.mem_append_right _ (List.mem_map.2 ⟨e, he, rfl⟩)⟩
  · rw [exec_comparatorMatch, exec_redundancyMismatch, comparatorMatch_of_unequal ha hb (hk ▸ hne), hk]
  · rw [exec_comparatorTimeout, comparatorTimeout_of_both ha hb]
  · rw [exec_comparatorTimeout, comparatorTimeout_of_lone h, if_neg (by omega)]
  · rw [exec_comparatorTimeout, comparatorTimeout_of_lone h, if_pos hlate, exec_redundancyMismatch]
  · rw [exec_redundancyMismatch, redundancyMismatch_of_noTeam k h]
  · exact ⟨_, exec_redundancyMismatch p k s, redundancyMismatch_stops h hbatch⟩

end
end Sys2Proof.Proofs
end

section
/-!
PROOFS. Bindings and leases (spec 11 R234, 13 R285, R286): BIND and UNBIND of one thread, LEASE on one remote line, and the events
of leases.
-/
namespace Sys2Proof.Proofs

open Machine Laws

section
variable {s t u : State}

/-! ### One executing lane -/

theorem byHidx_single (l : Lane) : byHidx [l] = [l] := rfl

/-- Nothing but cores, the home's state and the fabric differs. -/
def Beside (s t : State) : Prop := t = { s with cores := t.cores, home := t.home, fabric := t.fabric }
theorem beside_refl (s : State) : Beside s s := rfl
theorem beside_trans (h : Beside s t) (h' : Beside t u) : Beside s u := by
  unfold Beside at *
  rw [h', h]
theorem modThread_work_congr (k : Nat) (g : Thread → Thread) {a b : State} (h : a.work = b.work) :
    (a.modThread k g).work = (b.modThread k g).work := by
  unfold State.modThread State.thread?
  rw [h]
  split
  · simp only [State.setThread, h]
  · exact h
theorem modThreads_work_congr (ids : List Nat) (g : Thread → Thread) {a b : State} (h : a.work = b.work) :
    (a.modThreads ids g).work = (b.modThreads ids g).work := by
  unfold State.modThreads
  induction ids generalizing a b with
  | nil => exact h
  | cons k r ih => exact ih (modThread_work_congr k g h)
theorem lanesBecome_beside {f : Fields} (hs : LanesSound s) (h : Beside s t) : LanesBecome f s (advance t) fun l => nextTh s l.th := by
  refine lanesBecome_congr (lanesBecome_advance hs) fun j => ?_
  have hwork : (advance t).work = (advance s).work := by
    rw [h]
    exact modThreads_work_congr _ _ rfl
  rw [State.thread?, hwork]
  rfl
theorem advance_rest (s : State) : advance s = { s with work := { s.work with threads := (advance s).work.threads } } := sameT_advance s

theorem beside_touchHint (c line : Nat) (hint : BitVec 2) (s : State) : Beside s (touchHint c line hint s) := by
  unfold touchHint demoteLast
  split
  · rfl
  · dsimp only
    split
    · split
      · rfl
      · split <;> rfl
    · rfl
theorem touchHint_fabric (c line : Nat) (hint : BitVec 2) (s : State) : (touchHint c line hint s).fabric = s.fabric := by
  unfold touchHint demoteLast
  split
  · rfl
  · dsimp only
    split
    · split
      · rfl
      · split <;> rfl
    · rfl

/-! ### BIND and UNBIND -/

section
variable {f : Fields} {l : Lane} {b : Bool}

theorem bindAll_of_ok {bs : List Binding} (hl : s.execLanes f = [l]) (h : bindOne f b s l (s.ctx s.hereCtx).binds = .ok bs) :
    bindAll f b s = (advance s).modCtx s.hereCtx fun c => { c with binds := bs } := by
  unfold bindAll
  simp only [hl, byHidx_single, List.foldl_cons, List.foldl_nil, h, List.isEmpty_cons, Bool.false_eq_true, if_false]
theorem bindAll_of_fault {reason : Nat} {addr info : DWord} (hinfo : BitVec.ofNat 64 reason = info) (hl : s.execLanes f = [l])
    (h : bindOne f b s l (s.ctx s.hereCtx).binds = .error (bindFault reason addr)) :
    bindAll f b s = memTrapInfo f [(l, 0x46, addr)] (some info) s := by
  subst hinfo
  unfold bindAll
  simp only [hl, byHidx_single, List.foldl_cons, List.foldl_nil, h, List.nil_append, List.map_cons, List.map_nil, bindFault, beq_self_eq_true, if_true]

theorem bound_leaves (hs : LanesSound s) (bs : List Binding) :
    let t := (advance s).modCtx s.hereCtx fun c => { c with binds := bs }
    LanesBecome f s t (fun l => nextTh s l.th) ∧ t.mem = s.mem ∧
      t.ctx s.hereCtx = { s.ctx s.hereCtx with binds := bs } ∧ ∀ k, k ≠ s.hereCtx → t.ctx k = s.ctx k := by
  have hctxs : (advance s).ctxs = s.ctxs := by rw [advance_rest]
  refine ⟨lanesBecome_congr (lanesBecome_advance hs) fun _ => rfl, advance_mem s, ?_, fun k hk => ?_⟩
  · simp only [State.modCtx, State.setCtx, State.ctx, tab_get_put_self, hctxs]
  · simp only [State.modCtx, State.setCtx, State.ctx, tab_get_put, if_neg hk, hctxs]

/-- The run of blocks that BIND adds for a lane whose region and object are global. -/
def globalRun (f : Fields) (l : Lane) : Binding :=
  { team := none, base := vaOf (reg64 l.th f.b), n := (reg32 l.th f.c).toNat, objTeam := none, obj := vaOf (reg64 l.th f.a) }

section
variable {bs : List Binding} {x : Xlat} (h0 : f.fn.getLsbD 0 = false)
include h0
theorem bindOne_of_unaligned (ho : (if b then objErr f s l else none) = none) (hbase : (reg64 l.th f.b).toNat % 256 ≠ 0) :
    bindOne f b s l bs = .error (bindFault 3 (reg64 l.th f.b)) := by
  unfold bindOne
  simp only [ho, bindBase, bindSpace, h0, Bool.false_eq_true, if_false]
  rw [if_pos hbase]
theorem bindOne_of_region (ho : (if b then objErr f s l else none) = none) (hbase : (reg64 l.th f.b).toNat % 256 = 0)
    (hn : 0 < (reg32 l.th f.c).toNat) (hmax : (reg32 l.th f.c).toNat ≤ 2 ^ 24) (hr : regionErr f s l (reg64 l.th f.b) (reg32 l.th f.c).toNat = none)
    (h4 : f.fn.getLsbD 4 = false) {bs' cs : List Binding} (hbs : bs' = removeRun none (vaOf (reg64 l.th f.b)) (reg32 l.th f.c).toNat bs)
    (hcs : cs = if b then addRun (globalRun f l) bs' else bs') :
    bindOne f b s l bs = if cs.length > 4096 then .error (bindFault 5 (reg64 l.th f.b)) else .ok cs := by
  subst hcs hbs
  unfold bindOne globalRun
  simp only [ho, bindBase, bindObj, bindSpace, h0, h4, Bool.false_eq_true, if_false, hbase, hr, ne_eq, not_true, Nat.not_lt.2 hmax, gt_iff_lt,
    Nat.ne_of_gt hn, bne, beq_eq_false_iff_ne.2 (Nat.ne_of_gt hn), Bool.not_false, Bool.and_true]
end

theorem objErr_of_ok {x : Xlat} (h4 : f.fn.getLsbD 4 = false) (hx : checkGlobal s (whoOf s l.th) {} 1 (reg64 l.th f.a) = .ok x)
    (ha : (reg64 l.th f.a).toNat % 4 = 0) (hm : x.mode = 0) : objErr f s l = none := by
  unfold objErr
  simp only [bindSpace, bindObj, h4, Bool.false_eq_true, if_false, hx, ha, hm, ne_eq, not_true, or_self]

theorem exec_bind (f : Fields) (s : State) : exec (.bind f) s = .next (bindAll f true s) := rfl
theorem exec_unbind (f : Fields) (s : State) : exec (.unbind f) s = .next (bindAll f false s) := rfl

/-- One lane's change of the table, where the new table fits. -/
theorem bindAll_writes {cs : List Binding} (hs : LanesSound s) (hl : s.execLanes f = [l]) (hc : cs.length ≤ 4096)
    (h : bindOne f b s l (s.ctx s.hereCtx).binds = if cs.length > 4096 then .error (bindFault 5 (reg64 l.th f.b)) else .ok cs) :
    LanesBecome f s (bindAll f b s) (fun l => nextTh s l.th) ∧ (bindAll f b s).mem = s.mem ∧
      (bindAll f b s).ctx s.hereCtx = { s.ctx s.hereCtx with binds := cs } ∧ ∀ k, k ≠ s.hereCtx → (bindAll f b s).ctx k = s.ctx k := by
  rw [if_neg (Nat.not_lt.2 hc)] at h
  rw [bindAll_of_ok hl h]
  exact bound_leaves hs cs
theorem bindAll_of_full {cs : List Binding} (hl : s.execLanes f = [l]) (hc : 4096 < cs.length)
    (h : bindOne f b s l (s.ctx s.hereCtx).binds = if cs.length > 4096 then .error (bindFault 5 (reg64 l.th f.b)) else .ok cs) :
    bindAll f b s = memTrapInfo f [(l, 0x46, reg64 l.th f.b)] (some 5) s := by
  rw [if_pos hc] at h
  exact bindAll_of_fault rfl hl h
end

/-! ### LEASE -/

section
variable {f : Fields} {l : Lane} {x : Xlat}

/-- LEASE of one lane that names a remote line. -/
theorem withRemoteLines_one (act : List (Lane × Nat) → State → State) (hl : s.execLanes f = [l])
    (hx : checkGlobal s (whoOf s l.th) {} 1 (globalEa f l.th) = .ok x) (hr : isRemote x.pa = true) (hm : x.mode = 0) :
    withRemoteLines f act s = advance (act [(l, lineOf x.pa)] s) := by
  unfold withRemoteLines
  simp [hl, byHidx_single, splitChecks, hx, hr, hm]

end

theorem setLease_beside (line : Nat) (w : Lease) (s : State) : Beside s (setLease line w s) := rfl
theorem find_setLease (line : Nat) (w : Lease) (s : State) (k : Nat) :
    Tab.find (setLease line w s).fabric.leases k = if k = line then some w else Tab.find s.fabric.leases k := by
  simp only [setLease, modFabric_fabric, tab_find_put]
theorem l1Line_dropCopies (line : Nat) (s : State) (c k : Nat) :
    l1Line (dropCopies line s) c k = if k = line then none else l1Line s c k := by
  simp only [l1Line, dropCopies, State.core, Tab.get, tab_find_mapVal (fun x : Core => { x with l1 := Tab.del x.l1 line })]
  cases hc : Tab.find s.cores c with
  | none => simp
  | some x => simp [tab_find_del]
theorem expireLease_of_none {line : Nat} (h : Tab.find s.fabric.leases line = none) : expireLease line s = s := by
  unfold expireLease
  simp only [h]
theorem expireLease_of_some {line : Nat} {w : Lease} (h : Tab.find s.fabric.leases line = some w) :
    expireLease line s = dropCopies line (setLease line { w with expired := true } s) := by
  unfold expireLease
  simp only [h]

/-! ### Requests -/

theorem sendPacket_rest (q m : Nat) (p : Packet) (s : State) :
    sendPacket q m p s = { s with fabric := { s.fabric with ports := (sendPacket q m p s).fabric.ports } } := by
  unfold sendPacket
  split
  · generalize packetFlits p m = fs
    induction fs using List.reverseRecOn with
    | nil => rfl
    | append_singleton fs f ih =>
      rw [List.foldl_append, List.foldl_cons, List.foldl_nil, sendFlit, ih]
      rfl
  · rfl

/-- The packet of a flow with a request of no thread. -/
def sentOn (k : Nat) (w : Flow) (p : Packet) (s : State) : Outst :=
  { pkt := { p with src := s.fabric.module_.toNat, flow := k, seq := w.seq, secure := w.secure, ordered := w.ordered }, sent := s.dtime, first := s.dtime }
theorem request_of_flow {c k : Nat} {p : Packet} {w : Flow} (hk : flowTo s (paModule p.pa) c = some k) (hw : Tab.find s.fabric.flows k = some w)
    (hroom : w.outst.length < 4096) : ∃ v, request c p none s = .ok v ∧ Beside s v ∧ v.fabric.leases = s.fabric.leases ∧
      Tab.find v.fabric.flows k = some { w with seq := w.seq + 1, outst := w.outst ++ [sentOn k w p s] } := by
  have hget : Tab.get s.fabric.flows k {} = w := tab_get_of_find hw _
  refine ⟨sendOn k p none s, ?_, ?_, ?_, ?_⟩
  · unfold request
    simp only [hk, hget]
    rw [if_neg (by omega)]
  all_goals
    unfold sendOn
    simp only [hget]
    rw [sendPacket_rest, modFlow]
    simp only [hw]
  · rfl
  · rfl
  · exact tab_find_put_self ..

theorem request_of_noFlow {c : Nat} {p : Packet} (o : Option Nat) (h : flowTo s (paModule p.pa) c = none) : request c p o s = .noFlow := by
  unfold request
  simp only [h]

/-- The packet that asks for a lease, and the one that renews it. -/
def leasePacket (c line : Nat) : Packet :=
  { src := 0, flow := 0, seq := 0, typ := 0, pa := line, size := 256, op := 1, b := BitVec.ofNat 64 c, c := 0, data := 0 }
def renewPacket (c line : Nat) (w : Lease) : Packet := { leasePacket c line with typ := 6, b := w.version.setWidth 64 }

theorem askLease_of_absent {c line : Nat} (h : Tab.find s.fabric.leases line = none) :
    askLease c line none s = request c (leasePacket c line) none s := by
  unfold askLease
  simp only [h]
  rfl
theorem askLease_of_other {c line : Nat} {w : Lease} (h : Tab.find s.fabric.leases line = some w) (hc : w.ctx ≠ c) :
    askLease c line none s = request c (leasePacket c line) none s := by
  unfold askLease
  simp only [h, beq_eq_false_iff_ne.2 hc, Bool.false_eq_true, if_false]
  rfl
theorem askLease_of_asked {c line : Nat} {w : Lease} (h : Tab.find s.fabric.leases line = some w) (hc : w.ctx = c) (ha : w.asked.isSome = true) :
    askLease c line none s = .ok s := by
  unfold askLease
  simp only [h, hc, beq_self_eq_true, if_true, ha]
theorem askLease_of_unasked {c line : Nat} {w : Lease} (h : Tab.find s.fabric.leases line = some w) (hc : w.ctx = c) (ha : w.asked = none) :
    askLease c line none s = match request c (renewPacket c line w) none s with
      | .ok v => .ok (setLease line { w with asked := some s.dtime } v)
      | r => r := by
  unfold askLease
  simp only [h, hc, beq_self_eq_true, if_true, ha, Option.isSome_none, Bool.false_eq_true, if_false]
  rfl
theorem askLease_of_noFlow {c line : Nat} (h : flowTo s (paModule line) c = none) :
    askLease c line none s = .ok s ∨ askLease c line none s = .noFlow := by
  cases hd : Tab.find s.fabric.leases line with
  | none => exact .inr (by rw [askLease_of_absent hd, request_of_noFlow none h])
  | some w =>
    by_cases hc : w.ctx = c
    · cases ha : w.asked with
      | some a => exact .inl (askLease_of_asked hd hc (by rw [ha]; rfl))
      | none => exact .inr (by rw [askLease_of_unasked hd hc ha, request_of_noFlow none h])
    · exact .inr (by rw [askLease_of_other hd hc, request_of_noFlow none h])

/-! ### LEASE.get -/

/-- What LEASE.get does for one line: the line's class is set, then the home is asked, unless the context holds a lease. -/
def leaseGetOne (c k line : Nat) (hint : BitVec 2) (s : State) : State :=
  if (leaseLive (touchHint k line hint s) c line).isSome then touchHint k line hint s
  else match askLease c line none (touchHint k line hint s) with
    | .ok v => v
    | _ => touchHint k line hint s

section
variable {f : Fields} {l : Lane} {x : Xlat} {c : Nat}

theorem leaseGet_one (hl : s.execLanes f = [l]) (hx : checkGlobal s (whoOf s l.th) {} 1 (globalEa f l.th) = .ok x)
    (hr : isRemote x.pa = true) (hm : x.mode = 0) (hc : c = s.ctxOf l.th) :
    leaseGet f s = advance (leaseGetOne c (s.coreOf l.th) (lineOf x.pa) f.hint s) := by
  subst hc
  exact withRemoteLines_one _ hl hx hr hm

variable {k line : Nat} {hint : BitVec 2}

/-- The class of a line is set in the caches alone: what LEASE reads stands as it was. -/
theorem touchHint_reads (k line : Nat) (hint : BitVec 2) (s : State) :
    ∃ cs h, touchHint k line hint s = { s with cores := cs, home := h } := by
  have h := beside_touchHint k line hint s
  rw [Beside, touchHint_fabric] at h
  exact ⟨_, _, h⟩

theorem leaseGetOne_of_kept (h : leaseLive s c line ≠ none ∨ flowTo s (paModule line) c = none) :
    Beside s (leaseGetOne c k line hint s) ∧ (leaseGetOne c k line hint s).fabric = s.fabric := by
  obtain ⟨cs, hm, he⟩ := touchHint_reads k line hint s
  have hkept : leaseGetOne c k line hint s = touchHint k line hint s := by
    unfold leaseGetOne
    rcases h with h | h
    · rw [if_pos]
      rw [he]
      exact Option.isSome_iff_ne_none.2 h
    · have hask := askLease_of_noFlow (s := touchHint k line hint s) (c := c) (line := line) (by rw [he]; exact h)
      rcases hask with hask | hask <;> rw [hask] <;> exact ite_self _
  rw [hkept]
  exact ⟨beside_touchHint .., touchHint_fabric ..⟩
theorem leaseGetOne_of_absent {n : Nat} {w : Flow} (h : Tab.find s.fabric.leases line = none) (hn : flowTo s (paModule line) c = some n)
    (hw : Tab.find s.fabric.flows n = some w) (hroom : w.outst.length < 4096) :
    Beside s (leaseGetOne c k line hint s) ∧ Tab.find (leaseGetOne c k line hint s).fabric.flows n =
      some { w with seq := w.seq + 1, outst := w.outst ++ [sentOn n w (leasePacket c line) s] } := by
  obtain ⟨cs, hm, he⟩ := touchHint_reads k line hint s
  have hb := beside_touchHint k line hint s
  unfold leaseGetOne
  rw [he] at hb ⊢
  obtain ⟨v, hv, hbeside, -, hflow⟩ := request_of_flow (s := { s with cores := cs, home := hm }) (p := leasePacket c line) (k := n) hn hw hroom
  have hlive : leaseLive { s with cores := cs, home := hm } c line = none := by
    unfold leaseLive
    simp only [h]
  rw [if_neg (by simp [hlive]), askLease_of_absent (s := { s with cores := cs, home := hm }) h, hv]
  exact ⟨beside_trans hb hbeside, hflow⟩
theorem leaseGetOne_of_expired {n : Nat} {w : Flow} {d : Lease} (h : Tab.find s.fabric.leases line = some d) (hc : d.ctx = c) (hx : d.expired = true)
    (ha : d.asked = none) (hn : flowTo s (paModule line) c = some n) (hw : Tab.find s.fabric.flows n = some w) (hroom : w.outst.length < 4096) :
    Beside s (leaseGetOne c k line hint s) ∧ Tab.find (leaseGetOne c k line hint s).fabric.leases line = some { d with asked := some s.dtime } ∧
      Tab.find (leaseGetOne c k line hint s).fabric.flows n =
        some { w with seq := w.seq + 1, outst := w.outst ++ [sentOn n w (renewPacket c line d) s] } := by
  obtain ⟨cs, hm, he⟩ := touchHint_reads k line hint s
  have hb := beside_touchHint k line hint s
  unfold leaseGetOne
  rw [he] at hb ⊢
  obtain ⟨v, hv, hbeside, -, hflow⟩ := request_of_flow (s := { s with cores := cs, home := hm }) (p := renewPacket c line d) (k := n) hn hw hroom
  have hlive : leaseLive { s with cores := cs, home := hm } c line = none := by
    unfold leaseLive
    simp only [h, hx, Bool.not_true, Bool.and_false, Bool.false_and, Bool.false_eq_true, if_false]
  rw [if_neg (by simp [hlive]), askLease_of_unasked (s := { s with cores := cs, home := hm }) h hc ha, hv]
  exact ⟨beside_trans (beside_trans hb hbeside) rfl, by rw [find_setLease, if_pos rfl], hflow⟩

theorem advance_fabric (s : State) : (advance s).fabric = s.fabric := by rw [advance_rest]
theorem advance_l1Line (s : State) (k line : Nat) : l1Line (advance s) k line = l1Line s k line := by rw [advance_rest]; rfl
theorem advance_beside_mem (h : Beside s t) : (advance t).mem = s.mem := by rw [advance_mem, h]

/-! ### LEASE.drop and LEASE.dropall -/

theorem leaseDrop_one (hl : s.execLanes f = [l]) (hx : checkGlobal s (whoOf s l.th) {} 1 (globalEa f l.th) = .ok x)
    (hr : isRemote x.pa = true) (hm : x.mode = 0) : leaseDrop f s = advance (expireLease (lineOf x.pa) s) :=
  withRemoteLines_one _ hl hx hr hm

theorem expireLease_leases {w : Lease} (h : Tab.find s.fabric.leases line = some w) (k : Nat) :
    Tab.find (expireLease line s).fabric.leases k = if k = line then some { w with expired := true } else Tab.find s.fabric.leases k := by
  rw [expireLease_of_some h]
  exact find_setLease line _ s k
theorem expireLease_rest {w : Lease} (h : Tab.find s.fabric.leases line = some w) : expireLease line s =
    { s with fabric := { s.fabric with leases := (expireLease line s).fabric.leases }, cores := (expireLease line s).cores } := by
  rw [expireLease_of_some h]
  rfl
theorem l1Line_expireLease {w : Lease} (h : Tab.find s.fabric.leases line = some w) (k q : Nat) :
    l1Line (expireLease line s) k q = if q = line then none else l1Line s k q := by
  rw [expireLease_of_some h, l1Line_dropCopies]
  rfl

theorem beside_dropCopies (line : Nat) (s : State) : Beside s (dropCopies line s) := rfl
theorem beside_modFabric (g : Fabric → Fabric) (s : State) : Beside s (s.modFabric g) := rfl
theorem foldl_dropCopies_beside (ks : List Nat) (s : State) :
    Beside s (ks.foldl (fun s k => dropCopies k s) s) ∧ (ks.foldl (fun s k => dropCopies k s) s).fabric = s.fabric := by
  induction ks generalizing s with
  | nil => exact ⟨rfl, rfl⟩
  | cons k r ih => exact ⟨beside_trans (beside_dropCopies k s) (ih (dropCopies k s)).1, (ih (dropCopies k s)).2⟩
theorem expireLeases_beside (c : Nat) (s : State) : Beside s (expireLeases c s) :=
  beside_trans (beside_modFabric _ s) (foldl_dropCopies_beside _ _).1
theorem expireLeases_leases (c : Nat) (s : State) (k : Nat) : Tab.find (expireLeases c s).fabric.leases k =
    (Tab.find s.fabric.leases k).map fun w => if w.ctx = c then { w with expired := true, late := w.asked.isSome } else w := by
  unfold expireLeases
  simp only
  rw [(foldl_dropCopies_beside _ _).2, ← tab_find_mapVal]
  simp only [modFabric_fabric, beq_iff_eq]
  congr 2
  funext e
  split <;> rfl

theorem leaseDropall_of_executing (h : s.execLanes f ≠ []) : leaseDropall f s = expireLeases s.hereCtx (advance s) := by
  unfold leaseDropall
  simp only [List.isEmpty_iff, h, if_false]
theorem leaseDropall_done (hs : LanesSound s) (h : s.execLanes f ≠ []) :
    LanesBecome f s (leaseDropall f s) (fun l => nextTh s l.th) ∧ (leaseDropall f s).mem = s.mem ∧
      ∀ k, Tab.find (leaseDropall f s).fabric.leases k =
        (Tab.find s.fabric.leases k).map fun w => if w.ctx = s.hereCtx then { w with expired := true, late := w.asked.isSome } else w := by
  rw [leaseDropall_of_executing h]
  have hrest := expireLeases_beside s.hereCtx (advance s)
  refine ⟨lanesBecome_congr (lanesBecome_advance hs) fun j => by rw [hrest]; rfl, by rw [hrest, advance_mem], fun k => ?_⟩
  rw [expireLeases_leases, advance_fabric]

/-! ### The events of leases -/

theorem leaseExpiry_of_due {w : Lease} (h : Tab.find s.fabric.leases line = some w) (ht : w.expiry ≤ s.dtime) :
    leaseExpiry line s = expireLease line s := by
  unfold leaseExpiry
  simp only [h, ht, if_true]
theorem leaseExpiry_of_live {w : Lease} (h : Tab.find s.fabric.leases line = some w) (ht : s.dtime < w.expiry) : leaseExpiry line s = s := by
  unfold leaseExpiry
  simp only [h, if_neg (Nat.not_le.2 ht)]
theorem leaseEmbargoEnd_of_due {v : PageVer} {e : Nat} (hv : v = Tab.get s.fabric.pageVer line {}) (he : v.embargo = some e) (ht : e ≤ s.dtime) :
    leaseEmbargoEnd line s = s.modFabric fun x => { x with pageVer := Tab.put x.pageVer line { v with embargo := none } } := by
  unfold leaseEmbargoEnd
  simp only [← hv, he, ht, if_true]
theorem leaseEmbargoEnd_of_standing {v : PageVer} {e : Nat} (hv : v = Tab.get s.fabric.pageVer line {}) (he : v.embargo = some e)
    (ht : s.dtime < e) : leaseEmbargoEnd line s = s := by
  unfold leaseEmbargoEnd
  simp only [← hv, he, if_neg (Nat.not_le.2 ht)]

/-- No thread completes its instruction with others. -/
def NoBatch (s : State) : Prop := s.work.threads.all (fun e => e.2.batch.isNone) = true
theorem NoBatch.batch {s : State} (h : NoBatch s) {e : Nat × Thread} (he : e ∈ s.work.threads) : e.2.batch = none := by
  simpa using List.all_eq_true.1 h e he
/-- A thread woken, or left to its fellows. -/
def woken (t : Thread) : Thread := if t.batch.isSome then { t with park := some .others } else t.unparkHere
theorem woken_of_single {t : Thread} (h : t.batch = none) : woken t = t.unparkHere := if_neg (by simp [h])
theorem woken_of_batch {t : Thread} (h : t.batch.isSome = true) : woken t = { t with park := some .others } := if_pos h
theorem woken_woken (t : Thread) : woken (woken t) = woken t := by
  cases h : t.batch with
  | none =>
    rw [woken_of_single h]
    exact woken_of_single (t := t.unparkHere) h
  | some b =>
    have hb : t.batch.isSome = true := by rw [h]; rfl
    rw [woken_of_batch hb]
    exact woken_of_batch (t := { t with park := some .others }) hb
theorem wakeWhere_of_noBatch (hit : Nat → Thread → Bool) (h : NoBatch s) :
    wakeWhere hit s = s.modThreads ((s.work.threads.filter fun e => hit e.1 e.2).map (·.1)) woken := by
  have hnone : (s.work.threads.filter fun e => hit e.1 e.2).filterMap (fun e => e.2.batch) = [] :=
    List.filterMap_eq_nil_iff.2 fun e he => h.batch (List.mem_of_mem_filter he)
  unfold wakeWhere
  simp only [hnone]
  rfl
theorem thread?_wakeWhere (hit : Nat → Thread → Bool) (h : NoBatch s) {j : Nat} {y : Thread} (hy : s.thread? j = some y) (hj : hit j y = true) :
    (wakeWhere hit s).thread? j = some y.unparkHere := by
  have hin := tab_mem_of_find hy
  have hb : y.batch = none := h.batch hin
  rw [wakeWhere_of_noBatch hit h, thread?_modThreads_idem _ _ woken_woken,
    if_pos (List.mem_map.2 ⟨(j, y), List.mem_filter.2 ⟨hin, hj⟩, rfl⟩), hy, Option.map_some, woken_of_single hb]
theorem wakeWhere_rest (hit : Nat → Thread → Bool) (h : NoBatch s) : SameButThreads s (wakeWhere hit s) := by
  rw [wakeWhere_of_noBatch hit h]
  exact sameT_modThreads _ _ _

/-- A lease as the answer of a renewal asked at a time leaves it. -/
def renewed (w : Lease) (a ns : Nat) : Lease := { w with expiry := a + ns, expired := w.late, late := false, asked := none }
theorem leaseRenewal_eq {w : Lease} {a : Nat} (h : Tab.find s.fabric.leases line = some w) (ha : w.asked = some a) (r : RenewalAnswer) :
    leaseRenewal line r s = wakeRemote line (match r with
      | .unchanged => setLease line (renewed w a s.fabric.leaseNs) s
      | .data d v lease =>
        if lease then setLease line { renewed w a s.fabric.leaseNs with bytes := d, version := v } s
        else s.modFabric fun x => { x with leases := Tab.del x.leases line }) := by
  unfold leaseRenewal
  simp only [h, ha]
  rfl
/-- What an answer that only changes the fabric's leases leaves. -/
theorem wakeRemote_after {g : Fabric} (h : NoBatch s) :
    (wakeRemote line { s with fabric := g }).mem = s.mem ∧ (wakeRemote line { s with fabric := g }).fabric = g ∧
      ∀ j y, s.thread? j = some y → y.park = some (.remote line) → y.awaits = none →
        (wakeRemote line { s with fabric := g }).thread? j = some y.unparkHere := by
  have hb : NoBatch { s with fabric := g } := h
  have hrest := wakeWhere_rest (fun _ t => t.park == some (.remote line) && t.awaits.isNone) hb
  refine ⟨by rw [wakeRemote, hrest], by rw [wakeRemote, hrest], fun j y hy hp ha => ?_⟩
  exact thread?_wakeWhere _ hb hy (by rw [hp, ha]; simp)

theorem exec_leaseGet (f : Fields) (s : State) : exec (.leaseGet f) s = .next (leaseGet f s) := rfl
theorem exec_leaseDrop (f : Fields) (s : State) : exec (.leaseDrop f) s = .next (leaseDrop f s) := rfl
theorem exec_leaseDropall (f : Fields) (s : State) : exec (.leaseDropall f) s = .next (leaseDropall f s) := rfl
theorem exec_leaseRenewal (line : Nat) (r : RenewalAnswer) (s : State) : exec (.leaseRenewal line r) s = .next (leaseRenewal line r s) := rfl
theorem exec_leaseExpiry (line : Nat) (s : State) : exec (.leaseExpiry line) s = .next (leaseExpiry line s) := rfl
theorem exec_leaseEmbargoEnd (page : Nat) (s : State) : exec (.leaseEmbargoEnd page) s = .next (leaseEmbargoEnd page s) := rfl

end

/-! ### The statement -/

section
variable {f : Fields} {l : Lane} {x : Xlat} {c : Nat}

/-- The clauses of BIND and UNBIND. -/
theorem bind_clauses {base n : Nat} {bs : List Binding} (hs : LanesSound s) (hl : s.execLanes f = [l])
    (h0 : f.fn.getLsbD 0 = false) (h4 : f.fn.getLsbD 4 = false) (hbase : base = (reg64 l.th f.b).toNat) (hn : n = (reg32 l.th f.c).toNat)
    (ho : objErr f s l = none) (hbs : bs = (s.ctx s.hereCtx).binds) :
    (base % 256 = 0 → 0 < n → n ≤ 2 ^ 24 → regionErr f s l (reg64 l.th f.b) n = none → ∀ bs' cs',
      bs' = removeRun none (vaOf (reg64 l.th f.b)) n bs →
      cs' = addRun { team := none, base := vaOf (reg64 l.th f.b), n := n, objTeam := none, obj := vaOf (reg64 l.th f.a) } bs' →
      (bs'.length ≤ 4096 → ∃ t, exec (.unbind f) s = .next t ∧ LanesBecome f s t (fun l => nextTh s l.th) ∧ t.mem = s.mem ∧
        t.ctx s.hereCtx = { s.ctx s.hereCtx with binds := bs' } ∧ ∀ k, k ≠ s.hereCtx → t.ctx k = s.ctx k) ∧
      (cs'.length ≤ 4096 → ∃ t, exec (.bind f) s = .next t ∧ LanesBecome f s t (fun l => nextTh s l.th) ∧ t.mem = s.mem ∧
        t.ctx s.hereCtx = { s.ctx s.hereCtx with binds := cs' } ∧ ∀ k, k ≠ s.hereCtx → t.ctx k = s.ctx k) ∧
      (4096 < cs'.length → exec (.bind f) s = .next (memTrapInfo f [(l, 0x46, reg64 l.th f.b)] (some 5) s))) ∧
    (base % 256 ≠ 0 → exec (.bind f) s = .next (memTrapInfo f [(l, 0x46, reg64 l.th f.b)] (some 3) s) ∧
      exec (.unbind f) s = .next (memTrapInfo f [(l, 0x46, reg64 l.th f.b)] (some 3) s)) := by
  subst hbase hn hbs
  refine ⟨fun ha hpos hmax hr bs' cs' hbs' hcs' => ?_, fun ha => ⟨?_, ?_⟩⟩
  · have hu := bindOne_of_region (b := false) h0 rfl ha hpos hmax hr h4 hbs' rfl
    have hb := bindOne_of_region (b := true) h0 ho ha hpos hmax hr h4 hbs' hcs'
    exact ⟨fun h => ⟨_, exec_unbind f s, bindAll_writes hs hl h hu⟩, fun h => ⟨_, exec_bind f s, bindAll_writes hs hl h hb⟩,
      fun h => congrArg Host.Outcome.next (bindAll_of_full hl h hb)⟩
  · rw [exec_bind, bindAll_of_fault (info := 3) rfl hl (bindOne_of_unaligned (b := true) h0 ho ha)]
  · rw [exec_unbind, bindAll_of_fault (info := 3) rfl hl (bindOne_of_unaligned (b := false) h0 rfl ha)]

/-- The clauses of LEASE on one remote line. -/
theorem lease_clauses (hs : LanesSound s) (hl : s.execLanes f = [l]) (hx : checkGlobal s (whoOf s l.th) {} 1 (globalEa f l.th) = .ok x)
    (hr : isRemote x.pa = true) (hm : x.mode = 0) :
    (∀ w, Tab.find s.fabric.leases (lineOf x.pa) = some w →
      ∃ t, exec (.leaseDrop f) s = .next t ∧ LanesBecome f s t (fun l => nextTh s l.th) ∧ t.mem = s.mem ∧
        Tab.find t.fabric.leases (lineOf x.pa) = some { w with expired := true } ∧
        (∀ k, l1Line t k (lineOf x.pa) = none) ∧ ∀ k, k ≠ lineOf x.pa → Tab.find t.fabric.leases k = Tab.find s.fabric.leases k) ∧
    (Tab.find s.fabric.leases (lineOf x.pa) = none →
      ∃ t, exec (.leaseDrop f) s = .next t ∧ LanesBecome f s t (fun l => nextTh s l.th) ∧ SameButThreads s t) := by
  have ht := leaseDrop_one hl hx hr hm
  refine ⟨fun w hw => ⟨_, exec_leaseDrop f s, ?_⟩, fun hn => ⟨_, exec_leaseDrop f s, ?_⟩⟩
  · have hbeside : Beside s (expireLease (lineOf x.pa) s) := by
      rw [expireLease_of_some hw]
      exact beside_trans (setLease_beside ..) (beside_dropCopies ..)
    rw [ht]
    refine ⟨lanesBecome_beside hs hbeside, advance_beside_mem hbeside, ?_, fun k => ?_, fun k hk => ?_⟩
    · rw [advance_fabric, expireLease_leases hw, if_pos rfl]
    · rw [advance_l1Line, l1Line_expireLease hw, if_pos rfl]
    · rw [advance_fabric, expireLease_leases hw, if_neg hk]
  · rw [ht, expireLease_of_none hn]
    exact ⟨lanesBecome_advance hs, sameT_advance s⟩
end

/-- Settles O43: BIND, UNBIND and LEASE for one lane, and the events of leases, each from the plain equation of its next state. -/
theorem bindingsAndLeases : Obligations.BindingsAndLeases := by
  unfold Obligations.BindingsAndLeases
  refine ⟨fun f s l x base n bs hs hl h0 h4 hbase hn hx ha hm hbs => bind_clauses hs hl h0 h4 hbase hn (objErr_of_ok h4 hx ha hm) hbs,
    fun f s l x c hs hl hx hr hm hc => ⟨fun h => ?_, fun k w hno hk hw hroom => ?_, fun k w d hd hctx hexp hasked hk hw hroom => ?_, lease_clauses hs hl hx hr hm⟩,
    fun f s hs hex => ⟨_, exec_leaseDropall f s, leaseDropall_done hs hex⟩,
    fun s line => ⟨fun w a hb hw ha => ⟨?_, fun d v => ⟨?_, ?_⟩⟩, fun w hw => ⟨fun hdue => ?_, fun hlive => ?_⟩, fun v e hv he => ⟨fun hdue => ?_, fun hno => ?_⟩⟩⟩
  · obtain ⟨hbeside, hfab⟩ := leaseGetOne_of_kept (k := s.coreOf l.th) (hint := f.hint) h
    rw [exec_leaseGet, leaseGet_one hl hx hr hm hc]
    exact ⟨_, rfl, lanesBecome_beside hs hbeside, advance_beside_mem hbeside, (advance_fabric _).trans hfab⟩
  · obtain ⟨hbeside, hflow⟩ := leaseGetOne_of_absent (k := s.coreOf l.th) (hint := f.hint) hno hk hw hroom
    rw [exec_leaseGet, leaseGet_one hl hx hr hm hc]
    exact ⟨_, rfl, lanesBecome_beside hs hbeside, advance_beside_mem hbeside, by rw [advance_fabric]; exact hflow⟩
  · obtain ⟨hbeside, hlease, hflow⟩ := leaseGetOne_of_expired (k := s.coreOf l.th) (hint := f.hint) hd hctx hexp hasked hk hw hroom
    rw [exec_leaseGet, leaseGet_one hl hx hr hm hc]
    exact ⟨_, rfl, lanesBecome_beside hs hbeside, advance_beside_mem hbeside, by rw [advance_fabric]; exact hlease, by rw [advance_fabric]; exact hflow⟩
  · rw [exec_leaseRenewal, leaseRenewal_eq hw ha]
    obtain ⟨hmem, hfab, -⟩ := wakeRemote_after (line := line) (g := (setLease line (renewed w a s.fabric.leaseNs) s).fabric) hb
    exact ⟨_, rfl, hmem, (congrArg (fun g : Fabric => Tab.find g.leases line) hfab).trans (tab_find_put_self ..)⟩
  · rw [exec_leaseRenewal, leaseRenewal_eq hw ha]
    obtain ⟨hmem, hfab, -⟩ :=
      wakeRemote_after (line := line) (g := (setLease line { renewed w a s.fabric.leaseNs with bytes := d, version := v } s).fabric) hb
    exact ⟨_, rfl, hmem, (congrArg (fun g : Fabric => Tab.find g.leases line) hfab).trans (tab_find_put_self ..)⟩
  · rw [exec_leaseRenewal, leaseRenewal_eq hw ha]
    obtain ⟨hmem, hfab, hwoken⟩ := wakeRemote_after (line := line) (g := { s.fabric with leases := Tab.del s.fabric.leases line }) hb
    exact ⟨_, rfl, hmem, (congrArg (fun g : Fabric => Tab.find g.leases line) hfab).trans (by rw [tab_find_del, if_pos rfl]), hwoken⟩
  · rw [exec_leaseExpiry, leaseExpiry_of_due hw hdue]
    exact ⟨_, rfl, expireLease_rest hw, l1Line_expireLease hw, by rw [expireLease_leases hw, if_pos rfl],
      fun k hk => by rw [expireLease_leases hw, if_neg hk]⟩
  · rw [exec_leaseExpiry, leaseExpiry_of_live hw hlive]
  · rw [exec_leaseEmbargoEnd, leaseEmbargoEnd_of_due hv he hdue]
    exact ⟨_, rfl, rfl, tab_find_put_self ..⟩
  · rw [exec_leaseEmbargoEnd, leaseEmbargoEnd_of_standing hv he hno]

end
end Sys2Proof.Proofs
end

section
/-!
PROOFS. Little-endian bytes: a number's low bytes and the number of a list of bytes are inverse to each other.
-/
namespace Sys2Proof.Proofs

open Machine

@[simp] theorem length_natLe (n x : Nat) : (natLe n x).length = n := by
  induction n generalizing x with
  | zero => rfl
  | succ n ih => simp [natLe, ih]
theorem natLe_leNat (bs : List Byte) : natLe bs.length (leNat bs) = bs := by
  induction bs with
  | nil => rfl
  | cons b r ih =>
    have hb := b.isLt
    have hdiv : (b.toNat + 256 * leNat r) / 256 = leNat r := by omega
    have hlow : BitVec.ofNat 8 (b.toNat + 256 * leNat r) = b := by
      apply BitVec.eq_of_toNat_eq
      rw [BitVec.toNat_ofNat]
      omega
    rw [List.length_cons, leNat, natLe, hdiv, hlow, ih]
theorem leNat_lt (bs : List Byte) : leNat bs < 256 ^ bs.length := by
  induction bs with
  | nil => exact Nat.one_pos
  | cons b r ih =>
    have hb := b.isLt
    rw [leNat, List.length_cons, Nat.pow_succ]
    omega
theorem leNat_natLe (n x : Nat) : leNat (natLe n x) = x % 256 ^ n := by
  induction n generalizing x with
  | zero => simp [natLe, leNat, Nat.mod_one]
  | succ n ih =>
    have hsplit : x % 256 ^ (n + 1) = x % 256 + 256 * (x / 256 % 256 ^ n) := by rw [Nat.pow_succ', Nat.mod_mul]
    rw [natLe, leNat, ih, BitVec.toNat_ofNat, hsplit]

end Sys2Proof.Proofs
end

section
/-!
PROOFS. Global stores and read-modify-writes of one thread (spec 11 R217, R221, R225 to R232).
-/
namespace Sys2Proof.Proofs

open Machine Laws

section
variable {s u w : State} {f : Fields} {l : Lane} {x : Xlat}

/-! ### Where the access runs -/

/-- The state in which a plain access runs: only cores, the L2, walks and leases differ, and nothing holds the access back. -/
structure Runs (s w : State) (l : Lane) (x : Xlat) : Prop where
  calm : Calm s w
  free : writeWait w (s.coreOf l.th) x.mode x.pa = none
  core : w.coreOf l.th = s.coreOf l.th
  thread : w.thread l.id = l.th
  clear : (dirOf w (lineOf x.pa)).st ≠ .b
  quiet : QuietL1 w (s.coreOf l.th)
theorem runs_releaseBefore {need : Need} {n : Nat} {near : State → Lane → Xlat → Bool} {acq rel : Bool}
    (h : OnePlain f s need n near acq rel l x) (k : List Walk) : Runs s (releaseBefore f rel [(l, x)] { s with walks := k }) l x := by
  obtain ⟨⟨-, -, hc, -, -, -, cl, q, -⟩, -, hrel, -, -⟩ := onePlain_parts h
  obtain ⟨hcalm, hfree, hcore, hth⟩ := hrel k
  refine ⟨hcalm, hfree, hcore, hth, ?_, hcalm.2 _ (hc ▸ q)⟩
  unfold dirOf
  rw [hcalm.1]
  exact cl.1

/-- A write through the home: one place of memory, and reservations, differ from the state before. -/
def Writes (s t : State) (pa : Nat) (bs : List Byte) : Prop := Quietly s { t with mem := s.mem } ∧ t.mem = Mem.put 0 s.mem pa bs
theorem writes_of {pa : Nat} {bs : List Byte} (h : Quietly s w) (h' : Quietly { w with mem := Mem.put 0 w.mem pa bs } u) : Writes s u pa bs :=
  ⟨⟨rfl, fun k => (h'.thr k).trans (h.thr k), h'.cur.trans h.cur, h'.waves.trans h.waves, h'.teams.trans h.teams, h'.grids.trans h.grids,
    h'.ctxs.trans h.ctxs, fun c hc => h'.quiet c (h.quiet c hc), fun c hc => h'.dir c (h.dir c hc)⟩, by rw [h'.mem, ← h.mem]⟩
theorem writes_homeWrite (who : Option Nat) (pa : Nat) (bs : List Byte) (h : Quietly s w) : Writes s (homeWrite who pa bs w) pa bs :=
  writes_of h (quietly_homeWrite who pa bs w)
theorem Writes.framed {t : State} {pa : Nat} {bs : List Byte} (h : Writes s t pa bs) : Framed s { t with mem := s.mem } := h.1.framed

/-! ### The end of a store -/

/-- The end of a store whose access kept all but memory, caches and reservations. -/
theorem complete_framed (f : Fields) (s u : State) (l : Lane) (x : Xlat) (bs : List Byte) (whole : Bool)
    (hs : LanesSound s) (h : Framed s { u with mem := s.mem }) :
    let t := complete f whole (fun _ _ _ s => s) { got := [(l, x, bs, false)], waits := [], fails := [], st := u }
    DoneBare f s t noResult ∧ t.mem = u.mem ∧ ResvFrom u t ∧ t.home = u.home ∧ ∀ c k, l1Line t c k = l1Line u c k := by
  intro t
  obtain ⟨g, hg⟩ := complete_one f whole (fun _ _ _ s => s) l x bs u
  have ht : t = ((advance u).modCore u.hereCore fun c => { c with arrived := g c.arrived }) := hg
  have hthread : ∀ j, t.thread? j = (advance u).thread? j := fun j => by rw [ht, thread?_modCore]
  have hadv := advance_bare (u := u) hs h.cur h.waves h.thr
  have hT := sameT_advance u
  refine ⟨doneBare_of s _ t f _ hs hadv (fun k hk => ?_) (fun j _ => by rw [hthread]), ?_, ?_, ?_, fun c k => ?_⟩
  · rw [hthread]
    cases (advance u).thread? k.id <;> rfl
  · rw [ht, modCore_mem, advance_mem]
  · exact (resvFrom_advance u).trans (resvFrom_of_eq hthread)
  · rw [ht, hT]
    rfl
  · have hcores : (advance u).cores = u.cores := by rw [hT]
    rw [ht]
    simp only [l1Line, State.core, modCore_cores, tab_get_put, hcores]
    split
    case isTrue h => rw [h]
    case isFalse => rfl

/-- A store that wrote at the home ends. -/
theorem complete_writes {pa : Nat} {bs : List Byte} (hs : LanesSound s) (h : Writes s u pa bs) (hr : NoResvBut u l.id (lineOf pa))
    (got : List Byte) (whole : Bool) :
    let t := complete f whole (fun _ _ _ s => s) { got := [(l, x, got, false)], waits := [], fails := [], st := u }
    DoneBare f s t noResult ∧ t.mem = Mem.put 0 s.mem pa bs ∧ NoResvBut t l.id (lineOf pa) := by
  obtain ⟨hdone, hmem, hresv, -, -⟩ := complete_framed f s u l x got whole hs h.framed
  exact ⟨hdone, hmem.trans h.2, noResvBut_from hresv hr⟩

/-! ### ST -/

theorem st_one {n : Nat} (hn : n = szBytes f) (h : OnePlain f s { w := true } n (fun _ _ _ => true) false (isRel f) l x) :
    ∃ k, st f s = complete f false (fun _ _ _ s => s) { got := [(l, x, [], false)], waits := [], fails := []
                                                        st := storeOne (s.coreOf l.th) l.id x.mode f.hint x.pa (storeBytes l.th f.b n)
                                                          (releaseBefore f (isRel f) [(l, x)] { s with walks := k }) } := by
  subst hn
  obtain ⟨⟨-, -, -, hremote, hmmio, -, -, -, -⟩, hwait, -, -, hact⟩ := onePlain_parts h
  obtain ⟨k, hk⟩ := hact (fun ps s =>
    match storeWait f (szBytes f) (fun _ _ _ => true) ps s with
    | some s1 => s1
    | none => complete f false (fun _ _ _ s => s)
        (accesses (fun l x s => writeOne f.hint l x (storeBytes l.th f.b (szBytes f)) s) ps (releaseBefore f (isRel f) ps s)))
  refine ⟨k, hk.trans ?_⟩
  have hr := runs_releaseBefore h k
  simp only [hwait k rfl]
  generalize releaseBefore f (isRel f) [(l, x)] { s with walks := k } = w at hr
  refine congrArg (complete f false fun _ _ _ s => s) ?_
  simp only [accesses, List.foldl_cons, List.foldl_nil, writeOne, hremote, hmmio, Bool.false_eq_true, if_false, hr.core, afterWait_none hr.free,
    List.nil_append]

theorem storeBytes_length (t : Thread) (o : Opnd) (n : Nat) : (storeBytes t o n).length = n := by
  unfold storeBytes
  split
  · exact length_natLe ..
  · exact List.length_replicate

/-- A store that goes home: in no SWM page, or a stream access to a line that the L1 lacks. -/
theorem storeOne_writes {c t mode : Nat} {hint : BitVec 2} {pa : Nat} (bs : List Byte) (hq : Quietly s w) (q : QuietL1 w c)
    (hd : (dirOf w (lineOf pa)).st ≠ .b) (h : mode ≠ 1 ∨ streams w c (lineOf pa) hint = true) :
    Writes s (storeOne c t mode hint pa bs w) pa bs ∧ NoResvBut (storeOne c t mode hint pa bs w) t (lineOf pa) := by
  by_cases hm : mode = 1
  · subst hm
    have hstream : streams w c (lineOf pa) hint = true := h.resolve_left fun hne => hne rfl
    have hone : storeOne c t 1 hint pa bs w = homeWrite (some t) pa bs (l2Touch (lineOf pa) hint 0 (sectorBit pa) w) := by
      unfold storeOne
      simp only [hstream, if_true]
    rw [hone]
    exact ⟨writes_homeWrite _ _ _ (hq.trans (quietly_l2Touch ..)), noResvBut_homeWrite _ _ _ _⟩
  · obtain ⟨hwrite, hresv⟩ := storeOne_home (t := t) (hint := hint) (bs := bs) q hd hm
    exact ⟨writes_of hq hwrite, hresv⟩

theorem writeResv_l1Line (line : Nat) (who : Option Nat) (s : State) (c k : Nat) : l1Line (writeResv line who s) c k = l1Line s c k := by
  have hcores : (writeResv line who s).cores = s.cores := by
    unfold writeResv clearResv
    exact sameT_cores (sameT_modThreads _ _ _)
  rw [l1Line, State.core, hcores]
  rfl
/-- A store under the SWM mode enters the core's own copy. -/
theorem storeOne_swm {c t : Nat} {hint : BitVec 2} {pa : Nat} {bs : List Byte} (q : QuietL1 w c) (hfree : writeWait w c 1 pa = none)
    (hstream : streams w c (lineOf pa) hint = false) (hfit : pa % 256 + bs.length ≤ 256) :
    Framed w (storeOne c t 1 hint pa bs w) ∧ CopyHolds (storeOne c t 1 hint pa bs w) c pa .swm bs := by
  have hroom : (makeRoom c (lineOf pa) true w).isNone = false := by
    unfold writeWait at hfree
    split at hfree
    · cases hfree
    · split at hfree
      · cases hfree
      · next hno => simpa [cached, Option.isSome_iff_ne_none] using hno
  obtain ⟨v, hv⟩ := Option.ne_none_iff_exists'.1 (fun hn : makeRoom c (lineOf pa) true w = none => by simp [hn] at hroom)
  obtain ⟨p, hp⟩ : ∃ p, placeLine c (lineOf pa) .swm hint 0 (sectorBit pa) w = some p := by
    unfold placeLine
    have hv' : makeRoom c (lineOf pa) (L1State.swm == .swm) w = some v := hv
    rw [hv']
    exact ⟨_, rfl⟩
  obtain ⟨e, he, hst, -⟩ := l1Line_placeLine hp
  have hone : storeOne c t 1 hint pa bs w = writeResv (lineOf pa) (some t) (setL1 c (lineOf pa) (swmStore pa bs e) p) := by
    unfold storeOne
    simp only [hstream, Bool.false_eq_true, if_false, hp, Option.getD_some, he]
  obtain ⟨hkeep, hbytes⟩ := swmStore_spec pa bs e hfit
  rw [hone]
  refine ⟨(framed_placeLine q hp).trans ((framed_of rfl).trans (quietly_writeResv ..).framed), swmStore pa bs e, ?_, hkeep.trans hst, fun k hk => (hbytes k hk).2⟩
  rw [writeResv_l1Line]
  exact l1Line_setL1_self ..

theorem st_done {u : State} (hu : u = releaseBefore f (isRel f) [(l, x)] s)
    (h : OnePlain f s { w := true } (szBytes f) (fun _ _ _ => true) false (isRel f) l x) (hfit : x.pa % 256 + szBytes f ≤ 256) :
    DoneBare f s (st f s) noResult ∧
      (x.mode ≠ 1 ∨ streams u (s.coreOf l.th) (lineOf x.pa) f.hint = true →
        (st f s).mem = Mem.put 0 s.mem x.pa (storeBytes l.th f.b (szBytes f)) ∧ NoResvBut (st f s) l.id (lineOf x.pa)) ∧
      (x.mode = 1 → streams u (s.coreOf l.th) (lineOf x.pa) f.hint = false →
        (st f s).mem = s.mem ∧ CopyHolds (st f s) (s.coreOf l.th) x.pa .swm (storeBytes l.th f.b (szBytes f))) := by
  obtain ⟨⟨hs, -, -, -, -, -, -, q, -⟩, -, -, -, -⟩ := onePlain_parts h
  obtain ⟨k, hk⟩ := st_one rfl h
  have hr := runs_releaseBefore h k
  have hw : releaseBefore f (isRel f) [(l, x)] { s with walks := k } = { u with walks := k } := by
    rw [hu, releaseBefore_walks f (isRel f) [(l, x)] k q]
  have hstreams : streams (releaseBefore f (isRel f) [(l, x)] { s with walks := k }) (s.coreOf l.th) (lineOf x.pa) f.hint =
      streams u (s.coreOf l.th) (lineOf x.pa) f.hint := by rw [hw]; rfl
  rw [hk, ← hstreams]
  generalize releaseBefore f (isRel f) [(l, x)] { s with walks := k } = w at hr
  have hlen := storeBytes_length l.th f.b (szBytes f)
  generalize storeBytes l.th f.b (szBytes f) = bs at hlen
  have hhome : x.mode ≠ 1 ∨ streams w (s.coreOf l.th) (lineOf x.pa) f.hint = true →
      Writes s (storeOne (s.coreOf l.th) l.id x.mode f.hint x.pa bs w) x.pa bs ∧
        NoResvBut (storeOne (s.coreOf l.th) l.id x.mode f.hint x.pa bs w) l.id (lineOf x.pa) := fun hm =>
    storeOne_writes bs (quietly_of_calm hr.calm) hr.quiet hr.clear hm
  have hswm : x.mode = 1 → streams w (s.coreOf l.th) (lineOf x.pa) f.hint = false →
      Framed s (storeOne (s.coreOf l.th) l.id x.mode f.hint x.pa bs w) ∧
        CopyHolds (storeOne (s.coreOf l.th) l.id x.mode f.hint x.pa bs w) (s.coreOf l.th) x.pa .swm bs := fun hm hstream => by
    have hfree := hr.free
    rw [hm] at hfree ⊢
    obtain ⟨hframed, hcopy⟩ := storeOne_swm (t := l.id) (bs := bs) hr.quiet hfree hstream (by omega)
    exact ⟨(quietly_of_calm hr.calm).framed.trans hframed, hcopy⟩
  generalize storeOne (s.coreOf l.th) l.id x.mode f.hint x.pa bs w = v at hhome hswm
  have hframed : Framed s { v with mem := s.mem } := by
    by_cases hm : x.mode ≠ 1 ∨ streams w (s.coreOf l.th) (lineOf x.pa) f.hint = true
    · exact (hhome hm).1.framed
    · simp only [not_or, not_not, Bool.not_eq_true] at hm
      have hfr := (hswm hm.1 hm.2).1
      exact ⟨rfl, hfr.thr, hfr.cur, hfr.waves⟩
  obtain ⟨hdone, hmem, hresv, -, hl1⟩ := complete_framed f s v l x [] false hs hframed
  refine ⟨hdone, fun hm => ?_, fun hm hstream => ?_⟩
  · obtain ⟨hwrites, hno⟩ := hhome hm
    exact ⟨hmem.trans hwrites.2, noResvBut_from hresv hno⟩
  · obtain ⟨hfr, e, he, hcopy⟩ := hswm hm hstream
    exact ⟨hmem.trans hfr.mem, e, by rw [hl1]; exact he, hcopy⟩

/-! ### ATOM, CAS and REL -/

/-- A result of a thread whose grid neither records nor plays is not offered to replay. -/
theorem replay_unrecorded {o : LaneOut} {on : Bool} (hs : LanesSound s) (he : s.execLanes f = [l]) (hun : Unrecorded s l)
    (h : Quietly s { u with mem := s.mem }) (q : QuietL1 s s.hereCore) (here : TrapAt) (v key mode c : Nat) (g : List Nat → List Nat) :
    replayAtomic here l.id v key (acquired f on mode (putOut f l o ((advance u).modCore c fun k => { k with arrived := g k.arrived }))) =
      acquired f on mode (putOut f l o ((advance u).modCore c fun k => { k with arrived := g k.arrived })) := by
  have hgrid := finish_grid s u f l o hs he h on (fun _ => q) mode c g
  obtain ⟨hrec, hplay⟩ := hun
  exact replayAtomic_off _ _ _ _ _ (by rw [hgrid]; exact hrec) (by rw [hgrid]; exact hplay)

/-- A read-modify-write of one thread, which returns the old value: ATOM and CAS. -/
theorem rmw_done {n op : Nat} {b c : Lane → Nat} {g : Lane → Nat → Option Nat} {here : TrapAt}
    (h : OnePlain f s { r := true, w := true, rmw := true } n runsNear (isAcq f) (isRel f) l x) (hun : Unrecorded s l) :
    let t := globalRmw f n op b c g true (isAcq f) (isRel f) (fun l x bs s => rmwDone f here n l x.mode x.pa bs s) s
    DoneBare f s t (fun _ => loadOut n false (natLe n (homeNat s x.pa n))) ∧
      t.mem = (match g l (homeNat s x.pa n) with | some v => Mem.put 0 s.mem x.pa (natLe n v) | none => s.mem) ∧
      ∀ v, g l (homeNat s x.pa n) = some v → NoResvBut t l.id (lineOf x.pa) := by
  intro t
  obtain ⟨⟨hs, he, -, -, -, -, -, q, -⟩, -, -, -, -⟩ := onePlain_parts h
  obtain ⟨u, hu, hquiet, hmem, hresv⟩ := globalRmw_one (op := op) (b := b) (c := c) (g := g) (wait := true)
    (done := fun l x bs s => rmwDone f here n l x.mode x.pa bs s) h
  obtain ⟨hdone, hm, hfrom⟩ := complete_write f s u l x (natLe n (homeNat s x.pa n)) (loadOut n false (natLe n (homeNat s x.pa n))) true (isAcq f)
    (fun _ => q) (fun l x bs s => rmwDone f here n l x.mode x.pa bs s) hs he hquiet
    fun g => replay_unrecorded hs he hun hquiet q here _ _ _ _ g
  have ht : t = complete f true (fun l x bs s => rmwDone f here n l x.mode x.pa bs s)
      { got := [(l, x, natLe n (homeNat s x.pa n), false)], waits := [], fails := [], st := u } := hu
  rw [ht]
  exact ⟨hdone, hm.trans hmem, fun v hv => noResvBut_from hfrom (hresv v hv)⟩

theorem atom_of_global (hsp : f.sp = 0) : atom f s = globalRmw f (opBytes (rmwOp f)) (rmwOp f) (fun l => regNat l.th f.b (opBytes (rmwOp f)))
    (fun _ => 0) (fun l old => some (applyOp (rmwOp f) old (regNat l.th f.b (opBytes (rmwOp f))))) true (isAcq f) (isRel f)
    (fun l x bs s' => rmwDone f s.here (opBytes (rmwOp f)) l x.mode x.pa bs s') s := by
  unfold atom
  simp only [hsp, beq_self_eq_true, if_true]
theorem cas_of_global {n : Nat} (hn : n = if f.fn.getLsbD 0 then 8 else 4) (hsp : f.sp = 0) :
    cas f s = globalRmw f n 14 (fun l => regNat l.th f.b n) (fun l => regNat l.th f.c n)
      (fun l old => if old = regNat l.th f.b n then some (regNat l.th f.c n) else none) true (isAcq f) (isRel f)
      (fun l x bs s' => rmwDone f s.here n l x.mode x.pa bs s') s := by
  subst hn
  unfold cas
  simp only [hsp, beq_self_eq_true, if_true]
theorem rel_of_global (hsp : f.sp = 0) : rel f s = globalRmw f (pairBytes f) (if pairBytes f = 8 then 1 else 10) (fun _ => 0) (fun _ => 0)
    (fun _ old => some old) false false true (fun _ _ _ s => s) s := by
  unfold rel
  simp only [hsp, beq_self_eq_true, if_true]

theorem rel_done (hsp : f.sp = 0) (h : OnePlain f s { r := true, w := true, rmw := true } (pairBytes f) runsNear false true l x) :
    DoneBare f s (rel f s) noResult ∧ (rel f s).mem = Mem.put 0 s.mem x.pa (natLe (pairBytes f) (homeNat s x.pa (pairBytes f))) ∧
      NoResvBut (rel f s) l.id (lineOf x.pa) := by
  obtain ⟨⟨hs, -, -, -, -, -, -, -, -⟩, -, -, -, -⟩ := onePlain_parts h
  obtain ⟨u, hu, hquiet, hmem, hresv⟩ := globalRmw_one (op := if pairBytes f = 8 then 1 else 10) (b := fun _ => 0) (c := fun _ => 0)
    (g := fun _ old => some old) (wait := false) (done := fun _ _ _ s => s) h
  rw [rel_of_global hsp, hu]
  exact complete_writes hs ⟨hquiet, hmem⟩ (hresv _ rfl) _ _

/-! ### STC -/

theorem quietly_modThread_bare {s : State} (k : Nat) (g : Thread → Thread) (hg : ∀ t, (g t).bare = t.bare) : Quietly s (s.modThread k g) := by
  have h := sameT_modThread s k g
  refine ⟨by rw [h], fun j => ?_, by rw [h], by rw [h], by rw [h], by rw [h], by rw [h], fun c q => quietL1_cores (sameT_cores h) q, fun j hj => ?_⟩
  · rw [thread?_modThread]
    split
    case isTrue hjk =>
      rw [hjk]
      cases s.thread? k with
      | none => rfl
      | some t => simp [hg]
    case isFalse => rfl
  · unfold dirOf
    rw [h]
    exact hj

/-- What the conditional store of one thread leaves, before the thread's result. -/
def stcLeft (f : Fields) (l : Lane) (x : Xlat) (held : Bool) (c : Nat) (w : State) : State :=
  State.modThread (if held then
      (if x.mode == 0 then storeOne c l.id 0 f.hint x.pa (storeBytes l.th f.b (pairBytes f)) w
        else homeWrite (some l.id) x.pa (storeBytes l.th f.b (pairBytes f)) (dropSwm c (lineOf x.pa) w))
    else w) l.id fun y => { y with resv := none }

theorem stc_one {held : Bool} (hh : held = (l.th.resv.any fun r => r.line == lineOf x.pa))
    (h : OnePlain f s { r := true, w := true, rmw := true } (pairBytes f) resvHeld false (isRel f) l x) :
    ∃ k, stc f s = complete f false (fun l x bs v => replayAtomic s.here l.id (leNat bs) x.pa (putOut f l (.pred (decide (leNat bs = 1))) v))
      { got := [(l, x, [if held then 1 else 0], false)], waits := [], fails := []
        st := stcLeft f l x held (s.coreOf l.th) (releaseBefore f (isRel f) [(l, x)] { s with walks := k }) } := by
  subst hh
  obtain ⟨⟨-, -, -, hremote, -, -, -, -, -⟩, hwait, -, -, hact⟩ := onePlain_parts h
  obtain ⟨k, hk⟩ := hact (fun ps v =>
    match storeWait f (pairBytes f) resvHeld ps v with
    | some s1 => s1
    | none =>
      complete f false (fun l x bs v => replayAtomic s.here l.id (leNat bs) x.pa (putOut f l (.pred (decide (leNat bs = 1))) v))
        (accesses (stcLane f) ps (releaseBefore f (isRel f) ps v)))
  refine ⟨k, hk.trans ?_⟩
  have hr := runs_releaseBefore h k
  simp only [hwait k rfl]
  generalize releaseBefore f (isRel f) [(l, x)] { s with walks := k } = w at hr
  refine congrArg (complete f false _) ?_
  have hheld : resvHeld w l x = l.th.resv.any fun r => r.line == lineOf x.pa := by
    unfold resvHeld
    rw [hr.thread, hremote]
    cases l.th.resv <;> simp
  simp only [accesses, List.foldl_cons, List.foldl_nil, stcLane, hheld, hr.core]
  cases l.th.resv.any fun r => r.line == lineOf x.pa with
  | false => rfl
  | true =>
    simp only [Bool.not_true, Bool.false_eq_true, if_false, afterWait_none hr.free]
    rfl

/-- What the store half of STC leaves: the bytes written where the reservation was held, and no reservation of the thread. -/
theorem stcLeft_spec {held : Bool} (hr : Runs s w l x) :
    Quietly s { stcLeft f l x held (s.coreOf l.th) w with mem := s.mem } ∧
      (stcLeft f l x held (s.coreOf l.th) w).mem = (if held then Mem.put 0 s.mem x.pa (storeBytes l.th f.b (pairBytes f)) else s.mem) ∧
      ((stcLeft f l x held (s.coreOf l.th) w).thread? l.id).bind Thread.resv = none := by
  generalize hv : (if held then
      (if x.mode == 0 then storeOne (s.coreOf l.th) l.id 0 f.hint x.pa (storeBytes l.th f.b (pairBytes f)) w
        else homeWrite (some l.id) x.pa (storeBytes l.th f.b (pairBytes f)) (dropSwm (s.coreOf l.th) (lineOf x.pa) w))
    else w) = v
  have hleft : stcLeft f l x held (s.coreOf l.th) w = v.modThread l.id fun y => { y with resv := none } := by rw [stcLeft, hv]
  have hq : Quietly s w := quietly_of_calm hr.calm
  have hbase : Quietly s { v with mem := s.mem } ∧ v.mem = if held then Mem.put 0 s.mem x.pa (storeBytes l.th f.b (pairBytes f)) else s.mem := by
    subst hv
    cases held with
    | false => exact ⟨⟨rfl, hq.thr, hq.cur, hq.waves, hq.teams, hq.grids, hq.ctxs, hq.quiet, hq.dir⟩, hq.mem⟩
    | true =>
      simp only [if_true]
      split
      case isTrue h0 =>
        exact (storeOne_writes (t := l.id) (mode := 0) (hint := f.hint) (pa := x.pa) (storeBytes l.th f.b (pairBytes f)) hq hr.quiet hr.clear (.inl (by decide))).1
      case isFalse h0 =>
        rw [dropSwm_quiet hr.quiet]
        exact writes_homeWrite _ _ _ hq
  obtain ⟨hquiet, hmem⟩ := hbase
  rw [hleft]
  refine ⟨?_, ?_, ?_⟩
  · have hbare := quietly_modThread_bare (s := v) l.id (fun y => { y with resv := none }) fun _ => rfl
    exact ⟨rfl, fun k => (hbare.thr k).trans (hquiet.thr k), hbare.cur.trans hquiet.cur, hbare.waves.trans hquiet.waves, hbare.teams.trans hquiet.teams,
      hbare.grids.trans hquiet.grids, hbare.ctxs.trans hquiet.ctxs, fun c hc => hbare.quiet c (hquiet.quiet c hc), fun c hc => hbare.dir c (hquiet.dir c hc)⟩
  · rw [sameT_mem (sameT_modThread v l.id _), hmem]
  · rw [thread?_modThread, if_pos rfl]
    cases v.thread? l.id <;> rfl

theorem stc_done {held : Bool} (hh : held = (l.th.resv.any fun r => r.line == lineOf x.pa))
    (h : OnePlain f s { r := true, w := true, rmw := true } (pairBytes f) resvHeld false (isRel f) l x) (hun : Unrecorded s l) :
    DoneBare f s (stc f s) (fun _ => .pred held) ∧ ((stc f s).thread? l.id).bind Thread.resv = none ∧
      (stc f s).mem = if held then Mem.put 0 s.mem x.pa (storeBytes l.th f.b (pairBytes f)) else s.mem := by
  obtain ⟨⟨hs, he, -, -, -, -, -, q, -⟩, -, -, -, -⟩ := onePlain_parts h
  obtain ⟨k, hk⟩ := stc_one hh h
  obtain ⟨hquiet, hmem, hnone⟩ := stcLeft_spec (f := f) (held := held) (runs_releaseBefore h k)
  generalize stcLeft f l x held (s.coreOf l.th) (releaseBefore f (isRel f) [(l, x)] { s with walks := k }) = u at hk hquiet hmem hnone
  have hanswer : decide (leNat [if held then (1 : Byte) else 0] = 1) = held := by cases held <;> decide
  obtain ⟨hdone, hm, hfrom⟩ := complete_write f s u l x [if held then 1 else 0] (.pred held) false false (fun hno => by cases hno)
    (fun l x bs v => replayAtomic s.here l.id (leNat bs) x.pa (putOut f l (.pred (decide (leNat bs = 1))) v)) hs he hquiet
    fun g => by
      rw [hanswer]
      exact replay_unrecorded (on := false) (mode := x.mode) hs he hun hquiet q s.here _ _ _ g
  rw [hk]
  refine ⟨hdone, ?_, hm.trans hmem⟩
  refine Option.eq_none_iff_forall_not_mem.2 fun r hr => ?_
  obtain ⟨y, hy, hyr⟩ := Option.bind_eq_some_iff.1 hr
  obtain ⟨z, hz, hzr⟩ := hfrom l.id y r hy hyr
  rw [hz] at hnone
  exact absurd (hzr.symm.trans hnone) (Option.some_ne_none r)

theorem exec_st (f : Fields) (s : State) : exec (.st f) s = .next (st f s) := rfl
theorem exec_atom (f : Fields) (s : State) : exec (.atom f) s = .next (atom f s) := rfl
theorem exec_cas (f : Fields) (s : State) : exec (.cas f) s = .next (cas f s) := rfl
theorem exec_rel (f : Fields) (s : State) : exec (.rel f) s = .next (rel f s) := rfl
theorem exec_stc (f : Fields) (s : State) : exec (.stc f) s = .next (stc f s) := rfl

end

/-- Settles O28: ST, REL and STC end as stores at the place where their access runs, ATOM and CAS as one read-modify-write. -/
theorem globalStores : Obligations.GlobalStores := by
  unfold Obligations.GlobalStores
  intro f s l x
  refine ⟨fun u hu h hfit => ⟨_, exec_st f s, st_done hu h hfit⟩, fun hsp h hun => ⟨_, exec_atom f s, ?_⟩, fun n hn hsp h hun => ⟨_, exec_cas f s, ?_⟩,
    fun hsp h => ⟨_, exec_rel f s, rel_done hsp h⟩, fun held hh h hun => ⟨_, exec_stc f s, stc_done hh h hun⟩⟩
  · obtain ⟨hdone, hmem, hresv⟩ := rmw_done (op := rmwOp f) (b := fun l => regNat l.th f.b (opBytes (rmwOp f))) (c := fun _ => 0)
      (g := fun l old => some (applyOp (rmwOp f) old (regNat l.th f.b (opBytes (rmwOp f))))) (here := s.here) h hun
    rw [atom_of_global hsp]
    exact ⟨hdone, hmem, hresv _ rfl⟩
  · obtain ⟨hdone, hmem, -⟩ := rmw_done (op := 14) (b := fun l => regNat l.th f.b n) (c := fun l => regNat l.th f.c n)
      (g := fun l old => if old = regNat l.th f.b n then some (regNat l.th f.c n) else none) (here := s.here) h hun
    rw [cas_of_global hn hsp]
    refine ⟨hdone, hmem.trans ?_⟩
    by_cases heq : homeNat s x.pa n = regNat l.th f.b n
    · rw [if_pos heq, if_pos heq]
    · rw [if_neg heq, if_neg heq]

end Sys2Proof.Proofs
end

section
/-!
PROOFS. RED of one thread (spec 11 R227, 13 R273, R274): combined at the home, or into a fresh partial of the core, which a stream
access sends home at once.
-/
namespace Sys2Proof.Proofs

open Machine Laws

section
variable {s u w : State} {f : Fields} {l : Lane} {x : Xlat}

theorem red_one (hsp : f.sp = 0)
    (h : OnePlain f s { r := true, w := true, rmw := true } (opBytes (rmwOp f)) (fun _ _ _ => false) false (isRel f) l x) :
    ∃ k, red f s = complete f false (fun _ _ _ s => s) { got := [(l, x, [], false)], waits := [], fails := []
                                                         st := redOne (s.coreOf l.th) l.id x.mode (rmwOp f) f.hint x.pa (regNat l.th f.b (opBytes (rmwOp f)))
                                                           (releaseBefore f (isRel f) [(l, x)] { s with walks := k }) } := by
  obtain ⟨⟨-, -, -, hremote, -, -, -, -, -⟩, hwait, -, -, hact⟩ := onePlain_parts h
  obtain ⟨k, hk⟩ := hact (fun ps s =>
    match storeWait f (opBytes (rmwOp f)) (fun _ _ _ => false) ps s with
    | some s1 => s1
    | none => complete f false (fun _ _ _ s => s) (accesses (redLane f) ps (releaseBefore f (isRel f) ps s)))
  have hred : red f s = withGlobal f { r := true, w := true, rmw := true } (opBytes (rmwOp f)) false (isRel f) (fun ps s =>
      match storeWait f (opBytes (rmwOp f)) (fun _ _ _ => false) ps s with
      | some s1 => s1
      | none => complete f false (fun _ _ _ s => s) (accesses (redLane f) ps (releaseBefore f (isRel f) ps s))) s :=
    if_pos (beq_iff_eq.2 hsp)
  refine ⟨k, hred.trans (hk.trans ?_)⟩
  have hr := runs_releaseBefore h k
  simp only [hwait k rfl]
  generalize releaseBefore f (isRel f) [(l, x)] { s with walks := k } = w at hr
  refine congrArg (complete f false fun _ _ _ s => s) ?_
  simp only [accesses, List.foldl_cons, List.foldl_nil, redLane, hremote, Bool.false_eq_true, if_false, hr.core, afterWait_none hr.free, List.nil_append]

/-! ### At the home -/

/-- RED where no partial is kept: the home combines it. -/
theorem redOne_home {c t mode op : Nat} {hint : BitVec 2} {pa b : Nat} (hq : Quietly s w) (q : QuietL1 w c) (hd : (dirOf w (lineOf pa)).st ≠ .b)
    (hp : poisoned w pa = false) (hb : bunts w mode pa = false) :
    Writes s (redOne c t mode op hint pa b w) pa (natLe (opBytes op) (applyOp op (homeNat s pa (opBytes op)) b)) ∧
      NoResvBut (redOne c t mode op hint pa b w) t (lineOf pa) := by
  have hplace := quietly_rmwPlace (mode := mode) (far := true) (hint := hint) q hd
  have hpoison : poisoned (rmwPlace c mode true hint pa w) pa = false := by
    unfold poisoned
    rw [rmwPlace_poison q hd]
    exact hp
  have hold : homeNat (rmwPlace c mode true hint pa w) pa (opBytes op) = homeNat s pa (opBytes op) := by
    unfold homeNat homeBytes
    rw [hplace.mem, hq.mem]
  have hone : redOne c t mode op hint pa b w =
      homeWrite (some t) pa (natLe (opBytes op) (applyOp op (homeNat s pa (opBytes op)) b)) (rmwPlace c mode true hint pa w) := by
    unfold redOne
    simp only [hb, Bool.false_eq_true, if_false, hpoison, hold]
  rw [hone]
  exact ⟨writes_homeWrite _ _ _ (hq.trans hplace), noResvBut_homeWrite _ _ _ _⟩

/-! ### Into the core's partial -/

/-- A core's partial of one element: the line's entry in state B for an operator and one core, and a copy with the element's bytes alone
touched. -/
structure Bunted (w v : State) (c op pa : Nat) (bs : List Byte) : Prop where
  framed : Framed w v
  dir : (dirOf v (lineOf pa)).st = .b ∧ (dirOf v (lineOf pa)).tag = BitVec.ofNat 4 op ∧ (dirOf v (lineOf pa)).sharers = coreBit c
  poison : v.home.poison = w.home.poison
  copy : ∃ e, l1Line v c (lineOf pa) = some e ∧ e.st = .b ∧ e.mask = 1#256 <<< (pa % 256 / opBytes op) ∧
    ∀ k, k < bs.length → e.bytes.extractLsb' (8 * (pa % 256 + k)) 8 = bs.getD k 0

/-- The home grants a bunting request for a line in no bunting state. -/
theorem grantBunting_fresh {c line tag : Nat} (hd : (dirOf w line).st ≠ .b) :
    let v := grantBunting c line tag w
    Framed w v ∧ ((dirOf v line).st = .b ∧ (dirOf v line).tag = BitVec.ofNat 4 tag ∧ (dirOf v line).sharers = coreBit c) ∧
      v.home.poison = w.home.poison ∧ (setLines v c line).length ≤ (setLines w c line).length ∧ (QuietL1 w c → QuietL1 v c) := by
  have hgrant : grantBunting c line tag w =
      modDir line (fun d => { d with st := .b, sharers := coreBit c, tag := BitVec.ofNat 4 tag }) (recallLine line w) := by
    unfold grantBunting
    simp only [beq_eq_false_iff_ne.2 hd, Bool.false_and, Bool.false_eq_true, if_false]
  simp only [hgrant]
  have hq := quietly_recallLine hd
  have hpoison := recallLine_poison hd
  have hset := setLines_recall (c := c) hd
  generalize recallLine line w = r at hq hpoison hset
  refine ⟨hq.framed.trans (framed_of rfl), ?_, hpoison, hset, fun q => hq.quiet c q⟩
  unfold modDir setDir dirOf
  simp only [State.modHome, tab_get_put_self, and_self]

theorem opBytes_cases (op : Nat) : opBytes op = 4 ∨ opBytes op = 8 := by
  unfold opBytes
  split
  · exact .inr rfl
  · exact .inl rfl

/-- What a core holds of a line whose partial it starts: the home has granted the request, and the core has no copy. -/
def asked (c line op : Nat) (w : State) : State := loseCopy c line (grantBunting c line op (tellHome c line .bunting (predict c line w)))
theorem asked_spec {c line op : Nat} (q : QuietL1 w c) (hd : (dirOf w line).st ≠ .b) (hroom : (setLines w c line).length < 8) :
    Framed w (asked c line op w) ∧
      ((dirOf (asked c line op w) line).st = .b ∧ (dirOf (asked c line op w) line).tag = BitVec.ofNat 4 op ∧
        (dirOf (asked c line op w) line).sharers = coreBit c) ∧
      (asked c line op w).home.poison = w.home.poison ∧ QuietL1 (asked c line op w) c ∧ l1Line (asked c line op w) c line = none ∧
      makeRoom c line (L1State.b == .swm) (asked c line op w) = some (asked c line op w) := by
  have htold := (quietly_predict c line w).trans (quietly_tellHome c line .bunting _)
  obtain ⟨hframed, hdir, hpoison, hset, hquiet⟩ := grantBunting_fresh (c := c) (tag := op) (htold.dir _ hd)
  have hset' : (setLines (grantBunting c line op (tellHome c line .bunting (predict c line w))) c line).length < 8 := Nat.lt_of_le_of_lt hset hroom
  have hq := hquiet (htold.quiet _ q)
  unfold asked
  generalize grantBunting c line op (tellHome c line .bunting (predict c line w)) = g at hframed hdir hpoison hset' hq
  have hnone := l1Line_loseCopy c line g
  have hhome := loseCopy_home c line g
  refine ⟨htold.framed.trans (hframed.trans (quietly_loseCopy c line g).framed), ?_, ?_, (quietly_loseCopy c line g).quiet _ hq, hnone, ?_⟩
  · unfold dirOf at hdir ⊢
    rw [hhome]
    exact hdir
  · rw [hhome]
    exact hpoison
  · exact makeRoom_free (victimOf_none (Nat.lt_of_le_of_lt (setLines_loseCopy c c line g) hset')) fun e he => by
      rw [hnone] at he
      cases he

/-- A fresh partial's copy with its one element. -/
def partialOf (pa op b : Nat) (e : L1Line) : L1Line :=
  { e with
    bytes := (swmStore pa (natLe (opBytes op) (applyOp op (opIdentity op) b)) { e with mask := 0 }).bytes
    mask := e.mask ||| (1#256 <<< (pa % 256 / opBytes op)) }
theorem writeResv_home (line : Nat) (who : Option Nat) (s : State) : (writeResv line who s).home = s.home := by
  unfold writeResv clearResv
  simp only
  rw [sameT_modThreads]
theorem setL1_home (c line : Nat) (e : L1Line) (s : State) : (setL1 c line e s).home = s.home := rfl

/-- RED of one element into a partial that the core starts with it. -/
theorem redOne_partial {c t op : Nat} {hint : BitVec 2} {pa b : Nat} (q : QuietL1 w c) (hd : (dirOf w (lineOf pa)).st ≠ .b)
    (hroom : (setLines w c (lineOf pa)).length < 8) (hb : bunts w 0 pa = true) (hal : pa % opBytes op = 0) :
    ∃ v, Bunted w v c op pa (natLe (opBytes op) (applyOp op (opIdentity op) b)) ∧
      redOne c t 0 op hint pa b w = if streams w c (lineOf pa) hint then (evictLine c (lineOf pa) v).getD v else v := by
  have hfree : makeRoom c (lineOf pa) false w = some w := makeRoom_free (victimOf_none hroom) fun e he => by
    simpa using (l1Line_quiet q he).1
  have hfresh : (l1St w c (lineOf pa) == some .b && (dirOf w (lineOf pa)).tag.toNat == op) = false := by
    cases he : l1Line w c (lineOf pa) with
    | none => simp [l1St, he]
    | some e => simp [l1St, he, (l1Line_quiet q he).2]
  obtain ⟨hframed, hdir, hpoison, hquiet, hnone, hspace⟩ := asked_spec (op := op) q hd hroom
  obtain ⟨p, hp⟩ : ∃ p, placeLine c (lineOf pa) .b hint 0 0 (asked c (lineOf pa) op w) = some p := by
    unfold placeLine
    rw [hspace]
    exact ⟨_, rfl⟩
  obtain ⟨e, he, hst, hmask⟩ := l1Line_placeLine hp
  have hmask0 : e.mask = 0 := by
    rw [hspace, Option.any_some, hnone] at hmask
    simpa using hmask
  have hunset : e.mask.getLsbD (pa % 256 / opBytes op) = false := by
    rw [hmask0]
    simp
  have hlen : pa % 256 + (natLe (opBytes op) (applyOp op (opIdentity op) b)).length ≤ 256 := by
    rw [length_natLe]
    rcases opBytes_cases op with hn | hn <;> rw [hn] at hal ⊢ <;> omega
  obtain ⟨-, hbytes⟩ := swmStore_spec pa (natLe (opBytes op) (applyOp op (opIdentity op) b)) { e with mask := 0 } hlen
  refine ⟨writeResv (lineOf pa) (some t) (setL1 c (lineOf pa) (partialOf pa op b e) p), ⟨?_, ?_, ?_, partialOf pa op b e, ?_, hst, ?_, fun k hk => (hbytes k hk).2⟩, ?_⟩
  · exact hframed.trans ((framed_placeLine hquiet hp).trans ((framed_of rfl).trans (quietly_writeResv ..).framed))
  · unfold dirOf at hdir ⊢
    rw [writeResv_home, setL1_home, dir_placeLine hspace hp]
    exact hdir
  · rw [writeResv_home, setL1_home, poison_placeLine hspace hp, hpoison]
  · rw [writeResv_l1Line]
    exact l1Line_setL1_self ..
  · simp [partialOf, hmask0]
  · unfold redOne
    simp only [hb, if_true, hfree, Option.getD_some, hfresh, Bool.not_false]
    rw [← asked, hp]
    simp only [Option.getD_some, he, hunset, Bool.false_eq_true, if_false]
    rfl

/-- The partial of a stream access goes home: the home combines its one element. -/
theorem evict_bunted {v : State} {c op pa val : Nat} (h : Bunted w v c op pa (natLe (opBytes op) val)) (hop : op < 16)
    (hp : poisoned w pa = false) (hal : pa % opBytes op = 0) :
    Framed { w with mem := Mem.put 0 w.mem pa (natLe (opBytes op) (applyOp op (leNat (natLe (opBytes op) val)) (homeNat w pa (opBytes op)))) }
      ((evictLine c (lineOf pa) v).getD v) := by
  obtain ⟨e, he, hst, hmask, hbytes⟩ := h.copy
  rw [length_natLe] at hbytes
  have htag : (dirOf v (lineOf pa)).tag.toNat = op := by
    rw [h.dir.2.1, BitVec.toNat_ofNat]
    exact Nat.mod_eq_of_lt hop
  have hpoison : poisoned v (lineOf pa) = false := by
    unfold poisoned at hp ⊢
    rwa [lineOf_lineOf, h.poison]
  have hold : homeNat v pa (opBytes op) = homeNat w pa (opBytes op) := by
    unfold homeNat homeBytes
    rw [h.framed.mem]
  obtain ⟨t, ht, hthr, hcur, hwaves, hmem⟩ := evict_partial he hst htag rfl hmask (length_natLe _ _) hbytes hpoison hal
  rw [ht, Option.getD_some]
  refine ⟨?_, fun k => (hthr k).trans (h.framed.thr k), hcur.trans h.framed.cur, hwaves.trans h.framed.waves⟩
  rw [hmem, hold, h.framed.mem]

/-- Only a page in no coherent mode asks more of a release than the core's SWM lines. -/
theorem releaseBefore_coherent (rel : Bool) (hm : x.mode = 0) (q : QuietL1 s s.hereCore) : releaseBefore f rel [(l, x)] s = s := by
  unfold releaseBefore
  simp only [fenced, List.any_cons, List.any_nil, hm, bne_self_eq_false, Bool.or_self, Bool.false_eq_true, if_false, releaseSide_quiet _ _ _ q, ite_self]

/-! ### The clauses -/

section
variable {n : Nat} (hsp : f.sp = 0)
  (h : OnePlain f s { r := true, w := true, rmw := true } (opBytes (rmwOp f)) (fun _ _ _ => false) false (isRel f) l x)
include hsp h

theorem red_home (hm : x.mode ≠ 0 ∨ hostBias s x.pa = true) :
    DoneBare f s (red f s) noResult ∧ (red f s).mem = Mem.put 0 s.mem x.pa (natLe (opBytes (rmwOp f))
      (applyOp (rmwOp f) (homeNat s x.pa (opBytes (rmwOp f))) (regNat l.th f.b (opBytes (rmwOp f))))) := by
  obtain ⟨⟨hs, -, -, -, -, hp, -, -, -⟩, -, -, -, -⟩ := onePlain_parts h
  obtain ⟨k, hk⟩ := red_one hsp h
  have hr := runs_releaseBefore h k
  rw [hk]
  generalize releaseBefore f (isRel f) [(l, x)] { s with walks := k } = w at hr
  have hhome : w.home.bias = s.home.bias ∧ w.home.poison = s.home.poison := by
    rw [hr.calm.1]
    exact ⟨rfl, rfl⟩
  have hb : bunts w x.mode x.pa = false := by
    unfold bunts
    rcases hm with hm | hm
    · simp [hm]
    · unfold hostBias at hm ⊢
      rw [hhome.1, hm]
      simp
  have hpw : poisoned w x.pa = false := by
    unfold poisoned at hp ⊢
    rwa [hhome.2]
  obtain ⟨hwrites, hresv⟩ := redOne_home (t := l.id) (op := rmwOp f) (hint := f.hint) (b := regNat l.th f.b (opBytes (rmwOp f)))
    (quietly_of_calm hr.calm) hr.quiet hr.clear hpw hb
  obtain ⟨hdone, hmem, -⟩ := complete_writes (f := f) (l := l) (x := x) hs hwrites hresv [] false
  exact ⟨hdone, hmem⟩

theorem red_partial (hm : x.mode = 0) (hbias : hostBias s x.pa = false) (hroom : (setLines s (s.coreOf l.th) (lineOf x.pa)).length < 8)
    (hal : x.pa % opBytes (rmwOp f) = 0) :
    DoneBare f s (red f s) noResult ∧
      (streams s (s.coreOf l.th) (lineOf x.pa) f.hint = false → (red f s).mem = s.mem ∧ (dirOf (red f s) (lineOf x.pa)).st = .b ∧
        (dirOf (red f s) (lineOf x.pa)).tag = f.fn.extractLsb' 0 4 ∧ (dirOf (red f s) (lineOf x.pa)).sharers = coreBit (s.coreOf l.th) ∧
        CopyHolds (red f s) (s.coreOf l.th) x.pa .b (natLe (opBytes (rmwOp f))
          (applyOp (rmwOp f) (opIdentity (rmwOp f)) (regNat l.th f.b (opBytes (rmwOp f)))))) ∧
      (streams s (s.coreOf l.th) (lineOf x.pa) f.hint = true →
        (red f s).mem = Mem.put 0 s.mem x.pa (natLe (opBytes (rmwOp f)) (applyOp (rmwOp f)
          (leNat (natLe (opBytes (rmwOp f)) (applyOp (rmwOp f) (opIdentity (rmwOp f)) (regNat l.th f.b (opBytes (rmwOp f))))))
          (homeNat s x.pa (opBytes (rmwOp f)))))) := by
  obtain ⟨⟨hs, -, hc, -, -, hp, hcl, q, -⟩, -, -, -, -⟩ := onePlain_parts h
  have hlocal : isLocal x.pa = true := h.2.2.1.2.1
  obtain ⟨k, hk⟩ := red_one hsp h
  rw [releaseBefore_coherent (s := { s with walks := k }) _ hm q, hm] at hk
  have hb : bunts { s with walks := k } 0 x.pa = true := by
    show (0 == 0 && isLocal x.pa && !hostBias s x.pa) = true
    simp [hlocal, hbias]
  have hop : rmwOp f < 16 := (f.fn.extractLsb' 0 4).isLt
  obtain ⟨v, hv, hone⟩ := redOne_partial (w := { s with walks := k }) (t := l.id) (hint := f.hint) (b := regNat l.th f.b (opBytes (rmwOp f)))
    (hc ▸ q) hcl.1 hroom hb hal
  rw [hone] at hk
  have hstreams : streams { s with walks := k } (s.coreOf l.th) (lineOf x.pa) f.hint = streams s (s.coreOf l.th) (lineOf x.pa) f.hint := rfl
  rw [hstreams] at hk
  rw [hk]
  cases streams s (s.coreOf l.th) (lineOf x.pa) f.hint with
  | false =>
    have hframed : Framed s { v with mem := s.mem } := ⟨rfl, hv.framed.thr, hv.framed.cur, hv.framed.waves⟩
    obtain ⟨hdone, hmem, -, hhome, hl1⟩ := complete_framed f s v l x [] false hs hframed
    obtain ⟨hst, htag, hsharers⟩ := hv.dir
    obtain ⟨e, he, hest, -, hbytes⟩ := hv.copy
    refine ⟨hdone, fun _ => ⟨hmem.trans hv.framed.mem, ?_, ?_, ?_, e, (hl1 _ _).trans he, hest, hbytes⟩, fun hno => absurd hno (by decide)⟩
    all_goals
      unfold dirOf at hst htag hsharers ⊢
      simp only [Bool.false_eq_true, if_false]
      rw [hhome]
    · exact hst
    · exact htag.trans (by rw [rmwOp, BitVec.ofNat_toNat, BitVec.setWidth_eq])
    · exact hsharers
  | true =>
    have hev := evict_bunted hv hop hp hal
    have hframed : Framed s { (evictLine (s.coreOf l.th) (lineOf x.pa) v).getD v with mem := s.mem } := ⟨rfl, hev.thr, hev.cur, hev.waves⟩
    obtain ⟨hdone, hmem, -, -, -⟩ := complete_framed f s _ l x [] false hs hframed
    exact ⟨hdone, fun hno => absurd hno (by decide), fun _ => hmem.trans hev.mem⟩

end
end

theorem exec_red (f : Fields) (s : State) : exec (.red f) s = .next (red f s) := rfl

/-- Settles O29: a RED combined at the home, or into a partial that the core starts with it and that a stream access sends home. -/
theorem reductions : Obligations.Reductions := by
  unfold Obligations.Reductions
  intro f s l x n hn hsp h
  subst hn
  exact ⟨fun hm => ⟨_, exec_red f s, red_home hsp h hm⟩, fun hm hbias hroom hal => ⟨_, exec_red f s, red_partial hsp h hm hbias hroom hal⟩⟩

end Sys2Proof.Proofs
end

section
/-!
PROOFS. Barrier objects and condition monitors (spec 11 R235, R236, 12 R240 to R243): one thread's access to an object in a scratchpad or
a calm line, credits, and the end of waits.
-/
namespace Sys2Proof.Proofs

open Machine Laws

section
variable {s u t : State} {f : Fields} {l : Lane} {p : Loc}

/-! ### The place of an object -/

/-- As the wave has advanced past an instruction on places: threads as they advance, and nothing but them and resident pages changed. -/
structure Past (s u : State) : Prop where
  mem : u.mem = s.mem
  home : u.home = s.home
  teams : ∀ k, (u.team? k).map Team.bare = (s.team? k).map Team.bare
  threads : ∀ j, u.thread? j = (advance s).thread? j
theorem past_advance {v : State} (h : PagesOnly s v) : Past s (advance v) := by
  obtain ⟨-, -, -, hmem, -, hhome, -, -⟩ := pagesOnly_threads h
  have hT := sameT_advance v
  refine ⟨(advance_mem v).trans hmem, ?_, fun k => ?_, fun j => pagesOnly_advance h j⟩
  · rw [hT]
    exact hhome
  · rw [← h.2 k, State.team?, hT]
    rfl
theorem dirOf_home (h : u.home = s.home) (line : Nat) : dirOf u line = dirOf s line := by
  unfold dirOf
  rw [h]
theorem Past.plain (h : Past s u) (hp : PlainLoc s p) : PlainLoc u p := by
  cases p with
  | scr => trivial
  | glob m pa =>
    obtain ⟨hcalm, hheld⟩ := hp
    refine ⟨?_, by rw [h.home]; exact hheld⟩
    unfold CalmLine
    rw [dirOf_home h.home]
    exact hcalm
theorem Past.bytes (h : Past s u) (n : Nat) : locBytes u n p = locBytes s n p := by
  cases p with
  | scr team off => exact scratchBytes_bare h.teams team off n
  | glob m pa =>
    unfold locBytes homeBytes
    rw [h.mem]
theorem read_plain (hp : PlainLoc u p) (n : Nat) : p.read n u = (locBytes u n p, u) := by
  cases p with
  | scr => rfl
  | glob m pa => exact farRead_quiet u pa n hp.1 hp.2
theorem Past.read (h : Past s u) (hp : PlainLoc s p) (n : Nat) : p.read n u = (locBytes s n p, u) := by
  rw [read_plain (h.plain hp), h.bytes]

/-! ### An object written -/

/-- A write of an object waits for no snoop. -/
def Unheld (s : State) : Loc → Prop
  | .scr _ _ => True
  | .glob _ pa => hostHolds s pa = false
theorem unheld_of_locWait (h : locWait s true p = none) : Unheld s p := by
  cases p with
  | scr => trivial
  | glob m pa =>
    show hostHolds s pa = false
    simpa [locWait] using h
theorem Past.unheld (h : Past s u) (hp : Unheld s p) : Unheld u p := by
  cases p with
  | scr => trivial
  | glob m pa =>
    have hsame : hostHolds u pa = hostHolds s pa := by
      unfold hostHolds hostBias
      rw [dirOf_home h.home, h.home]
    exact hsame.trans hp

theorem write_plain (hp : PlainLoc u p) (hw : Unheld u p) (bs : List Byte) :
    LocWritten u (p.write bs u) p bs ∧ ∀ j, ((p.write bs u).thread? j).map Thread.bare = (u.thread? j).map Thread.bare := by
  cases p with
  | scr team off =>
    refine ⟨⟨mem_scratchWrite team off bs u, padWritten_scratchWrite (pagesOnly_refl u) team off bs⟩, fun j => ?_⟩
    exact congrArg (Option.map Thread.bare) (thread?_scratchWrite team off bs u j)
  | glob m pa =>
    have hcalm : Quietly u (if m == 0 && Tab.has u.home.dir (lineOf pa) then recallLine (lineOf pa) (settleLine (lineOf pa) u) else u) := by
      rw [settleLine_idle u _ hp.1.2]
      split
      · exact quietly_recallLine hp.1.1
      · exact Quietly.rfl' u
    have hwrite : Loc.write (.glob m pa) bs u = homeWrite none pa bs (l2Dirty (lineOf pa) (sectorBit pa)
        (if m == 0 && Tab.has u.home.dir (lineOf pa) then recallLine (lineOf pa) (settleLine (lineOf pa) u) else u)) :=
      if_neg (by rw [show hostHolds u pa = false from hw]; decide)
    obtain ⟨hquiet, hmem⟩ := writes_homeWrite (s := u) none pa bs (hcalm.trans (quietly_l2Dirty (lineOf pa) (sectorBit pa) _))
    rw [hwrite]
    refine ⟨⟨hmem, fun k => ?_⟩, hquiet.thr⟩
    exact congrArg (fun ts => (Tab.find ts k).map Team.bare) hquiet.teams

theorem Past.written (h : Past s u) {bs : List Byte} (hw : LocWritten u t p bs) : LocWritten s t p bs := by
  cases p with
  | scr team off =>
    refine ⟨hw.1.trans h.mem, fun k => (hw.2 k).trans ?_⟩
    split
    · have hput := congrArg (Option.map (writtenTeam off bs)) (h.teams k)
      rw [Option.map_map, Option.map_map] at hput
      exact hput
    · exact h.teams k
  | glob m pa => exact ⟨by rw [hw.1, h.mem], fun k => (hw.2 k).trans (h.teams k)⟩

/-- The threads of an instruction without a result, whose access has changed reservations alone. -/
theorem Past.done (h : Past s u) (hs : LanesSound s) (ht : ∀ j, (t.thread? j).map Thread.bare = (u.thread? j).map Thread.bare) :
    DoneBare f s t noResult :=
  doneBare_of s u t f _ hs (fun j => by rw [h.threads]) (fun k _ => by rw [ht]; cases u.thread? k.id <;> rfl) fun j _ => ht j

/-! ### Operands and poison, as the wave has advanced -/

theorem src32_sameT (h : SameButThreads s u) (o : Opnd) : src32 u f l o = src32 s f l o := by
  unfold src32
  rw [h]
  cases o <;> rfl
theorem src32_pages (h : PagesOnly s u) (o : Opnd) : src32 u f l o = src32 s f l o := by
  have hteam := team_pages h l.th.team
  have hgrid : u.gridOf l.th = s.gridOf l.th := by
    have hg : (u.team l.th.team).grid = (s.team l.th.team).grid :=
      (congrArg Team.grid hteam : (u.team l.th.team).bare.grid = (s.team l.th.team).bare.grid)
    unfold State.gridOf State.grid
    rw [hg, (pagesOnly_threads h).2.2.2.2.2.2.1]
  have hindex : (u.team l.th.team).index = (s.team l.th.team).index :=
    (congrArg Team.index hteam : (u.team l.th.team).bare.index = (s.team l.th.team).bare.index)
  have htime : u.clock = s.clock ∧ u.dtime = s.dtime := by
    rw [h.1]
    exact ⟨rfl, rfl⟩
  unfold src32 srcVal
  cases o with
  | const => simp only [hgrid]
  | special k =>
    unfold specialSrc
    simp only [wave_pages h, coreOf_pages h, hindex, htime.1, htime.2]
  | _ => rfl

theorem find_usePages (clock off n : Nat) (w : Bool) (ps : Tab Page) (k : Nat) :
    (Tab.find (usePages clock off n w ps) k).map Page.st = (Tab.find ps k).map Page.st := by
  unfold usePages
  induction ps with
  | nil => rfl
  | cons e r ih =>
    obtain ⟨i, x⟩ := e
    rw [List.map_cons]
    by_cases hi : i = k
    · split <;> simp [Tab.find, hi]
    · split <;> simpa [Tab.find, hi] using ih
theorem pageSt_touchLoc (p : Loc) (team page : Nat) (s : State) : pageSt (touchLoc p s) team page = pageSt s team page := by
  cases p with
  | glob => rfl
  | scr tm off =>
    have hteam : (touchLoc (.scr tm off) s).team? team =
        if team = tm then (s.team? tm).map fun x => { x with pages := usePages s.clock off 1 false x.pages } else s.team? team := team?_modTeam ..
    have hget : ∀ v : State, v.team team = (v.team? team).getD {} := fun _ => rfl
    unfold pageSt
    rw [hget, hget, hteam]
    split
    · next h =>
      subst h
      cases s.team? team with
      | none => rfl
      | some x => simp only [Option.map_some, Option.getD_some, find_usePages]
    · rfl
theorem backPoisoned_touchLoc (p : Loc) (team off : Nat) (s : State) : backPoisoned (touchLoc p s) team off = backPoisoned s team off := by
  have hpoison : (touchLoc p s).home.poison = s.home.poison := by rw [(pagesOnly_threads (pagesOnly_touch p s)).2.2.2.2.2.1]
  unfold backPoisoned resident poisoned
  rw [pageSt_touchLoc, hpoison]
theorem poisoned_past (q p : Loc) (s : State) : p.poisoned (advance (touchLoc q s)) = p.poisoned s := by
  have hT := sameT_advance (touchLoc q s)
  have hadv : p.poisoned (advance (touchLoc q s)) = p.poisoned (touchLoc q s) := by
    rw [hT]
    cases p <;> rfl
  rw [hadv]
  cases p with
  | scr team off => exact backPoisoned_touchLoc q team off s
  | glob m pa =>
    unfold Loc.poisoned poisoned
    rw [(pagesOnly_threads (pagesOnly_touch q s)).2.2.2.2.2.1]

/-! ### One lane's object -/

section
variable {check : State → Lane → Except Byte Loc} {ea : Lane → DWord} {w loads : Bool}
theorem withLocs_one (act : List (Lane × Loc) → State → State) (hl : s.execLanes f = [l]) (hc : check s l = .ok p) (hw : locWait s w p = none)
    (hp : p.poisoned s = false) : withLocs f check ea w loads act s = act [(l, p)] (touchLoc p s) := by
  unfold withLocs
  simp [hl, byHidx_single, splitChecks, hc, hw, hp]
end

/-! ### BOINIT -/

theorem boinit_of_some (hl : s.execLanes f = [l]) (hc : boCheck f { w := true } s l = .ok p) (hw : locWait s true p = none)
    (hp : p.poisoned s = false) (hb : src32 s f l f.b ≠ 0) :
    boinit f s = p.write (boFresh (src32 s f l f.b).toNat) (advance (touchLoc p s)) := by
  unfold boinit
  rw [withLocs_one _ hl hc hw hp]
  have hb' : (src32 s f l f.b == 0) = false := beq_eq_false_iff_ne.2 hb
  simp only [List.filter_cons, List.filter_nil, src32_pages (pagesOnly_touch p s), hb', bne, Bool.false_eq_true, if_false, Bool.not_false, if_true,
    List.foldl_cons, List.foldl_nil, List.map_nil, takeUsers_nil, src32_sameT (sameT_advance (touchLoc p s))]
theorem boinit_of_zero (hl : s.execLanes f = [l]) (hc : boCheck f { w := true } s l = .ok p) (hw : locWait s true p = none)
    (hp : p.poisoned s = false) (hb : src32 s f l f.b = 0) :
    boinit f s = takeUsers (advance (touchLoc p s)) f (touchLoc p s).here [(l, { cause := 0x02, field := 7 })] := by
  unfold boinit
  rw [withLocs_one _ hl hc hw hp]
  simp [src32_pages (pagesOnly_touch p s), hb]

/-- An object written by one lane past which the wave has advanced. -/
theorem wrote_object (hs : LanesSound s) (hp : PlainLoc s p) (hw : Unheld s p) (h : Past s u) (bs : List Byte) :
    DoneBare f s (p.write bs u) noResult ∧ LocWritten s (p.write bs u) p bs := by
  obtain ⟨hwritten, hthr⟩ := write_plain (h.plain hp) (h.unheld hw) bs
  exact ⟨h.done hs hthr, h.written hwritten⟩

theorem boinit_writes (hs : LanesSound s) (hl : s.execLanes f = [l]) (hplain : PlainLoc s p) (hp : p.poisoned s = false)
    (hc : boCheck f { w := true } s l = .ok p) (hw : locWait s true p = none) (hb : src32 s f l f.b ≠ 0) :
    DoneBare f s (boinit f s) noResult ∧ LocWritten s (boinit f s) p (boFresh (src32 s f l f.b).toNat) := by
  rw [boinit_of_some hl hc hw hp hb]
  exact wrote_object hs hplain (unheld_of_locWait hw) (past_advance (pagesOnly_touch p s)) _
theorem boinit_traps (hs : LanesSound s) (hl : s.execLanes f = [l]) (hp : p.poisoned s = false)
    (hc : boCheck f { w := true } s l = .ok p) (hw : locWait s true p = none) (hb : src32 s f l f.b = 0) (he : escalates s l.th = false) :
    (boinit f s).mem = s.mem ∧ ∃ y, (boinit f s).thread? l.id = some y ∧ y.handler = true ∧ y.trap.cause = 0x02 ∧ y.v = l.th.v := by
  have hpages := pagesOnly_touch p s
  have hpast := past_advance hpages
  have hin : l ∈ s.execLanes f := by rw [hl]; exact List.mem_singleton_self l
  obtain ⟨hrest, -, htrap⟩ := takeUsers_spec (touchLoc p s) (advance (touchLoc p s)) (sameT_advance _) f (touchLoc p s).here
    [(l, { cause := 0x02, field := 7 })] (List.nodup_singleton _)
  have hesc : escalates (touchLoc p s) l.th = false := by
    have hctx : (touchLoc p s).ctx ((touchLoc p s).ctxOf l.th) = s.ctx (s.ctxOf l.th) := by
      have hgrid : ((touchLoc p s).team l.th.team).grid = (s.team l.th.team).grid :=
        (congrArg Team.grid (team_pages hpages l.th.team) : ((touchLoc p s).team l.th.team).bare.grid = (s.team l.th.team).bare.grid)
      obtain ⟨-, -, -, -, -, -, hgrids, hctxs⟩ := pagesOnly_threads hpages
      unfold State.ctxOf State.gridOf State.grid State.ctx
      rw [hgrid, hgrids, hctxs]
    unfold escalates at he ⊢
    rw [hctx]
    exact he
  have hth : (advance (touchLoc p s)).thread? l.id = some (nextTh s l.th) := by
    rw [hpast.threads]
    exact (advance_spec s hs).2.1 l (execLanes_sub hin)
  have hy := htrap _ (List.mem_singleton_self _) hesc
  rw [boinit_of_zero hl hc hw hp hb]
  refine ⟨?_, _, hy.trans (congrArg _ hth), rfl, rfl, rfl⟩
  rw [hrest, hpast.mem]

/-! ### Credits and BOARR -/

/-- A credit of an object that is not poisoned: the object is written; at most the log differs besides. -/
theorem creditAt_plain (hp : PlainLoc u p) (hpoison : p.poisoned u = false) (x n : Nat) (failed : Bool) (cause : Byte) :
    (creditAt x p n failed cause u).mem = (p.write (creditBytes (locBytes u 64 p) n failed cause).1 u).mem ∧
      (creditAt x p n failed cause u).work = (p.write (creditBytes (locBytes u 64 p) n failed cause).1 u).work := by
  unfold creditAt
  simp only [hpoison, Bool.false_eq_true, if_false, read_plain hp]
  split
  · exact ⟨rfl, rfl⟩
  · exact ⟨rfl, rfl⟩
theorem locWritten_of_work {v : State} {bs : List Byte} (h : LocWritten s v p bs) (hmem : t.mem = v.mem) (hwork : t.work = v.work) :
    LocWritten s t p bs := by
  have hteam : ∀ k, t.team? k = v.team? k := fun k => by rw [State.team?, hwork]; rfl
  cases p with
  | scr => exact ⟨hmem.trans h.1, fun k => by rw [hteam]; exact h.2 k⟩
  | glob => exact ⟨hmem.trans h.1, fun k => by rw [hteam]; exact h.2 k⟩

theorem boarr_eq (hl : s.execLanes f = [l]) (hq : QuietL1 s s.hereCore) (hc : boCheck f { r := true, w := true, rmw := true } s l = .ok p)
    (hw : locWait s true p = none) (hp : p.poisoned s = false) (hr : releaseWaits s l.id (scopeOf f) = false) :
    boarr f s = creditAt (advance (touchLoc p s)).hereCtx p (src32 s f l f.b).toNat false 0 (advance (touchLoc p s)) := by
  have hpages := pagesOnly_touch p s
  have hhere : (touchLoc p s).hereCore = s.hereCore := by
    obtain ⟨-, hwaves, hcur, -⟩ := pagesOnly_threads hpages
    unfold State.hereCore State.wave
    rw [hwaves, hcur]
  have hquiet : QuietL1 (touchLoc p s) (touchLoc p s).hereCore := by
    rw [hhere]
    exact quietL1_cores (pagesOnly_threads hpages).2.2.2.2.1 hq
  unfold boarr releaseFirst
  rw [if_neg (by rw [hl]; simp [hr])]
  beta_reduce
  rw [withLocs_one _ hl hc hw hp]
  simp only [releaseSide_quiet _ _ _ hquiet, List.foldl_cons, List.foldl_nil, src32_sameT (sameT_advance (touchLoc p s)), src32_pages hpages]
theorem boarr_credits (hs : LanesSound s) (hl : s.execLanes f = [l]) (hplain : PlainLoc s p) (hp : p.poisoned s = false) (hq : QuietL1 s s.hereCore)
    (hc : boCheck f { r := true, w := true, rmw := true } s l = .ok p) (hw : locWait s true p = none) (hr : releaseWaits s l.id (scopeOf f) = false) :
    DoneBare f s (boarr f s) noResult ∧ LocWritten s (boarr f s) p (creditBytes (locBytes s 64 p) (src32 s f l f.b).toNat false 0).1 := by
  have hpast := past_advance (pagesOnly_touch p s)
  obtain ⟨hmem, hwork⟩ := creditAt_plain (hpast.plain hplain) ((poisoned_past p p s).trans hp) (advance (touchLoc p s)).hereCtx
    (src32 s f l f.b).toNat false 0
  rw [hpast.bytes] at hmem hwork
  rw [boarr_eq hl hq hc hw hp hr]
  obtain ⟨hwritten, hthr⟩ := write_plain (hpast.plain hplain) (hpast.unheld (unheld_of_locWait hw))
    (creditBytes (locBytes s 64 p) (src32 s f l f.b).toNat false 0).1
  refine ⟨hpast.done hs fun j => ?_, hpast.written (locWritten_of_work hwritten hmem hwork)⟩
  rw [← hthr j, State.thread?, hwork]
  rfl

/-! ### BOTOK, BOWAIT and BOWAITP -/

/-- One executing thread changed, past which the wave has advanced. -/
theorem lanesBecome_one {g : Thread → Thread} (hs : LanesSound s) (hl : s.execLanes f = [l]) (h : Past s u)
    (ht : ∀ j, t.thread? j = (u.modThread l.id g).thread? j) : LanesBecome f s t fun l => g (nextTh s l.th) := by
  have hin : l ∈ s.execLanes f := by rw [hl]; exact List.mem_singleton_self l
  refine lanesBecome_of hs (fun k hk => ?_) fun j hj => ?_
  · rw [hl] at hk
    rw [List.mem_singleton.1 hk, ht, thread?_modThread, if_pos rfl, h.threads, (advance_spec s hs).2.1 l (execLanes_sub hin)]
    rfl
  · rw [hl] at hj
    rw [ht, thread?_modThread, if_neg (by simpa using hj), h.threads]

section
variable (hl : s.execLanes f = [l]) (hplain : PlainLoc s p) (hp : p.poisoned s = false) (hc : boCheck f { r := true } s l = .ok p)
  (hw : locWait s false p = none)
include hl hplain hp hc hw

theorem botok_eq : botok f s = (advance (touchLoc p s)).modThread l.id fun t => putD32 f.d (BitVec.ofNat 32 (leNat (locBytes s 4 p))) t := by
  unfold botok
  rw [withLocs_one _ hl hc hw hp]
  simp only [List.foldl_cons, List.foldl_nil, (past_advance (pagesOnly_touch p s)).read hplain]
theorem boWaitOn_of_some {out : Lane → Nat → Option LaneOut} {o : LaneOut} (ho : out l (leNat (locBytes s 4 p)) = some o) :
    boWaitOn f out s = acquireSide (advance (touchLoc p s)).hereCore (advance (touchLoc p s)).hereCtx (scopeOf f)
      ((advance (touchLoc p s)).modThread l.id fun t => writeOut f o t) := by
  unfold boWaitOn
  rw [withLocs_one _ hl hc hw hp]
  simp only [List.foldl_cons, List.foldl_nil, (past_advance (pagesOnly_touch p s)).read hplain, ho]
theorem boWaitOn_of_none {out : Lane → Nat → Option LaneOut} (ho : out l (leNat (locBytes s 4 p)) = none) :
    boWaitOn f out s = boMonitor l p (leNat (locBytes s 4 p)) (advance (touchLoc p s)) := by
  unfold boWaitOn
  rw [withLocs_one _ hl hc hw hp]
  simp only [List.foldl_cons, List.foldl_nil, (past_advance (pagesOnly_touch p s)).read hplain, ho]

theorem botok_reads (hs : LanesSound s) : (botok f s).mem = s.mem ∧
    LanesBecome f s (botok f s) fun l => putD32 f.d (BitVec.ofNat 32 (leNat (locBytes s 4 p))) (nextTh s l.th) := by
  have hpast := past_advance (pagesOnly_touch p s)
  rw [botok_eq hl hplain hp hc hw]
  exact ⟨(sameT_mem (sameT_modThread _ _ _)).trans hpast.mem, lanesBecome_one hs hl hpast fun _ => rfl⟩
theorem boWaitOn_completes {out : Lane → Nat → Option LaneOut} {o : LaneOut} (hs : LanesSound s) (ho : out l (leNat (locBytes s 4 p)) = some o) :
    (boWaitOn f out s).mem = s.mem ∧ LanesBecome f s (boWaitOn f out s) fun l => writeOut f o (nextTh s l.th) := by
  have hpast := past_advance (pagesOnly_touch p s)
  rw [boWaitOn_of_some hl hplain hp hc hw ho]
  have hcalm := calm_acquireSide (advance (touchLoc p s)).hereCore (advance (touchLoc p s)).hereCtx (scopeOf f)
    ((advance (touchLoc p s)).modThread l.id fun t => writeOut f o t)
  refine ⟨?_, lanesBecome_one hs hl hpast fun j => thread?_calm hcalm j⟩
  rw [(quietly_of_calm hcalm).mem, sameT_mem (sameT_modThread _ _ _), hpast.mem]
end

/-- A waiter on a word of a scratchpad: on the monitor that stands, or a new one. -/
theorem parkMonitor_scratch {m : Monitor} {tm : Nat} (hm : m.scr = some tm) : ∃ k h, (k, m) ∈ h.monitors ∧
    parkMonitor l m false u = parkLanes [l] (fun _ => .monitor k) { u with home := h } := by
  unfold parkMonitor
  simp only [Bool.false_eq_true, if_false, hm, Option.isNone_some, Bool.false_and]
  cases hf : u.home.monitors.find? fun e => e.2 == m with
  | some e =>
    have hmem := List.mem_of_find?_eq_some hf
    have heq : e.2 = m := by simpa using List.find?_some hf
    exact ⟨e.1, u.home, by rw [← heq]; exact hmem, rfl⟩
  | none => exact ⟨u.home.nextMon, { u.home with monitors := Tab.put u.home.monitors u.home.nextMon m, nextMon := u.home.nextMon + 1 },
      tab_mem_of_find (tab_find_put_self ..), rfl⟩

/-- A thread that waits on a monitor, to issue its instruction again. -/
def waitsAt (w : Wave) (k : Nat) (t : Thread) : Thread :=
  { t with pc := w.pc, park := some (.monitor k), word := w.wordAt w.pc, resume := some w.pc }
theorem boWaitOn_waits {out : Lane → Nat → Option LaneOut} {tm o : Nat} (hs : LanesSound s) (hl : s.execLanes f = [l])
    (hp : (Loc.scr tm o).poisoned s = false) (hc : boCheck f { r := true } s l = .ok (.scr tm o)) (hw : locWait s false (.scr tm o) = none)
    (ho : out l (leNat (locBytes s 4 (.scr tm o))) = none) :
    (boWaitOn f out s).mem = s.mem ∧ ∃ k,
      (k, (⟨l.th.team, some tm, o, 4, 1, BitVec.ofNat 64 (leNat (locBytes s 4 (.scr tm o)))⟩ : Monitor)) ∈ (boWaitOn f out s).home.monitors ∧
      LanesBecome f s (boWaitOn f out s) fun l => waitsAt (s.wave s.curWave) k (nextTh s l.th) := by
  have hpages := pagesOnly_touch (.scr tm o) s
  have hpast := past_advance hpages
  rw [boWaitOn_of_none hl (by trivial) hp hc hw ho]
  obtain ⟨k, h, hin, heq⟩ := parkMonitor_scratch (l := l) (u := advance (touchLoc (.scr tm o) s))
    (m := ⟨l.th.team, some tm, o, 4, 1, BitVec.ofNat 64 (leNat (locBytes s 4 (.scr tm o)))⟩) rfl
  have hwave : (advance (touchLoc (.scr tm o) s)).wave (advance (touchLoc (.scr tm o) s)).curWave = s.wave s.curWave := by
    rw [← wave_pages hpages, sameT_advance]
    rfl
  have hpark : boMonitor l (.scr tm o) (leNat (locBytes s 4 (.scr tm o))) (advance (touchLoc (.scr tm o) s)) =
      State.modThread { advance (touchLoc (.scr tm o) s) with home := h } l.id (waitsAt (s.wave s.curWave) k) := by
    rw [← hwave]
    exact heq
  have hsame := sameT_modThread { advance (touchLoc (.scr tm o) s) with home := h } l.id (waitsAt (s.wave s.curWave) k)
  rw [hpark]
  refine ⟨(sameT_mem hsame).trans hpast.mem, k, by rw [hsame]; exact hin, lanesBecome_one hs hl hpast fun j => ?_⟩
  rw [thread?_modThread, thread?_modThread]
  rfl

theorem exec_boinit (f : Fields) (s : State) : exec (.boinit f) s = .next (boinit f s) := rfl
theorem exec_boarr (f : Fields) (s : State) : exec (.boarr f) s = .next (boarr f s) := rfl
theorem exec_botok (f : Fields) (s : State) : exec (.botok f) s = .next (botok f s) := rfl

/-- What BOWAIT answers from the phase that it reads, and BOWAITP. -/
def waitOut (s : State) (f : Fields) (l : Lane) (phase : Nat) : Option LaneOut :=
  let d := (BitVec.ofNat 32 phase - src32 s f l f.b).toNat
  if 1 ≤ d ∧ d < 2 ^ 31 then some (.pred (decide (d ≥ 2))) else none
def parityOut (f : Fields) (_ : Lane) (phase : Nat) : Option LaneOut :=
  if (phase + 2 ^ 32 - 1) % 2 = (f.fn.getLsbD 1).toNat then some .none else none
theorem exec_bowait (f : Fields) (s : State) : exec (.bowait f) s = .next (boWaitOn f (waitOut s f) s) := rfl
theorem exec_bowaitp (f : Fields) (s : State) : exec (.bowaitp f) s = .next (boWaitOn f (parityOut f) s) := rfl

/-! ### The bytes of an object after a credit (spec 12 R241) -/

theorem natLe_leAt {o : List Byte} {k n : Nat} (h : k + n ≤ o.length) : natLe n (leAt o k n) = (o.drop k).take n := by
  have hlen : ((o.drop k).take n).length = n := by
    rw [List.length_take, List.length_drop]
    omega
  have hinv := natLe_leNat ((o.drop k).take n)
  rwa [hlen] at hinv

section
variable {o : List Byte} {n : Nat} (ho : o.length = 64)
include ho
theorem creditBytes_of_under (h : leAt o 0x18 8 + n + leAt o 0x20 8 < leAt o 0x10 8) :
    creditBytes o n false 0 = (o.take 24 ++ natLe 8 (leAt o 0x18 8 + n) ++ o.drop 32, false) := by
  have hhead : natLe 4 (leAt o 0 4) ++ natLe 4 (leAt o 4 4) ++ (o.drop 8).take 16 = o.take 24 := by
    rw [natLe_leAt (by omega), natLe_leAt (by omega), List.drop_zero, ← List.take_add, ← List.take_add]
  have htail : natLe 8 (leAt o 0x20 8) ++ o.drop 0x28 = o.drop 32 := by
    have hsplit := List.take_append_drop 8 (o.drop 32)
    rw [List.drop_drop] at hsplit
    rw [natLe_leAt (by omega), hsplit]
  unfold creditBytes
  simp only [Bool.false_eq_true, if_false, Nat.add_zero, ge_iff_le, if_neg (Nat.not_le.2 h)]
  rw [hhead, List.append_assoc _ (natLe 8 (leAt o 0x20 8)), htail]
theorem creditBytes_of_equal (h : leAt o 0x18 8 + n + leAt o 0x20 8 = leAt o 0x10 8) :
    creditBytes o n false 0 = (natLe 4 (leAt o 0 4 + 1) ++ natLe 4 0 ++ (o.drop 4).take 4 ++ natLe 4 0 ++ (o.drop 16).take 8 ++
        natLe 16 0 ++ o.drop 40, false) := by
  have hzero : natLe 16 0 = natLe 8 0 ++ natLe 8 0 := rfl
  unfold creditBytes
  simp only [Bool.false_eq_true, if_false, Nat.add_zero, ge_iff_le, h, le_refl, if_true, gt_iff_lt, lt_self_iff_false, decide_false]
  rw [natLe_leAt (k := 4) (by omega), natLe_leAt (k := 16) (by omega), hzero]
  simp only [List.append_assoc]
end
theorem creditBytes_of_over {o : List Byte} {n : Nat} (h : leAt o 0x10 8 < leAt o 0x18 8 + n + leAt o 0x20 8) :
    (creditBytes o n false 0).2 = true ∧
      (creditBytes o n false 0).1.take 16 = natLe 4 (leAt o 0 4 + 1) ++ natLe 4 0 ++ natLe 4 (leAt o 4 4 ||| 512) ++ natLe 4 0 := by
  unfold creditBytes
  simp only [Bool.false_eq_true, if_false, Nat.add_zero, ge_iff_le, Nat.le_of_lt h, if_true, gt_iff_lt, h, decide_true, true_and]
  simp only [List.append_assoc, List.take_append, length_natLe]
  simp [List.take_of_length_le]

/-! ### Credits from elsewhere, and the end of waits -/

theorem barrierCredit_of_team {c : Credit} {tm : Nat} (h : c.team = some tm) (ht : s.team? tm ≠ none) :
    barrierCredit c s = creditAt (s.grid (s.team tm).grid).ctx (.scr tm c.addr) c.bytes c.failed c.cause s := by
  unfold barrierCredit
  simp only [h]
  rw [if_neg (by simpa using ht)]
theorem barrierCredit_spec {c : Credit} {tm : Nat} (h : c.team = some tm) (ht : s.team? tm ≠ none) (hp : backPoisoned s tm c.addr = false) :
    (∀ j, (barrierCredit c s).thread? j = s.thread? j) ∧
      LocWritten s (barrierCredit c s) (.scr tm c.addr) (creditBytes (scratchBytes s tm c.addr 64) c.bytes c.failed c.cause).1 := by
  obtain ⟨hmem, hwork⟩ := creditAt_plain (u := s) (p := .scr tm c.addr) trivial hp (s.grid (s.team tm).grid).ctx c.bytes c.failed c.cause
  rw [barrierCredit_of_team h ht]
  refine ⟨fun j => ?_, locWritten_of_work (write_plain (p := .scr tm c.addr) trivial trivial _).1 hmem hwork⟩
  rw [State.thread?, hwork]
  exact thread?_scratchWrite ..

/-- No grid records or plays a replay. -/
def NoReplay (s : State) : Prop := ∀ e ∈ s.work.grids, e.2.recording = false ∧ e.2.playing = false
theorem NoReplay.grid {s : State} (h : NoReplay s) (k : Nat) : (s.grid k).recording = false ∧ (s.grid k).playing = false := by
  unfold State.grid Tab.get
  cases hk : Tab.find s.work.grids k with
  | none => exact ⟨rfl, rfl⟩
  | some g => exact h _ (tab_mem_of_find hk)
theorem replayWake_of_noReplay {s : State} (h : NoReplay s) (t v pa : Nat) : replayWake t v pa s = s := by
  obtain ⟨hrec, hplay⟩ := h.grid (s.team (s.thread t).team).grid
  unfold replayWake State.gridOf
  simp only [hrec, hplay, Bool.false_eq_true, if_false]
theorem foldl_replayWake {s : State} (h : NoReplay s) (v pa : Nat) (ts : List Nat) : ts.foldl (fun s t => replayWake t v pa s) s = s := by
  induction ts with
  | nil => rfl
  | cons t r ih => rw [List.foldl_cons, replayWake_of_noReplay h, ih]

/-- A team that becomes runnable changes teams and tasks alone. -/
theorem wakeTeam_rest (k : Nat) (s : State) :
    (wakeTeam k s).mem = s.mem ∧ (wakeTeam k s).home = s.home ∧ (wakeTeam k s).work.threads = s.work.threads := by
  have hfold : ∀ (ms : List Nat) (s : State), let t := ms.foldl (fun s t => s.modTeam t fun x => { x with swap := false }) s
      t.mem = s.mem ∧ t.home = s.home ∧ t.work.threads = s.work.threads := by
    intro ms
    induction ms with
    | nil => exact fun s => ⟨rfl, rfl, rfl⟩
    | cons m r ih =>
      intro s
      obtain ⟨hmem, hhome, hthreads⟩ := ih (s.modTeam m fun x => { x with swap := false })
      exact ⟨hmem.trans (by rw [modTeam_eq]), hhome.trans (by rw [modTeam_eq]), hthreads.trans (by rw [modTeam_eq])⟩
  unfold wakeTeam
  dsimp only
  split
  · exact hfold _ s
  · exact ⟨rfl, rfl, rfl⟩
theorem wakeTeam_of_kept {k : Nat} (h : (s.team k).swap = false) : wakeTeam k s = s := by
  unfold wakeTeam
  simp only [h, Bool.false_and, Bool.false_eq_true, if_false]

theorem exec_barrierCredit (c : Credit) (s : State) : exec (.barrierCredit c) s = .next (barrierCredit c s) := rfl
theorem exec_monitorWake (k : Nat) (s : State) : exec (.monitorWake k) s = .next (monitorWake k s) := rfl
theorem exec_monitorPoll (j : Nat) (s : State) : exec (.monitorPoll j) s = .next (monitorPoll j s) := rfl

section
variable {k tm : Nat} {m : Monitor} (hm : Tab.find s.home.monitors k = some m) (hscr : m.scr = some tm)
include hm hscr

theorem monitorWake_of_standing (h : condHolds m.cond m.size (scratchNat s tm m.addr m.size) m.val.toNat = false) : monitorWake k s = s := by
  unfold monitorWake
  simp only [hm, monitorRead, hscr, h, Bool.not_false, if_true]
/-- The threads that wait on a monitor. -/
def waitersOn (k : Nat) (s : State) : List Nat := (s.work.threads.filter fun e => e.2.park == some (.monitor k)).map (·.1)
theorem monitorWake_of_met (h : condHolds m.cond m.size (scratchNat s tm m.addr m.size) m.val.toNat = true) (hr : NoReplay s) :
    monitorWake k s = wakeTeam m.team ((s.modThreads (waitersOn k s) Thread.unparkHere).modHome fun h => { h with monitors := Tab.del h.monitors k }) := by
  unfold monitorWake
  simp only [hm, monitorRead, hscr, h, Bool.not_true, Bool.false_eq_true, if_false, foldl_replayWake hr]
  rfl
theorem monitorWake_wakes (h : condHolds m.cond m.size (scratchNat s tm m.addr m.size) m.val.toNat = true) (hr : NoReplay s) :
    (monitorWake k s).mem = s.mem ∧ Tab.find (monitorWake k s).home.monitors k = none ∧
      (∀ j y, s.thread? j = some y → y.park = some (.monitor k) → (monitorWake k s).thread? j = some { y with park := none, pages := [] }) ∧
      ∀ j, (∀ e ∈ s.work.threads, e.1 = j → e.2.park ≠ some (.monitor k)) → (monitorWake k s).thread? j = s.thread? j := by
  rw [monitorWake_of_met hm hscr h hr]
  obtain ⟨hmem, hhome, hthreads⟩ := wakeTeam_rest m.team
    ((s.modThreads (waitersOn k s) Thread.unparkHere).modHome fun h => { h with monitors := Tab.del h.monitors k })
  have hth : ∀ j, (wakeTeam m.team ((s.modThreads (waitersOn k s) Thread.unparkHere).modHome fun h => { h with monitors := Tab.del h.monitors k })).thread? j =
      if j ∈ waitersOn k s then (s.thread? j).map Thread.unparkHere else s.thread? j := fun j => by
    rw [State.thread?, hthreads]
    exact thread?_modThreads_idem _ Thread.unparkHere (fun _ => rfl) s j
  have hkept : (s.modThreads (waitersOn k s) Thread.unparkHere).mem = s.mem := sameT_mem (sameT_modThreads s (waitersOn k s) Thread.unparkHere)
  refine ⟨hmem.trans hkept, ?_, fun j y hy hpark => ?_, fun j hno => ?_⟩
  · rw [hhome]
    exact (tab_find_del ..).trans (if_pos rfl)
  · have hin : j ∈ waitersOn k s := List.mem_map.2 ⟨(j, y), List.mem_filter.2 ⟨tab_mem_of_find hy, by simp [hpark]⟩, rfl⟩
    rw [hth, if_pos hin, hy]
    rfl
  · have hout : j ∉ waitersOn k s := fun hin => by
      obtain ⟨e, he, hej⟩ := List.mem_map.1 hin
      obtain ⟨hmem', hpark⟩ := List.mem_filter.1 he
      exact hno e hmem' hej (by simpa using hpark)
    rw [hth, if_neg hout]
end

section
variable {j at_ : Nat} {y : Thread} (hy : s.thread? j = some y) (hpark : y.park = some (.poll at_))
include hy hpark

theorem monitorPoll_of_early (h : s.dtime < at_) : monitorPoll j s = s := by
  unfold monitorPoll
  simp only [thread_of_thread? hy, hpark, if_neg (Nat.not_le.2 h)]
theorem monitorPoll_of_due (h : at_ ≤ s.dtime) : monitorPoll j s = wakeTeam y.team (s.modThread j Thread.unparkHere) := by
  unfold monitorPoll
  simp only [thread_of_thread? hy, hpark, h, if_true]
theorem monitorPoll_wakes (h : at_ ≤ s.dtime) : ((s.team y.team).swap = false → SameButThreads s (monitorPoll j s)) ∧ (monitorPoll j s).mem = s.mem ∧
    (monitorPoll j s).thread? j = some { y with park := none, pages := [] } ∧ ∀ k, k ≠ j → (monitorPoll j s).thread? k = s.thread? k := by
  have hsame := sameT_modThread s j Thread.unparkHere
  obtain ⟨hmem, -, hthreads⟩ := wakeTeam_rest y.team (s.modThread j Thread.unparkHere)
  have hth : ∀ k, (wakeTeam y.team (s.modThread j Thread.unparkHere)).thread? k = (s.modThread j Thread.unparkHere).thread? k := fun k => by
    rw [State.thread?, hthreads]
    rfl
  rw [monitorPoll_of_due hy hpark h]
  refine ⟨fun hswap => ?_, hmem.trans (sameT_mem hsame), ?_, fun k hk => ?_⟩
  · rw [wakeTeam_of_kept]
    · exact hsame
    · rw [hsame]
      exact hswap
  · rw [hth, thread?_modThread, if_pos rfl, hy]
    rfl
  · rw [hth, thread?_modThread, if_neg hk]
end

/-! ### The statement -/

/-- The waits of BOWAIT and BOWAITP on an object in a scratchpad. -/
theorem bowait_waits {i : Instr} {tm o : Nat} (hs : LanesSound s) (hl : s.execLanes f = [l]) (hp : (Loc.scr tm o).poisoned s = false)
    (hc : boCheck f { r := true } s l = .ok (.scr tm o)) (hw : locWait s false (.scr tm o) = none) {phase : Nat}
    (hphase : phase = leNat (locBytes s 4 (.scr tm o)))
    (hi : i = .bowait f ∧ (BitVec.ofNat 32 phase = src32 s f l f.b) ∨ i = .bowaitp f ∧ (phase + 2 ^ 32 - 1) % 2 ≠ (f.fn.getLsbD 1).toNat) :
    ∃ t k, exec i s = .next t ∧ t.mem = s.mem ∧ (k, (⟨l.th.team, some tm, o, 4, 1, BitVec.ofNat 64 phase⟩ : Monitor)) ∈ t.home.monitors ∧
      LanesBecome f s t fun l => { l.th with
        pc := (s.wave s.curWave).pc, park := some (.monitor k), word := (s.wave s.curWave).wordAt (s.wave s.curWave).pc
        resume := some (s.wave s.curWave).pc } := by
  subst hphase
  rcases hi with ⟨rfl, hsame⟩ | ⟨rfl, hodd⟩
  · have hout : waitOut s f l (leNat (locBytes s 4 (.scr tm o))) = none := by
      unfold waitOut
      rw [hsame, BitVec.sub_self]
      rfl
    obtain ⟨hmem, k, hin, hlanes⟩ := boWaitOn_waits hs hl hp hc hw hout
    exact ⟨_, k, exec_bowait f s, hmem, hin, hlanes⟩
  · have hout : parityOut f l (leNat (locBytes s 4 (.scr tm o))) = none := if_neg hodd
    obtain ⟨hmem, k, hin, hlanes⟩ := boWaitOn_waits hs hl hp hc hw hout
    exact ⟨_, k, exec_bowaitp f s, hmem, hin, hlanes⟩

end

/-- Settles O44: the barrier-object instructions of one lane, credits, and the end of waits on monitors and of polls. -/
theorem barrierObjects : Obligations.BarrierObjects := by
  unfold Obligations.BarrierObjects
  refine ⟨fun f s l p hs hl hplain hp hq => ⟨fun hc hw => ⟨fun hb => ?_, fun hb he => ?_⟩, fun hc hw hr => ?_, fun hc hw phase hphase => ⟨?_, fun d hd h1 h2 => ?_, fun hpar => ?_, fun i hi tm o ho => ?_⟩⟩,
    fun o n ho => ⟨creditBytes_of_under ho, creditBytes_of_equal ho, creditBytes_of_over⟩,
    fun s c tm h ht hp => ⟨_, exec_barrierCredit c s, barrierCredit_spec h ht hp⟩,
    fun s k tm m hm hscr => ⟨fun h => congrArg Host.Outcome.next (monitorWake_of_standing hm hscr h),
      fun h hr => ⟨_, exec_monitorWake k s, monitorWake_wakes hm hscr h hr⟩⟩,
    fun s j at_ y hy hpark => ⟨fun h => ⟨_, exec_monitorPoll j s, monitorPoll_wakes hy hpark h⟩,
      fun h => congrArg Host.Outcome.next (monitorPoll_of_early hy hpark h)⟩⟩
  · exact ⟨_, exec_boinit f s, boinit_writes hs hl hplain hp hc hw hb⟩
  · obtain ⟨hmem, y, hy⟩ := boinit_traps hs hl hp hc hw hb he
    exact ⟨_, y, exec_boinit f s, hmem, hy⟩
  · exact ⟨_, exec_boarr f s, boarr_credits hs hl hplain hp hq hc hw hr⟩
  · subst hphase
    exact ⟨_, exec_botok f s, botok_reads hl hplain hp hc hw hs⟩
  · subst hd hphase
    exact ⟨_, exec_bowait f s, boWaitOn_completes (out := waitOut s f)
      (o := .pred (decide (2 ≤ (BitVec.ofNat 32 (leNat (locBytes s 4 p)) - src32 s f l f.b).toNat))) hl hplain hp hc hw hs (if_pos ⟨h1, h2⟩)⟩
  · subst hphase
    exact ⟨_, exec_bowaitp f s, boWaitOn_completes (out := parityOut f) (o := .none) hl hplain hp hc hw hs (if_pos hpar)⟩
  · subst ho
    exact bowait_waits hs hl hp hc hw hphase hi

end Sys2Proof.Proofs
end

section
/-!
PROOFS. Rings and event sinks (spec 12 R257 to R263): the answer of an instruction on the engine group that its team owns, a ring
changed, a ring that RINIT places, and the counts of a sink.
-/
namespace Sys2Proof.Proofs
open Machine Laws

/-! ### Instructions on an owned engine group (R239, R258) -/

section
variable {i : Instr} {f : Fields} {s u : State} {l : Lane}

theorem withGroup_of_some {act : Lane → Nat → State → Option State} (h : GroupReady f s l)
    (hact : act l (s.coreOf l.th) s = some u) : withGroup f act s = u := by
  rw [withGroup_ready h, hact]

theorem withGroup_of_none {act : Lane → Nat → State → Option State} (h : GroupReady f s l)
    (hact : act l (s.coreOf l.th) s = none) : withGroup f act s = trapAll f { cause := 0x4A } s := by
  rw [withGroup_ready h, hact]

/-- An instruction that changes the engine group and gives its wave a result. -/
theorem group_answers {o : LaneOut} (h : GroupReady f s l) (hu : Engaged s u (s.coreOf l.th))
    (hi : exec i s = .next (doneWith f o u)) :
    ∃ t, exec i s = .next t ∧ GroupDone f s t l o ∧ t.group (s.coreOf l.th) = u.group (s.coreOf l.th) :=
  ⟨_, hi, groupDone_doneWith h.1 hu, group_doneWith f o u _⟩

/-- An instruction that changes the engine group and has no result. -/
theorem group_advances (h : GroupReady f s l) (hu : Engaged s u (s.coreOf l.th)) (hi : exec i s = .next (advance u)) :
    ∃ t, exec i s = .next t ∧ GroupDone f s t l .none ∧ t.group (s.coreOf l.th) = u.group (s.coreOf l.th) :=
  ⟨_, hi, groupDone_advance h.1 hu, group_advance u _⟩

theorem group_waits (h : GroupReady f s l) (hi : exec i s = .next (waitAll f .engine s)) :
    ∃ t, exec i s = .next t ∧ AllWait f s t .engine :=
  ⟨_, hi, allWait_waitAll h.1.1 _⟩

/-! ### A ring changed (R259) -/

theorem withRing_of_some {act : Nat → Ring → State → Option State} {r : Ring} (h : GroupReady f s l)
    (hring : Tab.find (s.group (s.coreOf l.th)).rings (ringOf f) = some r) (hact : act (s.coreOf l.th) r s = some u) :
    withRing f act s = u :=
  withGroup_of_some h (by rw [hring, Option.bind_some, hact])

theorem withRing_of_inactive (act : Nat → Ring → State → Option State) (h : GroupReady f s l)
    (hring : Tab.find (s.group (s.coreOf l.th)).rings (ringOf f) = none) : withRing f act s = trapAll f { cause := 0x4A } s :=
  withGroup_of_none h (by rw [hring, Option.bind_none])

theorem engaged_setRing (c n : Nat) (r : Ring) (s : State) : Engaged s (setRing c n r s) c :=
  engaged_wake (engaged_modGroup (.rfl' s c) _) c

theorem group_setRing (c n : Nat) (r : Ring) (s : State) :
    (setRing c n r s).group c = { s.group c with rings := Tab.put (s.group c).rings n r } := by
  rw [setRing, group_wake, group_modGroup]

section
variable {r : Ring} (h : GroupReady f s l) (hring : Tab.find (s.group (s.coreOf l.th)).rings (ringOf f) = some r)
include h hring

theorem rget_eq : rget f s = if r.f = 0 then waitAll f .engine s
    else doneWith f (val32 (BitVec.ofNat 32 (r.slotAt r.rd))) (setRing (s.coreOf l.th) (ringOf f) r.take.2 s) :=
  withRing_of_some h hring rfl

theorem rputRes_eq : rputRes f s = if r.e = 0 then waitAll f .engine s
    else doneWith f (val32 (BitVec.ofNat 32 (r.slotAt r.wr))) (setRing (s.coreOf l.th) (ringOf f) (r.reserve true).2 s) :=
  withRing_of_some h hring rfl

theorem rputPub_eq {x : Nat × Bool × Bool} (hx : r.resv.find? (fun x => x.2.1 && !x.2.2) = some x) :
    rputPub f s = advance (setRing (s.coreOf l.th) (ringOf f) (r.ready x.1) s) :=
  withRing_of_some h hring (by rw [hx, Option.map_some])

theorem rrel_eq {k : Nat} {ts : List Nat} (htaken : r.taken = k :: ts) :
    rrel f s = advance (setRing (s.coreOf l.th) (ringOf f) { r with taken := ts, e := r.e + 1 } s) :=
  withRing_of_some h hring (by rw [htaken])

end

/-- An instruction that changes the ring and gives its wave a result. -/
theorem ring_answers {o : LaneOut} {r' : Ring} (h : GroupReady f s l)
    (hi : exec i s = .next (doneWith f o (setRing (s.coreOf l.th) (ringOf f) r' s))) :
    ∃ t, exec i s = .next t ∧ GroupDone f s t l o ∧ t.group (s.coreOf l.th) =
      { s.group (s.coreOf l.th) with rings := Tab.put (s.group (s.coreOf l.th)).rings (ringOf f) r' } := by
  rw [← group_setRing]
  exact group_answers h (engaged_setRing _ _ _ s) hi

theorem ring_advances {r' : Ring} (h : GroupReady f s l)
    (hi : exec i s = .next (advance (setRing (s.coreOf l.th) (ringOf f) r' s))) :
    ∃ t, exec i s = .next t ∧ GroupDone f s t l .none ∧ t.group (s.coreOf l.th) =
      { s.group (s.coreOf l.th) with rings := Tab.put (s.group (s.coreOf l.th)).rings (ringOf f) r' } := by
  rw [← group_setRing]
  exact group_advances h (engaged_setRing _ _ _ s) hi

theorem rstat_eq (h : GroupReady f s l) :
    rstat f s = doneWith f (val32 (ringStat (Tab.find (s.group (s.coreOf l.th)).rings (ringOf f)))) s :=
  withGroup_of_some h rfl

end

/-! ### A ring placed (R257, R259) -/

/-- The geometry word of a ring gives back its size in units and its slots, and no other bit is set. -/
theorem geometry_fields {units slots : Nat} (hunits : units ≤ 1024) (hslots : slots ≤ 64) :
    ((BitVec.ofNat 32 (65536 * slots + units)).extractLsb' 0 16).toNat = units ∧
      ((BitVec.ofNat 32 (65536 * slots + units)).extractLsb' 16 7).toNat = slots ∧
      (BitVec.ofNat 32 (65536 * slots + units)).extractLsb' 23 9 = 0 := by
  refine ⟨?_, ?_, BitVec.eq_of_toNat_eq ?_⟩ <;>
    simp only [BitVec.extractLsb'_toNat, BitVec.toNat_ofNat, BitVec.ofNat_eq_ofNat, Nat.shiftRight_eq_div_pow] <;> omega

/-- The ring that RINIT makes of a base, a slot size in units of 64 bytes and a slot count. -/
def freshRing (base units slots : Nat) : Ring := { base := base, size := units * 64, n := slots, e := slots }

/-- A core without ring n, the team's pages following its ring table. -/
def withoutRing (c team n : Nat) (s : State) : State :=
  repin c team (s.modGroup c fun g => { g with rings := Tab.del g.rings n })

/-- A core with a ring n in place of any former one. -/
def withRingAt (c team n : Nat) (r : Ring) (s : State) : State :=
  repin c team ((withoutRing c team n s).modGroup c fun g => { g with rings := Tab.put g.rings n r })

theorem rinitOne_of_fits {c team n base units slots : Nat} {s : State} (hfree : Tab.find (s.group c).rings n = none)
    (hbase : base % 64 = 0) (hunits : 1 ≤ units ∧ units ≤ 1024) (hslots : 1 ≤ slots ∧ slots ≤ 64)
    (hend : base + units * 64 * slots ≤ scratchSize s team)
    (hpins : pinFits (withoutRing c team n s) c team (freshRing base units slots).pages = true) :
    rinitOne c team n base (BitVec.ofNat 32 (65536 * slots + units)) s =
      some (withRingAt c team n (freshRing base units slots) s) := by
  obtain ⟨hu, hn, hrest⟩ := geometry_fields hunits.2 hslots.2
  have hgeo : BitVec.ofNat 32 (65536 * slots + units) ≠ 0 := fun h0 => by
    rw [h0] at hu
    have hzero : 0 = units := hu
    omega
  have hshape : ¬ (base % 64 ≠ 0 ∨ units < 1 ∨ units > 1024 ∨ slots < 1 ∨ slots > 64 ∨
      base + units * 64 * slots > scratchSize s team) := by omega
  rw [withoutRing, freshRing] at hpins
  unfold rinitOne
  simp only [hfree, hu, hn, hrest, hgeo, hshape, hpins, bne_self_eq_false, Bool.or_self, Bool.not_true, Bool.false_eq_true, if_false]
  rfl

theorem stirred_repin {s u : State} (h : Stirred s u) (c team : Nat) : Stirred s (repin c team u) := by
  rw [repin, modTeam_eq]
  exact ⟨h.waves, h.cur, h.thr⟩

theorem group_repin (c team : Nat) (u : State) (d : Nat) : (repin c team u).group d = u.group d := by
  rw [repin, modTeam_eq]
  rfl

theorem mem_repin (c team : Nat) (u : State) : (repin c team u).mem = u.mem := by
  rw [repin, modTeam_eq]

theorem stirred_withRingAt (c team n : Nat) (r : Ring) (s : State) : Stirred s (withRingAt c team n r s) :=
  stirred_repin (stirred_modCore (stirred_repin (stirred_modCore (.rfl' s) _ _) _ _) _ _) _ _

theorem mem_withRingAt (c team n : Nat) (r : Ring) (s : State) : (withRingAt c team n r s).mem = s.mem :=
  (mem_repin ..).trans (mem_repin ..)

theorem find_withRingAt (c team n : Nat) (r : Ring) (s : State) :
    Tab.find ((withRingAt c team n r s).group c).rings n = some r := by
  rw [withRingAt, group_repin, group_modGroup, tab_find_put_self]

/-- The wave's RINIT gives an unused ring a geometry that its team's scratchpad and the frames of its core have room for. -/
structure RingFits (f : Fields) (s : State) (l : Lane) (base units slots : Nat) : Prop where
  unused : Tab.find (s.group (s.coreOf l.th)).rings (ringOf f) = none
  operand : base = (src32 s f l f.a).toNat
  geometry : src32 s f l f.b = BitVec.ofNat 32 (65536 * slots + units)
  aligned : base % 64 = 0
  sized : 1 ≤ units ∧ units ≤ 1024
  counted : 1 ≤ slots ∧ slots ≤ 64
  inside : base + units * 64 * slots ≤ scratchSize s s.hereTeam
  pins : pinFits (withoutRing (s.coreOf l.th) s.hereTeam (ringOf f) s) (s.coreOf l.th) s.hereTeam (freshRing base units slots).pages = true

section
variable {f : Fields} {s u : State} {l : Lane} {base units slots : Nat} (h : GroupReady f s l) (hfits : RingFits f s l base units slots)
  (hu : u = withRingAt (s.coreOf l.th) s.hereTeam (ringOf f) (freshRing base units slots) s)
include h hfits hu

theorem rinit_places (hpages : missingPages s s.hereTeam (ringPages u (s.coreOf l.th)) = []) : rinit f s = advance u := by
  obtain ⟨hfree, ha, hb, h64, hunits, hslots, hend, hpins⟩ := hfits
  refine withGroup_of_some h ?_
  rw [← ha, hb, rinitOne_of_fits hfree h64 hunits hslots hend hpins, Option.map_some, ← hu, hpages]

theorem rinit_waits {p : Nat × Nat} {ps : List (Nat × Nat)} (hpages : missingPages s s.hereTeam (ringPages u (s.coreOf l.th)) = p :: ps) :
    rinit f s = waitPages f (p :: ps) s := by
  obtain ⟨hfree, ha, hb, h64, hunits, hslots, hend, hpins⟩ := hfits
  refine withGroup_of_some h ?_
  rw [← ha, hb, rinitOne_of_fits hfree h64 hunits hslots hend hpins, Option.map_some, ← hu, hpages]

end

/-! ### Sinks (R261 to R263) -/

section
variable {f : Fields} {s : State} {l : Lane}

theorem group_pulse (c k : Nat) (s : State) : (pulse c k s).group c = (s.group c).pulsed k := by
  rw [pulse, group_wake, group_modGroup]

theorem group_setSink (c k : Nat) (x : Sink) (s : State) :
    (setSink c k x s).group c = { s.group c with sinks := Tab.put (s.group c).sinks k x } := group_modGroup ..

theorem evsig_eq (h : GroupReady f s l) : evsig f s = advance (pulse (s.coreOf l.th) (8 + (f.imm.extractLsb' 0 2).toNat) s) :=
  withGroup_of_some h rfl

/-- The sink that EVMAP registers: it counts nothing yet, and its address is the register of its action. -/
def mappedSink (f : Fields) (s : State) (l : Lane) : Sink :=
  { mask := f.imm.extractLsb' 16 16, act := (f.imm.extractLsb' 4 2).toNat, form := (f.imm.extractLsb' 6 3).toNat, scope := scopeOf f
    addr := if (f.imm.extractLsb' 4 2).toNat = 1 then reg64 l.th f.a
      else if (f.imm.extractLsb' 4 2).toNat = 2 then (reg32 l.th f.a).setWidth 64 else 0
    epc := (s.wave s.curWave).pc, quad := (s.wave s.curWave).quad, slot := (s.wave s.curWave).slot }

theorem evmap_eq (h : GroupReady f s l) :
    evmap f s = advance (setSink (s.coreOf l.th) (f.imm.extractLsb' 0 4).toNat (mappedSink f s l) s) :=
  withGroup_of_some h rfl

theorem mappedSink_addr (f : Fields) (s : State) (l : Lane) :
    ((mappedSink f s l).act = 1 → (mappedSink f s l).addr = reg64 l.th f.a) ∧
      ((mappedSink f s l).act = 2 → (mappedSink f s l).addr = (reg32 l.th f.a).setWidth 64) := by
  simp only [mappedSink]
  exact ⟨fun h => if_pos h, fun h => by rw [if_neg (by omega), if_pos h]⟩

/-- A COUNT sink after a wait has taken its counts and read its overflow mark. -/
def takenSink (x : Sink) (n : Nat) : Sink := { x with cnt := x.cnt - n, ovf := false }

/-- The machine as counts are taken from a sink whose overflow mark is then cleared. -/
def withTaken (c k n : Nat) (s : State) : State :=
  setSink c k (takenSink (sinkOf s c k) n) (setSink c k { sinkOf s c k with cnt := (sinkOf s c k).cnt - n } s)

theorem sinkOf_setSink (c k : Nat) (x : Sink) (s : State) : sinkOf (setSink c k x s) c k = x := by
  rw [sinkOf, group_setSink, tab_get_put_self]

theorem takeCounts_of_enough {c k n : Nat} (hcnt : n ≤ (sinkOf s c k).cnt) :
    takeCounts c k n s = some (setSink c k { sinkOf s c k with cnt := (sinkOf s c k).cnt - n } s) :=
  if_neg (Nat.not_lt.2 hcnt)

/-- The value that EVWAIT answers: the rest of its sink's counts, and whether one was lost. -/
def restOf (x : Sink) (n : Nat) : LaneOut := val32 (BitVec.ofNat 32 (x.ovf.toNat * 256 + (x.cnt - n)))

section
variable (h : GroupReady f s l) (hact : (sinkOf s (s.coreOf l.th) (f.imm.extractLsb' 0 4).toNat).act = 0)
include h hact

theorem evwait_takes (hcnt : evCount f ≤ (sinkOf s (s.coreOf l.th) (f.imm.extractLsb' 0 4).toNat).cnt) :
    evwait f s = doneWith f (restOf (sinkOf s (s.coreOf l.th) (f.imm.extractLsb' 0 4).toNat) (evCount f))
      (withTaken (s.coreOf l.th) (f.imm.extractLsb' 0 4).toNat (evCount f) s) := by
  have ⟨_, hwave, _, _⟩ := h
  rw [evwait, hwave, if_neg Bool.false_ne_true]
  refine withGroup_of_some h ?_
  rw [if_neg (not_not.2 hact), takeCounts_of_enough hcnt]
  simp only [sinkOf_setSink]
  rfl

theorem evwait_waits (hcnt : (sinkOf s (s.coreOf l.th) (f.imm.extractLsb' 0 4).toNat).cnt < evCount f) :
    evwait f s = waitAll f .engine s := by
  have ⟨_, hwave, _, _⟩ := h
  have hnone : takeCounts (s.coreOf l.th) (f.imm.extractLsb' 0 4).toNat (evCount f) s = none := if_pos hcnt
  rw [evwait, hwave, if_neg Bool.false_ne_true]
  refine withGroup_of_some h ?_
  rw [if_neg (not_not.2 hact), hnone]

end

theorem engaged_withTaken (c k n : Nat) (s : State) : Engaged s (withTaken c k n s) c :=
  engaged_setSink (engaged_setSink (.rfl' s c) _ _) _ _

theorem find_sinks_withTaken (c k n : Nat) (s : State) (j : Nat) : Tab.find ((withTaken c k n s).group c).sinks j =
    if j = k then some (takenSink (sinkOf s c k) n) else Tab.find (s.group c).sinks j := by
  rw [withTaken, group_setSink, tab_find_put]
  split
  · rfl
  · next hj => rw [group_setSink, tab_find_put_ne _ hj]

end

/-! ### The statement -/

theorem exec_rget (f : Fields) (s : State) : exec (.rget f) s = .next (rget f s) := rfl
theorem exec_rputRes (f : Fields) (s : State) : exec (.rputRes f) s = .next (rputRes f s) := rfl
theorem exec_rputPub (f : Fields) (s : State) : exec (.rputPub f) s = .next (rputPub f s) := rfl
theorem exec_rrel (f : Fields) (s : State) : exec (.rrel f) s = .next (rrel f s) := rfl
theorem exec_rstat (f : Fields) (s : State) : exec (.rstat f) s = .next (rstat f s) := rfl
theorem exec_evsig (f : Fields) (s : State) : exec (.evsig f) s = .next (evsig f s) := rfl
theorem exec_evmap (f : Fields) (s : State) : exec (.evmap f) s = .next (evmap f s) := rfl
theorem exec_eventPulse (c k : Nat) (s : State) : exec (.eventPulse c k) s = .next (pulse c k s) := rfl

/-- Settles O31: an instruction on a ring that its team owns changes that ring alone (`ring_answers`, `ring_advances`) or waits; RINIT
is `rinit_places` and `rinit_waits`, and the counts of a sink are `evwait_takes` and `evwait_waits`.
The one result in every executing thread is log entry 14. -/
theorem ringsAndEvents : Obligations.RingsAndEvents := by
  unfold Obligations.RingsAndEvents
  refine ⟨fun f s l h => ⟨fun r hr hf => ?_, fun r hr hf => ?_, fun r hr he => ?_, fun r hr he => ?_, fun r x hr hx => ?_,
    fun r k ts hr hk => ?_, ?_, fun hr => ?_, fun base units slots hr ha hb h64 hu1 hu2 hn1 hn2 hend => ?_, ?_, ?_, ?_⟩,
    fun c k s => ?_⟩
  · exact ring_answers h (by rw [exec_rget, rget_eq h hr, if_neg hf]; rfl)
  · exact group_waits h (by rw [exec_rget, rget_eq h hr, if_pos hf])
  · exact ring_answers h (by rw [exec_rputRes, rputRes_eq h hr, if_neg he]; rfl)
  · exact group_waits h (by rw [exec_rputRes, rputRes_eq h hr, if_pos he])
  · exact ring_advances h (by rw [exec_rputPub, rputPub_eq h hr hx])
  · exact ring_advances h (by rw [exec_rrel, rrel_eq h hr hk])
  · obtain ⟨t, ht, hdone, hgroup⟩ := group_answers (i := .rstat f) h (.rfl' s _) (by rw [exec_rstat, rstat_eq h])
    exact ⟨t, ht, hgroup, hdone⟩
  · exact ⟨congrArg Host.Outcome.next (withRing_of_inactive _ h hr), congrArg Host.Outcome.next (withRing_of_inactive _ h hr),
      congrArg Host.Outcome.next (withRing_of_inactive _ h hr), congrArg Host.Outcome.next (withRing_of_inactive _ h hr)⟩
  · intro s0 r s1 hpins
    have hfits : RingFits f s l base units slots := ⟨hr, ha, hb, h64, ⟨hu1, hu2⟩, ⟨hn1, hn2⟩, hend, hpins⟩
    refine ⟨fun hpages => ?_, fun p ps hpages => congrArg Host.Outcome.next (rinit_waits h hfits rfl hpages)⟩
    refine ⟨advance s1, congrArg Host.Outcome.next (rinit_places h hfits rfl hpages), doneOn_advance h.1 (stirred_withRingAt _ _ _ r s),
      (advance_mem s1).trans (mem_withRingAt ..), ?_⟩
    rw [group_advance]
    exact find_withRingAt ..
  · obtain ⟨t, ht, hdone, hgroup⟩ := group_advances (i := .evsig f) h (engaged_pulse (.rfl' s _) _) (by rw [exec_evsig, evsig_eq h])
    exact ⟨t, ht, hdone, hgroup.trans (group_pulse ..)⟩
  · obtain ⟨t, ht, hdone, hgroup⟩ := group_advances (i := .evmap f) h (engaged_setSink (.rfl' s _) _ _) (by rw [exec_evmap, evmap_eq h])
    obtain ⟨hreg, hoff⟩ := mappedSink_addr f s l
    exact ⟨t, ht, hdone, mappedSink f s l, hgroup.trans (group_setSink ..), rfl, rfl, rfl, rfl, rfl, hreg, hoff⟩
  · intro k n x hx hact
    subst hx
    refine ⟨fun hcnt => ?_, fun hcnt => group_waits h (congrArg Host.Outcome.next (evwait_waits h hact hcnt))⟩
    obtain ⟨t, ht, hdone, hgroup⟩ :=
      group_answers (i := .evwait f) h (engaged_withTaken _ _ _ s) (congrArg Host.Outcome.next (evwait_takes h hact hcnt))
    refine ⟨t, ht, hdone, ?_, fun j hj => ?_⟩
    · rw [hgroup, find_sinks_withTaken, if_pos rfl]
      rfl
    · rw [hgroup, find_sinks_withTaken, if_neg hj]
  · have hpulse : Engaged s (pulse c k s) c := engaged_pulse (.rfl' s c) k
    exact ⟨_, exec_eventPulse c k s, hpulse.one, engaged_keeps hpulse, group_pulse c k s⟩

end Sys2Proof.Proofs
end

section
/-!
PROOFS. The loop-control processor (spec 12 R264, R267, R268) and the fetch of an engine program (spec 08 R153, 12 R265).
-/
namespace Sys2Proof.Proofs
open Machine Laws

/-! ### The processor's own state -/

/-- A transition that leaves everything but one core's loop-control processor, as which it has left a given state. -/
theorem lcp_becomes {i : Instr} {s t : State} {c : Nat} {x : Lcp} (hi : exec i s = .next t) (ht : Engaged s t c) (hx : t.lcp c = x) :
    ∃ t, exec i s = .next t ∧ (OneCore s t c ∧ ∀ k, KeepsThread s t k) ∧ t.lcp c = x :=
  ⟨t, hi, ⟨ht.one, engaged_keeps ht⟩, hx⟩

theorem lcp_setProgPc_lcp (c : Nat) (pc : DWord) (u : State) :
    (setProgPc c .lcp pc u).lcp c = { u.lcp c with prog := (u.lcp c).prog.map fun p => (pc, p.2) } := lcp_modLcp u c _

theorem lcpEnd_spec (c : Nat) (s : State) :
    Engaged s (lcpEnd c s) c ∧ (lcpEnd c s).lcp c = { s.lcp c with prog := none, loops := [], closed := false } :=
  ⟨engaged_wake (engaged_modLcp (.rfl' s c) _) c, by rw [lcpEnd, lcp_wake, lcp_modLcp]⟩

section
variable {i : Instr} {f : Fields} {s u : State} {c : Nat} {pc start : DWord}

theorem inLcp_at (hcur : s.cur = .engine c .lcp) (k : Nat → Lcp → State → State) : inLcp k s = k c (s.lcp c) s := by
  rw [inLcp, hcur]

/-- After a change of its engine group that keeps the program, the processor's program goes on at the successor. -/
theorem engineNext_lcp (hcur : s.cur = .engine c .lcp) (hu : Engaged s u c) (hprog : (u.lcp c).prog = some (pc, start)) :
    Engaged s (engineNext u) c ∧ (engineNext u).lcp c = { u.lcp c with prog := some (succPc pc, start) } := by
  rw [engineNext_at ((engaged_cur hu).trans hcur) (by rw [progPc, hprog, Option.map_some])]
  refine ⟨engaged_setProgPc hu _ _, ?_⟩
  rw [lcp_setProgPc_lcp, hprog, Option.map_some]

/-- An instruction that changes the processor's state, but not its program, and goes on at the successor. -/
theorem lcp_proceeds (hcur : s.cur = .engine c .lcp) (hprog : (s.lcp c).prog = some (pc, start)) {g : Lcp → Lcp}
    (hi : exec i s = .next (engineNext (s.modLcp c g))) (hg : (g (s.lcp c)).prog = (s.lcp c).prog) :
    ∃ t, exec i s = .next t ∧ (OneCore s t c ∧ ∀ k, KeepsThread s t k) ∧
      t.lcp c = { g (s.lcp c) with prog := some (succPc pc, start) } := by
  obtain ⟨hengaged, hlcp⟩ := engineNext_lcp (start := start) hcur (engaged_modLcp (.rfl' s c) g) (by rw [lcp_modLcp, hg, hprog])
  exact lcp_becomes hi hengaged (by rw [hlcp, lcp_modLcp])

/-- A processor that stops with a cause has its trap counted and queued, and no thread stops (R267). -/
theorem lcp_stops {cause : Byte} {addr : DWord} {w : IWord} (hi : exec i s = .next (programFault c .lcp cause addr w s)) :
    ∃ t, exec i s = .next t ∧ (OneCore s t c ∧ ∀ k, KeepsThread s t k) ∧ t.lcp c = { s.lcp c with halt := some cause } := by
  have hstirred : Stirred s (programFault c .lcp cause addr w s) := ⟨rfl, rfl, fun _ => .inl rfl⟩
  refine ⟨_, hi, ⟨?_, stirred_keeps hstirred⟩, ?_⟩
  · unfold programFault programFaultWith engineTrap State.countTraps State.modLcp State.modGroup
    exact oneCore_modCore (oneCore_modCore (oneCore_modCore (oneCore_refl s c) _) _) _
  · rw [← lcp_modLcp s c fun x => { x with halt := some cause }]
    simp only [programFault, programFaultWith, engineTrap, State.countTraps, State.lcp, State.group, core_modCore, if_true]

/-! ### The instructions of the processor (R264) -/

/-- The permits of an engine that EMIT or PERMW names are taken: bit 0 names the matrix engine, and its absence the copy engine. -/
def outOf (f : Fields) (x : Lcp) : Nat := if f.imm.getLsbD 0 then x.outM else x.outC

/-- The processor after it has handed its iteration words to the engine that EMIT names, with a permit of that engine. -/
def emitted (f : Fields) (x : Lcp) : Lcp :=
  if f.imm.getLsbD 0 then { x with outM := x.outM + 1, recM := x.recM ++ [⟨x.a, f.imm.getLsbD 1⟩] }
  else { x with outC := x.outC + 1, recC := x.recC ++ [⟨x.a, f.imm.getLsbD 1⟩] }

theorem prog_emitted (f : Fields) (x : Lcp) : (emitted f x).prog = x.prog := by
  unfold emitted
  split <;> rfl

section
variable (hcur : s.cur = .engine c .lcp)
include hcur

theorem loopL_opens (hprog : (s.lcp c).prog = some (pc, start)) (hcount : (f.imm.extractLsb' 0 16).toNat ≠ 0)
    (hlevels : (s.lcp c).loops.length < 5) : loopL f s =
      engineNext (s.modLcp c fun x => { x with loops := (succPc pc, (f.imm.extractLsb' 0 16).toNat) :: x.loops, closed := false }) := by
  rw [loopL, inLcp_at hcur]
  simp only [if_neg hcount, if_neg (Nat.not_le.2 hlevels), progPc, hprog, Option.map_some, Option.getD_some]

theorem loopL_stops (hcount : (f.imm.extractLsb' 0 16).toNat ≠ 0) (hlevels : 5 ≤ (s.lcp c).loops.length) :
    loopL f s = programFault c .lcp 0x4A 0 (engineWord (.loopL f)) s := by
  rw [loopL, inLcp_at hcur]
  simp only [if_neg hcount, if_pos hlevels]
  rfl

/-- An empty loop is passed over, to the address after its ENDL. -/
theorem loopL_skips {a : DWord} (hprog : (s.lcp c).prog = some (pc, start)) (hcount : (f.imm.extractLsb' 0 16).toNat = 0)
    (hend : afterEndl c s 65536 (succPc pc) 0 = .ok a) : loopL f s = setProgPc c .lcp a s := by
  rw [loopL, inLcp_at hcur]
  simp only [if_pos hcount, progPc, hprog, Option.map_some, Option.getD_some, hend]

theorem endl_repeats {a : DWord} {k : Nat} {r : List (DWord × Nat)} (hloops : (s.lcp c).loops = (a, k) :: r) (hk : 1 < k) :
    endl f s = setProgPc c .lcp a (s.modLcp c fun x => { x with loops := (a, k - 1) :: r }) := by
  rw [endl, inLcp_at hcur]
  simp only [hloops, if_pos hk]

theorem endl_closes {a : DWord} {k : Nat} {r : List (DWord × Nat)} (hloops : (s.lcp c).loops = (a, k) :: r) (hk : k ≤ 1) :
    endl f s = wakeEngine c (engineNext (s.modLcp c fun x => { x with loops := r, closed := r.isEmpty })) := by
  rw [endl, inLcp_at hcur]
  simp only [hloops, if_neg (Nat.not_lt.2 hk)]

theorem endl_stops (hloops : (s.lcp c).loops = []) : endl f s = programFault c .lcp 0x4A 0 (engineWord (.endl f)) s := by
  rw [endl, inLcp_at hcur]
  simp only [hloops]
  rfl

theorem emit_eq : emit f s = if 32 ≤ outOf f (s.lcp c) then s else engineNext (s.modLcp c (emitted f)) := by
  rw [emit, inLcp_at hcur]
  unfold outOf emitted
  cases f.imm.getLsbD 0 <;> rfl

/-- With a permit, EMIT takes it and goes on. -/
theorem emit_proceeds (hprog : (s.lcp c).prog = some (pc, start)) (hroom : outOf f (s.lcp c) < 32) :
    ∃ t, exec (.emit f) s = .next t ∧ (OneCore s t c ∧ ∀ k, KeepsThread s t k) ∧
      t.lcp c = { emitted f (s.lcp c) with prog := some (succPc pc, start) } :=
  lcp_proceeds hcur hprog (congrArg Host.Outcome.next ((emit_eq hcur).trans (if_neg (Nat.not_le.2 hroom)))) (prog_emitted f _)

theorem permw_eq : permw f s =
    if (f.imm.extractLsb' 1 6).toNat ≤ 32 - outOf f (s.lcp c) then engineNext s else s := by
  rw [permw, inLcp_at hcur]
  rfl

theorem lset_eq : lset f s = engineNext (s.modLcp c fun x =>
    { x with
      a := x.a.setIfInBounds (f.mod.extractLsb' 0 3).toNat
        (if f.mod.getLsbD 3 then x.a.getD (f.mod.extractLsb' 0 3).toNat 0 + f.imm else f.imm) }) := by
  rw [lset, inLcp_at hcur]

theorem lend_eq : lend f s = lcpEnd c s := by
  rw [lend, inLcp_at hcur]

end
end

/-! ### LCP_CTL (R267) -/

section
variable {s : State} {c : Nat}

theorem lcpHalted_of_halted {h : Byte} (hh : (s.lcp c).halt = some h) (k : State → State) :
    lcpHalted c k s = wakeEngine c (k (s.modLcp c fun x => { x with halt := none })) := by
  rw [lcpHalted, hh, Option.isSome_some, if_pos rfl]

theorem lcpHalted_of_running (hh : (s.lcp c).halt = none) (k : State → State) : lcpHalted c k s = s := by
  rw [lcpHalted, hh, Option.isSome_none, if_neg Bool.false_ne_true]

/-- A control bit that acts on the halted processor. -/
theorem control_acts {i : Instr} {h : Byte} {k : State → State} {x : Lcp} (hh : (s.lcp c).halt = some h)
    (hi : exec i s = .next (lcpHalted c k s))
    (hk : ∀ u, Engaged s u c → u.lcp c = { s.lcp c with halt := none } → Engaged s (k u) c ∧ (k u).lcp c = x) :
    ∃ t, exec i s = .next t ∧ (OneCore s t c ∧ ∀ k, KeepsThread s t k) ∧ t.lcp c = x := by
  obtain ⟨hengaged, hlcp⟩ := hk _ (engaged_modLcp (.rfl' s c) fun x => { x with halt := none }) (lcp_modLcp ..)
  rw [lcpHalted_of_halted hh] at hi
  exact lcp_becomes hi (engaged_wake hengaged c) (by rw [lcp_wake, hlcp])

theorem resume_acts {h : Byte} (hh : (s.lcp c).halt = some h) :
    ∃ t, exec (.lcpCtlResume c) s = .next t ∧ (OneCore s t c ∧ ∀ k, KeepsThread s t k) ∧ t.lcp c = { s.lcp c with halt := none } :=
  control_acts (k := fun s => s) hh rfl fun _ hengaged hlcp => ⟨hengaged, hlcp⟩

/-- The program goes on behind the instruction that stopped it. -/
theorem skip_acts {h : Byte} {pc start : DWord} (hh : (s.lcp c).halt = some h) (hprog : (s.lcp c).prog = some (pc, start)) :
    ∃ t, exec (.lcpCtlSkip c) s = .next t ∧ (OneCore s t c ∧ ∀ k, KeepsThread s t k) ∧
      t.lcp c = { s.lcp c with halt := none, prog := some (succPc pc, start) } := by
  refine control_acts hh (k := fun s => match (s.lcp c).prog with | some p => setProgPc c .lcp (succPc p.1) s | none => s) rfl
    fun u hengaged hlcp => ?_
  have hu : (u.lcp c).prog = some (pc, start) := by rw [hlcp, hprog]
  simp only [hu]
  refine ⟨engaged_setProgPc hengaged _ _, ?_⟩
  rw [lcp_setProgPc_lcp, hu, hlcp, Option.map_some]

theorem abort_acts {h : Byte} (hh : (s.lcp c).halt = some h) :
    ∃ t, exec (.lcpCtlAbort c) s = .next t ∧ (OneCore s t c ∧ ∀ k, KeepsThread s t k) ∧
      t.lcp c = { s.lcp c with halt := none, prog := none, loops := [], closed := false } := by
  refine control_acts hh (k := lcpEnd c) rfl fun u hengaged hlcp => ⟨engaged_wake (engaged_modLcp hengaged _) c, ?_⟩
  rw [(lcpEnd_spec c u).2, hlcp]

end

/-! ### The fetch of an engine program (R153, R265) -/

/-- A running engine that fetches a word it may hold runs the instruction that the word decodes to. -/
theorem engineProgramFetch_runs {s u : State} {c : Nat} {e : Engine} {pc : DWord} {w : IWord} {btm : Bool} {i : Instr}
    (hthaw : s.guidon.frozen = false) (hruns : engineHalted s c e = false) (hpc : progPc s c e = some pc)
    (hpass : e = .copy → (s.cpe c).looped = true → (s.cpe c).held ≠ none) (hfetch : engineFetch c pc s = (.ok (w, btm), u))
    (hstart : atStart s c e pc = true → btm = true) (hdecode : decodeWord (engineEnv s c e) w = .ok i) :
    engineProgramFetch c e s = { runProgram i { u with cur := .engine c e } with cur := .none } := by
  have hrecord : (decide (e = .copy) && (s.cpe c).looped && (s.cpe c).held.isNone) = false := by
    rw [Bool.eq_false_iff, ne_eq, Bool.and_eq_true, Bool.and_eq_true, decide_eq_true_eq, Option.isNone_iff_eq_none]
    exact fun ⟨⟨hcopy, hlooped⟩, hnone⟩ => hpass hcopy hlooped hnone
  have hmark : (atStart s c e pc && !btm) = false := by
    cases hs : atStart s c e pc with
    | false => rfl
    | true => rw [hstart hs]; rfl
  unfold engineProgramFetch
  simp only [hthaw, hruns, hpc, hfetch, hdecode, hmark, hrecord, Bool.or_self, Bool.false_eq_true, if_false]

/-! ### The statement -/

/-- Settles O33: each instruction of the processor is a change of its own state, after which its program goes on (`lcp_proceeds`) or has
stopped (`lcp_stops`); a fetch is `engineProgramFetch_runs`, and what it runs is what `exec` gives (`runProgram_exec`). -/
theorem loopProcessor : Obligations.LoopProcessor := by
  unfold Obligations.LoopProcessor
  refine ⟨fun f s c pc start hcur hprog => ?_, fun s c => ⟨fun h hh => ?_, fun hh => ?_⟩,
    fun s u v c e pc w btm i hthaw hruns hpc hpass hfetch hstart hdecode hmay => ⟨fun hnop hexec => ?_, fun g hnop => ?_⟩⟩
  · refine ⟨fun hn hlevels => ?_, fun hn hlevels => ?_, fun a hn hend => ?_, fun a k r hloops hk => ?_, fun a k r hloops hk => ?_,
      fun hloops => ?_, fun hm hroom => ?_, fun hm hroom => ?_, fun hfull => ?_, fun hpermits => ?_, fun hpermits => ?_, ?_, ?_⟩
    · exact lcp_proceeds (i := .loopL f) hcur hprog (congrArg Host.Outcome.next (loopL_opens hcur hprog hn hlevels)) rfl
    · exact lcp_stops (congrArg Host.Outcome.next (loopL_stops hcur hn hlevels))
    · exact lcp_becomes (congrArg Host.Outcome.next (loopL_skips hcur hprog hn hend)) (engaged_setProgPc (.rfl' s c) _ _)
        (by rw [lcp_setProgPc_lcp, hprog, Option.map_some])
    · exact lcp_becomes (congrArg Host.Outcome.next (endl_repeats hcur hloops hk))
        (engaged_setProgPc (engaged_modLcp (.rfl' s c) _) _ _) (by rw [lcp_setProgPc_lcp, lcp_modLcp, hprog, Option.map_some])
    · obtain ⟨hengaged, hlcp⟩ := engineNext_lcp (start := start) (pc := pc) hcur
        (engaged_modLcp (.rfl' s c) fun x => { x with loops := r, closed := r.isEmpty }) (by rw [lcp_modLcp, hprog])
      exact lcp_becomes (congrArg Host.Outcome.next (endl_closes hcur hloops hk)) (engaged_wake hengaged c)
        (by rw [lcp_wake, hlcp, lcp_modLcp])
    · exact lcp_stops (congrArg Host.Outcome.next (endl_stops hcur hloops))
    · have hemit := emit_proceeds (f := f) hcur hprog (by rwa [outOf, if_pos hm])
      rwa [emitted, if_pos hm] at hemit
    · have hcopy : ¬ f.imm.getLsbD 0 = true := by rw [hm]; exact Bool.false_ne_true
      have hemit := emit_proceeds (f := f) hcur hprog (by rwa [outOf, if_neg hcopy])
      rwa [emitted, if_neg hcopy] at hemit
    · exact congrArg Host.Outcome.next ((emit_eq hcur).trans (if_pos hfull))
    · obtain ⟨hengaged, hlcp⟩ := engineNext_lcp hcur (.rfl' s c) hprog
      exact lcp_becomes (congrArg Host.Outcome.next ((permw_eq hcur).trans (if_pos hpermits))) hengaged hlcp
    · exact congrArg Host.Outcome.next ((permw_eq hcur).trans (if_neg (Nat.not_le.2 hpermits)))
    · exact lcp_proceeds (i := .lset f) hcur hprog (congrArg Host.Outcome.next (lset_eq hcur)) rfl
    · obtain ⟨hengaged, hlcp⟩ := lcpEnd_spec c s
      exact lcp_becomes (congrArg Host.Outcome.next (lend_eq hcur)) hengaged hlcp
  · exact ⟨resume_acts hh, fun pc start hprog => skip_acts hh hprog, abort_acts hh⟩
  · exact ⟨congrArg Host.Outcome.next (lcpHalted_of_running hh _), congrArg Host.Outcome.next (lcpHalted_of_running hh _),
      congrArg Host.Outcome.next (lcpHalted_of_running hh _)⟩
  · have hrun := runProgram_exec i e hmay hnop { u with cur := .engine c e }
    rw [hexec, Host.Outcome.next.injEq] at hrun
    rw [hrun]
    exact congrArg Host.Outcome.next (engineProgramFetch_runs hthaw hruns hpc hpass hfetch hstart hdecode)
  · subst hnop
    exact congrArg Host.Outcome.next (engineProgramFetch_runs hthaw hruns hpc hpass hfetch hstart hdecode)

end Sys2Proof.Proofs
end

section
/-!
PROOFS. Copies that a wave submits (spec 12 R244 to R249): the descriptor read, the copy it describes, and its place in the queue or
its fault.
-/
namespace Sys2Proof.Proofs
open Machine Laws

/-! ### The descriptor (R244, R248) -/

/-- A wave's copy instruction whose descriptor stands at a place that can be read at once. -/
structure DescAt (f : Fields) (s : State) (l : Lane) (p : Loc) : Prop where
  issuing : Issuing s
  wave : s.inEngine = false
  lead : (s.execLanes f).head? = some l
  place : descLoc f s l = .ok p
  ready : locWait s false p = none
  sound : p.poisoned s = false
  plain : PlainLoc s p

/-- The copy that a wave's instruction describes: its descriptor's fields, and where it was issued. -/
def waveDesc (f : Fields) (form : Nat) (op : Byte) (bs : List Byte) (w : Wave) (team : Nat) (s : State) : Copy :=
  { descCopy bs form s team with
    scope := scopeOf f, hint := f.mod.extractLsb' 4 2, quad := w.quad, slot := w.slot, epc := w.pc, op := op, fn := f.fn }

/-- The wave once its copy's checks have answered: it goes on, or all its threads stop. -/
def afterChecks (f : Fields) (u : State) (r : Except CopyErr Unit × State) : State :=
  match r.1 with
  | .ok _ => advance r.2
  | .error e => trapAll f { cause := e.cause, eaddr := BitVec.ofNat 64 e.addr, einfo := BitVec.ofNat 64 e.info } u

theorem nextCopy_touchLoc (p : Loc) (s : State) : (touchLoc p s).work.nextCopy = s.work.nextCopy := by
  rw [(pagesOnly_touch p s).1]

theorem cpe_touchLoc (p : Loc) (s : State) (c : Nat) : (touchLoc p s).cpe c = s.cpe c := by
  rw [State.cpe, core_pages (pagesOnly_touch p s), State.cpe]

section
variable {f : Fields} {s u v : State} {l : Lane} {p : Loc} {form : Nat}

theorem copyInstr_reads (h : DescAt f s l p) : copyInstr f form s = waveCopy f form l (locBytes s 64 p) (touchLoc p s) := by
  obtain ⟨-, hwave, hl, hplace, hready, hsound, hplain⟩ := h
  rw [copyInstr, hwave, if_neg Bool.false_ne_true]
  unfold waveOnce firstLane
  simp only [hl, hplace, hready, hsound, Bool.false_eq_true, if_false, locRead_plain hplain]

/-- A copy that has room, and the engine group where it needs it, is accepted or refused as its checks answer. -/
theorem waveCopy_eq {x : Copy} {bs : List Byte}
    (hx : x = waveDesc f form (if form = 7 then 0x91 else 0x90) bs (u.wave u.curWave) l.th.team u)
    (hroom : (u.cpe (u.coreOf l.th)).q.length < 64) (hrole : isSecondary u l.th.team = false)
    (hclaim : x.toRing = true ∨ x.cle = true → (u.core (u.coreOf l.th)).owner = some l.th.team) :
    waveCopy f form l bs u = afterChecks f u (acceptCopy (u.coreOf l.th) x (leAt bs 0x3C 4) (descEa f l.th).toNat u) := by
  have hq : ¬ (u.cpe (u.coreOf l.th)).q.length ≥ 64 := Nat.not_le.2 hroom
  rw [waveDesc] at hx
  unfold waveCopy
  simp only [← hx, if_neg hq, hrole, Bool.false_eq_true, if_false]
  cases hneed : (x.toRing || x.cle) with
  | false => rfl
  | true =>
    have howner := hclaim (by simpa using hneed)
    unfold claim
    simp only [howner, beq_self_eq_true, if_true]
    rfl

/-- A wave's copy as its checks are about to be made: its descriptor read, room in the queue, no partner that performs it, and the
engine group where it uses a ring or a count line. -/
structure Submits (f : Fields) (s : State) (l : Lane) (p : Loc) (form : Nat) (x : Copy) : Prop extends DescAt f s l p where
  copy : x = waveDesc f form (if form = 7 then 0x91 else 0x90) (locBytes s 64 p) (s.wave s.curWave) l.th.team (touchLoc p s)
  room : (s.cpe (s.coreOf l.th)).q.length < 64
  role : isSecondary (touchLoc p s) l.th.team = false
  claims : x.toRing = true ∨ x.cle = true → (s.core (s.coreOf l.th)).owner = some l.th.team

section
variable {x : Copy} (h : Submits f s l p form x)
include h

theorem copyInstr_eq : copyInstr f form s = afterChecks f (touchLoc p s)
      (acceptCopy (s.coreOf l.th) x (leAt (locBytes s 64 p) 0x3C 4) (descEa f l.th).toNat (touchLoc p s)) := by
  obtain ⟨hdesc, hcopy, hroom, hrole, hclaims⟩ := h
  have hpages := pagesOnly_touch p s
  rw [copyInstr_reads hdesc, ← coreOf_pages hpages]
  refine waveCopy_eq (by rw [wave_pages hpages]; exact hcopy) ?_ hrole ?_
  · rw [coreOf_pages hpages, cpe_touchLoc]; exact hroom
  · rw [coreOf_pages hpages, core_pages hpages]; exact hclaims

theorem copyInstr_accepted
    (hacc : acceptCopy (s.coreOf l.th) x (leAt (locBytes s 64 p) 0x3C 4) (descEa f l.th).toNat (touchLoc p s) = (.ok (), v)) :
    copyInstr f form s = advance v := by
  rw [copyInstr_eq h, hacc, afterChecks]

theorem copyInstr_refused {k : Nat}
    (hacc : acceptCopy (s.coreOf l.th) x (leAt (locBytes s 64 p) 0x3C 4) (descEa f l.th).toNat (touchLoc p s) =
      (.error ⟨0x60, k, (descEa f l.th).toNat⟩, touchLoc p s)) :
    copyInstr f form s = trapAll f { cause := 0x60, eaddr := descEa f l.th, einfo := BitVec.ofNat 64 k } (touchLoc p s) := by
  rw [copyInstr_eq h, hacc, afterChecks]
  simp only [BitVec.ofNat_toNat, BitVec.setWidth_eq]

end

theorem stirred_copyKeeps (hpages : PagesOnly s u) (hkeeps : CopyKeeps u v) : Stirred s v := by
  obtain ⟨hwaves, hcur, hthreads, -⟩ := hkeeps
  obtain ⟨hthr, hwav, hcur', -⟩ := pagesOnly_threads hpages
  refine ⟨hwaves.trans hwav, hcur.trans hcur', fun j => .inl ((hthreads j).trans ?_)⟩
  rw [State.thread?, hthr, State.thread?]

/-- The wave of an accepted copy goes on, and memory is as it was. -/
theorem accepted_done (h : DescAt f s l p) (hkeeps : CopyKeeps (touchLoc p s) v) :
    DoneOn f s (advance v) noResult ∧ (advance v).mem = s.mem := by
  have hpages := pagesOnly_touch p s
  refine ⟨doneOn_advance h.issuing (stirred_copyKeeps hpages hkeeps), ?_⟩
  obtain ⟨-, -, -, hmem⟩ := hkeeps
  rw [advance_mem, hmem, (pagesOnly_threads hpages).2.2.2.1]

/-! ### CP and CPBLK (R245, R246, R248, R249) -/

theorem copyOp_of_plain (hform : form ≤ 6) : (if form = 7 then (0x91 : Byte) else 0x90) = 0x90 := if_neg (by omega)

section
variable {x y : Copy} {k : Nat}

/-- CP of a copy without a fault appends it to the queue, with its number and, for a multicast, its receivers. -/
theorem cp_appends (h : Submits f s l p f.fn.toNat x) (hform : x.form ≤ 6) (hy : y = { x with tens := 0 })
    (hreason : copyReason (touchLoc p s) y (leAt (locBytes s 64 p) 0x3C 4) (BitVec.ofNat 64 x.tens.toNat) = none)
    (hbar : BarOk (touchLoc p s) (s.coreOf l.th) y) :
    ∃ t, exec (.cp f) s = .next t ∧ DoneOn f s t noResult ∧ t.mem = s.mem ∧
      ∃ z, (t.cpe (s.coreOf l.th)).q = (s.cpe (s.coreOf l.th)).q ++ [z] ∧
        z = { y with id := s.work.nextCopy, receivers := z.receivers, drops := z.drops } ∧
        (x.form ≠ 6 → z.receivers = [] ∧ z.drops = 0) := by
  obtain ⟨receivers, drops, v, hacc, hkeeps, hq, hsingle, -⟩ := acceptCopy_ok (d := (descEa f l.th).toNat) hy (by omega) hreason hbar
  obtain ⟨hdone, hmem⟩ := accepted_done h.toDescAt hkeeps
  rw [nextCopy_touchLoc, cpe_touchLoc] at hq
  exact ⟨_, congrArg Host.Outcome.next (copyInstr_accepted h hacc), hdone, hmem, _, (cpe_advance v _).symm ▸ hq, rfl, hsingle⟩

theorem cp_faults (h : Submits f s l p f.fn.toNat x) (hform : x.form ≤ 6)
    (hreason : copyReason (touchLoc p s) { x with tens := 0 } (leAt (locBytes s 64 p) 0x3C 4) (BitVec.ofNat 64 x.tens.toNat) = some k) :
    exec (.cp f) s = .next (trapAll f { cause := 0x60, eaddr := descEa f l.th, einfo := BitVec.ofNat 64 k } (touchLoc p s)) :=
  congrArg Host.Outcome.next (copyInstr_refused h (acceptCopy_reject (by omega) hreason))

/-- The bytes of a global object that the use of a scratchpad page does not touch. -/
theorem farRead_touchLoc {a : Xlat} (hplain : PlainLoc s (.glob a.mode a.pa)) (n : Nat) :
    farRead a.pa n (touchLoc p s) = (homeBytes s a.pa n, touchLoc p s) := by
  obtain ⟨hcalm, hheld⟩ := hplain
  have hthreads := pagesOnly_threads (pagesOnly_touch p s)
  have hmem : (touchLoc p s).mem = s.mem := hthreads.2.2.2.1
  have hhome : (touchLoc p s).home = s.home := hthreads.2.2.2.2.2.1
  have hcalm' : CalmLine (touchLoc p s) (lineOf a.pa) := by
    unfold CalmLine
    rw [dirOf_home hhome]
    exact hcalm
  rw [farRead_quiet _ _ _ hcalm' (by rw [hhome]; exact hheld), homeBytes_of_mem hmem]

theorem poisoned_touchLoc (p : Loc) (pa : Nat) (s : State) : poisoned (touchLoc p s) pa = poisoned s pa := by
  unfold poisoned
  rw [(pagesOnly_threads (pagesOnly_touch p s)).2.2.2.2.2.1]

/-- CPBLK of a copy without a fault, its tensor record read at a plain address, appends it to the queue. -/
theorem cpblk_appends {a : Xlat} (h : Submits f s l p 7 x) (hform : x.form = 7)
    (hfirst : copyReason (touchLoc p s) { x with tens := 0 } (leAt (locBytes s 64 p) 0x3C 4) (BitVec.ofNat 64 x.tens.toNat) = none)
    (ha : checkGlobal (touchLoc p s) (copyWho (touchLoc p s) (s.coreOf l.th) x) { r := true } 64 (BitVec.ofNat 64 x.tens.toNat) = .ok a)
    (hlocal : isRemote a.pa = false) (hsound : poisoned s a.pa = false) (hplain : PlainLoc s (.glob a.mode a.pa))
    (hy : y = { x with tens := BitVec.ofNat 512 (leNat (homeBytes s a.pa 64)) }) (htens : tensOk y.tens = true)
    (hreason : copyReason (touchLoc p s) y (leAt (locBytes s 64 p) 0x3C 4) (BitVec.ofNat 64 x.tens.toNat) = none)
    (hbar : BarOk (touchLoc p s) (s.coreOf l.th) y) :
    ∃ t, exec (.cpblk f) s = .next t ∧ DoneOn f s t noResult ∧ t.mem = s.mem ∧
      (t.cpe (s.coreOf l.th)).q = (s.cpe (s.coreOf l.th)).q ++ [{ y with id := s.work.nextCopy, receivers := [], drops := 0 }] := by
  obtain ⟨v, hacc, hkeeps, hq⟩ := acceptCopy_blk (d := (descEa f l.th).toNat) hform hfirst ha hlocal
    ((poisoned_touchLoc ..).trans hsound) (farRead_touchLoc hplain 64) hy htens hreason hbar
  obtain ⟨hdone, hmem⟩ := accepted_done h.toDescAt hkeeps
  rw [nextCopy_touchLoc, cpe_touchLoc] at hq
  exact ⟨_, congrArg Host.Outcome.next (copyInstr_accepted h hacc), hdone, hmem, (cpe_advance v _).symm ▸ hq⟩

end
end
end Sys2Proof.Proofs
end

section
/-!
PROOFS. FORK and RDV (spec 12 R265, R266), and the copy engine with the sinks that start engines (R250 to R254, R262, R267).
-/
namespace Sys2Proof.Proofs
open Machine Laws

/-! ### FORK (R266) -/

/-- The programs of the loop-control processor, the copy engine and the matrix engine started at an address, where asked. -/
def startLcp (on : Bool) (c : Nat) (a : DWord) (s : State) : State :=
  if on then s.modLcp c fun x => { x with prog := some (a, a), loops := [], closed := false } else s
def startCpe (on looped : Bool) (c : Nat) (a : DWord) (s : State) : State :=
  if on then s.modCpe c fun x =>
    { x with
      prog := some (a, a), iw := Vector.replicate 8 0, looped := looped, nextPass := x.nextPass + 1
      held := if looped then none else some (x.nextPass, false) }
  else s
def startMxe (on : Bool) (c : Nat) (a : DWord) (s : State) : State :=
  if on then s.modMxe c fun x => { x with prog := some (a, a), iw := Vector.replicate 8 0 } else s

section
variable {s u : State} {c : Nat} (on looped : Bool) (a : DWord)

theorem engaged_startLcp (h : Engaged s u c) : Engaged s (startLcp on c a u) c := by
  unfold startLcp
  split
  · exact engaged_modLcp h _
  · exact h
theorem engaged_startCpe (h : Engaged s u c) : Engaged s (startCpe on looped c a u) c := by
  unfold startCpe
  split
  · exact engaged_modCpe h _
  · exact h
theorem engaged_startMxe (h : Engaged s u c) : Engaged s (startMxe on c a u) c := by
  unfold startMxe
  split
  · exact engaged_modMxe h _
  · exact h

theorem startLcp_parts (u : State) :
    (startLcp on c a u).lcp c = (if on then { u.lcp c with prog := some (a, a), loops := [], closed := false } else u.lcp c) ∧
      (startLcp on c a u).cpe c = u.cpe c ∧ (startLcp on c a u).mxe c = u.mxe c := by
  unfold startLcp
  split
  · exact ⟨lcp_modLcp .., cpe_modLcp .., mxe_modLcp ..⟩
  · exact ⟨rfl, rfl, rfl⟩
theorem startCpe_parts (u : State) :
    (startCpe on looped c a u).cpe c = (if on then
      { u.cpe c with
        prog := some (a, a), iw := Vector.replicate 8 0, looped := looped, nextPass := (u.cpe c).nextPass + 1
        held := if looped then none else some ((u.cpe c).nextPass, false) } else u.cpe c) ∧
      (startCpe on looped c a u).lcp c = u.lcp c ∧ (startCpe on looped c a u).mxe c = u.mxe c := by
  unfold startCpe
  split
  · exact ⟨cpe_modCpe .., lcp_modCpe .., mxe_modCpe ..⟩
  · exact ⟨rfl, rfl, rfl⟩
theorem startMxe_parts (u : State) :
    (startMxe on c a u).mxe c = (if on then { u.mxe c with prog := some (a, a), iw := Vector.replicate 8 0 } else u.mxe c) ∧
      (startMxe on c a u).lcp c = u.lcp c ∧ (startMxe on c a u).cpe c = u.cpe c := by
  unfold startMxe
  split
  · exact ⟨mxe_modMxe .., lcp_modMxe .., cpe_modMxe ..⟩
  · exact ⟨rfl, rfl, rfl⟩

end

/-- The machine once FORK has started the programs that its mask names. -/
def forked (f : Fields) (t : Thread) (c : Nat) (s : State) : State :=
  startMxe (f.imm.getLsbD 2) c (reg64 t f.c) (startCpe (f.imm.getLsbD 1) (f.imm.getLsbD 0) c (reg64 t f.b)
    (startLcp (f.imm.getLsbD 0) c (reg64 t f.a) s))

theorem engaged_forked (f : Fields) (t : Thread) (c : Nat) (s : State) : Engaged s (forked f t c s) c :=
  engaged_startMxe _ _ (engaged_startCpe _ _ _ (engaged_startLcp _ _ (.rfl' s c)))

/-- The three programs after FORK: each started at its register where the mask names it. -/
theorem forked_parts (f : Fields) (t : Thread) (c : Nat) (s : State) :
    (forked f t c s).lcp c = (startLcp (f.imm.getLsbD 0) c (reg64 t f.a) s).lcp c ∧
      (forked f t c s).mxe c = (startMxe (f.imm.getLsbD 2) c (reg64 t f.c) s).mxe c ∧
      (forked f t c s).cpe c = (startCpe (f.imm.getLsbD 1) (f.imm.getLsbD 0) c (reg64 t f.b) s).cpe c := by
  unfold forked
  obtain ⟨hmxe, hlcp, hcpe⟩ := startMxe_parts (c := c) (f.imm.getLsbD 2) (reg64 t f.c)
    (startCpe (f.imm.getLsbD 1) (f.imm.getLsbD 0) c (reg64 t f.b) (startLcp (f.imm.getLsbD 0) c (reg64 t f.a) s))
  obtain ⟨hcpe', hlcp', hmxe'⟩ := startCpe_parts (c := c) (f.imm.getLsbD 1) (f.imm.getLsbD 0) (reg64 t f.b)
    (startLcp (f.imm.getLsbD 0) c (reg64 t f.a) s)
  obtain ⟨-, hcpe'', hmxe''⟩ := startLcp_parts (c := c) (f.imm.getLsbD 0) (reg64 t f.a) s
  refine ⟨hlcp.trans hlcp', ?_, ?_⟩
  · rw [hmxe, (startMxe_parts (c := c) _ _ s).1, hmxe', hmxe'']
  · rw [hcpe, hcpe', (startCpe_parts (c := c) _ _ _ s).1, hcpe'']

/-- One of the programs that FORK names runs already. -/
def forkBusy (f : Fields) (c : Nat) (s : State) : Bool :=
  (f.imm.getLsbD 0 && (s.lcp c).prog.isSome) || (f.imm.getLsbD 1 && (s.cpe c).prog.isSome) ||
    (f.imm.getLsbD 2 && (s.mxe c).prog.isSome)

theorem forkBusy_iff (f : Fields) (c : Nat) (s : State) : forkBusy f c s = true ↔
    (f.imm.getLsbD 0 = true ∧ (s.lcp c).prog ≠ none) ∨ (f.imm.getLsbD 1 = true ∧ (s.cpe c).prog ≠ none) ∨
      (f.imm.getLsbD 2 = true ∧ (s.mxe c).prog ≠ none) := by
  simp only [forkBusy, Bool.or_eq_true, Bool.and_eq_true, Option.isSome_iff_ne_none, or_assoc]

theorem forkBusy_eq_false (f : Fields) (c : Nat) (s : State) : ¬ forkBusy f c s = true ↔
    (f.imm.getLsbD 0 = true → (s.lcp c).prog = none) ∧ (f.imm.getLsbD 1 = true → (s.cpe c).prog = none) ∧
      (f.imm.getLsbD 2 = true → (s.mxe c).prog = none) := by
  simp only [forkBusy_iff, not_or, not_and, not_not]

theorem lcp_advance (u : State) (c : Nat) : (advance u).lcp c = u.lcp c := by
  rw [State.lcp, group_advance, State.lcp]

theorem mxe_advance (u : State) (c : Nat) : (advance u).mxe c = u.mxe c := by
  rw [State.mxe, group_advance, State.mxe]

section
variable {f : Fields} {s : State} {l : Lane}

theorem fork_eq (h : GroupReady f s l) : fork f s =
    if forkBusy f (s.coreOf l.th) s then waitAll f .engine s else advance (forked f l.th (s.coreOf l.th) s) :=
  withGroup_of_some h rfl

/-- FORK of programs that do not run starts them. -/
theorem fork_starts (h : GroupReady f s l) (hfree : ¬ forkBusy f (s.coreOf l.th) s = true) :
    ∃ t, exec (.fork f) s = .next t ∧ GroupDone f s t l .none ∧
      t.lcp (s.coreOf l.th) = (startLcp (f.imm.getLsbD 0) (s.coreOf l.th) (reg64 l.th f.a) s).lcp (s.coreOf l.th) ∧
      t.mxe (s.coreOf l.th) = (startMxe (f.imm.getLsbD 2) (s.coreOf l.th) (reg64 l.th f.c) s).mxe (s.coreOf l.th) ∧
      t.cpe (s.coreOf l.th) = (startCpe (f.imm.getLsbD 1) (f.imm.getLsbD 0) (s.coreOf l.th) (reg64 l.th f.b) s).cpe (s.coreOf l.th) := by
  obtain ⟨hlcp, hmxe, hcpe⟩ := forked_parts f l.th (s.coreOf l.th) s
  exact ⟨_, congrArg Host.Outcome.next ((fork_eq h).trans (if_neg hfree)), groupDone_advance h.1 (engaged_forked ..),
    (lcp_advance ..).trans hlcp, (mxe_advance ..).trans hmxe, (cpe_advance ..).trans hcpe⟩

/-! ### RDV (R266) -/

theorem rdv_eq (hl : (s.execLanes f).head? = some l) : rdv f s =
    if joined s (s.coreOf l.th) l.th.team f then advance s else waitAll f .engine s := by
  unfold rdv waveOnce firstLane
  rw [hl]

theorem advance_done (hs : LanesSound s) : DoneOn f s (advance s) noResult :=
  doneOn_of s (advance s) _ f _ hs (fun _ => rfl) (fun l _ => by cases (advance s).thread? l.id <;> rfl) (fun _ _ => rfl)

theorem rdv_joins (hs : LanesSound s) (hl : (s.execLanes f).head? = some l) (hjoined : joined s (s.coreOf l.th) l.th.team f = true) :
    ∃ t, exec (.rdv f) s = .next t ∧ DoneOn f s t noResult ∧ SameButThreads s t :=
  ⟨_, congrArg Host.Outcome.next ((rdv_eq hl).trans (if_pos hjoined)), advance_done hs, sameT_advance s⟩

theorem rdv_waits (hs : LanesSound s) (hl : (s.execLanes f).head? = some l) (hapart : ¬ joined s (s.coreOf l.th) l.th.team f = true) :
    ∃ t, exec (.rdv f) s = .next t ∧ AllWait f s t .engine :=
  ⟨_, congrArg Host.Outcome.next ((rdv_eq hl).trans (if_neg hapart)), allWait_waitAll hs _⟩

end

/-! ### The copy engine at rest (R250, R254) -/

section
variable {s : State} {c : Nat}

/-- Nothing moves in a frozen module, nor in a halted engine none of whose copies can move. -/
theorem copySector_idle (hidle : s.guidon.frozen = true ∨ (s.cpe c).halt ≠ none ∧ nextCopy s (s.cpe c).q [] = none) (out : ReadOutcome) :
    copySector c out s = s := by
  unfold copySector
  split
  · rfl
  · next hruns =>
    obtain hfrozen | ⟨hhalt, hnext⟩ := hidle
    · exact absurd (by rw [hfrozen, Bool.true_or]) hruns
    · have hsame : sectorDiffers c s = none := by rw [sectorDiffers, hnext, Option.bind_none]
      rw [hsame]
      exact if_pos (by rw [Option.isSome_iff_ne_none.2 hhalt, Bool.or_true])

/-! ### CPE_CTL (R254, R267) -/

theorem cpeHalted_of_halted {h : Byte} (hh : (s.cpe c).halt = some h) (k : Cpe → State → State) : cpeHalted c k s =
    wakeEngine c (k (s.cpe c) (s.modCpe c fun x => { x with halt := none, haltCopy := none, haltSink := none })) := by
  exact if_pos (by rw [hh, Option.isSome_some])

theorem cpeHalted_of_running (hh : (s.cpe c).halt = none) (k : Cpe → State → State) : cpeHalted c k s = s :=
  if_neg (by rw [hh, Option.isSome_none]; exact Bool.false_ne_true)

theorem cpeCtlResume_acts {h : Byte} (hh : (s.cpe c).halt = some h) : Engaged s (cpeCtlResume c s) c ∧
    (cpeCtlResume c s).cpe c = { s.cpe c with halt := none, haltCopy := none, haltSink := none } := by
  rw [cpeCtlResume, cpeHalted_of_halted hh]
  exact ⟨engaged_wake (engaged_modCpe (.rfl' s c) _) c, by rw [cpe_wake, cpe_modCpe]⟩

/-- FAIL ends the suspended copy with its cause, of which the handler has heard. -/
theorem cpeCtlFail_acts {h : Byte} {k : Nat} {x : Copy} (fc : Byte) (hh : (s.cpe c).halt = some h) (hk : (s.cpe c).haltCopy = some k)
    (hx : (s.cpe c).q.find? (fun y => y.id == k) = some x) : Engaged s (cpeCtlFail c fc s) c ∧
      (cpeCtlFail c fc s).cpe c =
        { s.cpe c with
          halt := none, haltCopy := none, haltSink := none
          q := (s.cpe c).q.map fun y => if y.id == x.id then { x with fatal := some fc, told := true } else y } := by
  rw [cpeCtlFail, cpeHalted_of_halted hh]
  simp only [hk, hx]
  exact ⟨engaged_wake (engaged_modCpe (engaged_modCpe (.rfl' s c) _) _) c, by rw [cpe_wake, setCopy, cpe_modCpe, cpe_modCpe]⟩

/-! ### Sinks that start engines (R262) -/

section
variable {k o : Nat} {x : Sink} (hx : x = sinkOf s c k) (hthaw : s.guidon.frozen = false) (hcnt : x.cnt ≠ 0)
  (howner : (s.core c).owner = some o)
include hx hthaw hcnt howner

/-- A sink with a count starts its matrix program. -/
theorem sinkMprogStart_eq (hact : x.act = 1) (hprog : (s.mxe c).prog = none) : sinkMprogStart c k s =
    startMxe true c x.addr (setSink c k { x with cnt := x.cnt - 1 } s) := by
  subst hx
  unfold sinkMprogStart
  simp only [hthaw, hact, hcnt, hprog, howner, ne_eq, not_true_eq_false, decide_false, Option.isSome_none, Option.isNone_some, Bool.or_self,
    Bool.false_eq_true, if_false]
  rfl

/-- The copy that a sink submits from a descriptor in its team's scratchpad. -/
def sinkDesc (x : Sink) (bs : List Byte) (o : Nat) (s : State) : Copy :=
  { descCopy bs x.form s o with
    scope := x.scope, quad := x.quad, slot := x.slot, epc := x.epc, op := 0x90, fn := BitVec.ofNat 8 x.form }

/-- A sink with a count submits its copy, once its checks have accepted it. -/
theorem sinkCopySubmit_eq {v : State} (hact : x.act = 2) (hform : x.form ≤ 5) (hroom : (s.cpe c).q.length < 64)
    (hruns : (s.cpe c).halt = none) (hplace : checkScratch s o 64 x.addr.toNat = none) (hstays : inTransit s o x.addr.toNat 64 = false)
    (hsound : backPoisoned s o x.addr.toNat = false) (hrole : isSecondary s o = false)
    (hacc : acceptCopy c (sinkDesc x (scratchBytes s o x.addr.toNat 64) o s) (leAt (scratchBytes s o x.addr.toNat 64) 0x3C 4) x.addr.toNat
      (setSink c k { x with cnt := x.cnt - 1 } s) = (.ok (), v)) : sinkCopySubmit c k s = v := by
  subst hx
  have hsingle : ¬ (sinkOf s c k).form = 7 := by omega
  have hgoes : (s.guidon.frozen || decide ((sinkOf s c k).act ≠ 2) || decide ((sinkOf s c k).cnt = 0) || decide ((s.cpe c).q.length ≥ 64) ||
      (s.cpe c).halt.isSome || inTransit s o (sinkOf s c k).addr.toNat 64) = false := by
    simp [hthaw, hact, hcnt, hroom, hruns, hstays]
  rw [sinkDesc] at hacc
  unfold sinkCopySubmit
  simp only [howner, hgoes, hplace, hsound, hrole, hsingle, hacc, Bool.false_eq_true, if_false]

end

theorem cpe_setSink (u : State) (k : Nat) (x : Sink) : (setSink c k x u).cpe c = u.cpe c := cpe_modGroup ..

/-- The start of a matrix program takes one count of its sink. -/
theorem sinkMprogStart_spec (a : DWord) (k : Nat) (x : Sink) : Engaged s (startMxe true c a (setSink c k x s)) c ∧
    (startMxe true c a (setSink c k x s)).mxe c = { s.mxe c with prog := some (a, a), iw := Vector.replicate 8 0 } ∧
    Tab.find ((startMxe true c a (setSink c k x s)).group c).sinks k = some x := by
  refine ⟨engaged_startMxe _ _ (engaged_setSink (.rfl' s c) k x), ?_, ?_⟩
  · rw [(startMxe_parts ..).1, if_pos rfl, mxe_setSink]
  · rw [startMxe, if_pos rfl, State.modMxe, group_modGroup]
    exact find_sinks_setSink s k x

end

/-! ### The statement -/

theorem exec_copySector (c : Nat) (out : ReadOutcome) (s : State) : exec (.copySector c out) s = .next (copySector c out s) := rfl
theorem exec_copyComplete (c k : Nat) (s : State) : exec (.copyComplete c k) s = .next (copyComplete c k s) := rfl
theorem exec_cpeCtlResume (c : Nat) (s : State) : exec (.cpeCtlResume c) s = .next (cpeCtlResume c s) := rfl
theorem exec_cpeCtlFail (c : Nat) (fc : Byte) (s : State) : exec (.cpeCtlFail c fc) s = .next (cpeCtlFail c fc s) := rfl

/-- Settles O32: CP and CPBLK are `cp_appends`, `cp_faults` and `cpblk_appends`, FORK and RDV are `fork_starts`, `rdv_joins` and their
waits; a sector is `copySector_pads`, a completed copy `copyComplete_plain`, and the rest are changes of one core's copy engine or
sinks. What a form does not use of its descriptor is log entry 81, and the join of a loop processor log entry 44. -/
theorem copies : Obligations.Copies := by
  unfold Obligations.Copies
  refine ⟨fun f s l p hi hwave hl hplace hready hsound hplain => ?_, fun f s l c hc => ?_, fun s c => ?_⟩
  · intro u bs c w copy mbz tens hroom hrole
    have hdesc : DescAt f s l p := ⟨hi, hwave, hl, hplace, hready, hsound, hplain⟩
    refine ⟨fun x y hfn hx hy hclaims => ?_, fun x a y hx hclaims hfirst ha hlocal hpoison hrecord hy htens hreason hbar => ?_⟩
    · have hsubmits : Submits f s l p f.fn.toNat x := ⟨hdesc, by rw [copyOp_of_plain hfn]; exact hx, hroom, hrole, hclaims⟩
      have hform : x.form ≤ 6 := by rw [hx]; exact hfn
      exact ⟨cp_appends hsubmits hform hy, fun k hreason => cp_faults hsubmits hform (hy ▸ hreason)⟩
    · have hform : x.form = 7 := by rw [hx]; rfl
      have hring : x.toRing = false := by rw [Copy.toRing, hform]; exact Bool.and_false _
      have hsubmits : Submits f s l p 7 x := ⟨hdesc, hx, hroom, hrole, fun h => hclaims (by simpa [hring] using h)⟩
      exact cpblk_appends hsubmits hform hfirst ha hlocal hpoison hrecord hy htens hreason hbar
  · subst hc
    refine ⟨fun h => ⟨fun hfree => ?_, fun hbusy => ?_⟩, fun free hs hl hiff => ⟨fun hfree => ?_, fun hfree => ?_⟩⟩
    · obtain ⟨t, ht, hdone, hlcp, hmxe, hcpe⟩ := fork_starts h ((forkBusy_eq_false ..).2 hfree)
      exact ⟨t, ht, hdone, hlcp.trans (startLcp_parts ..).1, hmxe.trans (startMxe_parts ..).1, hcpe.trans (startCpe_parts ..).1⟩
    · exact group_waits h (congrArg Host.Outcome.next ((fork_eq h).trans (if_pos ((forkBusy_iff ..).2 hbusy))))
    · exact rdv_joins hs hl ((joined_iff ..).2 (hiff.1 hfree))
    · exact rdv_waits hs hl fun hjoined => hfree (hiff.2 ((joined_iff ..).1 hjoined))
  · refine ⟨fun x out h hout hid => ?_, fun hidle out => ?_, fun k x hthaw hx hover hfatal hbe hslot hcle hrcd hpasses => ?_,
      fun k x o hx hthaw hact hcnt hprog howner => ?_,
      fun k x o u bs d y hx hthaw hact hcnt hform howner hroom hruns hplace hstays hsound hrole hu hbs hd hy hreason hbar => ?_,
      fun h hh => ⟨?_, fun k x fc hk hx => ?_⟩, fun hh => ⟨?_, fun fc => ?_⟩⟩
    · exact ⟨_, exec_copySector c out s, copySector_pads h hout hid⟩
    · exact congrArg Host.Outcome.next (copySector_idle hidle out)
    · obtain ⟨hengaged, hcpe⟩ := copyComplete_plain hthaw hx hover hfatal hbe hslot hcle hrcd hpasses
      exact ⟨_, exec_copyComplete c k s, hengaged.one, engaged_keeps hengaged, hcpe⟩
    · obtain ⟨hengaged, hmxe, hsink⟩ := sinkMprogStart_spec (s := s) (c := c) x.addr k { x with cnt := x.cnt - 1 }
      exact ⟨_, congrArg Host.Outcome.next (sinkMprogStart_eq hx hthaw hcnt howner hact hprog), hengaged.one, engaged_keeps hengaged,
        hmxe, hsink⟩
    · subst hu hbs
      have hcopy : d = sinkDesc x (scratchBytes s o x.addr.toNat 64) o s := hd
      have hdform : d.form = x.form := by rw [hcopy]; rfl
      obtain ⟨receivers, drops, v, hacc, hkeeps, hq, hsingle, hgroup⟩ := acceptCopy_ok (d := x.addr.toNat) hy (by omega) hreason hbar
      obtain ⟨rfl, rfl⟩ := hsingle (by omega)
      rw [hcopy] at hacc
      have hsubmit := sinkCopySubmit_eq hx hthaw hcnt howner hact hform hroom hruns hplace hstays hsound hrole hacc
      obtain ⟨-, -, hthreads, hmem⟩ := hkeeps
      rw [cpe_setSink] at hq
      refine ⟨v, congrArg Host.Outcome.next hsubmit, hmem, fun j => keepsThread_of_eq (hthreads j), hq, ?_⟩
      rw [hgroup]
      exact find_sinks_setSink s k _
    · obtain ⟨hengaged, hcpe⟩ := cpeCtlResume_acts hh
      exact ⟨_, exec_cpeCtlResume c s, hengaged.one, engaged_keeps hengaged, hcpe⟩
    · obtain ⟨hengaged, hcpe⟩ := cpeCtlFail_acts fc hh hk hx
      exact ⟨_, exec_cpeCtlFail c fc s, hengaged.one, engaged_keeps hengaged, congrArg Cpe.halt hcpe, congrArg Cpe.q hcpe⟩
    · exact congrArg Host.Outcome.next (cpeHalted_of_running hh _)
    · exact congrArg Host.Outcome.next (cpeHalted_of_running hh _)

end Sys2Proof.Proofs
end

section
/-!
PROOFS. The state after reset (spec 22 R425, 23 R431, R444) and the step of a frozen module (spec 22 R426, R427, 23 R442).
-/
namespace Sys2Proof.Proofs
open Machine Laws

/-- Settles O5: every value is the one that `State.reset` writes out or leaves at its default, and its tables are empty. -/
theorem resetState : Obligations.ResetState := by
  unfold Obligations.ResetState
  refine ⟨rfl, rfl, rfl, rfl, rfl, rfl, rfl, rfl, rfl, rfl, rfl, fun _ => ⟨rfl, rfl, rfl⟩, fun _ => ⟨rfl, rfl, rfl⟩, fun _ => rfl,
    fun _ => rfl, fun _ => rfl, rfl, rfl, rfl, rfl⟩

section
variable {s : State}

/-! ### What a frozen module has due -/

theorem dueLines_tick (s : State) : dueLines (tick s) = dueLines s := rfl
theorem dueFlight_tick (s : State) : dueFlight (tick s) = dueFlight s := rfl

/-- What a frozen module has due: quiescence, or a transition of an access in flight. -/
theorem mem_due_of_frozen (h : s.guidon.frozen = true) {i : Instr} (hi : i ∈ due s) : i = .moduleQuiescent ∨ i ∈ dueLines s ++ dueFlight s := by
  rw [due, if_pos h] at hi
  split at hi
  · cases hi
  · split at hi
    · exact .inl (List.mem_singleton.1 hi)
    · exact .inr hi

/-- What a cycle of a frozen module adds to an empty agenda: the heartbeat output, then a step of the heaters, each if it is due. -/
theorem agenda_tick_of_frozen (h : s.guidon.frozen = true) (ha : s.agenda = []) :
    ∃ beat follow, (beat = [] ∨ beat = [Instr.hbOutToggle]) ∧ (follow = [] ∨ follow = [Instr.freezeRingStep]) ∧
      (tick s).agenda = beat ++ follow := by
  refine ⟨if 2 ≤ s.boot.step.toNat ∧ (tick s).dtime / 1000000 ≠ s.dtime / 1000000 then [.hbOutToggle] else [],
    if s.banks ≠ [] ∧ (tick s).dtime / 10000 ≠ s.dtime / 10000 then [.freezeRingStep] else [], ?_, ?_, ?_⟩
  · exact (ite_eq_or_eq _ _ _).symm
  · exact (ite_eq_or_eq _ _ _).symm
  · simp [tick, ha, h]

/-- With nothing on the agenda the next transition is one that is due, or the issue that finds nothing. -/
theorem nextStep_mem_of_agenda_nil (h : s.agenda = []) : nextStep s ∈ due s ++ [.issue 0 0] := by
  rw [nextStep, h]
  have hlt : s.clock % (due s ++ [Instr.issue 0 0]).length < (due s ++ [Instr.issue 0 0]).length :=
    Nat.mod_lt _ (by simp)
  simp only [List.getD_eq_getElem _ _ hlt]
  exact List.getElem_mem hlt

theorem issue_of_frozen (h : s.guidon.frozen = true) (c q : Nat) : exec (.issue c q) s = .next s :=
  congrArg Host.Outcome.next (show issue c q s = s by rw [issue, if_pos h])

/-- Only time has passed in a frozen module: its agenda holds at most a step of the heaters, the heaters may have stepped, and the
module may have become quiescent or its heartbeat output toggled. -/
def TimePasses (s t : State) : Prop :=
  t.clock = s.clock + 1 ∧ (t.agenda = [] ∨ t.agenda = [.freezeRingStep]) ∧
    (t.banks = s.banks ∨ t.banks = s.banks.map fun e => (e.1, (rings.foldl ringStep e.2).settle)) ∧
    t = { s with
      clock := t.clock, dtime := t.dtime, tickRem := t.tickRem, agenda := t.agenda, banks := t.banks
      guidon := { s.guidon with quiet := t.guidon.quiet, hbOut := t.guidon.hbOut } }

/-- The machine one cycle on, some transitions left on its agenda. -/
def afterTick (r : List Instr) (s : State) : State := { tick s with agenda := r }
theorem advanceTime_of_frozen (h : s.guidon.frozen = true) : advanceTime s = afterTick ((tick s).agenda.drop 1) s :=
  advanceTime_of_idle (.inl h)

theorem timePasses_afterTick {r : List Instr} (hr : r = [] ∨ r = [.freezeRingStep]) : TimePasses s (afterTick r s) :=
  ⟨rfl, hr, .inl rfl, rfl⟩
theorem timePasses_heartbeat {r : List Instr} (hr : r = [] ∨ r = [.freezeRingStep]) : TimePasses s (hbOutToggle (afterTick r s)) :=
  ⟨rfl, hr, .inl rfl, rfl⟩
theorem timePasses_quiescent (h : s.guidon.frozen = true) : TimePasses s (moduleQuiescent (afterTick [] s)) := by
  rw [moduleQuiescent, if_pos (show (afterTick [] s).guidon.frozen = true from h)]
  exact ⟨rfl, .inl rfl, .inl rfl, rfl⟩
theorem timePasses_heaters (h : s.guidon.frozen = true) : TimePasses s (freezeRingStep (afterTick [] s)) := by
  rw [freezeRingStep, if_pos (show (afterTick [] s).guidon.frozen = true from h)]
  exact ⟨rfl, .inl rfl, .inr rfl, rfl⟩

/-- Where nothing is in flight, only time passes. -/
theorem step_of_quiet (h : s.guidon.frozen = true) (ha : s.agenda = []) (hl : dueLines s = []) (hf : dueFlight s = []) :
    ∃ t, step s = .next t ∧ TimePasses s t := by
  obtain ⟨beat, follow, hbeat, hfollow, hagenda⟩ := agenda_tick_of_frozen h ha
  rw [step, advanceTime_of_frozen h]
  rcases hbeat with rfl | rfl
  · rcases hfollow with rfl | rfl
    · have hnext := nextStep_mem_of_agenda_nil hagenda
      rw [hagenda]
      rcases List.mem_append.1 hnext with hdue | hissue
      · have hdue := mem_due_of_frozen (s := tick s) h hdue
        rw [dueLines_tick, dueFlight_tick, hl, hf] at hdue
        rw [hdue.resolve_right List.not_mem_nil]
        exact ⟨_, rfl, timePasses_quiescent h⟩
      · rw [List.mem_singleton.1 hissue]
        exact ⟨_, issue_of_frozen (s := afterTick [] s) h 0 0, timePasses_afterTick (.inl rfl)⟩
    · rw [hagenda, nextStep_of_agenda_cons hagenda]
      exact ⟨_, rfl, timePasses_heaters h⟩
  · rw [hagenda, nextStep_of_agenda_cons hagenda]
    exact ⟨_, rfl, timePasses_heartbeat hfollow⟩

/-- The transition that a frozen module with no input makes next. -/
theorem nextStep_of_frozen (h : s.guidon.frozen = true) (ha : s.agenda = []) :
    nextStep (tick s) ∈ [.hbOutToggle, .freezeRingStep, .moduleQuiescent, .issue 0 0] ++ dueLines s ++ dueFlight s := by
  obtain ⟨beat, follow, hbeat, hfollow, hagenda⟩ := agenda_tick_of_frozen h ha
  rcases hbeat with rfl | rfl
  · rcases hfollow with rfl | rfl
    · rcases List.mem_append.1 (nextStep_mem_of_agenda_nil hagenda) with hdue | hissue
      · rcases mem_due_of_frozen (s := tick s) h hdue with hquiet | hflight
        · simp [hquiet]
        · rw [List.append_assoc]
          exact List.mem_append_right _ hflight
      · simp [List.mem_singleton.1 hissue]
    · simp [nextStep_of_agenda_cons hagenda]
  · simp [nextStep_of_agenda_cons hagenda]

end

/-- Settles O9: with an empty agenda a cycle of a frozen module adds only what recurs (`agenda_tick_of_frozen`), and what is due is
quiescence or an access in flight (`mem_due_of_frozen`); `step_of_quiet` runs each of them where none is in flight. -/
theorem frozenStep : Obligations.FrozenStep := by
  unfold Obligations.FrozenStep
  exact fun s h ha => ⟨nextStep_of_frozen h ha, issue_of_frozen h, step_of_quiet h ha⟩

end Sys2Proof.Proofs
end

section
/-!
PROOFS. The return from a user-level handler (spec 21 R407, R409): ERET.E and its DONE forms, where every executing thread is in
handler state.
-/
namespace Sys2Proof.Proofs
open Machine Laws

section
variable {f : Fields} {s : State}

/-- Where no executing thread is refused, each is changed in place and none traps. -/
theorem eretEWith_of_allowed {bad : Thread → Bool} (act : Thread → Thread) (hh : ∀ l ∈ s.execLanes f, l.th.handler = true)
    (hb : ∀ l ∈ s.execLanes f, bad l.th = false) :
    eretEWith f bad act s = (advance s).modThreads ((s.execLanes f).map Lane.id) act := by
  have hno : (s.execLanes f).filter (fun l => !l.th.handler || bad l.th) = [] :=
    List.filter_eq_nil_iff.2 fun l hl => by simp [hh l hl, hb l hl]
  have hyes : (s.execLanes f).filter (fun l => l.th.handler && !bad l.th) = s.execLanes f :=
    List.filter_eq_self.2 fun l hl => by simp [hh l hl, hb l hl]
  rw [eretEWith, hno, hyes, List.map_nil, takeUsers_nil]

/-- Threads changed in place after the advance, and what each then is. -/
theorem threads_become {i : Instr} {act : Thread → Thread} {g : Lane → Thread} (hs : LanesSound s)
    (hi : exec i s = .next ((advance s).modThreads ((s.execLanes f).map Lane.id) act))
    (hg : ∀ l ∈ s.execLanes f, act (nextTh s l.th) = g l) : ∃ t, exec i s = .next t ∧ SameButThreads s t ∧ LanesBecome f s t g := by
  obtain ⟨hexec, hrest⟩ := lanesBecome_modThreads (f := f) hs act
  exact ⟨_, hi, sameT_trans (sameT_advance s) (sameT_modThreads _ _ _), fun l hl => (hexec l hl).trans (congrArg some (hg l hl)), hrest⟩

/-- The return of a thread whose s.epc is an instruction address. -/
def backAt (t : Thread) : Thread := if (slotOf t.trap.epc).isNone then t else leaveHandler t.trap.epc t

theorem eretE_of_slots (hh : ∀ l ∈ s.execLanes f, l.th.handler = true) (hslot : ∀ l ∈ s.execLanes f, slotOf l.th.trap.epc ≠ none) :
    eretE f s = (advance s).modThreads ((s.execLanes f).map Lane.id) backAt := by
  have hlost : (s.execLanes f).filter (fun l => l.th.handler && (slotOf l.th.trap.epc).isNone) = [] :=
    List.filter_eq_nil_iff.2 fun l hl => by simp [hslot l hl]
  simp only [eretE, hlost, List.map_nil, takePrivs_nil]
  exact eretEWith_of_allowed _ hh fun _ _ => rfl

end

/-- Settles O40: no executing thread is refused, so each is changed in place (`eretEWith_of_allowed`) and no trap is taken. -/
theorem userReturns : Obligations.UserReturns := by
  unfold Obligations.UserReturns
  intro f s hs hh
  refine ⟨fun hslot => ?_, fun hfield => ⟨fun hd => ?_, fun hd => ?_⟩⟩
  · refine threads_become hs (congrArg Host.Outcome.next (eretE_of_slots hh hslot)) fun l hl => ?_
    exact if_neg (by simpa [nextTh] using hslot l hl)
  · refine threads_become hs (congrArg Host.Outcome.next (eretEWith_of_allowed _ hh hfield)) fun l hl => ?_
    have hlt : trappedD (nextTh s l.th) < s.regsOf (nextTh s l.th) := hd l hl
    rw [if_pos hlt]
    rfl
  · refine threads_become hs (congrArg Host.Outcome.next (eretEWith_of_allowed _ hh hfield)) fun l hl => ?_
    have hpair : (decide (trappedD (nextTh s l.th) % 2 = 0) && decide (trappedD (nextTh s l.th) + 1 < s.regsOf (nextTh s l.th))) = true := by
      rw [Bool.and_eq_true, decide_eq_true_iff, decide_eq_true_iff]
      exact hd l hl
    exact (congrArg (leaveHandler l.th.trap.next) (if_pos hpair)).trans rfl

end Sys2Proof.Proofs
end

section
/-!
PROOFS. Serving a trap and the returns of the privileged handler (spec 21 R400, R403 to R406).
-/
namespace Sys2Proof.Proofs
open Machine Laws

section
variable {f : Fields} {s : State} {l : Lane} {c : Nat} {p : Trap}

/-! ### Serving -/

/-- A served trap whose frame is written. -/
theorem trapServe_of_written {ps : List Trap} {x frame : Nat} {u : State} (htraps : (s.core c).traps = p :: ps)
    (hserving : (s.core c).serving = none) (hrun : s.guidon.frozen = false) (hx : x = (s.grid (s.team p.team).grid).ctx)
    (hframe : frame = canonVa (((s.ctx x).tfb.extractLsb' 6 51).toNat * 64) + 64 * c)
    (hu : vaWrite ⟨c, x, true⟩ { w := true } frame (frameBytes s c p) (s.modCore c fun k => { k with traps := ps }) = .ok u) :
    trapServe c s = if !(s.ctx x).pvec.getLsbD 63 then failTrap p p.regs.cause u
      else (List.range 32).foldl (fun s' h => addThread
          { Thread.setRegs {} 0 [loW (BitVec.ofNat 64 frame), hiW (BitVec.ofNat 64 frame), p.regs.cause.setWidth 32] with
            team := p.team, handlerOf := some c, pc := vecEntry (s.ctx x).pvec, entryCheck := true, lastIssue := s.clock,
            slot := Config.handlerSlot, hidx := h, lane := h } s')
        (u.modCore c fun k => { k with serving := some p }) := by
  subst hx hframe
  rw [trapServe, htraps, hserving]
  simp only [hrun, Bool.false_eq_true, if_false, hu, Bool.and_true]

/-! ### The handler wave's ERET -/

theorem eretWith_of_serving (act : Nat → Trap → State → State) (hl : (s.execLanes f).head? = some l) (hc : l.th.handlerOf = some c)
    (hp : (s.core c).serving = some p) : eretWith f act s = act c p s := by
  rw [eretWith, firstLane, hl]
  simp only [hc, hp]

/-- What ERET makes of a trapped thread. -/
def resumedAt (epc : DWord) (t : Thread) : Thread :=
  { t with stopped := false, entryCheck := false, pc := epc, resume := if t.resume.isSome then some epc else none }
theorem resumedAt_idem (epc : DWord) (t : Thread) : resumedAt epc (resumedAt epc t) = resumedAt epc t := by
  cases h : t.resume <;> simp [resumedAt, h]

theorem eret_of_serving (hl : (s.execLanes f).head? = some l) (hc : l.th.handlerOf = some c) (hp : (s.core c).serving = some p)
    (hr : p.redund = false) (hslot : slotOf p.regs.epc ≠ none) :
    eret f s = (endHandler c s).modThreads p.threads (resumedAt p.regs.epc) := by
  have hnone : ¬ (slotOf p.regs.epc).isNone = true := by simpa using hslot
  rw [eret, eretWith_of_serving _ hl hc hp, if_neg (by simp [hr]), if_neg hnone]
  rfl
theorem eretExit_of_serving (hl : (s.execLanes f).head? = some l) (hc : l.th.handlerOf = some c) (hp : (s.core c).serving = some p) :
    eretExit f s = retireTrapped p (endHandler c s) := eretWith_of_serving _ hl hc hp
theorem eretFail_of_serving (hl : (s.execLanes f).head? = some l) (hc : l.th.handlerOf = some c) (hp : (s.core c).serving = some p) :
    eretFail f s = failTrap p p.regs.cause (endHandler c s) := by
  rw [eretFail, eretWith_of_serving _ hl hc hp, eretFailing, failServed, hp]
theorem retireTrapped_of_none (h : p.threads = []) : retireTrapped p s = s := by rw [retireTrapped, h]; rfl

/-- A grid that is cancelled already only keeps the cause it fails with, the first one. -/
theorem grid?_failGrid_of_cancelled {k : Nat} {cause : Byte} {g : Grid} (hg : s.grid? k = some g) (hcancel : g.cancel ≠ none) :
    (failGrid k cause s).grid? k = some { g with fail := some (g.fail.getD cause) } := by
  have hmod : (s.modGrid k fun g => { g with fail := some (g.fail.getD cause) }).grid? k = some { g with fail := some (g.fail.getD cause) } := by
    rw [State.modGrid, hg]
    exact tab_find_put_self _ _ _
  have hsome : ((s.modGrid k fun g => { g with fail := some (g.fail.getD cause) }).grid k).cancel.isSome = true := by
    rw [State.grid, Tab.get, show Tab.find _ k = _ from hmod]
    exact Option.isSome_iff_ne_none.2 hcancel
  rw [failGrid, cancelGrid, if_pos hsome, hmod]

end

/-- Settles O37: the frame's store decides what serving does (`trapServe_of_written`); ERET in all forms ends the handler wave
(`endHandler_spec`), and then resumes, retires or fails the trapped threads. -/
theorem handlerReturns : Obligations.HandlerReturns := by
  unfold Obligations.HandlerReturns
  refine ⟨fun s c p ps x frame htraps hserving hrun hx hframe u hu => ⟨fun hvec => ?_, fun hvec => ?_⟩,
    fun f s l c p hl hc hp hsingle => ?_, fun f s l c k p x hl hc hp hsingle hthreads hk hoff hgroup hbatch hwaves => ?_⟩
  · obtain ⟨⟨hmem, hcore⟩, -, hnew, hold⟩ := addThreads_spec (fun h =>
      { Thread.setRegs {} 0 [loW (BitVec.ofNat 64 frame), hiW (BitVec.ofNat 64 frame), p.regs.cause.setWidth 32] with
        team := p.team, handlerOf := some c, pc := vecEntry (s.ctx x).pvec, entryCheck := true, lastIssue := s.clock,
        slot := Config.handlerSlot, hidx := h, lane := h }) 32 (u.modCore c fun k => { k with serving := some p })
    have hserve := trapServe_of_written htraps hserving hrun hx hframe hu
    rw [hvec, Bool.not_true, if_neg Bool.false_ne_true] at hserve
    refine ⟨_, congrArg Host.Outcome.next hserve, hmem, ?_, fun d hd => ?_, hnew, fun k hlt => hold k (.inl hlt)⟩
    · rw [hcore, core_modCore, if_pos rfl]
    · rw [hcore, core_modCore, if_neg hd]
  · have hserve := trapServe_of_written htraps hserving hrun hx hframe hu
    rw [hvec, Bool.not_false, if_pos rfl] at hserve
    exact congrArg Host.Outcome.next hserve
  · obtain ⟨hcore, hcores, hnone, hthreads⟩ := endHandler_spec c s hsingle
    refine ⟨fun hr hslot => ?_, fun hempty => ⟨?_, ?_, fun g hg hcancel => ?_⟩⟩
    · have hsame : SameButThreads (endHandler c s) ((endHandler c s).modThreads p.threads (resumedAt p.regs.epc)) :=
        sameT_modThreads _ _ _
      refine ⟨_, congrArg Host.Outcome.next (eret_of_serving hl hc hp hr hslot), ?_, ?_, fun d hd => ?_,
        modThreads_handlers _ (resumedAt _) (fun _ => rfl) _ _ hnone, fun k x hk hoff => ?_⟩
      · rw [core_sameT hsame, hcore]
      · rw [core_sameT hsame, hcore]
      · rw [core_sameT hsame, hcores d hd]
      · rw [thread?_modThreads_idem _ _ (resumedAt_idem _), hthreads k hoff, hk]
        split <;> rfl
    · refine ⟨_, congrArg Host.Outcome.next (eretExit_of_serving hl hc hp), ?_⟩
      rw [retireTrapped_of_none hempty]
      exact ⟨by rw [hcore], hnone, fun k x hk hoff => (hthreads k hoff).trans hk⟩
    · rintro u rfl
      refine congrArg Host.Outcome.next ((eretFail_of_serving hl hc hp).trans ?_)
      rw [failTrap, retireTrapped_of_none hempty]
    · refine ⟨_, congrArg Host.Outcome.next (eretFail_of_serving hl hc hp), ?_⟩
      rw [failTrap, retireTrapped_of_none hempty]
      exact grid?_failGrid_of_cancelled hg hcancel
  · obtain ⟨hcore, -, -, hsame⟩ := endHandler_spec c s hsingle
    obtain ⟨hgone, hserving⟩ := retireThread_alone false ((hsame k hoff).trans hk) hgroup hbatch hwaves
    refine ⟨_, congrArg Host.Outcome.next (eretExit_of_serving hl hc hp), ?_⟩
    rw [retireTrapped, hthreads]
    exact ⟨by rw [List.foldl_cons, List.foldl_nil, hserving, hcore], hgone⟩

end Sys2Proof.Proofs
end

section
/-!
PROOFS. The software traps and the debugging instructions (spec 20 R388, R390, 21 R407, R410).
-/
namespace Sys2Proof.Proofs
open Machine Laws

section
variable {f : Fields} {s : State}

/-! ### One privileged trap after the instruction -/

theorem stopWith_resuming {v : TrapVal} (h : v.cause ≠ 0x10 ∧ v.cause ≠ 0x11) (a : TrapAt) (t : Thread) :
    stopWith a v t = t.stoppedAt a.epc t.resume := by
  rw [stopWith, if_neg (not_or.2 h)]
theorem stopWith_debug {v : TrapVal} (h : v.cause = 0x10) (a : TrapAt) (t : Thread) :
    stopWith a v t = t.stoppedAt a.epc (some a.epc) := by
  rw [stopWith, if_pos (.inl h)]

/-- The place after the issuing wave's instruction. -/
def pastHere (s : State) : TrapAt := { s.here with after := true }

/-- One privileged trap of every executing thread, taken after the instruction. -/
theorem takePriv_past {ids : List Nat} {c : Nat} {v : TrapVal} (hs : LanesSound s) (hids : ids.Perm ((s.execLanes f).map Lane.id))
    (hne : s.execLanes f ≠ []) (hc : ∀ k ∈ s.execLanes f, k.th.handlerOf = none ∧ s.coreOf k.th = c) :
    ∃ tr, TrapQueued s (takePriv (advance s) ids (pastHere s) v) c tr ∧ tr.after = true ∧
      tr.regs = { cause := v.cause, epc := succPc (s.wave s.curWave).pc, eaddr := v.eaddr, einfo := v.einfo } ∧
      LanesBecome f s (takePriv (advance s) ids (pastHere s) v) fun l => stopWith (pastHere s) v (nextTh s l.th) := by
  obtain ⟨tr, hqueued, hregs, -, -, hafter, -, hlanes⟩ := takePriv_advance (a := pastHere s) (v := v) hs hids hne hc
  exact ⟨tr, hqueued, hafter, hregs.trans (privRegs_after (.inl rfl)), hlanes⟩

/-! ### A context that no debugger watches -/

theorem bkpt_of_unwatched (h : s.hereDbg = false) : bkpt f s = advance s := by
  rw [bkpt, if_pos (by simp [h])]
theorem mark_of_unwatched (h : s.hereDbg = false) : mark f s = advance s := by
  rw [mark, waveOnce]
  split
  · rfl
  · rw [if_pos (by simp [h])]
theorem smpl_of_unwatched (h : s.hereDbg = false) : smpl f s = advance s := by
  rw [smpl, waveOnce]
  split
  · rfl
  · rw [if_pos (by simp [h])]

/-! ### A watched context -/

theorem bkpt_of_watched (h : s.hereDbg = true) (hne : s.execLanes f ≠ []) :
    bkpt f s = takePriv (advance s) ((s.execLanes f).map Lane.id) (pastHere s)
      { cause := 0x10, einfo := (f.imm.extractLsb' 0 16).setWidth 64 <<< 48 ||| s.hereOrdinal.setWidth 64 } := by
  rw [bkpt, if_neg (by simp [h, hne])]
  rfl
theorem smpl_of_watched (h : s.hereDbg = true) (hne : s.execLanes f ≠ []) :
    smpl f s = (advance s).modThreads (s.activeNow.map Lane.id) fun t => { t with smpl := true } := by
  obtain ⟨l, ls, hl⟩ := List.exists_cons_of_ne_nil hne
  rw [smpl, waveOnce, firstLane, hl]
  simp only [List.head?_cons, h, Bool.not_true, Bool.false_eq_true, if_false]
  rfl

/-- The record that MARK appends. -/
def markRecord (s : State) (f : Fields) (l : Lane) : List Byte :=
  let w := s.wave s.curWave
  record (recordWord 3 0 w.core w.quad w.slot) s.hereOrdinal s.dtime
    (natLe 2 (f.imm.extractLsb' 0 16).toNat ++ natLe 2 0 ++ natLe 4 (reg32 l.th f.a).toNat ++ natLe 4 (s.team s.curTeam).index ++ natLe 4 0)
theorem mark_of_traced {l : Lane} (hl : (s.execLanes f).head? = some l) (hd : s.hereDbg = true) (ht : (s.ctx s.hereCtx).blk.trc = true) :
    mark f s = putRecord s.hereCtx (markRecord s f l) (advance s) := by
  rw [mark, waveOnce, firstLane, hl]
  simp only [hd, ht, Bool.and_self, Bool.not_true, Bool.false_eq_true, if_false]
  rfl

theorem ctx_advance (x : Nat) : (advance s).ctx x = s.ctx x := by rw [sameT_advance s]; rfl
theorem mem_advance : (advance s).mem = s.mem := by rw [sameT_advance s]

/-- A ring without room drops the record and counts it. -/
theorem putRecord_of_full {x : Nat} {bs : List Byte} (hd : (s.ctx x).dbg = true)
    (h : 2 ^ ((s.ctx x).blk.bufn.toNat % 32) ≤ ((s.ctx x).blk.head - (s.ctx x).blk.tail).toNat) :
    putRecord x bs s = s.modCtx x fun c => { c with blk := c.blk.dropOne } := by
  simp only [putRecord]
  rw [if_neg (by simp [hd]), if_pos h]
/-- A ring with room takes the record at its head. -/
theorem putRecord_of_room {x : Nat} {bs : List Byte} {v : State} (hd : (s.ctx x).dbg = true)
    (h : ((s.ctx x).blk.head - (s.ctx x).blk.tail).toNat < 2 ^ ((s.ctx x).blk.bufn.toNat % 32))
    (hv : vaWrite (devWho x) { w := true }
      ((s.ctx x).blk.buf.toNat + 32 * ((s.ctx x).blk.head.toNat % 2 ^ ((s.ctx x).blk.bufn.toNat % 32))) bs s = .ok v) :
    putRecord x bs s = v.modCtx x fun c => { c with blk := { c.blk with head := c.blk.head + 1 } } := by
  simp only [putRecord]
  rw [if_neg (by simp [hd]), if_neg (by omega), hv]

end

/-- Settles O39: a user-level trap of each executing thread (`takeUsers_advance`), one privileged trap of all of them
(`takePriv_past`), and the debugging instructions by whether the context is watched. -/
theorem softwareTraps : Obligations.SoftwareTraps := by
  unfold Obligations.SoftwareTraps
  refine ⟨fun f s pc hs hpc he => ?_, fun f s l c hs hl hc => ?_, fun f s hs => ⟨fun hd => ?_, fun hd hne => ?_⟩,
    fun f s l x d w bs hs hl hx hd hdef ht hw hbs => ⟨fun hfull => ?_, fun hroom v hv => ?_⟩⟩
  · subst hpc
    obtain ⟨hsame, hlanes⟩ := takeUsers_advance (a := pastHere s)
      (v := fun l => { cause := trapCause f, einfo := (reg32 l.th f.a).setWidth 64 }) hs he
    exact ⟨_, rfl, hsame, hlanes⟩
  · have hne : s.execLanes f ≠ [] := by
      rintro h
      rw [h] at hl
      cases hl
    refine ⟨fun hcause => ?_, fun hd => ?_⟩
    · obtain ⟨ls, hls⟩ : ∃ ls, byHidx (s.execLanes f) = l :: ls := by
        cases h : byHidx (s.execLanes f) with
        | nil => rw [h] at hl; cases hl
        | cons a ls => rw [h] at hl; cases hl; exact ⟨ls, rfl⟩
      obtain ⟨tr, hqueued, hafter, hregs, hlanes⟩ := takePriv_past (ids := (byHidx (s.execLanes f)).map Lane.id)
        (v := { cause := trapCause f, einfo := (reg32 l.th f.a).setWidth 64 }) hs ((byHidx_perm _).map _) hne hc
      have hexec : trapPriv f s = takePriv (advance s) ((byHidx (s.execLanes f)).map Lane.id) (pastHere s)
          { cause := trapCause f, einfo := (reg32 l.th f.a).setWidth 64 } := by
        rw [trapPriv, hls]
        rfl
      refine ⟨_, tr, congrArg Host.Outcome.next hexec, hqueued, hafter, hregs, ?_⟩
      simp only [stopWith_resuming (v := { cause := trapCause f, einfo := _ }) hcause] at hlanes
      exact hlanes
    · obtain ⟨tr, hqueued, hafter, hregs, hlanes⟩ := takePriv_past (v :=
        { cause := 0x10, einfo := (f.imm.extractLsb' 0 16).setWidth 64 <<< 48 ||| s.hereOrdinal.setWidth 64 })
        hs (List.Perm.refl _) hne hc
      refine ⟨_, tr, congrArg Host.Outcome.next (bkpt_of_watched hd hne), hqueued, hafter, hregs, ?_⟩
      simp only [stopWith_debug (v := { cause := 0x10, einfo := _ }) rfl] at hlanes
      exact hlanes
  · exact ⟨advance s, sameT_advance s, lanesBecome_advance hs, congrArg Host.Outcome.next (bkpt_of_unwatched hd),
      congrArg Host.Outcome.next (mark_of_unwatched hd), congrArg Host.Outcome.next (smpl_of_unwatched hd)⟩
  · obtain ⟨-, hactive, hother⟩ := advance_spec s hs
    refine ⟨_, congrArg Host.Outcome.next (smpl_of_watched hd hne), sameT_trans (sameT_advance s) (sameT_modThreads _ _ _),
      fun l hl => ?_, fun k hk => ?_⟩
    · rw [thread?_modThreads _ _ _ hs.1, if_pos (List.mem_map.2 ⟨l, hl, rfl⟩), hactive l hl]
      rfl
    · rw [thread?_modThreads_of_notMem _ _ _ _ hk, hother k hk]
  · subst hx hdef hw hbs
    rw [← ctx_advance] at hfull
    refine ⟨_, congrArg Host.Outcome.next ((mark_of_traced hl hd ht).trans (putRecord_of_full (by rw [ctx_advance]; exact hd) hfull)),
      lanesBecome_advance hs, mem_advance, ?_⟩
    rw [State.modCtx, State.ctx, State.setCtx, tab_get_put, if_pos rfl, ctx_advance]
    rfl
  · subst hx hdef hw hbs
    refine congrArg Host.Outcome.next ((mark_of_traced hl hd ht).trans (putRecord_of_room ?_ ?_ ?_))
    · rw [ctx_advance]; exact hd
    · rw [ctx_advance]; exact hroom
    · rw [ctx_advance]; exact hv

end Sys2Proof.Proofs
end

section
/-!
PROOFS. Photonic ring banks (spec 23 R437 to R442): maps, readings, retraining, status and the heaters of a frozen module.
-/
namespace Sys2Proof.Proofs
open Machine Laws

/-! ### Maps -/

theorem mem_rings {k : Nat} : k ∈ rings ↔ k < 17 := List.mem_range
theorem nodup_rings : rings.Nodup := List.nodup_range

/-- No channel is that of two rings. -/
theorem ringsOf_length_le_one (g : Nat → Nat) (c : Nat) :
    ((rings.map g).filter fun k => k == c).length ≤ 1 ↔ ∀ j k, j < k → k < 17 → g j = c → g k ≠ c := by
  have hcard : ((rings.map g).filter fun k => k == c).length = ((Finset.range 17).filter fun k => g k = c).card := by
    rw [List.filter_map, List.length_map]
    exact congrArg List.length (List.filter_congr fun k _ => (Bool.beq_eq_decide_eq (g k) c))
  rw [hcard, Finset.card_le_one]
  simp only [Finset.mem_filter, Finset.mem_range]
  constructor
  · intro h j k hjk hk hj hc
    exact absurd (h j ⟨by omega, hj⟩ k ⟨hk, hc⟩) (by omega)
  · rintro h j ⟨hj, hjc⟩ k ⟨hk, hkc⟩
    rcases Nat.lt_trichotomy j k with hlt | heq | hgt
    · exact absurd hkc (h j k hlt hk hjc)
    · exact heq
    · exact absurd hjc (h k j hgt hj hkc)

theorem mapOk_iff (m : Vector Word 3) : mapOk m = true ↔ (∀ k, k < 17 → mapField m k < 16 ∨ mapField m k = 31) ∧
    ∀ j k, j < k → k < 17 → mapField m j = mapField m k → mapField m k = 31 := by
  simp only [mapOk, Bool.and_eq_true, List.all_eq_true, List.mem_map, mem_rings, List.mem_range, decide_eq_true_eq, Bool.or_eq_true,
    beq_iff_eq, ringsOf_length_le_one]
  constructor
  · rintro ⟨hfields, honce⟩
    have hfield : ∀ k, k < 17 → mapField m k < 16 ∨ mapField m k = 31 := fun k hk => hfields _ ⟨k, hk, rfl⟩
    refine ⟨hfield, fun j k hjk hk he => ?_⟩
    rcases hfield k hk with hlt | hfree
    · exact absurd rfl (honce _ hlt j k hjk hk he)
    · exact hfree
  · rintro ⟨hfield, honce⟩
    refine ⟨?_, fun c hc j k hjk hk hj hkc => ?_⟩
    · rintro _ ⟨k, hk, rfl⟩
      exact hfield k hk
    · have := honce j k hjk hk (hj.trans hkc.symm)
      omega

/-! ### The parts of a bank -/

section
variable (x : PhBank) (k : Nat)

/-- The end of a hold touches the hold alone. -/
theorem settle_eq : x.settle = { x with busy := x.settle.busy, moved := x.settle.moved } := by
  rw [PhBank.settle]
  split <;> rfl
theorem settle_map : x.settle.map = x.map := by rw [settle_eq]
theorem settle_htr : x.settle.htr = x.htr := by rw [settle_eq]
theorem settle_drift : x.settle.drift = x.drift := by rw [settle_eq]
theorem settle_mapErr : x.settle.mapErr = x.mapErr := by rw [settle_eq]
theorem settle_err : x.settle.err k = x.err k := by
  rw [settle_eq]
  rfl
theorem settle_code : x.settle.code k = x.code k := by
  rw [settle_eq]
  rfl

variable {x}
theorem settle_busy_of_all (h : ∀ k ∈ x.moved, -8 ≤ x.err k ∧ x.err k ≤ 8) : x.settle.busy = none := by
  rw [PhBank.settle]
  split
  · rfl
  next hno =>
    have hall : x.moved.all (fun k => decide (-8 ≤ x.err k ∧ x.err k ≤ 8)) = true :=
      List.all_eq_true.2 fun k hk => decide_eq_true (h k hk)
    rw [hall, Bool.and_true] at hno
    simpa using hno
theorem settle_busy_of_off {k : Nat} (hk : k ∈ x.moved) (h : x.err k < -8 ∨ 8 < x.err k) : x.settle.busy = x.busy := by
  rw [PhBank.settle, if_neg]
  intro hall
  have hon := of_decide_eq_true (List.all_eq_true.1 (Bool.and_eq_true_iff.1 hall).2 k hk)
  omega

end

theorem bankOf_setBank (b c : Nat) (x : PhBank) (s : State) : bankOf (setBank b x s) c = if c = b then x else bankOf s c :=
  tab_get_put _ _ _ _ _
theorem bankOf_setBank_self (b : Nat) (x : PhBank) (s : State) : bankOf (setBank b x s) b = x := by rw [bankOf_setBank, if_pos rfl]
theorem bankOf_setBank_ne {b c : Nat} (h : c ≠ b) (x : PhBank) (s : State) : bankOf (setBank b x s) c = bankOf s c := by
  rw [bankOf_setBank, if_neg h]

/-! ### MAPGO -/

section
variable {s : State} {b : Nat}

theorem mapgo_of_refused (h : (bankOf s b).busy.isSome = true ∨ mapOk (bankOf s b).staged = false) :
    phbCtlMapgo b s = setBank b { bankOf s b with mapErr := true } s := by
  rw [phbCtlMapgo]
  exact if_pos (by simpa using h)

/-- The bank that takes its staged map at a time, its hold started. -/
def mapped (x : PhBank) (t : Nat) : PhBank :=
  { x with map := x.staged, busy := some t, moved := rings.filter fun k => mapField x.staged k != x.chan k }
theorem mapgo_of_taken (hbusy : (bankOf s b).busy = none) (hok : mapOk (bankOf s b).staged = true) :
    phbCtlMapgo b s = setBank b (mapped (bankOf s b) s.dtime).settle s := by
  rw [phbCtlMapgo]
  exact if_neg (by simp [hbusy, hok])
theorem mem_mapped {x : PhBank} {t k : Nat} : k ∈ (mapped x t).moved ↔ k < 17 ∧ mapField x.staged k ≠ x.chan k := by
  simp [mapped, mem_rings]

end

/-! ### Readings -/

/-- The offset of a ring that reads an error. -/
def driftAt (x : PhBank) (k : Nat) (e : Int) : Int := e - designed k - 2 * (x.code k : Int) + 640 * (x.chan k : Int)
/-- A bank that differs from another in where its rings lie alone. -/
def SameRings (x y : PhBank) : Prop := y = { x with drift := y.drift }
theorem sameRings_trans {x y z : PhBank} (h1 : SameRings x y) (h2 : SameRings y z) : SameRings x z := by
  rw [SameRings] at *
  rw [h2, h1]
theorem SameRings.chan {x y : PhBank} (h : SameRings x y) (k : Nat) : y.chan k = x.chan k := by
  rw [show y = { x with drift := y.drift } from h]
  rfl
theorem SameRings.code {x y : PhBank} (h : SameRings x y) (k : Nat) : y.code k = x.code k := by
  rw [show y = { x with drift := y.drift } from h]
  rfl
theorem SameRings.map {x y : PhBank} (h : SameRings x y) : y.map = x.map := by
  rw [show y = { x with drift := y.drift } from h]
theorem SameRings.busy {x y : PhBank} (h : SameRings x y) : y.busy = x.busy := by
  rw [show y = { x with drift := y.drift } from h]
theorem SameRings.moved {x y : PhBank} (h : SameRings x y) : y.moved = x.moved := by
  rw [show y = { x with drift := y.drift } from h]
theorem SameRings.driftAt {x y : PhBank} (h : SameRings x y) (k : Nat) (e : Int) : driftAt y k e = driftAt x k e := by
  rw [Proofs.driftAt, h.chan, h.code, Proofs.driftAt]

theorem sense_sameRings (x : PhBank) (k : Nat) (e : Int) : SameRings x (x.sense k e) := by
  rw [PhBank.sense]
  split <;> rfl
theorem sense_drift (x : PhBank) (k j : Nat) (e : Int) :
    Tab.get (x.sense k e).drift j 0 = if j = k ∧ x.chan k ≠ 31 then driftAt x k e else Tab.get x.drift j 0 := by
  rw [PhBank.sense]
  by_cases hc : x.chan k = 31
  · rw [if_pos hc, if_neg (by simp [hc])]
  · rw [if_neg hc]
    simp only [tab_get_put, ne_eq, hc, not_false_eq_true, and_true]
    rfl

/-- Readings of the rings from one on, in order: each fixes the place of its own ring. -/
def senses (n : Nat) (es : List (BitVec 12)) (x : PhBank) : PhBank :=
  (es.zipIdx n).foldl (fun (x : PhBank) e => x.sense e.2 e.1.toInt) x
theorem senses_spec (es : List (BitVec 12)) (n : Nat) (x : PhBank) : SameRings x (senses n es x) ∧
    (∀ k, k < n → Tab.get (senses n es x).drift k 0 = Tab.get x.drift k 0) ∧
      ∀ i e, es[i]? = some e → x.chan (n + i) ≠ 31 → Tab.get (senses n es x).drift (n + i) 0 = driftAt x (n + i) e.toInt := by
  induction es generalizing n x with
  | nil => exact ⟨rfl, fun _ _ => rfl, fun i e he => by simp at he⟩
  | cons a es ih =>
    have hone := sense_sameRings x n a.toInt
    obtain ⟨hsame, hbelow, hat⟩ := ih (n + 1) (x.sense n a.toInt)
    refine ⟨sameRings_trans hone hsame, fun k hk => ?_, fun i e he hc => ?_⟩
    · refine (hbelow k (by omega)).trans ?_
      rw [sense_drift, if_neg (by omega)]
    · cases i with
      | zero =>
        refine (hbelow n (by omega)).trans ?_
        rw [sense_drift, if_pos ⟨rfl, hc⟩]
        rw [List.getElem?_cons_zero, Option.some_inj] at he
        rw [he]
        rfl
      | succ i =>
        have hi := hat i e (by simpa using he)
        rw [show n + 1 + i = n + (i + 1) by omega, hone.chan, hone.driftAt] at hi
        exact hi hc

theorem toInt_bounds (e : BitVec 12) : -2048 ≤ e.toInt ∧ e.toInt ≤ 2047 := by
  have hlo := BitVec.le_toInt e
  have hhi := BitVec.toInt_lt (x := e)
  omega
/-- An assigned ring reads the error that its bank was given. -/
theorem senses_err {x : PhBank} {es : List (BitVec 12)} {k : Nat} {e : BitVec 12} (hk : k < 17) (he : es[k]? = some e) (hc : x.chan k ≠ 31) :
    (senses 0 (es.take 17) x).err k = e.toInt := by
  obtain ⟨hsame, -, hat⟩ := senses_spec (es.take 17) 0 x
  have hdrift := hat k e (by rw [List.getElem?_take_of_lt hk, he]) (by rwa [Nat.zero_add])
  rw [Nat.zero_add] at hdrift
  have hsum : designed k + driftAt x k e.toInt + 2 * (x.code k : Int) - 640 * (x.chan k : Int) = e.toInt := by
    rw [driftAt]
    omega
  obtain ⟨hlo, hhi⟩ := toInt_bounds e
  simp only [PhBank.err, hsame.chan, hsame.code, hdrift, hsum, hc, if_false]
  rw [if_neg (by omega), if_neg (by omega)]

/-! ### Rings unassigned -/

theorem getLsbD_ones5 (n : Nat) : (31#32).getLsbD n = decide (n < 5) := by
  by_cases h : n < 32
  · interval_cases n <;> rfl
  · rw [BitVec.getLsbD_of_ge _ _ (by omega)]
    exact (decide_eq_false (by omega)).symm
/-- One of a word's six fields set to ones: that field reads 31 and the others are as they were. -/
theorem field_setOnes (w : Word) {a c : Nat} (ha : a < 6) (hc : c < 6) :
    ((w &&& ~~~(31#32 <<< (5 * a))) ||| (31#32 <<< (5 * a))).extractLsb' (5 * c) 5 = if c = a then 31#5 else w.extractLsb' (5 * c) 5 := by
  refine BitVec.eq_of_getLsbD_eq fun i hi => ?_
  have hin : 5 * c + i < 32 := by omega
  have hones : ((31#32) <<< (5 * a)).getLsbD (5 * c + i) = decide (c = a) := by
    rw [BitVec.getLsbD_shiftLeft, getLsbD_ones5]
    by_cases hca : c = a
    · subst hca
      simp [hin, hi]
    · by_cases hlt : 5 * c + i < 5 * a
      · simp [hlt, hca]
      · simp [hca, show ¬ 5 * c + i - 5 * a < 5 by omega]
  rw [BitVec.getLsbD_extractLsb', BitVec.getLsbD_or, BitVec.getLsbD_and, BitVec.getLsbD_not, hones]
  by_cases hca : c = a
  · rw [if_pos hca, decide_eq_true hca, Bool.or_true, decide_eq_true hi, Bool.true_and]
    interval_cases i <;> rfl
  · rw [if_neg hca, decide_eq_false hca, BitVec.getLsbD_extractLsb']
    simp [hin]
theorem vector_getD_of_lt {α : Type} {n : Nat} (v : Vector α n) {i : Nat} (h : i < n) (d : α) : v.getD i d = v[i] := by
  simp [Vector.getD, h]
theorem mapField_putField_free (m : Vector Word 3) {j : Nat} (hj : j < 18) (k : Nat) :
    mapField (putField m k 31) j = if j = k then 31 else mapField m j := by
  have hword : (putField m k 31).getD (j / 6) 0 = if j / 6 = k / 6
      then (m.getD (k / 6) 0 &&& ~~~(31#32 <<< (5 * (k % 6)))) ||| (31#32 <<< (5 * (k % 6))) else m.getD (j / 6) 0 := by
    have hj3 : j / 6 < 3 := by omega
    rw [putField, vector_getD_of_lt _ hj3, Vector.getElem_setIfInBounds hj3, vector_getD_of_lt m hj3]
    simp only [eq_comm (a := k / 6)]
  rw [mapField, hword]
  by_cases hw : j / 6 = k / 6
  · rw [if_pos hw, field_setOnes _ (by omega) (by omega)]
    by_cases hf : j = k
    · rw [if_pos (by rw [hf]), if_pos hf]
      rfl
    · rw [if_neg (by omega), if_neg hf, mapField, hw]
  · rw [if_neg hw, if_neg (fun h => hw (by rw [h]))]
    rfl

/-- A bank some of whose rings are unassigned. -/
def unassigned (ks : List Nat) (x : PhBank) : PhBank :=
  ks.foldl (fun (y : PhBank) k => { y with map := putField y.map k 31, staged := putField y.staged k 31 }) x
theorem chan_unassigned (ks : List Nat) (x : PhBank) {j : Nat} (hj : j < 17) :
    (unassigned ks x).chan j = if j ∈ ks then 31 else x.chan j := by
  induction ks generalizing x with
  | nil => rfl
  | cons a ks ih =>
    refine (ih _).trans ?_
    have hone : PhBank.chan { x with map := putField x.map a 31, staged := putField x.staged a 31 } j = if j = a then 31 else x.chan j :=
      mapField_putField_free x.map (Nat.lt_succ_of_lt hj) a
    rw [hone]
    by_cases h1 : j ∈ ks
    · rw [if_pos h1, if_pos (List.mem_cons_of_mem _ h1)]
    · by_cases h2 : j = a
      · rw [if_neg h1, if_pos h2, if_pos (by rw [h2]; exact List.mem_cons_self)]
      · rw [if_neg h1, if_neg h2, if_neg (by simp [h1, h2])]

/-- A bank after its port's retraining: the saturated rings are unassigned and no channel is held. -/
def retrained (x : PhBank) : PhBank :=
  if (rings.filter x.sat).isEmpty && x.busy.isNone then x else { unassigned (rings.filter x.sat) x with busy := none, moved := [] }
theorem retrained_busy (x : PhBank) : (retrained x).busy = none := by
  rw [retrained]
  split
  next h => simpa using (Bool.and_eq_true_iff.1 h).2
  · rfl
theorem retrained_chan (x : PhBank) {k : Nat} (hk : k < 17) : (retrained x).chan k = if x.sat k then 31 else x.chan k := by
  have hmem : k ∈ rings.filter x.sat ↔ x.sat k = true := by simp [mem_rings, hk]
  rw [retrained]
  split
  next h =>
    have hnil : rings.filter x.sat = [] := List.isEmpty_iff.1 (Bool.and_eq_true_iff.1 h).1
    rw [hnil] at hmem
    rw [if_neg fun h => List.not_mem_nil (hmem.2 h)]
  · refine (chan_unassigned _ x hk).trans ?_
    simp only [hmem]

section
variable (s : State)

theorem bankOf_dropRings (b c : Nat) : bankOf (dropRings b s) c = if c = b then retrained (bankOf s c) else bankOf s c := by
  have hport : ∀ p w, bankOf (setPort p w s) c = bankOf s c := fun _ _ => rfl
  by_cases hc : c = b
  · subst hc
    rw [if_pos rfl, dropRings, retrained]
    by_cases hnil : (rings.filter (bankOf s c).sat).isEmpty = true
    · simp only [hnil, Bool.true_and, if_true]
      split
      · rfl
      · exact bankOf_setBank_self _ _ _
    · simp only [hnil, Bool.false_and, Bool.false_eq_true, if_false]
      exact bankOf_setBank_self _ _ _
  · rw [if_neg hc, dropRings]
    by_cases hnil : (rings.filter (bankOf s b).sat).isEmpty = true
    · simp only [hnil, Bool.true_and, if_true]
      split
      · rfl
      · exact bankOf_setBank_ne hc _ _
    · simp only [hnil, Bool.false_and, Bool.false_eq_true, if_false]
      exact (bankOf_setBank_ne hc _ _).trans (hport _ _)
theorem mem_dropRings (b : Nat) : (dropRings b s).mem = s.mem := by
  rw [dropRings]
  split <;> split <;> rfl

/-- The first n banks from one on retrained. -/
theorem bankOf_dropEach (a n c : Nat) : bankOf ((List.range n).foldl (fun s i => dropRings (a + i) s) s) c =
    if a ≤ c ∧ c < a + n then retrained (bankOf s c) else bankOf s c := by
  induction n with
  | zero => rw [if_neg (by omega)]; rfl
  | succ n ih =>
    rw [List.range_succ, List.foldl_append, List.foldl_cons, List.foldl_nil, bankOf_dropRings, ih]
    by_cases hlast : c = a + n
    · rw [if_pos hlast, if_neg (by omega), if_pos (by omega)]
    · rw [if_neg hlast]
      by_cases hin : a ≤ c ∧ c < a + n
      · rw [if_pos hin, if_pos (by omega)]
      · rw [if_neg hin, if_neg (by omega)]
theorem mem_dropEach (a n : Nat) : ((List.range n).foldl (fun s i => dropRings (a + i) s) s).mem = s.mem := by
  induction n with
  | zero => rfl
  | succ n ih => rw [List.range_succ, List.foldl_append, List.foldl_cons, List.foldl_nil, mem_dropRings, ih]

theorem bankOf_startRetrain (p c : Nat) : bankOf (startRetrain p s) c = bankOf s c := rfl
theorem mem_startRetrain (p : Nat) : (startRetrain p s).mem = s.mem := rfl
theorem bankOf_retrain (b c : Nat) :
    bankOf (phbCtlRetrain b s) c = if 4 * (b / 4) ≤ c ∧ c < 4 * (b / 4) + 4 then retrained (bankOf s c) else bankOf s c := by
  rw [phbCtlRetrain, bankOf_startRetrain, bankOf_dropEach]
theorem mem_retrain (b : Nat) : (phbCtlRetrain b s).mem = s.mem := by
  rw [phbCtlRetrain, mem_startRetrain, mem_dropEach]
theorem port_setPort (p q : Nat) (x : Port) : port (setPort p x s) q = if q = p then x else port s q := tab_get_put _ _ _ _ _
theorem port_setPort_self (p : Nat) (x : Port) : port (setPort p x s) p = x := by rw [port_setPort, if_pos rfl]
theorem port_setPort_ne {p q : Nat} (h : q ≠ p) (x : Port) : port (setPort p x s) q = port s q := by rw [port_setPort, if_neg h]
theorem port_startRetrain (p : Nat) : port (startRetrain p s) p = { port s p with st := 1, fails := 0 } := port_setPort_self s p _

end

/-! ### PHB_STAT -/

/-- A number with one bit for each ring that a test names. -/
theorem ringBits (p : Nat → Bool) (n : Nat) : ((List.range n).filter p).foldl (fun m k => m + 2 ^ k) 0 < 2 ^ n ∧
    ∀ k, k < n → (((List.range n).filter p).foldl (fun m k => m + 2 ^ k) 0).testBit k = p k := by
  induction n with
  | zero => exact ⟨Nat.one_pos, fun k hk => absurd hk (Nat.not_lt_zero k)⟩
  | succ n ih =>
    obtain ⟨hlt, hbit⟩ := ih
    have hlast : ((List.range (n + 1)).filter p).foldl (fun m k => m + 2 ^ k) 0 =
        2 ^ n * (p n).toNat + ((List.range n).filter p).foldl (fun m k => m + 2 ^ k) 0 := by
      rw [List.range_succ, List.filter_append, List.foldl_append]
      cases hp : p n <;> simp [hp, Nat.add_comm]
    rw [hlast, Nat.pow_succ]
    refine ⟨by have := Bool.toNat_le (p n); nlinarith, fun k hk => ?_⟩
    rw [Nat.testBit_two_pow_mul_add _ hlt]
    split
    next hkn => exact hbit k hkn
    next hkn =>
      obtain rfl : k = n := by omega
      rw [Nat.sub_self]
      cases p k <;> rfl
/-- One flag above a number's bits. -/
theorem testBit_flag (a : Bool) {n r k : Nat} (hr : r < 2 ^ n) : (a.toNat * 2 ^ n + r).testBit k =
    if k < n then r.testBit k else if k = n then a else false := by
  rw [Nat.mul_comm, Nat.testBit_two_pow_mul_add _ hr]
  split
  · rfl
  next hk =>
    split
    next heq =>
      rw [heq, Nat.sub_self]
      cases a <;> rfl
    next hne =>
      obtain ⟨d, hd⟩ : ∃ d, k - n = d + 1 := ⟨k - n - 1, by omega⟩
      rw [hd, Nat.testBit_succ]
      cases a <;> simp
theorem flag_lt (a : Bool) {n r : Nat} (hr : r < 2 ^ n) : a.toNat * 2 ^ n + r < 2 ^ (n + 1) := by
  have := Bool.toNat_le a
  rw [Nat.pow_succ]
  nlinarith

/-- Four flags at bits 31 to 28 above a number of seventeen bits. -/
theorem testBit_flags (a b c d : Bool) {r : Nat} (hr : r < 2 ^ 17) :
    let n := a.toNat * 2 ^ 31 + b.toNat * 2 ^ 30 + c.toNat * 2 ^ 29 + d.toNat * 2 ^ 28 + r
    n.testBit 31 = a ∧ n.testBit 30 = b ∧ n.testBit 29 = c ∧ ∀ k, k < 17 → n.testBit k = r.testBit k := by
  intro n
  have hr28 : r < 2 ^ 28 := by omega
  have h28 := flag_lt d hr28
  have h29 := flag_lt c h28
  have h30 := flag_lt b h29
  have hn : n = a.toNat * 2 ^ 31 + (b.toNat * 2 ^ 30 + (c.toNat * 2 ^ 29 + (d.toNat * 2 ^ 28 + r))) := by omega
  refine ⟨?_, ?_, ?_, fun k hk => ?_⟩
  · rw [hn, testBit_flag _ h30, if_neg (by omega), if_pos rfl]
  · rw [hn, testBit_flag _ h30, if_pos (by omega), testBit_flag _ h29, if_neg (by omega), if_pos rfl]
  · rw [hn, testBit_flag _ h30, if_pos (by omega), testBit_flag _ h29, if_pos (by omega), testBit_flag _ h28, if_neg (by omega), if_pos rfl]
  · rw [hn, testBit_flag _ h30, if_pos (by omega), testBit_flag _ h29, if_pos (by omega), testBit_flag _ h28, if_pos (by omega),
      testBit_flag _ hr28, if_pos (by omega)]
theorem phbStat_eq (s : State) (b : Nat) : ∃ down : Bool, phbStat s b =
    BitVec.ofNat 32 ((bankOf s b).busy.isSome.toNat * 2 ^ 31 + ((bankOf s b).chan 16 != 31).toNat * 2 ^ 30 + (bankOf s b).mapErr.toNat * 2 ^ 29 +
      down.toNat * 2 ^ 28 + (rings.filter (bankOf s b).sat).foldl (fun n k => n + 2 ^ k) 0) := ⟨_, rfl⟩
/-- The bits of PHB_STAT (spec 23 R437). -/
theorem getLsbD_phbStat (s : State) (b : Nat) : (phbStat s b).getLsbD 31 = (bankOf s b).busy.isSome ∧
    (phbStat s b).getLsbD 30 = ((bankOf s b).chan 16 != 31) ∧ (phbStat s b).getLsbD 29 = (bankOf s b).mapErr ∧
    ∀ k, k < 17 → (phbStat s b).getLsbD k = (bankOf s b).sat k := by
  obtain ⟨hlt, hbit⟩ := ringBits (bankOf s b).sat 17
  rw [show List.range 17 = rings from rfl] at hlt hbit
  obtain ⟨down, hstat⟩ := phbStat_eq s b
  obtain ⟨h31, h30, h29, hrings⟩ := testBit_flags (bankOf s b).busy.isSome ((bankOf s b).chan 16 != 31) (bankOf s b).mapErr down hlt
  have hread : ∀ k, k < 32 → (phbStat s b).getLsbD k = Nat.testBit _ k := fun k hk => by
    rw [hstat, BitVec.getLsbD_ofNat, decide_eq_true hk, Bool.true_and]
  exact ⟨(hread 31 (by omega)).trans h31, (hread 30 (by omega)).trans h30, (hread 29 (by omega)).trans h29,
    fun k hk => (hread k (by omega)).trans ((hrings k hk).trans (hbit k hk))⟩

theorem bankOf_onBus (n b : Nat) (s : State) : bankOf (onBus n s) b = bankOf s b := rfl
/-- The bank whose MAPERR a read has cleared. -/
theorem bankOf_statRead (s : State) (b : Nat) : bankOf (phbStatRead b s) b = { bankOf s b with mapErr := false } := by
  have hread : ∀ n, bankOf (onBus n (if (bankOf s b).mapErr then setBank b { bankOf s b with mapErr := false } s else s)) b =
      { bankOf s b with mapErr := false } := fun n => by
    rw [bankOf_onBus]
    by_cases h : (bankOf s b).mapErr = true
    · rw [if_pos h, bankOf_setBank_self]
    · rw [if_neg h, ← eq_false_of_ne_true h]
  exact hread _
theorem onBus_eq (n : Nat) (s : State) : onBus n s = { s with bus := BitVec.ofNat 512 n } := rfl
theorem statRead_eq (s : State) (b : Nat) :
    phbStatRead b s = { s with bus := BitVec.ofNat 512 (phbStat s b).toNat, banks := (phbStatRead b s).banks } := by
  rw [phbStatRead, onBus_eq]
  generalize BitVec.ofNat 512 (phbStat s b).toNat = v
  split <;> rfl

/-! ### The heaters of a frozen module -/

/-- The code that one step toward zero error leaves. -/
def steppedCode (x : PhBank) (k : Nat) : Nat :=
  if 2 ≤ x.err k ∧ 0 < x.code k then x.code k - 1 else if x.err k ≤ -2 ∧ x.code k < 1023 then x.code k + 1 else x.code k
/-- A bank that differs from another in its heaters alone. -/
def SameBank (x y : PhBank) : Prop := y = { x with htr := y.htr }
theorem sameBank_trans {x y z : PhBank} (h1 : SameBank x y) (h2 : SameBank y z) : SameBank x z := by
  rw [SameBank] at *
  rw [h2, h1]
theorem SameBank.map {x y : PhBank} (h : SameBank x y) : y.map = x.map := by
  rw [show y = { x with htr := y.htr } from h]
theorem SameBank.drift {x y : PhBank} (h : SameBank x y) : y.drift = x.drift := by
  rw [show y = { x with htr := y.htr } from h]
theorem sameBank_ringStep (x : PhBank) (k : Nat) : SameBank x (ringStep x k) := by
  rw [ringStep]
  split
  · rfl
  · split <;> rfl
theorem code_lt (x : PhBank) (k : Nat) : x.code k < 1024 := BitVec.isLt _
theorem code_put (x : PhBank) (k j : Nat) {n : Nat} (hn : n < 1024) :
    PhBank.code { x with htr := Tab.put x.htr k (BitVec.ofNat 10 n) } j = if j = k then n else x.code j := by
  simp only [PhBank.code, tab_get_put]
  split
  · rw [BitVec.toNat_ofNat, Nat.mod_eq_of_lt hn]
  · rfl
theorem code_ringStep (x : PhBank) (k j : Nat) : (ringStep x k).code j = if j = k then steppedCode x k else x.code j := by
  have hlt := code_lt x k
  simp only [ringStep, steppedCode, Bool.and_eq_true, decide_eq_true_eq, ge_iff_le, gt_iff_lt]
  by_cases hdown : 2 ≤ x.err k ∧ 0 < x.code k
  · rw [if_pos hdown, if_pos hdown, code_put _ _ _ (by omega)]
  · rw [if_neg hdown, if_neg hdown]
    by_cases hup : x.err k ≤ -2 ∧ x.code k < 1023
    · rw [if_pos hup, if_pos hup, code_put _ _ _ (by omega)]
    · rw [if_neg hup, if_neg hup]
      split
      next h => rw [h]
      · rfl
/-- A step of one heater leaves what another ring reads. -/
theorem steppedCode_ringStep {x : PhBank} {k j : Nat} (h : j ≠ k) : steppedCode (ringStep x k) j = steppedCode x j := by
  have hcode : (ringStep x k).code j = x.code j := by rw [code_ringStep, if_neg h]
  have herr : (ringStep x k).err j = x.err j := by
    rw [PhBank.err, hcode, show ringStep x k = { x with htr := (ringStep x k).htr } from sameBank_ringStep x k]
    rfl
  rw [steppedCode, hcode, herr]
  rfl
theorem ringSteps_spec {ks : List Nat} (hks : ks.Nodup) (x : PhBank) :
    SameBank x (ks.foldl ringStep x) ∧
      ∀ j, (ks.foldl ringStep x).code j = if j ∈ ks then steppedCode x j else x.code j := by
  induction ks generalizing x with
  | nil => exact ⟨rfl, fun _ => rfl⟩
  | cons a ks ih =>
    obtain ⟨hna, hks⟩ := List.nodup_cons.1 hks
    obtain ⟨heq, hcode⟩ := ih hks (ringStep x a)
    refine ⟨sameBank_trans (sameBank_ringStep x a) heq, fun j => ?_⟩
    · rw [List.foldl_cons, hcode, code_ringStep]
      by_cases ha : j = a
      · subst ha
        rw [if_neg hna, if_pos rfl, if_pos List.mem_cons_self]
      · by_cases hj : j ∈ ks
        · rw [if_pos hj, if_pos (List.mem_cons_of_mem _ hj), steppedCode_ringStep ha]
        · rw [if_neg hj, if_neg ha, if_neg (by simp [ha, hj])]

end Sys2Proof.Proofs
end

section
/-!
PROOFS. Photonic rings as their events move them, and the power governor (spec 23 R437 to R444).
-/
namespace Sys2Proof.Proofs
open Machine Laws

section
variable (s : State) (b : Nat)

/-! ### What each event of a bank does -/

theorem mapgo_taken {x : PhBank} (hx : x = bankOf s b) (hbusy : x.busy = none) (hok : mapOk x.staged = true) :
    ∃ t, exec (.phbCtlMapgo b) s = .next t ∧ t = { s with banks := t.banks } ∧
      (∀ c, c ≠ b → bankOf t c = bankOf s c) ∧ (bankOf t b).map = x.staged ∧ (bankOf t b).htr = x.htr ∧ (bankOf t b).mapErr = x.mapErr ∧
      ((∀ k, k < 17 → mapField x.staged k ≠ x.chan k → -8 ≤ (bankOf t b).err k ∧ (bankOf t b).err k ≤ 8) → (bankOf t b).busy = none) ∧
      ∀ k, k < 17 → mapField x.staged k ≠ x.chan k → (bankOf t b).err k < -8 ∨ 8 < (bankOf t b).err k → (bankOf t b).busy = some s.dtime := by
  subst hx
  refine ⟨_, congrArg Host.Outcome.next (mapgo_of_taken hbusy hok), rfl, fun c hc => bankOf_setBank_ne hc _ _, ?_⟩
  rw [bankOf_setBank_self, settle_map, settle_htr, settle_mapErr]
  refine ⟨rfl, rfl, rfl, fun hall => ?_, fun k hk hmoved hoff => ?_⟩
  · refine settle_busy_of_all fun k hk => ?_
    obtain ⟨hlt, hmoved⟩ := mem_mapped.1 hk
    simpa only [settle_err] using hall k hlt hmoved
  · rw [settle_err] at hoff
    exact settle_busy_of_off (mem_mapped.2 ⟨hk, hmoved⟩) hoff

theorem retrain_done : ∃ t, exec (.phbCtlRetrain b) s = .next t ∧ t.mem = s.mem ∧ (port t (b / 4)).st = 1 ∧ (port t (b / 4)).fails = 0 ∧
    (∀ c, c / 4 ≠ b / 4 → bankOf t c = bankOf s c) ∧ ∀ i, i < 4 → (bankOf t (4 * (b / 4) + i)).busy = none ∧
      ∀ k, k < 17 → (bankOf t (4 * (b / 4) + i)).chan k = if (bankOf s (4 * (b / 4) + i)).sat k then 31 else (bankOf s (4 * (b / 4) + i)).chan k := by
  have hport : port (phbCtlRetrain b s) (b / 4) = { port _ (b / 4) with st := 1, fails := 0 } := port_startRetrain _ _
  refine ⟨_, rfl, mem_retrain s b, by rw [hport], by rw [hport], fun c hc => ?_, fun i hi => ?_⟩
  · rw [bankOf_retrain, if_neg (by omega)]
  · rw [bankOf_retrain, if_pos (by omega)]
    exact ⟨retrained_busy _, fun k hk => retrained_chan _ hk⟩

theorem busyClear_done {x : PhBank} (hx : x = bankOf s b) (es : List (BitVec 12)) :
    ∃ t, exec (.phbBusyClear b es) s = .next t ∧ t = { s with banks := t.banks } ∧ (bankOf t b).map = x.map ∧
      (∀ k e, k < 17 → es[k]? = some e → x.chan k ≠ 31 → (bankOf t b).err k = e.toInt) ∧
      ((∀ k ∈ x.moved, -8 ≤ (bankOf t b).err k ∧ (bankOf t b).err k ≤ 8) → (bankOf t b).busy = none) ∧
      ∀ k ∈ x.moved, (bankOf t b).err k < -8 ∨ 8 < (bankOf t b).err k → (bankOf t b).busy = x.busy := by
  subst hx
  have hclear : phbBusyClear b es s = setBank b (senses 0 (es.take 17) (bankOf s b)).settle s := rfl
  have hsame := (senses_spec (es.take 17) 0 (bankOf s b)).1
  refine ⟨_, congrArg Host.Outcome.next hclear, rfl, ?_⟩
  rw [bankOf_setBank_self, settle_map]
  refine ⟨hsame.map, fun k e hk he hc => ?_, fun hall => ?_, fun k hk hoff => ?_⟩
  · rw [settle_err, senses_err hk he hc]
  · refine settle_busy_of_all fun k hk => ?_
    rw [hsame.moved] at hk
    simpa only [settle_err] using hall k hk
  · rw [settle_err] at hoff
    refine (settle_busy_of_off ?_ hoff).trans hsame.busy
    rwa [hsame.moved]

theorem statRead_done {x : PhBank} (hx : x = bankOf s b) :
    ∃ t, exec (.phbStatRead b) s = .next t ∧ t = { s with bus := t.bus, banks := t.banks } ∧ (bankOf t b).mapErr = false ∧
      t.bus.getLsbD 31 = x.busy.isSome ∧ t.bus.getLsbD 30 = (x.chan 16 != 31) ∧ t.bus.getLsbD 29 = x.mapErr ∧
      ∀ k, k < 17 → t.bus.getLsbD k = x.sat k := by
  subst hx
  have hbus : (phbStatRead b s).bus = BitVec.ofNat 512 (phbStat s b).toNat := congrArg State.bus (statRead_eq s b)
  have hbit : ∀ k, k < 32 → (phbStatRead b s).bus.getLsbD k = (phbStat s b).getLsbD k := fun k hk => by
    rw [hbus, BitVec.getLsbD_ofNat, decide_eq_true (by omega), Bool.true_and, BitVec.testBit_toNat]
  obtain ⟨h31, h30, h29, hrings⟩ := getLsbD_phbStat s b
  refine ⟨_, rfl, ?_, by rw [bankOf_statRead], (hbit 31 (by omega)).trans h31, (hbit 30 (by omega)).trans h30, (hbit 29 (by omega)).trans h29,
    fun k hk => (hbit k (by omega)).trans (hrings k hk)⟩
  rw [hbus]
  exact statRead_eq s b

theorem freezeRingStep_done (hf : s.guidon.frozen = true) : ∃ t, exec .freezeRingStep s = .next t ∧ t = { s with banks := t.banks } ∧
    ∀ b x, Tab.find s.banks b = some x → ∃ y, Tab.find t.banks b = some y ∧ y.map = x.map ∧ y.drift = x.drift ∧ ∀ k, k < 17 →
      y.code k = if 2 ≤ x.err k ∧ 0 < x.code k then x.code k - 1 else if x.err k ≤ -2 ∧ x.code k < 1023 then x.code k + 1 else x.code k := by
  have hstep : freezeRingStep s = { s with banks := s.banks.map fun e => (e.1, (rings.foldl ringStep e.2).settle) } := if_pos hf
  refine ⟨_, congrArg Host.Outcome.next hstep, rfl, fun b x hx => ⟨(rings.foldl ringStep x).settle, ?_, ?_⟩⟩
  · rw [tab_find_mapVal (fun x => (rings.foldl ringStep x).settle), hx]
    rfl
  · obtain ⟨hsame, hcode⟩ := ringSteps_spec nodup_rings x
    refine ⟨(settle_map _).trans (hsame.map), (settle_drift _).trans (hsame.drift), fun k hk => ?_⟩
    rw [settle_code, hcode, if_pos (mem_rings.2 hk), steppedCode]

end

/-! ### The governor -/

section
variable {p : Power} {w : Nat}

theorem down_of_injection (hf : p.fabFirst = true) (hi : 1 < p.inj) : p.down = { p with inj := p.inj / 2, steps := true :: p.steps } :=
  if_pos (by simp [hf, hi])
theorem down_of_clock (h : p.fabFirst = false ∨ p.inj ≤ 1) :
    p.down = if 1450 < p.fclk then { p with fclk := p.fclk - 50, steps := false :: p.steps } else p := by
  refine if_neg ?_
  rcases h with h | h <;> simp [h]
theorem down_cap (p : Power) : p.down.cap = p.cap := by
  rw [Power.down]
  split
  · rfl
  · split <;> rfl
theorem undo_cap (p : Power) : p.undo.cap = p.cap := by
  rw [Power.undo]
  split <;> rfl

/-- The governor after a tick that reads a power. -/
def governed (w : Nat) (p : Power) : Power :=
  if w > p.cap then { p.down with pwr := w, under := 0 }
  else if w + 40 < p.cap then
    (if p.under + 1 ≥ 4 then { p.undo with pwr := w, under := 0 } else { p with pwr := w, under := p.under + 1 })
  else { p with pwr := w, under := 0 }
theorem governorTick_eq (w : Nat) (s : State) : powerGovernorTick w s = { s with power := governed w s.power } := rfl
theorem governed_of_over (h : p.cap < w) : governed w p = { p.down with pwr := w, under := 0 } := if_pos h
theorem governed_of_waiting (h : w + 40 < p.cap) (hu : p.under < 3) : governed w p = { p with pwr := w, under := p.under + 1 } := by
  rw [governed, if_neg (by omega), if_pos h, if_neg (by omega)]
theorem governed_of_undone (h : w + 40 < p.cap) (hu : 3 ≤ p.under) : governed w p = { p.undo with pwr := w, under := 0 } := by
  rw [governed, if_neg (by omega), if_pos h, if_pos (by omega)]
theorem governed_of_near (h : w ≤ p.cap) (hn : p.cap ≤ w + 40) : governed w p = { p with pwr := w, under := 0 } := by
  rw [governed, if_neg (by omega), if_neg (by omega)]
theorem governed_pwr_cap (w : Nat) (p : Power) : (governed w p).pwr = w ∧ (governed w p).cap = p.cap := by
  rcases Nat.lt_or_ge p.cap w with hover | hle
  · rw [governed_of_over hover]
    exact ⟨rfl, down_cap p⟩
  · rcases Nat.lt_or_ge (w + 40) p.cap with hlow | hnear
    · rcases Nat.lt_or_ge p.under 3 with hu | hu
      · rw [governed_of_waiting hlow hu]
        exact ⟨rfl, rfl⟩
      · rw [governed_of_undone hlow hu]
        exact ⟨rfl, undo_cap p⟩
    · rw [governed_of_near hle hnear]
      exact ⟨rfl, rfl⟩

theorem governor_over (h : p.cap < w) : (governed w p).under = 0 ∧
    (p.fabFirst = true → 1 < p.inj → (governed w p).inj = p.inj / 2 ∧ (governed w p).fclk = p.fclk) ∧
    (p.fabFirst = false ∨ p.inj ≤ 1 → (governed w p).inj = p.inj ∧ (governed w p).fclk = if 1450 < p.fclk then p.fclk - 50 else p.fclk) := by
  rw [governed_of_over h]
  refine ⟨rfl, fun hf hi => ?_, fun hc => ?_⟩
  · rw [down_of_injection hf hi]
    exact ⟨rfl, rfl⟩
  · rw [down_of_clock hc]
    split <;> exact ⟨rfl, rfl⟩
theorem governor_undone (h : w + 40 < p.cap) (hu : 3 ≤ p.under) : (governed w p).under = 0 ∧
    (p.steps = [] → (governed w p).inj = p.inj ∧ (governed w p).fclk = p.fclk) ∧
    (∀ r, p.steps = true :: r → (governed w p).inj = 2 * p.inj ∧ (governed w p).fclk = p.fclk ∧ (governed w p).steps = r) ∧
    ∀ r, p.steps = false :: r → (governed w p).inj = p.inj ∧ (governed w p).fclk = p.fclk + 50 ∧ (governed w p).steps = r := by
  rw [governed_of_undone h hu]
  refine ⟨rfl, fun hs => ?_, fun r hs => ?_, fun r hs => ?_⟩
  all_goals simp [Power.undo, hs, Nat.mul_comm]

end

/-- Settles O57: each event of a bank by what it makes of that bank, the governor by where the reading lies against its cap. -/
theorem powerAndRings : Obligations.PowerAndRings := by
  unfold Obligations.PowerAndRings
  refine ⟨mapOk_iff, fun s b x hx => ⟨fun h => ?_, fun hbusy hok => mapgo_taken s b hx hbusy hok, retrain_done s b, fun h hh hdue => ?_,
    fun h => ?_, busyClear_done s b hx, statRead_done s b hx⟩, fun s => ⟨fun hf => ?_, freezeRingStep_done s⟩, fun s w p hp => ⟨?_, ?_, ?_, rfl⟩,
    fun s w => ⟨fun h => ?_, fun hlo hhi => ?_⟩⟩
  · subst hx
    exact congrArg Host.Outcome.next (mapgo_of_refused h)
  · subst hx
    refine congrArg Host.Outcome.next ?_
    rw [phbHoldTimeout, hh]
    exact if_pos hdue
  · subst hx
    refine congrArg Host.Outcome.next ?_
    rw [phbHoldTimeout]
    split
    next t ht => exact if_neg (Nat.not_le.2 (h t ht))
    · rfl
  · refine congrArg Host.Outcome.next ?_
    rw [freezeRingStep, hf]
    exact if_neg Bool.false_ne_true
  · subst hp
    obtain ⟨hpwr, hcap⟩ := governed_pwr_cap w s.power
    exact ⟨_, congrArg Host.Outcome.next (governorTick_eq w s), rfl, hpwr, hcap, governor_over,
      fun h => ⟨governed_of_waiting h, governor_undone h⟩, governed_of_near⟩
  · intro h
    refine congrArg Host.Outcome.next ?_
    rw [currentMonitorOver, if_pos h]
  · intro h
    subst hp
    have hover : currentMonitorOver w s = s.modPower _ := if_neg (Nat.not_le.2 h)
    exact ⟨_, congrArg Host.Outcome.next hover, rfl, rfl, rfl, rfl⟩
  · exact congrArg Host.Outcome.next (if_pos h)
  · exact congrArg Host.Outcome.next (if_neg (by omega))

end Sys2Proof.Proofs
end

section
/-!
PROOFS. Reset and bring-up (spec 19 R375, 23 R430 to R436).
-/
namespace Sys2Proof.Proofs
open Machine Laws

section
variable {s : State}

/-! ### The order of the steps -/

theorem atStep_of {n : Nat} (k : State → State) (hn : s.boot.step.toNat = n) (hf : s.boot.fail = 0) : atStep n k s = k s := by
  rw [atStep, if_pos (by simp [hn, hf])]
theorem atStep_of_other {n : Nat} (k : State → State) (h : s.boot.step.toNat ≠ n) : atStep n k s = s := by
  rw [atStep, if_neg (by simp [h])]
theorem atStep_of_failed {n : Nat} (k : State → State) (h : s.boot.fail ≠ 0) : atStep n k s = s := by
  rw [atStep, if_neg (by simpa using fun _ => h)]
theorem atStep_of_stopped {n : Nat} (k : State → State) (h : s.boot.fail ≠ 0 ∨ s.boot.step.toNat ≠ n) : atStep n k s = s :=
  h.elim (atStep_of_failed k) (atStep_of_other k)

/-- An event that bring-up has not come to, or that follows a failure. -/
theorem bringup_stopped {i : Instr} {n : Nat}
    (hi : (∃ r b, i = .bringupGuidon r b ∧ n = 2) ∨ (∃ r, i = .bringupManagement r ∧ n = 3) ∨ (∃ b r h c, i = .bringupRecords b r h c ∧ n = 4) ∨
      (∃ f, i = .bringupMemory f ∧ n = 5) ∨ (∃ p ps, i = .bringupLinks p ps ∧ n = 6) ∨ (i = .bringupContexts ∧ n = 7))
    (h : s.boot.fail ≠ 0 ∨ (s.boot.step.toNat ≠ n ∧ (n = 2 → s.boot.step.toNat ≠ 1))) : exec i s = .next s := by
  have hstop : s.boot.fail ≠ 0 ∨ s.boot.step.toNat ≠ n := h.imp_right And.left
  rcases hi with ⟨r, b, rfl, rfl⟩ | ⟨r, rfl, rfl⟩ | ⟨b, r, hr, c, rfl, rfl⟩ | ⟨f, rfl, rfl⟩ | ⟨p, ps, rfl, rfl⟩ | ⟨rfl, rfl⟩
  · refine congrArg Host.Outcome.next ?_
    rw [bringupGuidon, atStep_of_stopped (n := 1) _ (h.imp_right fun h => h.2 rfl), atStep_of_stopped _ hstop]
  all_goals exact congrArg Host.Outcome.next (atStep_of_stopped _ hstop)

/-! ### Records -/

section
variable {mins : Tab Word} {rom : BitVec 256} {kind : Nat} {r : BootRecord}

theorem recordFail_of_false (h : recGenuine r rom kind = false) : recordFail mins rom kind r = some 1 := by
  rw [recordFail, h, Bool.not_false, if_pos rfl]
theorem recordFail_of_old (h : recGenuine r rom kind = true) (hv : (recVersion r).toNat < (Tab.get mins kind 0).toNat) :
    recordFail mins rom kind r = some 2 := by
  rw [recordFail, h, Bool.not_true, if_neg Bool.false_ne_true, if_pos hv]
theorem recordFail_of_good (h : recGenuine r rom kind = true) (hv : (Tab.get mins kind 0).toNat ≤ (recVersion r).toNat) :
    recordFail mins rom kind r = none := by
  rw [recordFail, h, Bool.not_true, if_neg Bool.false_ne_true, if_neg (Nat.not_lt.2 hv)]

end

section
variable {r : BootRecord}

/-! ### The Guidon and the management core -/

/-- A step that a check refuses with a code, or that is done. -/
def answered (v : Option Nat) (done s : State) : State :=
  match v with
  | some e => bootFail e 0 s
  | none => done
/-- Bring-up at step 2. -/
def atTwo (s : State) : State := { s with boot := { s.boot with step := 2 } }

/-- Step 1 goes over to step 2 by itself. -/
theorem bringupGuidon_eq (hf : s.boot.fail = 0) (hs : s.boot.step = 1 ∨ s.boot.step = 2) (ok : Bool) :
    bringupGuidon r ok s = answered (recordFail s.boot.mins s.boot.rom 3 r)
      (if !ok then bootFail 5 0 (atTwo s) else { s with boot := { s.boot with step := 3, measGuidon := recDigest r } }) (atTwo s) := by
  have hstart : atStep 1 (fun s => s.modBoot fun b => { b with step := 2 }) s = atTwo s := by
    rcases hs with h | h
    · exact atStep_of _ (by rw [h]; rfl) hf
    · rw [atStep_of_other _ (by rw [h]; decide), atTwo, ← h]
  rw [bringupGuidon, hstart]
  refine (atStep_of (s := atTwo s) _ rfl hf).trans ?_
  change _ = answered (recordFail (atTwo s).boot.mins (atTwo s).boot.rom 3 r) _ _
  cases recordFail (atTwo s).boot.mins (atTwo s).boot.rom 3 r <;> rfl
theorem bringupGuidon_done (hf : s.boot.fail = 0) (hs : s.boot.step = 1 ∨ s.boot.step = 2) (ok : Bool) :
    (recGenuine r s.boot.rom 3 = false → exec (.bringupGuidon r ok) s = .next { s with boot := { s.boot with step := 2, fail := 1, unit := 0 } }) ∧
    (recGenuine r s.boot.rom 3 = true →
      ((recVersion r).toNat < (Tab.get s.boot.mins 3 0).toNat → exec (.bringupGuidon r ok) s = .next { s with boot := { s.boot with step := 2, fail := 2, unit := 0 } }) ∧
      ((Tab.get s.boot.mins 3 0).toNat ≤ (recVersion r).toNat → exec (.bringupGuidon r ok) s =
        .next { s with boot := if ok then { s.boot with step := 3, measGuidon := recDigest r } else { s.boot with step := 2, fail := 5, unit := 0 } })) := by
  have heq := bringupGuidon_eq (r := r) hf hs ok
  refine ⟨fun h => ?_, fun h => ⟨fun hv => ?_, fun hv => ?_⟩⟩
  · rw [recordFail_of_false h] at heq
    exact congrArg Host.Outcome.next heq
  · rw [recordFail_of_old h hv] at heq
    exact congrArg Host.Outcome.next heq
  · rw [recordFail_of_good h hv] at heq
    cases ok <;> exact congrArg Host.Outcome.next heq

theorem bringupManagement_done (hf : s.boot.fail = 0) (hs : s.boot.step = 3) :
    (recGenuine r s.boot.rom 1 = false → exec (.bringupManagement r) s = .next { s with boot := { s.boot with fail := 1, unit := 0 } }) ∧
    (recGenuine r s.boot.rom 1 = true →
      ((recVersion r).toNat < (Tab.get s.boot.mins 1 0).toNat → exec (.bringupManagement r) s = .next { s with boot := { s.boot with fail := 2, unit := 0 } }) ∧
      ((Tab.get s.boot.mins 1 0).toNat ≤ (recVersion r).toNat →
        exec (.bringupManagement r) s = .next { s with boot := { s.boot with step := 4, measMgmt := recDigest r } })) := by
  have hat : bringupManagement r s = _ := atStep_of (n := 3) _ (by rw [hs]; rfl) hf
  refine ⟨fun h => ?_, fun h => ⟨fun hv => ?_, fun hv => ?_⟩⟩
  · rw [recordFail_of_false h] at hat
    exact congrArg Host.Outcome.next hat
  · rw [recordFail_of_old h hv] at hat
    exact congrArg Host.Outcome.next hat
  · rw [recordFail_of_good h hv] at hat
    exact congrArg Host.Outcome.next hat

end

/-! ### The identity, the configuration record and the Halyard record -/

section
variable {cfg hly : BootRecord} {c : ConfigRecord}

/-- The minimum versions that a configuration record sets. -/
def minsOf (c : ConfigRecord) : Tab Word := c.minVersions.foldl (fun t e => Tab.put t e.1 e.2) []
/-- The state after both records of step 4 are accepted. -/
def recordsTaken (cfg hly : BootRecord) (c : ConfigRecord) (s : State) : State :=
  { s with
    boot := { s.boot with step := 5, mins := minsOf c, measConfig := recDigest cfg, measHalyard := recDigest hly, setup := some c }
    fabric := { s.fabric with module_ := BitVec.ofNat 8 c.moduleIndex, members := c.podMembers, leaseNs := max 1000 (min 1000000 c.leaseNs) } }
theorem bringupRecords_of_unidentified (hf : s.boot.fail = 0) (hs : s.boot.step = 4) : bringupRecords false cfg hly c s = bootFail 3 0 s :=
  atStep_of (n := 4) _ (by rw [hs]; rfl) hf
theorem bringupRecords_eq (hf : s.boot.fail = 0) (hs : s.boot.step = 4) : bringupRecords true cfg hly c s =
    answered ((recordFail (minsOf c) s.boot.rom 4 cfg).orElse fun _ => recordFail (minsOf c) s.boot.rom 2 hly) (recordsTaken cfg hly c s) s := by
  refine (atStep_of (n := 4) _ (by rw [hs]; rfl) hf).trans ?_
  simp only [Bool.not_true, Bool.false_eq_true, if_false]
  rw [← minsOf]
  cases (recordFail (minsOf c) s.boot.rom 4 cfg).orElse fun _ => recordFail (minsOf c) s.boot.rom 2 hly <;> rfl
theorem bringupRecords_of_config {e : Nat} (hf : s.boot.fail = 0) (hs : s.boot.step = 4) (h : recordFail (minsOf c) s.boot.rom 4 cfg = some e) :
    exec (.bringupRecords true cfg hly c) s = .next (bootFail e 0 s) := by
  have heq := bringupRecords_eq (cfg := cfg) (hly := hly) (c := c) hf hs
  rw [h] at heq
  exact congrArg Host.Outcome.next heq
theorem bringupRecords_of_halyard {e : Nat} (hf : s.boot.fail = 0) (hs : s.boot.step = 4) (hc : recordFail (minsOf c) s.boot.rom 4 cfg = none)
    (h : recordFail (minsOf c) s.boot.rom 2 hly = some e) : exec (.bringupRecords true cfg hly c) s = .next (bootFail e 0 s) := by
  have heq := bringupRecords_eq (cfg := cfg) (hly := hly) (c := c) hf hs
  rw [hc, Option.orElse_none, h] at heq
  exact congrArg Host.Outcome.next heq
theorem bringupRecords_of_good (hf : s.boot.fail = 0) (hs : s.boot.step = 4) (hc : recordFail (minsOf c) s.boot.rom 4 cfg = none)
    (h : recordFail (minsOf c) s.boot.rom 2 hly = none) : exec (.bringupRecords true cfg hly c) s = .next (recordsTaken cfg hly c s) := by
  have heq := bringupRecords_eq (cfg := cfg) (hly := hly) (c := c) hf hs
  rw [hc, Option.orElse_none, h] at heq
  exact congrArg Host.Outcome.next heq

theorem minsOf_nil (h : c.minVersions = []) : minsOf c = [] := by rw [minsOf, h]; rfl
theorem get_minsOf_one {k : Nat} {v : Word} (h : c.minVersions = [(k, v)]) (j : Nat) : Tab.get (minsOf c) j 0 = if j = k then v else 0 := by
  rw [minsOf, h]
  exact tab_get_put [] k j v 0
/-- Without a minimum every version is accepted. -/
theorem recordFail_of_noMin {mins : Tab Word} {rom : BitVec 256} {kind : Nat} {r : BootRecord} (h : recGenuine r rom kind = true)
    (hm : Tab.get mins kind 0 = 0) : recordFail mins rom kind r = none :=
  recordFail_of_good h (by rw [hm]; exact Nat.zero_le _)

theorem bringupRecords_done (hf : s.boot.fail = 0) (hs : s.boot.step = 4) :
    exec (.bringupRecords false cfg hly c) s = .next { s with boot := { s.boot with fail := 3, unit := 0 } } ∧
    (recGenuine cfg s.boot.rom 4 = false → exec (.bringupRecords true cfg hly c) s = .next { s with boot := { s.boot with fail := 1, unit := 0 } }) ∧
    (recGenuine cfg s.boot.rom 4 = true →
      (∀ v, c.minVersions = [(4, v)] → (recVersion cfg).toNat < v.toNat →
        exec (.bringupRecords true cfg hly c) s = .next { s with boot := { s.boot with fail := 2, unit := 0 } }) ∧
      (c.minVersions = [] → recGenuine hly s.boot.rom 2 = false →
        exec (.bringupRecords true cfg hly c) s = .next { s with boot := { s.boot with fail := 1, unit := 0 } }) ∧
      (recGenuine hly s.boot.rom 2 = true → ∀ v, c.minVersions = [(2, v)] → (recVersion hly).toNat < v.toNat →
        exec (.bringupRecords true cfg hly c) s = .next { s with boot := { s.boot with fail := 2, unit := 0 } }) ∧
      (recGenuine hly s.boot.rom 2 = true → c.minVersions = [] → ∃ t, exec (.bringupRecords true cfg hly c) s = .next t ∧
        t = { s with boot := t.boot, fabric := t.fabric } ∧ t.boot = { s.boot with step := 5, mins := [], measConfig := recDigest cfg, measHalyard := recDigest hly, setup := some c } ∧
        t.fabric = { s.fabric with module_ := BitVec.ofNat 8 c.moduleIndex, members := c.podMembers, leaseNs := max 1000 (min 1000000 c.leaseNs) })) := by
  refine ⟨congrArg Host.Outcome.next (bringupRecords_of_unidentified hf hs), fun hc => bringupRecords_of_config hf hs (recordFail_of_false hc),
    fun hc => ⟨fun v hv hold => ?_, fun hnil hh => ?_, fun hh v hv hold => ?_, fun hh hnil => ?_⟩⟩
  · exact bringupRecords_of_config hf hs (recordFail_of_old hc (by rwa [get_minsOf_one hv, if_pos rfl]))
  · exact bringupRecords_of_halyard hf hs (recordFail_of_noMin hc (by rw [minsOf_nil hnil]; rfl)) (recordFail_of_false hh)
  · exact bringupRecords_of_halyard hf hs (recordFail_of_noMin hc (by rw [get_minsOf_one hv, if_neg (by decide)]))
      (recordFail_of_old hh (by rwa [get_minsOf_one hv, if_pos rfl]))
  · have hmins := minsOf_nil hnil
    refine ⟨_, bringupRecords_of_good hf hs (recordFail_of_noMin hc (by rw [hmins]; rfl)) (recordFail_of_noMin hh (by rw [hmins]; rfl)), rfl, ?_, rfl⟩
    rw [recordsTaken, hmins]

end

/-! ### Links -/

theorem agree_of_none {x : Port} {v : Nat} (h : BitVec.ofNat 8 v = 0) : agree x v = { x with peer := 0, agreed := 0, st := 5 } := by
  rw [agree]
  simp only [h, if_true]
theorem agree_of_version {x : Port} {v : Nat} (h : BitVec.ofNat 8 v ≠ 0) : (agree x v).st = 4 ∧ (agree x v).agreed.toNat = min (v % 256) x.loc.toNat := by
  rw [agree]
  simp only [h, if_false, true_and]
  rw [show v % 256 = (BitVec.ofNat 8 v).toNat from (BitVec.toNat_ofNat v 8).symm]
  split <;> omega

/-- A table that gives each number below one a value. -/
theorem find_ofRange {α : Type} (g : Nat → α) (n k : Nat) : Tab.find ((List.range n).map fun j => (j, g j)) k = if k < n then some (g k) else none := by
  induction n with
  | zero => rfl
  | succ n ih =>
    have happend : ∀ (t : Tab α), Tab.find (t ++ [(n, g n)]) k = (Tab.find t k).orElse fun _ => if k = n then some (g n) else none := by
      intro t
      induction t with
      | nil => simp [Tab.find, eq_comm]
      | cons e t iht =>
        obtain ⟨j, v⟩ := e
        simp only [List.cons_append, Tab.find]
        split
        · rfl
        · exact iht
    rw [List.range_succ, List.map_append, List.map_singleton, happend, ih]
    by_cases h1 : k < n
    · rw [if_pos h1, if_pos (Nat.lt_succ_of_lt h1)]
      rfl
    · rw [if_neg h1, Option.orElse_none]
      by_cases h2 : k = n
      · rw [if_pos h2, if_pos (by omega), h2]
      · rw [if_neg h2, if_neg (by omega)]

theorem bringupMemory_done (hf : s.boot.fail = 0) (hs : s.boot.step = 5) (ch : Nat) :
    exec (.bringupMemory (some ch)) s = .next { s with boot := { s.boot with fail := 4, unit := BitVec.ofNat 8 ch } } ∧
    ∃ t, exec (.bringupMemory none) s = .next t ∧ t = { s with boot := t.boot, home := t.home, fabric := t.fabric } ∧ t.boot = { s.boot with step := 6 } ∧
      t.home.bias = [] ∧ ∀ c, c < 128 → (Tab.get t.fabric.chanIfv c {}).st = 4 ∧
        (Tab.get t.fabric.chanIfv c {}).agreed = if Config.channelRev c then 2 else 1 := by
  have hat : ∀ f, bringupMemory f s = _ := fun f => atStep_of (n := 5) _ (by rw [hs]; rfl) hf
  refine ⟨congrArg Host.Outcome.next (hat (some ch)), _, congrArg Host.Outcome.next (hat none), rfl, rfl, rfl, fun c hc => ?_⟩
  have hfind : Tab.get ((List.range 128).map fun ch => (ch, agree {} (if Config.channelRev ch then 2 else 1))) c {} =
      agree {} (if Config.channelRev c then 2 else 1) :=
    tab_get_of_find ((find_ofRange (fun ch => agree {} (if Config.channelRev ch then 2 else 1)) 128 c).trans (if_pos hc)) _
  refine (congrArg (fun x : Port => x.st = 4 ∧ x.agreed = if Config.channelRev c then 2 else 1) hfind).mpr ?_
  cases Config.channelRev c <;> decide

/-- A port that the configuration record enables, with its partner's version or none. -/
def portUp (x : Port) (peer : Option (Nat × Nat)) : Port := match peer with | some e => agree x e.2 | none => { x with st := 0 }
/-- The host link negotiated. -/
def hostUp (hp : Nat) (s : State) : State :=
  { s with boot := { s.boot with step := 7 }, fabric := { s.fabric with hostIfv := agree s.fabric.hostIfv hp } }
def hostLogged (hp : Nat) (s : State) : State :=
  if (agree s.fabric.hostIfv hp).st == 5 then (hostUp hp s).logDev 0 0xFF (unitOf 5 0) 0 0 else hostUp hp s
theorem hostLogged_eq (hp : Nat) (s : State) : hostLogged hp s = { hostUp hp s with log := (hostLogged hp s).log, logged := (hostLogged hp s).logged } := by
  rw [hostLogged]
  split <;> rfl
/-- Bring-up of the links with one port enabled. -/
theorem bringupLinks_eq {p : Nat} {c : ConfigRecord} (hf : s.boot.fail = 0) (hs : s.boot.step = 6) (hc : s.boot.setup = some c) (hp : c.ports = [p])
    (host : Nat) (peers : List (Nat × Nat)) :
    let u := hostLogged host s
    let x := portUp (port s p) (peers.find? fun e => e.1 == p)
    bringupLinks host peers s = if x.st == 4 then setPort p x u else (setPort p x u).logDev 0 0xFF (unitOf 2 p) 0 0 := by
  intro u x
  have hport : ∀ q, port u q = port s q := fun q => by
    rw [show u = _ from hostLogged_eq host s]
    rfl
  have hx : x = portUp (port u p) (peers.find? fun e => e.1 == p) := by rw [hport]
  refine (atStep_of (n := 6) _ (by rw [hs]; rfl) hf).trans ?_
  simp only [hc, hp, List.foldl_cons, List.foldl_nil]
  rw [hx]
  rfl

theorem bringupLinks_done {p : Nat} {c : ConfigRecord} (hf : s.boot.fail = 0) (hs : s.boot.step = 6) (hc : s.boot.setup = some c)
    (hp : c.ports = [p]) (host : Nat) (peers : List (Nat × Nat)) :
    ∃ t, exec (.bringupLinks host peers) s = .next t ∧ t.mem = s.mem ∧ t.boot = { s.boot with step := 7 } ∧
      (BitVec.ofNat 8 host = 0 → t.fabric.hostIfv.st = 5) ∧
      (BitVec.ofNat 8 host ≠ 0 → t.fabric.hostIfv.st = 4 ∧ t.fabric.hostIfv.agreed.toNat = min (host % 256) s.fabric.hostIfv.loc.toNat) ∧
      (∀ q, q ≠ p → port t q = port s q) ∧
      (peers = [] → port t p = { port s p with st := 0 } ∧ t.log.head? = some ⟨0, 0xFF, unitOf 2 p, s.dtime, 0, 0⟩) ∧
      ∀ v, peers = [(p, v)] → BitVec.ofNat 8 v ≠ 0 → (port t p).st = 4 ∧ (port t p).agreed.toNat = min (v % 256) (port s p).loc.toNat := by
  have hu := hostLogged_eq host s
  have heq := bringupLinks_eq hf hs hc hp host peers
  generalize hostLogged host s = u at hu heq
  obtain ⟨l, n, hrest⟩ : ∃ l n, bringupLinks host peers s =
      { setPort p (portUp (port s p) (peers.find? fun e => e.1 == p)) (hostUp host s) with log := l, logged := n } := by
    rw [heq, hu]
    simp only
    split
    · exact ⟨_, _, rfl⟩
    · exact ⟨_, _, rfl⟩
  have hfabric : (bringupLinks host peers s).fabric = (setPort p (portUp (port s p) (peers.find? fun e => e.1 == p)) (hostUp host s)).fabric := by
    rw [hrest]
  have hports : ∀ q, port (bringupLinks host peers s) q = if q = p then portUp (port s p) (peers.find? fun e => e.1 == p) else port s q := fun q => by
    rw [port, hfabric]
    exact port_setPort (hostUp host s) p q _
  have hhost : (bringupLinks host peers s).fabric.hostIfv = agree s.fabric.hostIfv host := by
    rw [hfabric]
    rfl
  refine ⟨_, rfl, by rw [hrest]; rfl, by rw [hrest]; rfl, fun h => ?_, fun h => ?_, fun q hq => ?_, fun h => ⟨?_, ?_⟩, fun v h hv => ?_⟩
  · rw [hhost, agree_of_none h]
  · rw [hhost]
    exact agree_of_version h
  · rw [hports, if_neg hq]
  · rw [hports, if_pos rfl, h]
    rfl
  · subst h
    rw [heq, hu]
    rfl
  · rw [hports, if_pos rfl, h, List.find?_cons_of_pos (by simp)]
    exact agree_of_version hv

/-! ### Contexts -/

/-- States that differ in their cores alone. -/
def OnlyCores (s t : State) : Prop := t = { s with cores := t.cores }
theorem onlyCores_trans {s t u : State} (h1 : OnlyCores s t) (h2 : OnlyCores t u) : OnlyCores s u := by
  rw [OnlyCores] at *
  rw [h2, h1]
theorem foldl_modCore_onlyCores {α : Type} (k : α → Nat) (g : α → Core → Core) (es : List α) (s : State) :
    OnlyCores s (es.foldl (fun s e => s.modCore (k e) (g e)) s) := by
  induction es generalizing s with
  | nil => rfl
  | cons e es ih => exact onlyCores_trans (show OnlyCores s (s.modCore (k e) (g e)) from rfl) (ih _)
/-- Cores changed one after the other, where a change keeps what is claimed of a core. -/
theorem foldl_modCore_keeps {α : Type} (k : α → Nat) (g : α → Core → Core) {P : Core → Prop} (hg : ∀ e x, P x → P (g e x)) (es : List α) {q : Nat} :
    ∀ {s : State}, P (s.core q) → P ((es.foldl (fun s e => s.modCore (k e) (g e)) s).core q) := by
  induction es with
  | nil => exact id
  | cons e es ih =>
    intro s hs
    refine ih ?_
    rw [core_modCore]
    split
    next h => exact hg e _ (h ▸ hs)
    · exact hs
theorem secureCores_world (ks : List Nat) {q : Nat} (hq : q ∈ ks) (s : State) :
    ((ks.foldl (fun s k => s.modCore k fun x => { x with world := true }) s).core q).world = true := by
  induction ks generalizing s with
  | nil => cases hq
  | cons k ks ih =>
    by_cases hk : q ∈ ks
    · exact ih hk _
    · obtain rfl := (List.mem_cons.1 hq).resolve_right hk
      refine foldl_modCore_keeps id (fun _ x => { x with world := true }) (P := fun x => x.world = true) (fun _ _ _ => rfl) ks ?_
      rw [core_modCore, if_pos rfl]

theorem mem_dedup_iff {α : Type} [DecidableEq α] {x : α} {l : List α} : x ∈ dedup l ↔ x ∈ l := by
  refine ⟨mem_dedup, fun h => ?_⟩
  induction l with
  | nil => cases h
  | cons y r ih =>
    by_cases he : x = y
    · rw [he]
      exact List.mem_cons_self
    · refine List.mem_cons_of_mem _ (List.mem_filter.2 ⟨ih ((List.mem_cons.1 h).resolve_left he), ?_⟩)
      exact bne_iff_ne.2 he

/-- The worlds that a configuration record sets up. -/
def worldsOf (c : ConfigRecord) : Worlds :=
  { ways := c.sliceWays.foldl (fun (t : Tab Nat) (e : Nat × Nat) => Tab.put t e.1 e.2) []
    granules := sortBy id (dedup (c.secureGranules.flatMap fun (e : Nat × Nat) => (List.range e.2).map fun k => e.1 + k))
    ports := sortBy id (dedup c.securePorts), fns := sortBy id (dedup c.secureFns) }
/-- The cores that a configuration record sets up. -/
def coresSetUp (c : ConfigRecord) (s : State) : State :=
  c.parts.foldl (fun s e => s.modCore e.1 fun x => { x with part := Tab.put x.part e.2.1 e.2.2 })
    (c.secureCores.foldl (fun s k => s.modCore k fun x => { x with world := true }) s)
theorem coresSetUp_onlyCores (c : ConfigRecord) (s : State) : OnlyCores s (coresSetUp c s) :=
  onlyCores_trans (foldl_modCore_onlyCores id (fun _ x => { x with world := true }) _ _)
    (foldl_modCore_onlyCores (fun e : Nat × Nat × Word => e.1) (fun e x => { x with part := Tab.put x.part e.2.1 e.2.2 }) _ _)
theorem coresSetUp_world {c : ConfigRecord} {q : Nat} (hq : q ∈ c.secureCores) (s : State) : ((coresSetUp c s).core q).world = true :=
  foldl_modCore_keeps (fun e : Nat × Nat × Word => e.1) (fun e x => { x with part := Tab.put x.part e.2.1 e.2.2 })
    (P := fun x => x.world = true) (fun _ _ h => h) _ (secureCores_world _ hq s)

/-- The first context of an empty table. -/
def firstCtx (k : CtxSpec) : Ctx :=
  { st := .live, root := k.root, world := k.world, dbg := k.dbg, svc := k.svc, gen := ({} : Ctx).gen + 1, meas := k.meas, creator := 0xFF, fn := some k.fn }
theorem createCtx_of_empty (k : CtxSpec) (h : s.ctxs = []) : createCtx k s = s.setCtx 0 (firstCtx k) := by
  have hctx : ∀ x, s.ctx x = {} := fun x => by
    rw [State.ctx, h]
    rfl
  have hfirst : (List.range Config.numContexts).find? (fun x => (s.ctx x).st == .free) = some 0 := by
    simp only [hctx]
    rfl
  rw [createCtx, hfirst]
  simp only [hctx]
  rfl

theorem bringupContexts_eq {c : ConfigRecord} {k : CtxSpec} (hf : s.boot.fail = 0) (hs : s.boot.step = 7) (hc : s.boot.setup = some c)
    (hk : c.contexts = [k]) : bringupContexts s =
      { s with cores := (coresSetUp c { s with ctxs := [], queues := [], worlds := worldsOf c }).cores, ctxs := [(0, firstCtx k)], queues := []
               worlds := worldsOf c, boot := { s.boot with step := 8 } } := by
  refine (atStep_of (n := 7) _ (by rw [hs]; rfl) hf).trans ?_
  conv_lhs => simp only [hc, hk, List.foldl_cons, List.foldl_nil]
  have hcores := coresSetUp_onlyCores c { s with ctxs := [], queues := [], worlds := worldsOf c }
  change (createCtx k (coresSetUp c { s with ctxs := [], queues := [], worlds := worldsOf c })).modBoot (fun b => { b with step := 8 }) = _
  generalize coresSetUp c { s with ctxs := [], queues := [], worlds := worldsOf c } = u at hcores ⊢
  rw [createCtx_of_empty k (by rw [show u = _ from hcores])]
  conv_lhs => rw [show u = _ from hcores]
  rfl

end

/-- Settles O58: each event runs at its own step (`atStep_of`), and stops at the first check that its input fails. -/
theorem bringUp : Obligations.BringUp := by
  unfold Obligations.BringUp
  refine ⟨fun s => rfl, fun i n hi s h => bringup_stopped hi h, fun s r hf => ⟨fun hs ok => bringupGuidon_done hf hs ok, bringupManagement_done hf⟩,
    fun s cfg hly c hf hs => bringupRecords_done hf hs, fun s ch hf hs => bringupMemory_done hf hs ch,
    fun s host p c peers hf hs hc hp => bringupLinks_done hf hs hc hp host peers, fun s c hf hs => ⟨fun hc => ?_, fun hc k hk => ?_⟩⟩
  · refine congrArg Host.Outcome.next ((atStep_of (n := 7) _ (by rw [hs]; rfl) hf).trans ?_)
    simp only [hc]
  · refine ⟨_, congrArg Host.Outcome.next (bringupContexts_eq hf hs hc hk), rfl, rfl, rfl, rfl, rfl, rfl, rfl, rfl, rfl, rfl, fun x hx => ?_,
      fun q hq => coresSetUp_world hq _, fun q => ?_, fun q => ?_, fun a n j ha hj => ?_⟩
    · have hempty : Tab.find [(0, firstCtx k)] x = none := by simp [Tab.find, Ne.symm hx]
      rw [State.ctx, Tab.get, hempty]
      rfl
    · exact ((mem_sortBy id q _).trans mem_dedup_iff).symm
    · exact ((mem_sortBy id q _).trans mem_dedup_iff).symm
    · refine ((mem_sortBy id _ _).trans mem_dedup_iff).2 (List.mem_flatMap.2 ⟨_, ha, ?_⟩)
      exact List.mem_map.2 ⟨j, List.mem_range.2 hj, rfl⟩

end Sys2Proof.Proofs
end

section
/-!
PROOFS. Links, routed flits and control flits (spec 13 R281 to R283, 22 R428, 23 R434, R435).
-/
namespace Sys2Proof.Proofs
open Machine Laws

section
variable {s : State} {p : Nat} {f : Flit}

/-! ### Routing -/

/-- The number of turns left, the type of a flit, and the port that turn 0 names. -/
def flitCnt (f : Flit) : Nat := (f.head.extractLsb' 72 4).toNat
def flitTyp (f : Flit) : Nat := (f.head.extractLsb' 76 4).toNat
def flitPort (f : Flit) : Nat := (f.head.extractLsb' 0 6).toNat
/-- A flit with one turn taken. -/
def flitOn (f : Flit) : Flit :=
  ⟨f.head.extractLsb' 76 52 ++ (BitVec.ofNat 4 (flitCnt f - 1) ++ (f.head.extractLsb' 0 72 >>> 6)), f.payload⟩

theorem turn_zero (h : BitVec 128) : (h.extractLsb' 0 72).extractLsb' 0 6 = h.extractLsb' 0 6 := by
  refine BitVec.eq_of_getLsbD_eq fun i hi => ?_
  simp [hi]

/-- The three fields of a head put together. -/
theorem head_fields (a : BitVec 52) (b : BitVec 4) (c : BitVec 72) :
    (a ++ (b ++ c) : BitVec 128).extractLsb' 0 72 = c ∧ (a ++ (b ++ c) : BitVec 128).extractLsb' 72 4 = b ∧
      (a ++ (b ++ c) : BitVec 128).extractLsb' 76 52 = a := by
  refine ⟨?_, ?_, ?_⟩
  all_goals
    refine BitVec.eq_of_getLsbD_eq fun i hi => ?_
    rw [BitVec.getLsbD_extractLsb', BitVec.getLsbD_append, BitVec.getLsbD_append, decide_eq_true hi, Bool.true_and]
  · rw [if_pos (by omega), if_pos (by omega), Nat.zero_add]
  · rw [if_pos (by omega), if_neg (by omega), Nat.add_sub_cancel_left]
  · rw [if_neg (by omega)]
    congr 1
    omega

theorem route_of_control (ht : flitTyp f = 9) :
    fabricFlitRoute f s = if flitCnt f ≠ 0 then s.logDev 0 0xFF (unitOf 2 0) 0 0 else linkFlit f s := by
  rw [flitTyp] at ht
  rw [flitCnt, fabricFlitRoute]
  simp only [ht, decide_true, Bool.true_and, decide_eq_true_eq]
  rfl
theorem route_of_arrived (ht : flitTyp f ≠ 9) (hc : flitCnt f = 0) :
    fabricFlitRoute f s = if 10 ≤ flitTyp f then s.logDev 0 0xFF (unitOf 2 0) 0 0 else inbound (.flit f) (takeFlit f) s := by
  rw [flitTyp] at ht ⊢
  rw [flitCnt] at hc
  rw [fabricFlitRoute]
  simp only [ht, hc, decide_false, Bool.false_and, Bool.false_eq_true, if_false, if_true, ge_iff_le]
theorem route_of_turns (ht : flitTyp f ≠ 9) (hc : flitCnt f ≠ 0) :
    fabricFlitRoute f s = if (port s (flitPort f)).st ≠ 4 then setPort (flitPort f) { port s (flitPort f) with dropped := (port s (flitPort f)).dropped + 1 } s
      else sendFlit (flitPort f) (flitOn f) s := by
  rw [flitTyp] at ht
  rw [flitCnt] at hc
  rw [fabricFlitRoute]
  simp only [ht, hc, decide_false, Bool.false_and, Bool.false_eq_true, if_false, turn_zero]
  rfl

theorem inbound_eq (i : Inbound) (k : State → State) (s : State) :
    inbound i k s = if s.guidon.frozen then { s with fabric := { s.fabric with rx := s.fabric.rx ++ [i] } } else k s := rfl

theorem length_keep {α : Type} (l : List α) : (l.drop (l.length - 512)).length ≤ 512 := by
  rw [List.length_drop]
  omega
theorem length_replay_sendFlit (f : Flit) : (port (sendFlit p f s) p).replay.length ≤ 512 := by
  simp only [port, sendFlit, modFabric_fabric, tab_get_put_self]
  exact length_keep _
theorem sentLast_sendFlit (f : Flit) : SentLast f (port s p) (port (sendFlit p f s) p) := port_sendFlit_self f rfl

/-- A flit goes out of the port that turn 0 names. -/
theorem flitOn_sent (f : Flit) : ∃ h : BitVec 128,
    (port (sendFlit p (flitOn f) s) p).replay.getLast? = some ⟨h, f.payload⟩ ∧ h.extractLsb' 0 72 = f.head.extractLsb' 0 72 >>> 6 ∧
      (h.extractLsb' 72 4).toNat = flitCnt f - 1 ∧ h.extractLsb' 76 52 = f.head.extractLsb' 76 52 := by
  obtain ⟨hturns, hcnt, hrest⟩ := head_fields (f.head.extractLsb' 76 52) (BitVec.ofNat 4 (flitCnt f - 1)) (f.head.extractLsb' 0 72 >>> 6)
  have hlt : flitCnt f < 16 := BitVec.isLt _
  refine ⟨(flitOn f).head, (sentLast_sendFlit (flitOn f)).replay, hturns, (congrArg BitVec.toNat hcnt).trans ?_, hrest⟩
  rw [BitVec.toNat_ofNat, Nat.mod_eq_of_lt (by omega)]

/-! ### Replays and retraining -/

theorem linkReplay_of_idle (h : (port s p).replay = [] ∨ (port s p).st ≠ 4) : linkReplay p s = s := by
  rw [linkReplay]
  exact if_pos (by simpa using h)
theorem linkReplay_of_up (hr : (port s p).replay ≠ []) (h : (port s p).st = 4) :
    linkReplay p s = if 15 ≤ (port s p).fails then startRetrain p s
      else setPort p { port s p with fails := (port s p).fails + 1, tx := (port s p).replay } s := by
  rw [linkReplay]
  refine (if_neg (by simp [hr, h])).trans ?_
  simp only [ge_iff_le, Nat.reduceLeDiff]

theorem portRetrain_done (s : State) (p : Nat) : ∃ t, exec (.portRetrain p true) s = .next t ∧ t = { s with fabric := t.fabric } ∧
    port t p = { port s p with st := 3, fails := 0, replay := (port t p).replay, tx := (port t p).tx } ∧
      (port t p).tx.getLast? = some (makeNegotiation s (port s p)) ∧ (port t p).replay.getLast? = some (makeNegotiation s (port s p)) ∧
      ∀ q, q ≠ p → port t q = port s q := by
  have hsent := sentLast_sendFlit (s := setPort p { port s p with st := 3, fails := 0 } s) (p := p) (makeNegotiation s (port s p))
  rw [port_setPort_self] at hsent
  refine ⟨_, rfl, rfl, hsent.rest, hsent.tx, hsent.replay, fun q hq => ?_⟩
  exact (port_sendFlit_ne hq _).trans (port_setPort_ne s hq _)

/-! ### Control flits -/

/-- The head of a control flit that is well formed: no turns, nothing above SRC. -/
def headPlain (f : Flit) : Prop := f.head.extractLsb' 72 4 = 0 ∧ f.head.extractLsb' 88 40 = 0
theorem headPlain_iff : (f.head.extractLsb' 72 4 == 0 && f.head.extractLsb' 88 40 == 0) = true ↔ headPlain f := by
  rw [Bool.and_eq_true, beq_iff_eq, beq_iff_eq, headPlain]
/-- The payload bytes from one on are zeros. -/
def zerosFrom (f : Flit) (lo : Nat) : Prop := ∀ k, lo ≤ k → k < 64 → payloadByte f k = 0
theorem zerosFrom_iff {lo n : Nat} (h : lo + n = 64) :
    ((List.range n).all fun k => payloadByte f (lo + k) == 0) = true ↔ zerosFrom f lo := by
  simp only [List.all_eq_true, List.mem_range, beq_iff_eq, zerosFrom]
  refine ⟨fun hz k hlo hk => ?_, fun hz k hk => hz _ (by omega) (by omega)⟩
  have := hz (k - lo) (by omega)
  rwa [Nat.add_sub_cancel' hlo] at this
theorem malformed_iff {lo n : Nat} (h : lo + n = 64) :
    (!(f.head.extractLsb' 72 4 == 0 && f.head.extractLsb' 88 40 == 0) || !(List.range n).all fun k => payloadByte f (lo + k) == 0) = true ↔
      ¬(headPlain f ∧ zerosFrom f lo) := by
  rw [← headPlain_iff, ← zerosFrom_iff h, ← Bool.and_eq_true, ← Bool.not_and, Bool.not_eq_true', Bool.not_eq_true]

/-- A negotiation flit on a port, and a freeze flit on one. -/
def negotiated (p : Nat) (f : Flit) (s : State) : State :=
  let x := port s p
  let v := payloadByte f 1
  let y := { x with peer := v, peerMod := payloadByte f 6, feats := f.payload.extractLsb' 16 32 &&& Config.linkFeatures }
  if x.st ≠ 3 then s
  else if v = 0 then (setPort p { y with agreed := 0, st := 5 } s).logDev 0 0xFF (unitOf 2 p) 0 0
  else setPort p { y with agreed := if v.toNat < x.loc.toNat then v else x.loc, st := 4 } s
def frozenBy (p : Nat) (f : Flit) (s : State) : State :=
  if (port s p).st = 0 || (port s p).st = 5 then s else freeze 0xC1 (payloadByte f 1).toNat (payloadByte f 2) s

theorem controlFlit_of_negotiation (hb : (payloadByte f 0).toNat = 1) :
    (headPlain f ∧ zerosFrom f 7 → controlFlit p f s = negotiated p f s) ∧
      (¬(headPlain f ∧ zerosFrom f 7) → controlFlit p f s = s.logDev 0 0xFF (unitOf 2 p) 0 0) := by
  have hm := malformed_iff (f := f) (show 7 + 57 = 64 from rfl)
  rw [controlFlit]
  simp only [hb]
  exact ⟨fun h => if_neg fun hbad => hm.1 hbad h, fun h => if_pos (hm.2 h)⟩
theorem controlFlit_of_freeze (hb : (payloadByte f 0).toNat = 2) :
    (headPlain f ∧ zerosFrom f 3 → controlFlit p f s = frozenBy p f s) ∧
      (¬(headPlain f ∧ zerosFrom f 3) → controlFlit p f s = s.logDev 0 0xFF (unitOf 2 p) 0 0) := by
  have hm := malformed_iff (f := f) (show 3 + 61 = 64 from rfl)
  rw [controlFlit]
  simp only [hb]
  exact ⟨fun h => if_neg fun hbad => hm.1 hbad h, fun h => if_pos (hm.2 h)⟩
theorem controlFlit_of_reserved (h1 : (payloadByte f 0).toNat ≠ 1) (h2 : (payloadByte f 0).toNat ≠ 2) :
    controlFlit p f s = s.logDev 0 0xFF (unitOf 2 p) 0 0 := by
  rw [controlFlit]
  split
  next h => exact absurd h h1
  next h => exact absurd h h2
  · rfl

theorem controlFlit_of_malformed
    (h : ((payloadByte f 0).toNat ≠ 1 ∧ (payloadByte f 0).toNat ≠ 2) ∨ f.head.extractLsb' 72 4 ≠ 0 ∨ f.head.extractLsb' 88 40 ≠ 0 ∨
      ((payloadByte f 0).toNat = 1 ∧ ∃ k, 7 ≤ k ∧ k < 64 ∧ payloadByte f k ≠ 0) ∨ ((payloadByte f 0).toNat = 2 ∧ ∃ k, 3 ≤ k ∧ k < 64 ∧ payloadByte f k ≠ 0)) :
    controlFlit p f s = s.logDev 0 0xFF (unitOf 2 p) 0 0 := by
  by_cases h1 : (payloadByte f 0).toNat = 1
  · refine (controlFlit_of_negotiation h1).2 ?_
    rintro ⟨⟨hcnt, hhigh⟩, hzero⟩
    rcases h with h | h | h | ⟨-, k, hlo, hk, h⟩ | ⟨h, -⟩
    · exact h.1 h1
    · exact h hcnt
    · exact h hhigh
    · exact h (hzero k hlo hk)
    · omega
  · by_cases h2 : (payloadByte f 0).toNat = 2
    · refine (controlFlit_of_freeze h2).2 ?_
      rintro ⟨⟨hcnt, hhigh⟩, hzero⟩
      rcases h with h | h | h | ⟨h, -⟩ | ⟨-, k, hlo, hk, h⟩
      · exact h.2 h2
      · exact h hcnt
      · exact h hhigh
      · omega
      · exact h (hzero k hlo hk)
    · exact controlFlit_of_reserved h1 h2

theorem negotiated_done (h : (port s p).st = 3) : (negotiated p f s).mem = s.mem ∧ (∀ q, q ≠ p → port (negotiated p f s) q = port s q) ∧
    (port (negotiated p f s) p).peer = payloadByte f 1 ∧ (port (negotiated p f s) p).peerMod = payloadByte f 6 ∧
    (payloadByte f 1 = 0 → (port (negotiated p f s) p).st = 5 ∧ (port (negotiated p f s) p).agreed = 0) ∧
    (payloadByte f 1 ≠ 0 → (port (negotiated p f s) p).st = 4 ∧
      (port (negotiated p f s) p).agreed.toNat = min (payloadByte f 1).toNat (port s p).loc.toNat) := by
  rw [negotiated]
  simp only [h, ne_eq, not_true_eq_false, if_false]
  by_cases hv : payloadByte f 1 = 0
  · have hport : ∀ (x : Port) q, port ((setPort p x s).logDev 0 0xFF (unitOf 2 p) 0 0) q = port (setPort p x s) q := fun _ _ => rfl
    simp only [hv, if_true]
    refine ⟨rfl, fun q hq => (hport _ q).trans (port_setPort_ne s hq _), ?_⟩
    rw [hport, port_setPort_self]
    exact ⟨rfl, rfl, fun _ => ⟨rfl, rfl⟩, fun hno => absurd trivial hno⟩
  · simp only [hv, if_false]
    refine ⟨rfl, fun q hq => port_setPort_ne s hq _, ?_⟩
    rw [port_setPort_self]
    refine ⟨rfl, rfl, fun hno => hno.elim, fun _ => ⟨rfl, ?_⟩⟩
    dsimp only
    split <;> omega

/-! ### A freeze from another module -/

/-- The Guidon of a module that another one's freeze stops. -/
def stoppedFrom (c src : Byte) (s : State) : State :=
  (recordCause c s).modGuidon fun g => { g with frozen := true, safe := true, quiet := false, cause := c, src := BitVec.ofNat 8 src.toNat }
theorem freeze_of_frozen {c : Byte} {src : Nat} {fc : Byte} (h : s.guidon.frozen = true) : freeze c src fc s = recordCause c s := by
  rw [freeze]
  exact if_pos h
theorem freeze_of_running {c src fc : Byte} (h : s.guidon.frozen = false) : ∃ ids, freeze c src.toNat fc s =
    ((portsUp s).foldl (fun u p => sendFlit p (makeFreezeFlit s.fabric.module_.toNat src.toNat fc) u) (stoppedFrom c src s)).modThreads ids unreserved := by
  rw [freeze]
  exact ⟨_, if_neg (by simp [h])⟩

theorem typ_makeFreezeFlit (m src : Nat) (c : Byte) : ((makeFreezeFlit m src c).head.extractLsb' 76 4).toNat = 9 := by
  rw [makeFreezeFlit, BitVec.extractLsb'_toNat, BitVec.toNat_ofNat, Nat.shiftRight_eq_div_pow]
  omega

theorem freezeFlit_done (f : Flit) (s : State) : let t := freeze 0xC1 (payloadByte f 1).toNat (payloadByte f 2) s
    t.mem = s.mem ∧ t.guidon.frozen = true ∧
      (s.guidon.frozen = true → t.guidon.cause = s.guidon.cause ∧ t.guidon.src = s.guidon.src ∧ t.fabric = s.fabric) ∧
      (s.guidon.frozen = false → t.guidon.cause = 0xC1 ∧ t.guidon.src = payloadByte f 1 ∧ t.guidon.safe = true ∧
        t.fabric = { s.fabric with ports := t.fabric.ports } ∧ (∀ q, q ∉ portsUp s → port t q = port s q) ∧
        ∃ g, (∀ q ∈ portsUp s, port t q = { port s q with replay := (port t q).replay, tx := (port t q).tx } ∧
            (port t q).tx.getLast? = some g ∧ (port t q).replay.getLast? = some g) ∧
          (g.head.extractLsb' 76 4).toNat = 9 ∧ payloadByte g 0 = 2 ∧ payloadByte g 1 = payloadByte f 1 ∧ payloadByte g 2 = payloadByte f 2) := by
  intro t
  by_cases h : s.guidon.frozen = true
  · have ht : t = recordCause 0xC1 s := freeze_of_frozen h
    rw [ht]
    exact ⟨rfl, h, fun _ => ⟨rfl, rfl, rfl⟩, fun hno => absurd hno (by simp [h])⟩
  · have hrun : s.guidon.frozen = false := by simpa using h
    obtain ⟨ids, ht⟩ : ∃ ids, t = _ := freeze_of_running hrun
    obtain ⟨hrest, hothers, hsent⟩ := foldl_sendFlit (makeFreezeFlit s.fabric.module_.toNat (payloadByte f 1).toNat (payloadByte f 2)) (portsUp s)
      (stoppedFrom 0xC1 (payloadByte f 1) s)
    generalize (portsUp s).foldl (fun u p => sendFlit p _ u) (stoppedFrom 0xC1 (payloadByte f 1) s) = u at ht hrest hothers hsent
    have hsame : t = { u with work := { u.work with threads := t.work.threads } } := by
      rw [ht]
      exact sameT_modThreads u ids unreserved
    have hguidon : t.guidon = (stoppedFrom 0xC1 (payloadByte f 1) s).guidon := by rw [hsame, hrest]
    have hfabric : t.fabric = u.fabric := by rw [hsame]
    have hport : ∀ q, port t q = port u q := fun q => by rw [port, hfabric, port]
    refine ⟨by rw [hsame, hrest]; rfl, by rw [hguidon]; rfl, fun hno => absurd hno h, fun _ => ⟨by rw [hguidon]; rfl, ?_, by rw [hguidon]; rfl,
      ?_, fun q hq => (hport q).trans (hothers q hq),
      makeFreezeFlit s.fabric.module_.toNat (payloadByte f 1).toNat (payloadByte f 2), fun q hq => ?_, typ_makeFreezeFlit _ _ _, payload_makeFreezeFlit _ _ _⟩⟩
    · rw [hguidon]
      exact BitVec.ofNat_toNat _ _
    · rw [hfabric, hrest]
      rfl
    · rw [hport]
      exact ⟨(hsent q hq).rest, (hsent q hq).tx, (hsent q hq).replay⟩

end

/-- Settles O56: a flit by its type and the turns it has left, a link by its port's state, a control flit by its subtype. -/
theorem linksAndFlits : Obligations.LinksAndFlits := by
  unfold Obligations.LinksAndFlits
  refine ⟨fun s f cnt p hcnt hp => ?_, fun s p => ⟨fun h => congrArg Host.Outcome.next (linkReplay_of_idle h), fun hr hst => ⟨fun hf => ?_, fun hf => ?_⟩,
    portRetrain_done s p, ?_⟩, fun s p f => ⟨rfl, fun h => congrArg Host.Outcome.next (controlFlit_of_malformed h), fun hcnt hhigh =>
      ⟨fun hb hz => ⟨fun hst => ?_, fun hst => ?_⟩, fun hb hz => ⟨fun hst => ?_, fun h0 h5 => ?_⟩⟩⟩⟩
  · obtain rfl : cnt = flitCnt f := hcnt
    obtain rfl : p = flitPort f := hp
    change (_ → 10 ≤ flitTyp f → _) ∧ (_ → flitTyp f < 9 → _) ∧ (flitTyp f = 9 → _) ∧ (_ → flitTyp f ≠ 9 → _) ∧ (_ → flitTyp f ≠ 9 → _)
    refine ⟨fun hc ht => ?_, fun hc ht => ?_, fun ht => ⟨fun hc => ?_, fun hc e he => ?_⟩, fun hc ht hst => ?_, fun hc ht hst => ?_⟩
    · exact congrArg Host.Outcome.next ((route_of_arrived (by omega) hc).trans (if_pos ht))
    · refine congrArg Host.Outcome.next ((route_of_arrived (by omega) hc).trans ((if_neg (by omega)).trans ?_))
      rw [inbound_eq]
      split <;> rfl
    · exact congrArg Host.Outcome.next ((route_of_control ht).trans (if_pos hc))
    · refine congrArg Host.Outcome.next ((route_of_control ht).trans ((if_neg (not_not.2 hc)).trans ?_))
      rw [linkFlit, he]
      rfl
    · exact congrArg Host.Outcome.next ((route_of_turns ht hc).trans (if_pos hst))
    · refine ⟨_, congrArg Host.Outcome.next ((route_of_turns ht hc).trans (if_neg (not_not.2 hst))), rfl, fun q hq => port_sendFlit_ne hq _, ?_, ?_,
        length_replay_sendFlit _, flitOn_sent f⟩
      · exact (sentLast_sendFlit _).rest
      · exact (sentLast_sendFlit _).tx.trans (sentLast_sendFlit _).replay.symm
  · exact congrArg Host.Outcome.next ((linkReplay_of_up hr hst).trans (if_neg (by omega)))
  · exact congrArg Host.Outcome.next ((linkReplay_of_up hr hst).trans (if_pos hf))
  · exact ⟨_, rfl, rfl, port_setPort_self s p _, rfl⟩
  · refine congrArg Host.Outcome.next (((controlFlit_of_negotiation hb).1 ⟨⟨hcnt, hhigh⟩, hz⟩).trans ?_)
    rw [negotiated]
    exact if_pos hst
  · exact ⟨_, congrArg Host.Outcome.next ((controlFlit_of_negotiation hb).1 ⟨⟨hcnt, hhigh⟩, hz⟩), negotiated_done hst⟩
  · refine congrArg Host.Outcome.next (((controlFlit_of_freeze hb).1 ⟨⟨hcnt, hhigh⟩, hz⟩).trans ?_)
    exact if_pos (by simpa using hst)
  · refine ⟨_, congrArg Host.Outcome.next (((controlFlit_of_freeze hb).1 ⟨⟨hcnt, hhigh⟩, hz⟩).trans ?_), freezeFlit_done f s⟩
    exact if_neg (by simpa using And.intro h0 h5)

end Sys2Proof.Proofs
end

section
/-!
PROOFS. Threads woken and accesses failed, with the threads that are left alone (spec 02 R24, 11 R219, 13 R283, R284).
-/
namespace Sys2Proof.Proofs
open Machine Laws

section
variable {s u : State}

/-! ### Waking -/

/-- One thread's entry among entries with different keys. -/
theorem filter_of_key {α : Type} {t : List (Nat × α)} (hn : (t.map (·.1)).Nodup) {j : Nat} {x : α} (hx : (j, x) ∈ t) {p : Nat × α → Bool}
    (hp : p (j, x) = true) (hno : ∀ e ∈ t, e.1 ≠ j → p e = false) : t.filter p = [(j, x)] := by
  induction t with
  | nil => cases hx
  | cons e t ih =>
    obtain ⟨hfresh, hn⟩ := List.nodup_cons.1 hn
    by_cases hj : e.1 = j
    · have hnotin : (j, x) ∉ t := fun h => hfresh (List.mem_map.2 ⟨_, h, hj.symm⟩)
      obtain rfl := (List.mem_cons.1 hx).resolve_right hnotin
      have hrest : t.filter p = [] := List.filter_eq_nil_iff.2 fun e he => by
        rw [hno e (List.mem_cons_of_mem _ he) fun h => hfresh (List.mem_map.2 ⟨e, he, h⟩)]
        exact Bool.false_ne_true
      rw [List.filter_cons_of_pos hp, hrest]
    · have hin : (j, x) ∈ t := (List.mem_cons.1 hx).resolve_left fun h => hj (by rw [← h])
      rw [List.filter_cons_of_neg (by simp [hno e List.mem_cons_self hj]), ih hn hin fun e he => hno e (List.mem_cons_of_mem _ he)]

/-- Every entry of a thread's number has a property. -/
def EachOf (j : Nat) (P : Thread → Prop) (s : State) : Prop := ∀ e ∈ s.work.threads, e.1 = j → P e.2
theorem eachOf_of_nodup {P : Thread → Prop} {j : Nat} {x : Thread} (hn : (s.work.threads.map (·.1)).Nodup) (hx : s.thread? j = some x) (hp : P x) :
    EachOf j P s := by
  rintro e he rfl
  have hfind := tab_find_of_mem hn he
  rw [State.thread?, hfind, Option.some_inj] at hx
  rwa [hx]
theorem eachOf_modThread_ne {P : Thread → Prop} {j k : Nat} {g : Thread → Thread} (hk : j ≠ k) (h : EachOf j P s) : EachOf j P (s.modThread k g) := by
  rintro e he rfl
  exact h e (modThread_threads s k g e he hk) rfl
theorem eachOf_modThreads {P : Thread → Prop} {j : Nat} {ids : List Nat} {g : Thread → Thread} (hj : j ∉ ids) (h : EachOf j P s) :
    EachOf j P (s.modThreads ids g) := by
  rw [State.modThreads]
  induction ids generalizing s with
  | nil => exact h
  | cons k ids ih =>
    obtain ⟨hk, hids⟩ := not_or.1 (mt List.mem_cons.2 hj)
    exact ih hids (eachOf_modThread_ne hk h)
theorem eachOf_takePriv {P : Thread → Prop} {j : Nat} {ids : List Nat} {a : TrapAt} {v : TrapVal} (hj : j ∉ ids) (h : EachOf j P s) :
    EachOf j P (takePriv s ids a v) := by
  have hcore : ∀ {u : State} c g, EachOf j P u → EachOf j P (u.modCore c g) := fun _ _ h => h
  rw [takePriv]
  split
  · exact h
  next lead _ =>
    by_cases hh : (s.thread lead).handlerOf.isSome = true
    · simp only [hh, if_true]
      exact hcore _ _ (eachOf_modThreads hj (hcore _ _ (hcore _ _ h)))
    · rw [Bool.not_eq_true] at hh
      simp only [hh, Bool.false_eq_true, if_false]
      exact hcore _ _ (eachOf_modThreads hj (hcore _ _ (hcore _ _ h)))

theorem sameTC_settleBatch (b : Nat) (s : State) : SameButThreadsCores s (settleBatch b s) := by
  rw [settleBatch]
  split
  · exact sameTC_refl s
  · split
    · exact sameTC_takePriv ..
    · exact sameTC_of_sameT (sameT_modThreads ..)
theorem sameTC_wakeWhere (hit : Nat → Thread → Bool) (s : State) : SameButThreadsCores s (wakeWhere hit s) :=
  sameTC_trans (sameTC_of_sameT (sameT_modThreads ..)) (sameTC_foldl _ (fun s b => sameTC_settleBatch b s) _ _)

/-- The end of other threads' waits leaves a thread that completes alone. -/
theorem settleBatch_leaves {P : Thread → Prop} {j : Nat} (b : Nat) (hsingle : ∀ t, P t → t.batch = none) (h : EachOf j P s) :
    EachOf j P (settleBatch b s) ∧ (settleBatch b s).thread? j = s.thread? j := by
  have hj : j ∉ (s.work.threads.filter fun e => e.2.batch == some b && e.2.park.isSome).map (·.1) := by
    intro hin
    obtain ⟨e, he, hk⟩ := List.mem_map.1 hin
    obtain ⟨hmem, hbatch⟩ := List.mem_filter.1 he
    rw [hsingle _ (h e hmem hk)] at hbatch
    cases hbatch
  rw [settleBatch]
  split
  · exact ⟨h, rfl⟩
  · split
    · exact ⟨eachOf_takePriv hj h, takePriv_thread? _ _ _ _ _ hj⟩
    · exact ⟨eachOf_modThreads hj h, thread?_modThreads_of_notMem _ _ _ _ hj⟩
theorem settleBatches_leave {P : Thread → Prop} {j : Nat} (bs : List Nat) (hsingle : ∀ t, P t → t.batch = none) (h : EachOf j P s) :
    (bs.foldl (fun s b => settleBatch b s) s).thread? j = s.thread? j := by
  induction bs generalizing s with
  | nil => rfl
  | cons b bs ih =>
    obtain ⟨heach, hthread⟩ := settleBatch_leaves b hsingle h
    rw [List.foldl_cons, ih heach, hthread]
/-- A thread that completes alone, and none of whose entries is hit, is left as it was. -/
theorem thread?_wakeWhere_of_missed {hit : Nat → Thread → Bool} {j : Nat} (h : EachOf j (fun t => t.batch = none ∧ hit j t = false) s) :
    (wakeWhere hit s).thread? j = s.thread? j := by
  have hj : j ∉ (s.work.threads.filter fun e => hit e.1 e.2).map (·.1) := by
    intro hin
    obtain ⟨e, he, rfl⟩ := List.mem_map.1 hin
    obtain ⟨hmem, hhit⟩ := List.mem_filter.1 he
    exact Bool.false_ne_true ((h e hmem rfl).2.symm.trans hhit)
  exact (settleBatches_leave _ (fun _ h => h.1) (eachOf_modThreads hj h)).trans (thread?_modThreads_of_notMem _ _ _ _ hj)
/-- The end of one thread's own wait, where it completes alone. -/
theorem wake_one_eq {j : Nat} (h : EachOf j (fun t => t.batch = none) s) :
    wakeWhere (fun k _ => k == j) s = s.modThreads ((s.work.threads.filter fun e => e.1 == j).map (·.1)) woken := by
  have hnone : (s.work.threads.filter fun e => e.1 == j).filterMap (fun e => e.2.batch) = [] :=
    List.filterMap_eq_nil_iff.2 fun e he => h e (List.mem_of_mem_filter he) (beq_iff_eq.1 (List.mem_filter.1 he).2)
  rw [wakeWhere]
  simp only [hnone]
  rfl

/-! ### Accesses that fail -/

theorem copyAnswered_of_none {os : List Outst} (h : ∀ o ∈ os, o.copy = none) (cause : Option Byte) (s : State) : copyAnswered os cause s = s := by
  rw [copyAnswered]
  induction os generalizing s with
  | nil => rfl
  | cons o os ih =>
    have hno : ∀ e : Nat × Core, ((e.2.cpe.q.find? fun x => o.copy == some x.id).map fun x => (e.1, x)) = none := fun e => by
      rw [h o List.mem_cons_self]
      simp
    have hnone : s.cores.findSome? (fun e => (e.2.cpe.q.find? fun x => o.copy == some x.id).map fun x => (e.1, x)) = none :=
      List.findSome?_eq_none_iff.2 fun e _ => hno e
    rw [List.foldl_cons]
    simp only [hnone]
    exact ih (fun o ho => h o (List.mem_cons_of_mem _ ho)) s
theorem endGroups_of_left (h : s.work.groups.all (fun e => e.2.left != 0) = true) : endGroups s = s := by
  have hnil : (s.work.groups.filter fun e => e.2.left == 0) = [] :=
    List.filter_eq_nil_iff.2 fun e he => by simpa using List.all_eq_true.1 h e he
  rw [endGroups, hnil]
  rfl
theorem groups_sameTC (h : SameButThreadsCores s u) : u.work.groups = s.work.groups := by rw [h]

/-- What a failed access leaves: its thread stopped, its trap queued at the core, and nothing else changed. -/
theorem failWaiting_one {o : Outst} {j : Nat} {x : Thread} {cause : Byte} (hcopy : o.copy = none) (htyp : ¬(o.pkt.typ = 6 ∨ (o.pkt.typ = 0 ∧ o.pkt.op = 1)))
    (ho : o.thread = some j) (hx : s.thread? j = some x) (hawaits : x.awaits = some (o.pkt.flow, o.pkt.seq)) (hhandler : x.handlerOf = none)
    (hbatch : x.batch = none) (hn : (s.work.threads.map (·.1)).Nodup) (hc : cause ≠ 0x10 ∧ cause ≠ 0x11) :
    ∃ tr, TrapQueued s (failWaiting [o] cause s) (s.coreOf x) tr ∧ tr.regs.cause = cause ∧ tr.regs.epc = x.pc ∧ tr.threads = [j] ∧
      (failWaiting [o] cause s).thread? j = some (x.stoppedAt x.pc x.resume) ∧ ∀ y, y ≠ j → (failWaiting [o] cause s).thread? y = s.thread? y := by
  have hrenewal : o.pkt.typ ≠ 6 := fun h => htyp (.inl h)
  have hone : s.work.threads.filter (fun e => waitsOn o e.1 e.2) = [(j, x)] := by
    refine filter_of_key hn (tab_mem_of_find hx) ?_ fun e _ hne => ?_
    · simp [waitsOn, ho, hawaits]
    · have hoj : (o.thread == some e.1) = false := by simp [ho, Ne.symm hne]
      have hother : (o.pkt.typ == 6 || (o.pkt.typ == 0 && o.pkt.op == 1)) = false := by simpa using htyp
      simp only [waitsOn, hoj, hother, Bool.false_and, Bool.or_self]
  have hfail : failWaiting [o] cause s = takePriv s [j] x.parkedAt { cause := cause } := by
    rw [failWaiting, copyAnswered_of_none (by simpa using hcopy)]
    simp only [List.foldl_cons, List.foldl_nil, hrenewal, if_false, hone, hbatch]
  have hthread : s.thread j = x := tab_get_of_find hx _
  obtain ⟨tr, lead, -, hqueued, hregs, hthreads, -, -, -, -, hall⟩ := takePriv_spec (s := s) (ids := [j]) (a := x.parkedAt) (v := { cause := cause })
    (c := s.coreOf x) (List.nodup_singleton j) (List.cons_ne_nil j []) (by simpa [hthread] using hhandler) (by simp [hthread])
  rw [hfail]
  refine ⟨tr, hqueued, by rw [hregs, privRegs_cause], by rw [hregs, privRegs_epc]; rfl, hthreads, ?_, fun y hy => ?_⟩
  · rw [hall, if_pos (List.mem_singleton_self j), hx, Option.map_some, stopWith_resuming (v := { cause := cause }) hc]
    rfl
  · rw [hall, if_neg (by simpa using hy)]

end

end Sys2Proof.Proofs
end

section
/-!
PROOFS. Flows as their source: opened, closed, acknowledged and retransmitted (spec 13 R283, R284, 22 R426).
-/
namespace Sys2Proof.Proofs
open Machine Laws

section
variable {s : State} {k : Nat} {f : Flow}

/-! ### The table of flows -/

/-- The state with one flow replaced. -/
def withFlow (k : Nat) (f : Flow) (s : State) : State := { s with fabric := { s.fabric with flows := Tab.put s.fabric.flows k f } }
theorem modFlow_of_find (g : Flow → Flow) (h : Tab.find s.fabric.flows k = some f) : modFlow k g s = withFlow k (g f) s := by
  rw [modFlow, h]
  rfl
theorem find_withFlow (k j : Nat) (f : Flow) (s : State) :
    Tab.find (withFlow k f s).fabric.flows j = if j = k then some f else Tab.find s.fabric.flows j := tab_find_put _ _ _ _
theorem get_withFlow (k : Nat) (f : Flow) (s : State) : Tab.get (withFlow k f s).fabric.flows k {} = f := tab_get_put_self _ _ _ _
/-- The state without a flow. -/
def withoutFlow (k : Nat) (s : State) : State := { s with fabric := { s.fabric with flows := Tab.del s.fabric.flows k } }
theorem get_withoutFlow (k : Nat) (s : State) : Tab.get (withoutFlow k s).fabric.flows k {} = {} := by
  rw [Tab.get, withoutFlow, tab_find_del, if_pos rfl]
  rfl

/-! ### FLOW_OPEN -/

theorem flowOpen_of_taken {dest port : Nat} {ordered secure : Bool} (h : 256 ≤ k ∨ Tab.has s.fabric.flows k = true) :
    flowOpen k dest ordered secure port s = s := by
  rw [flowOpen]
  exact if_pos (by simpa using h)
theorem flowOpen_of_free {dest port : Nat} {ordered secure : Bool} (hk : k < 256) (hfree : Tab.has s.fabric.flows k = false) :
    flowOpen k dest ordered secure port s = if port ∈ s.worlds.ports ∧ secure = false then s.logDev 0x42 0xFF (unitOf 2 port) 0 0
      else withFlow k { dest := dest, ordered := ordered, secure := secure, port := port } s := by
  rw [flowOpen]
  refine (if_neg (by simp [hfree, hk])).trans ?_
  simp only [Bool.and_eq_true, List.contains_eq_mem, decide_eq_true_eq, Bool.not_eq_true']
  rfl

/-! ### Packets abandoned -/

/-- The one access that waits on a flow fails, and the flow has no packet outstanding. -/
theorem failed_done {u : State} {o : Outst} {j : Nat} {x : Thread} {cause : Byte} (hu : u = { s with fabric := u.fabric })
    (hflow : (Tab.get u.fabric.flows k {}).outst = []) (hcopy : o.copy = none)
    (htyp : ¬(o.pkt.typ = 6 ∨ (o.pkt.typ = 0 ∧ o.pkt.op = 1))) (ho : o.thread = some j) (hx : s.thread? j = some x)
    (hawaits : x.awaits = some (o.pkt.flow, o.pkt.seq)) (hhandler : x.handlerOf = none) (hbatch : x.batch = none)
    (hn : (s.work.threads.map (·.1)).Nodup) (hleft : s.work.groups.all (fun e => e.2.left != 0) = true) (hc : cause ≠ 0x10 ∧ cause ≠ 0x11) :
    let t := endGroups (failWaiting [o] cause u)
    t.mem = s.mem ∧ t.thread? j = some (x.stoppedAt x.pc x.resume) ∧
      (∀ y, y ≠ j → t.thread? y = s.thread? y) ∧ (Tab.get t.fabric.flows k {}).outst = [] ∧
      ∃ tr, tr.regs.cause = cause ∧ tr.regs.epc = x.pc ∧ tr.threads = [j] ∧ (t.core (s.coreOf x)).traps = (s.core (s.coreOf x)).traps ++ [tr] := by
  have hwork : u.work = s.work := by rw [hu]
  have hcores : u.cores = s.cores := by rw [hu]
  have hthread : ∀ y, u.thread? y = s.thread? y := fun y => by rw [State.thread?, hwork, State.thread?]
  have hcoreOf : u.coreOf x = s.coreOf x := by rw [hu]; rfl
  obtain ⟨tr, ⟨hcore, -, -, hrest⟩, hcause, hepc, hthreads, hj, hothers⟩ := failWaiting_one hcopy htyp ho (by rw [hthread, hx]) hawaits hhandler hbatch
    (by rw [hwork]; exact hn) hc
  rw [endGroups_of_left (by rw [groups_sameTC hrest, hwork]; exact hleft)]
  refine ⟨by rw [hrest, hu], hj, fun y hy => (hothers y hy).trans (hthread y), by rw [hrest]; exact hflow, tr, hcause, hepc, hthreads, ?_⟩
  rw [← hcoreOf, hcore, State.core, State.core, hcores]
  rfl

theorem flowClose_eq (h : Tab.find s.fabric.flows k = some f) : flowClose k s = endGroups (failWaiting f.outst 0x58 (withoutFlow k s)) := by
  rw [flowClose]
  simp only [tab_get_of_find h]
  rfl
theorem flowClose_of_empty (h : Tab.find s.fabric.flows k = some f) (ho : f.outst = []) (hleft : s.work.groups.all (fun e => e.2.left != 0) = true) :
    flowClose k s = withoutFlow k s := by
  rw [flowClose_eq h, ho]
  exact endGroups_of_left (s := withoutFlow k s) hleft

/-- A packet of a flow that has no other is sent again, or abandoned. -/
theorem retransmit_eq {o : Outst} (h : Tab.find s.fabric.flows k = some f) (ho : f.outst = [o]) : retransmitTimeout k o.pkt.seq s =
    if s.dtime < o.sent + 20000 then s
    else if o.tries < 8 then
      sendPacket f.port f.dest o.pkt (withFlow k { f with outst := [{ o with sent := s.dtime, tries := o.tries + 1 }] } s)
    else endGroups (failWaiting [o] 0x59 (withFlow k { f with outst := [] } s)) := by
  have hfind : ([o].find? fun y => y.pkt.seq == o.pkt.seq) = some o := List.find?_cons_of_pos (by simp)
  rw [retransmitTimeout]
  simp only [tab_get_of_find h, ho, hfind, modFlow_of_find _ h]
  simp

/-! ### Acknowledgements -/

theorem e2eAck_of_frozen (h : s.guidon.frozen = true) (seq : Word) :
    e2eAck k seq s = { s with fabric := { s.fabric with rx := s.fabric.rx ++ [.ack k seq] } } := by
  rw [e2eAck, inbound_eq, if_pos h]
/-- The packets that a flow keeps after an acknowledgement. -/
def ackKept (seq : Word) (o : Outst) : Bool := o.pkt.seq != seq || (o.thread.isSome && (o.pkt.typ == 0 || o.pkt.typ == 4))
theorem ackKept_iff (seq : Word) (o : Outst) :
    ackKept seq o = true ↔ (o.pkt.seq = seq → o.thread.isSome = true ∧ (o.pkt.typ = 0 ∨ o.pkt.typ = 4)) := by
  by_cases h : o.pkt.seq = seq <;> simp [ackKept, h]
theorem e2eAck_of_running (hrun : s.guidon.frozen = false) (h : Tab.find s.fabric.flows k = some f) (hcopy : ∀ o ∈ f.outst, o.copy = none)
    (hleft : s.work.groups.all (fun e => e.2.left != 0) = true) (seq : Word) :
    e2eAck k seq s = wakeRemote Config.paSize (withFlow k { f with outst := f.outst.filter (ackKept seq) } s) := by
  have hwake := sameTC_wakeWhere (fun _ t => t.park == some (.remote Config.paSize) && t.awaits.isNone)
    (withFlow k { f with outst := f.outst.filter (ackKept seq) } s)
  rw [e2eAck, inbound_eq, if_neg (by simp [hrun]), ackOne, tab_get_of_find h, modFlow_of_find _ h,
    copyAnswered_of_none fun o ho => hcopy o (List.mem_of_mem_filter ho)]
  refine endGroups_of_left (s := wakeRemote Config.paSize (withFlow k { f with outst := f.outst.filter (ackKept seq) } s)) ?_
  rw [wakeRemote, groups_sameTC hwake]
  exact hleft
theorem e2eAck_done (hrun : s.guidon.frozen = false) (h : Tab.find s.fabric.flows k = some f) (hcopy : ∀ o ∈ f.outst, o.copy = none)
    (hleft : s.work.groups.all (fun e => e.2.left != 0) = true) (seq : Word) : (e2eAck k seq s).mem = s.mem ∧
      ∀ o, o ∈ (Tab.get (e2eAck k seq s).fabric.flows k {}).outst ↔
        o ∈ f.outst ∧ (o.pkt.seq = seq → o.thread.isSome = true ∧ (o.pkt.typ = 0 ∨ o.pkt.typ = 4)) := by
  have hwake := sameTC_wakeWhere (fun _ t => t.park == some (.remote Config.paSize) && t.awaits.isNone)
    (withFlow k { f with outst := f.outst.filter (ackKept seq) } s)
  rw [e2eAck_of_running hrun h hcopy hleft, wakeRemote, hwake]
  refine ⟨rfl, fun o => ?_⟩
  change o ∈ (Tab.get (withFlow k _ s).fabric.flows k {}).outst ↔ _
  rw [get_withFlow, List.mem_filter, ackKept_iff]

end

end Sys2Proof.Proofs
end

section
/-!
PROOFS. Packets at their destination and replies at their source (spec 13 R272, R284).
-/
namespace Sys2Proof.Proofs
open Machine Laws

section
variable {s t u : State} {p : Packet} {f : InFlow}

/-! ### Replies sent -/

/-- The reply to a request. -/
def replyOf (s : State) (p : Packet) (typ : BitVec 4) (b c : DWord) (data : BitVec 2048) : Packet :=
  { p with src := s.fabric.module_.toNat, typ := typ, b := b, c := c, data := data }
/-- A state with one more reply sent. -/
def Replied (s : State) (q : Packet) (t : State) : Prop :=
  t = { s with fabric := { s.fabric with replies := s.fabric.replies ++ [q], ports := t.fabric.ports } }
theorem replied_reply (p : Packet) (typ : BitVec 4) (b c : DWord) (data : BitVec 2048) (s : State) :
    Replied s (replyOf s p typ b c data) (reply p typ b c data s) := sendPacket_rest _ _ _ _
section
variable {q : Packet} (h : Replied s q t)
include h
theorem Replied.mem : t.mem = s.mem := by rw [h]
theorem Replied.log : t.log = s.log := by rw [h]
theorem Replied.replies : t.fabric.replies = s.fabric.replies ++ [q] := by rw [h]
theorem Replied.inFlows : t.fabric.inFlows = s.fabric.inFlows := by rw [h]
theorem Replied.modul : t.fabric.module_ = s.fabric.module_ := by rw [h]
end

/-! ### What an access at the home leaves of the fabric -/

/-- The fabric differs in the versions of its pages at most. -/
def OnlyVersions (s t : State) : Prop := t.fabric = { s.fabric with pageVer := t.fabric.pageVer }
theorem onlyVersions_of_eq (h : t.fabric = s.fabric) : OnlyVersions s t := by rw [OnlyVersions, h]
theorem clearResv_fabric (line : Nat) (keep : Nat → Thread → Bool) (s : State) : (clearResv line keep s).fabric = s.fabric := modThreads_fabric ..
theorem recallLine_fabric {line : Nat} (h : (dirOf s line).st ≠ .b) : (recallLine line s).fabric = s.fabric := by
  have hlose : ∀ (l : List Nat) (u : State), (l.foldl (fun s k => loseCopy k line s) u).fabric = u.fabric := fun l => by
    induction l with
    | nil => exact fun _ => rfl
    | cons c l ih => exact fun u => (ih _).trans (clearResv_fabric ..)
  rw [recallLine]
  simp only [mergeLine_quiet s line h]
  exact hlose _ _
theorem onlyVersions_homeWrite (w : Option Nat) (pa : Nat) (bs : List Byte) (s : State) : OnlyVersions s (homeWrite w pa bs s) := by
  have hresv : (writeResv (lineOf pa) w { s with mem := Mem.put 0 s.mem pa bs }).fabric = s.fabric := clearResv_fabric ..
  have hover : ∀ u : State, (overwrite pa bs.length u).fabric = u.fabric := fun u => by
    rw [overwrite]
    split <;> rfl
  rw [homeWrite, touchVersion]
  simp only [OnlyVersions]
  split
  · rw [hover, hresv]
  · rw [modFabric_fabric, hover, hresv]

/-- A device write to a calm line that the host does not hold. -/
theorem farWrite_done {w : Option Nat} {mode pa : Nat} (bs : List Byte) (hhost : hostHolds s pa = false) (hcalm : CalmLine s (lineOf pa)) :
    (farWrite w mode pa bs s).mem = Mem.put 0 s.mem pa bs ∧ OnlyVersions s (farWrite w mode pa bs s) := by
  obtain ⟨hst, hpend⟩ := hcalm
  have hdone : ∀ u : State, u.mem = s.mem → u.fabric = s.fabric →
      (homeWrite w pa bs (l2Dirty (lineOf pa) (sectorBit pa) u)).mem = Mem.put 0 s.mem pa bs ∧
        OnlyVersions s (homeWrite w pa bs (l2Dirty (lineOf pa) (sectorBit pa) u)) := fun u hmem hfab => by
    refine ⟨(homeWrite_mem ..).trans (by rw [(quietly_l2Dirty ..).mem, hmem]), ?_⟩
    have honly := onlyVersions_homeWrite w pa bs (l2Dirty (lineOf pa) (sectorBit pa) u)
    rwa [OnlyVersions, l2Dirty, modHome_fabric, hfab] at honly
  rw [farWrite, if_neg (by simp [hhost])]
  dsimp only
  split
  · rw [settleLine_idle s _ hpend]
    exact hdone _ (quietly_recallLine hst).mem (recallLine_fabric hst)
  · exact hdone s rfl rfl

/-! ### Requests applied -/

/-- A packet that has left the inbox, and its flits. -/
def received (p : Packet) (s : State) : State := takeFlits p (s.modFabric fun x => { x with inbox := x.inbox.filter fun q => q != p })
theorem packetDeliver_of_frozen (h : s.guidon.frozen = true) :
    packetDeliver p s = { s with fabric := { s.fabric with rx := s.fabric.rx ++ [.packet p] } } := by
  rw [packetDeliver, inbound_eq, if_pos h]
theorem packetDeliver_request (hrun : s.guidon.frozen = false) (hsnoop : snoopFirst s p = false) (htyp : p.typ = 0 ∨ p.typ = 2 ∨ p.typ = 4 ∨ p.typ = 6) :
    packetDeliver p s = deliverRequest p (received p s) := by
  have hreq : [0, 2, 4, 6].contains p.typ.toNat = true := by rcases htyp with h | h | h | h <;> rw [h] <;> rfl
  rw [packetDeliver, inbound_eq, if_neg (by simp [hrun]), takePacket]
  simp only [hsnoop, hreq, Bool.false_eq_true, if_false, if_true]
  rfl

/-- The state with one inbound flow replaced. -/
def withInFlow (p : Packet) (f : InFlow) (s : State) : State := { s with fabric := { s.fabric with inFlows := Tab.put s.fabric.inFlows (inKey p) f } }
/-- What a flow keeps of its first packet. -/
def firstApplied (p : Packet) (v : Option DWord) (f : InFlow) : InFlow :=
  { f with any := true, high := p.seq, applied := [p.seq], next := p.seq + 1, results := match v with | some v => [(p.seq, v)] | none => [] }
theorem applyOnce_first {v : Option DWord} (h : applyRequest p s = (v, t)) (hf : Tab.get t.fabric.inFlows (inKey p) {} = f)
    (hany : f.any = false) (happlied : f.applied = []) (hresults : f.results = []) :
    applyOnce p s = reply p 8 0 0 0 (withInFlow p (firstApplied p v f) t) := by
  have hnear : decide ((p.seq - p.seq).toNat < 4096) = true := by simp
  rw [applyOnce, h]
  simp only [hf, hany, happlied, hresults, Bool.not_false, Bool.true_or, if_true, List.filter_cons, hnear, List.filter_nil, List.append_nil]
  cases v with
  | none => rfl
  | some v => simp only [List.filter_cons, hnear, if_true, List.filter_nil]; rfl
theorem applyHeld_of_none {key : Nat} (h : (Tab.get s.fabric.inFlows key {}).held = []) (n : Nat) : applyHeld key n s = s := by
  cases n with
  | zero => rfl
  | succ n =>
    rw [applyHeld]
    simp only [h]
    rfl

/-- The first packet of a flow, applied and acknowledged. -/
theorem fresh_done {v : Option DWord} {q : Packet} (hrun : s.guidon.frozen = false) (hsnoop : snoopFirst s p = false)
    (htyp : p.typ = 0 ∨ p.typ = 2 ∨ p.typ = 4 ∨ p.typ = 6) (hf : f = Tab.get s.fabric.inFlows (inKey p) {}) (hany : f.any = false) (hheld : f.held = [])
    (happlied : f.applied = []) (hresults : f.results = []) (hordered : p.ordered = false)
    (happly : applyRequest p (received p s) = (v, t)) (hu : OnlyVersions (received p s) u) (hrep : Replied u q t) :
    (packetDeliver p s).mem = u.mem ∧ (packetDeliver p s).fabric.replies = s.fabric.replies ++ [q, replyOf s p 8 0 0 0] ∧
      Tab.find (packetDeliver p s).fabric.inFlows (inKey p) = some (firstApplied p v f) := by
  have hin : u.fabric.inFlows = s.fabric.inFlows := by rw [hu]; rfl
  have hreplies : u.fabric.replies = s.fabric.replies := by rw [hu]; rfl
  have hmod : t.fabric.module_ = s.fabric.module_ := by rw [hrep.modul, hu]; rfl
  have hft : Tab.get t.fabric.inFlows (inKey p) {} = f := by rw [hrep.inFlows, hin, hf]
  have hfr : Tab.get (received p s).fabric.inFlows (inKey p) {} = f := hf.symm
  have hack := replied_reply p 8 0 0 0 (withInFlow p (firstApplied p v f) t)
  have hfind : Tab.find (reply p 8 0 0 0 (withInFlow p (firstApplied p v f) t)).fabric.inFlows (inKey p) = some (firstApplied p v f) := by
    rw [hack.inFlows]
    exact tab_find_put_self ..
  have hdone : packetDeliver p s = reply p 8 0 0 0 (withInFlow p (firstApplied p v f) t) := by
    rw [packetDeliver_request hrun hsnoop htyp, deliverRequest]
    simp only [hfr, hany, happlied, hordered, Bool.false_and, Bool.false_eq_true, if_false, List.contains_nil]
    rw [applyOnce_first happly hft hany happlied hresults]
    exact applyHeld_of_none (by rw [tab_get_of_find hfind]; exact hheld) _
  rw [hdone]
  refine ⟨hack.mem.trans hrep.mem, ?_, hfind⟩
  rw [hack.replies]
  change t.fabric.replies ++ [{ p with src := t.fabric.module_.toNat, typ := 8, b := 0, c := 0, data := 0 }] = _
  rw [hmod, hrep.replies, hreplies, List.append_assoc]
  rfl

section
variable {pa : Nat} (hpa : pa = p.pa % 2 ^ 43) (hmay : refuses s p = false) (hhost : hostHolds s pa = false) (hcalm : CalmLine s (lineOf pa))
  (hheld : s.home.hostHeld = [])
include hpa
theorem snoopFirst_of_free (hhost : hostHolds s pa = false) : snoopFirst s p = false := by rw [snoopFirst, ← hpa, hhost, Bool.and_false]
include hmay hcalm
theorem applyRequest_write (hhost : hostHolds s pa = false) (ht : p.typ = 2) : ∃ q u, (applyRequest p (received p s)).1 = none ∧
    OnlyVersions (received p s) u ∧ Replied u q (applyRequest p (received p s)).2 ∧ u.mem = Mem.put 0 s.mem pa (natLe p.size p.data.toNat) := by
  obtain ⟨hmem, honly⟩ := farWrite_done (s := received p s) (w := none) (mode := 0) (natLe p.size p.data.toNat) hhost hcalm
  have happly : applyRequest p (received p s) = (none, reply p 3 0 0 0 (farWrite none 0 pa (natLe p.size p.data.toNat) (received p s))) := by
    have hmay' : refuses (received p s) p = false := hmay
    rw [applyRequest, ht, hpa]
    exact if_neg (by simp [hmay'])
  rw [happly]
  exact ⟨_, _, rfl, honly, replied_reply .., hmem⟩
include hheld
theorem applyRequest_read (hpoison : poisoned s pa = false) (ht : p.typ = 0) (hop : p.op ≠ 1) : ∃ b,
    (applyRequest p (received p s)).1 = none ∧
      Replied (received p s) (replyOf s p 1 b 0 (BitVec.ofNat 2048 (homeNat s pa p.size))) (applyRequest p (received p s)).2 := by
  have hmay' : refuses (received p s) p = false := hmay
  have hpoison' : poisoned (received p s) pa = false := hpoison
  have hread : farRead pa p.size (received p s) = (homeBytes s pa p.size, received p s) := farRead_quiet (received p s) pa p.size hcalm hheld
  have happly : applyRequest p (received p s) = (none, reply p 1 ((Tab.get s.fabric.pageVer (pa / 4096) {}).version.setWidth 64) 0
      (BitVec.ofNat 2048 (homeNat s pa p.size)) (received p s)) := by
    rw [applyRequest, ht]
    simp only [answerRead, ← hpa, hmay', hpoison', hop, hread, Bool.or_self, Bool.false_eq_true, if_false]
    rfl
  rw [happly]
  exact ⟨_, rfl, replied_reply ..⟩
theorem applyRequest_rmw (hhost : hostHolds s pa = false) (hpoison : poisoned s pa = false) (ht : p.typ = 4) (hop : p.op ≠ 14) : ∃ u,
    (applyRequest p (received p s)).1 = some (BitVec.ofNat 64 (homeNat s pa p.size)) ∧ OnlyVersions (received p s) u ∧
      Replied u (replyOf s p 5 (BitVec.ofNat 64 (homeNat s pa p.size)) 0 0) (applyRequest p (received p s)).2 ∧
      u.mem = Mem.put 0 s.mem pa (natLe p.size (applyOp p.op.toNat (homeNat s pa p.size) (p.b.toNat % 2 ^ (8 * p.size)))) := by
  have hmay' : refuses (received p s) p = false := hmay
  have hpoison' : poisoned (received p s) pa = false := hpoison
  have hread : farRead pa p.size (received p s) = (homeBytes s pa p.size, received p s) := farRead_quiet (received p s) pa p.size hcalm hheld
  obtain ⟨hmem, honly⟩ := farWrite_done (s := received p s) (w := none) (mode := 0)
    (natLe p.size (applyOp p.op.toNat (homeNat s pa p.size) (p.b.toNat % 2 ^ (8 * p.size)))) hhost hcalm
  have happly : applyRequest p (received p s) = (some (BitVec.ofNat 64 (homeNat s pa p.size)), reply p 5 (BitVec.ofNat 64 (homeNat s pa p.size)) 0 0
      (farWrite none 0 pa (natLe p.size (applyOp p.op.toNat (homeNat s pa p.size) (p.b.toNat % 2 ^ (8 * p.size)))) (received p s))) := by
    rw [applyRequest, ht]
    simp only [← hpa, hmay', hpoison', hread, packetOp, hop, Bool.or_self, Bool.false_eq_true, if_false]
    rfl
  have hmod : (farWrite none 0 pa (natLe p.size (applyOp p.op.toNat (homeNat s pa p.size) (p.b.toNat % 2 ^ (8 * p.size)))) (received p s)).fabric.module_ =
      s.fabric.module_ := by rw [honly]; rfl
  rw [happly]
  refine ⟨_, rfl, honly, ?_, hmem⟩
  have hrep := replied_reply p 5 (BitVec.ofNat 64 (homeNat s pa p.size)) 0 0
    (farWrite none 0 pa (natLe p.size (applyOp p.op.toNat (homeNat s pa p.size) (p.b.toNat % 2 ^ (8 * p.size)))) (received p s))
  rwa [replyOf, hmod] at hrep
end
/-! ### Requests that came before -/

/-- A SEQ older than the window resets the flow. -/
theorem stale_done (hrun : s.guidon.frozen = false) (htyp : p.typ = 0 ∨ p.typ = 2 ∨ p.typ = 4 ∨ p.typ = 6) (hsnoop : snoopFirst s p = false)
    (hf : f = Tab.get s.fabric.inFlows (inKey p) {}) (hany : f.any = true) (hlo : 4096 ≤ seqBelow f p.seq) (hhi : seqBelow f p.seq < 2 ^ 31) :
    (packetDeliver p s).mem = s.mem ∧ Tab.find (packetDeliver p s).fabric.inFlows (inKey p) = none ∧
      (packetDeliver p s).log.head? = some ⟨0x58, 0xFF, unitOf 2 p.src, s.dtime, BitVec.ofNat 64 p.pa, 0⟩ := by
  have hfr : Tab.get (received p s).fabric.inFlows (inKey p) {} = f := hf.symm
  rw [packetDeliver_request hrun hsnoop htyp, deliverRequest]
  simp only [hfr, hany, decide_eq_true hlo, decide_eq_true hhi, Bool.and_self, if_true]
  have hrep := replied_reply p 8 0 4 0 ((((received p s).modFabric fun x => { x with inFlows := Tab.del x.inFlows (inKey p) }).logDev 0x58 0xFF
    (unitOf 2 p.src) (BitVec.ofNat 64 p.pa) 0))
  refine ⟨hrep.mem, ?_, by rw [hrep.log]; rfl⟩
  rw [hrep.inFlows]
  exact (tab_find_del ..).trans (if_pos rfl)
/-- An RMW that was applied before is answered with the value that it gave. -/
theorem again_done (hrun : s.guidon.frozen = false) (hsnoop : snoopFirst s p = false) (ht : p.typ = 4) (hf : f = Tab.get s.fabric.inFlows (inKey p) {})
    (hin : p.seq ∈ f.applied) (hnear : seqBelow f p.seq < 4096) {old : DWord} (hold : f.results = [(p.seq, old)]) :
    (packetDeliver p s).mem = s.mem ∧ Tab.get (packetDeliver p s).fabric.inFlows (inKey p) {} = f ∧
      (packetDeliver p s).fabric.replies = s.fabric.replies ++ [replyOf s p 5 old 0 0, replyOf s p 8 0 0 0] := by
  have hfr : Tab.get (received p s).fabric.inFlows (inKey p) {} = f := hf.symm
  have hr1 := replied_reply p 5 old 0 0 (received p s)
  have hr2 := replied_reply p 8 0 0 0 (reply p 5 old 0 0 (received p s))
  have hdone : packetDeliver p s = reply p 8 0 0 0 (reply p 5 old 0 0 (received p s)) := by
    rw [packetDeliver_request hrun hsnoop (.inr (.inr (.inl ht))), deliverRequest, hfr]
    simp only [ht, hold, Nat.not_le.2 hnear, decide_false, Bool.and_false, Bool.false_and, Bool.false_eq_true, if_false, List.contains_eq_mem, hin,
      decide_true, if_true, List.find?_cons, beq_self_eq_true]
    rfl
  rw [hdone]
  refine ⟨hr2.mem.trans hr1.mem, by rw [hr2.inFlows, hr1.inFlows, hfr], ?_⟩
  rw [hr2.replies, hr1.replies, List.append_assoc]
  change s.fabric.replies ++ ([_] ++ [{ p with src := (reply p 5 old 0 0 (received p s)).fabric.module_.toNat, typ := 8, b := 0, c := 0, data := 0 }]) = _
  rw [hr1.modul]
  rfl

/-! ### Replies at the source -/

theorem packetDeliver_reply (hrun : s.guidon.frozen = false) (ht : p.typ = 5) : packetDeliver p s = deliverReply p (received p s) := by
  rw [packetDeliver, inbound_eq, if_neg (by simp [hrun]), takePacket]
  simp only [snoopFirst, ht]
  rfl

theorem tab_put_put {α : Type} (t : Tab α) (k : Nat) (v w : α) : Tab.put (Tab.put t k v) k w = Tab.put t k w := by
  induction t with
  | nil => simp [Tab.put]
  | cons e t ih =>
    obtain ⟨j, x⟩ := e
    simp only [Tab.put]
    by_cases hlt : k < j
    · simp [hlt, Tab.put]
    · by_cases heq : k = j
      · simp [heq, Tab.put]
      · simp [hlt, heq, Tab.put, ih]

end

end Sys2Proof.Proofs
end

section
/-!
PROOFS. An RMW's answer at the source, and the statement of flows and packets (spec 13 R281, R283, R284).
-/
namespace Sys2Proof.Proofs
open Machine Laws

section
variable {s : State} {j : Nat} {x : Thread}

/-! ### One thread written and woken -/

theorem modThread_of_some (g : Thread → Thread) (h : s.thread? j = some x) : s.modThread j g = s.setThread j (g x) := by
  rw [State.modThread, h]
theorem thread?_setThread_self (j : Nat) (x : Thread) (s : State) : (s.setThread j x).thread? j = some x := tab_find_put_self ..
theorem setThread_setThread (j : Nat) (x y : Thread) (s : State) : (s.setThread j x).setThread j y = s.setThread j y := by
  simp only [State.setThread, tab_put_put]
theorem modThread_setThread (j : Nat) (x : Thread) (g : Thread → Thread) (s : State) : (s.setThread j x).modThread j g = s.setThread j (g x) := by
  rw [modThread_of_some g (thread?_setThread_self j x s), setThread_setThread]
theorem modThreads_setThread_of_fixed {g : Thread → Thread} (hg : g x = x) {ids : List Nat} (hids : ∀ k ∈ ids, k = j) :
    (s.setThread j x).modThreads ids g = s.setThread j x := by
  induction ids with
  | nil => rfl
  | cons k ids ih =>
    obtain rfl := hids k List.mem_cons_self
    rw [State.modThreads, List.foldl_cons, modThread_setThread, hg]
    exact ih fun k hk => hids k (List.mem_cons_of_mem _ hk)
/-- A thread that completes alone, written and woken. -/
theorem wake_setThread (hbatch : EachOf j (fun t => t.batch = none) (s.setThread j x)) :
    wakeWhere (fun k _ => k == j) (s.setThread j x) = s.setThread j x.unparkHere := by
  have hmem : (j, x) ∈ (s.setThread j x).work.threads := tab_mem_of_find (thread?_setThread_self j x s)
  have hx : x.batch = none := hbatch _ hmem rfl
  have hids : ∀ k ∈ ((s.setThread j x).work.threads.filter fun e => e.1 == j).map (·.1), k = j := fun k hk => by
    obtain ⟨e, he, rfl⟩ := List.mem_map.1 hk
    exact beq_iff_eq.1 (List.mem_filter.1 he).2
  have hne : ((s.setThread j x).work.threads.filter fun e => e.1 == j).map (·.1) ≠ [] :=
    List.ne_nil_of_mem (List.mem_map.2 ⟨(j, x), List.mem_filter.2 ⟨hmem, beq_self_eq_true j⟩, rfl⟩)
  rw [wake_one_eq hbatch]
  obtain ⟨k, ids, hk⟩ := List.exists_cons_of_ne_nil hne
  rw [hk] at hids ⊢
  obtain rfl := hids k List.mem_cons_self
  rw [State.modThreads, List.foldl_cons, modThread_setThread, woken_of_single hx]
  exact modThreads_setThread_of_fixed (by rw [← woken_of_single hx, woken_woken]) fun k hk => hids k (List.mem_cons_of_mem _ hk)
theorem eachOf_setThread {P : Thread → Prop} {y : Thread} (hn : (s.work.threads.map (·.1)).Nodup) (hx : s.thread? j = some x) (hold : P x)
    (hnew : P y) : EachOf j P (s.setThread j y) := by
  rintro e he hj
  rcases tab_mem_put he with rfl | he
  · exact hnew
  · exact eachOf_of_nodup hn hx hold e he hj

/-! ### The answer -/

/-- The thread with an RMW's answer. -/
def answeredBy (p : Packet) (o : Outst) (x : Thread) : Thread :=
  { x with park := none, pages := [], reply := some { value := p.b, bad := false, line := lineOf o.pkt.pa }, awaits := none }

theorem answer_done {p : Packet} {f : Flow} {o : Outst} (hrun : s.guidon.frozen = false) (ht : p.typ = 5) (hc : p.c = 0)
    (hflow : Tab.find s.fabric.flows p.flow = some f) (hout : f.outst = [o]) (hseq : o.pkt.seq = p.seq) (ho : o.thread = some j)
    (hx : s.thread? j = some x) (hawaits : x.awaits = some (p.flow, p.seq)) (hbatch : x.batch = none) (hn : (s.work.threads.map (·.1)).Nodup)
    (hrec : (s.gridOf x).recording = false) (hplay : (s.gridOf x).playing = false) :
    (packetDeliver p s).mem = s.mem ∧ (packetDeliver p s).thread? j = some (answeredBy p o x) ∧
      Tab.find (packetDeliver p s).fabric.flows p.flow = some { f with outst := [{ o with thread := none }] } := by
  let v := withFlow p.flow { f with outst := [{ o with thread := none }] } (received p s)
  have hvx : v.thread? j = some x := hx
  have hthread : ∀ {w : State}, w.thread? j = some x → w.thread j = x := fun h => tab_get_of_find h _
  have hanswer : answerThread j { value := p.b, bad := false, line := lineOf o.pkt.pa } p v = v.setThread j (answeredBy p o x) := by
    have hrec' : (v.gridOf x).recording = false := hrec
    have hplay' : (v.gridOf x).playing = false := hplay
    rw [answerThread]
    simp only [hvx, hthread hvx, hawaits, hrec', hplay', Option.isSome_some, Bool.not_true, bne_self_eq_false, Bool.or_self, Bool.false_eq_true, if_false]
    rw [modThread_of_some _ hvx]
    exact wake_setThread (eachOf_setThread hn hvx hbatch hbatch)
  have hdone : packetDeliver p s = wakeRemote Config.paSize (v.setThread j (answeredBy p o x)) := by
    have hfind : [o].find? (fun o => o.pkt.seq == p.seq) = some o := List.find?_cons_of_pos (by simp [hseq])
    have hget : (Tab.get (received p s).fabric.flows p.flow {}).outst = [o] := by rw [← hout]; exact congrArg _ (tab_get_of_find hflow _)
    have hallowed : arrivalAllowed (received p s) p = true := by
      have hplay' : ((received p s).gridOf x).playing = false := hplay
      rw [arrivalAllowed, hget, hfind]
      simp only [ho, hthread (w := received p s) hx, hplay', Bool.not_false, Bool.or_true, Bool.true_or]
    rw [packetDeliver_reply hrun ht, deliverReply, hget]
    simp only [hc, hfind, hallowed, ht, ho]
    rw [modFlow_of_find _ (show Tab.find (received p s).fabric.flows p.flow = some f from hflow), hout, ← hanswer]
    simp [hseq, v]
  have hmissed : EachOf j (fun t => t.batch = none ∧ (t.park == some (.remote Config.paSize) && t.awaits.isNone) = false) (v.setThread j (answeredBy p o x)) :=
    eachOf_setThread hn hvx ⟨hbatch, by simp [hawaits]⟩ ⟨hbatch, rfl⟩
  have hrest := sameTC_wakeWhere (fun _ t => t.park == some (.remote Config.paSize) && t.awaits.isNone) (v.setThread j (answeredBy p o x))
  rw [hdone, wakeRemote]
  refine ⟨by rw [hrest]; rfl, ?_, ?_⟩
  · rw [thread?_wakeWhere_of_missed hmissed]
    exact thread?_setThread_self ..
  · rw [hrest]
    exact tab_find_put_self ..

end

/-- Settles O55: a flow's table and its outstanding packets at the source, a request by its SEQ at its home, and the reply that comes back. -/
theorem flowsAndPackets : Obligations.FlowsAndPackets := by
  unfold Obligations.FlowsAndPackets
  refine ⟨fun s k dest port ordered secure => ⟨fun h => congrArg Host.Outcome.next (flowOpen_of_taken h), fun hk hfree => ⟨fun hport hsec => ?_, fun h => ?_⟩⟩,
    fun s k f hf => ⟨fun ho hleft => congrArg Host.Outcome.next (flowClose_of_empty hf ho hleft), ?_⟩,
    fun s k seq f hf => ⟨fun hfrz => congrArg Host.Outcome.next (e2eAck_of_frozen hfrz seq),
      fun hrun hcopy hleft => ⟨_, rfl, e2eAck_done hrun hf hcopy hleft seq⟩, fun o ho => ⟨fun ht => ?_, fun ht htries => ?_⟩⟩,
    fun s p pa f hpa hf => ⟨fun hfrz => congrArg Host.Outcome.next (packetDeliver_of_frozen hfrz),
      fun hrun htyp hsnoop hany hlo hhi => ⟨_, rfl, stale_done hrun htyp hsnoop hf hany hlo hhi⟩, ?_,
      fun hrun hsnoop ht hin hnear old hold => ⟨_, rfl, again_done hrun hsnoop ht hf hin hnear hold⟩⟩,
    fun s p f o j x hrun ht hc hflow hout hseq ho hx hawaits hbatch hn hrec hplay =>
      ⟨_, rfl, answer_done hrun ht hc hflow hout hseq ho hx hawaits hbatch hn hrec hplay⟩⟩
  · exact congrArg Host.Outcome.next ((flowOpen_of_free hk hfree).trans (if_pos ⟨hport, hsec⟩))
  · refine ⟨_, congrArg Host.Outcome.next ((flowOpen_of_free hk hfree).trans (if_neg fun hno => ?_)), rfl, ?_, fun j hj => ?_⟩
    · rcases h with h | h
      · exact h hno.1
      · exact Bool.false_ne_true (hno.2.symm.trans h)
    · rw [find_withFlow, if_pos rfl]
    · rw [find_withFlow, if_neg hj]
  · rintro o j x ho hcopy htyp hthread hx hawaits hhandler hbatch hn hleft i cause (⟨rfl, rfl⟩ | ⟨rfl, htries, htime, rfl⟩)
    · refine ⟨_, congrArg Host.Outcome.next (flowClose_eq hf), ?_⟩
      rw [ho]
      exact failed_done (u := withoutFlow k s) rfl (by rw [get_withoutFlow]) hcopy htyp hthread hx hawaits hhandler hbatch hn hleft (by decide)
    · refine ⟨_, congrArg Host.Outcome.next (((retransmit_eq hf ho).trans (if_neg (by omega))).trans (if_neg (by omega))), ?_⟩
      exact failed_done (u := withFlow k { f with outst := [] } s) rfl (by rw [get_withFlow]) hcopy htyp hthread hx hawaits hhandler hbatch hn hleft (by decide)
  · exact congrArg Host.Outcome.next ((retransmit_eq hf ho).trans (if_pos ht))
  · have hsend := sendPacket_rest f.port f.dest o.pkt (withFlow k { f with outst := [{ o with sent := s.dtime, tries := o.tries + 1 }] } s)
    refine ⟨_, congrArg Host.Outcome.next (((retransmit_eq hf ho).trans (if_neg (by omega))).trans (if_pos htries)), by rw [hsend]; rfl, ?_⟩
    rw [hsend]
    exact (find_withFlow ..).trans (if_pos rfl)
  · intro hrun hany hheld happlied hresults hordered hmay hpoison hst hpend hhh hhost
    have hsnoop := snoopFirst_of_free hpa hhost
    have hcalm : CalmLine s (lineOf pa) := ⟨hst, hpend⟩
    refine ⟨fun ht hop => ?_, fun ht => ?_, fun ht hop => ?_⟩
    · obtain ⟨u, hv, honly, hrep, hmem⟩ := applyRequest_rmw hpa hmay hcalm hhh hhost hpoison ht hop
      obtain ⟨hm, hr, hin⟩ := fresh_done hrun hsnoop (.inr (.inr (.inl ht))) hf hany hheld happlied hresults hordered (Prod.ext hv rfl) honly hrep
      exact ⟨_, rfl, hm.trans hmem, hr, hin⟩
    · obtain ⟨q, u, hv, honly, hrep, hmem⟩ := applyRequest_write hpa hmay hcalm hhost ht
      obtain ⟨hm, -, -⟩ := fresh_done hrun hsnoop (.inr (.inl ht)) hf hany hheld happlied hresults hordered (Prod.ext hv rfl) honly hrep
      exact ⟨_, rfl, hm.trans hmem⟩
    · obtain ⟨b, hv, hrep⟩ := applyRequest_read hpa hmay hcalm hhh hpoison ht hop
      obtain ⟨hm, hr, -⟩ := fresh_done hrun hsnoop (.inl ht) hf hany hheld happlied hresults hordered (Prod.ext hv rfl) (onlyVersions_of_eq rfl) hrep
      exact ⟨_, rfl, hm, b, hr⟩

end Sys2Proof.Proofs
end

section
/-!
PROOFS. Instructions that a wave executes once, after a change beside its threads (spec 02 R26, 19 R378 to R380).
-/
namespace Sys2Proof.Proofs
open Machine Laws

section
variable {f : Fields} {s u : State} {l : Lane}

/-! ### The executing threads -/

theorem present_eq_map (hw : u.wave u.curWave = s.wave s.curWave) :
    u.present (u.wave u.curWave) = (s.present (s.wave s.curWave)).map fun l => { l with th := u.thread l.id } := by
  rw [hw, State.present, State.present, List.map_filterMap]
  simp only [Option.map_map, Function.comp_def]
/-- The executing threads are the same where the wave is and the guards give the same. -/
theorem execIds_congr (hw : u.wave u.curWave = s.wave s.curWave) (hg : ∀ l ∈ s.activeNow, guardOk f (u.thread l.id) = guardOk f l.th) :
    (u.execLanes f).map Lane.id = (s.execLanes f).map Lane.id := by
  have hactive : u.active (u.wave u.curWave) = s.activeNow.map fun l => { l with th := u.thread l.id } := by
    rw [State.active, present_eq_map hw, List.filter_map, State.activeNow, State.active, hw]
    rfl
  rw [State.execLanes, hactive, List.filter_map, List.map_map]
  exact congrArg (List.map Lane.id) (List.filter_congr fun l hl => hg l hl)
theorem execIds_advance (hs : LanesSound s) : ((advance s).execLanes f).map Lane.id = (s.execLanes f).map Lane.id := by
  have hrest := sameT_advance s
  have hwave : (advance s).wave (advance s).curWave = s.wave s.curWave := by
    rw [State.wave, State.curWave, sameT_waves hrest, sameT_cur hrest]
    rfl
  refine execIds_congr hwave fun l hl => ?_
  rw [thread_of_thread? ((advance_spec s hs).2.1 l hl)]
  rfl

/-! ### After a change that leaves the work alone -/

theorem work_advance (hw : u.work = s.work) (hc : u.cur = s.cur) : (advance u).work = (advance s).work := by
  have hactive : ∀ w, u.active w = s.active w := fun w => by simp only [State.active, State.present, State.thread, hw]
  have hwave : u.wave u.curWave = s.wave s.curWave := by rw [State.wave, State.curWave, hw, hc]; rfl
  rw [advance, advance]
  simp only [hwave, hactive]
  exact modThreads_work_congr _ _ hw
theorem work_doneWith (o : LaneOut) (hw : u.work = s.work) (hc : u.cur = s.cur) : (doneWith f o u).work = (doneWith f o s).work := by
  have hwork := work_advance hw hc
  have hcur : (advance u).cur = (advance s).cur := (sameT_cur (sameT_advance u)).trans (hc.trans (sameT_cur (sameT_advance s)).symm)
  have hexec : (advance u).execLanes f = (advance s).execLanes f := by
    simp only [State.execLanes, State.active, State.present, State.wave, State.curWave, State.thread, hwork, hcur]
  rw [doneWith, doneWith, putAll, putAll, hexec]
  exact modThreads_work_congr _ _ hwork
theorem thread?_of_work (h : u.work = s.work) (j : Nat) : u.thread? j = s.thread? j := by rw [State.thread?, h, State.thread?]

/-- Every active thread advances. -/
theorem lanesBecome_advance_after (hs : LanesSound s) (hw : u.work = s.work) (hc : u.cur = s.cur) :
    LanesBecome f s (advance u) fun l => nextTh s l.th :=
  lanesBecome_congr (lanesBecome_advance hs) fun j => thread?_of_work (work_advance hw hc) j
/-- The executing threads have a result. -/
theorem lanesBecome_doneWith_after (hs : LanesSound s) (o : LaneOut) (hw : u.work = s.work) (hc : u.cur = s.cur) :
    LanesBecome f s (doneWith f o u) fun l => writeOut f o (nextTh s l.th) := by
  have hself : LanesBecome f s (doneWith f o s) fun l => writeOut f o (nextTh s l.th) := by
    rw [doneWith, putAll, execIds_advance hs]
    exact lanesBecome_modThreads hs _
  exact lanesBecome_congr hself fun j => thread?_of_work (work_doneWith o hw hc) j
/-- Status without a change. -/
theorem lanesBecome_doneWith (hs : LanesSound s) (o : LaneOut) : LanesBecome f s (doneWith f o s) fun l => writeOut f o (nextTh s l.th) :=
  lanesBecome_doneWith_after hs o rfl rfl

theorem waveOnce_of_head {act : Lane → State → State} (h : (s.execLanes f).head? = some l) : waveOnce f act s = act l s := by
  rw [waveOnce, firstLane, h]
theorem mem_doneWith (o : LaneOut) : (doneWith f o s).mem = s.mem := by rw [sameT_doneWith f o s]
theorem ctx_doneWith (o : LaneOut) (x : Nat) : (doneWith f o s).ctx x = s.ctx x := by
  have hctxs : (doneWith f o s).ctxs = s.ctxs := by rw [sameT_doneWith f o s]
  rw [State.ctx, hctxs, State.ctx]
theorem worlds_doneWith (o : LaneOut) : (doneWith f o s).worlds = s.worlds := by rw [sameT_doneWith f o s]

/-! ### Translations dropped -/

/-- A core's and a cluster's translations without those that a test names. -/
def purgeCore (hit : TlbEntry → Bool) (k : Core) : Core := { k with tlb := k.tlb.filter fun t => !hit t }
def purgeCluster (hit : TlbEntry → Bool) (k : Cluster) : Cluster := { k with tlb := k.tlb.filter fun t => !hit t }
theorem dropTlb_cores (hit : TlbEntry → Bool) (s : State) : (dropTlb hit s).cores = s.cores.map fun e => (e.1, purgeCore hit e.2) := rfl
theorem dropTlb_clusters (hit : TlbEntry → Bool) (s : State) : (dropTlb hit s).clusters = s.clusters.map fun e => (e.1, purgeCluster hit e.2) := rfl
theorem core_dropTlb (hit : TlbEntry → Bool) (s : State) (c : Nat) :
    ((dropTlb hit s).core c).tlb = (s.core c).tlb.filter fun e => !hit e := by
  rw [State.core, State.core, Tab.get, Tab.get, dropTlb_cores, tab_find_mapVal]
  cases Tab.find s.cores c <;> rfl
theorem cluster_dropTlb (hit : TlbEntry → Bool) (s : State) (c : Nat) :
    ((dropTlb hit s).cluster c).tlb = (s.cluster c).tlb.filter fun e => !hit e := by
  rw [State.cluster, State.cluster, Tab.get, Tab.get, dropTlb_clusters, tab_find_mapVal]
  cases Tab.find s.clusters c <;> rfl
theorem cluster_advance (k : Nat) : (advance s).cluster k = s.cluster k := by rw [sameT_advance s]; rfl

/-- An invalidation that nothing in flight holds back. -/
theorem tlbinvWith_of_idle {named : Nat → Bool} {hit : TlbEntry → Bool} (hremote : ctxRemote s named = false)
    (hopen : ∀ l ∈ s.execLanes f, remoteOpen s l.id = false) (hheld : s.home.hostHeld = []) (hquiet : QuietL1 s s.hereCore) :
    tlbinvWith f named hit s = advance (dropTlb hit s) := by
  have hany : ((s.execLanes f).any fun l => remoteOpen s l.id) = false := List.any_eq_false.2 fun l hl => by simp [hopen l hl]
  rw [tlbinvWith, hremote, hany, hheld, fenceSides_of_quiet _ hquiet (by decide)]
  rfl
theorem tlbinvWith_of_remote {named : Nat → Bool} {hit : TlbEntry → Bool} (hremote : ctxRemote s named = true) :
    tlbinvWith f named hit s = waitAll f (.remote Config.paSize) s := by
  rw [tlbinvWith, hremote]
  rfl
theorem tlbinvWith_done {named : Nat → Bool} {hit : TlbEntry → Bool} (hs : LanesSound s) (hw : u.work = s.work) (hc : u.cur = s.cur) (hm : u.mem = s.mem)
    (hcores : u.cores = s.cores) (hclusters : u.clusters = s.clusters) (hremote : ctxRemote u named = false)
    (hopen : ∀ l ∈ u.execLanes f, remoteOpen u l.id = false) (hheld : u.home.hostHeld = []) (hquiet : QuietL1 u u.hereCore) :
    let t := tlbinvWith f named hit u
    t.mem = s.mem ∧ (LanesBecome f s t fun l => nextTh s l.th) ∧ (∀ c, (t.core c).tlb = (s.core c).tlb.filter fun e => !hit e) ∧
      ∀ k, (t.cluster k).tlb = (s.cluster k).tlb.filter fun e => !hit e := by
  rw [tlbinvWith_of_idle hremote hopen hheld hquiet]
  refine ⟨(mem_advance).trans hm, lanesBecome_advance_after hs hw hc, fun c => ?_, fun k => ?_⟩
  · rw [core_sameT (sameT_advance _), core_dropTlb, State.core, hcores, State.core]
  · rw [cluster_advance, cluster_dropTlb, State.cluster, hclusters, State.cluster]

end

end Sys2Proof.Proofs
end

section
/-!
PROOFS. TLBINV and CTXSET (spec 19 R378, R379).
-/
namespace Sys2Proof.Proofs
open Machine Laws

section
variable {f : Fields} {s u : State} {l : Lane} {x : Nat}

/-! ### Contexts named by an instruction -/

theorem ctxSecure_of_beyond (hx : 64 ≤ x) : ctxSecure s x = false := by
  rw [ctxSecure, decide_eq_false (by simpa [Config.numContexts] using hx)]
  rfl
theorem mayName_of (h : (s.ctx x).world = true → (s.ctx s.hereCtx).world = true) : ¬(ctxSecure s x && !s.hereWorld) = true := by
  simp only [ctxSecure, State.hereWorld, Bool.and_eq_true, Bool.not_eq_true', not_and, and_imp]
  intro _ _ hw
  simp [h hw]
theorem ctxLive_of (hx : x < 64) (hlive : (s.ctx x).st = .live) : ctxLive s x = true := by
  rw [ctxLive, hlive, decide_eq_true (show x < Config.numContexts from hx)]
  rfl

section
variable (h : (s.execLanes f).head? = some l) {act : Nat → Lane → State → State}
include h
theorem withTlbCtx_of_secure (hx : x = tlbinvCtxNum f l s) (hsec : ctxSecure s x = true) (hw : (s.ctx s.hereCtx).world = false) :
    withTlbCtx f act s = trapAll f { cause := 0x42 } s := by
  rw [withTlbCtx, waveOnce_of_head h, ← hx]
  exact if_pos (by simp [hsec, State.hereWorld, hw])
theorem withTlbCtx_of_beyond (hx : x = tlbinvCtxNum f l s) (hb : 64 ≤ x) : withTlbCtx f act s = trapAll f { cause := 0x44, einfo := 1 } s := by
  rw [withTlbCtx, waveOnce_of_head h, ← hx]
  refine (if_neg (by simp [ctxSecure_of_beyond hb])).trans ((if_pos ?_).trans rfl)
  simpa [Config.numContexts] using .inl hb
theorem withTlbCtx_of_named (hx : x = tlbinvCtxNum f l s) (hlt : x < 64) (hst : (s.ctx x).st ≠ .free)
    (hw : (s.ctx x).world = true → (s.ctx s.hereCtx).world = true) : withTlbCtx f act s = act x l s := by
  rw [withTlbCtx, waveOnce_of_head h, ← hx]
  refine (if_neg (mayName_of hw)).trans (if_neg ?_)
  simpa [Config.numContexts, hst] using hlt
theorem withLive_of_beyond (hx : x = (reg32 l.th f.b).toNat) (hb : 64 ≤ x) : withLive f act s = trapAll f { cause := 0x44, einfo := 1 } s := by
  have hno : ¬x < Config.numContexts := by simpa [Config.numContexts] using hb
  rw [withLive, waveOnce_of_head h, ← hx]
  refine (if_neg (by simp [ctxSecure_of_beyond hb])).trans ((if_pos ?_).trans ((if_neg ?_).trans rfl))
  · simp [ctxLive, hno]
  · simp [hno]
theorem withLive_of_live (hx : x = (reg32 l.th f.b).toNat) (hlt : x < 64) (hlive : (s.ctx x).st = .live)
    (hw : (s.ctx x).world = true → (s.ctx s.hereCtx).world = true) : withLive f act s = act x l s := by
  rw [withLive, waveOnce_of_head h, ← hx]
  exact (if_neg (mayName_of hw)).trans (if_neg (by simp [ctxLive_of hlt hlive]))
end

/-! ### CTXSET.new -/

theorem first_free_none (h : ∀ x, x < 64 → (s.ctx x).st ≠ .free) : (List.range Config.numContexts).find? (fun x => (s.ctx x).st == .free) = none :=
  List.find?_eq_none.2 fun x hx => by simpa using h x (List.mem_range.1 hx)

/-- The context that a descriptor of 64 bytes makes. -/
def newCtx (s : State) (x : Nat) (bs : List Byte) : Ctx :=
  { st := .live, root := leAt bs 0 8, world := leAt bs 8 4 / 2 % 2 == 1, dbg := leAt bs 8 4 % 2 == 1, gen := (s.ctx x).gen + 1
    meas := BitVec.ofNat 256 (leAt bs 0x10 32), creator := BitVec.ofNat 8 s.hereCtx, fn := (s.ctx s.hereCtx).fn }
section
variable {bs : List Byte}
theorem ctxsetNew_allowed (hmay : leAt bs 8 4 / 2 % 2 = 0 ∨ (s.ctx s.hereCtx).world = true) : ¬((leAt bs 8 4 / 2 % 2 == 1) && !s.hereWorld) = true := by
  rcases hmay with h | h
  · simp [h]
  · simp [State.hereWorld, h]
theorem ctxsetNew_sound (hflags : leAt bs 8 4 < 4) (hzero : leAt bs 0x0C 4 = 0) (hzeros : leAt bs 0x30 16 = 0)
    (hroot : rootOk (leAt bs 0 8) = true) : ¬(leAt bs 8 4 ≥ 4 ∨ leAt bs 0x0C 4 ≠ 0 ∨ leAt bs 0x30 16 ≠ 0 ∨ (!rootOk (leAt bs 0 8)) = true) := by
  simp [hflags, hzero, hzeros, hroot]
variable (h : (s.execLanes f).head? = some l) (hcanon : canonical (reg64 l.th f.a) = true)
  (hread : vaRead (whoOf s l.th) { r := true } (reg64 l.th f.a).toNat 64 s = (.ok bs, s))
include h hcanon hread
theorem ctxsetNew_eq : ctxsetNew f s =
    if (leAt bs 8 4 / 2 % 2 == 1) && !s.hereWorld then worldFault f s
    else if leAt bs 8 4 ≥ 4 ∨ leAt bs 0x0C 4 ≠ 0 ∨ leAt bs 0x30 16 ≠ 0 ∨ !rootOk (leAt bs 0 8) then ctxFault f 3 s
    else match (List.range Config.numContexts).find? fun x => (s.ctx x).st == .free with
      | none => doneWith f (val32 0xFFFFFFFF) s
      | some x => doneWith f (val32 (BitVec.ofNat 32 x)) (s.setCtx x (newCtx s x bs)) := by
  rw [ctxsetNew, waveOnce_of_head h]
  simp only [hcanon, if_true, hread]
  rfl
theorem ctxsetNew_of_forbidden (hsec : leAt bs 8 4 / 2 % 2 = 1) (hw : (s.ctx s.hereCtx).world = false) :
    ctxsetNew f s = trapAll f { cause := 0x42 } s := by
  rw [ctxsetNew_eq h hcanon hread]
  exact if_pos (by simp [hsec, State.hereWorld, hw])
variable (hmay : leAt bs 8 4 / 2 % 2 = 0 ∨ (s.ctx s.hereCtx).world = true)
include hmay
theorem ctxsetNew_of_flags (hflags : 4 ≤ leAt bs 8 4) : ctxsetNew f s = trapAll f { cause := 0x44, einfo := 3 } s := by
  rw [ctxsetNew_eq h hcanon hread]
  exact (if_neg (ctxsetNew_allowed hmay)).trans ((if_pos (.inl hflags)).trans rfl)
variable (hflags : leAt bs 8 4 < 4) (hzero : leAt bs 0x0C 4 = 0) (hzeros : leAt bs 0x30 16 = 0) (hroot : rootOk (leAt bs 0 8) = true)
include hflags hzero hzeros hroot
theorem ctxsetNew_of_free (hx : (List.range Config.numContexts).find? (fun x => (s.ctx x).st == .free) = some x) :
    ctxsetNew f s = doneWith f (val32 (BitVec.ofNat 32 x)) (s.setCtx x (newCtx s x bs)) := by
  rw [ctxsetNew_eq h hcanon hread, if_neg (ctxsetNew_allowed hmay), if_neg (ctxsetNew_sound hflags hzero hzeros hroot), hx]
theorem ctxsetNew_of_full (hno : ∀ x, x < 64 → (s.ctx x).st ≠ .free) : ctxsetNew f s = doneWith f (val32 0xFFFFFFFF) s := by
  rw [ctxsetNew_eq h hcanon hread, if_neg (ctxsetNew_allowed hmay), if_neg (ctxsetNew_sound hflags hzero hzeros hroot),
    first_free_none hno]
end
theorem ctx_setCtx (s : State) (x k : Nat) (c : Ctx) : (s.setCtx x c).ctx k = if k = x then c else s.ctx k := tab_get_put _ _ _ _ _

/-! ### CTXSET.root and CTXSET.kill -/

theorem ctx_dropTlb (hit : TlbEntry → Bool) (k : Nat) : (dropTlb hit s).ctx k = s.ctx k := rfl
theorem ctx_tlbinvWith {named : Nat → Bool} {hit : TlbEntry → Bool} (hremote : ctxRemote s named = false)
    (hopen : ∀ l ∈ s.execLanes f, remoteOpen s l.id = false) (hheld : s.home.hostHeld = []) (hquiet : QuietL1 s s.hereCore) (k : Nat) :
    (tlbinvWith f named hit s).ctx k = s.ctx k := by
  rw [tlbinvWith_of_idle hremote hopen hheld hquiet, ctx_advance, ctx_dropTlb]
theorem freeCtx_done (x : Nat) (s : State) : ((advance (freeCtx x s)).ctx x).st = .free ∧ ((advance (freeCtx x s)).ctx x).binds = [] ∧
    ((advance (freeCtx x s)).ctx x).pennants = [] ∧ ∀ c, ∀ e ∈ ((advance (freeCtx x s)).core c).tlb, e.ctx ≠ x := by
  have hctx : (advance (freeCtx x s)).ctx x = { gen := (s.ctx x).gen } := by rw [ctx_advance, freeCtx, ctx_setCtx, if_pos rfl]
  refine ⟨by rw [hctx], by rw [hctx], by rw [hctx], fun c e he => ?_⟩
  rw [core_sameT (sameT_advance _)] at he
  change e ∈ ((dropTlb (fun e => e.ctx == x) { s with walks := s.walks.filter fun k => k.ctx != x }).core c).tlb at he
  rw [core_dropTlb] at he
  simpa using (List.mem_filter.1 he).2
theorem ctxsetKill_of_live (h : (s.execLanes f).head? = some l) (hx : x = (reg32 l.th f.b).toNat) (hlt : x < 64) (hlive : (s.ctx x).st = .live)
    (hw : (s.ctx x).world = true → (s.ctx s.hereCtx).world = true) (hne : x ≠ s.hereCtx)
    (hu : u = (tearDown x s).modCtx x fun c => { c with killer := some l.id }) :
    ctxsetKill f s = if ctxGone u x then advance (freeCtx x u) else waitAll f (.poll (s.dtime + 1)) u := by
  rw [ctxsetKill, withLive_of_live h hx hlt hlive hw]
  simp only [beq_iff_eq, hne, if_false, ctxLive_of hlt hlive, if_true, ← hu]

end

end Sys2Proof.Proofs
end

section
/-!
PROOFS. Lines that go home: what a flush of settled lines leaves of the threads and of the worlds (spec 13 R271, R276, 19 R375).
-/
namespace Sys2Proof.Proofs
open Machine Laws

section
variable {s t u : State} {line : Nat}

/-- No transaction is in progress. -/
def NoPending (s : State) : Prop := ∀ k, (dirOf s k).pending = false
theorem noPending_of_dir (h : ∀ e ∈ s.home.dir, e.2.pending = false) : NoPending s := by
  intro k
  rw [dirOf, Tab.get]
  cases hd : Tab.find s.home.dir k with
  | none => rfl
  | some d => exact h _ (tab_mem_of_find hd)

/-- Threads differ in reservations at most; the waves, the unit that issues, the worlds and the sequences are as they were. -/
structure OnlyResv (s u : State) : Prop where
  thr : ∀ k, (u.thread? k).map Thread.bare = (s.thread? k).map Thread.bare
  waves : u.work.waves = s.work.waves
  cur : u.cur = s.cur
  worlds : u.worlds = s.worlds
  seqs : u.seqs = s.seqs
theorem OnlyResv.trans (a : OnlyResv s t) (b : OnlyResv t u) : OnlyResv s u :=
  ⟨fun k => (b.thr k).trans (a.thr k), b.waves.trans a.waves, b.cur.trans a.cur, b.worlds.trans a.worlds, b.seqs.trans a.seqs⟩
theorem onlyResv_of_eq (hw : u.work = s.work) (hc : u.cur = s.cur) (hworlds : u.worlds = s.worlds) (hseqs : u.seqs = s.seqs) :
    OnlyResv s u := ⟨fun k => by rw [thread?_of_work hw], by rw [hw], hc, hworlds, hseqs⟩

/-- Where no transaction is in progress, only reservations go, and no transaction starts. -/
structure Homeward (s u : State) : Prop where
  keeps : NoPending s → OnlyResv s u ∧ NoPending u
theorem homeward_refl (s : State) : Homeward s s := ⟨fun h => ⟨onlyResv_of_eq rfl rfl rfl rfl, h⟩⟩
theorem Homeward.trans (a : Homeward s t) (b : Homeward t u) : Homeward s u := ⟨fun h =>
  have ha := a.keeps h
  have hb := b.keeps ha.2
  ⟨ha.1.trans hb.1, hb.2⟩⟩
theorem homeward_of_noPending (h : NoPending s → Homeward s u) : Homeward s u := ⟨fun hno => (h hno).keeps hno⟩
theorem homeward_of_eq (hw : u.work = s.work) (hc : u.cur = s.cur) (hworlds : u.worlds = s.worlds) (hseqs : u.seqs = s.seqs)
    (hd : u.home.dir = s.home.dir) : Homeward s u :=
  ⟨fun h => ⟨onlyResv_of_eq hw hc hworlds hseqs, fun k => by rw [dirOf, hd]; exact h k⟩⟩
theorem homeward_foldl {α : Type} {d : State → α → State} (h : ∀ s x, Homeward s (d s x)) (l : List α) (s : State) : Homeward s (l.foldl d s) := by
  induction l generalizing s with
  | nil => exact homeward_refl s
  | cons x l ih => exact (h s x).trans (ih _)

/-! ### The directory and the L2 -/

theorem homeward_setDir {d : Dir} (h : (dirOf s line).pending = false → d.pending = false) : Homeward s (setDir line d s) := by
  refine ⟨fun hno => ⟨onlyResv_of_eq rfl rfl rfl rfl, fun k => ?_⟩⟩
  rw [dirOf, setDir]
  simp only [State.modHome, tab_get_put]
  split
  · exact h (hno line)
  · exact hno k
theorem homeward_modDir {g : Dir → Dir} (h : ∀ d, (g d).pending = d.pending) (line : Nat) (s : State) : Homeward s (modDir line g s) :=
  homeward_setDir fun hno => (h _).trans hno
theorem homeward_onlyL2 {g : Home → Home} (h : OnlyL2 g) (s : State) : Homeward s (s.modHome g) :=
  homeward_of_eq rfl rfl rfl rfl (onlyL2_keeps h s.home).2
theorem homeward_l2Dirty (line : Nat) (d : BitVec 4) (s : State) : Homeward s (l2Dirty line d s) := by
  obtain ⟨g, hg, he⟩ := onlyL2_dirty line d s
  rw [he]
  exact homeward_onlyL2 hg s
theorem homeward_l2Drop (line : Nat) (s : State) : Homeward s (l2Drop line s) := by
  have hdrop : Homeward s (s.modHome fun h => { h with l2 := Tab.del h.l2 line }) := homeward_of_eq rfl rfl rfl rfl rfl
  rw [l2Drop]
  split
  · split
    · exact hdrop.trans (homeward_of_eq rfl rfl rfl rfl (onlyL2_keeps (onlyL2_put _ _ _ _ _) _).2)
    · exact hdrop
  · exact hdrop

/-! ### Bytes written and copies lost -/

theorem homeward_clearResv (line : Nat) (keep : Nat → Thread → Bool) (s : State) : Homeward s (clearResv line keep s) := by
  have hrest : SameButThreads s (clearResv line keep s) := sameT_modThreads ..
  have hquiet := quietly_clearResv line keep s
  refine ⟨fun h => ⟨⟨hquiet.thr, hquiet.waves, hquiet.cur, by rw [hrest], by rw [hrest]⟩, fun k => ?_⟩⟩
  rw [dirOf, show (clearResv line keep s).home = s.home by rw [hrest]]
  exact h k
theorem homeward_homeWrite (w : Option Nat) (pa : Nat) (bs : List Byte) (s : State) : Homeward s (homeWrite w pa bs s) := by
  have hover : ∀ u : State, Homeward u (overwrite pa bs.length u) := fun u => by
    rw [overwrite]
    split
    · exact homeward_refl u
    · exact homeward_of_eq rfl rfl rfl rfl rfl
  have htouch : ∀ u : State, Homeward u (touchVersion pa u) := fun u => by
    rw [touchVersion]
    dsimp only
    split
    · exact homeward_refl u
    · exact homeward_of_eq rfl rfl rfl rfl rfl
  have hmem : Homeward s { s with mem := Mem.put 0 s.mem pa bs } := homeward_of_eq rfl rfl rfl rfl rfl
  exact ((hmem.trans (homeward_clearResv ..)).trans (hover _)).trans (htouch _)
theorem homeward_modCore (c : Nat) (g : Core → Core) (s : State) : Homeward s (s.modCore c g) := homeward_of_eq rfl rfl rfl rfl rfl
theorem homeward_loseCopy (c line : Nat) (s : State) : Homeward s (loseCopy c line s) := by
  rw [loseCopy, delL1, coreResv]
  exact Homeward.trans (homeward_clearResv ..) (homeward_modCore ..)
theorem homeward_mergeInto (op line : Nat) (parts : List (BitVec 2048 × BitVec 256)) (s : State) : Homeward s (mergeInto op line parts s) := by
  rw [mergeInto]
  split
  · exact homeward_refl s
  · split
    · exact homeward_of_eq rfl rfl rfl rfl rfl
    · refine homeward_foldl (fun u k => ?_) _ _
      split
      · exact homeward_refl u
      · exact homeward_homeWrite ..
theorem homeward_mergeLine (line : Nat) (s : State) : Homeward s (mergeLine line s) := homeward_of_noPending fun h => by
  rw [mergeLine]
  dsimp only
  split
  · exact homeward_refl s
  · refine Homeward.trans (Homeward.trans (homeward_mergeInto ..) (homeward_foldl (fun u k => ?_) _ _)) (homeward_setDir fun _ => ?_)
    · exact homeward_loseCopy ..
    · exact h line
theorem homeward_recallLine (line : Nat) (s : State) : Homeward s (recallLine line s) := by
  rw [recallLine]
  refine Homeward.trans (Homeward.trans (homeward_mergeLine line s) (homeward_foldl (fun u k => ?_) _ _)) (homeward_modDir (fun _ => ?_) line _)
  · exact homeward_loseCopy ..
  · rfl
theorem homeward_settleLine (line : Nat) (s : State) : Homeward s (settleLine line s) := homeward_of_noPending fun h => by
  rw [settleLine_idle s line (h line)]
  exact homeward_refl s

/-! ### SWM copies and write-back entries -/

theorem homeward_swmBack (c line : Nat) (l : L1Line) (s : State) : Homeward s (swmBack c line l s) := by
  refine ((homeward_modCore c _ s).trans (homeward_l2Dirty ..)).trans (homeward_foldl (fun u k => ?_) _ _)
  split
  · exact homeward_homeWrite ..
  · exact homeward_refl u
theorem homeward_dropSwm (c line : Nat) (s : State) : Homeward s (dropSwm c line s) := by
  rw [dropSwm]
  split
  · split
    · exact (homeward_swmBack ..).trans (homeward_modCore ..)
    · exact homeward_refl s
  · exact homeward_refl s
theorem homeward_backHome (c line : Nat) (s : State) : Homeward s (backHome c line s) := homeward_of_noPending fun h => by
  rw [backHome]
  split
  · exact homeward_refl s
  · dsimp only
    split
    · refine Homeward.trans (Homeward.trans (homeward_modCore ..) (homeward_setDir fun _ => ?_)) (homeward_l2Dirty ..)
      exact h line
    · split
      · refine Homeward.trans (Homeward.trans (homeward_modCore ..) (homeward_setDir fun _ => ?_)) (homeward_l2Dirty ..)
        exact h line
      · exact homeward_modCore ..
theorem homeward_homeLine (line : Nat) (s : State) : Homeward s (homeLine line s) := by
  have hrecall : ∀ u : State, Homeward u (if Tab.has u.home.dir line then recallLine line (settleLine line u) else u) := fun u => by
    split
    · exact (homeward_settleLine line u).trans (homeward_recallLine ..)
    · exact homeward_refl u
  exact ((homeward_foldl (fun u e => homeward_dropSwm ..) _ _).trans (hrecall _)).trans (homeward_foldl (fun u e => homeward_backHome ..) _ _)
theorem homeward_flushLines (hit : Nat → Bool) (s : State) : Homeward s (flushLines hit s) :=
  homeward_foldl (fun u line => (homeward_homeLine line u).trans (homeward_l2Drop ..)) _ _
theorem homeward_fenceSides (c x : Nat) (scope : BitVec 3) (s : State) : Homeward s (fenceSides c x scope s) := by
  have hswm : Homeward s (fenceSwm c s) := homeward_foldl (fun u e => (homeward_swmBack ..).trans (homeward_modCore ..)) _ _
  have hacquire : ∀ u : State, Homeward u (acquireSwm c u) := fun u => by
    rw [acquireSwm]
    split
    · exact homeward_modCore ..
    · exact homeward_refl u
  have hexpire : ∀ u : State, Homeward u (expireLeases x u) := fun u => by
    refine Homeward.trans (t := u.modFabric _) (homeward_of_eq rfl rfl rfl rfl rfl) (homeward_foldl (fun u k => ?_) _ _)
    exact homeward_of_eq rfl rfl rfl rfl rfl
  have hside : ∀ u : State, Homeward u (acquireSide c x scope u) := fun u => by
    rw [acquireSide]
    split
    · exact homeward_refl u
    · split
      · exact hacquire u
      · exact (hacquire u).trans (hexpire _)
  rw [fenceSides]
  split
  · exact hside s
  · exact hswm.trans (hside _)

/-! ### The end of an instruction after a flush -/

theorem execIds_advance_onlyResv {f : Fields} (hs : LanesSound s) (h : OnlyResv s u) :
    ((advance u).execLanes f).map Lane.id = (s.execLanes f).map Lane.id := by
  have hrest := sameT_advance u
  have hwave : (advance u).wave (advance u).curWave = s.wave s.curWave := by
    rw [State.wave, State.curWave, sameT_waves hrest, sameT_cur hrest, h.waves, h.cur]
    rfl
  refine execIds_congr hwave fun l hl => ?_
  have hbare := (advance_bare hs h.cur h.waves h.thr l.id).trans (congrArg (Option.map Thread.bare) ((advance_spec s hs).2.1 l hl))
  obtain ⟨y, hy, hyb⟩ := Option.map_eq_some_iff.1 hbare
  rw [thread_of_thread? hy]
  exact (congrArg (guardOk f) hyb : guardOk f y.bare = guardOk f (nextTh s l.th).bare)
theorem doneBare_doneWith {f : Fields} {o : LaneOut} (hs : LanesSound s) (h : OnlyResv s u) : DoneBare f s (doneWith f o u) (fun _ => o) := by
  have hn := execLanes_nodup hs f
  rw [doneWith, putAll, execIds_advance_onlyResv hs h]
  refine doneBare_of s (advance u) _ f _ hs (advance_bare hs h.cur h.waves h.thr) (fun l hl => ?_) fun j hj => ?_
  · rw [thread?_modThreads _ _ _ hn, if_pos (List.mem_map.2 ⟨l, hl, rfl⟩)]
  · rw [thread?_modThreads _ _ _ hn, if_neg hj]

end

end Sys2Proof.Proofs
end

section
/-!
PROOFS. WSET, and the statement of isolation (spec 19 R374 to R380).
-/
namespace Sys2Proof.Proofs
open Machine Laws

section
variable {f : Fields} {s u v : State} {l : Lane} {k w : Nat}

/-! ### Block numbers -/

theorem mem_setMember {on : Bool} {k j : Nat} {l : List Nat} : j ∈ setMember on k l ↔ if j = k then on = true else j ∈ l := by
  rw [setMember]
  cases on <;> by_cases h : j = k <;> simp [h, mem_insertBy]
theorem mem_foldl_setMember {on : Bool} {j : Nat} (ks l : List Nat) :
    j ∈ ks.foldl (fun l g => setMember on g l) l ↔ if j ∈ ks then on = true else j ∈ l := by
  induction ks generalizing l with
  | nil => simp
  | cons k ks ih =>
    rw [List.foldl_cons, ih, mem_setMember]
    by_cases hj : j = k <;> by_cases hin : j ∈ ks <;> simp [hj, hin]
theorem mem_block {first n j : Nat} : j ∈ (List.range n).map (fun k => first + k) ↔ first ≤ j ∧ j < first + n := by
  simp only [List.mem_map, List.mem_range]
  refine ⟨?_, fun h => ⟨j - first, by omega, by omega⟩⟩
  rintro ⟨k, hk, rfl⟩
  omega

section
variable (h : (s.execLanes f).head? = some l) (hk : k = (reg32 l.th f.b).toNat) (hw : w = (reg32 l.th f.c).toNat) {limit : Nat} {ok : Nat → Bool}
  {act : Lane → Nat → Nat → State → State}
include h
theorem withBlock_of_insecure (hworld : (s.ctx s.hereCtx).world = false) : withBlock f limit ok act s = trapAll f { cause := 0x42 } s := by
  rw [withBlock, waveOnce_of_head h]
  exact if_pos (by simp [State.hereWorld, hworld])
variable (hworld : (s.ctx s.hereCtx).world = true)
include hk hw hworld
theorem withBlock_of_bad (hbad : limit ≤ k ∨ ok w = false) : withBlock f limit ok act s = trapAll f { cause := 0x44, einfo := 3 } s := by
  rw [withBlock, waveOnce_of_head h]
  simp only [← hk, ← hw]
  refine (if_neg (by simp [State.hereWorld, hworld])).trans ((if_pos ?_).trans rfl)
  simpa using hbad
theorem withBlock_of_sound (hlt : k < limit) (hok : ok w = true) : withBlock f limit ok act s = act l k w s := by
  rw [withBlock, waveOnce_of_head h]
  simp only [← hk, ← hw]
  refine (if_neg (by simp [State.hereWorld, hworld])).trans (if_neg ?_)
  simpa [hok] using hlt
end

theorem wsetDone_of_busy {change : State → State} {busy : Bool} (h : busy = true) : wsetDone f busy change s = doneWith f (val32 1) s := if_pos h
theorem wsetDone_of_free {change : State → State} {busy : Bool} (h : busy = false) : wsetDone f busy change s = doneWith f (val32 0) (change s) := by
  rw [wsetDone, h]
  rfl
/-- Status 1 changes nothing but the threads. -/
theorem busy_done (hs : LanesSound s) : SameButThreads s (doneWith f (val32 1) s) ∧
    LanesBecome f s (doneWith f (val32 1) s) fun l => writeOut f (val32 1) (nextTh s l.th) := ⟨sameT_doneWith .., lanesBecome_doneWith hs _⟩

/-! ### A core's world -/

theorem oneCore_doneWith (o : LaneOut) (g : Core → Core) : OneCore s (doneWith f o (s.modCore k g)) k :=
  oneCore_sameT (oneCore_modCore (oneCore_refl s k) g) (sameT_doneWith ..)
theorem core_doneWith_modCore (o : LaneOut) (g : Core → Core) : (doneWith f o (s.modCore k g)).core k = g (s.core k) := by
  rw [core_sameT (sameT_doneWith ..), core_modCore, if_pos rfl]

theorem coreWorld_done (hs : LanesSound s) (on : Bool) : let t := doneWith f (val32 0) (s.modCore k fun x => { x with world := on })
    (LanesBecome f s t fun l => writeOut f (val32 0) (nextTh s l.th)) ∧ OneCore s t k ∧ t.core k = { s.core k with world := on } :=
  ⟨lanesBecome_doneWith_after hs _ rfl rfl, oneCore_doneWith .., core_doneWith_modCore ..⟩

/-! ### Results after a flush -/

theorem doneBare_doneWith_after {o : LaneOut} (hs : LanesSound s) (h : OnlyResv s v) (hwork : u.work = v.work) (hcur : u.cur = v.cur) :
    DoneBare f s (doneWith f o u) (fun _ => o) := by
  have hthread : ∀ j, (doneWith f o u).thread? j = (doneWith f o v).thread? j := thread?_of_work (work_doneWith o hwork hcur)
  have hdone : DoneBare f s (doneWith f o v) (fun _ => o) := doneBare_doneWith hs h
  unfold DoneBare at hdone ⊢
  simpa only [hthread] using hdone

/-- The change of a slice's ways. -/
def sliceChange (k w : Nat) (s : State) : State :=
  if Tab.get s.worlds.ways k 0 = w then s
  else
    let loses := decide (w < Tab.get s.worlds.ways k 0)
    { flushLines (fun line => isLocal line && homeSlice line == k && secureGranule s line == loses) s with
      worlds := { s.worlds with ways := Tab.put s.worlds.ways k w } }
theorem wsetSlice_of_sound (h : (s.execLanes f).head? = some l) (hk : k = (reg32 l.th f.b).toNat) (hw : w = (reg32 l.th f.c).toNat)
    (hworld : (s.ctx s.hereCtx).world = true) (hlt : k < 64) (hways : [0, 4, 8, 12, 16].contains w = true) :
    wsetSlice f s = doneWith f (val32 0) (sliceChange k w s) := by
  rw [wsetSlice, withBlock_of_sound h hk hw hworld hlt hways, wsetDone_of_free rfl, sliceChange]
theorem sliceChange_done (hs : LanesSound s) (hpend : NoPending s) (o : LaneOut) :
    DoneBare f s (doneWith f o (sliceChange k w s)) (fun _ => o) ∧ Tab.get (doneWith f o (sliceChange k w s)).worlds.ways k 0 = w ∧
      ∀ j, j ≠ k → Tab.get (doneWith f o (sliceChange k w s)).worlds.ways j 0 = Tab.get s.worlds.ways j 0 := by
  rw [worlds_doneWith, sliceChange]
  split
  next hsame => exact ⟨doneBare_doneWith hs (onlyResv_of_eq rfl rfl rfl rfl), hsame, fun j _ => rfl⟩
  next =>
    obtain ⟨hflush, -⟩ := (homeward_flushLines (fun line => isLocal line && homeSlice line == k &&
      secureGranule s line == decide (w < Tab.get s.worlds.ways k 0)) s).keeps hpend
    exact ⟨doneBare_doneWith_after hs hflush rfl rfl, tab_get_put_self .., fun j hj => (tab_get_put ..).trans (if_neg hj)⟩

/-! ### Granules -/

theorem mem_get_of_absent {m : Mem} {a : Nat} (h : ∀ e ∈ m, e.1 ≠ a) : Mem.get 0 m a = 0 := by
  induction m with
  | nil => rfl
  | cons e m ih =>
    rw [Mem.get, if_neg (h e List.mem_cons_self)]
    exact ih fun e he => h e (List.mem_cons_of_mem _ he)
theorem mem_fill_zero {m : Mem} {a n : Nat} {e : Nat × Byte} (h : e ∈ Mem.fill 0 m a n 0) : e ∈ m ∧ ¬(a ≤ e.1 ∧ e.1 < a + n) := by
  simp only [Mem.fill, if_true, List.append_nil, List.mem_append, List.mem_filter, decide_eq_true_eq] at h
  rcases h with ⟨hm, hlt⟩ | ⟨hm, hge⟩
  · exact ⟨hm, by omega⟩
  · exact ⟨hm, by omega⟩
theorem homeward_touchVersion (pa : Nat) (s : State) : Homeward s (touchVersion pa s) ∧ (touchVersion pa s).mem = s.mem := by
  rw [touchVersion]
  dsimp only
  split
  · exact ⟨homeward_refl s, rfl⟩
  · exact ⟨homeward_of_eq rfl rfl rfl rfl rfl, rfl⟩
/-- A granule of zeros: the bytes of the granule have no entry, and only reservations go. -/
theorem zeroGranule_done (g : Nat) (s : State) :
    Homeward s (zeroGranule g s) ∧ (zeroGranule g s).mem = Mem.fill 0 s.mem (g * 2 ^ 21) (2 ^ 21) 0 := by
  have hresv : ∀ (ks : List Nat) (p : Nat → Bool) (u : State),
      Homeward u (ks.foldl (fun s line => if p line then writeResv line none s else s) u) ∧
        (ks.foldl (fun s line => if p line then writeResv line none s else s) u).mem = u.mem := fun ks p => by
    induction ks with
    | nil => exact fun u => ⟨homeward_refl u, rfl⟩
    | cons line ks ih =>
      intro u
      have hstep : Homeward u (if p line then writeResv line none u else u) ∧ (if p line then writeResv line none u else u).mem = u.mem := by
        split
        · exact ⟨homeward_clearResv .., (quietly_writeResv ..).mem⟩
        · exact ⟨homeward_refl u, rfl⟩
      obtain ⟨hrest, hmem⟩ := ih (if p line then writeResv line none u else u)
      exact ⟨hstep.1.trans hrest, hmem.trans hstep.2⟩
  have htouch : ∀ (es : List (Nat × PageVer)) (u : State), Homeward u (es.foldl (fun s e => touchVersion (e.1 * 4096) s) u) ∧
      (es.foldl (fun s e => touchVersion (e.1 * 4096) s) u).mem = u.mem := fun es => by
    induction es with
    | nil => exact fun u => ⟨homeward_refl u, rfl⟩
    | cons e es ih =>
      intro u
      obtain ⟨hstep, hmem⟩ := homeward_touchVersion (e.1 * 4096) u
      obtain ⟨hrest, hmems⟩ := ih (touchVersion (e.1 * 4096) u)
      exact ⟨hstep.trans hrest, hmems.trans hmem⟩
  rw [zeroGranule]
  dsimp only
  obtain ⟨h1, hm1⟩ := hresv (s.work.threads.filterMap fun e => e.2.resv.map (·.line)) (fun x => decide (g * 2 ^ 21 ≤ x ∧ x < g * 2 ^ 21 + 2 ^ 21))
    { s with mem := Mem.fill 0 s.mem (g * 2 ^ 21) (2 ^ 21) 0 }
  refine ⟨Homeward.trans ?_ (htouch _ _).1, (htouch _ _).2.trans hm1⟩
  refine Homeward.trans (Homeward.trans ?_ h1) ?_
  · exact homeward_of_eq rfl rfl rfl rfl rfl
  · exact homeward_of_eq rfl rfl rfl rfl rfl
theorem foldl_zeroGranule (gs : List Nat) (s : State) : Homeward s (gs.foldl (fun s g => zeroGranule g s) s) ∧
    ∀ e ∈ (gs.foldl (fun s g => zeroGranule g s) s).mem, e ∈ s.mem ∧ ∀ g ∈ gs, ¬(g * 2 ^ 21 ≤ e.1 ∧ e.1 < (g + 1) * 2 ^ 21) := by
  induction gs generalizing s with
  | nil => exact ⟨homeward_refl s, fun e he => ⟨he, fun g hg => absurd hg (by simp)⟩⟩
  | cons g gs ih =>
    obtain ⟨hstep, hmem⟩ := zeroGranule_done g s
    obtain ⟨hrest, hmems⟩ := ih (zeroGranule g s)
    refine ⟨hstep.trans hrest, fun e he => ?_⟩
    obtain ⟨hin, hno⟩ := hmems e he
    rw [hmem] at hin
    obtain ⟨hin, hnog⟩ := mem_fill_zero hin
    refine ⟨hin, fun j hj => ?_⟩
    rcases List.mem_cons.1 hj with rfl | hj
    · omega
    · exact hno j hj

/-- The granules that go to the nonsecure world, and the state that the move of a run of granules leaves. -/
def granulesOut (first n w : Nat) (s : State) : List Nat :=
  if w = 0 then ((List.range n).map fun k => first + k).filter fun g => s.worlds.granules.contains g else []
def granulesFlushed (mine : Nat → Bool) (s : State) : State :=
  let s1 := flushLines mine (fenceSides s.hereCore s.hereCtx 5 s)
  { s1 with cores := s1.cores.map fun e => (e.1, { e.2 with icache := e.2.icache.filter fun k => !mine k.1 }) }
def granulesZeroed (first n w : Nat) (s : State) : State := (granulesOut first n w s).foldl (fun s g => zeroGranule g s) s
def granulesMoved (first n w : Nat) (s : State) : State :=
  { s with worlds := { s.worlds with granules := ((List.range n).map fun k => first + k).foldl (fun l g => setMember (w == 1) g l) s.worlds.granules } }
/-- The addresses of a run of granules. -/
def inGranules (first n : Nat) (pa : Nat) : Bool := isLocal pa && decide (first ≤ pa / 2 ^ 21 ∧ pa / 2 ^ 21 < first + n)
/-- The move of a run of granules: lines that the host may hold are asked for first. -/
def moveGranules (f : Fields) (mine : Nat → Bool) (first n w : Nat) (s : State) : State :=
  let asked := (s.home.dir.filter fun e => mine e.1 && hostHolds s e.1).map (·.1)
  match asked with
  | line :: _ => waitAll f (.remote line) (asked.foldl (fun s k => noteSnoop (.remote k) s) s)
  | [] => doneWith f (val32 0) (granulesMoved first n w (granulesZeroed first n w (granulesFlushed mine s)))
theorem moveGranules_of_none {mine : Nat → Bool} {first n : Nat} (h : (s.home.dir.filter fun e => mine e.1 && hostHolds s e.1) = []) :
    moveGranules f mine first n w s = doneWith f (val32 0) (granulesMoved first n w (granulesZeroed first n w (granulesFlushed mine s))) := by
  rw [moveGranules, h]
  rfl

section
variable {first : Nat} (h : (s.execLanes f).head? = some l) (hk : k = (reg32 l.th f.b).toNat) (hw : w = (reg32 l.th f.c).toNat)
include h
theorem wsetGran_of_insecure (hworld : (s.ctx s.hereCtx).world = false) : wsetGran f s = trapAll f { cause := 0x42 } s := by
  rw [wsetGran, waveOnce_of_head h]
  exact if_pos (by simp [State.hereWorld, hworld])
include hk hw
theorem wsetGran_eq : wsetGran f s = if (!s.hereWorld) = true then worldFault f s
    else if w > 1 ∨ (reg64 l.th f.a).toNat % 2 ^ 21 ≠ 0 ∨ k = 0 ∨ k > 786432 ∨ (reg64 l.th f.a).toNat / 2 ^ 21 + k > 786432 then ctxFault f 3 s
    else releaseFirst f 5 (moveGranules f (inGranules ((reg64 l.th f.a).toNat / 2 ^ 21) k) ((reg64 l.th f.a).toNat / 2 ^ 21) k w) s := by
  rw [wsetGran, waveOnce_of_head h, ← hk, ← hw]
  extract_lets base n v first mine
  change _ = if (!s.hereWorld) = true then worldFault f s
    else if v > 1 ∨ base % 2 ^ 21 ≠ 0 ∨ n = 0 ∨ n > 786432 ∨ first + n > 786432 then ctxFault f 3 s
    else releaseFirst f 5 (moveGranules f mine first n v) s
  clear_value mine first base n v
  rfl
theorem wsetGran_of_sound (hworld : (s.ctx s.hereCtx).world = true) (hfirst : (reg64 l.th f.a).toNat = first * 2 ^ 21) (hk1 : 1 ≤ k)
    (hlim : first + k ≤ 786432) (hw1 : w ≤ 1) (hrel : ∀ l ∈ s.execLanes f, releaseWaits s l.id 5 = false)
    (hhost : ∀ e ∈ s.home.dir, first * 2 ^ 21 ≤ e.1 → e.1 < (first + k) * 2 ^ 21 → hostHolds s e.1 = false) :
    wsetGran f s = doneWith f (val32 0) (granulesMoved first k w (granulesZeroed first k w (granulesFlushed (inGranules first k) s))) := by
  have hasked : (s.home.dir.filter fun e => inGranules first k e.1 && hostHolds s e.1) = [] := by
    refine List.filter_eq_nil_iff.2 fun e he hno => ?_
    simp only [inGranules, Bool.and_eq_true, decide_eq_true_eq] at hno
    obtain ⟨⟨-, hlo, hhi⟩, hholds⟩ := hno
    rw [hhost e he (by omega) (by omega)] at hholds
    cases hholds
  have hany : ((s.execLanes f).any fun l => releaseWaits s l.id 5) = false := List.any_eq_false.2 fun l hl => by rw [hrel l hl]; exact Bool.false_ne_true
  obtain rfl : first = (reg64 l.th f.a).toNat / 2 ^ 21 := by omega
  rw [wsetGran_eq h hk hw]
  refine (if_neg (by simp [State.hereWorld, hworld])).trans ((if_neg (by omega)).trans ?_)
  rw [releaseFirst, hany]
  exact (if_neg Bool.false_ne_true).trans (moveGranules_of_none hasked)
end

theorem homeward_cores (cores : Tab Core) (u : State) : Homeward u { u with cores := cores } := homeward_of_eq rfl rfl rfl rfl rfl
theorem homeward_granulesFlushed (mine : Nat → Bool) (s : State) : Homeward s (granulesFlushed mine s) := by
  rw [granulesFlushed]
  exact ((homeward_fenceSides ..).trans (homeward_flushLines mine _)).trans (homeward_cores _ _)
theorem granules_done {first : Nat} (hs : LanesSound s) (hpend : NoPending s) (o : LaneOut) :
    let t := doneWith f o (granulesMoved first k w (granulesZeroed first k w (granulesFlushed (inGranules first k) s)))
    DoneBare f s t (fun _ => o) ∧ (∀ g, g ∈ t.worlds.granules ↔ if first ≤ g ∧ g < first + k then w = 1 else g ∈ s.worlds.granules) ∧
      (w = 0 → ∀ g a, first ≤ g → g < first + k → g ∈ s.worlds.granules → g * 2 ^ 21 ≤ a → a < (g + 1) * 2 ^ 21 → Mem.get 0 t.mem a = 0) := by
  intro t
  have hflush := homeward_granulesFlushed (inGranules first k) s
  obtain ⟨hzero, hmem⟩ := foldl_zeroGranule (granulesOut first k w (granulesFlushed (inGranules first k) s)) (granulesFlushed (inGranules first k) s)
  obtain ⟨hkept, -⟩ := (hflush.trans hzero).keeps hpend
  obtain ⟨hkeptf, -⟩ := hflush.keeps hpend
  refine ⟨doneBare_doneWith_after hs hkept rfl rfl, fun g => ?_, fun hw0 g a hlo hhi hin ha1 ha2 => ?_⟩
  · rw [worlds_doneWith]
    change g ∈ ((List.range k).map fun i => first + i).foldl (fun l g => setMember (w == 1) g l)
      (granulesZeroed first k w (granulesFlushed (inGranules first k) s)).worlds.granules ↔ _
    rw [mem_foldl_setMember, granulesZeroed, hkept.worlds]
    simp only [mem_block, beq_iff_eq]
  · rw [mem_doneWith]
    refine mem_get_of_absent fun e he hea => ?_
    obtain ⟨-, hno⟩ := hmem e he
    refine hno g ?_ ⟨by omega, by omega⟩
    rw [granulesOut, if_pos hw0, List.mem_filter, hkeptf.worlds]
    exact ⟨mem_block.2 ⟨hlo, hhi⟩, by simpa using hin⟩

end

end Sys2Proof.Proofs
end

section
/-!
PROOFS. The statement of isolation (spec 19 R374 to R380).
-/
namespace Sys2Proof.Proofs
open Machine Laws

/-- Settles O47: translations dropped after a fence, contexts made, moved and freed, and blocks given to a world. -/
theorem isolation : Obligations.Isolation := by
  unfold Obligations.Isolation
  refine ⟨fun f s l hs hl hquiet hopen hheld => ⟨?_, fun x hx => ⟨fun hsec hworld => ?_, fun hb => ?_, fun hlt hst hworld hremote => ⟨?_, ?_⟩⟩⟩,
    fun f s l bs hs hl hcanon hread => ⟨fun hflags hmay => ?_, fun hsec hworld => ?_, fun hflags hmay hzero hzeros hroot => ⟨fun x hx => ?_, fun hno => ?_⟩⟩,
    fun f s l x hs hl hx => ⟨fun hlt hlive hworld => ⟨fun hroot hremote hquiet hopen hheld => ?_, fun hroot => ?_, fun hself => ?_,
      fun hne u hu => ⟨fun hgone => ?_, fun hgone => ?_⟩⟩, fun hb => ?_⟩,
    fun f s l k w hs hl hk hw => ⟨fun hworld => ?_, fun hworld => ⟨fun hlt hw1 => ⟨?_, fun hteams => ?_⟩, fun hbad => ?_, fun hlt hmod hmax hdir => ?_,
      fun hlt hw1 => ⟨fun hflows => ?_, fun hflow => ?_⟩, fun hlt hw1 hqueues => ?_, fun first hfirst hk1 hlim hw1 hrel hdir hhost => ?_⟩⟩⟩
  · rintro hit mine rfl rfl
    have hall : tlbinvAll f s = tlbinvWith f (fun x => (s.ctx s.hereCtx).world || !(s.ctx x).world)
        (fun e => (s.ctx s.hereCtx).world || !(s.ctx e.ctx).world) s := waveOnce_of_head hl
    refine ⟨fun hremote => ⟨_, congrArg Host.Outcome.next hall, tlbinvWith_done hs rfl rfl rfl rfl rfl hremote hopen hheld hquiet⟩, fun hremote => ?_⟩
    exact ⟨_, congrArg Host.Outcome.next (hall.trans (tlbinvWith_of_remote hremote)), allWait_waitAll hs _⟩
  · exact ⟨congrArg Host.Outcome.next (withTlbCtx_of_secure hl hx hsec hworld), congrArg Host.Outcome.next (withTlbCtx_of_secure hl hx hsec hworld)⟩
  · exact ⟨congrArg Host.Outcome.next (withTlbCtx_of_beyond hl hx hb), congrArg Host.Outcome.next (withTlbCtx_of_beyond hl hx hb)⟩
  · exact ⟨_, congrArg Host.Outcome.next (withTlbCtx_of_named hl hx hlt hst hworld),
      tlbinvWith_done hs rfl rfl rfl rfl rfl hremote hopen hheld hquiet⟩
  · rintro n vpn rfl rfl
    refine ⟨fun hlo hhi halign => ?_, fun hbad => ?_⟩
    · obtain ⟨hmem, hlanes, htlb, -⟩ := tlbinvWith_done (named := fun k => k == x) (hit := fun e => e.ctx == x &&
        decide (e.vpn < vaOf (reg64 l.th f.a) / 4096 + (reg32 l.th f.b).toNat) && decide (vaOf (reg64 l.th f.a) / 4096 < e.vpn + e.pages))
        hs rfl rfl rfl rfl rfl hremote hopen hheld hquiet
      refine ⟨_, congrArg Host.Outcome.next ((withTlbCtx_of_named hl hx hlt hst hworld).trans (if_neg (by omega))), hmem, hlanes, htlb⟩
    · exact congrArg Host.Outcome.next ((withTlbCtx_of_named hl hx hlt hst hworld).trans (if_pos (by omega)))
  · exact congrArg Host.Outcome.next (ctxsetNew_of_flags hl hcanon hread hmay hflags)
  · exact congrArg Host.Outcome.next (ctxsetNew_of_forbidden hl hcanon hread hsec hworld)
  · have hnew : (doneWith f (val32 (BitVec.ofNat 32 x)) (s.setCtx x (newCtx s x bs))).ctx x = newCtx s x bs := by
      rw [ctx_doneWith, ctx_setCtx, if_pos rfl]
    refine ⟨_, congrArg Host.Outcome.next (ctxsetNew_of_free hl hcanon hread hmay hflags hzero hzeros hroot hx), mem_doneWith _,
      lanesBecome_doneWith_after hs _ rfl rfl, fun k hk => ?_, ?_⟩
    · rw [ctx_doneWith, ctx_setCtx, if_neg hk]
    · rw [hnew]
      exact ⟨rfl, rfl, rfl, rfl, rfl, rfl, rfl, rfl⟩
  · exact ⟨_, congrArg Host.Outcome.next (ctxsetNew_of_full hl hcanon hread hmay hflags hzero hzeros hroot hno), sameT_doneWith .., lanesBecome_doneWith hs _⟩
  · have hmoved : ctxsetRoot f s = tlbinvWith f (fun k => k == x) (fun e => e.ctx == x) (s.modCtx x fun c => { c with root := (reg64 l.th f.a).toNat }) := by
      refine (withLive_of_live hl hx hlt hlive hworld).trans ((if_neg (by simp [hroot])).trans ?_)
      rw [hremote]
      rfl
    have hremote' : ctxRemote (s.modCtx x fun c => { c with root := (reg64 l.th f.a).toNat }) (fun k => k == x) = false := hremote
    obtain ⟨hmem, hlanes, htlb, -⟩ := tlbinvWith_done (f := f) (u := s.modCtx x fun c => { c with root := (reg64 l.th f.a).toNat }) (hit := fun e => e.ctx == x)
      hs rfl rfl rfl rfl rfl hremote' hopen hheld hquiet
    refine ⟨_, congrArg Host.Outcome.next hmoved, hmem, hlanes, ?_, fun k hk => ?_, htlb⟩
    · rw [ctx_tlbinvWith hremote' hopen hheld hquiet, State.modCtx, ctx_setCtx, if_pos rfl]
    · rw [ctx_tlbinvWith hremote' hopen hheld hquiet, State.modCtx, ctx_setCtx, if_neg hk]
  · exact congrArg Host.Outcome.next ((withLive_of_live hl hx hlt hlive hworld).trans (if_pos (by simp [hroot])))
  · exact congrArg Host.Outcome.next ((withLive_of_live hl hx hlt hlive hworld).trans (if_pos (by simp [hself])))
  · exact ⟨_, congrArg Host.Outcome.next ((ctxsetKill_of_live hl hx hlt hlive hworld hne hu).trans (if_pos hgone)), freeCtx_done x u⟩
  · exact congrArg Host.Outcome.next ((ctxsetKill_of_live hl hx hlt hlive hworld hne hu).trans (if_neg (by simp [hgone])))
  · exact ⟨congrArg Host.Outcome.next (withLive_of_beyond hl hx hb), congrArg Host.Outcome.next (withLive_of_beyond hl hx hb)⟩
  · rintro i (rfl | rfl | rfl | rfl | rfl)
    · exact congrArg Host.Outcome.next (withBlock_of_insecure hl hworld)
    · exact congrArg Host.Outcome.next (withBlock_of_insecure hl hworld)
    · exact congrArg Host.Outcome.next (wsetGran_of_insecure hl hworld)
    · exact congrArg Host.Outcome.next (withBlock_of_insecure hl hworld)
    · exact congrArg Host.Outcome.next (withBlock_of_insecure hl hworld)
  · rintro ⟨hteams, hpart⟩
    have hidle : (!(teamsOn s k).isEmpty || (s.core k).part.any fun e => e.2.getLsbD 31) = false := by simpa [hteams] using hpart
    refine ⟨_, congrArg Host.Outcome.next ((withBlock_of_sound hl hk hw hworld hlt (decide_eq_true hw1)).trans (wsetDone_of_free hidle)),
      coreWorld_done hs (decide (w = 1))⟩
  · have hbusy : (!(teamsOn s k).isEmpty || (s.core k).part.any fun e => e.2.getLsbD 31) = true := by simp [hteams]
    exact ⟨_, congrArg Host.Outcome.next ((withBlock_of_sound hl hk hw hworld hlt (decide_eq_true hw1)).trans (wsetDone_of_busy hbusy)), busy_done hs⟩
  · exact congrArg Host.Outcome.next (withBlock_of_bad hl hk hw hworld (hbad.imp id fun h => decide_eq_false (by omega)))
  · have hways : [0, 4, 8, 12, 16].contains w = true := by
      obtain rfl | rfl | rfl | rfl | rfl : w = 0 ∨ w = 4 ∨ w = 8 ∨ w = 12 ∨ w = 16 := by omega
      all_goals rfl
    exact ⟨_, congrArg Host.Outcome.next (wsetSlice_of_sound hl hk hw hworld hlt hways),
      sliceChange_done hs (noPending_of_dir hdir) _⟩
  · have hidle : (s.fabric.flows.any fun e => e.2.port == k) = false := by simpa using hflows
    refine ⟨_, congrArg Host.Outcome.next ((withBlock_of_sound hl hk hw hworld hlt (decide_eq_true hw1)).trans (wsetDone_of_free hidle)),
      mem_doneWith _, lanesBecome_doneWith_after hs _ rfl rfl, fun j => ?_⟩
    rw [worlds_doneWith]
    exact mem_setMember.trans (by rw [beq_iff_eq])
  · have hbusy : (s.fabric.flows.any fun e => e.2.port == k) = true := by
      obtain ⟨e, he, hp⟩ := hflow
      exact List.any_eq_true.2 ⟨e, he, beq_iff_eq.2 hp⟩
    exact ⟨_, congrArg Host.Outcome.next ((withBlock_of_sound hl hk hw hworld hlt (decide_eq_true hw1)).trans (wsetDone_of_busy hbusy)), busy_done hs⟩
  · have hidle : (s.queues.any fun e => e.2.en && (s.ctx e.2.ctx).fn == some k) = false := by simpa using hqueues
    refine ⟨_, congrArg Host.Outcome.next ((withBlock_of_sound hl hk hw hworld hlt (decide_eq_true hw1)).trans (wsetDone_of_free hidle)),
      mem_doneWith _, lanesBecome_doneWith_after hs _ rfl rfl, fun j => ?_⟩
    rw [worlds_doneWith]
    exact mem_setMember.trans (by rw [beq_iff_eq])
  · exact ⟨_, congrArg Host.Outcome.next (wsetGran_of_sound hl hk hw hworld hfirst hk1 hlim hw1 hrel hhost), granules_done hs (noPending_of_dir hdir) _⟩

end Sys2Proof.Proofs
end

section
/-!
PROOFS. Each thread of a sequence instruction in turn, and the traps of the group (spec 17 R347, R358).
-/
namespace Sys2Proof.Proofs
open Machine Laws

section
variable {f : Fields} {s u v : State} {l : Lane} {op : Lane → State → SeqOut × State}

/-! ### One executing thread -/

theorem eachSeq_of_ok {d : LaneOut} (he : s.execLanes f = [l]) (hop : op l (advance s) = (.ok d, u)) :
    eachSeq f op s = u.modThread l.id fun t => writeOut f d t := by
  rw [eachSeq, he, byHidx_single]
  simp only [List.foldl_cons, List.foldl_nil, hop]
  rfl
theorem eachSeq_of_user {d : LaneOut} {x : SeqTrap} (he : s.execLanes f = [l]) (hop : op l (advance s) = (.user false d x, u)) :
    eachSeq f op s = takeSeq f false [(l, x)] (u.modThread l.id fun t => writeOut f d t) := by
  rw [eachSeq, he, byHidx_single]
  simp only [List.foldl_cons, List.foldl_nil, hop]
  rfl

theorem thread_mem (he : s.execLanes f = [l]) : l ∈ s.execLanes f := by
  rw [he]
  exact List.mem_singleton_self l
theorem thread?_advance_of_one (hs : LanesSound s) (he : s.execLanes f = [l]) : (advance s).thread? l.id = some (nextTh s l.th) :=
  (advance_spec s hs).2.1 l (execLanes_sub (thread_mem he))
/-- The one executing thread has a result; the others have advanced. -/
theorem lanesBecome_ok {d : LaneOut} (hs : LanesSound s) (he : s.execLanes f = [l]) (hu : ∀ j, u.thread? j = (advance s).thread? j) :
    LanesBecome f s (u.modThread l.id fun t => writeOut f d t) fun l => writeOut f d (nextTh s l.th) := by
  refine lanesBecome_of hs (fun k hk => ?_) fun j hj => ?_
  · rw [he, List.mem_singleton] at hk
    rw [hk, thread?_modThread, if_pos rfl, hu, thread?_advance_of_one hs he]
    rfl
  · rw [he] at hj
    rw [thread?_modThread, if_neg (by simpa using hj), hu]
theorem doneBare_ok {d : LaneOut} (hs : LanesSound s) (he : s.execLanes f = [l]) (hu : ∀ j, (u.thread? j).map Thread.bare = ((advance s).thread? j).map Thread.bare) :
    DoneBare f s (u.modThread l.id fun t => writeOut f d t) (fun _ => d) := by
  refine doneBare_of s u _ f _ hs hu (fun k hk => ?_) fun j hj => ?_
  · rw [he, List.mem_singleton] at hk
    rw [hk, thread?_modThread, if_pos rfl]
  · rw [he] at hj
    rw [thread?_modThread, if_neg (by simpa using hj)]

/-! ### The state that an operation sees -/

theorem seqs_advance (s : State) : (advance s).seqs = s.seqs := by rw [sameT_advance s]
theorem ctxOf_sameT (h : SameButThreads s u) (t : Thread) : u.ctxOf t = s.ctxOf t := by
  rw [State.ctxOf, State.gridOf, State.team, h]
  rfl
theorem ctxs_sameT (h : SameButThreads s u) : u.ctxs = s.ctxs := by rw [h]
theorem whoOf_sameT (h : SameButThreads s u) (t : Thread) : whoOf u t = whoOf s t := by
  rw [whoOf, coreOf_sameT h, ctxOf_sameT h, State.privOf, State.ctx, ctxs_sameT h, ctxOf_sameT h]
  rfl
theorem seqOf_seqs (h : u.seqs = s.seqs) (x : Nat) (w : Word) : seqOf u x w = seqOf s x w := by rw [seqOf, h, seqOf]
theorem seq_seqs (h : u.seqs = s.seqs) (k : Nat) : u.seq k = s.seq k := by rw [State.seq, h, State.seq]
theorem seq_setSeq (k j : Nat) (q : Seq) (s : State) : (State.setSeq k q s).seq j = if j = k then q else s.seq j := tab_get_put _ _ _ _ _
theorem seq_modThread (k j : Nat) (g : Thread → Thread) (s : State) : (s.modThread k g).seq j = s.seq j :=
  seq_seqs (by rw [sameT_modThread s k g]) j
theorem seqs_modThread (k : Nat) (g : Thread → Thread) (s : State) : (s.modThread k g).seqs = s.seqs := by rw [sameT_modThread s k g]
theorem mem_modThread (k : Nat) (g : Thread → Thread) (s : State) : (s.modThread k g).mem = s.mem := by rw [sameT_modThread s k g]
theorem seqOf_some {x k : Nat} {w : Word} {q : Seq} (h : seqOf s x w = some (k, q)) :
    Tab.find s.seqs k = some q ∧ q.used = true ∧ q.ending = false ∧ q.ctx = x := by
  rw [seqOf] at h
  split at h
  next y hy =>
    split at h
    next hvalid =>
      obtain ⟨rfl, rfl⟩ := Prod.mk.inj (Option.some.inj h)
      simp only [Bool.and_eq_true, beq_iff_eq, Bool.not_eq_true'] at hvalid
      obtain ⟨⟨⟨⟨-, hused⟩, hending⟩, hctx⟩, -⟩ := hvalid
      exact ⟨hy, hused, hending, hctx⟩
    next => cases h
  next => cases h
theorem seq_of_seqOf {x k : Nat} {w : Word} {q : Seq} (h : seqOf s x w = some (k, q)) : s.seq k = q := tab_get_of_find (seqOf_some h).1 _

/-! ### Traps of the group -/

/-- The thread of a sequence trap stands in its handler, with the trap's registers. -/
def SeqTrapped (s t : State) (l : Lane) (x : SeqTrap) : Prop :=
  t.mem = s.mem ∧ t.seqs = s.seqs ∧ ∃ y, t.thread? l.id = some y ∧ y.handler = true ∧ y.trap.cause = x.cause ∧ y.trap.evalA = x.a ∧
    y.trap.evalB = x.b ∧ y.trap.einfo = pairOf x.handle (BitVec.ofNat 32 x.pos) ∧ y.v = l.th.v
theorem escalates_sameT (h : SameButThreads s u) (t : Thread) : escalates u t = escalates s t := by
  rw [escalates, ctxOf_sameT h, State.ctx, ctxs_sameT h, escalates, State.ctx]
theorem takeSeq_done {x : SeqTrap} (hesc : escalates s l.th = false) (hsame : SameButThreads s u) (hl : u.thread? l.id = some (nextTh s l.th)) :
    SeqTrapped s (takeSeq f false [(l, x)] u) l x := by
  obtain ⟨hrest, -, hmine⟩ := takeUsers_spec s u hsame f { u.here with after := false } [(l, x.val)] (List.nodup_singleton _)
  have hy := hmine (l, x.val) (List.mem_singleton_self _) hesc
  have huser : [(l, x)].filter (fun e => !escalates u e.1.th) = [(l, x)] := List.filter_cons_of_pos (by rw [escalates_sameT hsame, hesc]; rfl)
  rw [takeSeq, huser]
  simp only [List.map_cons, List.map_nil, List.foldl_cons, List.foldl_nil]
  refine ⟨by rw [mem_modThread, hrest, hsame], by rw [seqs_modThread, hrest, hsame], ?_⟩
  rw [thread?_modThread, if_pos rfl, hy, hl]
  exact ⟨_, rfl, rfl, rfl, rfl, rfl, rfl, rfl⟩
/-- A sequence trap that the operation raises at its start. -/
theorem eachSeq_trapped {x : SeqTrap} (hs : LanesSound s) (he : s.execLanes f = [l]) (hesc : escalates s l.th = false)
    (hop : op l (advance s) = (.user false .none x, advance s)) : SeqTrapped s (eachSeq f op s) l x := by
  rw [eachSeq_of_user he hop]
  refine takeSeq_done hesc (sameT_trans (sameT_advance s) (sameT_modThread ..)) ?_
  rw [thread?_modThread, if_pos rfl, thread?_advance_of_one hs he]
  rfl

/-! ### The first free entry -/

theorem firstFree_unused {n i k : Nat} (h : firstFree s n i = some k) : (s.seq k).used = false := by
  induction n generalizing i with
  | zero => cases h
  | succ n ih =>
    rw [firstFree] at h
    split at h
    · exact ih h
    next hfree =>
      obtain rfl := Option.some.inj h
      simpa using hfree
theorem freeSeq_unused {k : Nat} {g : BitVec 16} (h : freeSeq s = some (k, g)) : (s.seq k).used = false := by
  obtain ⟨i, hi, heq⟩ := Option.map_eq_some_iff.1 h
  obtain ⟨rfl, -⟩ := Prod.mk.inj heq
  exact firstFree_unused hi
theorem freeSeq_seqs (h : u.seqs = s.seqs) : freeSeq u = freeSeq s := by
  have hfirst : ∀ n i, firstFree u n i = firstFree s n i := fun n => by
    induction n with
    | zero => exact fun _ => rfl
    | succ n ih =>
      intro i
      rw [firstFree, firstFree, seq_seqs h, ih]
  rw [freeSeq, freeSeq, hfirst]
  simp only [seq_seqs h]

end

end Sys2Proof.Proofs
end

section
/-!
PROOFS. SEQRD, SEQREJ, SEQEND, SEQDRAFT and SEQCOMMIT for one executing thread (spec 17 R348, R349, R356, R357).
-/
namespace Sys2Proof.Proofs
open Machine Laws

section
variable {f : Fields} {s u v : State} {l : Lane} {h : Word} {k : Nat} {q : Seq}

/-! ### The handle -/

theorem seqOf_advance (x : Nat) (w : Word) : seqOf (advance s) x w = seqOf s x w := seqOf_seqs (seqs_advance s) x w
theorem seqOf_here (t : Thread) (w : Word) : seqOf (advance s) ((advance s).ctxOf t) w = seqOf s (s.ctxOf t) w := by
  rw [seqOf_advance, ctxOf_sameT (sameT_advance s)]
theorem onSeq_of_invalid {op : Lane → Nat → Seq → State → SeqOut × State} (hs : LanesSound s) (he : s.execLanes f = [l]) (hesc : escalates s l.th = false)
    (hno : seqOf s (s.ctxOf l.th) (reg32 l.th f.a) = none) : SeqTrapped s (onSeq f op s) l (seqFault 1 (reg32 l.th f.a)) := by
  refine eachSeq_trapped hs he hesc ?_
  simp only [seqOf_here, hno]
theorem onSeq_of_valid {op : Lane → Nat → Seq → State → SeqOut × State} {d : LaneOut} (he : s.execLanes f = [l])
    (hq : seqOf s (s.ctxOf l.th) (reg32 l.th f.a) = some (k, q)) (hop : op l k q (advance s) = (.ok d, u)) :
    onSeq f op s = u.modThread l.id fun t => writeOut f d t := by
  refine eachSeq_of_ok he ?_
  simp only [seqOf_here, hq, hop]

/-- One entry changed by the one executing thread, which has a result. -/
theorem setSeq_done {d : LaneOut} {p : Seq} (hs : LanesSound s) (he : s.execLanes f = [l]) :
    let t := (State.setSeq k p (advance s)).modThread l.id fun t => writeOut f d t
    t.mem = s.mem ∧ (LanesBecome f s t fun l => writeOut f d (nextTh s l.th)) ∧ t.seq k = p ∧ ∀ j, j ≠ k → t.seq j = s.seq j := by
  refine ⟨(mem_modThread ..).trans mem_advance, lanesBecome_ok hs he fun j => rfl, ?_, fun j hj => ?_⟩
  · rw [seq_modThread, seq_setSeq, if_pos rfl]
  · rw [seq_modThread, seq_setSeq, if_neg hj, seq_seqs (seqs_advance s)]

/-! ### SEQEND -/

theorem endSeq_of_alone (hshared : ∀ e ∈ s.seqs, e.2.used = true → e.2.parent = k → e.2.p0 = 0 ∨ e.1 = k) (hp0 : (s.seq k).p0 = 0) (n : Nat) :
    endSeq (n + 1) k s = State.setSeq k { gen := (s.seq k).gen } s := by
  have hno : (s.seqs.any fun e => e.2.used && e.2.parent == k && decide (e.2.p0 > 0) && e.1 != k) = false := by
    refine List.any_eq_false.2 fun e he hyes => ?_
    simp only [Bool.and_eq_true, beq_iff_eq, decide_eq_true_eq, bne_iff_ne] at hyes
    obtain ⟨⟨⟨hused, hparent⟩, hpos⟩, hne⟩ := hyes
    rcases hshared e he hused hparent with h0 | hk
    · omega
    · exact hne hk
  rw [endSeq]
  simp only [hno, hp0, Bool.false_eq_true, if_false]
  rfl
theorem endSeq_of_shared (hshared : ∃ e ∈ s.seqs, e.2.used = true ∧ e.2.parent = k ∧ 0 < e.2.p0 ∧ e.1 ≠ k) (n : Nat) :
    endSeq (n + 1) k s = State.setSeq k { s.seq k with drafts := [], ending := true, live := false } s := by
  obtain ⟨e, he, hused, hparent, hpos, hne⟩ := hshared
  have hyes : (s.seqs.any fun e => e.2.used && e.2.parent == k && decide (e.2.p0 > 0) && e.1 != k) = true :=
    List.any_eq_true.2 ⟨e, he, by simp [hused, hparent, hpos, hne]⟩
  rw [endSeq]
  simp only [hyes, if_true]

/-! ### Without a pennant -/

theorem pnLive_advance (q : Seq) (drafts : Bool) : pnLive (advance s) q drafts = pnLive s q drafts := by rw [pnLive, ctx_advance, pnLive]
theorem olderTokens_nil (w : Who) (s : State) (i len drafts : Nat) : olderTokens w s i [] len drafts = .ok [] := by simp [olderTokens, tokensAt]
theorem applyEffects_nil (w : Who) (i : Nat) (s : State) : applyEffects w i [] s = (0, s) := rfl
theorem winner_nil (pos len cost : Nat) (newest : List Nat) : winner [] pos len cost newest = none := rfl

/-! ### SEQDRAFT -/

theorem draftOne_of_invalid (hno : seqOf s (s.ctxOf l.th) (reg32 l.th f.a) = none) :
    draftOne f l (advance s) = (.user false .none (seqFault 1 (reg32 l.th f.a)), advance s) := by
  have hno' : seqOf (advance s) (whoOf s l.th).ctx (reg32 l.th f.a) = none := (seqOf_advance ..).trans hno
  rw [draftOne, whoOf_sameT (sameT_advance s)]
  simp only [hno']
section
variable (hq : seqOf s (s.ctxOf l.th) (reg32 l.th f.a) = some (k, q)) (hrun : q.stopped = false) (hb : (reg32 l.th f.b).toNat ≤ 0xFFFF)
include hq hrun hb
theorem draftOne_of_room (hpn : pnLive s q true = []) (hroom : q.drafts.length < 16) :
    draftOne f l (advance s) = (.ok (val32 (BitVec.ofNat 32 (q.drafts.length + 1))),
      State.setSeq k { q with drafts := q.drafts ++ [BitVec.ofNat 16 (reg32 l.th f.b).toNat] } (advance s)) := by
  have hq' : seqOf (advance s) (whoOf s l.th).ctx (reg32 l.th f.a) = some (k, q) := (seqOf_advance ..).trans hq
  rw [draftOne, whoOf_sameT (sameT_advance s)]
  simp only [hq', hrun, Bool.false_eq_true, if_false, Nat.not_lt.2 hb, Nat.not_le.2 hroom, pnLive_advance, hpn, olderTokens_nil, winner_nil]
theorem draftOne_of_full (hfull : 16 ≤ q.drafts.length) :
    draftOne f l (advance s) = (.user false .none
      { cause := 0xA3, a := 0xFFFFFFFF, b := BitVec.ofNat 32 (reg32 l.th f.b).toNat, handle := reg32 l.th f.a, pos := q.len + q.drafts.length }, advance s) := by
  have hq' : seqOf (advance s) (whoOf s l.th).ctx (reg32 l.th f.a) = some (k, q) := (seqOf_advance ..).trans hq
  rw [draftOne, whoOf_sameT (sameT_advance s)]
  simp only [hq', hrun, Bool.false_eq_true, if_false, Nat.not_lt.2 hb, hfull, if_true]
end

/-! ### SEQCOMMIT -/

theorem commitOne_of_invalid {conf : Bool} (hno : seqOf s (s.ctxOf l.th) (reg32 l.th f.a) = none) :
    commitOne f conf l (advance s) = (.user false .none (seqFault 1 (reg32 l.th f.a)), advance s) := by
  have hno' : seqOf (advance s) (whoOf s l.th).ctx (reg32 l.th f.a) = none := (seqOf_advance ..).trans hno
  rw [commitOne, whoOf_sameT (sameT_advance s)]
  simp only [hno']

/-- The commit of one token that no pennant answers. -/
def plainCommit (q : Seq) (b cost : Nat) (ds : List (BitVec 16)) : Commit :=
  { len := q.len + 1, cost := min (q.cost + cost) (2 ^ 32 - 1), added := [b], n := 1, next := b, drafts := ds
    overAt := if q.cap < q.len + 1 - q.p0 ∨ q.costmax < min (q.cost + cost) (2 ^ 32 - 1) then some (b, q.len) else none }
theorem commitTok_plain (q : Seq) (b cost : Nat) (ds : List (BitVec 16)) :
    commitTok [] [] q cost { len := q.len, cost := q.cost, next := b, drafts := ds } b = plainCommit q b cost (ds.drop 1) := by
  rw [commitTok]
  simp only [winner_nil, Commit.add, plainCommit, gt_iff_lt, Bool.or_eq_true, decide_eq_true_eq, List.nil_append]
  rfl

/-- The one token that a commit takes from its operand, or from the drafts, with the drafts that stay. -/
def OneToken (conf : Bool) (q : Seq) (x b : Nat) (ds : List (BitVec 16)) : Prop :=
  (conf = false ∧ b = x ∧ ds = []) ∨ (conf = true ∧ x = 1 ∧ ∃ d, q.drafts = d :: ds ∧ b = d.toNat)
section
variable {conf : Bool} {x b : Nat} {ds : List (BitVec 16)} (htok : OneToken conf q x b ds)
include htok
theorem OneToken.toks : (if conf then (q.drafts.take x).map (·.toNat) else [x]) = [b] := by
  rcases htok with ⟨rfl, rfl, -⟩ | ⟨rfl, rfl, d, hd, rfl⟩
  · rfl
  · simp [hd]
theorem OneToken.drafts : (if conf then q.drafts else []).drop 1 = ds := by
  rcases htok with ⟨rfl, -, rfl⟩ | ⟨rfl, -, d, hd, -⟩
  · rfl
  · simp [hd]
theorem OneToken.fits (hb : b < 2 ^ 16) : (if conf then decide (x > q.drafts.length) else decide (x > 0xFFFF)) = false := by
  rcases htok with ⟨rfl, rfl, -⟩ | ⟨rfl, rfl, d, hd, -⟩
  · exact decide_eq_false (by omega)
  · simp [hd]
end
section
variable {conf : Bool} {b : Nat} {ds : List (BitVec 16)} (hq : seqOf s (s.ctxOf l.th) (reg32 l.th f.a) = some (k, q)) (hrun : q.stopped = false)
  (hpn : pnLive s q false = []) (hb : b < 2 ^ 16) (htok : OneToken conf q (reg32 l.th f.b).toNat b ds)
include hq hrun hpn hb htok
/-- A commit of one token over a limit. -/
theorem commitOne_of_over (hover : q.cap < q.len + 1 - q.p0 ∨ q.costmax < min (q.cost + (reg32 l.th f.c).toNat) (2 ^ 32 - 1)) :
    commitOne f conf l (advance s) = (.user false .none
      { cause := 0xA1, a := 0xFFFFFFFF, b := BitVec.ofNat 32 b, handle := reg32 l.th f.a, pos := q.len }, advance s) := by
  have hq' : seqOf (advance s) (whoOf s l.th).ctx (reg32 l.th f.a) = some (k, q) := (seqOf_advance ..).trans hq
  have hlimit : (plainCommit q b (reg32 l.th f.c).toNat ds).overAt = some (b, q.len) := if_pos hover
  rw [commitOne, whoOf_sameT (sameT_advance s)]
  simp only [hq', hrun, htok.fits hb, htok.toks, pnLive_advance, hpn, olderTokens_nil, List.isEmpty_cons, List.foldl_cons, List.foldl_nil,
    List.getLastD_cons, List.getLastD_nil, commitTok_plain, htok.drafts, hlimit, Bool.false_eq_true, if_false]
/-- A commit of one token that is written. -/
theorem commitOne_of_written (hcap : q.len + 1 - q.p0 ≤ q.cap) (hcost : min (q.cost + (reg32 l.th f.c).toNat) (2 ^ 32 - 1) ≤ q.costmax)
    (hv : vaWrite (whoOf s l.th) { w := true } (q.log.toNat + 2 * (q.len - q.p0)) (natLe 2 b) (advance s) = .ok v) :
    commitOne f conf l (advance s) = (.ok (val32 (BitVec.ofNat 32 (b + 2 ^ 16))),
      State.setSeq k { q with len := q.len + 1, cost := min (q.cost + (reg32 l.th f.c).toNat) (2 ^ 32 - 1), drafts := ds } v) := by
  have hq' : seqOf (advance s) (whoOf s l.th).ctx (reg32 l.th f.a) = some (k, q) := (seqOf_advance ..).trans hq
  have hlimit : (plainCommit q b (reg32 l.th f.c).toNat ds).overAt = none := if_neg (by omega)
  have hbytes : (plainCommit q b (reg32 l.th f.c).toNat ds).added.flatMap (fun t => natLe 2 t) = natLe 2 b := by simp [plainCommit]
  have hstop : (plainCommit q b (reg32 l.th f.c).toNat ds).stop = none := rfl
  have hnext : (plainCommit q b (reg32 l.th f.c).toNat ds).next = b := rfl
  have hn : (plainCommit q b (reg32 l.th f.c).toNat ds).n = 1 := rfl
  have hflags : (plainCommit q b (reg32 l.th f.c).toNat ds).flags = 0 := rfl
  have heffects : (plainCommit q b (reg32 l.th f.c).toNat ds).effects = [] := rfl
  rw [commitOne, whoOf_sameT (sameT_advance s)]
  simp only [hq', hrun, htok.fits hb, htok.toks, pnLive_advance, hpn, olderTokens_nil, List.isEmpty_cons, List.foldl_cons, List.foldl_nil,
    List.getLastD_cons, List.getLastD_nil, commitTok_plain, htok.drafts, hlimit, hbytes, Seq.tokAddr, hv, hstop, hnext, hn,
    hflags, heffects, applyEffects_nil, Nat.mul_one, Nat.or_self, Nat.mul_zero, Nat.add_zero, Bool.false_eq_true, if_false]
  rfl
end

end

end Sys2Proof.Proofs
end

section
/-!
PROOFS. Writes of an agent through its translations, and SEQCOMMIT's own (spec 13 R272, R283, 17 R356).
-/
namespace Sys2Proof.Proofs
open Machine Laws

section
variable {s u v : State}

/-! ### An agent's write -/

theorem homeward_request {x : Nat} {p : Packet} {t : Option Nat} (h : request x p t s = .ok u) : Homeward s u := by
  have hport : ∀ (port m : Nat) (q : Packet) (w : State), Homeward w (sendPacket port m q w) := fun port m q w => by
    rw [sendPacket_rest]
    exact homeward_of_eq rfl rfl rfl rfl rfl
  have hflow : ∀ (k : Nat) (g : Flow → Flow) (w : State), Homeward w (modFlow k g w) := fun k g w => by
    rw [modFlow]
    split
    · exact homeward_of_eq rfl rfl rfl rfl rfl
    · exact homeward_refl w
  rw [request] at h
  split at h
  · cases h
  next k _ =>
    split at h
    · cases h
    · obtain rfl := Sent.ok.inj h
      rw [sendOn]
      exact (hflow ..).trans (hport ..)
theorem homeward_sendWrite {x pa : Nat} {bs : List Byte} {t : Option Nat} (h : sendWrite x pa bs t s = .ok u) : Homeward s u := by
  have hlease : ∀ w : State, Homeward w (updateLease pa bs w) := fun w => by
    rw [updateLease]
    split
    · exact homeward_refl w
    · exact homeward_of_eq rfl rfl rfl rfl rfl
  have hstale : ∀ w : State, Homeward w (staleAsks (lineOf pa) w) := fun w => homeward_of_eq rfl rfl rfl rfl rfl
  rw [sendWrite] at h
  split at h
  next w hw =>
    obtain rfl := Sent.ok.inj h
    exact ((homeward_request hw).trans (hstale _)).trans (hlease _)
  next r hr => exact absurd h (hr u)
theorem homeward_farWrite (w : Option Nat) (mode pa : Nat) (bs : List Byte) (s : State) : Homeward s (farWrite w mode pa bs s) := by
  rw [farWrite]
  split
  · exact homeward_of_eq rfl rfl rfl rfl rfl
  · refine Homeward.trans (Homeward.trans ?_ (homeward_l2Dirty ..)) (homeward_homeWrite ..)
    split
    · exact (homeward_settleLine ..).trans (homeward_recallLine ..)
    · exact homeward_refl s
theorem homeward_agentWrite (w : Who) (x : Xlat) (bs : List Byte) (s : State) : Homeward s (agentWrite w x bs s) := by
  rw [agentWrite]
  split
  · split
    next u hu => exact homeward_sendWrite hu
    · exact homeward_refl s
  · refine Homeward.trans ?_ (homeward_farWrite ..)
    split
    · exact homeward_dropSwm ..
    · exact homeward_refl s
theorem homeward_vaWrite {w : Who} {need : Need} {va : Nat} {bs : List Byte} (h : vaWrite w need va bs s = .ok v) : Homeward s v := by
  rw [vaWrite] at h
  split at h
  · cases h
  · obtain rfl := Except.ok.inj h
    refine homeward_foldl (fun u c => ?_) _ _
    split
    · exact homeward_agentWrite ..
    · exact homeward_refl u

/-! ### The commit -/

section
variable {f : Fields} {l : Lane} {k b : Nat} {q : Seq} {ds : List (BitVec 16)} {conf : Bool} (hs : LanesSound s) (he : s.execLanes f = [l])
  (hq : seqOf s (s.ctxOf l.th) (reg32 l.th f.a) = some (k, q)) (hrun : q.stopped = false) (hpn : pnLive s q false = []) (hb : b < 2 ^ 16)
  (htok : OneToken conf q (reg32 l.th f.b).toNat b ds)
include hs he hq hrun hpn hb htok
theorem commit_written (hcap : q.len + 1 - q.p0 ≤ q.cap) (hcost : min (q.cost + (reg32 l.th f.c).toNat) (2 ^ 32 - 1) ≤ q.costmax) (hpend : NoPending s)
    (hv : vaWrite (whoOf s l.th) { w := true } (q.log.toNat + 2 * (q.len - q.p0)) (natLe 2 b) (advance s) = .ok v) :
    let t := eachSeq f (commitOne f conf) s
    t.mem = v.mem ∧ DoneBare f s t (fun _ => val32 (BitVec.ofNat 32 (b + 2 ^ 16))) ∧
      t.seq k = { q with len := q.len + 1, cost := min (q.cost + (reg32 l.th f.c).toNat) (2 ^ 32 - 1), drafts := ds } ∧ ∀ j, j ≠ k → t.seq j = s.seq j := by
  have hpend' : NoPending (advance s) := fun j => by
    rw [dirOf, show (advance s).home = s.home by rw [sameT_advance s]]
    exact hpend j
  obtain ⟨hkept, -⟩ := (homeward_vaWrite hv).keeps hpend'
  rw [eachSeq_of_ok he (commitOne_of_written hq hrun hpn hb htok hcap hcost hv)]
  refine ⟨mem_modThread .., doneBare_ok hs he hkept.thr, ?_, fun j hj => ?_⟩
  · rw [seq_modThread, seq_setSeq, if_pos rfl]
  · rw [seq_modThread, seq_setSeq, if_neg hj, seq_seqs (hkept.seqs.trans (seqs_advance s))]
theorem commit_over (hover : q.cap < q.len + 1 - q.p0 ∨ q.costmax < min (q.cost + (reg32 l.th f.c).toNat) (2 ^ 32 - 1)) (hesc : escalates s l.th = false) :
    SeqTrapped s (eachSeq f (commitOne f conf) s) l
      { cause := 0xA1, a := 0xFFFFFFFF, b := BitVec.ofNat 32 b, handle := reg32 l.th f.a, pos := q.len } :=
  eachSeq_trapped hs he hesc (commitOne_of_over hq hrun hpn hb htok hover)
end

end

end Sys2Proof.Proofs
end

section
/-!
PROOFS. SEQNEW, SEQFORK, PNSET, PNCLR and SAMPLE (spec 17 R348, R349, R352 to R354).
-/
namespace Sys2Proof.Proofs
open Machine Laws

section
variable {f : Fields} {s u : State} {l : Lane} {k : Nat} {q : Seq}

/-! ### Descriptors -/

/-- One executing thread, whose descriptor and log have passed their checks. -/
theorem withDescs_one {o : Opnd} {desHandle : Lane → Word} {pre : State → Lane → Option SeqTrap} {act : Lane → Seq → State → SeqOut × State} {x : Xlat}
    {d : LaneOut} (he : s.execLanes f = [l]) (hpre : ∀ v, v = s ∨ v = advance s → pre v l = none)
    (hx : checkGlobal s (whoOf s l.th) { r := true } 8 (reg64 l.th o) = .ok x)
    (hp : rangePoisoned s (whoOf s l.th) { r := true } (reg64 l.th o).toNat 32 = none)
    (hd : ∀ v, v = s ∨ v = advance s → descOf v (reg64 l.th o) l = .ok (some q)) (hact : act l q (advance s) = (.ok d, u)) :
    withDescs f o desHandle pre act s = u.modThread l.id fun t => writeOut f d t := by
  have hone : (byHidx [l]).filter (fun l => (pre s l).isNone) = [l] := by
    rw [byHidx_single]
    exact List.filter_cons_of_pos (by rw [hpre s (.inl rfl)]; rfl)
  rw [withDescs, he, hone]
  simp only [List.filterMap_cons, List.filterMap_nil, List.findSome?_cons, List.findSome?_nil, hx, hp, hd s (.inl rfl), List.isEmpty_nil, Bool.not_true,
    Bool.false_eq_true, if_false]
  exact eachSeq_of_ok he (by simp only [hpre (advance s) (.inr rfl), hd (advance s) (.inr rfl), hact])
section
variable {x : Xlat} (he : s.execLanes f = [l]) (hx : checkGlobal s (whoOf s l.th) { r := true } 8 (reg64 l.th f.a) = .ok x)
  (hp : rangePoisoned s (whoOf s l.th) { r := true } (reg64 l.th f.a).toNat 32 = none)
  (hd : ∀ v, v = s ∨ v = advance s → descOf v (reg64 l.th f.a) l = .ok (some q))
include he hx hp hd
theorem seqnew_of_free {g : BitVec 16} (hfree : freeSeq s = some (k, g)) :
    seqnew f s = (State.setSeq k { q with gen := g } (advance s)).modThread l.id fun t => writeOut f (val32 (BitVec.ofNat 32 (k + 2 ^ 14 * g.toNat))) t := by
  refine withDescs_one he (fun _ _ => rfl) hx hp hd ?_
  simp only [freeSeq_seqs (seqs_advance s), hfree]
  rfl
theorem seqnew_of_full (hfull : freeSeq s = none) : seqnew f s = (advance s).modThread l.id fun t => writeOut f (val32 0) t := by
  refine withDescs_one he (fun _ _ => rfl) hx hp hd ?_
  simp only [freeSeq_seqs (seqs_advance s), hfull]
end
/-- The entry of a fork. -/
def forkOf (q : Seq) (g : BitVec 16) (pre m : Nat) : Seq := { q with gen := g, forked := true, p0 := pre, parent := m, len := pre }
theorem seqfork_of_free {x : Xlat} {g : BitVec 16} {m : Nat} {p : Seq} (he : s.execLanes f = [l])
    (hx : checkGlobal s (whoOf s l.th) { r := true } 8 (reg64 l.th f.c) = .ok x)
    (hp : rangePoisoned s (whoOf s l.th) { r := true } (reg64 l.th f.c).toNat 32 = none)
    (hd : ∀ v, v = s ∨ v = advance s → descOf v (reg64 l.th f.c) l = .ok (some q))
    (hm : seqOf s (s.ctxOf l.th) (reg32 l.th f.a) = some (m, p)) (hlen : (reg32 l.th f.b).toNat ≤ p.len) (hfree : freeSeq s = some (k, g)) :
    seqfork f s = (State.setSeq m { p with lastfork := BitVec.ofNat 32 (k + 2 ^ 14 * g.toNat) }
      (State.setSeq k (forkOf q g (reg32 l.th f.b).toNat m) (advance s))).modThread l.id
        fun t => writeOut f (val32 (BitVec.ofNat 32 (k + 2 ^ 14 * g.toNat))) t := by
  have hm' : seqOf (advance s) ((advance s).ctxOf l.th) (reg32 l.th f.a) = some (m, p) := seqOf_here .. |>.trans hm
  have hne : m ≠ k := by
    rintro rfl
    have hused := freeSeq_unused hfree
    rw [seq_of_seqOf hm, (seqOf_some hm).2.1] at hused
    cases hused
  have hparent : (State.setSeq k (forkOf q g (reg32 l.th f.b).toNat m) (advance s)).seq m = p := by
    rw [seq_setSeq, if_neg hne, seq_seqs (seqs_advance s), seq_of_seqOf hm]
  refine withDescs_one he ?_ hx hp hd ?_
  · rintro v (rfl | rfl)
    · simp only [hm, gt_iff_lt, Nat.not_lt.2 hlen, if_false]
    · simp only [hm', gt_iff_lt, Nat.not_lt.2 hlen, if_false]
  · simp only [hm', freeSeq_seqs (seqs_advance s), hfree]
    rw [← hparent]
    rfl
theorem seqfork_done {g : BitVec 16} {m : Nat} {p c : Seq} {d : LaneOut} (hs : LanesSound s) (he : s.execLanes f = [l])
    (hm : seqOf s (s.ctxOf l.th) (reg32 l.th f.a) = some (m, p)) (hfree : freeSeq s = some (k, g)) {r : Seq} :
    let t := (State.setSeq m r (State.setSeq k c (advance s))).modThread l.id fun t => writeOut f d t
    t.mem = s.mem ∧ t.seq k = c ∧ t.seq m = r ∧ (∀ j, j ≠ k → j ≠ m → t.seq j = s.seq j) ∧ LanesBecome f s t fun l => writeOut f d (nextTh s l.th) := by
  have hne : k ≠ m := by
    rintro rfl
    have hused := freeSeq_unused hfree
    rw [seq_of_seqOf hm, (seqOf_some hm).2.1] at hused
    cases hused
  refine ⟨(mem_modThread ..).trans mem_advance, ?_, ?_, fun j hk hj => ?_, lanesBecome_ok hs he fun j => rfl⟩
  · rw [seq_modThread, seq_setSeq, if_neg hne, seq_setSeq, if_pos rfl]
  · rw [seq_modThread, seq_setSeq, if_pos rfl]
  · rw [seq_modThread, seq_setSeq, if_neg hj, seq_setSeq, if_neg hk, seq_seqs (seqs_advance s)]

/-! ### Pennants -/

theorem checkGlobal_unaligned {w : Who} {n : Need} {a : Nat} {ea : DWord} {x : Xlat} (h : checkGlobal s w n a ea = .ok x) :
    ea.toNat % a = 0 ∧ checkGlobal s w n 1 ea = .ok x := by
  rw [checkGlobal] at h ⊢
  split at h
  · cases h
  next halign => exact ⟨not_not.1 halign, (if_neg (by omega)).trans h⟩
/-- A read of 64 aligned bytes of a calm line of local memory. -/
theorem vaRead_line {w : Who} {n : Need} {ea : DWord} {x : Xlat} (hx : checkGlobal s w n 64 ea = .ok x) (hremote : isRemote x.pa = false)
    (hpoison : poisoned s x.pa = false) (hcalm : CalmLine s (lineOf x.pa)) (hheld : s.home.hostHeld = []) (hquiet : QuietL1 s w.core) :
    vaRead w n ea.toNat 64 s = (.ok (homeBytes s x.pa 64), s) := by
  obtain ⟨halign, hone⟩ := checkGlobal_unaligned hx
  have hchunk : chunks 256 (64 / 256 + 2) ea.toNat 64 = [(ea.toNat, 64)] := by
    have hmin : min 64 (256 - ea.toNat % 256) = 64 := by omega
    simp [chunks, hmin]
  have hea : BitVec.ofNat 64 ea.toNat = ea := BitVec.ofNat_toNat _ _
  rw [vaRead, hchunk]
  simp only [List.foldl_cons, List.foldl_nil, hea, hone, hremote, hpoison, dropSwm_quiet hquiet, farRead_quiet s x.pa 64 hcalm hheld, List.nil_append,
    Bool.false_eq_true, if_false]
theorem pnset_eq {x : Xlat} (h : (s.execLanes f).head? = some l) (hx : checkGlobal s (whoOf s l.th) { r := true } 64 (reg64 l.th f.a) = .ok x)
    (hremote : isRemote x.pa = false) (hpoison : poisoned s x.pa = false) (hplain : PlainLoc s (.glob 0 x.pa)) (hquiet : QuietL1 s (s.coreOf l.th)) :
    pnset f s = if pnOk (BitVec.ofNat 512 (leNat (homeBytes s x.pa 64))) then
        (advance s).modCtx (s.ctxOf l.th) fun c => { c with pennants := Tab.put c.pennants (pnIndex f) (BitVec.ofNat 512 (leNat (homeBytes s x.pa 64))) }
      else takeSeq f false ((s.execLanes f).map fun l => (l, seqFault 3 0)) s := by
  obtain ⟨hcalm, hheld⟩ := hplain
  rw [pnset, waveOnce_of_head h]
  simp only [hx, vaRead_line hx hremote hpoison hcalm hheld hquiet]
  rfl
/-- The context's pennants changed, and every active thread advanced. -/
theorem modCtx_done (hs : LanesSound s) (c : Nat) (g : Ctx → Ctx) : let t := (advance s).modCtx c g
    t.mem = s.mem ∧ (LanesBecome f s t fun l => nextTh s l.th) ∧ t.ctx c = g (s.ctx c) := by
  refine ⟨mem_advance, lanesBecome_congr (lanesBecome_advance hs) fun j => rfl, ?_⟩
  rw [State.modCtx, ctx_setCtx, if_pos rfl, ctx_advance]

/-! ### SAMPLE -/

theorem ctxOf_pages (h : PagesOnly s u) (t : Thread) : u.ctxOf t = s.ctxOf t := by
  have hgrid : (u.team t.team).grid = (s.team t.team).grid := bare_grid (h.2 t.team)
  have hgrids : u.work.grids = s.work.grids := by rw [h.1]
  rw [State.ctxOf, State.gridOf, hgrid, State.grid, hgrids]
  rfl
theorem sampleArg_congr {acc : Bool} (hseqs : u.seqs = s.seqs) (hctx : u.ctxOf l.th = s.ctxOf l.th) : sampleArg f acc u l = sampleArg f acc s l := by
  rw [sampleArg, sampleArg, hctx, seqOf_seqs hseqs]
theorem pagesOnly_touchPages (team off n : Nat) (s : State) : PagesOnly s (touchPages team off n s) := pagesOnly_modTeam _ _ _ fun _ => rfl

section
variable {a : SampleArg} {v : Nat} {acc : Bool} {logits : Lane → Nat → State → List Nat}
theorem sampleOne_of_drawn {d : Nat} (harg : sampleArg f acc s l = .ok (a, v)) (hd : drawToken a (logits l v s) = some d) :
    sampleOne f acc logits l s = (.ok (val32 (BitVec.ofNat 32 d)), s) := by
  rw [sampleOne, harg]
  simp only [hd]
theorem sampleOne_of_unordered (harg : sampleArg f acc s l = .ok (a, v)) (hd : drawToken a (logits l v s) = none) :
    sampleOne f acc logits l s = (.ok (val32 ((loW s.fresh.1) &&& 0xFFFF)), { s with free := s.free + 1 }) := by
  rw [sampleOne, harg]
  simp only [hd]
  rfl
/-- The logits of a thread in its team's scratchpad, and those of a row of the accumulators. -/
def padLogits (f : Fields) (l : Lane) (v : Nat) (s : State) : List Nat :=
  (List.range v).map fun i => leAt (scratchBytes s l.th.team (sampleOff f l) (4 * v)) (4 * i) 4
def accLogits (f : Fields) (c : Nat) (s : State) : List Nat :=
  (blocksOf (f.imm.extractLsb' 6 8).toNat).flatMap fun m => (List.range 64).map fun n => accOut 0 ((s.mxe c).entry (f.imm.extractLsb' 0 6).toNat (64 * m + n))

theorem sampleAcc_eq (h : GroupReady f s l) : sampleAcc f s = eachSeq f (sampleOne f true fun _ _ u => accLogits f (s.coreOf l.th) u) s :=
  withGroup_of_some h rfl

section
variable (he : s.execLanes f = [l]) (harg : sampleArg f false s l = .ok (a, v)) (hlo : checkScratch s l.th.team 4 (sampleOff f l) = none)
  (hhi : checkScratch s l.th.team 1 (sampleOff f l + 4 * v - 1) = none)
  (hreach : ∀ p ∈ pagesOf (sampleOff f l) (4 * v), pageReached s l.th.team p = true ∨
    32 < (pagesOf (sampleOff f l) (4 * v)).length ∧ inTransit s l.th.team (4096 * p) 1 = false)
  (hback : ∀ k, k < (4 * v + 508) / 256 → backPoisoned s l.th.team (sampleOff f l + 256 * k) = false)
include hreach in
theorem sample_missing : missingPages s l.th.team ((pagesOf (sampleOff f l) (4 * v)).filter fun p =>
    decide ((pagesOf (sampleOff f l) (4 * v)).length ≤ 32) || inTransit s l.th.team (4096 * p) 1) = [] := by
  have hnone : ((dedup ((pagesOf (sampleOff f l) (4 * v)).filter fun p =>
      decide ((pagesOf (sampleOff f l) (4 * v)).length ≤ 32) || inTransit s l.th.team (4096 * p) 1)).filter fun p => !pageReached s l.th.team p) = [] := by
    refine List.filter_eq_nil_iff.2 fun p hp hno => ?_
    obtain ⟨hin, hneed⟩ := List.mem_filter.1 (mem_dedup hp)
    rcases hreach p hin with hyes | ⟨hmany, htransit⟩
    · rw [hyes] at hno
      cases hno
    · rw [htransit, decide_eq_false (by omega)] at hneed
      cases hneed
  rw [missingPages, hnone]
  rfl
include he harg hlo hhi hreach hback
theorem sample_eq : sample f s = eachSeq f (sampleOne f false (padLogits f)) (touchPages l.th.team (sampleOff f l) (4 * v) s) := by
  have hpoison : (((List.range ((4 * v + 508) / 256)).map fun k => sampleOff f l + 256 * k).find? fun o => backPoisoned s l.th.team o) = none := by
    refine List.find?_eq_none.2 fun o ho hyes => ?_
    obtain ⟨k, hk, rfl⟩ := List.mem_map.1 ho
    rw [hback k (List.mem_range.1 hk)] at hyes
    cases hyes
  have hmissing := sample_missing hreach
  rw [sample, he, byHidx_single]
  simp only [List.filterMap_cons, List.filterMap_nil, harg, hlo, hhi, Option.orElse_none, Option.map_none, List.flatMap_cons, List.flatMap_nil, List.append_nil,
    hmissing, dedup, List.isEmpty_nil, Bool.not_true, Bool.false_eq_true, if_false, List.findSome?_cons, List.findSome?_nil, hpoison, List.foldl_cons,
    List.foldl_nil]
  rfl
end
end

end

end Sys2Proof.Proofs
end

section
/-!
PROOFS. The statement of sequences, pennants and sampling (spec 17 R347 to R358).
-/
namespace Sys2Proof.Proofs
open Machine Laws

section
variable {f : Fields} {s t : State} {l : Lane} {h : Word}

/-- An invalid handle raises SEQ_FAULT with reason 1. -/
theorem invalidHandle_done {i : Instr} (hexec : exec i s = .next t) (ht : SeqTrapped s t l (seqFault 1 h)) : ∃ t y, exec i s = .next t ∧
    t.mem = s.mem ∧ t.seqs = s.seqs ∧ t.thread? l.id = some y ∧ y.handler = true ∧ y.trap.cause = 0xA2 ∧ y.trap.evalA = 1 ∧
    y.trap.einfo = pairOf h 0 ∧ y.v = l.th.v := by
  obtain ⟨hmem, hseqs, y, hy, hhandler, hcause, ha, -, hinfo, hv⟩ := ht
  exact ⟨t, y, hexec, hmem, hseqs, hy, hhandler, hcause, ha, hinfo, hv⟩
theorem invalidHandle (hs : LanesSound s) (he : s.execLanes f = [l]) (hno : seqOf s (s.ctxOf l.th) (reg32 l.th f.a) = none)
    (hesc : escalates s l.th = false) {i : Instr}
    (hi : i = .seqrd f ∨ i = .seqrej f ∨ i = .seqend f ∨ i = .seqcommit f ∨ i = .seqcommitConf f ∨ i = .seqdraft f) :
    ∃ t y, exec i s = .next t ∧ t.mem = s.mem ∧ t.seqs = s.seqs ∧ t.thread? l.id = some y ∧ y.handler = true ∧ y.trap.cause = 0xA2 ∧ y.trap.evalA = 1 ∧
      y.trap.einfo = pairOf (reg32 l.th f.a) 0 ∧ y.v = l.th.v := by
  rcases hi with rfl | rfl | rfl | rfl | rfl | rfl
  · exact invalidHandle_done rfl (onSeq_of_invalid hs he hesc hno)
  · exact invalidHandle_done rfl (onSeq_of_invalid hs he hesc hno)
  · exact invalidHandle_done rfl (onSeq_of_invalid hs he hesc hno)
  · exact invalidHandle_done rfl (eachSeq_trapped hs he hesc (commitOne_of_invalid hno))
  · exact invalidHandle_done rfl (eachSeq_trapped hs he hesc (commitOne_of_invalid hno))
  · exact invalidHandle_done rfl (eachSeq_trapped hs he hesc (draftOne_of_invalid hno))
end

/-- Settles O49: each operation on a valid handle's entry, new entries, pennants and draws. -/
theorem sequences : Obligations.Sequences := by
  unfold Obligations.Sequences
  refine ⟨fun f s l h hs he hh => ?_, fun w k q b s => ⟨rfl, rfl, rfl, rfl, rfl, rfl, rfl, fun hb => if_pos hb⟩,
    fun f s l q hs he => ⟨fun x hx hp hd => ⟨fun k g hfree => ?_, fun hfull => ?_⟩, fun x k g m p hx hp hd hm hlen hfree => ?_⟩,
    fun f s l n hs hl hn => ?_, fun f s l a v hs he => ⟨fun harg hlo hhi hreach hback u xs hu hxs => ?_, fun harg hgroup xs hxs d hd => ?_⟩⟩
  · subst hh
    refine ⟨fun hno hesc i hi => invalidHandle hs he hno hesc hi, fun k q hq => ⟨fun d hd => ?_, ?_, fun hshared hp0 => ?_, fun hshared => ?_,
      fun hrun hb hpn hroom => ?_, fun hrun hb hfull hesc => ?_, fun i b ds sum hrun hpn hb hi hsum => ?_⟩⟩
    · refine ⟨_, congrArg Host.Outcome.next (onSeq_of_valid (u := advance s) (d := d) he hq ?_), sameT_trans (sameT_advance s) (sameT_modThread ..),
        lanesBecome_ok hs he fun j => rfl⟩
      simp only [whoOf_sameT (sameT_advance s), hd]
    · exact ⟨_, congrArg Host.Outcome.next (onSeq_of_valid he hq rfl), setSeq_done hs he⟩
    · have hend : endSeq (Config.numSequences + 1) k (advance s) = State.setSeq k { gen := q.gen } (advance s) := by
        have hseq : (advance s).seq k = q := (seq_seqs (seqs_advance s) k).trans (seq_of_seqOf hq)
        rw [endSeq_of_alone (by rwa [seqs_advance]) (by rw [hseq]; exact hp0), hseq]
      exact ⟨_, congrArg Host.Outcome.next (onSeq_of_valid he hq (congrArg (Prod.mk (SeqOut.ok .none)) hend)), setSeq_done hs he⟩
    · have hend : endSeq (Config.numSequences + 1) k (advance s) = State.setSeq k { q with drafts := [], ending := true, live := false } (advance s) := by
        have hseq : (advance s).seq k = q := (seq_seqs (seqs_advance s) k).trans (seq_of_seqOf hq)
        rw [endSeq_of_shared (by rwa [seqs_advance]), hseq]
      exact ⟨_, congrArg Host.Outcome.next (onSeq_of_valid he hq (congrArg (Prod.mk (SeqOut.ok .none)) hend)), setSeq_done hs he⟩
    · exact ⟨_, congrArg Host.Outcome.next (eachSeq_of_ok he (draftOne_of_room hq hrun hb hpn hroom)), setSeq_done hs he⟩
    · obtain ⟨hmem, hseqs, y, hy, hhandler, hcause, -⟩ := eachSeq_trapped hs he hesc (draftOne_of_full hq hrun hb hfull)
      exact ⟨_, y, rfl, hmem, hseqs, hy, hhandler, hcause⟩
    · subst hsum
      obtain ⟨conf, htok, hexec⟩ : ∃ conf, OneToken conf q (reg32 l.th f.b).toNat b ds ∧ exec i s = .next (eachSeq f (commitOne f conf) s) := by
        rcases hi with ⟨rfl, hbx, hds⟩ | ⟨rfl, hone, hd⟩
        · exact ⟨false, .inl ⟨rfl, hbx, hds⟩, rfl⟩
        · exact ⟨true, .inr ⟨rfl, hone, hd⟩, rfl⟩
      refine ⟨fun hcap hcost hdir v hv => ⟨_, hexec, commit_written hs he hq hrun hpn hb htok hcap hcost (noPending_of_dir hdir) hv⟩, fun hover hesc => ?_⟩
      obtain ⟨hmem, hseqs, y, hy, hhandler, hcause, ha, hbv, -⟩ := commit_over hs he hq hrun hpn hb htok hover hesc
      exact ⟨_, y, hexec, hmem, hseqs, hy, hhandler, hcause, ha, hbv⟩
  · obtain ⟨hmem, hlanes, hk, hothers⟩ := setSeq_done (k := k) (p := { q with gen := g }) (d := val32 (BitVec.ofNat 32 (k + 2 ^ 14 * g.toNat))) hs he
    exact ⟨_, congrArg Host.Outcome.next (seqnew_of_free he hx hp hd hfree), hmem, hk, hothers, hlanes⟩
  · exact ⟨_, congrArg Host.Outcome.next (seqnew_of_full he hx hp hd hfull), sameT_trans (sameT_advance s) (sameT_modThread ..), lanesBecome_ok hs he fun j => rfl⟩
  · exact ⟨_, congrArg Host.Outcome.next (seqfork_of_free he hx hp hd hm hlen hfree), seqfork_done hs he hm hfree⟩
  · subst hn
    refine ⟨⟨_, congrArg Host.Outcome.next (waveOnce_of_head hl), modCtx_done hs _ _⟩, fun x p hx hremote hpoison hplain hquiet hp => ?_⟩
    subst hp
    have hset := pnset_eq hl hx hremote hpoison hplain hquiet
    refine ⟨fun hok => ⟨_, congrArg Host.Outcome.next (hset.trans (if_pos hok)), modCtx_done hs _ _⟩, fun hbad => ?_⟩
    exact congrArg Host.Outcome.next (hset.trans (if_neg (by simp [hbad])))
  · subst hu hxs
    have hpages := pagesOnly_touchPages l.th.team (sampleOff f l) (4 * v) s
    generalize hu : touchPages l.th.team (sampleOff f l) (4 * v) s = u at hpages
    have heq : sample f s = eachSeq f (sampleOne f false (padLogits f)) u := by rw [sample_eq he harg hlo hhi hreach hback, hu]
    have heu : u.execLanes f = [l] := (pagesOnly_execLanes hpages f).trans he
    have hseqs : (advance u).seqs = s.seqs := (seqs_advance u).trans (by rw [hpages.1])
    have hargu : sampleArg f false (advance u) l = .ok (a, v) :=
      (sampleArg_congr hseqs ((ctxOf_sameT (sameT_advance u) l.th).trans (ctxOf_pages hpages l.th))).trans harg
    have hpad : scratchBytes (advance u) l.th.team (sampleOff f l) (4 * v) = scratchBytes s l.th.team (sampleOff f l) (4 * v) := by
      have hteam : (advance u).team l.th.team = u.team l.th.team := by rw [State.team, sameT_advance u, State.team]
      rw [← scratchBytes_pages hpages, scratchBytes, hteam, scratchBytes]
    have hlogits : padLogits f l v (advance u) = (List.range v).map fun i =>
        leNat (((scratchBytes s l.th.team (sampleOff f l) (4 * v)).drop (4 * i)).take 4) := by
      rw [padLogits, hpad]
      rfl
    have hfree : u.free = s.free := by rw [hpages.1]
    refine ⟨fun d hd => ?_, fun hd => ?_⟩
    · exact ⟨_, congrArg Host.Outcome.next (heq.trans (eachSeq_of_ok heu (sampleOne_of_drawn hargu (by rw [hlogits, hd])))),
        sameT_trans (sameT_advance u) (sameT_modThread ..), lanesBecome_ok hs he (pagesOnly_advance hpages)⟩
    · refine ⟨_, _, congrArg Host.Outcome.next (heq.trans (eachSeq_of_ok heu (sampleOne_of_unordered hargu (by rw [hlogits, hd])))), ?_,
        lanesBecome_ok hs he (pagesOnly_advance hpages)⟩
      rw [← hfree, show (advance u).free = u.free by rw [sameT_advance u]]
      exact sameT_trans (sameT_withFree _ (sameT_advance u)) (sameT_modThread ..)
  · subst hxs
    have hargu : sampleArg f true (advance s) l = .ok (a, v) := (sampleArg_congr (seqs_advance s) (ctxOf_sameT (sameT_advance s) l.th)).trans harg
    have hmxe : (advance s).mxe (s.coreOf l.th) = s.mxe (s.coreOf l.th) := by rw [State.mxe, group_advance, State.mxe]
    refine ⟨_, congrArg Host.Outcome.next ((sampleAcc_eq hgroup).trans (eachSeq_of_ok he (sampleOne_of_drawn hargu (d := d) ?_))),
      sameT_trans (sameT_advance s) (sameT_modThread ..), lanesBecome_ok hs he fun j => rfl⟩
    rw [accLogits, hmxe]
    exact hd

end Sys2Proof.Proofs
end
